-- ==== Sys2Proof/Word.lean ====
section
/-! DEFINITION. The widths of the MV7's words (07 R209) and the plainest arithmetic on them. -/
namespace Sys2Proof

/-- A 64-bit scalar or special register (R209, R210). -/
abbrev Word := BitVec 64
/-- A byte, the unit of memory (R6). -/
abbrev Byte := BitVec 8
/-- A vector or exchange register (R209). -/
abbrev Vec := BitVec 2048
/-- A mask register: one bit per lane (R209, R292). -/
abbrev Mask := BitVec 256
/-- The code of an s register (R231): s0 to s63. -/
abbrev SReg := BitVec 6
/-- The number of an exchange register g0 to g15 (R231). -/
abbrev GReg := BitVec 4

end Sys2Proof
end

