-- ==== Sys2Proof/Syntax.lean ====
section
/-! DEFINITION. The abstract syntax: the operand kinds of 08 and 09, and `Instr`, one constructor for each row of
the opcode table: the syllables of the seven slot classes (R249, R252 to R257), the empty bundle (R224), and the
part's other steps, which no word encodes (95). -/
namespace Sys2Proof

/-- The two vector slots (R222). -/
inductive VSlot where | v0 | v1
  deriving DecidableEq, Repr

/-- A register field of a V syllable (R231): a register of the slot's own file, or an exchange register. -/
inductive VReg where
  | own (n : BitVec 5)
  | g (n : GReg)
  deriving DecidableEq, Repr

/-- Integer element formats, in the order of their ty codes (R41, R232). -/
inductive IFmt where | i8 | i16 | i32 | i64 | n8 | n16 | n32 | n64
  deriving DecidableEq, Repr

/-- Float element formats, in the order of their ty codes (R41, R232). -/
inductive FFmt where | e4m3 | e5m2 | f16 | bf16 | f32 | f64
  deriving DecidableEq, Repr

/-- Rounding modes (R48). -/
inductive RMode where | rne | rtz | rdn | rup | rna
  deriving DecidableEq, Repr

/-- The rounding field: a mode, or `.dyn` (R48). -/
inductive Rnd where
  | mode (m : RMode)
  | dyn
  deriving DecidableEq, Repr

/-- Orders (R229). -/
inductive Ord where | rlx | acq | rel | ar
  deriving DecidableEq, Repr

/-- Scopes (R127). -/
inductive Scope where | ctx | core | cl | die | pkg | dom | sys | inf
  deriving DecidableEq, Repr

/-- Conditions of `cmp` and `cmpi` (R250). -/
inductive SCond where | eq | ne | lt | ge | ltn | gen
  deriving DecidableEq, Repr

/-- Conditions of `vcmp` (R250). -/
inductive VCond where | eq | ne | lt | ge
  deriving DecidableEq, Repr

/-- Conditions of `fcmp` (R250). -/
inductive FCond where | eq | ne | lt | ge | un | or
  deriving DecidableEq, Repr

/-- Tests of `brc` (R268). -/
inductive BrTest where | z | nz | neg | nneg
  deriving DecidableEq, Repr

/-- Access widths of `ld`, `st`, `lda`, `stl` (R250). -/
inductive Width where | d64 | i8 | i16 | i32 | n8 | n16 | n32
  deriving DecidableEq, Repr

/-- Word widths of the atomics (R281) and of `rop` (R256). -/
inductive AWidth where | w32 | w64
  deriving DecidableEq, Repr

/-- Single-word operations (R115); `fadd` only in `rop`. -/
inductive RouOp where | add | and | or | xor | min | max | minn | maxn | swap | fadd
  deriving DecidableEq, Repr

/-- Files of a ring declaration (R276). -/
inductive RingFile where | s | v | w | g
  deriving DecidableEq, Repr

/-- Special registers (R251). -/
inductive SpecReg where
  | ctxid | coreid | clk | fctl | fflags | tpc | tva | tcause | tstat | tcmd | wdog | lb | le
  | lc (n : BitVec 2) | lidx | ev (n : BitVec 3) | xstat
  deriving DecidableEq, Repr

/-- The sizes of `tldm` in bytes (R354). -/
inductive LdSize where | b256 | b128 | b64 | b32
  deriving DecidableEq, Repr

/-- Reduction operations of `smred` (R390). -/
inductive SmOp where | add | min | max
  deriving DecidableEq, Repr

/-- Element formats of `smred` (R390). -/
inductive SmFmt where | i32 | i64 | f32 | f64
  deriving DecidableEq, Repr

/-- A tile operand: a binding and the s registers of coordinates 0 to 5 (R228, R229). -/
structure TileOp where
  b : BitVec 5
  c0 : SReg
  c1 : SReg
  c2 : SReg
  c3 : SReg
  c4 : SReg
  c5 : SReg
  deriving DecidableEq, Repr

/-- A memory operand: a base register and an offset, imm12 with MOD aux above it (R229). -/
structure MemOp where
  a : SReg
  imm : BitVec 12
  aux : BitVec 13
  deriving DecidableEq, Repr

/-- The steps of the machine: one constructor per row of the opcode table. -/
inductive Instr where
  /- S slot (R249). `d`, `a`, `b` are s registers; `q` is the guard predicate (R260). -/
  | add (d a b : SReg) (q : BitVec 3)
  | sub (d a b : SReg) (q : BitVec 3)
  | and (d a b : SReg) (q : BitVec 3)
  | or (d a b : SReg) (q : BitVec 3)
  | xor (d a b : SReg) (q : BitVec 3)
  | shl (d a b : SReg) (q : BitVec 3)
  | shr (d a b : SReg) (q : BitVec 3)
  | sar (d a b : SReg) (q : BitVec 3)
  | min (d a b : SReg) (q : BitVec 3)
  | max (d a b : SReg) (q : BitVec 3)
  | minn (d a b : SReg) (q : BitVec 3)
  | maxn (d a b : SReg) (q : BitVec 3)
  | mul (d a b : SReg) (q : BitVec 3)
  | mulh (d a b : SReg) (q : BitVec 3)
  | mulhn (d a b : SReg) (q : BitVec 3)
  | div (d a b : SReg) (q : BitVec 3)
  | divn (d a b : SReg) (q : BitVec 3)
  | rem (d a b : SReg) (q : BitVec 3)
  | remn (d a b : SReg) (q : BitVec 3)
  | clz (d a : SReg) (q : BitVec 3)
  | popc (d a : SReg) (q : BitVec 3)
  | bext (d a b : SReg) (q : BitVec 3) (pos : BitVec 6) (wm1 : BitVec 7)
  | bins (d a b : SReg) (q : BitVec 3) (pos : BitVec 6) (wm1 : BitVec 7)
  | sel (d a b : SReg) (q : BitVec 3) (p : BitVec 3)
  | cmp (p : BitVec 3) (a b : SReg) (q : BitVec 3) (c : SCond)
  | addi (d a : SReg) (i : BitVec 44)
  | andi (d a : SReg) (i : BitVec 44)
  | ori (d a : SReg) (i : BitVec 44)
  | xori (d a : SReg) (i : BitVec 44)
  | shli (d a : SReg) (n : BitVec 6)
  | shri (d a : SReg) (n : BitVec 6)
  | sari (d a : SReg) (n : BitVec 6)
  | cmpi (p : BitVec 3) (a : SReg) (i : BitVec 44) (c : SCond)
  | li (d : SReg) (i : BitVec 50)
  | lih (d : SReg) (i : BitVec 50)
  | br (p : BitVec 3) (neg : Bool) (off : BitVec 20)
  | brc (p : BitVec 3) (neg : Bool) (off : BitVec 20) (c : SReg) (t : BrTest)
  | call (p : BitVec 3) (neg : Bool) (off : BitVec 20)
  | callr (a : SReg) (q : BitVec 3)
  | ret (a : SReg) (q : BitVec 3)
  | jr (a : SReg) (q : BitVec 3)
  | loop (c0 c1 c2 c3 : SReg) (levels : BitVec 2) (off : BitVec 12)
  | ring (f : RingFile) (base : BitVec 6) (len : BitVec 4)
  | mfsr (d : SReg) (r : SpecReg)
  | mtsr (r : SpecReg) (a : SReg)
  | ld (d : SReg) (m : MemOp) (w : Width)
  | st (d : SReg) (m : MemOp) (w : Width)
  | lda (d : SReg) (m : MemOp) (w : Width) (sc : Scope)
  | stl (d : SReg) (m : MemOp) (w : Width) (sc : Scope)
  | amo (op : RouOp) (d a b : SReg) (q : BitVec 3) (w : AWidth) (o : Ord) (sc : Scope)
  | amocas (d a b c : SReg) (q : BitVec 3) (w : AWidth) (o : Ord) (sc : Scope)
  | lr (d a : SReg) (q : BitVec 3) (w : AWidth) (o : Ord) (sc : Scope)
  | sc (d a b : SReg) (q : BitVec 3) (w : AWidth) (o : Ord) (s : Scope)
  | fence (o : Ord) (sc : Scope) (q : BitVec 3)
  | cwb (a b : SReg) (q : BitVec 3) (sc : Scope)
  | pref (m : MemOp) (clc : Bool)
  | xget (d : SReg) (g : GReg) (lane : BitVec 5)
  | trap (code : BitVec 8)
  | svc (num : BitVec 18)
  | eret (q : BitVec 3)
  | brk (tag : BitVec 18)
  | tlbinv (a b : SReg) (q : BitVec 3) (all : Bool)
  | wfi (q : BitVec 3)
  /- The empty bundle (R224): its header word. -/
  | nop (drain : Bool) (run : BitVec 4) (tmpl : BitVec 4)
  /- V slots (R252). `k` is the lane mask, `u` the slot the syllable stands in. -/
  | vadd (u : VSlot) (d a b : VReg) (k : BitVec 3) (t : IFmt)
  | vsub (u : VSlot) (d a b : VReg) (k : BitVec 3) (t : IFmt)
  | vadds (u : VSlot) (d a b : VReg) (k : BitVec 3) (t : IFmt)
  | vsubs (u : VSlot) (d a b : VReg) (k : BitVec 3) (t : IFmt)
  | vmul (u : VSlot) (d a b : VReg) (k : BitVec 3) (t : IFmt)
  | vmulh (u : VSlot) (d a b : VReg) (k : BitVec 3) (t : IFmt)
  | vmla (u : VSlot) (d a b c : VReg) (k : BitVec 3) (t : IFmt)
  | vmls (u : VSlot) (d a b c : VReg) (k : BitVec 3) (t : IFmt)
  | vaddw (u : VSlot) (d a b : VReg) (k : BitVec 3) (t : IFmt)
  | vmlaw (u : VSlot) (d a b c : VReg) (k : BitVec 3) (t : IFmt)
  | vnarrow (u : VSlot) (d a : VReg) (k : BitVec 3) (t : IFmt) (sat : Bool)
  | vabs (u : VSlot) (d a : VReg) (k : BitVec 3) (t : IFmt)
  | vneg (u : VSlot) (d a : VReg) (k : BitVec 3) (t : IFmt)
  | vmin (u : VSlot) (d a b : VReg) (k : BitVec 3) (t : IFmt)
  | vmax (u : VSlot) (d a b : VReg) (k : BitVec 3) (t : IFmt)
  | vand (u : VSlot) (d a b : VReg) (k : BitVec 3) (t : IFmt)
  | vor (u : VSlot) (d a b : VReg) (k : BitVec 3) (t : IFmt)
  | vxor (u : VSlot) (d a b : VReg) (k : BitVec 3) (t : IFmt)
  | vnot (u : VSlot) (d a : VReg) (k : BitVec 3) (t : IFmt)
  | vshl (u : VSlot) (d a b : VReg) (k : BitVec 3) (t : IFmt)
  | vshr (u : VSlot) (d a b : VReg) (k : BitVec 3) (t : IFmt)
  | vsar (u : VSlot) (d a b : VReg) (k : BitVec 3) (t : IFmt)
  | vshli (u : VSlot) (d a : VReg) (n : BitVec 6) (k : BitVec 3) (t : IFmt)
  | vcmp (u : VSlot) (d : BitVec 3) (a b : VReg) (k : BitVec 3) (t : IFmt) (c : VCond)
  | vsel (u : VSlot) (d a b : VReg) (k : BitVec 3) (t : IFmt)
  | fadd (u : VSlot) (d a b : VReg) (k : BitVec 3) (t : FFmt) (rm : Rnd)
  | fsub (u : VSlot) (d a b : VReg) (k : BitVec 3) (t : FFmt) (rm : Rnd)
  | fmul (u : VSlot) (d a b : VReg) (k : BitVec 3) (t : FFmt) (rm : Rnd)
  | ffma (u : VSlot) (d a b c : VReg) (k : BitVec 3) (t : FFmt) (rm : Rnd)
  | ffms (u : VSlot) (d a b c : VReg) (k : BitVec 3) (t : FFmt) (rm : Rnd)
  | fdiv (u : VSlot) (d a b : VReg) (k : BitVec 3) (t : FFmt) (rm : Rnd)
  | fsqrt (u : VSlot) (d a : VReg) (k : BitVec 3) (t : FFmt) (rm : Rnd)
  | frcpe (u : VSlot) (d a : VReg) (k : BitVec 3) (t : FFmt)
  | fmin (u : VSlot) (d a b : VReg) (k : BitVec 3) (t : FFmt)
  | fmax (u : VSlot) (d a b : VReg) (k : BitVec 3) (t : FFmt)
  | fabs (u : VSlot) (d a : VReg) (k : BitVec 3) (t : FFmt)
  | fneg (u : VSlot) (d a : VReg) (k : BitVec 3) (t : FFmt)
  | fcmp (u : VSlot) (d : BitVec 3) (a b : VReg) (k : BitVec 3) (t : FFmt) (c : FCond)
  | fclass (u : VSlot) (d a : VReg) (k : BitVec 3) (t : FFmt)
  | fcvt (u : VSlot) (d a : VReg) (k : BitVec 3) (t src : FFmt) (rm : Rnd) (sat : Bool)
  | fcvti (u : VSlot) (d a : VReg) (k : BitVec 3) (t : IFmt) (src : FFmt) (rm : Rnd)
  | icvtf (u : VSlot) (d a : VReg) (k : BitVec 3) (t : FFmt) (src : IFmt) (rm : Rnd)
  | fround (u : VSlot) (d a : VReg) (k : BitVec 3) (t : FFmt) (rm : Rnd)
  | vmov (u : VSlot) (d a : VReg) (k : BitVec 3) (t : IFmt)
  | vbcast (u : VSlot) (d : VReg) (a : SReg) (k : BitVec 3) (t : IFmt)
  | vslide (u : VSlot) (d a b : VReg) (k : BitVec 3) (t : IFmt) (off : BitVec 8)
  | vperm (u : VSlot) (d a b : VReg) (k : BitVec 3) (t : IFmt)
  | vlane (u : VSlot) (d : VReg) (a : SReg) (k : BitVec 3) (t : IFmt) (lane : BitVec 8)
  | vredadd (u : VSlot) (d a : VReg) (k : BitVec 3) (t : IFmt)
  | vredmin (u : VSlot) (d a : VReg) (k : BitVec 3) (t : IFmt)
  | vredmax (u : VSlot) (d a : VReg) (k : BitVec 3) (t : IFmt)
  | fredadd (u : VSlot) (d a : VReg) (k : BitVec 3) (t : FFmt) (rm : Rnd)
  | vscan (u : VSlot) (d a : VReg) (k : BitVec 3) (t : IFmt)
  | fscan (u : VSlot) (d a : VReg) (k : BitVec 3) (t : FFmt) (rm : Rnd)
  | vdequant (u : VSlot) (d a b : VReg) (k : BitVec 3) (t : FFmt) (q4 : Bool) (rm : Rnd)
  | vquant (u : VSlot) (d a b : VReg) (k : BitVec 3) (t : FFmt) (q4 : Bool) (rm : Rnd)
  | vgen (u : VSlot) (d : VReg) (a b : SReg) (k : BitVec 3) (t : FFmt)
  | vproj (u : VSlot) (d a b : VReg) (k : BitVec 3) (t : FFmt) (r : BitVec 13)
  | vseedscan (u : VSlot) (d : VReg) (a : SReg) (b : VReg) (k : BitVec 3) (t : FFmt) (r : BitVec 13)
  | kand (u : VSlot) (d a b : BitVec 3)
  | kor (u : VSlot) (d a b : BitVec 3)
  | knot (u : VSlot) (d a : BitVec 3)
  | kmov (u : VSlot) (d a : BitVec 3)
  /- M slot (R253). `f` and `d` are accumulators. -/
  | mzero (f : BitVec 3)
  | mld (r : BitVec 3) (t : TileOp) (off : BitVec 8)
  | mst (r : BitVec 3) (t : TileOp) (off : BitVec 8)
  | mma (f : BitVec 3) (a w : BitVec 5) (c : SReg) (off : BitVec 8) (rm : Rnd)
  | mmaq (f : BitVec 3) (a w : BitVec 5) (c : SReg) (off : BitVec 8) (rm : Rnd)
  | mmag (f : BitVec 3) (a w : BitVec 5) (c : SReg) (off : BitVec 8) (rm : Rnd)
  | mman (f : BitVec 3) (n : SReg)
  | mscale (f : BitVec 3) (s : SReg) (rm : Rnd)
  | maddt (r : BitVec 3) (t : TileOp) (off : BitVec 8)
  | mcvt (d s : BitVec 3) (toF32 : Bool) (rm : Rnd)
  /- L slot (R254). -/
  | tld (r : GReg) (t : TileOp) (row : BitVec 8)
  | tldm (d : GReg) (m : MemOp) (size : LdSize)
  | mbld (d : GReg) (m : MemOp)
  | tacq (t : TileOp)
  | tbind (f : BitVec 5) (d v : SReg)
  | thint (t : TileOp) (h : BitVec 2)
  | titin (f : BitVec 5) (i : SReg)
  | tcol (r : GReg) (t : TileOp) (col : BitVec 8)
  /- T slot (R255). -/
  | tst (r : GReg) (t : TileOp) (row : BitVec 8)
  | tstm (g : GReg) (a m : SReg)
  | mbst (d : GReg) (m : MemOp)
  | mbcast (d : GReg) (m : MemOp)
  | twopen (t : TileOp) (zero : Bool)
  | tpost (t : TileOp) (wb : Bool)
  | tdrop (t : TileOp)
  /- X slot (R256). `e` is the completion event. -/
  | xcopy (d : SReg) (e : BitVec 3)
  | xgather (d : SReg) (e : BitVec 3)
  | xremote (d : SReg) (e : BitVec 3)
  | xfill (d : SReg) (e : BitVec 3)
  | xflushrd (p : SReg) (e : BitVec 3)
  | xcancel (e : BitVec 3)
  | rop (op : RouOp) (w : AWidth) (a x r : SReg) (e : BitVec 3)
  | rcas4 (b r : SReg) (e : BitVec 3)
  | renq (h n r : SReg) (e : BitVec 3)
  | rdeq (h r : SReg) (e : BitVec 3)
  | rchase (b r : SReg) (e : BitVec 3)
  /- Y slot (R257). -/
  | spawn (d a : SReg)
  | spawnr (d a n : SReg)
  | fget (d h : SReg)
  | fdup (h : SReg) (handOff : Bool)
  | fdrop (h : SReg)
  | fpin
  | tend (v : SReg)
  | yield
  | evwait (e : BitVec 3) (t : SReg)
  | evinc (e : BitVec 3) (i : BitVec 6)
  | sev (t : SReg)
  | wfe
  | bar (n : BitVec 3)
  | svreg (d a : SReg) (release : Bool)
  | smst (g s : SReg) (len : BitVec 6) (log : Bool) (c : BitVec 3)
  | smred (g s : SReg) (len : BitVec 6) (op : SmOp) (t : SmFmt) (c : BitVec 3)
  | smjoin (d g w : SReg)
  | ckpt
  | trig (n : BitVec 6)
  /- The part's other steps (95), which no word encodes and to which the table gives no fields: what each occurrence
  acts on stands in the state (`State.ev`). -/
  | resultLands
  | contextSwitch
  | instructionFetch
  | tlbMissWalk
  | pageInvalidationComplete
  | mminvcPage
  | mminvcAll
  | accessBitSweep
  | migrationShootDownDone
  | migrationDrainDone
  | migrationCopyDone
  | migrationAbandon
  | fillAllocationResume
  | fillDataArrives
  | fillDataProvisional
  | ownershipGrant
  | oasisReadRequest
  | fillResend
  | oasisOpenRequest
  | oasisPost
  | oasisDiscard
  | oasisHbmReadDone
  | oasisWriteback
  | victimBufferAck
  | forwardArrives
  | itineraryPrefetch
  | opurge
  | opurgeComplete
  | hbmReadPacket
  | hbmWritePacket
  | hbmControlPacket
  | hbmReply
  | refreshSlot
  | patrolScrub
  | hdeadcmdKill
  | hdeadcmdRevive
  | hdeadcmdDone
  | interfaceCrcFail
  | interfaceRetrainEnd
  | rouSingleWordOp
  | rouAmocas
  | rouLr
  | rouSc
  | rouRcas4
  | rouRenq
  | rouRdeq
  | rchaseHop
  | reservationExpiry
  | bsuRefill
  | bsuctlEnable
  | bsuctlDisable
  | portUnitSend
  | svtWidenAcked
  | mbcastLand
  | mbstLand
  | cxlHostReadShared
  | cxlHostReadOwn
  | cxlHostEvict
  | cxlHostSnoop
  | flitReceive
  | ackDeadline
  | laneFail
  | retrainSuccess
  | retrainTimeout
  | flstatRq
  | flecenPacketAccept
  | heldWritePerform
  | e2eAckReceive
  | e2eRejectReceive
  | e2eRetransmitTimeout
  | flushingReadAnswer
  | flushResponseReceive
  | smgcmdCreate
  | smgcmdClose
  | smgcmdDestroy
  | smgcmdAnswer
  | switchSequence
  | smgEntryArrive
  | smgMemberAck
  | sequencedCommandComplete
  | taskPlace
  | rangeChunkRequest
  | reclamationStop
  | matrixKstep
  | matrixRetire
  | matrixSlotBoundary
  | copyPacket
  | xremoteTaken
  | xCommandComplete
  | latchSet
  | cbarWrite
  | qctlEnable
  | qctlDisable
  | doorbellProd
  | doorbellFres
  | rootTaskTake
  | rollbackComplete
  | preemption
  | contextSave
  | saveBoundExpiry
  | contextRestore
  | watchdogExpire
  | checkpointIntervalEnd
  | dieFailed
  | packageReset
  | atctlGo
  | attestationReportDone
  | mrext
  | fppush
  | frpop
  | pwltrWrite
  | powerDwellExpiry
  | powerWake
  | wakeComplete
  | thermalThrottle
  | thermalRecover
  | thermalTrip
  | registerWrite
  | cxlCompletion
  deriving DecidableEq, Repr

end Sys2Proof
end

