-- ==== Sys2Proof/WellFormed.lean ====
section
/-! DEFINITION. The operand values that some execution could accept: the checks of R259 that the fields'
types do not make themselves. The decoder raises DECODE `opcode` for every other value. -/
namespace Sys2Proof

/-- Element width in bits (R41). -/
def IFmt.width : IFmt → Nat
  | .i8 | .n8 => 8 | .i16 | .n16 => 16 | .i32 | .n32 => 32 | .i64 | .n64 => 64

/-- Element width in bits (R41). -/
def FFmt.width : FFmt → Nat
  | .e4m3 | .e5m2 => 8 | .f16 | .bf16 => 16 | .f32 => 32 | .f64 => 64

/-- Lanes of a 2048-bit register at an integer format (R291). -/
def IFmt.lanes (t : IFmt) : Nat := 2048 / t.width
/-- Lanes of a 2048-bit register at a float format (R291). -/
def FFmt.lanes (t : FFmt) : Nat := 2048 / t.width

/-- A format that `vaddw`, `vmlaw` and `vnarrow` accept (R297). -/
def IFmt.narrow : IFmt → Bool
  | .i64 | .n64 => false
  | _ => true

/-- The base of a ring lies in its file (R259). -/
def RingFile.holds : RingFile → BitVec 6 → Bool
  | .s, _ => true
  | .v, b => b.toNat < 32
  | .w, b => b.toNat < 32
  | .g, b => b.toNat < 16

/-- Count registers of levels that a `loop` does not use are coded 0 (R274). -/
def loopUnusedZero (c1 c2 c3 : SReg) (levels : BitVec 2) : Bool :=
  (levels.toNat ≥ 1 || c1 == 0) && (levels.toNat ≥ 2 || c2 == 0) && (levels.toNat ≥ 3 || c3 == 0)

/-- The operand values that R259 and the instructions' own descriptions admit. -/
def Instr.wf : Instr → Bool
  | .bext _ _ _ _ pos wm1 | .bins _ _ _ _ pos wm1 => pos.toNat + wm1.toNat + 1 ≤ 64
  | .loop _ c1 c2 c3 levels off => off != 0 && loopUnusedZero c1 c2 c3 levels
  | .ring f base _ => f.holds base
  | .amo op _ _ _ _ _ _ _ => op != .fadd
  | .fence o s _ => o != .rlx && s != .inf
  | .cwb _ _ _ s => s != .inf
  | .tlbinv a _ _ all => !all || a == 0
  | .vaddw _ _ _ _ _ t | .vmlaw _ _ _ _ _ _ t | .vnarrow _ _ _ _ t _ => t.narrow
  | .vshli _ _ _ n _ t => n.toNat < t.width
  | .vslide _ _ _ _ _ t off => off.toNat ≤ t.lanes
  | .vlane _ _ _ _ t lane => lane.toNat < t.lanes
  | .vproj _ _ _ _ _ _ r | .vseedscan _ _ _ _ _ _ r => 1 ≤ r.toNat && r.toNat ≤ 64
  | .mcvt d a toF32 _ => !(if toF32 then a else d).getLsbD 0
  | .smst _ _ len _ _ | .smred _ _ len _ _ _ => 1 ≤ len.toNat && len.toNat ≤ 32
  | _ => true

end Sys2Proof
end

