-- ==== Sys2Proof/Decode.lean ====
section
/-! DEFINITION. The encoding of 08 and 09: syllable formats (R228), extension words (R229), register and type
codes (R231, R232), the decoder of each slot class (R249 to R259) and an encoder written from the same tables. -/
namespace Sys2Proof

/-! ## Codes -/

/-- The register that a field of a V syllable names (R231); codes 48 to 63 are illegal. -/
def VReg.ofCode (c : BitVec 6) : Option VReg :=
  if c.toNat < 32 then some (.own (c.setWidth 5))
  else if c.toNat < 48 then some (.g (c.setWidth 4))
  else none

def VReg.code : VReg → BitVec 6
  | .own n => 0#1 ++ n
  | .g n => 2#2 ++ n

/-- A g-typed field of an L or T syllable (R231): codes 32 to 47. -/
def gOfCode (c : BitVec 6) : Option GReg :=
  if 32 ≤ c.toNat ∧ c.toNat < 48 then some (c.setWidth 4) else none

def gCode (g : GReg) : BitVec 6 := 2#2 ++ g

/-- A field that names one of eight things (mask, accumulator, event, R231); other codes are illegal. -/
def oct (c : BitVec 6) : Option (BitVec 3) :=
  if c.toNat < 8 then some (c.setWidth 3) else none

def octCode (c : BitVec 3) : BitVec 6 := 0#3 ++ c

/-- A binding field of a CMD syllable (R259): codes above 31 are illegal. -/
def bindOf (c : BitVec 6) : Option (BitVec 5) :=
  if c.toNat < 32 then some (c.setWidth 5) else none

def bindCode (c : BitVec 5) : BitVec 6 := 0#1 ++ c

def IFmt.ofCode (c : BitVec 3) : IFmt :=
  match c.toNat with
  | 0 => .i8 | 1 => .i16 | 2 => .i32 | 3 => .i64 | 4 => .n8 | 5 => .n16 | 6 => .n32 | _ => .n64

def IFmt.code : IFmt → BitVec 3
  | .i8 => 0 | .i16 => 1 | .i32 => 2 | .i64 => 3 | .n8 => 4 | .n16 => 5 | .n32 => 6 | .n64 => 7

def FFmt.ofCode (c : BitVec 3) : Option FFmt :=
  match c.toNat with
  | 0 => some .e4m3 | 1 => some .e5m2 | 2 => some .f16 | 3 => some .bf16 | 4 => some .f32 | 5 => some .f64
  | _ => none

def FFmt.code : FFmt → BitVec 3
  | .e4m3 => 0 | .e5m2 => 1 | .f16 => 2 | .bf16 => 3 | .f32 => 4 | .f64 => 5

/-- Rounding codes (R48); 5 and 6 are illegal. -/
def Rnd.ofCode (c : BitVec 3) : Option Rnd :=
  match c.toNat with
  | 0 => some (.mode .rne) | 1 => some (.mode .rtz) | 2 => some (.mode .rdn) | 3 => some (.mode .rup)
  | 4 => some (.mode .rna) | 7 => some .dyn | _ => none

def RMode.code : RMode → BitVec 3
  | .rne => 0 | .rtz => 1 | .rdn => 2 | .rup => 3 | .rna => 4

def Rnd.code : Rnd → BitVec 3
  | .mode m => m.code
  | .dyn => 7

def Ord.ofCode (c : BitVec 2) : Ord :=
  match c.toNat with | 0 => .rlx | 1 => .acq | 2 => .rel | _ => .ar

def Ord.code : Ord → BitVec 2
  | .rlx => 0 | .acq => 1 | .rel => 2 | .ar => 3

/-- Scope codes (R127). -/
def Scope.ofCode (c : BitVec 3) : Scope :=
  match c.toNat with
  | 0 => .ctx | 1 => .core | 2 => .cl | 3 => .die | 4 => .pkg | 5 => .dom | 6 => .sys | _ => .inf

def Scope.code : Scope → BitVec 3
  | .ctx => 0 | .core => 1 | .cl => 2 | .die => 3 | .pkg => 4 | .dom => 5 | .sys => 6 | .inf => 7

def SCond.ofCode (c : BitVec 3) : Option SCond :=
  match c.toNat with
  | 0 => some .eq | 1 => some .ne | 2 => some .lt | 3 => some .ge | 4 => some .ltn | 5 => some .gen | _ => none

def SCond.code : SCond → BitVec 3
  | .eq => 0 | .ne => 1 | .lt => 2 | .ge => 3 | .ltn => 4 | .gen => 5

def VCond.ofCode (c : BitVec 4) : Option VCond :=
  match c.toNat with | 0 => some .eq | 1 => some .ne | 2 => some .lt | 3 => some .ge | _ => none

def VCond.code : VCond → BitVec 4
  | .eq => 0 | .ne => 1 | .lt => 2 | .ge => 3

def FCond.ofCode (c : BitVec 4) : Option FCond :=
  match c.toNat with
  | 0 => some .eq | 1 => some .ne | 2 => some .lt | 3 => some .ge | 4 => some .un | 5 => some .or | _ => none

def FCond.code : FCond → BitVec 4
  | .eq => 0 | .ne => 1 | .lt => 2 | .ge => 3 | .un => 4 | .or => 5

def BrTest.ofCode (c : BitVec 4) : Option BrTest :=
  match c.toNat with | 0 => some .z | 1 => some .nz | 2 => some .neg | 3 => some .nneg | _ => none

def BrTest.code : BrTest → BitVec 4
  | .z => 0 | .nz => 1 | .neg => 2 | .nneg => 3

/-- Access widths (R250). -/
def Width.ofCode (c : BitVec 4) : Option Width :=
  match c.toNat with
  | 0 => some .d64 | 1 => some .i8 | 2 => some .i16 | 3 => some .i32 | 4 => some .n8 | 5 => some .n16
  | 6 => some .n32 | _ => none

def Width.code : Width → BitVec 4
  | .d64 => 0 | .i8 => 1 | .i16 => 2 | .i32 => 3 | .n8 => 4 | .n16 => 5 | .n32 => 6

/-- The ty field of an atomic (R281): 2 or 3. -/
def AWidth.ofTy (c : BitVec 3) : Option AWidth :=
  match c.toNat with | 2 => some .w32 | 3 => some .w64 | _ => none

def AWidth.ty : AWidth → BitVec 3
  | .w32 => 2 | .w64 => 3

def RouOp.ofCode (c : BitVec 4) : Option RouOp :=
  match c.toNat with
  | 0 => some .add | 1 => some .and | 2 => some .or | 3 => some .xor | 4 => some .min | 5 => some .max
  | 6 => some .minn | 7 => some .maxn | 8 => some .swap | 9 => some .fadd | _ => none

def RouOp.code : RouOp → BitVec 4
  | .add => 0 | .and => 1 | .or => 2 | .xor => 3 | .min => 4 | .max => 5 | .minn => 6 | .maxn => 7
  | .swap => 8 | .fadd => 9

def RingFile.ofCode (c : BitVec 2) : RingFile :=
  match c.toNat with | 0 => .s | 1 => .v | 2 => .w | _ => .g

def RingFile.code : RingFile → BitVec 2
  | .s => 0 | .v => 1 | .w => 2 | .g => 3

/-- Special-register codes (R251). -/
def SpecReg.ofCode (c : BitVec 12) : Option SpecReg :=
  match c.toNat with
  | 0x000 => some .ctxid | 0x001 => some .coreid | 0x002 => some .clk
  | 0x010 => some .fctl | 0x011 => some .fflags
  | 0x020 => some .tpc | 0x021 => some .tva | 0x022 => some .tcause | 0x023 => some .tstat
  | 0x024 => some .tcmd | 0x030 => some .wdog | 0x040 => some .lb | 0x041 => some .le
  | 0x042 => some (.lc 0) | 0x043 => some (.lc 1) | 0x044 => some (.lc 2) | 0x045 => some (.lc 3)
  | 0x046 => some .lidx
  | 0x050 => some (.ev 0) | 0x051 => some (.ev 1) | 0x052 => some (.ev 2) | 0x053 => some (.ev 3)
  | 0x054 => some (.ev 4) | 0x055 => some (.ev 5) | 0x056 => some (.ev 6) | 0x057 => some (.ev 7)
  | 0x060 => some .xstat
  | _ => none

def SpecReg.code : SpecReg → BitVec 12
  | .ctxid => 0x000 | .coreid => 0x001 | .clk => 0x002 | .fctl => 0x010 | .fflags => 0x011
  | .tpc => 0x020 | .tva => 0x021 | .tcause => 0x022 | .tstat => 0x023 | .tcmd => 0x024
  | .wdog => 0x030 | .lb => 0x040 | .le => 0x041 | .lc n => 0x042 + n.setWidth 12
  | .lidx => 0x046 | .ev n => 0x050 + n.setWidth 12 | .xstat => 0x060

/-- The size codes of `tldm` (R354). -/
def LdSize.ofCode (c : BitVec 4) : Option LdSize :=
  match c.toNat with | 0 => some .b256 | 1 => some .b128 | 2 => some .b64 | 3 => some .b32 | _ => none

def LdSize.code : LdSize → BitVec 4
  | .b256 => 0 | .b128 => 1 | .b64 => 2 | .b32 => 3

def SmOp.ofCode (c : BitVec 4) : Option SmOp :=
  match c.toNat with | 0 => some .add | 1 => some .min | 2 => some .max | _ => none

def SmOp.code : SmOp → BitVec 4
  | .add => 0 | .min => 1 | .max => 2

/-- The format codes that `smred` accepts in aux (R390). -/
def SmFmt.ofCode (c : BitVec 13) : Option SmFmt :=
  match c.toNat with | 2 => some .i32 | 3 => some .i64 | 12 => some .f32 | 13 => some .f64 | _ => none

def SmFmt.code : SmFmt → BitVec 13
  | .i32 => 2 | .i64 => 3 | .f32 => 12 | .f64 => 13

/-- A one-bit sub-operation: 0 or 1. -/
def subBit (c : BitVec 4) : Option Bool :=
  match c.toNat with | 0 => some false | 1 => some true | _ => none

def bit4 (b : Bool) : BitVec 4 := if b then 1 else 0

/-! ## Formats (R227 to R229) -/

/-- A syllable with its extension word, zero when it is short (R227). -/
structure Syl where
  l : Bool
  op : BitVec 7
  opnd : BitVec 24
  ext : BitVec 32
  deriving DecidableEq, Repr

/-- The syllable word and the extension word read as a syllable (R227). -/
def Syl.ofWords (w x : BitVec 32) : Syl :=
  let l := w.getLsbD 31
  ⟨l, w.extractLsb' 24 7, w.extractLsb' 0 24, if l then x else 0⟩

/-- The syllable word (R227). -/
def Syl.word (y : Syl) : BitVec 32 := BitVec.ofBool y.l ++ y.op ++ y.opnd

structure RRR where
  d : BitVec 6
  a : BitVec 6
  b : BitVec 6
  q : BitVec 3
  ty : BitVec 3
  deriving DecidableEq, Repr

def RRR.pack (f : RRR) : BitVec 24 := f.d ++ f.a ++ f.b ++ f.q ++ f.ty
def RRR.of (x : BitVec 24) : RRR :=
  ⟨x.extractLsb' 18 6, x.extractLsb' 12 6, x.extractLsb' 6 6, x.extractLsb' 3 3, x.extractLsb' 0 3⟩

structure RRI where
  d : BitVec 6
  a : BitVec 6
  imm : BitVec 12
  deriving DecidableEq, Repr

def RRI.pack (f : RRI) : BitVec 24 := f.d ++ f.a ++ f.imm
def RRI.of (x : BitVec 24) : RRI := ⟨x.extractLsb' 18 6, x.extractLsb' 12 6, x.extractLsb' 0 12⟩

structure RI where
  d : BitVec 6
  imm : BitVec 18
  deriving DecidableEq, Repr

def RI.pack (f : RI) : BitVec 24 := f.d ++ f.imm
def RI.of (x : BitVec 24) : RI := ⟨x.extractLsb' 18 6, x.extractLsb' 0 18⟩

structure BRF where
  p : BitVec 3
  neg : BitVec 1
  off : BitVec 20
  deriving DecidableEq, Repr

def BRF.pack (f : BRF) : BitVec 24 := f.p ++ f.neg ++ f.off
def BRF.of (x : BitVec 24) : BRF := ⟨x.extractLsb' 21 3, x.extractLsb' 20 1, x.extractLsb' 0 20⟩

structure TILE where
  r : BitVec 6
  b : BitVec 5
  c0 : BitVec 6
  c1 : BitVec 6
  z : BitVec 1
  deriving DecidableEq, Repr

def TILE.pack (f : TILE) : BitVec 24 := f.r ++ f.b ++ f.c0 ++ f.c1 ++ f.z
def TILE.of (x : BitVec 24) : TILE :=
  ⟨x.extractLsb' 18 6, x.extractLsb' 13 5, x.extractLsb' 7 6, x.extractLsb' 1 6, x.extractLsb' 0 1⟩

structure CMD where
  f1 : BitVec 6
  f2 : BitVec 6
  f3 : BitVec 6
  f4 : BitVec 6
  deriving DecidableEq, Repr

def CMD.pack (f : CMD) : BitVec 24 := f.f1 ++ f.f2 ++ f.f3 ++ f.f4
def CMD.of (x : BitVec 24) : CMD :=
  ⟨x.extractLsb' 18 6, x.extractLsb' 12 6, x.extractLsb' 6 6, x.extractLsb' 0 6⟩

/-- A MOD extension word (R229). -/
structure MOD where
  rm : BitVec 3 := 0
  sat : BitVec 1 := 0
  ord : BitVec 2 := 0
  sc : BitVec 3 := 0
  sub : BitVec 4 := 0
  c : BitVec 6 := 0
  aux : BitVec 13 := 0
  deriving DecidableEq, Repr

def MOD.pack (m : MOD) : BitVec 32 := m.rm ++ m.sat ++ m.ord ++ m.sc ++ m.sub ++ m.c ++ m.aux
def MOD.of (x : BitVec 32) : MOD :=
  ⟨x.extractLsb' 29 3, x.extractLsb' 28 1, x.extractLsb' 26 2, x.extractLsb' 23 3, x.extractLsb' 19 4,
   x.extractLsb' 13 6, x.extractLsb' 0 13⟩

/-- The extension values of a short syllable (R230). -/
def MOD.short : MOD := { rm := 7, sc := 4 }

/-- A CX extension word (R229). -/
structure CX where
  e1 : BitVec 6 := 0
  e2 : BitVec 6 := 0
  e3 : BitVec 6 := 0
  e4 : BitVec 6 := 0
  aux : BitVec 8 := 0
  deriving DecidableEq, Repr

def CX.pack (c : CX) : BitVec 32 := c.e1 ++ c.e2 ++ c.e3 ++ c.e4 ++ c.aux
def CX.of (x : BitVec 32) : CX :=
  ⟨x.extractLsb' 26 6, x.extractLsb' 20 6, x.extractLsb' 14 6, x.extractLsb' 8 6, x.extractLsb' 0 8⟩

/-! ## Which MOD fields a row uses (R230) -/

/-- The MOD fields that an opcode uses; every other is reserved and must be zero. -/
structure Uses where
  rm : Bool := false
  sat : Bool := false
  ord : Bool := false
  sc : Bool := false
  sub : Bool := false
  c : Bool := false
  aux : Bool := false

/-- The MOD values of a syllable, or none where a reserved field is nonzero (R230). A field that the row does not
use reads as its short-form value. -/
def Syl.mod (u : Uses) (y : Syl) : Option MOD :=
  if y.l then
    let m := MOD.of y.ext
    if (u.rm || m.rm == 0) && (u.sat || m.sat == 0) && (u.ord || m.ord == 0) && (u.sc || m.sc == 0)
        && (u.sub || m.sub == 0) && (u.c || m.c == 0) && (u.aux || m.aux == 0) then some m
    else none
  else some MOD.short

/-! ## Row shapes -/

/-- S-slot RRR row with d, a, b; short only; ty reserved. -/
def rowRRR (mk : SReg → SReg → SReg → BitVec 3 → Instr) (y : Syl) : Option Instr :=
  let f := RRR.of y.opnd
  if y.l = false ∧ f.ty = 0 then some (mk f.d f.a f.b f.q) else none

/-- S-slot RRR row with d and a. -/
def rowRR (mk : SReg → SReg → BitVec 3 → Instr) (y : Syl) : Option Instr :=
  let f := RRR.of y.opnd
  if y.l = false ∧ f.ty = 0 ∧ f.b = 0 then some (mk f.d f.a f.q) else none

/-- S-slot RRR row with a alone. -/
def rowA (mk : SReg → BitVec 3 → Instr) (y : Syl) : Option Instr :=
  let f := RRR.of y.opnd
  if y.l = false ∧ f.ty = 0 ∧ f.b = 0 ∧ f.d = 0 then some (mk f.a f.q) else none

/-- S-slot RRR row with its guard alone. -/
def rowQ (mk : BitVec 3 → Instr) (y : Syl) : Option Instr :=
  let f := RRR.of y.opnd
  if y.l = false ∧ f.ty = 0 ∧ f.b = 0 ∧ f.d = 0 ∧ f.a = 0 then some (mk f.q) else none

/-- `bext` and `bins` (R263): aux[5:0] the position, aux[12:6] the width minus one. -/
def rowField (mk : SReg → SReg → SReg → BitVec 3 → BitVec 6 → BitVec 7 → Instr) (y : Syl) : Option Instr :=
  let f := RRR.of y.opnd
  if y.l = true ∧ f.ty = 0 then
    (y.mod { aux := true }).map fun m => mk f.d f.a f.b f.q (m.aux.extractLsb' 0 6) (m.aux.extractLsb' 6 7)
  else none

/-- The 44-bit immediate of an RRI row with an IMM extension (R229, R230). -/
def Syl.imm44 (y : Syl) : BitVec 44 :=
  let i := (RRI.of y.opnd).imm
  if y.l then y.ext ++ i else i.signExtend 44

/-- The 50-bit immediate of an RI row with an IMM extension (R229, R230). -/
def Syl.imm50 (y : Syl) : BitVec 50 :=
  let i := (RI.of y.opnd).imm
  if y.l then y.ext ++ i else i.signExtend 50

def rowImm (mk : SReg → SReg → BitVec 44 → Instr) (y : Syl) : Option Instr :=
  let f := RRI.of y.opnd
  some (mk f.d f.a y.imm44)

/-- A shift immediate lies in 0 to 63 (R259, R265). -/
def rowShift (mk : SReg → SReg → BitVec 6 → Instr) (y : Syl) : Option Instr :=
  let f := RRI.of y.opnd
  if y.imm44.toNat < 64 then some (mk f.d f.a (y.imm44.setWidth 6)) else none

def rowLI (mk : SReg → BitVec 50 → Instr) (y : Syl) : Option Instr :=
  some (mk (RI.of y.opnd).d y.imm50)

def rowBR (mk : BitVec 3 → Bool → BitVec 20 → Instr) (y : Syl) : Option Instr :=
  let f := BRF.of y.opnd
  if y.l = false then some (mk f.p (f.neg == 1) f.off) else none

/-- An RRI memory row: the offset and the MOD fields `u` (R229, R279). -/
def rowMem (u : Uses) (mk : BitVec 6 → MemOp → MOD → Option Instr) (y : Syl) : Option Instr :=
  let f := RRI.of y.opnd
  (y.mod { u with aux := true }).bind fun m => mk f.d ⟨f.a, f.imm, m.aux⟩ m

/-- An RI row of one immediate (trap, svc, brk): d reserved, short only. -/
def rowTag (mk : BitVec 18 → Option Instr) (y : Syl) : Option Instr :=
  let f := RI.of y.opnd
  if y.l = false ∧ f.d = 0 then mk f.imm else none

/-- `mfsr` and `mtsr`: imm[11:0] is the register code, imm[17:12] is reserved (R249). -/
def rowSpec (mk : SReg → SpecReg → Instr) (y : Syl) : Option Instr :=
  let f := RI.of y.opnd
  if y.l = false ∧ f.imm.extractLsb' 12 6 = 0 then (SpecReg.ofCode (f.imm.extractLsb' 0 12)).map (mk f.d) else none

/-- An atomic row (R281, R282). -/
def rowAtom (u : Uses) (mk : RRR → AWidth → MOD → Option Instr) (y : Syl) : Option Instr :=
  let f := RRR.of y.opnd
  (y.mod { u with ord := true, sc := true }).bind fun m => (AWidth.ofTy f.ty).bind fun w => mk f w m

/-- Integer V row with d, a, b; short only. -/
def rowV3 (mk : VReg → VReg → VReg → BitVec 3 → IFmt → Instr) (y : Syl) : Option Instr :=
  let f := RRR.of y.opnd
  if y.l then none else
  (VReg.ofCode f.d).bind fun d => (VReg.ofCode f.a).bind fun a => (VReg.ofCode f.b).map fun b =>
    mk d a b f.q (IFmt.ofCode f.ty)

/-- Integer V row with d and a; b reserved. -/
def rowV2 (mk : VReg → VReg → BitVec 3 → IFmt → Instr) (y : Syl) : Option Instr :=
  let f := RRR.of y.opnd
  if y.l then none else if f.b = 0 then
  (VReg.ofCode f.d).bind fun d => (VReg.ofCode f.a).map fun a => mk d a f.q (IFmt.ofCode f.ty)
  else none

/-- Integer V row with d, a, b and c in MOD c; long only. -/
def rowV4 (mk : VReg → VReg → VReg → VReg → BitVec 3 → IFmt → Instr) (y : Syl) : Option Instr :=
  let f := RRR.of y.opnd
  if y.l then (y.mod { c := true }).bind fun m =>
    (VReg.ofCode f.d).bind fun d => (VReg.ofCode f.a).bind fun a => (VReg.ofCode f.b).bind fun b =>
    (VReg.ofCode m.c).map fun c => mk d a b c f.q (IFmt.ofCode f.ty)
  else none

/-- Float V row with d, a, b and the rounding field. -/
def rowF3 (mk : VReg → VReg → VReg → BitVec 3 → FFmt → Rnd → Instr) (y : Syl) : Option Instr :=
  let f := RRR.of y.opnd
  (y.mod { rm := true }).bind fun m => (Rnd.ofCode m.rm).bind fun rm =>
    (VReg.ofCode f.d).bind fun d => (VReg.ofCode f.a).bind fun a => (VReg.ofCode f.b).bind fun b =>
    (FFmt.ofCode f.ty).map fun t => mk d a b f.q t rm

/-- Float V row with d, a and the rounding field. -/
def rowF2 (mk : VReg → VReg → BitVec 3 → FFmt → Rnd → Instr) (y : Syl) : Option Instr :=
  let f := RRR.of y.opnd
  if f.b = 0 then
  (y.mod { rm := true }).bind fun m => (Rnd.ofCode m.rm).bind fun rm =>
    (VReg.ofCode f.d).bind fun d => (VReg.ofCode f.a).bind fun a =>
    (FFmt.ofCode f.ty).map fun t => mk d a f.q t rm
  else none

/-- Float V row with d, a, b, c and the rounding field; long only. -/
def rowF4 (mk : VReg → VReg → VReg → VReg → BitVec 3 → FFmt → Rnd → Instr) (y : Syl) : Option Instr :=
  let f := RRR.of y.opnd
  if y.l then (y.mod { rm := true, c := true }).bind fun m => (Rnd.ofCode m.rm).bind fun rm =>
    (VReg.ofCode f.d).bind fun d => (VReg.ofCode f.a).bind fun a => (VReg.ofCode f.b).bind fun b =>
    (VReg.ofCode m.c).bind fun c => (FFmt.ofCode f.ty).map fun t => mk d a b c f.q t rm
  else none

/-- Float V row with d, a, b; short only. -/
def rowFs3 (mk : VReg → VReg → VReg → BitVec 3 → FFmt → Instr) (y : Syl) : Option Instr :=
  let f := RRR.of y.opnd
  if y.l then none else
  (VReg.ofCode f.d).bind fun d => (VReg.ofCode f.a).bind fun a => (VReg.ofCode f.b).bind fun b =>
    (FFmt.ofCode f.ty).map fun t => mk d a b f.q t

/-- Float V row with d and a; short only. -/
def rowFs2 (mk : VReg → VReg → BitVec 3 → FFmt → Instr) (y : Syl) : Option Instr :=
  let f := RRR.of y.opnd
  if y.l then none else if f.b = 0 then
  (VReg.ofCode f.d).bind fun d => (VReg.ofCode f.a).bind fun a =>
    (FFmt.ofCode f.ty).map fun t => mk d a f.q t
  else none

/-- Mask row with d, a, b (R317): q and ty reserved. -/
def rowK3 (mk : BitVec 3 → BitVec 3 → BitVec 3 → Instr) (y : Syl) : Option Instr :=
  let f := RRR.of y.opnd
  if y.l = false ∧ f.q = 0 ∧ f.ty = 0 then
    (oct f.d).bind fun d => (oct f.a).bind fun a => (oct f.b).map fun b => mk d a b
  else none

/-- Mask row with d and a (R317). -/
def rowK2 (mk : BitVec 3 → BitVec 3 → Instr) (y : Syl) : Option Instr :=
  let f := RRR.of y.opnd
  if y.l = false ∧ f.q = 0 ∧ f.ty = 0 ∧ f.b = 0 then
    (oct f.d).bind fun d => (oct f.a).map fun a => mk d a
  else none

/-- A TILE row: its r field, its tile operand and its aux (R228, R229). -/
def rowTile (mk : BitVec 6 → TileOp → BitVec 8 → Option Instr) (y : Syl) : Option Instr :=
  let f := TILE.of y.opnd
  let c := if y.l then CX.of y.ext else {}
  if f.z = 0 then mk f.r ⟨f.b, f.c0, f.c1, c.e1, c.e2, c.e3, c.e4⟩ c.aux else none

/-- A TILE row without an r field. -/
def rowTile0 (mk : TileOp → BitVec 8 → Option Instr) : Syl → Option Instr :=
  rowTile fun r t x => if r = 0 then mk t x else none

/-- A CMD row without a long form. -/
def rowCmd (mk : CMD → Option Instr) (y : Syl) : Option Instr :=
  if y.l then none else mk (CMD.of y.opnd)

/-- `mma`, `mmaq`, `mmag` (R327): rm, and aux[7:0] the offsets. -/
def rowMma (mk : BitVec 3 → BitVec 5 → BitVec 5 → SReg → BitVec 8 → Rnd → Instr) (y : Syl) : Option Instr :=
  let f := CMD.of y.opnd
  (y.mod { rm := true, aux := true }).bind fun m => (Rnd.ofCode m.rm).bind fun rm =>
    if m.aux.extractLsb' 8 5 = 0 then
      (oct f.f1).bind fun d => (bindOf f.f2).bind fun a => (bindOf f.f3).map fun w =>
        mk d a w f.f4 (m.aux.extractLsb' 0 8) rm
    else none

/-! ## The slot classes -/

/-- S slot (R249). -/
def decS (y : Syl) : Option Instr :=
  match y.op.toNat with
  | 0x00 => rowRRR .add y | 0x01 => rowRRR .sub y | 0x02 => rowRRR .and y | 0x03 => rowRRR .or y
  | 0x04 => rowRRR .xor y | 0x05 => rowRRR .shl y | 0x06 => rowRRR .shr y | 0x07 => rowRRR .sar y
  | 0x08 => rowRRR .min y | 0x09 => rowRRR .max y | 0x0A => rowRRR .minn y | 0x0B => rowRRR .maxn y
  | 0x0C => rowRRR .mul y | 0x0D => rowRRR .mulh y | 0x0E => rowRRR .mulhn y | 0x0F => rowRRR .div y
  | 0x10 => rowRRR .divn y | 0x11 => rowRRR .rem y | 0x12 => rowRRR .remn y
  | 0x13 => rowRR .clz y | 0x14 => rowRR .popc y
  | 0x15 => rowField .bext y | 0x16 => rowField .bins y
  | 0x17 => let f := RRR.of y.opnd
    if y.l then none else some (.sel f.d f.a f.b f.q f.ty)
  | 0x18 => let f := RRR.of y.opnd
    if y.l then none else (oct f.d).bind fun p => (SCond.ofCode f.ty).map fun c => .cmp p f.a f.b f.q c
  | 0x20 => rowImm .addi y | 0x21 => rowImm .andi y | 0x22 => rowImm .ori y | 0x23 => rowImm .xori y
  | 0x24 => rowShift .shli y | 0x25 => rowShift .shri y | 0x26 => rowShift .sari y
  | 0x27 => let f := RRI.of y.opnd
    (SCond.ofCode (f.d.extractLsb' 0 3)).map fun c => .cmpi (f.d.extractLsb' 3 3) f.a y.imm44 c
  | 0x28 => rowLI .li y | 0x29 => rowLI .lih y
  | 0x30 => rowBR .br y
  | 0x31 => let f := BRF.of y.opnd
    if y.l then (y.mod { sub := true, c := true }).bind fun m =>
      (BrTest.ofCode m.sub).map fun t => .brc f.p (f.neg == 1) f.off m.c t
    else none
  | 0x32 => rowBR .call y
  | 0x33 => rowA .callr y | 0x34 => rowA .ret y | 0x35 => rowA .jr y
  | 0x38 => let f := RRR.of y.opnd
    let c := CX.of y.ext
    if y.l = true ∧ f.ty = 0 ∧ f.q.getLsbD 2 = false ∧ c.e2 = 0 ∧ c.aux = 0 then
      some (.loop f.d f.a f.b c.e1 (f.q.setWidth 2) (c.e3 ++ c.e4))
    else none
  | 0x39 => let f := RRI.of y.opnd
    if y.l = false ∧ f.a = 0 ∧ f.imm.extractLsb' 6 6 = 0 then
      some (.ring (RingFile.ofCode (f.imm.extractLsb' 4 2)) f.d (f.imm.extractLsb' 0 4))
    else none
  | 0x3A => rowSpec .mfsr y
  | 0x3B => rowSpec (fun a r => .mtsr r a) y
  | 0x40 => rowMem { sub := true } (fun d o m => (Width.ofCode m.sub).map fun w => .ld d o w) y
  | 0x41 => rowMem { sub := true } (fun d o m => (Width.ofCode m.sub).map fun w => .st d o w) y
  | 0x42 => rowMem { sub := true, sc := true }
      (fun d o m => (Width.ofCode m.sub).map fun w => .lda d o w (Scope.ofCode m.sc)) y
  | 0x43 => rowMem { sub := true, sc := true }
      (fun d o m => (Width.ofCode m.sub).map fun w => .stl d o w (Scope.ofCode m.sc)) y
  | 0x44 => rowAtom { sub := true } (fun f w m => (RouOp.ofCode m.sub).map fun op =>
      .amo op f.d f.a f.b f.q w (Ord.ofCode m.ord) (Scope.ofCode m.sc)) y
  | 0x45 => rowAtom { c := true } (fun f w m =>
      some (.amocas f.d f.a f.b m.c f.q w (Ord.ofCode m.ord) (Scope.ofCode m.sc))) y
  | 0x46 => rowAtom {} (fun f w m =>
      if f.b = 0 then some (.lr f.d f.a f.q w (Ord.ofCode m.ord) (Scope.ofCode m.sc)) else none) y
  | 0x47 => rowAtom {} (fun f w m =>
      some (.sc f.d f.a f.b f.q w (Ord.ofCode m.ord) (Scope.ofCode m.sc))) y
  | 0x48 => let f := RRR.of y.opnd
    if y.l = true ∧ f.ty = 0 ∧ f.b = 0 ∧ f.d = 0 ∧ f.a = 0 then
      (y.mod { ord := true, sc := true }).map fun m => .fence (Ord.ofCode m.ord) (Scope.ofCode m.sc) f.q
    else none
  | 0x49 => let f := RRR.of y.opnd
    if f.ty = 0 ∧ f.d = 0 then (y.mod { sc := true }).map fun m => .cwb f.a f.b f.q (Scope.ofCode m.sc)
    else none
  | 0x4A => rowMem { sub := true }
      (fun d o m => if d = 0 then (subBit m.sub).map fun c => .pref o c else none) y
  | 0x4B => let f := RRI.of y.opnd
    if y.l = false ∧ f.a.toNat < 16 ∧ f.imm.toNat < 32 then
      some (.xget f.d (f.a.setWidth 4) (f.imm.setWidth 5))
    else none
  | 0x50 => rowTag (fun i => if i.extractLsb' 8 10 = 0 then some (.trap (i.extractLsb' 0 8)) else none) y
  | 0x51 => rowTag (fun i => some (.svc i)) y
  | 0x52 => rowQ .eret y
  | 0x53 => rowTag (fun i => some (.brk i)) y
  | 0x54 => let f := RRR.of y.opnd
    if y.l = false ∧ f.d = 0 ∧ f.ty.toNat < 2 then some (.tlbinv f.a f.b f.q (f.ty == 1)) else none
  | 0x55 => rowQ .wfi y
  | _ => none

/-- V slots (R252), for the slot `u`. -/
def decV (u : VSlot) (y : Syl) : Option Instr :=
  let f := RRR.of y.opnd
  match y.op.toNat with
  | 0x00 => rowV3 (.vadd u) y | 0x01 => rowV3 (.vsub u) y | 0x02 => rowV3 (.vadds u) y
  | 0x03 => rowV3 (.vsubs u) y | 0x04 => rowV3 (.vmul u) y | 0x05 => rowV3 (.vmulh u) y
  | 0x06 => rowV4 (.vmla u) y | 0x07 => rowV4 (.vmls u) y | 0x08 => rowV3 (.vaddw u) y
  | 0x09 => rowV4 (.vmlaw u) y
  | 0x0A => if f.b = 0 then (y.mod { sat := true }).bind fun m => (VReg.ofCode f.d).bind fun d =>
      (VReg.ofCode f.a).map fun a => .vnarrow u d a f.q (IFmt.ofCode f.ty) (m.sat == 1)
    else none
  | 0x0B => rowV2 (.vabs u) y | 0x0C => rowV2 (.vneg u) y
  | 0x0D => rowV3 (.vmin u) y | 0x0E => rowV3 (.vmax u) y | 0x0F => rowV3 (.vand u) y
  | 0x10 => rowV3 (.vor u) y | 0x11 => rowV3 (.vxor u) y | 0x12 => rowV2 (.vnot u) y
  | 0x13 => rowV3 (.vshl u) y | 0x14 => rowV3 (.vshr u) y | 0x15 => rowV3 (.vsar u) y
  | 0x16 => if y.l then none else (VReg.ofCode f.d).bind fun d => (VReg.ofCode f.a).map fun a =>
      .vshli u d a f.b f.q (IFmt.ofCode f.ty)
  | 0x17 => (y.mod { sub := true }).bind fun m => (VCond.ofCode m.sub).bind fun c => (oct f.d).bind fun d =>
      (VReg.ofCode f.a).bind fun a => (VReg.ofCode f.b).map fun b => .vcmp u d a b f.q (IFmt.ofCode f.ty) c
  | 0x18 => rowV3 (.vsel u) y
  | 0x20 => rowF3 (.fadd u) y | 0x21 => rowF3 (.fsub u) y | 0x22 => rowF3 (.fmul u) y
  | 0x23 => rowF4 (.ffma u) y | 0x24 => rowF4 (.ffms u) y | 0x25 => rowF3 (.fdiv u) y
  | 0x26 => rowF2 (.fsqrt u) y | 0x27 => rowFs2 (.frcpe u) y
  | 0x28 => rowFs3 (.fmin u) y | 0x29 => rowFs3 (.fmax u) y
  | 0x2A => rowFs2 (.fabs u) y | 0x2B => rowFs2 (.fneg u) y
  | 0x2C => (y.mod { sub := true }).bind fun m => (FCond.ofCode m.sub).bind fun c => (oct f.d).bind fun d =>
      (VReg.ofCode f.a).bind fun a => (VReg.ofCode f.b).bind fun b => (FFmt.ofCode f.ty).map fun t =>
      .fcmp u d a b f.q t c
  | 0x2D => rowFs2 (.fclass u) y
  | 0x2E => if f.b = 0 then (y.mod { rm := true, sat := true, sub := true }).bind fun m =>
      (Rnd.ofCode m.rm).bind fun rm => (VReg.ofCode f.d).bind fun d => (VReg.ofCode f.a).bind fun a =>
      (FFmt.ofCode f.ty).bind fun t =>
      if m.sub.toNat < 6 then (FFmt.ofCode (m.sub.setWidth 3)).map fun s =>
        .fcvt u d a f.q t s rm (m.sat == 1) else none
    else none
  | 0x2F => if f.b = 0 then (y.mod { rm := true, sub := true }).bind fun m =>
      (Rnd.ofCode m.rm).bind fun rm => (VReg.ofCode f.d).bind fun d => (VReg.ofCode f.a).bind fun a =>
      if m.sub.toNat < 6 then (FFmt.ofCode (m.sub.setWidth 3)).map fun s =>
        .fcvti u d a f.q (IFmt.ofCode f.ty) s rm else none
    else none
  | 0x30 => if f.b = 0 then (y.mod { rm := true, sub := true }).bind fun m =>
      (Rnd.ofCode m.rm).bind fun rm => (VReg.ofCode f.d).bind fun d => (VReg.ofCode f.a).bind fun a =>
      (FFmt.ofCode f.ty).bind fun t =>
      if m.sub.toNat < 8 then some (.icvtf u d a f.q t (IFmt.ofCode (m.sub.setWidth 3)) rm) else none
    else none
  | 0x31 => rowF2 (.fround u) y
  | 0x40 => rowV2 (.vmov u) y
  | 0x41 => if y.l = false ∧ f.b = 0 then (VReg.ofCode f.d).map fun d =>
      .vbcast u d f.a f.q (IFmt.ofCode f.ty) else none
  | 0x42 => (y.mod { aux := true }).bind fun m => (VReg.ofCode f.d).bind fun d => (VReg.ofCode f.a).bind fun a =>
      (VReg.ofCode f.b).bind fun b =>
      if m.aux.extractLsb' 8 5 = 0 then some (.vslide u d a b f.q (IFmt.ofCode f.ty) (m.aux.extractLsb' 0 8))
      else none
  | 0x43 => rowV3 (.vperm u) y
  | 0x44 => if f.b = 0 then (y.mod { aux := true }).bind fun m => (VReg.ofCode f.d).bind fun d =>
      if m.aux.extractLsb' 8 5 = 0 then some (.vlane u d f.a f.q (IFmt.ofCode f.ty) (m.aux.extractLsb' 0 8))
      else none
    else none
  | 0x50 => rowV2 (.vredadd u) y | 0x51 => rowV2 (.vredmin u) y | 0x52 => rowV2 (.vredmax u) y
  | 0x53 => rowF2 (.fredadd u) y | 0x54 => rowV2 (.vscan u) y | 0x55 => rowF2 (.fscan u) y
  | 0x58 => (y.mod { rm := true, sub := true }).bind fun m => (Rnd.ofCode m.rm).bind fun rm =>
      (VReg.ofCode f.d).bind fun d => (VReg.ofCode f.a).bind fun a => (VReg.ofCode f.b).bind fun b =>
      (FFmt.ofCode f.ty).bind fun t => (subBit m.sub).map fun s => .vdequant u d a b f.q t s rm
  | 0x59 => (y.mod { rm := true, sub := true }).bind fun m => (Rnd.ofCode m.rm).bind fun rm =>
      (VReg.ofCode f.d).bind fun d => (VReg.ofCode f.a).bind fun a => (VReg.ofCode f.b).bind fun b =>
      (FFmt.ofCode f.ty).bind fun t => (subBit m.sub).map fun s => .vquant u d a b f.q t s rm
  | 0x60 => if y.l then none else (VReg.ofCode f.d).bind fun d => (FFmt.ofCode f.ty).map fun t =>
      .vgen u d f.a f.b f.q t
  | 0x61 => (y.mod { aux := true }).bind fun m => (VReg.ofCode f.d).bind fun d => (VReg.ofCode f.a).bind fun a =>
      (VReg.ofCode f.b).bind fun b => (FFmt.ofCode f.ty).map fun t => .vproj u d a b f.q t m.aux
  | 0x62 => (y.mod { aux := true }).bind fun m => (VReg.ofCode f.d).bind fun d =>
      (VReg.ofCode f.b).bind fun b => (FFmt.ofCode f.ty).map fun t => .vseedscan u d f.a b f.q t m.aux
  | 0x68 => rowK3 (.kand u) y | 0x69 => rowK3 (.kor u) y
  | 0x6A => rowK2 (.knot u) y | 0x6B => rowK2 (.kmov u) y
  | _ => none

/-- M slot (R253). -/
def decM (y : Syl) : Option Instr :=
  match y.op.toNat with
  | 0x00 => rowCmd (fun f => if f.f2 = 0 ∧ f.f3 = 0 ∧ f.f4 = 0 then (oct f.f1).map .mzero else none) y
  | 0x01 => rowTile (fun r t x => (oct r).map fun r => .mld r t x) y
  | 0x02 => rowTile (fun r t x => (oct r).map fun r => .mst r t x) y
  | 0x03 => rowMma .mma y
  | 0x04 => rowMma .mmaq y
  | 0x05 => rowMma .mmag y
  | 0x06 => rowCmd (fun f => if f.f3 = 0 ∧ f.f4 = 0 then (oct f.f1).map fun r => .mman r f.f2 else none) y
  | 0x07 => let f := CMD.of y.opnd
    if f.f3 = 0 ∧ f.f4 = 0 then (y.mod { rm := true }).bind fun m => (Rnd.ofCode m.rm).bind fun rm =>
      (oct f.f1).map fun r => .mscale r f.f2 rm
    else none
  | 0x08 => rowTile (fun r t x => (oct r).map fun r => .maddt r t x) y
  | 0x09 => let f := CMD.of y.opnd
    if f.f3 = 0 ∧ f.f4 = 0 then (y.mod { rm := true, sub := true }).bind fun m => (Rnd.ofCode m.rm).bind fun rm =>
      (subBit m.sub).bind fun s => (oct f.f1).bind fun d => (oct f.f2).map fun a => .mcvt d a s rm
    else none
  | _ => none

/-- L slot (R254). -/
def decL (y : Syl) : Option Instr :=
  match y.op.toNat with
  | 0x00 => rowTile (fun r t x => (gOfCode r).map fun g => .tld g t x) y
  | 0x01 => rowMem { sub := true } (fun d o m => (LdSize.ofCode m.sub).bind fun z =>
      (gOfCode d).map fun g => .tldm g o z) y
  | 0x02 => rowMem {} (fun d o _ => (gOfCode d).map fun g => .mbld g o) y
  | 0x03 => rowTile0 (fun t x => if x = 0 then some (.tacq t) else none) y
  | 0x04 => rowCmd (fun f => if f.f4 = 0 then (bindOf f.f1).map fun b => .tbind b f.f2 f.f3 else none) y
  | 0x05 => rowTile0 (fun t x => if x.extractLsb' 2 6 = 0 then some (.thint t (x.extractLsb' 0 2)) else none) y
  | 0x06 => rowCmd (fun f => if f.f3 = 0 ∧ f.f4 = 0 then (bindOf f.f1).map fun b => .titin b f.f2 else none) y
  | 0x07 => rowTile (fun r t x => (gOfCode r).map fun g => .tcol g t x) y
  | _ => none

/-- T slot (R255). -/
def decT (y : Syl) : Option Instr :=
  match y.op.toNat with
  | 0x00 => rowTile (fun r t x => (gOfCode r).map fun g => .tst g t x) y
  | 0x01 => rowCmd (fun f => if f.f4 = 0 then (gOfCode f.f1).map fun g => .tstm g f.f2 f.f3 else none) y
  | 0x02 => rowMem {} (fun d o _ => (gOfCode d).map fun g => .mbst g o) y
  | 0x03 => rowMem {} (fun d o _ => (gOfCode d).map fun g => .mbcast g o) y
  | 0x04 => rowTile0 (fun t x => if x.extractLsb' 1 7 = 0 then some (.twopen t (x.getLsbD 0)) else none) y
  | 0x05 => rowTile0 (fun t x => if x.extractLsb' 1 7 = 0 then some (.tpost t (x.getLsbD 0)) else none) y
  | 0x06 => rowTile0 (fun t x => if x = 0 then some (.tdrop t) else none) y
  | _ => none

/-- An X row of one s register and its event. -/
def rowX1 (mk : SReg → BitVec 3 → Instr) : Syl → Option Instr :=
  rowCmd fun f => if f.f3 = 0 ∧ f.f4 = 0 then (oct f.f2).map fun e => mk f.f1 e else none

/-- X slot (R256). -/
def decX (y : Syl) : Option Instr :=
  match y.op.toNat with
  | 0x00 => rowX1 .xcopy y
  | 0x01 => rowX1 .xgather y
  | 0x02 => rowX1 .xremote y
  | 0x03 => rowX1 .xfill y
  | 0x04 => rowX1 .xflushrd y
  | 0x05 => rowCmd (fun f => if f.f1 = 0 ∧ f.f3 = 0 ∧ f.f4 = 0 then (oct f.f2).map .xcancel else none) y
  | 0x10 => let f := CMD.of y.opnd
    (y.mod { sub := true, aux := true }).bind fun m => (RouOp.ofCode m.sub).bind fun op =>
      if m.aux.extractLsb' 1 12 = 0 then (oct f.f4).map fun e =>
        .rop op (if m.aux.getLsbD 0 then .w32 else .w64) f.f1 f.f2 f.f3 e
      else none
  | 0x11 => rowCmd (fun f => if f.f4 = 0 then (oct f.f3).map fun e => .rcas4 f.f1 f.f2 e else none) y
  | 0x12 => rowCmd (fun f => (oct f.f4).map fun e => .renq f.f1 f.f2 f.f3 e) y
  | 0x13 => rowCmd (fun f => if f.f2 = 0 then (oct f.f4).map fun e => .rdeq f.f1 f.f3 e else none) y
  | 0x14 => rowCmd (fun f => if f.f4 = 0 then (oct f.f3).map fun e => .rchase f.f1 f.f2 e else none) y
  | _ => none

/-- A Y flag field holding 0 or 1. -/
def flag6 (c : BitVec 6) : Option Bool :=
  match c.toNat with | 0 => some false | 1 => some true | _ => none

/-- Y slot (R257). -/
def decY (y : Syl) : Option Instr :=
  match y.op.toNat with
  | 0x00 => rowCmd (fun f => if f.f3 = 0 ∧ f.f4 = 0 then some (.spawn f.f1 f.f2) else none) y
  | 0x01 => rowCmd (fun f => if f.f4 = 0 then some (.spawnr f.f1 f.f2 f.f3) else none) y
  | 0x02 => rowCmd (fun f => if f.f3 = 0 ∧ f.f4 = 0 then some (.fget f.f1 f.f2) else none) y
  | 0x03 => rowCmd (fun f => if f.f1 = 0 ∧ f.f3 = 0 then (flag6 f.f4).map fun h => .fdup f.f2 h else none) y
  | 0x04 => rowCmd (fun f => if f.f1 = 0 ∧ f.f3 = 0 ∧ f.f4 = 0 then some (.fdrop f.f2) else none) y
  | 0x05 => rowCmd (fun f => if f = ⟨0, 0, 0, 0⟩ then some .fpin else none) y
  | 0x06 => rowCmd (fun f => if f.f1 = 0 ∧ f.f3 = 0 ∧ f.f4 = 0 then some (.tend f.f2) else none) y
  | 0x07 => rowCmd (fun f => if f = ⟨0, 0, 0, 0⟩ then some .yield else none) y
  | 0x10 => rowCmd (fun f => if f.f3 = 0 ∧ f.f4 = 0 then (oct f.f1).map fun e => .evwait e f.f2 else none) y
  | 0x11 => rowCmd (fun f => if f.f2 = 0 ∧ f.f3 = 0 then (oct f.f1).map fun e => .evinc e f.f4 else none) y
  | 0x12 => rowCmd (fun f => if f.f1 = 0 ∧ f.f3 = 0 ∧ f.f4 = 0 then some (.sev f.f2) else none) y
  | 0x13 => rowCmd (fun f => if f = ⟨0, 0, 0, 0⟩ then some .wfe else none) y
  | 0x14 => rowCmd (fun f => if f.f1 = 0 ∧ f.f2 = 0 ∧ f.f3 = 0 then (oct f.f4).map .bar else none) y
  | 0x15 => rowCmd (fun f => if f.f3 = 0 then (flag6 f.f4).map fun r => .svreg f.f1 f.f2 r else none) y
  | 0x20 => let f := CMD.of y.opnd
    if f.f1 = 0 then (y.mod { sub := true, c := true }).bind fun m => (subBit m.sub).bind fun s =>
      (oct m.c).map fun e => .smst f.f2 f.f3 f.f4 s e
    else none
  | 0x21 => let f := CMD.of y.opnd
    if y.l = true ∧ f.f1 = 0 then (y.mod { sub := true, c := true, aux := true }).bind fun m =>
      (SmOp.ofCode m.sub).bind fun op => (SmFmt.ofCode m.aux).bind fun t => (oct m.c).map fun e =>
      .smred f.f2 f.f3 f.f4 op t e
    else none
  | 0x22 => rowCmd (fun f => if f.f4 = 0 then some (.smjoin f.f1 f.f2 f.f3) else none) y
  | 0x30 => rowCmd (fun f => if f = ⟨0, 0, 0, 0⟩ then some .ckpt else none) y
  | 0x31 => rowCmd (fun f => if f.f1 = 0 ∧ f.f2 = 0 ∧ f.f3 = 0 then some (.trig f.f4) else none) y
  | _ => none

/-- The eight slots, in slot order (R222). -/
inductive Slot where | S | V0 | V1 | M | L | T | X | Y
  deriving DecidableEq, Repr

/-- The slot's number: its bit in the mask of the header (R223). -/
def Slot.num : Slot → Nat
  | .S => 0 | .V0 => 1 | .V1 => 2 | .M => 3 | .L => 4 | .T => 5 | .X => 6 | .Y => 7

def Slot.all : List Slot := [.S, .V0, .V1, .M, .L, .T, .X, .Y]

/-- The instruction of a syllable in a slot; none where step 3 of R233 raises DECODE `opcode`. -/
def decodeSyl (sl : Slot) (y : Syl) : Option Instr :=
  let r := match sl with
    | .S => decS y | .V0 => decV .v0 y | .V1 => decV .v1 y | .M => decM y
    | .L => decL y | .T => decT y | .X => decX y | .Y => decY y
  r.bind fun i => if i.wf then some i else none

/-! ## The encoder, from the same tables (R242: short exactly when R230's values would be written) -/

/-- A short syllable. -/
def sylS (op : BitVec 7) (o : BitVec 24) : Syl := ⟨false, op, o, 0⟩
/-- A syllable that is short where `short` holds, with its extension word otherwise. -/
def sylX (short : Bool) (op : BitVec 7) (o : BitVec 24) (x : BitVec 32) : Syl :=
  if short then ⟨false, op, o, 0⟩ else ⟨true, op, o, x⟩

def enRRR (op : BitVec 7) (d a b : BitVec 6) (q : BitVec 3) (ty : BitVec 3 := 0) : Syl :=
  sylS op (RRR.pack ⟨d, a, b, q, ty⟩)

def enImm (op : BitVec 7) (d a : BitVec 6) (i : BitVec 44) : Syl :=
  sylX ((i.extractLsb' 0 12).signExtend 44 == i) op (RRI.pack ⟨d, a, i.extractLsb' 0 12⟩) (i.extractLsb' 12 32)

def enLI (op : BitVec 7) (d : BitVec 6) (i : BitVec 50) : Syl :=
  sylX ((i.extractLsb' 0 18).signExtend 50 == i) op (RI.pack ⟨d, i.extractLsb' 0 18⟩) (i.extractLsb' 18 32)

def enBR (p : BitVec 3) (neg : Bool) (off : BitVec 20) : BitVec 24 := BRF.pack ⟨p, BitVec.ofBool neg, off⟩

def enMem (op : BitVec 7) (d : BitVec 6) (o : MemOp) (short : Bool) (m : MOD) : Syl :=
  sylX (short && o.aux == 0) op (RRI.pack ⟨d, o.a, o.imm⟩) (MOD.pack { m with aux := o.aux })

def enAtom (op : BitVec 7) (d a b : BitVec 6) (q : BitVec 3) (w : AWidth) (o : Ord) (s : Scope) (short : Bool)
    (m : MOD) : Syl :=
  sylX (short && o == .rlx && s == .pkg) op (RRR.pack ⟨d, a, b, q, w.ty⟩)
    (MOD.pack { m with ord := o.code, sc := s.code })

def enV3 (op : BitVec 7) (d a b : VReg) (k : BitVec 3) (t : IFmt) : Syl := enRRR op d.code a.code b.code k t.code
def enV2 (op : BitVec 7) (d a : VReg) (k : BitVec 3) (t : IFmt) : Syl := enRRR op d.code a.code 0 k t.code
def enV4 (op : BitVec 7) (d a b c : VReg) (k : BitVec 3) (t : IFmt) : Syl :=
  sylX false op (RRR.pack ⟨d.code, a.code, b.code, k, t.code⟩) (MOD.pack { c := c.code })
def enF3 (op : BitVec 7) (d a b : VReg) (k : BitVec 3) (t : FFmt) (rm : Rnd) : Syl :=
  sylX (rm == .dyn) op (RRR.pack ⟨d.code, a.code, b.code, k, t.code⟩) (MOD.pack { rm := rm.code })
def enF2 (op : BitVec 7) (d a : VReg) (k : BitVec 3) (t : FFmt) (rm : Rnd) : Syl :=
  sylX (rm == .dyn) op (RRR.pack ⟨d.code, a.code, 0, k, t.code⟩) (MOD.pack { rm := rm.code })
def enF4 (op : BitVec 7) (d a b c : VReg) (k : BitVec 3) (t : FFmt) (rm : Rnd) : Syl :=
  sylX false op (RRR.pack ⟨d.code, a.code, b.code, k, t.code⟩) (MOD.pack { rm := rm.code, c := c.code })
def enFs3 (op : BitVec 7) (d a b : VReg) (k : BitVec 3) (t : FFmt) : Syl := enRRR op d.code a.code b.code k t.code
def enFs2 (op : BitVec 7) (d a : VReg) (k : BitVec 3) (t : FFmt) : Syl := enRRR op d.code a.code 0 k t.code

def enTile (op : BitVec 7) (r : BitVec 6) (t : TileOp) (x : BitVec 8) : Syl :=
  sylX (t.c2 == 0 && t.c3 == 0 && t.c4 == 0 && t.c5 == 0 && x == 0) op (TILE.pack ⟨r, t.b, t.c0, t.c1, 0⟩)
    (CX.pack ⟨t.c2, t.c3, t.c4, t.c5, x⟩)

def enCmd (op : BitVec 7) (f1 f2 f3 f4 : BitVec 6) : Syl := sylS op (CMD.pack ⟨f1, f2, f3, f4⟩)

def enMma (op : BitVec 7) (f : BitVec 3) (a w : BitVec 5) (c : SReg) (off : BitVec 8) (rm : Rnd) : Syl :=
  sylX (rm == .dyn && off == 0) op (CMD.pack ⟨octCode f, bindCode a, bindCode w, c⟩)
    (MOD.pack { rm := rm.code, aux := 0#5 ++ off })

def bit6 (b : Bool) : BitVec 6 := if b then 1 else 0
def bit8 (b : Bool) : BitVec 8 := if b then 1 else 0

/-- The syllable of an instruction (R249, R252 to R257); none for the empty bundle and for the steps that no word
encodes. -/
def Instr.syl : Instr → Option Syl
  | .add d a b q => some (enRRR 0x00 d a b q)
  | .sub d a b q => some (enRRR 0x01 d a b q)
  | .and d a b q => some (enRRR 0x02 d a b q)
  | .or d a b q => some (enRRR 0x03 d a b q)
  | .xor d a b q => some (enRRR 0x04 d a b q)
  | .shl d a b q => some (enRRR 0x05 d a b q)
  | .shr d a b q => some (enRRR 0x06 d a b q)
  | .sar d a b q => some (enRRR 0x07 d a b q)
  | .min d a b q => some (enRRR 0x08 d a b q)
  | .max d a b q => some (enRRR 0x09 d a b q)
  | .minn d a b q => some (enRRR 0x0A d a b q)
  | .maxn d a b q => some (enRRR 0x0B d a b q)
  | .mul d a b q => some (enRRR 0x0C d a b q)
  | .mulh d a b q => some (enRRR 0x0D d a b q)
  | .mulhn d a b q => some (enRRR 0x0E d a b q)
  | .div d a b q => some (enRRR 0x0F d a b q)
  | .divn d a b q => some (enRRR 0x10 d a b q)
  | .rem d a b q => some (enRRR 0x11 d a b q)
  | .remn d a b q => some (enRRR 0x12 d a b q)
  | .clz d a q => some (enRRR 0x13 d a 0 q)
  | .popc d a q => some (enRRR 0x14 d a 0 q)
  | .bext d a b q p w => some (sylX false 0x15 (RRR.pack ⟨d, a, b, q, 0⟩) (MOD.pack { aux := w ++ p }))
  | .bins d a b q p w => some (sylX false 0x16 (RRR.pack ⟨d, a, b, q, 0⟩) (MOD.pack { aux := w ++ p }))
  | .sel d a b q p => some (enRRR 0x17 d a b q p)
  | .cmp p a b q c => some (enRRR 0x18 (octCode p) a b q c.code)
  | .addi d a i => some (enImm 0x20 d a i)
  | .andi d a i => some (enImm 0x21 d a i)
  | .ori d a i => some (enImm 0x22 d a i)
  | .xori d a i => some (enImm 0x23 d a i)
  | .shli d a n => some (sylS 0x24 (RRI.pack ⟨d, a, 0#6 ++ n⟩))
  | .shri d a n => some (sylS 0x25 (RRI.pack ⟨d, a, 0#6 ++ n⟩))
  | .sari d a n => some (sylS 0x26 (RRI.pack ⟨d, a, 0#6 ++ n⟩))
  | .cmpi p a i c => some (enImm 0x27 (p ++ c.code) a i)
  | .li d i => some (enLI 0x28 d i)
  | .lih d i => some (enLI 0x29 d i)
  | .br p n o => some (sylS 0x30 (enBR p n o))
  | .brc p n o c t => some (sylX false 0x31 (enBR p n o) (MOD.pack { sub := t.code, c := c }))
  | .call p n o => some (sylS 0x32 (enBR p n o))
  | .callr a q => some (enRRR 0x33 0 a 0 q)
  | .ret a q => some (enRRR 0x34 0 a 0 q)
  | .jr a q => some (enRRR 0x35 0 a 0 q)
  | .loop c0 c1 c2 c3 lv off => some (sylX false 0x38 (RRR.pack ⟨c0, c1, c2, 0#1 ++ lv, 0⟩)
      (CX.pack ⟨c3, 0, off.extractLsb' 6 6, off.extractLsb' 0 6, 0⟩))
  | .ring f b n => some (sylS 0x39 (RRI.pack ⟨b, 0, 0#6 ++ f.code ++ n⟩))
  | .mfsr d r => some (sylS 0x3A (RI.pack ⟨d, 0#6 ++ r.code⟩))
  | .mtsr r a => some (sylS 0x3B (RI.pack ⟨a, 0#6 ++ r.code⟩))
  | .ld d o w => some (enMem 0x40 d o (w == .d64) { sub := w.code })
  | .st d o w => some (enMem 0x41 d o (w == .d64) { sub := w.code })
  | .lda d o w s => some (enMem 0x42 d o (w == .d64 && s == .pkg) { sub := w.code, sc := s.code })
  | .stl d o w s => some (enMem 0x43 d o (w == .d64 && s == .pkg) { sub := w.code, sc := s.code })
  | .amo op d a b q w o s => some (enAtom 0x44 d a b q w o s (op == .add) { sub := op.code })
  | .amocas d a b c q w o s => some (enAtom 0x45 d a b q w o s (c == 0) { c := c })
  | .lr d a q w o s => some (enAtom 0x46 d a 0 q w o s true {})
  | .sc d a b q w o s => some (enAtom 0x47 d a b q w o s true {})
  | .fence o s q => some (sylX false 0x48 (RRR.pack ⟨0, 0, 0, q, 0⟩) (MOD.pack { ord := o.code, sc := s.code }))
  | .cwb a b q s => some (sylX (s == .pkg) 0x49 (RRR.pack ⟨0, a, b, q, 0⟩) (MOD.pack { sc := s.code }))
  | .pref o c => some (enMem 0x4A 0 o (!c) { sub := bit4 c })
  | .xget d g n => some (sylS 0x4B (RRI.pack ⟨d, 0#2 ++ g, 0#7 ++ n⟩))
  | .trap c => some (sylS 0x50 (RI.pack ⟨0, 0#10 ++ c⟩))
  | .svc n => some (sylS 0x51 (RI.pack ⟨0, n⟩))
  | .eret q => some (enRRR 0x52 0 0 0 q)
  | .brk t => some (sylS 0x53 (RI.pack ⟨0, t⟩))
  | .tlbinv a b q all => some (enRRR 0x54 0 a b q (if all then 1 else 0))
  | .wfi q => some (enRRR 0x55 0 0 0 q)
  | .vadd _ d a b k t => some (enV3 0x00 d a b k t)
  | .vsub _ d a b k t => some (enV3 0x01 d a b k t)
  | .vadds _ d a b k t => some (enV3 0x02 d a b k t)
  | .vsubs _ d a b k t => some (enV3 0x03 d a b k t)
  | .vmul _ d a b k t => some (enV3 0x04 d a b k t)
  | .vmulh _ d a b k t => some (enV3 0x05 d a b k t)
  | .vmla _ d a b c k t => some (enV4 0x06 d a b c k t)
  | .vmls _ d a b c k t => some (enV4 0x07 d a b c k t)
  | .vaddw _ d a b k t => some (enV3 0x08 d a b k t)
  | .vmlaw _ d a b c k t => some (enV4 0x09 d a b c k t)
  | .vnarrow _ d a k t s => some (sylX (!s) 0x0A (RRR.pack ⟨d.code, a.code, 0, k, t.code⟩)
      (MOD.pack { sat := BitVec.ofBool s }))
  | .vabs _ d a k t => some (enV2 0x0B d a k t)
  | .vneg _ d a k t => some (enV2 0x0C d a k t)
  | .vmin _ d a b k t => some (enV3 0x0D d a b k t)
  | .vmax _ d a b k t => some (enV3 0x0E d a b k t)
  | .vand _ d a b k t => some (enV3 0x0F d a b k t)
  | .vor _ d a b k t => some (enV3 0x10 d a b k t)
  | .vxor _ d a b k t => some (enV3 0x11 d a b k t)
  | .vnot _ d a k t => some (enV2 0x12 d a k t)
  | .vshl _ d a b k t => some (enV3 0x13 d a b k t)
  | .vshr _ d a b k t => some (enV3 0x14 d a b k t)
  | .vsar _ d a b k t => some (enV3 0x15 d a b k t)
  | .vshli _ d a n k t => some (enRRR 0x16 d.code a.code n k t.code)
  | .vcmp _ d a b k t c => some (sylX (c == .eq) 0x17 (RRR.pack ⟨octCode d, a.code, b.code, k, t.code⟩)
      (MOD.pack { sub := c.code }))
  | .vsel _ d a b k t => some (enV3 0x18 d a b k t)
  | .fadd _ d a b k t rm => some (enF3 0x20 d a b k t rm)
  | .fsub _ d a b k t rm => some (enF3 0x21 d a b k t rm)
  | .fmul _ d a b k t rm => some (enF3 0x22 d a b k t rm)
  | .ffma _ d a b c k t rm => some (enF4 0x23 d a b c k t rm)
  | .ffms _ d a b c k t rm => some (enF4 0x24 d a b c k t rm)
  | .fdiv _ d a b k t rm => some (enF3 0x25 d a b k t rm)
  | .fsqrt _ d a k t rm => some (enF2 0x26 d a k t rm)
  | .frcpe _ d a k t => some (enFs2 0x27 d a k t)
  | .fmin _ d a b k t => some (enFs3 0x28 d a b k t)
  | .fmax _ d a b k t => some (enFs3 0x29 d a b k t)
  | .fabs _ d a k t => some (enFs2 0x2A d a k t)
  | .fneg _ d a k t => some (enFs2 0x2B d a k t)
  | .fcmp _ d a b k t c => some (sylX (c == .eq) 0x2C (RRR.pack ⟨octCode d, a.code, b.code, k, t.code⟩)
      (MOD.pack { sub := c.code }))
  | .fclass _ d a k t => some (enFs2 0x2D d a k t)
  | .fcvt _ d a k t s rm sat => some (sylX (rm == .dyn && !sat && s == .e4m3) 0x2E
      (RRR.pack ⟨d.code, a.code, 0, k, t.code⟩)
      (MOD.pack { rm := rm.code, sat := BitVec.ofBool sat, sub := 0#1 ++ s.code }))
  | .fcvti _ d a k t s rm => some (sylX (rm == .dyn && s == .e4m3) 0x2F
      (RRR.pack ⟨d.code, a.code, 0, k, t.code⟩) (MOD.pack { rm := rm.code, sub := 0#1 ++ s.code }))
  | .icvtf _ d a k t s rm => some (sylX (rm == .dyn && s == .i8) 0x30
      (RRR.pack ⟨d.code, a.code, 0, k, t.code⟩) (MOD.pack { rm := rm.code, sub := 0#1 ++ s.code }))
  | .fround _ d a k t rm => some (enF2 0x31 d a k t rm)
  | .vmov _ d a k t => some (enV2 0x40 d a k t)
  | .vbcast _ d a k t => some (enRRR 0x41 d.code a 0 k t.code)
  | .vslide _ d a b k t off => some (sylX (off == 0) 0x42 (RRR.pack ⟨d.code, a.code, b.code, k, t.code⟩)
      (MOD.pack { aux := 0#5 ++ off }))
  | .vperm _ d a b k t => some (enV3 0x43 d a b k t)
  | .vlane _ d a k t n => some (sylX (n == 0) 0x44 (RRR.pack ⟨d.code, a, 0, k, t.code⟩)
      (MOD.pack { aux := 0#5 ++ n }))
  | .vredadd _ d a k t => some (enV2 0x50 d a k t)
  | .vredmin _ d a k t => some (enV2 0x51 d a k t)
  | .vredmax _ d a k t => some (enV2 0x52 d a k t)
  | .fredadd _ d a k t rm => some (enF2 0x53 d a k t rm)
  | .vscan _ d a k t => some (enV2 0x54 d a k t)
  | .fscan _ d a k t rm => some (enF2 0x55 d a k t rm)
  | .vdequant _ d a b k t s rm => some (sylX (rm == .dyn && !s) 0x58
      (RRR.pack ⟨d.code, a.code, b.code, k, t.code⟩) (MOD.pack { rm := rm.code, sub := bit4 s }))
  | .vquant _ d a b k t s rm => some (sylX (rm == .dyn && !s) 0x59
      (RRR.pack ⟨d.code, a.code, b.code, k, t.code⟩) (MOD.pack { rm := rm.code, sub := bit4 s }))
  | .vgen _ d a b k t => some (enRRR 0x60 d.code a b k t.code)
  | .vproj _ d a b k t r => some (sylX false 0x61 (RRR.pack ⟨d.code, a.code, b.code, k, t.code⟩)
      (MOD.pack { aux := r }))
  | .vseedscan _ d a b k t r => some (sylX false 0x62 (RRR.pack ⟨d.code, a, b.code, k, t.code⟩)
      (MOD.pack { aux := r }))
  | .kand _ d a b => some (enRRR 0x68 (octCode d) (octCode a) (octCode b) 0)
  | .kor _ d a b => some (enRRR 0x69 (octCode d) (octCode a) (octCode b) 0)
  | .knot _ d a => some (enRRR 0x6A (octCode d) (octCode a) 0 0)
  | .kmov _ d a => some (enRRR 0x6B (octCode d) (octCode a) 0 0)
  | .mzero f => some (enCmd 0x00 (octCode f) 0 0 0)
  | .mld r t x => some (enTile 0x01 (octCode r) t x)
  | .mst r t x => some (enTile 0x02 (octCode r) t x)
  | .mma f a w c x rm => some (enMma 0x03 f a w c x rm)
  | .mmaq f a w c x rm => some (enMma 0x04 f a w c x rm)
  | .mmag f a w c x rm => some (enMma 0x05 f a w c x rm)
  | .mman f n => some (enCmd 0x06 (octCode f) n 0 0)
  | .mscale f s rm => some (sylX (rm == .dyn) 0x07 (CMD.pack ⟨octCode f, s, 0, 0⟩) (MOD.pack { rm := rm.code }))
  | .maddt r t x => some (enTile 0x08 (octCode r) t x)
  | .mcvt d s z rm => some (sylX (rm == .dyn && !z) 0x09 (CMD.pack ⟨octCode d, octCode s, 0, 0⟩)
      (MOD.pack { rm := rm.code, sub := bit4 z }))
  | .tld r t x => some (enTile 0x00 (gCode r) t x)
  | .tldm d o z => some (enMem 0x01 (gCode d) o (z == .b256) { sub := z.code })
  | .mbld d o => some (enMem 0x02 (gCode d) o true {})
  | .tacq t => some (enTile 0x03 0 t 0)
  | .tbind f d v => some (enCmd 0x04 (bindCode f) d v 0)
  | .thint t h => some (enTile 0x05 0 t (0#6 ++ h))
  | .titin f i => some (enCmd 0x06 (bindCode f) i 0 0)
  | .tcol r t x => some (enTile 0x07 (gCode r) t x)
  | .tst r t x => some (enTile 0x00 (gCode r) t x)
  | .tstm g a m => some (enCmd 0x01 (gCode g) a m 0)
  | .mbst d o => some (enMem 0x02 (gCode d) o true {})
  | .mbcast d o => some (enMem 0x03 (gCode d) o true {})
  | .twopen t z => some (enTile 0x04 0 t (bit8 z))
  | .tpost t z => some (enTile 0x05 0 t (bit8 z))
  | .tdrop t => some (enTile 0x06 0 t 0)
  | .xcopy d e => some (enCmd 0x00 d (octCode e) 0 0)
  | .xgather d e => some (enCmd 0x01 d (octCode e) 0 0)
  | .xremote d e => some (enCmd 0x02 d (octCode e) 0 0)
  | .xfill d e => some (enCmd 0x03 d (octCode e) 0 0)
  | .xflushrd p e => some (enCmd 0x04 p (octCode e) 0 0)
  | .xcancel e => some (enCmd 0x05 0 (octCode e) 0 0)
  | .rop op w a x r e => some (sylX (op == .add && w == .w64) 0x10 (CMD.pack ⟨a, x, r, octCode e⟩)
      (MOD.pack { sub := op.code, aux := if w == .w32 then 1 else 0 }))
  | .rcas4 b r e => some (enCmd 0x11 b r (octCode e) 0)
  | .renq h n r e => some (enCmd 0x12 h n r (octCode e))
  | .rdeq h r e => some (enCmd 0x13 h 0 r (octCode e))
  | .rchase b r e => some (enCmd 0x14 b r (octCode e) 0)
  | .spawn d a => some (enCmd 0x00 d a 0 0)
  | .spawnr d a n => some (enCmd 0x01 d a n 0)
  | .fget d h => some (enCmd 0x02 d h 0 0)
  | .fdup h f => some (enCmd 0x03 0 h 0 (bit6 f))
  | .fdrop h => some (enCmd 0x04 0 h 0 0)
  | .fpin => some (enCmd 0x05 0 0 0 0)
  | .tend v => some (enCmd 0x06 0 v 0 0)
  | .yield => some (enCmd 0x07 0 0 0 0)
  | .evwait e t => some (enCmd 0x10 (octCode e) t 0 0)
  | .evinc e i => some (enCmd 0x11 (octCode e) 0 0 i)
  | .sev t => some (enCmd 0x12 0 t 0 0)
  | .wfe => some (enCmd 0x13 0 0 0 0)
  | .bar n => some (enCmd 0x14 0 0 0 (octCode n))
  | .svreg d a f => some (enCmd 0x15 d a 0 (bit6 f))
  | .smst g s n log c => some (sylX (!log && c == 0) 0x20 (CMD.pack ⟨0, g, s, n⟩)
      (MOD.pack { sub := bit4 log, c := octCode c }))
  | .smred g s n op t c => some (sylX false 0x21 (CMD.pack ⟨0, g, s, n⟩)
      (MOD.pack { sub := op.code, c := octCode c, aux := t.code }))
  | .smjoin d g w => some (enCmd 0x22 d g w 0)
  | .ckpt => some (enCmd 0x30 0 0 0 0)
  | .trig n => some (enCmd 0x31 0 0 0 n)
  | _ => none

/-! ## Port demand and templates (R234 to R236) -/

def TileOp.sregs (t : TileOp) : List SReg := [t.c0, t.c1, t.c2, t.c3, t.c4, t.c5]

/-- The s-typed source fields of a syllable outside the S slot, in field order (R236). -/
def Instr.sSources : Instr → List SReg
  | .vbcast _ _ a _ _ | .vlane _ _ a _ _ _ | .vseedscan _ _ a _ _ _ _ => [a]
  | .vgen _ _ a b _ _ => [a, b]
  | .mld _ t _ | .mst _ t _ | .maddt _ t _ | .tld _ t _ | .tcol _ t _ | .tacq t | .thint t _ | .tst _ t _
  | .twopen t _ | .tpost t _ | .tdrop t => t.sregs
  | .mma _ _ _ c _ _ | .mmaq _ _ _ c _ _ | .mmag _ _ _ c _ _ => [c]
  | .mman _ n => [n]
  | .mscale _ s _ => [s]
  | .tldm _ m _ | .mbld _ m | .mbst _ m | .mbcast _ m => [m.a]
  | .tbind _ d v => [d, v]
  | .titin _ i => [i]
  | .tstm _ a m => [a, m]
  | .xcopy d _ | .xgather d _ | .xremote d _ | .xfill d _ | .xflushrd d _ => [d]
  | .rop _ _ a x r _ => [a, x, r]
  | .rcas4 b r _ | .rchase b r _ => [b, r]
  | .renq h n r _ => [h, n, r]
  | .rdeq h r _ => [h, r]
  | .spawn _ a => [a]
  | .spawnr _ a n => [a, n]
  | .fget _ h | .fdup h _ | .fdrop h => [h]
  | .tend v => [v]
  | .evwait _ t => [t]
  | .sev t => [t]
  | .svreg _ a _ => [a]
  | .smst g s _ _ _ | .smred g s _ _ _ _ => [g, s]
  | .smjoin _ g w => [g, w]
  | _ => []

def VReg.isG : VReg → Bool
  | .g _ => true
  | .own _ => false

/-- The register fields of a V syllable: its destination, where that is a register, and its sources. -/
def Instr.vFields : Instr → Option VReg × List VReg
  | .vadd _ d a b _ _ | .vsub _ d a b _ _ | .vadds _ d a b _ _ | .vsubs _ d a b _ _ | .vmul _ d a b _ _
  | .vmulh _ d a b _ _ | .vaddw _ d a b _ _ | .vmin _ d a b _ _ | .vmax _ d a b _ _ | .vand _ d a b _ _
  | .vor _ d a b _ _ | .vxor _ d a b _ _ | .vshl _ d a b _ _ | .vshr _ d a b _ _ | .vsar _ d a b _ _
  | .vsel _ d a b _ _ | .fadd _ d a b _ _ _ | .fsub _ d a b _ _ _ | .fmul _ d a b _ _ _ | .fdiv _ d a b _ _ _
  | .fmin _ d a b _ _ | .fmax _ d a b _ _ | .vslide _ d a b _ _ _ | .vperm _ d a b _ _
  | .vdequant _ d a b _ _ _ _ | .vquant _ d a b _ _ _ _ | .vproj _ d a b _ _ _ => (some d, [a, b])
  | .vmla _ d a b c _ _ | .vmls _ d a b c _ _ | .vmlaw _ d a b c _ _ | .ffma _ d a b c _ _ _
  | .ffms _ d a b c _ _ _ => (some d, [a, b, c])
  | .vnarrow _ d a _ _ _ | .vabs _ d a _ _ | .vneg _ d a _ _ | .vnot _ d a _ _ | .vshli _ d a _ _ _
  | .fsqrt _ d a _ _ _ | .frcpe _ d a _ _ | .fabs _ d a _ _ | .fneg _ d a _ _ | .fclass _ d a _ _
  | .fcvt _ d a _ _ _ _ _ | .fcvti _ d a _ _ _ _ | .icvtf _ d a _ _ _ _ | .fround _ d a _ _ _ | .vmov _ d a _ _
  | .vredadd _ d a _ _ | .vredmin _ d a _ _ | .vredmax _ d a _ _ | .fredadd _ d a _ _ _ | .vscan _ d a _ _
  | .fscan _ d a _ _ _ => (some d, [a])
  | .vcmp _ _ a b _ _ _ | .fcmp _ _ a b _ _ _ => (none, [a, b])
  | .vbcast _ d _ _ _ | .vlane _ d _ _ _ _ | .vgen _ d _ _ _ _ => (some d, [])
  | .vseedscan _ d _ b _ _ _ => (some d, [b])
  | _ => (none, [])

/-- Source fields that name a g register: one XR port each (R236). -/
def Instr.xrDemand (i : Instr) : Nat :=
  match i with
  | .tst _ _ _ | .tstm _ _ _ | .mbst _ _ | .mbcast _ _ => 1
  | _ => (i.vFields.2.filter VReg.isG).length

/-- Destinations that name a g register: one XW port each (R236). -/
def Instr.xwDemand (i : Instr) : Nat :=
  match i with
  | .tld _ _ _ | .tldm _ _ _ | .mbld _ _ | .tcol _ _ _ => 1
  | _ => match i.vFields.1 with | some (.g _) => 1 | _ => 0

/-- Distinct s registers other than s0 (R236). -/
def distinctS : List SReg → Nat
  | [] => 0
  | r :: rs => (if r == 0 || rs.contains r then 0 else 1) + distinctS rs

/-- A port template: the slots that hold P0 to P2, XR0 and XR1, XW0 and XW1 (R235). -/
structure Tmpl where
  p : List Slot
  xr : List Slot
  xw : List Slot

def tmpl (n : BitVec 4) : Tmpl :=
  match n.toNat with
  | 0 => ⟨[.L, .T, .X], [.V0, .V1], [.V0, .V1]⟩
  | 1 => ⟨[.L, .T, .Y], [.V0, .T], [.L, .V0]⟩
  | 2 => ⟨[.L, .T, .Y], [.V1, .T], [.L, .V1]⟩
  | 3 => ⟨[.L, .V0, .V1], [.V0, .V1], [.L, .V0]⟩
  | 4 => ⟨[.M, .M, .L], [.V0, .V1], [.L, .V0]⟩
  | 5 => ⟨[.M, .M, .M], [.V0, .V1], [.V0, .V1]⟩
  | 6 => ⟨[.X, .X, .X], [.V0, .V1], [.V0, .V1]⟩
  | 7 => ⟨[.L, .L, .T], [.T, .V0], [.L, .V0]⟩
  | 8 => ⟨[.T, .T, .L], [.T, .V1], [.L, .V1]⟩
  | 9 => ⟨[.Y, .Y, .X], [.V0, .V1], [.V0, .V1]⟩
  | 10 => ⟨[.V0, .V1, .Y], [.V0, .V1], [.V0, .V1]⟩
  | 11 => ⟨[.L, .X, .Y], [.V0, .T], [.L, .V1]⟩
  | 12 => ⟨[.L, .T, .M], [.V1, .T], [.L, .V0]⟩
  | 13 => ⟨[.V0, .V0, .L], [.V0, .V0], [.L, .V0]⟩
  | 14 => ⟨[.V1, .V1, .T], [.V1, .V1], [.L, .V1]⟩
  | _ => ⟨[.X, .Y, .M], [.V0, .V1], [.V0, .V1]⟩

/-- The template allots every port that the syllable demands to its slot (R236). -/
def portsOk (t : BitVec 4) (sl : Slot) (i : Instr) : Bool :=
  sl == .S ||
    (distinctS i.sSources ≤ (tmpl t).p.count sl && i.xrDemand ≤ (tmpl t).xr.count sl
      && i.xwDemand ≤ (tmpl t).xw.count sl)

/-! ## Bundles (R222 to R224, R233) -/

/-- The header word (R223). -/
structure Header where
  drain : Bool
  run : BitVec 4
  mask : BitVec 8
  tmpl : BitVec 4
  deriving DecidableEq, Repr

/-- The fields of a header word; the marker and the reserved bits are checked at step 2 of R233. -/
def Header.of (w : BitVec 32) : Header :=
  ⟨w.getLsbD 16, w.extractLsb' 12 4, w.extractLsb' 4 8, w.extractLsb' 0 4⟩
def Header.pack (h : Header) : BitVec 32 := 0xA5#8 ++ 0#7 ++ BitVec.ofBool h.drain ++ h.run ++ h.mask ++ h.tmpl
/-- The marker and the reserved bits are right (R223). -/
def Header.good (w : BitVec 32) : Bool := w.extractLsb' 24 8 == 0xA5 && w.extractLsb' 17 7 == 0
/-- The slots that a header's mask names, in slot order. -/
def Header.slots (h : Header) : List Slot := Slot.all.filter fun sl => h.mask.getLsbD sl.num

/-- A bundle that passed steps 1 to 4 of R233. -/
structure Bundle where
  drain : Bool
  run : BitVec 4
  tmpl : BitVec 4
  words : Nat
  ops : List (Slot × Instr)
  deriving DecidableEq, Repr

/-- The trap of the first check that fails (R233, steps 2 to 4). -/
inductive DecErr where
  | bundle
  | opcode (sl : Slot)
  | ports (sl : Slot)
  deriving DecidableEq, Repr

/-- How many words of the bundle must be fetched, given its first words (R233, step 1): the header, the n
syllables, and the e extension words only when n + e + 1 ≤ 16. -/
def wordsNeeded : List (BitVec 32) → Nat
  | [] => 1
  | h :: rest =>
    let n := (Header.of h).slots.length
    if rest.length < n then n + 1
    else
      let e := ((rest.take n).filter fun w => w.getLsbD 31).length
      if n + e + 1 ≤ 16 then n + e + 1 else n + 1

/-- Each syllable with its extension word, zero when it is short (R222). -/
def withExt : List Slot → List (BitVec 32) → List (BitVec 32) → List (Slot × Syl)
  | sl :: sls, w :: ws, xs =>
    if w.getLsbD 31 then (sl, Syl.ofWords w (xs.headD 0)) :: withExt sls ws xs.tail
    else (sl, Syl.ofWords w 0) :: withExt sls ws xs
  | _, _, _ => []

/-- Step 3: every syllable decodes, or the first slot that does not. -/
def decodeAll : List (Slot × Syl) → Except Slot (List (Slot × Instr))
  | [] => .ok []
  | (sl, y) :: r =>
    match decodeSyl sl y with
    | none => .error sl
    | some i =>
      match decodeAll r with
      | .ok l => .ok ((sl, i) :: l)
      | .error e => .error e

/-- Steps 2 to 4 of R233 on the words that step 1 fetched. -/
def decodeBundle (ws : List (BitVec 32)) : Except DecErr Bundle :=
  match ws with
  | [] => .error .bundle
  | w :: rest =>
    let h := Header.of w
    let n := h.slots.length
    let e := ((rest.take n).filter fun w => w.getLsbD 31).length
    if !Header.good w || n + e + 1 > 16 || rest.length < n + e then .error .bundle
    else
      match decodeAll (withExt h.slots (rest.take n) (rest.drop n)) with
      | .error sl => .error (.opcode sl)
      | .ok ops =>
        match ops.find? fun (sl, i) => !portsOk h.tmpl sl i with
        | some (sl, _) => .error (.ports sl)
        | none => .ok ⟨h.drain, h.run, h.tmpl, n + e + 1, ops⟩

/-! ## One syllable alone -/

/-- The slots in the order in which a lone word is tried (log 9): opcode numbers are local to a slot class. -/
def decodeSlots (y : Syl) : List Slot → Option (Slot × Instr)
  | [] => none
  | sl :: r => match decodeSyl sl y with | some i => some (sl, i) | none => decodeSlots y r

/-- A word alone (log 9): the header of an empty bundle, or a syllable of the first slot class that decodes it. -/
def decodeLone (w x : BitVec 32) : Option (Option Slot × Instr) :=
  if Header.good w && (Header.of w).mask == 0 then
    some (none, .nop (Header.of w).drain (Header.of w).run (Header.of w).tmpl)
  else (decodeSlots (Syl.ofWords w x) Slot.all).map fun (sl, i) => (some sl, i)

/-- The instruction of a table word: the syllable word in bits 31..0 and its extension word in bits 63..32. -/
def decodeTableWord (_nbits w : Nat) : Option Instr :=
  (decodeLone (BitVec.ofNat 32 w) (BitVec.ofNat 32 (w >>> 32))).map (·.2)

/-- The lowest template that allots what a lone syllable demands (R243). -/
def loneTmpl (sl : Slot) (i : Instr) : BitVec 4 :=
  BitVec.ofNat 4 (((List.range 16).find? fun t => portsOk (BitVec.ofNat 4 t) sl i).getD 0)

/-- The words of a bundle whose only syllable is `i` in slot `sl`. -/
def loneWords (sl : Slot) (y : Syl) (i : Instr) : List (BitVec 32) :=
  Header.pack ⟨false, 0, BitVec.ofNat 8 (2 ^ sl.num), loneTmpl sl i⟩ :: y.word :: (if y.l then [y.ext] else [])

/-- The words of an instruction as a bundle of its own, in a slot of its class; none for the steps that no word
encodes. -/
def encode (sl : Slot) (i : Instr) : Option (List (BitVec 32)) :=
  match i with
  | .nop d r t => some [Header.pack ⟨d, r, 0, t⟩]
  | _ => i.syl.map fun y => loneWords sl y i

end Sys2Proof
end

