-- ==== Sys2Proof/Machine/Bits.lean ====
section
/-! DEFINITION. Lanes of vector registers (R291), integers of a width (R296), byte order (R6) and the generator of
Mirage tiles (R58). -/
namespace Sys2Proof

/-- A signed format (R41). -/
def IFmt.signed : IFmt → Bool
  | .i8 | .i16 | .i32 | .i64 => true
  | _ => false

end Sys2Proof

namespace Sys2Proof.Machine

/-- The unsigned value of the `n` bits of a number from bit `lo` up. -/
def bitsAt (x lo n : Nat) : Nat := (x >>> lo) % 2 ^ n

/-- The unsigned value of lane `i` of width `w` (R291). -/
def lane {n : Nat} (w i : Nat) (x : BitVec n) : Nat := bitsAt x.toNat (w * i) w

/-- The number whose first `n` lanes of width `w` are `f 0` … `f (n − 1)`. -/
def packN (w : Nat) (f : Nat → Nat) : Nat → Nat
  | 0 => 0
  | n + 1 => packN w f n + (f n % 2 ^ w) * 2 ^ (w * n)

/-- A vector register from its lanes; lanes from `n` up are 0. -/
def vec (w n : Nat) (f : Nat → Nat) : Vec := BitVec.ofNat 2048 (packN w f n)

/-- A mask from its bits; bits from `n` up are 0 (R298). -/
def maskOf (n : Nat) (f : Nat → Bool) : Mask := BitVec.ofNat 256 (packN 1 (fun i => if f i then 1 else 0) n)

/-- Signed(x) for a value of width `w` (R296). -/
def sgn (w x : Nat) : Int := if x < 2 ^ (w - 1) then (x : Int) else (x : Int) - (2 ^ w : Nat)

/-- Bits(z, w − 1, 0) of an exact integer. -/
def wrap (w : Nat) (z : Int) : Nat := (z % ((2 ^ w : Nat) : Int)).toNat

/-- Val(x): signed or unsigned by the format (R296). -/
def val (t : IFmt) (w x : Nat) : Int := if t.signed then sgn w x else (x : Int)

/-- The largest value of an integer format of width `w`. -/
def maxOf (signed : Bool) (w : Nat) : Int := if signed then 2 ^ (w - 1) - 1 else 2 ^ w - 1
/-- The smallest value of an integer format of width `w`. -/
def minOf (signed : Bool) (w : Nat) : Int := if signed then -(2 ^ (w - 1)) else 0

/-- SatS or SatN: the nearest value of the format (R296). -/
def clampTo (signed : Bool) (w : Nat) (z : Int) : Int :=
  if z > maxOf signed w then maxOf signed w else if z < minOf signed w then minOf signed w else z

/-- Number of one bits of a number below 2^w. -/
def ones (x : Nat) : Nat → Nat
  | 0 => 0
  | w + 1 => ones x w + (if x.testBit w then 1 else 0)

/-- The `n` bytes of a value, the least significant first (R6). -/
def leBytes (x : Nat) (n : Nat) : List Byte := (List.range n).map fun i => BitVec.ofNat 8 (x >>> (8 * i))

/-- The value of bytes, the least significant first (R6). -/
def ofLe : List Byte → Nat
  | [] => 0
  | b :: bs => b.toNat + 256 * ofLe bs

/-- One step of the generator (R58): the state after it. -/
def lfsrNext (s : Word) : Word :=
  if s.getLsbD 0 then (s >>> 1) ^^^ 0xD800000000000000#64 else s >>> 1

/-- The generator's state before step `t` (R58); a seed of 0 acts as 1. -/
def lfsrAt (seed : Word) : Nat → Word
  | 0 => if seed = 0 then 1 else seed
  | t + 1 => lfsrNext (lfsrAt seed t)

/-- Lfsr(seed, t): the output bit of step `t` (R58). -/
def lfsr (seed : Word) (t : Nat) : Bool := (lfsrAt seed t).getLsbD 0

/-- A CRC's register after bits, the first of them first (log 81: the spec gives the polynomials alone). -/
def crcBits (w poly : Nat) : List Bool → Nat → Nat
  | [], c => c
  | b :: l, c => if c.testBit (w - 1) != b then crcBits w poly l (c * 2 % 2 ^ w ^^^ poly) else crcBits w poly l (c * 2 % 2 ^ w)
/-- The CRC of bytes, each from its top bit down, from the register value 0 and with nothing inverted. -/
def crcOf (w poly : Nat) (bs : List Byte) : Nat := crcBits w poly (bs.flatMap fun b => (List.range 8).map fun i => b.getLsbD (7 - i)) 0

end Sys2Proof.Machine
end

