-- ==== Sys2Proof/Config.lean ====
section
/-! DEFINITION. What the package fixes (the geometry of 00 and 07) and the values the spec leaves open, as
opaque constants that no proof can see through. -/
namespace Sys2Proof.Config

/-- Dies of a package (R2). -/
def dies : Nat := 4
/-- Clusters of a package: 6 a die (R2, R190). -/
def clusters : Nat := 24
/-- Cores of a package: 8 a cluster (R2, R190). -/
def cores : Nat := 192
/-- Contexts of a package: 4 a core (R207). -/
def contexts : Nat := 768
/-- HBM channels of a package (R2). -/
def channels : Nat := 384
/-- Flecen ports of a package (R171). -/
def ports : Nat := 20

/-- FREE VALUE (log 5). Which of the steps that may come next is taken: the spec orders concurrent agents
only by its own rules. -/
opaque choose : Nat → Nat
/-- FREE VALUE (log 6). The clocks, beyond one, that a step takes: the spec gives no latencies. -/
opaque elapse : Nat → Nat
/-- FREE VALUE (log 12). The digest of the attestation standards (SM3) over a byte string. -/
opaque sm3 : List (BitVec 8) → BitVec 256
/-- FREE VALUE (log 12). A signature of the attestation standards (SM2) of a key over a digest: a new one at each signing. -/
opaque sm2 : Nat → BitVec 256 → BitVec 256 → BitVec 512
/-- FREE VALUE (log 12). The device secret of the package (R469). -/
opaque secret : BitVec 256
/-- FREE VALUE (log 12). The key derivation of R477 from the device secret and a measurement. -/
opaque kdf : BitVec 256 → BitVec 256 → BitVec 256

/-- FREE VALUE (log 13). Whether the record of a page fits in its slot: the record format is internal (R113). -/
opaque fits : Nat → Bool
/-- FREE VALUE (log 13). The bytes of a record in its slot, which are of no defined form (R113). -/
opaque slotByte : Nat → Nat → BitVec 8
/-- FREE VALUE (log 22). What a memory holds after a power state that does not keep it (R482). -/
opaque lost : Nat → Nat → BitVec 8
/-- FREE VALUE (log 16). The fields, numbered as the descriptor's, as which a descriptor acts whose reserved fields are not zero: R7
lets it act as any of its defined encodings. -/
opaque fields : Nat → Nat

end Sys2Proof.Config
end

