-- ==== Sys2Proof/Machine/Event.lean ====
section
/-! DEFINITION. The messages of the fabric (R171, R176), and the occurrences of the part's steps that no word encodes, with
what each acts on: the opcode table gives these rows no fields. -/
namespace Sys2Proof.Machine

/-- A tile's tag without its version (R73): ASID, tensor identifier, six coordinates. -/
structure Tile where
  asid : Nat
  tensor : Nat
  co : List Nat
  deriving DecidableEq, Repr

/-- What a tile message of another package carries (R161): the tile, a version or requirement, the package, context and
fill that asked, and the kind. The spec gives tile messages no layout (log 20). Rows that one packet cannot hold (R176) travel in
`parts` packets, of which this one is number `part`. Type 7: 0 read, 1 opening by copy, 2 opening
with zeros, 3 post, 4 discard, 5 write-back done, 9 read of HBM done, 12 an eviction and 14 a post ask to write. Type 8: 0 data, 2 zeros granted, 6 acknowledgement of
a write-back, 7 post recorded, 8 read of HBM granted, 10 refused, 11 absent, 12 absent for an opening, 13 the write may begin. Type 9: forward, 1 of an opening. In a post, `psn` says that
the version lies in HBM and `fid` names the line; in a write-back, `fid` names the victim buffer. -/
structure TileMsg where
  tile : Tile
  ver : Nat
  ctx : Nat
  fid : Nat
  kind : Nat
  pkg : Nat := 0
  psn : Bool := false
  rows : List (Nat × BitVec 2048) := []
  part : Nat := 0
  parts : Nat := 1
  deriving DecidableEq, Repr

/-- A packet of the Flecen fabric (R176), its fields as numbers; `data` in address order; `tag`: the end-to-end tag that it
carries. -/
structure Packet where
  ty : Nat
  dst : Nat
  src : Nat
  sctx : Nat := 0
  op : Nat := 0
  eseq : Nat := 0
  path : Nat := 0
  grp : Nat := 0
  bmask : List Bool := []
  psn : Bool := false
  addr : Nat := 0
  len : Nat := 0
  data : List (BitVec 8) := []
  tile : Option TileMsg := none
  tag : BitVec 64 := 0
  deriving DecidableEq, Repr

/-- A flit (R171): the header's fields with the CRC that it carries; its payload is part `part` of a packet's bytes. -/
structure Flit where
  crc : BitVec 32 := 0
  lseq : Nat := 0
  lack : Nat := 0
  ackv : Bool := false
  nul : Bool := false
  vc : Nat := 0
  cvc : Nat := 0
  cinc : Nat := 0
  sop : Bool := true
  eop : Bool := true
  rpl : Bool := false
  pkt : Option Packet := none
  part : Nat := 0
  deriving DecidableEq, Repr

/-- What a message to a sequencing switch asks (R185, R188, R189, R464). -/
inductive SmKind where
  | dir (off : Nat)
  | log
  | red (op : SmOp) (fmt : SmFmt) (off : Nat)
  | join
  | leave
  deriving DecidableEq, Repr

/-- A message to a group's sequencing switch: the sender, its command, the payload. -/
structure SmMsg where
  grp : Nat
  pkg : Nat
  ctx : Nat
  cmd : Nat
  kind : SmKind
  data : List (BitVec 8) := []
  deriving DecidableEq, Repr

/-- A numbered entry as it reaches a member (R188): an offset write, a log slot, or empty. -/
inductive SmEntry where
  | empty
  | dir (off : Nat) (data : List (BitVec 8))
  | log (pkg ctx : Nat) (data : List (BitVec 8))
  deriving DecidableEq, Repr

/-- What ECC finds in a sector (R107): an input, since the spec gives no cause of array errors. -/
inductive Ecc where | good | corrected | uncorrectable
  deriving DecidableEq, Repr

/-- Who writes a device register (R473): a task, the management core, the host through BAR0; for a group command that
reaches a sequencing switch, also the management core of another package (R185, R186). -/
inductive Writer where | task | mgmt | host | peer
  deriving DecidableEq, Repr

/-- The kind of an access (R19, R417). -/
inductive Acc4 where | read | write | fetch | atomic
  deriving DecidableEq, Repr

/-- An agent that translates (R486): a core, a cluster's fill unit, a channel's ROU, Caravan on a die. -/
inductive Agent where
  | core (c : Nat)
  | fill (k : Nat)
  | rou (n : Nat)
  | caravan (d : Nat)
  deriving DecidableEq, Repr

/-- A control packet to a channel controller (R100): a dead-map command, or a power command for the channel's stack, which the
spec gives no layout (log 22). -/
inductive CtlPkt where
  | dead (w : Word)
  | power (stack state : Nat)
  deriving DecidableEq, Repr

/-- Whose operation a ROU performs (R100, R114): a context's, with its request's tag, a packet's of another package, an X
command's. -/
inductive RouSrc where
  | ctx (c tag : Nat)
  | pkt (k : Packet)
  | cmd (core id : Nat)
  deriving DecidableEq, Repr

/-- What the boot finds in a slot of the flash (R469 to R471): for each of stages 0 to 2 the digest of what it verifies
and whether the verification passes, the owner's firmware version, the registers that the configuration block sets, its
digest, and the digest of the attestation key's certificate. -/
structure BootImg where
  digest : List (BitVec 256)
  ok : List Bool
  fw : Word
  cfg : List (Nat × Word)
  cert : BitVec 256
  deriving DecidableEq, Repr

/-- The occurrences of the part's steps that no word encodes (95): the row of the table and what it acts on. Which
steps the part causes itself and which come from outside, log 5. -/
inductive Ev where
  /- Execution, translation and paging (07, 10, 01). -/
  | resultLands (c idx : Nat)
  | contextSwitch (c : Nat)
  | instructionFetch (c : Nat)
  | tlbMissWalk (ag : Agent) (asid : Nat) (va : Word) (acc : Acc4)
  | pageInvalidationComplete (i : Nat)
  | mminvcPage (w : Word) (by_ : Writer)
  | mminvcAll (w : Word) (by_ : Writer)
  | accessBitSweep
  | migrationShootDownDone (pte : Nat)
  | migrationDrainDone (pte : Nat)
  | migrationCopyDone (pte : Nat)
  | migrationAbandon (pte : Nat)
  /- The tile cache (03, 06). `f`: a fill; `k`: a message of another package in its place. -/
  | fillAllocationResume (f : Nat)
  | fillDataArrives (f : Nat)
  | fillDataProvisional (f : Nat) (k : Packet)
  | ownershipGrant (f : Nat)
  | oasisReadRequest (f : Nat) (k : Option Packet)
  | fillResend (f : Nat)
  | oasisOpenRequest (f : Nat) (k : Option Packet)
  | oasisPost (core line : Nat) (k : Option Packet)
  | oasisDiscard (t : Tile) (pkg ctx : Nat)
  | oasisHbmReadDone (t : Tile)
  | oasisWriteback (cl v : Nat) (k : Option Packet)
  | victimBufferAck (cl v : Nat)
  | forwardArrives (f : Nat) (k : Option Packet)
  | itineraryPrefetch (c : Nat)
  | opurge (w : Word) (by_ : Writer)
  | opurgeComplete
  /- HBM channels and ROUs (04). -/
  | hbmReadPacket (src tag pa len : Nat) (ecc : List Ecc)
  | hbmWritePacket (src tag pa : Nat) (data : List (Option (BitVec 8)))
  | hbmControlPacket (k : CtlPkt) (by_ : Writer)
  | hbmReply (i : Nat)
  | refreshSlot (ch grp : Nat) (hot : Bool)
  | patrolScrub (sector : Nat) (ecc : Ecc)
  | hdeadcmdKill (w : Word) (by_ : Writer)
  | hdeadcmdRevive (w : Word) (by_ : Writer)
  | hdeadcmdDone
  | interfaceCrcFail (ch : Nat)
  | interfaceRetrainEnd (ch : Nat) (ok : Bool)
  | rouSingleWordOp (src : RouSrc) (op : RouOp) (w : AWidth) (pa : Nat) (x : Word)
  | rouAmocas (src : RouSrc) (w : AWidth) (pa : Nat) (e x : Word)
  | rouLr (src : RouSrc) (w : AWidth) (pa : Nat)
  | rouSc (src : RouSrc) (w : AWidth) (pa : Nat) (x : Word)
  | rouRcas4 (core id : Nat)
  | rouRenq (core id : Nat)
  | rouRdeq (core id : Nat)
  | rchaseHop (core id : Nat)
  | reservationExpiry (ch c : Nat)
  | bsuRefill
  | bsuctlEnable (w : Word) (by_ : Writer)
  | bsuctlDisable (w : Word) (by_ : Writer)
  | portUnitSend (core : Nat)
  /- Consistency, the host and the fabric (05, 06). -/
  | svtWidenAcked (die sector : Nat)
  | mbcastLand (i : Nat)
  | mbstLand (i : Nat)
  | cxlHostReadShared (port ha : Nat)
  | cxlHostReadOwn (port ha : Nat) (data : Option (BitVec 512))
  | cxlHostEvict (port ha : Nat) (data : Option (BitVec 512))
  | cxlHostSnoop (port ha : Nat)
  | cxlCompletion (c : Nat) (shared : List (Nat × Nat × BitVec 8))
  | flitReceive (p : Nat) (f : Flit)
  | ackDeadline (p : Nat)
  | laneFail (p lane : Nat)
  | retrainSuccess (p last : Nat)
  | retrainTimeout (p : Nat)
  | flstatRq (p : Nat) (w : Word) (by_ : Writer)
  | flecenPacketAccept (die : Nat) (k : Packet)
  | heldWritePerform (die i : Nat)
  | e2eAckReceive (die dst eseq : Nat)
  | e2eRejectReceive (die dst eseq : Nat) (refused : Bool)
  | e2eRetransmitTimeout (die dst eseq : Nat)
  | flushingReadAnswer (die i : Nat)
  | flushResponseReceive (c pkg eseq : Nat) (status : Bool)
  | smgcmdCreate (w : Word) (by_ : Writer)
  | smgcmdClose (w : Word) (by_ : Writer)
  | smgcmdDestroy (w : Word) (by_ : Writer)
  | smgcmdAnswer (status : Nat)
  | switchSequence (m : SmMsg)
  | smgEntryArrive (grp n : Nat) (e : SmEntry)
  | smgMemberAck (grp pkg n : Nat)
  /- Caravan, traps and saves (07, 14, 15, 16). -/
  | latchSet (c : Nat)
  | cbarWrite (pa : Nat) (w : Word) (by_ : Writer)
  | sequencedCommandComplete (core id : Nat) (err : Option Nat)
  | taskPlace (core : Nat)
  | rangeChunkRequest (die : Nat)
  | reclamationStop (tid : Nat)
  | qctlEnable (q : Nat) (w : Word) (by_ : Writer)
  | qctlDisable (q : Nat) (w : Word) (by_ : Writer)
  | doorbellProd (q : Nat) (w : Word)
  | doorbellFres (q : Nat) (w : Word)
  | rootTaskTake (q : Nat)
  | rollbackComplete (q : Nat)
  | preemption (tid : Nat)
  | contextSave (c : Nat)
  | saveBoundExpiry (c : Nat)
  | contextRestore (c : Nat)
  | watchdogExpire (c : Nat)
  | checkpointIntervalEnd (q : Nat)
  | dieFailed (d : Nat)
  /- The engines (12, 13, 15). -/
  | matrixKstep (core : Nat)
  | matrixRetire (core id : Nat)
  | matrixSlotBoundary (core : Nat)
  | copyPacket (core id : Nat)
  | xremoteTaken (core id : Nat)
  | xCommandComplete (core id : Nat)
  /- The system (20). -/
  | packageReset (a b : BootImg)
  | atctlGo (w : Word) (by_ : Writer)
  | attestationReportDone
  | mrext (w : Word) (by_ : Writer)
  | fppush (d : Nat) (w : Word) (by_ : Writer)
  | frpop (d : Nat)
  | pwltrWrite (pa : Nat) (w : Word) (by_ : Writer)
  | powerDwellExpiry (u : Nat)
  | powerWake (u : Nat)
  | wakeComplete (u : Nat)
  | thermalThrottle (d temp : Nat)
  | thermalRecover (d temp : Nat)
  | thermalTrip (d temp : Nat)
  | registerWrite (pa : Nat) (w : Word) (by_ : Writer)
  deriving DecidableEq, Repr

/-- The row of the opcode table that an occurrence is of. -/
def Ev.row : Ev → Instr
  | .resultLands _ _ => .resultLands
  | .contextSwitch _ => .contextSwitch
  | .instructionFetch _ => .instructionFetch
  | .tlbMissWalk _ _ _ _ => .tlbMissWalk
  | .pageInvalidationComplete _ => .pageInvalidationComplete
  | .mminvcPage _ _ => .mminvcPage
  | .mminvcAll _ _ => .mminvcAll
  | .accessBitSweep => .accessBitSweep
  | .migrationShootDownDone _ => .migrationShootDownDone
  | .migrationDrainDone _ => .migrationDrainDone
  | .migrationCopyDone _ => .migrationCopyDone
  | .migrationAbandon _ => .migrationAbandon
  | .fillAllocationResume _ => .fillAllocationResume
  | .fillDataArrives _ => .fillDataArrives
  | .fillDataProvisional _ _ => .fillDataProvisional
  | .ownershipGrant _ => .ownershipGrant
  | .oasisReadRequest _ _ => .oasisReadRequest
  | .fillResend _ => .fillResend
  | .oasisOpenRequest _ _ => .oasisOpenRequest
  | .oasisPost _ _ _ => .oasisPost
  | .oasisDiscard _ _ _ => .oasisDiscard
  | .oasisHbmReadDone _ => .oasisHbmReadDone
  | .oasisWriteback _ _ _ => .oasisWriteback
  | .victimBufferAck _ _ => .victimBufferAck
  | .forwardArrives _ _ => .forwardArrives
  | .itineraryPrefetch _ => .itineraryPrefetch
  | .opurge _ _ => .opurge
  | .opurgeComplete => .opurgeComplete
  | .hbmReadPacket _ _ _ _ _ => .hbmReadPacket
  | .hbmWritePacket _ _ _ _ => .hbmWritePacket
  | .hbmControlPacket _ _ => .hbmControlPacket
  | .hbmReply _ => .hbmReply
  | .refreshSlot _ _ _ => .refreshSlot
  | .patrolScrub _ _ => .patrolScrub
  | .hdeadcmdKill _ _ => .hdeadcmdKill
  | .hdeadcmdRevive _ _ => .hdeadcmdRevive
  | .hdeadcmdDone => .hdeadcmdDone
  | .interfaceCrcFail _ => .interfaceCrcFail
  | .interfaceRetrainEnd _ _ => .interfaceRetrainEnd
  | .rouSingleWordOp _ _ _ _ _ => .rouSingleWordOp
  | .rouAmocas _ _ _ _ _ => .rouAmocas
  | .rouLr _ _ _ => .rouLr
  | .rouSc _ _ _ _ => .rouSc
  | .rouRcas4 _ _ => .rouRcas4
  | .rouRenq _ _ => .rouRenq
  | .rouRdeq _ _ => .rouRdeq
  | .rchaseHop _ _ => .rchaseHop
  | .reservationExpiry _ _ => .reservationExpiry
  | .bsuRefill => .bsuRefill
  | .bsuctlEnable _ _ => .bsuctlEnable
  | .bsuctlDisable _ _ => .bsuctlDisable
  | .portUnitSend _ => .portUnitSend
  | .svtWidenAcked _ _ => .svtWidenAcked
  | .mbcastLand _ => .mbcastLand
  | .mbstLand _ => .mbstLand
  | .cxlHostReadShared _ _ => .cxlHostReadShared
  | .cxlHostReadOwn _ _ _ => .cxlHostReadOwn
  | .cxlHostEvict _ _ _ => .cxlHostEvict
  | .cxlHostSnoop _ _ => .cxlHostSnoop
  | .cxlCompletion _ _ => .cxlCompletion
  | .flitReceive _ _ => .flitReceive
  | .ackDeadline _ => .ackDeadline
  | .laneFail _ _ => .laneFail
  | .retrainSuccess _ _ => .retrainSuccess
  | .retrainTimeout _ => .retrainTimeout
  | .flstatRq _ _ _ => .flstatRq
  | .flecenPacketAccept _ _ => .flecenPacketAccept
  | .heldWritePerform _ _ => .heldWritePerform
  | .e2eAckReceive _ _ _ => .e2eAckReceive
  | .e2eRejectReceive _ _ _ _ => .e2eRejectReceive
  | .e2eRetransmitTimeout _ _ _ => .e2eRetransmitTimeout
  | .flushingReadAnswer _ _ => .flushingReadAnswer
  | .flushResponseReceive _ _ _ _ => .flushResponseReceive
  | .smgcmdCreate _ _ => .smgcmdCreate
  | .smgcmdClose _ _ => .smgcmdClose
  | .smgcmdDestroy _ _ => .smgcmdDestroy
  | .smgcmdAnswer _ => .smgcmdAnswer
  | .switchSequence _ => .switchSequence
  | .smgEntryArrive _ _ _ => .smgEntryArrive
  | .smgMemberAck _ _ _ => .smgMemberAck
  | .latchSet _ => .latchSet
  | .cbarWrite _ _ _ => .cbarWrite
  | .sequencedCommandComplete _ _ _ => .sequencedCommandComplete
  | .taskPlace _ => .taskPlace
  | .rangeChunkRequest _ => .rangeChunkRequest
  | .reclamationStop _ => .reclamationStop
  | .qctlEnable _ _ _ => .qctlEnable
  | .qctlDisable _ _ _ => .qctlDisable
  | .doorbellProd _ _ => .doorbellProd
  | .doorbellFres _ _ => .doorbellFres
  | .rootTaskTake _ => .rootTaskTake
  | .rollbackComplete _ => .rollbackComplete
  | .preemption _ => .preemption
  | .contextSave _ => .contextSave
  | .saveBoundExpiry _ => .saveBoundExpiry
  | .contextRestore _ => .contextRestore
  | .watchdogExpire _ => .watchdogExpire
  | .checkpointIntervalEnd _ => .checkpointIntervalEnd
  | .dieFailed _ => .dieFailed
  | .matrixKstep _ => .matrixKstep
  | .matrixRetire _ _ => .matrixRetire
  | .matrixSlotBoundary _ => .matrixSlotBoundary
  | .copyPacket _ _ => .copyPacket
  | .xremoteTaken _ _ => .xremoteTaken
  | .xCommandComplete _ _ => .xCommandComplete
  | .packageReset _ _ => .packageReset
  | .atctlGo _ _ => .atctlGo
  | .attestationReportDone => .attestationReportDone
  | .mrext _ _ => .mrext
  | .fppush _ _ _ => .fppush
  | .frpop _ => .frpop
  | .pwltrWrite _ _ _ => .pwltrWrite
  | .powerDwellExpiry _ => .powerDwellExpiry
  | .powerWake _ => .powerWake
  | .wakeComplete _ => .wakeComplete
  | .thermalThrottle _ _ => .thermalThrottle
  | .thermalRecover _ _ => .thermalRecover
  | .thermalTrip _ _ => .thermalTrip
  | .registerWrite _ _ _ => .registerWrite

end Sys2Proof.Machine
end

