-- ==== Sys2Proof/Machine/Map.lean ====
section
/-! DEFINITION. Sorted maps from numbers to data, and memory: a list of (address, byte) pairs with strictly rising
addresses and no entry equal to what an unlisted address reads as (0: R103 for HBM, log 3 for the rest). -/
namespace Sys2Proof.Machine

/-- A map with numeric keys, sorted by key. -/
abbrev SMap (α : Type) := List (Nat × α)

/-- The entry of a key. -/
def SMap.get? {α : Type} : SMap α → Nat → Option α
  | [], _ => none
  | (k, v) :: m, n => if k = n then some v else if n < k then none else SMap.get? m n

/-- The entry of a key, or a default. -/
def SMap.getD {α : Type} (m : SMap α) (n : Nat) (d : α) : α := (SMap.get? m n).getD d

/-- The map with a key's entry set. -/
def SMap.set {α : Type} : SMap α → Nat → α → SMap α
  | [], n, v => [(n, v)]
  | (k, w) :: m, n, v =>
    if k = n then (n, v) :: m else if n < k then (n, v) :: (k, w) :: m else (k, w) :: SMap.set m n v

/-- The map without a key. -/
def SMap.erase {α : Type} : SMap α → Nat → SMap α
  | [], _ => []
  | (k, w) :: m, n => if k = n then m else if n < k then (k, w) :: m else (k, w) :: SMap.erase m n

/-- The map with a key's entry changed. -/
def SMap.modify {α : Type} (m : SMap α) (n : Nat) (d : α) (f : α → α) : SMap α := SMap.set m n (f (SMap.getD m n d))

def SMap.has {α : Type} (m : SMap α) (n : Nat) : Bool := (SMap.get? m n).isSome

/-- Memory (R6): one byte an entry. -/
abbrev Memory := List Host.Cell

/-- The byte at an address; an unlisted byte reads 0. -/
def Memory.read (m : Memory) (a : Nat) : Byte := SMap.getD m a 0

/-- Memory with the byte at `a` set; a zero byte is not listed. -/
def Memory.write (m : Memory) (a : Nat) (b : Byte) : Memory := if b = 0 then SMap.erase m a else SMap.set m a b

/-- The canonical form: addresses above `lo` rise strictly, and no listed byte is 0. -/
def Memory.wfFrom : Option Nat → Memory → Bool
  | _, [] => true
  | lo, (a, b) :: m => (match lo with | none => true | some l => l < a) && b != 0 && Memory.wfFrom (some a) m

/-- The canonical form of memory. -/
def Memory.wf (m : Memory) : Bool := Memory.wfFrom none m

/-- `n` bytes from address `a` up. -/
def Memory.bytes (m : Memory) (a n : Nat) : List Byte := (List.range n).map fun i => Memory.read m (a + i)

/-- Memory with bytes stored from `a` up; `none` leaves a byte as it is. -/
def Memory.store (m : Memory) (a : Nat) : List (Option Byte) → Memory
  | [] => m
  | none :: bs => Memory.store m (a + 1) bs
  | some b :: bs => Memory.store (Memory.write m a b) (a + 1) bs

end Sys2Proof.Machine
end

