-- ==== Sys2Proof/Machine/State.lean ====
section
/-! DEFINITION. The machine's state as plain data: every piece of state the spec gives the package (INVENTORY.md, State),
grouped by unit, and its value at reset (log 1, log 2). -/
namespace Sys2Proof.Machine

/-! ## A context (07 R207 to R218, 16) -/

/-- Where a result in flight lands. -/
inductive Dst where
  | none
  | s (n : SReg)
  | p (n : BitVec 3)
  | v (u : VSlot) (n : BitVec 5)
  | k (u : VSlot) (n : BitVec 3)
  | g (n : GReg)
  deriving DecidableEq, Repr

/-- A piece of a load in flight (R131, R213): its place among the load's bytes, its VA, where it translated to; `due`: the
clock at which it samples a mailbox (R154); `ask`: the packet that asks another package, `eseq`: its number once it is sent (R177);
`got`: its bytes once it has been performed, and whether they are poisoned. -/
structure LoadPart where
  off : Nat
  va : Word
  pkg : Nat
  pa : Nat
  cp : Nat
  len : Nat
  due : Nat := 0
  ask : Option Packet := none
  eseq : Option Nat := none
  got : Option (List Byte × Bool) := none
  deriving DecidableEq, Repr

/-- An exposed result in flight (R213): its register and value, the flags it raises when it lands (R52), the position
it issued at and its bound; `poison` is the VA of a load that delivers no value, and `sub` why: poison, or a refusal (R38, R108);
`akind` its kind of access (R417). `parts`: the pieces of a load, whose value is theirs, extended as `ext` says (R279); `acq`: the
scope of an acquire that is not yet performed (R134). -/
structure Flight where
  dst : Dst
  val : Vec := 0
  flags : BitVec 7 := 0
  pos : Nat
  bound : Nat
  poison : Option Word := none
  sub : Nat := 24
  akind : Nat := 1
  parts : List LoadPart := []
  ext : Option Width := none
  acq : Option Nat := none
  deriving DecidableEq, Repr

/-- A piece of a store that is not yet performed (R131): the queue whose undo log it goes to; `through`: the scope to whose point of
coherence a releasing store takes it (R127, R133). -/
structure StorePart where
  pa : Nat
  cp : Nat
  bytes : List (Option Byte)
  queue : Nat
  through : Nat := 0
  deriving DecidableEq, Repr

/-- A binding (R72). -/
structure Binding where
  desc : BitVec 512
  va : Word
  ver : BitVec 16
  deriving DecidableEq, Repr

/-- The format tag of an accumulator (R318). -/
inductive AccTag where | zero | f32 | f64 | i32
  deriving DecidableEq, Repr

/-- An accumulator (R209, R318): 128 rows of 128 32-bit elements; a row that is not listed is zero. -/
structure Acc where
  tag : AccTag := .zero
  rows : SMap (BitVec 4096) := []
  busy : Bool := false
  deriving DecidableEq, Repr

/-- A ring declaration (R217). -/
structure Ring where
  file : RingFile
  base : Nat
  len : Nat
  deriving DecidableEq, Repr

/-- The loop state (R215 to R218). `active`: a body is issuing; `i`: the flattened index; `buffer`: the loop buffer;
`skip`: the address after a body of which no iteration runs. -/
structure Loop where
  active : Bool := false
  levels : Nat := 1
  lb : Word := 0
  le : Word := 0
  lc : Vector (BitVec 32) 4 := Vector.replicate 4 0
  i : Nat := 0
  rings : List Ring := []
  decl : List Ring := []
  buffer : List (Nat × List (BitVec 32)) := []
  skip : Option Word := none
  deriving DecidableEq, Repr

/-- What takes effect after the bundle that makes it: special registers (R278), bindings (R342), a loop (R274). -/
inductive Late where
  | spec (r : SpecReg) (v : Word)
  | loop (l : Loop)
  | bind (n : BitVec 5) (b : Binding)
  deriving DecidableEq, Repr

/-- The task descriptor that Caravan keeps for a task (R191 to R194), and where the task stands (R203, R204, R410). -/
structure Task where
  queue : Nat := 0
  asid : Nat := 0
  entry : Word := 0
  arg : Word := 0
  save : Word := 0
  stack : Word := 0
  demand : Nat := 0
  mask : BitVec 192 := 0
  prio : Nat := 0
  mig : Bool := false
  rev : Bool := true
  rkind : Bool := false
  tclass : Nat := 0
  mclass : Nat := 0
  own : BitVec 32 := 0
  parent : BitVec 32 := 0
  idx : Nat := 0
  ranged : Bool := false
  pinned : Bool := false
  root : Option Nat := none
  handler : Option (Nat × Nat) := none
  homeDie : Nat := 0
  homeCl : Nat := 0
  seq : Nat := 0
  tid : Nat := 0
  barCl : Option Nat := none
  deriving DecidableEq, Repr

/-- A trap whose handler's result the context awaits (R421): its subcode. -/
structure TrapWait where
  code : Nat
  deriving DecidableEq, Repr

/-- A remote access of a context, and the reply once it has arrived (R177, R179). -/
structure Remote where
  pkg : Nat
  addr : Nat
  len : Nat
  kind : Nat
  arg : Nat := 0
  eseq : Nat := 0
  reply : Option (List Byte × Bool × Bool) := none
  deriving DecidableEq, Repr

/-- The footprint of an M or X command in the tracker (R151): the tiles, as tensor and coordinates (none: every tile of
the tensor, R152), and the sectors it reads and writes, as first and last; `allR`, `allW`: all of memory (R152). -/
structure Track where
  id : Nat
  tilesR : List (Nat × Option (List Nat)) := []
  tilesW : List (Nat × Option (List Nat)) := []
  readB : List (Nat × Nat) := []
  writeB : List (Nat × Nat) := []
  allR : Bool := false
  allW : Bool := false
  deriving DecidableEq, Repr

/-- A context (R207, R209, R210): the position that issues next (`pc`, with `fold` folded empty positions before the
bundle there; `hdr`: the bundle that carries them), positions issued (`pos`), delay positions to issue and the address after them (R267); `half`: the
syllables of the bundle at `pc` before its Y syllable have been performed; `held`: those have that do not wait for the acquire of
the bundle, which is not performed yet (R134); `out`: the interval's end that the bundle
needs has been requested (R392); `fetch`, `ahead`: 64-byte blocks read
(R272, R267, R275), by address / 64; `phys`: its physical accumulators; `pins`: lines pinned by `tacq`, with counts;
`track`: the footprint tracker; `dests`: the destination list with its marks (R143, R183); `inval`, `farOut`: page
invalidations and far writes under way; `cmdno`: engine commands issued (R418); `bar`: the
barrier and generation it waits at (R384); `wfi`: the event counters when a `wfi` began to wait (R290);
`placed`: the clock at which its task was bound to it (R411); `stq`: pieces of its uncached stores on their way (R131); `recent`:
registers written, the positions of the writes and those at which their bounds expire (R214); `yielded`: other ready contexts of its
priority issue first (R379); `ending`: the result of its `tend`, once that has issued (R221); `devPos`: the position of its last device-register store; `cwb`: the narrowest scope
of its `cwb`s whose far writes are not all acknowledged (R284). -/
structure Ctx where
  task : Option Task := none
  pc : Word := 0
  hdr : Word := 0
  pos : Nat := 0
  fold : Nat := 0
  dly : Nat := 0
  ptaken : Bool := false
  pend : Word := 0
  s : Vector Word 64 := Vector.replicate 64 0
  p : BitVec 8 := 0
  v : Vector Vec 32 := Vector.replicate 32 0
  w : Vector Vec 32 := Vector.replicate 32 0
  k : Vector Mask 8 := Vector.replicate 8 0
  j : Vector Mask 8 := Vector.replicate 8 0
  g : Vector Vec 16 := Vector.replicate 16 0
  acc : Vector Acc 8 := Vector.replicate 8 {}
  phys : List Nat := []
  b : Vector (Option Binding) 32 := Vector.replicate 32 none
  ev : Vector (BitVec 32) 8 := Vector.replicate 8 0
  loop : Loop := {}
  fctl : Word := 0
  fflags : Word := 0
  tpc : Word := 0
  tva : Word := 0
  tcause : Word := 0
  tstat : Word := 0
  tcmd : Word := 0
  wdog : Word := 0
  xstat : Word := 0
  latch : Bool := false
  flights : List Flight := []
  late : List Late := []
  trap : Option TrapWait := none
  block : Bool := false
  half : Bool := false
  held : Bool := false
  out : Bool := false
  fetch : List (Nat × List (BitVec 32)) := []
  ahead : List (Nat × List (BitVec 32)) := []
  track : List Track := []
  dests : List (Nat × Bool) := []
  pins : List (Nat × Nat) := []
  itin : Option (Binding × Nat × Nat) := none
  bar : Option (Nat × Nat) := none
  wfi : Option (List (BitVec 32)) := none
  cmdno : BitVec 16 := 0
  inval : Nat := 0
  farOut : Nat := 0
  remote : List Remote := []
  readyAt : Option Nat := none
  lastIssue : Option Nat := none
  placed : Nat := 0
  stq : List StorePart := []
  recent : List (Dst × Nat × Nat) := []
  yielded : Bool := false
  ending : Option Word := none
  devPos : Nat := 0
  cwb : Nat := 0
  deriving DecidableEq, Repr

/-! ## Memory and the memory side (04, 05, 06) -/

/-- A reservation (R120). -/
structure Resv where
  ctx : Nat
  sector : Nat
  clk : Nat
  deriving DecidableEq, Repr

/-- A granule that the host holds (R163); `own`: state A; `data`: what the host has modified. The list of a channel
runs from the least to the most recently used. -/
structure Snoop where
  gran : Nat
  own : Bool
  data : Option (BitVec 512) := none
  deriving DecidableEq, Repr

/-- The refresh record of a group of 64 rows (R102): the clock of its last activate, the rows activated since its last refresh
slot, the clock of that slot and the rows that it refreshed. -/
structure RowGroup where
  time : Nat
  mask : BitVec 64
  slot : Nat := 0
  fresh : BitVec 64 := 0
  deriving DecidableEq, Repr

/-- A channel controller (R102 to R111, R120, R163). -/
structure Chan where
  herpl : Nat := 0
  herex : Nat := 0
  hecor : Nat := 0
  heunc : Nat := 0
  hedead : Nat := 0
  hevovf : Nat := 0
  poisonV : Bool := false
  poisonSec : Nat := 0
  failed : Bool := false
  evtab : Word := 12
  replays : Nat := 0
  retraining : Bool := false
  retrains : Nat := 0
  resv : List Resv := []
  snoop : List Snoop := []
  rows : SMap RowGroup := []
  deriving DecidableEq, Repr

/-- The command that `hdeadcmd` runs (R104): the next block, the blocks left, kill or revive. -/
structure DeadCmd where
  next : Nat
  left : Nat
  revive : Bool
  deriving DecidableEq, Repr

/-- A reply on its way from a channel (R101): the source's number and tag, the data, a poison bit for each sector, the channel. -/
structure HbmReply where
  src : Nat
  tag : Nat
  data : List Byte
  psn : List Bool
  ch : Nat
  deriving DecidableEq, Repr

/-- HBM (R12, R100 to R111). `live` and `poison` hold block and sector numbers. -/
structure Hbm where
  mem : Memory := []
  live : SMap Unit := []
  poison : SMap Unit := []
  ch : SMap Chan := []
  dead : Option DeadCmd := none
  replies : List HbmReply := []
  deriving DecidableEq, Repr

/-- A plain line of a cache (R139, R141): 128 bytes, its dirty bytes, its poisoned sectors, the counters it recorded,
the cores that wrote or read it dirty; `noClc`: filled through a page with cp = 1 (R16); `queue`: the queue of its last
writer, whose undo log its write-back goes to (R440); `ctx`: the contexts that have written it since its last write-back, whose
releases its far write holds up (R168). -/
structure Line where
  data : BitVec 1024
  dirty : BitVec 128 := 0
  psn : BitVec 4 := 0
  gens : List (BitVec 4)
  mask : BitVec 8 := 0
  noClc : Bool := false
  queue : Option Nat := none
  ctx : List Nat := []
  deriving DecidableEq, Repr

/-- The plain lines of an L1D or a CLC, by PA / 128, and its generation counters by scope (R139). -/
structure Cache where
  gen : Vector (BitVec 4) 8 := Vector.replicate 8 0
  lines : SMap Line := []
  deriving DecidableEq, Repr

/-- An entry of a translation cache (R20, R21): the page's first VA, its level, its PTE. -/
structure TlbE where
  asid : Nat
  page : Nat
  lvl : Nat
  e : Word
  deriving DecidableEq, Repr

/-- An entry of a walker cache (R21): the table that the entry at `lvl` for `idx` (VA / page size) names. -/
structure WalkE where
  asid : Nat
  lvl : Nat
  idx : Nat
  next : Nat
  deriving DecidableEq, Repr

/-- A page invalidation in progress (R22): a VA, or the whole ASID; `by`: the context that waits for it, or none for
`mminvc` (R23) and migrations. -/
structure Inval where
  asid : Nat
  va : Option Nat
  by_ : Option Nat := none
  mminvc : Bool := false
  deriving DecidableEq, Repr

/-- An access that waits at a walker for a page in kind 7 (R18, R29): the translating agent, the page, its entry. -/
structure Parked where
  ag : Nat
  asid : Nat
  page : Nat
  pte : Nat
  deriving DecidableEq, Repr

/-- A migration in progress (R35); `starved`: it has found every frame pool empty (R26). -/
structure Mig where
  die : Nat
  asid : Nat
  va : Nat
  pte : Nat
  old : Word
  compress : Bool
  target : Nat
  phase : Nat
  since : Nat := 0
  starved : Bool := false
  deriving DecidableEq, Repr

/-- A first touch that found every pool empty (R26): the entry it claimed and the access. -/
structure PoolWait where
  die : Nat
  asid : Nat
  pte : Nat
  old : Word
  write : Bool
  deriving DecidableEq, Repr

/-- A record of the compressed store (R112, R113), by slot address: the page's bytes, its live blocks and poisoned
sectors, and the slot's bytes when it was written. -/
structure Record where
  mem : Memory
  live : List Nat
  poison : List Nat
  slot : Memory
  deriving DecidableEq, Repr

/-- Translation (R20 to R37). Translation caches are keyed by agent: core c, 1000 + cluster, 2000 + channel. `scrubNext`: the
next sector of the scrub pass under way (R107). -/
structure Mmu where
  tlb : SMap (List TlbE) := []
  walk : SMap (List WalkE) := []
  inval : List Inval := []
  migs : List Mig := []
  parked : List Parked := []
  poolWait : List PoolWait := []
  records : SMap Record := []
  sweepAt : Nat := 2 ^ 30
  scrubAt : Nat := 2 ^ 40
  scrubNext : Nat := 0
  deriving DecidableEq, Repr

/-- A metered request held at a core's port (R122, R124): its owner (a context, or a command or fill above 10000). -/
structure PortReq where
  owner : Nat
  key : Nat
  cls : Nat
  left : Nat
  deriving DecidableEq, Repr

/-- The bandwidth share unit (R123); `turn`: the lowest port that has not been served in this clock (R124). -/
structure Bsu where
  bucket : Vector Nat 16 := Vector.replicate 16 0
  refillAt : Option Nat := none
  queue : SMap (List PortReq) := []
  grants : List (Nat × Nat) := []
  turn : Nat := 0
  deriving DecidableEq, Repr

/-- A sync variable (R145), and a widening whose retroactive releases are not all acknowledged (R147); `waiters`: accesses
that wait their turn, by package and context, in arrival order (R146). -/
structure SvtE where
  sector : Nat
  scope : Nat := 0
  apkg : Nat := 0
  actx : Nat := 0
  anch : Bool := false
  asid : Nat := 0
  widen : Nat := 0
  widening : Option (Nat × Nat × Nat) := none
  waiters : List (Nat × Nat) := []
  deriving DecidableEq, Repr

/-- A mailbox write in flight (R154, R355): the clock at which it lands, the source core and context, the bytes, the position of
its bundle; `plain`: a store of the S or T slot. -/
structure MboxW where
  land : Nat
  core : Nat
  ctx : Nat
  pa : Nat
  data : List (Option Byte)
  cast : Bool
  plain : Bool := false
  pos : Nat := 0
  deriving DecidableEq, Repr

/-- A range that a port's HDM decoder maps to this package's HBM (R163): host base, device base, size. -/
structure Hdm where
  host : Nat
  pa : Nat
  size : Nat
  deriving DecidableEq, Repr

/-! ## The Flecen fabric (R171 to R189) -/

/-- A Flecen port (R171 to R175). `retry`: flits sent and not acknowledged; `txq`: flits waiting for credits. -/
structure Port where
  state : Nat := 0
  width : Nat := 0
  lanefail : BitVec 16 := 0
  nretr : Nat := 0
  crc : Nat := 0
  rpl : Nat := 0
  retr : Nat := 0
  lseq : Nat := 0
  rseq : Nat := 0
  acked : Nat := 0
  ackDue : Nat := 0
  credit : Vector Nat 4 := #v[512, 512, 256, 32]
  give : Vector Nat 4 := Vector.replicate 4 0
  retry : List Flit := []
  txq : List Flit := []
  wantRpl : Bool := false
  replays : Nat := 0
  unacked : Nat := 0
  since : Nat := 0
  deriving DecidableEq, Repr

/-- A packet in the end-to-end buffer (R179). -/
structure E2E where
  pkt : Packet
  tries : Nat := 0
  port : Nat
  time : Nat
  deriving DecidableEq, Repr

/-- What a destination gateway keeps for a source package (R181): the point, the marks above it, the first answers
of atomics and refusals; `rejects`: tag failures by number; `bad`: contexts of which a store was refused since their last
flushing read. -/
structure Seen where
  point : Nat := 0
  marks : List Nat := []
  kept : SMap (List Byte) := []
  refused : List Nat := []
  rejects : SMap Nat := []
  bad : List Nat := []
  deriving DecidableEq, Repr

/-- A die's gateway (R184). `wait`: numbered packets that wait for room in the end-to-end buffer (R179). `tiles`: the domain tile
table, the tile, its CLC and its version (R161). -/
structure Gw where
  buf : List E2E := []
  wait : List Packet := []
  held : List Packet := []
  flushes : List Packet := []
  e2e : Nat := 0
  refuse : Nat := 0
  drop : Nat := 0
  dtt : Nat := 0
  tiles : List (Tile × Nat × Nat) := []
  deriving DecidableEq, Repr

/-- The element operation, format, offset and length of a reduction round (R189), its contributions in sequence
order, and the packages still expected. -/
structure Round where
  op : SmOp
  fmt : SmFmt
  off : Nat
  data : List SmMsg
  want : List Nat
  deriving DecidableEq, Repr

/-- A sequenced multicast group at its switch (R185 to R189). Members: package, first entry. `wait`: the entries that are not
acknowledged, the members that have not, and the commands that complete with them; `owed`: entries sent to a member and not
acknowledged, which hold its credits, `queue`: entries that wait for a member's credit (R188). -/
structure Group where
  swid : Nat
  k : Nat
  closed : Bool := false
  next : Nat := 1
  members : List (Nat × Nat) := []
  round : Option Round := none
  held : List SmMsg := []
  wait : List (Nat × List Nat × List SmMsg) := []
  owed : SMap Nat := []
  queue : List (Nat × Nat × SmEntry) := []
  deriving DecidableEq, Repr

/-- This package's membership of a group (R187, R188); `leave`: the number at which it ends. -/
structure Member where
  pa : Nat
  k : Nat
  nextN : Nat
  ahead : SMap SmEntry := []
  leave : Option Nat := none
  deriving DecidableEq, Repr

/-- Links to other packages (06). `asks`: reads of engines and fills from another package, by owner; `tileIn`: parts of tile
messages that have arrived, by source package (log 20). -/
structure Fabric where
  port : SMap Port := []
  gw : SMap Gw := []
  eseq : SMap Nat := []
  seen : SMap Seen := []
  marked : List (Nat × Nat) := []
  group : SMap Group := []
  member : SMap Member := []
  asks : List (Nat × Remote) := []
  tileIn : List (Nat × TileMsg) := []
  cmd : Option Word := none
  deriving DecidableEq, Repr

/-! ## Tile caches, Oasis and the engines (03, 12, 13) -/

/-- States of a tile line (R80). -/
inductive TSt where | filling | provisional | valid | open_ | openPoisoned | posting | poisoned
  deriving DecidableEq, Repr

/-- A tile line of a CTC or a CLC (R75, R76, R80). A row that is not listed is zero; rows from TR up hold parameter words
(R345); a Mirage line holds its header in row 0 and its coefficients after it. `cls`: 0 default, 1 hinted-reuse,
2 last-use; `goLast`: it moves to last-use when its uses end; `stream`: the next post is stream-through (R349); `wb`:
it was posted with `.wb`; `done`: its write-back is done, `sent`: its post has been sent to another package; `given`: a handler has
given its write-back up (R487); `asked`: another package's home has been asked whether its write-back may begin, 2 once it has said so
(R94); `dirty`: a posted version not in memory; `ctx`, `tid`, `queue`: its writer; `home`: the package of its home. A cache's list
runs from the least to the most recently used. -/
structure TLine where
  id : Nat
  tile : Tile
  ver : Nat := 0
  st : TSt := .filling
  b : Binding
  asid : Nat
  rows : SMap Vec := []
  segs : Nat := 0
  pins : Nat := 0
  cls : Nat := 0
  used : Bool := false
  goLast : Bool := false
  stream : Bool := false
  wb : Bool := false
  done : Bool := false
  dirty : Bool := false
  ctx : Nat := 0
  tid : Nat := 0
  queue : Nat := 0
  home : Nat := 0
  sent : Bool := false
  given : Bool := false
  asked : Nat := 0
  deriving DecidableEq, Repr

/-- Where a fill stands (R75, R77, R94). -/
inductive FillSt where
  | alloc
  | joined (f : Nat)
  | request
  | home
  | refused (clk : Nat)
  | hbm (v : Nat)
  | fwd (cl v : Nat)
  | clc (v : Nat)
  | data (v : Nat) (rows : SMap Vec) (psn : Bool)
  | remote
  | prov (v : Nat) (rows : SMap Vec) (psn : Bool)
  deriving DecidableEq, Repr

/-- A fill of a core's CTC, or an opening (R77, R82): the context that caused it and its task. `open_`: the zero form or
the copy form of an opening. `pre`: an itinerary's prefetch. `line`, `clc`: its lines in its CTC and its CLC (R75, R80; 0: none). -/
structure Fill where
  id : Nat
  core : Nat
  ctx : Nat
  tid : Nat
  queue : Nat
  tile : Tile
  b : Binding
  asid : Nat
  u : Nat
  hint : Nat
  open_ : Option Bool := none
  pre : Bool := false
  line : Nat := 0
  clc : Nat := 0
  pkg : Nat := 0
  st : FillSt := .alloc
  deriving DecidableEq, Repr

/-- Where the latest version of a tile lives (R92). -/
inductive OLoc where
  | hbm
  | clc (k : Nat)
  | pkg (p : Nat)
  deriving DecidableEq, Repr

/-- A request waiting at its home (R94): a fill of this package, or another package's message. `own`: an opening that has its
ownership and is answered anew, the forwarded copy being gone (R95). -/
structure OReq where
  fid : Nat
  pkt : Option Packet := none
  u : Nat
  open_ : Option Bool
  pkg : Nat
  ctx : Nat
  own : Bool := false
  deriving DecidableEq, Repr

/-- An Oasis entry (R92); the entries of a set run from the least to the most recently used. `hold`: write-backs of other packages
that the home has let begin, by package and number; `wbq`: those that wait for readers = 0 (R94, log 90). -/
structure OEntry where
  tile : Tile
  latest : Nat
  loc : OLoc := .hbm
  owner : Option (Nat × Nat) := none
  readers : Nat := 0
  replay : List OReq := []
  hold : List (Nat × Nat) := []
  wbq : List TileMsg := []
  deriving DecidableEq, Repr

/-- A channel's directory (R92, R96): its sets, and the overflow queue. -/
structure Oasis where
  sets : SMap (List OEntry) := []
  ovf : List (Tile × OReq) := []
  deriving DecidableEq, Repr

/-- A message of a home to a CLC of this package (R157): the forward of a fill or of another package's packet, or the acknowledgement
of a victim buffer, `fid` naming the fill or the buffer. -/
structure HomeMsg where
  ch : Nat
  cl : Nat
  fid : Nat := 0
  pkt : Option Packet := none
  ack : Bool := false
  deriving DecidableEq, Repr

/-- A victim buffer of a CLC (R159); `acked`: the home has performed the write-back; `sent`: where its write-back to another package
stands (R161): 2 asked, 3 allowed, 0 written, 1 told. -/
structure Victim where
  id : Nat
  line : TLine
  acked : Bool := false
  sent : Option (Nat × Nat) := none
  deriving DecidableEq, Repr

/-- The tile cache. Lists of lines by core and by cluster. `purge`: the purge in progress (R98); `homeQ`: the messages of homes to
CLCs, in the order sent (R157). -/
structure Tiles where
  ctc : SMap (List TLine) := []
  clc : SMap (List TLine) := []
  fills : List Fill := []
  oasis : SMap Oasis := []
  victims : SMap (List Victim) := []
  purge : Option (Nat × Nat) := none
  homeQ : List HomeMsg := []
  next : Nat := 1
  deriving DecidableEq, Repr

/-- A command of the matrix engine (R320, R337): its syllable, the values it latched (coordinates or registers), its
bindings, the accumulators it keeps busy, the commands it waits for (R151), its nest descriptor, the position, flags so
far, the lines it pins, what `mcvt` has read of its sources, whether it waits at a boundary, how long it has waited (R415), and the address of its
bundle. -/
structure MCmd where
  id : Nat
  ctx : Nat
  tid : Nat
  queue : Nat
  asid : Nat
  op : Instr
  vals : List Word := []
  binds : List (Option Binding) := []
  rm : RMode := .rne
  accs : List Nat := []
  deps : List Nat := []
  nest : Option (BitVec 512) := none
  cmdno : Nat := 0
  acc : Nat := 0
  iter : Nat := 0
  kstep : Nat := 0
  row : Nat := 0
  started : Bool := false
  flags : BitVec 7 := 0
  pins : List Nat := []
  src : Acc := {}
  src2 : Acc := {}
  parked : Bool := false
  w : Nat := 0
  done : Bool := false
  pc : Word := 0
  deriving DecidableEq, Repr

/-- A command of the copy engine or of the ROUs (R356 to R369); `kind`: the code of R365. `a`, `x`, `r`: the values of its
registers; `blk`: the descriptor or operand block once it is read; `row`, `off`: the position of a copy; `hop`, `ptr`:
the position of a chase; `sent`, `got`: the operation has been sent, its result. -/
structure XCmd where
  id : Nat
  ctx : Nat
  tid : Nat
  queue : Nat
  asid : Nat
  kind : Nat
  op : RouOp := .add
  w : AWidth := .w64
  a : Word := 0
  x : Word := 0
  r : Word := 0
  rnone : Bool := false
  ev : Nat
  cmdno : Nat := 0
  deps : List Nat := []
  blk : Option (List Byte) := none
  row : Nat := 0
  off : Nat := 0
  done : Nat := 0
  pcnt : Nat := 0
  hop : Nat := 0
  ptr : Nat := 0
  sent : Option Nat := none
  got : Option (List Byte) := none
  flags : BitVec 7 := 0
  cancel : Bool := false
  deriving DecidableEq, Repr

/-- A sequenced command (R388 to R391). -/
structure SCmd where
  id : Nat
  ctx : Nat
  tid : Nat
  queue : Nat
  ev : Nat
  cmdno : Nat
  msg : SmMsg
  va : Word := 0
  fault : Option Nat := none
  deriving DecidableEq, Repr

/-- A core's engines (R320, R340, R356, R414, R415): the matrix queue with the command that has the array, the copy and
ROU commands, the sequenced commands, and the slot of the matrix slot table (64: none yet) with its owning class. -/
structure Engine where
  m : List MCmd := []
  run : Option Nat := none
  slot : Nat := 64
  own : Option Nat := none
  x : List XCmd := []
  sq : List SCmd := []
  deriving DecidableEq, Repr

/-! ## Caravan (07, 15, 16) -/

/-- States of a future entry (R202). -/
inductive FState where | free | running | ready | reclaiming | orphan
  deriving DecidableEq, Repr

/-- A future entry (R199 to R203). `creator`: the creating task's number, 0 for root and
handler tasks; `left`:
tasks behind it that have not stopped; `queue`: the queue of its task. -/
structure Future where
  gen : BitVec 14 := 0
  st : FState := .free
  count : Nat := 0
  pcount : Nat := 0
  creator : Nat := 0
  held : Bool := false
  result : Word := 0
  left : Nat := 0
  queue : Nat := 0
  deriving DecidableEq, Repr

/-- A range counter (R197): the indices of a `spawnr` not yet handed out. -/
structure RangeC where
  task : Task
  fut : Nat
  next : Nat
  n : Nat
  deriving DecidableEq, Repr

/-- Where a ready task waits (R406). -/
inductive RList where
  | cl (k : Nat)
  | die (d : Nat)
  deriving DecidableEq, Repr

/-- What a saved task keeps beside its image (R427 to R433, log 15): the trap it awaits, where it stood in a bundle, a loop
or a delay sequence, the X commands owed, its destination list, and what the records of its M commands, open lines and pins
do not hold. `regs`: the registers of a task that a checkpoint holds (R439), which it is restored from. -/
structure Saved where
  trap : Option TrapWait := none
  bar : Option (Nat × Nat) := none
  cmdno : BitVec 16 := 0
  pos : Nat := 0
  fold : Nat := 0
  owed : Nat := 0
  half : Bool := false
  held : Bool := false
  wfi : Option (List (BitVec 32)) := none
  remote : List Remote := []
  itin : Option (Binding × Nat × Nat) := none
  hdr : Word := 0
  dly : Nat := 0
  ptaken : Bool := false
  pend : Word := 0
  levels : Nat := 1
  late : List Late := []
  m : List MCmd := []
  lines : List TLine := []
  pinned : List (TLine × Nat) := []
  dests : List (Nat × Bool) := []
  track : List Track := []
  regs : Option Ctx := none
  flights : List Flight := []
  buffer : List (Nat × List (BitVec 32)) := []
  deriving DecidableEq, Repr

/-- A task in a ready list. -/
structure Ready where
  task : Task
  list : RList
  since : Nat
  saved : Option Saved := none
  deriving DecidableEq, Repr

/-- What a fault is keyed by (R34, R416). -/
inductive PfKey where
  | page (asid page cls : Nat)
  | ctx (n cls : Nat)
  deriving DecidableEq, Repr

/-- A member of a pending-fault entry: a task by its number, an engine command, a sequenced command, a fill of a
cluster, a write-back, Caravan for a queue. -/
inductive PfMember where
  | task (tid : Nat)
  | mcmd (core id : Nat)
  | xcmd (core id : Nat)
  | scmd (id : Nat)
  | fill (id : Nat)
  | wb (cl id : Nat)
  | caravan (q : Nat)
  deriving DecidableEq, Repr

/-- A fault: its key, whom it stops, the queue, the core that raised it, the record's first six words. -/
structure FaultRec where
  key : PfKey
  who : PfMember
  queue : Nat
  core : Option Nat
  words : List Word
  deriving DecidableEq, Repr

/-- An entry of a die's pending-fault table (R34); `handler`: the future of the handler, none while the host's answer is
awaited; `sent`: the record is in the host's area (R404). -/
structure Pf where
  fault : FaultRec
  members : List PfMember
  handler : Option (BitVec 32) := none
  sent : Bool := false
  deriving DecidableEq, Repr

/-- A completion entry that Caravan writes (R401): the ring index, the result, the status, the future whose reference goes once it is
written (R203); `phase`: 0 nothing written, 1 word 0 written, 2 its release done, 3 held, while the queue rolls back (R402). -/
structure Completion where
  i : Nat
  value : Word
  status : Nat
  fut : Option (BitVec 32) := none
  phase : Nat := 0
  deriving DecidableEq, Repr

/-- A queue (R396 to R402): its state code, indices, the start of its checkpoint interval (R438), the entry whose record
the host holds (R404), whether Caravan's access is parked on a fault (R488), completion writes held. -/
structure QState where
  st : Nat := 0
  prod : BitVec 32 := 0
  cons : BitVec 32 := 0
  interval : Option Nat := none
  hostRec : Option Nat := none
  parked : Bool := false
  completions : List Completion := []
  ckptReq : Bool := false
  deriving DecidableEq, Repr

/-- A checkpoint in force (R439, log 13): the futures of its queue, its tasks with their registers, in the order of the ready
lists, its range counters, and the X commands owed and the sequenced commands, by core. -/
structure Ckpt where
  futs : SMap Future
  ready : List Ready
  ranges : SMap RangeC
  x : List (Nat × XCmd)
  sq : List (Nat × SCmd) := []
  deriving DecidableEq, Repr

/-- A save in progress (R427, R428): the context, the clock of step 1. -/
structure Saving where
  ctx : Nat
  since : Nat
  deriving DecidableEq, Repr

/-- A cluster barrier (R384, R385). -/
structure Bar where
  gen : BitVec 16 := 0
  arrived : Nat := 0
  count : Nat := 0
  next : Nat := 0
  deriving DecidableEq, Repr

/-- A core's trace buffer (R442, R444): entries, and the further entries to record after a firing. -/
structure Trace where
  ent : SMap (BitVec 128) := []
  post : Option Nat := none
  deriving DecidableEq, Repr

/-- Caravan's state. `restoring`: saved tasks bound to a context that do not run yet (R431). -/
structure Caravan where
  fut : SMap Future := []
  range : SMap RangeC := []
  replica : SMap RangeC := []
  ready : List Ready := []
  pf : SMap Pf := []
  pfWait : List (Nat × FaultRec) := []
  q : SMap QState := []
  ckpt : SMap Ckpt := []
  saving : List Saving := []
  restoring : List (Nat × Ready) := []
  claim : List (Nat × Nat) := []
  bar : SMap Bar := []
  failed : List Nat := []
  seq : Nat := 0
  tid : Nat := 0
  deriving DecidableEq, Repr

/-- A power-managed unit (R481 to R483): its state, idle since, a wake in progress. -/
structure PwUnit where
  st : Nat := 0
  idle : Option Nat := none
  waking : Option Nat := none
  deriving DecidableEq, Repr

/-- Boot, attestation, power and package (20). -/
structure Sys where
  mr : Vector (BitVec 256) 8 := Vector.replicate 8 0
  stage : Nat := 0
  slot : Bool := false
  fail : Bool := false
  released : Bool := false
  config : BitVec 256 := 0
  fw : Word := 0
  key : BitVec 256 := 0
  cert : BitVec 256 := 0
  report : Option (List (BitVec 8)) := none
  busy : Option Nat := none
  held : List Word := []
  unit_ : SMap PwUnit := []
  throttled : List Nat := []
  tripped : Bool := false
  deriving DecidableEq, Repr

/-- A step that has been caused and not yet taken, or an input from outside (log 5). Steps of one lane are taken in
order; a step without a lane may be taken at any time. -/
structure Pend where
  lane : Option Nat
  ev : Ev
  deriving DecidableEq, Repr

/-- An undo record of a 128-byte line (R440): its old contents, the poisoned sectors among them, whether its block was
live. -/
structure Undo where
  data : BitVec 1024
  psn : BitVec 4
  live : Bool
  deriving DecidableEq, Repr

/-- A frame or slot that hardware paging of a logged address space gives back or has taken: its die, what it is (0: a frame of
the pool, 1: a far frame, 2: a record slot), its number. -/
structure Moved where
  die : Nat
  kind : Nat
  n : Nat
  deriving DecidableEq, Repr

/-- What the paging of an interval gives back when the interval ends, and what a rollback gives back (R440, log 83). -/
structure Moves where
  give : List Moved := []
  took : List Moved := []
  deriving DecidableEq, Repr

/-! ## The machine -/

/-- The package. -/
structure State where
  ctx : SMap Ctx := []
  running : SMap Nat := []
  hbm : Hbm := {}
  far : SMap Memory := []
  farPsn : SMap (SMap Unit) := []
  mbox : Memory := []
  mboxW : List MboxW := []
  l1d : SMap Cache := []
  clc : SMap Cache := []
  l1q : SMap (List Nat) := []
  mmu : Mmu := {}
  bsu : Bsu := {}
  svt : SMap (List SvtE) := []
  hdm : SMap Hdm := []
  undo : SMap (SMap Undo) := []
  moves : SMap Moves := []
  fab : Fabric := {}
  tiles : Tiles := {}
  eng : SMap Engine := []
  car : Caravan := {}
  trace : SMap Trace := []
  sys : Sys := {}
  dev : SMap Word := []
  clk : Nat := 0
  pkg : Nat := 0
  cur : Nat := 0
  free : Nat := 0
  pending : List Pend := []
  ev : Option Ev := none
  deriving DecidableEq, Repr

/-- Reasons for which the machine stops. -/
inductive Fault where
  /-- Raised by `step` in a package that has tripped (R485): it does nothing until package reset. Safe. -/
  | packageTripped
  /-- Raised by `step` after both boot slots failed (R470): the package stays in reset. Safe. -/
  | bootFailed
  deriving DecidableEq, Repr

/-- Reasons for which a step has no meaning. -/
inductive Refusal where
  /-- Raised by `exec` for a row that has no meaning yet. Safe. -/
  | notModelled (mnemonic : String)
  deriving DecidableEq, Repr

/-- The machine right after package reset (09, 20), log 1 and log 2. -/
def State.reset : State := {}

end Sys2Proof.Machine
end

