-- ==== Sys2Proof/Machine/Hbm.lean ====
section
/-! DEFINITION. Device registers as a map from address to word, and the HBM channels: dead blocks (R103), ECC and poison
(R105 to R109), reservations' loss on writes (R121), the host snoop filter (R163) and undo records (R440). -/
namespace Sys2Proof.Machine

/-! ## Device registers and the model's counters -/

/-- The value of a register that nothing has written since reset, where that is not 0 (04 R111, 15 R411, 16 R428,
20 R474). -/
def devReset (pa : Nat) : Word :=
  if pa = 0xF00001520008 then 30
  else if pa = 0xF00001520010 then 40
  else if pa = 0xF00001340000 then 16
  else if pa = 0xF00001340048 then 1856
  else 0

/-- A device register's stored value. -/
def devGet (s : State) (pa : Nat) : Word := SMap.getD s.dev pa (devReset pa)
def devSet (s : State) (pa : Nat) (w : Word) : State := { s with dev := SMap.set s.dev pa w }
/-- Bits of `mgirq` set (R479). -/
def irq (s : State) (bit : Nat) : State := devSet s 0xF00001500000 (devGet s 0xF00001500000 ||| BitVec.ofNat 64 (2 ^ bit))

/-- The next free value's counter (log 4). -/
def draw (s : State) : Nat × State := (s.free, { s with free := s.free + 1 })

/-- The bits of n outside some reserved fields, each given by its highest and lowest bit. -/
def fieldsBut (n : Nat) (l : List (Nat × Nat)) : Nat := 2 ^ n - 1 - (l.map fun f => 2 ^ (f.1 + 1) - 2 ^ f.2).foldl (· + ·) 0
/-- A descriptor as it acts (R7, log 16): as it stands where its reserved fields are zero, and otherwise as a free encoding of its
defined fields. -/
def actsAs (s : State) (mask w : Nat) : Nat × State :=
  if w &&& mask = w then (w, s) else let (n, s) := draw s; (Config.fields n &&& mask, s)

/-- A step caused, with no lane. -/
def cause (s : State) (ev : Ev) : State := { s with pending := s.pending ++ [⟨none, ev⟩] }
/-- A step caused, in a lane. -/
def causeIn (s : State) (lane : Nat) (ev : Ev) : State := { s with pending := s.pending ++ [⟨some lane, ev⟩] }

/-! ## The local map (R12) -/

def isHbm (pa : Nat) : Bool := pa < 0x00C000000000
def isFar (pa : Nat) : Bool := 0x800000000000 ≤ pa && pa < 0xC00000000000
/-- A byte of the first 16 KiB of some core's mailbox. -/
def isMbox (pa : Nat) : Bool := 0xF00000000000 ≤ pa && pa < 0xF00000C00000 && pa % 0x10000 < 0x4000
def isMboxRange (pa : Nat) : Bool := 0xF00000000000 ≤ pa && pa < 0xF00000C00000
def isDev (pa : Nat) : Bool := 0xF00000C00000 ≤ pa && pa < 0x1000000000000
/-- The package channel of an HBM address (R12): 32 × stack + channel. -/
def chanOf (pa : Nat) : Nat := 32 * bitsAt pa 36 4 + (bitsAt pa 12 5 ^^^ bitsAt pa 17 5)
/-- The die of a channel: three stacks of 32 channels a die (R2). -/
def dieOfChan (n : Nat) : Nat := n / 96

/-! ## Channels -/

def chan (s : State) (n : Nat) : Chan := SMap.getD s.hbm.ch n {}
def setChan (s : State) (n : Nat) (f : Chan → Chan) : State :=
  { s with hbm := { s.hbm with ch := SMap.set s.hbm.ch n (f (chan s n)) } }

/-- A counter of R110: it stops at its largest value. -/
def bump (x k : Nat) : Nat := if x + k > 0xFFFFFFFF then 0xFFFFFFFF else x + k

def isLive (s : State) (pa : Nat) : Bool := SMap.has s.hbm.live (pa / 4096)
def isPoison (s : State) (sec : Nat) : Bool := SMap.has s.hbm.poison sec

/-- The row of an HBM address in its channel (log 17), for the refresh record of R102. -/
def rowOf (pa : Nat) : Nat := bitsAt pa 17 19

/-- The activation of a row, recorded for its group (R102). -/
def activate (s : State) (pa : Nat) : State :=
  let r := rowOf pa
  setChan s (chanOf pa) fun c =>
    let g := SMap.getD c.rows (r / 64) { time := 0, mask := 0 }
    { c with rows := SMap.set c.rows (r / 64) { g with time := s.clk, mask := g.mask ||| BitVec.ofNat 64 (2 ^ (r % 64)) } }

/-- The snoop-filter entry of a granule (R163). -/
def snoopOf (s : State) (pa : Nat) : Option Snoop := (chan s (chanOf pa)).snoop.find? fun e => e.gran = pa / 64
def setSnoop (s : State) (pa : Nat) (e : Option Snoop) : State :=
  setChan s (chanOf pa) fun c =>
    { c with snoop := (c.snoop.filter fun x => x.gran != pa / 64) ++ e.toList }

/-- The undo record of a line before its first write of the interval (R440); `q`: the queue whose writes are logged. -/
def undoLog (s : State) (q : Option Nat) (pa : Nat) : State :=
  match q with
  | none => s
  | some q =>
    match SMap.get? s.undo q with
    | none => s
    | some m =>
      let ln := pa / 128
      if SMap.has m ln then s
      else
        let u : Undo :=
          { data := BitVec.ofNat 1024 (ofLe (Memory.bytes s.hbm.mem (ln * 128) 128))
            psn := BitVec.ofNat 4 (packN 1 (fun i => if isPoison s (4 * ln + i) then 1 else 0) 4)
            live := isLive s pa }
        { s with undo := SMap.set s.undo q (SMap.set m ln u) }

/-- One sector written at its channel under a byte mask (R103, R106, R109, R121). `psn`: written poisoned. -/
def chanWrite (s : State) (q : Option Nat) (sec : Nat) (bs : List (Option Byte)) (psn : Bool) : State :=
  let pa := sec * 32
  let n := chanOf pa
  if (chan s n).failed then s else
  let s := activate (undoLog s q pa) pa
  let s := setChan s n fun c => { c with resv := c.resv.filter fun r => r.sector != sec }
  let s := { s with hbm := { s.hbm with live := SMap.set s.hbm.live (pa / 4096) () } }
  if psn then { s with hbm := { s.hbm with poison := SMap.set s.hbm.poison sec () } }
  else
    let full := bs.length = 32 && bs.all Option.isSome
    if isPoison s sec && !full then s
    else { s with hbm := { s.hbm with
             mem := Memory.store s.hbm.mem pa bs
             poison := SMap.erase s.hbm.poison sec } }

/-- The data of a granule that the host has modified, written to HBM (R163). -/
def hostData (s : State) (gran : Nat) (d : Option (BitVec 512)) : State :=
  match d with
  | none => s
  | some v =>
    let bs := (leBytes v.toNat 64).map some
    chanWrite (chanWrite s none (2 * gran) (bs.take 32) false) none (2 * gran + 1) (bs.drop 32) false

/-- BISnpData before a device read (R163): the host keeps the granule shared, and what it modified is written first. -/
def snoopRead (s : State) (pa : Nat) : State :=
  match snoopOf s pa with
  | some e => if e.own then setSnoop (hostData s e.gran e.data) pa (some { e with own := false, data := none }) else s
  | none => s

/-- BISnpInv before a device write (R163). -/
def snoopInv (s : State) (pa : Nat) : State :=
  match snoopOf s pa with
  | some e => setSnoop (hostData s e.gran e.data) pa none
  | none => s

/-- A device write of one sector: the host's copy is invalidated first (R163). -/
def hbmWriteSec (s : State) (q : Option Nat) (sec : Nat) (bs : List (Option Byte)) (psn : Bool) : State :=
  chanWrite (snoopInv s (sec * 32)) q sec bs psn

/-- One sector read at its channel (R103, R106, R107): its bytes, whether it is delivered poisoned. A failed channel's
deliveries are not counted in `heunc` (log 82). -/
def hbmReadSec (s : State) (sec : Nat) : List Byte × Bool × State :=
  let pa := sec * 32
  let n := chanOf pa
  let s := activate (snoopRead s pa) pa
  if (chan s n).failed then (List.replicate 32 0, true, s)
  else if !isLive s pa then (List.replicate 32 0, false, setChan s n fun c => { c with hedead := bump c.hedead 1 })
  else if isPoison s sec then
    (Memory.bytes s.hbm.mem pa 32, true, setChan s n fun c => { c with heunc := bump c.heunc 1 })
  else (Memory.bytes s.hbm.mem pa 32, false, s)

/-- `k` sectors from `sec` up: the bytes and the poison bit of each. -/
def hbmReadSecs (s : State) (sec : Nat) : Nat → List Byte × List Bool × State
  | 0 => ([], [], s)
  | k + 1 =>
    let (b, p, s) := hbmReadSec s sec
    let (bs, ps, s) := hbmReadSecs s (sec + 1) k
    (b ++ bs, p :: ps, s)

/-- `n` bytes of HBM from `pa` up, and whether any of their sectors is poisoned. -/
def hbmRead (s : State) (pa n : Nat) : List Byte × Bool × State :=
  let s0 := pa / 32
  let k := (pa + n - 1) / 32 - s0 + 1
  let (bs, ps, s) := hbmReadSecs s s0 k
  ((bs.drop (pa - s0 * 32)).take n, ps.any id, s)

/-- A word of `n` bytes of HBM. -/
def hbmReadN (s : State) (pa n : Nat) : Nat × Bool × State :=
  let (b, p, s) := hbmRead s pa n
  (ofLe b, p, s)

/-- The bytes of one sector out of a list that begins at `pa`: `none` outside it. -/
def secSlice (pa : Nat) (bs : List (Option Byte)) (sec : Nat) : List (Option Byte) :=
  (List.range 32).map fun i => if sec * 32 + i < pa then none else (bs.getD (sec * 32 + i - pa) none)

/-- A masked write to HBM from `pa` up, one piece a sector. Sectors with no enabled byte are not written. -/
def hbmWrite (s : State) (q : Option Nat) (pa : Nat) (bs : List (Option Byte)) : State :=
  if bs.isEmpty then s else
  (List.range ((pa + bs.length - 1) / 32 - pa / 32 + 1)).foldl (fun s i =>
    let sl := secSlice pa bs (pa / 32 + i)
    if sl.any Option.isSome then hbmWriteSec s q (pa / 32 + i) sl false else s) s

/-- Bytes stored whole. -/
def hbmPut (s : State) (q : Option Nat) (pa : Nat) (bs : List Byte) : State := hbmWrite s q pa (bs.map some)

/-- A word of `n` bytes stored. -/
def hbmPutN (s : State) (q : Option Nat) (pa n x : Nat) : State := hbmPut s q pa (leBytes x n)

/-- A block killed (R104): its contents and its poison are gone. -/
def killBlock (s : State) (blk : Nat) : State :=
  { s with hbm := { s.hbm with
      mem := s.hbm.mem.filter fun c => c.1 / 4096 != blk
      live := SMap.erase s.hbm.live blk
      poison := s.hbm.poison.filter fun c => c.1 / 128 != blk } }

/-- The reservations on a block's sectors are gone: its sectors have been written (R121). -/
def dropResv (s : State) (blk : Nat) : State :=
  setChan s (chanOf (blk * 4096)) fun c => { c with resv := c.resv.filter fun r => r.sector / 128 != blk }

/-- A block revived with zeros (R104), which writes every sector of it (R121). -/
def reviveBlock (s : State) (blk : Nat) : State :=
  let s := dropResv s blk
  { s with hbm := { (killBlock s blk).hbm with live := SMap.set s.hbm.live blk () } }

/-- A frame of 16 blocks killed (R104). -/
def killFrame (s : State) (frame : Nat) : State := (List.range 16).foldl (fun s i => killBlock s (frame * 16 + i)) s
/-- A frame written with zeros (R29). -/
def zeroFrame (s : State) (frame : Nat) : State := (List.range 16).foldl (fun s i => reviveBlock s (frame * 16 + i)) s

/-- A frame marked poisoned in every sector (R29). -/
def poisonFrame (s : State) (frame : Nat) : State :=
  let s := zeroFrame s frame
  { s with hbm := { s.hbm with poison := (List.range 2048).foldl (fun m i => SMap.set m (frame * 2048 + i) ()) s.hbm.poison } }

/-- The sectors of `n` bytes from `pa` up that would be delivered poisoned; nothing is read or counted. -/
def psnAt (s : State) (pa n : Nat) : List Bool :=
  (List.range ((pa + n - 1) / 32 - pa / 32 + 1)).map fun i =>
    let a := (pa / 32 + i) * 32
    (chan s (chanOf a)).failed || (isLive s a && isPoison s (pa / 32 + i))

/-- What ECC finds in a live sector (R107): a corrected one is counted, an uncorrectable one is poisoned and
recorded. -/
def eccSec (s : State) (sec : Nat) (e : Ecc) : State :=
  let n := chanOf (sec * 32)
  match e with
  | .good => s
  | .corrected => setChan s n fun c => { c with hecor := bump c.hecor 1 }
  | .uncorrectable =>
    let s := setChan s n fun c => { c with poisonV := true, poisonSec := sec }
    { s with hbm := { s.hbm with poison := SMap.set s.hbm.poison sec () } }

end Sys2Proof.Machine
end

