-- ==== Sys2Proof/Machine/Mmu.lean ====
section
/-! DEFINITION. Translation (R13 to R25, R486): page-table entries, walks, translation caches, first touches (R26, R29,
R31), the frame pools and the compressed store (R475, R476). -/
namespace Sys2Proof.Machine

/-! ## Far memory (R165 to R167) -/

/-- A decoder of a CXL port (R165): its type, the memory it reaches, the target address of a PA. -/
structure FarHit where
  type : Nat
  key : Nat
  addr : Nat
  port : Nat
  deriving DecidableEq, Repr

def cxdReg (q n off : Nat) : Nat := 0xF00001230000 + 0x1000 * q + 0x100 + 0x20 * n + off

/-- The first enabled decoder that holds a far-window address (R165). Key 0: host memory; 1 + pbrid: an expander. -/
def farDecode (s : State) (pa : Nat) : Option FarHit :=
  (List.range 16).findSome? fun i =>
    let q := i / 8
    let b := (devGet s (cxdReg q (i % 8) 0)).toNat
    let l := (devGet s (cxdReg q (i % 8) 8)).toNat
    let t := (devGet s (cxdReg q (i % 8) 0x10)).toNat
    let ty := bitsAt b 1 2
    let base := bitsAt b 30 18
    if b % 2 = 1 ∧ ty < 2 ∧ base ≤ pa / 2 ^ 30 ∧ pa / 2 ^ 30 ≤ bitsAt l 30 18 then
      some ⟨ty, if ty = 0 then 0 else 1 + bitsAt t 52 12, bitsAt t 30 22 * 2 ^ 30 + (pa - base * 2 ^ 30), q⟩
    else none

def farRead (s : State) (h : FarHit) (n : Nat) : List Byte := Memory.bytes (SMap.getD s.far h.key []) h.addr n
/-- The sectors of far memory that hold poison, of `n` bytes (R109, log 84). -/
def farPsnAt (s : State) (h : FarHit) (n : Nat) : List Bool :=
  (List.range ((h.addr + n - 1) / 32 - h.addr / 32 + 1)).map fun i => SMap.has (SMap.getD s.farPsn h.key []) (h.addr / 32 + i)
/-- One sector written beyond a CXL port, under a byte mask; `psn`: written poisoned (R109). -/
def farWriteSec (s : State) (key sec : Nat) (bs : List (Option Byte)) (psn : Bool) : State :=
  let was := SMap.has (SMap.getD s.farPsn key []) sec
  if psn then { s with farPsn := SMap.modify s.farPsn key [] fun m => SMap.set m sec () }
  else if was && !bs.all Option.isSome then s
  else
    let s := { s with far := SMap.modify s.far key [] fun m => Memory.store m (sec * 32) bs }
    if was then { s with farPsn := SMap.modify s.farPsn key [] fun m => SMap.erase m sec } else s
/-- A write beyond a CXL port on behalf of the contexts `cs`: its completion comes later (R168). -/
def farWrite (s : State) (cs : List Nat) (h : FarHit) (bs : List (Option Byte)) (psn : Bool := false) : State :=
  if bs.isEmpty then s else
  let s := (List.range ((h.addr + bs.length - 1) / 32 - h.addr / 32 + 1)).foldl (fun s i =>
    let sl := secSlice h.addr bs (h.addr / 32 + i)
    if sl.any Option.isSome then farWriteSec s h.key (h.addr / 32 + i) sl psn else s) s
  cs.foldl (fun s c =>
    cause { s with ctx := SMap.modify s.ctx c {} fun x => { x with farOut := x.farOut + 1 } } (.cxlCompletion c [])) s

/-! ## The home of a plain address -/

/-- Bytes at the home of an address: an HBM channel or far memory. An address that neither holds reads zeros. -/
def homeRead (s : State) (pa n : Nat) : List Byte × List Bool × State :=
  if isHbm pa then hbmReadSecs s (pa / 32) (n / 32)
  else match farDecode s pa with
    | some h => (farRead s h n, farPsnAt s h n, s)
    | none => (List.replicate n 0, List.replicate (n / 32) false, s)

/-- Bytes at the home of an address, at any alignment, and whether a poisoned sector is among them. -/
def homeBytes (s : State) (pa n : Nat) : List Byte × Bool × State :=
  if isHbm pa then hbmRead s pa n
  else match farDecode s pa with
    | some h => (farRead s h n, (farPsnAt s h n).any id, s)
    | none => (List.replicate n 0, false, s)

/-- A masked write at the home of an address, on behalf of the contexts `cs`. -/
def homeWrite (s : State) (cs : List Nat) (q : Option Nat) (pa : Nat) (bs : List (Option Byte)) : State :=
  if isHbm pa then hbmWrite s q pa bs
  else match farDecode s pa with
    | some h => farWrite s cs h bs
    | none => s

/-- A write at the home of an address that leaves its sectors poisoned (R108, R109). -/
def homePoison (s : State) (cs : List Nat) (q : Option Nat) (pa : Nat) (bs : List (Option Byte)) : State :=
  if bs.isEmpty then s
  else if isHbm pa then
    (List.range ((pa + bs.length - 1) / 32 - pa / 32 + 1)).foldl (fun s i =>
      let sl := secSlice pa bs (pa / 32 + i)
      if sl.any Option.isSome then hbmWriteSec s q (pa / 32 + i) sl true else s) s
  else match farDecode s pa with
    | some h => farWrite s cs h bs true
    | none => s

/-- A far frame killed (R104): its contents are discarded, and it reads as zeros (log 84). -/
def killFar (s : State) (frame : Nat) : State :=
  match farDecode s (frame * 65536) with
  | some h => { s with
      far := SMap.modify s.far h.key [] fun m => m.filter fun c => c.1 < h.addr || h.addr + 65536 ≤ c.1
      farPsn := SMap.modify s.farPsn h.key [] fun m => m.filter fun c => c.1 * 32 < h.addr || h.addr + 65536 ≤ c.1 * 32 }
  | none => s

/-- `n` bytes at a local physical address as a walker reads them (R18): HBM or decoded far memory; no other address holds a table
(R12). -/
def pmem (s : State) (pa n : Nat) : Option (Nat × Bool × State) :=
  if isHbm pa then some (hbmReadN s pa n)
  else (farDecode s pa).map fun h => (ofLe (farRead s h n), (farPsnAt s h n).any id, s)

/-! ## Page-table entries (R16, R17) -/

/-- A page-table entry written; `q`: the queue whose undo log keeps its old line. -/
def ptePut (s : State) (q : Option Nat) (pte : Nat) (e : Word) : State := homeWrite s [] q pte ((leBytes e.toNat 8).map some)
/-- A page-table entry in memory. -/
def pteNow (s : State) (pte : Nat) : Word :=
  BitVec.ofNat 64 (ofLe (if isHbm pte then Memory.bytes s.hbm.mem pte 8
    else match farDecode s pte with | some h => farRead s h 8 | none => []))

def pteKind (e : Word) : Nat := bitsAt e.toNat 0 3
def pteRd (e : Word) : Bool := e.getLsbD 4
def pteW (e : Word) : Bool := e.getLsbD 5
def pteX (e : Word) : Bool := e.getLsbD 6
def pteA (e : Word) : Bool := e.getLsbD 8
def pteD (e : Word) : Bool := e.getLsbD 9
def pteCp (e : Word) : Nat := bitsAt e.toNat 10 2
def pteMh (e : Word) : Nat := bitsAt e.toNat 12 2
def ptePkg (e : Word) : Nat := bitsAt e.toNat 48 14
def pteFrame (e : Word) : Nat := bitsAt e.toNat 16 32
/-- The record slot of a compressed entry: PA[47:15]. -/
def pteSlot (e : Word) : Nat := bitsAt e.toNat 15 33 * 32768

def pteSetKind (e : Word) (k : Nat) : Word := (e &&& ~~~7#64) ||| BitVec.ofNat 64 k
/-- The entry with a set, and d as well where `d`. -/
def pteTouch (e : Word) (d : Bool) : Word := e ||| (if d then 0x300#64 else 0x100#64)
/-- The entry made resident in a frame of package `pkg`. -/
def pteResident (e : Word) (pkg frame : Nat) : Word :=
  pteSetKind ((e &&& ~~~0x3FFFFFFFFFFF8000#64) ||| BitVec.ofNat 64 (pkg * 2 ^ 48 + frame * 2 ^ 16)) 2

/-- Bytes that a leaf at a level maps. -/
def pageSize (lvl : Nat) : Nat := 2 ^ (16 + 10 * lvl)
/-- The address that a leaf gives a VA; low frame bits of large leaves are ignored. -/
def leafPa (e : Word) (lvl va : Nat) : Nat := pteFrame e * 65536 / pageSize lvl * pageSize lvl + va % pageSize lvl

/-- CheckKindAndLevel (R17): the subcode of R32 that a leaf raises. -/
def checkLeaf (s : State) (e : Word) (lvl : Nat) : Option Nat :=
  let k := pteKind e
  let base := leafPa e lvl 0
  if k = 0 then some 0
  else if k = 1 || lvl = 3 || (k ≥ 4 && lvl != 0) then some 3
  else if !pteRd e && pteW e then some 3
  else if k = 3 && ptePkg e != 0 then some 3
  else if k = 2 && ptePkg e = s.pkg then
    if isHbm base || ((isMboxRange base || isDev base) && lvl = 0) then none else some 4
  else if k = 3 then if isFar base then none else some 4
  else if k = 6 then if isHbm base then none else some 4
  else none

/-- CheckPermission (R19). -/
def checkPerm (e : Word) (acc : Acc4) : Option Nat :=
  match acc with
  | .read => if pteRd e then none else some 8
  | .write => if pteW e then none else some 9
  | .fetch => if pteX e then none else some 10
  | .atomic => if !pteRd e then some 8 else if !pteW e then some 9 else none

def Acc4_writes : Acc4 → Bool
  | .write | .atomic => true
  | .read | .fetch => false

/-! ## Pools (R26, R475, R476) -/

/-- A register of die d's block (R475). -/
def dieReg (d off : Nat) : Nat := 0xF00001521000 + 0x100 * d + off
def reg32 (s : State) (pa : Nat) : Nat := bitsAt (devGet s pa).toNat 0 32

/-- The top frame of die d's pool. -/
def poolTake (s : State) (d : Nat) : Option (Nat × State) :=
  let n := reg32 s (dieReg d 0x10)
  if n = 0 then none
  else
    let (f, _, s) := hbmReadN s (bitsAt (devGet s (dieReg d 0)).toNat 2 46 * 4 + 4 * (n - 1)) 4
    let s := devSet s (dieReg d 0x10) (BitVec.ofNat 64 (n - 1))
    some (f, if n - 1 < reg32 s (dieReg d 0x20) then irq s 7 else s)

/-- POOL_ALLOCATION (R26): from the pool of die d, then of the dies after it. -/
def poolAlloc (s : State) (d : Nat) : Option (Nat × State) :=
  match poolTake s d with
  | some r => some r
  | none => match poolTake s ((d + 1) % 4) with
    | some r => some r
    | none => match poolTake s ((d + 2) % 4) with
      | some r => some r
      | none => poolTake s ((d + 3) % 4)

/-- A frame pushed onto die d's pool (R476), killed first (R104). -/
def poolAdd (s : State) (d f : Nat) : State :=
  let n := reg32 s (dieReg d 0x10)
  if n < reg32 s (dieReg d 8) then
    let s := killFrame s f
    let s := hbmPutN s none (bitsAt (devGet s (dieReg d 0)).toNat 2 46 * 4 + 4 * n) 4 f
    devSet s (dieReg d 0x10) (BitVec.ofNat 64 (n + 1))
  else irq s 7

/-- A far frame pushed onto die d's far release list (R30, R476), killed first (R104). -/
def farRelease (s : State) (d f : Nat) : State :=
  let s := killFar s f
  let n := reg32 s (dieReg d 0x60)
  let s := hbmPutN s none (bitsAt (devGet s (dieReg d 0x50)).toNat 2 46 * 4 + 4 * n) 4 f
  let s := devSet s (dieReg d 0x60) (BitVec.ofNat 64 (n + 1))
  if n + 1 = reg32 s (dieReg d 0x58) then irq s 7 else s

/-- Slot i of die d's compressed store marked free or taken in the bitmap, and `csfree` with it. -/
def slotMark (s : State) (d i : Nat) (free : Bool) : State :=
  let a := bitsAt (devGet s (dieReg d 0x38)).toNat 3 45 * 8 + i / 8
  let (b, _, s) := hbmReadN s a 1
  let m := 2 ^ (i % 8)
  let b' := if free then b ||| m else b &&& (255 - m)
  let s := hbmPutN s none a 1 b'
  let n := reg32 s (dieReg d 0x40)
  devSet s (dieReg d 0x40) (BitVec.ofNat 64 (if free then n + 1 else n - 1))

/-- The die and number of the slot at an address. -/
def slotOf (s : State) (pa : Nat) : Option (Nat × Nat) :=
  ((List.range 4).map fun d =>
    let b := bitsAt (devGet s (dieReg d 0x28)).toNat 15 33 * 32768
    (d, b)).findSome? fun (d, b) =>
      if b ≤ pa && (pa - b) / 32768 < reg32 s (dieReg d 0x30) then some (d, (pa - b) / 32768) else none

/-- The bytes of a frame or slot that are listed. -/
def regionMem (s : State) (pa n : Nat) : Memory := s.hbm.mem.filter fun c => pa ≤ c.1 && c.1 < pa + n

/-- A record slot free again: its record is gone. -/
def slotDrop (s : State) (pa : Nat) : State :=
  let s := { s with mmu := { s.mmu with records := SMap.erase s.mmu.records pa } }
  match slotOf s pa with
  | some (d, i) => slotMark s d i true
  | none => s

/-- COMPRESSED_EXPANSION (R29): the record expanded into a frame. A record that fails its check, because something wrote the slot
(R113), leaves the frame poisoned. -/
def expand (s : State) (e : Word) (frame : Nat) : State :=
  let pa := pteSlot e
  match SMap.get? s.mmu.records pa with
    | some r =>
      if r.slot = regionMem s pa 32768 then
        let s := killFrame ((List.range 16).foldl (fun s i => dropResv s (frame * 16 + i)) s) frame
        { s with hbm := { s.hbm with
            mem := r.mem.foldl (fun m (c : Host.Cell) => Memory.write m (frame * 65536 + c.1) c.2) s.hbm.mem
            live := r.live.foldl (fun m i => SMap.set m (frame * 16 + i) ()) s.hbm.live
            poison := r.poison.foldl (fun m i => SMap.set m (frame * 2048 + i) ()) s.hbm.poison } }
      else poisonFrame s frame
    | none => poisonFrame s frame

/-! ## Paging of an address space with a checkpoint interval (R440, log 83) -/

/-- The queue of an address space whose undo log is kept, and which therefore logs the changes that hardware paging makes. -/
def logQ (s : State) (asid : Nat) : Option Nat :=
  (s.undo.find? fun u => bitsAt (devGet s (0xF00001300000 + 0x100 * u.1)).toNat 32 16 = asid).map Prod.fst

/-- A frame or slot free again. -/
def freeMoved (s : State) (m : Moved) : State :=
  if m.kind = 0 then poolAdd s m.die m.n else if m.kind = 1 then farRelease s m.die m.n else slotDrop s m.n

/-- A frame or slot that a page has left is given back: at once, or when the interval of its address space ends. -/
def giveBack (s : State) (asid : Nat) (m : Moved) : State :=
  match logQ s asid with
  | none => freeMoved s m
  | some q => { s with moves := SMap.modify s.moves q {} fun x => { x with give := x.give ++ [m] } }

/-- A frame or slot that a page has taken: a rollback of the interval gives it back. -/
def tookNew (s : State) (asid : Nat) (m : Moved) : State :=
  match logQ s asid with
  | none => s
  | some q => { s with moves := SMap.modify s.moves q {} fun x => { x with took := x.took ++ [m] } }

/-- An interval ends: what its paging gave back is free. -/
def movesEnd (s : State) (q : Nat) : State :=
  (SMap.getD s.moves q {}).give.foldl freeMoved { s with moves := SMap.erase s.moves q }
/-- An interval is rolled back: what its paging took is free. -/
def movesBack (s : State) (q : Nat) : State :=
  (SMap.getD s.moves q {}).took.foldl freeMoved { s with moves := SMap.erase s.moves q }

/-- A page that waits or is being moved gets its frame: the frame is filled, and the old slot given back. -/
def fillPage (s : State) (asid : Nat) (e : Word) (f : Nat) : State :=
  if pteKind e = 5 then zeroFrame s f
  else giveBack (expand s e f) asid ⟨0, 2, pteSlot e⟩

/-! ## Accesses that wait at a walker (R18, R22, R29) -/

/-- The accesses parked on a page-table entry are released. -/
def unparkPte (s : State) (pte : Nat) : State :=
  { s with mmu := { s.mmu with parked := s.mmu.parked.filter fun p => p.pte != pte } }

/-- A page that waits in kind 7 gets its frame, and its accesses resume. An entry that software has written meanwhile is left as
it is. -/
def poolServe (s : State) (w : PoolWait) : State :=
  if pteNow s w.pte != pteSetKind w.old 7 then s
  else match poolAlloc s w.die with
  | none => { s with mmu := { s.mmu with poolWait := s.mmu.poolWait ++ [w] } }
  | some (f, s) =>
    let s := fillPage (tookNew s w.asid ⟨w.die, 0, f⟩) w.asid w.old f
    unparkPte (ptePut s (logQ s w.asid) w.pte (pteTouch (pteResident w.old s.pkg f) w.write)) w.pte

/-- Every access that a refilled pool can serve resumes (R26). -/
def poolPump (s : State) : State :=
  let l := s.mmu.poolWait
  l.foldl poolServe { s with mmu := { s.mmu with poolWait := [] } }

/-- A frame returned to die d's pool by the hardware or by software (R476): accesses that waited for a frame resume (R26). -/
def poolPush (s : State) (d f : Nat) : State := poolPump (poolAdd s d f)

/-! ## Walks (R18, R21) -/

def Agent_die : Agent → Nat
  | .core c => c / 48 | .fill k => k / 6 | .rou n => dieOfChan n | .caravan d => d
def Agent_key : Agent → Nat
  | .core c => c | .fill k => 1000 + k | .rou n => 2000 + n | .caravan d => 3000 + d
/-- Entries of the agent's translation cache (R20, R21). -/
def Agent_cap : Agent → Nat
  | .core _ => 256 | .fill _ => 512 | .rou _ => 32 | .caravan _ => 0

/-- What a walk finds. -/
inductive WalkR where
  | fault (code : Nat)
  | leaf (e : Word) (lvl pte : Nat)
  deriving DecidableEq, Repr

/-- The walk from the table at `t`, whose entries lie at level `lvl` (R18), through the die's walker cache (R21). A table in a
reserved range raises `badphys` (R12). -/
def walkFrom (s : State) (die asid va : Nat) : Nat → Nat → WalkR × State
  | 0, t =>
    let a := t + 8 * bitsAt va 16 10
    match pmem s a 8 with
    | none => (.fault 4, s)
    | some (e, p, s) => (if p then .fault 3 else .leaf (BitVec.ofNat 64 e) 0 a, s)
  | lvl + 1, t =>
    let idx := va >>> (10 * (lvl + 1) + 16)
    match (SMap.getD s.mmu.walk die []).find? fun w => w.asid = asid && w.lvl = lvl + 1 && w.idx = idx with
    | some w => walkFrom s die asid va lvl w.next
    | none =>
      let a := t + 8 * bitsAt va (10 * (lvl + 1) + 16) 10
      match pmem s a 8 with
      | none => (.fault 4, s)
      | some (e, p, s) =>
        if p then (.fault 3, s)
        else if e % 8 = 1 then
          let nx := bitsAt e 13 35 * 8192
          let s := { s with mmu := { s.mmu with
            walk := SMap.modify s.mmu.walk die [] fun l => l ++ [⟨asid, lvl + 1, idx, nx⟩] } }
          walkFrom s die asid va lvl nx
        else (.leaf (BitVec.ofNat 64 e) (lvl + 1) a, s)

/-- The walk of a VA by a walker of a die. A poisoned address space table entry is taken as the word that is stored (log 14). -/
def walk (s : State) (die asid va : Nat) : WalkR × State :=
  match pmem s (bitsAt (devGet s 0xF00001520000).toNat 19 29 * 2 ^ 19 + 8 * asid) 8 with
  | none => (.fault 4, s)
  | some (ase, _, s) =>
    if ase % 2 = 0 then (.fault 1, s)
    else walkFrom s die asid va 3 (bitsAt ase 13 35 * 8192)

/-- The outcome of a translation: the package and address with the page's policy, a fault's subcode, or a wait for a
page in kind 7. -/
inductive TR where
  | ok (pkg pa cp : Nat)
  | fault (code : Nat)
  | park
  deriving DecidableEq, Repr

/-- The translation that a leaf gives; mailbox and register frames act as cp = 2 (R17). -/
def leafTR (s : State) (e : Word) (lvl va : Nat) : TR :=
  let pa := leafPa e lvl va
  if pteKind e = 2 && ptePkg e != s.pkg then .ok (ptePkg e) pa (pteCp e)
  else .ok s.pkg pa (if isHbm pa || isFar pa then pteCp e else 2)

/-- A translation-cache entry installed; the oldest leaves a full cache. -/
def tlbPut (s : State) (ag : Agent) (t : TlbE) : State :=
  if Agent_cap ag = 0 then s else
  { s with mmu := { s.mmu with tlb := SMap.modify s.mmu.tlb (Agent_key ag) [] fun l =>
      let l := l.filter fun x => !(x.asid = t.asid && x.page = t.page && x.lvl = t.lvl)
      (if l.length ≥ Agent_cap ag then l.tail else l) ++ [t] } }

/-- An access parks at a walker until the page leaves kind 7 or an invalidation of it completes (R22, R29). -/
def park (s : State) (ag : Agent) (asid va pte : Nat) : State :=
  { s with mmu := { s.mmu with parked := s.mmu.parked ++ [⟨Agent_key ag, asid, va / 65536, pte⟩] } }
/-- An access of the agent to the page is parked. -/
def isParked (s : State) (ag : Agent) (asid va : Nat) : Bool :=
  s.mmu.parked.any fun p => p.ag = Agent_key ag && p.asid = asid && p.page = va / 65536
/-- The accesses that an invalidation's completion releases (R22): they walk again. -/
def unpark (s : State) (i : Inval) : State :=
  { s with mmu := { s.mmu with parked := s.mmu.parked.filter fun p =>
      !(p.asid = i.asid && (match i.va with | none => true | some va => p.page = va / 65536)) } }

/-- A first touch (R29, R31): the entry swapped to kind 7, a frame taken and filled, the entry made resident. With
every pool empty the page stays in kind 7 (R26). -/
def firstTouch (s : State) (ag : Agent) (asid va : Nat) (e : Word) (pte : Nat) (wr : Bool) : TR × State :=
  let d := Agent_die ag
  match poolAlloc s d with
  | none =>
    let s := park (ptePut s (logQ s asid) pte (pteSetKind e 7)) ag asid va pte
    (.park, irq { s with mmu := { s.mmu with poolWait := s.mmu.poolWait ++ [⟨d, asid, pte, e, wr⟩] } } 1)
  | some (f, s) =>
    let s := fillPage (tookNew s asid ⟨d, 0, f⟩) asid e f
    let e' := pteTouch (pteResident e s.pkg f) wr
    let s := ptePut s (logQ s asid) pte e'
    (leafTR s e' 0 va, tlbPut s ag ⟨asid, va / 65536 * 65536, 0, e'⟩)

/-- A write to a dead page (R29): the entry becomes resident, and its dead blocks live with zeros. -/
def deadWrite (s : State) (e : Word) : State :=
  (List.range 16).foldl (fun s i =>
    let b := pteFrame e * 16 + i
    if SMap.has s.hbm.live b then s else reviveBlock s b) s

/-- The walk of an access, with the updates of the entry that it makes (R18, R25, R29). -/
def walkFor (s : State) (ag : Agent) (asid va : Nat) (acc : Acc4) : TR × State :=
  if isParked s ag asid va then (.park, s) else
  match walk s (Agent_die ag) asid va with
  | (.fault c, s) => (.fault c, s)
  | (.leaf e lvl pte, s) =>
    match checkLeaf s e lvl with
    | some c => (.fault c, s)
    | none =>
      if pteKind e = 7 then (.park, park s ag asid va pte)
      else match checkPerm e acc with
      | some c => (.fault c, s)
      | none =>
        let wr := Acc4_writes acc
        if pteKind e = 4 || pteKind e = 5 then firstTouch s ag asid va e pte wr
        else
          let s := if pteKind e = 6 && wr then deadWrite s e else s
          let e' := pteTouch (if pteKind e = 6 && wr then pteSetKind e 2 else e) wr
          let s := if e' = e then s else ptePut s none pte e'
          (leafTR s e' lvl va, tlbPut s ag ⟨asid, va / pageSize lvl * pageSize lvl, lvl, e'⟩)

/-- The entry of the agent's translation cache that covers a VA (R20). -/
def tlbFind (s : State) (ag : Agent) (asid va : Nat) : Option TlbE :=
  (SMap.getD s.mmu.tlb (Agent_key ag) []).find? fun t =>
    t.asid = asid && t.page ≤ va && va < t.page + pageSize t.lvl

/-- Translate (R18) through the agent's translation cache. A write through an entry with d = 0, or to a dead page,
walks. -/
def translate (s : State) (ag : Agent) (asid : Nat) (va : Word) (acc : Acc4) : TR × State :=
  if bitsAt va.toNat 56 8 != 0 then (.fault 2, s)
  else match tlbFind s ag asid va.toNat with
  | some t =>
    match checkPerm t.e acc with
    | some c => (.fault c, s)
    | none =>
      if Acc4_writes acc && (!pteD t.e || pteKind t.e = 6) then walkFor s ag asid va.toNat acc
      else (leafTR s t.e t.lvl va.toNat, s)
  | none => walkFor s ag asid va.toNat acc

/-- The entries of a translation cache that an invalidation leaves (R22). -/
def tlbKeep (i : Inval) (t : TlbE) : Bool :=
  !(t.asid = i.asid && (match i.va with | none => true | some va => t.page ≤ va && va < t.page + pageSize t.lvl))
/-- The entries of a walker cache that an invalidation leaves (R22). -/
def walkKeep (i : Inval) (w : WalkE) : Bool :=
  !(w.asid = i.asid && (match i.va with | none => true | some va => w.idx = va >>> (10 * w.lvl + 16)))

/-- Every translation cache and walker cache of the package drops the matching entries (R22). -/
def dropXlat (s : State) (i : Inval) : State :=
  { s with mmu := { s.mmu with
      tlb := s.mmu.tlb.map fun (k, l) => (k, l.filter (tlbKeep i))
      walk := s.mmu.walk.map fun (k, l) => (k, l.filter (walkKeep i)) } }

end Sys2Proof.Machine
end

