-- ==== Sys2Proof/Machine/Cache.lean ====
section
/-! DEFINITION. The plain lines of the L1Ds and CLCs (R139 to R142, R164), the space that they share with tiles (R76), release
write-back and acquire staling. -/
namespace Sys2Proof.Machine

/-! ## The space of a CLC (R76, R90) -/

def clcT (s : State) (cl : Nat) : List TLine := SMap.getD s.tiles.clc cl []
def setClcT (s : State) (cl : Nat) (l : List TLine) : State := { s with tiles := { s.tiles with clc := SMap.set s.tiles.clc cl l } }
def victimsOf (s : State) (cl : Nat) : List Victim := SMap.getD s.tiles.victims cl []

def segsOf (l : List TLine) : Nat := (l.map TLine.segs).foldl (· + ·) 0

/-- The line that replacement takes (R90): no pin, valid or poisoned; from last-use, then default, then hinted-reuse; a clean
one first within its class; the least recently used first. -/
def pickVictim (l : List TLine) : Option TLine :=
  let ok (x : TLine) : Bool := x.pins = 0 && (x.st == .valid || x.st == .poisoned)
  [2, 0, 1].findSome? fun c =>
    let k := l.filter fun x => ok x && x.cls = c
    match k.find? fun x => !x.dirty with
    | some x => some x
    | none => k.head?

/-- CLC_WRITEBACK_BEGIN (R159): a dirty posted line copied into a victim buffer, its write-back sent to the home. -/
def beginWriteback (s : State) (cl : Nat) (l : TLine) : State :=
  let s := setClcT s cl ((clcT s cl).filter fun x => x.id != l.id)
  { s with tiles := { s.tiles with victims := SMap.set s.tiles.victims cl (victimsOf s cl ++ [{ id := l.id, line := l }]) } }

/-- A tile line that replacement takes leaves a CLC: a clean one at once, a dirty one through a victim buffer, for which it waits
while all 16 are held (R159). -/
def clcDropTile (s : State) (cl : Nat) : Option State :=
  match pickVictim (clcT s cl) with
  | none => none
  | some v =>
    if !v.dirty then some (setClcT s cl ((clcT s cl).filter fun x => x.id != v.id))
    else if (victimsOf s cl).length < 16 then some (beginWriteback s cl v) else none

/-! ## Lines -/

/-- The bit mask of a byte mask. -/
def byteBits (m : BitVec 128) : BitVec 1024 := BitVec.ofNat 1024 (packN 8 (fun i => if m.getLsbD i then 255 else 0) 128)

/-- The poison bits that remain after bytes were written: a sector written whole is clean (R109). -/
def psnAfter (psn : BitVec 4) (dirty : BitVec 128) : BitVec 4 :=
  BitVec.ofNat 4 (packN 1 (fun i => if psn.getLsbD i && bitsAt dirty.toNat (32 * i) 32 != 2 ^ 32 - 1 then 1 else 0) 4)

/-- Bytes written into a line. -/
def Line_put (l : Line) (data : BitVec 1024) (m : BitVec 128) : Line :=
  let b := byteBits m
  { l with data := (l.data &&& ~~~b) ||| (data &&& b), dirty := l.dirty ||| m, psn := psnAfter l.psn (l.dirty ||| m) }

/-- The dirty bytes of a line. -/
def Line_dirtyBytes (l : Line) : List (Option Byte) :=
  (List.range 128).map fun i => if l.dirty.getLsbD i then some (l.data.extractLsb' (8 * i) 8) else none

def gensL1 (c : Cache) : List (BitVec 4) := [c.gen[2], c.gen[3], c.gen[4], c.gen[5], c.gen[6]]
def gensClc (c : Cache) : List (BitVec 4) := [c.gen[3], c.gen[4], c.gen[5], c.gen[6]]

def l1Of (s : State) (core : Nat) : Cache := SMap.getD s.l1d core {}
def clcOf (s : State) (cl : Nat) : Cache := SMap.getD s.clc cl {}
def setL1 (s : State) (core ln : Nat) (l : Option Line) : State :=
  { s with l1d := SMap.modify s.l1d core {} fun c =>
      { c with lines := match l with | some l => SMap.set c.lines ln l | none => SMap.erase c.lines ln } }
def setClc (s : State) (cl ln : Nat) (l : Option Line) : State :=
  { s with clc := SMap.modify s.clc cl {} fun c =>
      { c with lines := match l with | some l => SMap.set c.lines ln l | none => SMap.erase c.lines ln } }

/-- A line's data, poison bits as a line with the given generations. -/
def mkLine (bs : List Byte) (psn : List Bool) (gens : List (BitVec 4)) : Line :=
  { data := BitVec.ofNat 1024 (ofLe bs)
    psn := BitVec.ofNat 4 (packN 1 (fun i => if psn.getD i false then 1 else 0) 4)
    gens := gens }

/-- A line whose bytes under a mask have been written back. -/
def Line_clean (l : Line) (m : BitVec 128) : Line :=
  let d := l.dirty &&& ~~~m
  if d = 0 then { l with dirty := 0, mask := 0, ctx := [] } else { l with dirty := d }

/-- The dirty bytes of a CLC line under a mask written to their home (R141): the line stays. -/
def clcWriteBackM (s : State) (cl ln : Nat) (m : BitVec 128) : State :=
  match SMap.get? (clcOf s cl).lines ln with
  | none => s
  | some l =>
    if l.dirty &&& m = 0 then s
    else setClc (homeWrite s l.ctx l.queue (ln * 128) (Line_dirtyBytes { l with dirty := l.dirty &&& m })) cl ln (some (Line_clean l m))
/-- Every dirty byte of a CLC line written to its home (R141): the line stays, clean, with its mask cleared. -/
def clcWriteBack (s : State) (cl ln : Nat) : State := clcWriteBackM s cl ln (BitVec.allOnes 128)

/-- Segments of a CLC that `n` plain lines hold: the model packs them 16 to a segment (log 8). -/
def segsFor (n : Nat) : Nat := (n + 15) / 16
/-- Segments of a CLC that hold plain lines. -/
def plainSegs (s : State) (cl : Nat) : Nat := segsFor (clcOf s cl).lines.length

/-- A plain line, one of them as a free value has it, leaves a CLC (log 8). -/
def clcDropPlain (s : State) (cl : Nat) : Option State :=
  let l := (clcOf s cl).lines
  if l.isEmpty then none
  else
    let (n, s) := draw s
    (l[Config.choose n % l.length]?).map fun e => setClc (clcWriteBack s cl e.1) cl e.1 none

/-- CLC_EVICT (R76, R90): a plain line or a tile line leaves a CLC; which of the two is free (log 8). None where the eviction
waits. -/
def clcEvict (s : State) (cl : Nat) : Option State :=
  let (n, s) := draw s
  if Config.choose n % 2 = 0 then (clcDropPlain s cl <|> clcDropTile s cl) else (clcDropTile s cl <|> clcDropPlain s cl)

/-- Room in a CLC for `lines` plain lines more, `segs` segments of tile data more and `tags` tile entries more (R76). -/
def clcFits (s : State) (cl lines segs tags : Nat) : Bool :=
  segsOf (clcT s cl) + segs + segsFor ((clcOf s cl).lines.length + lines) ≤ 8192 && (clcT s cl).length + tags ≤ 4096
def clcMake (s : State) (cl lines segs tags : Nat) : Nat → Option State
  | 0 => if clcFits s cl lines segs tags then some s else none
  | k + 1 =>
    if clcFits s cl lines segs tags then some s
    else match clcEvict s cl with
    | some s => clcMake s cl lines segs tags k
    | none => none
/-- CLC_ROOM: evictions until a CLC has the room asked for; none where they must wait. -/
def clcRoom (s : State) (cl lines segs tags : Nat) : Option State :=
  clcMake s cl lines segs tags ((clcT s cl).length + (clcOf s cl).lines.length)

/-- A plain line put into a CLC, where there is room for it (R76). -/
def clcFill (s : State) (cl ln : Nat) (l : Line) : State :=
  match clcRoom s cl 1 0 0 with
  | some s => setClc s cl ln (some l)
  | none => s

/-- A current CLC line for an address, filled from its home when it is absent or stale (R139). With no room for it in the CLC,
none is installed. -/
def clcEnsure (s : State) (cl ln : Nat) : Line × State :=
  let fill (s : State) : Line × State :=
    let (bs, ps, s) := homeRead s (ln * 128) 128
    let l := mkLine bs ps (gensClc (clcOf s cl))
    (l, clcFill s cl ln l)
  match SMap.get? (clcOf s cl).lines ln with
  | some l => if l.gens = gensClc (clcOf s cl) then (l, s) else fill (setClc (clcWriteBack s cl ln) cl ln none)
  | none => fill s

/-- Bytes that a core writes back into a CLC line (R141), on behalf of the contexts `cs`; to their home where the CLC has no room
for the line. -/
def clcPut (s : State) (core : Nat) (cs : List Nat) (q : Option Nat) (ln : Nat) (data : BitVec 1024) (m : BitVec 128) : State :=
  let cl := core / 8
  let (l, s) := clcEnsure s cl ln
  let l' := { Line_put l data m with mask := l.mask ||| BitVec.ofNat 8 (2 ^ (core % 8)), queue := q, ctx := (l.ctx ++ cs).eraseDups }
  if SMap.has (clcOf s cl).lines ln then setClc s cl ln (some l')
  else homeWrite s cs q (ln * 128) (Line_dirtyBytes { l' with dirty := m })

/-- The dirty bytes of an L1D line under a mask written to the CLC, or to their home where its page allocates no CLC line. -/
def l1WriteBackM (s : State) (core ln : Nat) (m : BitVec 128) : State :=
  match SMap.get? (l1Of s core).lines ln with
  | none => s
  | some l =>
    if l.dirty &&& m = 0 then s
    else
      let s := if l.noClc then homeWrite s l.ctx l.queue (ln * 128) (Line_dirtyBytes { l with dirty := l.dirty &&& m })
               else clcPut s core l.ctx l.queue ln l.data (l.dirty &&& m)
      setL1 s core ln (some (Line_clean l m))
/-- Every dirty byte of an L1D line written back: the line stays, clean. -/
def l1WriteBack (s : State) (core ln : Nat) : State := l1WriteBackM s core ln (BitVec.allOnes 128)

/-- The bytes of sector i of a line. -/
def sectorBits (i : Nat) : BitVec 128 := BitVec.ofNat 128 ((2 ^ 32 - 1) * 2 ^ (32 * i))

/-- A plain line put into an L1D, which holds 512 lines (R5): where it is full, one of its lines leaves, as a free value has it
(log 8). -/
def l1Fill (s : State) (core ln : Nat) (l : Line) : State :=
  let ls := (l1Of s core).lines
  if ls.length < 512 || SMap.has ls ln then setL1 s core ln (some l)
  else
    let (n, s) := draw s
    let s := match ls[Config.choose n % ls.length]? with
      | some e => setL1 (l1WriteBack s core e.1) core e.1 none
      | none => s
    setL1 s core ln (some l)

/-- A core's read of a CLC line marks it in a dirty line (R141). -/
def clcMark (s : State) (core ln : Nat) : State :=
  match SMap.get? (clcOf s (core / 8)).lines ln with
  | some l => if l.dirty = 0 then s else setClc s (core / 8) ln (some { l with mask := l.mask ||| BitVec.ofNat 8 (2 ^ (core % 8)) })
  | none => s

/-- A current L1D line for an address (R139). A line filled from a dirty CLC line marks the core in it (R141); a
page with cp = 1 fills past the CLC. -/
def l1Ensure (s : State) (core ln : Nat) (noClc : Bool) : Line × State :=
  let fill (s : State) : Line × State :=
    if noClc && !SMap.has (clcOf s (core / 8)).lines ln then
      let (bs, ps, s) := homeRead s (ln * 128) 128
      let l := { mkLine bs ps (gensL1 (l1Of s core)) with noClc := true }
      (l, l1Fill s core ln l)
    else
      let (c, s) := clcEnsure s (core / 8) ln
      let l : Line := { data := c.data, psn := c.psn, gens := gensL1 (l1Of s core), noClc := noClc }
      (l, l1Fill (clcMark s core ln) core ln l)
  match SMap.get? (l1Of s core).lines ln with
  | some l => if l.gens = gensL1 (l1Of s core) then (l, s) else fill (setL1 (l1WriteBack s core ln) core ln none)
  | none => fill s

/-- The bytes of a line from offset `o`, and whether a poisoned sector is among them: a sector that was written in part stays
poisoned (R109). -/
def Line_bytes (l : Line) (o n : Nat) : List Byte × Bool :=
  ((List.range n).map fun i => l.data.extractLsb' (8 * (o + i)) 8,
   (List.range n).any fun i => l.psn.getLsbD ((o + i) / 32))

/-- Bytes and their mask placed at offset `o` of a line. -/
def lineMask (o : Nat) (bs : List (Option Byte)) : BitVec 1024 × BitVec 128 :=
  (BitVec.ofNat 1024 (packN 8 (fun i => if i < o then 0 else ((bs.getD (i - o) none).getD 0).toNat) 128),
   BitVec.ofNat 128 (packN 1 (fun i => if o ≤ i && (bs.getD (i - o) none).isSome then 1 else 0) 128))

/-- How an address is cached (R16, R142, R164, R166): `cp` of its page, and whether it is host memory. -/
def uncached (s : State) (pa cp : Nat) : Bool :=
  cp = 2 || (isFar pa && (match farDecode s pa with | some h => h.type = 0 | none => true))

/-- A read by a core within one line, through the caches that its page allows. -/
def coreReadPiece (s : State) (core pa cp n : Nat) : List Byte × Bool × State :=
  if uncached s pa cp then homeBytes s pa n
  else if cp = 3 then
    let (l, s) := clcEnsure s (core / 8) (pa / 128)
    let (b, p) := Line_bytes l (pa % 128) n
    (b, p, clcMark s core (pa / 128))
  else
    let (l, s) := l1Ensure s core (pa / 128) (cp = 1)
    let (b, p) := Line_bytes l (pa % 128) n
    (b, p, s)

/-- A masked write by a core within one line, of context `c`. -/
def coreWritePiece (s : State) (c core : Nat) (q : Option Nat) (pa cp : Nat) (bs : List (Option Byte)) : State :=
  if uncached s pa cp then homeWrite s [c] q pa bs
  else
    let (d, m) := lineMask (pa % 128) bs
    if cp = 3 then clcPut s core [c] q (pa / 128) d m
    else
      let (l, s) := l1Ensure s core (pa / 128) (cp = 1)
      setL1 s core (pa / 128) (some { Line_put l d m with queue := q, ctx := if l.ctx.contains c then l.ctx else l.ctx ++ [c] })

/-- The pieces of n bytes from an address, cut at multiples of `step`: address, offset, length. -/
def cutsAt (step pa n : Nat) : List (Nat × Nat × Nat) :=
  if n = 0 then [] else
  (List.range ((pa + n - 1) / step - pa / step + 1)).map fun i =>
    let a := if i = 0 then pa else (pa / step + i) * step
    let e := min (pa + n) ((pa / step + i + 1) * step)
    (a, a - pa, e - a)
/-- The pieces of an access, one a line. -/
def linePieces (pa n : Nat) : List (Nat × Nat × Nat) := cutsAt 128 pa n
/-- The pieces of an access, one a sector (R131). -/
def sectorPieces (pa n : Nat) : List (Nat × Nat × Nat) := cutsAt 32 pa n

/-- A plain read by a core of bytes that lie in one page. -/
def coreRead (s : State) (core pa cp n : Nat) : List Byte × Bool × State :=
  if n = 0 then ([], false, s) else
  (linePieces pa n).foldl (fun (b, p, s) (a, _, k) =>
    let (b', p', s) := coreReadPiece s core a cp k
    (b ++ b', p || p', s)) ([], false, s)

/-- A plain masked write by a core of bytes that lie in one page. -/
def coreWrite (s : State) (c core : Nat) (q : Option Nat) (pa cp : Nat) (bs : List (Option Byte)) : State :=
  if bs.isEmpty then s else
  (linePieces pa bs.length).foldl (fun s (a, o, k) =>
    let sl := (bs.drop o).take k
    if sl.any Option.isSome then coreWritePiece s c core q a cp sl else s) s

/-! ## Releases and acquires (R139 to R141) -/

/-- Every dirty L1D line of a core written back (R141). -/
def l1Flush (s : State) (core : Nat) : State :=
  (l1Of s core).lines.foldl (fun s (ln, _) => l1WriteBack s core ln) s

/-- Every dirty CLC line marked for a core written to its home (R141). -/
def clcFlush (s : State) (core : Nat) : State :=
  (clcOf s (core / 8)).lines.foldl (fun s (ln, l) =>
    if l.mask.getLsbD (core % 8) then clcWriteBack s (core / 8) ln else s) s

/-- RELEASE_WRITEBACK (R127, R141): what a release of a core at a scope code writes back. -/
def releaseAt (s : State) (core scope : Nat) : State :=
  let s := if scope ≥ 2 then l1Flush s core else s
  if scope ≥ 3 then clcFlush s core else s

/-- GENERATION_WRAP in an L1D (R140). -/
def l1Wrap (s : State) (core : Nat) : State :=
  let s := l1Flush s core
  { s with l1d := SMap.modify s.l1d core {} fun c => { c with lines := [] } }
/-- GENERATION_WRAP in a CLC (R140). -/
def clcWrap (s : State) (cl : Nat) : State :=
  let s := (clcOf s cl).lines.foldl (fun s (ln, _) => clcWriteBack s cl ln) s
  { s with clc := SMap.modify s.clc cl {} fun c => { c with lines := [] } }

/-- A counter of a cache advanced. -/
def genUp (c : Cache) (scope : Nat) : Cache :=
  if h : scope < 8 then { c with gen := c.gen.set scope (c.gen[scope] + 1) } else c

/-- The queued engine invalidations of a core performed (R150): the lines leave its L1D and its cluster's CLC. -/
def drainInvals (s : State) (core : Nat) : State :=
  let s := (SMap.getD s.l1q core []).foldl (fun s ln =>
    let s := setL1 (l1WriteBack s core ln) core ln none
    setClc (clcWriteBack s (core / 8) ln) (core / 8) ln none) s
  { s with l1q := SMap.erase s.l1q core }

/-- What an acquire of a core at a scope makes stale (R139, R140), after the engine's queued invalidations (R150). -/
def acquireAt (s : State) (core scope : Nat) : State :=
  let s := drainInvals s core
  let up (x : BitVec 4) : Bool := x == 15
  let s := if scope ≥ 2 && scope < 7 then
      let s := if up ((l1Of s core).gen.toList.getD scope 0) then l1Wrap s core else s
      { s with l1d := SMap.modify s.l1d core {} fun c => genUp c scope }
    else s
  if scope ≥ 3 && scope < 7 then
    let s := if up ((clcOf s (core / 8)).gen.toList.getD scope 0) then clcWrap s (core / 8) else s
    { s with clc := SMap.modify s.clc (core / 8) {} fun c => genUp c scope }
  else s

/-- A core's own copies of a sector's line written back and dropped before an operation at its home (R114, R142). -/
def flushOwn (s : State) (core pa : Nat) : State :=
  let ln := pa / 128
  let s := setL1 (l1WriteBack s core ln) core ln none
  setClc (clcWriteBack s (core / 8) ln) (core / 8) ln none

/-- The bytes of one sector's piece that an engine reads in a cache, where a byte of the sector is dirty there. -/
def dirtySector (c : Cache) (pa n : Nat) : Option (List Byte × Bool) :=
  match SMap.get? c.lines (pa / 128) with
  | some l => if l.dirty &&& sectorBits (pa % 128 / 32) = 0 then none else some (Line_bytes l (pa % 128) n)
  | none => none

/-- A read by an engine or a fill for a core (R142): a sector dirty in the core's L1D is read there, one dirty in its
cluster's CLC there, any other at its home. -/
def engineRead (s : State) (core pa n : Nat) : List Byte × Bool × State :=
  (sectorPieces pa n).foldl (fun (b, p, s) (a, _, k) =>
    let (b', p', s) := match dirtySector (l1Of s core) a k with
      | some (x, y) => (x, y, s)
      | none => match dirtySector (clcOf s (core / 8)) a k with
        | some (x, y) => (x, y, s)
        | none => homeBytes s a k
    (b ++ b', p || p', s)) ([], false, s)

/-- The sectors of `n` bytes that `engineRead` would deliver poisoned; nothing is read. -/
def enginePsn (s : State) (core pa n : Nat) : List Bool :=
  (sectorPieces pa n).map fun (a, _, k) =>
    match dirtySector (l1Of s core) a k with
    | some (_, y) => y
    | none => match dirtySector (clcOf s (core / 8)) a k with
      | some (_, y) => y
      | none => if isHbm a then (psnAt s a k).any id
                else match farDecode s a with | some h => (farPsnAt s h k).any id | none => false

/-- The invalidation of a line that an engine of a core has written is queued (R150). -/
def queueInval (s : State) (core pa : Nat) : State :=
  { s with l1q := SMap.modify s.l1q core [] fun l => if l.contains (pa / 128) then l else l ++ [pa / 128] }

/-- A write by an engine for a core (R142, R150): dirty copies go first, and the invalidation of the written line is
queued; `psn`: written poisoned (R108). -/
def engineWrite (s : State) (c core : Nat) (q : Option Nat) (pa : Nat) (bs : List (Option Byte)) (psn : Bool) : State :=
  if bs.isEmpty then s else
  (linePieces pa bs.length).foldl (fun s (a, o, k) =>
    let sl := (bs.drop o).take k
    let s := clcWriteBack (l1WriteBack s core (a / 128)) (core / 8) (a / 128)
    queueInval (if psn then homePoison s [c] q a sl else homeWrite s [c] q a sl) core a) s

end Sys2Proof.Machine
end

