-- ==== Sys2Proof/Machine/Flags.lean ====
section
/-! DEFINITION. Exact arithmetic on the float formats (R45 to R50), the flags of `fflags` (R51), `Round` (R49),
conversions (R54, R55), quantisation (R43, R44), sums (R60 to R65) and Mirage expansion (R59). -/
namespace Sys2Proof

/-- Exponent bits (R45). -/
def FFmt.ebits : FFmt → Nat
  | .e4m3 => 4 | .e5m2 => 5 | .f16 => 5 | .bf16 => 8 | .f32 => 8 | .f64 => 11
/-- Mantissa bits (R45). -/
def FFmt.mbits : FFmt → Nat
  | .e4m3 => 3 | .e5m2 => 2 | .f16 => 10 | .bf16 => 7 | .f32 => 23 | .f64 => 52
/-- Exponent bias (R45). -/
def FFmt.bias : FFmt → Nat
  | .e4m3 => 7 | .e5m2 => 15 | .f16 => 15 | .bf16 => 127 | .f32 => 127 | .f64 => 1023
/-- The canonical NaN (R45). -/
def FFmt.nan : FFmt → Nat
  | .e4m3 => 0x7F | .e5m2 => 0x7E | .f16 => 0x7E00 | .bf16 => 0x7FC0 | .f32 => 0x7FC00000
  | .f64 => 0x7FF8000000000000
/-- The pattern of the largest finite value (R45). -/
def FFmt.maxPat : FFmt → Nat
  | .e4m3 => 0x7E
  | t => (2 ^ t.ebits - 1) * 2 ^ t.mbits - 1
/-- The sign bit. -/
def FFmt.signBit (t : FFmt) : Nat := 2 ^ (t.width - 1)

end Sys2Proof

namespace Sys2Proof.Machine

/-- The flags of `fflags` (R51). -/
abbrev Fl := BitVec 7
def flNv : Fl := 1
def flDz : Fl := 2
def flOf : Fl := 4
def flUf : Fl := 8
def flNx : Fl := 16
def flQrc : Fl := 32
def flIof : Fl := 64

/-- A flag raised under a condition. -/
def raise (b : Bool) (f : Fl) : Fl := if b then f else 0

/-- The exact value of a float pattern: (−1)^neg × m × 2^e, an infinity or a NaN (R45, R46). -/
inductive FV where
  | nan (signalling : Bool)
  | inf (neg : Bool)
  | fin (neg : Bool) (m : Nat) (e : Int)
  deriving DecidableEq, Repr

/-- The value of a pattern of a format (R45, R46). -/
def decF (t : FFmt) (x : Nat) : FV :=
  let neg := x.testBit (t.width - 1)
  let ex := bitsAt x t.mbits t.ebits
  let man := bitsAt x 0 t.mbits
  let top := ex = 2 ^ t.ebits - 1
  if top ∧ (t ≠ .e4m3 ∨ man = 7) then
    if t ≠ .e4m3 ∧ man = 0 then .inf neg
    else .nan (t ≠ .e4m3 ∧ man < 2 ^ (t.mbits - 1))
  else if ex = 0 then .fin neg man (1 - (t.bias : Int) - t.mbits)
  else .fin neg (2 ^ t.mbits + man) ((ex : Int) - t.bias - t.mbits)

/-- An exact result before rounding: (−1)^neg × n / d × 2^e, an infinity or a NaN. -/
inductive XV where
  | nan
  | inf (neg : Bool)
  | fin (neg : Bool) (n d : Nat) (e : Int)
  deriving DecidableEq, Repr

/-- The value as an exact result, and `nv` for a signalling NaN (R47). -/
def FV.exact : FV → XV × Fl
  | .nan s => (.nan, raise s flNv)
  | .inf n => (.inf n, 0)
  | .fin n m e => (.fin n m 1 e, 0)

def FV.isNan : FV → Bool
  | .nan _ => true
  | _ => false
def FV.isSnan : FV → Bool
  | .nan s => s
  | _ => false
def FV.neg : FV → FV
  | .nan s => .nan s
  | .inf n => .inf (!n)
  | .fin n m e => .fin (!n) m e

/-- Numerator and denominator of n / d × 2^e. -/
def scale2 (n d : Nat) (e : Int) : Nat × Nat :=
  if e ≥ 0 then (n * 2 ^ e.toNat, d) else (n, d * 2 ^ (-e).toNat)

/-- Whether a rounding takes the upper neighbour: quotient `f`, remainder `r` of the division by `d` (R48). -/
def roundsUp (mode : RMode) (neg : Bool) (f r d : Nat) : Bool :=
  match mode with
  | .rne => 2 * r > d || (2 * r == d && f % 2 == 1)
  | .rtz => false
  | .rdn => neg && r != 0
  | .rup => !neg && r != 0
  | .rna => 2 * r ≥ d && r != 0

/-- n / d rounded to an integer, and whether it changed (R44, R48). -/
def divRound (mode : RMode) (neg : Bool) (n d : Nat) : Nat × Bool :=
  let f := n / d
  let r := n % d
  (if roundsUp mode neg f r d then f + 1 else f, r != 0)

/-- RoundInt(y, mode) of a finite exact value (R44): the integer and whether it changed. -/
def roundInt (mode : RMode) (neg : Bool) (n d : Nat) (e : Int) : Int × Bool :=
  let (a, b) := scale2 n d e
  let (m, x) := divRound mode neg a b
  (if neg then -(m : Int) else m, x)

/-- floor(log2(n / d)) of a positive value. -/
def log2Q (n d : Nat) : Int :=
  let l : Int := (n.log2 : Int) - d.log2
  let (a, b) := scale2 n d (-l)
  if a < b then l - 1 else l

/-- The pattern that the overflow table of R49 gives. -/
def overflowPat (t : FFmt) (mode : RMode) (sat neg : Bool) : Nat :=
  let s := if neg then t.signBit else 0
  let toInf : Bool := match mode with
    | .rne | .rna => true
    | .rtz => false
    | .rdn => neg
    | .rup => !neg
  if toInf && !sat then
    if t = .e4m3 then t.nan else s + (2 ^ t.ebits - 1) * 2 ^ t.mbits
  else s + t.maxPat

/-- Round of a finite exact value (R49, R50): the pattern and its flags. -/
def roundFin (t : FFmt) (mode : RMode) (sat neg : Bool) (n d : Nat) (e : Int) : Nat × Fl :=
  let s := if neg then t.signBit else 0
  if n = 0 then (s, 0) else
  let emin : Int := 1 - (t.bias : Int)
  let ex := log2Q n d + e
  let q : Int := if ex < emin then emin - t.mbits else ex - t.mbits
  let (a, b) := scale2 n d (e - q)
  let (m, x) := divRound mode neg a b
  let (m, q) := if m ≥ 2 ^ (t.mbits + 1) then (m / 2, q + 1) else (m, q)
  -- the pattern's exponent field: 0 for a subnormal
  let ef : Int := if m < 2 ^ t.mbits then 0 else q + t.mbits + t.bias
  let pat := if m < 2 ^ t.mbits then m else ef.toNat * 2 ^ t.mbits + (m - 2 ^ t.mbits)
  if pat > t.maxPat then (overflowPat t mode sat neg, flOf ||| flNx)
  else
    -- tininess after rounding (R50): rounded with an unbounded exponent, the result lies below 2^emin
    let (a', b') := scale2 n d (e - (ex - t.mbits))
    let (m', _) := divRound mode neg a' b'
    let tiny := ex < emin - 1 || (ex == emin - 1 && m' < 2 ^ (t.mbits + 1))
    (s + pat, raise x flNx ||| raise (tiny && x) flUf)

/-- Round(x, mode, fmt) (R49). -/
def round (t : FFmt) (mode : RMode) (sat : Bool) : XV → Nat × Fl
  | .nan => (t.nan, 0)
  | .inf neg =>
    if t = .e4m3 then
      if sat then (t.maxPat + (if neg then t.signBit else 0), 0) else (t.nan, flNv)
    else ((if neg then t.signBit else 0) + (2 ^ t.ebits - 1) * 2 ^ t.mbits, 0)
  | .fin neg n d e => roundFin t mode sat neg n d e

/-- A rounded result with flags raised before the rounding. -/
def roundX (t : FFmt) (mode : RMode) (sat : Bool) (x : XV × Fl) : Nat × Fl :=
  let (p, f) := round t mode sat x.1
  (p, f ||| x.2)

/-- The exact product (R49, R60): NaN and `nv` for 0 × ∞, the sign the XOR of the signs. -/
def mulF (a b : FV) : FV × Fl :=
  match a, b with
  | .nan s, y => (.nan false, raise (s || y.isSnan) flNv)
  | x, .nan s => (.nan false, raise (s || x.isSnan) flNv)
  | .inf n, .inf m => (.inf (n != m), 0)
  | .inf n, .fin m k _ => if k = 0 then (.nan false, flNv) else (.inf (n != m), 0)
  | .fin n k _, .inf m => if k = 0 then (.nan false, flNv) else (.inf (n != m), 0)
  | .fin n k e, .fin m l f => (.fin (n != m) (k * l) (e + f), 0)

/-- The least exponent of the finite terms, at most `e`. -/
def minExp (ts : List FV) (e : Int) : Int :=
  ts.foldl (fun acc t => match t with | .fin _ _ f => if f < acc then f else acc | _ => acc) e

/-- The exact sum of the finite terms in units of 2^e. -/
def sumFin (ts : List FV) (e : Int) : Int :=
  ts.foldl (fun acc t => match t with
    | .fin n m f => let v : Int := (m * 2 ^ (f - e).toNat : Nat); if n then acc - v else acc + v
    | _ => acc) 0

/-- The exact sum of terms (R49, R60): NaN for ∞ − ∞ and any NaN term, and the sign rules of a zero sum. A quiet NaN beside +∞ and
−∞ sets no `nv`: R60 gives the terms no order (log 86). -/
def sumF (mode : RMode) (ts : List FV) : XV × Fl :=
  let nv := raise (ts.any FV.isSnan) flNv
  if ts.any FV.isNan then (.nan, nv)
  else
    let p := ts.any (· == .inf false)
    let n := ts.any (· == .inf true)
    if p && n then (.nan, flNv)
    else if p then (.inf false, 0)
    else if n then (.inf true, 0)
    else
      let e := minExp ts (match ts with | .fin _ _ f :: _ => f | _ => 0)
      let z := sumFin ts e
      if z = 0 then
        let allNeg := ts.all fun t => match t with | .fin n m _ => n && m == 0 | _ => false
        let allPos := ts.all fun t => match t with | .fin n m _ => !n && m == 0 | _ => false
        (.fin (if allPos then false else if allNeg then true else mode == .rdn) 0 1 0, 0)
      else (.fin (z < 0) z.natAbs 1 e, 0)

/-- a + b, exactly. -/
def addF (mode : RMode) (a b : FV) : XV × Fl := sumF mode [a, b]

/-- a × b, exactly, as a value to be rounded. -/
def mulX (a b : FV) : XV × Fl :=
  let (p, f) := mulF a b
  (p.exact.1, f)

/-- a × b + c, exactly (R300): `nv` of 0 × ∞ stays even when c is a quiet NaN. -/
def fmaF (mode : RMode) (a b c : FV) : XV × Fl :=
  let (p, f) := mulF a b
  let (x, g) := sumF mode [p, c]
  (x, f ||| g)

/-- a / b, exactly (R300). -/
def divF (a b : FV) : XV × Fl :=
  match a, b with
  | .nan s, y => (.nan, raise (s || y.isSnan) flNv)
  | x, .nan s => (.nan, raise (s || x.isSnan) flNv)
  | .inf _, .inf _ => (.nan, flNv)
  | .inf n, .fin m _ _ => (.inf (n != m), 0)
  | .fin n _ _, .inf m => (.fin (n != m) 0 1 0, 0)
  | .fin n k e, .fin m l f =>
    if l = 0 then if k = 0 then (.nan, flNv) else (.inf (n != m), flDz)
    else (.fin (n != m) k l (e - f), 0)

/-- The integer square root of `x`, from bit `k` down: the greatest r with r² ≤ x whose bits above k are those of
`acc`. -/
def isqrtFrom (x acc : Nat) : Nat → Nat
  | 0 => if (acc + 1) * (acc + 1) ≤ x then acc + 1 else acc
  | k + 1 =>
    let r := acc + 2 ^ (k + 1)
    isqrtFrom x (if r * r ≤ x then r else acc) k

/-- √a (R300), in enough bits that one rounding to any format of R45 is right: an inexact root is given by a value
strictly between its two neighbours. -/
def sqrtF (a : FV) : XV × Fl :=
  match a with
  | .nan s => (.nan, raise s flNv)
  | .inf true => (.nan, flNv)
  | .inf false => (.inf false, 0)
  | .fin n m e =>
    if m = 0 then (.fin n 0 1 0, 0)
    else if n then (.nan, flNv)
    else
      let sh : Nat := if (e - 120) % 2 = 0 then 120 else 121
      let x := m * 2 ^ sh
      let r := isqrtFrom x 0 (x.log2 / 2 + 1)
      let h := (e - sh) / 2
      if r * r = x then (.fin false r 1 h, 0) else (.fin false (2 * r + 1) 1 (h - 1), 0)

/-- The reciprocal estimate (R301). -/
def rcpeF (t : FFmt) (a : FV) : Nat × Fl :=
  match a with
  | .nan s => (t.nan, raise s flNv)
  | .inf n => ((if n then t.signBit else 0), 0)
  | .fin n m e =>
    if m = 0 then roundX t .rne false (.inf n, flDz)
    else
      let ex := log2Q 1 m
      let (a, b) := scale2 1 m (7 - ex)
      let (r, _) := divRound .rne false a b
      let (p, f) := roundFin t .rne false n r 1 (ex - 7 - e)
      (p, f &&& (flOf ||| flUf))

/-- Total order of two values that are no NaN, −0 below +0 (R302). -/
def ltTotal (a b : FV) : Bool :=
  let key : FV → Int × Nat × Nat := fun v => match v with
    | .inf true => (-2, 0, 0) | .inf false => (2, 0, 0)
    | _ => (0, 0, 0)
  match a, b with
  | .fin n k e, .fin m l f =>
    if k = 0 ∧ l = 0 then n && !m
    else
      let x := sumFin [a, .fin (!m) l f] (minExp [a, b] e)
      x < 0
  | _, _ => (key a).1 < (key b).1

/-- a < b, with −0 = +0 (R304). -/
def ltF (a b : FV) : Bool :=
  match a, b with
  | .fin _ 0 _, .fin _ 0 _ => false
  | _, _ => ltTotal a b

/-- a = b, with −0 = +0 (R304). -/
def eqF (a b : FV) : Bool := !a.isNan && !b.isNan && !ltF a b && !ltF b a

/-- `fmin` and `fmax` on patterns (R302). -/
def minMaxF (t : FFmt) (wantMax : Bool) (x y : Nat) : Nat × Fl :=
  let a := decF t x
  let b := decF t y
  let fl := raise (a.isSnan || b.isSnan) flNv
  if a.isNan && b.isNan then (t.nan, fl)
  else if a.isNan then (y, fl)
  else if b.isNan then (x, fl)
  else if ltTotal a b then (if wantMax then y else x, fl)
  else (if wantMax then x else y, fl)

/-- `fcmp` (R304). -/
def cmpF (c : FCond) (a b : FV) : Bool × Fl :=
  let un := a.isNan || b.isNan
  let sn := raise (a.isSnan || b.isSnan) flNv
  match c with
  | .eq => (eqF a b, sn)
  | .ne => (!eqF a b, sn)
  | .lt => (!un && ltF a b, raise un flNv)
  | .ge => (!un && !ltF a b, raise un flNv)
  | .un => (un, sn)
  | .or => (!un, sn)

/-- The class of a pattern (R305). -/
def classF (t : FFmt) (x : Nat) : Nat :=
  match decF t x with
  | .nan s => if s then 8 else 9
  | .inf n => if n then 0 else 7
  | .fin n m _ =>
    if m = 0 then (if n then 3 else 4)
    else if m < 2 ^ t.mbits then (if n then 2 else 5)
    else (if n then 1 else 6)

/-- `fround` (R306). -/
def roundIntegral (t : FFmt) (mode : RMode) (x : Nat) : Nat × Fl :=
  match decF t x with
  | .nan s => (t.nan, raise s flNv)
  | .inf _ => (x, 0)
  | .fin n m e =>
    if m = 0 then (x, 0)
    else
      let (z, ch) := roundInt mode n m 1 e
      ((round t mode false (.fin n z.natAbs 1 0)).1, raise ch flNx)

/-- Float to float (rules X and F of R55). -/
def cvtFF (t : FFmt) (mode : RMode) (sat : Bool) (v : FV) : Nat × Fl := roundX t mode sat v.exact

/-- Float to integer between bounds (rule G of R55). -/
def cvtFI (lo hi : Int) (mode : RMode) (v : FV) : Int × Fl :=
  match v with
  | .nan _ => (0, flNv)
  | .inf n => (if n then lo else hi, flNv)
  | .fin n m e =>
    let (z, ch) := roundInt mode n m 1 e
    if z < lo then (lo, flNv) else if z > hi then (hi, flNv) else (z, raise ch flNx)

/-- Integer to float (rule I of R55). -/
def cvtIF (t : FFmt) (mode : RMode) (z : Int) : Nat × Fl := round t mode false (.fin (z < 0) z.natAbs 1 0)

/-- The parameter word of a q-group (R43): zero point and scale. -/
def qZp (p : Nat) : Nat := bitsAt p 16 8
def qScale (p : Nat) : FV := decF .f16 (bitsAt p 0 16)

/-- scale × (q − zp), exactly (R44). -/
def dequant (p q : Nat) : XV × Fl :=
  let z : Int := (q : Int) - qZp p
  match qScale p with
  | .nan s => (.nan, raise s flNv)
  | .inf n => if z = 0 then (.nan, flNv) else (.inf (n != decide (z < 0)), 0)
  | .fin n m e => (.fin (n != decide (z < 0)) (m * z.natAbs) 1 e, 0)

/-- The code of a value (R44). -/
def quant (bits : Nat) (mode : RMode) (p : Nat) (v : FV) : Nat × Fl :=
  let zp := qZp p
  let top : Int := 2 ^ bits - 1
  let cap (z : Int) : Nat := (if z < 0 then 0 else if z > top then top else z).toNat
  match qScale p, v with
  | .fin sn sm se, .fin n m e =>
    if sm = 0 then (cap zp, flNv)
    else
      let (z, ch) := roundInt mode (n != sn) m sm (e - se)
      (cap (z + zp), raise ch flNx)
  | .fin sn sm _, .inf n =>
    if sm = 0 then (cap zp, flNv) else (if n != sn then 0 else top.toNat, flNv)
  | _, _ => (cap zp, flNv)

/-- An i4s element (R42): its value, and `qrc` for the reserved code. -/
def decI4s (x : Nat) : Int × Fl := if x % 16 = 8 then (0, flQrc) else (sgn 4 (x % 16), 0)

/-- +1 or −1 by the generator's bit (R59). -/
def basis (seed : Word) (t : Nat) : Bool := lfsr seed t

/-- ±1 × x: the sign of a value changed where the bit is 1. -/
def signBy (b : Bool) (x : FV) : FV := if b then x.neg else x

/-- The flags of NaN inputs and one rounding, over a list of results. -/
def orFlags (l : List Fl) : Fl := l.foldl (· ||| ·) 0

end Sys2Proof.Machine
end

