-- ==== Sys2Proof/Machine/Operands.lean ====
section
/-! DEFINITION. The registers of a context: reads and writes with ring rotation (R217), results in flight (R213, R214), the
operand forms of 08, special registers (R210), and the trace buffer (R442 to R444). -/
namespace Sys2Proof.Machine

/-! ## Contexts -/

def coreOf (c : Nat) : Nat := c / 4
def clusterOf (c : Nat) : Nat := c / 32
def dieOf (c : Nat) : Nat := c / 192

def ctxOf (s : State) (c : Nat) : Ctx := SMap.getD s.ctx c {}
def setCtx (s : State) (c : Nat) (x : Ctx) : State := { s with ctx := SMap.set s.ctx c x }
def updCtx (s : State) (c : Nat) (f : Ctx → Ctx) : State := setCtx s c (f (ctxOf s c))
/-- The context whose bundle issues. -/
def cc (s : State) : Ctx := ctxOf s s.cur
def upd (s : State) (f : Ctx → Ctx) : State := updCtx s s.cur f

def taskOf (s : State) (c : Nat) : Task := (ctxOf s c).task.getD {}
def asidOf (s : State) (c : Nat) : Nat := (taskOf s c).asid
def queueOf (s : State) (c : Nat) : Option Nat := (ctxOf s c).task.map fun t => t.queue

/-! ## Rings (R217) -/

/-- The register that a field names while a loop is active. -/
def ringMap (x : Ctx) (f : RingFile) (r : Nat) : Nat :=
  if x.loop.active then
    match x.loop.rings.find? fun g => g.file == f && g.base ≤ r && r < g.base + g.len with
    | some g => g.base + (r - g.base + x.loop.i) % g.len
    | none => r
  else r

/-! ## Reads: a bundle reads what has landed (R213) -/

/-- An s register; s0 reads 0. -/
def rdS (x : Ctx) (r : SReg) : Word :=
  let n := ringMap x .s r.toNat
  if n = 0 then 0 else x.s.toList.getD n 0

/-- A predicate; p0 is true. -/
def rdP (x : Ctx) (p : BitVec 3) : Bool := p == 0 || x.p.getLsbD p.toNat

def rdG (x : Ctx) (g : GReg) : Vec := x.g.toList.getD (ringMap x .g g.toNat) 0

/-- A register field of a V syllable (R231). -/
def rdV (x : Ctx) (u : VSlot) (r : VReg) : Vec :=
  match r, u with
  | .g n, _ => rdG x n
  | .own n, .v0 => x.v.toList.getD (ringMap x .v n.toNat) 0
  | .own n, .v1 => x.w.toList.getD (ringMap x .w n.toNat) 0

/-- A mask of the slot's file; k0 and j0 select all lanes. -/
def rdK (x : Ctx) (u : VSlot) (k : BitVec 3) : Mask :=
  if k == 0 then BitVec.allOnes 256
  else match u with
    | .v0 => x.k.toList.getD k.toNat 0
    | .v1 => x.j.toList.getD k.toNat 0

/-- The rounding mode of an operation (R48, R53). -/
def rmOf (x : Ctx) (r : Rnd) : RMode :=
  match r with
  | .mode m => m
  | .dyn => match bitsAt x.fctl.toNat 0 3 with
    | 1 => .rtz | 2 => .rdn | 3 => .rup | 4 => .rna | _ => .rne

/-! ## Results in flight (R213, R214) -/

def dstS (x : Ctx) (r : SReg) : Dst := .s (BitVec.ofNat 6 (ringMap x .s r.toNat))
def dstG (x : Ctx) (g : GReg) : Dst := .g (BitVec.ofNat 4 (ringMap x .g g.toNat))
def dstV (x : Ctx) (u : VSlot) (r : VReg) : Dst :=
  match r, u with
  | .g n, _ => dstG x n
  | .own n, .v0 => .v .v0 (BitVec.ofNat 5 (ringMap x .v n.toNat))
  | .own n, .v1 => .v .v1 (BitVec.ofNat 5 (ringMap x .w n.toNat))

/-- A write into a g register adds 1 to the bound (R213). -/
def Dst_extra : Dst → Nat
  | .g _ => 1
  | _ => 0

/-- The writes whose bounds have not expired at the position to be issued, and one more (R214). -/
def wrote (x : Ctx) (d : Dst) (bound : Nat) : List (Dst × Nat × Nat) :=
  (x.recent.filter fun r => x.pos < r.2.2) ++ [(d, x.pos, x.pos + bound + Dst_extra d)]

/-- A result put in flight at the bundle that issues. -/
def fly (x : Ctx) (d : Dst) (v : Vec) (fl : Fl) (bound : Nat) : Ctx :=
  { x with flights := x.flights ++ [{ dst := d, val := v, flags := fl, pos := x.pos, bound := bound + Dst_extra d }]
           recent := wrote x d bound }

/-- A load that delivers poison in place of a result (R108). -/
def flyPoison (x : Ctx) (d : Dst) (va : Word) (akind bound : Nat) : Ctx :=
  { x with flights := x.flights ++ [{ dst := d, val := 0, pos := x.pos, bound := bound + Dst_extra d, poison := some va, akind := akind }]
           recent := wrote x d bound }

/-- A load put in flight, its pieces not performed yet (R131, R213). -/
def flyLoad (x : Ctx) (d : Dst) (parts : List LoadPart) (ext : Option Width) (akind bound : Nat) (acq : Option Nat) : Ctx :=
  { x with flights := x.flights ++ [{ dst := d, pos := x.pos, bound := bound + Dst_extra d, akind := akind, parts := parts, ext := ext, acq := acq }]
           recent := wrote x d bound }

def flyS (x : Ctx) (r : SReg) (v : Word) (bound : Nat) : Ctx := fly x (dstS x r) (v.setWidth 2048) 0 bound

/-- Bytes of an access width (R250). -/
def Width_bytes : Width → Nat
  | .d64 => 8 | .i8 | .n8 => 1 | .i16 | .n16 => 2 | .i32 | .n32 => 4
/-- log2 of the bytes. -/
def Width_lg : Width → Nat
  | .d64 => 3 | .i8 | .n8 => 0 | .i16 | .n16 => 1 | .i32 | .n32 => 2
/-- The loaded value, extended (R279). -/
def Width_ext (w : Width) (x : Nat) : Word :=
  match w with
  | .i8 => (BitVec.ofNat 8 x).signExtend 64
  | .i16 => (BitVec.ofNat 16 x).signExtend 64
  | .i32 => (BitVec.ofNat 32 x).signExtend 64
  | _ => BitVec.ofNat 64 x

/-- A piece of a load has been performed. -/
def LoadPart_here (p : LoadPart) : Bool := p.got.isSome
/-- A result has arrived: it may land. -/
def Flight_here (f : Flight) : Bool := f.acq.isNone && f.parts.all LoadPart_here
/-- The bytes of a load's pieces as one number. -/
def Flight_num (f : Flight) : Nat :=
  f.parts.foldl (fun n p => match p.got with | some (b, _) => n + ofLe b * 2 ^ (8 * p.off) | none => n) 0
/-- The value that a result lands with: a load's is that of its pieces. -/
def Flight_val (f : Flight) : Vec :=
  if f.parts.isEmpty then f.val
  else match f.ext with
    | some w => (Width_ext w (Flight_num f)).setWidth 2048
    | none => BitVec.ofNat 2048 (Flight_num f)
/-- Every result in flight of a context has arrived. -/
def allHere (x : Ctx) : Bool := x.flights.all Flight_here
/-- An acquire of the context is not performed yet (R134). -/
def acquiring (x : Ctx) : Bool := x.flights.any fun f => f.acq.isSome

/-- The register write of a landing result; a write to s0, p0, k0 or j0 is discarded (R209). -/
def landVal (x : Ctx) (d : Dst) (v : Vec) : Ctx :=
  match d with
  | .none => x
  | .s n => if n == 0 then x else { x with s := x.s.set n.toNat (v.setWidth 64) n.isLt }
  | .p n => if n == 0 then x
    else { x with p := (x.p &&& ~~~(1#8 <<< n.toNat)) ||| (if v.getLsbD 0 then 1#8 <<< n.toNat else 0) }
  | .v .v0 n => { x with v := x.v.set n.toNat v n.isLt }
  | .v .v1 n => { x with w := x.w.set n.toNat v n.isLt }
  | .k .v0 n => if n == 0 then x else { x with k := x.k.set n.toNat (v.setWidth 256) n.isLt }
  | .k .v1 n => if n == 0 then x else { x with j := x.j.set n.toNat (v.setWidth 256) n.isLt }
  | .g n => { x with g := x.g.set n.toNat v n.isLt }

/-- A result lands: its register is written and its flags are ORed in (R52). Poison writes no register (R108). -/
def landOne (x : Ctx) (f : Flight) : Ctx :=
  match f.poison with
  | some _ => x
  | none => { landVal x f.dst (Flight_val f) with fflags := x.fflags ||| f.flags.setWidth 64 }

/-- A result that lands now: it has arrived, and delivers no poison. -/
def mayLand (f : Flight) : Bool := Flight_here f && f.poison.isNone

/-- Every result in flight that has arrived lands, in issue order; a load that delivers poison goes on to its trap (R108). -/
def landAll (x : Ctx) : Ctx :=
  { (x.flights.filter mayLand).foldl landOne x with flights := x.flights.filter fun f => !mayLand f }

/-- Results whose bound has expired at the position to be issued. -/
def expired (x : Ctx) (f : Flight) : Bool := f.pos + f.bound ≤ x.pos
/-- The results whose bound has expired, and that have arrived, land (R213). -/
def landExpired (x : Ctx) : Ctx :=
  { (x.flights.filter fun f => expired x f && mayLand f).foldl landOne x with
    flights := x.flights.filter fun f => !(expired x f && mayLand f) }
/-- A bound has expired whose result has not arrived: the context blocks (R207, R213). -/
def overdue (x : Ctx) : Bool := x.flights.any fun f => expired x f && !Flight_here f

/-- Late writes of a bundle take effect after it (R278, R342). -/
def applyLate (x : Ctx) (l : Late) : Ctx :=
  match l with
  | .bind n b => { x with b := x.b.set n.toNat (some b) n.isLt }
  | .loop l => { x with s := (((x.s.set 56 0).set 57 0).set 58 0).set 59 0, loop := l }
  | .spec r v =>
    match r with
    | .ctxid | .coreid | .clk | .lidx | .ev _ => x
    | .fctl => { x with fctl := if bitsAt v.toNat 0 3 ≥ 5 then 0 else v &&& 7 }
    | .fflags => { x with fflags := v &&& 0x7F }
    | .tpc => { x with tpc := v }
    | .tva => { x with tva := v }
    | .tcause => { x with tcause := v &&& 0x800000F000FF00FF }
    | .tstat => { x with tstat := v &&& 0x0000FFFFF0000F0F }
    | .tcmd => { x with tcmd := v }
    | .wdog => { x with wdog := v }
    | .lb => { x with loop := { x.loop with lb := v &&& 0x00FFFFFFFFFFFFFF } }
    | .le => { x with loop := { x.loop with le := v &&& 0x00FFFFFFFFFFFFFF } }
    | .lc n => { x with loop := { x.loop with lc := x.loop.lc.set n.toNat (v.setWidth 32) n.isLt } }
    | .xstat => { x with xstat := v &&& 0x7FFFFFFFF }

/-- A special register as `mfsr` reads it (R277). -/
def rdSpec (s : State) (c : Nat) (r : SpecReg) : Word :=
  let x := ctxOf s c
  match r with
  | .ctxid => BitVec.ofNat 64 (c % 4)
  | .coreid => BitVec.ofNat 64 (coreOf c)
  | .clk => BitVec.ofNat 64 s.clk
  | .fctl => x.fctl
  | .fflags => x.fflags
  | .tpc => x.tpc
  | .tva => x.tva
  | .tcause => x.tcause
  | .tstat => x.tstat
  | .tcmd => x.tcmd
  | .wdog => x.wdog
  | .lb => x.loop.lb
  | .le => x.loop.le
  | .lc n => (x.loop.lc.toList.getD n.toNat 0).setWidth 64
  | .lidx => BitVec.ofNat 64 x.loop.i
  | .ev n => (x.ev.toList.getD n.toNat 0).setWidth 64
  | .xstat => x.xstat

/-! ## Immediates and offsets (R229) -/

/-- The offset of a memory operand: SignExtend(aux, 13) × 2^12 + SignExtend(imm12, 12). -/
def memOff (m : MemOp) : Word := (m.aux.signExtend 64 <<< 12) + m.imm.signExtend 64
/-- The address of a memory operand. -/
def memAddr (x : Ctx) (m : MemOp) : Word := rdS x m.a + memOff m

/-- Coordinates of a tile operand: the low 16 bits of each register decide after R73's range check on the value. -/
def tileCoords (x : Ctx) (t : TileOp) : List Nat := t.sregs.map fun r => (rdS x r).toNat

/-! ## Trace (R442 to R444) -/

def trReg (core off : Nat) : Nat := 0xF00001400000 + 0x100 * core + off
def traceOf (s : State) (core : Nat) : Trace := SMap.getD s.trace core {}

/-- The buffer frozen where the count of further entries has run out (R444). -/
def trFreeze (s : State) (core : Nat) : State :=
  match (traceOf s core).post with
  | some 0 =>
    let s := devSet s (trReg core 0) (devGet s (trReg core 0) ||| 0x4000000000000000)
    { s with trace := SMap.modify s.trace core {} fun t => { t with post := none } }
  | _ => s

/-- TRACE_RECORD: an entry of a kind that is always recorded while the buffer is enabled and not frozen. -/
def trRec (s : State) (c kind addr info : Nat) : State :=
  let core := coreOf c
  let ctl := devGet s (trReg core 0)
  if ctl.getLsbD 63 && !ctl.getLsbD 62 then
    let p := bitsAt ctl.toNat 0 12
    let e := BitVec.ofNat 128 (kind * 2 ^ 120 + (c % 4) * 2 ^ 118 + addr % 2 ^ 56 * 2 ^ 56 + info % 256 * 2 ^ 48 + s.clk % 2 ^ 48)
    let s := devSet s (trReg core 0) ((ctl &&& ~~~0xFFF#64) ||| BitVec.ofNat 64 ((p + 1) % 4096))
    let s := { s with trace := SMap.modify s.trace core {} fun t =>
      { ent := SMap.set t.ent p e, post := t.post.map fun n => n - 1 } }
    trFreeze s core
  else s

/-- An entry of the ctl group (R443). -/
def trCtl (s : State) (c kind addr info : Nat) : State :=
  if (devGet s (trReg (coreOf c) 0)).getLsbD 61 then trRec s c kind addr info else s

/-- TRACE_TRIGGER_FIRE (R444): trigger n, where it is armed. -/
def trFire (s : State) (core n : Nat) : State :=
  let ctl := devGet s (trReg core 0)
  if (devGet s (trReg core 8)).getLsbD n && !ctl.getLsbD 62 && (traceOf s core).post.isNone then
    trFreeze { s with trace := SMap.modify s.trace core {} fun t => { t with post := some (bitsAt ctl.toNat 12 12) } } core
  else s

/-- A compare of R444: bit 0 of `cmp` for fetches, bit 1 for data accesses. -/
def trCompare (s : State) (c bit : Nat) (va : Nat) : State :=
  let core := coreOf c
  let cmp := devGet s (trReg core 0x10)
  if (devGet s (trReg core 0)).getLsbD (58 + bit) && bitsAt cmp.toNat 0 56 = va % 2 ^ 56 then
    trFire s core (bitsAt cmp.toNat 56 6)
  else s

/-- A data access in the trace (R443, R444): kinds 4 to 6, with log2 of the width. -/
def trMem (s : State) (c kind va lg : Nat) : State :=
  let s := if (devGet s (trReg (coreOf c) 0)).getLsbD 60 then trRec s c kind va lg else s
  trCompare s c 1 va

/-- The landing-overlap code of a register (R443). -/
def Dst_code : Dst → Option Nat
  | .s n => some n.toNat
  | .v .v0 n => some (64 + n.toNat)
  | .v .v1 n => some (128 + n.toNat)
  | .g n => some (192 + n.toNat)
  | _ => none

/-- A write to a register before the bound of an earlier write to it has expired (R214). -/
def overlaps (x : Ctx) (d : Dst) : Bool := x.recent.any fun r => r.1 == d && r.2.1 < x.pos && x.pos < r.2.2

/-- The overlap that a new result makes with an earlier write, in the trace (R214, R443). Predicates and masks have no register
file code there: the entry's info is free for them (log 85). -/
def trOverlap (s : State) (d : Dst) : State :=
  if overlaps (cc s) d then
    match d, Dst_code d with
    | .none, _ => s
    | _, some n => trRec s s.cur 7 (cc s).pc.toNat n
    | _, none => let (n, s) := draw s; trRec s s.cur 7 (cc s).pc.toNat (Config.choose n % 256)
  else s

/-- A result put in flight by the issuing context (R213, R214). -/
def emit (s : State) (d : Dst) (v : Vec) (fl : Fl) (bound : Nat) : State :=
  upd (trOverlap s d) fun x => fly x d v fl bound

/-- A scalar result put in flight. -/
def emitS (s : State) (r : SReg) (v : Word) (bound : Nat) : State :=
  emit s (dstS (cc s) r) (v.setWidth 2048) 0 bound

end Sys2Proof.Machine
end

