-- ==== Sys2Proof/Machine/Fabric.lean ====
section
/-! DEFINITION. What leaves the package over Flecen: packets into a die's gateway (R176, R179, R184), flits onto a port
(R171 to R173), destination lists (R143) and the requests that a context awaits (R177, R178). -/
namespace Sys2Proof.Machine

def portOf (s : State) (p : Nat) : Port := SMap.getD s.fab.port p {}
def setPort (s : State) (p : Nat) (f : Port → Port) : State :=
  { s with fab := { s.fab with port := SMap.set s.fab.port p (f (portOf s p)) } }
def gwOf (s : State) (d : Nat) : Gw := SMap.getD s.fab.gw d {}
def setGw (s : State) (d : Nat) (f : Gw → Gw) : State :=
  { s with fab := { s.fab with gw := SMap.set s.fab.gw d (f (gwOf s d)) } }

/-- The virtual channel of a packet type (R177). -/
def vcOf (ty : Nat) : Nat :=
  match ty with
  | 3 | 4 | 6 | 8 | 13 | 14 => 1
  | 10 | 11 | 12 => 2
  | 15 => 3
  | _ => 0

/-! ## The bytes of packets and flits (R171, R176) -/

/-- The bytes of a tile message, of which the spec gives no layout (log 20). -/
def tileBytes (m : TileMsg) : List Byte :=
  leBytes m.tile.asid 2 ++ leBytes m.tile.tensor 4 ++ leBytes m.tile.co.length 2 ++ m.tile.co.flatMap (fun c => leBytes c 2)
    ++ leBytes m.ver 2 ++ leBytes m.ctx 2 ++ leBytes m.fid 8 ++ leBytes m.kind 1 ++ leBytes (if m.psn then 1 else 0) 1
    ++ leBytes m.pkg 2 ++ leBytes m.part 2 ++ leBytes m.parts 2 ++ m.rows.flatMap fun r => leBytes r.1 2 ++ leBytes r.2.toNat 256
/-- The data bytes that a packet carries. -/
def pktData (k : Packet) : List Byte :=
  match k.tile with | some m => tileBytes m | none => k.data

/-- Flits of a packet: a 32-byte header, the data, an 8-byte tag, in 256-byte payloads (R176). -/
def nflits (k : Packet) : Nat := (32 + (pktData k).length + 8 + 255) / 256

/-- The packet header (R176). -/
def pktHeader (k : Packet) : Nat :=
  let n (x w lo : Nat) : Nat := x % 2 ^ w * 2 ^ lo
  n k.ty 4 252 + n k.dst 14 238 + n k.src 14 224 + n k.sctx 10 214 + n (nflits k - 1) 4 210
    + n (match k.tile with | some m => (tileBytes m).length | none => k.len) 12 198 + n k.op 6 192 + n k.eseq 32 160
    + n k.path 16 144 + n k.grp 16 128 + n (packN 1 (fun i => if k.bmask.getD i false then 1 else 0) 64) 64 64
    + n (if k.psn then 1 else 0) 1 48 + n k.addr 48 0
/-- What the end-to-end tag covers: the header, the data and the zero padding. -/
def pktBody (k : Packet) : List Byte :=
  let b := leBytes (pktHeader k) 32 ++ pktData k
  b ++ List.replicate (256 * nflits k - 8 - b.length) 0
/-- The end-to-end tag: CRC-64 with the ECMA-182 polynomial (R176, log 81). -/
def pktTag (k : Packet) : BitVec 64 := BitVec.ofNat 64 (crcOf 64 0x42F0E1EBA9EA3693 (pktBody k))
def sealPkt (k : Packet) : Packet := { k with tag := pktTag k }
/-- The tag check of a destination (R179). -/
def tagOk (k : Packet) : Bool := k.tag == pktTag k

/-- The payload of a flit: 256 bytes of its packet, which ends with the tag. -/
def flitData (f : Flit) : List Byte :=
  match f.nul, f.pkt with
  | false, some k => ((pktBody k ++ leBytes k.tag.toNat 8).drop (256 * f.part)).take 256
  | _, _ => List.replicate 256 0
/-- Bits [95:0] of a flit's header (R171). -/
def flitHeader (f : Flit) : Nat :=
  let n (x w lo : Nat) : Nat := x % 2 ^ w * 2 ^ lo
  let b (x : Bool) (lo : Nat) : Nat := if x then 2 ^ lo else 0
  n f.lseq 12 84 + n f.lack 12 72 + b f.ackv 71 + b f.nul 70 + n f.vc 2 68 + n f.cvc 2 66 + n f.cinc 6 60 + b f.sop 59 + b f.eop 58
    + b f.rpl 57
/-- The CRC-32C of a flit, over header bits [95:0] and the payload (R171, log 81). -/
def flitCrc (f : Flit) : BitVec 32 := BitVec.ofNat 32 (crcOf 32 0x1EDC6F41 (leBytes (flitHeader f) 12 ++ flitData f))
def sealFlit (f : Flit) : Flit := { f with crc := flitCrc f }
/-- A receiver's CRC check (R173). -/
def crcOk (f : Flit) : Bool := f.crc == flitCrc f
/-- The 272 bytes of a flit on the link (R171). -/
def flitImage (f : Flit) : List Byte := leBytes (flitHeader f) 12 ++ leBytes f.crc.toNat 4 ++ flitData f

/-- The flits of a packet, on one channel, contiguous (R172). -/
def flitsOf (k : Packet) : List Flit :=
  let n := nflits k
  (List.range n).map fun i => { vc := vcOf k.ty, sop := i == 0, eop := i + 1 == n, pkt := some k, part := i }

/-- The credits that the next flit returns (R171, R172): channel and count. -/
def creditsDue (x : Port) : Nat × Nat :=
  match (List.range 4).find? fun v => x.give.toList.getD v 0 != 0 with
  | some v => (v, min 63 (x.give.toList.getD v 0))
  | none => (0, 0)
/-- A count of a channel changed. -/
def vcSet (v : Vector Nat 4) (i : Nat) (f : Nat → Nat) : Vector Nat 4 := if h : i < 4 then v.set i (f v[i]) h else v

/-- The first waiting flit that may be sent: a nul flit, or one of a channel with a credit; a channel keeps its order. The
flits before it, the flit, those after it. -/
def nextFlit (x : Port) : List Nat → List Flit → Option (List Flit × Flit × List Flit)
  | _, [] => none
  | shut, f :: l =>
    if f.nul || (!shut.contains f.vc && x.credit.toList.getD f.vc 0 > 0) then some ([], f, l)
    else (nextFlit x (f.vc :: shut) l).map fun (a, g, b) => (f :: a, g, b)

/-- One flit sent, where the port is active, its channel has a credit and the retry buffer has room (R172, R173). -/
def portSend1 (x : Port) : Port :=
  match nextFlit x [] x.txq with
  | none => x
  | some (a, f, b) =>
    if x.state = 2 && x.retry.length < 4095 then
      let n := (x.lseq + 1) % 4096
      let (v, k) := creditsDue x
      { x with
        txq := a ++ b, lseq := n
        credit := if f.nul then x.credit else vcSet x.credit f.vc fun c => c - 1
        give := vcSet x.give v fun c => c - k
        retry := x.retry ++ [sealFlit { f with lseq := n, lack := x.rseq, ackv := true, cvc := v, cinc := k, rpl := x.wantRpl }]
        wantRpl := false, unacked := 0 }
    else x

/-- The flits of the retry buffer sent again (R173): each with its original credits and the present acknowledgement. -/
def replayAll (x : Port) : Port :=
  { x with retry := x.retry.map fun f => sealFlit { f with lack := x.rseq, ackv := true }
           rpl := bump x.rpl x.retry.length, unacked := if x.retry.isEmpty then x.unacked else 0 }

/-- Every waiting flit that can be sent now. -/
def portPump (x : Port) : Nat → Port
  | 0 => x
  | n + 1 => portPump (portSend1 x) n

/-- A packet's flits queued on a port. -/
def portQueue (s : State) (p : Nat) (k : Packet) : State :=
  setPort s p fun x => let x := { x with txq := x.txq ++ flitsOf k }; portPump x x.txq.length

/-- The port that a packet leaves a die by: a hash of (dst, addr[47:12]) (R184, log 18), among the ports that are up. -/
def portFor (s : State) (d : Nat) (k : Packet) : Nat :=
  let all := (List.range 5).map fun i => 5 * d + i
  let up := all.filter fun p => (portOf s p).state != 0
  let l := if up.isEmpty then all else up
  l.getD ((k.dst + k.addr / 4096) % l.length) (5 * d)

/-- The end-to-end buffer of a die is full (R179). -/
def gwFull (s : State) (d : Nat) : Bool := (gwOf s d).buf.length ≥ 8192 || !(gwOf s d).wait.isEmpty

/-- A numbered packet put into the end-to-end buffer and sent (R179). -/
def gwEmit (s : State) (d : Nat) (k : Packet) : State :=
  let p := portFor s d k
  portQueue (setGw s d fun g => { g with buf := g.buf ++ [{ pkt := k, port := p, time := s.clk }] }) p k

/-- A packet handed to a die's gateway: numbered, buffered until it is acknowledged, and sent, once the buffer has room for it
(R179, R184). -/
def gwSend (s : State) (d : Nat) (k : Packet) : Nat × State :=
  let n := SMap.getD s.fab.eseq k.dst 0
  let k := sealPkt { k with src := s.pkg, eseq := n, path := (k.dst + k.addr / 4096) % 65536 }
  let s := { s with fab := { s.fab with eseq := SMap.set s.fab.eseq k.dst ((n + 1) % 2 ^ 32) } }
  (n, if gwFull s d then setGw s d fun g => { g with wait := g.wait ++ [k] } else gwEmit s d k)

/-- Packets that waited for room go, in order, while there is room (R179). -/
def gwPump (s : State) (d : Nat) : Nat → State
  | 0 => s
  | n + 1 =>
    match (gwOf s d).wait with
    | k :: l => if (gwOf s d).buf.length ≥ 8192 then s else gwPump (gwEmit (setGw s d fun g => { g with wait := l }) d k) d n
    | [] => s

/-- An acknowledgement, rejection or management packet: neither numbered nor buffered. -/
def gwReply (s : State) (d : Nat) (k : Packet) : State :=
  let k := sealPkt { k with src := s.pkg }
  portQueue s (portFor s d k) k

/-- The aligned range that a remote access moves (R178): from a 32-byte boundary, 64 bytes to 1 KiB, within one aligned 4 KiB
block, as the bytes asked for are. -/
def remoteSpan (pa n : Nat) : Nat × Nat :=
  let a := pa / 32 * 32
  let l := max 64 ((pa + n + 31) / 32 * 32 - a)
  (if a % 4096 + l > 4096 then a - (a % 4096 + l - 4096) else a, l)

/-- The request of a context that a re-issued bundle matches. -/
def remoteFind (x : Ctx) (pkg addr len kind : Nat) : Option Remote :=
  x.remote.find? fun r => r.pkg = pkg && r.addr = addr && r.len = len && r.kind = kind

/-- A package entered into a destination list (R143), where it is not on it. A 65th package needs the oldest flushed
first, which `destRoom` answers for. -/
def destAdd (x : Ctx) (pkg : Nat) : Ctx :=
  if x.dests.any fun d => d.1 = pkg then x else { x with dests := x.dests ++ [(pkg, false)] }
def destRoom (x : Ctx) (pkg : Nat) : Bool := (x.dests.any fun d => d.1 = pkg) || x.dests.length < 64

/-- A posted write of bytes at another package (R178): one 64-byte write with a byte mask for each aligned 64 bytes, from a die's
gateway on behalf of a package context number. -/
def remoteWriteBy (s : State) (die c pkg pa : Nat) (bs : List (Option (BitVec 8))) (psn : Bool) : State :=
  if bs.isEmpty then s else
  (List.range ((pa + bs.length - 1) / 64 - pa / 64 + 1)).foldl (fun s i =>
    let a := (pa / 64 + i) * 64
    let body : List (Option (BitVec 8)) := (List.range 64).map fun j =>
      if a + j < pa then none else bs.getD (a + j - pa) none
    if body.any Option.isSome then
      let k : Packet := { ty := 1, dst := pkg, src := s.pkg, sctx := c, addr := a, psn := psn, len := 64,
                          bmask := body.map Option.isSome, data := body.map (fun b => b.getD 0) }
      (gwSend s die k).2
    else s) s
/-- A posted write of a context. -/
def remoteWrite (s : State) (c pkg pa : Nat) (bs : List (Option (BitVec 8))) (psn : Bool) : State :=
  remoteWriteBy s (dieOf c) c pkg pa bs psn

end Sys2Proof.Machine
end

