-- ==== Sys2Proof/Machine/Caravan.lean ====
section
/-! DEFINITION. Caravan: queues (R396, R397, R402), Caravan's own accesses (R488), task descriptors (R191 to R193), futures
(R199 to R203), ready lists and placement (R405 to R409), task start (R194), and the pending-fault table (R33, R34,
R403, R404). -/
namespace Sys2Proof.Machine

/-! ## Queues -/

def qReg (q off : Nat) : Nat := 0xF00001300000 + 0x100 * q + off
def qGet (s : State) (q off : Nat) : Nat := (devGet s (qReg q off)).toNat
def qst (s : State) (q : Nat) : QState := SMap.getD s.car.q q {}
def setQ (s : State) (q : Nat) (f : QState → QState) : State :=
  { s with car := { s.car with q := SMap.set s.car.q q (f (qst s q)) } }
def qAsid (s : State) (q : Nat) : Nat := bitsAt (qGet s q 0) 32 16
/-- The checkpoint exponent; values outside 20 to 34 disable checkpoints (R396). -/
def qIexp (s : State) (q : Nat) : Nat :=
  let i := bitsAt (qGet s q 0) 26 6
  if 20 ≤ i ∧ i ≤ 34 then i else 0
def qFhost (s : State) (q : Nat) : Bool := (devGet s (qReg q 0)).getLsbD 25
def qMclass (s : State) (q : Nat) : Nat := bitsAt (qGet s q 0) 20 4
def qTclass (s : State) (q : Nat) : Nat := bitsAt (qGet s q 0) 16 4
def qPrio (s : State) (q : Nat) : Nat := bitsAt (qGet s q 0) 13 3
def qRmax (s : State) (q : Nat) : Nat := let r := bitsAt (qGet s q 0) 7 6; if r = 0 then 1 else r
def qMask (s : State) (q : Nat) : BitVec 192 :=
  devGet s (qReg q 0x28) ++ devGet s (qReg q 0x20) ++ devGet s (qReg q 0x18)
def qLsz (s : State) (q : Nat) : Nat := bitsAt (qGet s q 8) 60 4
/-- The watchdog value of a queue's tasks (R396). -/
def qWdog (s : State) (q : Nat) : Word := let w := devGet s (qReg q 0x40); if w = 0 then 0x80000000 else w
/-- A queue whose tasks may run: running or draining (R405). -/
def qRuns (s : State) (q : Nat) : Bool := (qst s q).st = 1 || (qst s q).st = 2

/-- The lowest-numbered healthy die (R197). -/
def leader (s : State) : Nat := ((List.range 4).find? fun d => !s.car.failed.contains d).getD 0

/-! ## Caravan's accesses (R486, R488) -/

/-- What an access of Caravan meets. -/
inductive CarR where
  | ok (b : List Byte)
  | fault (code va : Nat)
  | park
  deriving DecidableEq, Repr

/-- The owner's number of Caravan's reads in other packages. -/
def carOwner : Nat := 4000
/-- A read by Caravan in another package (R17, R177): a request, and its reply once it has come. -/
def carAsk (s : State) (die pkg pa n va : Nat) : CarR × State :=
  let (a, l) := remoteSpan pa n
  match s.fab.asks.find? fun r => r.1 = carOwner && r.2.kind = 0 && r.2.pkg = pkg && r.2.addr = a && r.2.len = l with
  | some (_, r) =>
    match r.reply with
    | none => (.park, s)
    | some (b, psn, refused) =>
      (if refused then .fault 5 va else if psn then .fault 24 va else .ok ((b.drop (pa - a)).take n), s)
  | none =>
    let (e, s) := gwSend s die { ty := 0, dst := pkg, src := s.pkg, sctx := 1023, addr := a, len := l }
    (.park, { s with fab := { s.fab with asks := s.fab.asks ++ [(carOwner, { pkg := pkg, addr := a, len := l, kind := 0, eseq := e })] } })
/-- The replies that a read has used are dropped. -/
def carDone (s : State) : State :=
  { s with fab := { s.fab with asks := s.fab.asks.filter fun r => !(r.1 = carOwner && r.2.kind = 0 && r.2.reply.isSome) } }

/-- A read within one 64-byte block by Caravan on a die: of HBM or far memory here, or of another package. -/
def carRead1 (s : State) (die asid : Nat) (va : Word) (n : Nat) : CarR × State :=
  match translate s (.caravan die) asid va .read with
  | (.fault c, s) => (.fault c va.toNat, s)
  | (.park, s) => (.park, s)
  | (.ok pkg pa _, s) =>
    if pkg != s.pkg then carAsk s die pkg pa n va.toNat
    else if isHbm pa || (isFar pa && (farDecode s pa).isSome) then
      let (b, p, s) := homeBytes s pa n
      (if p then .fault 24 va.toNat else .ok b, s)
    else (.fault 4 va.toNat, s)

/-- A read by Caravan, one piece for each 64-byte block. -/
def carRead (s : State) (die asid : Nat) (va : Word) (n : Nat) : CarR × State :=
  let (r, s) := (List.range ((n + 63) / 64)).foldl (fun (r, s) i =>
    match r with
    | .ok b => match carRead1 s die asid (va + BitVec.ofNat 64 (64 * i)) (min 64 (n - 64 * i)) with
      | (.ok b', s) => (.ok (b ++ b'), s)
      | r => r
    | r => (r, s)) (CarR.ok [], s)
  (r, if r == .park then s else carDone s)

/-- A write by Caravan within one page, at the home of the address; in another package it is a posted write. -/
def carWrite (s : State) (die asid : Nat) (q : Option Nat) (va : Word) (b : List Byte) : CarR × State :=
  match translate s (.caravan die) asid va .write with
  | (.fault c, s) => (.fault c va.toNat, s)
  | (.park, s) => (.park, s)
  | (.ok pkg pa _, s) =>
    if pkg != s.pkg then (.ok [], remoteWriteBy s die 1023 pkg pa (b.map some) false)
    else if isHbm pa || (isFar pa && (farDecode s pa).isSome) then (.ok [], homeWrite s [] q pa (b.map some))
    else (.fault 4 va.toNat, s)

/-! ## Task descriptors (R191 to R193, R398) -/

/-- The effective core mask of a descriptor (R398). -/
def effMask (s : State) (die q cmi : Nat) : Option (BitVec 192) × CarR × State :=
  if cmi = 0 then (some (qMask s q), .ok [], s)
  else
    let va : Word := (devGet s (qReg q 0x30) &&& 0x00FFFFFFFFFFFFE0) + BitVec.ofNat 64 (32 * (cmi - 1))
    match carRead s die (qAsid s q) va 24 with
    | (.ok b, s) => (some (BitVec.ofNat 192 (ofLe b) &&& qMask s q), .ok [], s)
    | (r, s) => (none, r, s)

/-- The fields of a descriptor (R191) as a task of queue q. -/
def taskFields (s : State) (q d : Nat) : Task :=
  { queue := q, asid := qAsid s q
    entry := BitVec.ofNat 64 (bitsAt d 0 56), arg := BitVec.ofNat 64 (bitsAt d 64 56)
    save := BitVec.ofNat 64 (bitsAt d 128 56), stack := BitVec.ofNat 64 (bitsAt d 192 56)
    demand := bitsAt d 320 4, prio := bitsAt d 328 3, mig := d.testBit 335, rev := d.testBit 336
    rkind := d.testBit 337, tclass := qTclass s q, mclass := qMclass s q, pinned := !d.testBit 336 }

/-- The defined fields of a task descriptor (R191). -/
def taskMask : Nat := fieldsBut 512 [(511, 338), (255, 248), (191, 184), (127, 120), (63, 56)]

/-- What reading a descriptor gives. -/
inductive TaskR where
  | ok (t : Task)
  | bad
  | fault (code va : Nat)
  | park
  deriving DecidableEq, Repr

/-- A descriptor read by Caravan on a die (R192), with its mask and R193's checks. Of a fault handler's descriptor, the demand and
the mask are replaced: neither is read nor checked (R33, R405). -/
def readTask (s : State) (die q : Nat) (va : Word) (handler : Bool := false) : TaskR × State :=
  match carRead s die (qAsid s q) va 64 with
  | (.fault c a, s) => (.fault c a, s)
  | (.park, s) => (.park, s)
  | (.ok b, s) =>
    let (d, s) := actsAs s taskMask (ofLe b)
    let t := taskFields s q d
    if handler then (if t.entry.toNat % 4 != 0 then .bad else .ok { t with demand := 0, mask := qMask s q }, s)
    else match effMask s die q (bitsAt d 324 4) with
    | (some m, _, s) =>
      if t.demand > 8 || t.entry.toNat % 4 != 0 || m == 0 then (.bad, s)
      else (.ok { t with mask := m }, s)
    | (none, .fault c a, s) => (.fault c a, s)
    | (none, _, s) => (.park, s)

/-! ## Futures (R199 to R203) -/

def mkHandle (die : Nat) (gen : BitVec 14) (idx : Nat) : BitVec 32 := BitVec.ofNat 2 die ++ gen ++ BitVec.ofNat 16 idx
def hKey (h : BitVec 32) : Nat := bitsAt h.toNat 30 2 * 65536 + bitsAt h.toNat 0 16
def futAt (s : State) (k : Nat) : Future := SMap.getD s.car.fut k {}
def setFut (s : State) (k : Nat) (f : Future) : State := { s with car := { s.car with fut := SMap.set s.car.fut k f } }
/-- The entry that a handle names; none when the handle is null or stale (R201). -/
def getFut (s : State) (h : BitVec 32) : Option Future :=
  let f := futAt s (hKey h)
  if h = 0 || f.st == .free || f.gen != h.extractLsb' 16 14 then none else some f

/-- An entry that a queue may take: it is free, and no other queue's checkpoint holds it (log 60). -/
def entryFree (s : State) (q k : Nat) : Bool := (futAt s k).st == .free && !(s.car.ckpt.any fun c => c.1 != q && SMap.has c.2.futs k)
/-- The lowest such index from `k` up, in `n` entries. -/
def firstFree (s : State) (q k : Nat) : Nat → Option Nat
  | 0 => none
  | n + 1 => if entryFree s q k then some k else firstFree s q (k + 1) n

/-- A free entry of a die's table: the top 32 are kept for fault handlers (R203, log 19). -/
def allocFut (s : State) (die : Nat) (handler : Bool) (f : Future) : Option (BitVec 32 × State) :=
  let lo := if handler then 65504 else if die = 0 then 1 else 0
  (firstFree s f.queue (die * 65536 + lo) (if handler then 32 else 65504 - lo)).map fun k =>
    let g := (futAt s k).gen
    (mkHandle die g (k % 65536), setFut s k { f with gen := g })

/-- The entry freed: gen + 1 (R199). -/
def freeFut (s : State) (k : Nat) : State := setFut s k { gen := (futAt s k).gen + 1 }

/-- Every task of the package, bound or waiting. -/
def allTasks (s : State) : List Task :=
  (s.ctx.filterMap fun (_, x) => x.task) ++ s.car.ready.map Ready.task

/-- What follows when an entry's count has reached 0 (R202): a ready entry is freed; a running one is reclaimed where its
tasks may be, and orphaned where they are pinned. Indices not handed out are withdrawn. -/
def settle (s : State) (k : Nat) : State :=
  let f := futAt s k
  if f.count != 0 then s
  else match f.st with
  | .ready => freeFut s k
  | .running =>
    let h := mkHandle (k / 65536) f.gen (k % 65536)
    let ts := (allTasks s).filter fun t => t.own == h
    let free := ts.filter fun t => t.rev && !t.pinned
    match SMap.get? s.car.range k with
    | some r =>
      let left := f.left - (r.n - r.next)
      let s := { s with car := { s.car with range := SMap.erase s.car.range k, replica := SMap.erase s.car.replica k } }
      if left = 0 then freeFut s k
      else free.foldl (fun s t => cause s (.reclamationStop t.tid)) (setFut s k { f with st := .reclaiming, left := left })
    | none =>
      if free.isEmpty then setFut s k { f with st := .orphan }
      else free.foldl (fun s t => cause s (.reclamationStop t.tid)) (setFut s k { f with st := .reclaiming })
  | _ => s

/-- FUTURE_READY (R196, R202): one task behind an entry has ended with a value. -/
def futEnd (s : State) (h : BitVec 32) (v : Word) : State :=
  match getFut s h with
  | none => s
  | some f =>
    let k := hKey h
    let f := { f with left := f.left - 1, result := f.result + v }
    if f.left != 0 then setFut s k f
    else match f.st with
    | .running => settle (setFut s k { f with st := .ready }) k
    | _ => freeFut s k

/-- One task behind an entry has stopped without a result (R202, R206). -/
def futStop (s : State) (h : BitVec 32) : State :=
  match getFut s h with
  | none => s
  | some f =>
    let k := hKey h
    let f := { f with left := f.left - 1 }
    if f.left != 0 then setFut s k f
    else if f.st == .running && f.count != 0 then setFut s k { f with st := .ready }
    else freeFut s k

/-- The reference that the part itself holds is dropped (R203). -/
def dropHeld (s : State) (h : BitVec 32) : State :=
  match getFut s h with
  | none => s
  | some f => if f.held then settle (setFut s (hKey h) { f with held := false, count := f.count - 1 }) (hKey h) else s

/-- RECLAIM_CASCADE (R200): the references that an ending task's pcounts hold are dropped. -/
def dropChildren (s : State) (tid : Nat) : State :=
  if tid = 0 then s else
  (s.car.fut.filter fun (_, f) => f.creator = tid && f.st != .free).foldl (fun s (k, _) =>
    let f := futAt s k
    settle (setFut s k { f with count := f.count - f.pcount, pcount := 0, creator := 0 }) k) s

/-! ## Placement (R405 to R409, R211) -/

/-- Physical accumulators of a core that no context holds. -/
def freeAcc (s : State) (core : Nat) : List Nat :=
  let used := (List.range 4).flatMap fun i => (ctxOf s (4 * core + i)).phys
  (List.range 8).filter fun a => !used.contains a

/-- Accumulators for a demand (R211): whole free pairs, then one further free accumulator, of a half-used pair first. -/
def takeAcc (s : State) (core d : Nat) : Option (List Nat) :=
  let fr := freeAcc s core
  let pairs := (List.range 4).filter fun p => fr.contains (2 * p) && fr.contains (2 * p + 1)
  let mine := pairs.take (d / 2)
  if mine.length < d / 2 then none
  else
    let rest := fr.filter fun a => !mine.contains (a / 2)
    let half := rest.filter fun a => !pairs.contains (a / 2)
    let l := mine.flatMap fun p => [2 * p, 2 * p + 1]
    if d % 2 = 0 then some l
    else match half ++ rest with
      | [] => none
      | a :: _ => some (l ++ [a])

def heldCtx (s : State) (core : Nat) : Nat :=
  ((List.range 4).filter fun i => (ctxOf s (4 * core + i)).task.isSome).length
def freeCtx (s : State) (core : Nat) : Option Nat :=
  ((List.range 4).map fun i => 4 * core + i).find? fun c => (ctxOf s c).task.isNone

/-- Power state 3: off (R481). -/
def clusterOff (s : State) (k : Nat) : Bool := (SMap.getD s.sys.unit_ k {}).st = 3

/-- R405, but for the free context and the accumulators. -/
def mayRun (s : State) (t : Task) (core : Nat) : Bool :=
  s.sys.released && t.mask.getLsbD core && !s.car.failed.contains (core / 48) && !clusterOff s (core / 8)
    && (t.mig || core / 48 = t.homeDie) && (match t.barCl with | none => true | some k => core / 8 = k)
    && qRuns s t.queue

/-- A request to reclaim a task is on its way (R205). -/
def reclaimAsked (s : State) (tid : Nat) : Bool := s.pending.any fun p => match p.ev with | .reclamationStop t => t = tid | _ => false

/-- R405; a task that is being reclaimed is not placed. -/
def mayPlace (s : State) (t : Task) (core : Nat) : Bool :=
  mayRun s t core && (freeCtx s core).isSome && (takeAcc s core t.demand).isSome && !reclaimAsked s t.tid

/-- The effective priority of a waiting task (R408). -/
def effPrio (s : State) (r : Ready) : Nat := min 7 (r.task.prio + (s.clk - r.since) / 65536)

/-- The nearness of a list to a core: its own cluster, another list of its die, another die (R409). -/
def nearness (core : Nat) : RList → Nat
  | .cl k => if k = core / 8 then 0 else if k / 6 = core / 48 then 1 else 2
  | .die d => if d = core / 48 then 1 else 2

/-- The key by which a dispatcher orders candidates (R409): smaller is better. -/
def placeKey (s : State) (core : Nat) (r : Ready) : List Nat :=
  [if r.task.handler.isSome then 0 else 1, 7 - effPrio s r, nearness core r.list, 2 ^ 64 - (s.clk - r.since),
   r.task.queue, r.task.seq, r.task.idx]

def lexLt : List Nat → List Nat → Bool
  | a :: as, b :: bs => a < b || (a = b && lexLt as bs)
  | _, _ => false

/-- A saved task can be restored once its owed commands are done and its wait allows it (R431). -/
def restorable (r : Ready) : Bool := match r.saved with | none => true | some v => v.owed = 0

/-- The best ready task for a core (R409). -/
def bestFor (s : State) (core : Nat) : Option Ready :=
  (s.car.ready.filter fun r => mayPlace s r.task core && restorable r && (nearness core r.list < 2 || r.task.mig)).foldl
    (fun b r => match b with
      | none => some r
      | some x => if lexLt (placeKey s core r) (placeKey s core x) then some r else b) none

/-- TASK_START (R194): the context of a task that starts, with its accumulators. -/
def startCtx (s : State) (t : Task) (phys : List Nat) : Ctx :=
  { task := some t, pc := t.entry, wdog := qWdog s t.queue, phys := phys, readyAt := none
    s := (((Vector.replicate 64 0).set 1 t.arg).set 2 (if t.ranged then BitVec.ofNat 64 t.idx else 0)
      |>.set 3 (t.own.setWidth 64)).set 62 t.stack }

/-- A task placed on a free context of a core. -/
def placeOn (s : State) (t : Task) (core : Nat) : State :=
  match freeCtx s core, takeAcc s core t.demand with
  | some c, some l =>
    let t := if t.root.isSome && !t.ranged && t.homeCl = 24 then { t with homeDie := core / 48, homeCl := core / 8 } else t
    let x := ctxOf s c
    setCtx s c { startCtx s t l with inval := x.inval, farOut := x.farOut, dests := x.dests, placed := s.clk }
  | _, _ => s

/-- The core with the fewest held contexts among those that R405 admits; the lower number wins (R407). -/
def fewest (s : State) (t : Task) (cores : List Nat) : Option Nat :=
  (cores.filter (mayPlace s t)).foldl (fun b c => match b with
    | none => some c
    | some x => if heldCtx s c < heldCtx s x then some c else b) none

def coresOfCl (k : Nat) : List Nat := (List.range 8).map fun i => 8 * k + i
def coresOfDie (d : Nat) : List Nat := (List.range 48).map fun i => 48 * d + i

/-- The core on which a task that becomes ready is placed at once (R407). `from_`: the spawning or faulting core. -/
def placeNow (s : State) (t : Task) (from_ : Option Nat) : Option Nat :=
  let others (d : Nat) := (List.range 192).filter fun c => c / 48 != d
  match from_ with
  | some core =>
    if t.handler.isNone && mayPlace s t core then some core
    else match fewest s t (coresOfCl (core / 8)) with
    | some c => some c
    | none => match fewest s t (coresOfDie (core / 48)) with
      | some c => some c
      | none => if t.mig && t.handler.isNone then fewest s t (others (core / 48)) else none
  | none =>
    match fewest s t (coresOfDie t.homeDie) with
    | some c => some c
    | none => if t.mig && !((coresOfDie t.homeDie).any (mayRun s t)) then fewest s t (others t.homeDie) else none

/-- A cluster that is fully on (R483). -/
def clusterOn (s : State) (k : Nat) : Bool :=
  match SMap.get? s.sys.unit_ k with
  | none => true
  | some u => u.st = 0 && u.waking.isNone

/-- A new task enters its list (R406). -/
def enterList (s : State) (t : Task) (from_ : Option Nat) : State :=
  let l := match from_ with | some core => RList.cl (core / 8) | none => .die t.homeDie
  { s with car := { s.car with ready := s.car.ready ++ [{ task := t, list := l, since := s.clk }] } }

/-- A new task becomes ready (R406, R407): placed at once where a context is free, else in its list. A cluster in clock-stop or
retention is woken first (R405, R483). -/
def becomeReady (s : State) (t : Task) (from_ : Option Nat) : State :=
  match placeNow s t from_ with
  | some core => if clusterOn s (core / 8) then placeOn s t core else cause (enterList s t from_) (.powerWake (core / 8))
  | none => enterList s t from_

/-- The next task number. -/
def newTid (s : State) : Nat × State :=
  (s.car.tid + 1, { s with car := { s.car with tid := s.car.tid + 1, seq := s.car.seq + 1 } })

/-! ## Failing queues (R402) and the pending-fault table (R33, R34) -/

/-- A tile write-back that a member of an entry stands for is given up (R487). -/
def giveUpWb (s : State) (m : PfMember) : State :=
  match m with
  | .wb cl id =>
    let f (l : TLine) : TLine := if l.id = id then { l with given := true } else l
    { s with tiles := { s.tiles with
        ctc := s.tiles.ctc.map fun (k, l) => (k, if k / 8 = cl then l.map f else l)
        victims := s.tiles.victims.map fun (k, l) => (k, if k = cl then l.map fun v => { v with line := f v.line } else l) } }
  | _ => s

/-- A queue's faults leave the table: they need no handler's answer, and act as if it were 1. -/
def dropFaults (s : State) (q : Nat) : State :=
  let s := (s.car.pf.filter fun (_, p) => p.fault.queue = q).foldl (fun s (_, p) => p.members.foldl giveUpWb s) s
  let s := (s.car.pfWait.filter fun (_, f) => f.queue = q).foldl (fun s (_, f) => giveUpWb s f.who) s
  { s with car := { s.car with
      pf := s.car.pf.filter fun (_, p) => p.fault.queue != q
      pfWait := s.car.pfWait.filter fun (_, f) => f.queue != q } }

/-- QUEUE_FAIL (R402): an unrecoverable fault stops the queue's tasks; with checkpoints the queue rolls back, without
them it is in error. A fault during a rollback joins it. -/
def queueFail (s : State) (q : Nat) : State :=
  if !qRuns s q then s
  else
    let back := qIexp s q != 0
    let s := dropFaults s q
    let s := setQ s q fun x => { x with st := if back then 3 else 4, hostRec := none, parked := false }
    let other (r : Nat × RangeC) : Bool := r.2.task.queue != q
    let s := { s with car := { s.car with range := s.car.range.filter other, replica := s.car.replica.filter other } }
    let s := ((allTasks s).filter fun t => t.queue = q).foldl (fun s t => cause s (.reclamationStop t.tid)) s
    if back then cause s (.rollbackComplete q) else s

/-- The bytes of a fault record (R420); `n`: faults joined. -/
def recBytes (f : FaultRec) (n : Nat) (clk : Nat) : List Byte :=
  (f.words.flatMap fun w => leBytes w.toNat 8) ++ leBytes n 8 ++ leBytes clk 8 ++ List.replicate 64 0

/-- FAULT_HANDLER_SPAWN (R33, R403, R420): the record of entry e of a die is written, and the handler's task made; a
descriptor that Caravan cannot read acts as result 1. -/
def spawnHandler (s : State) (die e : Nat) (p : Pf) : State :=
  let f := p.fault
  let q := f.queue
  match readTask s die q (devGet s (qReg q 0x38) &&& 0x00FFFFFFFFFFFFC0) true with
  | (.park, s) => s
  | (.fault _ _, s) | (.bad, s) => queueFail s q
  | (.ok t, s) =>
    match allocFut s die true { st := .running, count := 1, held := true, left := 1, queue := q } with
    | none => s
    | some (h, s) =>
      let s := hbmPut s (some q) (bitsAt (devGet s (dieReg die 0x70)).toNat 12 36 * 4096 + 128 * e)
        (recBytes f p.members.length s.clk)
      let (tid, s) := newTid s
      let t := { t with
        arg := BitVec.ofNat 64 (bitsAt (devGet s (dieReg die 0x78)).toNat 12 44 * 4096 + 128 * e)
        prio := 7, rev := false, pinned := true, own := h, parent := 0
        handler := some (die, e), homeDie := die, homeCl := (f.core.map fun c => c / 8).getD 24
        seq := s.car.seq, tid := tid }
      let s := { s with car := { s.car with pf := SMap.set s.car.pf (die * 32 + e) { p with handler := some h } } }
      becomeReady s t f.core

/-- The record of an entry sent to the host (R404), where none is outstanding. A fault on the write acts as result 1. -/
def sendRecord (s : State) (k : Nat) (p : Pf) : State :=
  let q := p.fault.queue
  if (qst s q).hostRec.isSome then s
  else match carWrite s (leader s) (qAsid s q) (some q) (devGet s (qReg q 0x68) &&& 0x00FFFFFFFFFFFF00)
      (recBytes p.fault p.members.length s.clk) with
    | (.ok _, s) =>
      let s := { s with car := { s.car with pf := SMap.set s.car.pf k { p with sent := true } } }
      setQ s q fun x => { x with hostRec := some k }
    | (.park, s) => s
    | (.fault _ _, s) => queueFail s q

/-- An entry's record delivered to its queue's handler or to the host. -/
def deliver (s : State) (k : Nat) : State :=
  match SMap.get? s.car.pf k with
  | none => s
  | some p =>
    if p.handler.isSome || p.sent then s
    else if qFhost s p.fault.queue then sendRecord s k p else spawnHandler s (k / 32) (k % 32) p

/-- The task that a fault stops is a fault handler. -/
def byHandler (s : State) (w : PfMember) : Bool :=
  match w with
  | .task tid => (allTasks s).any fun t => t.tid = tid && t.handler.isSome
  | _ => false

/-- PENDING_FAULT_JOIN (R34): a fault joins the entry of its key, or takes a free one, or waits for one. -/
def raiseFault (s : State) (die : Nat) (f : FaultRec) : State :=
  if !qRuns s f.queue then s
  else if byHandler s f.who then queueFail s f.queue
  else match (s.car.pf.filter fun (k, p) => k / 32 = die && p.fault.key == f.key) with
  | (k, p) :: _ =>
    let p := { p with members := p.members ++ [f.who] }
    let s := { s with car := { s.car with pf := SMap.set s.car.pf k p } }
    if p.handler.isSome then
      hbmPutN s (some f.queue) (bitsAt (devGet s (dieReg die 0x70)).toNat 12 36 * 4096 + 128 * (k % 32) + 0x30) 8 p.members.length
    else s
  | [] =>
    match (List.range 32).find? fun e => !SMap.has s.car.pf (die * 32 + e) with
    | some e =>
      let k := die * 32 + e
      deliver { s with car := { s.car with pf := SMap.set s.car.pf k { fault := f, members := [f.who] } } } k
    | none => { s with car := { s.car with pfWait := s.car.pfWait ++ [(die, f)] } }

/-- A member still waits for its handler's answer. -/
def faulted (s : State) (w : PfMember) : Bool :=
  (s.car.pf.any fun (_, p) => p.members.contains w) || (s.car.pfWait.any fun (_, f) => f.who == w)

/-- Faults that waited take the entries that are free now (R34), and undelivered records go out (R404). -/
def pumpFaults (s : State) : State :=
  let w := s.car.pfWait
  let s := { s with car := { s.car with pfWait := [] } }
  let s := w.foldl (fun s (d, f) => raiseFault s d f) s
  s.car.pf.foldl (fun s (k, _) => deliver s k) s

/-- HANDLER_RESULT_APPLY (R33): result 0 lets every member of the entry retry; any other value fails the queue. -/
def applyResult (s : State) (k : Nat) (r : Word) : State :=
  match SMap.get? s.car.pf k with
  | none => s
  | some p =>
    let s := { s with car := { s.car with pf := SMap.erase s.car.pf k } }
    if r = 0 then pumpFaults s else queueFail (p.members.foldl giveUpWb s) p.fault.queue

end Sys2Proof.Machine
end

