-- ==== Sys2Proof/Machine/Dev.lean ====
section
/-! DEFINITION. Device register space (R280, R472, R473): what a read of a register returns, and which step of the part a
write to it is. -/
namespace Sys2Proof.Machine

/-- Power state of a cluster as `pwstat` codes it (R483). -/
def pwBits (s : State) : Nat := (List.range 24).foldl (fun n k => n + (SMap.getD s.sys.unit_ k {}).st % 4 * 4 ^ k) 0

/-- `bootstat` (R480). -/
def bootstat (s : State) : Word :=
  BitVec.ofNat 64 (s.sys.stage * 16 + (if s.sys.slot then 8 else 0) + (if s.sys.fail then 4 else 0))

/-- A register of a channel's block (R110, R111). -/
def rdChan (s : State) (n off : Nat) : Word :=
  let c := chan s n
  let w (x : Nat) := BitVec.ofNat 64 x
  if off = 0 then w c.herpl else if off = 8 then w c.herex else if off = 0x10 then w c.hecor
  else if off = 0x18 then w c.heunc else if off = 0x20 then w c.hedead
  else if off = 0x28 then w ((if c.poisonV then 2 ^ 63 else 0) + c.poisonSec * 32)
  else if off = 0x30 then w (if c.failed then 1 else 0)
  else if off = 0x38 then c.evtab
  else if off = 0x40 then w c.hevovf else 0

/-- A register of a Flecen port (R175). -/
def rdPort (s : State) (p off : Nat) : Word :=
  let x := portOf s p
  let w (n : Nat) := BitVec.ofNat 64 n
  if off = 0 then w (x.lanefail.toNat * 2 ^ 32 + x.nretr * 2 ^ 24 + x.width * 2 ^ 8 + x.state)
  else if off = 8 then w x.crc else if off = 0x10 then w x.rpl else if off = 0x18 then w x.retr else 0

/-- A register of a queue (R396). -/
def rdQueue (s : State) (q off : Nat) : Word :=
  let x := qst s q
  if off = 0 then (devGet s (qReg q 0) &&& 0x8000FFFFFEFFFF80) ||| BitVec.ofNat 64 (x.st * 2 ^ 60)
  else if off = 0x58 then x.prod ++ x.cons
  else if off < 0x70 then devGet s (qReg q off) else 0

/-- `frpop` (R475, R476): the top entry of a die's far release list. -/
def popFar (s : State) (d : Nat) : Word × State :=
  let n := reg32 s (dieReg d 0x60)
  if n = 0 then (0, s)
  else
    let (f, _, s) := hbmReadN s (bitsAt (devGet s (dieReg d 0x50)).toNat 2 46 * 4 + 4 * (n - 1)) 4
    (BitVec.ofNat 64 (2 ^ 63 + f), devSet s (dieReg d 0x60) (BitVec.ofNat 64 (n - 1)))

/-- A read of the trace window of a core (R444). -/
def rdTrace (s : State) (core off : Nat) : Word :=
  if (devGet s (trReg core 0)).getLsbD 62 then
    let e := SMap.getD (traceOf s core).ent (off / 16) 0
    if off % 16 = 0 then e.setWidth 64 else (e >>> 64).setWidth 64
  else 0

/-- An aligned 8-byte read of device register space (R280): an address that no register occupies reads zero. -/
def devRead (s : State) (pa : Nat) : Word × State :=
  if 0xF00001000000 ≤ pa && pa < 0xF00001180000 then (rdChan s ((pa - 0xF00001000000) / 0x1000) (pa % 0x1000), s)
  else if 0xF00001200000 ≤ pa && pa < 0xF00001214000 then (rdPort s ((pa - 0xF00001200000) / 0x1000) (pa % 0x1000), s)
  else if 0xF00001220000 ≤ pa && pa < 0xF00001224000 then
    let g := gwOf s ((pa - 0xF00001220000) / 0x1000)
    let o := pa % 0x1000
    (BitVec.ofNat 64 (if o = 0 then g.e2e else if o = 8 then g.refuse else if o = 16 then g.drop else if o = 24 then g.dtt else 0), s)
  else if 0xF00001240000 ≤ pa && pa < 0xF00001240600 then
    let b := SMap.getD s.car.bar ((pa - 0xF00001240000) / 8) {}
    (BitVec.ofNat 64 (b.gen.toNat * 2 ^ 16 + b.arrived * 2 ^ 8 + b.count), s)
  else if 0xF00001300000 ≤ pa && pa < 0xF00001340000 then (rdQueue s ((pa - 0xF00001300000) / 0x100) (pa % 0x100), s)
  else if pa = 0xF00001500008 then (bootstat s, s)
  else if pa = 0xF00001500010 then (BitVec.ofNat 64 (pwBits s), s)
  else if pa = 0xF00001500100 then
    ((devGet s pa &&& 0x2000000000000000) ||| (if s.sys.busy.isSome then 0x8000000000000000 else 0), s)
  else if pa = 0xF00001500140 then (0, s)
  else if 0xF00001501000 ≤ pa && pa < 0xF000015011C0 then
    (if s.sys.busy.isSome then 0 else BitVec.ofNat 64 (ofLe (((s.sys.report.getD []).drop (pa - 0xF00001501000)).take 8)), s)
  else if 0xF00001521000 ≤ pa && pa < 0xF00001521400 then
    let d := (pa - 0xF00001521000) / 0x100
    if pa % 0x100 = 0x68 then popFar s d else if pa % 0x100 = 0x18 then (0, s) else (devGet s pa, s)
  else if pa = 0xF00001520028 then
    (devGet s pa ||| (if s.mmu.inval.any Inval.mminvc then 0x8000000000000000 else 0), s)
  else if pa = 0xF00001520100 then (devGet s pa ||| (if s.tiles.purge.isSome then 0x8000000000000000 else 0), s)
  else if pa = 0xF00001530000 then (devGet s pa ||| (if s.fab.cmd.isSome then 0x8000000000000000 else 0), s)
  else if pa = 0xF00000C11000 then (devGet s pa ||| (if s.hbm.dead.isSome then 0x8000000000000000 else 0), s)
  else if 0xF00002000000 ≤ pa && pa < 0xF00006000000 then
    (if pa % 0x10000 = 0x10 then rdQueue s ((pa - 0xF00002000000) / 0x10000) 0x58 else 0, s)
  else if 0xF00008000000 ≤ pa && pa < 0xF00008C00000 then
    (rdTrace s ((pa - 0xF00008000000) / 0x10000) (pa % 0x10000), s)
  else (devGet s pa, s)

/-- A register of the table of R473. -/
def mmReg (pa : Nat) : Bool :=
  (0xF00001520000 ≤ pa && pa < 0xF00001522000) || pa = 0xF00001530000 || pa = 0xF00001530008
    || (0xF00001000000 ≤ pa && pa < 0xF00001180000 && (pa % 0x1000 = 0x38 || pa % 0x1000 = 0x40))
/-- The registers of R473 that the host may write too. -/
def mmHostReg (pa : Nat) : Bool :=
  pa = 0xF00001520020 || pa = 0xF00001520028 || pa = 0xF00001520100
    || (0xF00001521000 ≤ pa && pa < 0xF00001521400 && pa % 0x100 = 0x18)
/-- The register blocks of the queues (R396). -/
def queueReg (pa : Nat) : Bool := 0xF00001300000 ≤ pa && pa < 0xF00001340000
/-- A write of a memory-management register by an agent that R473 does not name is ignored; a queue's registers are written by the
management core and the host (R396). -/
def mayWrite (pa : Nat) (by_ : Writer) : Bool :=
  match by_ with
  | .mgmt => true
  | .host => !mmReg pa || mmHostReg pa
  | .task => !mmReg pa && !queueReg pa
  | .peer => false

/-- The step that a write of a device register is (95). -/
def devEv (pa : Nat) (w : Word) (by_ : Writer) : Ev :=
  if pa = 0xF00001520028 then if w.getLsbD 61 then .mminvcAll w by_ else .mminvcPage w by_
  else if pa = 0xF00000C11000 then if w.getLsbD 61 then .hdeadcmdRevive w by_ else .hdeadcmdKill w by_
  else if pa = 0xF00000C10000 then if w.getLsbD 63 then .bsuctlEnable w by_ else .bsuctlDisable w by_
  else if 0xF00001200000 ≤ pa && pa < 0xF00001214000 && pa % 0x1000 = 0 && w.getLsbD 63 then
    .flstatRq ((pa - 0xF00001200000) / 0x1000) w by_
  else if pa = 0xF00001530000 && bitsAt w.toNat 60 2 = 0 then .smgcmdCreate w by_
  else if pa = 0xF00001530000 && bitsAt w.toNat 60 2 = 1 then .smgcmdClose w by_
  else if pa = 0xF00001530000 && bitsAt w.toNat 60 2 = 2 then .smgcmdDestroy w by_
  else if 0xF00001240000 ≤ pa && pa < 0xF00001240600 then .cbarWrite pa w by_
  else if 0xF00001300000 ≤ pa && pa < 0xF00001340000 && pa % 0x100 = 0 then
    if w.getLsbD 63 then .qctlEnable ((pa - 0xF00001300000) / 0x100) w by_
    else .qctlDisable ((pa - 0xF00001300000) / 0x100) w by_
  else if 0xF00002000000 ≤ pa && pa < 0xF00006000000 && pa % 0x10000 = 0 then .doorbellProd ((pa - 0xF00002000000) / 0x10000) w
  else if 0xF00002000000 ≤ pa && pa < 0xF00006000000 && pa % 0x10000 = 8 then .doorbellFres ((pa - 0xF00002000000) / 0x10000) w
  else if pa = 0xF00001500100 && w.getLsbD 62 then .atctlGo w by_
  else if pa = 0xF00001500140 then .mrext w by_
  else if 0xF00001521000 ≤ pa && pa < 0xF00001521400 && pa % 0x100 = 0x18 then .fppush ((pa - 0xF00001521000) / 0x100) w by_
  else if 0xF00001500200 ≤ pa && pa < 0xF000015004A0 then .pwltrWrite pa w by_
  else if pa = 0xF00001520100 && w.getLsbD 52 then .opurge w by_
  else .registerWrite pa w by_

end Sys2Proof.Machine
end

