-- ==== Sys2Proof/Machine/Ops.lean ====
section
/-! DEFINITION. What meanings share: the way a syllable stops (a trap or a block), taking a trap (R417 to R424) and the
return from one (R288, R425), metering (R122, R124), accesses to memory by a core (R20, R280, R178, R154), releases and
acquires (R133 to R143), inferred scopes (R146, R147), and pins (R204). -/
namespace Sys2Proof.Machine

/-! ## Stops -/

/-- Why a syllable does not complete: a trap with its subcode, `tva` and kind of access, or a block (R207). -/
inductive Stop where
  | trap (sub : Nat) (va : Word) (akind : Nat)
  | block
  deriving DecidableEq, Repr

/-- A meaning under way: it ends with a value or stops; the state holds what was requested on the way. -/
abbrev M (α : Type) := ExceptT Stop (StateM State) α

def trapIf (b : Bool) (sub : Nat) (va : Word := 0) (akind : Nat := 0) : M Unit :=
  if b then throw (.trap sub va akind) else pure ()
def blockIf (b : Bool) : M Unit := if b then throw .block else pure ()
/-- The context whose syllable is performed. -/
def getC : M Ctx := do return cc (← get)
def modC (f : Ctx → Ctx) : M Unit := modify fun s => upd s f

/-! ## Traps (16) -/

/-- The class of a subcode (R416). -/
def classOf (sub : Nat) : Nat :=
  if sub ≤ 5 then 1 else if sub ≤ 12 then 2 else if sub = 24 then 4 else if sub ≤ 25 then 3
  else if sub ≤ 36 then 5 else if sub ≤ 43 then 6 else if sub ≤ 51 then 7 else if sub ≤ 58 then 8
  else if sub ≤ 67 then 9 else 10

/-- `tcause` (R417). -/
def causeWord (eng : Bool) (akind sub : Nat) : Word :=
  BitVec.ofNat 64 ((if eng then 2 ^ 63 else 0) + akind * 2 ^ 36 + classOf sub * 2 ^ 16 + sub)

/-- `tstat` of a bundle trap (R418); `dly` counts the position at `tpc` (R425). -/
def statWord (x : Ctx) (slot : Option Nat) : Word :=
  BitVec.ofNat 64 ((if x.loop.active then 2 ^ 11 else 0) + (if x.ptaken then 2 ^ 10 else 0) + x.dly * 2 ^ 8
    + (match slot with | some n => 8 + n | none => 0))

/-- A fault of this subcode always carries a VA (R119, R419): NOMAP, PERM of a page, ROP. -/
def carriesVa (sub : Nat) : Bool := sub ≤ 10 || (32 ≤ sub && sub ≤ 36)
/-- The key of a fault (R416): its page where it carries a VA. -/
def faultKey (c asid sub : Nat) (va : Word) : PfKey :=
  if carriesVa sub || (va != 0 && classOf sub != 8) then .page asid (va.toNat / 65536) (classOf sub) else .ctx c (classOf sub)

/-- The word at 0x28 of a record (R420). -/
def ownerWord (asid c q : Nat) : Word := BitVec.ofNat 64 (asid + c * 2 ^ 16 + q * 2 ^ 32)

/-- A context's accesses no longer wait at any SVT. -/
def svtLeave (s : State) (pkg c : Nat) : State :=
  { s with svt := s.svt.map fun (d, l) => (d, l.map fun e => { e with waiters := e.waiters.filter fun w => w != (pkg, c) }) }

/-- A bundle trap of context c (R421): results in flight land, the five registers are written at once, the fetch buffer
is emptied, the record goes to the pending-fault table, and the context waits. `pc` is the resume point. -/
def takeTrap (s : State) (c sub : Nat) (va : Word) (akind : Nat) (slot : Option Nat) : State :=
  let x := landAll (ctxOf s c)
  let t := x.task.getD {}
  let x := { x with
    tcause := causeWord false akind sub, tstat := statWord x slot, tpc := x.pc, tva := va
    tcmd := if x.dly > 0 then x.pend else 0
    fetch := [], ahead := [], block := false, trap := some ⟨sub⟩ }
  let s := trRec (svtLeave (setCtx s c x) s.pkg c) c 2 x.tpc.toNat sub
  raiseFault s (dieOf c) { key := faultKey c t.asid sub va, who := .task t.tid, queue := t.queue, core := some (coreOf c)
                           words := [x.tcause, x.tstat, x.tpc, x.tva, x.tcmd, ownerWord t.asid c t.queue] }

/-- Illegal operation (R233 step 5). -/
def opTrap (b : Bool) : M Unit := trapIf b 51

/-! ## Metering (R122, R124) -/

def bsuOn (s : State) : Bool := (devGet s 0xF00000C10000).getLsbD 63

/-- A metered request of an owner: it goes on once its port has sent every unit (R124). -/
def meterFor (s : State) (core owner cls key tokens : Nat) : Bool × State :=
  if !bsuOn s || tokens = 0 || s.bsu.grants.contains (owner, key) then (true, s)
  else
    let l := SMap.getD s.bsu.queue core []
    if l.any fun r => r.owner = owner && r.key = key then (false, s)
    else (false, { s with bsu := { s.bsu with queue := SMap.set s.bsu.queue core (l ++ [⟨owner, key, cls, tokens⟩]) } })

def meter (key tokens : Nat) : M Unit := do
  let s ← get
  let (ok, s) := meterFor s (coreOf s.cur) s.cur (taskOf s s.cur).tclass key tokens
  set s
  blockIf (!ok)

/-- Tokens of n bytes (R122): one for each 64, and one for fewer. -/
def units (n : Nat) : Nat := (n + 63) / 64

/-- A line is current in an L1D, or in a CLC. -/
def l1Has (s : State) (core ln : Nat) : Bool :=
  ((SMap.get? (l1Of s core).lines ln).map fun l => decide (l.gens = gensL1 (l1Of s core))).getD false
def clcHas (s : State) (cl ln : Nat) : Bool :=
  ((SMap.get? (clcOf s cl).lines ln).map fun l => decide (l.gens = gensClc (clcOf s cl))).getD false

/-- The tokens of a core's plain access within one page, at the scope of the acquire that it is (R122, R127): the lines that miss. -/
def tokensAt (s : State) (core scope pa cp n : Nat) : Nat :=
  if uncached s pa cp then units n
  else (linePieces pa n).foldl (fun t (a, _, _) =>
    if (scope < 2 && cp != 3 && l1Has s core (a / 128)) || (scope < 3 && clcHas s (core / 8) (a / 128)) then t else t + 2) 0
/-- The tokens of a core's plain access within one page (R122). -/
def tokensOf (s : State) (core pa cp n : Nat) : Nat := tokensAt s core 0 pa cp n

/-- The grants of an owner among some keys are used up. -/
def dropGrants (s : State) (owner lo n : Nat) : State :=
  { s with bsu := { s.bsu with grants := s.bsu.grants.filter fun g => !(g.1 = owner && lo ≤ g.2 && g.2 < lo + n) } }

/-! ## Pieces of an access (R20, R280) -/

/-- A piece of an access within one page: its place in the access, its VA, and where it translates to. -/
structure Piece where
  off : Nat
  va : Word
  pkg : Nat
  pa : Nat
  cp : Nat
  len : Nat
  deriving DecidableEq, Repr

/-- The kind of an access in `tcause` (R417). -/
def akOf : Acc4 → Nat
  | .read => 1 | .write => 2 | .fetch => 3 | .atomic => 4

/-- An address translated for the issuing core: a fault traps, a page in kind 7 blocks (R29). -/
def xlatAs (va : Word) (acc : Acc4) (ak : Nat) : M (Nat × Nat × Nat) := do
  let s ← get
  let (r, s) := translate s (.core (coreOf s.cur)) (asidOf s s.cur) va acc
  set s
  match r with
  | .ok pkg pa cp => return (pkg, pa, cp)
  | .fault sub => throw (.trap sub va ak)
  | .park => throw .block

def xlat (va : Word) (acc : Acc4) : M (Nat × Nat × Nat) := xlatAs va acc (akOf acc)

/-- A local address that a core may access (R12, R165, R280): HBM, a decoded far address, a mailbox, or 8 aligned bytes
of device registers. -/
def physOk (s : State) (pa n : Nat) : Bool :=
  if isHbm pa then pa + n ≤ 0x00C000000000
  else if isFar pa then (farDecode s pa).isSome
  else if isMboxRange pa then isMbox pa && isMbox (pa + n - 1)
  else isDev pa && n == 8 && pa % 8 == 0

/-- The pieces of the bytes from `va`, one for each page, every page translated and checked before anything is
performed (R20, R280). -/
def pieces (va : Word) (n : Nat) (acc : Acc4) (off : Nat := 0) : Nat → M (List Piece)
  | 0 => return []
  | k + 1 => do
    if n = 0 then return []
    let (pkg, pa, cp) ← xlat va acc
    let m := min n (65536 - va.toNat % 65536)
    let s ← get
    trapIf (pkg == s.pkg && !physOk s pa (if isDev pa then n else m)) 4 va (akOf acc)
    let rest ← pieces (va + BitVec.ofNat 64 m) (n - m) acc (off + m) k
    return { off, va, pkg, pa, cp, len := m } :: rest

/-! ## Pins, outbound effects, destination lists -/

/-- The issuing task is pinned for good (R204). -/
def pinTask (s : State) (c : Nat) : State := updCtx s c fun x => { x with task := x.task.map fun t => { t with pinned := true } }
def pin : M Unit := modify fun s => pinTask s s.cur

/-- A page or address that the host sees (R204). -/
def hostVisible (pa cp : Nat) : Bool := cp == 3 || isFar pa

/-- An outbound effect of the issuing context waits until the checkpoint interval has ended (R392, R438). The end that
it requests serves it: the effect goes on in the interval that begins then. -/
def outboundKey : Nat := 2 ^ 80
def outbound : M Unit := do
  let s ← get
  let q := (taskOf s s.cur).queue
  if (qst s q).interval.isNone then return
  if (cc s).out then do blockIf (qst s q).ckptReq; return
  set (setQ (upd s fun x => { x with out := true }) q fun y => { y with ckptReq := true })
  throw .block

/-- A flushing read sent to a package (R183): its end-to-end number. -/
def sendFlush (s : State) (c pkg : Nat) : Nat × State :=
  gwSend s (dieOf c) { ty := 5, dst := pkg, src := s.pkg, sctx := c }

/-- Copy commands of the context still running (R143). -/
def copiesRun (s : State) (c : Nat) : Bool :=
  (SMap.getD s.eng (coreOf c) {}).x.any fun k => k.ctx = c && k.tid = (taskOf s c).tid
    && (k.kind = 0 || k.kind = 1 || k.kind = 3)
/-- An `xremote` of the context whose packets the gateway has not all taken (R143, R361). -/
def xremoteRuns (s : State) (c : Nat) : Bool :=
  (SMap.getD s.eng (coreOf c) {}).x.any fun k => k.ctx = c && k.tid = (taskOf s c).tid && k.kind = 2 && k.sent.isNone

/-- A package enters the destination list; a 65th waits until the oldest has been flushed (R143). -/
def destEnter (pkg : Nat) : M Unit := do
  let x ← getC
  if destRoom x pkg then modC fun x => destAdd x pkg
  else
    let s ← get
    match x.dests with
    | (p, _) :: _ =>
      if !(x.remote.any fun r => r.kind = 5 && r.pkg = p) then
        blockIf (copiesRun s s.cur || xremoteRuns s s.cur)
        let (n, s) := sendFlush s s.cur p
        set (upd s fun x => { x with remote := x.remote ++ [{ pkg := p, addr := 0, len := 0, kind := 5, arg := 1, eseq := n }] })
    | [] => pure ()
    throw .block

/-! ## Mailboxes (R154, R355) -/

/-- The number of the mailbox that holds an address. -/
def mboxOf (pa : Nat) : Nat := (pa - 0xF00000000000) / 0x10000
/-- A mailbox write as it lands (R154, R355): a multicast lands in every mailbox of its source's cluster. -/
def mboxLand (m : Memory) (w : MboxW) : Memory :=
  if w.cast then (List.range 8).foldl (fun m i => Memory.store m (0xF00000000000 + (w.core / 8 * 8 + i) * 0x10000 + w.pa) w.data) m
  else Memory.store m w.pa w.data

/-- A write in flight among the others: by clock, then by source core, a core's own in program order (R355). -/
def mboxInsert (w : MboxW) : List MboxW → List MboxW
  | [] => [w]
  | x :: l => if w.land < x.land || (w.land = x.land && w.core < x.core) then w :: x :: l else x :: mboxInsert w l
def mboxSend (s : State) (w : MboxW) : State := { s with mboxW := mboxInsert w s.mboxW }

/-- A write in flight lands in a mailbox. -/
def mboxHits (w : MboxW) (m : Nat) : Bool := if w.cast then w.core / 8 = m / 8 else mboxOf w.pa = m
/-- The clock at which the last write in flight of a context to a mailbox lands: its later writes land after it (R355). -/
def mboxLast (s : State) (c m : Nat) : Nat :=
  ((s.mboxW.filter fun w => w.ctx = c && mboxHits w m).map MboxW.land).foldl max 0
/-- The bytes of a mailbox at the end of a clock, as the writes in flight of a list leave them. -/
def mboxAt (s : State) (l : List MboxW) (clk pa n : Nat) : List Byte :=
  Memory.bytes ((l.filter fun w => w.land ≤ clk).foldl mboxLand s.mbox) pa n

/-! ## Loads (R131, R213, R280) -/

/-- The VA of a load. -/
def Flight_va (f : Flight) : Word :=
  match f.parts with | p :: _ => p.va - BitVec.ofNat 64 p.off | [] => 0
/-- The first key of a load's metered requests. -/
def flightKey (f : Flight) : Nat := 2 ^ 71 + (2 * f.pos + (match f.dst with | .g _ => 1 | _ => 0)) * 64
/-- Two pieces share a byte. -/
def sharesByte (pkg pa n : Nat) (p : LoadPart) : Bool := p.pkg = pkg && p.pa < pa + n && pa < p.pa + p.len
/-- A piece that has been neither performed nor sent. -/
def LoadPart_idle (p : LoadPart) : Bool := p.got.isNone && p.eseq.isNone

/-- The pieces of a load, performed one by one (R131): one a sector; in another package one for each 4 KiB block (R178). A mailbox
is sampled 3 clocks after issue, and not before the context's own plain stores have landed there (R129, R154). -/
def loadParts (s : State) (p : Piece) : List LoadPart :=
  let one (x : Nat × Nat × Nat) : LoadPart :=
    let base : LoadPart := { off := p.off + x.2.1, va := p.va + BitVec.ofNat 64 x.2.1, pkg := p.pkg, pa := x.1, cp := p.cp, len := x.2.2 }
    if p.pkg != s.pkg then
      let (a, l) := remoteSpan x.1 x.2.2
      { base with ask := some { ty := 0, dst := p.pkg, src := s.pkg, sctx := s.cur, addr := a, len := l } }
    else if isMbox x.1 then
      let own := s.mboxW.filter fun w => w.ctx = s.cur && w.plain && mboxHits w (mboxOf x.1)
      { base with due := (own.map MboxW.land).foldl max (s.clk + 3) }
    else base
  (if p.pkg != s.pkg then cutsAt 4096 p.pa p.len else sectorPieces p.pa p.len).map one

/-- The pieces of an access begun: device registers are read at issue, in the order of the context's accesses to them. -/
def startParts : List Piece → M (List LoadPart)
  | [] => return []
  | p :: ps => do
    let s ← get
    if p.pkg == s.pkg && isDev p.pa then
      blockIf (s.pending.any fun e => e.lane == some (100000 + s.cur))
      let (w, s) := devRead s p.pa
      set s
      let l ← startParts ps
      return { off := p.off, va := p.va, pkg := p.pkg, pa := p.pa, cp := p.cp, len := p.len, got := some (leBytes w.toNat 8, false) } :: l
    else do
      let l ← startParts ps
      return loadParts s p ++ l

/-- The pieces of a core's loads that wait at an HBM channel (R101). -/
def tagsUsed (s : State) (core ch : Nat) : Nat :=
  ((List.range 4).flatMap fun i => (ctxOf s (4 * core + i)).flights.flatMap fun f => f.parts.filter fun p =>
    LoadPart_idle p && p.pkg = s.pkg && isHbm p.pa && chanOf p.pa = ch).length
/-- A channel has no tag for one of the pieces: the context stalls (R101). -/
def tagsFull (s : State) (core : Nat) (l : List LoadPart) : Bool :=
  l.any fun p => p.pkg = s.pkg && isHbm p.pa && tagsUsed s core (chanOf p.pa) ≥ 64

/-- A load of some pieces put in flight (R213). -/
def loadOut (ps : List Piece) (d : Dst) (ext : Option Width) (akind bound : Nat) (acq : Option Nat) : M Unit := do
  let l ← startParts ps
  let s ← get
  blockIf (tagsFull s (coreOf s.cur) l)
  modify fun s => upd (trOverlap s d) fun x => flyLoad x d l ext akind bound acq

/-- A flight of a context changed. -/
def updFlight (s : State) (c k : Nat) (f : Flight → Flight) : State :=
  updCtx s c fun x => { x with flights := x.flights.modify k f }
/-- A piece performed: its bytes, or poison in the place of the load's result (R108). The last piece ends the load's tokens. -/
def putPart (s : State) (c k i : Nat) (b : List Byte) (psn : Bool) : State :=
  let s := updFlight s c k fun f => { f with
    poison := if psn && f.poison.isNone then some (Flight_va f) else f.poison
    parts := f.parts.modify i fun p => { p with got := some (b, psn) } }
  match (ctxOf s c).flights[k]? with
  | some f => if f.parts.all LoadPart_here then dropGrants s c (flightKey f) 64 else s
  | none => s

/-- The earlier accesses of the context that share a byte with a piece of flight k have been performed, and so have its earlier
acquires (R129, R130, R134). -/
def turnOfPart (s : State) (c k : Nat) (p : LoadPart) : Bool :=
  let x := ctxOf s c
  ((x.flights.take k).all fun f => f.acq.isNone && f.parts.all fun q => q.got.isSome || !sharesByte p.pkg p.pa p.len q)
    && !(p.pkg = s.pkg && x.stq.any fun e => e.pa < p.pa + p.len && p.pa < e.pa + e.bytes.length)
/-- A write in flight of the context follows a load of it in program order. -/
def wAfter (f : Flight) (w : MboxW) : Bool :=
  f.pos < w.pos || (f.pos = w.pos && !(w.plain && w.data.length ≤ 8 && (match f.dst with | .g _ => true | _ => false)))
/-- The bytes that a load samples in a mailbox (R154): of its own core's at the clock that it is due, of another's now; the
context's own later writes are not seen. -/
def mboxValue (s : State) (c : Nat) (f : Flight) (p : LoadPart) : List Byte :=
  let clk := if mboxOf p.pa = coreOf c then p.due else s.clk
  mboxAt s (s.mboxW.filter fun w => !(w.ctx = c && wAfter f w)) clk p.pa p.len

/-- The tokens of a piece and the key that they are sent under: pieces past the caches share the load's (R122). -/
def partTokens (s : State) (c : Nat) (f : Flight) (i : Nat) (p : LoadPart) : Nat × Nat :=
  let past (q : LoadPart) : Bool := q.pkg != s.pkg || (!isMboxRange q.pa && !isDev q.pa && uncached s q.pa q.cp)
  if past p then (flightKey f + 1, units (((f.parts.filter past).map LoadPart.len).foldl (· + ·) 0))
  else (flightKey f + 2 + i, tokensAt s (coreOf c) (f.acq.getD 0) p.pa p.cp p.len)
/-- The tokens of a piece have been sent. -/
def partMeter (s : State) (c : Nat) (f : Flight) (i : Nat) (p : LoadPart) : Bool × State :=
  let (key, n) := partTokens s c f i p
  meterFor s (coreOf c) c (taskOf s c).tclass key n

/-- LOAD_SAMPLE (R131, R154, R177): piece i of flight k performed, or sent to its package, once the context's earlier accesses to
its bytes are performed and its tokens are there. The pieces of an acquire in this package are performed together. -/
def samplePart (s : State) (c k i : Nat) : State :=
  match (ctxOf s c).flights[k]? with
  | none => s
  | some f =>
    match f.parts[i]? with
    | none => s
    | some p =>
      if !LoadPart_idle p || !turnOfPart s c k p then s
      else match p.ask with
      | some q =>
        match partMeter s c f i p with
        | (false, s) => s
        | (true, s) =>
          let (n, s) := gwSend s (dieOf c) q
          updFlight s c k fun f => { f with parts := f.parts.modify i fun r => { r with eseq := some n } }
      | none =>
        if f.acq.isSome then s
        else if isMbox p.pa then (if s.clk < p.due then s else putPart s c k i (mboxValue s c f p) false)
        else match partMeter s c f i p with
        | (false, s) => s
        | (true, s) =>
          let (b, psn, s) := coreReadPiece s (coreOf c) p.pa p.cp p.len
          putPart s c k i b psn

/-- Every piece of an acquire in this package has its tokens and its turn; the others have come. -/
def acqReady (s : State) (c k : Nat) (f : Flight) : Bool × State :=
  (List.range f.parts.length).foldl (fun (ok, s) i =>
    match f.parts[i]? with
    | none => (ok, s)
    | some p =>
      if p.got.isSome then (ok, s)
      else if p.ask.isSome || !turnOfPart s c k p || (isMbox p.pa && s.clk < p.due) then (false, s)
      else if isMbox p.pa then (ok, s)
      else let (b, s) := partMeter s c f i p; (ok && b, s)) (true, s)
/-- An acquire performed (R134, R139, R272): what it makes stale is stale before its read, and before every later access; the
fetch buffer is emptied. -/
def sampleAcq (s : State) (c k : Nat) : State :=
  match (ctxOf s c).flights[k]? with
  | none => s
  | some f =>
    match f.acq with
    | none => s
    | some scope =>
      match acqReady s c k f with
      | (false, s) => s
      | (true, s) =>
        let s := acquireAt s (coreOf c) scope
        let s := (List.range f.parts.length).foldl (fun s i =>
          match f.parts[i]? with
          | none => s
          | some p =>
            if p.got.isSome then s
            else if isMbox p.pa then putPart s c k i (mboxValue s c f p) false
            else let (b, psn, s) := coreReadPiece s (coreOf c) p.pa p.cp p.len; putPart s c k i b psn) s
        updCtx (updFlight s c k fun f => { f with acq := none }) c fun x => { x with fetch := [], ahead := [] }

/-- Every piece of a context's loads that can be performed now is (R207). -/
def sampleAll (s : State) (c : Nat) : State :=
  (List.range (ctxOf s c).flights.length).foldl (fun s k =>
    let n := match (ctxOf s c).flights[k]? with | some f => f.parts.length | none => 0
    sampleAcq ((List.range n).foldl (fun s i => samplePart s c k i) s) c k) s

/-- A trap waits until every result in flight has arrived, which then lands (R213, R421): its context blocks meanwhile. -/
def whenHere (s : State) (c : Nat) (f : State → State) : State :=
  if allHere (ctxOf s c) then f s else updCtx (sampleAll s c) c fun x => { x with block := true }

/-- A syllable's meaning as a step: it completes, traps, or blocks its context. -/
def run (slot : Nat) (m : M Unit) (s : State) : Host.Outcome State Fault Refusal :=
  match m s with
  | (.ok _, t) => .next t
  | (.error (.trap sub va ak), t) => .next (whenHere t t.cur fun t => takeTrap t t.cur sub va ak (some slot))
  | (.error .block, t) => .next (upd t fun x => { x with block := true })

/-! ## Stores on their way (R131) -/

/-- Lines that a releasing store wrote go to the point of coherence of its scope (R127, R133). -/
def storeThrough (s : State) (core pa cp n scope : Nat) : State :=
  if scope < 2 || uncached s pa cp then s
  else (linePieces pa n).foldl (fun s (a, _, _) =>
    let s := l1WriteBack s core (a / 128)
    if scope ≥ 3 then clcWriteBack s (core / 8) (a / 128) else s) s
/-- A piece of a store performed. -/
def performPart (s : State) (c : Nat) (e : StorePart) : State :=
  storeThrough (coreWritePiece s c (coreOf c) (some e.queue) e.pa e.cp e.bytes) (coreOf c) e.pa e.cp e.bytes.length e.through

/-- STORE_PIECE (R131): piece j of a context's stores performed, once its earlier pieces of the same bytes are. -/
def drainPart (s : State) (c j : Nat) : State :=
  match (ctxOf s c).stq[j]? with
  | none => s
  | some e =>
    if ((ctxOf s c).stq.take j).any fun x => x.pa < e.pa + e.bytes.length && e.pa < x.pa + x.bytes.length then s
    else performPart (updCtx s c fun x => { x with stq := x.stq.eraseIdx j }) c e
/-- Every piece of a context's stores performed, in order. -/
def drainAll (s : State) (c : Nat) : State :=
  (ctxOf s c).stq.foldl (fun s e => performPart s c e) (updCtx s c fun x => { x with stq := [] })

/-- A load of an earlier bundle is not performed yet. -/
def loadsLeft (x : Ctx) : Bool := x.flights.any fun f => f.pos < x.pos && !Flight_here f
/-- Earlier accesses of the issuing context to some bytes are performed before the one that asks (R129, R130). -/
def settleBytes (pkg pa n : Nat) : M Unit := do
  modify fun s =>
    let x := cc s
    let s := if x.flights.any fun f => f.parts.any fun p => p.got.isNone && sharesByte pkg pa n p then sampleAll s s.cur else s
    if pkg = s.pkg && x.stq.any fun e => e.pa < pa + n && pa < e.pa + e.bytes.length then drainAll s s.cur else s
  let x ← getC
  blockIf (x.flights.any fun f => f.pos < x.pos && f.parts.any fun p => p.got.isNone && sharesByte pkg pa n p)
/-- Earlier loads of the context are performed (R133, R135). -/
def settleLoads : M Unit := do
  modify fun s => sampleAll s s.cur
  blockIf (loadsLeft (← getC))
/-- Earlier plain accesses are performed before an engine command that the context issues (R148, R149). -/
def settleIssue : M Unit := do
  modify fun s => drainAll s s.cur
  settleLoads
/-- Every earlier access of the context is performed (R133): loads, stores, mailbox writes and device registers. Those of the
same bundle are performed as far as they can be at once (log 87). -/
def settleAll : M Unit := do
  settleIssue
  let s ← get
  let x := cc s
  blockIf (s.mboxW.any fun w => w.ctx = s.cur && w.pos < x.pos)
  blockIf (x.devPos < x.pos && s.pending.any fun e => e.lane == some (100000 + s.cur))

/-! ## Requests to other packages -/

/-- A request to another package, and its reply once it has come (R177, R179): the bytes, and whether they are poisoned.
`kind`: the packet type. A reply that refuses is used up, so that a retry asks again (R33). -/
def remoteAsk (pkg addr len kind arg : Nat) (data : List Byte) (va : Word) : M (List Byte × Bool) := do
  let s ← get
  let x := cc s
  let mine (r : Remote) : Bool := r.pkg = pkg && r.addr = addr && r.len = len && r.kind = kind && r.arg = arg
  match x.remote.find? mine with
  | some r =>
    match r.reply with
    | none => throw .block
    | some (b, psn, refused) =>
      if refused then
        modC fun x => { x with remote := x.remote.filter fun r => !mine r }
        throw (.trap 5 va (if kind = 2 then 4 else 1))
      return (b, psn)
  | none =>
    let (n, s) := gwSend s (dieOf s.cur)
      { ty := kind, dst := pkg, src := s.pkg, sctx := s.cur, op := arg, addr := addr, len := len, data := data }
    set (upd s fun x => { x with remote := x.remote ++ [{ pkg, addr, len, kind, arg, eseq := n }] })
    throw .block

/-- A read of another package's bytes, one request for each 4 KiB block (R178). -/
def remoteRead (pkg : Nat) (va : Word) : List (Nat × Nat × Nat) → M (List Byte × Bool)
  | [] => return ([], false)
  | (pa, o, n) :: l => do
    let (a, k) := remoteSpan pa n
    let (b, p) ← remoteAsk pkg a k 0 0 [] (va + BitVec.ofNat 64 o)
    let (bs, q) ← remoteRead pkg va l
    return ((b.drop (pa - a)).take n ++ bs, p || q)

/-- Bytes read at once within one page, whose poison is a fault of the bundle (R356, R388). -/
def readNow (p : Piece) : M (List Byte × Bool) := do
  settleBytes p.pkg p.pa p.len
  let s ← get
  if p.pkg != s.pkg then
    meter (p.va.toNat * 4) (units p.len)
    remoteRead p.pkg p.va (cutsAt 4096 p.pa p.len)
  else if isMbox p.pa then return (mboxAt s s.mboxW s.clk p.pa p.len, false)
  else if isDev p.pa then
    blockIf (s.pending.any fun e => e.lane == some (100000 + s.cur))
    let (w, s) := devRead s p.pa
    set s
    return (leBytes w.toNat 8, false)
  else
    meter (p.va.toNat * 4) (tokensOf s (coreOf s.cur) p.pa p.cp p.len)
    let (b, psn, s) := coreRead (← get) (coreOf s.cur) p.pa p.cp p.len
    set s
    return (b, psn)
def readAllNow : List Piece → M (List Byte × Bool)
  | [] => return ([], false)
  | p :: ps => do
    let (b, x) ← readNow p
    let (bs, y) ← readAllNow ps
    return (b ++ bs, x || y)
/-- Mem(va, n) read before the bundle issues. -/
def loadClean (va : Word) (n : Nat) : M (List Byte) := do
  let (b, p) ← readAllNow (← pieces va n .read 0 ((n + 65535) / 65536 + 1))
  trapIf p 24 va 1
  return b

/-! ## Stores -/

/-- One piece of a masked store, every check passed. A store that spans sectors is performed later, one piece a sector (R131); one
to a mailbox lands after the context's earlier accesses there. `whole`: the piece is all of the store; `through`: the
scope of a releasing store. -/
def storePiece (p : Piece) (whole : Bool) (bs : List (Option Byte)) (through : Nat := 0) : M Unit := do
  let s ← get
  let c := s.cur
  let x := cc s
  let sl := (bs.drop p.off).take p.len
  let q := (taskOf s c).queue
  if p.pkg != s.pkg then set (remoteWrite s c p.pkg p.pa sl false)
  else if isMbox p.pa then
    let mine := x.flights.flatMap fun f => f.parts.filter fun r => LoadPart_idle r && sharesByte s.pkg p.pa p.len r
    let land := (mine.map fun r => r.due + 1).foldl max (max s.clk (mboxLast s c (mboxOf p.pa)))
    set (mboxSend s { land := land, core := coreOf c, ctx := c, pa := p.pa, data := sl, cast := false, plain := true, pos := x.pos })
  else if isDev p.pa then
    set (upd (causeIn s (100000 + c) (devEv p.pa (BitVec.ofNat 64 (ofLe (sl.map fun b => b.getD 0))) .task)) fun x => { x with devPos := x.pos })
  else if whole && p.pa / 32 = (p.pa + p.len - 1) / 32 then
    set (storeThrough (coreWrite s c (coreOf c) (some q) p.pa p.cp sl) (coreOf c) p.pa p.cp p.len through)
  else
    let parts := (sectorPieces p.pa p.len).map fun (a, o, n) => ({ pa := a, cp := p.cp, bytes := (sl.drop o).take n, queue := q, through } : StorePart)
    set (upd s fun x => { x with stq := x.stq ++ parts.filter fun e => e.bytes.any Option.isSome })

/-- The tokens of a store (R122): those of what it moves past the CLC together, and of each line that misses. -/
def storeTokens (s : State) (ps : List Piece) : Nat :=
  let past (p : Piece) : Bool := p.pkg != s.pkg || (!isMboxRange p.pa && !isDev p.pa && uncached s p.pa p.cp)
  units (((ps.filter past).map Piece.len).foldl (· + ·) 0)
    + ((ps.filter fun p => !past p && !isMboxRange p.pa && !isDev p.pa).map fun p => tokensOf s (coreOf s.cur) p.pa p.cp p.len).foldl (· + ·) 0

/-- What a store needs before it is performed: earlier accesses to its bytes, the end of the interval, a place on the
destination list. -/
def storeReady (p : Piece) : M Unit := do
  settleBytes p.pkg p.pa p.len
  let s ← get
  if p.pkg != s.pkg then
    outbound
    destEnter p.pkg
  else if isMbox p.pa || isDev p.pa then
    blockIf (isDev p.pa && (s.pending.any fun e => e.lane == some (100000 + s.cur)))
  else if hostVisible p.pa p.cp then outbound
/-- A piece of a store that pins the task (R204). -/
def pinsTask (s : State) (p : Piece) : Bool :=
  p.pkg != s.pkg || (!isMbox p.pa && !isDev p.pa && hostVisible p.pa p.cp)
/-- A store's conditions met and its tokens sent; then the task is pinned where R204 says so. -/
def storeAll (va : Word) (ps : List Piece) : M Unit := do
  for p in ps do storeReady p
  let s ← get
  meter (va.toNat * 4 + 1) (storeTokens s ps)
  modify fun s => if ps.any (pinsTask s) then pinTask s s.cur else s

/-- Bytes of a copy descriptor that a command of the context has not read yet: a store to them is held (R356). -/
def descHeld (s : State) (va n : Nat) : Bool :=
  (SMap.getD s.eng (coreOf s.cur) {}).x.any fun k => k.ctx = s.cur && k.kind < 4 && k.blk.isNone
    && k.a.toNat / 64 * 64 < va + n && va < k.a.toNat / 64 * 64 + 64

/-- A masked store by the issuing context of the bytes from `va`. -/
def storeMem (va : Word) (bs : List (Option Byte)) : M Unit := do
  blockIf (descHeld (← get) va.toNat bs.length)
  let ps ← pieces va bs.length .write 0 ((bs.length + 65535) / 65536 + 1)
  storeAll va ps
  for p in ps do storePiece p (ps.length = 1) bs

/-! ## Releases and acquires -/

/-- DESTINATION_FLUSH (R143): flushing reads to every listed package, and their answers; then the list is empty. -/
def flushDests : M Unit := do
  let s ← get
  blockIf (copiesRun s s.cur || xremoteRuns s s.cur)
  let x := cc s
  if x.dests.isEmpty then return
  let asked (p : Nat) := x.remote.any fun r => r.kind = 5 && r.pkg = p
  if x.dests.all fun d => asked d.1 then
    if x.dests.all fun d => x.remote.any fun r => r.kind = 5 && r.pkg = d.1 && r.reply.isSome then
      modC fun x => { x with dests := [], remote := x.remote.filter fun r => r.kind != 5 }
    else throw .block
  else
    for d in x.dests do
      let s ← get
      if !asked d.1 then
        let (n, s) := sendFlush s s.cur d.1
        set (upd s fun x => { x with remote := x.remote ++ [{ pkg := d.1, addr := 0, len := 0, kind := 5, eseq := n }] })
    throw .block

/-- A system scope waits for the context's far writes (R168), and any scope for those of an earlier `cwb` that it covers (R284). -/
def farWait (scope : Nat) : M Unit := do
  let x ← getC
  blockIf (x.farOut != 0 && (scope ≥ 6 || (x.cwb != 0 && scope ≥ x.cwb)))

/-- A release of the issuing context at a scope (R133, R141, R143, R168), after every earlier access; earlier page
invalidations are waited for where the release is a fence (`inv`). -/
def release (scope : Nat) (inv : Bool := false) : M Unit := do
  blockIf (inv && scope ≥ 4 && (← getC).inval != 0)
  if scope ≥ 1 then settleAll
  modify fun s => releaseAt s (coreOf s.cur) scope
  if scope ≥ 5 then flushDests
  farWait scope

/-- An acquire of the issuing context at a scope (R134, R139, R272). -/
def acquire (scope : Nat) : M Unit := do
  modify fun s => acquireAt s (coreOf s.cur) scope
  modC fun x => { x with fetch := [], ahead := [] }

/-! ## Inferred scope (R144 to R147) -/

/-- The span of two agents of this package (R146). -/
def span (a b : Nat) : Nat :=
  if a = b then 0 else if a / 4 = b / 4 then 1 else if a / 32 = b / 32 then 2 else if a / 192 = b / 192 then 3 else 4

/-- The die that keeps a sector's sync variable (R144). -/
def svtDie (s : State) (pa : Nat) : Nat :=
  if isHbm pa then dieOfChan (chanOf pa) else match farDecode s pa with | some h => 2 * h.port | none => 0

def svtOf (s : State) (die sector : Nat) : Option SvtE := (SMap.getD s.svt die []).find? fun e => e.sector = sector
def setSvt (s : State) (die : Nat) (e : SvtE) : State :=
  { s with svt := SMap.modify s.svt die [] fun l => l.map fun x => if x.sector = e.sector then e else x }

/-- SVT_RESOLVE (R146): the scope of an inferred access of a package's context at the sector's SVT, which handles the accesses to
an entry one at a time, in arrival order; none while it waits, or while a widening waits for the retroactive releases (R147). -/
def svtAccess (s : State) (d sec pkg c : Nat) : Option Nat × State :=
  match svtOf s d sec with
  | none => (some 6, s)
  | some e =>
    let w := if e.waiters.contains (pkg, c) then e.waiters else e.waiters ++ [(pkg, c)]
    if e.widening.isSome || w.head? != some (pkg, c) then (none, setSvt s d { e with waiters := w })
    else if !e.anch then (some 0, setSvt s d { e with anch := true, apkg := pkg, actx := c, waiters := w.tail })
    else
      let n := max e.scope (if e.apkg = pkg then span e.actx c else 5)
      if n = e.scope then (some n, setSvt s d { e with waiters := w.tail })
      else (none, cause (setSvt s d { e with widening := some (n, c, 0), waiters := w }) (.svtWidenAcked d sec))
/-- The scope at which an access of the issuing context acts (R146): at the SVT of this package, or of the package that holds the
frame (R144), which a request asks. -/
def resolve (pkg pa scope : Nat) : M Nat := do
  if scope != 7 then return scope
  let s ← get
  if pkg != s.pkg then
    let (b, _) ← remoteAsk pkg (pa / 32 * 32) 8 2 17 [] 0
    return ofLe b
  match svtAccess s (svtDie s pa) (pa / 32) s.pkg s.cur with
  | (some n, s) => do set s; return n
  | (none, s) => do set s; throw .block

/-! ## Scopes and orders as codes -/

def Scope.code : Scope → Nat
  | .ctx => 0 | .core => 1 | .cl => 2 | .die => 3 | .pkg => 4 | .dom => 5 | .sys => 6 | .inf => 7
def Ord.acqs : Ord → Bool
  | .acq | .ar => true | _ => false
def Ord.rels : Ord → Bool
  | .rel | .ar => true | _ => false

/-! ## Results -/

def outS (d : SReg) (v : Word) (bound : Nat) : M Unit := modify fun s => emitS s d v bound
def outP (p : BitVec 3) (b : Bool) (bound : Nat) : M Unit :=
  modify fun s => emit s (.p p) (if b then 1 else 0) 0 bound
def outG (g : GReg) (v : Vec) (bound : Nat) : M Unit := modify fun s => emit s (dstG (cc s) g) v 0 bound

/-- A program may not write s56 to s59 while a loop is active (R216). -/
def loopReg (x : Ctx) (d : SReg) : Bool := x.loop.active && 56 ≤ d.toNat && d.toNat ≤ 59

end Sys2Proof.Machine
end

