-- ==== Sys2Proof/Machine/Fetch.lean ====
section
/-! DEFINITION. Instruction fetch (R233 step 1, R272, R275, R423): the words that a context has read, what its next bundle
still needs, the fall-through of a control instruction (R267) and the walk of a loop body (R275). -/
namespace Sys2Proof.Machine

/-- A word of the blocks read. -/
def blockWord (bs : List (Nat × List (BitVec 32))) (a : Nat) : Option (BitVec 32) :=
  match bs.find? fun b => b.1 = a / 64 with
  | some (_, ws) => ws[a % 64 / 4]?
  | none => none

/-- A word of the next bundle: from the loop buffer while a loop runs, else from the fetch buffer. -/
def wordAt (x : Ctx) (a : Nat) : Option (BitVec 32) :=
  match if x.loop.active then blockWord x.loop.buffer a else none with
  | some w => some w
  | none => blockWord x.fetch a

/-- A word that the sequencer reads ahead. -/
def aheadAt (x : Ctx) (a : Nat) : Option (BitVec 32) :=
  match wordAt x a with
  | some w => some w
  | none => blockWord x.ahead a

/-- `n` words from address `a`, or the address of the first one not read. -/
def wordsFrom (get : Nat → Option (BitVec 32)) (a : Nat) : Nat → Except Nat (List (BitVec 32))
  | 0 => .ok []
  | n + 1 =>
    match get a with
    | none => .error a
    | some w => match wordsFrom get (a + 4) n with | .ok l => .ok (w :: l) | .error e => .error e

/-- The words of the bundle at `a` that step 1 of R233 fetches. -/
def bundleWords (get : Nat → Option (BitVec 32)) (a : Nat) : Except Nat (List (BitVec 32)) :=
  match wordsFrom get a 1 with
  | .error e => .error e
  | .ok ws => match wordsFrom get a (wordsNeeded ws) with
    | .error e => .error e
    | .ok ws => wordsFrom get a (wordsNeeded ws)

/-- The run and the length in bytes of the bundle at `a`, by presence and L bits alone (R222, R267). -/
def bundleSize (get : Nat → Option (BitVec 32)) (a : Nat) : Except Nat (Nat × Nat) :=
  match wordsFrom get a 1 with
  | .error e => .error e
  | .ok ws =>
    let n := (Header.of (ws.headD 0)).slots.length
    match wordsFrom get a (n + 1) with
    | .error e => .error e
    | .ok ws => .ok ((Header.of (ws.headD 0)).run.toNat, 4 * (n + 1 + ((ws.tail).filter fun w => w.getLsbD 31).length))

/-- The first header after `left` further positions from `a` (R267). -/
def skipPositions (get : Nat → Option (BitVec 32)) : Nat → Nat → Nat → Except Nat Nat
  | _, a, 0 => .ok a
  | 0, a, _ => .ok a
  | fuel + 1, a, left + 1 =>
    match bundleSize get a with
    | .error e => .error e
    | .ok (r, n) => skipPositions get fuel (a + n) (left - r)

/-- The fall-through address of the control instruction in the bundle at pc (R267). -/
def fallThrough (x : Ctx) : Except Nat Nat :=
  match bundleSize (aheadAt x) x.pc.toNat with
  | .error e => .error e
  | .ok (r, n) => skipPositions (aheadAt x) 3 (x.pc.toNat + n) (3 - r)

/-- What the walk of a loop body finds (R275): the body's blocks, a fault of the walk, or an address not read. -/
inductive BodyR where
  | ok
  | bad
  | need (a : Nat)
  deriving DecidableEq, Repr

/-- `loop`, `ring` or `eret`: a body holds none of them. -/
def bodyForbids (i : Instr) : Bool := match i with | .loop .. => true | .ring .. => true | .eret _ => true | _ => false
/-- The S syllable of a bundle's words is one that a body may not hold, whatever the checks of the other syllables find. -/
def wordsForbid (ws : List (BitVec 32)) : Bool :=
  match (Header.of (ws.headD 0)).slots with
  | .S :: _ =>
    let a := ws.getD 1 0
    let n := (Header.of (ws.headD 0)).slots.length
    match decodeSyl .S (Syl.ofWords a (if a.getLsbD 31 then ws.getD (n + 1) 0 else 0)) with
    | some i => bodyForbids i
    | none => false
  | _ => false

/-- The walk of the body from `a` to the bundle at `le`, `cnt` positions so far (R275). -/
def walkBody (get : Nat → Option (BitVec 32)) (le : Nat) : Nat → Nat → Nat → BodyR
  | 0, _, _ => .bad
  | fuel + 1, a, cnt =>
    if a > le then .bad
    else match bundleWords get a with
    | .error e => .need e
    | .ok ws =>
      let h := Header.of (ws.headD 0)
      let n := h.slots.length
      let len := 4 * (n + 1 + ((ws.tail.take n).filter fun w => w.getLsbD 31).length)
      let cnt := cnt + 1 + h.run.toNat
      if cnt > 32 || wordsForbid ws then .bad
      else if a = le then .ok
      else walkBody get le fuel (a + len) cnt

/-- Positions of the active body after the first position of the bundle at pc (R216). -/
def positionsAfter (x : Ctx) : Nat → Nat → Nat
  | 0, _ => 0
  | fuel + 1, a =>
    match bundleSize (wordAt x) a with
    | .error _ => 0
    | .ok (r, n) => if a = x.loop.le.toNat then r else r + 1 + positionsAfter x fuel (a + n)

/-- The six control instructions with delay positions (R226). -/
def isControl : Instr → Bool
  | .br .. | .brc .. | .call .. | .callr .. | .ret .. | .jr .. => true
  | _ => false

/-- The address of a word offset from the bundle at pc (R228, R274). -/
def target (x : Ctx) (off : BitVec 20) : Word := x.pc + (off.signExtend 64 <<< 2)
/-- The last bundle of a loop's body. -/
def loopEnd (x : Ctx) (off : BitVec 12) : Word := x.pc + (off.setWidth 64 <<< 2)
/-- The address after the bundle at pc. -/
def afterBundle (x : Ctx) : Word :=
  match bundleSize (wordAt x) x.pc.toNat with
  | .ok (_, n) => x.pc + BitVec.ofNat 64 n
  | .error _ => x.pc + 4

/-- What the next bundle of a context needs: a block, for the bundle itself or read ahead, or nothing more. -/
inductive Need where
  | fetch (a : Nat) (ahead : Bool)
  | go (ws : List (BitVec 32))
  deriving DecidableEq, Repr

/-- What the bundle at pc reads ahead: an address not read yet. -/
def aheadNeed (x : Ctx) (b : Bundle) : Option Nat :=
  b.ops.findSome? fun (_, i) =>
    if isControl i then match fallThrough x with | .error a => some a | .ok _ => none
    else match i with
    | .loop _ _ _ _ _ off =>
      match walkBody (aheadAt x) (loopEnd x off).toNat 33 (afterBundle x).toNat 0 with | .need a => some a | _ => none
    | _ => none

/-- What the bundle at pc needs before it can issue (R233 step 1, R267, R275). -/
def fetchNeed (x : Ctx) : Need :=
  match bundleWords (wordAt x) x.pc.toNat with
  | .error a => .fetch a false
  | .ok ws => match decodeBundle ws with
    | .error _ => .go ws
    | .ok b => match aheadNeed x b with | some a => .fetch a true | none => .go ws

/-- The bytes of a block as words. -/
def wordsOf : List Byte → List (BitVec 32)
  | a :: b :: c :: d :: r => (d ++ c ++ b ++ a) :: wordsOf r
  | _ => []

/-- A block placed in the fetch buffer, which keeps at most four blocks from the next position on (R272). -/
def putBlock (x : Ctx) (ahead : Bool) (blk : Nat) (ws : List (BitVec 32)) : Ctx :=
  if ahead then { x with ahead := x.ahead ++ [(blk, ws)] }
  else
    let l := (x.fetch.filter fun b => x.pc.toNat / 64 ≤ b.1 && b.1 != blk) ++ [(blk, ws)]
    { x with fetch := l.drop (l.length - 4) }

/-- A bundle address that no header word can have (R226, R270). -/
def badPc (x : Ctx) : Bool := x.pc.toNat % 4 != 0

/-- The read of the block that a context's next bundle needs (R272): through the core's TLB and the CLC of its cluster.
A fault is taken at the bundle (R423). -/
def fetchBlock (s : State) (c : Nat) : State :=
  let x := ctxOf s c
  match (if badPc x then .go [] else fetchNeed x) with
  | .go _ => s
  | .fetch a ahead =>
    let core := coreOf c
    let va : Word := BitVec.ofNat 64 (a / 64 * 64)
    let used (s : State) : State := dropGrants s c (2 ^ 70 + a / 64) 1
    let fault (s : State) (sub : Nat) : State := whenHere (used s) c fun s => takeTrap s c sub (BitVec.ofNat 64 a) 3 none
    let deliver (s : State) (b : List Byte) : State := updCtx (used s) c fun x => putBlock x ahead (a / 64) (wordsOf b)
    match translate s (.core core) (asidOf s c) (BitVec.ofNat 64 a) .fetch with
    | (.fault sub, s) => fault s sub
    | (.park, s) => s
    | (.ok pkg pa cp, s) =>
      let pa := pa / 64 * 64
      if pkg != s.pkg then
        let m := s.cur
        let (ok, s) := meterFor s core c (taskOf s c).tclass (2 ^ 70 + a / 64) 1
        if !ok then s
        else match remoteAsk pkg pa 64 0 1 [] va { s with cur := c } with
        | (.ok (b, psn), s) => if psn then fault { s with cur := m } 24 else deliver { s with cur := m } b
        | (.error (.trap sub _ _), s) => fault { s with cur := m } sub
        | (.error .block, s) => { s with cur := m }
      else if !isHbm pa && !(isFar pa && (farDecode s pa).isSome) then fault s 4
      else
        match meterFor s core c (taskOf s c).tclass (2 ^ 70 + a / 64)
            (if uncached s pa cp then 1 else if clcHas s (core / 8) (pa / 128) then 0 else 2) with
        | (false, s) => s
        | (true, s) =>
          let (b, psn, s) := if uncached s pa cp then coreRead s core pa cp 64 else coreRead s core pa 3 64
          if psn then fault s 24 else deliver s b

end Sys2Proof.Machine
end

