-- ==== Sys2Proof/Machine/Control.lean ====
section
/-! DEFINITION. What follows a bundle position (R215, R217, R224, R226, R267), branches, calls and returns (R267 to R271),
loops and rings (R274 to R276), the S slot's system instructions (R287, R288, R290) and the empty bundle (R224). -/
namespace Sys2Proof.Machine

/-! ## After a position -/

/-- One level of the end test (R215): the index, and whether the level is complete. `top`: no higher level follows. -/
def stepLevel (idx : Word) (lc : BitVec 32) (top : Bool) : Word × Bool :=
  if idx.toNat + 1 ≥ lc.toNat then (if top then idx + 1 else 0, true) else (idx + 1, false)

/-- The indices after the end test from level n up, and whether every level is complete. -/
def stepLevels (x : Ctx) (levels : Nat) : Nat → Nat → Ctx × Bool
  | 0, _ => (x, true)
  | k + 1, n =>
    let idx := x.s.toList.getD (56 + n) 0
    let (v, done) := stepLevel idx (x.loop.lc.toList.getD n 0) (n + 1 = levels)
    let x := if h : 56 + n < 64 then { x with s := x.s.set (56 + n) v h } else x
    if done then stepLevels x levels k (n + 1) else (x, false)

/-- LOOP_END_TEST (R215, R217): the indices advance, the rings rotate with i, and the loop ends or its body repeats. -/
def loopEndTest (x : Ctx) : Ctx :=
  let (x, done) := stepLevels x x.loop.levels x.loop.levels 0
  let lp := { x.loop with i := x.loop.i + 1 }
  if done then { x with loop := { lp with active := false, rings := [], buffer := [] } }
  else { x with loop := lp, pc := lp.lb, fold := 0 }

/-- The transfer after the third delay position (R267); a taken one ends a loop (R218) and empties the fetch buffer
(R272). -/
def transferNow (x : Ctx) : Ctx :=
  let x := { x with dly := 0, pc := x.pend, fold := 0, pend := 0 }
  if x.ptaken then
    { x with ptaken := false, fetch := [], ahead := []
             loop := { x.loop with active := false, rings := [], buffer := [] } }
  else x

/-- What follows a position that has issued: `d` delay positions were to issue, this one included. -/
def posDone (x : Ctx) (d : Nat) : Ctx :=
  let x := { x with pos := x.pos + 1 }
  let leaving := d > 0 && x.ptaken
  let x := if d = 1 then transferNow x else if d > 1 then { x with dly := d - 1 } else x
  if x.loop.active && !leaving && x.hdr = x.loop.le && x.fold = 0 then loopEndTest x else x

/-- The bundle at pc has been performed: its first position has issued, and its run follows (R224). `d`: the delay
positions that were to issue before it, itself included. -/
def bundleDone (x : Ctx) (d words run : Nat) : Ctx :=
  let x := { x.late.foldl applyLate x with late := [] }
  let pc := match x.loop.skip with | some a => a | none => x.pc + BitVec.ofNat 64 (4 * words)
  posDone { x with hdr := x.pc, pc := pc, fold := run, half := false, held := false, out := false, wfi := none, remote := [], block := false
                   loop := { x.loop with skip := none } } d

/-- A folded empty position issues (R224). -/
def foldDone (x : Ctx) : Ctx := posDone { x with fold := x.fold - 1 } x.dly

/-- Every folded position that is left issues. -/
def foldsDone (x : Ctx) : Nat → Ctx
  | 0 => x
  | n + 1 => if x.fold = 0 then x else foldsDone (foldDone x) n

/-- The length in words and the run of the bundle at pc. -/
def bundleShape (x : Ctx) : Nat × Nat :=
  match bundleSize (wordAt x) x.pc.toNat with
  | .ok (r, n) => (n / 4, r)
  | .error _ => (1, 0)

/-! ## Transfers (R267 to R271) -/

/-- A control instruction at issue: it may stand neither in a delay position nor in the last three positions of a
body (R226, R216); its delay bundles have been read; the address after them is recorded. -/
def control (taken : Bool) (tgt : Word) (link : Bool) (info : Nat) : M Unit := do
  let x ← getC
  opTrap (x.dly > 0 || (x.loop.active && positionsAfter x 33 x.pc.toNat < 3))
  match fallThrough x with
  | .error _ => throw .block
  | .ok ft =>
    let ft : Word := BitVec.ofNat 64 ft
    if taken && link then outS 63 ft 1
    modC fun x => { x with dly := 3, ptaken := taken, pend := if taken then tgt else ft }
    if taken then modify fun s => trCtl s s.cur 1 tgt.toNat info

/-- pred XOR neg (R228). -/
def predTaken (x : Ctx) (p : BitVec 3) (neg : Bool) : Bool := rdP x p != neg

def brTest (t : BrTest) (w : Word) : Bool :=
  match t with
  | .z => w == 0 | .nz => w != 0 | .neg => w.getLsbD 63 | .nneg => !w.getLsbD 63

/-- `br` (R267). -/
def execBr (p : BitVec 3) (neg : Bool) (off : BitVec 20) (s : State) : Host.Outcome State Fault Refusal :=
  run 0 (control (predTaken (cc s) p neg) (target (cc s) off) false 0) s
/-- `brc` (R268). -/
def execBrc (p : BitVec 3) (neg : Bool) (off : BitVec 20) (c : SReg) (t : BrTest) (s : State) : Host.Outcome State Fault Refusal :=
  run 0 (control (predTaken (cc s) p neg && brTest t (rdS (cc s) c)) (target (cc s) off) false 0) s
/-- `call` (R269). -/
def execCall (p : BitVec 3) (neg : Bool) (off : BitVec 20) (s : State) : Host.Outcome State Fault Refusal :=
  run 0 (control (predTaken (cc s) p neg) (target (cc s) off) true 1) s
/-- `callr` (R269): the target is read at issue. -/
def execCallr (a : SReg) (q : BitVec 3) (s : State) : Host.Outcome State Fault Refusal :=
  run 0 (control (rdP (cc s) q) (rdS (cc s) a) true 2) s
/-- `ret` (R270). -/
def execRet (a : SReg) (q : BitVec 3) (s : State) : Host.Outcome State Fault Refusal :=
  run 0 (control (rdP (cc s) q) (rdS (cc s) a) false 3) s
/-- `jr` (R270). -/
def execJr (a : SReg) (q : BitVec 3) (s : State) : Host.Outcome State Fault Refusal :=
  run 0 (control (rdP (cc s) q) (rdS (cc s) a) false 4) s

/-! ## Loops and rings (R274 to R276) -/

/-- The address after the bundle at `a`. -/
def afterAt (x : Ctx) (a : Nat) : Nat :=
  match bundleSize (aheadAt x) a with | .ok (_, n) => a + n | .error _ => a + 4

/-- `loop` (R274, R275): the loop is active, and its indices are 0, after its bundle; the bundle reads the old values (R213). -/
def execLoop (c0 c1 c2 c3 : SReg) (levels : BitVec 2) (off : BitVec 12) (s : State) : Host.Outcome State Fault Refusal :=
  run 0 (do
    let x ← getC
    opTrap (x.loop.active)
    let lb := afterBundle x
    let le := loopEnd x off
    match walkBody (aheadAt x) le.toNat 33 lb.toNat 0 with
    | .need _ => throw .block
    | .bad => opTrap true
    | .ok =>
      let n := levels.toNat + 1
      let cs := [c0, c1, c2, c3].map fun r => (rdS x r).setWidth 32
      let lc : Vector (BitVec 32) 4 := #v[cs.getD 0 0, if n > 1 then cs.getD 1 0 else 0, if n > 2 then cs.getD 2 0 else 0,
        if n > 3 then cs.getD 3 0 else 0]
      let none_ := (cs.take n).any fun c => c == 0
      modC fun x => { x with late := x.late ++ [.loop
        { active := !none_, levels := n, lb := lb, le := le, lc := lc, i := 0
          rings := if none_ then [] else x.loop.decl, decl := []
          buffer := if none_ then [] else x.fetch ++ x.ahead
          skip := if none_ then some (BitVec.ofNat 64 (afterAt x le.toNat)) else none }] }) s

/-- Registers of a ring's file (R276). -/
def RingFile_size : RingFile → Nat
  | .s => 64 | .v | .w => 32 | .g => 16

/-- A declaration that R276 refuses. -/
def ringBad (x : Ctx) (f : RingFile) (base len : Nat) : Bool :=
  x.loop.active || x.loop.decl.length ≥ 4 || base + len > RingFile_size f
    || (f == .s && (base < 1 || base + len > 56))
    || x.loop.decl.any fun r => r.file == f && base < r.base + r.len && r.base < base + len

/-- `ring` (R276): `len` holds the length minus one. -/
def execRing (f : RingFile) (base : BitVec 6) (len : BitVec 4) (s : State) : Host.Outcome State Fault Refusal :=
  run 0 (do
    let x ← getC
    opTrap (ringBad x f base.toNat (len.toNat + 1))
    modC fun x => { x with loop := { x.loop with decl := x.loop.decl ++ [⟨f, base.toNat, len.toNat + 1⟩] } }) s

/-! ## System (R287, R288, R290) -/

/-- `trap` and `svc` (R287): the bundle and its run have issued, and every result has arrived; the context stands after them when
the trap is taken. -/
def sysTrap (s : State) (sub : Nat) (va : Word) : State :=
  whenHere s s.cur fun s =>
    let x := cc s
    let (w, r) := bundleShape x
    takeTrap (setCtx s s.cur (foldsDone (bundleDone x x.dly w r) 15)) s.cur sub va 0 (some 0)

/-- `trap` (R287). -/
def execTrap (code : BitVec 8) (s : State) : Host.Outcome State Fault Refusal := .next (sysTrap s 56 (code.setWidth 64))
/-- `svc` (R287). -/
def execSvc (num : BitVec 18) (s : State) : Host.Outcome State Fault Refusal := .next (sysTrap s 57 (num.setWidth 64))
/-- `brk` (R287): the bundle performs nothing, and the resume point is the bundle itself. -/
def execBrk (tag : BitVec 18) (s : State) : Host.Outcome State Fault Refusal :=
  .next (whenHere s s.cur fun s => takeTrap s s.cur 58 (tag.setWidth 64) 0 (some 0))

/-- The return from a trap (R288): the context goes on at `tpc`, outside any loop or delay sequence. -/
def eretCtx (x : Ctx) : Ctx :=
  { x.late.foldl applyLate x with
    late := [], hdr := x.pc, pc := x.tpc, fold := 0, dly := 0, ptaken := false, pend := 0, pos := x.pos + 1
    half := false, held := false, out := false, block := false, remote := [], fetch := [], ahead := []
    loop := { x.loop with active := false, rings := [], decl := [], buffer := [] } }

/-- `eret` (R288): it waits as the drain bit does. -/
def execEret (q : BitVec 3) (s : State) : Host.Outcome State Fault Refusal :=
  run 0 (do
    let x ← getC
    opTrap (x.dly > 0 || x.loop.active)
    if rdP x q then do
      blockIf (!x.flights.isEmpty)
      modC eretCtx
      modify fun s => trCtl s s.cur 1 x.tpc.toNat 5) s

/-- `wfi` (R290). -/
def execWfi (q : BitVec 3) (s : State) : Host.Outcome State Fault Refusal :=
  run 0 (do
    let x ← getC
    if rdP x q && !x.latch then
      match x.wfi with
      | none => do modC fun x => { x with wfi := some x.ev.toList }; throw .block
      | some l => blockIf (l == x.ev.toList)) s

/-- The empty bundle at pc (R224, R225): it issues, and its run follows. -/
def execNop (drain : Bool) (runLen _tmpl : BitVec 4) (s : State) : Host.Outcome State Fault Refusal :=
  run 0 (do
    let x ← getC
    blockIf (drain && !x.flights.isEmpty)
    modC fun x => bundleDone x x.dly 1 runLen.toNat) s

end Sys2Proof.Machine
end

