-- ==== Sys2Proof/Machine/Tensor.lean ====
section
/-! DEFINITION. Tensor descriptors (R67, R68), the format codes and their conversions (R41, R54, R55), descriptor checks
(R70, R71), element addresses (R69), tile coordinates (R73) and tile contents as rows (R75, R78, R345). -/
namespace Sys2Proof.Machine

/-! ## Format codes (R41) and conversions (R54, R55) -/

/-- Bits of an element of a format code; 0 for a reserved code. -/
def fmtBits (c : Nat) : Nat := [8, 16, 32, 64, 8, 16, 32, 64, 8, 8, 16, 16, 32, 64, 4, 4, 8].getD c 0
def fmtFloat (c : Nat) : Option FFmt :=
  match c with
  | 8 => some .e4m3 | 9 => some .e5m2 | 10 => some .f16 | 11 => some .bf16 | 12 => some .f32 | 13 => some .f64 | _ => none
def fmtInt (c : Nat) : Option IFmt :=
  match c with
  | 0 => some .i8 | 1 => some .i16 | 2 => some .i32 | 3 => some .i64
  | 4 => some .n8 | 5 => some .n16 | 6 => some .n32 | 7 => some .n64 | _ => none

/-- The value of an element of an integer format, i4s included (R42). -/
def intVal (c x : Nat) : Int × Fl :=
  match fmtInt c with
  | some t => (val t t.width x, 0)
  | none => decI4s x

/-- A conversion of R54 by the rules of R55. -/
def conv (src dst : Nat) (mode : RMode) (sat : Bool) (x : Nat) : Nat × Fl :=
  match fmtFloat src with
  | some fs =>
    match fmtFloat dst with
    | some fd => cvtFF fd mode sat (decF fs x)
    | none =>
      match fmtInt dst with
      | some t =>
        let (z, f) := cvtFI (minOf t.signed t.width) (maxOf t.signed t.width) mode (decF fs x)
        (wrap t.width z, f)
      | none => let (z, f) := cvtFI (-7) 7 mode (decF fs x); (wrap 4 z, f)
  | none =>
    let (z, f) := intVal src x
    match fmtFloat dst with
    | some fd => let (p, g) := round fd mode sat (.fin (z < 0) z.natAbs 1 0); (p, f ||| g)
    | none =>
      match fmtInt dst with
      | some t => (wrap t.width (if sat then clampTo t.signed t.width z else z), f)
      | none => (wrap 4 (if z > 7 then 7 else if z < -7 then -7 else z), f)

/-! ## Fields (R67, R68) -/

abbrev Desc := BitVec 512
def dF (d : Desc) (lo n : Nat) : Nat := bitsAt d.toNat lo n
def dBase (d : Desc) : Nat := dF d 0 56
def dSide (d : Desc) : Nat := dF d 64 56
def dGcode (d : Desc) : Nat := dF d 120 2
def dMfmt (d : Desc) : Nat := dF d 122 5
def dFsat (d : Desc) : Bool := d.getLsbD 127
def dSlot (d : Desc) : Nat := dF d 463 9
def dTensor (d : Desc) : Nat := dF d 472 20
def dTfmt (d : Desc) : Nat := dF d 492 5
def dRank (d : Desc) : Nat := dF d 497 3
def dLayout (d : Desc) : Nat := dF d 505 2
def dClass (d : Desc) : Nat := dF d 507 2
def dDomain (d : Desc) : Bool := d.getLsbD 509
def dHint (d : Desc) : Nat := dF d 510 2
/-- Tile rows, row bytes, tile columns. -/
def dTR (d : Desc) : Nat := 8 * 2 ^ dF d 500 3
def dRB (d : Desc) : Nat := 64 * 2 ^ dF d 503 2
def dTC (d : Desc) : Nat := 8 * dRB d / fmtBits (dTfmt d)
/-- The size of dimension k: 1 at or above the rank. -/
def dSize (d : Desc) (k : Nat) : Nat := if k < dRank d then dF d (128 + 24 * k) 24 else 1
/-- The byte stride of dimension k, from 1 to 5. -/
def dStride (d : Desc) (k : Nat) : Nat := if k < dRank d then (if k = 5 then dF d 424 39 else dF d (272 + 38 * (k - 1)) 38) else 0
/-- The q-group size (R43). -/
def dG (d : Desc) : Nat := 32 * 2 ^ dGcode d
/-- The tile keeps q codes and carries parameter words (R70). -/
def dCodes (d : Desc) : Bool := dClass d = 1 && dTfmt d = dMfmt d

def cdiv (a b : Nat) : Nat := (a + b - 1) / b

/-- Parameter words of a q-code tile. -/
def dParams (d : Desc) : Nat := if dCodes d then cdiv (dTR d) (dG d) * dTC d else 0
/-- Parameter rows that `tld` and `tst` accept (R345). -/
def dPRows (d : Desc) : Nat := cdiv (4 * dParams d) 256
/-- Columns of a Mirage tile (R56). -/
def dN (d : Desc) : Nat := dRB d / 2
/-- Segments of a line (R75). -/
def dSegs (d : Desc) : Nat :=
  if dClass d = 2 then cdiv (64 + 128 * dN d) 2048 else cdiv (dTR d * dRB d + 4 * dParams d) 2048

/-! ## Checks (R70, R71) -/

/-- A format code or pair that the class does not allow (R41, R70). The rule gives a gather view no pairs of its own: the model takes
the dense ones (log 88). -/
def dBadFormat (d : Desc) : Bool :=
  let t := dTfmt d
  let m := dMfmt d
  t ≥ 17 || m ≥ 17 ||
    (match dClass d with
     | 1 => !((m = 15 || m = 16) && (t = m || (fmtFloat t).isSome))
     | 2 => !(t = 11 && m = 11)
     | _ => t ≥ 15 || m ≥ 15)
def dBadShape (d : Desc) : Bool :=
  dF d 500 3 ≥ 5 || dF d 503 2 = 3 || dRank d = 0 || dRank d > 6 || ((List.range (min (dRank d) 6)).any fun k => dSize d k = 0)
    || (dLayout d = 2 && dSlot d < cdiv (dTR d * dTC d * fmtBits (dMfmt d)) 512)
def dBadLayout (d : Desc) : Bool :=
  dLayout d = 3 || (dLayout d = 1 && fmtBits (dMfmt d) = 4) || (dLayout d = 2 && dBase d % 64 != 0)
def dBadClass (d : Desc) : Bool :=
  match dClass d with
  | 1 => dGcode d = 3
  | 2 => dLayout d != 2
  | 3 => dLayout d != 0 || dRank d != 2
  | _ => false

/-- The subcode of a malformed descriptor: the lowest that applies (R71). -/
def dBad (d : Desc) : Option Nat :=
  if dBadFormat d then some 16 else if dBadShape d then some 17 else if dBadLayout d then some 18
  else if dBadClass d then some 19 else none

/-- Tiles along coordinate k (R73). -/
def dTiles (d : Desc) (k : Nat) : Nat :=
  match k with
  | 0 => cdiv (dSize d 1) (dTR d)
  | 1 => cdiv (dSize d 0) (dTC d)
  | k => dSize d k

/-- Every coordinate lies in its range. -/
def coordsOk (d : Desc) (co : List Nat) : Bool :=
  (List.range 6).all fun k => co.getD k 0 < dTiles d k && co.getD k 0 < 65536

/-- The tag of a tile (R73); a domain-shared tensor uses ASID 0 (R160). -/
def tileOf (d : Desc) (asid : Nat) (co : List Nat) : Tile :=
  { asid := if dDomain d then 0 else asid, tensor := dTensor d, co := (List.range 6).map fun k => co.getD k 0 }

/-! ## Element addresses (R69) -/

/-- The byte offset of dimensions 2 to 5. -/
def dOuter (d : Desc) (co : List Nat) : Nat :=
  ((List.range 4).map fun k => co.getD (k + 2) 0 * dStride d (k + 2)).foldl (· + ·) 0

/-- The bit address of the element at column x0, row x1 of a tile's dimensions 2 to 5; `row`: the memory row. -/
def elemBit (d : Desc) (co : List Nat) (x0 x1 row : Nat) : Nat :=
  let mb := fmtBits (dMfmt d)
  let o := 8 * dOuter d co
  match dLayout d with
  | 0 => 8 * dBase d + x0 * mb + 8 * row * dStride d 1 + o
  | 1 => 8 * dBase d + x1 * mb + 8 * x0 * dStride d 1 + o
  | _ => 8 * (dBase d + x1 / dTR d * dStride d 1 + x0 / dTC d * 64 * dSlot d) + (x1 % dTR d * dTC d + x0 % dTC d) * mb + o

/-- Rows and columns of a tile that lie in the tensor. -/
def inRows (d : Desc) (co : List Nat) : Nat := min (dTR d) (dSize d 1 - co.getD 0 0 * dTR d)
def inCols (d : Desc) (co : List Nat) : Nat := min (dTC d) (dSize d 0 - co.getD 1 0 * dTC d)

/-- The runs of a tile's elements that are adjacent in memory: one for each row, or for each column of a transposed
view. -/
def runCount (d : Desc) (co : List Nat) : Nat := if dLayout d = 1 then inCols d co else inRows d co
def runLen (d : Desc) (co : List Nat) : Nat := if dLayout d = 1 then inRows d co else inCols d co
/-- The bit address of run r; `row`: its memory row in a gather view, where it is not row r of the tile (R69). -/
def runBit (d : Desc) (co : List Nat) (r row : Nat) : Nat :=
  let x0 := co.getD 1 0 * dTC d
  let x1 := co.getD 0 0 * dTR d
  if dLayout d = 1 then elemBit d co (x0 + r) x1 x1 else elemBit d co x0 (x1 + r) (if dClass d = 3 then row else x1 + r)

/-- The address of the first parameter word of group row g of a tile (R70). -/
def paramVa (d : Desc) (co : List Nat) (g : Nat) : Nat :=
  let f := co.getD 2 0 + dSize d 2 * (co.getD 3 0 + dSize d 3 * (co.getD 4 0 + dSize d 4 * co.getD 5 0))
  dSide d + 4 * ((f * cdiv (dSize d 1) (dG d) + (co.getD 0 0 * dTR d / dG d + g)) * dSize d 0 + co.getD 1 0 * dTC d)
/-- Group rows of a tile that lie in the tensor. -/
def inGroups (d : Desc) (co : List Nat) : Nat := cdiv (inRows d co) (dG d)

/-! ## Contents -/

/-- Element (i, n) of a tile's rows, at width w. -/
def rowElem (rows : SMap Vec) (w i n : Nat) : Nat := lane w n (SMap.getD rows i 0)

/-- Parameter word k of a tile's rows (R345). -/
def paramWord (d : Desc) (rows : SMap Vec) (k : Nat) : Nat := lane 32 (k % 64) (SMap.getD rows (dTR d + k / 64) 0)

/-- Element (i, n) of a tile as it is read: an element outside the tensor reads as zero (R73, R322, R345). -/
def edgeElem (d : Desc) (co : List Nat) (rows : SMap Vec) (i n : Nat) : Nat :=
  if i < inRows d co && n < inCols d co then rowElem rows (fmtBits (dTfmt d)) i n else 0
/-- Parameter word k of a tile as it is read (R330, R345). -/
def edgeParam (d : Desc) (co : List Nat) (rows : SMap Vec) (k : Nat) : Nat :=
  if k < dParams d && k / dTC d < inGroups d co && k % dTC d < inCols d co then paramWord d rows k else 0
/-- A row as `tld` reads it (R345). -/
def tileRow (d : Desc) (co : List Nat) (rows : SMap Vec) (row : Nat) : Vec :=
  if row < dTR d then vec (fmtBits (dTfmt d)) (dTC d) fun n => edgeElem d co rows row n
  else vec 32 64 fun k => edgeParam d co rows (64 * (row - dTR d) + k)

/-- Rows from a function of row and column; a row of zeros is not listed. -/
def mkRows (w cols rows : Nat) (f : Nat → Nat → Nat) : SMap Vec :=
  ((List.range rows).map fun i => (i, vec w cols (f i))).filter fun r => r.2 != 0

/-- Parameter rows from a function of the word's number. -/
def mkParams (d : Desc) (f : Nat → Nat) : SMap Vec :=
  ((List.range (dPRows d)).map fun j =>
    (dTR d + j, vec 32 64 fun k => if 64 * j + k < dParams d then f (64 * j + k) else 0)).filter fun r => r.2 != 0

/-- Element k of the bytes that begin at bit address `bit` rounded down to a byte. -/
def elemAt (bytes : List Byte) (bit mb k : Nat) : Nat :=
  let b := bit % 8 + k * mb
  if mb = 4 then bitsAt ((bytes.getD (b / 8) 0).toNat) (b % 8) 4
  else ofLe ((bytes.drop (b / 8)).take (mb / 8))

/-- Bytes that a run of n elements occupies. -/
def runBytes (bit mb n : Nat) : Nat := (bit % 8 + n * mb + 7) / 8

/-- A fill's conversion of one element (R78, R44); `p`: its parameter word. -/
def fillElem (d : Desc) (p x : Nat) : Nat × Fl :=
  if dCodes d then (x, 0)
  else if dClass d = 1 then
    match fmtFloat (dTfmt d) with
    | some t => roundX t .rne (dFsat d) (dequant p x)
    | none => (x, 0)
  else conv (dMfmt d) (dTfmt d) .rne (dFsat d) x

/-- A write-back's conversion of one element (R78). -/
def backElem (d : Desc) (x : Nat) : Nat × Fl :=
  if dCodes d then (x, 0) else conv (dTfmt d) (dMfmt d) .rne (dFsat d) x

/-- The rows and flags of a tile from its runs, each the elements of one run, and from the parameter words by group row
and column. -/
def fillRows (d : Desc) (co : List Nat) (runs : List (List Nat)) (params : List (List Nat)) : SMap Vec × Fl :=
  let raw (i n : Nat) : Nat := if dLayout d = 1 then (runs.getD n []).getD i 0 else (runs.getD i []).getD n 0
  let par (i n : Nat) : Nat := (params.getD (i / dG d) []).getD n 0
  let nr := inRows d co
  let nc := inCols d co
  let rows := mkRows (fmtBits (dTfmt d)) (dTC d) nr fun i n => if n < nc then (fillElem d (par i n) (raw i n)).1 else 0
  let fl := orFlags ((List.range nr).map fun i => orFlags ((List.range nc).map fun n => (fillElem d (par i n) (raw i n)).2))
  let ps := if dCodes d then mkParams d (fun k => (params.getD (k / dTC d) []).getD (k % dTC d) 0) else []
  (rows ++ ps, fl)

/-! ## Mirage tiles (R56, R57) -/

def mRank (h : Nat) : Nat := bitsAt h 64 7
/-- A malformed header: rank, coefficient format, reserved bits, or a tile beyond its slot (R57, R70). -/
def mBad (d : Desc) (h : Nat) : Bool :=
  mRank h = 0 || mRank h > 64 || bitsAt h 72 3 != 3 || bitsAt h 71 1 != 0 || bitsAt h 75 5 != 0 || bitsAt h 112 400 != 0
    || 64 + 2 * mRank h * dN d > 64 * dSlot d
/-- Segments of a Mirage line once its header is known (R75). -/
def mSegs (d : Desc) (h : Nat) : Nat := if mBad d h then 1 else cdiv (64 + 2 * mRank h * dN d) 2048

end Sys2Proof.Machine
end

