-- ==== Sys2Proof/Machine/Lines.lean ====
section
/-! DEFINITION. The lines of the CTCs and CLCs: versions (R74), replacement classes (R89), the space of a CTC (R75, R90), and lookup (R77, R81, R344). -/
namespace Sys2Proof.Machine

/-! ## Versions (R74) -/

/-- Version a satisfies requirement u. -/
def verSat (a u : Nat) : Bool := u = 0 || (a + 65536 - u) % 65536 < 32768
/-- The version after v. -/
def verNext (v : Nat) : Nat := if v ≥ 65535 then 1 else v + 1
/-- Version a is newer than version b. -/
def verNewer (a b : Nat) : Bool := a != b && (a + 65536 - b) % 65536 < 32768

/-! ## Lines -/

def ctcOf (s : State) (core : Nat) : List TLine := SMap.getD s.tiles.ctc core []
def setCtc (s : State) (core : Nat) (l : List TLine) : State := { s with tiles := { s.tiles with ctc := SMap.set s.tiles.ctc core l } }
/-- A fresh number for a line, a fill, a victim or a command. -/
def newId (s : State) : Nat × State := (s.tiles.next, { s with tiles := { s.tiles with next := s.tiles.next + 1 } })
def ctcLine (s : State) (core id : Nat) : Option TLine := (ctcOf s core).find? fun l => l.id = id
def updLine (s : State) (core id : Nat) (f : TLine → TLine) : State :=
  setCtc s core ((ctcOf s core).map fun l => if l.id = id then f l else l)
def delLine (s : State) (core id : Nat) : State := setCtc s core ((ctcOf s core).filter fun l => l.id != id)

/-- The newest valid line of a tile that satisfies u. -/
def newestOf (l : List TLine) (t : Tile) (u : Nat) : Option TLine :=
  (l.filter fun x => x.tile == t && x.st == .valid && verSat x.ver u).foldl (fun b x => match b with
    | none => some x
    | some y => if verNewer x.ver y.ver then some x else b) none

/-- A poisoned line of a tile (R80): a command that reads it faults. -/
def poisonedOf (l : List TLine) (t : Tile) : Option TLine := l.find? fun x => x.tile == t && x.st == .poisoned

/-- The line of a tile that a context holds open, poisoned or not. -/
def openOf (s : State) (c : Nat) (t : Tile) : Option TLine :=
  (ctcOf s (coreOf c)).find? fun x => x.tile == t && x.ctx = c && (x.st == .open_ || x.st == .openPoisoned)
/-- A line of a tile whose opening by a context is not granted yet. -/
def openingOf (s : State) (c : Nat) (t : Tile) : Option Fill :=
  s.tiles.fills.find? fun f => f.tile == t && f.ctx = c && f.open_.isSome
/-- A line of a tile that a context is posting. -/
def postingOf (s : State) (c : Nat) (t : Tile) : Option TLine :=
  (ctcOf s (coreOf c)).find? fun x => x.tile == t && x.ctx = c && x.st == .posting

/-- A line that a context has pinned with `tacq` at a version that satisfies u. -/
def pinnedOf (s : State) (c : Nat) (t : Tile) (u : Nat) : Option TLine :=
  (ctcOf s (coreOf c)).find? fun x =>
    x.tile == t && x.st == .valid && verSat x.ver u && (ctxOf s c).pins.any fun p => p.1 = x.id

/-! ## Classes (R89) -/

/-- The class that a hint gives a line. -/
def hintLine (l : TLine) (h : Nat) : TLine :=
  { l with cls := if h = 1 then 1 else 0, goLast := h = 2, stream := h = 3 }

/-- A line of the hinted-reuse class: a pinned line is in the pinned class. -/
def inReuse (x : TLine) : Bool := x.cls = 1 && x.pins = 0
/-- Hinted-reuse holds at most 768 segments: its least recently used lines move to default. The rule names the CTC; the model
keeps the same cap in a CLC (log 89). -/
def capReuse (l : List TLine) : Nat → List TLine
  | 0 => l
  | k + 1 =>
    if segsOf (l.filter inReuse) ≤ 768 then l
    else match l.find? inReuse with
    | some y => capReuse (l.map fun x => if x.id = y.id then { x with cls := 0 } else x) k
    | none => l
/-- Lines of a cache after one of them has entered a class. -/
def capped (l : List TLine) : List TLine := capReuse l l.length

/-- A use of a line: it becomes the most recently used, and a second use of a default line moves it to hinted-reuse. -/
def useIn (l : List TLine) (id : Nat) : List TLine :=
  match l.find? fun x => x.id = id with
  | none => l
  | some y =>
    let y' := { y with used := true, cls := if y.cls = 0 && y.used && !y.goLast then 1 else y.cls }
    capped ((l.filter fun x => x.id != id) ++ [y'])
def useLine (s : State) (core id : Nat) : State := setCtc s core (useIn (ctcOf s core) id)

/-- The hinted use of a line has completed: it moves to last-use where its hint says so. -/
def lastUse (l : TLine) : TLine := if l.goLast && l.pins = 0 then { l with cls := 2, goLast := false } else l

/-- The pin count of a line lowered by n. -/
def unpinLine (s : State) (core id n : Nat) : State :=
  let s := updLine s core id fun l => lastUse { l with pins := l.pins - n }
  setCtc s core (capped (ctcOf s core))

/-! ## Space (R75, R76, R90) -/

/-- CTC_VICTIM_EVICT (R90): room for `segs` segments and an entry in a CTC's lines; none where there is not enough. -/
def ctcRoom (l : List TLine) (segs : Nat) : Nat → Option (List TLine)
  | 0 => if segsOf l + segs ≤ 1024 && l.length < 512 then some l else none
  | k + 1 =>
    if segsOf l + segs ≤ 1024 && l.length < 512 then some l
    else match pickVictim l with
    | some v => ctcRoom (l.filter fun x => x.id != v.id) segs k
    | none => none

/-- The lines of a cache once a version of a tile has entered it: its older versions enter last-use (R80). -/
def superseded (l : List TLine) (t : Tile) (v : Nat) : List TLine :=
  l.map fun x => if x.tile == t && x.st == .valid && verNewer v x.ver then { x with cls := 2 } else x

/-- A line put into a CLC, in place of a copy of the same version, in the class that its hint gives (R89); older clean versions of
the tile enter last-use there (R80). -/
def clcInstall (s : State) (cl : Nat) (l : TLine) : Option State :=
  let s := setClcT s cl ((clcT s cl).filter fun x =>
    !(x.tile == l.tile && x.ver = l.ver && !x.dirty && (x.st == .valid || x.st == .poisoned)))
  (clcRoom s cl 0 l.segs 1).map fun s =>
    let (id, s) := newId s
    setClcT s cl (capped (superseded (clcT s cl) l.tile l.ver ++ [{ l with id := id, pins := 0, used := false }]))

/-- A command or fill owner's number at a port (R122). -/
def ownerOf (id : Nat) : Nat := 10000 + id

end Sys2Proof.Machine
end

