-- ==== Sys2Proof/Machine/Save.lean ====
section
/-! DEFINITION. The save image of a task (R429, R430): its bytes, the registers read back from it, updates that reach a
saved task (R433), and engine faults (R419, R422). -/
namespace Sys2Proof.Machine

/-! ## Status words (R337, R365) -/

def Instr_op (i : Instr) : Nat := ((i.syl).map fun y => y.op.toNat).getD 0

/-- The status word of an M command (R337). -/
def mStatus (m : MCmd) : Word :=
  BitVec.ofNat 64 (Instr_op m.op * 2 ^ 57 + m.acc * 2 ^ 54 + m.iter * 2 ^ 38 + m.kstep * 2 ^ 28 + m.row * 2 ^ 16
    + (if m.started then 1 else 0))

/-- The status word of an X command (R365). -/
def xStatus (k : XCmd) : Word :=
  BitVec.ofNat 64 (k.kind * 2 ^ 60 +
    (if k.kind < 4 then k.row * 2 ^ 36 + k.off
     else if k.kind = 8 then k.hop * 2 ^ 56 + k.ptr % 2 ^ 56
     else if k.sent.isSome then 1 else 0))

/-! ## Reading and writing an image -/

def imgVa (t : Task) (off : Nat) : Word := t.save + BitVec.ofNat 64 off

/-- `n` bytes of an image. -/
def imgRead (s : State) (t : Task) (off n : Nat) : CarR × State := carRead s (leader s) t.asid (imgVa t off) n

/-- Bytes written into an image, one 64-byte block at a time; a fault ends it. -/
def imgWrite (s : State) (t : Task) (off : Nat) (b : List Byte) : Nat → CarR × State
  | 0 => (.ok [], s)
  | k + 1 =>
    if b.isEmpty then (.ok [], s)
    else match carWrite s (leader s) t.asid (some t.queue) (imgVa t off) (b.take 64) with
    | (.ok _, s) => imgWrite s t (off + 64) (b.drop 64) k
    | r => r

/-- A word of an image changed, where it can be read and written. -/
def imgUpd (s : State) (t : Task) (off n : Nat) (f : Nat → Nat) : State :=
  match imgRead s t off n with
  | (.ok b, s) => (carWrite s (leader s) t.asid (some t.queue) (imgVa t off) (leBytes (f (ofLe b)) n)).2
  | (_, s) => s

/-- The saved task of a number, waiting or being restored. -/
def savedOf (s : State) (tid : Nat) : Option Ready :=
  (s.car.ready ++ s.car.restoring.map Prod.snd).find? fun r => r.task.tid = tid && r.saved.isSome
def updSaved (s : State) (tid : Nat) (f : Saved → Saved) : State :=
  let upd (r : Ready) : Ready := if r.task.tid = tid then { r with saved := r.saved.map f } else r
  { s with car := { s.car with ready := s.car.ready.map upd, restoring := s.car.restoring.map fun r => (r.1, upd r.2) } }

/-- A task holds the context. -/
def liveIn (s : State) (c tid : Nat) : Bool := match (ctxOf s c).task with | some t => t.tid = tid | none => false

/-! ## Updates that find their task running or saved -/

/-- A change of a task's registers: of its context, of the registers that a checkpoint restored, or of its image. -/
def regsTo (s : State) (c tid : Nat) (f : Ctx → Ctx) (img : State → Task → State) : State :=
  if liveIn s c tid then updCtx s c f
  else match savedOf s tid with
  | some r => if (r.saved.bind Saved.regs).isSome then updSaved s tid fun v => { v with regs := v.regs.map f } else img s r.task
  | none => s

/-- Flags ORed into a task's `fflags` (R52). -/
def flagsTo (s : State) (c tid : Nat) (fl : Fl) : State :=
  if fl = 0 then s
  else regsTo s c tid (fun x => { x with fflags := x.fflags ||| fl.setWidth 64 }) fun s t => imgUpd s t 0x28 8 fun x => x ||| fl.toNat

/-- Poisoned sectors added to the count of `xstat`, which stops at its largest value, and its bits ORed in (R364, R433). -/
def xstatNew (x pc bits : Nat) : Nat :=
  (x / 2 ^ 32 ||| bits) * 2 ^ 32 + (if x % 2 ^ 32 + pc > 0xFFFFFFFF then 0xFFFFFFFF else x % 2 ^ 32 + pc)

/-- `xstat` of a task: `bits` are rerr 1, perr 2, cerr 4. -/
def xstatTo (s : State) (c tid pc bits : Nat) : State :=
  regsTo s c tid (fun x => { x with xstat := BitVec.ofNat 64 (xstatNew x.xstat.toNat pc bits) }) fun s t =>
    imgUpd s t 0x30 8 fun x => xstatNew x pc bits

/-- A completed command counted (R371): the live counter, or the image's and then its owed count (R433). -/
def countEv (s : State) (c tid e : Nat) : State :=
  let s := regsTo s c tid (fun x => { x with ev := if h : e < 8 then x.ev.set e (x.ev[e] + 1) else x.ev }) fun s t =>
    imgUpd (imgUpd s t (0xC8 + 4 * e) 4 fun x => (x + 1) % 2 ^ 32) t 0xF0 8 fun x => x - 1
  if liveIn s c tid then s else updSaved s tid fun v => { v with owed := v.owed - 1 }

/-- An engine fault of a command of context c (R419, R422): the registers of its task are overwritten, the context goes
on. `core`: whose context issued the command or caused the fill. -/
def engineFault (s : State) (c tid core : Nat) (who : PfMember) (q asid engine cmdno sub : Nat) (va : Word) (akind : Nat)
    (tcmd : Word) : State :=
  if faulted s who then s else
  let cw := causeWord true akind sub
  let sw := BitVec.ofNat 64 (cmdno % 65536 * 2 ^ 32 + engine * 2 ^ 28)
  let tpc := if liveIn s c tid then (ctxOf s c).tpc else 0
  let s := regsTo s c tid (fun x => { x with tcause := cw, tstat := sw, tva := va, tcmd := tcmd }) fun s t =>
    let s := imgUpd s t 0x48 8 fun _ => va.toNat
    let s := imgUpd s t 0x50 8 fun _ => cw.toNat
    let s := imgUpd s t 0x58 8 fun _ => sw.toNat
    imgUpd s t 0x60 8 fun _ => tcmd.toNat
  raiseFault s (core / 48) { key := faultKey c asid sub va, who := who, queue := q, core := some core
                             words := [cw, sw, tpc, va, tcmd, ownerWord asid c q] }

/-! ## The image (R429, R430) -/

def tagCode : AccTag → Nat
  | .zero => 0 | .f32 => 1 | .i32 => 2 | .f64 => 3
def tagOf : Nat → AccTag
  | 0 => .zero | 1 => .f32 | 2 => .i32 | _ => .f64
def fileCode : RingFile → Nat
  | .s => 0 | .v => 1 | .w => 2 | .g => 3
def fileOf : Nat → RingFile
  | 0 => .s | 1 => .v | 2 => .w | _ => .g

def wordsLe (l : List Word) : List Byte := l.flatMap fun w => leBytes w.toNat 8
/-- Bytes cut or filled with zeros to a length. -/
def padTo (n : Nat) (b : List Byte) : List Byte := b.take n ++ List.replicate (n - b.length) 0

/-- A ring declaration's word. -/
def ringWord (r : Ring) : Word := BitVec.ofNat 64 (fileCode r.file + r.base * 4 + (r.len - 1) * 256)

/-- The lines that a context pins, with their counts. -/
def pinLines (s : State) (c : Nat) : List (TLine × Nat) :=
  (ctxOf s c).pins.filterMap fun p => (ctcLine s (coreOf c) p.1).map fun l => (l, p.2)
/-- The lines that a context holds open. -/
def openLines (s : State) (c : Nat) : List TLine :=
  (ctcOf s (coreOf c)).filter fun l => l.ctx = c && (l.st == .open_ || l.st == .openPoisoned)
/-- X commands of the context's task that have not completed (R433). -/
def owedOf (s : State) (c : Nat) : Nat :=
  ((SMap.getD s.eng (coreOf c) {}).x.filter fun k => k.ctx = c && k.tid = (taskOf s c).tid).length
  + ((SMap.getD s.eng (coreOf c) {}).sq.filter fun k => k.ctx = c && k.tid = (taskOf s c).tid).length

/-- The flags word of the control block. -/
def ctlFlags (x : Ctx) (answered expired : Bool) : Nat :=
  let rings := if x.loop.active then x.loop.rings else x.loop.decl
  (if x.trap.isSome then 1 else 0) + (if answered then 2 else 0) + (if expired then 4 else 0)
    + (match x.bar with | some (n, _) => 8 + n * 16 | none => 0)
    + (if x.latch then 128 else 0) + (if x.loop.active then 256 else 0) + rings.length * 512
    + ((List.range 8).map fun i => tagCode (x.acc.toList.getD i {}).tag * 2 ^ (16 + 2 * i)).foldl (· + ·) 0

/-- The control block (R430). -/
def ctlBlock (s : State) (c : Nat) (mrecs : Nat) : List Byte :=
  let x := ctxOf s c
  let t := taskOf s c
  let answered := x.trap.isSome && !faulted s (.task t.tid)
  let rings := if x.loop.active then x.loop.rings else x.loop.decl
  padTo 512 (wordsLe ([x.pc, BitVec.ofNat 64 (ctlFlags x answered (x.wdog = 0)), 0, x.p.setWidth 64, x.fctl, x.fflags, x.xstat, x.wdog,
      x.tpc, x.tva, x.tcause, x.tstat, x.tcmd, x.loop.lb, x.loop.le]
      ++ (x.loop.lc.toList.map fun l => l.setWidth 64) ++ [BitVec.ofNat 64 x.loop.i]
      ++ ((List.range 4).map fun i => match rings[i]? with | some r => ringWord r | none => 0)
      ++ [BitVec.ofNat 64 (match x.bar with | some (_, g) => g | none => 0)])
    ++ (x.ev.toList.flatMap fun e => leBytes e.toNat 4)
    ++ wordsLe [BitVec.ofNat 64 ((pinLines s c).length + (openLines s c).length * 256 + mrecs * 65536), BitVec.ofNat 64 (owedOf s c)])

/-- The tag words of a tile: tensor, c0 to c3, c4 and c5. -/
def tagWords (t : Tile) : List Word :=
  [BitVec.ofNat 64 t.tensor,
   BitVec.ofNat 64 (t.co.getD 0 0 + t.co.getD 1 0 * 2 ^ 16 + t.co.getD 2 0 * 2 ^ 32 + t.co.getD 3 0 * 2 ^ 48),
   BitVec.ofNat 64 (t.co.getD 4 0 + t.co.getD 5 0 * 2 ^ 16)]

/-- The bytes of a line: its rows, then its parameter words. -/
def lineBytes (l : TLine) : List Byte :=
  let d := l.b.desc
  ((List.range (dTR d)).flatMap fun i => leBytes (SMap.getD l.rows i 0).toNat (dRB d))
    ++ ((List.range (dPRows d)).flatMap fun j => leBytes (SMap.getD l.rows (dTR d + j) 0).toNat 256)

/-- A line's rows read back. -/
def lineRows (d : Desc) (b : List Byte) : SMap Vec :=
  (((List.range (dTR d)).map fun i => (i, BitVec.ofNat 2048 (ofLe ((b.drop (i * dRB d)).take (dRB d)))))
    ++ ((List.range (dPRows d)).map fun j =>
      (dTR d + j, BitVec.ofNat 2048 (ofLe ((b.drop (dTR d * dRB d + 256 * j)).take 256))))).filter fun r => r.2 != 0

/-- An M command's record: its words, its status word, the pinned versions, its rounding mode. -/
def mRecord (m : MCmd) (vers : List Nat) : List Byte :=
  padTo 64 (((m.op.syl.map fun y => leBytes y.word.toNat 4 ++ leBytes y.ext.toNat 4).getD [])
    ++ leBytes (mStatus m).toNat 8 ++ padTo 8 (vers.flatMap fun v => leBytes v 2) ++ leBytes m.rm.code.toNat 1)

/-- The bytes of an accumulator. -/
def accBytes (a : Acc) : List Byte := (List.range 128).flatMap fun i => leBytes (SMap.getD a.rows i 0).toNat 512
def accRows (b : List Byte) : SMap (BitVec 4096) :=
  ((List.range 128).map fun i => (i, BitVec.ofNat 4096 (ofLe ((b.drop (512 * i)).take 512)))).filter fun r => r.2 != 0

/-- The image of a context (R429); `vers`: the versions that a command's record gives. -/
def imageOf (s : State) (c : Nat) (ms : List MCmd) (vers : MCmd → List Nat) : List Byte :=
  let x := ctxOf s c
  let t := taskOf s c
  ctlBlock s c ms.length
    ++ wordsLe ((0 : Word) :: x.s.toList.tail)
    ++ ((x.k.toList ++ x.j.toList).flatMap fun m => leBytes m.toNat 32)
    ++ (x.b.toList.flatMap fun b => padTo 128 (match b with
        | some b => leBytes b.desc.toNat 64 ++ leBytes b.va.toNat 8 ++ leBytes b.ver.toNat 8 ++ leBytes 1 8
        | none => []))
    ++ padTo 2048 ((pinLines s c).flatMap fun (l, n) => wordsLe (tagWords l.tile ++ [BitVec.ofNat 64 (l.ver + n * 65536)]))
    ++ padTo 512 (ms.flatMap fun m => mRecord m (vers m))
    ++ (x.v.toList.flatMap fun v => leBytes v.toNat 256) ++ (x.w.toList.flatMap fun v => leBytes v.toNat 256)
    ++ (x.g.toList.flatMap fun v => leBytes v.toNat 256)
    ++ List.replicate 0x9000 0
    ++ padTo 0x80000 ((List.range t.demand).flatMap fun i => accBytes (x.acc.toList.getD i {}))
    ++ padTo 0xA0000 ((openLines s c).flatMap fun l =>
        padTo 0xA000 (padTo 64 (wordsLe (tagWords l.tile ++ [BitVec.ofNat 64 l.ver])) ++ lineBytes l))

/-- Registers read back from an image (R431): the context of a task, with its accumulators. -/
def imageCtx (b : List Byte) (t : Task) (phys : List Nat) (v : Saved) : Ctx :=
  let n (off k : Nat) : Nat := ofLe ((b.drop off).take k)
  let w (off : Nat) : Word := BitVec.ofNat 64 (n off 8)
  let fl := n 8 8
  let rings := (List.range (bitsAt fl 9 3)).map fun i =>
    let r := n (0xA0 + 8 * i) 8
    (⟨fileOf (bitsAt r 0 2), bitsAt r 2 6, bitsAt r 8 4 + 1⟩ : Ring)
  let active := fl.testBit 8
  { task := some t, pc := w 0, hdr := v.hdr, pos := v.pos, fold := v.fold, dly := v.dly, ptaken := v.ptaken, pend := v.pend
    s := Vector.ofFn fun i => if i.val = 0 then 0 else w (0x200 + 8 * i.val)
    p := BitVec.ofNat 8 (n 0x18 1)
    v := Vector.ofFn fun i => BitVec.ofNat 2048 (n (0x2000 + 256 * i.val) 256)
    w := Vector.ofFn fun i => BitVec.ofNat 2048 (n (0x4000 + 256 * i.val) 256)
    k := Vector.ofFn fun i => BitVec.ofNat 256 (n (0x400 + 32 * i.val) 32)
    j := Vector.ofFn fun i => BitVec.ofNat 256 (n (0x500 + 32 * i.val) 32)
    g := Vector.ofFn fun i => BitVec.ofNat 2048 (n (0x6000 + 256 * i.val) 256)
    acc := Vector.ofFn fun i =>
      if i.val < t.demand then { tag := tagOf (bitsAt fl (16 + 2 * i.val) 2), rows := accRows ((b.drop (0x10000 + 0x10000 * i.val)).take 0x10000) }
      else {}
    phys := phys
    b := Vector.ofFn fun i =>
      let o := 0x600 + 128 * i.val
      if n (o + 80) 8 = 0 then none
      else some { desc := BitVec.ofNat 512 (n o 64), va := w (o + 64), ver := BitVec.ofNat 16 (n (o + 72) 2) }
    ev := Vector.ofFn fun i => BitVec.ofNat 32 (n (0xC8 + 4 * i.val) 4)
    loop := { active := active, levels := v.levels, lb := w 0x68, le := w 0x70
              lc := Vector.ofFn fun i => BitVec.ofNat 32 (n (0x78 + 8 * i.val) 4)
              i := n 0x98 8, rings := if active then rings else [], decl := if active then [] else rings
              buffer := if active then v.buffer else [] }
    fctl := w 0x20, fflags := w 0x28, tpc := w 0x40, tva := w 0x48, tcause := w 0x50, tstat := w 0x58, tcmd := w 0x60
    wdog := w 0x38, xstat := w 0x30, latch := fl.testBit 7
    trap := v.trap, half := v.half, held := v.held, late := v.late, itin := v.itin, cmdno := v.cmdno, wfi := v.wfi, remote := v.remote
    dests := v.dests, track := v.track, flights := v.flights
    bar := if fl.testBit 3 then some (bitsAt fl 4 3, n 0xC0 2) else none }

end Sys2Proof.Machine
end

