-- ==== Sys2Proof/Machine/Access.lean ====
section
/-! DEFINITION. Accesses of the engines and the fill units (R142, R486): reads and writes by VA, here or in another package
(R177, R178), that fault precisely to a command, or wait. -/
namespace Sys2Proof.Machine

/-- Why an engine's access does not complete: a fault with its VA and kind of access, a wait, or a command's end. -/
inductive EStop where
  | fault (sub va ak : Nat)
  | wait
  deriving DecidableEq, Repr

/-- A part of a command, a fill or a write-back under way. -/
abbrev EM (α : Type) := ExceptT EStop (StateM State) α

/-- On whose behalf an engine accesses memory. -/
structure Who where
  ag : Agent
  core : Nat
  ctx : Nat
  asid : Nat
  queue : Nat
  owner : Nat
  deriving DecidableEq, Repr

def eFaultIf (b : Bool) (sub : Nat) (va : Nat := 0) (ak : Nat := 0) : EM Unit := if b then throw (.fault sub va ak) else pure ()
def eWaitIf (b : Bool) : EM Unit := if b then throw .wait else pure ()

/-- A VA translated for an engine: HBM, decoded far memory or another package. -/
def eXlat (w : Who) (va : Nat) (acc : Acc4) (ak : Nat) : EM (Nat × Nat × Nat) := do
  let s ← get
  let (r, s) := translate s w.ag w.asid (BitVec.ofNat 64 va) acc
  set s
  match r with
  | .ok pkg pa cp => do
    eFaultIf (pkg == s.pkg && !(isHbm pa || (isFar pa && (farDecode s pa).isSome))) 4 va ak
    return (pkg, pa, cp)
  | .fault sub => throw (.fault sub va ak)
  | .park => throw .wait

/-- A read of another package's memory for an owner, and its data once it has come (R177): bytes, poison. A reply that refuses is
used up, so that a retry asks again (R33). -/
def eAsk (w : Who) (pkg pa n va ak : Nat) : EM (List Byte × Bool) := do
  let (a, l) := remoteSpan pa n
  let s ← get
  let mine (r : Nat × Remote) : Bool := r.1 = w.owner && r.2.pkg = pkg && r.2.addr = a && r.2.len = l
  match s.fab.asks.find? mine with
  | some (_, r) =>
    match r.reply with
    | none => throw .wait
    | some (b, psn, refused) =>
      if refused then
        set { s with fab := { s.fab with asks := s.fab.asks.filter fun r => !mine r } }
        throw (.fault 5 va ak)
      return ((b.drop (pa - a)).take n, psn)
  | none =>
    let (e, s) := gwSend s (w.core / 48) { ty := 0, dst := pkg, src := s.pkg, sctx := w.ctx, addr := a, len := l }
    set { s with fab := { s.fab with asks := s.fab.asks ++ [(w.owner, ({ pkg := pkg, addr := a, len := l, kind := 0, eseq := e } : Remote))] } }
    throw .wait

/-- A part of a command that must wait is made again from the start: what it has read is delivered then, and counted then (R107). -/
def uncount (s t : State) : State :=
  { t with hbm := { t.hbm with ch := t.hbm.ch.map fun (n, c) => (n, { c with heunc := (chan s n).heunc, hedead := (chan s n).hedead }) } }
/-- A part of a command under way, as one step: what it gives, or why it stops. -/
def eRun {α : Type} (m : EM α) (s : State) : Except EStop α × State :=
  match m s with
  | (.error .wait, t) => (.error .wait, uncount s t)
  | r => r

/-- The replies and the tokens that an owner has used are dropped. -/
def eDone (s : State) (owner : Nat) : State :=
  { s with fab := { s.fab with asks := s.fab.asks.filter fun r => r.1 != owner }
           bsu := { s.bsu with grants := s.bsu.grants.filter fun g => g.1 != owner } }

/-- The tokens of an owner's request have been sent (R122, R124). -/
def eMeter (w : Who) (key tokens : Nat) : EM Unit := do
  let s ← get
  let (ok, s) := meterFor s w.core w.owner (qTclass s w.queue) key tokens
  set s
  eWaitIf (!ok)

/-- A list of pieces read: bytes, and whether a sector of them is poisoned. -/
def eReadL (w : Who) (ak : Nat) : List (Nat × Nat × Nat) → EM (List Byte × Bool)
  | [] => return ([], false)
  | (va, _, n) :: rest => do
    let (pkg, pa, _) ← eXlat w va .read ak
    let s ← get
    let (b, p) ← if pkg == s.pkg then do
        let (b, p, s) := engineRead s w.core pa n
        set s
        pure (b, p)
      else eAsk w pkg pa n va ak
    let (bs, ps) ← eReadL w ak rest
    return (b ++ bs, p || ps)

/-- `n` bytes read from a VA. -/
def eRead (w : Who) (va n ak : Nat) : EM (List Byte × Bool) := eReadL w ak (cutsAt 512 va n)

/-- A read whose poison is a fault of the command (R356, R367). -/
def eReadClean (w : Who) (va n ak : Nat) : EM (List Byte) := do
  let (b, p) ← eRead w va n ak
  eFaultIf p 24 va ak
  return b

/-- Bytes of a line as a plain read through the CLC finds them: a sector dirty in the core's L1D is read there (R142). -/
def clcPieces (s : State) (core pa n : Nat) : List Byte × Bool × State :=
  (sectorPieces pa n).foldl (fun (b, p, s) (a, _, k) =>
    let (b', p', s) := match dirtySector (l1Of s core) a k with
      | some (x, y) => (x, y, s)
      | none => coreReadPiece s core a 3 k
    (b ++ b', p || p', s)) ([], false, s)

/-- Bytes of one line read through the CLC of the core's cluster, metered where the CLC does not serve them (R459). Poison is a
fault. -/
def clcReadClean (w : Who) (va n ak : Nat) : EM (List Byte) := do
  let (pkg, pa, cp) ← eXlat w va .read ak
  let s ← get
  if pkg != s.pkg then eReadClean w va n ak
  else
    eMeter w va (if uncached s pa cp then units n else if clcHas s (w.core / 8) (pa / 128) then 0 else 2)
    let s ← get
    let (b, p, s) := if uncached s pa cp then engineRead s w.core pa n else clcPieces s w.core pa n
    set s
    eFaultIf p 24 va ak
    return b

/-- The translations of the pieces of a write. -/
def eTargets (w : Who) (ak : Nat) : List (Nat × Nat × Nat) → EM (List (Nat × Nat × Nat × Nat × Nat))
  | [] => return []
  | (va, o, n) :: rest => do
    let (pkg, pa, cp) ← eXlat w va .write ak
    let l ← eTargets w ak rest
    return (pkg, pa, cp, o, n) :: l

/-- A write at its targets: engine writes here (R142, R150), posted writes elsewhere. -/
def ePut (w : Who) (ts : List (Nat × Nat × Nat × Nat × Nat)) (bs : List (Option Byte)) (psn : Bool) : EM Unit :=
  modify fun s => ts.foldl (fun s (pkg, pa, _, o, n) =>
    let sl := (bs.drop o).take n
    if pkg = s.pkg then engineWrite s w.ctx w.core (some w.queue) pa sl psn
    else remoteWrite s w.ctx pkg pa sl psn) s

/-- Bytes written from a VA: every translation first, so that a fault writes nothing. -/
def eWrite (w : Who) (va : Nat) (bs : List Byte) (ak : Nat) : EM Unit := do
  let ts ← eTargets w ak (cutsAt 512 va bs.length)
  ePut w ts (bs.map some) false

end Sys2Proof.Machine
end

