-- ==== Sys2Proof/Machine/Oasis.lean ====
section
/-! DEFINITION. The Oasis directories (R92 to R98): homes, the version tables, requests, grants, parking and posts, and the
messages that carry them between packages (R161, log 20). -/
namespace Sys2Proof.Machine

/-! ## Homes (R93) -/

def homeHash (t : Tile) : Nat :=
  let c (k : Nat) : Nat := t.co.getD k 0
  (0x9E37 * t.asid + 0x7F4B * t.tensor + 0x3C6B * c 0 + 0x5A39 * c 1 + 0x2D1F * c 2 + 0x6B27 * c 3 + 0x4E6D * c 4
    + 0x1F93 * c 5) % 2 ^ 32
/-- Home(t): a package channel. -/
def homeChan (t : Tile) : Nat := homeHash t % 384
def homeSet (t : Tile) : Nat := homeHash t / 384 % 4096

def dirOf (s : State) (ch : Nat) : Oasis := SMap.getD s.tiles.oasis ch {}
def setDir (s : State) (ch : Nat) (f : Oasis → Oasis) : State :=
  { s with tiles := { s.tiles with oasis := SMap.set s.tiles.oasis ch (f (dirOf s ch)) } }
/-- The entries of a tile's set. -/
def entriesOf (s : State) (t : Tile) : List OEntry := SMap.getD (dirOf s (homeChan t)).sets (homeSet t) []
def setEntries (s : State) (t : Tile) (l : List OEntry) : State :=
  setDir s (homeChan t) fun d => { d with sets := SMap.set d.sets (homeSet t) l }
def entryOf (s : State) (t : Tile) : Option OEntry := (entriesOf s t).find? fun e => e.tile == t
def updEntry (s : State) (t : Tile) (f : OEntry → OEntry) : State :=
  setEntries s t ((entriesOf s t).map fun e => if e.tile == t then f e else e)
/-- The entry becomes the most recently used of its set. -/
def touchEntry (s : State) (t : Tile) : State :=
  match entryOf s t with
  | some e => setEntries s t (((entriesOf s t).filter fun x => !(x.tile == t)) ++ [e])
  | none => s

/-! ## Version tables (R96, R97, R111) -/

/-- The address of a tile's set in its channel's version table. -/
def vtSet (s : State) (t : Tile) : Nat :=
  let w := (chan s (homeChan t)).evtab.toNat
  let n := 2 ^ min 24 (max 12 (w % 32))
  bitsAt w 12 36 * 4096 / (128 * n) * (128 * n) + homeHash t / 384 % n * 128
/-- The entry word at an address. -/
def vtWord (s : State) (a : Nat) : Nat := ofLe (Memory.bytes s.hbm.mem a 32)
/-- The tag part of a tile's entry. -/
def vtTag (t : Tile) : Nat :=
  t.asid + t.tensor * 2 ^ 16 + (((List.range 6).map fun k => t.co.getD k 0 % 2 ^ 16 * 2 ^ (36 + 16 * k)).foldl (· + ·) 0)
def vtSlots (s : State) (t : Tile) : List Nat := (List.range 4).map fun i => vtSet s t + 32 * i
/-- An entry word in a poisoned sector, which says nothing of any tile (R109, log 91). -/
def vtPsn (s : State) (a : Nat) : Bool := (psnAt s a 32).any id
/-- The tile's valid entry. -/
def vtFind (s : State) (t : Tile) : Option Nat :=
  (vtSlots s t).find? fun a => !vtPsn s a && (vtWord s a).testBit 148 && vtWord s a % 2 ^ 132 = vtTag t
/-- The version that the table gives an absent tile (R94): a free value where a poisoned word of its set may have held the tile
(log 91). -/
def vtVer (s : State) (t : Tile) : Nat × State :=
  match vtFind s t with
  | some a => (bitsAt (vtWord s a) 132 16, s)
  | none => if (vtSlots s t).any (vtPsn s) then (let (n, s) := draw s; (Config.choose n % 65536, s)) else (0, s)
/-- (tag, v) written into the tile's set, where it has room. -/
def vtPut (s : State) (t : Tile) (v : Nat) : Option State :=
  let a := match vtFind s t with
    | some a => some a
    | none => (vtSlots s t).find? fun a => !vtPsn s a && !(vtWord s a).testBit 148
  a.map fun a => hbmPutN s none a 32 (2 ^ 148 + v * 2 ^ 132 + vtTag t)

/-! ## Fills and messages -/

def setFillSt (s : State) (id : Nat) (x : FillSt) : State :=
  { s with tiles := { s.tiles with fills := s.tiles.fills.map fun f => if f.id = id then { f with st := x } else f } }
def fillOf (s : State) (id : Nat) : Option Fill := s.tiles.fills.find? fun f => f.id = id

/-- Rows of a tile that one packet holds beside its header (R176, log 20). -/
def rowsPerPacket : Nat := 15
/-- A tile message from a die's gateway to another package (R161, log 20): one packet, or as many as its rows need. -/
def tileSend (s : State) (die dst ty : Nat) (m : TileMsg) : State :=
  let n := max 1 (cdiv m.rows.length rowsPerPacket)
  (List.range n).foldl (fun s i =>
    let m := { m with rows := (m.rows.drop (rowsPerPacket * i)).take rowsPerPacket, part := i, parts := n }
    (gwSend s die { ty := ty, dst := dst, src := s.pkg, sctx := m.ctx, tile := some m }).2) s

/-! ## Messages of a home to the CLCs of its package (R157) -/

/-- A message sent by a tile's home to a CLC. -/
def homeSay (s : State) (t : Tile) (m : HomeMsg) : State :=
  { s with tiles := { s.tiles with homeQ := s.tiles.homeQ ++ [{ m with ch := homeChan t }] } }
/-- A message waits for an earlier one of its home to its CLC: on a link between dies they arrive in order (R157); within a die an
acknowledgement arrives after the forwards before it (R159). -/
def homeAfter (m x : HomeMsg) : Bool :=
  x.ch = m.ch && x.cl = m.cl && (dieOfChan m.ch != m.cl / 6 || (m.ack && !x.ack))
/-- The messages that may arrive next; `seen`: those sent before. -/
def homeReadyL (seen : List HomeMsg) : List HomeMsg → List HomeMsg
  | [] => []
  | m :: l => if seen.any (homeAfter m) then homeReadyL (m :: seen) l else m :: homeReadyL (m :: seen) l
def homeReady (s : State) : List HomeMsg := homeReadyL [] s.tiles.homeQ
/-- A message that may arrive now and meets `p`, taken. -/
def homeTake (s : State) (p : HomeMsg → Bool) : Option State :=
  ((homeReady s).find? p).map fun m => { s with tiles := { s.tiles with homeQ := s.tiles.homeQ.erase m } }

/-! ## Requests (R94) -/

/-- The message that answers or forwards a request. -/
def reqMsg (t : Tile) (r : OReq) (ver kind : Nat) : TileMsg := { tile := t, ver := ver, ctx := r.ctx, fid := r.fid, kind := kind, pkg := r.pkg }

/-- Where an entry answers from: a failed channel's entries answer from HBM (R106). -/
def answerLoc (s : State) (t : Tile) (e : OEntry) : OLoc := if (chan s (homeChan t)).failed then .hbm else e.loc

/-- A request that its entry may grant now, answering from `loc`: while readers = 63, and while another package writes the tile back
(log 90), nothing more is granted from HBM, and openings go in arrival order (R82). -/
def canGrant (loc : OLoc) (e : OEntry) (r : OReq) : Bool :=
  let room := !(loc == .hbm && (e.readers ≥ 63 || !e.hold.isEmpty))
  match r.open_ with
  | none => verSat e.latest r.u && room
  | some zero => (r.own || (e.owner.isNone && !(e.replay.any fun x => x.open_.isSome))) && (zero || room)

/-- A request granted: zeros, a read of HBM, or a forward to where the latest version lives. -/
def grant (s : State) (t : Tile) (e : OEntry) (r : OReq) : State :=
  let d := dieOfChan (homeChan t)
  let mine := r.pkg = s.pkg
  let zero := r.open_ == some true
  let fwd := reqMsg t r e.latest (if r.open_.isSome then 1 else 0)
  let loc := answerLoc s t e
  let s := touchEntry (updEntry s t fun e => { e with
    owner := if r.open_.isSome then some (r.pkg, r.ctx) else e.owner
    readers := if !zero && loc == .hbm then e.readers + 1 else e.readers }) t
  if zero then (if mine then setFillSt s r.fid (.data e.latest [] false) else tileSend s d r.pkg 8 (reqMsg t r e.latest 2))
  else match loc with
  | .hbm => if mine then setFillSt s r.fid (.hbm e.latest) else tileSend s d r.pkg 8 (reqMsg t r e.latest 8)
  | .clc k =>
    if mine then homeSay (setFillSt s r.fid (.fwd k e.latest)) t { ch := 0, cl := k, fid := r.fid }
    else homeSay s t { ch := 0, cl := k, pkt := some { ty := 9, dst := s.pkg, src := s.pkg, grp := k, tile := some fwd } }
  | .pkg p => tileSend (if mine then setFillSt s r.fid .remote else s) d p 9 fwd

/-- Requests that wait at a channel (R92, R96). -/
def replayUse (s : State) (ch : Nat) : Nat :=
  ((dirOf s ch).sets.map fun (_, l) => (l.map fun e => e.replay.length).foldl (· + ·) 0).foldl (· + ·) 0 + (dirOf s ch).ovf.length

/-- OASIS_REPLAY_REFUSED (R92). -/
def refuse (s : State) (t : Tile) (r : OReq) : State :=
  if r.pkg = s.pkg then setFillSt s r.fid (.refused s.clk)
  else tileSend s (dieOfChan (homeChan t)) r.pkg 8 (reqMsg t r 0 10)

/-- A request parked in its entry's replay list. -/
def parkReq (s : State) (t : Tile) (r : OReq) : State :=
  let s := updEntry s t fun e => { e with replay := e.replay ++ [r] }
  if r.pkg = s.pkg then setFillSt s r.fid .home else s

/-- A request at a present entry: granted, parked, or refused by a full replay store; a refused opening gives the ownership that it
has back. -/
def serveReq (s : State) (t : Tile) (r : OReq) : State :=
  match entryOf s t with
  | none => s
  | some e =>
    if canGrant (answerLoc s t e) e r then grant s t e r
    else if replayUse s (homeChan t) ≥ 4096 then refuse (if r.own then updEntry s t fun e => { e with owner := none } else s) t r
    else parkReq s t r

/-- The replay list served in arrival order; what cannot be granted stays. -/
def reServe (s : State) (t : Tile) : State :=
  match entryOf s t with
  | none => s
  | some e => e.replay.foldl (fun s r =>
      match entryOf s t with
      | none => s
      | some e => if canGrant (answerLoc s t e) e r then grant s t e r else parkReq s t r) (updEntry s t fun e => { e with replay := [] })

/-! ## Ways (R96) -/

/-- VERSION_TABLE_OVERFLOW: an idle entry whose version-table set is full is counted, and `mgirq.vtab` set. -/
def vtFull (s : State) (t : Tile) : State :=
  irq (setChan s (homeChan t) fun c => { c with hevovf := bump c.hevovf 1 }) 4

/-- OASIS_OVERFLOW_VICTIM: the first entry, from the least recently used on, that may leave for the version table. -/
def ovfVictim (s : State) : List OEntry → Option Tile × State
  | [] => (none, s)
  | e :: l =>
    if e.loc == .hbm && e.owner.isNone && e.readers = 0 && e.replay.isEmpty && e.hold.isEmpty && e.wbq.isEmpty then
      match vtPut s e.tile e.latest with
      | some s => (some e.tile, s)
      | none => ovfVictim (vtFull s e.tile) l
    else ovfVictim s l

/-- A CLC is ordered to write back the least recently used idle tile of the set that lives in one; a copy already clean or
gone there is in HBM. Whether the second is so. -/
def orderWb (s : State) (t : Tile) : Bool × State :=
  let l := entriesOf s t
  let busy := l.any fun e => match e.loc with
    | .clc k => (victimsOf s k).any fun v => v.line.tile == e.tile && v.line.ver = e.latest
    | _ => false
  if busy then (false, s)
  else match l.find? fun e => e.owner.isNone && (match e.loc with | .clc _ => true | _ => false) with
  | some e => match e.loc with
    | .clc k => match (clcT s k).find? fun x => x.tile == e.tile && x.ver = e.latest && x.dirty with
      | some x => (false, if (victimsOf s k).length < 16 then beginWriteback s k x else s)
      | none => (true, updEntry s e.tile fun e => { e with loc := .hbm })
    | _ => (false, s)
  | none => (false, s)

/-- A way for an absent tile in a full set: that of an overflow victim, for which a CLC may have to write back first (R96). -/
def takeWay (s : State) (t : Tile) : Nat → Bool × State
  | 0 => (false, s)
  | n + 1 =>
    match ovfVictim s (entriesOf s t) with
    | (some v, s) => (true, setEntries s t ((entriesOf s t).filter fun e => !(e.tile == v)))
    | (none, s) => match orderWb s t with
      | (true, s) => takeWay s t n
      | (false, s) => (false, s)

/-- OASIS_ENTRY_ALLOCATE (R94, R96): a way for an absent tile; whether there is one. -/
def allocEntry (s : State) (t : Tile) : Bool × State :=
  if (entriesOf s t).any fun e => e.tile == t then (true, s)
  else
    match if (entriesOf s t).length < 16 then (true, s) else takeWay s t 17 with
    | (false, s) => (false, s)
    | (true, s) =>
      let (v, s) := vtVer s t
      (true, setEntries s t (entriesOf s t ++ [{ tile := t, latest := v }]))

/-- A request at its home. -/
def oRequest (s : State) (t : Tile) (r : OReq) : State :=
  match allocEntry s t with
  | (true, s) => serveReq s t r
  | (false, s) =>
    if replayUse s (homeChan t) ≥ 4096 then refuse s t r
    else
      let s := setDir s (homeChan t) fun d => { d with ovf := d.ovf ++ [(t, r)] }
      if r.pkg = s.pkg then setFillSt s r.fid .home else s

/-- The overflow queue of a channel tried again (R96). -/
def pumpOvf (s : State) (ch : Nat) : State :=
  let l := (dirOf s ch).ovf
  l.foldl (fun s (t, r) => oRequest s t r) (setDir s ch fun d => { d with ovf := [] })
/-- The overflow queues of every channel tried again: a way may have come free. -/
def pumpAll (s : State) : State :=
  s.tiles.oasis.foldl (fun s (ch, d) => if d.ovf.isEmpty then s else pumpOvf s ch) s

/-! ## Posts, discards, reads done (R94, R98) -/

/-- A post recorded at its home: the version recorded; none while the tile has no way. A writer that no longer owns the
entry records the version its line holds (R98). -/
def oPost (s : State) (t : Tile) (v : Nat) (loc : OLoc) (pkg ctx : Nat) : Option Nat × State :=
  match allocEntry s t with
  | (false, s) => (none, s)
  | (true, s) => match entryOf s t with
    | none => (none, s)
    | some e =>
      let own := e.owner == some (pkg, ctx)
      let n := if own then verNext e.latest else v
      (some n, pumpOvf (reServe (updEntry s t fun e => { e with latest := n, loc := loc, owner := if own then none else e.owner }) t)
        (homeChan t))

/-- A discard by the writer (R84, R98). -/
def oDiscard (s : State) (t : Tile) (pkg ctx : Nat) : State :=
  match entryOf s t with
  | some e =>
    if e.owner == some (pkg, ctx) then pumpOvf (reServe (updEntry s t fun e => { e with owner := none }) t) (homeChan t) else s
  | none => s

/-- A discard on its way to a tile's home (R84). -/
def sendDiscard (s : State) (home : Nat) (t : Tile) (ver ctx fid : Nat) : State :=
  if home = s.pkg then cause s (.oasisDiscard t s.pkg ctx)
  else tileSend s (dieOf ctx) home 7 { tile := t, ver := ver, ctx := ctx, fid := fid, kind := 4, pkg := s.pkg }

/-- A tile's writer goes on in another context (R81). -/
def oMoved (s : State) (t : Tile) (pkg from_ ctx : Nat) : State :=
  updEntry s t fun e => { e with owner := if e.owner == some (pkg, from_) then some (pkg, ctx) else e.owner }
/-- The home of an open tile told that its writer goes on in another context. -/
def tellMoved (s : State) (home : Nat) (t : Tile) (from_ ctx : Nat) : State :=
  if home = s.pkg then oMoved s t s.pkg from_ ctx
  else tileSend s (dieOf ctx) home 7 { tile := t, ver := from_, ctx := ctx, fid := 0, kind := 15, pkg := s.pkg }

/-! ## Write-backs of other packages (R94, log 90) -/

/-- A home lets another package's write-back of a tile to its HBM begin. -/
def wbAllow (s : State) (m : TileMsg) : State :=
  tileSend (updEntry s m.tile fun e => { e with hold := e.hold ++ [(m.pkg, m.fid)] }) (dieOfChan (homeChan m.tile)) m.pkg 8
    { m with kind := 13, pkg := s.pkg }
/-- A write-back of another package asked for: it waits while readers > 0; an eviction of a version that is no longer the latest there
has nothing to write (log 21). -/
def wbAsked (s : State) (m : TileMsg) : State :=
  match entryOf s m.tile with
  | none => wbAllow s m
  | some e =>
    if m.kind = 12 && !(e.latest = m.ver && e.loc == .pkg m.pkg) then
      tileSend s (dieOfChan (homeChan m.tile)) m.pkg 8 { m with kind := 6, pkg := s.pkg }
    else if e.readers > 0 then updEntry s m.tile fun e => { e with wbq := e.wbq ++ [m] }
    else wbAllow s m
/-- A write-back of another package is over: reads of HBM are granted again. -/
def wbOver (s : State) (t : Tile) (pkg fid : Nat) : State :=
  reServe (updEntry s t fun e => { e with hold := e.hold.filter fun x => x != (pkg, fid), wbq := e.wbq.filter fun m => m.pkg != pkg || m.fid != fid }) t

/-- A granted read of HBM has completed; after the last, the write-backs that waited begin. -/
def oReadDone (s : State) (t : Tile) : State :=
  let s := updEntry s t fun e => { e with readers := e.readers - 1 }
  let s := match entryOf s t with
    | some e => if e.readers = 0 then e.wbq.foldl wbAsked (updEntry s t fun e => { e with wbq := [] }) else s
    | none => s
  pumpOvf (reServe s t) (homeChan t)

/-- HBM reads of a tile that are granted and not completed. -/
def oReaders (s : State) (t : Tile) : Nat := match entryOf s t with | some e => e.readers | none => 0

end Sys2Proof.Machine
end

