-- ==== Sys2Proof/Machine/Fill.lean ====
section
/-! DEFINITION. Tile contents read and written (R57, R69, R70, R78, R487), fills (R75 to R80), what a command finds for a tile
(R77, R80, R344), and the delivery of data (R75, R76, R80). -/
namespace Sys2Proof.Machine

/-! ## Reading a tile (R78) -/

/-- On whose behalf a fill reads. -/
def fillWho (f : Fill) : Who :=
  { ag := .fill (f.core / 8), core := f.core, ctx := f.ctx, asid := f.asid, queue := f.queue, owner := ownerOf f.id }

/-- The memory rows of a tile's rows: a gather view reads them from its side tensor (R69). -/
def readIdx (w : Who) (d : Desc) (x1 : Nat) : List Nat → EM (List Nat × Bool)
  | [] => return ([], false)
  | r :: rs => do
    let (b, p) ← eRead w (dSide d + 4 * (x1 + r)) 4 5
    let (l, q) ← readIdx w d x1 rs
    return (ofLe b :: l, p || q)

/-- The runs of a tile: bit address, elements, memory row. -/
def readRuns (w : Who) (d : Desc) (co : List Nat) (rows : List Nat) : List Nat → EM (List (List Nat) × Bool)
  | [] => return ([], false)
  | r :: rs => do
    let bit := runBit d co r (rows.getD r 0)
    let n := runLen d co
    let mb := fmtBits (dMfmt d)
    let (b, p) ← eRead w (bit / 8) (runBytes bit mb n) 5
    let (l, q) ← readRuns w d co rows rs
    return (((List.range n).map fun k => elemAt b bit mb k) :: l, p || q)

/-- The parameter words of a q-group tile, by group row and column. -/
def readParams (w : Who) (d : Desc) (co : List Nat) : List Nat → EM (List (List Nat) × Bool)
  | [] => return ([], false)
  | g :: gs => do
    let n := inCols d co
    let (b, p) ← eRead w (paramVa d co g) (4 * n) 5
    let (l, q) ← readParams w d co gs
    return (((List.range n).map fun k => elemAt b 0 32 k) :: l, p || q)

/-- What a fill from memory brings: rows, poison, segments, flags. -/
structure TileData where
  rows : SMap Vec := []
  psn : Bool := false
  segs : Nat := 0
  fl : Fl := 0
  deriving DecidableEq, Repr

/-- The rows of a Mirage tile after its header. -/
def readCoef (w : Who) (va n : Nat) : List Nat → EM (SMap Vec × Bool)
  | [] => return ([], false)
  | j :: js => do
    let (b, p) ← eRead w (va + 64 + 2 * j * n) (2 * n) 5
    let (l, q) ← readCoef w va n js
    let v := BitVec.ofNat 2048 (ofLe b)
    return (if v = 0 then l else (1 + j, v) :: l, p || q)

/-- Tokens of the elements and parameters of a tile that is not a Mirage tile, read or written (R122); those of a gather view's row
numbers. -/
def tileUnits (d : Desc) (co : List Nat) : Nat :=
  ((List.range (runCount d co)).map fun r =>
      units (runBytes (runBit d co r r) (fmtBits (dMfmt d)) (runLen d co))).foldl (· + ·) 0
    + (if dClass d = 1 then inGroups d co * units (4 * inCols d co) else 0)
def idxUnits (d : Desc) (co : List Nat) : Nat := if dClass d = 3 then units (4 * inRows d co) else 0

/-- A tile read from memory, metered (R56, R57, R78, R122). -/
def readTile (w : Who) (d : Desc) (co : List Nat) : EM TileData := do
  if dClass d = 2 then
    let va := elemBit d co (co.getD 1 0 * dTC d) (co.getD 0 0 * dTR d) 0 / 8
    eMeter w 0 1
    let (b, p) ← eRead w va 64 5
    let h := ofLe b
    let hd : SMap Vec := if h = 0 then [] else [(0, BitVec.ofNat 2048 h)]
    if mBad d h then return { rows := hd, psn := true, segs := 1 }
    eMeter w 1 (units (2 * dN d * mRank h))
    let (l, q) ← readCoef w va (dN d) (List.range (mRank h))
    return { rows := hd ++ l, psn := p || q, segs := mSegs d h }
  else
    eMeter w 0 (tileUnits d co + idxUnits d co)
    let (rows, p) ← if dClass d = 3 then readIdx w d (co.getD 0 0 * dTR d) (List.range (inRows d co)) else pure ([], false)
    let (runs, q) ← readRuns w d co rows (List.range (runCount d co))
    let (ps, r) ← if dClass d = 1 then readParams w d co (List.range (inGroups d co)) else pure ([], false)
    let (out, fl) := fillRows d co runs ps
    return { rows := out, psn := p || q || r, segs := dSegs d, fl := fl }

/-! ## Writing a tile back (R78, R487) -/

/-- The bytes of elements of mb bits from bit address `bit`; half a byte that the elements do not fill is not written
here. -/
def runOut (bit mb : Nat) (es : List Nat) : List Byte × List Bool :=
  let n := runBytes bit mb es.length
  let z := packL' mb es * 2 ^ (bit % 8)
  (leBytes z n, (List.range n).map fun i => !(mb = 4 && ((i = 0 && bit % 8 = 4) || (i + 1 = n && (bit + mb * es.length) % 8 = 4))))
where
  /-- Elements packed, the first lowest. -/
  packL' (w : Nat) : List Nat → Nat
    | [] => 0
    | x :: l => x % 2 ^ w + 2 ^ w * packL' w l

/-- A byte of which a run fills one half: the other half keeps its contents. -/
def mergeHalf (w : Who) (va : Nat) (b : Byte) (low : Bool) : EM Byte := do
  let (o, _) ← eRead w va 1 2
  let o := o.getD 0 0
  return if low then (o &&& 0xF0#8) ||| (b &&& 0x0F#8) else (o &&& 0x0F#8) ||| (b &&& 0xF0#8)

/-- A run as it is written: its address and bytes. -/
def runWrite (w : Who) (bit mb : Nat) (es : List Nat) : EM (Nat × List Byte) := do
  let va := bit / 8
  let n := runBytes bit mb es.length
  let (bs, whole) := runOut bit mb es
  let bs ← if whole.getD 0 true then pure bs
    else do let b ← mergeHalf w va (bs.getD 0 0) (bit % 8 = 0); pure (b :: bs.tail)
  let bs ← if n ≤ 1 || whole.getD (n - 1) true then pure bs
    else do let b ← mergeHalf w (va + n - 1) (bs.getD (n - 1) 0) true; pure (bs.take (n - 1) ++ [b])
  return (va, bs)

/-- The elements of run r of a line as memory holds them, and their flags. -/
def runElems (d : Desc) (co : List Nat) (rows : SMap Vec) (r : Nat) : List Nat × Fl :=
  let w := fmtBits (dTfmt d)
  let l := (List.range (runLen d co)).map fun k =>
    backElem d (if dLayout d = 1 then rowElem rows w k r else rowElem rows w r k)
  (l.map (·.1), orFlags (l.map (·.2)))

/-- Every run and parameter row of a tile as it is written. -/
def tileRuns (w : Who) (d : Desc) (co : List Nat) (rows : SMap Vec) : List Nat → EM (List (Nat × List Byte))
  | [] => return if dCodes d then (List.range (inGroups d co)).map fun g =>
      (paramVa d co g, (List.range (inCols d co)).flatMap fun n => leBytes (paramWord d rows (g * dTC d + n)) 4) else []
  | r :: rs => do
    let x ← runWrite w (runBit d co r (co.getD 0 0 * dTR d + r)) (fmtBits (dMfmt d)) (runElems d co rows r).1
    let l ← tileRuns w d co rows rs
    return x :: l

/-- The targets of every part of a write-back. -/
def tileTargets (w : Who) : List (Nat × List Byte) → EM (List (List (Nat × Nat × Nat × Nat × Nat) × List Byte))
  | [] => return []
  | (va, bs) :: l => do
    let ts ← eTargets w 2 (cutsAt 512 va bs.length)
    let rest ← tileTargets w l
    return (ts, bs) :: rest

/-- What a write-back writes, and where: every translation, so that a fault writes nothing (R487). -/
def tileOut (w : Who) (d : Desc) (co : List Nat) (rows : SMap Vec) : EM (List (List (Nat × Nat × Nat × Nat × Nat) × List Byte)) := do
  tileTargets w (← tileRuns w d co rows (List.range (runCount d co)))

/-- A write-back (R78, R487), metered where a post causes it (R122). Its flags, and whether it touched a page that the host sees
(R204). -/
def writeTile (w : Who) (metered : Bool) (d : Desc) (co : List Nat) (rows : SMap Vec) : EM (Fl × Bool) := do
  let ts ← tileOut w d co rows
  if metered then eMeter w 1 (tileUnits d co)
  for (t, bs) in ts do ePut w t (bs.map some) false
  let s ← get
  return (orFlags ((List.range (runCount d co)).map fun r => (runElems d co rows r).2),
    ts.any fun t => t.1.any fun (pkg, pa, cp, _, _) => pkg == s.pkg && hostVisible pa cp)

/-! ## Fills (R75 to R77) -/

/-- The line of a CLC that serves a request at u: its newest valid one, or one that is poisoned (R77, R80). -/
def clcServes (s : State) (cl : Nat) (t : Tile) (u : Nat) : Option TLine :=
  (newestOf (clcT s cl) t u).orElse fun _ => (clcT s cl).find? fun x => x.tile == t && x.st == .poisoned && verSat x.ver u

/-- The route of a fill that has its line: a line of its CLC, a pending fill of its cluster, or its home. -/
def routeFill (s : State) (f : Fill) : Fill :=
  if f.open_.isSome then { f with st := .request }
  else match clcServes s (f.core / 8) f.tile f.u with
  | some l => { f with st := .clc l.ver }
  | none =>
    match s.tiles.fills.find? fun g => g.tile == f.tile && g.core / 8 = f.core / 8 && g.open_.isNone && verSat g.u f.u
        && (match g.st with | .joined _ => false | .alloc => false | _ => true) with
    | some g => { f with st := .joined g.id }
    | none => { f with st := .request }

/-- Segments of a line when it is allocated (R75). -/
def allocSegs (f : Fill) : Nat := dSegs f.b.desc
/-- The line of a fill allocated, where its CTC has room. -/
def allocLine (s : State) (f : Fill) : Option (Fill × State) :=
  (ctcRoom (ctcOf s f.core) (allocSegs f) (ctcOf s f.core).length).map fun l =>
    let (id, s) := newId s
    let x : TLine := { id := id, tile := f.tile, b := f.b, asid := f.asid, segs := allocSegs f, ctx := f.ctx, tid := f.tid, queue := f.queue }
    (routeFill s { f with line := id }, setCtc s f.core (capped (l ++ [hintLine x f.hint])))
def addFill (s : State) (f : Fill) : State := { s with tiles := { s.tiles with fills := s.tiles.fills ++ [f] } }
def putFill (s : State) (f : Fill) : State :=
  { s with tiles := { s.tiles with fills := s.tiles.fills.map fun g => if g.id = f.id then f else g } }

/-- A line of a CLC changed. -/
def updClcT (s : State) (cl id : Nat) (g : TLine → TLine) : State :=
  setClcT s cl ((clcT s cl).map fun l => if l.id = id then g l else l)
/-- The lines of a fill, in its CTC and in its CLC, changed. -/
def updFillLines (s : State) (f : Fill) (g : TLine → TLine) : State := updClcT (updLine s f.core f.line g) (f.core / 8) f.clc g

/-- The CLC line of a fill that asks its home (R76, R80): filling until the data come; none where the CLC has no room, for stream
through and for an opening. -/
def clcHold (s : State) (f : Fill) : Fill × State :=
  if f.clc != 0 || f.hint = 3 || f.open_.isSome then (f, s)
  else match clcRoom s (f.core / 8) 0 (allocSegs f) 1 with
  | none => (f, s)
  | some s =>
    let (id, s) := newId s
    let x : TLine := { id := id, tile := f.tile, b := f.b, asid := f.asid, segs := allocSegs f, ctx := f.ctx, tid := f.tid, queue := f.queue }
    let old := (clcT s (f.core / 8)).map fun l => if l.tile == f.tile && l.st == .valid then { l with cls := 2 } else l
    ({ f with clc := id }, setClcT s (f.core / 8) (capped (old ++ [hintLine x f.hint])))

/-- A fill that is over: its replies, its tokens and a CLC line that no data have reached go with it. -/
def dropFill (s : State) (id : Nat) : State :=
  let s := match fillOf s id with
    | some f => setClcT s (f.core / 8) ((clcT s (f.core / 8)).filter fun l => l.id != f.clc || !(l.st == TSt.filling || l.st == TSt.provisional))
    | none => s
  eDone { s with tiles := { s.tiles with fills := s.tiles.fills.filter fun f => f.id != id } } (ownerOf id)

/-- FILL_REQUEST (R77, R80): a fill begins, or an opening; older lines of the tile enter the last-use class. -/
def newFill (s : State) (f : Fill) : State :=
  let s := if f.open_.isSome then s else
    setCtc s f.core ((ctcOf s f.core).map fun l => if l.tile == f.tile && l.st == .valid then { l with cls := 2 } else l)
  let (id, s) := newId s
  let f := { f with id := id, pkg := s.pkg, st := .alloc }
  match allocLine s f with
  | some (f, s) => addFill s f
  | none => addFill s f

/-- What a command finds for a tile at a requirement. -/
inductive TNeed where
  | line (l : TLine)
  | poisoned (id : Nat)
  | wait
  deriving DecidableEq, Repr

/-- A tile needed by a context's command (R77, R80): its newest satisfying line, a poisoned one, or a fill. -/
def tileNeed (s : State) (c : Nat) (b : Binding) (t : Tile) (u : Nat) : TNeed × State :=
  let core := coreOf c
  match newestOf (ctcOf s core) t u with
  | some l => (.line l, s)
  | none =>
    match (ctcOf s core).find? fun x => x.tile == t && x.st == .poisoned && verSat x.ver u with
    | some l => (.poisoned l.id, s)
    | none =>
      if s.tiles.fills.any fun f => f.core = core && f.tile == t && f.open_.isNone && verSat f.u u then (.wait, s)
      else
        let tk := taskOf s c
        (.wait, newFill s { id := 0, core := core, ctx := c, tid := tk.tid, queue := tk.queue, tile := t, b := b,
                            asid := tk.asid, u := u, hint := dHint b.desc })

/-! ## Delivery (R75 to R80) -/

/-- Data delivered to the requests that joined a fill (R77). -/
def deliverJoined (s : State) (id v : Nat) (d : Option TileData) : State :=
  let next (u : Nat) : FillSt := match d with
    | some d => if verSat v u then .data v d.rows d.psn else .request
    | none => .request
  let upd (g : Fill) : Fill := if g.st == .joined id then { g with st := next g.u } else g
  { s with tiles := { s.tiles with fills := s.tiles.fills.map upd } }

/-- A granted read of HBM is over: its home is told (R94). -/
def readDone (s : State) (f : Fill) : State :=
  if f.pkg = s.pkg then cause s (.oasisHbmReadDone f.tile)
  else tileSend s (f.core / 48) f.pkg 7 { tile := f.tile, ver := 0, ctx := f.ctx, fid := f.id, kind := 9, pkg := s.pkg }

/-- A fill that is given up (R91): its line goes, and those that joined ask for themselves. -/
def abandonFill (s : State) (f : Fill) : State :=
  let s := match f.st with | .hbm _ => readDone s f | _ => s
  dropFill (deliverJoined (delLine s f.core f.line) f.id 0 none) f.id

/-- The segments of a line once its data are there. -/
def dataSegs (d : Desc) (t : TileData) : Nat :=
  if dClass d = 2 then mSegs d (SMap.getD t.rows 0 0).toNat else dSegs d

/-- A fill's data in its CLC (R76, R80): in the line that it holds there, or in a new one where there is room; none for stream
through, where the CLC has the version already, or where it gave the data. -/
def clcTake (s : State) (f : Fill) (v : Nat) (t : TileData) (fromClc : Bool) : State :=
  let cl := f.core / 8
  if fromClc || f.hint = 3 || (clcT s cl).any fun x => x.tile == f.tile && x.st == .valid && x.ver = v then s
  else if (clcT s cl).any fun x => x.id = f.clc then
    let s := updClcT s cl f.clc fun l => { l with st := if t.psn then .poisoned else .valid, ver := v, rows := t.rows,
                                                  segs := dataSegs f.b.desc t, home := f.pkg }
    setClcT s cl (superseded (clcT s cl) f.tile v)
  else if t.psn then s
  else match ctcLine s f.core f.line with
  | some l => (clcInstall s cl { l with dirty := false }).getD s
  | none => s

/-- Data reach the lines of a fill (R75, R76, R80): valid, or poisoned. -/
def deliverFill (s : State) (f : Fill) (v : Nat) (t : TileData) (fromClc : Bool) : State :=
  let st : TSt := if t.psn then .poisoned else .valid
  let s := updLine s f.core f.line fun l => { l with st := st, ver := v, rows := t.rows, segs := dataSegs f.b.desc t, home := f.pkg }
  dropFill (deliverJoined (flagsTo (clcTake s f v t fromClc) f.ctx f.tid t.fl) f.id v (some t)) f.id

/-- The context in which a task runs now. -/
def ctxOfTid (s : State) (tid : Nat) : Option Nat :=
  (s.ctx.find? fun (_, x) => match x.task with | some t => t.tid = tid | none => false).map (·.1)

/-- Where the line of a granted opening goes: its writer's task runs where it asked, in another context, or is saved; or it has ended
and the opening is discarded. -/
inductive OpenTo where
  | here
  | ctx (c : Nat)
  | saved
  | gone
  deriving DecidableEq, Repr
def openTo (s : State) (f : Fill) : OpenTo :=
  if liveIn s f.ctx f.tid then .here
  else match ctxOfTid s f.tid with
  | some c => .ctx c
  | none => if (savedOf s f.tid).isSome then .saved else .gone
/-- The lines of the CTC that an opening goes to, with room for its line (R75); none where it waits. -/
def openRoom (s : State) (f : Fill) : Option (List TLine) :=
  match openTo s f with
  | .ctx c => if coreOf c = f.core then some (ctcOf s f.core) else ctcRoom (ctcOf s (coreOf c)) (allocSegs f) (ctcOf s (coreOf c)).length
  | _ => some []

/-- An opening granted (R80, R82): the line is open at the next version for its writer, wherever its task is now. -/
def deliverOpen (s : State) (f : Fill) (v : Nat) (t : TileData) : State :=
  let upd (c : Nat) (l : TLine) : TLine :=
    { l with st := if t.psn then .openPoisoned else .open_, ver := verNext v, rows := t.rows, ctx := c, home := f.pkg }
  let s := flagsTo s f.ctx f.tid t.fl
  let gone (s : State) : State := dropFill (sendDiscard (delLine s f.core f.line) f.pkg f.tile (verNext v) f.ctx f.line) f.id
  match ctcLine s f.core f.line, openRoom s f with
  | none, _ => gone s
  | some _, none => setFillSt s f.id (.data v t.rows t.psn)
  | some l, some room =>
    match openTo s f with
    | .here => dropFill (updLine s f.core f.line (upd f.ctx)) f.id
    | .ctx c =>
      let s := if coreOf c = f.core then updLine s f.core f.line (upd c)
        else setCtc (delLine s f.core f.line) (coreOf c) (capped (room ++ [upd c l]))
      tellMoved (dropFill s f.id) f.pkg f.tile f.ctx c
    | .saved => updSaved (dropFill (delLine s f.core f.line) f.id) f.tid fun v => { v with lines := v.lines ++ [upd f.ctx l] }
    | .gone => gone s

end Sys2Proof.Machine
end

