-- ==== Sys2Proof/Machine/EvTile.lean ====
section
/-! DEFINITION. The steps of the tile cache that no word encodes (03, 06): fills, openings, requests at a home, posts,
write-backs, forwards, itineraries and purges. A step that is not enabled changes nothing (log 11). -/
namespace Sys2Proof.Machine

/-! ## Fills -/

/-- A part of a fill's work: its value, or none where it waits or has faulted (R79, R91). A fill of a queue that no longer
runs is given up. -/
def runFill {α : Type} (s : State) (f : Fill) (m : EM α) : Option α × State :=
  match eRun m s with
  | (.ok a, t) => (some a, t)
  | (.error .wait, t) => (none, t)
  | (.error (.fault sub va ak), t) =>
    (none, if f.pre || !qRuns t f.queue then abandonFill t f
      else engineFault t f.ctx f.tid f.core (.fill f.id) f.queue f.asid 4 0 sub (BitVec.ofNat 64 va) ak 0)

/-- A CLC line that serves a fill: a use of it, or, where it is poisoned, its end (R80, R89). -/
def clcServe (s : State) (cl : Nat) (l : TLine) : State :=
  if l.st == .poisoned then setClcT s cl ((clcT s cl).filter fun x => x.id != l.id)
  else updClcT (setClcT s cl (useIn (clcT s cl) l.id)) cl l.id lastUse

/-- Data that came over Flecen are held until their tags are checked (R80, R95). -/
def holdData (s : State) (f : Fill) (v : Nat) (rows : SMap Vec) (psn : Bool) : State :=
  updFillLines (setFillSt s f.id (.prov v rows psn)) f fun l => { l with st := .provisional }
/-- TILE_TAG_CHECK (R80): provisional data become the fill's data, or are discarded until they come again. -/
def tagCheck (s : State) (id : Nat) (ok : Bool) : State :=
  match fillOf s id with
  | some f => match f.st with
    | .prov v rows psn =>
      updFillLines (setFillSt s id (if ok then .data v rows psn else .remote)) f fun l => { l with st := .filling }
    | _ => s
  | none => s

/-- The data of a fill that is ready for them: its version, what it brings, and whether its CLC has them. Data that a home in
another package has granted from its HBM pass through provisional (R95). -/
def bring (s : State) (f : Fill) : Option (Nat × TileData × Bool) × State :=
  match f.st with
  | .clc v =>
    match (clcT s (f.core / 8)).find? fun l => l.tile == f.tile && l.ver = v && (l.st == .valid || l.st == .poisoned) with
    | some l => (some (v, { rows := l.rows, psn := l.st == .poisoned }, true), clcServe s (f.core / 8) l)
    | none => (none, setFillSt s f.id .request)
  | .data v rows psn => (some (v, { rows := rows, psn := psn }, false), s)
  | .hbm v =>
    match runFill s f (readTile (fillWho f) f.b.desc f.tile.co) with
    | (some d, s) =>
      let s := readDone s f
      if f.pkg = s.pkg then (some (v, d, false), s)
      else (none, tagCheck (holdData (flagsTo s f.ctx f.tid d.fl) f v d.rows d.psn) f.id true)
    | (none, s) => (none, s)
  | _ => (none, s)

/-- `FILL_ALLOCATION_RESUME` (R75): the line that a fill waits for is allocated. -/
def resumeAlloc (s : State) (id : Nat) : State :=
  match fillOf s id with
  | some f => if f.st == FillSt.alloc then (match allocLine s f with | some (f, s) => putFill s f | none => s) else s
  | none => s
def execFillAllocationResume (s : State) : Host.Outcome State Fault Refusal :=
  match s.ev with
  | some (.fillAllocationResume f) => .next (resumeAlloc s f)
  | _ => .next s

/-- A fill not stopped by a pending fault. -/
def fillFree (s : State) (id : Nat) : Option Fill := if faulted s (.fill id) then none else fillOf s id

/-- `FILL_DATA_ARRIVES` (R75 to R80). -/
def fillArrive (s : State) (id : Nat) : State :=
  match fillFree s id with
  | some f =>
    if f.open_.isSome then s
    else match bring s f with
    | (some (v, d, c), s) => deliverFill s f v d c
    | (none, s) => s
  | none => s
def execFillDataArrives (s : State) : Host.Outcome State Fault Refusal :=
  match s.ev with
  | some (.fillDataArrives f) => .next (fillArrive s f)
  | _ => .next s

/-- The rows that a tile message carries. -/
def msgRows (m : TileMsg) : SMap Vec := m.rows.foldl (fun r x => SMap.set r x.1 x.2) []
def rowsMsg (rows : SMap Vec) : List (Nat × BitVec 2048) := rows

/-- A message of tile data that a fill waits for. -/
def dataFor (f : Fill) (m : TileMsg) : Bool := f.st == FillSt.remote && m.tile == f.tile && m.fid = f.id && m.kind = 0
/-- `FILL_DATA_PROVISIONAL` (R80): data that came over Flecen are held until their tag is checked. -/
def fillProvisional (s : State) (id : Nat) (k : Packet) : State :=
  match fillOf s id, k.tile with
  | some f, some m => if dataFor f m && k.ty = 8 && m.parts ≤ 1 then holdData s f m.ver (msgRows m) (m.psn || k.psn) else s
  | _, _ => s
def execFillDataProvisional (s : State) : Host.Outcome State Fault Refusal :=
  match s.ev with
  | some (.fillDataProvisional f k) => .next (fillProvisional s f k)
  | _ => .next s

/-- A message of tile data with the parts that came before it: the whole, once every part is there (R176, log 20). -/
def tilePart (s : State) (src : Nat) (m : TileMsg) : Option TileMsg × State :=
  if m.parts ≤ 1 then (some m, s)
  else
    let same (x : Nat × TileMsg) : Bool := x.1 = src && x.2.fid = m.fid && x.2.tile == m.tile && x.2.ver = m.ver
    let l := s.fab.tileIn.filter same ++ [(src, m)]
    if l.length < m.parts then (none, { s with fab := { s.fab with tileIn := s.fab.tileIn ++ [(src, m)] } })
    else (some { m with rows := l.flatMap fun x => x.2.rows, psn := l.any fun x => x.2.psn, part := 0, parts := 1 },
          { s with fab := { s.fab with tileIn := s.fab.tileIn.filter fun x => !same x } })

/-- `OWNERSHIP_GRANT` (R80, R82). -/
def ownGrant (s : State) (id : Nat) : State :=
  match fillFree s id with
  | some f =>
    if f.open_.isNone then s
    else match bring s f with
    | (some (v, d, _), s) => deliverOpen s f v d
    | (none, s) => s
  | none => s
def execOwnershipGrant (s : State) : Host.Outcome State Fault Refusal :=
  match s.ev with
  | some (.ownershipGrant f) => .next (ownGrant s f)
  | _ => .next s

/-! ## Requests at a home (R92 to R96, R161) -/

/-- The package of a tile's home: this one, or the one that holds the first byte of a domain-shared tile (R88, R161). -/
def homeOf (w : Who) (b : Binding) (t : Tile) : EM Nat := do
  if dDomain b.desc then
    let (pkg, _, _) ← eXlat w (runBit b.desc t.co 0 (t.co.getD 0 0 * dTR b.desc) / 8) .read 5
    return pkg
  else return (← get).pkg

/-- A fill's request, at its home here or sent to its home's package. -/
def askHome (s : State) (f : Fill) : State :=
  match runFill s f (homeOf (fillWho f) f.b f.tile) with
  | (none, s) => s
  | (some p, s) =>
    let (f, s) := clcHold s f
    let s := putFill s f
    if p = s.pkg then oRequest s f.tile { fid := f.id, u := f.u, open_ := f.open_, pkg := s.pkg, ctx := f.ctx }
    else
      let k := match f.open_ with | none => 0 | some false => 1 | some true => 2
      tileSend (putFill s { f with st := .remote, pkg := p }) (f.core / 48) p 7
        { tile := f.tile, ver := f.u, ctx := f.ctx, fid := f.id, kind := k, pkg := s.pkg }

/-- A request of another package at its home here. -/
def askedBy (s : State) (k : Packet) (open_ : Option Bool) : State :=
  match k.tile with
  | some m => oRequest s m.tile { fid := m.fid, pkt := some k, u := if open_.isSome then 0 else m.ver, open_ := open_, pkg := m.pkg, ctx := m.ctx }
  | none => s

/-- A fill that is to ask its home now. -/
def asking (s : State) (id : Nat) (opening : Bool) : Option Fill :=
  (fillFree s id).bind fun f => if f.st == FillSt.request && f.open_.isSome == opening then some f else none

/-- `OASIS_READ_REQUEST` (R92 to R96, R161). -/
def execOasisReadRequest (s : State) : Host.Outcome State Fault Refusal :=
  match s.ev with
  | some (.oasisReadRequest _ (some k)) => .next (askedBy s k none)
  | some (.oasisReadRequest f none) => .next (match asking s f false with | some f => askHome s f | none => s)
  | _ => .next s

/-- `OASIS_OPEN_REQUEST` (R82, R94). -/
def execOasisOpenRequest (s : State) : Host.Outcome State Fault Refusal :=
  match s.ev with
  | some (.oasisOpenRequest _ (some k)) => .next (askedBy s k (some (match k.tile with | some m => m.kind = 2 | none => false)))
  | some (.oasisOpenRequest f none) => .next (match asking s f true with | some f => askHome s f | none => s)
  | _ => .next s

/-- `FILL_RESEND` (R92): 1,024 clocks after a refusal. -/
def resend (s : State) (id : Nat) : State :=
  match fillOf s id with
  | some f => match f.st with
    | .refused k => if k + 1024 ≤ s.clk then setFillSt s id .request else s
    | _ => s
  | none => s
def execFillResend (s : State) : Host.Outcome State Fault Refusal :=
  match s.ev with
  | some (.fillResend f) => .next (resend s f)
  | _ => .next s

/-- `OASIS_HBM_READ_DONE` (R94). -/
def execOasisHbmReadDone (s : State) : Host.Outcome State Fault Refusal :=
  match s.ev with
  | some (.oasisHbmReadDone t) => .next (oReadDone s t)
  | _ => .next s

/-- `OASIS_DISCARD` (R84, R98). -/
def execOasisDiscard (s : State) : Host.Outcome State Fault Refusal :=
  match s.ev with
  | some (.oasisDiscard t pkg ctx) => .next (oDiscard s t pkg ctx)
  | _ => .next s

/-! ## Posts (R83, R98, R161, R487) -/

/-- On whose behalf a line is written back (R487). -/
def wbWho (cl : Nat) (l : TLine) : Who :=
  { ag := .fill cl, core := l.ctx / 4, ctx := l.ctx, asid := l.asid, queue := l.queue, owner := ownerOf l.id }

/-- A part of a write-back attempted: done, given up because its queue no longer runs or a handler has said so, or neither yet (R487). -/
inductive WbR (α : Type) where
  | ok (a : α)
  | drop
  | wait
  deriving DecidableEq, Repr

def wbTry {α : Type} (s : State) (cl : Nat) (l : TLine) (m : EM α) : WbR α × State :=
  if l.given then (.drop, s)
  else match eRun m s with
  | (.ok a, t) => (.ok a, t)
  | (.error .wait, t) => (.wait, t)
  | (.error (.fault sub va _), t) =>
    if !qRuns t l.queue then (.drop, t)
    else (.wait, engineFault t l.ctx l.tid (l.ctx / 4) (.wb cl l.id) l.queue l.asid 4 0 sub (BitVec.ofNat 64 va) 2 0)

/-- The task of a post whose write-back has touched a page that the host sees is pinned (R204). -/
def pinPoster (s : State) (tid : Nat) : State :=
  match ctxOfTid s tid with
  | some c => pinTask s c
  | none =>
    let upd (r : Ready) : Ready := if r.task.tid = tid then { r with task := { r.task with pinned := true } } else r
    { s with car := { s.car with ready := s.car.ready.map upd, restoring := s.car.restoring.map fun r => (r.1, upd r.2) } }

/-- A tile written back; `post`: a post causes it, and it is metered (R122). -/
def writeBack (s : State) (cl : Nat) (l : TLine) (post : Bool) : WbR Unit × State :=
  match wbTry s cl l (writeTile (wbWho cl l) post l.b.desc l.tile.co l.rows) with
  | (.ok (fl, seen), t) => (.ok (), eDone (flagsTo (if seen then pinPoster t l.tid else t) l.ctx l.tid fl) (ownerOf l.id))
  | (.drop, t) => (.drop, eDone t (ownerOf l.id))
  | (.wait, t) => (.wait, t)

/-- A discard told to the home (R84). -/
def tellDiscard (s : State) (l : TLine) : State :=
  if l.home = s.pkg then oDiscard s l.tile s.pkg l.ctx else sendDiscard s l.home l.tile l.ver l.ctx l.id

/-- A line given up in the posting state (R487). -/
def abandonPost (s : State) (core : Nat) (l : TLine) : State := tellDiscard (delLine s core l.id) l

/-- A version of a tile that a CLC, a victim buffer of it or a domain tile table names renamed to the one recorded (R98). -/
def renameVer (s : State) (cl : Nat) (t : Tile) (v n : Nat) : State :=
  if v = n then s else
  let ren (x : TLine) : TLine := if x.tile == t && x.ver = v then { x with ver := n } else x
  let s := setClcT s cl ((clcT s cl).map ren)
  let s := { s with tiles := { s.tiles with victims := SMap.set s.tiles.victims cl ((victimsOf s cl).map fun x => { x with line := ren x.line }) } }
  setGw s (cl / 6) fun g => { g with tiles := g.tiles.map fun e => if e = (t, cl, v) then (t, cl, n) else e }

/-- The copy of a posted line in the CLC of its cluster (R83): dirty where memory does not hold it. -/
def postCopy (s : State) (cl : Nat) (l : TLine) : Option State :=
  clcInstall s cl { l with st := .valid, dirty := !(l.wb || l.stream), stream := false, wb := false, done := false, asked := 0 }

/-- A post of a tile whose home is here. -/
def postHere (s : State) (core : Nat) (l : TLine) : State :=
  let cl := core / 8
  if (l.wb || l.stream) && !l.done then
    if oReaders s l.tile > 0 && !l.given then s
    else match writeBack s cl l true with
    | (.ok _, s) => updLine s core l.id fun l => { l with done := true }
    | (.drop, s) => abandonPost s core l
    | (.wait, s) => s
  else
    match allocEntry s l.tile with
    | (false, s) => s
    | (true, s) =>
      match postCopy s cl l with
      | none => s
      | some s =>
        match oPost s l.tile l.ver (if l.stream then .hbm else .clc cl) s.pkg l.ctx with
        | (none, s) => s
        | (some n, s) => updLine (renameVer s cl l.tile l.ver n) core l.id fun l => { l with st := .valid, ver := n, stream := false }

/-- Writes to a package that a die's gateway still keeps (R179). -/
def writesOut (s : State) (die pkg : Nat) : Bool :=
  ((gwOf s die).buf.any fun e => e.pkt.dst = pkg && e.pkt.ty = 1) || (gwOf s die).wait.any fun k => k.dst = pkg && k.ty = 1

/-- The version of a tile that a CLC or one of its victim buffers holds. -/
def heldAt (s : State) (cl : Nat) (t : Tile) (v : Nat) : Option TLine :=
  match (clcT s cl).find? fun l => l.tile == t && l.ver = v && l.st == .valid with
  | some l => some l
  | none => ((victimsOf s cl).find? fun x => x.line.tile == t && x.line.ver = v).map Victim.line

/-- The domain tile table of a die without the entries whose tile has left its CLC, as a clean one does with no write-back (R161,
log 20). -/
def tableTidy (s : State) (die : Nat) : State :=
  setGw s die fun g => { g with tiles := g.tiles.filter fun e => (heldAt s e.2.1 e.1 e.2.2).isSome }

/-- The home of a line in another package asked whether its write-back may begin (R94, log 90), once its translations are there. -/
def wbAsk (s : State) (cl : Nat) (l : TLine) (kind fid : Nat) : WbR Unit × State :=
  match wbTry s cl l (tileOut (wbWho cl l) l.b.desc l.tile.co l.rows) with
  | (.ok _, s) => (.ok (), tileSend s (cl / 6) l.home 7 { tile := l.tile, ver := l.ver, ctx := l.ctx, fid := fid, kind := kind, pkg := s.pkg })
  | (.drop, s) => (.drop, eDone s (ownerOf l.id))
  | (.wait, s) => (.wait, s)

/-- A post of a tile whose home lies in another package (R161): recorded in the domain tile table, or written through. -/
def postAway (s : State) (core : Nat) (l : TLine) : State :=
  let cl := core / 8
  let die := core / 48
  let s := tableTidy s die
  let full := (gwOf s die).tiles.length ≥ 4096
  if l.sent || l.asked = 1 then s
  else if (l.wb || l.stream || full) && !l.done then
    if l.asked = 0 then
      match wbAsk s cl l 14 l.id with
      | (.ok _, s) => updLine s core l.id fun x => { x with asked := 1 }
      | (.drop, s) => abandonPost s core l
      | (.wait, s) => s
    else match writeBack s cl l true with
    | (.ok _, s) =>
      let s := if full && !l.stream then setGw s die fun g => { g with dtt := bump g.dtt 1 } else s
      updLine s core l.id fun x => { x with done := true, stream := l.stream || full }
    | (.drop, s) => abandonPost s core l
    | (.wait, s) => s
  else if l.done && writesOut s die l.home then s
  else
    match postCopy s cl l with
    | none => s
    | some s =>
      let s := if l.stream then s else setGw s die fun g => { g with tiles := g.tiles ++ [(l.tile, cl, l.ver)] }
      tileSend (updLine s core l.id fun l => { l with sent := true }) die l.home 7
        { tile := l.tile, ver := l.ver, ctx := l.ctx, fid := l.id, kind := 3, pkg := s.pkg, psn := l.stream }

/-- A post of another package at its home here: the version recorded is answered. -/
def postFrom (s : State) (k : Packet) : State :=
  match k.tile with
  | none => s
  | some m =>
    let s := wbOver s m.tile m.pkg m.fid
    match oPost s m.tile m.ver (if m.psn then .hbm else .pkg m.pkg) m.pkg m.ctx with
    | (none, s) => cause s (.oasisPost 0 0 (some k))
    | (some n, s) => tileSend s (dieOfChan (homeChan m.tile)) m.pkg 8 { m with ver := n, kind := 7, pkg := s.pkg }

/-- The posted lines of a tensor in a CLC that memory does not hold yet. -/
def purgeLines (s : State) (cl asid tensor : Nat) : List TLine :=
  (clcT s cl).filter fun l => l.tile.asid = asid && l.tile.tensor = tensor && l.dirty
/-- The write-backs of a purge that find a victim buffer begin (R98, R159). -/
def purgeStep (s : State) : State :=
  match s.tiles.purge with
  | none => s
  | some (asid, tensor) => (List.range 24).foldl (fun s cl =>
      ((purgeLines s cl asid tensor).take (16 - (victimsOf s cl).length)).foldl (fun s l => beginWriteback s cl l) s) s

/-- `OASIS_POST` (R83, R94, R98, R161); a post of a tensor that is being purged is written back too. -/
def postStep (s : State) (core line : Nat) : State :=
  match ctcLine s core line with
  | some l =>
    if l.st != .posting || faulted s (.wb (core / 8) line) then s
    else purgeStep (if l.home = s.pkg then postHere s core l else postAway s core l)
  | none => s
def execOasisPost (s : State) : Host.Outcome State Fault Refusal :=
  match s.ev with
  | some (.oasisPost _ _ (some k)) => .next (postFrom s k)
  | some (.oasisPost core line none) => .next (postStep s core line)
  | _ => .next s

/-! ## Write-backs (R94, R159, R161, R487) -/

def victimOf (s : State) (cl id : Nat) : Option Victim := (victimsOf s cl).find? fun v => v.id = id
def updVictim (s : State) (cl id : Nat) (f : Victim → Victim) : State :=
  { s with tiles := { s.tiles with victims := SMap.set s.tiles.victims cl ((victimsOf s cl).map fun v => if v.id = id then f v else v) } }

/-- A tile whose latest version a home knows in HBM now. -/
def nowInHbm (s : State) (t : Tile) (v : Nat) (loc : OLoc) : State :=
  updEntry s t fun e => if e.latest = v && e.loc == loc then { e with loc := .hbm } else e
/-- The home has the version of a write-back in HBM, and acknowledges. A version that is no longer the latest there is acknowledged
without being written (log 21). -/
def wbDone (s : State) (cl : Nat) (v : Victim) : State :=
  let t := v.line.tile
  let s := reServe (nowInHbm s t v.line.ver (.clc cl)) t
  homeSay (pumpOvf (updVictim s cl v.id fun v => { v with acked := true }) (homeChan t)) t { ch := 0, cl := cl, fid := v.id, ack := true }

/-- A write-back whose home is here. -/
def wbHere (s : State) (cl : Nat) (v : Victim) : State :=
  if oReaders s v.line.tile > 0 then s
  else
    let cur := match entryOf s v.line.tile with | some e => e.latest = v.line.ver && e.loc == OLoc.clc cl | none => true
    if !cur then wbDone s cl v
    else match writeBack s cl v.line false with
    | (.ok _, s) | (.drop, s) => wbDone s cl v
    | (.wait, s) => s

/-- A write-back whose home lies in another package (R94, R161): the question, the bytes, then the word that they are there. -/
def wbAway (s : State) (cl : Nat) (v : Victim) : State :=
  let die := cl / 6
  let now (s : State) (n : Nat) : State := updVictim s cl v.id fun v => { v with sent := some (n, s.clk) }
  match v.sent with
  | none => match wbAsk s cl v.line 12 v.id with
    | (.ok _, s) => now s 2
    | (.drop, s) => now s 0
    | (.wait, s) => s
  | some (3, _) => match writeBack s cl v.line false with
    | (.ok _, s) | (.drop, s) => now s 0
    | (.wait, s) => s
  | some (0, _) =>
    if writesOut s die v.line.home then s
    else tileSend (now s 1) die v.line.home 7
      { tile := v.line.tile, ver := v.line.ver, ctx := v.line.ctx, fid := v.id, kind := 5, pkg := s.pkg }
  | some _ => s

/-- The word of another package that a write-back is in this package's HBM. -/
def wbFrom (s : State) (k : Packet) : State :=
  match k.tile with
  | none => s
  | some m =>
    let s := wbOver (nowInHbm s m.tile m.ver (.pkg m.pkg)) m.tile m.pkg m.fid
    tileSend (pumpOvf s (homeChan m.tile)) (dieOfChan (homeChan m.tile)) m.pkg 8 { m with kind := 6, pkg := s.pkg }

/-- `OASIS_WRITEBACK` (R94, R159, R487). -/
def execOasisWriteback (s : State) : Host.Outcome State Fault Refusal :=
  match s.ev with
  | some (.oasisWriteback _ _ (some k)) => .next (wbFrom s k)
  | some (.oasisWriteback cl id none) => .next (match victimOf s cl id with
    | some v =>
      if v.acked || faulted s (.wb cl v.line.id) then s
      else if v.line.home = s.pkg then wbHere s cl v else wbAway s cl v
    | none => s)
  | _ => .next s

/-- `VICTIM_BUFFER_ACK` (R159): the acknowledgement arrives, the buffer is free, and a waiting purge or eviction may use it. -/
def victimAck (s : State) (cl id : Nat) : State :=
  match victimOf s cl id with
  | some v =>
    let free (s : State) : State := pumpAll (purgeStep
      { s with tiles := { s.tiles with victims := SMap.set s.tiles.victims cl ((victimsOf s cl).filter fun v => v.id != id) } })
    if !v.acked then s
    else if v.line.home = s.pkg then
      match homeTake s fun m => m.ack && m.cl = cl && m.fid = id with | some s => free s | none => s
    else free (setGw s (cl / 6) fun g => { g with tiles := g.tiles.filter fun e => e != (v.line.tile, cl, v.line.ver) })
  | none => s
def execVictimBufferAck (s : State) : Host.Outcome State Fault Refusal :=
  match s.ev with
  | some (.victimBufferAck cl v) => .next (victimAck s cl v)
  | _ => .next s

/-! ## Forwards (R95, R159, R161) -/

/-- *absent*: the copy that a forward named is gone, so that HBM holds its version, and the home answers from there (R95, R159); a
version that another has followed is answered by that one. -/
def absentAt (s : State) (loc : OLoc) (m : TileMsg) (open_ : Bool) : State :=
  oRequest (nowInHbm s m.tile m.ver loc) m.tile { fid := m.fid, u := if open_ then 0 else m.ver, open_ := if open_ then some false else none
                                                  own := open_, pkg := m.pkg, ctx := m.ctx }

/-- A forward at a cache of this package, for a fill of this package. -/
def forwardMine (s : State) (id : Nat) : State :=
  match homeTake s fun m => m.fid = id && m.pkt.isNone && !m.ack with
  | none => s
  | some s => match fillOf s id with
    | some f => match f.st with
      | .fwd cl v =>
        match heldAt s cl f.tile v with
        | some l => setFillSt s id (.data v l.rows false)
        | none => absentAt s (.clc cl) { tile := f.tile, ver := v, ctx := f.ctx, fid := id, kind := 0, pkg := s.pkg } f.open_.isSome
      | _ => s
    | none => s

/-- A forward for another package or from another package's home: it is served by the CLC that the home or the domain tile table
names, in the version that it asks for. -/
def forwardAway (s : State) (k : Packet) : State :=
  match k.tile with
  | none => s
  | some m =>
    let die := dieOfChan (homeChan m.tile)
    let open_ : Bool := m.kind = 1
    let cl := if k.src = s.pkg then some k.grp
      else (List.range 4).findSome? fun d => ((gwOf s d).tiles.find? fun e => e.1 == m.tile && e.2.2 = m.ver).map fun e => e.2.1
    match cl.bind fun cl => heldAt s cl m.tile m.ver with
    | some l =>
      if m.pkg = s.pkg then setFillSt s m.fid (.data m.ver l.rows false)
      else tileSend s die m.pkg 8 { m with kind := 0, rows := rowsMsg l.rows }
    | none =>
      if k.src = s.pkg then absentAt s (.clc k.grp) m open_
      else tileSend s die k.src 8 { m with kind := if open_ then 12 else 11 }

/-- `FORWARD_ARRIVES` (R95, R157, R159, R161). -/
def execForwardArrives (s : State) : Host.Outcome State Fault Refusal :=
  match s.ev with
  | some (.forwardArrives _ (some k)) =>
    if k.src = s.pkg then .next (match homeTake s fun m => m.pkt == some k with | some s => forwardAway s k | none => s)
    else .next (forwardAway s k)
  | some (.forwardArrives f none) => .next (forwardMine s f)
  | _ => .next s

/-- A tile message of type 7 at a home (R161). -/
def tileRequest (s : State) (k : Packet) : State :=
  match k.tile with
  | none => s
  | some m => match m.kind with
    | 0 => cause s (.oasisReadRequest m.fid (some k))
    | 1 | 2 => cause s (.oasisOpenRequest m.fid (some k))
    | 3 => cause s (.oasisPost 0 0 (some k))
    | 4 => cause (wbOver s m.tile m.pkg m.fid) (.oasisDiscard m.tile m.pkg m.ctx)
    | 5 => cause s (.oasisWriteback 0 0 (some k))
    | 9 => cause s (.oasisHbmReadDone m.tile)
    | 12 | 14 => wbAsked s m
    | 15 => oMoved s m.tile m.pkg m.ver m.ctx
    | _ => s

/-- The core whose CTC holds a line. -/
def lineCore (s : State) (id : Nat) : Option Nat := (s.tiles.ctc.find? fun e => e.2.any fun l => l.id = id).map (·.1)
/-- The post of a line of this package recorded at its home elsewhere: it is valid at the version recorded (R83, R98). -/
def postRecorded (s : State) (id n : Nat) : State :=
  match lineCore s id with
  | none => s
  | some core => match ctcLine s core id with
    | some l => updLine (renameVer s (core / 8) l.tile l.ver n) core id fun l => { l with st := .valid, ver := n, stream := false, sent := false }
    | none => s
/-- A home elsewhere lets a write-back begin: of a victim buffer, or of a posting line. -/
def wbAllowed (s : State) (id : Nat) : State :=
  let s := (List.range 24).foldl (fun s cl => updVictim s cl id fun v => { v with sent := some (3, s.clk) }) s
  match lineCore s id with
  | some core => updLine s core id fun l => { l with asked := 2 }
  | none => s
/-- Tile data from another package: provisional until every part is there, and its tag is checked (R80). -/
def tileData (s : State) (k : Packet) (m : TileMsg) : State :=
  match fillOf s m.fid with
  | none => s
  | some f =>
    if !dataFor f m then tagCheck s m.fid true
    else match tilePart s k.src m with
    | (some m, s) => tagCheck (fillProvisional s m.fid { k with tile := some m }) m.fid true
    | (none, s) => updFillLines s f fun l => { l with st := .provisional }

/-- A tile message of type 8 at the package that asked (R161). -/
def tileReply (s : State) (k : Packet) : State :=
  match k.tile with
  | none => s
  | some m =>
    let waits := match fillOf s m.fid with | some f => f.st == FillSt.remote && f.tile == m.tile | none => false
    match m.kind with
    | 0 => tileData s k m
    | 2 => if waits then setFillSt s m.fid (.data m.ver [] false) else s
    | 8 => if waits then setFillSt s m.fid (.hbm m.ver) else s
    | 10 => if waits then setFillSt s m.fid (.refused s.clk) else s
    | 6 => (List.range 24).foldl (fun s cl => updVictim s cl m.fid fun v => { v with acked := true }) s
    | 7 => postRecorded s m.fid m.ver
    | 11 => absentAt s (.pkg k.src) m false
    | 12 => absentAt s (.pkg k.src) m true
    | 13 => wbAllowed s m.fid
    | _ => s

/-! ## Itineraries (R91, R350) -/

/-- `ITINERARY_PREFETCH` (R91, R459): the next entry of a context's itinerary is read and its tile prefetched. -/
def prefetch (s : State) (c : Nat) : State :=
  match (ctxOf s c).itin with
  | none => s
  | some (b, va, left) =>
    let t := taskOf s c
    let core := coreOf c
    if (s.tiles.fills.filter fun f => f.pre && f.ctx = c).length ≥ 16 then s
    else
      let w : Who := { ag := .fill (core / 8), core := core, ctx := c, asid := t.asid, queue := t.queue, owner := 5000 + c }
      let stop (s : State) : State := eDone (updCtx s c fun x => { x with itin := none }) (5000 + c)
      match eRun (clcReadClean w va 16 1) s with
      | (.error .wait, s) => s
      | (.error (.fault _ _ _), s) => stop s
      | (.ok bs, s) =>
        let e := ofLe bs
        let co := (List.range 6).map fun k => bitsAt e (16 * k) 16
        let u := bitsAt e 96 16
        let tile := tileOf b.desc t.asid co
        let s := if e.testBit 127 || left ≤ 1 then stop s
          else eDone (updCtx s c fun x => { x with itin := some (b, va + 16, left - 1) }) (5000 + c)
        if !coordsOk b.desc co || (newestOf (ctcOf s core) tile u).isSome
            || (s.tiles.fills.any fun f => f.core = core && f.tile == tile && f.open_.isNone && verSat f.u u) then s
        else newFill s { id := 0, core := core, ctx := c, tid := t.tid, queue := t.queue, tile := tile, b := b, asid := t.asid,
                         u := u, hint := bitsAt e 112 2, pre := true }
def execItineraryPrefetch (s : State) : Host.Outcome State Fault Refusal :=
  match s.ev with
  | some (.itineraryPrefetch c) => .next (prefetch s c)
  | _ => .next s

/-! ## Purges (R98) -/

/-- `opurge` with go = 1: ignored while a purge is in progress, and from an agent that R473 does not name. -/
def purgeStart (s : State) (w : Word) (by_ : Writer) : State :=
  if s.tiles.purge.isSome || !mayWrite 0xF00001520100 by_ then s
  else
    let s := devSet s 0xF00001520100 (w &&& 0x000FFFFF0000FFFF)
    purgeStep { s with tiles := { s.tiles with purge := some (bitsAt w.toNat 0 16, bitsAt w.toNat 32 20) } }
def execOpurge (s : State) : Host.Outcome State Fault Refusal :=
  match s.ev with
  | some (.opurge w b) => .next (purgeStart s w b)
  | _ => .next s

/-- Every write-back of the purge is acknowledged. -/
def purgeDone (s : State) (asid tensor : Nat) : Bool :=
  (List.range 24).all fun cl => (purgeLines s cl asid tensor).isEmpty
    && (victimsOf s cl).all fun v => !(v.line.tile.asid = asid && v.line.tile.tensor = tensor)

/-- The valid version-table entries of a tensor, by address. -/
def vtOf (s : State) (asid tensor : Nat) : List Nat :=
  let tables := (List.range 384).map fun n =>
    let w := (chan s n).evtab.toNat
    let size := 128 * 2 ^ min 24 (max 12 (w % 32))
    (bitsAt w 12 36 * 4096 / size * size, size)
  (s.hbm.mem.filter fun c => c.1 % 32 = 18 && c.2.getLsbD 4 && tables.any fun t => t.1 ≤ c.1 && c.1 < t.1 + t.2).filterMap
    fun c => let a := c.1 - 18
      if vtWord s a % 2 ^ 36 = asid + tensor * 2 ^ 16 then some a else none

/-- `OPURGE_COMPLETE` (R98): the tensor's lines, entries and versions leave, and the requests parked there ask again. -/
def purgeEnd (s : State) : State :=
  match s.tiles.purge with
  | none => s
  | some (asid, tensor) =>
    if !purgeDone s asid tensor then s
    else
      let mine (t : Tile) : Bool := t.asid = asid && t.tensor = tensor
      let keep (l : TLine) : Bool := !(mine l.tile && l.pins = 0 && (l.st == .valid || l.st == .poisoned))
      let parked := s.tiles.oasis.flatMap fun (_, d) => d.sets.flatMap fun (_, l) => l.flatMap fun e =>
        if mine e.tile then e.replay.map fun r => (e.tile, r) else []
      let writers := s.tiles.oasis.flatMap fun (_, d) => d.sets.flatMap fun (_, l) => l.flatMap fun e => if mine e.tile then e.wbq else []
      let s := { s with tiles := { s.tiles with
        ctc := s.tiles.ctc.map fun (k, l) => (k, l.filter keep)
        clc := s.tiles.clc.map fun (k, l) => (k, l.filter keep)
        oasis := s.tiles.oasis.map fun (n, d) => (n, { d with sets := d.sets.map fun (i, l) => (i, l.filter fun e => !mine e.tile) })
        purge := none } }
      let s := (vtOf s asid tensor).foldl (fun s a => hbmPutN s none a 32 0) s
      pumpAll (writers.foldl wbAsked (parked.foldl (fun s (t, r) => oRequest s t r) s))
def execOpurgeComplete (s : State) : Host.Outcome State Fault Refusal :=
  match s.ev with
  | some .opurgeComplete => .next (purgeEnd s)
  | _ => .next s

end Sys2Proof.Machine
end

