-- ==== Sys2Proof/Machine/Rou.lean ====
section
/-! DEFINITION. The remote operation units (R114 to R121): single-word operations, `amocas`, reservations, `rcas4`, list
operations and chases, performed at the home channel of an address, and the atomic units of the CXL ports (R169). -/
namespace Sys2Proof.Machine

def AWidth_bytes : AWidth → Nat
  | .w32 => 4 | .w64 => 8
def AWidth_bits (w : AWidth) : Nat := 8 * AWidth_bytes w

/-- The new value of a single-word operation (R115), and the flags of `fadd` (R65). -/
def rouNew (op : RouOp) (w : AWidth) (old x : Nat) : Nat × Fl :=
  let n := AWidth_bits w
  let x := x % 2 ^ n
  match op with
  | .add => ((old + x) % 2 ^ n, 0)
  | .and => (old &&& x, 0)
  | .or => (old ||| x, 0)
  | .xor => (old ^^^ x, 0)
  | .min => (if sgn n x < sgn n old then x else old, 0)
  | .max => (if sgn n old < sgn n x then x else old, 0)
  | .minn => (min old x, 0)
  | .maxn => (max old x, 0)
  | .swap => (x, 0)
  | .fadd =>
    let t : FFmt := match w with | .w32 => .f32 | .w64 => .f64
    roundX t .rne false (addF .rne (decF t old) (decF t x))

/-! ## At an address: HBM or the far window -/

/-- A word at its home; `none`: poisoned (R108). -/
def atRead (s : State) (pa n : Nat) : Option Nat × State :=
  if isHbm pa then
    let (x, p, s) := hbmReadN s pa n
    (if p then none else some x, s)
  else match farDecode s pa with
    | some h => (some (ofLe (farRead s h n)), s)
    | none => (some 0, s)

/-- A word written at its home, for the contexts `cs` (R168); into a poisoned sector it is discarded (R109). -/
def atWrite (s : State) (cs : List Nat) (q : Option Nat) (pa n x : Nat) : State :=
  if isHbm pa then hbmPutN s q pa n x
  else match farDecode s pa with
    | some h => farWrite s cs h ((leBytes x n).map some)
    | none => s

/-- One indivisible read and write of a word (R115); `none`: not performed, the sector is poisoned. -/
def rouOp (s : State) (cs : List Nat) (q : Option Nat) (op : RouOp) (w : AWidth) (pa : Nat) (x : Word) : Option (Nat × Fl) × State :=
  match atRead s pa (AWidth_bytes w) with
  | (none, s) => (none, s)
  | (some old, s) =>
    let (new, f) := rouNew op w old x.toNat
    (some (old, f), atWrite s cs q pa (AWidth_bytes w) new)

/-- Compare and swap (R115). A failed one is not a write. -/
def rouCas (s : State) (cs : List Nat) (q : Option Nat) (w : AWidth) (pa : Nat) (e x : Word) : Option Nat × State :=
  match atRead s pa (AWidth_bytes w) with
  | (none, s) => (none, s)
  | (some old, s) =>
    (some old, if old = e.toNat % 2 ^ AWidth_bits w then atWrite s cs q pa (AWidth_bytes w) (x.toNat % 2 ^ AWidth_bits w) else s)

/-! ## Reservations (R120, R121) -/

/-- The reservation of a context cancelled, wherever it is held. -/
def resvCancel (s : State) (c : Nat) : State :=
  { s with hbm := { s.hbm with ch := s.hbm.ch.map fun (n, x) => (n, { x with resv := x.resv.filter fun r => r.ctx != c }) } }

/-- RESERVATION_EVICT (R121): the entry with the oldest `lr` leaves a full table. -/
def resvMake (s : State) (c pa : Nat) : State :=
  let s := resvCancel s c
  setChan s (chanOf pa) fun x =>
    { x with resv := (if x.resv.length ≥ 256 then x.resv.tail else x.resv) ++ [⟨c, pa / 32, s.clk⟩] }

/-- The context holds a reservation on the sector that has not expired. -/
def resvHeld (s : State) (c pa : Nat) : Bool :=
  (chan s (chanOf pa)).resv.any fun r => r.ctx = c && r.sector = pa / 32 && s.clk < r.clk + 4096

/-- `lr` at its home channel: the word, and the reservation made. -/
def rouLoadR (s : State) (c : Nat) (w : AWidth) (pa : Nat) : Option Nat × State :=
  match atRead s pa (AWidth_bytes w) with
  | (none, s) => (none, s)
  | (some x, s) => (some x, resvMake s c pa)

/-- `sc` at its home channel: 0 where it writes, 1 where it does not; `none`: the sector is poisoned, or the channel has failed
(R106). The reservation ends either way. -/
def rouStoreC (s : State) (c : Nat) (q : Option Nat) (w : AWidth) (pa : Nat) (x : Word) : Option Nat × State :=
  if (chan s (chanOf pa)).failed then (none, resvCancel s c)
  else if resvHeld s c pa then
    if isPoison s (pa / 32) then (none, resvCancel s c)
    else (some 0, resvCancel (atWrite s [c] q pa (AWidth_bytes w) (x.toNat % 2 ^ AWidth_bits w)) c)
  else (some 1, resvCancel s c)

/-! ## Several words (R116 to R118) -/

/-- Rcas4 (R116) on translated addresses: ok, then the old values. `none`: a poisoned sector. -/
def rouCas4 (s : State) (q : Option Nat) (pas : List Nat) (e d : List Nat) : Option (List Nat) × State :=
  let (old, s) := pas.foldl (fun (acc, s) pa =>
    let (x, s) := atRead s pa 8
    (acc ++ [x], s)) (([] : List (Option Nat)), s)
  if old.any Option.isNone then (none, s)
  else
    let old := old.map fun x => x.getD 0
    let ok := (old.zip e).all fun (a, b) => a == b
    let s := if ok then (pas.zip d).foldl (fun s (pa, v) => atWrite s [] q pa 8 v) s else s
    (some ((if ok then 1 else 0) :: old), s)

/-- An operation of a ROU as it is performed: its owner with the ROU as the agent that translates (R21), and whether a core of this
package asked for it, whose own copies of each line are written back and dropped before the operation reaches it (R114, R149). -/
structure RouWho where
  w : Who
  own : Bool

/-- A core's own copies of a line go before the operation of one of its commands (R114, R142). -/
def ownLine (r : RouWho) (pa : Nat) : EM Unit := modify fun s => if r.own then flushOwn s r.w.core pa else s

/-- Where a word that a ROU reaches lies (R19, R21): every operation of a ROU needs both permissions. Far memory takes none of them
(R169). -/
def linkAt (r : RouWho) (va : Nat) : EM (Nat × Nat) := do
  let (pkg, pa, _) ← eXlat r.w va .atomic 4
  eFaultIf (pkg == (← get).pkg && isFar pa) 36 va 4
  return (pkg, pa)

/-- A list operation on another header holds the sector while it awaits a link word of another package (R117). -/
def sectorHeld (s : State) (pa owner : Nat) : Bool := s.fab.asks.any fun a => a.2.kind = 9 && a.2.arg = pa / 32 && a.1 != owner

/-- A link word read where it lies, here or over Flecen (R17, R117): meanwhile the header's sector is held. -/
def linkRead (r : RouWho) (hdr : Nat) (at_ : Nat × Nat) (va : Nat) : EM Nat := do
  let s ← get
  if at_.1 == s.pkg then
    ownLine r at_.2
    let (x, s) := atRead (← get) at_.2 8
    set s
    match x with
    | some x => return x
    | none => throw (.fault 24 va 4)
  else
    let (a, l) := remoteSpan at_.2 8
    match s.fab.asks.find? fun x => x.1 = r.w.owner && x.2.kind = 9 && x.2.pkg = at_.1 && x.2.addr = a with
    | some (_, x) =>
      match x.reply with
      | none => throw .wait
      | some (b, psn, refused) => do
        set (eDone s r.w.owner)
        eFaultIf refused 5 va 4
        eFaultIf psn 24 va 4
        return ofLe ((b.drop (at_.2 - a)).take 8)
    | none =>
      let (n, s) := gwSend s (r.w.core / 48) { ty := 0, dst := at_.1, src := s.pkg, sctx := r.w.ctx, addr := a, len := l }
      let ask : Remote := { pkg := at_.1, addr := a, len := l, kind := 9, arg := hdr / 32, eseq := n }
      set { s with fab := { s.fab with asks := s.fab.asks ++ [(r.w.owner, ask)] } }
      throw .wait

/-- A word of a list written where it lies; here the invalidation of the line is queued (R150). A write into a poisoned sector is
discarded, and the operation goes on (log 92). -/
def linkWrite (r : RouWho) (q : Option Nat) (at_ : Nat × Nat) (x : Nat) : EM Unit := do
  if at_.1 == (← get).pkg then
    ownLine r at_.2
    modify fun s => let s := atWrite s [] q at_.2 8 x; if r.own then queueInval s r.w.core at_.2 else s
  else modify fun s => remoteWriteBy s (r.w.core / 48) r.w.ctx at_.1 at_.2 ((leBytes x 8).map some) false

/-- A word of a list header; `va`: the header's VA. -/
def headRead (h va : Nat) : EM Nat := do
  let (x, s) := atRead (← get) h 8
  set s
  match x with
  | some x => return x
  | none => throw (.fault 24 va 4)

/-- Renq (R117) on the list whose header is at `h`: the old tail. Every check precedes every write (R119). -/
def rouEnq (r : RouWho) (q : Option Nat) (h hva node : Nat) : EM Nat := do
  eFaultIf (node = 0 || node % 8 != 0) 35 node 4
  let np ← linkAt r node
  let s ← get
  eWaitIf (sectorHeld s h r.w.owner)
  let t ← headRead (h + 8) hva
  let t := if np == (s.pkg, h + 8) then 0 else t
  eFaultIf (t % 8 != 0) 35 t 4
  let tp ← if t = 0 then pure (s.pkg, h) else linkAt r t
  linkWrite r q np 0
  linkWrite r q tp node
  linkWrite r q (s.pkg, h + 8) node
  return t

/-- Rdeq (R117): the old head. -/
def rouDeq (r : RouWho) (q : Option Nat) (h hva : Nat) : EM Nat := do
  let s ← get
  eWaitIf (sectorHeld s h r.w.owner)
  let p ← headRead h hva
  if p = 0 then return 0
  eFaultIf (p % 8 != 0) 35 p 4
  let x ← linkRead r h (← linkAt r p) p
  eFaultIf (x % 8 != 0) 35 x 4
  linkWrite r q (s.pkg, h) x
  if x = 0 then linkWrite r q (s.pkg, h + 8) 0
  return p

/-- One hop of Rchase (R118) at pointer p: done with a status and a value, or on to the next pointer. -/
inductive HopR where
  | done (status value : Nat)
  | next (p : Nat)
  deriving DecidableEq, Repr

/-- A word of a node; none where it lies in another package. -/
def hopWord (r : RouWho) (va : Nat) : EM (Option Nat) := do
  let at_ ← linkAt r va
  if at_.1 != (← get).pkg then return none
  return some (← linkRead r 0 at_ va)

/-- A hop. A node of this package whose key, value or next word lies on a page of another package ends the walk as a remote node does
(log 93). -/
def rouHop (r : RouWho) (p key koff noff voff : Nat) : EM HopR := do
  if p = 0 then return .done 1 0
  eFaultIf (p % 8 != 0) 35 p 4
  let (pkg, _) ← linkAt r p
  if pkg != (← get).pkg then return .done 3 p
  match ← hopWord r (p + koff) with
  | none => return .done 3 p
  | some k =>
    if k = key then
      match ← hopWord r (p + voff) with
      | some v => return .done 0 v
      | none => return .done 3 p
    else
      match ← hopWord r (p + noff) with
      | some x => do eFaultIf (x % 8 != 0) 35 x 4; return .next x
      | none => return .done 3 p

/-! ## The S-slot forms (R281, R282, R119, R136, R169) -/

/-- The target of an S-slot atomic: aligned, translated for its access, in HBM, in far memory where the operation may
go there, or in another package. -/
def atomTarget (va : Word) (w : AWidth) (acc : Acc4) : M (Nat × Nat × Nat) := do
  trapIf (va.toNat % AWidth_bytes w != 0) 32 va 4
  let (pkg, pa, cp) ← xlatAs va acc 4
  let s ← get
  trapIf (pkg == s.pkg && !(isHbm pa || (isFar pa && (farDecode s pa).isSome))) 4 va 4
  return (pkg, pa, cp)

/-- An operation that a far target does not take (R169): reservations, and all but add, swap and `amocas` on a shared
expander page. -/
def farOp (s : State) (pa cp : Nat) (simple resv : Bool) : Bool :=
  isFar pa && (resv || (!simple && cp == 2 && (match farDecode s pa with | some h => h.type = 1 | none => false)))

def RouOp_code : RouOp → Nat
  | .add => 0 | .and => 1 | .or => 2 | .xor => 3 | .min => 4 | .max => 5 | .minn => 6 | .maxn => 7 | .swap => 8 | .fadd => 9

/-- The scope of an ordered atomic, resolved where it is inferred (R146). -/
def atomScope (o : Ord) (sc : Scope) (pkg pa : Nat) : M Nat :=
  if o == .rlx then return 0 else resolve pkg pa (Scope.code sc)

end Sys2Proof.Machine
end

