-- ==== Sys2Proof/Machine/Memory.lean ====
section
/-! DEFINITION. The S slot's memory instructions: loads and stores (R279, R280), atomics (R281, R282), fences (R283), `cwb`
(R284), `pref` (R285) and `tlbinv` (R289). -/
namespace Sys2Proof.Machine

/-! ## Loads and stores (R279, R280) -/

/-- The scope at which an access to the first of some pieces acts (R146). -/
def scopeAt (ps : List Piece) (scope : Nat) : M Nat :=
  match ps with
  | [] => return scope
  | p :: _ => resolve p.pkg p.pa scope

/-- `ld` (R279). -/
def execLd (d : SReg) (m : MemOp) (w : Width) (s : State) : Host.Outcome State Fault Refusal :=
  run 0 (do
    let x ← getC
    opTrap (loopReg x d)
    let va := memAddr x m
    let ps ← pieces va (Width_bytes w) .read 0 2
    modify fun s => trMem s s.cur 4 va.toNat (Width_lg w)
    loadOut ps (dstS x d) (some w) 1 8 none) s

/-- `st` (R279). -/
def execSt (d : SReg) (m : MemOp) (w : Width) (s : State) : Host.Outcome State Fault Refusal :=
  run 0 (do
    let x ← getC
    let va := memAddr x m
    storeMem va ((leBytes (rdS x d).toNat (Width_bytes w)).map some)
    modify fun s => trMem s s.cur 5 va.toNat (Width_lg w)) s

/-- `lda` (R134, R279, R280): an acquire at its scope, performed when its last piece has been read. -/
def execLda (d : SReg) (m : MemOp) (w : Width) (sc : Scope) (s : State) : Host.Outcome State Fault Refusal :=
  run 0 (do
    let x ← getC
    opTrap (loopReg x d)
    let va := memAddr x m
    let ps ← pieces va (Width_bytes w) .read 0 2
    let scope ← scopeAt ps (Scope.code sc)
    modify fun s => trMem s s.cur 4 va.toNat (Width_lg w)
    loadOut ps (dstS x d) (some w) 1 8 (some scope)) s

/-- `stl` (R133, R279, R280): a release, then the store, each piece taken to the point of coherence of the scope. -/
def execStl (d : SReg) (m : MemOp) (w : Width) (sc : Scope) (s : State) : Host.Outcome State Fault Refusal :=
  run 0 (do
    let x ← getC
    let va := memAddr x m
    let bs := (leBytes (rdS x d).toNat (Width_bytes w)).map some
    let ps ← pieces va (Width_bytes w) .write 0 2
    blockIf (descHeld (← get) va.toNat (Width_bytes w))
    let scope ← scopeAt ps (Scope.code sc)
    release scope
    storeAll va ps
    for p in ps do storePiece p (ps.length = 1) bs scope
    modify fun s => trMem s s.cur 5 va.toNat (Width_lg w)) s

/-! ## Atomics (R281, R282) -/

/-- An operation at the home channel, the core's own copies of the line written back first (R114). -/
def atHome (pa : Nat) (here : State → Nat → Option Nat × State) : M (Option Nat) := do
  let s ← get
  let (r, s) := here (flushOwn s (coreOf s.cur) pa) pa
  set s
  return r

/-- What an atomic does after its old value is known: a result, or the trap of a poisoned sector (R108). -/
def atomOut (d : SReg) (va : Word) (r : Option Nat) : M Unit :=
  match r with
  | some v => outS d (BitVec.ofNat 64 v) 8
  | none => do
    let s ← get
    set (upd (trOverlap s (dstS (cc s) d)) fun x => flyPoison x (dstS x d) va 4 8)

/-- An atomic sent to the package that holds the frame (R136, R180): its old value lands as a load's does. -/
def atomAway (d : SReg) (va : Word) (pkg pa : Nat) (w : AWidth) (arg : Nat) (data : List Byte) (acq : Option Nat) : M Unit := do
  let s ← get
  let n := AWidth_bytes w
  let k : Packet := { ty := 2, dst := pkg, src := s.pkg, sctx := s.cur, op := arg, addr := pa, len := n, data := data }
  let (e, s) := gwSend s (dieOf s.cur) k
  let part : LoadPart := { off := 0, va := va, pkg := pkg, pa := pa, cp := 0, len := n, ask := some k, eseq := some e }
  let dst := dstS (cc s) d
  set (upd (trOverlap s dst) fun x => flyLoad x dst [part] (some (match w with | .w32 => .n32 | .w64 => .d64)) 4 8 acq)

/-- An atomic of the S slot on an address (R114, R136): checks, the release of its order, its performance here or in the
package that holds the frame, its acquire and its result. `arg`, `data`: the request to another package. -/
def atomic (d a : SReg) (w : AWidth) (o : Ord) (sc : Scope) (acc : Acc4) (simple resv : Bool) (arg : Nat) (data : List Byte)
    (rel : State → Nat → Bool) (here : State → Nat → Option Nat × State) : M Unit := do
  let x ← getC
  let va := rdS x a
  let (pkg, pa, cp) ← atomTarget va w acc
  let s ← get
  let mine := pkg == s.pkg
  trapIf (if mine then farOp s pa cp simple resv else isFar pa && resv) 36 va 4
  let scope ← atomScope o sc pkg pa
  settleBytes pkg pa (AWidth_bytes w)
  blockIf (mine && sectorHeld (← get) pa s.cur)
  meter (va.toNat * 4 + 2) 1
  if Ord.rels o && (!mine || rel (← get) pa) then release scope
  modify fun s => trMem s s.cur 6 va.toNat (match w with | .w32 => 2 | .w64 => 3)
  if mine then
    atomOut d va (← atHome pa here)
    if Ord.acqs o then acquire scope
  else atomAway d va pkg pa w arg data (if Ord.acqs o then some scope else none)

/-- `amo` (R281). -/
def execAmo (op : RouOp) (d a b : SReg) (q : BitVec 3) (w : AWidth) (o : Ord) (sc : Scope) (s : State) :
    Host.Outcome State Fault Refusal :=
  run 0 (do
    let x ← getC
    opTrap (loopReg x d)
    if rdP x q then
      atomic d a w o sc .atomic (op == .add || op == .swap) false (RouOp_code op) (leBytes (rdS x b).toNat (AWidth_bytes w))
        (fun _ _ => true) fun s pa =>
          let (r, s) := rouOp s [s.cur] (some (taskOf s s.cur).queue) op w pa (rdS x b)
          (r.map (·.1), s)) s

/-- `amocas` (R281). -/
def execAmocas (d a b c : SReg) (q : BitVec 3) (w : AWidth) (o : Ord) (sc : Scope) (s : State) :
    Host.Outcome State Fault Refusal :=
  run 0 (do
    let x ← getC
    opTrap (loopReg x d)
    if rdP x q then
      atomic d a w o sc .atomic true false 10
        (leBytes (rdS x c).toNat (AWidth_bytes w) ++ leBytes (rdS x b).toNat (AWidth_bytes w))
        (fun _ _ => true) fun s pa => rouCas s [s.cur] (some (taskOf s s.cur).queue) w pa (rdS x c) (rdS x b)) s

/-- `lr` (R282). -/
def execLr (d a : SReg) (q : BitVec 3) (w : AWidth) (o : Ord) (sc : Scope) (s : State) : Host.Outcome State Fault Refusal :=
  run 0 (do
    let x ← getC
    opTrap (loopReg x d)
    if rdP x q then
      atomic d a w o sc .read false true 11 [] (fun _ _ => true) fun s pa => rouLoadR s s.cur w pa) s

/-- The `sc` of a context would write: its reservation is held once its own plain stores have reached the channel (R121). -/
def scHolds (s : State) (pa : Nat) : Bool := resvHeld (flushOwn (drainAll s s.cur) (coreOf s.cur) pa) s.cur pa
/-- `sc` (R282): one that fails performs no release. -/
def execSc (d a b : SReg) (q : BitVec 3) (w : AWidth) (o : Ord) (sx : Scope) (s : State) : Host.Outcome State Fault Refusal :=
  run 0 (do
    let x ← getC
    opTrap (loopReg x d)
    if rdP x q then
      atomic d a w o sx .write false true 12 (leBytes (rdS x b).toNat (AWidth_bytes w))
        scHolds fun s pa =>
          rouStoreC s s.cur (some (taskOf s s.cur).queue) w pa (rdS x b)) s

/-! ## Fences and cache control (R283 to R285) -/

/-- `fence` (R135, R283): it waits for every earlier `cwb` and `tlbinv` of the context that its scope covers. -/
def execFence (o : Ord) (sc : Scope) (q : BitVec 3) (s : State) : Host.Outcome State Fault Refusal :=
  run 0 (do
    let x ← getC
    if rdP x q then
      blockIf (Scope.code sc ≥ 4 && x.inval != 0)
      if Ord.rels o then release (Scope.code sc) true
      if Ord.acqs o then
        settleLoads
        farWait (Scope.code sc)
        acquire (Scope.code sc)) s

/-- A leaf found without a fault and without a change of an entry (R284, R285). -/
def peekPte (s : State) (ag : Agent) (asid va : Nat) : Option (Word × Nat) × State :=
  if va ≥ 2 ^ 56 then (none, s)
  else match tlbFind s ag asid va with
  | some t => (some (t.e, t.lvl), s)
  | none =>
    match walk s (Agent_die ag) asid va with
    | (.leaf e lvl _, s) => (if (checkLeaf s e lvl).isNone then some (e, lvl) else none, s)
    | (.fault _, s) => (none, s)
/-- A page that is resident, far or dead and gives a permission: its package, address and cache policy. -/
def peek (s : State) (ag : Agent) (asid va : Nat) (acc : Option Acc4) : Option (Nat × Nat × Nat) × State :=
  match peekPte s ag asid va with
  | (some (e, lvl), s) =>
    let may := match acc with | some a => (checkPerm e a).isNone | none => true
    if may && (pteKind e = 2 || pteKind e = 3 || pteKind e = 6) then
      (match leafTR s e lvl va with | .ok pkg pa cp => some (pkg, pa, cp) | _ => none, s)
    else (none, s)
  | (none, s) => (none, s)

/-- Whether a page lets a core cache its lines here. -/
def cacheable (s : State) (pkg pa cp : Nat) : Bool := pkg = s.pkg && (isHbm pa || isFar pa) && !uncached s pa cp

/-- The bytes of the sectors of a line that overlap the addresses from `lo` to `hi`. -/
def sectorMask (ln lo hi : Nat) : BitVec 128 :=
  BitVec.ofNat 128 (packN 1 (fun i => let sec := ln * 4 + i / 32; if lo / 32 ≤ sec && sec ≤ hi / 32 then 1 else 0) 128)

/-- Dirty bytes of a line that a context writes back: its far writes are that context's too (R284). -/
def chargeTo (c : Nat) (m : BitVec 128) (l : Line) : Line :=
  if l.dirty &&& m = 0 || l.ctx.contains c then l else { l with ctx := l.ctx ++ [c] }
/-- The dirty sectors of a line that the addresses overlap written back for a context, the rest kept dirty. -/
def wbPart (s : State) (c ln lo hi scope : Nat) : State :=
  let core := coreOf c
  let m := sectorMask ln lo hi
  let s := match SMap.get? (l1Of s core).lines ln with
    | some l => l1WriteBackM (setL1 s core ln (some (chargeTo c m l))) core ln m
    | none => s
  if scope < 3 then s
  else match SMap.get? (clcOf s (core / 8)).lines ln with
  | some l => clcWriteBackM (setClc s (core / 8) ln (some (chargeTo c m l))) (core / 8) ln m
  | none => s

/-- Every line that a core caches of the bytes from VA `va` to `hi`, page by page (R284); pages without a mapping are
skipped. -/
def cwbPages (s : State) (c asid scope hi : Nat) : Nat → Nat → State
  | 0, _ => s
  | k + 1, va =>
    if va > hi then s
    else
      let last := min hi (va / 65536 * 65536 + 65535)
      let core := coreOf c
      let s := match peek s (.core core) asid va none with
        | (some (pkg, pa, cp), s) =>
          if cacheable s pkg pa cp then
            let top := pa + (last - va)
            let lines := ((l1Of s core).lines.map (·.1)) ++ ((clcOf s (core / 8)).lines.map (·.1))
            (lines.filter fun ln => pa / 128 ≤ ln && ln ≤ top / 128).foldl (fun s ln => wbPart s c ln pa top scope) s
          else s
        | (none, s) => s
      cwbPages s c asid scope hi k (last + 1)

/-- `cwb` (R284): the bytes from a to a + Bits(b, 39, 0). -/
def execCwb (a b : SReg) (q : BitVec 3) (sc : Scope) (s : State) : Host.Outcome State Fault Refusal :=
  run 0 (do
    let x ← getC
    if rdP x q then
      let n := bitsAt (rdS x b).toNat 0 40
      if n != 0 && Scope.code sc ≥ 2 then
        let va := (rdS x a).toNat
        let scope := Scope.code sc
        modify fun s =>
          let t := cwbPages (drainAll s s.cur) s.cur (asidOf s s.cur) scope (va + n) (n / 65536 + 2) va
          upd t fun y => if y.farOut = x.farOut then y
            else { y with cwb := if x.farOut = 0 || y.cwb = 0 then scope else min y.cwb scope }) s

/-- The key of a prefetch's tokens, from which on a port sends a request that nothing waits for. -/
def prefKey : Nat := 2 ^ 90
/-- `pref` (R285). A line that is not there is metered (R122), but the prefetch does not wait for its tokens. -/
def execPref (m : MemOp) (clc : Bool) (s : State) : Host.Outcome State Fault Refusal :=
  run 0 (do
    let x ← getC
    let va := (memAddr x m).toNat
    modify fun s =>
      match peek s (.core (coreOf s.cur)) (asidOf s s.cur) va (some .read) with
      | (some (pkg, pa, cp), s) =>
        if !cacheable s pkg pa cp || (clc && cp = 1) then s
        else
          let core := coreOf s.cur
          let s := (meterFor s core s.cur (taskOf s s.cur).tclass (prefKey + x.pos) (tokensOf s core (pa / 32 * 32) cp 32)).2
          if clc || cp = 3 then (clcEnsure s (core / 8) (pa / 128)).2 else (l1Ensure s core (pa / 128) (cp = 1)).2
      | (none, s) => s) s

/-! ## Translation (R289) -/

/-- `tlbinv` (R289): the invalidation is requested; it completes later (R22). -/
def execTlbinv (a b : SReg) (q : BitVec 3) (all : Bool) (s : State) : Host.Outcome State Fault Refusal :=
  run 0 (do
    let x ← getC
    if rdP x q then
      let va := rdS x a
      let asid := bitsAt (rdS x b).toNat 0 16
      trapIf ((rdS x b).toNat != asidOf s s.cur) 12 (if all then 0 else va) 0
      modify fun s =>
        let i : Inval := { asid, va := if all then none else some va.toNat, by_ := some s.cur }
        let s := upd s fun x => { x with inval := x.inval + 1 }
        { s with mmu := { s.mmu with inval := s.mmu.inval ++ [i] } }) s

end Sys2Proof.Machine
end

