-- ==== Sys2Proof/Machine/TileOps.lean ====
section
/-! DEFINITION. The L and T slots (R342 to R355): bindings, tile loads and stores, acquisitions, openings and posts, vector
loads and stores, and the mailboxes. -/
namespace Sys2Proof.Machine

/-! ## Tile operands (R343) -/

def slotL : Nat := 4
def slotT : Nat := 5

/-- A binding; one never written raises DESC `shape` (R72). -/
def bindingM (n : BitVec 5) : M Binding := do
  match (← getC).b.toList.getD n.toNat none with
  | some b => return b
  | none => throw (.trap 17 0 0)

/-- The lowest of the subcodes that apply (R71). -/
def lowest (l : List (Bool × Nat)) : Option Nat := (l.find? fun x => x.1).map (·.2)

/-- A tile operand: its binding and tile, after the checks of R343; `more`: further faults, in rising order of subcode. -/
def tileOpnd (t : TileOp) (below above : Desc → List (Bool × Nat)) : M (Binding × Tile) := do
  let x ← getC
  let b ← bindingM t.b
  let co := tileCoords x t
  let mid : List (Bool × Nat) := [(decide (dClass b.desc = 2), 19), (!coordsOk b.desc co, 20)]
  match lowest (below b.desc ++ mid ++ above b.desc) with
  | some sub => throw (.trap sub 0 0)
  | none => return (b, tileOf b.desc (asidOf (← get) (← get).cur) co)

/-- The scope of a tensor (R148). -/
def tensorScope (d : Desc) : Nat := if dDomain d then 5 else 4

/-- An operation without effect, in the trace (R443). -/
def noEffect (i : Instr) : M Unit := modify fun s => trRec s s.cur 8 (cc s).pc.toNat (Instr_op i)

/-- The tile that an M command names by coordinates. -/
def MCmd_tile (m : MCmd) : Option Tile :=
  match m.binds with
  | some b :: _ => some (tileOf b.desc m.asid (m.vals.map BitVec.toNat))
  | _ => none
def MCmd_isMst (m : MCmd) : Bool := match m.op with | .mst .. => true | _ => false
/-- The M commands of a context that have not retired. -/
def mCmds (s : State) (c : Nat) : List MCmd :=
  (SMap.getD s.eng (coreOf c) {}).m.filter fun m => m.ctx = c && m.tid = (taskOf s c).tid
/-- An M command of the context writes the tile (R321). -/
def mWrites (s : State) (c : Nat) (t : Tile) : Bool := (mCmds s c).any fun m => MCmd_isMst m && MCmd_tile m == some t
/-- An M command of the context reads the line (R212). -/
def mReads (s : State) (c id : Nat) : Bool := (mCmds s c).any fun m => m.pins.contains id

/-- A bundle that names a tile whose opening by its context is not granted blocks (R351). -/
def openingWait (t : Tile) : M Unit := do
  let s ← get
  blockIf (openingOf s s.cur t).isSome

/-- A line that a bundle needs at the binding's requirement: it is filled where none satisfies (R77, R80). -/
def needLine (b : Binding) (t : Tile) : M TLine := do
  let s ← get
  let (r, s) := tileNeed s s.cur b t b.ver.toNat
  match r with
  | .line l => do set s; return l
  | .poisoned id => do set (delLine s (coreOf s.cur) id); throw (.trap 24 0 1)
  | .wait => do set s; throw .block

/-- The line that `tld` and `tcol` read (R344): open, pinned, or the newest that satisfies, whose use is an acquire. -/
def readLine (b : Binding) (t : Tile) : M TLine := do
  openingWait t
  let s ← get
  match openOf s s.cur t with
  | some l => do
    blockIf (mWrites s s.cur t)
    trapIf (l.st == .openPoisoned) 24 0 1
    return l
  | none =>
    match pinnedOf s s.cur t b.ver.toNat with
    | some l => do set (useLine s (coreOf s.cur) l.id); return l
    | none => do
      blockIf ((newestOf (ctcOf s (coreOf s.cur)) t b.ver.toNat).isNone
        && (match postingOf s s.cur t with | some l => verSat l.ver b.ver.toNat | none => false))
      let l ← needLine b t
      acquire (tensorScope b.desc)
      modify fun s => updLine (useLine s (coreOf s.cur) l.id) (coreOf s.cur) l.id lastUse
      return l

/-! ## Bindings (R342, R350) -/

/-- The defined fields of a tensor descriptor (R67). -/
def descMask : Nat := fieldsBut 512 [(63, 56)]
/-- `tbind` (R342). -/
def execTbind (f : BitVec 5) (d v : SReg) (s : State) : Host.Outcome State Fault Refusal :=
  run slotL (do
    let x ← getC
    let va := rdS x d &&& ~~~0x3F#64
    let bs ← loadClean va 64
    let (d, s) := actsAs (← get) descMask (ofLe bs)
    set s
    let desc := BitVec.ofNat 512 d
    match dBad desc with
    | some sub => throw (.trap sub 0 0)
    | none => modC fun x => { x with late := x.late ++ [.bind f { desc := desc, va := va, ver := (rdS x v).setWidth 16 }] }) s

/-- `titin` (R350): s0 ends the itinerary. -/
def execTitin (f : BitVec 5) (i : SReg) (s : State) : Host.Outcome State Fault Refusal :=
  run slotL (do
    let b ← bindingM f
    trapIf (dClass b.desc = 2) 19
    modC fun x => { x with itin := if i == 0 then none else some (b, (rdS x i).toNat / 16 * 16, 65536) }) s

/-! ## Tile loads (R345, R346) -/

/-- Rows that `tld` and `tst` name: those of the tile, and the parameter rows of kept q codes (R345). -/
def rowCount (d : Desc) : Nat := dTR d + dPRows d

/-- `tld` (R345). -/
def execTld (r : GReg) (t : TileOp) (row : BitVec 8) (s : State) : Host.Outcome State Fault Refusal :=
  run slotL (do
    let (b, tile) ← tileOpnd t (fun _ => []) fun d => [(row.toNat ≥ rowCount d, 20)]
    let l ← readLine b tile
    outG r (tileRow b.desc tile.co l.rows row.toNat) 6) s

/-- Column `col` of a line: lane i holds row i (R346). -/
def column (d : Desc) (co : List Nat) (rows : SMap Vec) (col : Nat) : Vec :=
  vec (fmtBits (dTfmt d)) (dTR d) fun i => edgeElem d co rows i col

/-- `tcol` (R346). -/
def execTcol (r : GReg) (t : TileOp) (col : BitVec 8) (s : State) : Host.Outcome State Fault Refusal :=
  run slotL (do
    let (b, tile) ← tileOpnd t
      (fun d => [(dTR d * fmtBits (dTfmt d) > 2048, 17), (fmtBits (dTfmt d) = 4, 18)])
      fun d => [(col.toNat ≥ dTC d, 20)]
    let l ← readLine b tile
    outG r (column b.desc tile.co l.rows col.toNat) 6) s

/-! ## Acquisitions (R85, R347 to R349) -/

/-- Tiles and segments that a context pins or holds open, openings not yet granted among them (R85, R351). -/
def pinUse (s : State) (c : Nat) : Nat × Nat :=
  let pinned := (pinLines s c).map fun p => p.1.segs
  let opened := (openLines s c).map TLine.segs
  let opening := (s.tiles.fills.filter fun f => f.ctx = c && f.tid = (taskOf s c).tid && f.open_.isSome).map allocSegs
  let l := pinned ++ opened ++ opening
  (l.length, l.foldl (· + ·) 0)

/-- The pin of a context on a line raised (R85). -/
def pinLine (s : State) (c id n : Nat) : State :=
  let s := updLine s (coreOf c) id fun l => { l with pins := l.pins + n }
  let up (p : Nat × Nat) : Nat × Nat := if p.1 = id then (id, p.2 + n) else p
  updCtx s c fun x => { x with pins := if (x.pins.any fun p => p.1 = id) then x.pins.map up else x.pins ++ [(id, n)] }

/-- `tacq` (R347). -/
def execTacq (t : TileOp) (s : State) : Host.Outcome State Fault Refusal :=
  run slotL (do
    let (b, tile) ← tileOpnd t (fun _ => []) fun _ => []
    openingWait tile
    let s ← get
    let l ← match pinnedOf s s.cur tile b.ver.toNat with
      | some l => pure l
      | none => do
        let (n, k) := pinUse s s.cur
        trapIf (n ≥ 64 || k + dSegs b.desc > 224) 22
        blockIf ((newestOf (ctcOf s (coreOf s.cur)) tile b.ver.toNat).isNone
          && (match postingOf s s.cur tile with | some l => verSat l.ver b.ver.toNat | none => false))
        needLine b tile
    modify fun s => pinLine (useLine s (coreOf s.cur) l.id) s.cur l.id 1
    acquire (tensorScope b.desc)) s

/-- A discard by the writer told to the tile's home (R84). -/
def discardOpen (s : State) (core : Nat) (l : TLine) : State :=
  sendDiscard (delLine s core l.id) l.home l.tile l.ver l.ctx l.id

/-- One acquisition pin of a context released. -/
def unpinOne (s : State) (c id : Nat) : State :=
  let s := unpinLine s (coreOf c) id 1
  let down (p : Nat × Nat) : Option (Nat × Nat) := if p.1 = id then (if p.2 ≤ 1 then none else some (id, p.2 - 1)) else some p
  updCtx s c fun x => { x with pins := x.pins.filterMap down }

/-- `tdrop` (R348). -/
def execTdrop (t : TileOp) (s : State) : Host.Outcome State Fault Refusal :=
  run slotT (do
    let (_, tile) ← tileOpnd t (fun _ => []) fun _ => []
    openingWait tile
    let s ← get
    match openOf s s.cur tile with
    | some l => do
      blockIf (mWrites s s.cur tile)
      set (discardOpen s (coreOf s.cur) l)
    | none =>
      match (cc s).pins.find? fun p => (match ctcLine s (coreOf s.cur) p.1 with | some l => l.tile == tile | none => false) with
      | some p => set (unpinOne s s.cur p.1)
      | none => noEffect (.tdrop t)) s

/-- `thint` (R349): the effect of a class on a line. -/
def hintTo (l : TLine) (h : Nat) : TLine :=
  match h with
  | 0 => { l with cls := 0, goLast := false }
  | 1 => { l with cls := 1, goLast := false }
  | 2 => lastUse { l with goLast := true }
  | _ => if l.st == .open_ || l.st == .openPoisoned then { l with stream := true } else lastUse { l with goLast := true }

/-- `thint` (R349). -/
def execThint (t : TileOp) (h : BitVec 2) (s : State) : Host.Outcome State Fault Refusal :=
  run slotL (do
    let (b, tile) ← tileOpnd t (fun _ => []) fun _ => []
    openingWait tile
    let s ← get
    let core := coreOf s.cur
    let l := match openOf s s.cur tile with
      | some l => some l
      | none => newestOf (ctcOf s core) tile b.ver.toNat
    match l with
    | some l =>
      let s := updLine s core l.id fun l => hintTo l h.toNat
      set (setCtc s core (capReuse (ctcOf s core) (ctcOf s core).length))
    | none => pure ()) s

/-! ## Openings, tile stores and posts (R351 to R353) -/

/-- The faults of an opening (R19, R71, R82). -/
def openFaults (d : Desc) : Bool := dClass d = 3 || (dClass d = 1 && dTfmt d != dMfmt d)

/-- `twopen` (R351). -/
def execTwopen (t : TileOp) (zero : Bool) (s : State) : Host.Outcome State Fault Refusal :=
  run slotT (do
    let x ← getC
    let b ← bindingM t.b
    let co := tileCoords x t
    match lowest [(decide (dClass b.desc = 2), 11), (!coordsOk b.desc co, 20), (openFaults b.desc, 21)] with
    | some sub => throw (.trap sub 0 0)
    | none => do
      let s ← get
      let tile := tileOf b.desc (asidOf s s.cur) co
      openingWait tile
      if (openOf s s.cur tile).isSome then noEffect (.twopen t zero)
      else
        let (n, k) := pinUse s s.cur
        let tk := taskOf s s.cur
        let opens := (openLines s s.cur).length + (s.tiles.fills.filter fun f => f.ctx = s.cur && f.tid = tk.tid && f.open_.isSome).length
        trapIf (opens ≥ 16 || n ≥ 64 || k + dSegs b.desc > 224) 22
        set (newFill s { id := 0, core := coreOf s.cur, ctx := s.cur, tid := tk.tid, queue := tk.queue, tile := tile, b := b,
                         asid := tk.asid, u := 0, hint := dHint b.desc, open_ := some zero })) s

/-- A row stored into a line: the row's bytes, or the parameter words that exist. -/
def putRow (d : Desc) (rows : SMap Vec) (row : Nat) (v : Vec) : SMap Vec :=
  let n := if row < dTR d then 8 * dRB d else min 2048 (32 * (dParams d - 64 * (row - dTR d)))
  let x := BitVec.ofNat 2048 (v.toNat % 2 ^ n)
  if x = 0 then SMap.erase rows row else SMap.set rows row x

/-- `tst` (R352). -/
def execTst (r : GReg) (t : TileOp) (row : BitVec 8) (s : State) : Host.Outcome State Fault Refusal :=
  run slotT (do
    let x ← getC
    let (b, tile) ← tileOpnd t (fun _ => []) fun d => [(row.toNat ≥ rowCount d, 20)]
    openingWait tile
    let s ← get
    match openOf s s.cur tile with
    | some l => do
      trapIf (l.st == .openPoisoned) 24 0 2
      blockIf (mWrites s s.cur tile || mReads s s.cur l.id)
      set (updLine s (coreOf s.cur) l.id fun l => { l with rows := putRow b.desc l.rows row.toNat (rdG x r) })
    | none => noEffect (.tst r t row)) s

/-- A page that the host sees (R204): cp = 3, or the far window; of a page that holds no frame now, its policy says so. -/
def pageVisible (s : State) (e : Word) (lvl va : Nat) : Bool :=
  if pteKind e = 2 || pteKind e = 3 || pteKind e = 6 then
    match leafTR s e lvl va with | .ok pkg pa cp => pkg = s.pkg && hostVisible pa cp | _ => false
  else pteCp e = 3
/-- The VA ranges that a write-back of a tile touches (R69, R78): its runs, and the parameter words that go with kept codes. -/
def tileRanges (d : Desc) (co : List Nat) : List (Nat × Nat) :=
  ((List.range (runCount d co)).map fun r =>
      let bit := runBit d co r (co.getD 0 0 * dTR d + r)
      (bit / 8, runBytes bit (fmtBits (dMfmt d)) (runLen d co)))
    ++ (if dCodes d then (List.range (inGroups d co)).map fun g => (paramVa d co g, 4 * inCols d co) else [])
/-- Whether the write-back of a tile touches a page that the host sees (R204, R353): its pages looked up without faults. -/
def tileVisible (s : State) (c : Nat) (d : Desc) (co : List Nat) : Bool :=
  (tileRanges d co).any fun r => (cutsAt 65536 r.1 r.2).any fun (va, _, _) =>
    match (peekPte s (.fill (clusterOf c)) (asidOf s c) va).1 with
    | some (e, lvl) => pageVisible s e lvl va
    | none => false

/-- `tpost` (R353). -/
def execTpost (t : TileOp) (wb : Bool) (s : State) : Host.Outcome State Fault Refusal :=
  run slotT (do
    let (b, tile) ← tileOpnd t (fun _ => []) fun _ => []
    openingWait tile
    let s ← get
    match openOf s s.cur tile with
    | some l => do
      trapIf (l.st == .openPoisoned) 24
      blockIf (mWrites s s.cur tile)
      release (tensorScope b.desc)
      let s ← get
      if tileVisible s s.cur b.desc tile.co then pin
      modify fun s => updLine s (coreOf s.cur) l.id fun l => { l with st := .posting, wb := wb }
    | none => noEffect (.tpost t wb)) s

/-! ## Vector loads and stores (R354) -/

/-- log2 of the bytes of a size. -/
def LdSize_lg : LdSize → Nat
  | .b256 => 8 | .b128 => 7 | .b64 => 6 | .b32 => 5

/-- `tldm` (R354). -/
def execTldm (d : GReg) (m : MemOp) (size : LdSize) (s : State) : Host.Outcome State Fault Refusal :=
  run slotL (do
    let x ← getC
    let va := memAddr x m
    let ps ← pieces va (2 ^ LdSize_lg size) .read 0 2
    modify fun s => trMem s s.cur 4 va.toNat (LdSize_lg size)
    loadOut ps (dstG x d) none 1 6 none) s

/-- `tstm` (R354): bit i of the mask suppresses bytes 8i to 8i + 7. -/
def execTstm (g : GReg) (a m : SReg) (s : State) : Host.Outcome State Fault Refusal :=
  run slotT (do
    let x ← getC
    let va := rdS x a
    let bs := (leBytes (rdG x g).toNat 256).zipIdx.map fun (b, i) => if (rdS x m).getLsbD (i / 8) then none else some b
    storeMem va bs
    modify fun s => trMem s s.cur 5 va.toNat 8) s

/-! ## Mailboxes (R154, R355) -/

/-- The mailbox address of `mbld` and `mbst` (R355). -/
def mboxAddr (va : Word) (acc : Acc4) : M Nat := do
  let (pkg, pa, _) ← xlat va acc
  let s ← get
  trapIf (pkg != s.pkg || !(isMbox pa && pa % 32 = 0 && pa % 0x10000 + 256 ≤ 0x4000)) 4 va (akOf acc)
  return pa

/-- `mbld` (R355): one sample of all its bytes. -/
def execMbld (d : GReg) (m : MemOp) (s : State) : Host.Outcome State Fault Refusal :=
  run slotL (do
    let x ← getC
    let va := memAddr x m
    let pa ← mboxAddr va .read
    let s ← get
    let l := (loadParts s { off := 0, va := va, pkg := s.pkg, pa := pa, cp := 2, len := 256 }).take 1
    let dst := dstG x d
    set (upd (trOverlap s dst) fun x => flyLoad x dst (l.map fun p => { p with len := 256 }) none 1 6 none)) s

/-- `mbst` (R355): in another cluster it lands at a free clock from issue + 7 to issue + 64, after the context's earlier writes
there. -/
def execMbst (d : GReg) (m : MemOp) (s : State) : Host.Outcome State Fault Refusal :=
  run slotT (do
    let x ← getC
    let pa ← mboxAddr (memAddr x m) .write
    let s ← get
    let core := coreOf s.cur
    let (k, s) := if mboxOf pa / 8 = core / 8 then (0, s) else let (n, s) := draw s; (Config.choose n % 58, s)
    let land := max (s.clk + 7 + k) (mboxLast s s.cur (mboxOf pa))
    set (mboxSend s { land := land, core := core, ctx := s.cur, pa := pa, data := (leBytes (rdG x d).toNat 256).map some, cast := false, pos := x.pos })) s

/-- `mbcast` (R154, R355). -/
def execMbcast (d : GReg) (m : MemOp) (s : State) : Host.Outcome State Fault Refusal :=
  run slotT (do
    let x ← getC
    let off := (memAddr x m).toNat
    trapIf (off % 32 != 0 || off > 16128) 4 (memAddr x m) 2
    modify fun s => mboxSend s { land := s.clk + 7, core := coreOf s.cur, ctx := s.cur, pa := off, data := (leBytes (rdG x d).toNat 256).map some,
                                 cast := true, pos := x.pos }) s

end Sys2Proof.Machine
end

