-- ==== Sys2Proof/Machine/Track.lean ====
section
/-! DEFINITION. The issue of engine commands (R142, R148, R320, R356): the footprint tracker (R151, R152), the queues, and the
end of a command. -/
namespace Sys2Proof.Machine

def engOf (s : State) (core : Nat) : Engine := SMap.getD s.eng core {}
def setEng (s : State) (core : Nat) (f : Engine → Engine) : State := { s with eng := SMap.set s.eng core (f (engOf s core)) }

/-! ## Footprints (R151, R152) -/

/-- Sectors of n bytes from a VA. -/
def sectors (va n : Nat) : List (Nat × Nat) := if n = 0 then [] else [(va / 32, (va + n - 1) / 32)]

def hitTile (a b : Nat × Option (List Nat)) : Bool :=
  a.1 = b.1 && (match a.2, b.2 with | some x, some y => x == y | _, _ => true)
def hitTiles (a b : List (Nat × Option (List Nat))) : Bool := a.any fun x => b.any (hitTile x)
def hitSecs (a b : List (Nat × Nat)) : Bool := a.any fun x => b.any fun y => x.1 ≤ y.2 && y.1 ≤ x.2

/-- What one footprint reads or writes meets what another writes. -/
def meets (tiles : List (Nat × Option (List Nat))) (secs : List (Nat × Nat)) (all : Bool) (w : Track) : Bool :=
  hitTiles tiles w.tilesW || hitSecs secs w.writeB || (all && !w.writeB.isEmpty) || (w.allW && (all || !secs.isEmpty))

/-- RAW, WAR or WAW between two commands (R151). -/
def overlap (a b : Track) : Bool :=
  meets a.tilesR a.readB a.allR b || meets a.tilesW a.writeB a.allW b || meets b.tilesR b.readB b.allR a

/-- A tile's footprint: its tensor and coordinates. -/
def footTile (t : Tile) : Nat × Option (List Nat) := (t.tensor, some t.co)

/-- A command enters its context's tracker: the earlier commands that it waits for. -/
def addTrack (s : State) (c : Nat) (t : Track) : List Nat × State :=
  (((ctxOf s c).track.filter (overlap t)).map Track.id, updCtx s c fun x => { x with track := x.track ++ [t] })

/-- Every saved task's record changed. -/
def allSaved (s : State) (f : Saved → Saved) : State :=
  let upd (r : Ready) : Ready := { r with saved := r.saved.map f }
  { s with car := { s.car with ready := s.car.ready.map upd, restoring := s.car.restoring.map fun r => (r.1, upd r.2) } }

/-- The commands that every command of a core and every saved one waits for, changed. -/
def mapDeps (s : State) (core : Nat) (f : Nat → List Nat → List Nat) : State :=
  let mm (m : MCmd) : MCmd := { m with deps := f m.id m.deps }
  allSaved (setEng s core fun e => { e with
    m := e.m.map mm
    x := e.x.map fun k => { k with deps := f k.id k.deps } }) fun v => { v with m := v.m.map mm }

/-- A context's tracker changed, and those of the tasks saved. -/
def mapTrack (s : State) (c : Nat) (f : List Track → List Track) : State :=
  allSaved (updCtx s c fun x => { x with track := f x.track }) fun v => { v with track := f v.track }

/-- A command has completed: its entry leaves the tracker, and no command waits for it any longer. -/
def endTrack (s : State) (core c id : Nat) : State :=
  mapDeps (mapTrack s c fun l => l.filter fun t => t.id != id) core fun _ l => l.filter fun d => d != id

/-- The entries of a context's tracker, and of the tasks saved. -/
def tracks (s : State) (c : Nat) : List Track :=
  (ctxOf s c).track ++ (s.car.ready ++ s.car.restoring.map Prod.snd).flatMap fun r => (r.saved.map Saved.track).getD []

/-- The tracker of a task, running or saved. -/
def trackOf (s : State) (c tid : Nat) : List Track :=
  if liveIn s c tid then (ctxOf s c).track else (((savedOf s tid).bind Ready.saved).map Saved.track).getD []

/-- The footprint that a command still has to access is known better, or smaller: a command that waited only for what it has
accessed waits no longer (R151, WAR). -/
def narrowTrack (s : State) (core c id : Nat) (f : Track → Track) : State :=
  let s := mapTrack s c fun l => l.map fun t => if t.id = id then f t else t
  let l := tracks s c
  mapDeps s core fun k ds => ds.filter fun d =>
    match l.find? (fun t => t.id = k), l.find? (fun t => t.id = d) with
    | some a, some b => overlap a b
    | _, _ => true

/-- A copy command of the issuing context has not read its descriptor: later M and X commands wait (R356). -/
def descPending (s : State) : Bool :=
  (engOf s (coreOf s.cur)).x.any fun k => k.ctx = s.cur && k.tid = (taskOf s s.cur).tid && k.kind < 4 && k.blk.isNone && !k.cancel

/-- The context's next command number (R418). -/
def nextCmd : M Nat := do
  let x ← getC
  modC fun x => { x with cmdno := x.cmdno + 1 }
  return x.cmdno.toNat

/-! ## Accumulators (R211, R318, R319) -/

def accOf (x : Ctx) (a : Nat) : Acc := x.acc.toList.getD a {}
def setAcc (x : Ctx) (a : Nat) (f : Acc → Acc) : Ctx :=
  if h : a < 8 then { x with acc := x.acc.set a (f (x.acc[a])) } else x
/-- 32-bit element (i, n). -/
def accElem (x : Ctx) (a i n : Nat) : Nat := lane 32 n (SMap.getD (accOf x a).rows i 0)
/-- 64-bit element (i, n) of the pair of a. -/
def pairElem (x : Ctx) (a i n : Nat) : Nat := accElem x a i n + accElem x (a + 1) i n * 2 ^ 32
/-- A row of an accumulator set; a row of zeros is not listed. -/
def setAccRow (x : Ctx) (a i : Nat) (v : BitVec 4096) : Ctx :=
  setAcc x a fun c => { c with rows := if v = 0 then SMap.erase c.rows i else SMap.set c.rows i v }
/-- Elements of row i replaced where `f` gives one. -/
def putAccRow (x : Ctx) (a i : Nat) (f : Nat → Option Nat) : Ctx :=
  setAccRow x a i (BitVec.ofNat 4096 (packN 32 (fun n => (f n).getD (accElem x a i n)) 128))
/-- 64-bit elements of row i of a pair replaced. -/
def putPairRow (x : Ctx) (a i : Nat) (f : Nat → Option Nat) : Ctx :=
  putAccRow (putAccRow x a i f) (a + 1) i fun n => (f n).map fun v => v / 2 ^ 32

/-- The tag of an accumulator set (R318); a member of an f64 pair that takes another format leaves the other member
tagged f32 (R319). -/
def setTag (x : Ctx) (a : Nat) (t : AccTag) : Ctx :=
  let b := if a % 2 = 0 then a + 1 else a - 1
  let x := if (accOf x a).tag == .f64 && t != .f64 && t != .zero && (accOf x b).tag == .f64 then setAcc x b fun c => { c with tag := .f32 } else x
  setAcc x a fun c => { c with tag := t }

end Sys2Proof.Machine
end

