-- ==== Sys2Proof/Machine/Copy.lean ====
section
/-! DEFINITION. The X slot: commands as they issue (R356 to R362, R366 to R370), the copy engine's packets (R358, R359), the
operations that ROUs perform for commands (R114 to R119, R169), and completion (R363, R364, R371). -/
namespace Sys2Proof.Machine

def slotX : Nat := 6

/-! ## Copy descriptors (R357, R360) -/

/-- A field of a copy descriptor. -/
def cF (b : List Byte) (lo n : Nat) : Nat := bitsAt (ofLe b) lo n
def cSrc (b : List Byte) : Nat := cF b 0 56
def cPat (b : List Byte) : Nat := cF b 0 64
def cIdx (b : List Byte) : Nat := cF b 128 56
def cLen (b : List Byte) : Nat := cF b 192 32
def cRows (b : List Byte) : Nat := cF b 224 24
def cSStride (b : List Byte) : Int := sgn 40 (cF b 256 40)
def cDStride (b : List Byte) : Int := sgn 40 (cF b 320 40)
def cStat (b : List Byte) : Nat := cF b 384 56 / 16 * 16
def cPk (b : List Byte) : Nat := cF b 448 4
/-- Nothing is moved. -/
def cEmpty (b : List Byte) : Bool := cLen b = 0 || cRows b = 0

/-- The address of row r of the destination: a VA, or the 62-bit domain address of `xremote`. -/
def cDstRow (kind : Nat) (b : List Byte) (r : Nat) : Nat :=
  if kind = 2 then wrap 62 (cF b 64 62 + r * cDStride b) else wrap 64 (cF b 64 56 + r * cDStride b)
/-- The VA of row r of the source; `g`: the index of a gather. -/
def cSrcRow (b : List Byte) (g : Nat) : Nat := wrap 64 (cSrc b + g * cSStride b)

/-- A malformed descriptor (R360). -/
def cBad (s : State) (kind : Nat) (b : List Byte) : Bool :=
  cPk b > 4
    || (kind = 2 && (cF b 112 14 = s.pkg || cF b 64 62 % 32 != 0 || cLen b % 32 != 0 || cF b 320 40 % 32 != 0))
    || (kind = 1 && cIdx b % 4 != 0)

/-- The defined fields of a copy descriptor (R357), and of the operand block of an `rchase` (R369). -/
def copyMask : Nat := fieldsBut 512 [(511, 452), (447, 440), (383, 360), (319, 296), (255, 248), (191, 184), (127, 126)]
def chaseMask : Nat := fieldsBut 192 [(191, 181), (175, 172), (159, 156), (143, 140)]

/-- Sectors of a command's rows (R370); ranges of another package lie above every VA. -/
def cRowSecs (b : List Byte) (at_ : Nat → Nat) : List (Nat × Nat) :=
  if cEmpty b then [] else (List.range (cRows b)).flatMap fun r => sectors (at_ r) (cLen b)

/-- The footprint of a copy command whose descriptor is read (R370). -/
def cFoot (id kind va : Nat) (b : List Byte) : Track :=
  let up (x : Nat) : Nat := if kind = 2 then 2 ^ 62 + x else x
  { id := id
    readB := sectors va 64 ++ (if kind = 0 || kind = 2 then cRowSecs b (cSrcRow b) else [])
    writeB := cRowSecs b (fun r => up (cDstRow kind b r)) ++ (if cStat b = 0 then [] else sectors (cStat b) 16)
    allR := kind = 1 }

/-- The sectors of a copy's source from its position on: what it still reads (R151). -/
def cLeft (k : XCmd) (b : List Byte) : List (Nat × Nat) :=
  if cEmpty b then [] else (List.range (cRows b - k.row)).flatMap fun i =>
    if i = 0 then sectors (cSrcRow b k.row + k.off) (cLen b - k.off) else sectors (cSrcRow b (k.row + i)) (cLen b)

/-! ## Commands -/

def xOf (s : State) (core id : Nat) : Option XCmd := (engOf s core).x.find? fun k => k.id = id
def updX (s : State) (core id : Nat) (f : XCmd → XCmd) : State :=
  setEng s core fun e => { e with x := e.x.map fun k => if k.id = id then f k else k }

/-- On whose behalf an X command accesses memory. -/
def xWho (core : Nat) (k : XCmd) : Who :=
  { ag := .core core, core := core, ctx := k.ctx, asid := k.asid, queue := k.queue, owner := ownerOf k.id }

/-- A fault precise to an X command (R33, R119, R356, R360): it is parked at its position. -/
def xFault (s : State) (core : Nat) (k : XCmd) (sub va ak : Nat) : State :=
  engineFault s k.ctx k.tid core (.xcmd core k.id) k.queue k.asid 2 k.cmdno sub (BitVec.ofNat 64 va) ak (xStatus k)

/-- A part of an X command: what it changes, a fault of the command at its position, or nothing yet. -/
def xRun (s : State) (core : Nat) (k : XCmd) (m : EM Unit) : State :=
  match eRun m s with
  | (.ok _, s) => s
  | (.error .wait, s) => s
  | (.error (.fault sub va ak), s) => xFault s core ((xOf s core k.id).getD k) sub va ak

/-- The task runs or is saved. -/
def tidLives (s : State) (c tid : Nat) : Bool := liveIn s c tid || (savedOf s tid).isSome

/-- What an `xflushrd` to a package, or another flushing read, waits for (R143, R361): copies of the task that issued before the
command, and such `xremote`s to the package whose packets the gateway has not all taken. -/
def flushHeld (s : State) (core : Nat) (k : XCmd) (p : Nat) : Bool :=
  (engOf s core).x.any fun j => j.ctx = k.ctx && j.tid = k.tid && j.id < k.id &&
    (j.kind = 0 || j.kind = 1 || j.kind = 3
      || (j.kind = 2 && j.sent.isNone && (match j.blk with
        | none => true
        | some b => ((List.range (cRows b)).any fun r => cDstRow 2 b r / 2 ^ 48 = p))))

/-- The destination list of a command's task, running or saved. -/
def destsOf (s : State) (k : XCmd) : List (Nat × Bool) :=
  if liveIn s k.ctx k.tid then (ctxOf s k.ctx).dests else (((savedOf s k.tid).bind Ready.saved).map Saved.dests).getD []
def destsTo (s : State) (c tid : Nat) (f : List (Nat × Bool) → List (Nat × Bool)) : State :=
  if liveIn s c tid then updCtx s c fun x => { x with dests := f x.dests } else updSaved s tid fun v => { v with dests := f v.dests }

/-- A package enters the destination list of a command's task; a 65th waits until the oldest is flushed (R143). -/
def eDest (core : Nat) (k : XCmd) (pkg : Nat) : EM Unit := do
  let s ← get
  let l := destsOf s k
  if l.any fun d => d.1 = pkg then return
  else if l.length < 64 then set (destsTo s k.ctx k.tid fun l => l ++ [(pkg, false)])
  else
    match l with
    | (p, _) :: _ =>
      if !(s.fab.asks.any fun a => a.1 = ownerOf k.id && a.2.kind = 5) then
        eWaitIf (flushHeld s core k p)
        let (n, s) := sendFlush s k.ctx p
        let ask : Remote := { pkg := p, addr := 0, len := 0, kind := 5, arg := 1, eseq := n }
        set { s with fab := { s.fab with asks := s.fab.asks ++ [(ownerOf k.id, ask)] } }
      throw .wait
    | [] => pure ()

/-- The packages of an `xremote`'s rows. -/
def remotePkgs (b : List Byte) : List Nat :=
  ((List.range (cRows b)).map fun r => cDstRow 2 b r / 2 ^ 48).eraseDups
def eDests (core : Nat) (k : XCmd) : List Nat → EM Unit
  | [] => return ()
  | p :: ps => do eDest core k p; eDests core k ps

/-- The descriptor of a copy command is read (R356), after the earlier commands that write to it (R151): its footprint is known, and
the commands it waits for. -/
def readDesc (s : State) (core : Nat) (k : XCmd) : State :=
  if !k.deps.isEmpty then s else
  let va := k.a.toNat / 64 * 64
  xRun s core k (do
    eMeter (xWho core k) 0 1
    let bs ← eReadClean (xWho core k) va 64 1
    let (d, s) := actsAs (← get) copyMask (ofLe bs)
    set s
    let b := leBytes d 64
    eFaultIf (cBad s k.kind b) 25
    if k.kind = 2 && !cEmpty b then eDests core k (remotePkgs b)
    let s := eDone (← get) (ownerOf k.id)
    let f := cFoot k.id k.kind va b
    let deps := ((trackOf s k.ctx k.tid).filter fun t => t.id < k.id && overlap f t).map Track.id
    let s := mapTrack s k.ctx fun l => l.map fun t => if t.id = k.id then f else t
    let s := updX s core k.id fun k => { k with blk := some b, deps := deps }
    set (narrowTrack s core k.ctx k.id fun t => { t with readB := if k.kind = 0 || k.kind = 2 then cLeft k b else [] }))

/-! ## Issue (R356, R362, R366 to R370) -/

/-- An X command enters its core's queue and the tracker. -/
def issueX (kind : Nat) (e : BitVec 3) (foot : Track) (init : XCmd → XCmd) : M Nat := do
  let s ← get
  let x := cc s
  blockIf (descPending s)
  let q := (engOf s (coreOf s.cur)).x
  blockIf (q.length ≥ 16 || (q.filter fun k => k.ctx = s.cur).length ≥ 8 || x.track.length ≥ 32)
  if kind = 2 then outbound
  if kind = 2 || (4 ≤ kind && kind ≤ 8) then pin
  settleIssue
  modify fun s => releaseAt s (coreOf s.cur) 1
  let n ← nextCmd
  let (id, s) := newId (← get)
  let (deps, s) := addTrack s s.cur { foot with id := id }
  let t := taskOf s s.cur
  set (setEng s (coreOf s.cur) fun g => { g with x := g.x ++
    [init { id := id, ctx := s.cur, tid := t.tid, queue := t.queue, asid := t.asid, kind := kind, ev := e.toNat, cmdno := n, deps := deps }] })
  return id

/-- A copy command as it issues: its descriptor is read as it enters the tracker. -/
def issueCopy (kind : Nat) (d : SReg) (e : BitVec 3) : M Unit := do
  let a := rdS (← getC) d
  let id ← issueX kind e { id := 0, readB := sectors (a.toNat / 64 * 64) 64 } fun k => { k with a := a }
  modify fun s => match xOf s (coreOf s.cur) id with
    | some k => readDesc s (coreOf s.cur) k
    | none => s

/-- `xcopy` (R356 to R360). -/
def execXcopy (d : SReg) (e : BitVec 3) (s : State) : Host.Outcome State Fault Refusal := run slotX (issueCopy 0 d e) s
/-- `xgather` (R356 to R360). -/
def execXgather (d : SReg) (e : BitVec 3) (s : State) : Host.Outcome State Fault Refusal := run slotX (issueCopy 1 d e) s
/-- `xremote` (R359). -/
def execXremote (d : SReg) (e : BitVec 3) (s : State) : Host.Outcome State Fault Refusal := run slotX (issueCopy 2 d e) s
/-- `xfill` (R358). -/
def execXfill (d : SReg) (e : BitVec 3) (s : State) : Host.Outcome State Fault Refusal := run slotX (issueCopy 3 d e) s

/-- Every flushing read that may go is sent (R183, R361); one to this package completes at once. -/
def pumpFlush (s : State) (core : Nat) : State :=
  ((engOf s core).x.filter fun k => k.kind = 9 && k.sent.isNone && k.got.isNone && !k.cancel).foldl (fun s k =>
    let p := bitsAt k.a.toNat 0 14
    if p = s.pkg then updX s core k.id fun k => { k with got := some [0] }
    else if flushHeld s core k p then s
    else
      let (n, s) := sendFlush s k.ctx p
      updX s core k.id fun k => { k with sent := some n }) s

/-- `xflushrd` (R361). -/
def execXflushrd (p : SReg) (e : BitVec 3) (s : State) : Host.Outcome State Fault Refusal :=
  run slotX (do
    let a := rdS (← getC) p
    let _ ← issueX 9 e { id := 0 } fun k => { k with a := a }
    modify fun s => pumpFlush s (coreOf s.cur)) s

/-- A command that `xcancel` ends: a copy, or an operation not sent yet (R362). -/
def mayCancel (k : XCmd) : Bool := k.kind < 4 || (k.sent.isNone && k.got.isNone)

/-- `xcancel` (R362): it completes at once and counts no event. -/
def execXcancel (e : BitVec 3) (s : State) : Host.Outcome State Fault Refusal :=
  run slotX (modify fun s => setEng s (coreOf s.cur) fun g => { g with
    x := g.x.map fun k => if k.ctx = s.cur && k.tid = (taskOf s s.cur).tid && k.ev = e.toNat && mayCancel k then { k with cancel := true } else k }) s

/-- `rop` (R366). -/
def execRop (op : RouOp) (w : AWidth) (a x r : SReg) (e : BitVec 3) (s : State) : Host.Outcome State Fault Refusal :=
  run slotX (do
    let c ← getC
    let va := rdS c a
    let t := sectors va.toNat (AWidth_bytes w)
    let out := if r == 0 then [] else sectors (rdS c r).toNat 8
    let _ ← issueX 4 e { id := 0, readB := t, writeB := t ++ out } fun k =>
      { k with op := op, w := w, a := va, x := rdS c x, r := rdS c r, rnone := r == 0 }) s

/-- The ROU commands whose footprint is all of memory (R370). -/
def issueAll (kind : Nat) (a x r : SReg) (e : BitVec 3) : M Unit := do
  let c ← getC
  let _ ← issueX kind e { id := 0, allR := true, allW := true } fun k => { k with a := rdS c a, x := rdS c x, r := rdS c r }

/-- `rcas4` (R367). -/
def execRcas4 (b r : SReg) (e : BitVec 3) (s : State) : Host.Outcome State Fault Refusal := run slotX (issueAll 5 b 0 r e) s
/-- `renq` (R368). -/
def execRenq (h n r : SReg) (e : BitVec 3) (s : State) : Host.Outcome State Fault Refusal := run slotX (issueAll 6 h n r e) s
/-- `rdeq` (R368). -/
def execRdeq (h r : SReg) (e : BitVec 3) (s : State) : Host.Outcome State Fault Refusal := run slotX (issueAll 7 h 0 r e) s
/-- `rchase` (R369). -/
def execRchase (b r : SReg) (e : BitVec 3) (s : State) : Host.Outcome State Fault Refusal := run slotX (issueAll 8 b 0 r e) s

/-! ## Copy packets (R358, R359) -/

/-- Bytes of a list of pieces read, with the poison of each byte's sector (R108). -/
def eReadPsnL (w : Who) : List (Nat × Nat × Nat) → EM (List (Byte × Bool))
  | [] => return []
  | (va, _, n) :: rest => do
    let (pkg, pa, _) ← eXlat w va .read 1
    let s ← get
    let l ← if pkg == s.pkg then do
        let (l, s) := (sectorPieces pa n).foldl (fun (l, s) (a, _, m) =>
          let (b, p, s) := engineRead s w.core a m
          (l ++ b.map fun x => (x, p), s)) (([] : List (Byte × Bool)), s)
        set s
        pure l
      else do
        let (b, p) ← eAsk w pkg pa n va 1
        if !p then pure (b.map fun x => (x, false))
        else (cutsAt 32 pa n).foldlM (fun l (a, _, m) => do
          let (b, p) ← eAsk w pkg a m va 1
          return l ++ b.map fun x => (x, p)) []
    return l ++ (← eReadPsnL w rest)
def eReadPsn (w : Who) (va n : Nat) : EM (List Byte × List Bool) := do
  let l ← eReadPsnL w (cutsAt 512 va n)
  return (l.map Prod.fst, l.map Prod.snd)

/-- The length of a packet from byte o of a row whose destination is `d` there: at most a packet's size, within 4 KiB,
ending at a sector boundary or with the row. -/
def packetLen (b : List Byte) (o d : Nat) : Nat :=
  let n := min (cLen b - o) (min (4096 - d % 4096) (1024 / 2 ^ cPk b))
  if o + n = cLen b then n else n - (d + n) % 32

/-- The destination sectors of a packet that receive a poisoned source byte, by place. -/
def sectorPsn (d n : Nat) (psn : List Bool) : List (Nat × Nat × Bool) :=
  (cutsAt 32 d n).map fun (_, o, k) => (o, k, ((psn.drop o).take k).any id)

/-- The bytes of a packet's first sectors that are alike, poisoned or not. -/
def alike : List (Nat × Nat × Bool) → Nat × Bool
  | [] => (0, false)
  | (o, k, p) :: l => (((l.takeWhile fun x => x.2.2 = p).map fun x => x.2.1).foldl (· + ·) (k + 0 * o), p)

/-- A copy command has moved every row. -/
def copied (k : XCmd) : Bool := match k.blk with | some b => cEmpty b || k.row ≥ cRows b | none => false

/-- The source of a packet: bytes, poison by byte. -/
def packetSrc (w : Who) (k : XCmd) (b : List Byte) (n : Nat) : EM (List Byte × List Bool) := do
  match k.kind with
  | 3 => return ((List.range n).map fun i => BitVec.ofNat 8 (bitsAt (cPat b) (8 * ((k.off + i) % 8)) 8), List.replicate n false)
  | 1 => do
    let g ← eReadClean w (cIdx b + 4 * k.row) 4 1
    eReadPsn w (cSrcRow b (ofLe g) + k.off) n
  | _ => eReadPsn w (cSrcRow b k.row + k.off) n

/-- The position after n further bytes. -/
def copyAdvance (b : List Byte) (n pc : Nat) (k : XCmd) : XCmd :=
  let k := { k with done := k.done + n, pcnt := k.pcnt + pc }
  if k.off + n ≥ cLen b then { k with row := k.row + 1, off := 0 } else { k with off := k.off + n }

/-- One packet of a copy: it is read, its destination is translated, the task is pinned and the package listed where
that is needed, and it is written. -/
def copyMove (core : Nat) (k : XCmd) (b : List Byte) : EM Unit := do
  let w := xWho core k
  let d := cDstRow k.kind b k.row + k.off
  let (bs, psn) ← packetSrc w k b (packetLen b k.off d)
  let (n, p) := alike (sectorPsn d (packetLen b k.off d) psn)
  let bs := bs.take n
  let pc := if p then (cutsAt 32 d n).length else 0
  let key := k.row * 2 ^ 36 + k.off + 1
  let srcUnits := if k.kind = 3 then 0 else units n + if k.kind = 1 && k.off = 0 then 1 else 0
  if k.kind = 2 then do
    eMeter w key (srcUnits + units n)
    modify fun s => remoteWrite s k.ctx (d / 2 ^ 48) (d % 2 ^ 48) (bs.map some) p
  else do
    let ts ← eTargets w 2 (cutsAt 512 d n)
    let s ← get
    let out := ts.any fun (pkg, pa, cp, _, _) => pkg != s.pkg || hostVisible pa cp
    if out && !tidLives s k.ctx k.tid then
      set (updX s core k.id fun k => { k with cancel := true })
      throw .wait
    eDests core k (((ts.filter fun t => t.1 != s.pkg).map fun t => t.1).eraseDups)
    eMeter w key (srcUnits + units n)
    if out then modify fun s => pinPoster s k.tid
    ePut w ts (bs.map some) p
  modify fun s =>
    let s := updX (eDone s (ownerOf k.id)) core k.id (copyAdvance b n pc)
    match xOf s core k.id with
    | some k' => narrowTrack s core k.ctx k.id fun t =>
        if k.kind = 1 then { t with allR := !copied k' } else if k.kind = 3 then t else { t with readB := cLeft k' b }
    | none => s

/-- `COPY_PACKET` (R358, R359): the descriptor, where it is not read yet, or the next packet. -/
def copyStep (s : State) (core id : Nat) : State :=
  match xOf s core id with
  | some k =>
    if k.kind ≥ 4 || k.cancel || copied k || faulted s (.xcmd core id) then s
    else match k.blk with
    | none => readDesc s core k
    | some b => if k.deps.isEmpty then xRun s core k (copyMove core k b) else s
  | none => s
def execCopyPacket (s : State) : Host.Outcome State Fault Refusal :=
  match s.ev with
  | some (.copyPacket core id) => .next (copyStep s core id)
  | _ => .next s

/-- `XREMOTE_TAKEN` (R359): the gateway has every packet. -/
def takenStep (s : State) (core id : Nat) : State :=
  match xOf s core id with
  | some k => if k.kind = 2 && copied k && k.sent.isNone then pumpFlush (updX s core id fun k => { k with sent := some 0 }) core else s
  | none => s
def execXremoteTaken (s : State) : Host.Outcome State Fault Refusal :=
  match s.ev with
  | some (.xremoteTaken core id) => .next (takenStep s core id)
  | _ => .next s

/-! ## Operations of the ROUs for commands (R114 to R119, R366 to R369) -/

/-- A word of an operand block. -/
def blkW (b : List Byte) (o : Nat) : Nat := ofLe ((b.drop o).take 8)

/-- An operation sent to the package that holds the frame, and its answer (R136, R180). One refused or not performed is used up, so
that a retry asks again (R33). -/
def eAtom (w : Who) (pkg pa n arg : Nat) (data : List Byte) (va : Nat) : EM (List Byte) := do
  let s ← get
  match s.fab.asks.find? fun r => r.1 = w.owner && r.2.kind = 2 && r.2.pkg = pkg && r.2.addr = pa with
  | some (_, r) =>
    match r.reply with
    | none => throw .wait
    | some (b, psn, refused) =>
      if refused || psn then set (eDone s w.owner)
      eFaultIf (refused && psn) (b.headD 0).toNat va 4
      eFaultIf refused 5 va 4
      eFaultIf psn 24 va 4
      return b
  | none =>
    let (e, s) := gwSend s (w.core / 48) { ty := 2, dst := pkg, src := s.pkg, sctx := w.ctx, op := arg, addr := pa, len := n, data := data }
    set { s with fab := { s.fab with asks := s.fab.asks ++ [(w.owner, ({ pkg := pkg, addr := pa, len := n, kind := 2, arg := arg, eseq := e } : Remote))] } }
    throw .wait

/-- The result of a command's operation, which reads nothing more (R151). -/
def xGot (core : Nat) (k : XCmd) (bs : List Byte) (fl : Fl) : EM Unit :=
  modify fun s => narrowTrack (updX (eDone s (ownerOf k.id)) core k.id fun k => { k with got := some bs, flags := fl }) core k.ctx k.id
    fun t => { t with readB := [], allR := false }
/-- A command has an operation on its way. -/
def xSent (core id : Nat) : EM Unit := modify fun s => updX s core id fun k => { k with sent := some (k.sent.getD 0) }

/-- The single-word operation of a `rop` (R366, R169). -/
def ropMove (core : Nat) (k : XCmd) : EM Unit := do
  let w := xWho core k
  let n := AWidth_bytes k.w
  eFaultIf (k.a.toNat % n != 0) 32 k.a.toNat 4
  eFaultIf (!k.rnone && k.r.toNat % 8 != 0) 32 k.r.toNat 2
  let (pkg, pa, cp) ← eXlat w k.a.toNat .atomic 4
  let s ← get
  eFaultIf (pkg == s.pkg && farOp s pa cp (k.op == .add || k.op == .swap) false) 36 k.a.toNat 4
  eMeter w 1 1
  xSent core k.id
  if pkg != s.pkg then do
    let b ← eAtom w pkg pa n (RouOp_code k.op) (leBytes k.x.toNat n) k.a.toNat
    xGot core k (padTo 8 (b.take n)) (BitVec.ofNat 7 ((b.getD n 0).toNat))
  else do
    let s ← get
    eWaitIf (sectorHeld s pa w.owner)
    let (r, s) := rouOp (flushOwn s core pa) [k.ctx] (some k.queue) k.op k.w pa k.x
    set (queueInval s core pa)
    match r with
    | some (old, fl) => xGot core k (leBytes old 8) fl
    | none => throw (.fault 24 k.a.toNat 4)

/-- The operand block of a command, read when it starts; `mask`: its defined fields (R7). -/
def xBlock (core : Nat) (k : XCmd) (n mask : Nat) : EM (List Byte) := do
  match k.blk with
  | some b => return b
  | none => do
    let w := xWho core k
    eMeter w 0 (units n)
    let bs ← eReadClean w k.a.toNat n 1
    let (d, s) := actsAs (← get) mask (ofLe bs)
    let b := leBytes d n
    set (updX (eDone s (ownerOf k.id)) core k.id fun k => { k with blk := some b })
    return b

/-- The addresses of an `rcas4` translated: its package and the words there. -/
def cas4Xlat (w : Who) : List Nat → EM (List (Nat × Nat))
  | [] => return []
  | a :: as => do
    let (pkg, pa, _) ← eXlat w a .atomic 4
    let l ← cas4Xlat w as
    return (pkg, pa) :: l

/-- `rcas4` (R116, R119, R367). -/
def cas4Move (core : Nat) (k : XCmd) : EM Unit := do
  let w := xWho core k
  eFaultIf (k.a.toNat % 8 != 0) 32 k.a.toNat 1
  eFaultIf (k.r.toNat % 8 != 0) 32 k.r.toNat 2
  let b ← xBlock core k 104 (2 ^ 832 - 1)
  let n := blkW b 0
  let as := (List.range n).map fun i => blkW b (8 + 8 * i)
  let es := (List.range n).map fun i => blkW b (40 + 8 * i)
  let ds := (List.range n).map fun i => blkW b (72 + 8 * i)
  eFaultIf (n = 0 || n > 4) 33 k.a.toNat 4
  eFaultIf (as.any fun a => a % 8 != 0) 32 (as.headD 0) 4
  eFaultIf (as.any fun a => a / 4096 != as.headD 0 / 4096) 33 (as.headD 0) 4
  eFaultIf (as.eraseDups.length < n) 34 (as.headD 0) 4
  let ts ← cas4Xlat w as
  let s ← get
  match ts with
  | [] => return ()
  | (pkg, pa) :: _ =>
    let res (l : List Nat) : List Byte := (List.range 5).flatMap fun i => leBytes (l.getD i 0) 8
    eFaultIf (pkg == s.pkg && isFar pa) 36 (as.headD 0) 4
    eMeter w 1 1
    xSent core k.id
    if pkg != s.pkg then do
      let r ← eAtom w pkg pa (8 * n) 13 (((ts.map fun (t : Nat × Nat) => t.2 % 4096) ++ es ++ ds).flatMap fun x => leBytes x 8) (as.headD 0)
      xGot core k (padTo 40 r) 0
    else do
      let s ← get
      eWaitIf (ts.any fun (t : Nat × Nat) => sectorHeld s t.2 w.owner)
      let s : State := ts.foldl (fun (s : State) (t : Nat × Nat) => flushOwn s core t.2) s
      let (r, s) := rouCas4 s (some k.queue) (ts.map Prod.snd) es ds
      set (ts.foldl (fun (s : State) (t : Nat × Nat) => if (r.bind List.head?) == some 1 then queueInval s core t.2 else s) s)
      match r with
      | some l => xGot core k (res l) 0
      | none => throw (.fault 24 (as.headD 0) 4)

/-- `renq` and `rdeq` (R117, R119, R368). -/
def listMove (core : Nat) (k : XCmd) : EM Unit := do
  let w := xWho core k
  eFaultIf (k.a.toNat % 16 != 0) 32 k.a.toNat 4
  eFaultIf (k.r.toNat % 8 != 0) 32 k.r.toNat 2
  eFaultIf (k.kind = 6 && (k.x.toNat = 0 || k.x.toNat % 8 != 0)) 35 k.x.toNat 4
  let (pkg, pa, _) ← eXlat w k.a.toNat .atomic 4
  let s ← get
  eFaultIf (pkg == s.pkg && isFar pa) 36 k.a.toNat 4
  eMeter w 1 1
  xSent core k.id
  if pkg != s.pkg then do
    let r ← eAtom w pkg pa 16 (k.kind + 8) (leBytes k.asid 8 ++ leBytes k.x.toNat 8) k.a.toNat
    xGot core k (padTo 8 r) 0
  else do
    let r : RouWho := { w := { w with ag := .rou (chanOf pa) }, own := true }
    ownLine r pa
    let v ← if k.kind = 6 then rouEnq r (some k.queue) pa k.a.toNat k.x.toNat else rouDeq r (some k.queue) pa k.a.toNat
    xGot core k (leBytes v 8) 0

/-- One hop of `rchase` (R118, R369). `sent`: the channel whose ROU has the operation; the core finds the first. -/
def chaseMove (core : Nat) (k : XCmd) : EM Unit := do
  let w := xWho core k
  eFaultIf (k.a.toNat % 8 != 0) 32 k.a.toNat 1
  eFaultIf (k.r.toNat % 8 != 0) 32 k.r.toNat 2
  let b ← xBlock core k 24 chaseMask
  let c := blkW b 16
  let koff := bitsAt c 0 12
  let noff := bitsAt c 16 12
  let voff := bitsAt c 32 12
  let hl := bitsAt c 48 5
  eFaultIf (koff % 8 != 0 || noff % 8 != 0 || voff % 8 != 0 || hl = 0 || hl > 16) 33 k.a.toNat 4
  let res (st v : Nat) : EM Unit := xGot core k (leBytes st 8 ++ leBytes v 8) 0
  let p := if k.hop = 0 then blkW b 0 else k.ptr
  if k.hop ≥ hl then res 2 p
  else do
    eMeter w 1 1
    modify fun s => updX s core k.id fun k => { k with ptr := p, sent := some (k.sent.getD 0) }
    let from_ : Who := if k.hop = 0 then w else { w with ag := .rou (k.sent.getD 0) }
    let n ← if p = 0 || p % 8 != 0 then pure (k.sent.getD 0)
      else do
        let (pkg, pa) ← linkAt { w := from_, own := true } p
        pure (if pkg = (← get).pkg then chanOf pa else k.sent.getD 0)
    modify fun s => updX s core k.id fun k => { k with sent := some n }
    match ← rouHop { w := { w with ag := .rou n }, own := true } p (blkW b 8) koff noff voff with
    | .done st v => res st v
    | .next q => modify fun s => updX s core k.id fun k => { k with hop := k.hop + 1, ptr := q }

/-- A command of a kind performs what it does at a ROU, where it may. -/
def rouMove (s : State) (core id kind : Nat) : State :=
  match xOf s core id with
  | some k =>
    if k.kind != kind || k.cancel || k.got.isSome || !k.deps.isEmpty || faulted s (.xcmd core id) then s
    else xRun s core k (match kind with
      | 4 => ropMove core k
      | 5 => cas4Move core k
      | 8 => chaseMove core k
      | _ => listMove core k)
  | none => s

/-- `ROU_RCAS4` (R116). -/
def execRouRcas4 (s : State) : Host.Outcome State Fault Refusal :=
  match s.ev with
  | some (.rouRcas4 core id) => .next (rouMove s core id 5)
  | _ => .next s
/-- `ROU_RENQ` (R117). -/
def execRouRenq (s : State) : Host.Outcome State Fault Refusal :=
  match s.ev with
  | some (.rouRenq core id) => .next (rouMove s core id 6)
  | _ => .next s
/-- `ROU_RDEQ` (R117). -/
def execRouRdeq (s : State) : Host.Outcome State Fault Refusal :=
  match s.ev with
  | some (.rouRdeq core id) => .next (rouMove s core id 7)
  | _ => .next s
/-- `RCHASE_HOP` (R118). -/
def execRchaseHop (s : State) : Host.Outcome State Fault Refusal :=
  match s.ev with
  | some (.rchaseHop core id) => .next (rouMove s core id 8)
  | _ => .next s

/-! ## Completion (R362 to R364, R371) -/

/-- The completion record of a copy (R363). -/
def copyRecord (k : XCmd) : List Byte :=
  let code : Nat := if k.cancel then 1 else if k.pcnt > 0 then 3 else 0
  leBytes code 1 ++ leBytes 0 3 ++ leBytes k.pcnt 4 ++ leBytes k.done 8

/-- Everything that a command does is done. -/
def xFinished (k : XCmd) : Bool :=
  k.deps.isEmpty && (if k.kind < 4 then copied k && (k.kind != 2 || k.sent.isSome) else k.got.isSome)

/-- What a completing command writes: its record, or its result. -/
def xWrites (k : XCmd) : Option (Nat × List Byte) :=
  if k.kind < 4 then
    match k.blk with
    | some b => if cStat b = 0 then none else some (cStat b, copyRecord k)
    | none => none
  else if k.cancel || k.rnone || k.kind = 9 then none
  else k.got.map fun g => (k.r.toNat, g)

/-- The end of a command: `xstat`, flags, its event, its place in the tracker and the queue. -/
def xEnd (s : State) (core : Nat) (k : XCmd) : State :=
  let bits := (if k.kind = 9 && k.got == some [1] then 1 else 0) + (if k.pcnt > 0 then 2 else 0) + (if k.cancel then 4 else 0)
  let s := if bits = 0 && k.pcnt = 0 then s else xstatTo s k.ctx k.tid k.pcnt bits
  let s := eDone (flagsTo s k.ctx k.tid k.flags) (ownerOf k.id)
  let s := endTrack s core k.ctx k.id
  let s := setEng s core fun e => { e with x := e.x.filter fun x => x.id != k.id }
  pumpFlush (countEv s k.ctx k.tid k.ev) core

/-- `X_COMMAND_COMPLETE` (R362, R363, R371, R433). -/
def completeStep (s : State) (core id : Nat) : State :=
  match xOf s core id with
  | none => s
  | some k =>
    if k.cancel then
      match xWrites k with
      | some (va, bs) => match eRun (eWrite (xWho core k) va bs 2) s with
        | (.error .wait, s) => s
        | (_, s) => xEnd s core k
      | none => xEnd s core k
    else if !xFinished k || faulted s (.xcmd core id) then s
    else match xWrites k with
    | none => xEnd s core k
    | some (va, bs) => xRun s core k (do
        eMeter (xWho core k) 2 (units bs.length)
        eWrite (xWho core k) va bs 2
        modify fun s => xEnd s core k)
def execXCommandComplete (s : State) : Host.Outcome State Fault Refusal :=
  match s.ev with
  | some (.xCommandComplete core id) => .next (completeStep s core id)
  | _ => .next s

end Sys2Proof.Machine
end

