-- ==== Sys2Proof/Machine/Matrix.lean ====
section
/-! DEFINITION. The matrix engine (R318 to R341, R414, R415): the M slot's commands as they issue, and the engine's steps: one
k-step or row, retirement, and the slot table. -/
namespace Sys2Proof.Machine

/-! ## Issue (R320) -/

def slotM : Nat := 3

/-- Accumulator formats. -/
inductive AFmt where | f32 | f64 | i32
  deriving DecidableEq, Repr

def AFmt_tag : AFmt → AccTag
  | .f32 => .f32 | .f64 => .f64 | .i32 => .i32
/-- The format code of an accumulator format (R41). -/
def AFmt_code : AFmt → Nat
  | .f32 => 12 | .f64 => 13 | .i32 => 2
/-- The accumulators that a command in a format names at `a` (R319). -/
def AFmt_accs (f : AFmt) (a : Nat) : List Nat := match f with | .f64 => [a / 2 * 2, a / 2 * 2 + 1] | _ => [a]

/-- The accumulator format of `mld`, `mst` and `maddt` (R324); none for q4 and q8. -/
def ldFmt (c : Nat) : Option AFmt :=
  if c = 15 || c = 16 then none
  else match fmtFloat c with
  | some .f64 => some .f64
  | some _ => some .f32
  | none => some .i32

/-- The accumulator format and ρ of a pair of operand formats (R328, R60). -/
def mmaFmt (a w : Nat) : Option (AFmt × Nat) :=
  let fp8 (x : Nat) : Bool := x = 8 || x = 9
  let half (x : Nat) : Bool := x = 10 || x = 11
  let int (x : Nat) : Bool := x = 0 || x = 14
  if fp8 a && fp8 w then some (.f32, 2)
  else if half a && half w then some (.f32, 1)
  else if a = 12 && w = 12 then some (.f32, 1)
  else if a = 13 && w = 13 then some (.f64, 1)
  else if int a && int w then some (.i32, 2)
  else none

/-- The accumulator format of a product of a kind (R328, R330, R331): 0 `mma`, 1 `mmaq`, 2 `mmag`. -/
def prodFmt (kind a w : Nat) : Option AFmt := if kind = 0 then (mmaFmt a w).map (·.1) else some .f32

/-- The accumulator that a command names first (R337). -/
def MCmd_acc0 (i : Instr) : Nat :=
  match i with
  | .mzero f | .mld f _ _ | .mst f _ _ | .maddt f _ _ | .mman f _ | .mscale f _ _ | .mcvt f _ _ _ => f.toNat
  | .mma f _ _ _ _ _ | .mmaq f _ _ _ _ _ | .mmag f _ _ _ _ _ => f.toNat
  | _ => 0

/-- An M command enters its core's queue (R320): `accs`: the accumulators it keeps busy, `foot`: its footprint. -/
def issueM (op : Instr) (limit accs : List Nat) (binds : List (Option Binding)) (vals : List Word) (rm : RMode)
    (foot : Track) (slots : List (Option Binding → Option (Nat × Option (List Nat)))) : M Unit := do
  let x ← getC
  let s ← get
  let d := (taskOf s s.cur).demand
  opTrap (limit.any fun a => a ≥ d)
  blockIf (accs.any fun a => (accOf x a).busy)
  blockIf (descPending s)
  let q := (engOf s (coreOf s.cur)).m
  blockIf (q.length ≥ 16 || (q.filter fun m => m.ctx = s.cur).length ≥ 8 || x.track.length ≥ 32)
  settleIssue
  modify fun s => releaseAt s (coreOf s.cur) 1
  let n ← nextCmd
  let s ← get
  let (id, s) := newId s
  let tiles := (slots.zip binds).filterMap fun (f, b) => f b
  let isW := match op with | .mst .. => true | _ => false
  let (deps, s) := addTrack s s.cur { foot with id := id, tilesR := if isW then [] else tiles, tilesW := if isW then tiles else [] }
  let t := taskOf s s.cur
  let s := upd s fun x => accs.foldl (fun x a => setAcc x a fun c => { c with busy := true }) x
  set (setEng s (coreOf s.cur) fun e => { e with m := e.m ++
    [{ id := id, ctx := s.cur, tid := t.tid, queue := t.queue, asid := t.asid, op := op, vals := vals, binds := binds,
       rm := rm, accs := accs, deps := deps, cmdno := n, acc := MCmd_acc0 op, pc := x.pc }] })

/-- A binding as a command latches it. -/
def bindOf (x : Ctx) (n : BitVec 5) : Option Binding := x.b.toList.getD n.toNat none

/-- The footprint of a tile of a binding. -/
def footOf (asid : Nat) (co : List Nat) (b : Option Binding) : Option (Nat × Option (List Nat)) :=
  b.map fun b => footTile (tileOf b.desc asid co)

/-- `mld`, `mst` and `maddt` as they issue (R324). -/
def issueTile (op : Instr) (r : BitVec 3) (t : TileOp) : M Unit := do
  let x ← getC
  let s ← get
  let b := bindOf x t.b
  let f := ((b.bind fun b => ldFmt (dTfmt b.desc))).getD .f32
  issueM op [r.toNat] (AFmt_accs f r.toNat) [b] (t.sregs.map (rdS x)) .rne { id := 0 }
    [footOf (asidOf s s.cur) (tileCoords x t)]

/-- The coordinates that packed word sc gives to the activation and weight tiles (R327). -/
def prodCoords (w : Word) : List Nat × List Nat :=
  let g (lo : Nat) : Nat := bitsAt w.toNat lo 16
  ([g 0, g 16, g 48, 0, 0, 0], [g 16, g 32, g 48, 0, 0, 0])

/-- `mma`, `mmaq` and `mmag` as they issue (R327, R330, R331). -/
def issueProd (op : Instr) (kind : Nat) (f : BitVec 3) (a w : BitVec 5) (c : SReg) (rm : Rnd) : M Unit := do
  let x ← getC
  let s ← get
  let ba := bindOf x a
  let bw := bindOf x w
  let fm := (match ba, bw with | some a, some w => prodFmt kind (dTfmt a.desc) (dTfmt w.desc) | _, _ => none).getD .f32
  let (ca, cw) := prodCoords (rdS x c)
  issueM op [f.toNat] (AFmt_accs fm f.toNat) [ba, bw] [rdS x c] (rmOf x rm) { id := 0 }
    [footOf (asidOf s s.cur) ca, footOf (asidOf s s.cur) cw]

/-- `mzero` (R323). -/
def execMzero (f : BitVec 3) (s : State) : Host.Outcome State Fault Refusal :=
  run slotM (issueM (.mzero f) [f.toNat] [f.toNat] [] [] .rne { id := 0 } []) s
/-- `mld` (R324, R325). -/
def execMld (r : BitVec 3) (t : TileOp) (off : BitVec 8) (s : State) : Host.Outcome State Fault Refusal :=
  run slotM (issueTile (.mld r t off) r t) s
/-- `mst` (R324 to R326). -/
def execMst (r : BitVec 3) (t : TileOp) (off : BitVec 8) (s : State) : Host.Outcome State Fault Refusal :=
  run slotM (issueTile (.mst r t off) r t) s
/-- `maddt` (R324, R325). -/
def execMaddt (r : BitVec 3) (t : TileOp) (off : BitVec 8) (s : State) : Host.Outcome State Fault Refusal :=
  run slotM (issueTile (.maddt r t off) r t) s
/-- `mma` (R327 to R329). -/
def execMma (f : BitVec 3) (a w : BitVec 5) (c : SReg) (off : BitVec 8) (rm : Rnd) (s : State) : Host.Outcome State Fault Refusal :=
  run slotM (issueProd (.mma f a w c off rm) 0 f a w c rm) s
/-- `mmaq` (R330). -/
def execMmaq (f : BitVec 3) (a w : BitVec 5) (c : SReg) (off : BitVec 8) (rm : Rnd) (s : State) : Host.Outcome State Fault Refusal :=
  run slotM (issueProd (.mmaq f a w c off rm) 1 f a w c rm) s
/-- `mmag` (R331). -/
def execMmag (f : BitVec 3) (a w : BitVec 5) (c : SReg) (off : BitVec 8) (rm : Rnd) (s : State) : Host.Outcome State Fault Refusal :=
  run slotM (issueProd (.mmag f a w c off rm) 2 f a w c rm) s

/-- `mman` (R332, R152): until its descriptor is read, every accumulator of the task may be named, and every tile of the tensors of
any binding; all bindings are latched. What its nest does not name is given up as the descriptor is read (log 45). -/
def execMman (f : BitVec 3) (n : SReg) (s : State) : Host.Outcome State Fault Refusal :=
  run slotM (do
    let x ← getC
    let s ← get
    let va := (rdS x n).toNat / 64 * 64
    issueM (.mman f n) [f.toNat] (List.range (taskOf s s.cur).demand) x.b.toList [BitVec.ofNat 64 va] (rmOf x .dyn)
      { id := 0, readB := sectors va 64 } (x.b.toList.map fun _ b => b.map fun b => (dTensor b.desc, none))) s

/-- `mscale` (R335): the scale is latched. -/
def execMscale (f : BitVec 3) (sr : SReg) (rm : Rnd) (s : State) : Host.Outcome State Fault Refusal :=
  run slotM (do
    let x ← getC
    issueM (.mscale f sr rm) [f.toNat] (if (accOf x f.toNat).tag == .f64 then AFmt_accs .f64 f.toNat else [f.toNat]) []
      [rdS x sr] (rmOf x rm) { id := 0 } []) s

/-- `mcvt` (R336). -/
def execMcvt (d a : BitVec 3) (toF32 : Bool) (rm : Rnd) (s : State) : Host.Outcome State Fault Refusal :=
  run slotM (do
    let x ← getC
    let l := if toF32 then d.toNat :: AFmt_accs .f64 a.toNat else a.toNat :: AFmt_accs .f64 d.toNat
    issueM (.mcvt d a toF32 rm) l l [] [] (rmOf x rm) { id := 0 } []) s

/-! ## Products (R329 to R334) -/

/-- One product: accumulator, kind, rounding mode, offsets, bindings and coordinates. -/
structure Prod where
  acc : Int
  kind : Nat
  rm : RMode
  ro : Nat := 0
  co : Nat := 0
  ba : Option Binding
  bw : Option Binding
  ca : List Int
  cw : List Int
  deriving DecidableEq, Repr

def offRow (off : BitVec 8) : Nat := off.toNat / 16 * 8
def offCol (off : BitVec 8) : Nat := off.toNat % 16 * 8

/-- The defined fields of a nest descriptor (R7, R332). -/
def nestMask : Nat := fieldsBut 512 ((511, 448) :: (45, 32) :: (List.range 6).map fun j => (64 * j + 79, 64 * j + 64))
/-- Fields of a nest descriptor (R332). -/
def nF (d : BitVec 512) (lo n : Nat) : Nat := bitsAt d.toNat lo n
def nDims (d : BitVec 512) : Nat := nF d 46 3 + 1
def nCnt (d : BitVec 512) (j : Nat) : Nat := nF d (64 + 64 * j + 52) 12 + 1
def nStep (d : BitVec 512) (j lo n : Nat) : Int := sgn n (nF d (64 + 64 * j + lo) n)
def nKind (d : BitVec 512) : Nat := nF d 59 2
def nIters (d : BitVec 512) : Nat := ((List.range (nDims d)).map (nCnt d)).foldl (· * ·) 1
/-- The index of dimension j at flattened iteration t. -/
def nIdx (d : BitVec 512) (t : Nat) : Nat → Nat
  | 0 => t % nCnt d 0
  | j + 1 => t / ((List.range (j + 1)).map (nCnt d)).foldl (· * ·) 1 % nCnt d (j + 1)
/-- An origin plus the steps of its dimensions. -/
def nSum (d : BitVec 512) (t : Nat) (origin : Int) (lo n : Nat) : Int :=
  (List.range (nDims d)).foldl (fun z j => z + nIdx d t j * nStep d j lo n) origin
/-- The rounding mode of a nest: none for codes 5 and 6. -/
def nRm (d : BitVec 512) (dyn : RMode) : Option RMode :=
  match nF d 61 3 with | 0 => some .rne | 1 => some .rtz | 2 => some .rdn | 3 => some .rup | 4 => some .rna | 7 => some dyn | _ => none

/-- The product of an M command at its iteration. -/
def prodOf (m : MCmd) : Option Prod :=
  let one (kind : Nat) (f : BitVec 3) (off : BitVec 8) : Prod :=
    let (ca, cw) := prodCoords (m.vals.headD 0)
    { acc := f.toNat, kind := kind, rm := m.rm, ro := offRow off, co := offCol off, ba := m.binds.getD 0 none,
      bw := m.binds.getD 1 none, ca := ca.map Int.ofNat, cw := cw.map Int.ofNat }
  match m.op with
  | .mma f _ _ _ off _ => some (one 0 f off)
  | .mmaq f _ _ _ off _ => some (one 1 f off)
  | .mmag f _ _ _ off _ => some (one 2 f off)
  | .mman f _ => m.nest.map fun d =>
    let ia := nSum d m.iter (nF d 16 8) 44 8
    let kt := nSum d m.iter (nF d 8 8) 36 8
    let nw := nSum d m.iter (nF d 0 8) 28 8
    let c2 := nSum d m.iter (nF d 24 8) 20 8
    { acc := nSum d m.iter f.toNat 16 4, kind := nKind d, rm := (nRm d m.rm).getD .rne
      ba := m.binds.getD (nF d 54 5) none, bw := m.binds.getD (nF d 49 5) none
      ca := [ia, kt, c2, 0, 0, 0], cw := [kt, nw, c2, 0, 0, 0] }
  | _ => none

/-- The two tiles of a product, with their bindings. -/
def prodTiles (p : Prod) : List (Binding × List Nat) :=
  (p.ba.toList.map fun b => (b, p.ca.map Int.toNat)) ++ p.bw.toList.map fun b => (b, p.cw.map Int.toNat)
/-- The tiles that a command needs at its position (R322, R339). -/
def mTiles (m : MCmd) : List (Binding × List Nat) :=
  match m.op with
  | .mld .. | .maddt .. => ((m.binds.getD 0 none).map fun b => (b, m.vals.map BitVec.toNat)).toList
  | .mma .. | .mmaq .. | .mmag .. | .mman .. => ((prodOf m).map prodTiles).getD []
  | _ => []
/-- The tiles that a command has still to read (R151): of a nest, those of every iteration left. -/
def mLeft (m : MCmd) : List (Nat × Option (List Nat)) :=
  let at_ (m : MCmd) := (mTiles m).map fun (b, co) => footTile (tileOf b.desc m.asid co)
  if m.done then []
  else match m.nest with
    | some d => ((List.range (nIters d - m.iter)).flatMap fun i => at_ { m with iter := m.iter + i }).eraseDups
    | none => at_ m

/-- Format, class and shape faults of a product's operands (R322, R328, R330, R331): whether they apply. -/
def prodBad (p : Prod) (a w : Desc) : Bool :=
  let k := dTC a
  let shape := k != dTR w || p.ro + dTR a > 128 || p.co + dTC w > 128
  match p.kind with
  | 0 => (mmaFmt (dTfmt a) (dTfmt w)).isNone || shape
  | 1 => !(dCodes w) || !(dTfmt a = 0 || dTfmt a = 11) || dTR w % dG w != 0 || shape
  | 2 => dClass w != 2 || !(dTfmt a = 10 || dTfmt a = 11) || shape
  | _ => true

/-- The format of a product. -/
def prodAFmt (p : Prod) : AFmt :=
  (match p.ba, p.bw with | some a, some w => prodFmt p.kind (dTfmt a.desc) (dTfmt w.desc) | _, _ => none).getD .f32

/-- Accumulator and tag faults (R318, R319, R322). -/
def accBad (x : Ctx) (demand : Nat) (f : AFmt) (a : Int) : Bool :=
  a < 0 || (let n := a.toNat
    n ≥ demand || (f == .f64 && (n % 2 = 1 || n + 1 ≥ demand))
      || (AFmt_accs f n).any fun b => !((accOf x b).tag == .zero || (accOf x b).tag == AFmt_tag f))

/-- A coordinate outside 0 to 65,535 or the tensor (R73, R333). -/
def intCoordsBad (d : Desc) (co : List Int) : Bool := co.any (fun c => c < 0 || c ≥ 65536) || !coordsOk d (co.map Int.toNat)

/-- The fault of a product before its first k-step: the lowest subcode that applies. -/
def prodFault (x : Ctx) (demand : Nat) (p : Prod) : Option Nat :=
  match p.ba, p.bw with
  | some a, some w =>
    lowest [(dClass a.desc = 2 || (dClass w.desc = 2 && p.kind != 2), 19),
            (intCoordsBad a.desc p.ca || intCoordsBad w.desc p.cw, 20),
            (prodBad p a.desc w.desc || accBad x demand (prodAFmt p) p.acc, 23)]
  | _, _ => some 17

/-- K-steps, or groups, of a product. -/
def prodSteps (p : Prod) : Nat :=
  match p.ba, p.bw with
  | some a, some w =>
    if p.kind = 1 then dTR w.desc / dG w.desc
    else if p.kind = 2 then dTC a.desc
    else cdiv (dTC a.desc) (((mmaFmt (dTfmt a.desc) (dTfmt w.desc)).map (·.2)).getD 1)
  | _, _ => 0

/-- The clocks that an `mman` counts for each of its steps (R328, R330, R334), in halves of a clock. -/
def prodHalfClocks (p : Prod) : Nat :=
  match p.ba, p.bw with
  | some a, some w =>
    let ta := dTfmt a.desc
    let tw := dTfmt w.desc
    if p.kind = 1 then (if ta = 0 then dG w.desc else 2 * dG w.desc)
    else if p.kind = 2 then 8
    else if ta = 12 then 16 else if ta = 13 then 128 else if ta = 14 && tw = 14 then 1 else 2
  | _, _ => 0

/-- The fault of a nest before its first k-step (R332 to R334). -/
def nestFault (x : Ctx) (demand : Nat) (m : MCmd) (d : BitVec 512) : Option Nat :=
  let at_ (t : Nat) : Option Prod := prodOf { m with nest := some d, iter := t }
  match at_ 0 with
  | none => some 23
  | some p =>
    match p.ba, p.bw with
    | some a, some w =>
      lowest [(dClass a.desc = 2 || (dClass w.desc = 2 && p.kind != 2), 19),
        ((nRm d m.rm).isNone || nKind d = 3 || prodBad p a.desc w.desc
          || nIters d * prodSteps p * prodHalfClocks p > 2 * 65536
          || (nestAccs d m).any fun z => accBad x demand (prodAFmt p) z, 23)]
    | _, _ => some 17
where
  /-- The accumulator codes that the nest's products name, each once. -/
  nestAccs (d : BitVec 512) (m : MCmd) : List Int :=
    (List.range (min (nIters d) 131073)).foldl (fun l t =>
      let z := nSum d t ((match m.op with | .mman f _ => f.toNat | _ => 0 : Nat) : Int) 16 4
      if l.contains z then l else z :: l) []

/-! ## Arithmetic (R59 to R62) -/

/-- A float element of a tile. -/
def tileFV (d : Desc) (co : List Nat) (rows : SMap Vec) (i k : Nat) : FV :=
  decF ((fmtFloat (dTfmt d)).getD .f32) (edgeElem d co rows i k)
/-- An integer element of a tile, and `qrc`. -/
def tileInt (d : Desc) (co : List Nat) (rows : SMap Vec) (i k : Nat) : Int × Fl := intVal (dTfmt d) (edgeElem d co rows i k)

/-- acc + Σ terms, one rounding (R60). -/
def addStep (t : FFmt) (rm : RMode) (acc : Nat) (ts : List (FV × Fl)) : Nat × Fl :=
  let (x, g) := sumF rm (decF t acc :: ts.map (·.1))
  roundX t rm false (x, g ||| orFlags (ts.map (·.2)))

/-- acc + z modulo 2^32 (R61). -/
def addI32 (acc : Nat) (z : Int) : Nat × Fl :=
  let v := sgn 32 acc + z
  (wrap 32 v, raise (v < minOf true 32 || v > maxOf true 32) flIof)

/-- An exact result as a value. -/
def XV_val : XV → FV
  | .nan => .nan false
  | .inf n => .inf n
  | .fin n k _ e => .fin n k e

/-- A Mirage weight W[k][n] (R59). -/
def mirageW (d : Desc) (co : List Nat) (rows : SMap Vec) (k n : Nat) : FV × Fl :=
  if !(k < inRows d co && n < inCols d co) then (.fin false 0 0, 0)
  else
    let h := (SMap.getD rows 0 0).toNat
    let r := mRank h
    let seed : Word := BitVec.ofNat 64 h
    let (x, g) := sumF .rne (FV.fin false 0 0 :: (List.range r).map fun j =>
      signBy (lfsr seed (k * r + j)) (decF .bf16 (lane 16 n (SMap.getD rows (1 + j) 0))))
    let (y, f) := mulX (decF .f32 (bitsAt h 80 32)) (XV_val x)
    let (p, f) := roundX .bf16 .rne false (y, f ||| g)
    (decF .bf16 p, f)

/-- One group of `mmaq` on one element (R62). -/
def groupStep (rm : RMode) (acc : Nat) (int : Bool) (scale : FV) (zp : Nat) (as : List (FV × Int)) (qs : List Nat) : Nat × Fl :=
  if int then
    let t : Int := ((as.zip qs).map fun (a, q) => a.2 * q).foldl (· + ·) 0 - zp * (as.map (·.2)).foldl (· + ·) 0
    addStep .f32 rm acc [mulF scale (.fin (t < 0) t.natAbs 0)]
  else
    addStep .f32 rm acc ((as.zip qs).map fun (a, q) =>
      let z : Int := (q : Int) - zp
      let (x, f) := mulF a.1 scale
      let (y, g) := mulF x (.fin (z < 0) z.natAbs 0)
      (y, f ||| g))

/-- The new accumulator element (i, n) of a product after its k-step (R329 to R331). -/
def prodElem (p : Prod) (a w : Desc) (la lw : TLine) (step acc i n : Nat) : Nat × Fl :=
  let ca := p.ca.map Int.toNat
  let cw := p.cw.map Int.toNat
  match p.kind with
  | 1 =>
    let g := dG w
    let ks := (List.range g).map fun j => step * g + j
    let word := edgeParam w cw lw.rows (step * dTC w + n)
    groupStep p.rm acc (dTfmt a = 0) (qScale word) (qZp word)
      (ks.map fun k => (tileFV a ca la.rows i k, (tileInt a ca la.rows i k).1)) (ks.map fun k => edgeElem w cw lw.rows k n)
  | 2 =>
    let (v, f) := mirageW w cw lw.rows step n
    let (x, g) := mulF (tileFV a ca la.rows i step) v
    addStep .f32 p.rm acc [(x, f ||| g)]
  | _ =>
    match mmaFmt (dTfmt a) (dTfmt w) with
    | some (.i32, r) =>
      let ks := (List.range r).map fun j => r * step + j
      let ts := ks.map fun k => (tileInt a ca la.rows i k, tileInt w cw lw.rows k n)
      let (v, f) := addI32 acc ((ts.map fun (x, y) => x.1 * y.1).foldl (· + ·) 0)
      (v, f ||| orFlags (ts.map fun (x, y) => x.2 ||| y.2))
    | some (f, r) =>
      let ks := (List.range r).map fun j => r * step + j
      addStep (if f == .f64 then .f64 else .f32) p.rm acc
        (ks.map fun k => mulF (tileFV a ca la.rows i k) (tileFV w cw lw.rows k n))
    | none => (acc, 0)

/-- Rows i of a block replaced by an element function of its column, with the flags. -/
def blockRow (x : Ctx) (f : AFmt) (a ro co cols i : Nat) (g : Nat → Nat → Nat × Fl) : Ctx × Fl :=
  let old (n : Nat) : Nat := if f == .f64 then pairElem x a (ro + i) n else accElem x a (ro + i) n
  let res := (List.range cols).map fun n => g n (old (co + n))
  let at_ (n : Nat) : Option Nat := if co ≤ n && n < co + cols then some ((res.getD (n - co) (0, 0)).1) else none
  (if f == .f64 then putPairRow x a (ro + i) at_ else putAccRow x a (ro + i) at_, orFlags (res.map (·.2)))

/-- One k-step of a product on every covered element. -/
def prodStep (x : Ctx) (p : Prod) (a w : Desc) (la lw : TLine) (step : Nat) : Ctx × Fl :=
  (List.range (dTR a)).foldl (fun (x, fl) i =>
    let (x, f) := blockRow x (prodAFmt p) p.acc.toNat p.ro p.co (dTC w) i fun n acc => prodElem p a w la lw step acc i n
    (x, fl ||| f)) (x, 0)

/-! ## Preparing a command (R322, R326, R332, R339) -/

/-- On whose behalf an M command reads its descriptor. -/
def mWho (core : Nat) (m : MCmd) : Who :=
  { ag := .core core, core := core, ctx := m.ctx, asid := m.asid, queue := m.queue, owner := ownerOf m.id }

def updM (s : State) (core id : Nat) (f : MCmd → MCmd) : State :=
  setEng s core fun e => { e with m := e.m.map fun m => if m.id = id then f m else m }
def mOf (s : State) (core id : Nat) : Option MCmd := (engOf s core).m.find? fun m => m.id = id

/-- A fault precise to an M command (R322, R422): it is parked at its position. -/
def mFault (s : State) (core : Nat) (m : MCmd) (sub : Nat) (va : Word) (ak : Nat) : State :=
  updM (engineFault s m.ctx m.tid core (.mcmd core m.id) m.queue m.asid 1 m.cmdno sub va ak (mStatus m)) core m.id
    fun m => { m with parked := true }

/-- The pins of an M command released (R86, R89). -/
def mUnpin (s : State) (core : Nat) (m : MCmd) : State :=
  updM (m.pins.foldl (fun s p => unpinLine s core p 1) s) core m.id fun m => { m with pins := [] }

/-- The line that a command holds pinned for a tile (R322): no later version reaches it while it runs. -/
def mPinned (s : State) (core : Nat) (m : MCmd) (b : Binding) (co : List Nat) : Option TLine :=
  m.pins.findSome? fun id => (ctcLine s core id).filter fun l => l.tile == tileOf b.desc m.asid co && verSat l.ver b.ver.toNat

/-- One tile of a command: its line, a fault, or a wait (R85, R322). -/
def mLine (s : State) (m : MCmd) (b : Binding) (co : List Nat) : TNeed × State :=
  let t := tileOf b.desc m.asid co
  match pinnedOf s m.ctx t b.ver.toNat with
  | some l => (.line l, s)
  | none => tileNeed s m.ctx b t b.ver.toNat

/-- The tiles that a command needs next, acquired together, as `tacq` acquires one (R86, R148): those it does not hold are pinned until
it retires, or the command is parked. An acquire drops what the context has fetched (R272). -/
def mAcquire (s : State) (core : Nat) (m : MCmd) (ts : List (Binding × List Nat)) : State :=
  let ts := ts.filter fun t => (mPinned s core m t.1 t.2).isNone
  if ts.isEmpty then updM s core m.id fun m => { m with parked := false }
  else
    let (l, s) := ts.foldl (fun (l, s) (b, co) => let (r, s) := mLine s m b co; (l ++ [r], s)) (([] : List TNeed), s)
    match l.findSome? fun r => match r with | .poisoned id => some id | _ => none with
    | some id => mFault (delLine s core id) core m 24 0 1
    | none =>
      let ids := l.filterMap fun r => match r with | .line x => some x.id | _ => none
      if ids.length < ts.length then updM s core m.id fun m => { m with parked := true }
      else
        let s := ids.foldl (fun s id => updLine (useLine s core id) core id fun l => { l with pins := l.pins + 1 }) s
        let s := ts.foldl (fun s (b, _) => acquireAt s core (tensorScope b.desc)) s
        let s := updCtx s m.ctx fun x => { x with fetch := [], ahead := [] }
        updM s core m.id fun m => { m with pins := m.pins ++ ids, parked := false }

/-- A command has read some of its tiles, or knows them better: commands that wait for no more than that wait no longer (R151). -/
def mNarrow (s : State) (core id : Nat) : State :=
  match mOf s core id with
  | some m => narrowTrack s core m.ctx id fun t => { t with tilesR := mLeft m, readB := [] }
  | none => s
/-- An `mman` whose descriptor no earlier command still writes (R151). -/
def nestFree (s : State) (m : MCmd) : Bool :=
  (match m.op with | .mman .. => m.nest.isNone | _ => false)
    && !((ctxOf s m.ctx).track.any fun t => m.deps.contains t.id && (t.allW || hitSecs (sectors (m.vals.headD 0).toNat 64) t.writeB))

/-- The checks of `mld`, `mst` and `maddt` before their first row (R322, R324 to R326). -/
def tileFault (x : Ctx) (demand : Nat) (m : MCmd) (r : BitVec 3) (off : BitVec 8) : Option Nat :=
  match m.binds.getD 0 none with
  | none => some 17
  | some b =>
    let d := b.desc
    lowest [(decide (dClass d = 2), 19), (!coordsOk d (m.vals.map BitVec.toNat), 20),
      ((match ldFmt (dTfmt d) with
        | none => true
        | some f => accBad x demand f r.toNat || offRow off + dTR d > 128 || offCol off + dTC d > 128), 23)]

/-- The state of the line that an `mst` writes (R326): open, waited for, or not held. -/
inductive MstLine where
  | open_ (l : TLine)
  | poisoned
  | wait
  | absent
  deriving DecidableEq, Repr
def mstLine (s : State) (m : MCmd) : MstLine :=
  match MCmd_tile m with
  | none => .absent
  | some t =>
    match openOf s m.ctx t with
    | some l => if l.st == .openPoisoned then .poisoned else .open_ l
    | none => if (openingOf s m.ctx t).isSome then .wait else .absent

/-- A command made ready to run its next step, parked, or stopped by a fault. -/
def mPrepare (s : State) (core : Nat) (m : MCmd) : State :=
  let x := ctxOf s m.ctx
  let demand := (taskOf s m.ctx).demand
  let ready (s : State) : State := updM s core m.id fun m => { m with parked := false }
  let fault (s : State) (sub : Nat) : State := mFault s core m sub 0 0
  let co := m.vals.map BitVec.toNat
  let prod (m : MCmd) (s : State) : State :=
    match prodOf m with
    | none => fault s 23
    | some p =>
      match if m.kstep > 0 then none else prodFault x demand p with
      | some sub => fault s sub
      | none => mAcquire s core m (prodTiles p)
  match m.op with
  | .mld r _ off | .maddt r _ off =>
    match (if m.row > 0 then none else tileFault x demand m r off), m.binds.getD 0 none with
    | some sub, _ => fault s sub
    | none, some b => mAcquire s core m [(b, co)]
    | none, none => fault s 17
  | .mst r _ off =>
    match (if m.row > 0 then none else tileFault x demand m r off) with
    | some sub => fault s sub
    | none => match mstLine s m with
      | .poisoned => mFault s core m 24 0 2
      | .wait => updM s core m.id fun m => { m with parked := true }
      | _ => ready s
  | .mscale f _ _ =>
    if (accOf x f.toNat).tag == .f64 && f.getLsbD 0 then fault s 23 else ready s
  | .mcvt _ a toF32 _ =>
    let want : AccTag := if toF32 then .f64 else .f32
    let srcs := if toF32 then AFmt_accs .f64 a.toNat else [a.toNat]
    if m.row > 0 then ready s
    else if srcs.any fun a => !((accOf x a).tag == .zero || (accOf x a).tag == want) then fault s 23
    else
      updM s core m.id fun m => { m with parked := false, src := accOf x (srcs.getD 0 0), src2 := if toF32 then accOf x (srcs.getD 1 0) else {} }
  | .mman _ _ =>
    match m.nest with
    | some _ => prod m s
    | none =>
      match eRun (eReadClean (mWho core m) ((m.vals.headD 0).toNat) 64 1) s with
      | (.error .wait, s) => updM s core m.id fun m => { m with parked := true }
      | (.error (.fault sub va ak), s) => mFault s core m sub (BitVec.ofNat 64 va) ak
      | (.ok bs, s) =>
        let (w, s) := actsAs (eDone s (ownerOf m.id)) nestMask (ofLe bs)
        let d := BitVec.ofNat 512 w
        match nestFault (ctxOf s m.ctx) demand m d with
        | some sub => fault s sub
        | none =>
          let m' := { m with nest := some d }
          let accs := (nestFault.nestAccs d m').flatMap fun z => match prodOf m' with | some p => AFmt_accs (prodAFmt p) z.toNat | none => []
          let s := updCtx s m.ctx fun x => (m.accs.filter fun a => !accs.contains a).foldl (fun x a => setAcc x a fun c => { c with busy := false }) x
          let put (m : MCmd) : MCmd := { m with nest := some d, accs := accs, acc := (((prodOf m').map fun p => p.acc.toNat).getD m.acc) }
          let s := mNarrow (updM s core m.id put) core m.id
          match mOf s core m.id with
          | some m => if m.deps.isEmpty then prod m s else s
          | none => s
  | .mma .. | .mmaq .. | .mmag .. => prod m s
  | _ => ready s

/-! ## One step (R323, R325, R329, R335, R336) -/

/-- A row of `mld` or `maddt` (R325). -/
def mldRow (x : Ctx) (add : Bool) (r : Nat) (off : BitVec 8) (d : Desc) (co : List Nat) (l : TLine) (i : Nat) : Ctx × Fl :=
  let f := (ldFmt (dTfmt d)).getD .f32
  let fresh := !add || (accOf x r).tag == .zero
  blockRow x f r (offRow off) (offCol off) (dTC d) i fun n acc =>
    let e := edgeElem d co l.rows i n
    if fresh then conv (dTfmt d) (AFmt_code f) .rne (dFsat d) e
    else match f with
    | .i32 => let (z, g) := intVal (dTfmt d) e; let (v, h) := addI32 acc z; (v, g ||| h)
    | .f64 => addStep .f64 .rne acc [(decF ((fmtFloat (dTfmt d)).getD .f64) e, 0)]
    | .f32 => addStep .f32 .rne acc [(decF ((fmtFloat (dTfmt d)).getD .f32) e, 0)]

/-- A row of `mst`: the row of the line, and its flags (R325, R326). -/
def mstRow (x : Ctx) (r : Nat) (off : BitVec 8) (d : Desc) (i : Nat) : Vec × Fl :=
  let f := (ldFmt (dTfmt d)).getD .f32
  let res := (List.range (dTC d)).map fun n =>
    let a := if f == .f64 then pairElem x r (offRow off + i) (offCol off + n) else accElem x r (offRow off + i) (offCol off + n)
    conv (AFmt_code f) (dTfmt d) .rne (dFsat d) a
  (vec (fmtBits (dTfmt d)) (dTC d) fun n => (res.getD n (0, 0)).1, orFlags (res.map (·.2)))

/-- A row of `mscale` (R335). -/
def mscaleRow (x : Ctx) (a : Nat) (sig : Nat) (rm : RMode) (i : Nat) : Ctx × Fl :=
  let s := decF .f32 sig
  match (accOf x a).tag with
  | .zero => (x, 0)
  | .f32 => blockRow x .f32 a 0 0 128 i fun _ v => roundX .f32 rm false (mulX (decF .f32 v) s)
  | .f64 => blockRow x .f64 a 0 0 128 i fun _ v => roundX .f64 rm false (mulX (decF .f64 v) s)
  | .i32 => blockRow x .f32 a 0 0 128 i fun _ v =>
      let z := sgn 32 v
      roundX .f32 rm false (mulX (.fin (z < 0) z.natAbs 0) s)

/-- A row of `mcvt` (R336), from what the engine has read. -/
def mcvtRow (x : Ctx) (m : MCmd) (d : Nat) (toF32 : Bool) (i : Nat) : Ctx × Fl :=
  let lo (n : Nat) : Nat := lane 32 n (SMap.getD m.src.rows i 0)
  let hi (n : Nat) : Nat := lane 32 n (SMap.getD m.src2.rows i 0)
  if toF32 then blockRow x .f32 d 0 0 128 i fun n _ => cvtFF .f32 m.rm false (decF .f64 (lo n + hi n * 2 ^ 32))
  else blockRow x .f64 d 0 0 128 i fun n _ => cvtFF .f64 .rne false (decF .f32 (lo n))

/-- One k-step, or one row, of a command that is ready: its position advances, and at its last one it is done. -/
def mStep (s : State) (core : Nat) (m : MCmd) : State :=
  let x := ctxOf s m.ctx
  let line (k : Nat) : TLine := (((mTiles m)[k]?).bind fun (b, co) => mPinned s core m b co).getD
    { id := 0, tile := { asid := 0, tensor := 0, co := [] }, b := { desc := 0, va := 0, ver := 0 }, asid := 0 }
  let rowDone (s : State) (n : Nat) (a : Nat) (fl : Fl) : State := updM s core m.id fun m =>
    { m with row := m.row + 1, acc := a, started := true, flags := m.flags ||| fl, done := m.row + 1 ≥ n }
  match m.op with
  | .mzero f => rowDone (setCtx s m.ctx (setAccRow x f.toNat m.row 0)) 128 f.toNat 0
  | .mld r _ off | .maddt r _ off =>
    match m.binds.getD 0 none with
    | none => s
    | some b =>
      let add := match m.op with | .maddt .. => true | _ => false
      let (x, fl) := mldRow x add r.toNat off b.desc (m.vals.map BitVec.toNat) (line 0) m.row
      rowDone (setCtx s m.ctx x) (dTR b.desc) r.toNat fl
  | .mst r _ off =>
    match mstLine s m, m.binds.getD 0 none with
    | .open_ l, some b =>
      let (v, fl) := mstRow x r.toNat off b.desc m.row
      rowDone (updLine s core l.id fun l => { l with rows := putRow b.desc l.rows m.row v }) (dTR b.desc) r.toNat fl
    | _, _ => updM (trRec s m.ctx 8 m.pc.toNat (Instr_op m.op)) core m.id fun m => { m with done := true }
  | .mscale f _ _ =>
    let (x, fl) := mscaleRow x f.toNat (bitsAt (m.vals.headD 0).toNat 0 32) m.rm m.row
    rowDone (setCtx s m.ctx x) 128 f.toNat fl
  | .mcvt d _ toF32 _ =>
    let (x, fl) := mcvtRow x m d.toNat toF32 m.row
    rowDone (setCtx s m.ctx x) 128 d.toNat fl
  | .mma .. | .mmaq .. | .mmag .. | .mman .. =>
    match prodOf m with
    | none => s
    | some p =>
      match p.ba, p.bw with
      | some a, some w =>
        let (x, fl) := prodStep x p a.desc w.desc (line 0) (line 1) m.kstep
        let s := setCtx s m.ctx x
        let last := m.kstep + 1 ≥ prodSteps p
        let iters := match m.nest with | some d => nIters d | none => 1
        let m' : MCmd := { m with
          started := true, flags := m.flags ||| fl
          kstep := if last then 0 else m.kstep + 1
          iter := if last && m.nest.isSome then m.iter + 1 else m.iter
          done := last && m.iter + 1 ≥ iters }
        updM s core m.id fun _ => { m' with acc := if m'.done then p.acc.toNat else ((prodOf m').map fun p => p.acc.toNat).getD p.acc.toNat }
      | _, _ => s
  | _ => s

/-! ## The engine (R340, R414, R415) -/

/-- The current slot of the matrix slot table (R414). -/
def curSlot (s : State) : Nat := bitsAt s.clk 10 6
/-- The owning class that the table gives a slot. -/
def slotOwner (s : State) (n : Nat) : Option Nat :=
  let e := bitsAt (devGet s (0xF00001340008 + 8 * (n / 8))).toNat (8 * (n % 8)) 8
  if e.testBit 7 then some (e % 16) else none

/-- `MATRIX_SLOT_BOUNDARY` (R414). -/
def slotStep (s : State) (core : Nat) : State := setEng s core fun e => { e with slot := curSlot s, own := slotOwner s (curSlot s) }
def execMatrixSlotBoundary (s : State) : Host.Outcome State Fault Refusal :=
  match s.ev with
  | some (.matrixSlotBoundary core) => .next (slotStep s core)
  | _ => .next s

/-- A context whose task is being saved: its M commands have the array first (R427). -/
def savingCtx (s : State) (c : Nat) : Bool := s.car.saving.any fun v => v.ctx = c

def mClass (s : State) (e : Engine) (m : MCmd) : Option Nat := if savingCtx s m.ctx && e.own.isSome then e.own else some (taskOf s m.ctx).mclass
/-- The effective priority of a command (R415, R427). -/
def mPrio (s : State) (m : MCmd) : Nat := if savingCtx s m.ctx then 7 else min 7 ((taskOf s m.ctx).prio + m.w / 65536)
/-- A command that may run (R415): its edges cleared, not parked, no fault pending. -/
def mEligible (s : State) (core : Nat) (m : MCmd) : Bool :=
  m.deps.isEmpty && !m.parked && !m.done && !faulted s (.mcmd core m.id)

/-- The best of some commands: the highest priority, then the earliest issue. -/
def mBest (s : State) : List MCmd → Option MCmd
  | l => l.foldl (fun b m => match b with
    | none => some m
    | some x => if mPrio s x < mPrio s m then some m else some x) none

/-- MATRIX_ARBITRATION (R415): the command that has the array after a boundary. -/
def arbitrate (s : State) (core : Nat) : Option MCmd :=
  let e := engOf s core
  let ok := e.m.filter (mEligible s core)
  let own := ok.filter fun m => e.own.isSome && mClass s e m == e.own
  let pool := if own.isEmpty then ok else own
  let best := mBest s pool
  match e.run.bind fun id => ok.find? fun m => m.id = id with
  | none => best
  | some r =>
    match best with
    | some b =>
      let inPool := pool.any fun m => m.id = r.id
      if (inPool && mPrio s b > mPrio s r) || (e.own.isSome && mClass s e r != e.own && mClass s e b == e.own) then some b else some r
    | none => some r

/-- `MATRIX_KSTEP` (R329, R338 to R340, R415): every command that may acquires what its next step needs; the engine
chooses; the chosen one advances by one k-step or row. -/
def kstep (s : State) (core : Nat) : State :=
  if (engOf s core).slot != curSlot s then s
  else
    let s := (engOf s core).m.foldl (fun s m =>
      match mOf s core m.id with
      | some m => if (m.deps.isEmpty || nestFree s m) && !m.done && !faulted s (.mcmd core m.id) then mPrepare s core m else s
      | none => s) s
    match arbitrate s core with
    | none => setEng s core fun e => { e with run := none }
    | some m =>
      let s := setEng s core fun e => { e with
        run := some m.id
        m := e.m.map fun x => if some x.id = e.run && x.id != m.id then { x with w := 0 } else x }
      let s := mStep s core m
      match mOf s core m.id with
      | some n => if n.done || n.iter != m.iter then mNarrow s core m.id else s
      | none => s
def execMatrixKstep (s : State) : Host.Outcome State Fault Refusal :=
  match s.ev with
  | some (.matrixKstep core) => .next (kstep s core)
  | _ => .next s

/-- The tags after a command (R318, R323, R325, R335, R336). -/
def mTags (x : Ctx) (m : MCmd) : Ctx :=
  let put (x : Ctx) (f : AFmt) (a : Nat) : Ctx := (AFmt_accs f a).foldl (fun x b => setTag x b (AFmt_tag f)) x
  match m.op with
  | .mzero f => setTag x f.toNat .zero
  | .mld r _ _ | .maddt r _ _ =>
    match (m.binds.getD 0 none).bind fun b => ldFmt (dTfmt b.desc) with
    | some f => put x f r.toNat
    | none => x
  | .mst .. => x
  | .mscale f _ _ => match (accOf x f.toNat).tag with | .i32 => setTag x f.toNat .f32 | .f64 => put x .f64 f.toNat | _ => x
  | .mcvt d a toF32 _ =>
    if toF32 then
      let pair := AFmt_accs .f64 a.toNat
      if pair.contains d.toNat then
        let o := if d.getLsbD 0 then d.toNat - 1 else d.toNat + 1
        setAcc (setAcc x o fun _ => { busy := true }) d.toNat fun c => { c with tag := .f32 }
      else setTag x d.toNat .f32
    else put x .f64 d.toNat
  | .mma .. | .mmaq .. | .mmag .. => match prodOf m with | some p => put x (prodAFmt p) p.acc.toNat | none => x
  | .mman .. => match m.nest, prodOf { m with iter := 0 } with
    | some d, some p => (nestFault.nestAccs d m).foldl (fun x z => put x (prodAFmt p) z.toNat) x
    | _, _ => x
  | _ => x

/-- `MATRIX_RETIRE` (R318, R320, R86): flags, tags, busy bits, pins and edges. -/
def retire (s : State) (core id : Nat) : State :=
  match mOf s core id with
  | some m =>
    if !m.done then s
    else
      let s := mUnpin (flagsTo s m.ctx m.tid m.flags) core m
      let s := updCtx s m.ctx fun x => m.accs.foldl (fun x a => setAcc x a fun c => { c with busy := false }) (mTags x m)
      let s := endTrack s core m.ctx id
      setEng s core fun e => { e with m := e.m.filter fun m => m.id != id, run := if e.run = some id then none else e.run }
  | none => s
def execMatrixRetire (s : State) : Host.Outcome State Fault Refusal :=
  match s.ev with
  | some (.matrixRetire core id) => .next (retire s core id)
  | _ => .next s

end Sys2Proof.Machine
end

