-- ==== Sys2Proof/Machine/Task.lean ====
section
/-! DEFINITION. The ends of tasks: completion entries and Caravan's faults (R401, R488), a task's end (R221), its stop by
reclamation or by its failing queue (R206, R402), lost contexts (R437), and a queue that goes off (R402). -/
namespace Sys2Proof.Machine

/-! ## Caravan's faults and completion entries (R401, R488) -/

/-- A fault of an access that Caravan makes for a queue (R488): it joins the leader die's table, and the access is held. -/
def carFault (s : State) (q code va ak : Nat) : State :=
  let w := causeWord true ak code
  let s := setQ s q fun x => { x with parked := true }
  raiseFault s (leader s)
    { key := .page (qAsid s q) (va / 65536) (classOf code), who := .caravan q, queue := q, core := none
      words := [w, BitVec.ofNat 64 (5 * 2 ^ 28), 0, BitVec.ofNat 64 va, 0, ownerWord (qAsid s q) 1023 q] }

/-- How far the first completion entry of a queue is written. -/
def setPhase (s : State) (q n : Nat) : State :=
  setQ s q fun x => { x with completions := match x.completions with | c :: l => { c with phase := n } :: l | [] => [] }

/-- Word 1 of a completion entry (R401); true when it is written. -/
def completionEnd (s : State) (q : Nat) (va : Word) (c : Completion) : Bool × State :=
  match carWrite s (leader s) (qAsid s q) none (va + 8) (leBytes (2 ^ 63 + c.status * 2 ^ 32 + c.i % 2 ^ 32) 8) with
  | (.fault code a, s) => (false, carFault s q code a 2)
  | (.park, s) => (false, s)
  | (.ok _, s) => (true, s)

/-- The agent that asks for the flush of a queue's completion entry. -/
def complOwner (q : Nat) : Nat := 4100 + q

/-- The two words of a completion entry, word 0 first (R401), as far as they can be written; true when both are. Word 1 follows under a
system-scope release: where word 0 went to another package, a flushing read there comes between them (R143, R183). -/
def completionOut (s : State) (q : Nat) (c : Completion) : Bool × State :=
  let va : Word := (devGet s (qReg q 0x10) &&& 0x00FFFFFFFFFFFFF0) + BitVec.ofNat 64 (16 * (c.i % 2 ^ qLsz s q))
  match c.phase with
  | 0 =>
    match carWrite s (leader s) (qAsid s q) none va (leBytes c.value.toNat 8) with
    | (.fault code a, s) => (false, carFault s q code a 2)
    | (.park, s) => (false, s)
    | (.ok _, s) =>
      match translate s (.caravan (leader s)) (qAsid s q) va .write with
      | (.ok pkg _ _, s) =>
        if pkg = s.pkg then completionEnd (setPhase s q 2) q va c
        else
          let (n, s) := gwSend s (leader s) { ty := 5, dst := pkg, src := s.pkg, sctx := 1023 }
          let ask : Remote := { pkg := pkg, addr := 0, len := 0, kind := 5, eseq := n }
          (false, setPhase { s with fab := { s.fab with asks := s.fab.asks ++ [(complOwner q, ask)] } } q 1)
      | (_, s) => completionEnd (setPhase s q 2) q va c
  | 1 =>
    if s.fab.asks.any fun a => a.1 = complOwner q && a.2.reply.isSome then completionEnd (setPhase (eDone s (complOwner q)) q 2) q va c
    else (false, s)
  | 2 => completionEnd s q va c
  | _ => (false, s)

/-- The completion entries that a queue still holds are written, in order, as far as they can be; the queue's reference to a task's
future goes once its entry is written (R203). -/
def flushCompletions (s : State) (q : Nat) : Nat → State
  | 0 => s
  | n + 1 =>
    match (qst s q).completions with
    | [] => s
    | c :: rest =>
      match completionOut s q c with
      | (true, s) =>
        let s := setQ s q fun x => { x with completions := rest, parked := false }
        flushCompletions (match c.fut with | some h => dropHeld s h | none => s) q n
      | (false, s) => s

/-- A root task's completion entry (R401). -/
def complete (s : State) (q : Nat) (c : Completion) : State :=
  let s := setQ s q fun x => { x with completions := x.completions ++ [c] }
  if (qst s q).completions.length = 1 then flushCompletions s q 1 else s

/-- The entries held while a queue rolled back are written, where the rollback fails, or forgotten (R402). -/
def heldCompletions (s : State) (q : Nat) (write : Bool) : State :=
  let go (l : List Completion) : List Completion :=
    if write then l.map (fun c => if c.phase = 3 then { c with phase := 0 } else c) else l.filter fun c => c.phase != 3
  let s := setQ s q fun x => { x with completions := go x.completions }
  flushCompletions s q (qst s q).completions.length

/-! ## A queue without tasks (R402) -/

/-- A queue has a task, an index of a range not handed out, or a completion entry to write. -/
def queueBusy (s : State) (q : Nat) : Bool :=
  ((allTasks s).any fun t => t.queue = q) || (s.car.range.any fun (_, r) => r.task.queue = q) || !(qst s q).completions.isEmpty

/-- The actions of a queue that goes off: its sync variables and futures are freed. -/
def queueOff (s : State) (q : Nat) : State :=
  let a := qAsid s q
  let keep (e : Nat × List SvtE) : Nat × List SvtE := (e.1, e.2.filter fun v => v.asid != a)
  let s : State := { s with svt := s.svt.map keep }
  let mine (e : Nat × Future) : Bool := e.2.queue = q && e.2.st != .free
  let s := (s.car.fut.filter mine).foldl (fun s e => freeFut s e.1) s
  let s := setQ (dropFaults s q) q fun x =>
    { x with st := 0, interval := none, ckptReq := false, hostRec := none, parked := false, completions := [] }
  { movesEnd s q with undo := SMap.erase s.undo q, car := { s.car with ckpt := SMap.erase s.car.ckpt q } }

/-- A draining queue whose last task has ended goes off. -/
def queueSettle (s : State) (q : Nat) : State :=
  if (qst s q).st = 2 && !queueBusy s q then queueOff s q else s

/-! ## A context freed -/

/-- A context that no task holds; what other agents still owe it stays counted. -/
def freeContext (s : State) (c : Nat) : State :=
  let s := { s with running := s.running.filter fun r => r.2 != c
                    bsu := { s.bsu with grants := s.bsu.grants.filter fun g => g.1 != c
                                        queue := s.bsu.queue.map fun (k, l) => (k, l.filter fun r => r.owner != c) } }
  updCtx (svtLeave s s.pkg c) c fun x => { ({} : Ctx) with inval := x.inval, farOut := x.farOut, dests := x.dests }

/-- The pins of a context are released, and the lines it holds open are discarded (R84, R206, R221). -/
def dropTiles (s : State) (c : Nat) : State :=
  let s := (openLines s c).foldl (fun s l => discardOpen s (coreOf c) l) s
  (ctxOf s c).pins.foldl (fun s p => unpinLine s (coreOf c) p.1 p.2) s

/-- The opened lines and pins that a saved task's record holds are discarded. -/
def dropSavedTiles (s : State) (t : Task) (v : Saved) : State :=
  v.lines.foldl (fun s l => sendDiscard s l.home l.tile l.ver l.ctx l.id) { s with car := { s.car with
    ready := s.car.ready.map fun r => if r.task.tid = t.tid then { r with saved := r.saved.map fun v => { v with lines := [] } } else r } }

/-! ## The end of a task (R221) -/

/-- A handler's, a root task's or another task's result (R33, R202, R203, R401). -/
def publish (s : State) (t : Task) (v : Word) : State :=
  let s := futEnd s t.own v
  match t.handler, t.root with
  | some (die, e), _ => dropHeld (applyResult s (die * 32 + e) v) t.own
  | none, some i => complete s t.queue { i := i, value := v, status := 0, fut := some t.own }
  | none, none => s

/-- TASK_END (R221): the result is published after the task's release, the references are dropped, and the context is freed. -/
def endTask (s : State) (c : Nat) (v : Word) : State :=
  let t := taskOf s c
  let v := if t.rkind then v &&& 0xFFFF else v
  let s := dropTiles (resvCancel s c) c
  let s := freeContext s c
  let s := publish s t v
  queueSettle (dropChildren s t.tid) t.queue

/-- Engine commands of a context's task that have not completed (R221). -/
def commandsLeft (s : State) (c : Nat) : Bool :=
  let e := engOf s (coreOf c)
  let t := (taskOf s c).tid
  (e.m.any fun m => m.tid = t) || (e.x.any fun k => k.tid = t) || e.sq.any fun k => k.tid = t

/-- A task whose `tend` has issued goes on to its end (R221): its results land, its commands complete, and its release is performed: at
package scope, and at system scope where its result goes to a completion entry (R148, R401). -/
def endM (v : Word) : M Unit := do
  modify fun s => drainAll (sampleAll s s.cur) s.cur
  let x ← getC
  let s ← get
  blockIf (x.flights.any fun f => !Flight_here f || f.poison.isSome)
  blockIf (commandsLeft s s.cur || (s.mboxW.any fun w => w.ctx = s.cur))
  blockIf (s.pending.any fun e => e.lane == some (100000 + s.cur))
  modC landAll
  release (if (taskOf s s.cur).root.isSome then 6 else 4)
  modify fun s => endTask s s.cur v

/-! ## A task stopped (R206, R402) -/

/-- The commands of a task leave the engines: M commands at their boundary, copies at theirs, and operations not sent. One
operation whose effect is made leaves too: its result goes to no one. -/
def dropCommands (s : State) (tid : Nat) : State :=
  (s.eng).foldl (fun s (core, e) =>
    let s := (e.m.filter fun m => m.tid = tid).foldl (fun s m => endTrack (mUnpin s core m) core m.ctx m.id) s
    let s := (e.x.filter fun k => k.tid = tid).foldl (fun s k => endTrack (eDone s (ownerOf k.id)) core k.ctx k.id) s
    setEng s core fun e => { e with
      m := e.m.filter fun m => m.tid != tid
      x := e.x.filter fun k => k.tid != tid
      sq := e.sq.filter fun k => k.tid != tid
      run := e.run.bind fun id => if e.m.any fun m => m.id = id && m.tid = tid then none else some id }) s

/-- A task leaves its context, or its list. -/
def removeTask (s : State) (tid : Nat) : State :=
  let s := dropCommands s tid
  match ctxOfTid s tid with
  | some c =>
    let s := dropTiles (resvCancel s c) c
    let s := freeContext s c
    { s with car := { s.car with saving := s.car.saving.filter fun v => v.ctx != c
                                 restoring := s.car.restoring.filter fun r => r.1 != c } }
  | none =>
    let s := match savedOf s tid with
      | some r => match r.saved with | some v => dropSavedTiles s r.task v | none => s
      | none => s
    { s with car := { s.car with ready := s.car.ready.filter fun r => r.task.tid != tid
                                 claim := s.car.claim.filter fun a => a.1 != tid } }

/-- The task of a number. -/
def taskByTid (s : State) (tid : Nat) : Option Task := (allTasks s).find? fun t => t.tid = tid

/-- A task stopped without a result: `status` is the completion status of a root task (R401), whose entry is held while its queue
rolls back (R402). -/
def stopTask (s : State) (t : Task) (status : Option Nat) : State :=
  let s := removeTask s t.tid
  let s := dropChildren (futStop s t.own) t.tid
  let s := match t.root, status with
    | some i, some st =>
      let c : Completion := { i := i, value := 0, status := st, fut := some t.own }
      if (qst s t.queue).st = 3 then setQ s t.queue fun x => { x with completions := x.completions ++ [{ c with phase := 3 }] }
      else complete s t.queue c
    | _, _ => if t.handler.isSome then dropHeld s t.own else s
  queueSettle s t.queue

/-- `RECLAMATION_STOP` (R205, R206, R402): at the bundle boundary that the request reaches, a task of a failing queue
stops; a pinned task runs on as an orphan, one whose `tend` has issued ends; any other task is reclaimed. -/
def reclaimStep (s : State) (tid : Nat) : State :=
  match taskByTid s tid with
  | none => s
  | some t =>
    let q := qst s t.queue
    if q.st = 3 || q.st = 4 then stopTask s t (some 2)
    else match getFut s t.own with
    | some f =>
      if f.st != .reclaiming || ((ctxOfTid s tid).any fun c => (ctxOf s c).ending.isSome) then s
      else if t.pinned || !t.rev then
        if SMap.has s.car.range (hKey t.own) || f.left > 1 then s
        else setFut s (hKey t.own) { f with st := .orphan }
      else stopTask s t none
    | none => s
def execReclamationStop (s : State) : Host.Outcome State Fault Refusal :=
  match s.ev with
  | some (.reclamationStop tid) => .next (reclaimStep s tid)
  | _ => .next s

/-- LOST_CONTEXT (R437): the task's state is gone and its queue fails. -/
def loseTask (s : State) (tid : Nat) : State :=
  match taskByTid s tid with
  | none => s
  | some t =>
    stopTask (queueFail s t.queue) t (some 3)
def loseContext (s : State) (c : Nat) : State :=
  match (ctxOf s c).task with
  | some t => loseTask s t.tid
  | none => s

end Sys2Proof.Machine
end

