-- ==== Sys2Proof/Machine/EvMmu.lean ====
section
/-! DEFINITION. Steps of execution, translation and paging: results that land early (R213), the context switch (R208),
instruction fetch (R272), walks (R18), page invalidation (R22, R23), the access-bit sweep (R27 to R30) and migrations (R35,
R36). -/
namespace Sys2Proof.Machine

/-! ## Execution -/

/-- Result `idx` of a context lands before its bound (R213). -/
def landAt (x : Ctx) (idx : Nat) : Ctx :=
  match x.flights[idx]? with
  | some f => if !mayLand f then x else { landOne x f with flights := x.flights.eraseIdx idx }
  | none => x

/-- `RESULT_LANDS` (R213). -/
def execResultLands (s : State) : Host.Outcome State Fault Refusal :=
  match s.ev with
  | some (.resultLands c idx) => .next (updCtx s c fun x => landAt x idx)
  | _ => .next s

/-- The results at hand of a context that its core leaves land first (R213, R294); loads stay in flight. -/
def landResults (x : Ctx) : Ctx :=
  let own (f : Flight) : Bool := f.parts.isEmpty && mayLand f
  { (x.flights.filter own).foldl landOne x with flights := x.flights.filter fun f => !own f }
/-- A core issues from context c from now on (R208). -/
def switchTo (s : State) (c : Nat) : State :=
  match SMap.get? s.running (coreOf c) with
  | some r => if r = c then s else updCtx { s with running := SMap.set s.running (coreOf c) c } r landResults
  | none => { s with running := SMap.set s.running (coreOf c) c }

/-- `CONTEXT_SWITCH` (R207, R208): the core issues from another of its contexts. -/
def execContextSwitch (s : State) : Host.Outcome State Fault Refusal :=
  match s.ev with
  | some (.contextSwitch c) => .next (switchTo s c)
  | _ => .next s

/-- `INSTRUCTION_FETCH` (R272, R423). -/
def execInstructionFetch (s : State) : Host.Outcome State Fault Refusal :=
  match s.ev with
  | some (.instructionFetch c) => .next (fetchBlock s c)
  | _ => .next s

/-- `TLB_MISS_WALK` (R18, R21): the entry enters the agent's translation cache. -/
def execTlbMissWalk (s : State) : Host.Outcome State Fault Refusal :=
  match s.ev with
  | some (.tlbMissWalk ag asid va acc) => .next (if bitsAt va.toNat 56 8 != 0 then s else (walkFor s ag asid va.toNat acc).2)
  | _ => .next s

/-! ## Page invalidation (R22, R23) -/

/-- A packet on behalf of a context may belong to an address space. -/
def sentFor (s : State) (asid : Nat) (k : Packet) : Bool :=
  match (ctxOf s k.sctx).task with | some t => t.asid = asid | none => true
/-- Accesses of an address space that are translated and not performed (R22, R35): of its tasks, loads, stores, writes of mailboxes
and of device registers; posted writes and atomics that the other package has not acknowledged; and every request of an engine or a
fill to another package. -/
def accessesOut (s : State) (asid : Nat) : Bool :=
  (s.ctx.any fun (c, x) => (match x.task with | some t => t.asid = asid | none => false) &&
    (!x.stq.isEmpty || (x.flights.any fun f => !Flight_here f) || (s.mboxW.any fun w => w.ctx = c)
      || (s.pending.any fun e => e.lane == some (100000 + c)) || x.remote.any fun r => r.kind != 5 && r.reply.isNone))
  || (s.fab.asks.any fun a => a.2.kind != 5 && a.2.reply.isNone)
  || s.fab.gw.any fun (_, g) => (g.buf.map E2E.pkt ++ g.wait).any fun k => (k.ty = 1 || k.ty = 2) && sentFor s asid k

/-- Invalidation i of the queue (R22): every cache drops its entries; once every access that they translated has been performed, the
accesses parked on the page are released, and the requester is told. -/
def invalDone (s : State) (i : Nat) : State :=
  match s.mmu.inval[i]? with
  | none => s
  | some v =>
    let s := dropXlat s v
    if accessesOut s v.asid then s
    else
      let s := unpark { s with mmu := { s.mmu with inval := s.mmu.inval.eraseIdx i } } v
      match v.by_ with
      | some c => updCtx s c fun x => { x with inval := x.inval - 1 }
      | none => s

/-- `PAGE_INVALIDATION_COMPLETE` (R22). -/
def execPageInvalidationComplete (s : State) : Host.Outcome State Fault Refusal :=
  match s.ev with
  | some (.pageInvalidationComplete i) => .next (invalDone s i)
  | _ => .next s

/-- A write of `mminvc` (R23): ignored while busy, and from an agent that R473 does not name. -/
def invalStart (s : State) (w : Word) (by_ : Writer) : State :=
  if (s.mmu.inval.any Inval.mminvc) || !mayWrite 0xF00001520028 by_ then s
  else
    let s := devSet s 0xF00001520028 (w &&& 0x200000000000FFFF)
    if !w.getLsbD 62 then s
    else
      let va := bitsAt (devGet s 0xF00001520020).toNat 0 56
      { s with mmu := { s.mmu with inval := s.mmu.inval ++
        [{ asid := bitsAt w.toNat 0 16, va := if w.getLsbD 61 then none else some va, mminvc := true }] } }

/-- A write of `mminvc` with all = 0 (R23). -/
def execMminvcPage (s : State) : Host.Outcome State Fault Refusal :=
  match s.ev with
  | some (.mminvcPage w b) => .next (invalStart s w b)
  | _ => .next s
/-- A write of `mminvc` with all = 1 (R23). -/
def execMminvcAll (s : State) : Host.Outcome State Fault Refusal :=
  match s.ev with
  | some (.mminvcAll w b) => .next (invalStart s w b)
  | _ => .next s

/-! ## The access-bit sweep (R27 to R30) -/

/-- The sweep period (R474). -/
def sweepPeriod (s : State) : Nat := 2 ^ min 34 (max 24 (bitsAt (devGet s 0xF00001520008).toNat 0 6))

/-- Export window n: enabled, writable, first and last address (R38, R39). -/
def exportWin (s : State) (n : Nat) : Bool × Bool × Nat × Nat :=
  let b := (devGet s (0xF00001520800 + 0x10 * n)).toNat
  let l := (devGet s (0xF00001520808 + 0x10 * n)).toNat
  (b.testBit 0, b.testBit 1, bitsAt b 16 32 * 65536, bitsAt l 16 32 * 65536 + 65535)

/-- A frame that other packages or the host reach. -/
def frameShared (s : State) (pa : Nat) : Bool :=
  ((List.range 16).any fun n => let (en, _, lo, hi) := exportWin s n; en && lo ≤ pa && pa ≤ hi)
    || s.hdm.any fun (_, h) => h.pa ≤ pa && pa < h.pa + h.size

/-- A page that the hardware may move (R28). -/
def movable (s : State) (e : Word) : Bool :=
  let pa := pteFrame e * 65536
  (pteKind e = 3 || ptePkg e = s.pkg) && (isHbm pa || isFar pa) && pteCp e != 3 && pteMh e != 2 && !frameShared s pa

/-- The die whose migration slot a page takes. -/
def migDie (s : State) (pa : Nat) : Nat := svtDie s pa

/-- A free slot of a die's compressed store. -/
def slotFree (s : State) (d : Nat) : Option Nat :=
  let base := bitsAt (devGet s (dieReg d 0x38)).toNat 3 45 * 8
  (List.range (reg32 s (dieReg d 0x30))).find? fun i => bitsAt (Memory.read s.hbm.mem (base + i / 8)).toNat (i % 8) 1 = 1

/-- A slot taken (R476). -/
def slotTake (s : State) (d i : Nat) : State :=
  let s := slotMark s d i false
  if reg32 s (dieReg d 0x40) < reg32 s (dieReg d 0x48) then irq s 7 else s

/-- A migration begins (R35): the entry is swapped to kind 7. -/
def migClaim (s : State) (die asid va pte : Nat) (e : Word) (compress : Bool) (target : Nat) : State :=
  let s := ptePut s (logQ s asid) pte (pteSetKind e 7)
  { s with mmu := { s.mmu with migs := s.mmu.migs ++
    [{ die := die, asid := asid, va := va, pte := pte, old := e, compress := compress, target := target, phase := 1 }] } }

/-- A leaf visited by the scanner (R27, R29). A page that is to move while its die has no free migration slot is left as it is: the
next sweep finds it again (log 32). -/
def sweepLeaf (s : State) (asid va pte : Nat) (e : Word) : State :=
  let pa := pteFrame e * 65536
  let die := migDie s pa
  let room := (s.mmu.migs.filter fun m => m.die = die).length < 16
  let clear (s : State) : State := ptePut s none pte (e &&& ~~~0x100#64)
  if pteKind e = 2 && pteA e then clear s
  else if pteKind e = 2 then
    if movable s e && pteMh e != 1 && isHbm pa && room then
      let (k, s) := draw s
      match slotFree s die with
      | some i => if Config.fits k then migClaim (slotTake s die i) die asid va pte e true i else s
      | none => s
    else s
  else if pteKind e = 3 && pteA e then
    if movable s e && pteMh e != 3 then
      if reg32 s (dieReg die 0x60) ≥ reg32 s (dieReg die 0x58) then irq (clear s) 7
      else if room then migClaim s die asid va pte e false 0 else s
    else clear s
  else s

/-- The entries of a table and of the tables below it. `va`: the first VA that the table maps. -/
def sweepTable (s : State) (asid : Nat) : Nat → Nat → Nat → State
  | 0, t, va => (List.range 1024).foldl (fun s i =>
      let e : Word := BitVec.ofNat 64 (ofLe (Memory.bytes s.hbm.mem (t + 8 * i) 8))
      if pteKind e = 2 || pteKind e = 3 then sweepLeaf s asid (va + i * 65536) (t + 8 * i) e else s) s
  | lvl + 1, t, va => (List.range 1024).foldl (fun s i =>
      let e := ofLe (Memory.bytes s.hbm.mem (t + 8 * i) 8)
      if e % 8 = 1 then sweepTable s asid lvl (bitsAt e 13 35 * 8192) (va + i * pageSize (lvl + 1)) else s) s

/-- `ACCESS_BIT_SWEEP` (R27): every valid ASID with scan = 1. A new period begins with the value of `mmsweep` now. -/
def sweep (s : State) : State :=
  if s.clk < s.mmu.sweepAt then s
  else
    let base := bitsAt (devGet s 0xF00001520000).toNat 19 29 * 2 ^ 19
    let s := (List.range 65536).foldl (fun s a =>
      let e := ofLe (Memory.bytes s.hbm.mem (base + 8 * a) 8)
      if e % 4 = 3 then sweepTable s a 3 (bitsAt e 13 35 * 8192) 0 else s) s
    { s with mmu := { s.mmu with sweepAt := s.clk + sweepPeriod s } }
def execAccessBitSweep (s : State) : Host.Outcome State Fault Refusal :=
  match s.ev with
  | some .accessBitSweep => .next (sweep s)
  | _ => .next s

/-! ## Migrations (R35, R36) -/

def migOf (s : State) (pte : Nat) : Option Mig := s.mmu.migs.find? fun m => m.pte = pte
def updMig (s : State) (pte : Nat) (f : Mig → Mig) : State :=
  { s with mmu := { s.mmu with migs := s.mmu.migs.map fun m => if m.pte = pte then f m else m } }
def dropMig (s : State) (pte : Nat) : State :=
  { s with mmu := { s.mmu with migs := s.mmu.migs.filter fun m => m.pte != pte } }

/-- `MIGRATION_SHOOT_DOWN_DONE` (R35): point M. -/
def migShot (s : State) (pte : Nat) : State :=
  match migOf s pte with
  | some m =>
    if m.phase != 1 then s
    else updMig (dropXlat s { asid := m.asid, va := some m.va }) pte fun m => { m with phase := 2, since := s.clk }
  | none => s
def execMigrationShootDownDone (s : State) : Host.Outcome State Fault Refusal :=
  match s.ev with
  | some (.migrationShootDownDone pte) => .next (migShot s pte)
  | _ => .next s

/-- Every cached line of a frame written back and dropped. -/
def drainFrame (s : State) (pa : Nat) : State :=
  let mine (ln : Nat) : Bool := ln * 128 / 65536 = pa / 65536
  let s := s.l1d.foldl (fun s (core, c) => (c.lines.filter fun l => mine l.1).foldl (fun s (ln, _) =>
    setL1 (l1WriteBack s core ln) core ln none) s) s
  s.clc.foldl (fun s (cl, c) => (c.lines.filter fun l => mine l.1).foldl (fun s (ln, _) =>
    setClc (clcWriteBack s cl ln) cl ln none) s) s

/-- `MIGRATION_DRAIN_DONE` (R35, R121): every access translated before M is performed; lines and reservations of the old frame are
gone. -/
def migDrained (s : State) (pte : Nat) : State :=
  match migOf s pte with
  | some m =>
    if m.phase != 2 || accessesOut s m.asid then s
    else
      let pa := pteFrame m.old * 65536
      let s := drainFrame s pa
      let keep (r : Resv) : Bool := r.sector * 32 / 65536 != pa / 65536
      let s := { s with hbm := { s.hbm with ch := s.hbm.ch.map fun (n, c) => (n, { c with resv := c.resv.filter keep }) } }
      updMig s pte fun m => { m with phase := 3 }
  | none => s
def execMigrationDrainDone (s : State) : Host.Outcome State Fault Refusal :=
  match s.ev with
  | some (.migrationDrainDone pte) => .next (migDrained s pte)
  | _ => .next s

/-- What a migration that is given up had taken for its new page is free again. -/
def migFree (s : State) (m : Mig) : State := if m.compress then slotMark s m.die m.target true else s

/-- `MIGRATION_ABANDON` (R36): the entry gets its old value back, unless software has written it; the parked accesses are released. -/
def migGiveUp (s : State) (m : Mig) : State :=
  let s := migFree (dropMig s m.pte) m
  unparkPte (if pteNow s m.pte = pteSetKind m.old 7 then ptePut s (logQ s m.asid) m.pte m.old else s) m.pte
def migLate (s : State) (pte : Nat) : State :=
  match migOf s pte with
  | some m => if m.phase = 2 && m.since + 2 ^ 20 ≤ s.clk then migGiveUp s m else s
  | none => s
def execMigrationAbandon (s : State) : Host.Outcome State Fault Refusal :=
  match s.ev with
  | some (.migrationAbandon pte) => .next (migLate s pte)
  | _ => .next s

/-- The record of a frame written into a slot (R112, R113). -/
def compressTo (s : State) (frame slot : Nat) : State :=
  let pa := frame * 65536
  let rec1 : Record :=
    { mem := (regionMem s pa 65536).map fun c => (c.1 - pa, c.2)
      live := (List.range 16).filter fun i => SMap.has s.hbm.live (frame * 16 + i)
      poison := (List.range 2048).filter fun i => isPoison s (frame * 2048 + i)
      slot := [] }
  let (n, s) := draw s
  let s := hbmPut s none slot ((List.range 32768).map (Config.slotByte n))
  { s with mmu := { s.mmu with records := SMap.set s.mmu.records slot { rec1 with slot := regionMem s slot 32768 } } }

/-- The new entry of a moved page: a = 0, d unchanged (R35). -/
def movedPte (old : Word) (kind target : Nat) : Word :=
  pteSetKind ((old &&& ~~~0x3FFFFFFFFFFF8100#64) ||| BitVec.ofNat 64 target) kind

/-- The contents of a far frame copied into a frame of HBM, with its poison (R109). -/
def copyFar (s : State) (frame f : Nat) : State :=
  match farDecode s (frame * 65536) with
  | some h =>
    let s := hbmPut (zeroFrame s f) none (f * 65536) (farRead s h 65536)
    (List.range 2048).foldl (fun s i =>
      if (farPsnAt s h 65536).getD i false then hbmWriteSec s none (f * 2048 + i) (List.replicate 32 (some 0)) true else s) s
  | none => zeroFrame s f

/-- `MIGRATION_COPY_DONE` (R35, R36): the page is copied and the entry switched, and the parked accesses are released; a switch that
fails leaves the old frame to no pool. A promotion that finds every pool empty waits for a refill, and the management core is
interrupted once (R26). -/
def migCopied (s : State) (pte : Nat) : State :=
  match migOf s pte with
  | none => s
  | some m =>
    if m.phase != 3 then s
    else
      let same (s : State) : Bool := pteNow s pte = pteSetKind m.old 7
      let frame := pteFrame m.old
      if m.compress then
        let slot := bitsAt (devGet s (dieReg m.die 0x28)).toNat 15 33 * 32768 + 32768 * m.target
        if !same s then unparkPte (migFree (dropMig s pte) m) pte
        else
          let s := tookNew (dropMig (compressTo s frame slot) pte) m.asid ⟨m.die, 2, slot⟩
          let s := ptePut s (logQ s m.asid) pte (movedPte m.old 4 slot)
          giveBack (unparkPte s pte) m.asid ⟨m.die, 0, frame⟩
      else if !same s then unparkPte (dropMig s pte) pte
      else
        match poolAlloc s m.die with
        | none => if m.starved then s else irq (updMig s pte fun m => { m with starved := true }) 1
        | some (f, s) =>
          let s := tookNew (dropMig (copyFar s frame f) pte) m.asid ⟨m.die, 0, f⟩
          let s := ptePut s (logQ s m.asid) pte (movedPte m.old 2 (s.pkg * 2 ^ 48 + f * 65536))
          giveBack (unparkPte s pte) m.asid ⟨m.die, 1, frame⟩
def execMigrationCopyDone (s : State) : Host.Outcome State Fault Refusal :=
  match s.ev with
  | some (.migrationCopyDone pte) => .next (migCopied s pte)
  | _ => .next s

end Sys2Proof.Machine
end

