-- ==== Sys2Proof/Machine/Gateway.lean ====
section
/-! DEFINITION. A die's gateway as the destination of packets (R38, R179 to R184): the numbers a source package has had
performed, refusals, performance at the home channel, and answers; and the completion of requests of this package. -/
namespace Sys2Proof.Machine

/-! ## What a source package has had performed (R181) -/

def seenOf (s : State) (p : Nat) : Seen := SMap.getD s.fab.seen p {}
def setSeen (s : State) (p : Nat) (f : Seen → Seen) : State :=
  { s with fab := { s.fab with seen := SMap.set s.fab.seen p (f (seenOf s p)) } }
/-- How far a number lies above the point, modulo 2^32. -/
def above (x : Seen) (n : Nat) : Nat := (n + 2 ^ 32 - x.point) % 2 ^ 32
/-- The packet has been performed or refused. -/
def seenDone (x : Seen) (n : Nat) : Bool := above x n ≥ 2 ^ 31 || x.marks.contains n
/-- The point moves past the marked numbers. -/
def advance (x : Seen) : Nat → Seen
  | 0 => x
  | k + 1 =>
    if x.marks.contains x.point then
      advance { x with point := (x.point + 1) % 2 ^ 32, marks := x.marks.filter fun m => m != x.point } k
    else x
/-- A packet performed or refused. -/
def markDone (s : State) (p n : Nat) : State :=
  setSeen s p fun x =>
    if seenDone x n then x
    else
      let r : SMap Nat := SMap.erase x.rejects n
      advance { x with marks := x.marks ++ [n], rejects := r } (x.marks.length + 1)

/-! ## Answers -/

/-- An end-to-end acknowledgement, which names the packet in its address field (log 20). -/
def e2eAck (s : State) (die : Nat) (k : Packet) : State := gwReply s die { ty := 13, dst := k.src, src := s.pkg, sctx := k.sctx, addr := k.eseq }
/-- An end-to-end rejection; op 1: refused. -/
def e2eRej (s : State) (die : Nat) (k : Packet) (refused : Bool) : State :=
  gwReply s die { ty := 14, dst := k.src, src := s.pkg, sctx := k.sctx, op := if refused then 1 else 0, addr := k.eseq }
/-- An acknowledgement and a response, which names its request in the address field; op: 0 data, 1 poisoned, 2 refused, 3 a
fault's subcode (log 20). -/
def respond (s : State) (die : Nat) (k : Packet) (ty op : Nat) (data : List Byte) : State :=
  (gwSend (e2eAck s die k) die { ty := ty, dst := k.src, src := s.pkg, sctx := k.sctx, op := op, addr := k.eseq, len := data.length, data := data }).2

/-- An arriving access is admitted by an export window (R38, R39). A window laid over frames that are neither HBM nor decoded far memory
(mailboxes, device registers, holes) admits nothing there: the model's choice (log 94). -/
def exportOk (s : State) (pa : Nat) (wr : Bool) : Bool :=
  (isHbm pa || (isFar pa && (farDecode s pa).isSome)) &&
  (List.range 16).any fun n => let (en, w, lo, hi) := exportWin s n; en && (!wr || w) && lo ≤ pa && pa ≤ hi

/-- The answer of an atomic is kept until its response is acknowledged (R180). -/
def atomAnswer (s : State) (die : Nat) (k : Packet) (op : Nat) (data : List Byte) : State :=
  let s := setSeen s k.src fun x => { x with kept := SMap.set x.kept k.eseq (BitVec.ofNat 8 op :: data) }
  respond (markDone s k.src k.eseq) die k 4 op data

/-! ## The order of arriving accesses (R182) -/

/-- Two packets may touch a common sector: a list operation reaches any. -/
def pktMeets (a b : Packet) : Bool :=
  let any_ (k : Packet) : Bool := k.ty = 2 && 13 ≤ k.op && k.op ≤ 15
  any_ a || any_ b
    || (a.addr / 32 ≤ (b.addr + b.len - 1) / 32 && b.addr / 32 ≤ (a.addr + a.len - 1) / 32)
/-- Packets of a source that wait at the gateways. -/
def heldFrom (s : State) (p : Nat) : List Packet := (List.range 4).flatMap fun d => (gwOf s d).held.filter fun k => k.src = p
/-- Every lower-numbered packet of the source has arrived. -/
def lowerHere (s : State) (k : Packet) : Bool :=
  let x := seenOf s k.src
  let m := above x k.eseq
  ((x.marks.filter fun n => above x n < m).length + ((heldFrom s k.src).filter fun h => above x h.eseq < m).length) = m
/-- No lower-numbered packet that may touch a common sector is still to be performed. -/
def mayPerform (s : State) (k : Packet) : Bool :=
  let x := seenOf s k.src
  lowerHere s k && !(heldFrom s k.src).any fun h => above x h.eseq < above x k.eseq && pktMeets h k
/-- Every lower-numbered write has been performed: what a flushing read waits for (R183). -/
def writesDone (s : State) (k : Packet) : Bool :=
  let x := seenOf s k.src
  above x k.eseq ≥ 2 ^ 31
    || (lowerHere s k && !(heldFrom s k.src).any fun h => above x h.eseq < above x k.eseq && h.ty = 1)

/-! ## Performance at the home channel (R184) -/

/-- A read of another package. -/
def readFor (s : State) (die : Nat) (k : Packet) : State :=
  if !exportOk s k.addr false then respond s die k 3 2 (List.replicate k.len 0)
  else
    let (b, p, s) := homeRead s k.addr k.len
    respond s die k 3 (if p.any id then 1 else 0) b

/-- The bytes of a write under its byte mask. -/
def pktBytes (k : Packet) : List (Option Byte) :=
  (List.range k.data.length).map fun i => if i < 64 && !(k.bmask.getD i true) then none else some (k.data.getD i 0)

/-- A write of another package: performed, poisoned where it says so (R108, R176), or refused. -/
def writeFor (s : State) (die : Nat) (k : Packet) : State :=
  let s := markDone s k.src k.eseq
  if !exportOk s k.addr true then
    let s := setGw s die fun g => { g with refuse := bump g.refuse 1 }
    let s := setSeen s k.src fun x => { x with refused := x.refused ++ [k.eseq], bad := x.bad ++ [k.sctx] }
    e2eRej s die k true
  else
    let bs := pktBytes k
    let s := if k.psn then homePoison s [] none k.addr bs else homeWrite s [] none k.addr bs
    e2eAck s die k

/-- The n-th 8-byte word of a packet's data. -/
def pktW (k : Packet) (i : Nat) : Nat := ofLe ((k.data.drop (8 * i)).take 8)
def pktWidth (k : Packet) : AWidth := if k.len = 4 then .w32 else .w64
/-- Contexts of other packages, for reservations (R120). -/
def farCtx (k : Packet) : Nat := 768 + k.src * 1024 + k.sctx

/-- A held packet is gone. -/
def unhold (s : State) (k : Packet) : State :=
  let keep (h : Packet) : Bool := !(h.src = k.src && h.eseq = k.eseq)
  (List.range 4).foldl (fun s d => if (gwOf s d).held.any (fun h => !keep h) then setGw s d fun g => { g with held := g.held.filter keep } else s) s

/-- A word as an atomic's answer; none: the sector is poisoned, and the operation was not performed. -/
def wordAnswer (s : State) (die : Nat) (k : Packet) (r : Option Nat) (fl : Fl) : State :=
  match r with
  | some v => atomAnswer s die k 0 (leBytes v k.len ++ [fl.setWidth 8])
  | none => atomAnswer s die k 1 (List.replicate (k.len + 1) 0)

/-- A packet goes on waiting at its gateway. -/
def holdPkt (s : State) (die : Nat) (k : Packet) : State := setGw s die fun g => { g with held := g.held ++ [k] }

/-- On whose behalf a ROU here performs a list operation of another package: the requester's address space (R21). -/
def listWho (die : Nat) (k : Packet) : RouWho :=
  { w := { ag := .rou (chanOf k.addr), core := 48 * die, ctx := 1023, asid := pktW k 0, queue := 0
           owner := 2 ^ 40 + k.src * 2 ^ 32 + k.eseq }, own := false }

/-- `rcas4`, `renq` and `rdeq` of another package (R116, R117). One that must wait, for the header's sector, a link word of another
package or a migrating page, is held. -/
def listFor (s : State) (die : Nat) (k : Packet) : State :=
  if k.op = 13 then
    let n := k.len / 8
    let w (o : Nat) := (List.range n).map fun i => pktW k (o + i)
    let pas := (w 0).map fun a => k.addr / 4096 * 4096 + a % 4096
    if pas.any fun a => sectorHeld s a (listWho die k).w.owner then holdPkt s die k
    else
      let (r, s) := rouCas4 s none pas (w n) (w (2 * n))
      match r with
      | some l => atomAnswer s die k 0 ((List.range 5).flatMap fun i => leBytes (l.getD i 0) 8)
      | none => atomAnswer s die k 1 (List.replicate 40 0)
  else
    let r := listWho die k
    match eRun (if k.op = 14 then rouEnq r none k.addr k.addr (pktW k 1) else rouDeq r none k.addr k.addr) s with
    | (.ok v, s) => atomAnswer (eDone s r.w.owner) die k 0 (leBytes v 8)
    | (.error .wait, s) => holdPkt s die k
    | (.error (.fault sub _ _), s) =>
      if sub = 24 then atomAnswer (eDone s r.w.owner) die k 1 (List.replicate 40 0)
      else atomAnswer (eDone s r.w.owner) die k 3 [BitVec.ofNat 8 sub]

/-! ### Sync variables of other packages' contexts (R144, R146, R147, log 20) -/

/-- A registration of a sector at its SVT (R144): 0 registered, 1 registered already, 3 the table is full. -/
def svtRegister (s : State) (die sec asid : Nat) : Nat × State :=
  if (svtOf s die sec).isSome then (1, s)
  else if (SMap.getD s.svt die []).length ≥ 4096 then (3, s)
  else (0, { s with svt := SMap.modify s.svt die [] fun l => l ++ [{ sector := sec, asid := asid }] })
/-- The release of an entry: 0 released, 4 no entry. -/
def svtRelease (s : State) (die sec : Nat) : Nat × State :=
  if (svtOf s die sec).isSome then (0, { s with svt := SMap.modify s.svt die [] fun l => l.filter fun e => e.sector != sec }) else (4, s)

/-- The cores of the unit of a scope that contains a core (R147). -/
def unitCores (scope core : Nat) : List Nat :=
  if scope ≤ 1 then [core] else if scope = 2 then coresOfCl (core / 8) else if scope = 3 then coresOfDie (core / 48)
  else List.range 192
/-- The retroactive release of a widening to scope n, by every core in the unit of the old scope that contains the anchor (R147). -/
def retroRelease (s : State) (old ctx n : Nat) : State := (unitCores old (ctx / 4)).foldl (fun s c => releaseAt s c n) s

/-- A request of another package about a sync variable whose sector lies here, or about a context of this package that anchors one
elsewhere: 16 registers, 17 resolves an access, 18 releases the entry, 19 asks for a retroactive release. -/
def svtFor (s : State) (die : Nat) (k : Packet) : State :=
  let sec := k.addr / 32
  let d := svtDie s k.addr
  let say (r : Nat × State) : State := atomAnswer r.2 die k 0 (leBytes r.1 8)
  match k.op with
  | 16 => say (svtRegister s d sec (pktW k 0))
  | 17 => match svtAccess s d sec k.src k.sctx with
    | (some n, s) => say (n, s)
    | (none, s) => holdPkt s die k
  | 18 => say (svtRelease s d sec)
  | _ => say (0, retroRelease s (pktW k 0) (pktW k 1) (pktW k 2))

/-- An atomic of another package that its window refuses; `lr` only reads. -/
def atomRefused (s : State) (k : Packet) : Bool := k.op < 16 && !exportOk s k.addr (k.op != 11)
/-- An operation that an exported far address does not take (R169): reservations, `rcas4` and list operations. -/
def atomFar (k : Packet) : Bool := isFar k.addr && 11 ≤ k.op && k.op ≤ 15

/-- An atomic of another package performed at the ROU of its home, or at a port's atomic unit (R136, R169, R180); one on a sector that a
list operation holds waits (R117). -/
def atomFor (s : State) (die : Nat) (k : Packet) : State :=
  let s := unhold s k
  if atomRefused s k then atomAnswer s die k 2 (List.replicate (k.len + 1) 0)
  else if atomFar k then atomAnswer s die k 3 [36]
  else if k.op < 13 && sectorHeld s k.addr (listWho die k).w.owner then holdPkt s die k
  else
    let w := pktWidth k
    let n := k.len
    let word (i : Nat) : Word := BitVec.ofNat 64 (ofLe ((k.data.drop (n * i)).take n))
    let one (op : RouOp) : State :=
      let (r, s) := rouOp s [] none op w k.addr (word 0)
      wordAnswer s die k (r.map (·.1)) ((r.map (·.2)).getD 0)
    match k.op with
    | 0 => one .add | 1 => one .and | 2 => one .or | 3 => one .xor | 4 => one .min | 5 => one .max | 6 => one .minn
    | 7 => one .maxn | 8 => one .swap | 9 => one .fadd
    | 10 => let (r, s) := rouCas s [] none w k.addr (word 0) (word 1); wordAnswer s die k r 0
    | 11 => let (r, s) := rouLoadR s (farCtx k) w k.addr; wordAnswer s die k r 0
    | 12 => let (r, s) := rouStoreC s (farCtx k) none w k.addr (word 0); wordAnswer s die k r 0
    | 13 | 14 | 15 => listFor s die k
    | 16 | 17 | 18 | 19 => svtFor s die k
    | _ => atomAnswer s die k 2 []

/-- A read, write or atomic performed. -/
def performFor (s : State) (die : Nat) (k : Packet) : State :=
  match k.ty with
  | 0 => readFor (markDone s k.src k.eseq) die k
  | 1 => writeFor s die k
  | _ => atomFor s die k

/-! ## Requests of this package that complete -/

/-- The owner of the requests that the SVT of a die makes. -/
def svtOwner (die : Nat) : Nat := 4200 + die

/-- The requests of a list that a packet answered get their reply. -/
def replyIn (pkg eseq : Nat) (r : List Byte × Bool × Bool) (x : Remote) : Remote :=
  if x.pkg = pkg && x.eseq = eseq && (x.kind = 0 || x.kind = 2 || x.kind = 9) && x.reply.isNone then { x with reply := some r } else x
/-- The reply of a load's piece, or of an atomic: its bytes, or why it delivers no value (R38, R108). -/
def replyPart (s : State) (c k i : Nat) (p : LoadPart) (r : List Byte × Bool × Bool) : State :=
  let (b, psn, refused) := r
  let o := match p.ask with | some q => p.pa - q.addr | none => 0
  let s := putPart s c k i ((b.drop o).take p.len) (psn || refused)
  if refused then updFlight s c k fun f => { f with sub := if psn then (b.headD 0).toNat else 5 } else s
/-- The pieces in flight that a packet answered. -/
def replyFlights (s : State) (pkg eseq : Nat) (r : List Byte × Bool × Bool) : State :=
  (s.ctx.flatMap fun (c, x) => (List.range x.flights.length).flatMap fun k =>
    ((x.flights[k]?).toList.flatMap fun f => (List.range f.parts.length).filterMap fun i =>
      (f.parts[i]?).bind fun p => if p.pkg = pkg && p.eseq = some eseq && p.got.isNone then some (c, k, i, p) else none)).foldl
    (fun s (c, k, i, p) => replyPart s c k i p r) s
/-- The reply of a request to a package, wherever it is awaited: by a context, a load, a command, a saved task, or an SVT that asked
for a retroactive release, whose widening it ends. -/
def replyTo (s : State) (pkg eseq : Nat) (r : List Byte × Bool × Bool) : State :=
  let upd (x : Ctx) : Ctx := { x with remote := x.remote.map (replyIn pkg eseq r) }
  let sv (y : Ready) : Ready := { y with saved := y.saved.map fun v => { v with remote := v.remote.map (replyIn pkg eseq r) } }
  let s := replyFlights { s with
    ctx := s.ctx.map fun x => (x.1, upd x.2)
    car := { s.car with ready := s.car.ready.map sv, restoring := s.car.restoring.map fun y => (y.1, sv y.2) }
    fab := { s.fab with asks := s.fab.asks.map fun a => (a.1, replyIn pkg eseq r a.2) } } pkg eseq r
  (s.fab.asks.filter fun a => a.2.pkg = pkg && a.2.eseq = eseq && a.2.arg = 19 && a.2.kind = 2).foldl
    (fun s a => cause s (.svtWidenAcked (a.1 - svtOwner 0) (a.2.addr / 32))) s
/-- A response of type 3 or 4 (R177, R38). -/
def replyOf (k : Packet) : List Byte × Bool × Bool := (k.data, k.op = 1 || k.op = 3, k.op = 2 || k.op = 3)

/-- The mark of a package in a context's destination list (R179, R183); the list may have been cleared since. -/
def markDest (s : State) (c pkg : Nat) : State :=
  if (ctxOf s c).dests.any fun d => d.1 = pkg then
    updCtx s c fun x => { x with dests := x.dests.map fun d => if d.1 = pkg then (pkg, true) else d }
  else if s.fab.marked.contains (c, pkg) then s
  else { s with fab := { s.fab with marked := s.fab.marked ++ [(c, pkg)] } }
def destMarked (s : State) (c pkg : Nat) : Bool :=
  ((ctxOf s c).dests.any fun d => d.1 = pkg && d.2) || s.fab.marked.contains (c, pkg)
def clearMark (s : State) (c pkg : Nat) : State :=
  let s := updCtx s c fun x => { x with dests := x.dests.map fun d => if d.1 = pkg then (pkg, false) else d }
  { s with fab := { s.fab with marked := s.fab.marked.filter fun m => !(m == (c, pkg)) } }

end Sys2Proof.Machine
end

