-- ==== Sys2Proof/Machine/EvFabric.lean ====
section
/-! DEFINITION. Steps of consistency, mailboxes, the host ports and the Flecen fabric (05, 06): widenings, multicasts that land,
host accesses, flits, links, packets and their answers. A step that is not enabled changes nothing (log 11). -/
namespace Sys2Proof.Machine

/-! ## Widenings and mailboxes (R147, R154, R355) -/

/-- A widening goes on (R147): the cores of the anchor's package have performed the retroactive release, and the scope is wider. An
anchor in another package is asked for it first. -/
def widened (s : State) (die sector : Nat) : State :=
  match svtOf s die sector with
  | none => s
  | some e => match e.widening with
    | none => s
    | some (n, _, _) =>
      let done (s : State) : State := setSvt s die { e with scope := n, widen := min (e.widen + 1) 0xFFFF, widening := none }
      if e.apkg = s.pkg then done (retroRelease s e.scope e.actx n)
      else
        let mine (a : Nat × Remote) : Bool := a.1 = svtOwner die && a.2.addr = sector * 32 && a.2.arg = 19
        match s.fab.asks.find? mine with
        | some (_, a) => if a.reply.isNone then s else done { s with fab := { s.fab with asks := s.fab.asks.filter fun a => !mine a } }
        | none =>
          let k : Packet := { ty := 2, dst := e.apkg, src := s.pkg, sctx := 1023, op := 19, addr := sector * 32, len := 8
                              data := leBytes e.scope 8 ++ leBytes e.actx 8 ++ leBytes n 8 }
          let (q, s) := gwSend s die k
          let ask : Remote := { pkg := e.apkg, addr := sector * 32, len := 8, kind := 2, arg := 19, eseq := q }
          { s with fab := { s.fab with asks := s.fab.asks ++ [(svtOwner die, ask)] } }
/-- `SVT_WIDEN_ACKED` (R147). -/
def execSvtWidenAcked (s : State) : Host.Outcome State Fault Refusal :=
  match s.ev with
  | some (.svtWidenAcked die sector) => .next (widened s die sector)
  | _ => .next s

/-- Loads of mailboxes that sample before a write lands do so (R129, R154): those of its own core that were due before, and those of
its own context, whose later writes they do not see. -/
def mboxSettle (s : State) (w : MboxW) : State :=
  (s.ctx.flatMap fun (c, x) => (List.range x.flights.length).flatMap fun k =>
    ((x.flights[k]?).toList.flatMap fun f => (List.range f.parts.length).filterMap fun i =>
      (f.parts[i]?).bind fun p =>
        if LoadPart_idle p && f.acq.isNone && p.pkg = s.pkg && isMbox p.pa && mboxHits w (mboxOf p.pa)
            && ((mboxOf p.pa = coreOf c && p.due < w.land) || (c = w.ctx && wAfter f w)) then some (c, k, i, f, p) else none)).foldl
    (fun s (c, k, i, f, p) => putPart s c k i (mboxValue s c f p) false) s

/-- The first write on its way to the mailboxes lands, at its clock. -/
def mboxDone (s : State) (i : Nat) : State :=
  match s.mboxW[i]? with
  | some w =>
    if i = 0 && w.land ≤ s.clk then
      let s := mboxSettle s w
      { s with mbox := mboxLand s.mbox w, mboxW := s.mboxW.tail }
    else s
  | none => s
/-- `MBCAST_LAND` (R154): the write lands in the 8 mailboxes of the cluster. -/
def execMbcastLand (s : State) : Host.Outcome State Fault Refusal :=
  match s.ev with
  | some (.mbcastLand i) => .next (mboxDone s i)
  | _ => .next s
/-- `MBST_LAND` (R355). -/
def execMbstLand (s : State) : Host.Outcome State Fault Refusal :=
  match s.ev with
  | some (.mbstLand i) => .next (mboxDone s i)
  | _ => .next s

/-! ## The host ports (R163 to R168) -/

/-- The HBM address of a host address at a port, by its two decoders (R163). -/
def hdmPa (s : State) (port ha : Nat) : Option Nat :=
  (s.hdm.filter fun e => e.1 / 2 = port).findSome? fun (_, h) =>
    if h.host ≤ ha && ha < h.host + h.size && isHbm (h.pa + (ha - h.host)) then some (h.pa + (ha - h.host)) else none

/-- Room for a new granule in a channel's filter: the least recently used entry is invalidated (R163). -/
def snoopRoom (s : State) (pa : Nat) : State :=
  match (chan s (chanOf pa)).snoop with
  | e :: l => if l.length + 1 ≥ 16384 then snoopInv s (e.gran * 64) else s
  | [] => s

/-- A host read of a granule (R163): served from HBM, and entered; `own`: for ownership. `data`: what the host writes into it
while it owns it. -/
def hostRead (s : State) (port ha : Nat) (own : Bool) (data : Option (BitVec 512)) : State :=
  match hdmPa s port ha with
  | none => s
  | some pa =>
    match snoopOf s pa with
    | some e =>
      if e.own then setSnoop s pa (some { e with data := if own && data.isSome then data else e.data })
      else
        let s := (hbmReadSecs s (pa / 64 * 2) 2).2.2
        setSnoop s pa (some { e with own := own, data := if own then data else none })
    | none =>
      let s := (hbmReadSecs (snoopRoom s pa) (pa / 64 * 2) 2).2.2
      setSnoop s pa (some { gran := pa / 64, own := own, data := if own then data else none })
/-- `CXL_HOST_READ_SHARED` (R163). -/
def execCxlHostReadShared (s : State) : Host.Outcome State Fault Refusal :=
  match s.ev with
  | some (.cxlHostReadShared port ha) => .next (hostRead s port ha false none)
  | _ => .next s
/-- `CXL_HOST_READ_OWN` (R163). -/
def execCxlHostReadOwn (s : State) : Host.Outcome State Fault Refusal :=
  match s.ev with
  | some (.cxlHostReadOwn port ha data) => .next (hostRead s port ha true data)
  | _ => .next s

/-- A host eviction or write-back: the host's data go to HBM. -/
def hostEvict (s : State) (port ha : Nat) (data : Option (BitVec 512)) : State :=
  match hdmPa s port ha with
  | none => s
  | some pa => match snoopOf s pa with
    | none => s
    | some e => setSnoop (hostData s e.gran (if e.own then (match data with | some d => some d | none => e.data) else none)) pa none
/-- `CXL_HOST_EVICT` (R163). -/
def execCxlHostEvict (s : State) : Host.Outcome State Fault Refusal :=
  match s.ev with
  | some (.cxlHostEvict port ha data) => .next (hostEvict s port ha data)
  | _ => .next s

/-- `CXL_HOST_SNOOP` (R166): the device holds no line of host memory, and answers so. -/
def execCxlHostSnoop (s : State) : Host.Outcome State Fault Refusal := .next s

/-- A far write of a context has completed (R168); with the last one, an earlier `cwb` is (R284). `shared`: what other sharers of the
expanders have written since (R167). -/
def cxlDone (s : State) (c : Nat) (shared : List (Nat × Nat × BitVec 8)) : State :=
  let s : State := shared.foldl (fun s (key, a, b) =>
    if key = 0 then s else { s with far := SMap.modify s.far key [] fun m => Memory.write m a b }) s
  updCtx s c fun x => { x with farOut := x.farOut - 1, cwb := if x.farOut ≤ 1 then 0 else x.cwb }
/-- `CXL_COMPLETION` (R167, R168). -/
def execCxlCompletion (s : State) : Host.Outcome State Fault Refusal :=
  match s.ev with
  | some (.cxlCompletion c l) => .next (cxlDone s c l)
  | _ => .next s

/-! ## Links (R171 to R175) -/

/-- Lanes of a width code (R175). -/
def lanesOf (w : Nat) : List Nat :=
  match w with
  | 0 => List.range 16
  | 1 => List.range 8
  | 2 => (List.range 8).map (· + 8)
  | w => (List.range 4).map (· + 4 * (w - 3))
/-- The first candidate, no wider than the present width, that avoids every failed lane (R174). -/
def candidate (x : Port) : Option Nat :=
  (List.range 7).find? fun w => (lanesOf w).length ≤ (lanesOf x.width).length && (lanesOf w).all fun l => !x.lanefail.getLsbD l

/-- A link stops sending and retrains (R174). -/
def retrain (s : State) (p : Nat) : State :=
  setPort s p fun x => { x with state := 3, since := s.clk, replays := 0, nretr := min 255 (x.nretr + 1), retr := bump x.retr 1 }

/-- Flits acknowledged up to `n` leave the retry buffer. -/
def retryDrop (l : List Flit) (n : Nat) : List Flit :=
  if l.any fun f => f.lseq = n then (l.dropWhile fun f => f.lseq != n).tail else l
/-- Every waiting flit that can go. -/
def pumpPort (x : Port) : Port := portPump x x.txq.length

/-- A flit out of sequence or damaged: the next flit asks for a replay (R173). -/
def flitReject (s : State) (p : Nat) (crcOk : Bool) : State :=
  setPort s p fun x => pumpPort { x with crc := if crcOk then x.crc else bump x.crc 1, wantRpl := true,
                                         txq := if x.wantRpl then x.txq else x.txq ++ [{ nul := true }] }

/-- What an accepted flit says of this end's flits: an acknowledgement, credits, a replay (R172, R173). -/
def flitTake (s : State) (p : Nat) (f : Flit) : State :=
  let s := setPort s p fun x =>
    let retry := if f.ackv then retryDrop x.retry f.lack else x.retry
    { x with
      rseq := f.lseq
      ackDue := if x.unacked = 0 then s.clk else x.ackDue
      unacked := x.unacked + 1
      give := if f.nul then x.give else vcSet x.give f.vc fun c => c + 1
      credit := vcSet x.credit f.cvc fun c => c + f.cinc
      replays := if retry.length < x.retry.length then 0 else x.replays
      retry := retry }
  let s := if f.ackv && f.rpl then
      let s := setPort s p fun x => let y := replayAll x; { y with replays := x.replays + 1 }
      if (portOf s p).replays ≥ 16 then retrain s p else s
    else s
  setPort s p pumpPort

/-- A flit arrives at a port (R173): accepted in sequence with a good CRC, else discarded with a replay request. -/
def flitArrive (s : State) (p : Nat) (f : Flit) : State :=
  let x := portOf s p
  if x.state != 2 then s
  else if !crcOk f || f.lseq != (x.rseq + 1) % 4096 then flitReject s p (crcOk f)
  else
    let s := flitTake s p f
    match f.pkt with
    | some k => if f.eop && !f.nul then cause s (.flecenPacketAccept (p / 5) k) else s
    | none => s
/-- `FLIT_RECEIVE` (R171 to R174). -/
def execFlitReceive (s : State) : Host.Outcome State Fault Refusal :=
  match s.ev with
  | some (.flitReceive p f) => .next (flitArrive s p f)
  | _ => .next s

/-- A nul flit is due: an acknowledgement, 32 accepted flits, or 64 clocks after the first of them (R173), or credits, with nothing
else to send (R172). -/
def ackIsDue (s : State) (x : Port) : Bool :=
  x.state = 2 && ((x.unacked != 0 && (x.unacked ≥ 32 || x.ackDue + 64 ≤ s.clk)) || (x.txq.isEmpty && x.give.toList.any fun n => n != 0))
def ackNow (s : State) (p : Nat) : State :=
  if ackIsDue s (portOf s p) then setPort s p fun x => pumpPort { x with txq := { nul := true } :: x.txq } else s
/-- `ACK_DEADLINE` (R172, R173): a nul flit carries the acknowledgement and the credits. -/
def execAckDeadline (s : State) : Host.Outcome State Fault Refusal :=
  match s.ev with
  | some (.ackDeadline p) => .next (ackNow s p)
  | _ => .next s

/-- A lane fails: a link that uses it retrains. -/
def laneDown (s : State) (p lane : Nat) : State :=
  let s := setPort s p fun x => { x with lanefail := x.lanefail ||| BitVec.ofNat 16 (2 ^ lane) }
  if (portOf s p).state = 2 && (lanesOf (portOf s p).width).contains lane then retrain s p else s
/-- `LANE_FAIL` (R174). -/
def execLaneFail (s : State) : Host.Outcome State Fault Refusal :=
  match s.ev with
  | some (.laneFail p lane) => .next (laneDown s p lane)
  | _ => .next s

/-- A candidate has trained: `last` is the last flit that the other end accepted; the rest are replayed (R173, R174). -/
def trained (s : State) (p last : Nat) : State :=
  let x := portOf s p
  match candidate x with
  | none => s
  | some w =>
    if x.state != 1 && x.state != 3 then s
    else setPort s p fun x =>
      let x := replayAll { x with retry := retryDrop x.retry last }
      pumpPort { x with state := 2, width := w, replays := 0 }
/-- `RETRAIN_SUCCESS` (R173, R174). -/
def execRetrainSuccess (s : State) : Host.Outcome State Fault Refusal :=
  match s.ev with
  | some (.retrainSuccess p last) => .next (trained s p last)
  | _ => .next s

/-- The packets of a port that went down are sent again through the die's other ports (R174). -/
def resendPort (s : State) (p : Nat) : State :=
  let d := p / 5
  ((gwOf s d).buf.filter fun e => e.port = p).foldl (fun s e =>
    let q := portFor s d e.pkt
    let move (x : E2E) : E2E := if x.pkt.dst = e.pkt.dst && x.pkt.eseq = e.pkt.eseq then { x with port := q, time := s.clk } else x
    portQueue (setGw s d fun g => { g with buf := g.buf.map move }) q e.pkt) s

/-- No candidate has trained within 3,800 clocks: the link is down (R174). -/
def trainLate (s : State) (p : Nat) : State :=
  let x := portOf s p
  if (x.state = 1 || x.state = 3) && x.since + 3800 ≤ s.clk then
    resendPort (irq (setPort s p fun x => { x with state := 0 }) 3) p
  else s
/-- `RETRAIN_TIMEOUT` (R174). -/
def execRetrainTimeout (s : State) : Host.Outcome State Fault Refusal :=
  match s.ev with
  | some (.retrainTimeout p) => .next (trainLate s p)
  | _ => .next s

/-- Bits of `lanefail` cleared by writing one (R175). -/
def lanefailW1C (s : State) (p : Nat) (w : Word) : State :=
  setPort s p fun x => { x with lanefail := x.lanefail &&& ~~~(w.extractLsb' 32 16) }
/-- A write of `flstat` with rq = 1: the candidates start at x16 (R174). -/
def linkRequest (s : State) (p : Nat) (w : Word) : State :=
  let s := lanefailW1C s p w
  let st := (portOf s p).state
  if st = 0 || st = 2 then retrain (setPort s p fun x => { x with width := 0 }) p else s
/-- `FLSTAT_RQ` (R174, R175). -/
def execFlstatRq (s : State) : Host.Outcome State Fault Refusal :=
  match s.ev with
  | some (.flstatRq p w _) => .next (linkRequest s p w)
  | _ => .next s

/-! ## Packets (R176 to R184) -/

/-- A packet whose tag fails: its effects are discarded and it is rejected; its source drops it after 16 rejections
(R179). -/
def tagFailed (s : State) (die : Nat) (k : Packet) : State :=
  if 13 ≤ k.ty then s
  else
    let s := match k.ty, k.tile with
      | 8, some m => tagCheck s m.fid false
      | _, _ => s
    let n := SMap.getD (seenOf s k.src).rejects k.eseq 0 + 1
    let s := setSeen s k.src fun x => { x with rejects := SMap.set x.rejects k.eseq n }
    e2eRej (if n ≥ 16 then markDone s k.src k.eseq else s) die k false

/-- A read, write or atomic whose tag passes (R180 to R182): answered again where it was answered, else performed where
nothing that it must follow is missing and the gateway gets to it now, else held. -/
def requestArrive (s : State) (die : Nat) (k : Packet) : State :=
  let x := seenOf s k.src
  if k.ty = 0 && seenDone x k.eseq then readFor s die k
  else if k.ty = 1 && seenDone x k.eseq then (if x.refused.contains k.eseq then e2eRej s die k true else e2eAck s die k)
  else if k.ty = 2 && seenDone x k.eseq then
    match SMap.get? x.kept k.eseq with
    | some (b :: bs) => respond s die k 4 b.toNat bs
    | _ => e2eAck s die k
  else if (heldFrom s k.src).any fun h => h.eseq = k.eseq then s
  else
    let (n, s) := draw s
    if k.ty != 2 && mayPerform s k && Config.choose n % 2 = 0 then performFor s die k
    else setGw s die fun g => { g with held := g.held ++ [k] }

/-- The answer of a flushing read: 1 where a store of its context was refused since the last one (R183). -/
def flushAnswer (s : State) (die : Nat) (k : Packet) : State :=
  let bad := (seenOf s k.src).bad.contains k.sctx
  let s := setSeen s k.src fun x => { x with bad := x.bad.filter fun c => c != k.sctx }
  respond s die k 6 (if bad then 1 else 0) []

/-- A packet of a type that is performed as it arrives, once. -/
def onceArrive (s : State) (die : Nat) (k : Packet) : State :=
  let s := e2eAck s die k
  if seenDone (seenOf s k.src) k.eseq then s
  else
    let s := markDone s k.src k.eseq
    match k.ty with
    | 3 | 4 => replyTo s k.src k.addr (replyOf k)
    | 6 => cause s (.flushResponseReceive k.sctx k.src k.addr (k.op = 1))
    | 7 => tileRequest s k
    | 8 => tileReply s k
    | 9 => cause s (.forwardArrives 0 (some k))
    | _ => s

/-- A packet for this package at a die's gateway. -/
def packetArrive (s : State) (die : Nat) (k : Packet) : State :=
  if k.dst != s.pkg then s
  else if !tagOk k then tagFailed s die k
  else match k.ty with
  | 0 | 1 | 2 => requestArrive s die k
  | 5 =>
    let s := markDone s k.src k.eseq
    if writesDone s k then flushAnswer s die k
    else setGw s die fun g => { g with flushes := g.flushes ++ [k] }
  | 13 => cause s (.e2eAckReceive die k.src k.addr)
  | 14 => cause s (.e2eRejectReceive die k.src k.addr (k.op = 1))
  | 15 => s
  | _ => onceArrive s die k
/-- `FLECEN_PACKET_ACCEPT` (R38, R177 to R184). -/
def execFlecenPacketAccept (s : State) : Host.Outcome State Fault Refusal :=
  match s.ev with
  | some (.flecenPacketAccept die k) => .next (packetArrive s die k)
  | _ => .next s

/-- A held packet is performed once nothing that it must follow is left (R182). -/
def heldStep (s : State) (die i : Nat) : State :=
  match (gwOf s die).held[i]? with
  | some k => if mayPerform s k then performFor (unhold s k) die k else s
  | none => s
/-- `HELD_WRITE_PERFORM` (R182). -/
def execHeldWritePerform (s : State) : Host.Outcome State Fault Refusal :=
  match s.ev with
  | some (.heldWritePerform die i) => .next (heldStep s die i)
  | _ => .next s

/-- A waiting flushing read is answered (R183). -/
def flushStep (s : State) (die i : Nat) : State :=
  match (gwOf s die).flushes[i]? with
  | some k => if writesDone s k then flushAnswer (setGw s die fun g => { g with flushes := g.flushes.eraseIdx i }) die k else s
  | none => s
/-- `FLUSHING_READ_ANSWER` (R183). -/
def execFlushingReadAnswer (s : State) : Host.Outcome State Fault Refusal :=
  match s.ev with
  | some (.flushingReadAnswer die i) => .next (flushStep s die i)
  | _ => .next s

/-! ## The end-to-end buffer (R179, R180) -/

def e2eOf (s : State) (die dst eseq : Nat) : Option E2E := (gwOf s die).buf.find? fun e => e.pkt.dst = dst && e.pkt.eseq = eseq
def e2eDel (s : State) (die dst eseq : Nat) : State :=
  let s := setGw s die fun g => { g with buf := g.buf.filter fun e => !(e.pkt.dst = dst && e.pkt.eseq = eseq) }
  gwPump s die (gwOf s die).wait.length
/-- The die whose gateway keeps a packet. -/
def e2eDie (s : State) (die dst eseq : Nat) : Nat :=
  ((die :: List.range 4).find? fun d => (e2eOf s d dst eseq).isSome).getD die

/-- A packet is acknowledged; the result that an acknowledged response carried need not be kept. -/
def e2eAcked (s : State) (die dst eseq : Nat) : State :=
  let d := e2eDie s die dst eseq
  match e2eOf s d dst eseq with
  | none => s
  | some e =>
    let s := e2eDel s d dst eseq
    if e.pkt.ty = 4 then setSeen s dst fun x => { x with kept := SMap.erase x.kept e.pkt.addr } else s
/-- `E2E_ACK_RECEIVE` (R179, R180). -/
def execE2eAckReceive (s : State) : Host.Outcome State Fault Refusal :=
  match s.ev with
  | some (.e2eAckReceive die dst eseq) => .next (e2eAcked s die dst eseq)
  | _ => .next s

/-- A packet sent again (R179). -/
def resendE2E (s : State) (die : Nat) (e : E2E) : State :=
  let touch (x : E2E) : E2E := if x.pkt.dst = e.pkt.dst && x.pkt.eseq = e.pkt.eseq then { e with time := s.clk } else x
  let s := setGw s die fun g => { g with buf := g.buf.map touch, e2e := bump g.e2e 1 }
  portQueue s e.port e.pkt

/-- PACKET_DROP (R179): the effects of a packet that was rejected 16 times. -/
def dropPacket (s : State) (die : Nat) (e : E2E) : State :=
  let k := e.pkt
  let s := e2eDel s die k.dst k.eseq
  match k.ty with
  | 1 => markDest (setGw s die fun g => { g with drop := bump g.drop 1 }) k.sctx k.dst
  | 0 | 2 => replyTo s k.dst k.eseq (List.replicate (max 64 k.len) 0, true, false)
  | 5 => cause s (.flushResponseReceive k.sctx k.dst k.eseq true)
  | 7 => match k.tile with
    | some m => if m.kind ≤ 1 then (match fillOf s m.fid with
        | some f => if f.st == FillSt.remote then setFillSt s m.fid (.data m.ver [] true) else s
        | none => s) else s
    | none => s
  | _ => s

/-- A rejection: the packet is sent again, dropped after 16, or marked refused (R179, R182). -/
def e2eRejected (s : State) (die dst eseq : Nat) (refused : Bool) : State :=
  let d := e2eDie s die dst eseq
  match e2eOf s d dst eseq with
  | none => s
  | some e =>
    if refused then markDest (e2eDel s d dst eseq) e.pkt.sctx dst
    else if e.tries + 1 ≥ 16 then dropPacket s d e
    else resendE2E s d { e with tries := e.tries + 1 }
/-- `E2E_REJECT_RECEIVE` (R179, R182). -/
def execE2eRejectReceive (s : State) : Host.Outcome State Fault Refusal :=
  match s.ev with
  | some (.e2eRejectReceive die dst eseq r) => .next (e2eRejected s die dst eseq r)
  | _ => .next s

/-- No answer has arrived within 2^22 clocks (R179). -/
def e2eLate (s : State) (die dst eseq : Nat) : State :=
  match e2eOf s die dst eseq with
  | some e => if e.time + 2 ^ 22 ≤ s.clk then resendE2E s die e else s
  | none => s
/-- `E2E_RETRANSMIT_TIMEOUT` (R179). -/
def execE2eRetransmitTimeout (s : State) : Host.Outcome State Fault Refusal :=
  match s.ev with
  | some (.e2eRetransmitTimeout die dst eseq) => .next (e2eLate s die dst eseq)
  | _ => .next s

/-! ## Flush responses (R143, R183, R361, R364) -/

/-- The end of an overflow's flush: its package leaves the list (R143). -/
def destGone (x : Ctx) (pkg : Nat) : Ctx := { x with dests := x.dests.filter fun d => d.1 != pkg }
/-- The X command, on any core, that owns a request. -/
def askCmd (s : State) (owner : Nat) : Option XCmd := s.eng.findSome? fun (_, e) => e.x.find? fun k => ownerOf k.id = owner

/-- A flush response: the release, the command or the list entry that waits for it goes on, with the error status of the
package. -/
def flushDone (s : State) (c pkg eseq : Nat) (status : Bool) : State :=
  let bad := status || destMarked s c pkg
  let s := clearMark s c pkg
  let mine (r : Remote) : Bool := r.kind = 5 && r.pkg = pkg && r.eseq = eseq
  match (ctxOf s c).remote.find? mine with
  | some r =>
    let s := if bad then updCtx s c fun x => { x with xstat := x.xstat ||| 0x100000000 } else s
    if r.arg = 1 then updCtx s c fun x => destGone { x with remote := x.remote.filter fun r => !mine r } pkg
    else updCtx s c fun x => { x with remote := x.remote.map fun r => if mine r then { r with reply := some ([], false, false) } else r }
  | none =>
    match s.fab.asks.find? fun a => mine a.2 with
    | some (owner, _) =>
      match askCmd s owner with
      | some k =>
        let s := destsTo s k.ctx k.tid fun l => l.filter fun d => d.1 != pkg
        let s := if bad then xstatTo s k.ctx k.tid 0 1 else s
        { s with fab := { s.fab with asks := s.fab.asks.filter fun a => !mine a.2 } }
      | none =>
        let put (a : Nat × Remote) : Nat × Remote := if a.1 = owner && mine a.2 then (a.1, { a.2 with reply := some ([], false, false) }) else a
        { s with fab := { s.fab with asks := s.fab.asks.map put } }
    | none =>
      setEng s (coreOf c) fun e => { e with x := e.x.map fun k =>
        if k.kind = 9 && k.ctx = c && k.sent = some eseq && k.got.isNone && bitsAt k.a.toNat 0 14 = pkg
        then { k with got := some [if bad then 1 else 0] } else k }
/-- `FLUSH_RESPONSE_RECEIVE` (R143, R183, R361). -/
def execFlushResponseReceive (s : State) : Host.Outcome State Fault Refusal :=
  match s.ev with
  | some (.flushResponseReceive c pkg eseq status) => .next (flushDone s c pkg eseq status)
  | _ => .next s

end Sys2Proof.Machine
end

