-- ==== Sys2Proof/Machine/EvHbm.lean ====
section
/-! DEFINITION. Steps of the HBM channels, their ROUs and the bandwidth share unit (R100 to R126). A step that is not enabled
changes nothing (log 11). -/
namespace Sys2Proof.Machine

/-! ## Packets of the interface (R100, R101, R106, R107) -/

/-- A packet that arrives ends a run of failed replays and of failed retrains. -/
def linkOk (s : State) (n : Nat) : State := setChan s n fun c => { c with replays := 0, retrains := 0 }

/-- What ECC finds in the sectors that a read delivers; a dead block has no errors (R103). -/
def eccRead (s : State) (sec : Nat) : List Ecc → State
  | [] => s
  | e :: l => eccRead (if isLive s (sec * 32) && !(chan s (chanOf (sec * 32))).failed then eccSec s sec e else s) (sec + 1) l

/-- A source that awaits 64 replies of a channel has no tag free there: its next request waits at the source (R101). -/
def noTag (s : State) (src n : Nat) : Bool := 64 ≤ (s.hbm.replies.filter fun r => r.src = src && r.ch = n).length
/-- A request performed at its channel: its reply is on its way. -/
def reply (s : State) (r : HbmReply) : State := { s with hbm := { s.hbm with replies := s.hbm.replies ++ [r] } }

/-- A read of 32, 64 or 128 bytes: its reply, with a poison bit for each sector. -/
def readPkt (s : State) (src tag pa len : Nat) (ecc : List Ecc) : State :=
  if !((len = 32 || len = 64 || len = 128) && pa % len = 0 && isHbm pa) || noTag s src (chanOf pa) then s
  else
    let s := eccRead (linkOk s (chanOf pa)) (pa / 32) (ecc.take (len / 32))
    let (b, p, s) := hbmReadSecs s (pa / 32) (len / 32)
    reply s ⟨src, tag, b, p, chanOf pa⟩
/-- `HBM_READ_PACKET` (R100, R103, R105, R107, R108). -/
def execHbmReadPacket (s : State) : Host.Outcome State Fault Refusal :=
  match s.ev with
  | some (.hbmReadPacket src tag pa len ecc) => .next (readPkt s src tag pa len ecc)
  | _ => .next s

/-- A masked write within 128 bytes: its acknowledgement. -/
def writePkt (s : State) (src tag pa : Nat) (data : List (Option Byte)) : State :=
  if !(1 ≤ data.length && (pa % 128 + data.length ≤ 128) && isHbm pa) || noTag s src (chanOf pa) then s
  else reply (hbmWrite (linkOk s (chanOf pa)) none pa data) ⟨src, tag, [], [], chanOf pa⟩
/-- `HBM_WRITE_PACKET` (R100, R103, R109, R121). -/
def execHbmWritePacket (s : State) : Host.Outcome State Fault Refusal :=
  match s.ev with
  | some (.hbmWritePacket src tag pa data) => .next (writePkt s src tag pa data)
  | _ => .next s

/-- A control packet, which only the management core sends: a dead-map command to one block (R103, R104; bit 61: revive, log 20), or
a power command, which puts a stack into one of its states (R482, log 22). -/
def ctlPkt (s : State) (k : CtlPkt) (by_ : Writer) : State :=
  if by_ != .mgmt then s
  else match k with
  | .dead w =>
    let pa := bitsAt w.toNat 12 36 * 4096
    if !isHbm pa then s else if w.getLsbD 61 then reviveBlock s (pa / 4096) else killBlock s (pa / 4096)
  | .power stack st =>
    if 12 ≤ stack || 3 ≤ st then s
    else { s with sys := { s.sys with unit_ := SMap.set s.sys.unit_ (24 + stack) { SMap.getD s.sys.unit_ (24 + stack) {} with st := st } } }
/-- `HBM_CONTROL_PACKET` (R100). -/
def execHbmControlPacket (s : State) : Host.Outcome State Fault Refusal :=
  match s.ev with
  | some (.hbmControlPacket k by_) => .next (ctlPkt s k by_)
  | _ => .next s

/-- `HBM_REPLY` (R101): reply i reaches its source; replies return in any order. -/
def execHbmReply (s : State) : Host.Outcome State Fault Refusal :=
  match s.ev with
  | some (.hbmReply i) => .next { s with hbm := { s.hbm with replies := s.hbm.replies.eraseIdx i } }
  | _ => .next s

/-! ## Refresh and scrubbing (R102, R107) -/

/-- The refresh window in clocks (R102): 32 ms, and 16 ms above 85 °C. -/
def refreshWindow (hot : Bool) : Nat := if hot then 30400000 else 60800000
/-- The block of a row of a channel (log 17). -/
def rowBlock (n r : Nat) : Nat := n / 32 * 2 ^ 24 + r * 32 + (n % 32 ^^^ r % 32)
/-- The rows of a group whose block is live. -/
def liveRows (s : State) (n g : Nat) : BitVec 64 :=
  BitVec.ofNat 64 (packN 1 (fun i => if SMap.has s.hbm.live (rowBlock n (64 * g + i)) then 1 else 0) 64)
/-- The refresh slot of a group of rows: the live rows that it refreshes, and its mask is clear again. -/
def refreshGroup (s : State) (n g : Nat) (hot : Bool) : State :=
  setChan s n fun c =>
    let r := SMap.getD c.rows g { time := 0, mask := 0 }
    let rows := if s.clk < r.time + refreshWindow hot then ~~~r.mask else BitVec.allOnes 64
    { c with rows := SMap.set c.rows g { r with mask := 0, slot := s.clk, fresh := rows &&& liveRows s n g } }
/-- `REFRESH_SLOT` (R102). -/
def execRefreshSlot (s : State) : Host.Outcome State Fault Refusal :=
  match s.ev with
  | some (.refreshSlot ch grp hot) => .next (refreshGroup s ch grp hot)
  | _ => .next s

/-- The scrub period (R474). -/
def scrubPeriod (s : State) : Nat := 2 ^ min 44 (max 32 (bitsAt (devGet s 0xF00001520010).toNat 0 6))
/-- The patrol goes on to the next live sector; after the last it rests until the next period. -/
def scrubOn (s : State) (sec : Nat) : State :=
  let next := if (sec + 1) % 128 != 0 && isLive s (sec * 32) then some (sec + 1)
    else (s.hbm.live.find? fun e => sec / 128 < e.1).map fun e => e.1 * 128
  { s with mmu := match next with
      | some n => { s.mmu with scrubNext := n }
      | none => { s.mmu with scrubNext := 0, scrubAt := s.clk + scrubPeriod s } }
/-- The scrubber reads a live sector and corrects or poisons it. -/
def scrub (s : State) (sec : Nat) (e : Ecc) : State :=
  let s := if s.mmu.scrubAt ≤ s.clk && sec = s.mmu.scrubNext then scrubOn s sec else s
  if isHbm (sec * 32) then eccRead s sec [e] else s
/-- `PATROL_SCRUB` (R107). -/
def execPatrolScrub (s : State) : Host.Outcome State Fault Refusal :=
  match s.ev with
  | some (.patrolScrub sector e) => .next (scrub s sector e)
  | _ => .next s

/-! ## `hdeadcmd` (R104) -/

/-- A write of `hdeadcmd`: ignored while a command is in progress. -/
def deadWriteReg (s : State) (w : Word) : State :=
  if s.hbm.dead.isSome then s
  else
    let s := devSet s 0xF00000C11000 (w &&& 0x2000FFFFFFFFFFFF)
    if !w.getLsbD 62 then s
    else
      let n := bitsAt w.toNat 0 16
      let d : DeadCmd := { next := bitsAt w.toNat 16 32 * 16, left := (if n = 0 then 65536 else n) * 16, revive := w.getLsbD 61 }
      { s with hbm := { s.hbm with dead := some d } }
/-- A write of `hdeadcmd` with op = 0. -/
def execHdeadcmdKill (s : State) : Host.Outcome State Fault Refusal :=
  match s.ev with
  | some (.hdeadcmdKill w _) => .next (deadWriteReg s w)
  | _ => .next s
/-- A write of `hdeadcmd` with op = 1. -/
def execHdeadcmdRevive (s : State) : Host.Outcome State Fault Refusal :=
  match s.ev with
  | some (.hdeadcmdRevive w _) => .next (deadWriteReg s w)
  | _ => .next s

/-- The blocks of a command, in ascending order; a frame outside HBM ends it. -/
def deadBlocks (s : State) (revive : Bool) : Nat → Nat → State
  | 0, _ => s
  | k + 1, b => if !isHbm (b * 4096) then s else deadBlocks (if revive then reviveBlock s b else killBlock s b) revive k (b + 1)
/-- The command in progress is performed. -/
def deadDone (s : State) : State :=
  match s.hbm.dead with
  | none => s
  | some d => let s := deadBlocks s d.revive d.left d.next; { s with hbm := { s.hbm with dead := none } }
/-- `HDEADCMD_DONE` (R104). -/
def execHdeadcmdDone (s : State) : Host.Outcome State Fault Refusal :=
  match s.ev with
  | some .hdeadcmdDone => .next (deadDone s)
  | _ => .next s

/-! ## The interface (R105, R106) -/

/-- A CRC failure: a replay, which is counted; the eighth failed replay of one packet exhausts them and starts a retrain, which is
counted apart (R105). -/
def crcFail (s : State) (n : Nat) : State :=
  if (chan s n).retraining || (chan s n).failed then s
  else setChan s n fun c =>
    if 8 ≤ c.replays then { c with herex := bump c.herex 1, replays := 0, retraining := true }
    else { c with herpl := bump c.herpl 1, replays := c.replays + 1 }
/-- `INTERFACE_CRC_FAIL` (R105, R106). -/
def execInterfaceCrcFail (s : State) : Host.Outcome State Fault Refusal :=
  match s.ev with
  | some (.interfaceCrcFail ch) => .next (crcFail s ch)
  | _ => .next s

/-- CHANNEL_FAIL (R106): the management core is interrupted, and the channel's entries answer from HBM. -/
def failChan (s : State) (n : Nat) : State :=
  let s := irq (setChan s n fun c => { c with failed := true, retraining := false }) 2
  setDir s n fun d => { d with sets := d.sets.map fun (i, l) => (i, l.map fun e => { e with loc := .hbm }) }
/-- A retrain of the interface ends; the third that fails in a row fails the channel. -/
def ifTrained (s : State) (n : Nat) (ok : Bool) : State :=
  if !(chan s n).retraining then s
  else if ok then setChan s n fun c => { c with retraining := false, retrains := 0 }
  else if (chan s n).retrains + 1 ≥ 3 then failChan s n
  else setChan s n fun c => { c with retrains := c.retrains + 1 }
/-- `INTERFACE_RETRAIN_END` (R106). -/
def execInterfaceRetrainEnd (s : State) : Host.Outcome State Fault Refusal :=
  match s.ev with
  | some (.interfaceRetrainEnd ch ok) => .next (ifTrained s ch ok)
  | _ => .next s

/-! ## ROU operations (R114, R115, R120, R121) -/

/-- An operation of a context at a channel, with its reply under the request's tag (R100, R101). Where the source has no tag free,
it waits there. -/
def rouFor (s : State) (c tag pa : Nat) (f : State → Option Nat × State) : State :=
  if noTag s (coreOf c) (chanOf pa) then s
  else let (r, s) := f (flushOwn s (coreOf c) pa); reply s ⟨coreOf c, tag, leBytes (r.getD 0) 8, [r.isNone], chanOf pa⟩
/-- The queue whose checkpoint interval logs a context's writes. -/
def ctxQueue (s : State) (c : Nat) : Option Nat := queueOf s c

/-- `ROU_SINGLE_WORD_OP` (R115). -/
def execRouSingleWordOp (s : State) : Host.Outcome State Fault Refusal :=
  match s.ev with
  | some (.rouSingleWordOp (.ctx c tag) op w pa x) =>
    .next (rouFor s c tag pa fun s => let (r, s) := rouOp s [c] (ctxQueue s c) op w pa x; (r.map (·.1), s))
  | some (.rouSingleWordOp (.pkt k) _ _ _ _) => .next (atomFor s (svtDie s k.addr) k)
  | some (.rouSingleWordOp (.cmd core id) _ _ _ _) => .next (rouMove s core id 4)
  | _ => .next s

/-- `ROU_AMOCAS` (R115). -/
def execRouAmocas (s : State) : Host.Outcome State Fault Refusal :=
  match s.ev with
  | some (.rouAmocas (.ctx c tag) w pa e x) => .next (rouFor s c tag pa fun s => rouCas s [c] (ctxQueue s c) w pa e x)
  | some (.rouAmocas (.pkt k) _ _ _ _) => .next (atomFor s (svtDie s k.addr) k)
  | _ => .next s

/-- `ROU_LR` (R120, R121). -/
def execRouLr (s : State) : Host.Outcome State Fault Refusal :=
  match s.ev with
  | some (.rouLr (.ctx c tag) w pa) => .next (rouFor s c tag pa fun s => rouLoadR s c w pa)
  | some (.rouLr (.pkt k) _ _) => .next (atomFor s (svtDie s k.addr) k)
  | _ => .next s

/-- `ROU_SC` (R120, R121). -/
def execRouSc (s : State) : Host.Outcome State Fault Refusal :=
  match s.ev with
  | some (.rouSc (.ctx c tag) w pa x) => .next (rouFor s c tag pa fun s => rouStoreC s c (ctxQueue s c) w pa x)
  | some (.rouSc (.pkt k) _ _ _) => .next (atomFor s (svtDie s k.addr) k)
  | _ => .next s

/-- A reservation that is 4,096 clocks old ends. -/
def resvExpire (s : State) (n c : Nat) : State :=
  setChan s n fun x => { x with resv := x.resv.filter fun r => !(r.ctx = c && r.clk + 4096 ≤ s.clk) }
/-- `RESERVATION_EXPIRY` (R121). -/
def execReservationExpiry (s : State) : Host.Outcome State Fault Refusal :=
  match s.ev with
  | some (.reservationExpiry ch c) => .next (resvExpire s ch c)
  | _ => .next s

/-! ## The bandwidth share unit (R122 to R126) -/

def bsuPool (s : State) : Nat := bitsAt (devGet s 0xF00000C10000).toNat 0 20
/-- The share of a class; values above 256 act as 256. -/
def bsuShare (s : State) (c : Nat) : Nat := min 256 (bitsAt (devGet s (0xF00000C10100 + 8 * c)).toNat 0 9)
/-- A class with a metered request pending at any port. -/
def bsuActive (s : State) (c : Nat) : Bool := s.bsu.queue.any fun (_, l) => l.any fun r => r.cls = c

/-- What class c gets of the pool before the last tokens are dealt: its share, and its part of what is idle. -/
def bsuPart (s : State) (idle sum c : Nat) : Nat :=
  if !bsuActive s c then 0
  else bsuShare s c * bsuPool s / 256 + (if sum > 0 then idle * bsuShare s c / sum else 0)
/-- Refill() of R123: the buckets of the 16 classes. -/
def bsuBuckets (s : State) : Vector Nat 16 :=
  let act := (List.range 16).filter (bsuActive s)
  let given := (act.map fun c => bsuShare s c * bsuPool s / 256).foldl (· + ·) 0
  let sum := (act.map (bsuShare s)).foldl (· + ·) 0
  let idle := bsuPool s - given
  let left := idle - (if sum > 0 then (act.map fun c => idle * bsuShare s c / sum).foldl (· + ·) 0 else 0)
  let more := (act.filter fun c => bsuShare s c > 0).take left
  Vector.ofFn fun i : Fin 16 => bsuPart s idle sum i.val + (if more.contains i.val then 1 else 0)

/-- A refill, and the next one 1,024 clocks later. -/
def refillNow (s : State) (at_ : Nat) : State :=
  { s with bsu := { s.bsu with bucket := bsuBuckets s, refillAt := some (at_ + 1024) } }
/-- `BSU_REFILL` (R123). -/
def execBsuRefill (s : State) : Host.Outcome State Fault Refusal :=
  match s.ev with
  | some .bsuRefill => .next (match s.bsu.refillAt with | some t => if t ≤ s.clk then refillNow s t else s | none => s)
  | _ => .next s

/-- `bsuctl` written with en = 1: a refill runs where that changes en. -/
def bsuOnWrite (s : State) (w : Word) : State :=
  let was := bsuOn s
  let s := devSet s 0xF00000C10000 (w &&& 0x80000000000FFFFF)
  if was then s else refillNow s s.clk
/-- `bsuctl` written with en = 0: refills stop, and what waits at the ports goes on. -/
def bsuOffWrite (s : State) (w : Word) : State :=
  let s := devSet s 0xF00000C10000 (w &&& 0x00000000000FFFFF)
  { s with bsu := { s.bsu with refillAt := none, queue := [], grants := [] } }
/-- `bsuctl` written with en = 1 (R123). -/
def execBsuctlEnable (s : State) : Host.Outcome State Fault Refusal :=
  match s.ev with
  | some (.bsuctlEnable w _) => .next (bsuOnWrite s w)
  | _ => .next s
/-- `bsuctl` written with en = 0 (R123). -/
def execBsuctlDisable (s : State) : Host.Outcome State Fault Refusal :=
  match s.ev with
  | some (.bsuctlDisable w _) => .next (bsuOffWrite s w)
  | _ => .next s

def bsuUsed (c : Nat) : Nat := 0xF00000C10200 + 8 * c
def bucketOf (s : State) (c : Nat) : Nat := s.bsu.bucket.toList.getD c 0
/-- The oldest waiting request whose class has a token. -/
def portNext (s : State) (core : Nat) : Option PortReq :=
  (SMap.getD s.bsu.queue core []).find? fun r => r.left > 0 && bucketOf s r.cls > 0
/-- One unit leaves a port. -/
def portUnit (s : State) (core : Nat) : State :=
  match portNext s core with
  | none => s
  | some r =>
    let dec (x : PortReq) : PortReq := if x.owner = r.owner && x.key = r.key then { x with left := x.left - 1 } else x
    let s := devSet s (bsuUsed r.cls) (devGet s (bsuUsed r.cls) + 1)
    { s with bsu := { s.bsu with
        bucket := if h : r.cls < 16 then s.bsu.bucket.set r.cls (s.bsu.bucket[r.cls] - 1) h else s.bsu.bucket
        queue := SMap.set s.bsu.queue core ((SMap.getD s.bsu.queue core []).map dec) } }
/-- A clock of a port: at most four units leave; a request whose last unit has left is finished (R124). Nothing awaits a
prefetch. -/
def portClock (s : State) (core : Nat) : State :=
  let s := portUnit (portUnit (portUnit (portUnit s core) core) core) core
  let l := SMap.getD s.bsu.queue core []
  { s with bsu := { s.bsu with
      turn := core + 1
      grants := s.bsu.grants ++ ((l.filter fun r => r.left = 0 && r.key < prefKey).map fun r => (r.owner, r.key))
      queue := SMap.set s.bsu.queue core (l.filter fun r => r.left > 0) } }
/-- `PORT_UNIT_SEND` (R122, R124). -/
def execPortUnitSend (s : State) : Host.Outcome State Fault Refusal :=
  match s.ev with
  | some (.portUnitSend core) => .next (if bsuOn s then portClock s core else s)
  | _ => .next s

end Sys2Proof.Machine
end

