-- ==== Sys2Proof/Machine/Sync.lean ====
section
/-! DEFINITION. The Y slot (R372 to R394): tasks and futures, events and latches, barriers, sync variables, sequenced
multicast, checkpoints and triggers. -/
namespace Sys2Proof.Machine

def slotY : Nat := 7

/-! ## Tasks (R195, R373, R377 to R379) -/

/-- The descriptor of a child, as Caravan reads it for the spawning bundle (R192, R193). -/
def childTask (a : SReg) : M Task := do
  let va := rdS (← getC) a &&& ~~~0x3F#64
  release 4
  let s ← get
  let t := taskOf s s.cur
  let (r, s) := readTask s (dieOf s.cur) t.queue va
  set s
  match r with
  | .fault sub a => throw (.trap sub (BitVec.ofNat 64 a) 1)
  | .park => throw .block
  | .bad => throw (.trap 42 0 0)
  | .ok c => return { c with prio := min c.prio (qPrio s t.queue), parent := t.own, homeDie := dieOf s.cur, homeCl := clusterOf s.cur }

/-- NewFuture (R373): the bundle blocks while the table of its die is full. -/
def newFuture (f : Future) : M (BitVec 32) := do
  let s ← get
  let t := taskOf s s.cur
  match allocFut s (dieOf s.cur) false { f with count := 1, pcount := 1, creator := t.tid, queue := t.queue } with
  | none => throw .block
  | some (h, s) => do set s; return h

/-- `spawn` (R373). -/
def execSpawn (d a : SReg) (s : State) : Host.Outcome State Fault Refusal :=
  run slotY (do
    opTrap (loopReg (← getC) d)
    let c ← childTask a
    let h ← newFuture { st := .running, left := 1 }
    outS d (h.setWidth 64) 8
    modify fun s =>
      let (tid, s) := newTid s
      becomeReady s { c with own := h, tid := tid, seq := s.car.seq } (some (coreOf s.cur))) s

/-- `spawnr` (R196, R197, R373). -/
def execSpawnr (d a n : SReg) (s : State) : Host.Outcome State Fault Refusal :=
  run slotY (do
    let x ← getC
    opTrap (loopReg x d)
    let c ← childTask a
    let k := bitsAt (rdS x n).toNat 0 32
    blockIf (k != 0 && (← get).car.range.length ≥ 4096)
    let h ← newFuture (if k = 0 then { st := .ready } else { st := .running, left := k })
    outS d (h.setWidth 64) 8
    if k != 0 then
      modify fun s =>
        let s := { s with car := { s.car with seq := s.car.seq + 1 } }
        let r : RangeC := { task := { c with own := h, ranged := true, seq := s.car.seq }, fut := hKey h, next := 0, n := k }
        { s with car := { s.car with range := SMap.set s.car.range (hKey h) r } }) s

/-- A future named by a register (R201). -/
def future (h : Word) : M (BitVec 32 × Future) := do
  let k : BitVec 32 := h.setWidth 32
  match getFut (← get) k with
  | none => throw (.trap 40 0 0)
  | some f => do
    trapIf (f.count = 0) 40
    return (k, f)

/-- `fget` (R202, R374). -/
def execFget (d h : SReg) (s : State) : Host.Outcome State Fault Refusal :=
  run slotY (do
    let x ← getC
    opTrap (loopReg x d)
    let (k, f) ← future (rdS x h)
    let s ← get
    trapIf (k == (taskOf s s.cur).own) 43
    blockIf (f.st != .ready)
    outS d f.result 8
    acquire 4) s

/-- `fdup` (R200, R203, R375). -/
def execFdup (h : SReg) (handOff : Bool) (s : State) : Host.Outcome State Fault Refusal :=
  run slotY (do
    let (k, f) ← future (rdS (← getC) h)
    trapIf (f.count ≥ 65535) 41
    let s ← get
    let mine := !handOff && f.creator != 0 && f.creator = (taskOf s s.cur).tid
    set (setFut s (hKey k) { f with count := f.count + 1, pcount := f.pcount + (if mine then 1 else 0) })) s

/-- `fdrop` (R200, R203, R375). -/
def execFdrop (h : SReg) (s : State) : Host.Outcome State Fault Refusal :=
  run slotY (do
    let (k, f) ← future (rdS (← getC) h)
    trapIf (f.held && f.count = 1) 41
    let s ← get
    let mine := f.creator != 0 && f.creator = (taskOf s s.cur).tid && f.pcount > 0
    set (settle (setFut s (hKey k) { f with count := f.count - 1, pcount := f.pcount - (if mine then 1 else 0) }) (hKey k))) s

/-- `fpin` (R377). -/
def execFpin (s : State) : Host.Outcome State Fault Refusal := run slotY pin s

/-- `tend` (R221, R378): the task goes on to its end once the bundle has issued; no later position issues. -/
def execTend (v : SReg) (s : State) : Host.Outcome State Fault Refusal :=
  run slotY (modC fun x => { x with ending := some (rdS x v) }) s

/-- A waiting task that would take the yielding context (R379, R412). -/
def yieldTo (s : State) (c : Nat) : Bool :=
  let t := taskOf s c
  let s' := freeContext s c
  t.save != 0 && s.car.ready.any fun r =>
    mayPlace s' r.task (coreOf c) && restorable r && effPrio s r ≥ t.prio && (nearness (coreOf c) r.list < 2 || r.task.mig)

/-- A save of a context begins (R427); a task that is ending is not saved (R205, R221). Being chosen completes a `wfi` (R290). -/
def beginSave (s : State) (c : Nat) : State :=
  if (s.car.saving.any fun v => v.ctx = c) || (ctxOf s c).ending.isSome then s
  else updCtx { s with car := { s.car with saving := s.car.saving ++ [⟨c, s.clk⟩] } } c fun x => { x with wfi := x.wfi.map fun _ => [] }

/-- `yield` (R379, R412): the other ready contexts of its priority issue first. -/
def execYield (s : State) : Host.Outcome State Fault Refusal :=
  run slotY (do
    modC fun x => { x with readyAt := some s.clk, yielded := true }
    modify fun s => if yieldTo s s.cur then beginSave s s.cur else s) s

/-! ## Events and latches (R380 to R383) -/

/-- The counter has reached a threshold modulo 2^32 (R380). -/
def evReached (ev : BitVec 32) (t : Word) : Bool := (ev - t.setWidth 32).toNat < 2 ^ 31

/-- `evwait` (R380). -/
def execEvwait (e : BitVec 3) (t : SReg) (s : State) : Host.Outcome State Fault Refusal :=
  run slotY (do
    let x ← getC
    blockIf (!evReached (x.ev.toList.getD e.toNat 0) (rdS x t))) s

/-- `evinc` (R381). -/
def execEvinc (e : BitVec 3) (i : BitVec 6) (s : State) : Host.Outcome State Fault Refusal :=
  run slotY (modC fun x => { x with ev := x.ev.set e.toNat (x.ev[e.toNat] + i.setWidth 32) e.isLt }) s

/-- `sev` (R382): the latch is set at a later clock. -/
def execSev (t : SReg) (s : State) : Host.Outcome State Fault Refusal :=
  run slotY (do
    let n := bitsAt (rdS (← getC) t).toNat 0 10
    modify fun s => if n ≥ 768 then trRec s s.cur 9 (cc s).pc.toNat 0 else cause s (.latchSet n)) s

/-- `wfe` (R383). -/
def execWfe (s : State) : Host.Outcome State Fault Refusal :=
  run slotY (do
    blockIf (!(← getC).latch)
    modC fun x => { x with latch := false }) s

/-! ## Barriers (R384, R385) -/

def barOf (s : State) (cl n : Nat) : Bar := SMap.getD s.car.bar (8 * cl + n) {}
def setBar (s : State) (cl n : Nat) (b : Bar) : State := { s with car := { s.car with bar := SMap.set s.car.bar (8 * cl + n) b } }

/-- An arrival: the one that completes the episode begins the next, with the count written last (R384, R385). -/
def barArrive (b : Bar) : Bar :=
  if b.arrived + 1 ≥ b.count then { b with arrived := 0, gen := b.gen + 1, count := b.next } else { b with arrived := b.arrived + 1 }

/-- `bar` (R384): a `bar` issued again keeps its arrival. -/
def execBar (n : BitVec 3) (s : State) : Host.Outcome State Fault Refusal :=
  run slotY (do
    let s ← get
    let cl := clusterOf s.cur
    let b := barOf s cl n.toNat
    match (cc s).bar with
    | some (_, g) => blockIf (b.gen.toNat = g)
    | none => do
      release 2
      if b.count != 0 then
        modify fun s => upd (setBar s cl n.toNat (barArrive b)) fun x => { x with bar := some (n.toNat, b.gen.toNat) }
        blockIf ((barOf (← get) cl n.toNat).gen == b.gen)
    modC fun x => { x with bar := none }
    acquire 2) s

/-! ## Sync variables (R144, R386) -/

/-- The status of a registration or a release, from what the SVT answers (R386). -/
def svStatus (rel : Bool) (n : Nat) : Word := if rel then (if n = 0 then 3 else 4) else if n = 3 then 2 else BitVec.ofNat 64 n
/-- `svreg` (R386): at the SVT of this package, or of the package that holds the sector's frame (R144). -/
def execSvreg (d a : SReg) (rel : Bool) (s : State) : Host.Outcome State Fault Refusal :=
  run slotY (do
    let x ← getC
    opTrap (loopReg x d)
    let va := rdS x a
    let (pkg, pa, _) ← xlat va .read
    let s ← get
    trapIf (pkg == s.pkg && !(isHbm pa || (isFar pa && (farDecode s pa).isSome))) 4 va 1
    let sec := pa / 32
    if pkg != s.pkg then
      let (b, _) ← remoteAsk pkg (sec * 32) 8 2 (if rel then 18 else 16) (leBytes (asidOf s s.cur) 8) va
      outS d (svStatus rel (ofLe b)) 8
    else
      let die := svtDie s pa
      let (n, s) := if rel then svtRelease s die sec else svtRegister s die sec (asidOf s s.cur)
      set s
      outS d (svStatus rel n) 8) s

/-! ## Sequenced multicast (R387 to R391) -/

/-- A sequenced command leaves the slot for its group's switch (R388). -/
def sendSm (g s : SReg) (len : BitVec 6) (c : BitVec 3) (kind : Nat → SmKind) : M Unit := do
  let x ← getC
  let va := rdS x s
  outbound
  let b ← loadClean va (8 * len.toNat)
  pin
  let n ← nextCmd
  let (id, s) := newId (← get)
  let t := taskOf s s.cur
  let m : SmMsg := { grp := bitsAt (rdS x g).toNat 32 12, pkg := s.pkg, ctx := s.cur, cmd := id, kind := kind (bitsAt (rdS x g).toNat 0 20), data := b }
  let q : SCmd := { id := id, ctx := s.cur, tid := t.tid, queue := t.queue, ev := c.toNat, cmdno := n, msg := m, va := va }
  set (cause (setEng s (coreOf s.cur) fun e => { e with sq := e.sq ++ [q] }) (.switchSequence m))

/-- `smst` (R389). -/
def execSmst (g s : SReg) (len : BitVec 6) (log : Bool) (c : BitVec 3) (sx : State) : Host.Outcome State Fault Refusal :=
  run slotY (sendSm g s len c fun off => if log then .log else .dir off) sx

/-- `smred` (R390). -/
def execSmred (g s : SReg) (len : BitVec 6) (op : SmOp) (t : SmFmt) (c : BitVec 3) (sx : State) :
    Host.Outcome State Fault Refusal :=
  run slotY (sendSm g s len c fun off => .red op t off) sx

/-- `smjoin` (R387): it issues when the group's switch has answered; s0 leaves the group. -/
def execSmjoin (d g w : SReg) (s : State) : Host.Outcome State Fault Refusal :=
  run slotY (do
    let x ← getC
    opTrap (loopReg x d)
    let grp := bitsAt (rdS x g).toNat 0 12
    let va := (rdS x w).toNat
    let leave := w == 0
    outbound
    pin
    let s ← get
    match (cc s).remote.find? fun r => r.kind = 16 && r.pkg = grp && r.addr = va with
    | some r =>
      match r.reply with
      | none => throw .block
      | some (b, _, _) => outS d (BitVec.ofNat 64 (ofLe b)) 8
    | none =>
      let s := upd s fun x => { x with remote := x.remote ++ [{ pkg := grp, addr := va, len := 0, kind := 16 }] }
      set (cause s (.switchSequence { grp := grp, pkg := s.pkg, ctx := s.cur, cmd := (taskOf s s.cur).tid, kind := if leave then .leave else .join
                                      data := leBytes va 8 }))
      throw .block) s

/-! ## Checkpoints and triggers (R392, R393) -/

/-- `ckpt` (R392, R438). -/
def execCkpt (s : State) : Host.Outcome State Fault Refusal := run slotY outbound s

/-- `trig` (R393, R443, R444). -/
def execTrig (n : BitVec 6) (s : State) : Host.Outcome State Fault Refusal :=
  run slotY (modify fun s => trFire (trRec s s.cur 10 (cc s).pc.toNat n.toNat) (coreOf s.cur) n.toNat) s

end Sys2Proof.Machine
end

