-- ==== Sys2Proof/Machine/Place.lean ====
section
/-! DEFINITION. Caravan's steps on queues and placement: latches, barriers, queues (R396 to R402), doorbells (R399, R400, R404),
root tasks (R400, R401, R488), ranges (R197), placement (R409, R410) and pre-emption (R411). -/
namespace Sys2Proof.Machine

/-! ## Latches and barriers -/

/-- `LATCH_SET` (R382): the latch of a context is set. -/
def execLatchSet (s : State) : Host.Outcome State Fault Refusal :=
  match s.ev with
  | some (.latchSet c) => .next (updCtx s c fun x => { x with latch := true })
  | _ => .next s

/-- A write of `cbarN`: the count takes effect when arrived is next 0 (R385). -/
def cbarSet (s : State) (pa : Nat) (w : Word) : State :=
  let i := (pa - 0xF00001240000) / 8
  let n := min 32 (bitsAt w.toNat 0 6)
  let b := barOf s (i / 8) (i % 8)
  setBar s (i / 8) (i % 8) { b with next := n, count := if b.arrived = 0 then n else b.count }
/-- `CBAR_WRITE` (R385). -/
def execCbarWrite (s : State) : Host.Outcome State Fault Refusal :=
  match s.ev with
  | some (.cbarWrite pa w _) => .next (if 0xF00001240000 ≤ pa && pa < 0xF00001240600 then cbarSet s pa w else s)
  | _ => .next s

/-! ## Queues (R396, R397, R402) -/

/-- The fields of `qctl` that are written while the queue is off. -/
def qctlMask : Word := 0x0000FFFFFEFFFF80

/-- The start of a queue's first interval (R438): its checkpoint holds no task. -/
def firstInterval (s : State) (q : Nat) : State :=
  if qIexp s q = 0 then s
  else
    let s := setQ s q fun x => { x with interval := some s.clk }
    { s with undo := SMap.set s.undo q [], car := { s.car with ckpt := SMap.set s.car.ckpt q { futs := [], ready := [], ranges := [], x := [] } } }

/-- `qctl` written with en = 1: a queue that is off runs. -/
def queueOn (s : State) (q : Nat) (w : Word) : State :=
  if (qst s q).st != 0 then s
  else
    let s := devSet s (qReg q 0) ((w &&& qctlMask) ||| 0x8000000000000000)
    let s := devSet s (0xF00000C10100 + 8 * qTclass s q) (devGet s (qReg q 0x48) &&& 0x1FF)
    firstInterval (setQ s q fun x => { x with st := 1, prod := 0, cons := 0 }) q
/-- `QCTL_ENABLE` (R396, R397, R402). -/
def execQctlEnable (s : State) : Host.Outcome State Fault Refusal :=
  match s.ev with
  | some (.qctlEnable q w b) => .next (if mayWrite (qReg q 0) b then queueOn s q w else s)
  | _ => .next s

/-- `qctl` written with en = 0: a running queue drains, one in error goes off. -/
def queueOffWrite (s : State) (q : Nat) (w : Word) : State :=
  let clear (s : State) : State := devSet s (qReg q 0) (devGet s (qReg q 0) &&& qctlMask)
  match (qst s q).st with
  | 0 => devSet s (qReg q 0) (w &&& qctlMask)
  | 1 => queueSettle (clear (setQ s q fun x => { x with st := 2 })) q
  | 4 =>
    let s := ((allTasks s).filter fun t => t.queue = q).foldl (fun s t => stopTask s t (some 2)) (clear s)
    queueOff s q
  | _ => s
/-- `QCTL_DISABLE` (R396, R402). -/
def execQctlDisable (s : State) : Host.Outcome State Fault Refusal :=
  match s.ev with
  | some (.qctlDisable q w b) => .next (if mayWrite (qReg q 0) b then queueOffWrite s q w else s)
  | _ => .next s

/-- A producer index (R400). -/
def prodWrite (s : State) (q : Nat) (w : Word) : State :=
  let x := qst s q
  let p : BitVec 32 := w.setWidth 32
  if x.st != 1 then s
  else if (p - x.cons).toNat ≤ 2 ^ qLsz s q && (p - x.prod).toNat < 2 ^ 31 then setQ s q fun x => { x with prod := p }
  else devSet s (qReg q 0x60) (devGet s (qReg q 0x60) ||| 0x8000000000000000)
/-- `DOORBELL_PROD` (R399, R400). -/
def execDoorbellProd (s : State) : Host.Outcome State Fault Refusal :=
  match s.ev with
  | some (.doorbellProd q w) => .next (prodWrite s q w)
  | _ => .next s

/-- The host's result for the record it holds (R33, R404). -/
def fresWrite (s : State) (q : Nat) (w : Word) : State :=
  match (qst s q).hostRec with
  | none => s
  | some k => applyResult (setQ s q fun x => { x with hostRec := none }) k w
/-- `DOORBELL_FRES` (R33, R399, R404). -/
def execDoorbellFres (s : State) : Host.Outcome State Fault Refusal :=
  match s.ev with
  | some (.doorbellFres q w) => .next (fresWrite s q w)
  | _ => .next s

/-! ## Root tasks (R400, R401, R407) -/

/-- Root tasks of a queue that run or wait to be placed. -/
def rootCount (s : State) (q : Nat) : Nat := ((allTasks s).filter fun t => t.queue = q && t.root.isSome).length

/-- Free contexts of a die that would take a task. -/
def dieRoom (s : State) (t : Task) (d : Nat) : Nat :=
  ((coresOfDie d).map fun c => if mayPlace s { t with mig := true } c then 4 - heldCtx s c else 0).foldl (· + ·) 0
/-- The home die of a root task (R407): of the dies of its mask, the one with the most free contexts. -/
def rootDie (s : State) (t : Task) : Nat :=
  match ((List.range 4).filter fun d => (coresOfDie d).any fun c => t.mask.getLsbD c) with
  | [] => leader s
  | d :: ds => ds.foldl (fun b d => if dieRoom s t d > dieRoom s t b then d else b) d

/-- The descriptor at cons has been taken from the ring. -/
def rootTaken (s : State) (q : Nat) : State := setQ s q fun x => { x with cons := x.cons + 1, parked := false }

/-- A root task made ready. -/
def rootReady (s : State) (q i : Nat) (t : Task) : State :=
  let d := rootDie s t
  match allocFut s d false { st := .running, count := 1, held := true, left := 1, queue := q } with
  | none => s
  | some (h, s) =>
    let (tid, s) := newTid (rootTaken s q)
    becomeReady s { t with own := h, parent := 0, root := some i, prio := qPrio s q, homeDie := d, homeCl := 24, tid := tid, seq := s.car.seq } none

/-- The next descriptor of a queue's ring. -/
def takeRoot (s : State) (q : Nat) : State :=
  let i := (qst s q).cons.toNat
  let va := (devGet s (qReg q 8) &&& 0x00FFFFFFFFFFFFC0) + BitVec.ofNat 64 (64 * (i % 2 ^ qLsz s q))
  match readTask s (leader s) q va with
  | (.fault code a, s) => carFault s q code a 1
  | (.park, s) => s
  | (.bad, s) =>
    let s := rootTaken s q
    let e := devGet s (qReg q 0x60)
    complete (devSet s (qReg q 0x60) ((e &&& 0x8000000000000000) ||| 0x4000000000000000 ||| BitVec.ofNat 64 i)) q { i := i, value := 0, status := 1, fut := none }
  | (.ok t, s) => rootReady s q i t

/-- A queue that may take a descriptor. -/
def mayTake (s : State) (q : Nat) : Bool :=
  let x := qst s q
  x.st = 1 && x.prod != x.cons && rootCount s q < qRmax s q
/-- `ROOT_TASK_TAKE` (R400, R401, R488): the completion entries that the queue holds are written first. -/
def rootStep (s : State) (q : Nat) : State :=
  if faulted s (.caravan q) then s
  else
    let s := flushCompletions s q (qst s q).completions.length
    if !(qst s q).completions.isEmpty then s
    else if mayTake s q then takeRoot s q
    else queueSettle s q
def execRootTaskTake (s : State) : Host.Outcome State Fault Refusal :=
  match s.ev with
  | some (.rootTaskTake q) => .next (rootStep s q)
  | _ => .next s

/-! ## Ranges (R197) -/

/-- A die with a free context for a range's tasks. -/
def dieWants (s : State) (die : Nat) (r : RangeC) : Bool :=
  !s.car.failed.contains die && (coresOfDie die).any fun c => mayPlace s r.task c
/-- The tasks of a chunk, in ascending order, in the list of the die that obtained it. -/
def chunkTasks (s : State) (die : Nat) (t : Task) : Nat → Nat → State
  | 0, _ => s
  | k + 1, i =>
    let s := { s with car := { s.car with tid := s.car.tid + 1 } }
    let r : Ready := { task := { t with idx := i, tid := s.car.tid }, list := .die die, since := s.clk }
    chunkTasks { s with car := { s.car with ready := s.car.ready ++ [r] } } die t k (i + 1)
/-- A chunk granted to a die, the counter copied to the replica first. -/
def grantChunk (s : State) (die key : Nat) (r : RangeC) : State :=
  let c := max 1 (min 64 ((r.n - r.next) / 16))
  let r' := { r with next := r.next + c }
  let s := { s with car := { s.car with replica := SMap.set s.car.replica key r' } }
  let s := if r'.next ≥ r.n then
      { s with car := { s.car with range := SMap.erase s.car.range key, replica := SMap.erase s.car.replica key } }
    else { s with car := { s.car with range := SMap.set s.car.range key r' } }
  chunkTasks s die r.task c r.next
/-- The ranges of which a die may ask for a chunk. Where there are several, the die asks for the one of the lowest future: the spec
does not say which (log 95). -/
def wantedRanges (s : State) (die : Nat) : List (Nat × RangeC) := s.car.range.filter fun r => dieWants s die r.2
/-- `RANGE_CHUNK_REQUEST` (R197). -/
def execRangeChunkRequest (s : State) : Host.Outcome State Fault Refusal :=
  match s.ev with
  | some (.rangeChunkRequest die) => .next (match wantedRanges s die with | (k, r) :: _ => grantChunk s die k r | [] => s)
  | _ => .next s

/-! ## Placement (R409 to R411) -/

/-- A saved task bound to a context, which its restore makes ready. -/
def bindSaved (s : State) (core : Nat) (r : Ready) : State :=
  match freeCtx s core, takeAcc s core r.task.demand with
  | some c, some l =>
    let x := ctxOf s c
    let s := setCtx s c { ({} : Ctx) with task := some r.task, phys := l, inval := x.inval, farOut := x.farOut, dests := x.dests, placed := s.clk }
    { s with car := { s.car with restoring := s.car.restoring ++ [(c, r)] } }
  | _, _ => s

/-- A task taken from its list and placed on a core. -/
def placeReady (s : State) (core : Nat) (r : Ready) : State :=
  let s := { s with car := { s.car with ready := s.car.ready.filter (fun x => x.task.tid != r.task.tid)
                                        claim := s.car.claim.filter fun a => a.1 != r.task.tid } }
  match r.saved with
  | some _ => bindSaved s core r
  | none => placeOn s r.task core

/-- The pre-emptor for which a context of the core was freed (R411). -/
def claimant (s : State) (core : Nat) : Option Ready :=
  (s.car.claim.filter fun a => a.2 = core).findSome? fun a =>
    s.car.ready.find? fun r => r.task.tid = a.1 && mayPlace s r.task core && restorable r
/-- The task that a dispatcher would place on a core. -/
def placeable (s : State) (core : Nat) : Option Ready :=
  match claimant s core with
  | some r => some r
  | none => bestFor s core
/-- The task that a dispatcher places on a core now: the core's cluster is on (R483). -/
def toPlace (s : State) (core : Nat) : Option Ready := if clusterOn s (core / 8) then placeable s core else none
/-- `TASK_PLACE` (R409 to R411, R194). -/
def execTaskPlace (s : State) : Host.Outcome State Fault Refusal :=
  match s.ev with
  | some (.taskPlace core) => .next (match toPlace s core with | some r => placeReady s core r | none => s)
  | _ => .next s

/-- The delay of pre-emption: none where it is disabled (R411). -/
def preemptDelay (s : State) : Option Nat :=
  let p := bitsAt (devGet s 0xF00001340000).toNat 0 6
  if p = 0 then none else some (2 ^ min 40 p)
/-- A ready task that is a pre-emptor now (R411). -/
def preemptor (s : State) (r : Ready) : Bool :=
  restorable r && !(s.car.claim.any fun a => a.1 = r.task.tid) && !((List.range 192).any (mayPlace s r.task))
    && (r.task.handler.isSome || (match preemptDelay s with | some d => r.since + d ≤ s.clk | none => false))
/-- A context whose task may give way to a ready task (R411, R428); one that is ending goes on to its end (R205, R221). -/
def mayGive (s : State) (r : Ready) (c : Nat) : Bool :=
  match (ctxOf s c).task with
  | none => false
  | some t =>
    t.prio < effPrio s r && t.save != 0 && (ctxOf s c).ending.isNone && mayRun s r.task (coreOf c)
      && !(s.car.saving.any fun v => v.ctx = c) && !(s.car.restoring.any fun v => v.1 = c)
      && (takeAcc (freeContext s c) (coreOf c) r.task.demand).isSome
/-- Context a is a better victim than b: lower priority, later placement, higher number. -/
def worse (s : State) (a b : Nat) : Bool :=
  lexLt [(taskOf s a).prio, 2 ^ 64 - (ctxOf s a).placed, 1024 - a] [(taskOf s b).prio, 2 ^ 64 - (ctxOf s b).placed, 1024 - b]
/-- The victim of a pre-emptor. -/
def victimFor (s : State) (r : Ready) : Option Nat :=
  ((s.ctx.map (·.1)).filter (mayGive s r)).foldl (fun b c => match b with
    | none => some c
    | some v => if worse s c v then some c else some v) none
/-- A pre-emption in flight for a ready task. -/
def preempt (s : State) (tid : Nat) : State :=
  match s.car.ready.find? fun r => r.task.tid = tid with
  | none => s
  | some r =>
    if !preemptor s r then s
    else match victimFor s r with
    | none => s
    | some c => beginSave { s with car := { s.car with claim := s.car.claim ++ [(tid, coreOf c)] } } c
/-- `PREEMPTION` (R411). -/
def execPreemption (s : State) : Host.Outcome State Fault Refusal :=
  match s.ev with
  | some (.preemption tid) => .next (preempt s tid)
  | _ => .next s

end Sys2Proof.Machine
end

