-- ==== Sys2Proof/Machine/EvSave.lean ====
section
/-! DEFINITION. Saves and restores (R427 to R433), the watchdog (R434, R435), lost contexts (R428, R437), checkpoints and
rollback (R438 to R441), and failed dies (R198). -/
namespace Sys2Proof.Machine

/-! ## Saves (R427 to R430) -/

/-- The M commands of a context's task that can go no further now: parked on a tile or by a fault, or behind such a command. Edges go
to earlier commands. -/
def mStuck (s : State) (c : Nat) : List Nat :=
  let ms := mCmds s c
  let base := (ms.filter fun m => m.parked || faulted s (.mcmd (coreOf c) m.id)).map MCmd.id
  ms.foldl (fun l m => if !l.contains m.id && m.deps.any l.contains then l ++ [m.id] else l) base
/-- Every other M command of the task has retired (R341, R427 step 4). -/
def mQuiet (s : State) (c : Nat) : Bool := (mCmds s c).all fun m => !m.done && (mStuck s c).contains m.id
/-- A context has passed step 4 of R427: its loads have arrived, its stores are performed, and its M commands are quiet. -/
def ctxQuiet (s : State) (c : Nat) : Bool := mQuiet s c && allHere (ctxOf s c) && (ctxOf s c).stq.isEmpty

/-- What a context waits for before its image is written. -/
def saveQuiet (s : State) (c : Nat) : Bool :=
  ctxQuiet s c && (ctxOf s c).inval = 0 && (ctxOf s c).farOut = 0 && (ctxOf s c).ending.isNone
    && !(s.pending.any fun e => e.lane == some (100000 + c)) && !(s.mboxW.any fun w => w.ctx = c)

/-- The trap of a load that delivers no value, which the context takes (R108). One that was refused is kept, to be asked again (R33). -/
def takeLoad (s : State) (c : Nat) (f : Flight) (va : Word) : State :=
  let s := takeTrap s c f.sub va f.akind (some (match f.dst with | .g _ => slotL | _ => 0))
  if f.sub = 24 then updCtx s c fun x => { x with flights := x.flights.erase f } else s
/-- Such a load becomes its trap before the save (R108, R427). -/
def poisonTrap (s : State) (c : Nat) : State :=
  let x := ctxOf s c
  if x.trap.isSome then s
  else match x.flights.findSome? fun f => f.poison.map fun va => (f, va) with
  | some (f, va) => takeLoad s c f va
  | none => s

/-- Results land and the reservation is cancelled (R427 steps 2 and 3). -/
def drainCtx (s : State) (c : Nat) : State := resvCancel (updCtx (poisonTrap s c) c landAll) c

/-- What a saved task keeps beside its image. -/
def savedOfCtx (s : State) (c : Nat) : Saved :=
  let x := ctxOf s c
  let ms := mCmds s c
  { trap := x.trap, bar := x.bar, cmdno := x.cmdno, pos := x.pos, fold := x.fold, owed := owedOf s c, half := x.half, held := x.held, wfi := x.wfi
    remote := x.remote.filter fun r => r.kind != 5, itin := x.itin, hdr := x.hdr, dly := x.dly, ptaken := x.ptaken, pend := x.pend
    levels := x.loop.levels, late := x.late, m := ms.map fun m => { m with pins := [] }, lines := openLines s c
    pinned := pinLines s c, dests := x.dests, track := x.track, flights := x.flights, buffer := x.loop.buffer }

/-- The task of a context as it enters a list (R405, R406). -/
def savedTask (s : State) (c : Nat) : Task :=
  { taskOf s c with barCl := if (ctxOf s c).bar.isSome then some (clusterOf c) else none }

/-- The versions that an M command's record gives: those that it has pinned, and what it requires of the others (R341, R429). -/
def recVers (s : State) (c : Nat) (m : MCmd) : List Nat :=
  (mTiles m).map fun (b, co) => match mPinned s (coreOf c) m b co with | some l => l.ver | none => b.ver.toNat

/-- The context is given up: its lines, pins, commands and accumulators (R427 steps 5 and 7). -/
def leaveCtx (s : State) (c : Nat) : State :=
  let core := coreOf c
  let ids := (mCmds s c).map MCmd.id
  let s := (mCmds s c).foldl (fun s m => mUnpin s core m) s
  let s := (ctxOf s c).pins.foldl (fun s p => unpinLine s core p.1 p.2) s
  let s := (openLines s c).foldl (fun s l => delLine s core l.id) s
  let s := setEng s core fun e => { e with
    m := e.m.filter fun m => !ids.contains m.id
    run := e.run.bind fun id => if ids.contains id then none else some id }
  updCtx (freeContext s c) c fun x => { x with dests := [] }

/-- A save that every condition allows now: the image is written, the release made, and the context freed. A fault on a write
of the image loses the context. -/
def saveNow (s : State) (c : Nat) : State :=
  let s := drainCtx s c
  let img := imageOf s c (mCmds s c) (recVers s c)
  match imgWrite s (taskOf s c) 0 img (img.length / 64 + 1) with
  | (.fault _ _, s) => loseContext s c
  | (.park, s) => s
  | (.ok _, s) =>
    let s := trRec (releaseAt s (coreOf c) 4) c 11 (ctxOf s c).pc.toNat 0
    let r : Ready := { task := savedTask s c, list := .cl (clusterOf c), since := s.clk, saved := some (savedOfCtx s c) }
    let s := leaveCtx s c
    { s with car := { s.car with saving := s.car.saving.filter (fun v => v.ctx != c), ready := s.car.ready ++ [r] } }
/-- `CONTEXT_SAVE` (R427 to R430). -/
def execContextSave (s : State) : Host.Outcome State Fault Refusal :=
  match s.ev with
  | some (.contextSave c) => .next (if (s.car.saving.any fun v => v.ctx = c) && saveQuiet s c then saveNow s c else s)
  | _ => .next s

/-- The save bound (R428). -/
def saveBound (s : State) : Nat := max 1 (bitsAt (devGet s 0xF00001340048).toNat 0 32) * 1024
/-- `SAVE_BOUND_EXPIRY` (R428, R437). -/
def execSaveBoundExpiry (s : State) : Host.Outcome State Fault Refusal :=
  match s.ev with
  | some (.saveBoundExpiry c) =>
    .next (if s.car.saving.any fun v => v.ctx = c && v.since + saveBound s ≤ s.clk then loseContext s c else s)
  | _ => .next s

/-! ## Restores (R431 to R433) -/

/-- Open line i of an image: its tile must be the one that was open; its version and contents are those written there. -/
def openFrom (b : List Byte) (i : Nat) (l : TLine) : Option TLine :=
  if i ≥ ofLe ((b.drop 0xE9).take 1) then some l
  else
    let o := b.drop (0x90000 + 0xA000 * i)
    if o.take 24 == wordsLe (tagWords l.tile) then
      some { l with ver := ofLe ((o.drop 24).take 2), rows := if l.st == .openPoisoned then l.rows else lineRows l.b.desc (o.drop 64) }
    else none
/-- Pin record i of an image: version and count. -/
def pinFrom (b : List Byte) (i : Nat) (l : TLine) : Option (Nat × Nat) :=
  let o := b.drop (0x1600 + 32 * i)
  if o.take 24 == wordsLe (tagWords l.tile) then some (ofLe ((o.drop 24).take 2), ofLe ((o.drop 26).take 2)) else none

/-- Items of a list with their places, all of them or none. -/
def allFrom {α β : Type} (f : Nat → α → Option β) : Nat → List α → Option (List β)
  | _, [] => some []
  | i, x :: l => match f i x, allFrom f (i + 1) l with
    | some y, some ys => some (y :: ys)
    | _, _ => none

/-- M-command record i of an image: the command that was saved, at the position written there. -/
def cmdFrom (b : List Byte) (i : Nat) (m : MCmd) : Option MCmd :=
  let o := b.drop (0x1E00 + 64 * i)
  let st := ofLe ((o.drop 8).take 8)
  if o.take 8 == (mRecord m []).take 8 && st / 2 ^ 57 = Instr_op m.op then
    some { m with acc := bitsAt st 54 3, iter := bitsAt st 38 16, kstep := bitsAt st 28 10, row := bitsAt st 16 12, started := st.testBit 0 }
  else none

/-- What a restore found: the registers, M commands, open lines, pins (line, version, count). -/
structure Restore where
  x : Ctx
  m : List MCmd
  lines : List TLine
  pins : List (TLine × Nat × Nat)
  deriving DecidableEq, Repr

/-- The image of a task read (R431 step 2): none where it is malformed. -/
def readImage (r : Ready) (v : Saved) (phys : List Nat) (b : List Byte) : Option Restore :=
  match v.regs with
  | some x => some { x := { x with task := some r.task, phys := phys }, m := v.m, lines := v.lines, pins := v.pinned.map fun p => (p.1, p.1.ver, p.2) }
  | none =>
    match allFrom (openFrom b) 0 v.lines, allFrom (fun i (p : TLine × Nat) => (pinFrom b i p.1).map fun q => (p.1, q)) 0 v.pinned,
        allFrom (cmdFrom b) 0 v.m with
    | some ls, some ps, some ms => some { x := imageCtx b r.task phys v, m := ms, lines := ls, pins := ps }
    | _, _, _ => none

/-- The lines that the pins of a restore take now, all of them, or a wait for fills (R431 step 4). -/
def pinLinesNow (s : State) (c : Nat) : List (TLine × Nat × Nat) → Option (List (Nat × Nat)) × State
  | [] => (some [], s)
  | (l, ver, n) :: rest =>
    let (need, s) := match tileNeed s c l.b l.tile ver with
      | (.poisoned id, s) => (TNeed.wait, delLine s (coreOf c) id)
      | x => x
    match need, pinLinesNow s c rest with
    | .line y, (some ps, s) => (some ((y.id, n) :: ps), s)
    | _, (_, s) => (none, s)

/-- Room in a CTC for the open lines of a restore. -/
def linesRoom (s : State) (core : Nat) (ls : List TLine) : Option State :=
  let need := (ls.map TLine.segs).foldl (· + ·) 0
  if ls.isEmpty then some s else (ctcRoom (ctcOf s core) need (ctcOf s core).length).map fun l => setCtc s core l

/-- Open lines reinstalled, and their entries' owner, here or in another package (R431 step 3). -/
def openPut (s : State) (c : Nat) (l : TLine) : State :=
  let (id, s) := newId s
  let s := setCtc s (coreOf c) (ctcOf s (coreOf c) ++ [{ l with id := id, ctx := c, pins := 0 }])
  if l.ctx = c then s else tellMoved s l.home l.tile l.ctx c

/-- Steps 3 to 7 of R431, once every tile is there. -/
def restorePut (s : State) (c : Nat) (r : Ready) (v : Saved) (x : Restore) (pins : List (Nat × Nat)) : State :=
  let core := coreOf c
  let s := x.lines.foldl (fun s l => openPut s c l) s
  let old := ctxOf s c
  let flight (g : Flight) : Flight := { g with parts := g.parts.map fun p => { p with ask := p.ask.map fun k => { k with sctx := c } } }
  let dests := old.dests ++ v.dests.filter fun d => !(old.dests.any fun e => e.1 = d.1)
  let busy (y : Ctx) : Ctx := (x.m.flatMap MCmd.accs).foldl (fun y a => setAcc y a fun k => { k with busy := true }) y
  let s := setCtx s c (busy { x.x with
    task := some { r.task with barCl := none }, inval := old.inval, farOut := old.farOut, placed := old.placed, pins := [], wfi := v.wfi
    remote := v.remote, dests := dests, track := v.track, flights := v.flights.map flight, fetch := [], ahead := [], block := false, out := false
    readyAt := none, lastIssue := none, trap := v.trap })
  let s := pins.foldl (fun s p => pinLine (useLine s core p.1) c p.1 p.2) s
  let s := setEng s core fun e => { e with m := e.m ++ x.m.map fun m => { m with ctx := c, parked := false } }
  trRec { s with car := { s.car with restoring := s.car.restoring.filter fun y => y.1 != c } } c 12 x.x.pc.toNat 0

/-- A restore as far as it can go now; a fault on a read of the image, or a malformed one, loses the context (R429, R437). -/
def restoreStep (s : State) (c : Nat) (r : Ready) (v : Saved) : State :=
  let (img, s) := if v.regs.isSome then (CarR.ok [], s) else imgRead s r.task 0 0x130000
  match img with
  | .fault _ _ => loseContext s c
  | .park => s
  | .ok b =>
    match readImage r v (ctxOf s c).phys b with
    | none => loseContext s c
    | some x =>
      match pinLinesNow (acquireAt s (coreOf c) 4) c x.pins with
      | (none, s) => s
      | (some ps, s) => match linesRoom s (coreOf c) x.lines with
        | none => s
        | some s => if ps.all fun p => (ctcLine s (coreOf c) p.1).isSome then restorePut s c r v x ps else s
/-- `CONTEXT_RESTORE` (R431). -/
def execContextRestore (s : State) : Host.Outcome State Fault Refusal :=
  match s.ev with
  | some (.contextRestore c) => .next (match s.car.restoring.find? fun y => y.1 = c with
    | some (_, r) => (match r.saved with | some v => if v.owed = 0 then restoreStep s c r v else s | none => s)
    | none => s)
  | _ => .next s

/-! ## The watchdog (R434 to R436) -/

/-- An expiry that is due: a task holds the context, it awaits no handler and is not ending, and no save or restore is in progress. -/
def wdogDue (s : State) (c : Nat) : Bool :=
  let x := ctxOf s c
  x.task.isSome && x.wdog = 0 && x.trap.isNone && x.fold = 0 && x.ending.isNone
    && !(s.car.saving.any fun v => v.ctx = c) && !(s.car.restoring.any fun v => v.1 = c)
/-- `WATCHDOG_EXPIRE` (R434). -/
def execWatchdogExpire (s : State) : Host.Outcome State Fault Refusal :=
  match s.ev with
  | some (.watchdogExpire c) => .next (if wdogDue s c then whenHere s c fun s => takeTrap s c 72 0 0 none else s)
  | _ => .next s

/-! ## Checkpoints (R438, R439) -/

/-- Contexts whose task belongs to a queue. -/
def queueCtxs (s : State) (q : Nat) : List Nat :=
  (s.ctx.filter fun (_, x) => match x.task with | some t => t.queue = q | none => false).map (·.1)
/-- The log region's limit (R438): the model counts 256 bytes for a record, whose format is internal. -/
def logFull (s : State) (q : Nat) : Bool :=
  let g := bitsAt (qGet s q 0x50) 0 5
  let gib := if g = 0 || g > 16 then 16 else g
  (SMap.getD s.undo q []).length * 256 ≥ gib * 2 ^ 30 / 16 * 15
/-- The interval of a queue ends (R438). -/
def intervalDue (s : State) (q : Nat) : Bool :=
  match (qst s q).interval with
  | none => false
  | some t => (qst s q).ckptReq || t + 2 ^ qIexp s q ≤ s.clk || logFull s q

/-- The lines of the queue's plain stores reach HBM, so that the checkpoint holds them. -/
def flushPlain (s : State) (q : Nat) : State :=
  let s := s.l1d.foldl (fun s (core, c) => c.lines.foldl (fun s (ln, l) => if l.queue = some q then l1WriteBack s core ln else s) s) s
  s.clc.foldl (fun s (cl, c) => c.lines.foldl (fun s (ln, l) => if l.queue = some q then clcWriteBack s cl ln else s) s) s

/-- A dirty posted line of a CLC written back once nothing reads its tile in HBM (R94): where it stands, or through a victim buffer
where its home lies in another package. -/
def cleanLine (s : State) (cl : Nat) (l : TLine) : State :=
  if l.home != s.pkg then (if (victimsOf s cl).length < 16 then beginWriteback s cl l else s)
  else if oReaders s l.tile > 0 then s
  else match writeBack s cl l false with
  | (.ok _, s) | (.drop, s) =>
    let s := setClcT s cl ((clcT s cl).map fun x => if x.id = l.id then { x with dirty := false } else x)
    pumpOvf (reServe (nowInHbm s l.tile l.ver (.clc cl)) l.tile) (homeChan l.tile)
  | (.wait, s) => s
/-- Every dirty posted line of an ASID (R439 step 2). -/
def cleanTiles (s : State) (asid : Nat) : State :=
  s.tiles.clc.foldl (fun s (cl, l) => (l.filter fun x => x.dirty && x.tile.asid = asid).foldl (fun s x => cleanLine s cl x) s) s
def tilesClean (s : State) (asid : Nat) : Bool :=
  s.tiles.clc.all (fun (_, l) => l.all fun x => !(x.dirty && x.tile.asid = asid))
    && s.tiles.victims.all fun (_, l) => l.all fun v => v.line.tile.asid != asid

/-- Every entry of an ASID written to its version table; none where a set is full (R439 step 3). -/
def tablePut (s : State) (asid : Nat) : Option State :=
  let l := (s.tiles.oasis.flatMap fun (_, d) => d.sets.flatMap fun (_, l) => l).filter fun e => e.tile.asid = asid
  l.foldl (fun o e => o.bind fun s => vtPut s e.tile e.latest) (some s)

/-- A task of a queue as its checkpoint holds it. -/
def ckptTask (s : State) (c : Nat) : Ready :=
  { task := savedTask s c, list := .cl (clusterOf c), since := s.clk, saved := some { savedOfCtx s c with regs := some (ctxOf s c) } }
/-- The image that a checkpoint writes (R439 step 4). -/
def takeCkpt (s : State) (q : Nat) : Ckpt :=
  let restoring := (s.car.restoring.map Prod.snd).filter fun r => r.task.queue = q
  let live := (queueCtxs s q).filter fun c => !(s.car.restoring.any fun v => v.1 = c)
  let mineF (f : Nat × Future) : Bool := f.2.queue = q && f.2.st != .free
  let mineR (r : Nat × RangeC) : Bool := r.2.task.queue = q
  { futs := s.car.fut.filter mineF
    ready := live.map (ckptTask s) ++ restoring ++ s.car.ready.filter fun r => r.task.queue = q
    ranges := s.car.range.filter mineR
    sq := s.eng.flatMap fun (core, e) => (e.sq.filter fun k => k.queue = q).map fun k => (core, k)
    x := s.eng.flatMap fun (core, e) => (e.x.filter fun k => k.queue = q).map fun k => (core, k) }

/-- A checkpoint given up: the previous one stays in force, and what waits for the interval's end asks again. -/
def ckptAbandon (s : State) (q : Nat) : State :=
  let s := irq (setQ s q fun x => { x with ckptReq := false, interval := some s.clk }) 5
  (queueCtxs s q).foldl (fun s c => updCtx s c fun x => { x with out := false }) s
/-- CHECKPOINT_TAKE (R439). -/
def ckptStep (s : State) (q : Nat) : State :=
  let cs := queueCtxs s q
  if !intervalDue s q || !(cs.all (ctxQuiet s)) then s
  else
    let s := cs.foldl drainCtx s
    let s := cleanTiles (flushPlain s q) (qAsid s q)
    if !tilesClean s (qAsid s q) then s
    else match tablePut s (qAsid s q) with
    | none => ckptAbandon s q
    | some s =>
      let k := takeCkpt s q
      let s := setQ s q fun x => { x with ckptReq := false, interval := some s.clk }
      { movesEnd s q with undo := SMap.set s.undo q [], car := { s.car with ckpt := SMap.set s.car.ckpt q k } }
/-- `CHECKPOINT_INTERVAL_END` (R438, R439). -/
def execCheckpointIntervalEnd (s : State) : Host.Outcome State Fault Refusal :=
  match s.ev with
  | some (.checkpointIntervalEnd q) => .next (ckptStep s q)
  | _ => .next s

/-! ## Rollback (R441) -/

/-- A line's undo record applied: a device write, before which the host's copies are invalidated (R163), and which ends reservations
(R121). -/
def undoLine (s : State) (ln : Nat) (u : Undo) : State :=
  let s := snoopInv (snoopInv s (ln * 128)) (ln * 128 + 64)
  let s := setChan s (chanOf (ln * 128)) fun c => { c with resv := c.resv.filter fun r => r.sector / 4 != ln }
  let bs : List Byte := leBytes u.data.toNat 128
  let put (m : SMap Unit) : SMap Unit :=
    (List.range 4).foldl (fun m i => if u.psn.getLsbD i then SMap.set m (4 * ln + i) () else SMap.erase m (4 * ln + i)) m
  { s with hbm := { s.hbm with
      mem := Memory.store s.hbm.mem (ln * 128) (bs.map some)
      live := if u.live then SMap.set s.hbm.live (ln / 32) () else s.hbm.live
      poison := put s.hbm.poison } }

/-- The lines, fills, victims, translations and directory entries of an ASID leave without write-back; requests and write-backs of
other packages that were parked there ask again, and other homes are told that write-backs begun there do not follow. -/
def purgeAsid (s : State) (asid : Nat) : State :=
  let mine (t : Tile) : Bool := t.asid = asid
  let entries := (s.tiles.oasis.flatMap fun (_, d) => d.sets.flatMap fun (_, l) => l).filter fun e => mine e.tile
  let parked := entries.flatMap fun e => (e.replay.filter fun r => r.pkg != s.pkg).map fun r => (e.tile, r)
  let writers := entries.flatMap OEntry.wbq
  let gone := (s.tiles.victims.flatMap Prod.snd).filter fun v => mine v.line.tile
  let fills := (s.tiles.fills.filter fun f => mine f.tile).map Fill.id
  let stale (m : HomeMsg) : Bool := m.pkt.isNone && (if m.ack then gone.any fun v => v.id = m.fid else fills.contains m.fid)
  let s := { s with
    mmu := { s.mmu with
      tlb := s.mmu.tlb.map fun (k, l) => (k, l.filter fun e => e.asid != asid)
      walk := s.mmu.walk.map fun (k, l) => (k, l.filter fun e => e.asid != asid) }
    fab := { s.fab with gw := s.fab.gw.map fun (d, g) => (d, { g with tiles := g.tiles.filter fun e => !mine e.1 }) }
    tiles := { s.tiles with
      ctc := s.tiles.ctc.map fun (k, l) => (k, l.filter fun x => !mine x.tile)
      clc := s.tiles.clc.map fun (k, l) => (k, l.filter fun x => !mine x.tile)
      fills := s.tiles.fills.filter fun f => !mine f.tile
      victims := s.tiles.victims.map fun (k, l) => (k, l.filter fun v => !mine v.line.tile)
      homeQ := s.tiles.homeQ.filter fun m => !stale m
      oasis := s.tiles.oasis.map fun (n, d) => (n, { d with
        sets := d.sets.map fun (i, l) => (i, l.filter fun e => !mine e.tile)
        ovf := d.ovf.filter fun o => !(mine o.1 && o.2.pkg = s.pkg) }) } }
  let s := (gone.filter fun v => v.line.home != s.pkg && v.sent.isSome).foldl (fun s v => tellDiscard s v.line) s
  pumpAll (writers.foldl wbAsked (parked.foldl (fun s (t, r) => oRequest s t r) s))

/-- The plain lines that a queue's tasks wrote leave the caches without write-back. -/
def dropPlain (s : State) (q : Nat) : State :=
  let keep (l : Nat × Line) : Bool := l.2.queue != some q
  { s with l1d := s.l1d.map fun (k, c) => (k, { c with lines := c.lines.filter keep })
           clc := s.clc.map fun (k, c) => (k, { c with lines := c.lines.filter keep }) }

/-- A sequenced command that a checkpoint holds: one that its switch has not answered goes on, and what has completed since is counted
for the restored task (R395, R433). -/
def restoreSq (s : State) (now : List SCmd) (core : Nat) (k : SCmd) : State :=
  match now.find? fun j => j.id = k.id with
  | some j => setEng s core fun e => { e with sq := e.sq ++ [j] }
  | none => countEv s k.ctx k.tid k.ev
/-- The sequenced commands of a queue. -/
def queueSq (s : State) (q : Nat) : List SCmd := s.eng.flatMap fun e => e.2.sq.filter fun k => k.queue = q

/-- The checkpoint of a queue restored (R441 step 4); `sq`: its sequenced commands as the rollback found them. -/
def restoreCkpt (s : State) (q : Nat) (k : Ckpt) (sq : List SCmd) : State :=
  let mine (f : Nat × Future) : Bool := f.2.queue = q && f.2.st != .free && !SMap.has k.futs f.1
  let s := (s.car.fut.filter mine).foldl (fun s f => freeFut s f.1) s
  let s := k.futs.foldl (fun s f => setFut s f.1 f.2) s
  let s := k.x.foldl (fun s (core, x) => setEng s core fun e => { e with x := e.x ++ [x] }) s
  let ranges := k.ranges.foldl (fun (m : SMap RangeC) r => SMap.set m r.1 r.2) s.car.range
  let s := { s with car := { s.car with range := ranges, ready := s.car.ready ++ k.ready.map fun r => { r with since := s.clk } } }
  k.sq.foldl (fun s c => restoreSq s sq c.1 c.2) s

/-- ROLLBACK (R441); one that fails puts the queue in error, and the root tasks that it stopped complete with status 2 (R402). -/
def rollback (s : State) (q : Nat) : State :=
  if (qst s q).st != 3 then s
  else
    let sq := queueSq s q
    let s := ((allTasks s).filter fun t => t.queue = q).foldl (fun s t => stopTask s t (some 2)) s
    match SMap.get? s.car.ckpt q with
    | none => heldCompletions (setQ s q fun x => { x with st := 4 }) q true
    | some k =>
      let s := dropPlain s q
      let s := (SMap.getD s.undo q []).foldl (fun s u => undoLine s u.1 u.2) s
      let s := restoreCkpt (movesBack (purgeAsid s (qAsid s q)) q) q k sq
      let s := setQ s q fun x => { x with st := 1, interval := some s.clk, ckptReq := false }
      heldCompletions { s with undo := SMap.set s.undo q [] } q false
/-- `ROLLBACK_COMPLETE` (R402, R441). -/
def execRollbackComplete (s : State) : Host.Outcome State Fault Refusal :=
  match s.ev with
  | some (.rollbackComplete q) => .next (rollback s q)
  | _ => .next s

/-! ## Failed dies (R198, R437) -/

/-- A die declared failed: its tasks are lost, and a new leader goes on from its replica. -/
def dieLost (s : State) (d : Nat) : State :=
  let was := leader s
  let s := irq { s with car := { s.car with failed := if s.car.failed.contains d then s.car.failed else s.car.failed ++ [d] } } 0
  let s := if was = d then
      let up (r : Nat × RangeC) : Nat × RangeC := (r.1, SMap.getD s.car.replica r.1 r.2)
      { s with car := { s.car with range := s.car.range.map up } }
    else s
  ((s.ctx.filter fun (c, x) => dieOf c = d && x.task.isSome).map (·.1)).foldl loseContext s
/-- `DIE_FAILED` (R198, R437). -/
def execDieFailed (s : State) : Host.Outcome State Fault Refusal :=
  match s.ev with
  | some (.dieFailed d) => .next (dieLost s d)
  | _ => .next s

end Sys2Proof.Machine
end

