-- ==== Sys2Proof/Machine/EvSmg.lean ====
section
/-! DEFINITION. Sequenced multicast (R185 to R189, R387 to R391, R464): the management command, the sequencing switch, the
entries as they reach this package, and the completion of sequenced commands. -/
namespace Sys2Proof.Machine

/-! ## Groups -/

def groupOf (s : State) (g : Nat) : Option Group := SMap.get? s.fab.group g
def setGroup (s : State) (g : Nat) (x : Option Group) : State :=
  { s with fab := { s.fab with group := match x with | some x => SMap.set s.fab.group g x | none => SMap.erase s.fab.group g } }

/-! ## Entries on their way to members (R188) -/

/-- The entries that a member may have outstanding: as many as its gateway holds ahead of their turn (R188, log 97). -/
def smCredit : Nat := 64
/-- An entry for a member leaves the switch, where the switch holds that member's credit and no earlier entry waits for one. -/
def entryOut (s : State) (g n : Nat) (e : SmEntry) (pkg : Nat) : State :=
  match groupOf s g with
  | none => s
  | some x =>
    if SMap.getD x.owed pkg 0 < smCredit && !(x.queue.any fun q => q.1 = pkg) then
      let s := setGroup s g (some { x with owed := SMap.set x.owed pkg (SMap.getD x.owed pkg 0 + 1) })
      if pkg = s.pkg then cause s (.smgEntryArrive g n e) else s
    else setGroup s g (some { x with queue := x.queue ++ [(pkg, n, e)] })
/-- A member's credit comes back: its next entry leaves. -/
def creditBack (s : State) (g pkg : Nat) : State :=
  match groupOf s g with
  | none => s
  | some x =>
    let x := { x with owed := SMap.set x.owed pkg (SMap.getD x.owed pkg 0 - 1) }
    match x.queue.find? fun q => q.1 = pkg with
    | none => setGroup s g (some x)
    | some q =>
      let rest := x.queue.erase q
      let s := setGroup s g (some { x with queue := rest.filter fun r => r.1 != pkg })
      let s := entryOut s g q.2.1 q.2.2 pkg
      match groupOf s g with
      | some y => setGroup s g (some { y with queue := rest })
      | none => s
/-- An entry numbered n goes to every member that joined before it, and to no one else (R188, R464). -/
def sendEntry (s : State) (g n : Nat) (x : Group) (e : SmEntry) (cmds : List SmMsg) : State :=
  let dst := (x.members.filter fun m => m.2 ≤ n).map (·.1)
  dst.foldl (fun s p => entryOut s g n e p) (setGroup s g (some (if dst.isEmpty then x else { x with wait := x.wait ++ [(n, dst, cmds)] })))

/-- The end of a sequenced command of this package, with its error (R391). -/
def smTell (s : State) (m : SmMsg) (err : Option Nat) : State :=
  if m.pkg = s.pkg then cause s (.sequencedCommandComplete (coreOf m.ctx) m.cmd err) else s

/-! ## `smgcmd` (R186) -/

/-- What the switch does with a command of `smgcmd`: its status. `status` 3: the switch is unreachable, or not top-tier. -/
def smgRun (s : State) (w : Word) (status : Nat) : Nat × State :=
  let g := bitsAt w.toNat 0 12
  let swid := bitsAt w.toNat 32 16
  let k := bitsAt w.toNat 48 3
  if status = 3 then (3, s)
  else match bitsAt w.toNat 60 2 with
  | 0 =>
    if (groupOf s g).isSome then (1, s)
    else if k > 4 then (6, s)
    else (0, setGroup s g (some { swid := swid, k := k }))
  | 1 => match groupOf s g with
    | some x =>
      if x.swid != swid then (2, s)
      else (0, x.held.foldl (fun s m => smTell s m (some 64)) (setGroup s g (some { x with closed := true, held := [] })))
    | none => (2, s)
  | _ => match groupOf s g with
    | some x =>
      if x.swid != swid then (2, s)
      else if !x.closed then (4, s)
      else if !x.members.isEmpty then (5, s)
      else (0, (x.queue.filter fun q => q.1 = s.pkg).foldl (fun s q => cause s (.smgEntryArrive g q.2.1 q.2.2)) (setGroup s g none))
    | none => (2, s)

/-- A write of `smgcmd`: ignored while busy, with op = 3, and from an agent that R473 does not name. A command with go = 1 leaves as a
management packet for the switch that swid names (R177). A command of another package's management core reaches the switch itself,
which answers that package (R185). -/
def smgWrite (s : State) (w : Word) (by_ : Writer) : State :=
  if bitsAt w.toNat 60 2 = 3 then s
  else if by_ == .peer then (if w.getLsbD 62 then (smgRun s w 0).2 else s)
  else if s.fab.cmd.isSome || !mayWrite 0xF00001530000 by_ then s
  else
    let s := devSet s 0xF00001530000 (w &&& 0x3007FFFF00000FFF)
    if w.getLsbD 62 then
      gwReply { s with fab := { s.fab with cmd := some w } } 0
        { ty := 15, dst := bitsAt w.toNat 32 16, src := s.pkg, op := bitsAt w.toNat 60 2, grp := bitsAt w.toNat 0 12, len := 8, data := leBytes w.toNat 8 }
    else s
/-- `smgcmd` written with op = 0 (R186). -/
def execSmgcmdCreate (s : State) : Host.Outcome State Fault Refusal :=
  match s.ev with
  | some (.smgcmdCreate w b) => .next (smgWrite s w b)
  | _ => .next s
/-- `smgcmd` written with op = 1 (R186). -/
def execSmgcmdClose (s : State) : Host.Outcome State Fault Refusal :=
  match s.ev with
  | some (.smgcmdClose w b) => .next (smgWrite s w b)
  | _ => .next s
/-- `smgcmd` written with op = 2 (R186). -/
def execSmgcmdDestroy (s : State) : Host.Outcome State Fault Refusal :=
  match s.ev with
  | some (.smgcmdDestroy w b) => .next (smgWrite s w b)
  | _ => .next s

/-- The switch's answer: `smgstat` holds the result. -/
def smgAnswer (s : State) (status : Nat) : State :=
  match s.fab.cmd with
  | none => s
  | some w =>
    let (st, s) := smgRun s w status
    devSet { s with fab := { s.fab with cmd := none } } 0xF00001530008 (BitVec.ofNat 64 st)
/-- `SMGCMD_ANSWER` (R186). -/
def execSmgcmdAnswer (s : State) : Host.Outcome State Fault Refusal :=
  match s.ev with
  | some (.smgcmdAnswer status) => .next (smgAnswer s status)
  | _ => .next s

/-! ## The sequencing switch (R185, R188, R189) -/

def SmFmt_bytes : SmFmt → Nat
  | .i32 | .f32 => 4
  | .i64 | .f64 => 8
/-- One element of a fold, and its flags (R65, R302, R390). -/
def smFold (op : SmOp) (t : SmFmt) (a b : Nat) : Nat × Fl :=
  let n := 8 * SmFmt_bytes t
  let float (f : FFmt) : Nat × Fl := match op with
    | .add => roundX f .rne false (addF .rne (decF f a) (decF f b))
    | .min => minMaxF f false a b
    | .max => minMaxF f true a b
  match t with
  | .f32 => float .f32
  | .f64 => float .f64
  | .i32 | .i64 => (match op with
    | .add => (a + b) % 2 ^ n
    | .min => if sgn n b < sgn n a then b else a
    | .max => if sgn n a < sgn n b then b else a, 0)
/-- A contribution folded into the running value, and the flags of that step (R65, R189, R465). -/
def foldIn (op : SmOp) (t : SmFmt) (a b : List Byte) : List Byte × Fl :=
  let n := SmFmt_bytes t
  let el (l : List Byte) (i : Nat) : Nat := ofLe ((l.drop (n * i)).take n)
  let res := (List.range (a.length / n)).map fun i => smFold op t (el a i) (el b i)
  (res.flatMap fun r => leBytes r.1 n, orFlags (res.map (·.2)))
/-- The running value of a round: the first contribution unchanged, the others folded in sequence order. -/
def roundResult (r : Round) : List Byte :=
  match r.data with
  | [] => []
  | m :: ms => ms.foldl (fun a x => (foldIn r.op r.fmt a x.data).1) m.data
/-- The flags of folding one more contribution in; the first raises none (R465). -/
def roundFlags (r : Round) (m : SmMsg) : Fl := if r.data.isEmpty then 0 else (foldIn r.op r.fmt (roundResult r) m.data).2
/-- The flags of a contribution of this package reach the context that made it, before its event is counted (R52, R465). -/
def smFlags (s : State) (m : SmMsg) (fl : Fl) : State :=
  match (engOf s (coreOf m.ctx)).sq.find? fun c => c.id = m.cmd with
  | some c => if m.pkg = s.pkg then flagsTo s c.ctx c.tid fl else s
  | none => s

/-- The next number; the group is closed after the last one. -/
def number (x : Group) : Nat × Group := (x.next, { x with next := x.next + 1, closed := x.closed || x.next ≥ 0xFFFFFFFF })

/-- The offset and length of a command are within R389 and R390. -/
def smRange (k : Nat) (m : SmMsg) : Bool :=
  let n := m.data.length
  match m.kind with
  | .dir off => off % 8 = 0 && 0x40 ≤ off && off + n ≤ 2 ^ k * 32768
  | .red _ t off => off % 8 = 0 && 0x40 ≤ off && off + n ≤ 2 ^ k * 32768 && off % SmFmt_bytes t = 0 && n % SmFmt_bytes t = 0
  | .log => n ≤ 240
  | .join | .leave => true

/-- A round whose last expected contribution is entry n is closed: the result goes out, and what was held at the switch comes free. -/
def closeRound (s : State) (g n : Nat) (x : Group) (r : Round) : List SmMsg × State :=
  (x.held, sendEntry s g n { x with round := none, held := [] } (.dir r.off (roundResult r)) r.data)

/-- A contribution (R189), with what it sets free. -/
def contribute (s : State) (g : Nat) (x : Group) (m : SmMsg) (op : SmOp) (t : SmFmt) (off : Nat) : List SmMsg × State :=
  let put (x : Group) (r : Round) : List SmMsg × State :=
    let s := smFlags s m (roundFlags r m)
    let (n, x) := number x
    let r := { r with data := r.data ++ [m], want := r.want.filter fun p => p != m.pkg }
    if r.want.isEmpty then closeRound s g n x r
    else ([], sendEntry s g n { x with round := some r } .empty [])
  match x.round with
  | none => put x { op := op, fmt := t, off := off, data := [], want := x.members.map (·.1) }
  | some r =>
    if !(r.op = op && r.fmt = t && r.off = off && (r.data.all fun d => d.data.length = m.data.length)) then ([], smTell s m (some 65))
    else if r.want.contains m.pkg then put x r
    else ([], setGroup s g (some { x with held := x.held ++ [m] }))

/-- An `smst` or `smred` at the switch: its error, or its number; with what it sets free. -/
def smStep (s : State) (m : SmMsg) : List SmMsg × State :=
  match groupOf s m.grp with
  | none => ([], smTell s m (some 66))
  | some x =>
    if x.closed then ([], smTell s m (some 64))
    else if !(x.members.any fun p => p.1 = m.pkg) then ([], smTell s m (some 66))
    else if !smRange x.k m then ([], smTell s m (some 67))
    else match m.kind with
    | .red op t off => contribute s m.grp x m op t off
    | .dir off => let (n, x) := number x; ([], sendEntry s m.grp n x (.dir off m.data) [m])
    | _ => let (n, x) := number x; ([], sendEntry s m.grp n x (.log m.pkg m.ctx m.data) [m])
/-- Commands at the switch, in order: what a round held follows its closing at once, and opens the next (R189). -/
def smAll : Nat → List SmMsg → State → State
  | 0, _, s => s
  | _, [], s => s
  | k + 1, m :: l, s => let (free, s) := smStep s m; smAll k (free ++ l) s
/-- The commands that a closed round sets free, in the order in which they were held. -/
def smFree (l : List SmMsg) (s : State) : State := smAll ((l.length + 1) * (l.length + 1)) l s
/-- A command reaches the switch. -/
def smCommand (s : State) (m : SmMsg) : State := let (free, s) := smStep s m; smFree free s

/-! ## Joining and leaving (R187, R387, R464) -/

/-- The pages of a window from page i up, each a resident 64 KiB leaf of this package with w = 1 and mh = 2, at ascending frames from
that of the first page (R387); the address of the first. R486 names no agent for this check: the walkers of the die that asks make
it (log 96). -/
def windowAt (s : State) (die asid va : Nat) : Nat → Nat → Option Nat → Option Nat × State
  | 0, _, base => (base, s)
  | k + 1, i, base =>
    match walk s die asid (va + i * 65536) with
    | (.fault _, s) => (none, s)
    | (.leaf e lvl _, s) =>
      let pa := pteFrame e * 65536
      let fits := match base with | some b => pa = b + i * 65536 | none => true
      if (checkLeaf s e lvl).isSome || !(fits && lvl = 0 && pteKind e = 2 && ptePkg e = s.pkg && isHbm pa && pteW e && pteMh e = 2) then (none, s)
      else windowAt s die asid va k (i + 1) (some (base.getD pa))
/-- The window of an `smjoin`. -/
def joinWindow (s : State) (die asid va k : Nat) : Option Nat × State :=
  if va % 65536 != 0 || va + 2 ^ k * 65536 > 2 ^ 56 then (none, s) else windowAt s die asid va (2 ^ k) 0 none

/-- The answer of a join or a leave reaches the task that asked, which its message's command field names. -/
def joinAnswer (s : State) (m : SmMsg) (status : Nat) : State :=
  if m.pkg != s.pkg then s
  else
    let put (l : List Remote) : List Remote := l.map fun r =>
      if r.kind = 16 && r.pkg = m.grp && r.reply.isNone then { r with reply := some (leBytes status 8, false, false) } else r
    if liveIn s m.ctx m.cmd then updCtx s m.ctx fun x => { x with remote := put x.remote }
    else match ctxOfTid s m.cmd with
    | some c => updSaved (updCtx s c fun x => { x with remote := put x.remote }) m.cmd fun v => { v with remote := put v.remote }
    | none => updSaved s m.cmd fun v => { v with remote := put v.remote }

/-- The header of a window as the gateway writes it (R187, R387). -/
def writeHeader (s : State) (pa k n : Nat) : State :=
  hbmPut s none pa (leBytes n 8 ++ leBytes (n + 1) 8 ++ leBytes (128 * 2 ^ k) 4 ++ List.replicate 44 0)

/-- A join at the switch. -/
def joinGroup (s : State) (m : SmMsg) (x : Group) : State :=
  if x.members.any fun p => p.1 = m.pkg then joinAnswer s m 1
  else
    let (win, s) := if m.pkg = s.pkg then joinWindow s (dieOf m.ctx) (((allTasks s).find? fun t => t.tid = m.cmd).getD {}).asid (ofLe m.data) x.k else (some 0, s)
    match win with
    | none => joinAnswer s m 3
    | some pa =>
      let (n, x) := number x
      let s := sendEntry s m.grp n { x with members := x.members ++ [(m.pkg, n + 1)] } .empty []
      let s := if m.pkg = s.pkg then
          writeHeader { s with fab := { s.fab with member := SMap.set s.fab.member m.grp { pa := pa, k := x.k, nextN := n + 1 } } } pa x.k n
        else s
      joinAnswer s m 0

/-- A leave at the switch: the round no longer expects the member; a round that this completes has its result in the leave's
own entry. -/
def leaveGroup (s : State) (m : SmMsg) (x : Group) : State :=
  if !(x.members.any fun p => p.1 = m.pkg) then joinAnswer s m 5
  else
    let (n, x) := number x
    let s := if m.pkg = s.pkg then
        { s with fab := { s.fab with member := SMap.modify s.fab.member m.grp { pa := 0, k := 0, nextN := 0 } fun y => { y with leave := some n } } }
      else s
    let gone (y : Group) : Group := { y with members := y.members.filter fun p => p.1 != m.pkg }
    let (free, s) := match x.round with
      | none => ([], sendEntry s m.grp n x .empty [])
      | some r =>
        let r := { r with want := r.want.filter fun p => p != m.pkg }
        if r.want.isEmpty then closeRound s m.grp n x r else ([], sendEntry s m.grp n { x with round := some r } .empty [])
    joinAnswer (smFree free (match groupOf s m.grp with | some y => setGroup s m.grp (some (gone y)) | none => s)) m 0

/-- A command that is sent again after its fault (R391) is no longer stopped. -/
def smClear (s : State) (m : SmMsg) : State :=
  if m.pkg != s.pkg then s
  else setEng s (coreOf m.ctx) fun e => { e with sq := e.sq.map fun c => if c.id = m.cmd then { c with fault := none } else c }

/-- `SWITCH_SEQUENCE` (R185, R188, R189, R387, R464). -/
def execSwitchSequence (s : State) : Host.Outcome State Fault Refusal :=
  match s.ev with
  | some (.switchSequence m) => .next (match m.kind with
    | .join | .leave => match groupOf s m.grp with
      | none => joinAnswer s m 2
      | some x => if x.closed then joinAnswer s m 4 else if m.kind = .join then joinGroup s m x else leaveGroup s m x
    | _ => smCommand (smClear s m) m)
  | _ => .next s

/-! ## Entries at this package (R155, R187, R188) -/

/-- A log slot (R187). -/
def logSlot (n pkg ctx : Nat) (data : List Byte) : List Byte :=
  leBytes n 8 ++ leBytes (pkg + ctx * 2 ^ 14 + data.length / 8 * 2 ^ 32) 8 ++ padTo 240 data

/-- Entry n applied: its payload or slot, then `last`. -/
def applyEntry (s : State) (m : Member) (n : Nat) (e : SmEntry) : State :=
  let s := match e with
    | .empty => s
    | .dir off data => hbmPut s none (m.pa + off) data
    | .log pkg ctx data => hbmPut s none (m.pa + 2 ^ m.k * 32768 + 256 * (n % (128 * 2 ^ m.k))) (logSlot n pkg ctx data)
  hbmPutN s none m.pa 8 n

/-- The entries whose turn has come are applied and acknowledged; the package's leave ends its membership. -/
def applyAll (s : State) (g : Nat) : Nat → State
  | 0 => s
  | k + 1 =>
    match SMap.get? s.fab.member g with
    | none => s
    | some m => match SMap.get? m.ahead m.nextN with
      | none => s
      | some e =>
        let n := m.nextN
        let s := cause (applyEntry s m n e) (.smgMemberAck g s.pkg n)
        let rest : SMap SmEntry := SMap.erase m.ahead n
        if m.leave = some n then { s with fab := { s.fab with member := SMap.erase s.fab.member g } }
        else applyAll { s with fab := { s.fab with member := SMap.set s.fab.member g { m with nextN := n + 1, ahead := rest } } } g k
/-- An entry that arrives waits for its turn (R188). -/
def entryArrive (s : State) (g n : Nat) (e : SmEntry) : State :=
  match SMap.get? s.fab.member g with
  | none => s
  | some m =>
    if n < m.nextN then cause s (.smgMemberAck g s.pkg n)
    else if m.ahead.length ≥ 64 && n != m.nextN then cause s (.smgEntryArrive g n e)
    else
      let got : SMap SmEntry := SMap.set m.ahead n e
      applyAll { s with fab := { s.fab with member := SMap.set s.fab.member g { m with ahead := got } } } g (got.length + 1)
/-- `SMG_ENTRY_ARRIVE` (R155, R188). -/
def execSmgEntryArrive (s : State) : Host.Outcome State Fault Refusal :=
  match s.ev with
  | some (.smgEntryArrive g n e) => .next (entryArrive s g n e)
  | _ => .next s

/-- A member's acknowledgement of entry n returns its credit; with the last one, the entry's commands complete (R188, R391). -/
def memberAck (s : State) (g pkg n : Nat) : State :=
  match groupOf s g with
  | none => s
  | some x =>
    let upd (w : Nat × List Nat × List SmMsg) : Nat × List Nat × List SmMsg :=
      if w.1 = n then (w.1, w.2.1.filter (fun p => p != pkg), w.2.2) else w
    let wait := x.wait.map upd
    let done := wait.filter fun w => w.2.1.isEmpty
    let s := setGroup s g (some { x with wait := wait.filter fun w => !w.2.1.isEmpty })
    let s := if x.wait.any fun w => w.1 = n && w.2.1.contains pkg then creditBack s g pkg else s
    (done.flatMap fun w => w.2.2).foldl (fun s m => smTell s m none) s
/-- `SMG_MEMBER_ACK` (R188, R391). -/
def execSmgMemberAck (s : State) : Host.Outcome State Fault Refusal :=
  match s.ev with
  | some (.smgMemberAck g pkg n) => .next (memberAck s g pkg n)
  | _ => .next s

/-! ## Completion (R391) -/

/-- The status word of a sequenced command (R419). -/
def sqStatus (c : SCmd) : Word := match c.msg.kind with | .red _ _ _ => 0x1000000000000000 | _ => 0
/-- A sequenced command completes: its event is counted, or its fault is raised. -/
def sqDone (s : State) (core id : Nat) (err : Option Nat) : State :=
  match (engOf s core).sq.find? fun c => c.id = id with
  | none => s
  | some c => match err with
    | none => countEv (setEng s core fun e => { e with sq := e.sq.filter fun c => c.id != id }) c.ctx c.tid c.ev
    | some sub =>
      let s := setEng s core fun e => { e with sq := e.sq.map fun c => if c.id = id then { c with fault := some sub } else c }
      engineFault s c.ctx c.tid core (.scmd id) c.queue (qAsid s c.queue) 3 c.cmdno sub 0 0 (sqStatus c)
/-- `SEQUENCED_COMMAND_COMPLETE` (R391). -/
def execSequencedCommandComplete (s : State) : Host.Outcome State Fault Refusal :=
  match s.ev with
  | some (.sequencedCommandComplete core id err) => .next (sqDone s core id err)
  | _ => .next s

end Sys2Proof.Machine
end

