-- ==== Sys2Proof/Machine/EvSys.lean ====
section
/-! DEFINITION. Boot (R469 to R471), attestation (R477, R478), the frame pools' registers (R475, R476), power (R481 to R483),
temperature (R485), and writes of device registers (R472 to R475 and the register tables of each chapter). -/
namespace Sys2Proof.Machine

/-! ## Device registers -/

/-- The written fields of the registers that software writes as plain storage; none for every other address. -/
def plainMask (pa : Nat) : Option Word :=
  if pa = 0xF00001520000 then some 0x0000FFFFFFF80000
  else if pa = 0xF00001520008 || pa = 0xF00001520010 then some 0x3F
  else if pa = 0xF00001520020 then some 0x00FFFFFFFFFFFFFF
  else if 0xF00001520800 ≤ pa && pa < 0xF00001520900 then some (if pa % 16 = 0 then 0x0000FFFFFFFF0003 else 0x0000FFFFFFFF0000)
  else if 0xF00001521000 ≤ pa && pa < 0xF00001521400 then
    match pa % 0x100 with
    | 0 | 0x50 => some 0x0000FFFFFFFFFFFC
    | 8 | 0x20 | 0x30 | 0x48 | 0x58 => some 0xFFFFFFFF
    | 0x28 => some 0x0000FFFFFFFF8000
    | 0x38 => some 0x0000FFFFFFFFFFF8
    | 0x70 => some 0x0000FFFFFFFFF000
    | 0x78 => some 0x00FFFFFFFFFFF000
    | _ => none
  else if 0xF00000C10100 ≤ pa && pa < 0xF00000C10180 then some 0x1FF
  else if 0xF00001230100 ≤ pa && pa < 0xF00001232000 && 0x100 ≤ pa % 0x1000 && pa % 0x1000 < 0x200 then
    match pa % 0x20 with
    | 0 => some 0x0000FFFFC0000007
    | 8 => some 0x0000FFFFC0000000
    | 16 => some 0xFFFFFFFFC0000000
    | _ => none
  else if pa = 0xF00001340000 then some 0x3F
  else if 0xF00001340008 ≤ pa && pa < 0xF00001340048 then some 0x8F8F8F8F8F8F8F8F
  else if pa = 0xF00001340048 then some 0xFFFFFFFF
  else if 0xF00001400000 ≤ pa && pa < 0xF0000140C000 then
    match pa % 0x100 with
    | 8 => some 0xFFFFFFFFFFFFFFFF
    | 16 => some 0x3FFFFFFFFFFFFFFF
    | _ => none
  else if 0xF00001500108 ≤ pa && pa < 0xF00001500128 then some 0xFFFFFFFFFFFFFFFF
  else none

/-- The written fields of a queue's registers that are written while it is off (R396). -/
def queueMask (off : Nat) : Option Word :=
  match off with
  | 0x08 => some 0xF0FFFFFFFFFFFFC0
  | 0x10 => some 0x00FFFFFFFFFFFFF0
  | 0x18 | 0x20 | 0x28 | 0x40 => some 0xFFFFFFFFFFFFFFFF
  | 0x30 => some 0x00FFFFFFFFFFFFE0
  | 0x38 => some 0x00FFFFFFFFFFFFC0
  | 0x48 => some 0x1FF
  | 0x50 => some 0x0000FFFFC000001F
  | 0x68 => some 0x00FFFFFFFFFFFF00
  | _ => none

/-- A write of a channel's register (R110, R111): the counters hold what is written, `hepoison.v` is cleared by a one, and a new
version table may have room for the requests that waited for a way (R96). -/
def chanRegWrite (s : State) (n off : Nat) (w : Word) : State :=
  let k := bitsAt w.toNat 0 32
  let s := setChan s n fun c => match off with
    | 0x00 => { c with herpl := k }
    | 0x08 => { c with herex := k }
    | 0x10 => { c with hecor := k }
    | 0x18 => { c with heunc := k }
    | 0x20 => { c with hedead := k }
    | 0x28 => { c with poisonV := c.poisonV && !w.getLsbD 63 }
    | 0x38 => { c with evtab := w &&& 0x0000FFFFFFFFF01F }
    | 0x40 => { c with hevovf := k }
    | _ => c
  if off = 0x38 then pumpOvf s n else s
/-- A write of a port's register (R175). -/
def portRegWrite (s : State) (p off : Nat) (w : Word) : State :=
  let k := bitsAt w.toNat 0 32
  match off with
  | 0x00 => lanefailW1C s p w
  | 0x08 => setPort s p fun x => { x with crc := k }
  | 0x10 => setPort s p fun x => { x with rpl := k }
  | 0x18 => setPort s p fun x => { x with retr := k }
  | _ => s
/-- A write of a gateway's counter (R184). -/
def gwRegWrite (s : State) (d off : Nat) (w : Word) : State :=
  let k := bitsAt w.toNat 0 32
  setGw s d fun g => match off with
    | 0x00 => { g with e2e := k }
    | 0x08 => { g with refuse := k }
    | 0x10 => { g with drop := k }
    | 0x18 => { g with dtt := k }
    | _ => g
/-- A write of a queue's register other than `qctl` (R396). -/
def queueRegWrite (s : State) (q off : Nat) (w : Word) : State :=
  if off = 0x60 then devSet s (qReg q 0x60) (devGet s (qReg q 0x60) &&& ~~~(w &&& 0xC000000000000000))
  else match queueMask off with
    | some m => if (qst s q).st = 0 then devSet s (qReg q off) (w &&& m) else s
    | none => s
/-- The written fields of `trctl` (R444). -/
def trctlMask : Word := 0xBC00000000FFF000
/-- A write of `trctl`: `frozen` is cleared by a one. -/
def trctlWrite (s : State) (core : Nat) (w : Word) : State :=
  let o := devGet s (trReg core 0)
  devSet s (trReg core 0) ((w &&& trctlMask) ||| (o &&& 0xFFF) ||| (o &&& 0x4000000000000000 &&& ~~~w))

/-- The addresses of the model's own by which the host sets a port's HDM decoder (log 23): host base, size, device base of
decoder n of port q. -/
def hdmReg (q n off : Nat) : Nat := 2 ^ 48 + 0x1000 * q + 0x20 * n + off
/-- An HDM decoder set: ranges of multiples of 256 MiB; a size of 0 removes it (R163). -/
def hdmSet (s : State) (k off : Nat) (w : Word) : State :=
  let v := w.toNat / 2 ^ 28 * 2 ^ 28
  let h := SMap.getD s.hdm k ⟨0, 0, 0⟩
  if off = 8 && v = 0 then { s with hdm := SMap.erase s.hdm k }
  else { s with hdm := SMap.set s.hdm k (match off with
    | 0 => { h with host := v }
    | 8 => { h with size := v }
    | _ => { h with pa := v }) }

/-- A write of a register of the package (R472 to R475), by an agent that may write it. -/
def regWrite (s : State) (pa : Nat) (w : Word) : State :=
  if 0xF00001000000 ≤ pa && pa < 0xF00001180000 then chanRegWrite s ((pa - 0xF00001000000) / 0x1000) (pa % 0x1000) w
  else if 0xF00001200000 ≤ pa && pa < 0xF00001214000 then portRegWrite s ((pa - 0xF00001200000) / 0x1000) (pa % 0x1000) w
  else if 0xF00001220000 ≤ pa && pa < 0xF00001224000 then gwRegWrite s ((pa - 0xF00001220000) / 0x1000) (pa % 0x1000) w
  else if 0xF00001300000 ≤ pa && pa < 0xF00001340000 then queueRegWrite s ((pa - 0xF00001300000) / 0x100) (pa % 0x100) w
  else if 0xF00001400000 ≤ pa && pa < 0xF0000140C000 && pa % 0x100 = 0 then trctlWrite s ((pa - 0xF00001400000) / 0x100) w
  else if pa = 0xF00001500000 then devSet s pa (devGet s pa &&& ~~~(w &&& 0xFF))
  else if pa = 0xF00001500100 then devSet s pa (devGet s pa &&& ~~~(w &&& 0x2000000000000000))
  else if pa = 0xF00001520100 then (if s.tiles.purge.isSome then s else devSet s pa (w &&& 0x000FFFFF0000FFFF))
  else if 0xF00001500108 ≤ pa && pa < 0xF00001500128 && s.sys.busy.isSome then s
  else match plainMask pa with
    | some m => devSet s pa (w &&& m)
    | none => s
/-- `REGISTER_WRITE` (R110, R111, R125, R165, R175, R396, R411, R414, R428, R444, R472 to R475, R478, R479): reserved and
read-only fields keep their values, and an address that no register occupies ignores the write. -/
def registerWrite (s : State) (pa : Nat) (w : Word) (by_ : Writer) : State :=
  if 2 ^ 48 ≤ pa then
    (if by_ == .host && pa < 2 ^ 48 + 0x2000 && pa % 0x1000 < 0x40 && pa % 8 = 0 && pa % 0x20 ≤ 0x10
     then hdmSet s (2 * ((pa - 2 ^ 48) / 0x1000) + pa % 0x1000 / 0x20) (pa % 0x20) w else s)
  else if pa % 8 = 0 && mayWrite pa by_ then regWrite s pa w else s
def execRegisterWrite (s : State) : Host.Outcome State Fault Refusal :=
  match s.ev with
  | some (.registerWrite pa w b) => .next (registerWrite s pa w b)
  | _ => .next s

/-! ## Pools (R475, R476) -/

/-- `FPPUSH` (R475, R476): a frame pushed onto a die's pool; accesses that wait for a frame resume (R26). -/
def execFppush (s : State) : Host.Outcome State Fault Refusal :=
  match s.ev with
  | some (.fppush d w b) => .next (if mayWrite (dieReg d 0x18) b then poolPush s d (bitsAt w.toNat 0 32) else s)
  | _ => .next s
/-- `FRPOP` (R475, R476): a read of `frpop` by the management core or the host takes the top entry of the far release list. -/
def execFrpop (s : State) : Host.Outcome State Fault Refusal :=
  match s.ev with
  | some (.frpop d) => .next (popFar s d).2
  | _ => .next s

/-! ## Attestation (R469, R477, R478) -/

/-- SM3 of a measurement register and a digest, each in byte order (R469). -/
def extendMr (mr d : BitVec 256) : BitVec 256 := Config.sm3 (leBytes mr.toNat 32 ++ leBytes d.toNat 32)
/-- Measurement register `k` extended with a digest. -/
def extendBy (y : Sys) (k : Nat) (d : BitVec 256) : Sys :=
  if h : k < 8 then { y with mr := y.mr.set k (extendMr y.mr[k] d) h } else y
/-- The nonce (R478). -/
def nonceBytes (s : State) : List Byte := (List.range 4).flatMap fun i => leBytes (devGet s (0xF00001500108 + 8 * i)).toNat 8

/-- A write of `mrext` as it takes effect (R478). -/
def mrextNow (s : State) (w : Word) : State :=
  if bitsAt w.toNat 3 5 != 0 then s
  else
    let d := (if w.getLsbD 2 then nonceBytes s else []) ++ leBytes w.toNat 8
    { s with sys := extendBy s.sys (4 + bitsAt w.toNat 0 2) (Config.sm3 d) }
/-- `MREXT` (R478): held while a report is being made. -/
def execMrext (s : State) : Host.Outcome State Fault Refusal :=
  match s.ev with
  | some (.mrext w _) =>
    .next (if s.sys.busy.isSome then { s with sys := { s.sys with held := s.sys.held ++ [w] } } else mrextNow s w)
  | _ => .next s

/-- A write of `atctl` with go = 1: ignored while a report is being made, but for `done` (R478). -/
def atctlWrite (s : State) (w : Word) : State :=
  let s := regWrite s 0xF00001500100 w
  if s.sys.busy.isSome then s else { s with sys := { s.sys with busy := some s.clk } }
/-- `ATCTL_GO` (R478). -/
def execAtctlGo (s : State) : Host.Outcome State Fault Refusal :=
  match s.ev with
  | some (.atctlGo w _) => .next (atctlWrite s w)
  | _ => .next s

/-- Bytes 0x000 to 0x17F of a report (R477); `t`: the clock at which it was taken. -/
def reportBody (s : State) (t : Nat) : List Byte :=
  leBytes (0x4D563741 + 2 ^ 32 + s.pkg % 2 ^ 14 * 2 ^ 48) 8 ++ leBytes t 8 ++ nonceBytes s
    ++ (s.sys.mr.toList.flatMap fun m => leBytes m.toNat 32) ++ leBytes s.sys.config.toNat 32 ++ leBytes s.sys.fw.toNat 8
    ++ leBytes (bootstat s).toNat 8 ++ leBytes s.sys.cert.toNat 32
/-- The report with its signature, r and s big-endian. -/
def reportOf (s : State) (t k : Nat) : List Byte :=
  let b := reportBody s t
  b ++ (leBytes (Config.sm2 k s.sys.key (Config.sm3 b)).toNat 64).reverse
/-- `ATTESTATION_REPORT_DONE` (R477, R478): the window holds the report, and the held extensions take effect. -/
def reportDone (s : State) : State :=
  match s.sys.busy with
  | none => s
  | some t =>
    let (k, s) := draw s
    let held := s.sys.held
    let s := { s with sys := { s.sys with report := some (reportOf s t k), busy := none, held := [] } }
    held.foldl mrextNow (devSet s 0xF00001500100 (devGet s 0xF00001500100 ||| 0x2000000000000000))
def execAttestationReportDone (s : State) : Host.Outcome State Fault Refusal :=
  match s.ev with
  | some .attestationReportDone => .next (reportDone s)
  | _ => .next s

/-! ## Power (R481 to R483). Units: clusters 0 to 23, stacks 24 to 35, ports 36 to 55 -/

/-- The register that holds a unit's tolerance. -/
def ltrReg (u : Nat) : Nat :=
  if u < 24 then 0xF00001500200 + 8 * u else if u < 36 then 0xF00001500300 + 8 * (u - 24) else 0xF00001500400 + 8 * (u - 36)
def ltrOf (s : State) (u : Nat) : Nat := bitsAt (devGet s (ltrReg u)).toNat 0 32
/-- The unit of a tolerance register. -/
def unitAt (pa : Nat) : Option Nat := (List.range 56).find? fun u => ltrReg u = pa
def unitOf (s : State) (u : Nat) : PwUnit := SMap.getD s.sys.unit_ u {}
def setUnit (s : State) (u : Nat) (x : PwUnit) : State := { s with sys := { s.sys with unit_ := SMap.set s.sys.unit_ u x } }

/-- A low state: its code, wake time in ns and in clocks, dwell in clocks (R482). -/
structure PwState where
  code : Nat
  ns : Nat
  clocks : Nat
  dwell : Nat
  deriving DecidableEq, Repr
/-- The low states of a unit, the deepest first. -/
def pwStates (u : Nat) : List PwState :=
  if u < 24 then [⟨3, 300000, 570000, 2 ^ 24⟩, ⟨2, 5000, 9500, 2 ^ 20⟩, ⟨1, 50, 95, 2 ^ 12⟩]
  else if u < 36 then [⟨2, 3000, 5700, 2 ^ 18⟩, ⟨1, 60, 114, 2 ^ 10⟩]
  else [⟨1, 2000, 3800, 2 ^ 20⟩]
def pwState (u st : Nat) : Option PwState := (pwStates u).find? fun p => p.code = st

/-- No task, fill, write-back or engine command of a cluster is outstanding (R482). -/
def clusterIdle (s : State) (k : Nat) : Bool :=
  (s.ctx.all fun (c, x) => clusterOf c != k || (x.task.isNone && x.inval = 0 && x.farOut = 0))
    && (s.tiles.fills.all fun f => f.core / 8 != k) && !(s.tiles.homeQ.any fun m => m.cl = k)
    && (victimsOf s k).isEmpty
    && (s.eng.all fun (c, e) => c / 8 != k || (e.m.isEmpty && e.x.isEmpty && e.sq.isEmpty))
    && (s.tiles.ctc.all fun (c, l) => c / 8 != k || l.all fun x => x.st == .valid || x.st == .poisoned)
    && !(s.car.restoring.any fun r => clusterOf r.1 = k)
/-- The last activation in a stack's channels (R102). -/
def stackUsed (s : State) (n : Nat) : Nat :=
  (List.range 32).foldl (fun m i => (chan s (32 * n + i)).rows.foldl (fun m r => max m r.2.time) m) 0
/-- A task waits for a cluster in a low state: it may be placed there, and on no core whose cluster is on (R405). -/
def clusterWanted (s : State) (k : Nat) : Bool :=
  (s.car.ready.any fun r => restorable r && ((coresOfCl k).any (mayPlace s r.task))
    && !((List.range 192).any fun c => clusterOn s (c / 8) && mayPlace s r.task c))
    || s.tiles.homeQ.any fun m => m.cl = k
/-- A port's flits that wait to be sent. -/
def portBacklog (s : State) (p : Nat) : Bool := (portOf s p).txq.length > 1024

/-- The clock since which a unit is idle; none while it is not. -/
def idleSince (s : State) (u : Nat) : Option Nat :=
  if u < 24 then (if clusterIdle s u && !(clusterWanted s u) then (unitOf s u).idle else none)
  else if u < 36 then some (max (stackUsed s (u - 24)) ((unitOf s u).idle.getD 0))
  else (unitOf s u).idle
/-- The state that an idle unit enters now: the deepest within its tolerance whose dwell has passed. -/
def pwNext (s : State) (u : Nat) : Option PwState :=
  let x := unitOf s u
  match idleSince s u with
  | none => none
  | some t => (pwStates u).find? fun p => x.waking.isNone && x.st < p.code && p.ns ≤ ltrOf s u && t + p.dwell ≤ s.clk

/-- What a cluster loses in retention: L1D lines, which are written back, translations, trace entries (log 22). -/
def retainCluster (s : State) (k : Nat) : State :=
  let s := (coresOfCl k).foldl (fun s c =>
    let s := l1Flush s c
    let (n, s) := draw s
    let ent (i : Nat) : Nat × BitVec 128 := (i, BitVec.ofNat 128 (ofLe ((List.range 16).map fun j => Config.lost n (16 * i + j))))
    { s with
      l1d := SMap.set s.l1d c { (l1Of s c) with lines := [] }
      mmu := { s.mmu with tlb := SMap.erase s.mmu.tlb c }
      trace := SMap.set s.trace c { ent := (List.range 4096).map ent } }) s
  { s with mmu := { s.mmu with tlb := SMap.erase s.mmu.tlb (1000 + k) } }
/-- Dirty plain lines and posted tiles of a cluster written back (R482). -/
def cleanCluster (s : State) (k : Nat) : State :=
  let s := (clcOf s k).lines.foldl (fun s (ln, _) => clcWriteBack s k ln) s
  ((clcT s k).filter TLine.dirty).foldl (fun s l => cleanLine s k l) s
/-- What is left after a cluster is off: nothing (R482); mailboxes hold what no rule gives (log 22). -/
def clearCluster (s : State) (k : Nat) : State :=
  let s := (clcT s k).foldl (fun s l => updEntry s l.tile fun e =>
    if e.latest = l.ver && e.loc == OLoc.clc k then { e with loc := .hbm } else e) s
  let s := { s with clc := SMap.set s.clc k { (clcOf s k) with lines := [] } }
  let s := (coresOfCl k).foldl (fun s c =>
    let (n, s) := draw s
    let s := setCtc s c []
    { s with mbox := Memory.store s.mbox (0xF00000000000 + c * 0x10000) ((List.range 0x4000).map fun i => some (Config.lost n i)) }) s
  setClcT s k []
/-- A cluster enters a state; off waits until everything has been written back. -/
def clusterDown (s : State) (k : Nat) (p : PwState) : State :=
  let x := unitOf s k
  if p.code = 1 then setUnit s k { x with st := 1 }
  else
    let s := if x.st < 2 then retainCluster s k else s
    if p.code = 2 then setUnit s k { x with st := 2 }
    else
      let s := cleanCluster s k
      if (clcT s k).any TLine.dirty || !(victimsOf s k).isEmpty then setUnit s k { x with st := 2 } else setUnit (clearCluster s k) k { x with st := 3 }

/-- A port enters half width (R483), where its utilisation allows it, which is left open (log 24), and a candidate of x8
avoids every failed lane. -/
def portHalf (s : State) (u : Nat) : State :=
  let x := unitOf s u
  let p := u - 36
  let (n, s) := draw s
  let y := portOf s p
  let ok := match candidate { y with width := 1 } with | some w => w ≤ 2 | none => false
  if Config.choose n % 2 = 0 && y.state = 2 && y.width = 0 && ok then
    retrain (setPort (setUnit s u { x with st := 1 }) p fun y => { y with width := 1 }) p
  else setUnit s u { x with idle := some s.clk }

/-- `POWER_DWELL_EXPIRY` (R481 to R483). -/
def dwellExpiry (s : State) (u : Nat) : State :=
  match pwNext s u with
  | none => s
  | some p =>
    if u < 24 then clusterDown s u p
    else if u < 36 then setUnit s u { (unitOf s u) with st := p.code, idle := some s.clk }
    else portHalf s u
def execPowerDwellExpiry (s : State) : Host.Outcome State Fault Refusal :=
  match s.ev with
  | some (.powerDwellExpiry u) => .next (dwellExpiry s u)
  | _ => .next s

/-- A unit in a low state begins to wake; a port retrains from x16 on (R483). -/
def wakeUnit (s : State) (u : Nat) : State :=
  let x := unitOf s u
  match pwState u x.st with
  | none => s
  | some p =>
    if x.waking.isSome then s
    else
      let s := setUnit s u { x with waking := some (s.clk + p.clocks), idle := none }
      if u < 36 then s
      else if (portOf s (u - 36)).state = 2 then retrain (setPort s (u - 36) fun y => { y with width := 0 }) (u - 36)
      else setPort s (u - 36) fun y => { y with width := 0 }
/-- `POWER_WAKE` (R483): an arrival wakes a unit; a cluster that is off stays off. -/
def execPowerWake (s : State) : Host.Outcome State Fault Refusal :=
  match s.ev with
  | some (.powerWake u) => .next (if u < 24 && (unitOf s u).st = 3 then s else wakeUnit s u)
  | _ => .next s

/-- `WAKE_COMPLETE` (R482, R483): the unit is fully on. -/
def wakeDone (s : State) (u : Nat) : State :=
  let x := unitOf s u
  match x.waking with
  | some t => if t ≤ s.clk then setUnit s u { x with st := 0, waking := none, idle := if u < 36 then none else some s.clk } else s
  | none => s
def execWakeComplete (s : State) : Host.Outcome State Fault Refusal :=
  match s.ev with
  | some (.wakeComplete u) => .next (wakeDone s u)
  | _ => .next s

/-- A unit's tolerance written (R481): it wakes where its present state takes longer. -/
def ltrWrite (s : State) (u : Nat) (w : Word) : State :=
  let s := devSet s (ltrReg u) (w &&& 0xFFFFFFFF)
  let x := unitOf s u
  let s := setUnit s u { x with idle := if 36 ≤ u && x.idle.isNone then some s.clk else x.idle }
  match pwState u x.st with
  | some p => if ltrOf s u < p.ns then wakeUnit s u else s
  | none => s
/-- `PWLTR_WRITE` (R481, R483). -/
def execPwltrWrite (s : State) : Host.Outcome State Fault Refusal :=
  match s.ev with
  | some (.pwltrWrite pa w _) => .next (match unitAt pa with | some u => ltrWrite s u w | none => s)
  | _ => .next s

/-- A unit that should wake now (R483): a cluster that something waits for, a stack that is used, a port with a backlog. -/
def wakeDue (s : State) (u : Nat) : Bool :=
  let x := unitOf s u
  x.st != 0 && x.waking.isNone &&
    (if u < 24 then x.st != 3 && (clusterWanted s u || !clusterIdle s u)
     else if u < 36 then stackUsed s (u - 24) > x.idle.getD 0
     else portBacklog s (u - 36))
/-- The idle time of the clusters whose tolerance has been set, after a step. -/
def idleTick (s : State) : State :=
  let tick (e : Nat × PwUnit) : Nat × PwUnit :=
    if e.1 < 24 then (e.1, { e.2 with idle := if clusterIdle s e.1 then some (e.2.idle.getD s.clk) else none }) else e
  { s with sys := { s.sys with unit_ := s.sys.unit_.map tick } }

/-! ## Temperature (R485) -/

/-- A die's temperature in `thstat`. -/
def setTemp (s : State) (d t : Nat) : State :=
  let o := devGet s 0xF00001500018
  devSet s 0xF00001500018 ((o &&& ~~~(0xFF#64 <<< (8 * d))) ||| (BitVec.ofNat 64 (t % 256) <<< (8 * d)))
/-- `THERMAL_THROTTLE` (R485): from 100 °C on. Idle clocks of the matrix engines change no result (R66). -/
def execThermalThrottle (s : State) : Host.Outcome State Fault Refusal :=
  match s.ev with
  | some (.thermalThrottle d t) =>
    let s := setTemp s d t
    .next (if t < 100 then s
      else irq { s with sys := { s.sys with throttled := if s.sys.throttled.contains d then s.sys.throttled else s.sys.throttled ++ [d] } } 6)
  | _ => .next s
/-- `THERMAL_RECOVER` (R485): below 95 °C. -/
def execThermalRecover (s : State) : Host.Outcome State Fault Refusal :=
  match s.ev with
  | some (.thermalRecover d t) =>
    let s := setTemp s d t
    .next (if t < 95 then { s with sys := { s.sys with throttled := s.sys.throttled.filter fun e => e != d } } else s)
  | _ => .next s
/-- A queue fails without rollback (R402, R485). -/
def tripQueue (s : State) (q : Nat) : State :=
  if (qst s q).st = 0 || (qst s q).st = 4 then s
  else
    let s := dropFaults s q
    let s := setQ s q fun x => { x with st := 4, hostRec := none, parked := false }
    let other (r : Nat × RangeC) : Bool := r.2.task.queue != q
    let s := { s with car := { s.car with range := s.car.range.filter other, replica := s.car.replica.filter other } }
    ((allTasks s).filter fun t => t.queue = q).foldl (fun s t => stopTask s t (some 2)) s
/-- `THERMAL_TRIP` (R485): at 115 °C every queue fails without rollback, and nothing issues until package reset. -/
def execThermalTrip (s : State) : Host.Outcome State Fault Refusal :=
  match s.ev with
  | some (.thermalTrip d t) =>
    let s := setTemp s d t
    .next (if t < 115 then s else { s.car.q.foldl (fun s e => tripQueue s e.1) s with
      sys := { s.sys with tripped := true, throttled := s.sys.throttled } })
  | _ => .next s

/-! ## Boot (R469 to R471) -/

/-- The fields of the registers that the configuration block sets (R471). -/
def cfgMask (pa : Nat) : Option Word :=
  if 0xF00001000000 ≤ pa && pa < 0xF00001180000 then (if pa % 0x1000 = 0x38 then some 0x0000FFFFFFFFF01F else none)
  else if 0xF00001400000 ≤ pa && pa < 0xF0000140C000 && pa % 0x100 = 0 then some trctlMask
  else if 0xF00001521000 ≤ pa && pa < 0xF00001521400 && pa % 0x100 = 0x18 then some 0xFFFFFFFF
  else if (unitAt pa).isSome then some 0xFFFFFFFF
  else if pa = 0xF00001520020 || (0xF00001500108 ≤ pa && pa < 0xF00001500128) || (0xF00000C10100 ≤ pa && pa < 0xF00000C10180) then none
  else plainMask pa
/-- A value that a field admits: no reserved bit is set, and an enabled decoder lies in the far window (R165, R471). -/
def cfgOk (e : Nat × Word) : Bool :=
  match cfgMask e.1 with
  | none => false
  | some m => e.2 &&& ~~~m == 0 &&
    !(0xF00001230100 ≤ e.1 && e.1 < 0xF00001232000 && e.1 % 0x20 = 0 && e.2.getLsbD 0 && !isFar (bitsAt e.2.toNat 30 18 * 2 ^ 30))
/-- One register set by the configuration block; a frame number is pushed onto its pool. -/
def cfgWrite (s : State) (e : Nat × Word) : State :=
  if 0xF00001521000 ≤ e.1 && e.1 < 0xF00001521400 && e.1 % 0x100 = 0x18 then poolPush s ((e.1 - 0xF00001521000) / 0x100) (bitsAt e.2.toNat 0 32)
  else match unitAt e.1 with
    | some u => ltrWrite s u e.2
    | none => regWrite s e.1 e.2
/-- A compressed store as boot leaves it: every slot free (log 25). -/
def storeInit (s : State) (d : Nat) : State :=
  let n := reg32 s (dieReg d 0x30)
  let base := bitsAt (devGet s (dieReg d 0x38)).toNat 3 45 * 8
  let byte (i : Nat) : Byte := BitVec.ofNat 8 (2 ^ min 8 (n - 8 * i) - 1)
  if n = 0 then s
  else devSet (hbmPut s none base ((List.range ((n + 7) / 8)).map byte)) (dieReg d 0x40) (BitVec.ofNat 64 n)
/-- Stage 2's end: the block applied, links training, the dies released. -/
def bootDone (s : State) (img : BootImg) : State :=
  let s := img.cfg.foldl cfgWrite s
  let s := (List.range 4).foldl storeInit s
  let s := (List.range 20).foldl (fun s p => setPort s p fun x => { x with state := 1, since := s.clk }) s
  { s with sys := { s.sys with stage := 3, released := true } }
/-- A stage's verification passes: the register it extends (R469). -/
def bootStage (y : Sys) (k : Nat) (img : BootImg) : Sys :=
  let d := img.digest.getD k 0
  let y := extendBy { y with stage := k } k d
  if k = 0 then { y with fw := img.fw }
  else if k = 1 then { y with key := Config.kdf Config.secret (y.mr[1]), cert := img.cert }
  else { y with config := d }
/-- Whether stage `k` of an image verifies. -/
def stageOk (k : Nat) (img : BootImg) : Bool := img.ok.getD k false && (k != 2 || img.cfg.all cfgOk)
/-- Stages 0 to 2 in order: the registers, and whether every one has verified. -/
def bootRun (y : Sys) (img : BootImg) : List Nat → Sys × Bool
  | [] => (y, true)
  | k :: ks => if stageOk k img then bootRun (bootStage y k img) img ks else ({ y with stage := k }, false)
/-- What package reset leaves: the machine as reset, but for its number, host and fabric memory, the switches and the model's
counter. -/
def resetKeep (s : State) : State :=
  { State.reset with pkg := s.pkg, far := s.far, free := s.free, fab := { State.reset.fab with group := s.fab.group } }
/-- `PACKAGE_RESET` (R469 to R471, R477): boot from slot A, then from slot B, then boot failure. -/
def boot (s : State) (a b : BootImg) : State :=
  let s := resetKeep s
  match bootRun {} a [0, 1, 2] with
  | (y, true) => bootDone { s with sys := y } a
  | (_, false) =>
    match bootRun { slot := true } b [0, 1, 2] with
    | (y, true) => bootDone { s with sys := y } b
    | (y, false) => { s with sys := { y with fail := true } }
def execPackageReset (s : State) : Host.Outcome State Fault Refusal :=
  match s.ev with
  | some (.packageReset a b) => .next (boot s a b)
  | _ => .next s

end Sys2Proof.Machine
end

