-- ==== Sys2Proof/Machine/Scalar.lean ====
section
/-! DEFINITION. The S slot's integer operations (R260 to R266) and its access to special and exchange registers (R277,
R278, R286). -/
namespace Sys2Proof.Machine

/-! ## Results -/

/-- Signed division toward zero (R262). -/
def divS (a b : Word) : Word :=
  if b = 0 then BitVec.allOnes 64 else BitVec.ofInt 64 (Int.tdiv a.toInt b.toInt)
/-- Unsigned division (R262). -/
def divU (a b : Word) : Word := if b = 0 then BitVec.allOnes 64 else BitVec.ofNat 64 (a.toNat / b.toNat)
/-- Signed remainder, of the sign of a (R262). -/
def remS (a b : Word) : Word := if b = 0 then a else BitVec.ofInt 64 (Int.tmod a.toInt b.toInt)
/-- Unsigned remainder (R262). -/
def remU (a b : Word) : Word := if b = 0 then a else BitVec.ofNat 64 (a.toNat % b.toNat)
/-- Leading zero bits (R261). -/
def clzW (a : Word) : Word := BitVec.ofNat 64 (if a.toNat = 0 then 64 else 63 - a.toNat.log2)
def popcW (a : Word) : Word := BitVec.ofNat 64 (ones a.toNat 64)
/-- Bits(a, p + w − 1, p) with p = pos + Bits(b, 5, 0) (R263). -/
def bextW (a b : Word) (pos wm1 : Nat) : Word := BitVec.ofNat 64 (bitsAt a.toNat (pos + bitsAt b.toNat 0 6) (wm1 + 1))
/-- a with bits pos to pos + w − 1 replaced by Bits(b, w − 1, 0) (R263). -/
def binsW (d b : Word) (pos wm1 : Nat) : Word :=
  let m := BitVec.ofNat 64 ((2 ^ (wm1 + 1) - 1) * 2 ^ pos)
  (d &&& ~~~m) ||| ((b <<< pos) &&& m)
/-- The conditions of `cmp` (R250). -/
def condS (c : SCond) (a b : Word) : Bool :=
  match c with
  | .eq => a == b | .ne => a != b | .lt => a.slt b | .ge => !a.slt b | .ltn => a.ult b | .gen => !a.ult b
/-- The shift count of a register (R261). -/
def cnt (b : Word) : Nat := bitsAt b.toNat 0 6

/-! ## Forms -/

/-- A guarded operation with a register result (R260). -/
def alu (d a b : SReg) (q : BitVec 3) (bound : Nat) (f : Word → Word → Word) : M Unit := do
  let x ← getC
  opTrap (loopReg x d)
  if rdP x q then outS d (f (rdS x a) (rdS x b)) bound

/-- An operation with an immediate (R265). -/
def aluI (d a : SReg) (f : Word → Word) : M Unit := do
  let x ← getC
  opTrap (loopReg x d)
  outS d (f (rdS x a)) 1

/-! ## Meanings -/

/-- `add` (R261). -/
def execAdd (d a b : SReg) (q : BitVec 3) (s : State) : Host.Outcome State Fault Refusal :=
  run 0 (alu d a b q 1 fun a b => a + b) s
/-- `sub` (R261). -/
def execSub (d a b : SReg) (q : BitVec 3) (s : State) : Host.Outcome State Fault Refusal :=
  run 0 (alu d a b q 1 fun a b => a - b) s
/-- `and` (R261). -/
def execAnd (d a b : SReg) (q : BitVec 3) (s : State) : Host.Outcome State Fault Refusal :=
  run 0 (alu d a b q 1 fun a b => a &&& b) s
/-- `or` (R261). -/
def execOr (d a b : SReg) (q : BitVec 3) (s : State) : Host.Outcome State Fault Refusal :=
  run 0 (alu d a b q 1 fun a b => a ||| b) s
/-- `xor` (R261). -/
def execXor (d a b : SReg) (q : BitVec 3) (s : State) : Host.Outcome State Fault Refusal :=
  run 0 (alu d a b q 1 fun a b => a ^^^ b) s
/-- `shl` (R261). -/
def execShl (d a b : SReg) (q : BitVec 3) (s : State) : Host.Outcome State Fault Refusal :=
  run 0 (alu d a b q 1 fun a b => a <<< cnt b) s
/-- `shr` (R261). -/
def execShr (d a b : SReg) (q : BitVec 3) (s : State) : Host.Outcome State Fault Refusal :=
  run 0 (alu d a b q 1 fun a b => a >>> cnt b) s
/-- `sar` (R261). -/
def execSar (d a b : SReg) (q : BitVec 3) (s : State) : Host.Outcome State Fault Refusal :=
  run 0 (alu d a b q 1 fun a b => a.sshiftRight (cnt b)) s
/-- `min` (R261). -/
def execMin (d a b : SReg) (q : BitVec 3) (s : State) : Host.Outcome State Fault Refusal :=
  run 0 (alu d a b q 1 fun a b => if a.slt b then a else b) s
/-- `max` (R261). -/
def execMax (d a b : SReg) (q : BitVec 3) (s : State) : Host.Outcome State Fault Refusal :=
  run 0 (alu d a b q 1 fun a b => if a.slt b then b else a) s
/-- `minn` (R261). -/
def execMinn (d a b : SReg) (q : BitVec 3) (s : State) : Host.Outcome State Fault Refusal :=
  run 0 (alu d a b q 1 fun a b => if a.ult b then a else b) s
/-- `maxn` (R261). -/
def execMaxn (d a b : SReg) (q : BitVec 3) (s : State) : Host.Outcome State Fault Refusal :=
  run 0 (alu d a b q 1 fun a b => if a.ult b then b else a) s
/-- `mul` (R261). -/
def execMul (d a b : SReg) (q : BitVec 3) (s : State) : Host.Outcome State Fault Refusal :=
  run 0 (alu d a b q 3 fun a b => a * b) s
/-- `mulh` (R261). -/
def execMulh (d a b : SReg) (q : BitVec 3) (s : State) : Host.Outcome State Fault Refusal :=
  run 0 (alu d a b q 3 fun a b => BitVec.ofInt 64 (a.toInt * b.toInt / 2 ^ 64)) s
/-- `mulhn` (R261). -/
def execMulhn (d a b : SReg) (q : BitVec 3) (s : State) : Host.Outcome State Fault Refusal :=
  run 0 (alu d a b q 3 fun a b => BitVec.ofNat 64 (a.toNat * b.toNat / 2 ^ 64)) s
/-- `div` (R262). -/
def execDiv (d a b : SReg) (q : BitVec 3) (s : State) : Host.Outcome State Fault Refusal :=
  run 0 (alu d a b q 20 fun a b => divS a b) s
/-- `divn` (R262). -/
def execDivn (d a b : SReg) (q : BitVec 3) (s : State) : Host.Outcome State Fault Refusal :=
  run 0 (alu d a b q 20 fun a b => divU a b) s
/-- `rem` (R262). -/
def execRem (d a b : SReg) (q : BitVec 3) (s : State) : Host.Outcome State Fault Refusal :=
  run 0 (alu d a b q 20 fun a b => remS a b) s
/-- `remn` (R262). -/
def execRemn (d a b : SReg) (q : BitVec 3) (s : State) : Host.Outcome State Fault Refusal :=
  run 0 (alu d a b q 20 fun a b => remU a b) s
/-- `clz` (R261). -/
def execClz (d a : SReg) (q : BitVec 3) (s : State) : Host.Outcome State Fault Refusal := run 0 (alu d a 0 q 1 fun a _ => clzW a) s
/-- `popc` (R261). -/
def execPopc (d a : SReg) (q : BitVec 3) (s : State) : Host.Outcome State Fault Refusal := run 0 (alu d a 0 q 1 fun a _ => popcW a) s
/-- `bext` (R263). -/
def execBext (d a b : SReg) (q : BitVec 3) (pos : BitVec 6) (wm1 : BitVec 7) (s : State) : Host.Outcome State Fault Refusal :=
  run 0 (alu d a b q 1 fun a b => bextW a b pos.toNat wm1.toNat) s
/-- `bins` (R263). -/
def execBins (d a b : SReg) (q : BitVec 3) (pos : BitVec 6) (wm1 : BitVec 7) (s : State) : Host.Outcome State Fault Refusal :=
  run 0 (alu d a b q 1 fun a b => binsW a b pos.toNat wm1.toNat) s
/-- `sel` (R264). -/
def execSel (d a b : SReg) (q p : BitVec 3) (s : State) : Host.Outcome State Fault Refusal :=
  run 0 (alu d a b q 1 fun a b => if rdP (cc s) p then a else b) s
/-- `cmp` (R264). -/
def execCmp (p : BitVec 3) (a b : SReg) (q : BitVec 3) (c : SCond) (s : State) : Host.Outcome State Fault Refusal :=
  run 0 (do let x ← getC; if rdP x q then outP p (condS c (rdS x a) (rdS x b)) 1) s
/-- `cmpi` (R265). -/
def execCmpi (p : BitVec 3) (a : SReg) (i : BitVec 44) (c : SCond) (s : State) : Host.Outcome State Fault Refusal :=
  run 0 (do let x ← getC; outP p (condS c (rdS x a) (i.signExtend 64)) 1) s
/-- `addi` (R265). -/
def execAddi (d a : SReg) (i : BitVec 44) (s : State) : Host.Outcome State Fault Refusal := run 0 (aluI d a fun a => a + i.signExtend 64) s
/-- `andi` (R265). -/
def execAndi (d a : SReg) (i : BitVec 44) (s : State) : Host.Outcome State Fault Refusal := run 0 (aluI d a fun a => a &&& i.signExtend 64) s
/-- `ori` (R265). -/
def execOri (d a : SReg) (i : BitVec 44) (s : State) : Host.Outcome State Fault Refusal := run 0 (aluI d a fun a => a ||| i.signExtend 64) s
/-- `xori` (R265). -/
def execXori (d a : SReg) (i : BitVec 44) (s : State) : Host.Outcome State Fault Refusal := run 0 (aluI d a fun a => a ^^^ i.signExtend 64) s
/-- `shli` (R265). -/
def execShli (d a : SReg) (n : BitVec 6) (s : State) : Host.Outcome State Fault Refusal := run 0 (aluI d a fun a => a <<< n.toNat) s
/-- `shri` (R265). -/
def execShri (d a : SReg) (n : BitVec 6) (s : State) : Host.Outcome State Fault Refusal := run 0 (aluI d a fun a => a >>> n.toNat) s
/-- `sari` (R265). -/
def execSari (d a : SReg) (n : BitVec 6) (s : State) : Host.Outcome State Fault Refusal := run 0 (aluI d a fun a => a.sshiftRight n.toNat) s
/-- `li` (R266). -/
def execLi (d : SReg) (i : BitVec 50) (s : State) : Host.Outcome State Fault Refusal := run 0 (aluI d 0 fun _ => i.signExtend 64) s
/-- `lih` (R266). -/
def execLih (d : SReg) (i : BitVec 50) (s : State) : Host.Outcome State Fault Refusal :=
  run 0 (aluI d d fun a => i.setWidth 32 ++ a.setWidth 32) s
/-- `mfsr` (R277): the register as it stands at issue. -/
def execMfsr (d : SReg) (r : SpecReg) (s : State) : Host.Outcome State Fault Refusal :=
  run 0 (do opTrap (loopReg (← getC) d); outS d (rdSpec s s.cur r) 2) s
/-- `mtsr` (R278): the write takes effect after the bundle. lb and le may not be written in a loop (R216). -/
def execMtsr (r : SpecReg) (a : SReg) (s : State) : Host.Outcome State Fault Refusal :=
  run 0 (do
    let x ← getC
    opTrap (x.loop.active && (r == .lb || r == .le))
    modC fun x => { x with late := x.late ++ [.spec r (rdS x a)] }) s
/-- `xget` (R286). -/
def execXget (d : SReg) (g : GReg) (lane : BitVec 5) (s : State) : Host.Outcome State Fault Refusal :=
  run 0 (do
    let x ← getC
    opTrap (loopReg x d)
    outS d ((rdG x g).extractLsb' (64 * lane.toNat) 64) 8) s

end Sys2Proof.Machine
end

