-- ==== Sys2Proof/Machine/VecInt.lean ====
section
/-! DEFINITION. Lane-by-lane operations of the V slots (R291 to R295), the integer operations (R296 to R299) and the mask
operations (R317). -/
namespace Sys2Proof.Machine

/-! ## Lanes (R291, R292) -/

/-- The number of a V slot (R222). -/
def vslot : VSlot → Nat
  | .v0 => 1 | .v1 => 2

/-- A number from its lanes, the first the least significant. -/
def packL (w : Nat) : List Nat → Nat
  | [] => 0
  | x :: l => x % 2 ^ w + 2 ^ w * packL w l

/-- `n` lanes of width w, each with its flags: a lane whose mask bit is 0 keeps its old value and raises nothing; above
them the bits are 0. -/
def lanesM (w n : Nat) (m : Mask) (old : Vec) (f : Nat → Nat × Fl) : Vec × Fl :=
  let l := (List.range n).map fun i => if m.getLsbD i then f i else (lane w i old, 0)
  (BitVec.ofNat 2048 (packL w (l.map (·.1))), orFlags (l.map (·.2)))

/-- A result into a register of the slot or an exchange register (R213). -/
def outV (u : VSlot) (d : VReg) (r : Vec × Fl) (bound : Nat) : M Unit :=
  modify fun s => emit s (dstV (cc s) u d) r.1 r.2 bound

/-- A mask result, and its trace (R443); a write to k0 or j0 is discarded. -/
def outK (u : VSlot) (d : BitVec 3) (m : Mask) (fl : Fl) (bound : Nat) : M Unit :=
  modify fun s =>
    let s := if d == 0 then s else trCtl s s.cur 3 (cc s).pc.toNat (d.toNat + (match u with | .v0 => 0 | .v1 => 8))
    emit s (.k u d) (m.setWidth 2048) fl bound

/-- An operation whose n lanes are computed from the context's registers. -/
def vlanes (u : VSlot) (d : VReg) (k : BitVec 3) (w n bound : Nat) (f : Ctx → Nat → Nat × Fl) : M Unit := do
  let x ← getC
  outV u d (lanesM w n (rdK x u k) (rdV x u d) (f x)) bound

/-- An integer operation on lanes of a and b. -/
def vint (u : VSlot) (d a b : VReg) (k : BitVec 3) (t : IFmt) (bound : Nat) (f : Nat → Nat → Nat) : M Unit :=
  vlanes u d k t.width t.lanes bound fun x i => (f (lane t.width i (rdV x u a)) (lane t.width i (rdV x u b)), 0)

/-- An integer operation on lanes of a, b and c. -/
def vint3 (u : VSlot) (d a b c : VReg) (k : BitVec 3) (t : IFmt) (bound : Nat) (f : Nat → Nat → Nat → Nat) : M Unit :=
  vlanes u d k t.width t.lanes bound fun x i =>
    (f (lane t.width i (rdV x u a)) (lane t.width i (rdV x u b)) (lane t.width i (rdV x u c)), 0)

/-! ## Lane results (R296) -/

def subL (w a b : Nat) : Nat := wrap w ((a : Int) - b)
def satL (t : IFmt) (z : Int) : Nat := wrap t.width (clampTo t.signed t.width z)
def mulhL (t : IFmt) (a b : Nat) : Nat := wrap t.width (val t t.width a * val t t.width b / 2 ^ t.width)
def absL (t : IFmt) (a : Nat) : Nat := if t.signed && sgn t.width a < 0 then subL t.width 0 a else a
def minL (t : IFmt) (a b : Nat) : Nat := if val t t.width b < val t t.width a then b else a
def maxL (t : IFmt) (a b : Nat) : Nat := if val t t.width a < val t t.width b then b else a
def shlL (w a k : Nat) : Nat := if k ≥ w then 0 else a <<< k
def shrL (w a k : Nat) : Nat := if k ≥ w then 0 else a >>> k
def sarL (w a k : Nat) : Nat := wrap w (sgn w a / 2 ^ (min k w))
def condV (c : VCond) (a b : Int) : Bool :=
  match c with | .eq => a = b | .ne => a ≠ b | .lt => a < b | .ge => b ≤ a

/-! ## Meanings -/

/-- `vadd` (R296). -/
def execVadd (u : VSlot) (d a b : VReg) (k : BitVec 3) (t : IFmt) (s : State) : Host.Outcome State Fault Refusal :=
  run (vslot u) (vint u d a b k t 2 fun a b => a + b) s
/-- `vsub` (R296). -/
def execVsub (u : VSlot) (d a b : VReg) (k : BitVec 3) (t : IFmt) (s : State) : Host.Outcome State Fault Refusal :=
  run (vslot u) (vint u d a b k t 2 (subL t.width)) s
/-- `vadds` (R296). -/
def execVadds (u : VSlot) (d a b : VReg) (k : BitVec 3) (t : IFmt) (s : State) : Host.Outcome State Fault Refusal :=
  run (vslot u) (vint u d a b k t 2 fun a b => satL t (val t t.width a + val t t.width b)) s
/-- `vsubs` (R296). -/
def execVsubs (u : VSlot) (d a b : VReg) (k : BitVec 3) (t : IFmt) (s : State) : Host.Outcome State Fault Refusal :=
  run (vslot u) (vint u d a b k t 2 fun a b => satL t (val t t.width a - val t t.width b)) s
/-- `vmul` (R296). -/
def execVmul (u : VSlot) (d a b : VReg) (k : BitVec 3) (t : IFmt) (s : State) : Host.Outcome State Fault Refusal :=
  run (vslot u) (vint u d a b k t 3 fun a b => a * b) s
/-- `vmulh` (R296). -/
def execVmulh (u : VSlot) (d a b : VReg) (k : BitVec 3) (t : IFmt) (s : State) : Host.Outcome State Fault Refusal :=
  run (vslot u) (vint u d a b k t 3 (mulhL t)) s
/-- `vmla` (R296). -/
def execVmla (u : VSlot) (d a b c : VReg) (k : BitVec 3) (t : IFmt) (s : State) : Host.Outcome State Fault Refusal :=
  run (vslot u) (vint3 u d a b c k t 3 fun a b c => c + a * b) s
/-- `vmls` (R296). -/
def execVmls (u : VSlot) (d a b c : VReg) (k : BitVec 3) (t : IFmt) (s : State) : Host.Outcome State Fault Refusal :=
  run (vslot u) (vint3 u d a b c k t 3 fun a b c => subL t.width c (a * b)) s
/-- `vaddw` (R297): the low half of the lanes of a and b, into lanes of twice the width. -/
def execVaddw (u : VSlot) (d a b : VReg) (k : BitVec 3) (t : IFmt) (s : State) : Host.Outcome State Fault Refusal :=
  run (vslot u) (vlanes u d k (2 * t.width) (t.lanes / 2) 3 fun x i =>
    (wrap (2 * t.width) (val t t.width (lane t.width i (rdV x u a)) + val t t.width (lane t.width i (rdV x u b))), 0)) s
/-- `vmlaw` (R297). -/
def execVmlaw (u : VSlot) (d a b c : VReg) (k : BitVec 3) (t : IFmt) (s : State) : Host.Outcome State Fault Refusal :=
  run (vslot u) (vlanes u d k (2 * t.width) (t.lanes / 2) 3 fun x i =>
    (wrap (2 * t.width) (val t (2 * t.width) (lane (2 * t.width) i (rdV x u c)) +
      val t t.width (lane t.width i (rdV x u a)) * val t t.width (lane t.width i (rdV x u b))), 0)) s
/-- `vnarrow` (R297): the upper half of d is 0. -/
def execVnarrow (u : VSlot) (d a : VReg) (k : BitVec 3) (t : IFmt) (sat : Bool) (s : State) : Host.Outcome State Fault Refusal :=
  run (vslot u) (vlanes u d k t.width (t.lanes / 2) 3 fun x i =>
    let z := val t (2 * t.width) (lane (2 * t.width) i (rdV x u a))
    (if sat then satL t z else wrap t.width z, 0)) s
/-- `vabs` (R296). -/
def execVabs (u : VSlot) (d a : VReg) (k : BitVec 3) (t : IFmt) (s : State) : Host.Outcome State Fault Refusal :=
  run (vslot u) (vint u d a a k t 2 fun a _ => absL t a) s
/-- `vneg` (R296). -/
def execVneg (u : VSlot) (d a : VReg) (k : BitVec 3) (t : IFmt) (s : State) : Host.Outcome State Fault Refusal :=
  run (vslot u) (vint u d a a k t 2 fun a _ => subL t.width 0 a) s
/-- `vmin` (R296). -/
def execVmin (u : VSlot) (d a b : VReg) (k : BitVec 3) (t : IFmt) (s : State) : Host.Outcome State Fault Refusal :=
  run (vslot u) (vint u d a b k t 2 (minL t)) s
/-- `vmax` (R296). -/
def execVmax (u : VSlot) (d a b : VReg) (k : BitVec 3) (t : IFmt) (s : State) : Host.Outcome State Fault Refusal :=
  run (vslot u) (vint u d a b k t 2 (maxL t)) s
/-- `vand` (R296). -/
def execVand (u : VSlot) (d a b : VReg) (k : BitVec 3) (t : IFmt) (s : State) : Host.Outcome State Fault Refusal :=
  run (vslot u) (vint u d a b k t 2 fun a b => a &&& b) s
/-- `vor` (R296). -/
def execVor (u : VSlot) (d a b : VReg) (k : BitVec 3) (t : IFmt) (s : State) : Host.Outcome State Fault Refusal :=
  run (vslot u) (vint u d a b k t 2 fun a b => a ||| b) s
/-- `vxor` (R296). -/
def execVxor (u : VSlot) (d a b : VReg) (k : BitVec 3) (t : IFmt) (s : State) : Host.Outcome State Fault Refusal :=
  run (vslot u) (vint u d a b k t 2 fun a b => a ^^^ b) s
/-- `vnot` (R296). -/
def execVnot (u : VSlot) (d a : VReg) (k : BitVec 3) (t : IFmt) (s : State) : Host.Outcome State Fault Refusal :=
  run (vslot u) (vint u d a a k t 2 fun a _ => 2 ^ t.width - 1 - a) s
/-- `vshl` (R296). -/
def execVshl (u : VSlot) (d a b : VReg) (k : BitVec 3) (t : IFmt) (s : State) : Host.Outcome State Fault Refusal :=
  run (vslot u) (vint u d a b k t 2 (shlL t.width)) s
/-- `vshr` (R296): logical, whatever the type. -/
def execVshr (u : VSlot) (d a b : VReg) (k : BitVec 3) (t : IFmt) (s : State) : Host.Outcome State Fault Refusal :=
  run (vslot u) (vint u d a b k t 2 (shrL t.width)) s
/-- `vsar` (R296): arithmetic, whatever the type. -/
def execVsar (u : VSlot) (d a b : VReg) (k : BitVec 3) (t : IFmt) (s : State) : Host.Outcome State Fault Refusal :=
  run (vslot u) (vint u d a b k t 2 (sarL t.width)) s
/-- `vshli` (R296). -/
def execVshli (u : VSlot) (d a : VReg) (n : BitVec 6) (k : BitVec 3) (t : IFmt) (s : State) : Host.Outcome State Fault Refusal :=
  run (vslot u) (vint u d a a k t 2 fun a _ => shlL t.width a n.toNat) s
/-- `vcmp` (R298). -/
def execVcmp (u : VSlot) (d : BitVec 3) (a b : VReg) (k : BitVec 3) (t : IFmt) (c : VCond) (s : State) :
    Host.Outcome State Fault Refusal :=
  run (vslot u) (do
    let x ← getC
    let m := rdK x u k
    let old := rdK x u d
    outK u d (maskOf t.lanes fun i =>
      if m.getLsbD i then condV c (val t t.width (lane t.width i (rdV x u a))) (val t t.width (lane t.width i (rdV x u b)))
      else old.getLsbD i) 0 2) s
/-- `vsel` (R299). -/
def execVsel (u : VSlot) (d a b : VReg) (k : BitVec 3) (t : IFmt) (s : State) : Host.Outcome State Fault Refusal :=
  run (vslot u) (do
    let x ← getC
    outV u d (lanesM t.width t.lanes (BitVec.allOnes 256) 0 fun i =>
      (lane t.width i (rdV x u (if (rdK x u k).getLsbD i then a else b)), 0)) 2) s

/-! ## Masks (R317) -/

/-- `kand` (R317). -/
def execKand (u : VSlot) (d a b : BitVec 3) (s : State) : Host.Outcome State Fault Refusal :=
  run (vslot u) (do let x ← getC; outK u d (rdK x u a &&& rdK x u b) 0 1) s
/-- `kor` (R317). -/
def execKor (u : VSlot) (d a b : BitVec 3) (s : State) : Host.Outcome State Fault Refusal :=
  run (vslot u) (do let x ← getC; outK u d (rdK x u a ||| rdK x u b) 0 1) s
/-- `knot` (R317). -/
def execKnot (u : VSlot) (d a : BitVec 3) (s : State) : Host.Outcome State Fault Refusal :=
  run (vslot u) (do let x ← getC; outK u d (~~~rdK x u a) 0 1) s
/-- `kmov` (R317). -/
def execKmov (u : VSlot) (d a : BitVec 3) (s : State) : Host.Outcome State Fault Refusal :=
  run (vslot u) (do let x ← getC; outK u d (rdK x u a) 0 1) s

end Sys2Proof.Machine
end

