-- ==== Sys2Proof/Machine/VecFloat.lean ====
section
/-! DEFINITION. The V slots' float operations (R300 to R306) and conversions (R307). -/
namespace Sys2Proof.Machine

/-! ## Forms -/

/-- A bound that is longer for f64 (R252). -/
def fbound (t : FFmt) (short long : Nat) : Nat := match t with | .f64 => long | _ => short

/-- A lane of a register as a float value. -/
def fl (x : Ctx) (u : VSlot) (t : FFmt) (r : VReg) (i : Nat) : FV := decF t (lane t.width i (rdV x u r))

/-- A float operation on lanes of a and b, rounded under rm (R300). -/
def vfl2 (u : VSlot) (d a b : VReg) (k : BitVec 3) (t : FFmt) (rm : Rnd) (bound : Nat) (f : RMode → FV → FV → XV × Fl) : M Unit :=
  vlanes u d k t.width t.lanes bound fun x i => roundX t (rmOf x rm) false (f (rmOf x rm) (fl x u t a i) (fl x u t b i))

/-- A float operation on lanes of a, b and c. -/
def vfl3 (u : VSlot) (d a b c : VReg) (k : BitVec 3) (t : FFmt) (rm : Rnd) (f : RMode → FV → FV → FV → XV × Fl) : M Unit :=
  vlanes u d k t.width t.lanes (fbound t 4 6) fun x i =>
    roundX t (rmOf x rm) false (f (rmOf x rm) (fl x u t a i) (fl x u t b i) (fl x u t c i))

/-- An operation on the patterns of a and b. -/
def vpat (u : VSlot) (d a b : VReg) (k : BitVec 3) (t : FFmt) (bound : Nat) (f : Nat → Nat → Nat × Fl) : M Unit :=
  vlanes u d k t.width t.lanes bound fun x i => f (lane t.width i (rdV x u a)) (lane t.width i (rdV x u b))

/-! ## Meanings -/

/-- `fadd` (R300). -/
def execFadd (u : VSlot) (d a b : VReg) (k : BitVec 3) (t : FFmt) (rm : Rnd) (s : State) : Host.Outcome State Fault Refusal :=
  run (vslot u) (vfl2 u d a b k t rm (fbound t 4 6) fun m a b => addF m a b) s
/-- `fsub` (R300). -/
def execFsub (u : VSlot) (d a b : VReg) (k : BitVec 3) (t : FFmt) (rm : Rnd) (s : State) : Host.Outcome State Fault Refusal :=
  run (vslot u) (vfl2 u d a b k t rm (fbound t 4 6) fun m a b => addF m a b.neg) s
/-- `fmul` (R300). -/
def execFmul (u : VSlot) (d a b : VReg) (k : BitVec 3) (t : FFmt) (rm : Rnd) (s : State) : Host.Outcome State Fault Refusal :=
  run (vslot u) (vfl2 u d a b k t rm (fbound t 4 6) fun _ a b => mulX a b) s
/-- `ffma` (R300). -/
def execFfma (u : VSlot) (d a b c : VReg) (k : BitVec 3) (t : FFmt) (rm : Rnd) (s : State) : Host.Outcome State Fault Refusal :=
  run (vslot u) (vfl3 u d a b c k t rm fun m a b c => fmaF m a b c) s
/-- `ffms` (R300). -/
def execFfms (u : VSlot) (d a b c : VReg) (k : BitVec 3) (t : FFmt) (rm : Rnd) (s : State) : Host.Outcome State Fault Refusal :=
  run (vslot u) (vfl3 u d a b c k t rm fun m a b c => fmaF m a b c.neg) s
/-- `fdiv` (R300). -/
def execFdiv (u : VSlot) (d a b : VReg) (k : BitVec 3) (t : FFmt) (rm : Rnd) (s : State) : Host.Outcome State Fault Refusal :=
  run (vslot u) (vfl2 u d a b k t rm (fbound t 12 20) fun _ a b => divF a b) s
/-- `fsqrt` (R300). -/
def execFsqrt (u : VSlot) (d a : VReg) (k : BitVec 3) (t : FFmt) (rm : Rnd) (s : State) : Host.Outcome State Fault Refusal :=
  run (vslot u) (vfl2 u d a a k t rm (fbound t 12 20) fun _ a _ => sqrtF a) s
/-- `frcpe` (R301). -/
def execFrcpe (u : VSlot) (d a : VReg) (k : BitVec 3) (t : FFmt) (s : State) : Host.Outcome State Fault Refusal :=
  run (vslot u) (vpat u d a a k t 4 fun a _ => rcpeF t (decF t a)) s
/-- `fmin` (R302). -/
def execFmin (u : VSlot) (d a b : VReg) (k : BitVec 3) (t : FFmt) (s : State) : Host.Outcome State Fault Refusal :=
  run (vslot u) (vpat u d a b k t (fbound t 4 6) (minMaxF t false)) s
/-- `fmax` (R302). -/
def execFmax (u : VSlot) (d a b : VReg) (k : BitVec 3) (t : FFmt) (s : State) : Host.Outcome State Fault Refusal :=
  run (vslot u) (vpat u d a b k t (fbound t 4 6) (minMaxF t true)) s
/-- `fabs` (R303). -/
def execFabs (u : VSlot) (d a : VReg) (k : BitVec 3) (t : FFmt) (s : State) : Host.Outcome State Fault Refusal :=
  run (vslot u) (vpat u d a a k t (fbound t 4 6) fun a _ => (a % t.signBit, 0)) s
/-- `fneg` (R303). -/
def execFneg (u : VSlot) (d a : VReg) (k : BitVec 3) (t : FFmt) (s : State) : Host.Outcome State Fault Refusal :=
  run (vslot u) (vpat u d a a k t (fbound t 4 6) fun a _ => (a ^^^ t.signBit, 0)) s
/-- `fcmp` (R304). -/
def execFcmp (u : VSlot) (d : BitVec 3) (a b : VReg) (k : BitVec 3) (t : FFmt) (c : FCond) (s : State) :
    Host.Outcome State Fault Refusal :=
  run (vslot u) (do
    let x ← getC
    let m := rdK x u k
    let old := rdK x u d
    let r := (List.range t.lanes).map fun i =>
      if m.getLsbD i then cmpF c (fl x u t a i) (fl x u t b i) else (old.getLsbD i, 0)
    outK u d (BitVec.ofNat 256 (packL 1 (r.map fun p => if p.1 then 1 else 0))) (orFlags (r.map (·.2))) (fbound t 4 6)) s
/-- `fclass` (R305). -/
def execFclass (u : VSlot) (d a : VReg) (k : BitVec 3) (t : FFmt) (s : State) : Host.Outcome State Fault Refusal :=
  run (vslot u) (vpat u d a a k t (fbound t 4 6) fun a _ => (classF t a, 0)) s
/-- `fround` (R306). -/
def execFround (u : VSlot) (d a : VReg) (k : BitVec 3) (t : FFmt) (rm : Rnd) (s : State) : Host.Outcome State Fault Refusal :=
  run (vslot u) (vlanes u d k t.width t.lanes (fbound t 4 6) fun x i =>
    roundIntegral t (rmOf x rm) (lane t.width i (rdV x u a))) s

/-! ## Conversions (R307): the lanes that both formats have; the rest of d is 0 -/

/-- `fcvt` (R307). -/
def execFcvt (u : VSlot) (d a : VReg) (k : BitVec 3) (t src : FFmt) (rm : Rnd) (sat : Bool) (s : State) :
    Host.Outcome State Fault Refusal :=
  run (vslot u) (vlanes u d k t.width (min t.lanes src.lanes) 3 fun x i => cvtFF t (rmOf x rm) sat (fl x u src a i)) s
/-- `fcvti` (R307). -/
def execFcvti (u : VSlot) (d a : VReg) (k : BitVec 3) (t : IFmt) (src : FFmt) (rm : Rnd) (s : State) :
    Host.Outcome State Fault Refusal :=
  run (vslot u) (vlanes u d k t.width (min t.lanes src.lanes) 3 fun x i =>
    let (z, f) := cvtFI (minOf t.signed t.width) (maxOf t.signed t.width) (rmOf x rm) (fl x u src a i)
    (wrap t.width z, f)) s
/-- `icvtf` (R307). -/
def execIcvtf (u : VSlot) (d a : VReg) (k : BitVec 3) (t : FFmt) (src : IFmt) (rm : Rnd) (s : State) :
    Host.Outcome State Fault Refusal :=
  run (vslot u) (vlanes u d k t.width (min t.lanes src.lanes) 3 fun x i =>
    cvtIF t (rmOf x rm) (val src src.width (lane src.width i (rdV x u a)))) s

end Sys2Proof.Machine
end

