-- ==== Sys2Proof/Machine/VecMove.lean ====
section
/-! DEFINITION. The V slots' movement (R308), reductions and scans (R309 to R311), quantisation (R312) and Mirage operations
(R313 to R316). -/
namespace Sys2Proof.Machine

/-! ## Movement (R308) -/

/-- `vmov` (R308). -/
def execVmov (u : VSlot) (d a : VReg) (k : BitVec 3) (t : IFmt) (s : State) : Host.Outcome State Fault Refusal :=
  run (vslot u) (vint u d a a k t 2 fun a _ => a) s
/-- `vbcast` (R308). -/
def execVbcast (u : VSlot) (d : VReg) (a : SReg) (k : BitVec 3) (t : IFmt) (s : State) : Host.Outcome State Fault Refusal :=
  run (vslot u) (vlanes u d k t.width t.lanes 2 fun x _ => ((rdS x a).toNat, 0)) s
/-- `vslide` (R308). -/
def execVslide (u : VSlot) (d a b : VReg) (k : BitVec 3) (t : IFmt) (off : BitVec 8) (s : State) :
    Host.Outcome State Fault Refusal :=
  run (vslot u) (vlanes u d k t.width t.lanes 3 fun x i =>
    let j := i + off.toNat
    (if j < t.lanes then lane t.width j (rdV x u a) else lane t.width (j - t.lanes) (rdV x u b), 0)) s
/-- `vperm` (R308). -/
def execVperm (u : VSlot) (d a b : VReg) (k : BitVec 3) (t : IFmt) (s : State) : Host.Outcome State Fault Refusal :=
  run (vslot u) (vlanes u d k t.width t.lanes 3 fun x i =>
    (lane t.width (lane t.width i (rdV x u b) % t.lanes) (rdV x u a), 0)) s
/-- `vlane` (R308). -/
def execVlane (u : VSlot) (d : VReg) (a : SReg) (k : BitVec 3) (t : IFmt) (ln : BitVec 8) (s : State) :
    Host.Outcome State Fault Refusal :=
  run (vslot u) (vlanes u d k t.width t.lanes 2 fun x i =>
    (if i = ln.toNat then (rdS x a).toNat else lane t.width i (rdV x u d), 0)) s

/-! ## Reductions and scans (R309 to R311, R63, R64) -/

/-- One level of the tree: adjacent pairs combined. -/
def pairUp {α : Type} (f : α → α → α) : List α → List α
  | a :: b :: l => f a b :: pairUp f l
  | l => l

/-- The tree over its levels (R63). -/
def treeUp {α : Type} (f : α → α → α) : Nat → List α → List α
  | 0, l => l
  | n + 1, l => match l with
    | _ :: _ :: _ => treeUp f n (pairUp f l)
    | l => l

/-- A result in lane 0 and zeros above it (R309). -/
def lane0 (w : Nat) (l : List (Nat × Fl)) : Vec × Fl :=
  match l with
  | (v, f) :: _ => (BitVec.ofNat 2048 (v % 2 ^ w), f)
  | [] => (0, 0)

/-- The input lanes, the identity where the mask excludes one (R311). -/
def inputs (x : Ctx) (u : VSlot) (a : VReg) (k : BitVec 3) (w n ident : Nat) : List Nat :=
  (List.range n).map fun i => if (rdK x u k).getLsbD i then lane w i (rdV x u a) else ident

/-- An integer reduction. -/
def vred (u : VSlot) (d a : VReg) (k : BitVec 3) (t : IFmt) (ident : Int) (f : Nat → Nat → Nat) : M Unit := do
  let x ← getC
  let l := inputs x u a k t.width t.lanes (wrap t.width ident)
  outV u d (lane0 t.width ((treeUp f 8 l).map fun v => (v, 0))) 6

/-- `vredadd` (R309). -/
def execVredadd (u : VSlot) (d a : VReg) (k : BitVec 3) (t : IFmt) (s : State) : Host.Outcome State Fault Refusal :=
  run (vslot u) (vred u d a k t 0 fun a b => (a + b) % 2 ^ t.width) s
/-- `vredmin` (R309). -/
def execVredmin (u : VSlot) (d a : VReg) (k : BitVec 3) (t : IFmt) (s : State) : Host.Outcome State Fault Refusal :=
  run (vslot u) (vred u d a k t (maxOf t.signed t.width) (minL t)) s
/-- `vredmax` (R309). -/
def execVredmax (u : VSlot) (d a : VReg) (k : BitVec 3) (t : IFmt) (s : State) : Host.Outcome State Fault Refusal :=
  run (vslot u) (vred u d a k t (minOf t.signed t.width) (maxL t)) s

/-- A float addition of two patterns with the flags so far. -/
def addPat (t : FFmt) (m : RMode) (a b : Nat × Fl) : Nat × Fl :=
  let (p, f) := roundX t m false (addF m (decF t a.1) (decF t b.1))
  (p, f ||| a.2 ||| b.2)

/-- `fredadd` (R309). -/
def execFredadd (u : VSlot) (d a : VReg) (k : BitVec 3) (t : FFmt) (rm : Rnd) (s : State) : Host.Outcome State Fault Refusal :=
  run (vslot u) (do
    let x ← getC
    let l := inputs x u a k t.width t.lanes t.signBit
    outV u d (lane0 t.width (treeUp (addPat t (rmOf x rm)) 8 (l.map fun v => (v, 0)))) 6) s

/-- The running results of a scan. -/
def scanL {α : Type} (f : α → Nat → α) : α → List Nat → List α
  | _, [] => []
  | acc, v :: l => f acc v :: scanL f (f acc v) l

/-- `vscan` (R310). -/
def execVscan (u : VSlot) (d a : VReg) (k : BitVec 3) (t : IFmt) (s : State) : Host.Outcome State Fault Refusal :=
  run (vslot u) (do
    let x ← getC
    let l := scanL (fun acc v => (acc + v) % 2 ^ t.width) 0 (inputs x u a k t.width t.lanes 0)
    outV u d (BitVec.ofNat 2048 (packL t.width l), 0) 8) s
/-- `fscan` (R310). -/
def execFscan (u : VSlot) (d a : VReg) (k : BitVec 3) (t : FFmt) (rm : Rnd) (s : State) : Host.Outcome State Fault Refusal :=
  run (vslot u) (do
    let x ← getC
    match inputs x u a k t.width t.lanes t.signBit with
    | [] => return ()
    | v :: l =>
      let first := cvtFF t (rmOf x rm) false (decF t v)
      let r := first :: scanL (fun acc v => addPat t (rmOf x rm) acc (v, 0)) first l
      outV u d (BitVec.ofNat 2048 (packL t.width (r.map (·.1))), orFlags (r.map (·.2))) 8) s

/-! ## Quantisation (R312) -/

/-- Bits of a code. -/
def codeBits (q4 : Bool) : Nat := if q4 then 4 else 8

/-- `vdequant` (R312, R44). -/
def execVdequant (u : VSlot) (d a b : VReg) (k : BitVec 3) (t : FFmt) (q4 : Bool) (rm : Rnd) (s : State) :
    Host.Outcome State Fault Refusal :=
  run (vslot u) (vlanes u d k t.width (min 64 t.lanes) 3 fun x i =>
    roundX t (rmOf x rm) false (dequant (lane 32 i (rdV x u b)) (lane (codeBits q4) i (rdV x u a)))) s
/-- `vquant` (R312, R44). -/
def execVquant (u : VSlot) (d a b : VReg) (k : BitVec 3) (t : FFmt) (q4 : Bool) (rm : Rnd) (s : State) :
    Host.Outcome State Fault Refusal :=
  run (vslot u) (vlanes u d k (codeBits q4) (min 64 t.lanes) 3 fun x i =>
    quant (codeBits q4) (rmOf x rm) (lane 32 i (rdV x u b)) (fl x u t a i)) s

/-! ## Mirage (R313 to R316, R58) -/

/-- +1.0 or −1.0 in a format. -/
def onePat (t : FFmt) (neg : Bool) : Nat := t.bias * 2 ^ t.mbits + (if neg then t.signBit else 0)

/-- `vgen` (R313). -/
def execVgen (u : VSlot) (d : VReg) (a b : SReg) (k : BitVec 3) (t : FFmt) (s : State) : Host.Outcome State Fault Refusal :=
  run (vslot u) (vlanes u d k t.width t.lanes 4 fun x i =>
    (onePat t (lfsr (rdS x a) (bitsAt (rdS x b).toNat 0 32 + i)), 0)) s

/-- The exact sum of the unmasked target lanes with the signs of the steps, after the addends `z`, rounded to f32 (R314, R315). -/
def project (x : Ctx) (u : VSlot) (b : VReg) (k : BitVec 3) (t : FFmt) (seed : Word) (z : List FV) (step : Nat → Nat) : Nat × Fl :=
  let ts := ((List.range t.lanes).filter fun i => (rdK x u k).getLsbD i).map fun i =>
    signBy (lfsr seed (step i)) (fl x u t b i)
  roundX .f32 .rne false (sumF .rne (z ++ ts))

/-- f32 results in the low lanes, zeros above them. -/
def lowF32 (l : List (Nat × Fl)) : Vec × Fl := (BitVec.ofNat 2048 (packL 32 (l.map (·.1))), orFlags (l.map (·.2)))

/-- `vproj` (R314): its sum starts from +0. -/
def execVproj (u : VSlot) (d a b : VReg) (k : BitVec 3) (t : FFmt) (r : BitVec 13) (s : State) : Host.Outcome State Fault Refusal :=
  run (vslot u) (do
    let x ← getC
    let seed : Word := (rdV x u a).setWidth 64
    let k0 := lane 32 2 (rdV x u a)
    outV u d (lowF32 ((List.range r.toNat).map fun j =>
      project x u b k t seed [.fin false 0 0] fun i => (k0 + i) * r.toNat + j)) 8) s
/-- `vseedscan` (R315): its sum has the lanes' terms only; with no lane unmasked it is +0. -/
def execVseedscan (u : VSlot) (d : VReg) (a : SReg) (b : VReg) (k : BitVec 3) (t : FFmt) (r : BitVec 13) (s : State) :
    Host.Outcome State Fault Refusal :=
  run (vslot u) (do
    let x ← getC
    outV u d (lowF32 ((List.range 8).map fun j =>
      project x u b k t (rdS x a + BitVec.ofNat 64 j) [] fun i => i * r.toNat)) 16) s

end Sys2Proof.Machine
end

