-- ==== Sys2Proof/Machine/Dispatch.lean ====
section
/-! DEFINITION. The dispatch: one arm for each constructor of `Instr`. -/
namespace Sys2Proof.Machine

/-- The meaning of an instruction (95): each arm calls the meaning of its row. -/
def exec (i : Instr) (s : State) : Host.Outcome State Fault Refusal :=
  match i with
  | .add d a b q => Sys2Proof.Machine.execAdd d a b q s
  | .sub d a b q => Sys2Proof.Machine.execSub d a b q s
  | .and d a b q => Sys2Proof.Machine.execAnd d a b q s
  | .or d a b q => Sys2Proof.Machine.execOr d a b q s
  | .xor d a b q => Sys2Proof.Machine.execXor d a b q s
  | .shl d a b q => Sys2Proof.Machine.execShl d a b q s
  | .shr d a b q => Sys2Proof.Machine.execShr d a b q s
  | .sar d a b q => Sys2Proof.Machine.execSar d a b q s
  | .min d a b q => Sys2Proof.Machine.execMin d a b q s
  | .max d a b q => Sys2Proof.Machine.execMax d a b q s
  | .minn d a b q => Sys2Proof.Machine.execMinn d a b q s
  | .maxn d a b q => Sys2Proof.Machine.execMaxn d a b q s
  | .mul d a b q => Sys2Proof.Machine.execMul d a b q s
  | .mulh d a b q => Sys2Proof.Machine.execMulh d a b q s
  | .mulhn d a b q => Sys2Proof.Machine.execMulhn d a b q s
  | .div d a b q => Sys2Proof.Machine.execDiv d a b q s
  | .divn d a b q => Sys2Proof.Machine.execDivn d a b q s
  | .rem d a b q => Sys2Proof.Machine.execRem d a b q s
  | .remn d a b q => Sys2Proof.Machine.execRemn d a b q s
  | .clz d a q => Sys2Proof.Machine.execClz d a q s
  | .popc d a q => Sys2Proof.Machine.execPopc d a q s
  | .bext d a b q pos wm1 => Sys2Proof.Machine.execBext d a b q pos wm1 s
  | .bins d a b q pos wm1 => Sys2Proof.Machine.execBins d a b q pos wm1 s
  | .sel d a b q p => Sys2Proof.Machine.execSel d a b q p s
  | .cmp p a b q c => Sys2Proof.Machine.execCmp p a b q c s
  | .addi d a imm => Sys2Proof.Machine.execAddi d a imm s
  | .andi d a imm => Sys2Proof.Machine.execAndi d a imm s
  | .ori d a imm => Sys2Proof.Machine.execOri d a imm s
  | .xori d a imm => Sys2Proof.Machine.execXori d a imm s
  | .shli d a n => Sys2Proof.Machine.execShli d a n s
  | .shri d a n => Sys2Proof.Machine.execShri d a n s
  | .sari d a n => Sys2Proof.Machine.execSari d a n s
  | .cmpi p a imm c => Sys2Proof.Machine.execCmpi p a imm c s
  | .li d imm => Sys2Proof.Machine.execLi d imm s
  | .lih d imm => Sys2Proof.Machine.execLih d imm s
  | .br p neg off => Sys2Proof.Machine.execBr p neg off s
  | .brc p neg off c t => Sys2Proof.Machine.execBrc p neg off c t s
  | .call p neg off => Sys2Proof.Machine.execCall p neg off s
  | .callr a q => Sys2Proof.Machine.execCallr a q s
  | .ret a q => Sys2Proof.Machine.execRet a q s
  | .jr a q => Sys2Proof.Machine.execJr a q s
  | .loop c0 c1 c2 c3 levels off => Sys2Proof.Machine.execLoop c0 c1 c2 c3 levels off s
  | .ring f base len => Sys2Proof.Machine.execRing f base len s
  | .mfsr d r => Sys2Proof.Machine.execMfsr d r s
  | .mtsr r a => Sys2Proof.Machine.execMtsr r a s
  | .ld d m w => Sys2Proof.Machine.execLd d m w s
  | .st d m w => Sys2Proof.Machine.execSt d m w s
  | .lda d m w sc => Sys2Proof.Machine.execLda d m w sc s
  | .stl d m w sc => Sys2Proof.Machine.execStl d m w sc s
  | .amo op d a b q w o sc => Sys2Proof.Machine.execAmo op d a b q w o sc s
  | .amocas d a b c q w o sc => Sys2Proof.Machine.execAmocas d a b c q w o sc s
  | .lr d a q w o sc => Sys2Proof.Machine.execLr d a q w o sc s
  | .sc d a b q w o sx => Sys2Proof.Machine.execSc d a b q w o sx s
  | .fence o sc q => Sys2Proof.Machine.execFence o sc q s
  | .cwb a b q sc => Sys2Proof.Machine.execCwb a b q sc s
  | .pref m clc => Sys2Proof.Machine.execPref m clc s
  | .xget d g lane => Sys2Proof.Machine.execXget d g lane s
  | .trap code => Sys2Proof.Machine.execTrap code s
  | .svc num => Sys2Proof.Machine.execSvc num s
  | .eret q => Sys2Proof.Machine.execEret q s
  | .brk tag => Sys2Proof.Machine.execBrk tag s
  | .tlbinv a b q all => Sys2Proof.Machine.execTlbinv a b q all s
  | .wfi q => Sys2Proof.Machine.execWfi q s
  | .nop drain run tmpl => Sys2Proof.Machine.execNop drain run tmpl s
  | .vadd u d a b k t => Sys2Proof.Machine.execVadd u d a b k t s
  | .vsub u d a b k t => Sys2Proof.Machine.execVsub u d a b k t s
  | .vadds u d a b k t => Sys2Proof.Machine.execVadds u d a b k t s
  | .vsubs u d a b k t => Sys2Proof.Machine.execVsubs u d a b k t s
  | .vmul u d a b k t => Sys2Proof.Machine.execVmul u d a b k t s
  | .vmulh u d a b k t => Sys2Proof.Machine.execVmulh u d a b k t s
  | .vmla u d a b c k t => Sys2Proof.Machine.execVmla u d a b c k t s
  | .vmls u d a b c k t => Sys2Proof.Machine.execVmls u d a b c k t s
  | .vaddw u d a b k t => Sys2Proof.Machine.execVaddw u d a b k t s
  | .vmlaw u d a b c k t => Sys2Proof.Machine.execVmlaw u d a b c k t s
  | .vnarrow u d a k t sat => Sys2Proof.Machine.execVnarrow u d a k t sat s
  | .vabs u d a k t => Sys2Proof.Machine.execVabs u d a k t s
  | .vneg u d a k t => Sys2Proof.Machine.execVneg u d a k t s
  | .vmin u d a b k t => Sys2Proof.Machine.execVmin u d a b k t s
  | .vmax u d a b k t => Sys2Proof.Machine.execVmax u d a b k t s
  | .vand u d a b k t => Sys2Proof.Machine.execVand u d a b k t s
  | .vor u d a b k t => Sys2Proof.Machine.execVor u d a b k t s
  | .vxor u d a b k t => Sys2Proof.Machine.execVxor u d a b k t s
  | .vnot u d a k t => Sys2Proof.Machine.execVnot u d a k t s
  | .vshl u d a b k t => Sys2Proof.Machine.execVshl u d a b k t s
  | .vshr u d a b k t => Sys2Proof.Machine.execVshr u d a b k t s
  | .vsar u d a b k t => Sys2Proof.Machine.execVsar u d a b k t s
  | .vshli u d a n k t => Sys2Proof.Machine.execVshli u d a n k t s
  | .vcmp u d a b k t c => Sys2Proof.Machine.execVcmp u d a b k t c s
  | .vsel u d a b k t => Sys2Proof.Machine.execVsel u d a b k t s
  | .fadd u d a b k t rm => Sys2Proof.Machine.execFadd u d a b k t rm s
  | .fsub u d a b k t rm => Sys2Proof.Machine.execFsub u d a b k t rm s
  | .fmul u d a b k t rm => Sys2Proof.Machine.execFmul u d a b k t rm s
  | .ffma u d a b c k t rm => Sys2Proof.Machine.execFfma u d a b c k t rm s
  | .ffms u d a b c k t rm => Sys2Proof.Machine.execFfms u d a b c k t rm s
  | .fdiv u d a b k t rm => Sys2Proof.Machine.execFdiv u d a b k t rm s
  | .fsqrt u d a k t rm => Sys2Proof.Machine.execFsqrt u d a k t rm s
  | .frcpe u d a k t => Sys2Proof.Machine.execFrcpe u d a k t s
  | .fmin u d a b k t => Sys2Proof.Machine.execFmin u d a b k t s
  | .fmax u d a b k t => Sys2Proof.Machine.execFmax u d a b k t s
  | .fabs u d a k t => Sys2Proof.Machine.execFabs u d a k t s
  | .fneg u d a k t => Sys2Proof.Machine.execFneg u d a k t s
  | .fcmp u d a b k t c => Sys2Proof.Machine.execFcmp u d a b k t c s
  | .fclass u d a k t => Sys2Proof.Machine.execFclass u d a k t s
  | .fcvt u d a k t src rm sat => Sys2Proof.Machine.execFcvt u d a k t src rm sat s
  | .fcvti u d a k t src rm => Sys2Proof.Machine.execFcvti u d a k t src rm s
  | .icvtf u d a k t src rm => Sys2Proof.Machine.execIcvtf u d a k t src rm s
  | .fround u d a k t rm => Sys2Proof.Machine.execFround u d a k t rm s
  | .vmov u d a k t => Sys2Proof.Machine.execVmov u d a k t s
  | .vbcast u d a k t => Sys2Proof.Machine.execVbcast u d a k t s
  | .vslide u d a b k t off => Sys2Proof.Machine.execVslide u d a b k t off s
  | .vperm u d a b k t => Sys2Proof.Machine.execVperm u d a b k t s
  | .vlane u d a k t lane => Sys2Proof.Machine.execVlane u d a k t lane s
  | .vredadd u d a k t => Sys2Proof.Machine.execVredadd u d a k t s
  | .vredmin u d a k t => Sys2Proof.Machine.execVredmin u d a k t s
  | .vredmax u d a k t => Sys2Proof.Machine.execVredmax u d a k t s
  | .fredadd u d a k t rm => Sys2Proof.Machine.execFredadd u d a k t rm s
  | .vscan u d a k t => Sys2Proof.Machine.execVscan u d a k t s
  | .fscan u d a k t rm => Sys2Proof.Machine.execFscan u d a k t rm s
  | .vdequant u d a b k t q4 rm => Sys2Proof.Machine.execVdequant u d a b k t q4 rm s
  | .vquant u d a b k t q4 rm => Sys2Proof.Machine.execVquant u d a b k t q4 rm s
  | .vgen u d a b k t => Sys2Proof.Machine.execVgen u d a b k t s
  | .vproj u d a b k t r => Sys2Proof.Machine.execVproj u d a b k t r s
  | .vseedscan u d a b k t r => Sys2Proof.Machine.execVseedscan u d a b k t r s
  | .kand u d a b => Sys2Proof.Machine.execKand u d a b s
  | .kor u d a b => Sys2Proof.Machine.execKor u d a b s
  | .knot u d a => Sys2Proof.Machine.execKnot u d a s
  | .kmov u d a => Sys2Proof.Machine.execKmov u d a s
  | .mzero f => Sys2Proof.Machine.execMzero f s
  | .mld r t off => Sys2Proof.Machine.execMld r t off s
  | .mst r t off => Sys2Proof.Machine.execMst r t off s
  | .mma f a w c off rm => Sys2Proof.Machine.execMma f a w c off rm s
  | .mmaq f a w c off rm => Sys2Proof.Machine.execMmaq f a w c off rm s
  | .mmag f a w c off rm => Sys2Proof.Machine.execMmag f a w c off rm s
  | .mman f n => Sys2Proof.Machine.execMman f n s
  | .mscale f sx rm => Sys2Proof.Machine.execMscale f sx rm s
  | .maddt r t off => Sys2Proof.Machine.execMaddt r t off s
  | .mcvt d sx toF32 rm => Sys2Proof.Machine.execMcvt d sx toF32 rm s
  | .tld r t row => Sys2Proof.Machine.execTld r t row s
  | .tldm d m size => Sys2Proof.Machine.execTldm d m size s
  | .mbld d m => Sys2Proof.Machine.execMbld d m s
  | .tacq t => Sys2Proof.Machine.execTacq t s
  | .tbind f d v => Sys2Proof.Machine.execTbind f d v s
  | .thint t h => Sys2Proof.Machine.execThint t h s
  | .titin f imm => Sys2Proof.Machine.execTitin f imm s
  | .tcol r t col => Sys2Proof.Machine.execTcol r t col s
  | .tst r t row => Sys2Proof.Machine.execTst r t row s
  | .tstm g a m => Sys2Proof.Machine.execTstm g a m s
  | .mbst d m => Sys2Proof.Machine.execMbst d m s
  | .mbcast d m => Sys2Proof.Machine.execMbcast d m s
  | .twopen t zero => Sys2Proof.Machine.execTwopen t zero s
  | .tpost t wb => Sys2Proof.Machine.execTpost t wb s
  | .tdrop t => Sys2Proof.Machine.execTdrop t s
  | .xcopy d e => Sys2Proof.Machine.execXcopy d e s
  | .xgather d e => Sys2Proof.Machine.execXgather d e s
  | .xremote d e => Sys2Proof.Machine.execXremote d e s
  | .xfill d e => Sys2Proof.Machine.execXfill d e s
  | .xflushrd p e => Sys2Proof.Machine.execXflushrd p e s
  | .xcancel e => Sys2Proof.Machine.execXcancel e s
  | .rop op w a x r e => Sys2Proof.Machine.execRop op w a x r e s
  | .rcas4 b r e => Sys2Proof.Machine.execRcas4 b r e s
  | .renq h n r e => Sys2Proof.Machine.execRenq h n r e s
  | .rdeq h r e => Sys2Proof.Machine.execRdeq h r e s
  | .rchase b r e => Sys2Proof.Machine.execRchase b r e s
  | .spawn d a => Sys2Proof.Machine.execSpawn d a s
  | .spawnr d a n => Sys2Proof.Machine.execSpawnr d a n s
  | .fget d h => Sys2Proof.Machine.execFget d h s
  | .fdup h handOff => Sys2Proof.Machine.execFdup h handOff s
  | .fdrop h => Sys2Proof.Machine.execFdrop h s
  | .fpin => Sys2Proof.Machine.execFpin s
  | .tend v => Sys2Proof.Machine.execTend v s
  | .yield => Sys2Proof.Machine.execYield s
  | .evwait e t => Sys2Proof.Machine.execEvwait e t s
  | .evinc e imm => Sys2Proof.Machine.execEvinc e imm s
  | .sev t => Sys2Proof.Machine.execSev t s
  | .wfe => Sys2Proof.Machine.execWfe s
  | .bar n => Sys2Proof.Machine.execBar n s
  | .svreg d a release => Sys2Proof.Machine.execSvreg d a release s
  | .smst g sx len log c => Sys2Proof.Machine.execSmst g sx len log c s
  | .smred g sx len op t c => Sys2Proof.Machine.execSmred g sx len op t c s
  | .smjoin d g w => Sys2Proof.Machine.execSmjoin d g w s
  | .ckpt => Sys2Proof.Machine.execCkpt s
  | .trig n => Sys2Proof.Machine.execTrig n s
  | .resultLands => Sys2Proof.Machine.execResultLands s
  | .contextSwitch => Sys2Proof.Machine.execContextSwitch s
  | .instructionFetch => Sys2Proof.Machine.execInstructionFetch s
  | .tlbMissWalk => Sys2Proof.Machine.execTlbMissWalk s
  | .pageInvalidationComplete => Sys2Proof.Machine.execPageInvalidationComplete s
  | .mminvcPage => Sys2Proof.Machine.execMminvcPage s
  | .mminvcAll => Sys2Proof.Machine.execMminvcAll s
  | .accessBitSweep => Sys2Proof.Machine.execAccessBitSweep s
  | .migrationShootDownDone => Sys2Proof.Machine.execMigrationShootDownDone s
  | .migrationDrainDone => Sys2Proof.Machine.execMigrationDrainDone s
  | .migrationCopyDone => Sys2Proof.Machine.execMigrationCopyDone s
  | .migrationAbandon => Sys2Proof.Machine.execMigrationAbandon s
  | .fillAllocationResume => Sys2Proof.Machine.execFillAllocationResume s
  | .fillDataArrives => Sys2Proof.Machine.execFillDataArrives s
  | .fillDataProvisional => Sys2Proof.Machine.execFillDataProvisional s
  | .ownershipGrant => Sys2Proof.Machine.execOwnershipGrant s
  | .oasisReadRequest => Sys2Proof.Machine.execOasisReadRequest s
  | .fillResend => Sys2Proof.Machine.execFillResend s
  | .oasisOpenRequest => Sys2Proof.Machine.execOasisOpenRequest s
  | .oasisPost => Sys2Proof.Machine.execOasisPost s
  | .oasisDiscard => Sys2Proof.Machine.execOasisDiscard s
  | .oasisHbmReadDone => Sys2Proof.Machine.execOasisHbmReadDone s
  | .oasisWriteback => Sys2Proof.Machine.execOasisWriteback s
  | .victimBufferAck => Sys2Proof.Machine.execVictimBufferAck s
  | .forwardArrives => Sys2Proof.Machine.execForwardArrives s
  | .itineraryPrefetch => Sys2Proof.Machine.execItineraryPrefetch s
  | .opurge => Sys2Proof.Machine.execOpurge s
  | .opurgeComplete => Sys2Proof.Machine.execOpurgeComplete s
  | .hbmReadPacket => Sys2Proof.Machine.execHbmReadPacket s
  | .hbmWritePacket => Sys2Proof.Machine.execHbmWritePacket s
  | .hbmControlPacket => Sys2Proof.Machine.execHbmControlPacket s
  | .hbmReply => Sys2Proof.Machine.execHbmReply s
  | .refreshSlot => Sys2Proof.Machine.execRefreshSlot s
  | .patrolScrub => Sys2Proof.Machine.execPatrolScrub s
  | .hdeadcmdKill => Sys2Proof.Machine.execHdeadcmdKill s
  | .hdeadcmdRevive => Sys2Proof.Machine.execHdeadcmdRevive s
  | .hdeadcmdDone => Sys2Proof.Machine.execHdeadcmdDone s
  | .interfaceCrcFail => Sys2Proof.Machine.execInterfaceCrcFail s
  | .interfaceRetrainEnd => Sys2Proof.Machine.execInterfaceRetrainEnd s
  | .rouSingleWordOp => Sys2Proof.Machine.execRouSingleWordOp s
  | .rouAmocas => Sys2Proof.Machine.execRouAmocas s
  | .rouLr => Sys2Proof.Machine.execRouLr s
  | .rouSc => Sys2Proof.Machine.execRouSc s
  | .rouRcas4 => Sys2Proof.Machine.execRouRcas4 s
  | .rouRenq => Sys2Proof.Machine.execRouRenq s
  | .rouRdeq => Sys2Proof.Machine.execRouRdeq s
  | .rchaseHop => Sys2Proof.Machine.execRchaseHop s
  | .reservationExpiry => Sys2Proof.Machine.execReservationExpiry s
  | .bsuRefill => Sys2Proof.Machine.execBsuRefill s
  | .bsuctlEnable => Sys2Proof.Machine.execBsuctlEnable s
  | .bsuctlDisable => Sys2Proof.Machine.execBsuctlDisable s
  | .portUnitSend => Sys2Proof.Machine.execPortUnitSend s
  | .svtWidenAcked => Sys2Proof.Machine.execSvtWidenAcked s
  | .mbcastLand => Sys2Proof.Machine.execMbcastLand s
  | .mbstLand => Sys2Proof.Machine.execMbstLand s
  | .cxlHostReadShared => Sys2Proof.Machine.execCxlHostReadShared s
  | .cxlHostReadOwn => Sys2Proof.Machine.execCxlHostReadOwn s
  | .cxlHostEvict => Sys2Proof.Machine.execCxlHostEvict s
  | .cxlHostSnoop => Sys2Proof.Machine.execCxlHostSnoop s
  | .flitReceive => Sys2Proof.Machine.execFlitReceive s
  | .ackDeadline => Sys2Proof.Machine.execAckDeadline s
  | .laneFail => Sys2Proof.Machine.execLaneFail s
  | .retrainSuccess => Sys2Proof.Machine.execRetrainSuccess s
  | .retrainTimeout => Sys2Proof.Machine.execRetrainTimeout s
  | .flstatRq => Sys2Proof.Machine.execFlstatRq s
  | .flecenPacketAccept => Sys2Proof.Machine.execFlecenPacketAccept s
  | .heldWritePerform => Sys2Proof.Machine.execHeldWritePerform s
  | .e2eAckReceive => Sys2Proof.Machine.execE2eAckReceive s
  | .e2eRejectReceive => Sys2Proof.Machine.execE2eRejectReceive s
  | .e2eRetransmitTimeout => Sys2Proof.Machine.execE2eRetransmitTimeout s
  | .flushingReadAnswer => Sys2Proof.Machine.execFlushingReadAnswer s
  | .flushResponseReceive => Sys2Proof.Machine.execFlushResponseReceive s
  | .smgcmdCreate => Sys2Proof.Machine.execSmgcmdCreate s
  | .smgcmdClose => Sys2Proof.Machine.execSmgcmdClose s
  | .smgcmdDestroy => Sys2Proof.Machine.execSmgcmdDestroy s
  | .smgcmdAnswer => Sys2Proof.Machine.execSmgcmdAnswer s
  | .switchSequence => Sys2Proof.Machine.execSwitchSequence s
  | .smgEntryArrive => Sys2Proof.Machine.execSmgEntryArrive s
  | .smgMemberAck => Sys2Proof.Machine.execSmgMemberAck s
  | .sequencedCommandComplete => Sys2Proof.Machine.execSequencedCommandComplete s
  | .taskPlace => Sys2Proof.Machine.execTaskPlace s
  | .rangeChunkRequest => Sys2Proof.Machine.execRangeChunkRequest s
  | .reclamationStop => Sys2Proof.Machine.execReclamationStop s
  | .matrixKstep => Sys2Proof.Machine.execMatrixKstep s
  | .matrixRetire => Sys2Proof.Machine.execMatrixRetire s
  | .matrixSlotBoundary => Sys2Proof.Machine.execMatrixSlotBoundary s
  | .copyPacket => Sys2Proof.Machine.execCopyPacket s
  | .xremoteTaken => Sys2Proof.Machine.execXremoteTaken s
  | .xCommandComplete => Sys2Proof.Machine.execXCommandComplete s
  | .latchSet => Sys2Proof.Machine.execLatchSet s
  | .cbarWrite => Sys2Proof.Machine.execCbarWrite s
  | .qctlEnable => Sys2Proof.Machine.execQctlEnable s
  | .qctlDisable => Sys2Proof.Machine.execQctlDisable s
  | .doorbellProd => Sys2Proof.Machine.execDoorbellProd s
  | .doorbellFres => Sys2Proof.Machine.execDoorbellFres s
  | .rootTaskTake => Sys2Proof.Machine.execRootTaskTake s
  | .rollbackComplete => Sys2Proof.Machine.execRollbackComplete s
  | .preemption => Sys2Proof.Machine.execPreemption s
  | .contextSave => Sys2Proof.Machine.execContextSave s
  | .saveBoundExpiry => Sys2Proof.Machine.execSaveBoundExpiry s
  | .contextRestore => Sys2Proof.Machine.execContextRestore s
  | .watchdogExpire => Sys2Proof.Machine.execWatchdogExpire s
  | .checkpointIntervalEnd => Sys2Proof.Machine.execCheckpointIntervalEnd s
  | .dieFailed => Sys2Proof.Machine.execDieFailed s
  | .packageReset => Sys2Proof.Machine.execPackageReset s
  | .atctlGo => Sys2Proof.Machine.execAtctlGo s
  | .attestationReportDone => Sys2Proof.Machine.execAttestationReportDone s
  | .mrext => Sys2Proof.Machine.execMrext s
  | .fppush => Sys2Proof.Machine.execFppush s
  | .frpop => Sys2Proof.Machine.execFrpop s
  | .pwltrWrite => Sys2Proof.Machine.execPwltrWrite s
  | .powerDwellExpiry => Sys2Proof.Machine.execPowerDwellExpiry s
  | .powerWake => Sys2Proof.Machine.execPowerWake s
  | .wakeComplete => Sys2Proof.Machine.execWakeComplete s
  | .thermalThrottle => Sys2Proof.Machine.execThermalThrottle s
  | .thermalRecover => Sys2Proof.Machine.execThermalRecover s
  | .thermalTrip => Sys2Proof.Machine.execThermalTrip s
  | .registerWrite => Sys2Proof.Machine.execRegisterWrite s
  | .cxlCompletion => Sys2Proof.Machine.execCxlCompletion s

end Sys2Proof.Machine
end

