-- ==== Sys2Proof/Machine/Issue.lean ====
section
/-! DEFINITION. The issue of a bundle (R207, R213, R224, R233, R421): what a context attempts when its core turns to it. -/
namespace Sys2Proof.Machine

/-- An outcome's next state taken further. -/
def andThen (o : Host.Outcome State Fault Refusal) (f : State → Host.Outcome State Fault Refusal) : Host.Outcome State Fault Refusal :=
  match o with
  | .next t => f t
  | .fault x => .fault x
  | .refused x => .refused x
/-- The next state of an outcome; the state itself where there is none. -/
def nextOf (s : State) (o : Host.Outcome State Fault Refusal) : State :=
  match o with
  | .next t => t
  | _ => s

/-- The context's syllable has stopped: it blocks or has trapped. -/
def stopped (s : State) (c : Nat) : Bool := (ctxOf s c).block || (ctxOf s c).trap.isSome
/-- The subcode of the trap that a context has taken. -/
def trapCode (s : State) (c : Nat) : Option Nat := (ctxOf s c).trap.map TrapWait.code

/-- A syllable after which the context does not go on to the next bundle as usual: `trap`, `svc`, a taken `eret`. -/
def leavesBundle (x : Ctx) : Instr → Bool
  | .trap _ => true
  | .svc _ => true
  | .eret q => rdP x q
  | _ => false
/-- A syllable that waits for what the others of its bundle do. -/
def waitsForBundle : Instr → Bool
  | .bar _ => true
  | _ => false
/-- A syllable that accesses memory or issues a command to an engine: it waits while an acquire of its context is not yet performed
(R134). -/
def accesses (o : Slot × Instr) : Bool :=
  match o.1 with
  | .V0 | .V1 => false
  | .S => match o.2 with
    | .ld .. | .st .. | .lda .. | .stl .. | .amo .. | .amocas .. | .lr .. | .sc .. | .fence .. | .cwb .. | .pref .. => true
    | _ => false
  | .Y => match o.2 with
    | .spawn .. | .spawnr .. | .fget .. | .bar _ | .svreg .. | .smst .. | .smred .. | .smjoin .. => true
    | _ => false
  | _ => true

/-- A syllable that is an acquire (R134). -/
def acquires : Instr → Bool
  | .lda .. => true
  | .amo _ _ _ _ _ _ o _ => Ord.acqs o
  | .amocas _ _ _ _ _ _ o _ => Ord.acqs o
  | .lr _ _ _ _ o _ => Ord.acqs o
  | .sc _ _ _ _ _ o _ => Ord.acqs o
  | _ => false
/-- A syllable that waits for the acquire of its bundle: all that access anything do but the loads, whose pieces wait by
themselves (R129, R134, `turnOfPart`). -/
def awaitsAcquire (o : Slot × Instr) : Bool :=
  accesses o && match o.2 with
  | .ld .. | .st .. | .lda .. | .stl .. | .amo .. | .amocas .. | .lr .. | .sc .. | .fence .. | .cwb .. | .pref .. => false
  | .tldm .. | .mbld .. => false
  | _ => true

/-- A syllable that stopped after others of its bundle, which are not performed then (R421): its stop in the state before the
bundle. -/
def stopAt (s0 : State) (i : Instr) (t : State) : State :=
  let a := nextOf s0 (exec i s0)
  if stopped a s0.cur then a
  else
    let x := ctxOf t s0.cur
    match x.trap with
    | some w => takeTrap s0 s0.cur w.code x.tva (bitsAt x.tcause.toNat 36 4) (if x.tstat.getLsbD 3 then some (bitsAt x.tstat.toNat 0 3) else none)
    | none => upd s0 fun x => { x with block := true }

/-- Syllables performed in slot order. The first that stops decides, and nothing of the bundle is performed. -/
def runOps (s0 : State) : List (Slot × Instr) → State → Host.Outcome State Fault Refusal
  | [], s => .next s
  | (_, i) :: l, s => andThen (exec i s) fun t => if stopped t s0.cur then .next (stopAt s0 i t) else runOps s0 l t

/-- The first syllable, in slot order, that step 5 of R233 refuses: the state with its trap. -/
def limitTrap (s : State) (ops : List (Slot × Instr)) : Option State :=
  ops.findSome? fun o => let t := nextOf s (exec o.2 s); if trapCode t s.cur = some 51 then some t else none

/-- The bundle has issued: its metered requests are over, what follows its first position, and the trace's fetch compare (R444). -/
def finishBundle (s : State) (x0 : Ctx) (b : Bundle) : State :=
  upd (dropGrants (trCompare s s.cur 0 x0.pc.toNat) s.cur 0 (2 ^ 70)) fun x => { bundleDone x x0.dly b.words b.run.toNat with ahead := [] }

/-- The syllable that leaves the bundle, after every other one (R287, R288). -/
def leaveBundle (s : State) (x0 : Ctx) (i : Instr) : Host.Outcome State Fault Refusal :=
  let s := dropGrants (trCompare s s.cur 0 x0.pc.toNat) s.cur 0 (2 ^ 70)
  match i with
  | .eret _ =>
    let fl := (cc s).flights
    andThen (exec i (upd s fun x => { x with flights := [] })) fun t => .next (upd t fun x => { x with flights := fl })
  | _ => exec i (upd s fun x => { x with fetch := x0.fetch, ahead := x0.ahead })

/-- The context still holds the task that issues. -/
def sameTask (s : State) (c tid : Nat) : Bool := match (ctxOf s c).task with | some t => t.tid = tid | none => false

/-- A syllable whose trap follows the rest of its bundle (R287). -/
def trapsAfter : Instr → Bool
  | .trap _ => true
  | .svc _ => true
  | _ => false

/-- The syllables of a bundle that are still to be performed, in slot order. -/
def opsLeft (x : Ctx) (b : Bundle) : List (Slot × Instr) :=
  if x.half then b.ops.filter fun o => leavesBundle x o.2 || waitsForBundle o.2
  else if x.held then b.ops.filter fun o => leavesBundle x o.2 || waitsForBundle o.2 || awaitsAcquire o
  else b.ops

/-- The syllables of a bundle (R233 step 5, R421): those that others wait for last, then the one that leaves the bundle. Once the
acquire of the bundle is in flight, what follows it waits until it has been performed (R134). What has been performed of a bundle
that waits for its last syllables is not performed again. -/
def issueOps (s : State) (b : Bundle) : Host.Outcome State Fault Refusal :=
  let c := s.cur
  let x0 := cc s
  let ops := opsLeft x0 b
  let leave := ops.filter fun o => leavesBundle x0 o.2
  let late := ops.filter fun o => waitsForBundle o.2
  let rest := ops.filter fun o => !leavesBundle x0 o.2 && !waitsForBundle o.2
  match limitTrap s ops with
  | some t => .next t
  | none =>
    match leave.find? fun o => !x0.half && !x0.held && (match o.2 with | .eret _ => stopped (nextOf s (exec o.2 s)) c | _ => false) with
    | some o => exec o.2 s
    | none =>
      andThen (runOps s rest s) fun t =>
      if stopped t c then .next t
      else if (rest.any fun o => acquires o.2) && acquiring (cc t) && (!late.isEmpty || rest.any awaitsAcquire) then
        andThen (runOps s (rest.filter fun o => !awaitsAcquire o) s) fun t =>
          .next (if stopped t c then t else upd t fun x => { x with held := true, block := true })
      else
        let t := if x0.held then upd t fun x => { x with held := false } else t
        let t := if late.isEmpty && leave.isEmpty then t else upd t fun x => { x with half := true }
        if (leave.any fun o => trapsAfter o.2) && !allHere (cc t) then .next (upd (sampleAll t c) fun x => { x with block := true })
        else andThen (runOps t late t) fun t =>
        if stopped t c then .next t
        else match leave with
        | (_, i) :: _ => leaveBundle t x0 i
        | [] => .next (finishBundle t x0 b)

/-- A decode error as its trap (R233). -/
def decodeTrap (s : State) (e : DecErr) : State :=
  match e with
  | .bundle => whenHere s s.cur fun s => takeTrap s s.cur 48 0 0 none
  | .opcode sl => whenHere s s.cur fun s => takeTrap s s.cur 49 0 0 (some sl.num)
  | .ports sl => whenHere s s.cur fun s => takeTrap s s.cur 50 0 0 (some sl.num)

/-- A bundle whose issue needs every result to have landed: it drains, or leaves a handler. -/
def needsLanded (x : Ctx) (b : Bundle) : Bool :=
  b.drain || b.ops.any fun o => match o.2 with | .eret q => rdP x q | _ => false

/-- A bundle that cannot issue yet: its drain bit waits for results (R225), or an acquire of the context is not performed (R134). -/
def bundleWaits (x : Ctx) (b : Bundle) : Bool :=
  if x.held then acquiring x else !x.half && ((b.drain && !x.flights.isEmpty) || (acquiring x && b.ops.any accesses))
/-- The bundle at pc (R207, R233). -/
def issueBundle (s : State) (ws : List (BitVec 32)) : Host.Outcome State Fault Refusal :=
  match decodeBundle ws with
  | .error e => .next (decodeTrap s e)
  | .ok b => if bundleWaits (cc s) b then .next (upd s fun x => { x with block := true })
             else issueOps (if (cc s).half || (cc s).held then s else upd s fun x => { x with yielded := false }) b

/-- The load whose poison is taken before the next position, as the bounds force it or as a free value has it (R108). -/
def poisonNow (s : State) : Option (Flight × Word) × State :=
  let x := cc s
  match x.flights.findSome? fun f => f.poison.map fun va => (f, va) with
  | none => (none, s)
  | some (f, va) =>
    let force := expired x f || x.ending.isSome || (x.fold = 0 && (match fetchNeed x with
      | .go ws => (match decodeBundle ws with | .ok b => needsLanded x b | .error _ => true)
      | .fetch _ _ => false))
    let (n, s) := draw s
    (if force || Config.choose n % 2 = 0 then some (f, va) else none, s)

/-- A load or an atomic in flight that was refused is asked again; one that has arrived stays (R33). -/
def askAgain (f : Flight) : Flight :=
  if f.poison.isNone then f
  else { f with poison := none, sub := 24, parts := f.parts.map fun p => if p.ask.isSome then { p with got := none, eseq := none } else p }
/-- A reply that delivered a value. -/
def goodReply (r : Remote) : Bool := match r.reply with | some (_, psn, refused) => !psn && !refused | none => true
/-- A context whose handler has answered 0 goes on at its resume point (R33, R421, R424, R434): what was refused is asked again. -/
def resume (s : State) (code : Nat) : State :=
  let q := (taskOf s s.cur).queue
  let w := qWdog s q
  upd s fun x => { x with trap := none, fetch := [], ahead := [], wdog := if code = 72 then w else x.wdog
                          flights := x.flights.map askAgain, remote := x.remote.filter goodReply }

/-- A context that cannot go on now. -/
def blocked (s : State) : Host.Outcome State Fault Refusal := .next (upd s fun x => { x with block := true })
/-- The next position of a context: its task's end, a folded position, or its next bundle. A bound that has expired without its result
blocks it (R207, R213). -/
def position (s : State) : Host.Outcome State Fault Refusal :=
  let x := cc s
  if overdue x then blocked s
  else match x.ending with
  | some v => run slotY (endM v) s
  | none =>
    if x.fold > 0 then .next (upd s foldDone)
    else if badPc x then .next (decodeTrap s .bundle)
    else match fetchNeed x with
    | .fetch _ _ => blocked s
    | .go ws => issueBundle s ws

/-- What a context does when its core turns to it: the return from a trap, the trap of a load, or its next position. -/
def attempt (s : State) (c : Nat) : Host.Outcome State Fault Refusal :=
  let s := updCtx { s with cur := c } c fun x => { landExpired x with block := false }
  let s := if overdue (cc s) then updCtx (sampleAll s c) c landExpired else s
  match (cc s).trap with
  | some w => .next (resume s w.code)
  | none => match poisonNow s with
    | (some (f, va), s) => .next (whenHere s c fun s => takeLoad s c f va)
    | (none, s) => position s

/-- The context whose bundle issued is the running one (R208); results of the one that it follows land (R294). -/
def issued (t : State) (c tid : Nat) : State :=
  if sameTask t c tid && !stopped t c then updCtx (switchTo t c) c fun x => { x with lastIssue := some t.clk } else t
/-- One turn of a context. -/
def turn (s : State) (c : Nat) : Host.Outcome State Fault Refusal :=
  andThen (attempt s c) fun t => .next (issued t c (taskOf s c).tid)

/-! ## The choice among a core's contexts (R207, R208, R413) -/

/-- Contexts of a queue wait for its checkpoint (R439). -/
def ckptHold (s : State) (q : Nat) : Bool := intervalDue s q
/-- A context that may do something: its task is placed, runs, and awaits no handler. -/
def mayTurn (s : State) (c : Nat) : Bool :=
  let x := ctxOf s c
  match x.task with
  | none => false
  | some t =>
    qRuns s t.queue && !ckptHold s t.queue && !(s.car.saving.any fun v => v.ctx = c) && !(s.car.restoring.any fun v => v.1 = c)
      && !(x.trap.isSome && faulted s (.task t.tid))
/-- A context whose next bundle has words to be read first (R272). -/
def wantsFetch (x : Ctx) : Bool :=
  x.trap.isNone && x.ending.isNone && x.fold = 0 && !badPc x && (match fetchNeed x with | .fetch _ _ => true | .go _ => false)

/-- A context is ready when its next bundle can issue (R207). -/
def isReady (s : State) (c : Nat) : Bool :=
  match attempt s c with
  | .next t => !(ctxOf t c).block
  | _ => true

/-- The priority that key 1 of R208 compares (R413). -/
def turnPrio (s : State) (c : Nat) : Nat :=
  let x := ctxOf s c
  let since := match x.readyAt, x.lastIssue with
    | none, _ => s.clk
    | some t, none => t
    | some t, some u => max t u
  min 7 ((taskOf s c).prio + (s.clk - since) / 65536)
/-- The keys of R208; smaller is better. -/
def turnKey (s : State) (c : Nat) : List Nat :=
  let x := ctxOf s c
  [7 - turnPrio s c, x.readyAt.getD s.clk, (if x.lastIssue.any fun t => t + 1 ≥ s.clk then 1 else 0), c % 4]
/-- The best of some contexts. -/
def bestTurn (s : State) (l : List Nat) : Option Nat :=
  l.foldl (fun b c => match b with
    | none => some c
    | some x => if lexLt (turnKey s c) (turnKey s x) then some c else b) none
/-- The context that a core issues from (R208): the running one while it is ready and none ranks above it by key 1; after a `yield`
every other ready one of its priority comes first (R379). -/
def chosen (s : State) (core : Nat) (l : List Nat) : Option Nat :=
  match SMap.get? s.running core with
  | some r => if l.contains r && !(ctxOf s r).yielded && l.all (fun c => turnPrio s c ≤ turnPrio s r) then some r else bestTurn s l
  | none => bestTurn s l

end Sys2Proof.Machine
end

