-- ==== Sys2Proof/Machine/Agenda.lean ====
section
/-! DEFINITION. The steps that may come next: those caused or given from outside, those that units of the part have ready,
and the turns of contexts (log 5). One is taken; where there are several, a free value chooses. -/
namespace Sys2Proof.Machine

/-- A step that may come next: entry i of `pending`, a step that a unit has ready, a context's turn, a plain line that an L1D
or a CLC evicts (R76, R141, log 8), a piece of a context's load that is performed, an acquire that is, a piece of its stores (R131). -/
inductive Cand where
  | pend (i : Nat)
  | ev (e : Ev)
  | issue (c : Nat)
  | evictL1 (core ln : Nat)
  | evictClc (cl ln : Nat)
  | sample (c k i : Nat)
  | acquired (c k : Nat)
  | drain (c j : Nat)
  deriving DecidableEq, Repr

/-- The entries of `pending` that may be taken: those without a lane, and the first of each lane. -/
def pendCands (s : State) : List Cand :=
  ((List.range s.pending.length).filter fun i =>
    match (s.pending[i]?).bind Pend.lane with
    | none => true
    | some l => !((s.pending.take i).any fun p => p.lane = some l)).map Cand.pend

/-! ## Units -/

/-- Results that may land, page invalidations, migrations and the sweep (R22, R27, R35, R213). -/
def xlatReady (s : State) : List Ev :=
  (s.ctx.flatMap fun (c, x) => ((List.range x.flights.length).filter fun i =>
      match x.flights[i]? with | some f => mayLand f && f.pos < x.pos | none => false).map fun i => Ev.resultLands c i)
    ++ (List.range s.mmu.inval.length).map Ev.pageInvalidationComplete
    ++ s.mmu.migs.flatMap (fun m => match m.phase with
      | 1 => [Ev.migrationShootDownDone m.pte]
      | 2 => .migrationDrainDone m.pte :: (if m.since + 2 ^ 20 ≤ s.clk then [.migrationAbandon m.pte] else [])
      | _ => if m.starved && (poolAlloc s m.die).isNone then [] else [.migrationCopyDone m.pte])
    ++ (if s.sys.released && s.mmu.sweepAt ≤ s.clk then [.accessBitSweep] else [])

/-- A request to another package under an owner's number still waits for its reply. -/
def askWaits (s : State) (owner : Nat) : Bool := s.fab.asks.any fun a => a.1 = owner && a.2.reply.isNone

/-- The requests of one CTC for one tile reach its home in the order in which the CTC issued them (R99). -/
def firstRequest (s : State) (f : Fill) : Bool :=
  (s.tiles.fills.find? fun g => g.core = f.core && g.tile == f.tile && g.st == .request && !faulted s (.fill g.id)).any fun g => g.id = f.id

/-- What a fill does next (R75 to R80, R92, R95). -/
def fillReady (s : State) (f : Fill) : List Ev :=
  if faulted s (.fill f.id) then []
  else match f.st with
  | .alloc => if (allocLine s f).isSome then [.fillAllocationResume f.id] else []
  | .request => if !firstRequest s f then [] else if f.open_.isSome then [.oasisOpenRequest f.id none] else [.oasisReadRequest f.id none]
  | .refused t => if t + 1024 ≤ s.clk then [.fillResend f.id] else []
  | .hbm _ | .clc _ =>
    if askWaits s (ownerOf f.id) then [] else if f.open_.isSome then [.ownershipGrant f.id] else [.fillDataArrives f.id]
  | .data _ _ _ => if f.open_.isNone then [.fillDataArrives f.id] else if (openRoom s f).isSome then [.ownershipGrant f.id] else []
  | .fwd _ _ | .joined _ | .home | .remote | .prov _ _ _ => []
/-- A message of a home that arrives at a CLC now (R157, R159): an acknowledgement, or a forward where the cluster is on (R483). -/
def homeEv (s : State) (m : HomeMsg) : List Ev :=
  if m.ack then [.victimBufferAck m.cl m.fid] else if !clusterOn s m.cl then []
  else match m.pkt with | some k => [.forwardArrives 0 (some k)] | none => [.forwardArrives m.fid none]
/-- What a victim buffer does next (R94, R159, R161): a write-back waits while its home has granted reads of HBM, and for what another
package's home says. -/
def victimReady (s : State) (cl : Nat) (v : Victim) : List Ev :=
  if v.line.home = s.pkg then
    (if !v.acked && !faulted s (.wb cl v.line.id) && oReaders s v.line.tile = 0 then [.oasisWriteback cl v.id none] else [])
  else if v.acked then [.victimBufferAck cl v.id]
  else if faulted s (.wb cl v.line.id) then []
  else match v.sent with
  | some (1, _) | some (2, _) => []
  | _ => [.oasisWriteback cl v.id none]
/-- Posts, write-backs, itineraries and the purge (R83, R91, R98, R159). -/
def tilesReady (s : State) : List Ev :=
  s.tiles.fills.flatMap (fillReady s)
    ++ s.tiles.ctc.flatMap (fun (core, l) => (l.filter fun x => x.st == .posting && !x.sent && x.asked != 1 && !faulted s (.wb (core / 8) x.id)).map
        fun x => Ev.oasisPost core x.id none)
    ++ (homeReady s).flatMap (homeEv s)
    ++ s.tiles.victims.flatMap (fun (cl, l) => l.flatMap (victimReady s cl))
    ++ s.ctx.flatMap (fun (c, x) => if x.itin.isSome && !askWaits s (5000 + c) then [Ev.itineraryPrefetch c] else [])
    ++ (match s.tiles.purge with | some (a, t) => if purgeDone s a t then [.opurgeComplete] else [] | none => [])

/-- Refresh slots that fall due: no group of rows goes without one for longer than its window (R102). The temperature of a stack is
left open, so the shorter window may be the one that counts (log 98). -/
def refreshReady (s : State) : List Ev :=
  s.hbm.ch.flatMap fun (n, c) => c.rows.flatMap fun (g, r) =>
    [true, false].filterMap fun hot => if r.slot + refreshWindow hot ≤ s.clk then some (.refreshSlot n g hot) else none
/-- The port that sends next (R124): each clock serves the ports in ascending order. -/
def portReady (s : State) : List Ev :=
  let l := (s.bsu.queue.filter fun e => bsuOn s && (portNext s e.1).isSome).map Prod.fst
  match l.find? fun p => s.bsu.turn ≤ p with
  | some p => [.portUnitSend p]
  | none => (l.take 1).map .portUnitSend
/-- The memory side: replies, refresh, the patrol, `hdeadcmd`, reservations, the bandwidth share unit, mailboxes (R101, R102, R104,
R107, R121 to R124, R154). -/
def memReady (s : State) : List Ev :=
  (if s.hbm.replies.isEmpty then [] else [Ev.hbmReply 0])
    ++ refreshReady s
    ++ (if s.sys.released && s.mmu.scrubAt ≤ s.clk then [.patrolScrub s.mmu.scrubNext .good] else [])
    ++ (if s.hbm.dead.isSome then [.hdeadcmdDone] else [])
    ++ s.hbm.ch.flatMap (fun (n, c) => (c.resv.filter fun r => r.clk + 4096 ≤ s.clk).map fun r => Ev.reservationExpiry n r.ctx)
    ++ (match s.bsu.refillAt with | some t => if t ≤ s.clk then [.bsuRefill] else [] | none => [])
    ++ portReady s
    ++ (match s.mboxW with | w :: _ => if w.land ≤ s.clk then [if w.cast then .mbcastLand 0 else .mbstLand 0] else [] | [] => [])

/-- A held packet as the step that performs it. -/
def heldEv (die i : Nat) (k : Packet) : Ev :=
  if k.ty != 2 || 13 ≤ k.op then .heldWritePerform die i
  else if k.op = 10 then .rouAmocas (.pkt k) (pktWidth k) k.addr 0 0
  else if k.op = 11 then .rouLr (.pkt k) (pktWidth k) k.addr
  else if k.op = 12 then .rouSc (.pkt k) (pktWidth k) k.addr 0
  else .rouSingleWordOp (.pkt k) .add (pktWidth k) k.addr 0
/-- The fabric: held packets, flushing reads, retransmissions, acknowledgements, training (R173, R174, R179, R182, R183). -/
def fabricReady (s : State) : List Ev :=
  s.fab.gw.flatMap (fun (d, g) =>
      ((List.range g.held.length).flatMap fun i => match g.held[i]? with | some k => if mayPerform s k then [heldEv d i k] else [] | none => [])
      ++ ((List.range g.flushes.length).flatMap fun i =>
          match g.flushes[i]? with | some k => if writesDone s k then [Ev.flushingReadAnswer d i] else [] | none => [])
      ++ (g.buf.filter fun e => e.time + 2 ^ 22 ≤ s.clk).map fun e => Ev.e2eRetransmitTimeout d e.pkt.dst e.pkt.eseq)
    ++ s.fab.port.flatMap (fun (p, x) => (if ackIsDue s x then [Ev.ackDeadline p] else [])
      ++ (if (x.state = 1 || x.state = 3) && x.since + 3800 ≤ s.clk then [.retrainTimeout p] else []))
    ++ (if s.fab.cmd.isSome then [.smgcmdAnswer 0, .smgcmdAnswer 3] else [])

/-- A core's M commands (R340, R414). -/
def matrixReady (s : State) (core : Nat) (e : Engine) : List Ev :=
  if e.m.isEmpty then []
  else
    (if e.slot != curSlot s then [Ev.matrixSlotBoundary core]
     else if e.m.any fun m => !m.done && !faulted s (.mcmd core m.id) && !askWaits s (ownerOf m.id) then [.matrixKstep core] else [])
    ++ (e.m.filter MCmd.done).map fun m => Ev.matrixRetire core m.id
/-- What a command of the copy engine or the ROUs does next (R356 to R371). -/
def xReady (s : State) (core : Nat) (k : XCmd) : List Ev :=
  let stop := faulted s (.xcmd core k.id)
  let go := !stop && !k.cancel && !askWaits s (ownerOf k.id)
  (if k.kind < 4 then
      (if go && k.deps.isEmpty && !(k.blk.isSome && copied k) then [Ev.copyPacket core k.id] else [])
      ++ (if k.kind = 2 && copied k && k.sent.isNone then [.xremoteTaken core k.id] else [])
   else if go && k.deps.isEmpty && k.got.isNone then
    match k.kind with
    | 4 => [.rouSingleWordOp (.cmd core k.id) k.op k.w 0 0]
    | 5 => [.rouRcas4 core k.id]
    | 6 => [.rouRenq core k.id]
    | 7 => [.rouRdeq core k.id]
    | 8 => [.rchaseHop core k.id]
    | _ => []
   else [])
  ++ (if k.cancel || (xFinished k && !stop) then [.xCommandComplete core k.id] else [])
/-- The engines; a sequenced command whose handler has answered is sent again (R391). -/
def enginesReady (s : State) : List Ev :=
  s.eng.flatMap fun (core, e) => matrixReady s core e ++ e.x.flatMap (xReady s core)
    ++ (e.sq.filter fun k => k.fault.isSome && !faulted s (.scmd k.id)).map fun k => Ev.switchSequence k.msg

/-- The first core of each die on which a dispatcher places a task now (R410). -/
def placeReadyOn (s : State) : List Ev :=
  if s.car.ready.isEmpty then []
  else (List.range 4).flatMap fun d => match (coresOfDie d).find? fun c => (toPlace s c).isSome with | some c => [Ev.taskPlace c] | none => []
/-- The completion entry that a queue writes next can be written now (R401): none is held by a rollback, and no flush is awaited. -/
def entryReady (s : State) (q : Nat) (x : QState) : Bool :=
  match x.completions with
  | [] => false
  | c :: _ => c.phase != 3 && !(c.phase = 1 && askWaits s (complOwner q))
/-- Caravan (R400, R409, R411, R427, R431, R438). -/
def caravanReady (s : State) : List Ev :=
  s.car.q.flatMap (fun (q, x) =>
      (if !faulted s (.caravan q) && (entryReady s q x || (x.completions.isEmpty && mayTake s q)) then [Ev.rootTaskTake q] else [])
      ++ (if intervalDue s q && (queueCtxs s q).all (ctxQuiet s) then [.checkpointIntervalEnd q] else []))
    ++ (if s.car.range.isEmpty then [] else ((List.range 4).filter fun d => !(wantedRanges s d).isEmpty).map Ev.rangeChunkRequest)
    ++ placeReadyOn s
    ++ (s.car.ready.filter fun r => preemptor s r && (victimFor s r).isSome).map (fun r => Ev.preemption r.task.tid)
    ++ s.car.saving.flatMap (fun v => (if saveQuiet s v.ctx then [Ev.contextSave v.ctx] else [])
      ++ (if v.since + saveBound s ≤ s.clk then [.saveBoundExpiry v.ctx] else []))
    ++ s.car.restoring.map (fun r => Ev.contextRestore r.1)
/-- Attestation and power (R478, R481 to R483). -/
def sysReady (s : State) : List Ev :=
  (if s.sys.busy.isSome then [Ev.attestationReportDone] else [])
    ++ s.sys.unit_.flatMap (fun (u, x) =>
      (if (pwNext s u).isSome then [Ev.powerDwellExpiry u] else [])
      ++ (if wakeDue s u then [.powerWake u] else [])
      ++ (match x.waking with | some t => if t ≤ s.clk then [.wakeComplete u] else [] | none => []))

/-! ## Contexts -/

/-- The contexts of a core that may do something, from the lowest number up. -/
def coreTurns (s : State) (core : Nat) : List Nat := ((List.range 4).map fun i => 4 * core + i).filter (mayTurn s)
/-- A turn of a context: a switch to it where the core runs another (R208). -/
def turnOf (s : State) (core c : Nat) : Cand :=
  match SMap.get? s.running core with
  | some r => if r = c then .issue c else .ev (.contextSwitch c)
  | none => .issue c
/-- The turns of the contexts of a core whose words have been read: the one that R208 chooses among the ready, and those that
block, for what they request. -/
def turnsOf (s : State) (core : Nat) (l : List Nat) : List Cand :=
  match l with
  | [] => []
  | [c] => [turnOf s core c]
  | _ =>
    let ok := l.filter (isReady s)
    (match chosen s core ok with | some c => [turnOf s core c] | none => []) ++ (l.filter fun c => !ok.contains c).map Cand.issue
/-- What the contexts of a core may do: expiries, fetches and turns. -/
def coreReady (s : State) (core : Nat) : List Cand :=
  let l := coreTurns s core
  let late := l.filter (wdogDue s)
  let l := l.filter fun c => !wdogDue s c
  let fetch := l.filter fun c => wantsFetch (ctxOf s c)
  late.map (fun c => .ev (.watchdogExpire c)) ++ fetch.map (fun c => .ev (.instructionFetch c))
    ++ turnsOf s core (l.filter fun c => !wantsFetch (ctxOf s c))
/-- The cores with a context that holds a task. -/
def busyCores (s : State) : List Nat := ((s.ctx.filter fun e => e.2.task.isSome).map fun e => coreOf e.1).eraseDups

/-- The pieces of loads and stores that a context may perform now, and its acquires (R131, R134). -/
def accessReady (s : State) : List Cand :=
  s.ctx.flatMap fun (c, x) =>
    ((List.range x.flights.length).flatMap fun k => match x.flights[k]? with
      | none => []
      | some f =>
        ((List.range f.parts.length).filter fun i => match f.parts[i]? with
          | some p => LoadPart_idle p && turnOfPart s c k p && (p.ask.isSome || (f.acq.isNone && !(isMbox p.pa && s.clk < p.due)))
          | none => false).map (.sample c k ·)
        ++ (if f.acq.isSome then [.acquired c k] else []))
    ++ (List.range x.stq.length).map (.drain c ·)

/-- The plain lines that may be evicted: any of them, at any time (log 8). -/
def evictReady (s : State) : List Cand :=
  s.l1d.flatMap (fun (core, c) => c.lines.map fun l => .evictL1 core l.1)
    ++ s.clc.flatMap (fun (cl, c) => c.lines.map fun l => .evictClc cl l.1)

/-- The steps that may come next. -/
def agenda (s : State) : List Cand :=
  pendCands s ++ (xlatReady s ++ tilesReady s ++ memReady s ++ fabricReady s ++ enginesReady s ++ caravanReady s ++ sysReady s).map Cand.ev
    ++ (if s.sys.released && !s.sys.tripped then (busyCores s).flatMap (coreReady s) else [])
    ++ accessReady s ++ evictReady s

/-- The step that comes next: the only one, or the one that a free value chooses; none where the package is idle. -/
def pick (s : State) : Option Cand × State :=
  match agenda s with
  | [] => (none, s)
  | [c] => (some c, s)
  | l => let (n, s) := draw s; (l[Config.choose n % l.length]?, s)

/-- A step of the part taken: the meaning of its row, with what it acts on in `ev`. -/
def perform (s : State) (e : Ev) : Host.Outcome State Fault Refusal :=
  andThen (exec e.row { s with ev := some e }) fun t => .next { t with ev := none }
/-- A candidate taken. -/
def take (s : State) (c : Cand) : Host.Outcome State Fault Refusal :=
  match c with
  | .issue c => turn s c
  | .ev e => perform s e
  | .pend i => match s.pending[i]? with
    | some p => perform { s with pending := s.pending.eraseIdx i } p.ev
    | none => .next s
  | .evictL1 core ln => .next (setL1 (l1WriteBack s core ln) core ln none)
  | .evictClc cl ln => .next (setClc (clcWriteBack s cl ln) cl ln none)
  | .sample c k i => .next (samplePart s c k i)
  | .acquired c k => .next (sampleAcq s c k)
  | .drain c j => .next (drainPart s c j)

/-! ## The clock -/

/-- A context that is ready in the next clock (R207): its last attempt did not block, or what it waited for has come. -/
def readyNow (s : State) (c : Nat) (x : Ctx) : Bool := x.task.isSome && x.trap.isNone && (!x.block || (mayTurn s c && isReady s c))
/-- A context after `d` clocks (R208, R434). -/
def tickCtx (s : State) (d c : Nat) (x : Ctx) : Ctx :=
  let counts := x.task.isSome && x.trap.isNone && !(s.car.restoring.any fun v => v.1 = c)
  { x with
    wdog := if counts then (if x.wdog.toNat ≤ d then 0 else x.wdog - BitVec.ofNat 64 d) else x.wdog
    readyAt := if readyNow s c x then some (x.readyAt.getD s.clk) else none }
/-- An engine after `d` clocks (R415): what waits while it could run ages. -/
def tickEngine (s : State) (d core : Nat) (e : Engine) : Engine :=
  { e with m := e.m.map fun m => if mEligible s core m && e.run != some m.id then { m with w := m.w + d } else m }
/-- Faults that wait for an entry, and records that could not be delivered, are tried again. -/
def faultTick (s : State) : State :=
  if !s.car.pfWait.isEmpty || s.car.pf.any (fun e => e.2.handler.isNone && !e.2.sent) then pumpFaults s else s
/-- The clocks that a step takes pass: one, and as many more as a free value gives (log 6). -/
def tick (s : State) : State :=
  let (n, s) := draw s
  let d := 1 + Config.elapse n
  let ctx (e : Nat × Ctx) : Nat × Ctx := (e.1, tickCtx s d e.1 e.2)
  let eng (e : Nat × Engine) : Nat × Engine := (e.1, tickEngine s d e.1 e.2)
  let s := { s with clk := s.clk + d, ctx := s.ctx.map ctx, eng := s.eng.map eng }
  faultTick (idleTick s)

/-- Nothing can come next but a package reset from outside: the package has tripped, or boot has failed (R470, R485). -/
def deadEnd (s : State) : Option Fault :=
  if s.sys.tripped then some .packageTripped else if s.sys.fail then some .bootFailed else none

/-- One step of the machine. -/
def advanceStep (s : State) : Host.Outcome State Fault Refusal :=
  match pick s with
  | (none, s) => match deadEnd s with | some f => .fault f | none => .next (tick s)
  | (some c, s) => andThen (take s c) fun t => .next (tick t)

/-! ## A program placed from outside (log 10) -/

/-- The words of a word of the opcode table: the bundle whose only syllable it is, or itself where it is a header. -/
def fetchWords (w : Nat) : List (BitVec 32) :=
  let a := BitVec.ofNat 32 w
  let b := BitVec.ofNat 32 (w >>> 32)
  match decodeLone a b with
  | some (some sl, i) => loneWords sl (Syl.ofWords a b) i
  | some (none, _) => [a]
  | none => [Header.pack ⟨false, 0, 1, 0⟩, a, b]
/-- The task that runs a placed word: queue 0, ASID 0, every accumulator, every core. -/
def placedTask : Task := { demand := 8, mask := BitVec.allOnes 192, tid := 1 }
/-- Words placed at pc in the fetch buffer: four blocks, filled up with empty bundles. -/
def placeBlocks (pc : Nat) (ws : List (BitVec 32)) : List (Nat × List (BitVec 32)) :=
  let l := List.replicate (pc % 64 / 4) 0xA5000000#32 ++ ws ++ List.replicate 64 0xA5000000#32
  (List.range 4).map fun i => (pc / 64 + i, (l.drop (16 * i)).take 16)
/-- The context of a placed word. -/
def placeCtx (x : Ctx) (w : Nat) : Ctx :=
  { x with
    task := some placedTask, phys := List.range 8, fetch := placeBlocks x.pc.toNat (fetchWords w), ahead := []
    fold := 0, block := false, half := false, held := false, trap := none, loop := { x.loop with active := false }
    wdog := if x.wdog = 0 then 0x80000000 else x.wdog }

end Sys2Proof.Machine
end

