-- ==== Sys2Proof/Machine/Step.lean ====
section
/-! DEFINITION. The step of the machine, and how a word is placed where it fetches next. -/
namespace Sys2Proof.Machine

/-- One step (log 5): the step that comes next is taken, and its clocks pass. -/
def step (s : State) : Host.Outcome State Fault Refusal := advanceStep s

/-- The instruction with bits `w` where context 0 of core 0 fetches next (log 10): the dies are released, queue 0 runs, and the
context holds a task. -/
def State.withFetchWord (s : State) (_nbits w : Nat) : State :=
  setCtx (setQ { s with sys := { s.sys with released := true } } 0 fun x => { x with st := 1 }) 0 (placeCtx (ctxOf s 0) w)

end Sys2Proof.Machine
end

