-- ==== Sys2Proof/Safety.lean ====
section
/-! DEFINITION. What the claims call a well-formed state and a safe run: the canonical form of every memory, and a run that
neither faults nor is refused. -/
namespace Sys2Proof.Machine

/-- Every memory of the package, and every memory that lies beyond its CXL ports, is in the canonical form. -/
def memOk (s : State) : Bool :=
  Memory.wf s.hbm.mem && Memory.wf s.mbox && s.far.all fun e => Memory.wf e.2

/-- An outcome that is a next state. -/
def isNext (o : Host.Outcome State Fault Refusal) : Bool :=
  match o with
  | .next _ => true
  | _ => false

/-- The state that an outcome gives meets a condition; a stop does not. -/
def nextSat (o : Host.Outcome State Fault Refusal) (p : State → Bool) : Bool :=
  match o with
  | .next t => p t
  | _ => false

/-- `n` steps go by without a stop. -/
def safeRun : Nat → State → Bool
  | 0, _ => true
  | n + 1, s => match step s with
    | .next t => safeRun n t
    | _ => false

end Sys2Proof.Machine
end

