-- ==== Sys2Proof/Certificates/Slice0/Obligations.lean ====
section
/-! DEFINITION. The statements for the provers. A statement whose conclusion is `exec i s = .next t` says where an instruction
completes; hypotheses are on the state and the operands alone. Each docstring names the rules of spec/ it formalises, and says
where it rests on a choice of the model's (a log entry). -/
namespace Sys2Proof.Claims
open Sys2Proof.Machine

/-- The slot of an instruction that a syllable encodes (R249, R252 to R257); none for the empty bundle and for the steps that
no word encodes. -/
def slotOf : Instr → Option Slot
  | .add .. | .sub .. | .and .. | .or .. | .xor .. | .shl .. | .shr .. | .sar .. | .min .. | .max .. | .minn .. | .maxn ..
  | .mul .. | .mulh .. | .mulhn .. | .div .. | .divn .. | .rem .. | .remn .. | .clz .. | .popc .. | .bext .. | .bins ..
  | .sel .. | .cmp .. | .addi .. | .andi .. | .ori .. | .xori .. | .shli .. | .shri .. | .sari .. | .cmpi .. | .li .. | .lih ..
  | .br .. | .brc .. | .call .. | .callr .. | .ret .. | .jr .. | .loop .. | .ring .. | .mfsr .. | .mtsr .. | .ld .. | .st ..
  | .lda .. | .stl .. | .amo .. | .amocas .. | .lr .. | .sc .. | .fence .. | .cwb .. | .pref .. | .xget .. | .trap .. | .svc ..
  | .eret .. | .brk .. | .tlbinv .. | .wfi .. => some .S
  | .vadd u .. | .vsub u .. | .vadds u .. | .vsubs u .. | .vmul u .. | .vmulh u .. | .vmla u .. | .vmls u .. | .vaddw u ..
  | .vmlaw u .. | .vnarrow u .. | .vabs u .. | .vneg u .. | .vmin u .. | .vmax u .. | .vand u .. | .vor u .. | .vxor u ..
  | .vnot u .. | .vshl u .. | .vshr u .. | .vsar u .. | .vshli u .. | .vcmp u .. | .vsel u .. | .fadd u .. | .fsub u ..
  | .fmul u .. | .ffma u .. | .ffms u .. | .fdiv u .. | .fsqrt u .. | .frcpe u .. | .fmin u .. | .fmax u .. | .fabs u ..
  | .fneg u .. | .fcmp u .. | .fclass u .. | .fcvt u .. | .fcvti u .. | .icvtf u .. | .fround u .. | .vmov u .. | .vbcast u ..
  | .vslide u .. | .vperm u .. | .vlane u .. | .vredadd u .. | .vredmin u .. | .vredmax u .. | .fredadd u .. | .vscan u ..
  | .fscan u .. | .vdequant u .. | .vquant u .. | .vgen u .. | .vproj u .. | .vseedscan u .. | .kand u .. | .kor u ..
  | .knot u .. | .kmov u .. => some (match u with | .v0 => .V0 | .v1 => .V1)
  | .mzero .. | .mld .. | .mst .. | .mma .. | .mmaq .. | .mmag .. | .mman .. | .mscale .. | .maddt .. | .mcvt .. => some .M
  | .tld .. | .tldm .. | .mbld .. | .tacq .. | .tbind .. | .thint .. | .titin .. | .tcol .. => some .L
  | .tst .. | .tstm .. | .mbst .. | .mbcast .. | .twopen .. | .tpost .. | .tdrop .. => some .T
  | .xcopy .. | .xgather .. | .xremote .. | .xfill .. | .xflushrd .. | .xcancel .. | .rop .. | .rcas4 .. | .renq .. | .rdeq ..
  | .rchase .. => some .X
  | .spawn .. | .spawnr .. | .fget .. | .fdup .. | .fdrop .. | .fpin | .tend .. | .yield | .evwait .. | .evinc .. | .sev ..
  | .wfe | .bar .. | .svreg .. | .smst .. | .smred .. | .smjoin .. | .ckpt | .trig .. => some .Y
  | _ => none

/-- The state in which a step of the part that no word encodes is performed: what it acts on stands in `ev`. -/
def given (s : State) (e : Ev) : State := { s with ev := some e }

/-- A step of the part is performed on s and gives t. -/
def does (e : Ev) (s t : State) : Prop := exec e.row (given s e) = .next t

/-- The lane of a number at width w. -/
def laneOf (w i : Nat) (v : Vec) : Nat := v.toNat / 2 ^ (w * i) % 2 ^ w

/-- Bit i of a number as 0 or 1. -/
def bitOf (n i : Nat) : Nat := n / 2 ^ i % 2

/-- The value that a load of a width gives (R250, R279). -/
def extended (w : Width) (n : Nat) : Word :=
  match w with
  | .d64 => BitVec.ofNat 64 n
  | .n8 => BitVec.ofNat 64 (n % 2 ^ 8) | .n16 => BitVec.ofNat 64 (n % 2 ^ 16) | .n32 => BitVec.ofNat 64 (n % 2 ^ 32)
  | .i8 => BitVec.ofInt 64 (BitVec.ofNat 8 n).toInt | .i16 => BitVec.ofInt 64 (BitVec.ofNat 16 n).toInt
  | .i32 => BitVec.ofInt 64 (BitVec.ofNat 32 n).toInt

/-- The bytes of a width and their logarithm (R250). -/
def bytesOf : Width → Nat × Nat
  | .i8 | .n8 => (1, 0) | .i16 | .n16 => (2, 1) | .i32 | .n32 => (4, 2) | .d64 => (8, 3)

end Sys2Proof.Claims

open Sys2Proof Sys2Proof.Machine Sys2Proof.Claims

/-! ## Encoding (R222 to R236, R249 to R259) -/

/-- Every well-formed instruction of a slot class has a syllable, and the decoder of its slot reads it back from the
syllable's words with every operand (R227 to R232, R249 to R257). -/
def Obligations.SyllablesDecodeToWhatWasEncoded : Prop :=
  ∀ (i : Instr) (sl : Slot), i.wf = true → slotOf i = some sl →
    ∃ y, i.syl = some y ∧ decodeSyl sl (Syl.ofWords y.word y.ext) = some i

/-- The bundle that the encoder makes of a well-formed instruction decodes to one bundle of one syllable, and its length is
what R222 says, where the lowest sufficient template allots the ports (R236, R243). -/
def Obligations.BundlesDecodeToWhatWasEncoded : Prop :=
  ∀ (i : Instr) (sl : Slot) (y : Syl), i.wf = true → slotOf i = some sl → i.syl = some y → portsOk (loneTmpl sl i) sl i = true →
    decodeBundle (loneWords sl y i) =
      .ok { drain := false, run := 0, tmpl := loneTmpl sl i, words := if y.l then 3 else 2, ops := [(sl, i)] }

/-- Words written out from the encodings of spec/08: a header, and syllables of several slots, decode to what they stand
for (R223, R249, R252 to R257, R266, R276). -/
def Sys2Proof.Claims.WordsOfTheEncodingTables : Prop :=
  Header.of 0xA5013425#32 = ⟨true, 3, 0x42, 5⟩ ∧ Header.good 0xA5013425#32 = true ∧ Header.good 0xA5023425#32 = false
  ∧ decodeSyl .S (Syl.ofWords 0xA810DEF0#32 0xFFFFE6AF#32) = some (.li 4 (BitVec.ofInt 50 (-0x65432110)))
  ∧ decodeSyl .S (Syl.ofWords 0xA9105678#32 0x0000048D#32) = some (.lih 4 0x12345678)
  ∧ decodeSyl .S (Syl.ofWords 0x39A00003#32 0) = some (.ring .s 40 3)
  ∧ decodeSyl .S (Syl.ofWords 0xB8240000#32 0x00000700#32) = some (.loop 9 0 0 0 0 7)
  ∧ decodeSyl .V1 (Syl.ofWords 0x020C4151#32 0) = some (.vadds .v1 (.own 3) (.own 4) (.own 5) 2 .i16)
  ∧ decodeSyl .S (Syl.ofWords 0x30000000#32 0) = some (.br 0 false 0)

/-- What step 3 of R233 refuses: an opcode that no row of a slot class has (R249, R252 to R257), with any operand, in the short
form and in the long. -/
def Sys2Proof.Claims.ReservedOpcodesAreRefused : Prop :=
  ∀ (l : Bool) (op : BitVec 7) (o : BitVec 24) (x : BitVec 32),
    let n := op.toNat
    ((0x19 ≤ n ∧ n ≤ 0x1F) ∨ (0x2A ≤ n ∧ n ≤ 0x2F) ∨ n = 0x36 ∨ n = 0x37 ∨ (0x3C ≤ n ∧ n ≤ 0x3F) ∨ (0x4C ≤ n ∧ n ≤ 0x4F)
        ∨ 0x56 ≤ n → decodeSyl .S ⟨l, op, o, x⟩ = none)
    ∧ ((0x19 ≤ n ∧ n ≤ 0x1F) ∨ (0x32 ≤ n ∧ n ≤ 0x3F) ∨ (0x45 ≤ n ∧ n ≤ 0x4F) ∨ n = 0x56 ∨ n = 0x57 ∨ (0x5A ≤ n ∧ n ≤ 0x5F)
        ∨ (0x63 ≤ n ∧ n ≤ 0x67) ∨ 0x6C ≤ n → decodeSyl .V0 ⟨l, op, o, x⟩ = none ∧ decodeSyl .V1 ⟨l, op, o, x⟩ = none)
    ∧ (0x0A ≤ n → decodeSyl .M ⟨l, op, o, x⟩ = none)
    ∧ (0x08 ≤ n → decodeSyl .L ⟨l, op, o, x⟩ = none)
    ∧ (0x07 ≤ n → decodeSyl .T ⟨l, op, o, x⟩ = none)
    ∧ ((0x06 ≤ n ∧ n ≤ 0x0F) ∨ 0x15 ≤ n → decodeSyl .X ⟨l, op, o, x⟩ = none)
    ∧ ((0x08 ≤ n ∧ n ≤ 0x0F) ∨ (0x16 ≤ n ∧ n ≤ 0x1F) ∨ (0x23 ≤ n ∧ n ≤ 0x2F) ∨ 0x32 ≤ n → decodeSyl .Y ⟨l, op, o, x⟩ = none)

/-- The encoding tables word by word, and what they refuse: both of `WordsOfTheEncodingTables` and `ReservedOpcodesAreRefused`.
-/
def Obligations.TheEncodingTablesAndReservedOpcodes : Prop :=
  Claims.WordsOfTheEncodingTables ∧ Claims.ReservedOpcodesAreRefused

/-! ## The step -/

/-- The state in which the bundle of context c issues once its core has turned to it: what has expired has landed (R213). -/
def Sys2Proof.Claims.turned (s : State) (c : Nat) : State :=
  updCtx { s with cur := c } c fun x => { landExpired x with block := false }

/-- The context's turn reaches the bundle whose words are `ws`: it awaits no handler, its task goes on, no result is late, none
holds poison, no folded position is left, its address is aligned, and its words have been read. -/
def Sys2Proof.Claims.reaches (x : Ctx) (ws : List (BitVec 32)) : Prop :=
  x.trap = none ∧ x.ending = none ∧ overdue x = false ∧ (∀ f ∈ x.flights, f.poison = none) ∧ x.fold = 0 ∧ x.half = false ∧ x.held = false
    ∧ x.pc.toNat % 4 = 0 ∧ fetchNeed x = .go ws

/-- Nothing holds the bundle back: its drain bit finds every result landed (R225), and no acquire of the context is still to be
performed before its accesses (R134). -/
def Sys2Proof.Claims.unheld (x : Ctx) (b : Bundle) : Prop :=
  (b.drain = true → x.flights = []) ∧ ((∀ f ∈ x.flights, f.acq = none) ∨ ∀ o ∈ b.ops, accesses o = false)

/-- The bundle of context c begins: a `yield` before it counts no more (R379). -/
def Sys2Proof.Claims.begun (s : State) (c : Nat) : State := upd (turned s c) fun x => { x with yielded := false }

/-- A step runs the decoded instruction (R207, R222, R233). Where a context's turn reaches words that decode to a bundle of one
syllable, and nothing holds it back, the step is `exec` of it in the state in which the bundle begins; the bundle then has
issued, unless the syllable stopped (R421), and the step's clocks pass (log 5 and log 6 say how a step is chosen and what a
clock is). A bundle held back does nothing but block its context. -/
def Obligations.StepRunsTheDecodedInstruction : Prop :=
  ∀ (s s0 t : State) (c : Nat) (ws : List (BitVec 32)) (b : Bundle) (sl : Slot) (i : Instr),
    pick s = (some (.issue c), s0) → reaches (cc (turned s0 c)) ws → decodeBundle ws = .ok b → b.ops = [(sl, i)] →
    (unheld (cc (turned s0 c)) b → leavesBundle (cc (turned s0 c)) i = false → waitsForBundle i = false →
      exec i (begun s0 c) = .next t →
      step s = .next (tick (issued (if stopped t c then t else finishBundle t (cc (begun s0 c)) b) c (taskOf s0 c).tid)))
    ∧ (¬ unheld (cc (turned s0 c)) b →
      step s = .next (tick (issued (upd (turned s0 c) fun x => { x with block := true }) c (taskOf s0 c).tid)))

/-- The syllables that others of their bundle wait for, and those that leave it (R224, R287, R288, R384): an empty bundle issues
with no syllable performed; `bar` is performed after the rest, in a bundle half done; `trap` and `svc` are performed last, once
every result has arrived (R421), and so is a taken `eret`. -/
def Obligations.StepRunsTheOtherBundles : Prop :=
  ∀ (s s0 : State) (c : Nat) (ws : List (BitVec 32)) (b : Bundle),
    let s1 := begun s0 c
    let x := cc s1
    let left := dropGrants (trCompare (upd s1 fun x => { x with half := true }) c 0 x.pc.toNat) c 0 (2 ^ 70)
    let after (t : State) := tick (issued t c (taskOf s0 c).tid)
    pick s = (some (.issue c), s0) → reaches x ws → decodeBundle ws = .ok b → unheld x b →
    (b.ops = [] → step s = .next (after (finishBundle s1 x b)))
    ∧ (∀ sl i t, b.ops = [(sl, i)] → waitsForBundle i = true → limitTrap s1 [(sl, i)] = none →
        exec i (upd s1 fun x => { x with half := true }) = .next t →
        step s = .next (after (if stopped t c then t else finishBundle t x b)))
    ∧ (∀ sl i, b.ops = [(sl, i)] → ((∃ n, i = .trap n) ∨ ∃ n, i = .svc n) → limitTrap s1 [(sl, i)] = none →
        (allHere x = true → ∀ t, exec i (upd left fun y => { y with fetch := x.fetch, ahead := x.ahead }) = .next t →
          step s = .next (after t))
        ∧ (allHere x = false →
          step s = .next (after (upd (sampleAll (upd s1 fun x => { x with half := true }) c) fun x => { x with block := true }))))
    ∧ (∀ sl q t, b.ops = [(sl, .eret q)] → rdP x q = true → x.flights = [] → x.dly = 0 → x.loop.active = false →
        exec (.eret q) (upd left fun x => { x with flights := [] }) = .next t →
        step s = .next (after (upd t fun x => { x with flights := [] })))

/-- A step of the part that no word encodes (95) is the meaning of its row, with what it acts on in `ev`; a step caused
earlier, or given from outside, leaves the pending list as it is taken. Afterwards `ev` is empty, and its clocks pass (log 5,
log 6: which step comes next is the model's choice). The eviction of a plain line from an L1D or a CLC writes its dirty bytes
back and drops it (R76, R141; that it may come at any time is the model's choice, log 8). A piece of a load or of a store, and
an acquire, are performed one by one (R131, R134). -/
def Obligations.StepTakesAnEvent : Prop :=
  (∀ (s s0 t : State) (e : Ev), pick s = (some (.ev e), s0) → exec e.row (given s0 e) = .next t →
    step s = .next (tick { t with ev := none }))
  ∧ (∀ (s s0 t : State) (n : Nat) (p : Pend), pick s = (some (.pend n), s0) → s0.pending[n]? = some p →
    exec p.ev.row (given { s0 with pending := s0.pending.eraseIdx n } p.ev) = .next t →
    step s = .next (tick { t with ev := none }))
  ∧ (∀ (s s0 : State) (core ln : Nat), pick s = (some (.evictL1 core ln), s0) →
    step s = .next (tick (setL1 (l1WriteBack s0 core ln) core ln none)))
  ∧ (∀ (s s0 : State) (cl ln : Nat), pick s = (some (.evictClc cl ln), s0) →
    step s = .next (tick (setClc (clcWriteBack s0 cl ln) cl ln none)))
  ∧ (∀ (s s0 : State) (c k i : Nat),
    (pick s = (some (.sample c k i), s0) → step s = .next (tick (samplePart s0 c k i)))
    ∧ (pick s = (some (.acquired c k), s0) → step s = .next (tick (sampleAcq s0 c k)))
    ∧ (pick s = (some (.drain c i), s0) → step s = .next (tick (drainPart s0 c i))))

/-- A bundle that fails steps 2 to 4 of R233 is not performed: it traps with DECODE `bundle`, `opcode` or `ports`, the slot of
the first failing syllable in `tstat`, once every result in flight has arrived; what `takeTrap` writes,
`TakingATrapWritesItsRegisters` states. -/
def Sys2Proof.Claims.MalformedBundlesTrap : Prop :=
  ∀ (s s0 : State) (c : Nat) (ws : List (BitVec 32)) (e : DecErr), pick s = (some (.issue c), s0) →
    reaches (cc (turned s0 c)) ws → decodeBundle ws = .error e →
    step s = .next (tick (issued (
      if allHere (cc (turned s0 c)) then (match e with
        | .bundle => takeTrap (turned s0 c) c 48 0 0 none
        | .opcode sl => takeTrap (turned s0 c) c 49 0 0 (some sl.num)
        | .ports sl => takeTrap (turned s0 c) c 50 0 0 (some sl.num))
      else upd (sampleAll (turned s0 c) c) fun x => { x with block := true }) c (taskOf s0 c).tid))

/-- Taking a bundle trap (R416 to R418, R421, R425; that `dly` counts the position at `tpc` is log 30): every result in
flight lands, `tpc`, `tva`, `tcause`, `tstat` and `tcmd` are written, the fetch buffer is emptied, the context awaits its
handler, and nothing else of its registers changes; no other context changes but one that was free, where the handler may
start. -/
def Sys2Proof.Claims.TakingATrapWritesItsRegisters : Prop :=
  ∀ (s : State) (c sub ak : Nat) (va : Word) (slot : Option Nat) (tk : Task), (ctxOf s c).task = some tk →
    let x := landAll (ctxOf s c)
    let t := takeTrap s c sub va ak slot
    ctxOf t c = { x with
      tpc := x.pc, tva := va
      tcause := BitVec.ofNat 64 (sub + classOf sub * 2 ^ 16 + ak * 2 ^ 36)
      tstat := BitVec.ofNat 64 ((match slot with | some n => n + 8 | none => 0) + 2 ^ 8 * x.dly + (if x.ptaken then 2 ^ 10 else 0)
        + (if x.loop.active then 2 ^ 11 else 0))
      tcmd := if x.dly = 0 then 0 else x.pend
      fetch := [], ahead := [], block := false, trap := some ⟨sub⟩ }
    ∧ ((0 ≤ sub ∧ sub ≤ 5 → classOf sub = 1) ∧ (8 ≤ sub ∧ sub ≤ 12 → classOf sub = 2) ∧ (16 ≤ sub ∧ sub ≤ 23 ∨ sub = 25 → classOf sub = 3)
      ∧ (sub = 24 → classOf sub = 4) ∧ (32 ≤ sub ∧ sub ≤ 36 → classOf sub = 5) ∧ (40 ≤ sub ∧ sub ≤ 43 → classOf sub = 6)
      ∧ (48 ≤ sub ∧ sub ≤ 51 → classOf sub = 7) ∧ (56 ≤ sub ∧ sub ≤ 58 → classOf sub = 8)
      ∧ (64 ≤ sub ∧ sub ≤ 67 → classOf sub = 9) ∧ (sub = 72 → classOf sub = 10))
    ∧ (∀ c', (ctxOf s c').task.isSome = true → c' ≠ c → ctxOf t c' = ctxOf s c') ∧ t.clk = s.clk ∧ t.cur = s.cur

/-- What a malformed bundle does, and what taking a trap writes: both of `MalformedBundlesTrap` and
`TakingATrapWritesItsRegisters`. -/
def Obligations.MalformedBundlesAndTraps : Prop :=
  Claims.MalformedBundlesTrap ∧ Claims.TakingATrapWritesItsRegisters


/-! ## The whole machine -/

/-- Every step keeps every memory in the canonical form: addresses strictly rising, no listed byte equal to what an unlisted one
reads as (R6, R103; the form is the model's own, log 3). -/
def Obligations.EveryStepKeepsMemoryCanonical : Prop :=
  ∀ (s t : State), memOk s = true → step s = .next t → memOk t = true

/-- What package reset leaves, as far as the spec says: HBM dead and zero, no task, the dies held in reset, the registers and
counters whose reset values it gives, and every memory in the canonical form (R27, R53, R103, R107, R110, R175, R210, R364, R411,
R417, R418, R428, R469, R474, R480). -/
def Obligations.ResetLeavesWhatTheSpecGives : Prop :=
  let s := State.reset
  memOk s = true ∧ (∀ a, Memory.read s.hbm.mem a = 0) ∧ (∀ a, isLive s a = false ∧ isPoison s a = false)
  ∧ (∀ n, let k := chan s n
      k.herpl = 0 ∧ k.herex = 0 ∧ k.hecor = 0 ∧ k.heunc = 0 ∧ k.hedead = 0 ∧ k.hevovf = 0 ∧ k.poisonV = false
      ∧ k.failed = false ∧ k.evtab = 12 ∧ k.resv = [])
  ∧ (∀ c, let x := ctxOf s c
      x.task = none ∧ x.fctl = 0 ∧ x.fflags = 0 ∧ x.tcause = 0 ∧ x.tstat = 0 ∧ x.xstat = 0)
  ∧ (∀ p, (portOf s p).state = 0 ∧ (portOf s p).crc = 0 ∧ (portOf s p).rpl = 0 ∧ (portOf s p).retr = 0)
  ∧ s.clk = 0 ∧ s.sys.released = false ∧ s.sys.stage = 0 ∧ s.sys.mr = Vector.replicate 8 0
  ∧ devGet s 0xF00001520008 = 30 ∧ devGet s 0xF00001520010 = 40 ∧ devGet s 0xF00001340000 = 16 ∧ devGet s 0xF00001340048 = 1856
  ∧ devGet s 0xF00000C10000 = 0 ∧ devGet s 0xF00001500000 = 0 ∧ bootstat s = 0

/-- s0 reads 0, p0 reads true, k0 and j0 select every lane, in every state; a result for one of them lands nowhere (R209). -/
def Obligations.HardWiredRegistersHold : Prop :=
  ∀ (x : Ctx) (v : Vec) (u : VSlot),
    (x.loop.active = false ∨ (∀ r ∈ x.loop.rings, 1 ≤ r.base) → rdS x 0 = 0) ∧ rdP x 0 = true ∧ (∀ i, i < 256 → (rdK x u 0).getLsbD i = true)
    ∧ landVal x (.s 0) v = x ∧ landVal x (.p 0) v = x ∧ landVal x (.k u 0) v = x

/-- A result that lands writes its register and no other, and ORs its flags into `fflags`; one that carries poison writes none
(R52, R108, R209, R213). A load lands with the number that its pieces' bytes make, extended to its width (R279). -/
def Sys2Proof.Claims.AResultLandsInItsRegisterOnly : Prop :=
  ∀ (x : Ctx) (f : Flight),
    let y := landOne x f
    let v := Flight_val f
    (f.poison.isSome = true → y = x)
    ∧ (f.parts = [] → v = f.val)
    ∧ (∀ p b w, f.parts = [p] → p.got = some (b, false) → p.off = 0 → b.length = (bytesOf w).1 →
        (f.ext = some w → v = (extended w (ofLe b)).setWidth 2048) ∧ (f.ext = none → v = BitVec.ofNat 2048 (ofLe b)))
    ∧ (f.poison = none →
        y = { x with s := y.s, p := y.p, v := y.v, w := y.w, k := y.k, j := y.j, g := y.g, fflags := x.fflags ||| f.flags.setWidth 64 }
        ∧ (∀ i, i < 64 → y.s.toList.getD i 0 = if f.dst = .s (BitVec.ofNat 6 i) ∧ i ≠ 0 then v.setWidth 64 else x.s.toList.getD i 0)
        ∧ (∀ i, i < 8 → y.p.getLsbD i = if f.dst = .p (BitVec.ofNat 3 i) ∧ i ≠ 0 then v.getLsbD 0 else x.p.getLsbD i)
        ∧ (∀ i, i < 32 → y.v.toList.getD i 0 = if f.dst = .v .v0 (BitVec.ofNat 5 i) then v else x.v.toList.getD i 0)
        ∧ (∀ i, i < 32 → y.w.toList.getD i 0 = if f.dst = .v .v1 (BitVec.ofNat 5 i) then v else x.w.toList.getD i 0)
        ∧ (∀ i, i < 8 → y.k.toList.getD i 0 = if f.dst = .k .v0 (BitVec.ofNat 3 i) ∧ i ≠ 0 then v.setWidth 256 else x.k.toList.getD i 0)
        ∧ (∀ i, i < 8 → y.j.toList.getD i 0 = if f.dst = .k .v1 (BitVec.ofNat 3 i) ∧ i ≠ 0 then v.setWidth 256 else x.j.toList.getD i 0)
        ∧ (∀ i, i < 16 → y.g.toList.getD i 0 = if f.dst = .g (BitVec.ofNat 4 i) then v else x.g.toList.getD i 0))

/-- The frame of every instruction whose next state is `emit`: one result more in flight in the context that issues, at its
position, with its bound (R213: a g register adds 1); no register of any context changes until it lands, every byte of memory,
every other context and every unit stay as they are, but for the trace of a write before the bound of an earlier one to its
register has expired (R214, R443; `recent` keeps those bounds, and `free` counts the free values used). -/
def Sys2Proof.Claims.AResultInFlightChangesNothingElse : Prop :=
  ∀ (s : State) (d : Dst) (v : Vec) (fl : Fl) (bound : Nat),
    let t := emit s d v fl bound
    let x := cc s
    let f : Flight := { dst := d, val := v, flags := fl, pos := x.pos, bound := bound + (match d with | .g _ => 1 | _ => 0) }
    cc t = { x with flights := x.flights ++ [f]
                    recent := (x.recent.filter fun r => x.pos < r.2.2) ++ [(d, x.pos, x.pos + f.bound)] }
    ∧ (∀ c, c ≠ s.cur → ctxOf t c = ctxOf s c)
    ∧ t = { s with ctx := t.ctx, dev := t.dev, trace := t.trace, free := t.free }
    ∧ (∀ a, Memory.read t.hbm.mem a = Memory.read s.hbm.mem a ∧ Memory.read t.mbox a = Memory.read s.mbox a)
    ∧ ((∀ r ∈ x.recent, r.1 = d → x.pos ≤ r.2.1 ∨ r.2.2 ≤ x.pos) → t.dev = s.dev ∧ t.trace = s.trace ∧ t.free = s.free)

/-- What has expired lands before a bundle issues, and what has not stays in flight (R213): a context whose results have all
expired holds none of them in flight afterwards, and a bundle that issues reads them; a load whose pieces are not all performed
stays in flight, and blocks its context (R207). -/
def Sys2Proof.Claims.ExpiredResultsLandBeforeTheBundle : Prop :=
  ∀ (x : Ctx),
    (∀ f, f ∈ (landExpired x).flights ↔
      f ∈ x.flights ∧ ¬ (f.pos + f.bound ≤ x.pos ∧ f.poison = none ∧ f.acq = none ∧ ∀ p ∈ f.parts, p.got.isSome = true))
    ∧ ((landExpired x).pc = x.pc ∧ (landExpired x).pos = x.pos ∧ (landExpired x).loop = x.loop)
    ∧ (∀ f, x.flights = [f] → f.poison = none → f.parts = [] → f.acq = none → f.pos + f.bound ≤ x.pos → landExpired x = { landOne x f with flights := [] })
    ∧ (∀ f, x.flights = [f] → f.poison = none → x.pos < f.pos + f.bound → landExpired x = x)
    ∧ (overdue x = true ↔ ∃ f ∈ x.flights, f.pos + f.bound ≤ x.pos ∧ (f.acq ≠ none ∨ ∃ p ∈ f.parts, p.got = none))

/-- Results in flight and their landing, with the frame of every instruction that only leaves a result: all of
`AResultLandsInItsRegisterOnly`, `AResultInFlightChangesNothingElse` and `ExpiredResultsLandBeforeTheBundle`. -/
def Obligations.ResultsLandWhereAndWhenTheyShould : Prop :=
  Claims.AResultLandsInItsRegisterOnly ∧ Claims.AResultInFlightChangesNothingElse ∧ Claims.ExpiredResultsLandBeforeTheBundle


/-! ## The S slot (R260 to R290) -/

/-- The value of each integer operation on two registers, with its bound, in two's complement or unsigned (R213, R261, R262,
R264): no flag is raised, and nothing traps but a write to an index of the active loop (R216). -/
def Obligations.ScalarArithmeticComputes : Prop :=
  ∀ (s : State) (d a b : SReg) (q : BitVec 3), loopReg (cc s) d = false → rdP (cc s) q = true →
    let x := rdS (cc s) a
    let y := rdS (cc s) b
    let n := y.toNat % 64
    exec (.add d a b q) s = .next (emitS s d (BitVec.ofNat 64 (x.toNat + y.toNat)) 1)
    ∧ exec (.sub d a b q) s = .next (emitS s d (BitVec.ofInt 64 (x.toInt - y.toInt)) 1)
    ∧ exec (.and d a b q) s = .next (emitS s d (x &&& y) 1)
    ∧ exec (.or d a b q) s = .next (emitS s d (x ||| y) 1)
    ∧ exec (.xor d a b q) s = .next (emitS s d (x ^^^ y) 1)
    ∧ exec (.shl d a b q) s = .next (emitS s d (BitVec.ofNat 64 (x.toNat * 2 ^ n)) 1)
    ∧ exec (.shr d a b q) s = .next (emitS s d (BitVec.ofNat 64 (x.toNat / 2 ^ n)) 1)
    ∧ exec (.sar d a b q) s = .next (emitS s d (BitVec.ofInt 64 (x.toInt / 2 ^ n)) 1)
    ∧ exec (.min d a b q) s = .next (emitS s d (if x.toInt ≤ y.toInt then x else y) 1)
    ∧ exec (.max d a b q) s = .next (emitS s d (if y.toInt ≤ x.toInt then x else y) 1)
    ∧ exec (.minn d a b q) s = .next (emitS s d (if x.toNat ≤ y.toNat then x else y) 1)
    ∧ exec (.maxn d a b q) s = .next (emitS s d (if y.toNat ≤ x.toNat then x else y) 1)
    ∧ exec (.mul d a b q) s = .next (emitS s d (BitVec.ofNat 64 (x.toNat * y.toNat)) 3)
    ∧ exec (.mulh d a b q) s = .next (emitS s d (BitVec.ofInt 64 (x.toInt * y.toInt / 2 ^ 64)) 3)
    ∧ exec (.mulhn d a b q) s = .next (emitS s d (BitVec.ofNat 64 (x.toNat * y.toNat / 2 ^ 64)) 3)

/-- Division (R262): toward zero, the remainder with the sign of the dividend, with the fixed results for a zero divisor and for
the one quotient that does not fit. -/
def Sys2Proof.Claims.DivisionRoundsTowardZero : Prop :=
  ∀ (s : State) (d a b : SReg) (q : BitVec 3), loopReg (cc s) d = false → rdP (cc s) q = true →
    let x := rdS (cc s) a
    let y := rdS (cc s) b
    (y = 0 →
      exec (.div d a b q) s = .next (emitS s d 0xFFFFFFFFFFFFFFFF#64 20)
      ∧ exec (.divn d a b q) s = .next (emitS s d 0xFFFFFFFFFFFFFFFF#64 20)
      ∧ exec (.rem d a b q) s = .next (emitS s d x 20) ∧ exec (.remn d a b q) s = .next (emitS s d x 20))
    ∧ (y ≠ 0 →
      (∃ v w : Word, exec (.div d a b q) s = .next (emitS s d v 20) ∧ exec (.rem d a b q) s = .next (emitS s d w 20)
        ∧ ((x.toInt ≠ -2 ^ 63 ∨ y.toInt ≠ -1) → x.toInt = v.toInt * y.toInt + w.toInt ∧ w.toInt.natAbs < y.toInt.natAbs
            ∧ (w.toInt = 0 ∨ (w.toInt < 0 ↔ x.toInt < 0)))
        ∧ (x.toInt = -2 ^ 63 ∧ y.toInt = -1 → v = 0x8000000000000000#64 ∧ w = 0))
      ∧ (∃ v w : Word, exec (.divn d a b q) s = .next (emitS s d v 20) ∧ exec (.remn d a b q) s = .next (emitS s d w 20)
        ∧ x.toNat = v.toNat * y.toNat + w.toNat ∧ w.toNat < y.toNat))

/-- Bits counted and bit fields (R261, R263), bit by bit. -/
def Sys2Proof.Claims.BitFieldsAndCounts : Prop :=
  ∀ (s : State) (d a b : SReg) (q : BitVec 3) (pos : BitVec 6) (wm1 : BitVec 7), loopReg (cc s) d = false → rdP (cc s) q = true →
    let x := rdS (cc s) a
    let y := rdS (cc s) b
    let w := wm1.toNat + 1
    let p := pos.toNat + y.toNat % 64
    (∀ n, n ≤ 64 → x.toNat < 2 ^ (64 - n) → (n < 64 → 2 ^ (63 - n) ≤ x.toNat) →
        exec (.clz d a q) s = .next (emitS s d (BitVec.ofNat 64 n) 1))
    ∧ exec (.popc d a q) s = .next (emitS s d (BitVec.ofNat 64 ((List.range 64).filter fun i => x.getLsbD i).length) 1)
    ∧ (∃ v : Word, exec (.bext d a b q pos wm1) s = .next (emitS s d v 1)
        ∧ ∀ i, i < 64 → v.getLsbD i = (decide (i < w) && x.getLsbD (p + i)))
    ∧ (∃ v : Word, exec (.bins d a b q pos wm1) s = .next (emitS s d v 1)
        ∧ ∀ i, i < 64 → v.getLsbD i = if pos.toNat ≤ i ∧ i < pos.toNat + w then y.getLsbD (i - pos.toNat) else x.getLsbD i)

/-- The immediate forms (R229, R265, R266): the 44-bit immediate, or 50-bit constant, sign-extended. -/
def Sys2Proof.Claims.ImmediatesCompute : Prop :=
  ∀ (s : State) (d a : SReg) (i : BitVec 44) (n : BitVec 6) (k : BitVec 50), loopReg (cc s) d = false →
    let x := rdS (cc s) a
    exec (.addi d a i) s = .next (emitS s d (BitVec.ofInt 64 (x.toInt + i.toInt)) 1)
    ∧ exec (.andi d a i) s = .next (emitS s d (x &&& BitVec.ofInt 64 i.toInt) 1)
    ∧ exec (.ori d a i) s = .next (emitS s d (x ||| BitVec.ofInt 64 i.toInt) 1)
    ∧ exec (.xori d a i) s = .next (emitS s d (x ^^^ BitVec.ofInt 64 i.toInt) 1)
    ∧ exec (.shli d a n) s = .next (emitS s d (BitVec.ofNat 64 (x.toNat * 2 ^ n.toNat)) 1)
    ∧ exec (.shri d a n) s = .next (emitS s d (BitVec.ofNat 64 (x.toNat / 2 ^ n.toNat)) 1)
    ∧ exec (.sari d a n) s = .next (emitS s d (BitVec.ofInt 64 (x.toInt / 2 ^ n.toNat)) 1)
    ∧ exec (.li d k) s = .next (emitS s d (BitVec.ofInt 64 k.toInt) 1)
    ∧ exec (.lih d k) s = .next (emitS s d (BitVec.ofNat 64 ((rdS (cc s) d).toNat % 2 ^ 32 + k.toNat % 2 ^ 32 * 2 ^ 32)) 1)

/-- `sel` and `cmp` (R264): `sel` takes a where its predicate is 1; `cmp` writes whether its condition holds, and nothing lands
in p0; a condition code of 6 or 7, or a destination above 7, is no `cmp` but DECODE `opcode`. `cmpi` compares with its immediate (R265). -/
def Obligations.SelectAndCompare : Prop :=
  (∀ (s : State) (d a b : SReg) (q p : BitVec 3) (c : SCond) (i : BitVec 44),
    let x := rdS (cc s) a
    let y := rdS (cc s) b
    let holds (u v : Word) : Bool := match c with
      | .eq => u = v | .ne => u ≠ v | .lt => u.toInt < v.toInt | .ge => v.toInt ≤ u.toInt
      | .ltn => u.toNat < v.toNat | .gen => v.toNat ≤ u.toNat
    (loopReg (cc s) d = false → rdP (cc s) q = true →
      exec (.sel d a b q p) s = .next (emitS s d (if p = 0 ∨ (cc s).p.getLsbD p.toNat = true then x else y) 1))
    ∧ (rdP (cc s) q = true → exec (.cmp p a b q c) s = .next (emit s (.p p) (if holds x y then 1 else 0) 0 1))
    ∧ exec (.cmpi p a i c) s = .next (emit s (.p p) (if holds x (BitVec.ofInt 64 i.toInt) then 1 else 0) 0 1))
  ∧ (∀ (x : Ctx) (v : Vec), landVal x (.p 0) v = x)
  ∧ (∀ (y : Syl) (p : BitVec 3) (a b : SReg) (q : BitVec 3) (c : SCond), decodeSyl .S y = some (.cmp p a b q c) →
      y.opnd.toNat / 2 ^ 18 < 8 ∧ y.opnd.toNat % 8 < 6)
  ∧ (∀ (y : Syl), y.op = 0x18 → 8 ≤ y.opnd.toNat / 2 ^ 18 ∨ 6 ≤ y.opnd.toNat % 8 → decodeSyl .S y = none)
  ∧ (∀ (s s0 : State) (c : Nat) (ws : List (BitVec 32)), pick s = (some (.issue c), s0) → reaches (cc (turned s0 c)) ws →
      decodeBundle ws = .error (.opcode .S) → allHere (cc (turned s0 c)) = true →
      step s = .next (tick (issued (takeTrap (turned s0 c) c 49 0 0 (some 0)) c (taskOf s0 c).tid)))

/-- A false guard (R260): the operation writes no register and performs no access; the state is as it was. -/
def Sys2Proof.Claims.AFalseGuardDoesNothing : Prop :=
  ∀ (s : State) (d a b c : SReg) (q p : BitVec 3) (pos : BitVec 6) (wm1 : BitVec 7) (cd : SCond) (op : RouOp) (w : AWidth)
    (o : Sys2Proof.Ord) (sc : Scope) (all : Bool), rdP (cc s) q = false → loopReg (cc s) d = false →
    exec (.add d a b q) s = .next s ∧ exec (.sub d a b q) s = .next s ∧ exec (.and d a b q) s = .next s
    ∧ exec (.or d a b q) s = .next s ∧ exec (.xor d a b q) s = .next s ∧ exec (.shl d a b q) s = .next s
    ∧ exec (.shr d a b q) s = .next s ∧ exec (.sar d a b q) s = .next s ∧ exec (.min d a b q) s = .next s
    ∧ exec (.max d a b q) s = .next s ∧ exec (.minn d a b q) s = .next s ∧ exec (.maxn d a b q) s = .next s
    ∧ exec (.mul d a b q) s = .next s ∧ exec (.mulh d a b q) s = .next s ∧ exec (.mulhn d a b q) s = .next s
    ∧ exec (.div d a b q) s = .next s ∧ exec (.divn d a b q) s = .next s ∧ exec (.rem d a b q) s = .next s
    ∧ exec (.remn d a b q) s = .next s ∧ exec (.clz d a q) s = .next s ∧ exec (.popc d a q) s = .next s
    ∧ exec (.bext d a b q pos wm1) s = .next s ∧ exec (.bins d a b q pos wm1) s = .next s
    ∧ exec (.sel d a b q p) s = .next s ∧ exec (.cmp p a b q cd) s = .next s
    ∧ exec (.amo op d a b q w o sc) s = .next s ∧ exec (.amocas d a b c q w o sc) s = .next s
    ∧ exec (.lr d a q w o sc) s = .next s ∧ exec (.sc d a b q w o sc) s = .next s
    ∧ exec (.fence o sc q) s = .next s ∧ exec (.cwb a b q sc) s = .next s
    ∧ exec (.tlbinv a b q all) s = .next s ∧ exec (.wfi q) s = .next s

/-- A write to s56 to s59 while a loop is active is illegal (R216): every operation with an s destination takes DECODE
`operation` at its bundle, whatever its guard (log 29: the checks of R233 do not look at guards), once the results in flight
have arrived. -/
def Sys2Proof.Claims.AWriteToALoopIndexTraps : Prop :=
  ∀ (s : State) (d a b c : SReg) (q p : BitVec 3) (pos : BitVec 6) (wm1 : BitVec 7) (i : BitVec 44) (n : BitVec 6) (k : BitVec 50)
    (m : MemOp) (wd : Width) (op : RouOp) (w : AWidth) (o : Sys2Proof.Ord) (sc : Scope) (r : SpecReg) (g : GReg) (ln : BitVec 5),
    (cc s).loop.active = true → 56 ≤ d.toNat → d.toNat ≤ 59 → allHere (cc s) = true →
    let t := takeTrap s s.cur 51 0 0 (some 0)
    exec (.add d a b q) s = .next t ∧ exec (.sub d a b q) s = .next t ∧ exec (.and d a b q) s = .next t
    ∧ exec (.or d a b q) s = .next t ∧ exec (.xor d a b q) s = .next t ∧ exec (.shl d a b q) s = .next t
    ∧ exec (.shr d a b q) s = .next t ∧ exec (.sar d a b q) s = .next t ∧ exec (.min d a b q) s = .next t
    ∧ exec (.max d a b q) s = .next t ∧ exec (.minn d a b q) s = .next t ∧ exec (.maxn d a b q) s = .next t
    ∧ exec (.mul d a b q) s = .next t ∧ exec (.mulh d a b q) s = .next t ∧ exec (.mulhn d a b q) s = .next t
    ∧ exec (.div d a b q) s = .next t ∧ exec (.divn d a b q) s = .next t ∧ exec (.rem d a b q) s = .next t
    ∧ exec (.remn d a b q) s = .next t ∧ exec (.clz d a q) s = .next t ∧ exec (.popc d a q) s = .next t
    ∧ exec (.bext d a b q pos wm1) s = .next t ∧ exec (.bins d a b q pos wm1) s = .next t ∧ exec (.sel d a b q p) s = .next t
    ∧ exec (.addi d a i) s = .next t ∧ exec (.andi d a i) s = .next t ∧ exec (.ori d a i) s = .next t
    ∧ exec (.xori d a i) s = .next t ∧ exec (.shli d a n) s = .next t ∧ exec (.shri d a n) s = .next t
    ∧ exec (.sari d a n) s = .next t ∧ exec (.li d k) s = .next t ∧ exec (.lih d k) s = .next t
    ∧ exec (.mfsr d r) s = .next t ∧ exec (.xget d g ln) s = .next t ∧ exec (.ld d m wd) s = .next t
    ∧ exec (.lda d m wd sc) s = .next t ∧ exec (.amo op d a b q w o sc) s = .next t
    ∧ exec (.amocas d a b c q w o sc) s = .next t ∧ exec (.lr d a q w o sc) s = .next t ∧ exec (.sc d a b q w o sc) s = .next t

/-- Special and exchange registers (R210, R277, R278, R286): `mfsr` takes the register as it stands at issue, `xget` a lane of a
g register; `mtsr` takes effect after its bundle. -/
def Sys2Proof.Claims.SpecialRegistersRead : Prop :=
  ∀ (s : State) (d a : SReg) (r : SpecReg) (g : GReg) (ln : BitVec 5), loopReg (cc s) d = false →
    let x := cc s
    exec (.mfsr d r) s = .next (emitS s d (match r with
      | .ctxid => BitVec.ofNat 64 (s.cur % 4) | .coreid => BitVec.ofNat 64 (s.cur / 4) | .clk => BitVec.ofNat 64 s.clk
      | .fctl => x.fctl | .fflags => x.fflags | .tpc => x.tpc | .tva => x.tva | .tcause => x.tcause | .tstat => x.tstat
      | .tcmd => x.tcmd | .wdog => x.wdog | .lb => x.loop.lb | .le => x.loop.le
      | .lc n => (x.loop.lc.toList.getD n.toNat 0).setWidth 64 | .lidx => BitVec.ofNat 64 x.loop.i
      | .ev n => (x.ev.toList.getD n.toNat 0).setWidth 64 | .xstat => x.xstat) 2)
    ∧ (x.loop.active = false → exec (.xget d g ln) s =
        .next (emitS s d (BitVec.ofNat 64 ((x.g.toList.getD g.toNat 0).toNat / 2 ^ (64 * ln.toNat))) 8))
    ∧ (x.loop.active = false ∨ (r ≠ .lb ∧ r ≠ .le) →
        exec (.mtsr r a) s = .next (upd s fun x => { x with late := x.late ++ [.spec r (rdS x a)] }))
    ∧ (x.loop.active = true → r = .lb ∨ r = .le → allHere x = true → exec (.mtsr r a) s = .next (takeTrap s s.cur 51 0 0 (some 0)))

/-- What a write of a special register stores once its bundle has issued (R53, R210, R278, R364, R417, R418): read-only ones
keep their value, fields keep their width, reserved bits stay 0, and nothing else changes. -/
def Sys2Proof.Claims.SpecialRegistersWrite : Prop :=
  ∀ (x : Ctx) (v : Word) (n : BitVec 2) (e : BitVec 3),
    let put (r : SpecReg) : Ctx := applyLate x (.spec r v)
    put .ctxid = x ∧ put .coreid = x ∧ put .clk = x ∧ put .lidx = x ∧ put (.ev e) = x
    ∧ put .fctl = { x with fctl := if v.toNat % 8 < 5 then BitVec.ofNat 64 (v.toNat % 8) else 0 }
    ∧ put .fflags = { x with fflags := BitVec.ofNat 64 (v.toNat % 128) }
    ∧ put .tpc = { x with tpc := v } ∧ put .tva = { x with tva := v } ∧ put .tcmd = { x with tcmd := v }
    ∧ put .wdog = { x with wdog := v }
    ∧ put .xstat = { x with xstat := BitVec.ofNat 64 (v.toNat % 2 ^ 35) }
    ∧ put .lb = { x with loop := { x.loop with lb := BitVec.ofNat 64 (v.toNat % 2 ^ 56) } }
    ∧ put .le = { x with loop := { x.loop with le := BitVec.ofNat 64 (v.toNat % 2 ^ 56) } }
    ∧ put (.lc n) = { x with loop := { x.loop with lc := x.loop.lc.set n.toNat (v.setWidth 32) n.isLt } }
    ∧ (∃ w, put .tcause = { x with tcause := w } ∧ ∀ i, i < 64 →
        w.getLsbD i = (v.getLsbD i && decide (i < 8 ∨ (16 ≤ i ∧ i < 24) ∨ (36 ≤ i ∧ i < 40) ∨ i = 63)))
    ∧ (∃ w, put .tstat = { x with tstat := w } ∧ ∀ i, i < 64 →
        w.getLsbD i = (v.getLsbD i && decide (i < 4 ∨ (8 ≤ i ∧ i < 12) ∨ (28 ≤ i ∧ i < 48))))

/-- Division, bit fields and the immediate forms: all of `DivisionRoundsTowardZero`, `BitFieldsAndCounts` and
`ImmediatesCompute`. -/
def Obligations.DivisionBitFieldsAndImmediates : Prop :=
  Claims.DivisionRoundsTowardZero ∧ Claims.BitFieldsAndCounts ∧ Claims.ImmediatesCompute

/-- Guards, and writes to a loop's indices: both of `AFalseGuardDoesNothing` and `AWriteToALoopIndexTraps`. -/
def Obligations.GuardsAndLoopIndices : Prop :=
  Claims.AFalseGuardDoesNothing ∧ Claims.AWriteToALoopIndexTraps

/-- Special registers: both of `SpecialRegistersRead` and `SpecialRegistersWrite`. -/
def Obligations.SpecialRegistersAreReadAndWritten : Prop :=
  Claims.SpecialRegistersRead ∧ Claims.SpecialRegistersWrite


/-! ## Control flow, loops, traps by instruction (R215, R224, R267 to R276, R287 to R290) -/

/-- The state after a control instruction has issued: its delay positions follow, then the address that it goes on at (R267,
R271), with the link in flight for s63 (R269) and the entry of the trace (R443). -/
def Sys2Proof.Claims.branched (s : State) (taken link : Bool) (tgt : Word) (ft info : Nat) : State :=
  let s := if taken && link then emitS s 63 (BitVec.ofNat 64 ft) 1 else s
  let s := upd s fun x => { x with dly := 3, ptaken := taken, pend := if taken then tgt else BitVec.ofNat 64 ft }
  if taken then trCtl s s.cur 1 tgt.toNat info else s

/-- Branches, calls, returns (R228, R267 to R270): outside delay positions and the last three positions of a body, with the
delay bundles read, each records whether it is taken and where execution goes on after three delay positions; a call that is
taken writes the fall-through address into s63. -/
def Sys2Proof.Claims.ControlInstructionsRecordTheirTarget : Prop :=
  ∀ (s : State) (p : BitVec 3) (neg : Bool) (off : BitVec 20) (c a : SReg) (t : BrTest) (q : BitVec 3) (ft : Nat),
    let x := cc s
    let tgt : Word := BitVec.ofInt 64 (x.pc.toNat + 4 * off.toInt)
    let on : Bool := rdP x p != neg
    let w := rdS x c
    let test : Bool := match t with | .z => w = 0 | .nz => w ≠ 0 | .neg => w.toInt < 0 | .nneg => 0 ≤ w.toInt
    x.dly = 0 → x.loop.active = false ∨ 3 ≤ positionsAfter x 33 x.pc.toNat → fallThrough x = .ok ft →
    exec (.br p neg off) s = .next (branched s on false tgt ft 0)
    ∧ exec (.brc p neg off c t) s = .next (branched s (on && test) false tgt ft 0)
    ∧ exec (.call p neg off) s = .next (branched s on true tgt ft 1)
    ∧ exec (.callr a q) s = .next (branched s (rdP x q) true (rdS x a) ft 2)
    ∧ exec (.ret a q) s = .next (branched s (rdP x q) false (rdS x a) ft 3)
    ∧ exec (.jr a q) s = .next (branched s (rdP x q) false (rdS x a) ft 4)

/-- A control instruction in a delay position, or at one of the last three positions of an active body, is illegal (R216,
R226). -/
def Sys2Proof.Claims.MisplacedControlTraps : Prop :=
  ∀ (s : State) (p : BitVec 3) (neg : Bool) (off : BitVec 20) (c a : SReg) (t : BrTest) (q : BitVec 3),
    (0 < (cc s).dly ∨ ((cc s).loop.active = true ∧ positionsAfter (cc s) 33 (cc s).pc.toNat < 3)) → allHere (cc s) = true →
    let u := takeTrap s s.cur 51 0 0 (some 0)
    exec (.br p neg off) s = .next u ∧ exec (.brc p neg off c t) s = .next u ∧ exec (.call p neg off) s = .next u
    ∧ exec (.callr a q) s = .next u ∧ exec (.ret a q) s = .next u ∧ exec (.jr a q) s = .next u

/-- Delay positions and the transfer (R215, R218, R267, R272): with d positions to issue, this one included, the count falls by
one; after the last one execution goes on at the address recorded, and a taken transfer ends the loop and empties the fetch
buffer. Outside them the position only advances. -/
def Sys2Proof.Claims.DelayPositionsThenTheTransfer : Prop :=
  ∀ (x : Ctx) (d : Nat), x.late = [] → x.loop.active = false ∨ x.hdr ≠ x.loop.le ∨ (x.fold ≠ 0 ∧ d ≠ 1) ∨ (0 < d ∧ x.ptaken = true) →
    let y := posDone x d
    y.pos = x.pos + 1
    ∧ (d = 0 → y = { x with pos := x.pos + 1 })
    ∧ (1 < d → y = { x with pos := x.pos + 1, dly := d - 1 })
    ∧ (d = 1 → y.pc = x.pend ∧ y.dly = 0 ∧ y.fold = 0
        ∧ (x.ptaken = true → y.loop.active = false ∧ y.loop.rings = [] ∧ y.fetch = [] ∧ y.ptaken = false))
    ∧ y.s = x.s ∧ y.flights = x.flights

/-- `loop` and `ring` (R213, R274 to R276): after the bundle of a `loop`, which reads the old values, the nest starts at the body
that has been walked, its indices are 0 and the declarations become its rings; a count of 0 runs no iteration. What R275 and
R276 refuse takes DECODE `operation`. -/
def Sys2Proof.Claims.LoopsAndRingsStart : Prop :=
  ∀ (s : State) (c0 c1 c2 c3 : SReg) (levels : BitVec 2) (off : BitVec 12) (f : RingFile) (base : BitVec 6) (len : BitVec 4),
    let x := cc s
    let trapped := takeTrap s s.cur 51 0 0 (some 0)
    let count (r : SReg) : BitVec 32 := (rdS x r).setWidth 32
    let lb := afterBundle x
    let le : Word := BitVec.ofNat 64 (x.pc.toNat + 4 * off.toNat)
    let body := walkBody (aheadAt x) le.toNat 33 lb.toNat 0
    let some0 : Bool := count c0 = 0 ∨ (1 ≤ levels.toNat ∧ count c1 = 0) ∨ (2 ≤ levels.toNat ∧ count c2 = 0) ∨ (levels = 3 ∧ count c3 = 0)
    (x.loop.active = true → allHere x = true → exec (.loop c0 c1 c2 c3 levels off) s = .next trapped)
    ∧ (x.loop.active = false → body = .bad → allHere x = true → exec (.loop c0 c1 c2 c3 levels off) s = .next trapped)
    ∧ (x.loop.active = false → body = .ok → ∃ l, exec (.loop c0 c1 c2 c3 levels off) s =
          .next (upd s fun x => { x with late := x.late ++ [.loop l] })
        ∧ l.lb = lb ∧ l.le = le ∧ l.i = 0 ∧ l.decl = [] ∧ l.levels = levels.toNat + 1
        ∧ l.lc = #v[count c0, if 1 ≤ levels.toNat then count c1 else 0, if 2 ≤ levels.toNat then count c2 else 0,
            if levels = 3 then count c3 else 0]
        ∧ (some0 = false → l.active = true ∧ l.rings = x.loop.decl ∧ l.skip = none)
        ∧ (some0 = true → l.active = false ∧ l.rings = [] ∧ l.skip.isSome = true)
        ∧ ∀ z : Ctx, let y := applyLate z (.loop l)
          y = { z with s := y.s, loop := l }
          ∧ ∀ n, n < 64 → y.s.toList.getD n 0 = if 56 ≤ n ∧ n ≤ 59 then 0 else z.s.toList.getD n 0)
    ∧ (let size := match f with | .s => 64 | .v | .w => 32 | .g => 16
       let n := len.toNat + 1
       let fits : Prop := x.loop.active = false ∧ x.loop.decl.length < 4 ∧ base.toNat + n ≤ size
         ∧ (f = .s → 1 ≤ base.toNat ∧ base.toNat + n ≤ 56)
         ∧ ∀ r ∈ x.loop.decl, r.file = f → base.toNat + n ≤ r.base ∨ r.base + r.len ≤ base.toNat
       (fits → exec (.ring f base len) s =
          .next (upd s fun x => { x with loop := { x.loop with decl := x.loop.decl ++ [⟨f, base.toNat, n⟩] } }))
       ∧ (¬ fits → allHere x = true → exec (.ring f base len) s = .next trapped))

/-- The end test of a loop (R215, R217): the index of a level advances; a level that is complete starts over and the next one
advances; the loop ends when its highest level is complete, and goes on at lb until then. `i` counts iterations. -/
def Sys2Proof.Claims.LoopEndTestCountsItsLevels : Prop :=
  ∀ (x : Ctx), x.loop.active = true →
    let y := loopEndTest x
    let ix (z : Ctx) (n : Nat) : Nat := (z.s.toList.getD (56 + n) 0).toNat
    let cnt (n : Nat) : Nat := (x.loop.lc.toList.getD n 0).toNat
    y.loop.i = x.loop.i + 1
    ∧ (x.loop.levels = 1 → ix x 0 + 1 < cnt 0 →
        ix y 0 = ix x 0 + 1 ∧ y.loop.active = true ∧ y.pc = x.loop.lb ∧ y.fold = 0)
    ∧ (x.loop.levels = 1 → cnt 0 ≤ ix x 0 + 1 → y.loop.active = false ∧ y.loop.rings = [] ∧ y.pc = x.pc)
    ∧ (x.loop.levels = 2 → ix x 0 + 1 < cnt 0 → ix y 0 = ix x 0 + 1 ∧ ix y 1 = ix x 1 ∧ y.loop.active = true ∧ y.pc = x.loop.lb)
    ∧ (x.loop.levels = 2 → cnt 0 ≤ ix x 0 + 1 → ix x 1 + 1 < cnt 1 →
        ix y 0 = 0 ∧ ix y 1 = ix x 1 + 1 ∧ y.loop.active = true ∧ y.pc = x.loop.lb)
    ∧ (x.loop.levels = 2 → cnt 0 ≤ ix x 0 + 1 → cnt 1 ≤ ix x 1 + 1 → ix y 0 = 0 ∧ y.loop.active = false ∧ y.pc = x.pc)

/-- Traps by instruction and the return (R287, R288, R290): `trap` and `svc` resume after their bundle, `brk` at it; `tva` holds
the code; `eret` goes on at `tpc`, outside any delay sequence; `wfi` completes when the latch is set or a counter has moved. The
empty bundle only issues (R224). -/
def Obligations.SystemInstructionsOfTheSSlot : Prop :=
  ∀ (s : State) (code : BitVec 8) (num tag : BitVec 18) (q : BitVec 3) (w r : Nat) (tk : Task) (drain : Bool) (run tmpl : BitVec 4),
    let x := cc s
    x.loop.active = false → x.dly = 0 → x.late = [] → x.loop.skip = none →
    (x.task = some tk → bundleShape x = (w, r) → r < 16 → allHere x = true →
      (∃ t, exec (.trap code) s = .next t ∧ let y := ctxOf t s.cur
        y.trap = some ⟨56⟩ ∧ y.tva.toNat = code.toNat ∧ y.tpc = x.pc + BitVec.ofNat 64 (4 * w) ∧ y.pos = x.pos + 1 + r ∧ y.fold = 0)
      ∧ (∃ t, exec (.svc num) s = .next t ∧ let y := ctxOf t s.cur
        y.trap = some ⟨57⟩ ∧ y.tva.toNat = num.toNat ∧ y.tpc = x.pc + BitVec.ofNat 64 (4 * w) ∧ y.pos = x.pos + 1 + r ∧ y.fold = 0)
      ∧ (∃ t, exec (.brk tag) s = .next t ∧ let y := ctxOf t s.cur
        y.trap = some ⟨58⟩ ∧ y.tva.toNat = tag.toNat ∧ y.tpc = x.pc ∧ y.pos = x.pos))
    ∧ (x.flights = [] → rdP x q = true → ∃ t, exec (.eret q) s = .next t ∧ let y := cc t
        y.pc = x.tpc ∧ y.pos = x.pos + 1 ∧ y.dly = 0 ∧ y.loop.active = false ∧ y.loop.decl = [] ∧ y.fetch = []
        ∧ y.s = x.s ∧ y.p = x.p ∧ y.v = x.v ∧ y.w = x.w ∧ y.g = x.g ∧ t.hbm = s.hbm ∧ t.far = s.far ∧ t.mbox = s.mbox)
    ∧ (rdP x q = false → exec (.eret q) s = .next s)
    ∧ (x.latch = true ∨ (∃ l, x.wfi = some l ∧ l ≠ x.ev.toList) → exec (.wfi q) s = .next s)
    ∧ (x.latch = false → x.wfi = none → rdP x q = true →
        exec (.wfi q) s = .next (upd s fun x => { x with wfi := some x.ev.toList, block := true }))
    ∧ (x.flights = [] ∨ drain = false → ∃ t, exec (.nop drain run tmpl) s = .next t ∧ let y := cc t
        y.pc = x.pc + 4 ∧ y.pos = x.pos + 1 ∧ y.fold = run.toNat ∧ y.s = x.s ∧ y.flights = x.flights
        ∧ t = { s with ctx := t.ctx } ∧ ∀ c, c ≠ s.cur → ctxOf t c = ctxOf s c)

/-- Control instructions where they may stand, and where they may not: both of `ControlInstructionsRecordTheirTarget` and
`MisplacedControlTraps`. -/
def Obligations.ControlInstructionsTransferOrTrap : Prop :=
  Claims.ControlInstructionsRecordTheirTarget ∧ Claims.MisplacedControlTraps

/-- Delay positions, loops and rings: all of `DelayPositionsThenTheTransfer`, `LoopsAndRingsStart` and
`LoopEndTestCountsItsLevels`. -/
def Obligations.DelayPositionsAndLoops : Prop :=
  Claims.DelayPositionsThenTheTransfer ∧ Claims.LoopsAndRingsStart ∧ Claims.LoopEndTestCountsItsLevels


/-! ## Memory from the S slot (R20, R108, R114, R115, R120, R121, R133 to R141, R279 to R289) -/

/-- The address of the issuing context translates, without a walk, to a local address of its package with a cache policy
(R16, R20). -/
def Sys2Proof.Claims.mapped (s : State) (va : Word) (acc : Acc4) (pa cp : Nat) : Prop :=
  translate s (.core (coreOf s.cur)) (asidOf s s.cur) va acc = (.ok s.pkg pa cp, s)

/-- HBM whose n bytes from `pa` are as plain as can be: live, not poisoned, in no failed channel, not held by the host. -/
def Sys2Proof.Claims.plainHbm (s : State) (pa n : Nat) : Prop :=
  pa + n ≤ 0x00C000000000 ∧ ∀ i, i < n → isLive s (pa + i) = true ∧ isPoison s ((pa + i) / 32) = false
    ∧ (chan s (chanOf (pa + i))).failed = false ∧ snoopOf s (pa + i) = none

/-- The issuing context has no access of its own on the way: every result has arrived and every store is performed. -/
def Sys2Proof.Claims.settled (x : Ctx) : Prop := allHere x = true ∧ x.stq = []

/-- A line is current in the L1D of the core that issues (R139). -/
def Sys2Proof.Claims.inL1 (s : State) (c pa : Nat) (l : Line) : Prop :=
  SMap.get? (l1Of s (coreOf c)).lines (pa / 128) = some l ∧ l.gens = gensL1 (l1Of s (coreOf c))

/-- The load that `ld` and `lda` leave in flight from bytes of one sector of HBM: one piece, not yet performed. -/
def Sys2Proof.Claims.loadOf (s : State) (d : SReg) (w : Width) (va : Word) (pa cp : Nat) (acq : Option Nat) : Flight :=
  { dst := dstS (cc s) d, pos := (cc s).pos, bound := 8, ext := some w, acq := acq
    parts := [{ off := 0, va := va, pkg := s.pkg, pa := pa, cp := cp, len := (bytesOf w).1 }] }

/-- Flight k of context c is a load of one piece that can be performed now: the context's earlier accesses to its bytes are. -/
def Sys2Proof.Claims.loadDue (u : State) (c k : Nat) (f : Flight) (p : LoadPart) : Prop :=
  (ctxOf u c).flights[k]? = some f ∧ f.parts = [p] ∧ f.poison = none ∧ p.ask = none ∧ p.got = none ∧ p.eseq = none ∧ p.off = 0
    ∧ p.pkg = u.pkg ∧ p.pa < 0x00C000000000 ∧ p.cp ≤ 1 ∧ p.pa % 128 + p.len ≤ 128 ∧ turnOfPart u c k p = true ∧ bsuOn u = false

/-- `ld` (R108, R131, R213, R279, R280): of bytes of one sector of HBM it leaves a load in flight with bound 8, whose piece is not
performed yet; a translation that faults traps once every result has arrived. Performed, of a current line of the core's L1D, the
load holds the line's bytes, which land extended; of a poisoned sector it holds poison. Besides the trace nothing else
changes. -/
def Obligations.LoadsTakeTheBytesOfTheirLine : Prop :=
  (∀ (s : State) (d : SReg) (m : MemOp) (w : Width) (pa cp : Nat),
    let x := cc s
    let va := rdS x m.a + BitVec.ofInt 64 (m.aux.toInt * 2 ^ 12 + m.imm.toInt)
    let n := (bytesOf w).1
    loopReg x d = false →
    (mapped s va .read pa cp → va.toNat % 65536 + n ≤ 65536 → pa < 0x00C000000000 → pa % 32 + n ≤ 32 →
      tagsUsed s (coreOf s.cur) (chanOf pa) < 64 →
      ∃ t, exec (.ld d m w) s = .next t ∧ (cc t).flights = x.flights ++ [loadOf s d w va pa cp none]
        ∧ (∀ c, c ≠ s.cur → ctxOf t c = ctxOf s c) ∧ t = { s with ctx := t.ctx, dev := t.dev, trace := t.trace, free := t.free })
    ∧ (∀ sub s2, translate s (.core (coreOf s.cur)) (asidOf s s.cur) va .read = (.fault sub, s2) → allHere (cc s2) = true →
        exec (.ld d m w) s = .next (takeTrap s2 s2.cur sub va 1 (some 0))))
  ∧ (∀ (u : State) (c k : Nat) (f : Flight) (p : LoadPart) (l : Line) (w : Width),
    loadDue u c k f p → f.acq = none → inL1 u c p.pa l → f.ext = some w → p.len = (bytesOf w).1 →
    let t := samplePart u c k 0
    let bytes : List Byte := (List.range p.len).map fun i => l.data.extractLsb' (8 * (p.pa % 128 + i)) 8
    let bad : Bool := (List.range p.len).any fun i => l.psn.getLsbD ((p.pa % 128 + i) / 32)
    let g : Flight := { f with poison := if bad then some p.va else none, parts := [{ p with got := some (bytes, bad) }] }
    (ctxOf t c).flights = (ctxOf u c).flights.set k g
    ∧ (bad = false → Flight_val g = (extended w (l.data.toNat / 2 ^ (8 * (p.pa % 128)) % 2 ^ (8 * p.len))).setWidth 2048)
    ∧ (∀ e, e ≠ c → ctxOf t e = ctxOf u e) ∧ t = { u with ctx := t.ctx, bsu := t.bsu })

/-- `st` (R20, R109, R131, R141, R279): through a cacheable page the bytes, and no others, become the value's in the core's L1D line
and dirty there, and no memory changes; through a page that allows no cache (cp = 2) exactly the bytes stored change in HBM, and
no cache. A store within one sector is performed at once, one that spans sectors with the last of its pieces. No register
changes. Where its translation faults, it traps with the kind of access 2, once every result has arrived (R417). -/
def Obligations.StoresWriteTheirBytesAndNoOthers : Prop :=
  (∀ (s : State) (d : SReg) (m : MemOp) (w : Width) (pa cp : Nat) (l : Line),
    let x := cc s
    let va := rdS x m.a + BitVec.ofInt 64 (m.aux.toInt * 2 ^ 12 + m.imm.toInt)
    let n := (bytesOf w).1
    let byte (i : Nat) : Byte := BitVec.ofNat 8 ((rdS x d).toNat / 2 ^ (8 * i))
    let inLine (t : State) : Prop := ∃ l', SMap.get? (l1Of t (coreOf s.cur)).lines (pa / 128) = some l'
      ∧ (∀ i, i < 128 → l'.data.extractLsb' (8 * i) 8 =
          if pa % 128 ≤ i ∧ i < pa % 128 + n then byte (i - pa % 128) else l.data.extractLsb' (8 * i) 8)
      ∧ (∀ i, i < 128 → l'.dirty.getLsbD i = (l.dirty.getLsbD i || decide (pa % 128 ≤ i ∧ i < pa % 128 + n)))
      ∧ (∀ ln, ln ≠ pa / 128 → SMap.get? (l1Of t (coreOf s.cur)).lines ln = SMap.get? (l1Of s (coreOf s.cur)).lines ln)
      ∧ (∀ k, k ≠ coreOf s.cur → l1Of t k = l1Of s k) ∧ t.hbm = s.hbm ∧ t.clc = s.clc
    let inHbm (t : State) : Prop := t.l1d = s.l1d ∧ t.clc = s.clc ∧ t.mbox = s.mbox ∧ t.far = s.far
      ∧ ∀ a, Memory.read t.hbm.mem a = if pa ≤ a ∧ a < pa + n then byte (a - pa) else Memory.read s.hbm.mem a
    let oneSector : Prop := pa % 32 + n ≤ 32
    settled x → mapped s va .write pa cp → va.toNat % 65536 + n ≤ 65536 → bsuOn s = false → descHeld s va.toNat n = false →
    (pa < 0x00C000000000 → pa % 128 + n ≤ 128 → cp ≤ 1 → inL1 s s.cur pa l → ∃ t, exec (.st d m w) s = .next t
        ∧ (oneSector → inLine t ∧ ∀ c, ctxOf t c = ctxOf s c)
        ∧ (¬ oneSector → t.l1d = s.l1d ∧ t.hbm = s.hbm ∧ inLine (drainAll t s.cur) ∧ ∀ c, ctxOf (drainAll t s.cur) c = ctxOf s c))
    ∧ (memOk s = true → plainHbm s pa n → cp = 2 → ∃ t, exec (.st d m w) s = .next t
        ∧ (oneSector → inHbm t ∧ ∀ c, ctxOf t c = ctxOf s c)
        ∧ (¬ oneSector → t.hbm = s.hbm ∧ inHbm (drainAll t s.cur) ∧ ∀ c, ctxOf (drainAll t s.cur) c = ctxOf s c)))
  ∧ (∀ (s s2 : State) (d : SReg) (m : MemOp) (w : Width) (sub : Nat),
    let va := rdS (cc s) m.a + BitVec.ofInt 64 (m.aux.toInt * 2 ^ 12 + m.imm.toInt)
    descHeld s va.toNat (bytesOf w).1 = false → translate s (.core (coreOf s.cur)) (asidOf s s.cur) va .write = (.fault sub, s2) →
    allHere (cc s2) = true → exec (.st d m w) s = .next (takeTrap s2 s2.cur sub va 2 (some 0)))

/-- No access of the context is on the way to a mailbox or to device registers. -/
def Sys2Proof.Claims.noneOut (s : State) (c : Nat) : Prop :=
  (∀ w ∈ s.mboxW, w.ctx ≠ c) ∧ ∀ p ∈ s.pending, p.lane ≠ some (100000 + c)

/-- The state after the issuing context's release at a scope up to the package (R133, R141). -/
def Sys2Proof.Claims.released (s : State) (k : Nat) : State :=
  releaseAt (if 1 ≤ k then sampleAll (drainAll s s.cur) s.cur else s) (coreOf s.cur) k
/-- Nothing holds that release back: no access of the context is on the way, and no far write of it. -/
def Sys2Proof.Claims.releases (s : State) (k : Nat) : Prop := settled (cc s) ∧ noneOut s s.cur ∧ (cc (released s k)).farOut = 0

/-- Acquiring loads and releasing stores (R133, R134, R141, R279) at a scope up to the package, in this package: an `lda` leaves
its load in flight as an acquire; where that is performed, what it makes stale is stale before the read, and the fetch buffer is
emptied. What a `stl`'s release writes back is written before the store, which goes through to the point of coherence of its
scope, with each of its pieces. -/
def Obligations.AcquiringLoadsAndReleasingStores : Prop :=
  (∀ (s : State) (d : SReg) (m : MemOp) (w : Width) (sc : Scope) (pa cp : Nat),
    let x := cc s
    let core := coreOf s.cur
    let va := rdS x m.a + BitVec.ofInt 64 (m.aux.toInt * 2 ^ 12 + m.imm.toInt)
    let n := (bytesOf w).1
    let k := Sys2Proof.Machine.Scope.code sc
    k ≤ 4 → va.toNat % 65536 + n ≤ 65536 → pa < 0x00C000000000 → pa % 128 + n ≤ 128 → cp ≤ 1 →
    (loopReg x d = false → mapped s va .read pa cp → pa % 32 + n ≤ 32 → tagsUsed s core (chanOf pa) < 64 →
      ∃ t, exec (.lda d m w sc) s = .next t ∧ (cc t).flights = x.flights ++ [loadOf s d w va pa cp (some k)]
        ∧ (∀ c, c ≠ s.cur → ctxOf t c = ctxOf s c) ∧ t = { s with ctx := t.ctx, dev := t.dev, trace := t.trace, free := t.free })
    ∧ (mapped s va .write pa cp → descHeld s va.toNat n = false → releases s k → bsuOn s = false →
      let s1 := released s k
      let bytes : List (Option Byte) := (leBytes (rdS x d).toNat n).map some
      let s2 := coreWrite s1 s.cur core (some (taskOf s1 s.cur).queue) pa cp bytes
      let s3 := if 2 ≤ k then l1WriteBack s2 core (pa / 128) else s2
      let s4 := if 3 ≤ k then clcWriteBack s3 (core / 8) (pa / 128) else s3
      let piece (z : Nat × Nat × Nat) : StorePart :=
        { pa := z.1, cp := cp, bytes := (bytes.drop z.2.1).take z.2.2, queue := (taskOf s1 s.cur).queue, through := k }
      let s5 := upd s1 fun y => { y with stq := y.stq ++ (sectorPieces pa n).map piece }
      (pa % 32 + n ≤ 32 → exec (.stl d m w sc) s = .next (trMem s4 s.cur 5 va.toNat (bytesOf w).2))
      ∧ (32 < pa % 32 + n → exec (.stl d m w sc) s = .next (trMem s5 s.cur 5 va.toNat (bytesOf w).2))))
  ∧ (∀ (u : State) (c k scope : Nat) (f : Flight) (p : LoadPart), loadDue u c k f p → f.acq = some scope →
    let r := coreReadPiece (acquireAt u (coreOf c) scope) (coreOf c) p.pa p.cp p.len
    let t := sampleAcq u c k
    let y := ctxOf r.2.2 c
    ctxOf t c = { y with fetch := [], ahead := [], flights := y.flights.set k { f with
      acq := none, poison := if r.2.1 then some p.va else none, parts := [{ p with got := some (r.1, r.2.1) }] } }
    ∧ (∀ e, e ≠ c → ctxOf t e = ctxOf r.2.2 e) ∧ t = { r.2.2 with ctx := t.ctx, bsu := t.bsu })

/-- Single-word atomics of the S slot, relaxed, on HBM that no cache of the core holds (R114, R115, R281): the word becomes the
result of its operation, no other byte of memory changes, and the old word is in flight for d with bound 8. -/
def Sys2Proof.Claims.AtomicsReadAndWriteTheirWord : Prop :=
  ∀ (s : State) (op : RouOp) (d a b c : SReg) (q : BitVec 3) (w : AWidth) (sc : Scope) (pa cp : Nat),
    let x := cc s
    let n := match w with | .w32 => 4 | .w64 => 8
    let va := rdS x a
    let old := ofLe (Memory.bytes s.hbm.mem pa n)
    let v := (rdS x b).toNat % 2 ^ (8 * n)
    let new : Nat := match op with
      | .add => (old + v) % 2 ^ (8 * n) | .and => old &&& v | .or => old ||| v | .xor => old ^^^ v | .swap => v
      | .minn => min old v | .maxn => max old v
      | .min => if sgn (8 * n) v < sgn (8 * n) old then v else old
      | .max => if sgn (8 * n) old < sgn (8 * n) v then v else old
      | .fadd => old
    let line := pa / 128
    let wrote (t : State) (z : Nat) : Prop := ∀ e, Memory.read t.hbm.mem e =
      if pa ≤ e ∧ e < pa + n then BitVec.ofNat 8 (z / 2 ^ (8 * (e - pa))) else Memory.read s.hbm.mem e
    let got (t : State) : Prop := ∃ f, (cc t).flights = x.flights ++ [f] ∧ f.dst = dstS x d ∧ f.bound = 8 ∧ f.poison = none
      ∧ f.val.toNat = old ∧ f.flags = 0
    loopReg x d = false → rdP x q = true → va.toNat % n = 0 → pa % n = 0 → memOk s = true → plainHbm s pa n → bsuOn s = false →
    settled x → sectorHeld s pa s.cur = false →
    SMap.get? (l1Of s (coreOf s.cur)).lines line = none → SMap.get? (clcOf s (clusterOf s.cur)).lines line = none →
    mapped s va .atomic pa cp →
    (op ≠ .fadd → ∃ t, exec (.amo op d a b q w .rlx sc) s = .next t ∧ wrote t new ∧ got t)
    ∧ (∃ t, exec (.amocas d a b c q w .rlx sc) s = .next t ∧ got t
        ∧ wrote t (if old = (rdS x c).toNat % 2 ^ (8 * n) then v else old))

/-- An atomic whose address is not a multiple of its width traps with ROP `align` before anything else (R119, R281, R282). -/
def Sys2Proof.Claims.MisalignedAtomicsTrap : Prop :=
  ∀ (s : State) (op : RouOp) (d a b c : SReg) (q : BitVec 3) (w : AWidth) (o : Sys2Proof.Ord) (sc : Scope),
    loopReg (cc s) d = false → rdP (cc s) q = true → (rdS (cc s) a).toNat % (match w with | .w32 => 4 | .w64 => 8) ≠ 0 →
    allHere (cc s) = true →
    let t := takeTrap s s.cur 32 (rdS (cc s) a) 4 (some 0)
    exec (.amo op d a b q w o sc) s = .next t ∧ exec (.amocas d a b c q w o sc) s = .next t
    ∧ exec (.lr d a q w o sc) s = .next t ∧ exec (.sc d a b q w o sc) s = .next t

/-- Reservations (R120, R121, R282), relaxed, on HBM that no cache of the core holds: `lr` reads the word and makes the context's
one reservation; `sc` writes and answers 0 while the reservation stands, less than 4,096 clocks old, else it writes nothing and
answers 1; either way none is left. -/
def Sys2Proof.Claims.ReservationsDecideTheConditionalStore : Prop :=
  ∀ (s : State) (d a b : SReg) (q : BitVec 3) (w : AWidth) (sc : Scope) (pa cp : Nat),
    let x := cc s
    let n := match w with | .w32 => 4 | .w64 => 8
    let va := rdS x a
    let line := pa / 128
    let old := ofLe (Memory.bytes s.hbm.mem pa n)
    let got (t : State) (v : Nat) : Prop := ∃ f, (cc t).flights = x.flights ++ [f] ∧ f.dst = dstS x d ∧ f.bound = 8
      ∧ f.poison = none ∧ f.val.toNat = v
    let held : Prop := ∃ r, r ∈ (chan s (chanOf pa)).resv ∧ r.ctx = s.cur ∧ r.sector = pa / 32 ∧ s.clk < r.clk + 4096
    loopReg x d = false → rdP x q = true → va.toNat % n = 0 → pa % n = 0 → memOk s = true → plainHbm s pa n → bsuOn s = false →
    settled x → sectorHeld s pa s.cur = false →
    SMap.get? (l1Of s (coreOf s.cur)).lines line = none → SMap.get? (clcOf s (clusterOf s.cur)).lines line = none →
    (mapped s va .read pa cp → ∃ t, exec (.lr d a q w .rlx sc) s = .next t ∧ got t old
        ∧ (∀ e, Memory.read t.hbm.mem e = Memory.read s.hbm.mem e)
        ∧ (∀ r, r ∈ (chan t (chanOf pa)).resv → r.ctx = s.cur → r.sector = pa / 32 ∧ r.clk = s.clk)
        ∧ ∃ r, r ∈ (chan t (chanOf pa)).resv ∧ r.ctx = s.cur)
    ∧ (mapped s va .write pa cp → held → ∃ t, exec (.sc d a b q w .rlx sc) s = .next t ∧ got t 0
        ∧ (∀ e, Memory.read t.hbm.mem e =
            if pa ≤ e ∧ e < pa + n then BitVec.ofNat 8 ((rdS x b).toNat / 2 ^ (8 * (e - pa))) else Memory.read s.hbm.mem e)
        ∧ ∀ r, r ∈ (chan t (chanOf pa)).resv → r.ctx ≠ s.cur)
    ∧ (mapped s va .write pa cp → ¬ held → ∃ t, exec (.sc d a b q w .rlx sc) s = .next t ∧ got t 1
        ∧ (∀ e, Memory.read t.hbm.mem e = Memory.read s.hbm.mem e)
        ∧ ∀ r, r ∈ (chan t (chanOf pa)).resv → r.ctx ≠ s.cur)

/-- Fences (R135, R139 to R141, R283): a releasing fence at cluster scope or wider leaves no dirty line in the core's L1D; an
acquiring one advances the generation counter of its scope, so that what was cached is stale, and empties the fetch buffer; a
fence with neither order does nothing. With no access of the context on the way it completes at once. -/
def Sys2Proof.Claims.FencesReleaseAndAcquire : Prop :=
  ∀ (s : State) (o : Sys2Proof.Ord) (sc : Scope) (q : BitVec 3),
    let core := coreOf s.cur
    let k := Sys2Proof.Machine.Scope.code sc
    let rel : Bool := o = .rel ∨ o = .ar
    let acq : Bool := o = .acq ∨ o = .ar
    let s1 := if rel then released s k else s
    rdP (cc s) q = true → settled (cc s) → noneOut s s.cur → (4 ≤ k → (cc s).inval = 0) →
    (5 ≤ k → rel = true → copiesRun s1 s.cur = false ∧ xremoteRuns s1 s.cur = false ∧ (cc s1).dests = []) → (cc s1).farOut = 0 →
    (exec (.fence o sc q) s =
      .next (if acq then upd (acquireAt (sampleAll s1 s.cur) core k) fun x => { x with fetch := [], ahead := [] } else s1))
    ∧ (rel = true → 2 ≤ k → ∀ ln l, SMap.get? (l1Of s1 core).lines ln = some l → l.dirty = 0)
    ∧ (2 ≤ k → k ≤ 6 → ((l1Of (acquireAt s core k) core).gen.toList.getD k 0) = (l1Of s core).gen.toList.getD k 0 + 1)

/-- `cwb`, `pref` and `tlbinv` (R22, R284, R285, R289): a `cwb` of no bytes, or below cluster scope, does nothing, and one of a
dirty line of the core writes the bytes back to its cluster; `pref` of a page that it may not read does no more than look, and one of a line
that the cluster holds brings it into the L1D; `tlbinv` of the task's own ASID requests the invalidation, another ASID traps. -/
def Sys2Proof.Claims.CacheAndTranslationControl : Prop :=
  ∀ (s : State) (a b : SReg) (q : BitVec 3) (sc : Scope) (m : MemOp) (all : Bool) (pa cp : Nat) (l c : Line),
    let x := cc s
    let core := coreOf s.cur
    let va := rdS x a
    let n := (rdS x b).toNat % 2 ^ 40
    let pv := rdS x m.a + BitVec.ofInt 64 (m.aux.toInt * 2 ^ 12 + m.imm.toInt)
    let s0 := drainAll s s.cur
    rdP x q = true →
    (n = 0 ∨ Sys2Proof.Machine.Scope.code sc < 2 → exec (.cwb a b q sc) s = .next s)
    ∧ (0 < n → sc = .cl → x.stq = [] → peek s0 (.core core) (asidOf s s.cur) va.toNat none = (some (s.pkg, pa, cp), s0) →
        pa < 0x00C000000000 → pa % 128 + n < 128 → va.toNat % 65536 + n < 65536 → cp ≤ 1 →
        (∀ ln l', (ln, l') ∈ (l1Of s core).lines → ln = pa / 128 ∧ l' = l) → SMap.get? (l1Of s core).lines (pa / 128) = some l →
        l.noClc = false → l.dirty = BitVec.allOnes 128 →
        (∀ ln l', (ln, l') ∈ (clcOf s (core / 8)).lines → ln = pa / 128 ∧ l' = c) →
        SMap.get? (clcOf s (core / 8)).lines (pa / 128) = some c → c.gens = gensClc (clcOf s (core / 8)) →
        ∃ t c' l', exec (.cwb a b q sc) s = .next t ∧ (∀ k, ctxOf t k = ctxOf s k) ∧ t.hbm = s.hbm
          ∧ SMap.get? (clcOf t (core / 8)).lines (pa / 128) = some c' ∧ SMap.get? (l1Of t core).lines (pa / 128) = some l'
          ∧ l'.data = l.data
          ∧ ∀ i, i < 128 →
              let inside : Bool := pa % 128 / 32 ≤ i / 32 ∧ i / 32 ≤ (pa % 128 + n) / 32
              l'.dirty.getLsbD i = !inside
              ∧ c'.data.extractLsb' (8 * i) 8 = (if inside then l else c).data.extractLsb' (8 * i) 8)
    ∧ (∀ clc s2, peek s (.core core) (asidOf s s.cur) pv.toNat (some .read) = (none, s2) → exec (.pref m clc) s = .next s2)
    ∧ (peek s (.core core) (asidOf s s.cur) pv.toNat (some .read) = (some (s.pkg, pa, cp), s) → pa < 0x00C000000000 → cp = 0 →
        bsuOn s = false → (l1Of s core).lines.length < 512 →
        SMap.get? (l1Of s core).lines (pa / 128) = none → SMap.get? (clcOf s (core / 8)).lines (pa / 128) = some c →
        c.gens = gensClc (clcOf s (core / 8)) →
        ∃ t l', exec (.pref m false) s = .next t ∧ t.ctx = s.ctx ∧ t.hbm = s.hbm
          ∧ SMap.get? (l1Of t core).lines (pa / 128) = some l' ∧ l'.data = c.data ∧ l'.dirty = 0)
    ∧ ((rdS x b).toNat = asidOf s s.cur → asidOf s s.cur < 65536 → exec (.tlbinv a b q all) s =
        .next { upd s (fun x => { x with inval := x.inval + 1 }) with mmu := { s.mmu with inval := s.mmu.inval ++
          [{ asid := asidOf s s.cur, va := if all then none else some va.toNat, by_ := some s.cur }] } })
    ∧ ((rdS x b).toNat ≠ asidOf s s.cur → allHere x = true → exec (.tlbinv a b q all) s =
        .next (takeTrap s s.cur 12 (if all then 0 else va) 0 (some 0)))

/-- Atomics and reservations: all of `AtomicsReadAndWriteTheirWord`, `MisalignedAtomicsTrap` and
`ReservationsDecideTheConditionalStore`. -/
def Obligations.AtomicsAndReservations : Prop :=
  Claims.AtomicsReadAndWriteTheirWord ∧ Claims.MisalignedAtomicsTrap ∧ Claims.ReservationsDecideTheConditionalStore

/-- Fences, cache control and translation control: both of `FencesReleaseAndAcquire` and `CacheAndTranslationControl`. -/
def Obligations.FencesAndCacheControl : Prop :=
  Claims.FencesReleaseAndAcquire ∧ Claims.CacheAndTranslationControl


/-! ## The V slots (R291 to R317) -/

/-- What an operation on lanes gives (R213, R291 to R295): its result in flight for its register, in which each of the first n
lanes of width w that the mask selects holds the low w bits of its result, the others what the register held at issue, and above
them zeros; a flag is raised where a selected lane raises it. -/
def Sys2Proof.Claims.givesLanes (i : Instr) (s : State) (u : VSlot) (d : VReg) (k : BitVec 3) (w n bound : Nat) (f : Nat → Nat × Fl) : Prop :=
  ∃ v fl, exec i s = .next (emit s (dstV (cc s) u d) v fl bound)
    ∧ (∀ j, j < n → laneOf w j v = if (rdK (cc s) u k).getLsbD j then (f j).1 % 2 ^ w else laneOf w j (rdV (cc s) u d))
    ∧ (∀ p, n * w ≤ p → v.getLsbD p = false)
    ∧ (∀ b, fl.getLsbD b = (List.range n).any fun j => (rdK (cc s) u k).getLsbD j && (f j).2.getLsbD b)

/-- What an operation on masks gives (R213, R298, R317): bit j of its mask in flight is `f j`, with its entry in the trace where a
mask is written (R443). -/
def Sys2Proof.Claims.givesMask (i : Instr) (s : State) (u : VSlot) (d : BitVec 3) (bound : Nat) (f : Nat → Bool) (fl : Fl) : Prop :=
  ∃ m : Mask, exec i s = .next (emit (if d = 0 then s else trCtl s s.cur 3 (cc s).pc.toNat (d.toNat + (match u with | .v0 => 0 | .v1 => 8)))
      (.k u d) (m.setWidth 2048) fl bound)
    ∧ ∀ j, j < 256 → m.getLsbD j = f j

/-- The integer operations on lanes (R296): exact on Val of the lanes, then wrapped to the width or saturated to the type; the
shifts and logic on the bits. -/
def Sys2Proof.Claims.VectorIntegerLanes : Prop :=
  ∀ (s : State) (u : VSlot) (d a b c : VReg) (k : BitVec 3) (t : IFmt) (n : BitVec 6),
    let x := cc s
    let w := t.width
    let la (i : Nat) := laneOf w i (rdV x u a)
    let lb (i : Nat) := laneOf w i (rdV x u b)
    let num (z : Nat) : Int := if t.signed ∧ 2 ^ (w - 1) ≤ z then (z : Int) - 2 ^ w else z
    let A (i : Nat) := num (la i)
    let B (i : Nat) := num (lb i)
    let C (i : Nat) := num (laneOf w i (rdV x u c))
    let hi : Int := if t.signed then 2 ^ (w - 1) - 1 else 2 ^ w - 1
    let lo : Int := if t.signed then -2 ^ (w - 1) else 0
    let bits (z : Int) : Nat × Fl := ((z % 2 ^ w).toNat, 0)
    let sat (z : Int) : Nat × Fl := bits (max lo (min hi z))
    let ok (i : Instr) (bound : Nat) (f : Nat → Nat × Fl) : Prop := givesLanes i s u d k w t.lanes bound f
    ok (.vadd u d a b k t) 2 (fun i => bits (A i + B i)) ∧ ok (.vsub u d a b k t) 2 (fun i => bits (A i - B i))
    ∧ ok (.vadds u d a b k t) 2 (fun i => sat (A i + B i)) ∧ ok (.vsubs u d a b k t) 2 (fun i => sat (A i - B i))
    ∧ ok (.vmul u d a b k t) 3 (fun i => bits (A i * B i)) ∧ ok (.vmulh u d a b k t) 3 (fun i => bits (A i * B i / 2 ^ w))
    ∧ ok (.vmla u d a b c k t) 3 (fun i => bits (C i + A i * B i)) ∧ ok (.vmls u d a b c k t) 3 (fun i => bits (C i - A i * B i))
    ∧ ok (.vabs u d a k t) 2 (fun i => bits (if A i < 0 then -A i else A i)) ∧ ok (.vneg u d a k t) 2 (fun i => bits (-A i))
    ∧ ok (.vmin u d a b k t) 2 (fun i => bits (min (A i) (B i))) ∧ ok (.vmax u d a b k t) 2 (fun i => bits (max (A i) (B i)))
    ∧ ok (.vand u d a b k t) 2 (fun i => (la i &&& lb i, 0)) ∧ ok (.vor u d a b k t) 2 (fun i => (la i ||| lb i, 0))
    ∧ ok (.vxor u d a b k t) 2 (fun i => (la i ^^^ lb i, 0)) ∧ ok (.vnot u d a k t) 2 (fun i => bits (-1 - la i))
    ∧ ok (.vshl u d a b k t) 2 (fun i => (if lb i < w then la i * 2 ^ lb i else 0, 0))
    ∧ ok (.vshr u d a b k t) 2 (fun i => (if lb i < w then la i / 2 ^ lb i else 0, 0))
    ∧ ok (.vsar u d a b k t) 2 (fun i => bits ((if 2 ^ (w - 1) ≤ la i then (la i : Int) - 2 ^ w else la i) / 2 ^ min (lb i) w))
    ∧ ok (.vshli u d a n k t) 2 (fun i => (if n.toNat < w then la i * 2 ^ n.toNat else 0, 0))

/-- Widening and narrowing (R297): the low half of the lanes into lanes of twice the width, and back, wrapped or saturated, with
zeros in the upper half. -/
def Sys2Proof.Claims.VectorWideningAndNarrowing : Prop :=
  ∀ (s : State) (u : VSlot) (d a b c : VReg) (k : BitVec 3) (t : IFmt) (sat : Bool), t.width ≤ 32 →
    let x := cc s
    let w := t.width
    let num (v : Nat) (z : Nat) : Int := if t.signed ∧ 2 ^ (v - 1) ≤ z then (z : Int) - 2 ^ v else z
    let A (i : Nat) := num w (laneOf w i (rdV x u a))
    let B (i : Nat) := num w (laneOf w i (rdV x u b))
    let W (r : VReg) (i : Nat) := num (2 * w) (laneOf (2 * w) i (rdV x u r))
    let hi : Int := if t.signed then 2 ^ (w - 1) - 1 else 2 ^ w - 1
    let lo : Int := if t.signed then -2 ^ (w - 1) else 0
    givesLanes (.vaddw u d a b k t) s u d k (2 * w) (t.lanes / 2) 3 (fun i => (((A i + B i) % 2 ^ (2 * w)).toNat, 0))
    ∧ givesLanes (.vmlaw u d a b c k t) s u d k (2 * w) (t.lanes / 2) 3 (fun i => (((W c i + A i * B i) % 2 ^ (2 * w)).toNat, 0))
    ∧ givesLanes (.vnarrow u d a k t sat) s u d k w (t.lanes / 2) 3
        (fun i => (((if sat then max lo (min hi (W a i)) else W a i) % 2 ^ w).toNat, 0))

/-- `vsel` (R299): every lane is written, a's where the mask bit is 1 and b's elsewhere; with k0 the result is a; the type sets
only the lane width. -/
def Obligations.VselWritesEveryLane : Prop :=
  ∀ (s : State) (u : VSlot) (d a b : VReg) (k : BitVec 3) (t : IFmt), ∃ v : Vec,
    exec (.vsel u d a b k t) s = .next (emit s (dstV (cc s) u d) v 0 2)
    ∧ (∀ j, j < t.lanes → laneOf t.width j v =
        laneOf t.width j (if (rdK (cc s) u k).getLsbD j then rdV (cc s) u a else rdV (cc s) u b))
    ∧ (k = 0 → v = rdV (cc s) u a)

/-- Comparisons into masks and the mask operations (R298, R304, R317). -/
def Obligations.MasksAreWrittenBitByBit : Prop :=
  ∀ (s : State) (u : VSlot) (d e f k : BitVec 3) (a b : VReg) (t : IFmt) (tf : FFmt) (c : VCond) (cf : FCond),
    let x := cc s
    let w := t.width
    let num (z : Nat) : Int := if t.signed ∧ 2 ^ (w - 1) ≤ z then (z : Int) - 2 ^ w else z
    let A (i : Nat) := num (laneOf w i (rdV x u a))
    let B (i : Nat) := num (laneOf w i (rdV x u b))
    let old (j : Nat) := (rdK x u d).getLsbD j
    let on (j : Nat) := (rdK x u k).getLsbD j
    let cmp (j : Nat) : Bool × Fl := cmpF cf (decF tf (laneOf tf.width j (rdV x u a))) (decF tf (laneOf tf.width j (rdV x u b)))
    givesMask (.vcmp u d a b k t c) s u d 2 (fun j => decide (j < t.lanes) && if on j then
        (match c with | .eq => decide (A j = B j) | .ne => decide (A j ≠ B j) | .lt => decide (A j < B j) | .ge => decide (B j ≤ A j))
        else old j) 0
    ∧ (∃ fl, givesMask (.fcmp u d a b k tf cf) s u d (if tf = .f64 then 6 else 4)
          (fun j => decide (j < tf.lanes) && if on j then (cmp j).1 else old j) fl
        ∧ ∀ z, fl.getLsbD z = (List.range tf.lanes).any fun j => on j && (cmp j).2.getLsbD z)
    ∧ givesMask (.kand u d e f) s u d 1 (fun j => (rdK x u e).getLsbD j && (rdK x u f).getLsbD j) 0
    ∧ givesMask (.kor u d e f) s u d 1 (fun j => (rdK x u e).getLsbD j || (rdK x u f).getLsbD j) 0
    ∧ givesMask (.knot u d e) s u d 1 (fun j => !(rdK x u e).getLsbD j) 0
    ∧ givesMask (.kmov u d e) s u d 1 (fun j => (rdK x u e).getLsbD j) 0

/-- Float arithmetic on lanes (R48, R49, R52, R300 to R302, R305, R306): the exact result of the values, rounded once to the format
under the operation's mode, the dynamic one from `fctl`; the estimate, the minimum and maximum, the class and the integral value of
a lane. -/
def Sys2Proof.Claims.VectorFloatLanes : Prop :=
  ∀ (s : State) (u : VSlot) (d a b c : VReg) (k : BitVec 3) (t : FFmt) (rm : Rnd),
    let x := cc s
    let m : RMode := match rm with
      | .mode m => m
      | .dyn => if x.fctl.toNat % 8 = 1 then .rtz else if x.fctl.toNat % 8 = 2 then .rdn else if x.fctl.toNat % 8 = 3 then .rup
                else if x.fctl.toNat % 8 = 4 then .rna else .rne
    let pa (i : Nat) := laneOf t.width i (rdV x u a)
    let pb (i : Nat) := laneOf t.width i (rdV x u b)
    let A (i : Nat) := decF t (pa i)
    let B (i : Nat) := decF t (pb i)
    let C (i : Nat) := decF t (laneOf t.width i (rdV x u c))
    let rounded (z : XV × Fl) : Nat × Fl := ((round t m false z.1).1, (round t m false z.1).2 ||| z.2)
    let two := if t = .f64 then 6 else 4
    let long := if t = .f64 then 20 else 12
    let ok (i : Instr) (bound : Nat) (f : Nat → Nat × Fl) : Prop := givesLanes i s u d k t.width t.lanes bound f
    ok (.fadd u d a b k t rm) two (fun i => rounded (addF m (A i) (B i)))
    ∧ ok (.fsub u d a b k t rm) two (fun i => rounded (addF m (A i) (B i).neg))
    ∧ ok (.fmul u d a b k t rm) two (fun i => rounded (mulX (A i) (B i)))
    ∧ ok (.ffma u d a b c k t rm) two (fun i => rounded (fmaF m (A i) (B i) (C i)))
    ∧ ok (.ffms u d a b c k t rm) two (fun i => rounded (fmaF m (A i) (B i) (C i).neg))
    ∧ ok (.fdiv u d a b k t rm) long (fun i => rounded (divF (A i) (B i)))
    ∧ ok (.fsqrt u d a k t rm) long (fun i => rounded (sqrtF (A i)))
    ∧ ok (.frcpe u d a k t) 4 (fun i => rcpeF t (A i))
    ∧ ok (.fmin u d a b k t) two (fun i => minMaxF t false (pa i) (pb i))
    ∧ ok (.fmax u d a b k t) two (fun i => minMaxF t true (pa i) (pb i))
    ∧ ok (.fclass u d a k t) two (fun i => (classF t (pa i), 0))
    ∧ ok (.fround u d a k t rm) two (fun i => roundIntegral t m (pa i))

/-- `fabs` clears the sign bit of each selected lane and `fneg` inverts it; a NaN keeps its pattern but for the sign, and no flag is
raised; an e4m3 lane of 0x7F becomes 0xFF under `fneg` (R303). -/
def Obligations.FabsAndFnegTouchOnlyTheSign : Prop :=
  ∀ (s : State) (u : VSlot) (d a : VReg) (k : BitVec 3) (t : FFmt),
    let two := if t = .f64 then 6 else 4
    let la (j : Nat) := laneOf t.width j (rdV (cc s) u a)
    let on (j : Nat) := (rdK (cc s) u k).getLsbD j
    (∃ v, exec (.fabs u d a k t) s = .next (emit s (dstV (cc s) u d) v 0 two)
      ∧ ∀ j i, j < t.lanes → on j = true → i < t.width →
          (laneOf t.width j v).testBit i = (decide (i ≠ t.width - 1) && (la j).testBit i))
    ∧ (∃ v, exec (.fneg u d a k t) s = .next (emit s (dstV (cc s) u d) v 0 two)
      ∧ (∀ j i, j < t.lanes → on j = true → i < t.width →
          (laneOf t.width j v).testBit i = if i = t.width - 1 then !(la j).testBit i else (la j).testBit i)
      ∧ ∀ j, j < t.lanes → on j = true → t = .e4m3 → la j = 0x7F → laneOf t.width j v = 0xFF)

/-- NaN and invalid operations (R46, R47, R51): a NaN operand gives the canonical NaN of the format, and `nv` exactly where one
is signalling; ∞ − ∞, 0 × ∞, 0 / 0, ∞ / ∞ and the root of a negative number give it with `nv`; a finite number over 0 gives ∞ with
`dz`. -/
def Sys2Proof.Claims.NanAndInvalidOperations : Prop :=
  ∀ (t : FFmt) (m : RMode) (x y : FV) (g h : Bool) (n : Nat) (e f : Int),
    let q (z : XV × Fl) : Nat × Fl := roundX t m false z
    let nv : Fl := if x = .nan true ∨ y = .nan true then 1 else 0
    ((∃ z, x = .nan z) ∨ (∃ z, y = .nan z) →
      q (addF m x y) = (t.nan, nv) ∧ q (mulX x y) = (t.nan, nv) ∧ q (divF x y) = (t.nan, nv))
    ∧ q (addF m (.inf g) (.inf !g)) = (t.nan, 1) ∧ q (mulX (.fin g 0 e) (.inf h)) = (t.nan, 1)
    ∧ q (mulX (.inf h) (.fin g 0 e)) = (t.nan, 1)
    ∧ q (divF (.fin g 0 e) (.fin h 0 f)) = (t.nan, 1) ∧ q (divF (.inf g) (.inf h)) = (t.nan, 1)
    ∧ (0 < n → q (sqrtF (.fin true n e)) = (t.nan, 1)) ∧ q (sqrtF (.inf true)) = (t.nan, 1)
    ∧ (0 < n → t ≠ .e4m3 → q (divF (.fin g n e) (.fin h 0 f)) =
        ((if g ≠ h then 2 ^ (t.width - 1) else 0) + (2 ^ t.ebits - 1) * 2 ^ t.mbits, 2))

/-- Conversions (R54, R55, R307): the lanes that both formats have, the rest of the register 0. -/
def Sys2Proof.Claims.VectorConversions : Prop :=
  ∀ (s : State) (u : VSlot) (d a : VReg) (k : BitVec 3) (t src : FFmt) (ti : IFmt) (rm : Rnd) (sat : Bool),
    let x := cc s
    let m := rmOf x rm
    let v (i : Nat) := decF src (laneOf src.width i (rdV x u a))
    let hi : Int := if ti.signed then 2 ^ (ti.width - 1) - 1 else 2 ^ ti.width - 1
    let lo : Int := if ti.signed then -2 ^ (ti.width - 1) else 0
    let z (i : Nat) : Int := let p := laneOf ti.width i (rdV x u a)
      if ti.signed ∧ 2 ^ (ti.width - 1) ≤ p then (p : Int) - 2 ^ ti.width else p
    givesLanes (.fcvt u d a k t src rm sat) s u d k t.width (min t.lanes src.lanes) 3 (fun i => cvtFF t m sat (v i))
    ∧ givesLanes (.fcvti u d a k ti src rm) s u d k ti.width (min ti.lanes src.lanes) 3
        (fun i => (((cvtFI lo hi m (v i)).1 % 2 ^ ti.width).toNat, (cvtFI lo hi m (v i)).2))
    ∧ givesLanes (.icvtf u d a k t ti rm) s u d k t.width (min t.lanes ti.lanes) 3 (fun i => cvtIF t m (z i))

/-- Movement of lanes (R308). -/
def Sys2Proof.Claims.VectorMoves : Prop :=
  ∀ (s : State) (u : VSlot) (d a b : VReg) (c : SReg) (k : BitVec 3) (t : IFmt) (off ln : BitVec 8),
    let x := cc s
    let w := t.width
    let la (i : Nat) := laneOf w i (rdV x u a)
    let lb (i : Nat) := laneOf w i (rdV x u b)
    let ok (i : Instr) (bound : Nat) (f : Nat → Nat) : Prop := givesLanes i s u d k w t.lanes bound fun j => (f j, 0)
    ok (.vmov u d a k t) 2 la
    ∧ ok (.vbcast u d c k t) 2 (fun _ => (rdS x c).toNat % 2 ^ w)
    ∧ ok (.vslide u d a b k t off) 3 (fun i => if i + off.toNat < t.lanes then la (i + off.toNat) else lb (i + off.toNat - t.lanes))
    ∧ ok (.vperm u d a b k t) 3 (fun i => la (lb i % t.lanes))
    ∧ ok (.vlane u d c k t ln) 2 (fun i => if i = ln.toNat then (rdS x c).toNat % 2 ^ w else laneOf w i (rdV x u d))

/-- Reductions and scans (R63, R64, R309 to R311): the integer ones over the selected lanes, exactly and then wrapped; the float
ones by adjacent pairs up the tree, or from lane 0 up, rounded at each addition. A lane that the mask excludes gives the
identity, −0 for floats. -/
def Sys2Proof.Claims.ReductionsAndScans : Prop :=
  ∀ (s : State) (u : VSlot) (d a : VReg) (k : BitVec 3) (t : IFmt) (tf : FFmt) (rm : Rnd),
    let x := cc s
    let w := t.width
    let num (z : Nat) : Int := if t.signed ∧ 2 ^ (w - 1) ≤ z then (z : Int) - 2 ^ w else z
    let sel : List Nat := (List.range t.lanes).filter fun i => (rdK x u k).getLsbD i
    let vals : List Int := sel.map fun i => num (laneOf w i (rdV x u a))
    let hi : Int := if t.signed then 2 ^ (w - 1) - 1 else 2 ^ w - 1
    let lo : Int := if t.signed then -2 ^ (w - 1) else 0
    let fin : List (Nat × Fl) := (List.range tf.lanes).map fun i =>
      (if (rdK x u k).getLsbD i then laneOf tf.width i (rdV x u a) else 2 ^ (tf.width - 1), 0)
    let add (p q : Nat × Fl) : Nat × Fl :=
      let z := addF (rmOf x rm) (decF tf p.1) (decF tf q.1)
      ((round tf (rmOf x rm) false z.1).1, (round tf (rmOf x rm) false z.1).2 ||| z.2 ||| p.2 ||| q.2)
    let put (z : Int) : Vec := BitVec.ofNat 2048 (z % 2 ^ w).toNat
    exec (.vredadd u d a k t) s = .next (emit s (dstV x u d) (put vals.sum) 0 6)
    ∧ exec (.vredmin u d a k t) s = .next (emit s (dstV x u d) (put (vals.foldl min hi)) 0 6)
    ∧ exec (.vredmax u d a k t) s = .next (emit s (dstV x u d) (put (vals.foldl max lo)) 0 6)
    ∧ (∃ z : Nat × Fl, treeUp add 8 fin = [z]
        ∧ exec (.fredadd u d a k tf rm) s = .next (emit s (dstV x u d) (BitVec.ofNat 2048 (z.1 % 2 ^ tf.width)) z.2 6))
    ∧ (∃ v, exec (.vscan u d a k t) s = .next (emit s (dstV x u d) v 0 8)
        ∧ ∀ j, j < t.lanes → (laneOf w j v : Int) =
            ((sel.filter fun i => i ≤ j).map fun i => num (laneOf w i (rdV x u a))).sum % 2 ^ w)
    ∧ (∃ (v : Vec) (fl : Fl) (l : List (Nat × Fl)), exec (.fscan u d a k tf rm) s = .next (emit s (dstV x u d) v fl 8)
        ∧ l.length = tf.lanes ∧ l.head? = some (cvtFF tf (rmOf x rm) false (decF tf (fin.headD (0, 0)).1))
        ∧ (∀ j, j + 1 < tf.lanes → l.getD (j + 1) (0, 0) = add (l.getD j (0, 0)) (fin.getD (j + 1) (0, 0)))
        ∧ (∀ j, j < tf.lanes → laneOf tf.width j v = (l.getD j (0, 0)).1 % 2 ^ tf.width)
        ∧ ∀ b, fl.getLsbD b = l.any fun z => z.2.getLsbD b)

/-- Quantisation (R43, R44, R312): scale × (code − zero point), exactly and rounded once; and the code of a value. -/
def Sys2Proof.Claims.QuantisationOfLanes : Prop :=
  ∀ (s : State) (u : VSlot) (d a b : VReg) (k : BitVec 3) (t : FFmt) (q4 : Bool) (rm : Rnd),
    let x := cc s
    let m := rmOf x rm
    let bits := if q4 then 4 else 8
    let par (i : Nat) := laneOf 32 i (rdV x u b)
    let deq (i : Nat) := dequant (par i) (laneOf bits i (rdV x u a))
    givesLanes (.vdequant u d a b k t q4 rm) s u d k t.width (min 64 t.lanes) 3
        (fun i => ((round t m false (deq i).1).1, (round t m false (deq i).1).2 ||| (deq i).2))
    ∧ givesLanes (.vquant u d a b k t q4 rm) s u d k bits (min 64 t.lanes) 3
        (fun i => quant bits m (par i) (decF t (laneOf t.width i (rdV x u a))))

/-- Mirage (R58, R59, R313 to R315): `vgen` gives +1 or −1 by the generator's bits; `vproj` and `vseedscan` give the exact sums of
the target's lanes with those signs, from +0 in `vproj`, rounded once to f32, one for each coefficient or seed, zeros above them; the generator steps
by its polynomial, and a seed of 0 acts as 1. -/
def Sys2Proof.Claims.MirageOperations : Prop :=
  ∀ (s : State) (u : VSlot) (d a b : VReg) (ga gb : SReg) (k : BitVec 3) (t : FFmt) (r : BitVec 13),
    let x := cc s
    let one : Nat := t.bias * 2 ^ t.mbits
    let seed : Word := (rdV x u a).setWidth 64
    let k0 := laneOf 32 2 (rdV x u a)
    let sum (from_ : List FV) (sd : Word) (step : Nat → Nat) : Nat × Fl :=
      let z := sumF .rne (from_ ++ ((List.range t.lanes).filter fun i => (rdK x u k).getLsbD i).map fun i =>
        let y := decF t (laneOf t.width i (rdV x u b))
        if lfsr sd (step i) then y.neg else y)
      ((round .f32 .rne false z.1).1, (round .f32 .rne false z.1).2 ||| z.2)
    givesLanes (.vgen u d ga gb k t) s u d k t.width t.lanes 4 (fun i =>
        (if lfsr (rdS x ga) ((rdS x gb).toNat % 2 ^ 32 + i) then one + 2 ^ (t.width - 1) else one, 0))
    ∧ (r.toNat ≤ 64 → ∃ v fl, exec (.vproj u d a b k t r) s = .next (emit s (dstV x u d) v fl 8)
        ∧ (∀ j, j < r.toNat → laneOf 32 j v = (sum [.fin false 0 0] seed fun i => (k0 + i) * r.toNat + j).1 % 2 ^ 32)
        ∧ (∀ p, 32 * r.toNat ≤ p → v.getLsbD p = false)
        ∧ ∀ z, fl.getLsbD z = (List.range r.toNat).any fun j => (sum [.fin false 0 0] seed fun i => (k0 + i) * r.toNat + j).2.getLsbD z)
    ∧ (∃ v fl, exec (.vseedscan u d ga b k t r) s = .next (emit s (dstV x u d) v fl 16)
        ∧ (∀ j, j < 8 → laneOf 32 j v = (sum [] (rdS x ga + BitVec.ofNat 64 j) fun i => i * r.toNat).1 % 2 ^ 32)
        ∧ (∀ p, 256 ≤ p → v.getLsbD p = false)
        ∧ ∀ z, fl.getLsbD z = (List.range 8).any fun j => (sum [] (rdS x ga + BitVec.ofNat 64 j) fun i => i * r.toNat).2.getLsbD z)
    ∧ (∀ (sd : Word) (j : Nat), lfsr 0 j = lfsr 1 j ∧ (sd ≠ 0 → lfsr sd 0 = sd.getLsbD 0)
        ∧ (sd ≠ 0 → lfsr sd (j + 1) = lfsr ((sd >>> 1) ^^^ (if sd.getLsbD 0 then 0xD800000000000000#64 else 0)) j))

/-- Integer lanes, at one width and across two: both of `VectorIntegerLanes` and `VectorWideningAndNarrowing`. -/
def Obligations.VectorIntegersAndWidths : Prop :=
  Claims.VectorIntegerLanes ∧ Claims.VectorWideningAndNarrowing

/-- Float lanes, NaN and invalid operations: both of `VectorFloatLanes` and `NanAndInvalidOperations`. -/
def Obligations.FloatLanesNanAndInvalid : Prop :=
  Claims.VectorFloatLanes ∧ Claims.NanAndInvalidOperations

/-- Movement, reductions and scans of lanes: both of `VectorMoves` and `ReductionsAndScans`. -/
def Obligations.VectorMovesReductionsAndScans : Prop :=
  Claims.VectorMoves ∧ Claims.ReductionsAndScans

/-- Conversions, quantisation and Mirage: all of `VectorConversions`, `QuantisationOfLanes` and `MirageOperations`. -/
def Obligations.ConversionsQuantisationAndMirage : Prop :=
  Claims.VectorConversions ∧ Claims.QuantisationOfLanes ∧ Claims.MirageOperations


/-! ## The engines' commands (R142, R148, R151, R152, R318 to R336, R356 to R370) -/

/-- What an M command finds where it enters its core's queue (R318, R320, R356): accumulators of its task that no command keeps
busy, no access of the context on the way, no copy descriptor unread, and room in the queue, in the context's share of it and in the tracker. -/
def Sys2Proof.Claims.mOpen (s : State) (limit accs : List Nat) : Prop :=
  let q := (engOf s (coreOf s.cur)).m
  (∀ a ∈ limit, a < (taskOf s s.cur).demand) ∧ (∀ a ∈ accs, (accOf (cc s) a).busy = false) ∧ descPending s = false ∧ settled (cc s)
    ∧ q.length < 16 ∧ (q.filter fun m => m.ctx = s.cur).length < 8 ∧ (cc s).track.length < 32

/-- An M command enters its core's queue (R151, R319, R320, R418): it latches its values, bindings and rounding mode, keeps its
accumulators busy, takes the next command number, and waits for the commands of its context that its footprint meets. Nothing
else changes: no accumulator's contents, no register, no memory. -/
def Sys2Proof.Claims.entersM (s : State) (i : Instr) (first : Nat) (limit accs : List Nat) (binds : List (Option Binding))
    (vals : List Word) (rm : RMode) : Prop :=
  let x := cc s
  let k := taskOf s s.cur
  (mOpen s limit accs → ∃ (t : State) (f : Track) (deps : List Nat) (acc : Vector Acc 8), exec i s = .next t
    ∧ t = { s with ctx := t.ctx, eng := t.eng, tiles := { s.tiles with next := s.tiles.next + 1 } }
    ∧ cc t = { x with acc := acc, cmdno := x.cmdno + 1, track := x.track ++ [f] } ∧ (∀ c, c ≠ s.cur → ctxOf t c = ctxOf s c)
    ∧ (∀ a, a < 8 → acc.toList.getD a {} = { accOf x a with busy := accs.contains a || (accOf x a).busy })
    ∧ f.id = s.tiles.next ∧ deps = (x.track.filter (overlap f)).map Track.id
    ∧ (∀ n, n ≠ coreOf s.cur → engOf t n = engOf s n)
    ∧ engOf t (coreOf s.cur) = { engOf s (coreOf s.cur) with m := (engOf s (coreOf s.cur)).m ++
        [{ id := s.tiles.next, ctx := s.cur, tid := k.tid, queue := k.queue, asid := k.asid, op := i, vals := vals,
           binds := binds, rm := rm, accs := accs, deps := deps, cmdno := x.cmdno.toNat, acc := first, pc := x.pc }] })
  ∧ ((∃ a ∈ limit, k.demand ≤ a) → allHere x = true → exec i s = .next (takeTrap s s.cur 51 0 0 (some 3)))

/-- The M slot (R318 to R336): each command enters its queue with what it names: one accumulator, or the pair of an f64 command;
a nest names every accumulator of its task and every binding until its descriptor is read (R152). An accumulator beyond the
task's demand is illegal. -/
def Sys2Proof.Claims.MatrixCommandsEnterTheirQueue : Prop :=
  ∀ (s : State) (f d : BitVec 3) (t : TileOp) (off : BitVec 8) (a w : BitVec 5) (c : SReg) (rm : Rnd) (toF32 : Bool),
    let x := cc s
    let bound (n : BitVec 5) : Option Binding := x.b.toList.getD n.toNat none
    let f64 (o : Option Binding) : Bool := match o with | some b => dTfmt b.desc = 13 | none => false
    let named (r : BitVec 3) (wide : Bool) : List Nat := if wide then [r.toNat / 2 * 2, r.toNat / 2 * 2 + 1] else [r.toNat]
    let co := [t.c0, t.c1, t.c2, t.c3, t.c4, t.c5].map (rdS x)
    let one (b : BitVec 5) := named f (f64 (bound b))
    entersM s (.mzero f) f.toNat [f.toNat] [f.toNat] [] [] .rne
    ∧ entersM s (.mld f t off) f.toNat [f.toNat] (one t.b) [bound t.b] co .rne
    ∧ entersM s (.mst f t off) f.toNat [f.toNat] (one t.b) [bound t.b] co .rne
    ∧ entersM s (.maddt f t off) f.toNat [f.toNat] (one t.b) [bound t.b] co .rne
    ∧ entersM s (.mma f a w c off rm) f.toNat [f.toNat] (named f (f64 (bound a) && f64 (bound w))) [bound a, bound w] [rdS x c] (rmOf x rm)
    ∧ entersM s (.mmaq f a w c off rm) f.toNat [f.toNat] [f.toNat] [bound a, bound w] [rdS x c] (rmOf x rm)
    ∧ entersM s (.mmag f a w c off rm) f.toNat [f.toNat] [f.toNat] [bound a, bound w] [rdS x c] (rmOf x rm)
    ∧ entersM s (.mman f c) f.toNat [f.toNat] (List.range (taskOf s s.cur).demand) x.b.toList
        [BitVec.ofNat 64 ((rdS x c).toNat / 64 * 64)] (rmOf x .dyn)
    ∧ entersM s (.mscale f c rm) f.toNat [f.toNat] (named f ((accOf x f.toNat).tag == .f64)) [] [rdS x c] (rmOf x rm)
    ∧ (let l := if toF32 then d.toNat :: named f true else f.toNat :: named d true
       entersM s (.mcvt d f toF32 rm) d.toNat l l [] [] (rmOf x rm))

/-- What an X command finds where it enters its core's queue (R356, R392). -/
def Sys2Proof.Claims.xOpen (s : State) : Prop :=
  let q := (engOf s (coreOf s.cur)).x
  descPending s = false ∧ settled (cc s) ∧ q.length < 16 ∧ (q.filter fun k => k.ctx = s.cur).length < 8 ∧ (cc s).track.length < 32
    ∧ (∀ k ∈ q, k.id < s.tiles.next) ∧ (qst s (taskOf s s.cur).queue).interval = none

/-- An X command enters its core's queue (R151, R204, R356, R370, R418) and goes on with `and_`: the state in which it stands there
differs in nothing else. `pins`: its task is pinned (R204). -/
def Sys2Proof.Claims.entersX (s : State) (i : Instr) (pins : Bool) (cmd : XCmd) (foot : Track) (and_ : State → XCmd → State) : Prop :=
  let x := cc s
  let k := taskOf s s.cur
  xOpen s → ∃ (u : State) (deps : List Nat),
    let f := { foot with id := s.tiles.next }
    let cmd := { cmd with id := s.tiles.next, ctx := s.cur, tid := k.tid, queue := k.queue, asid := k.asid, cmdno := x.cmdno.toNat, deps := deps }
    exec i s = .next (and_ u cmd) ∧ deps = (x.track.filter (overlap f)).map Track.id
    ∧ u = { s with ctx := u.ctx, eng := u.eng, tiles := { s.tiles with next := s.tiles.next + 1 } }
    ∧ cc u = { x with cmdno := x.cmdno + 1, track := x.track ++ [f]
                      task := if pins then x.task.map fun t => { t with pinned := true } else x.task }
    ∧ (∀ c, c ≠ s.cur → ctxOf u c = ctxOf s c) ∧ (∀ n, n ≠ coreOf s.cur → engOf u n = engOf s n)
    ∧ engOf u (coreOf s.cur) = { engOf s (coreOf s.cur) with x := (engOf s (coreOf s.cur)).x ++ [cmd] }

/-- The X slot (R356 to R362, R366 to R370): each command enters its queue with the values of its registers and its footprint;
the descriptor of a copy is read as it enters, a flushing read is sent where nothing holds it, and `xcancel` ends, without an event, the
task's commands of its event that may be ended. -/
def Sys2Proof.Claims.CopyAndRouCommandsEnterTheirQueue : Prop :=
  ∀ (s : State) (a v r : SReg) (e : BitVec 3) (op : RouOp) (w : AWidth),
    let x := cc s
    let core := coreOf s.cur
    let va := (rdS x a).toNat
    let secs (va n : Nat) : List (Nat × Nat) := [(va / 32, (va + n - 1) / 32)]
    let n := match w with | .w32 => 4 | .w64 => 8
    let copy (kind : Nat) : XCmd := { id := 0, ctx := 0, tid := 0, queue := 0, asid := 0, kind := kind, a := rdS x a, ev := e.toNat }
    let desc : Track := { id := 0, readB := secs (va / 64 * 64) 64 }
    let all : Track := { id := 0, allR := true, allW := true }
    let read (u : State) (k : XCmd) : State := readDesc u core k
    let stay (u : State) (_ : XCmd) : State := u
    entersX s (.xcopy a e) false (copy 0) desc read ∧ entersX s (.xgather a e) false (copy 1) desc read
    ∧ entersX s (.xremote a e) true (copy 2) desc read ∧ entersX s (.xfill a e) false (copy 3) desc read
    ∧ entersX s (.xflushrd a e) false (copy 9) { id := 0 } (fun u _ => pumpFlush u core)
    ∧ entersX s (.rop op w a v r e) true { copy 4 with op := op, w := w, x := rdS x v, r := rdS x r, rnone := r == 0 }
        { id := 0, readB := secs va n, writeB := secs va n ++ (if r = 0 then [] else secs (rdS x r).toNat 8) } stay
    ∧ entersX s (.rcas4 a r e) true { copy 5 with x := rdS x 0, r := rdS x r } all stay
    ∧ entersX s (.renq a v r e) true { copy 6 with x := rdS x v, r := rdS x r } all stay
    ∧ entersX s (.rdeq a r e) true { copy 7 with x := rdS x 0, r := rdS x r } all stay
    ∧ entersX s (.rchase a r e) true { copy 8 with x := rdS x 0, r := rdS x r } all stay
    ∧ (∃ t, exec (.xcancel e) s = .next t ∧ t = { s with eng := t.eng } ∧ (∀ k, k ≠ core → engOf t k = engOf s k)
        ∧ engOf t core = { engOf s core with x := (engOf s core).x.map fun k =>
            if k.ctx = s.cur ∧ k.tid = (taskOf s s.cur).tid ∧ k.ev = e.toNat ∧ (k.kind < 4 ∨ k.sent = none ∧ k.got = none)
            then { k with cancel := true } else k })

/-- Commands of the matrix engine, the copy engine and the ROU: both of `MatrixCommandsEnterTheirQueue` and
`CopyAndRouCommandsEnterTheirQueue`. -/
def Obligations.EngineCommandsEnterTheirQueues : Prop :=
  Claims.MatrixCommandsEnterTheirQueue ∧ Claims.CopyAndRouCommandsEnterTheirQueue


/-! ## Tiles, vector loads and stores, mailboxes (R72, R73, R80 to R85, R89, R129, R148, R154, R342 to R355) -/

/-- A tile operand that passes the checks of R343, of no Mirage class, whose tile no opening of the context awaits. -/
def Sys2Proof.Claims.tileAt (s : State) (t : TileOp) (b : Binding) (tile : Tile) : Prop :=
  (cc s).b.toList.getD t.b.toNat none = some b ∧ dClass b.desc ≠ 2 ∧ coordsOk b.desc (tileCoords (cc s) t) = true
    ∧ tile = tileOf b.desc (asidOf s s.cur) (tileCoords (cc s) t) ∧ openingOf s s.cur tile = none

/-- The element of a line that a read of a tile gives: zero outside the tensor (R73, R345). -/
def Sys2Proof.Claims.elemOf (b : Binding) (tile : Tile) (l : TLine) (i n : Nat) : Nat :=
  let w := fmtBits (dTfmt b.desc)
  if i < min (dTR b.desc) (dSize b.desc 1 - tile.co.getD 0 0 * dTR b.desc)
      ∧ n < min (dTC b.desc) (dSize b.desc 0 - tile.co.getD 1 0 * dTC b.desc)
  then laneOf w n (SMap.getD l.rows i 0) else 0

/-- `tld`, `tcol` and `tst` on a line that the context holds open (R129, R343 to R346, R352): a row or a column is in flight with
bound 6; a stored row is in the line at once, and nothing else of the machine changes; without an open line `tst` does nothing
but leave its entry in the trace. A tile operand that fails a check of R343 traps, once every result has arrived. -/
def Obligations.OpenTilesAreReadAndWritten : Prop :=
  ∀ (s : State) (r : GReg) (t : TileOp) (row : BitVec 8) (b : Binding) (tile : Tile) (l : TLine),
    let x := cc s
    let d := b.desc
    let w := fmtBits (dTfmt d)
    let core := coreOf s.cur
    let here : Prop := allHere x = true
    (tileAt s t b tile → openOf s s.cur tile = some l → l.st = .open_ → mWrites s s.cur tile = false → dRB d ≤ 256 →
      (row.toNat < dTR d → ∃ v, exec (.tld r t row) s = .next (emit s (dstG x r) v 0 6)
        ∧ (∀ n, n < dTC d → laneOf w n v = elemOf b tile l row.toNat n) ∧ ∀ p, dTC d * w ≤ p → v.getLsbD p = false)
      ∧ (row.toNat < dTC d → w ≠ 4 → dTR d * w ≤ 2048 → ∃ v, exec (.tcol r t row) s = .next (emit s (dstG x r) v 0 6)
        ∧ (∀ i, i < dTR d → laneOf w i v = elemOf b tile l i row.toNat) ∧ ∀ p, dTR d * w ≤ p → v.getLsbD p = false)
      ∧ (row.toNat < dTR d → mReads s s.cur l.id = false → (l.rows.map Prod.fst).Pairwise (· < ·) →
        ∃ t1 rows, exec (.tst r t row) s = .next t1 ∧ openOf t1 s.cur tile = some { l with rows := rows }
          ∧ t1 = { s with tiles := { s.tiles with ctc := t1.tiles.ctc } } ∧ (∀ k, k ≠ core → ctcOf t1 k = ctcOf s k)
          ∧ (∀ l', l' ∈ ctcOf s core → l'.id ≠ l.id → l' ∈ ctcOf t1 core)
          ∧ ∀ j, SMap.getD rows j 0 =
              if j = row.toNat then BitVec.ofNat 2048 ((rdG x r).toNat % 2 ^ (8 * dRB d)) else SMap.getD l.rows j 0))
    ∧ (tileAt s t b tile → openOf s s.cur tile = none → row.toNat < dTR d →
        exec (.tst r t row) s = .next (trRec s s.cur 8 x.pc.toNat (Instr_op (.tst r t row))))
    ∧ (tileAt s t b tile → openOf s s.cur tile = some l → l.st = .openPoisoned → mWrites s s.cur tile = false → row.toNat < dTR d →
        here →
        exec (.tld r t row) s = .next (takeTrap s s.cur 24 0 1 (some 4)) ∧ exec (.tst r t row) s = .next (takeTrap s s.cur 24 0 2 (some 5)))
    ∧ (x.b.toList.getD t.b.toNat none = none → here → exec (.tld r t row) s = .next (takeTrap s s.cur 17 0 0 (some 4))
        ∧ exec (.tst r t row) s = .next (takeTrap s s.cur 17 0 0 (some 5)))
    ∧ (x.b.toList.getD t.b.toNat none = some b → dClass d = 2 → here → exec (.tld r t row) s = .next (takeTrap s s.cur 19 0 0 (some 4))
        ∧ exec (.tst r t row) s = .next (takeTrap s s.cur 19 0 0 (some 5)))
    ∧ (x.b.toList.getD t.b.toNat none = some b → dClass d ≠ 2 → coordsOk d (tileCoords x t) = false → here →
        exec (.tld r t row) s = .next (takeTrap s s.cur 20 0 0 (some 4))
        ∧ exec (.tst r t row) s = .next (takeTrap s s.cur 20 0 0 (some 5)))

/-- `tacq`, `tdrop` and `thint` (R84, R85, R89, R148, R347 to R349): an acquisition pins its line, once more where the context pins it
already, and is an acquire at the tensor's scope; a drop discards the open line, or lowers the pin; a hint sets the class. Beyond
64 tiles or 224 segments an acquisition traps. -/
def Obligations.TilesArePinnedDroppedAndHinted : Prop :=
  ∀ (s : State) (t : TileOp) (b : Binding) (tile : Tile) (l : TLine) (h : BitVec 2),
    let core := coreOf s.cur
    let u := b.ver.toNat
    let k := if dDomain b.desc then 5 else 4
    let use := pinUse s s.cur
    let new : Prop := pinnedOf s s.cur tile u = none ∧ (newestOf (ctcOf s core) tile u = some l)
    let room : Prop := use.1 < 64 ∧ use.2 + dSegs b.desc ≤ 224
    tileAt s t b tile →
    ((ctcLine s core l.id = some l → pinnedOf s s.cur tile u = some l ∨ new ∧ room → ∃ s1 l', 
        exec (.tacq t) s = .next (upd (acquireAt s1 core k) fun x => { x with fetch := [], ahead := [] })
        ∧ s1 = { s with ctx := s1.ctx, tiles := { s.tiles with ctc := s1.tiles.ctc } }
        ∧ cc s1 = { cc s with pins := (cc s1).pins } ∧ (∀ c, c ≠ s.cur → ctxOf s1 c = ctxOf s c)
        ∧ ctcLine s1 core l.id = some l' ∧ l'.pins = l.pins + 1 ∧ l'.rows = l.rows ∧ l'.ver = l.ver ∧ l'.st = l.st
        ∧ ((cc s).pins.any (fun p => p.1 = l.id) = false → (cc s1).pins = (cc s).pins ++ [(l.id, 1)])
        ∧ ((cc s).pins.any (fun p => p.1 = l.id) = true →
            (cc s1).pins = (cc s).pins.map fun p => if p.1 = l.id then (l.id, p.2 + 1) else p))
      ∧ (new → ¬ room → allHere (cc s) = true → exec (.tacq t) s = .next (takeTrap s s.cur 22 0 0 (some 4))))
    ∧ (openOf s s.cur tile = some l → mWrites s s.cur tile = false → l.home = s.pkg → ∃ t1, exec (.tdrop t) s = .next t1
        ∧ t1 = { s with tiles := t1.tiles, pending := s.pending ++ [⟨none, .oasisDiscard l.tile s.pkg l.ctx⟩] }
        ∧ ctcOf t1 core = (ctcOf s core).filter (fun x => x.id != l.id) ∧ ∀ n, n ≠ core → ctcOf t1 n = ctcOf s n)
    ∧ (openOf s s.cur tile = none → (cc s).pins = [] → exec (.tdrop t) s = .next (trRec s s.cur 8 (cc s).pc.toNat (Instr_op (.tdrop t))))
    ∧ (∀ n, openOf s s.cur tile = none → ctcLine s core l.id = some l → l.tile = tile → (cc s).pins = [(l.id, n)] →
        ∃ t1 l', exec (.tdrop t) s = .next t1 ∧ (cc t1).pins = (if n ≤ 1 then [] else [(l.id, n - 1)])
        ∧ ctcLine t1 core l.id = some l' ∧ l'.pins = l.pins - 1 ∧ l'.rows = l.rows)
    ∧ ((openOf s s.cur tile = some l ∨ openOf s s.cur tile = none ∧ newestOf (ctcOf s core) tile u = some l) →
        let last (y : TLine) : TLine := if y.pins = 0 then { y with cls := 2, goLast := false } else { y with goLast := true }
        let s1 := updLine s core l.id fun y =>
          if h = 0 then { y with cls := 0, goLast := false } else if h = 1 then { y with cls := 1, goLast := false }
          else if h = 2 then last y
          else if y.st = .open_ ∨ y.st = .openPoisoned then { y with stream := true } else last y
        exec (.thint t h) s = .next (setCtc s1 core (capReuse (ctcOf s1 core) (ctcOf s1 core).length)))
    ∧ (openOf s s.cur tile = none → newestOf (ctcOf s core) tile u = none → exec (.thint t h) s = .next s)

/-- `twopen` and `tpost` (R82, R83, R148, R351, R353): an opening is requested and does not block; one that is open already changes
nothing; a Mirage tile, a coordinate out of range, a class that may not be written and a seventeenth opening trap. A post performs the
release of its tensor's scope and leaves the line to be recorded at its home. -/
def Obligations.TilesAreOpenedAndPosted : Prop :=
  ∀ (s : State) (t : TileOp) (zero wb : Bool) (b : Binding) (tile : Tile) (l : TLine),
    let x := cc s
    let core := coreOf s.cur
    let d := b.desc
    let use := pinUse s s.cur
    let opens := (openLines s s.cur).length
      + (s.tiles.fills.filter fun f => f.ctx = s.cur && f.tid = (taskOf s s.cur).tid && f.open_.isSome).length
    let room : Prop := opens < 16 ∧ use.1 < 64 ∧ use.2 + dSegs d ≤ 224
    let here : Prop := allHere x = true
    (tileAt s t b tile → openFaults d = false → openOf s s.cur tile = none → room → ∃ t1 f, exec (.twopen t zero) s = .next t1
        ∧ t1 = { s with tiles := t1.tiles } ∧ t1.tiles.fills = s.tiles.fills ++ [f] ∧ f.tile = tile ∧ f.b = b ∧ f.open_ = some zero
        ∧ f.ctx = s.cur ∧ f.core = core ∧ f.tid = (taskOf s s.cur).tid ∧ f.id = s.tiles.next ∧ (f.st = .alloc ∨ f.st = .request))
    ∧ (tileAt s t b tile → openFaults d = false → openOf s s.cur tile = none → ¬ room → here →
        exec (.twopen t zero) s = .next (takeTrap s s.cur 22 0 0 (some 5)))
    ∧ (tileAt s t b tile → openFaults d = false → openOf s s.cur tile = some l →
        exec (.twopen t zero) s = .next (trRec s s.cur 8 x.pc.toNat (Instr_op (.twopen t zero))))
    ∧ (x.b.toList.getD t.b.toNat none = some b → dClass d = 2 → here → exec (.twopen t zero) s = .next (takeTrap s s.cur 11 0 0 (some 5)))
    ∧ (x.b.toList.getD t.b.toNat none = some b → dClass d ≠ 2 → coordsOk d (tileCoords x t) = true →
        (dClass d = 3 ∨ dClass d = 1 ∧ dTfmt d ≠ dMfmt d) → here → exec (.twopen t zero) s = .next (takeTrap s s.cur 21 0 0 (some 5)))
    ∧ (tileAt s t b tile → openOf s s.cur tile = some l → l.st = .open_ → mWrites s s.cur tile = false → dDomain d = false →
        releases s 4 → tileVisible (released s 4) s.cur d tile.co = false →
        exec (.tpost t wb) s = .next (updLine (released s 4) core l.id fun y => { y with st := .posting, wb := wb }))
    ∧ (tileAt s t b tile → openOf s s.cur tile = some l → l.st = .openPoisoned → here →
        exec (.tpost t wb) s = .next (takeTrap s s.cur 24 0 0 (some 5)))
    ∧ (tileAt s t b tile → openOf s s.cur tile = none →
        exec (.tpost t wb) s = .next (trRec s s.cur 8 x.pc.toNat (Instr_op (.tpost t wb))))

/-- Bindings and vector accesses (R72, R91, R131, R342, R350, R354), with the bytes that a descriptor's read gives or the state that a store
leaves given: a descriptor read whole, its reserved bits 0, becomes the binding after the bundle, a malformed one traps; a vector load is in flight with its pieces, one a
sector, and lands their bytes, with zeros in what it does not read; a mask of `tstm` suppresses eight bytes a bit; an itinerary
starts at its address, and s0 ends it. -/
def Sys2Proof.Claims.BindingsAndVectorAccesses : Prop :=
  ∀ (s s1 : State) (f : BitVec 5) (d v a m : SReg) (g : GReg) (mo : MemOp) (size : LdSize) (bs : List Byte) (b : Binding) (i : SReg)
    (pa cp : Nat),
    let x := cc s
    let va := rdS x d &&& ~~~0x3F#64
    let desc : BitVec 512 := BitVec.ofNat 512 (ofLe bs)
    let n := match size with | .b256 => 256 | .b128 => 128 | .b64 => 64 | .b32 => 32
    let ma := rdS x mo.a + BitVec.ofInt 64 (mo.aux.toInt * 2 ^ 12 + mo.imm.toInt)
    let parts := loadParts s { off := 0, va := ma, pkg := s.pkg, pa := pa, cp := cp, len := n }
    let masked : List (Option Byte) := (List.range 256).map fun k =>
      if (rdS x m).toNat / 2 ^ (k / 8) % 2 = 1 then none else some (BitVec.ofNat 8 ((rdG x g).toNat / 2 ^ (8 * k)))
    (loadClean va 64 s = (.ok bs, s1) → bs.length = 64 → ofLe bs / 2 ^ 56 % 2 ^ 8 = 0 →
      (dBad desc = none → exec (.tbind f d v) s =
        .next (upd s1 fun y => { y with late := y.late ++ [.bind f { desc := desc, va := va, ver := (rdS x v).setWidth 16 }] }))
      ∧ (∀ sub, dBad desc = some sub → allHere (cc s1) = true → exec (.tbind f d v) s = .next (takeTrap s1 s1.cur sub 0 0 (some 4))))
    ∧ (∀ (y : Ctx) k, (applyLate y (.bind f b)).b.toList.getD k none = if k = f.toNat then some b else y.b.toList.getD k none)
    ∧ (x.b.toList.getD f.toNat none = some b → dClass b.desc ≠ 2 → exec (.titin f i) s = .next (upd s fun y =>
        { y with itin := if i = 0 then none else some (b, (rdS x i).toNat / 16 * 16, 65536) }))
    ∧ (mapped s ma .read pa cp → ma.toNat % 65536 + n ≤ 65536 → pa + n ≤ 0x00C000000000 → tagsFull s (coreOf s.cur) parts = false →
        (∃ t, exec (.tldm g mo size) s = .next t
          ∧ (cc t).flights = x.flights ++ [{ dst := dstG x g, pos := x.pos, bound := 7, parts := parts }]
          ∧ (∀ c, c ≠ s.cur → ctxOf t c = ctxOf s c) ∧ t = { s with ctx := t.ctx, dev := t.dev, trace := t.trace, free := t.free })
        ∧ (∀ p ∈ parts, p.pa = pa + p.off ∧ p.pkg = s.pkg ∧ p.cp = cp ∧ p.got = none ∧ p.pa % 32 + p.len ≤ 32)
        ∧ (parts.map LoadPart.len).sum = n)
    ∧ (∀ e : Flight, e.ext = none → e.parts ≠ [] → Flight_val e = BitVec.ofNat 2048
        ((e.parts.map fun p => match p.got with | some (b, _) => ofLe b * 2 ^ (8 * p.off) | none => 0).sum))
    ∧ (storeMem (rdS x a) masked s = (.ok (), s1) → exec (.tstm g a m) s = .next (trMem s1 s1.cur 5 (rdS x a).toNat 8))

/-- Mailboxes (R12, R129, R154, R355): a load is in flight as one sample of 256 bytes, due 3 clocks after its issue, and takes what has
landed by then, of the core's own mailbox; a store lands 7 clocks after its issue in the same cluster and up to 64 in another (which
clock is left open), after the context's earlier writes there; a multicast lands after 7; writes land in the order of clocks and
source cores; an address that is no place of a mailbox, or an offset that is misaligned or too high, traps with NOMAP `badphys`. -/
def Sys2Proof.Claims.MailboxesAreReadAndWritten : Prop :=
  (∀ (s : State) (g : GReg) (m : MemOp) (pa cp : Nat),
    let x := cc s
    let core := coreOf s.cur
    let va := rdS x m.a + BitVec.ofInt 64 (m.aux.toInt * 2 ^ 12 + m.imm.toInt)
    let there : Prop := 0xF00000000000 ≤ pa ∧ pa < 0xF00000C00000 ∧ pa % 32 = 0 ∧ pa % 0x10000 + 256 ≤ 0x4000
    let owner := (pa - 0xF00000000000) / 0x10000
    let item (land at_ : Nat) (cast : Bool) : MboxW :=
      { land := land, core := core, ctx := s.cur, pa := at_, data := (leBytes (rdG x g).toNat 256).map some, cast := cast, pos := x.pos }
    let load : Flight := { dst := dstG x g, pos := x.pos, bound := 7
                           parts := [{ off := 0, va := va, pkg := s.pkg, pa := pa, cp := 2, len := 256, due := s.clk + 3 }] }
    let last := mboxLast s s.cur owner
    (mapped s va .read pa cp → there → (∀ w ∈ s.mboxW, w.ctx ≠ s.cur) → ∃ t, exec (.mbld g m) s = .next t
      ∧ (cc t).flights = x.flights ++ [load] ∧ (∀ c, c ≠ s.cur → ctxOf t c = ctxOf s c)
      ∧ t = { s with ctx := t.ctx, dev := t.dev, trace := t.trace, free := t.free })
    ∧ (mapped s va .write pa cp → there → ∃ z f, z < 58 ∧ (owner / 8 = core / 8 → z = 0)
      ∧ exec (.mbst g m) s = .next { s with mboxW := mboxInsert (item (max (s.clk + 7 + z) last) pa false) s.mboxW, free := f })
    ∧ (va.toNat % 32 = 0 → va.toNat ≤ 16128 →
      exec (.mbcast g m) s = .next { s with mboxW := mboxInsert (item (s.clk + 7) va.toNat true) s.mboxW })
    ∧ (allHere x = true →
      (va.toNat % 32 ≠ 0 ∨ 16128 < va.toNat → exec (.mbcast g m) s = .next (takeTrap s s.cur 4 va 2 (some 5)))
      ∧ (mapped s va .read pa cp → ¬ there → exec (.mbld g m) s = .next (takeTrap s s.cur 4 va 1 (some 4)))
      ∧ (mapped s va .write pa cp → ¬ there → exec (.mbst g m) s = .next (takeTrap s s.cur 4 va 2 (some 5)))))
  ∧ (∀ (u : State) (c k : Nat) (f : Flight) (p : LoadPart),
    (ctxOf u c).flights[k]? = some f → f.parts = [p] → f.acq = none → f.poison = none → p.ask = none → p.got = none → p.eseq = none →
    p.pkg = u.pkg → isMbox p.pa = true → turnOfPart u c k p = true → (p.due ≤ u.clk → (∀ w ∈ u.mboxW, p.due < w.land ∧ u.clk < w.land) →
      (ctxOf (samplePart u c k 0) c).flights =
        (ctxOf u c).flights.set k { f with parts := [{ p with got := some (Memory.bytes u.mbox p.pa p.len, false) }] })
    ∧ (u.clk < p.due → samplePart u c k 0 = u))

/-- Bindings, vector accesses and mailboxes: both of `BindingsAndVectorAccesses` and `MailboxesAreReadAndWritten`. -/
def Obligations.BindingsVectorAccessesAndMailboxes : Prop :=
  Claims.BindingsAndVectorAccesses ∧ Claims.MailboxesAreReadAndWritten


/-! ## The Y slot (R194 to R203, R221, R372 to R394) -/

/-- `spawn` and `spawnr` (R192 to R197, R373), where Caravan reads the child's descriptor without a fault: after a package release the child
has the lower of the two priorities, its parent's handle, and a future of the parent's die, whose handle is in flight with
bound 8; the child is ready, or the indices of a range stand in a counter, or a range of none is ready at once. A task that is
placed starts at its entry with its arguments (R194). A malformed descriptor traps. -/
def Sys2Proof.Claims.SpawnsMakeTasksAndFutures : Prop :=
  ∀ (s s1 s2 : State) (d a n : SReg) (c : Task) (h : BitVec 32),
    let s0 := released s 4
    let k := taskOf s0 s0.cur
    let va := rdS (cc s) a &&& ~~~0x3F#64
    let count := (rdS (cc s) n).toNat % 2 ^ 32
    let child := { c with prio := min c.prio (qPrio s1 k.queue), parent := k.own, homeDie := dieOf s1.cur, homeCl := clusterOf s1.cur, own := h }
    let fut (st : FState) (left : Nat) : Future :=
      { st := st, left := left, count := 1, pcount := 1, creator := (taskOf s1 s1.cur).tid, queue := (taskOf s1 s1.cur).queue }
    let u := emitS s2 d (h.setWidth 64) 8
    let u1 : State := { u with car := { u.car with tid := u.car.tid + 1, seq := u.car.seq + 1 } }
    let u2 : State := { u with car := { u.car with seq := u.car.seq + 1 } }
    let range : RangeC := ⟨{ child with ranged := true, seq := u.car.seq + 1 }, hKey h, 0, count⟩
    let reads (r : TaskR) : Prop := readTask s0 (dieOf s0.cur) k.queue va = (r, s1)
    let gives (f : Future) : Prop := allocFut s1 (dieOf s1.cur) false f = some (h, s2)
    (loopReg (cc s) d = true → allHere (cc s) = true → exec (.spawn d a) s = .next (takeTrap s s.cur 51 0 0 (some 7)))
    ∧ (loopReg (cc s) d = false → releases s 4 → allHere (cc s1) = true →
      (reads (.ok c) → gives (fut .running 1) → exec (.spawn d a) s =
          .next (becomeReady u1 { child with tid := u.car.tid + 1, seq := u.car.seq + 1 } (some (coreOf u1.cur))))
      ∧ (reads (.ok c) → 0 < count → s1.car.range.length < 4096 → gives (fut .running count) → exec (.spawnr d a n) s =
          .next { u2 with car := { u2.car with range := SMap.set u2.car.range (hKey h) range } })
      ∧ (reads (.ok c) → count = 0 → gives (fut .ready 0) → exec (.spawnr d a n) s = .next u)
      ∧ (reads .bad → exec (.spawn d a) s = .next (takeTrap s1 s1.cur 42 0 0 (some 7))
          ∧ exec (.spawnr d a n) s = .next (takeTrap s1 s1.cur 42 0 0 (some 7)))
      ∧ (∀ sub v, reads (.fault sub v) → exec (.spawn d a) s = .next (takeTrap s1 s1.cur sub (BitVec.ofNat 64 v) 1 (some 7))))
    ∧ (∀ core ctx l, freeCtx s core = some ctx → takeAcc s core c.demand = some l → c.root = none → ∃ y, 
        placeOn s c core = setCtx s ctx y ∧ y.task = some c ∧ y.pc = c.entry ∧ y.phys = l ∧ y.placed = s.clk ∧ y.p = 0 ∧ y.flights = []
        ∧ y.fctl = 0 ∧ y.fflags = 0 ∧ y.loop = {} ∧ y.ev = Vector.replicate 8 0 ∧ y.latch = false
        ∧ ∀ r, r < 64 → y.s.toList.getD r 0 = if r = 1 then c.arg else if r = 2 then (if c.ranged then BitVec.ofNat 64 c.idx else 0)
            else if r = 3 then c.own.setWidth 64 else if r = 62 then c.stack else 0)

/-- Futures (R199 to R203, R374, R375): a get of a ready future puts its result in flight with bound 8 and is an acquire; a
duplicate and a drop change the counts, the creator's own too unless the reference is handed off; a ready future whose last reference is dropped is
freed; a null or stale handle, the task's own future and a count that would overflow or belongs to the part trap. -/
def Sys2Proof.Claims.FuturesAreReadAndCounted : Prop :=
  ∀ (s : State) (d r : SReg) (handOff : Bool) (f : Future),
    let x := cc s
    let core := coreOf s.cur
    let h : BitVec 32 := (rdS x r).setWidth 32
    let me := taskOf s s.cur
    let mine : Nat := if f.creator ≠ 0 ∧ f.creator = me.tid then 1 else 0
    let trap (sub : Nat) : State := takeTrap s s.cur sub 0 0 (some 7)
    let there : Prop := getFut s h = some f ∧ 0 < f.count
    ((getFut s h = none ∨ getFut s h = some f ∧ f.count = 0) → allHere x = true →
      (loopReg x d = false → exec (.fget d r) s = .next (trap 40)) ∧ exec (.fdup r handOff) s = .next (trap 40)
        ∧ exec (.fdrop r) s = .next (trap 40))
    ∧ (there → loopReg x d = false →
      (h = me.own → allHere x = true → exec (.fget d r) s = .next (trap 43))
      ∧ (h ≠ me.own → f.st ≠ .ready → exec (.fget d r) s = .next (upd s fun x => { x with block := true }))
      ∧ (h ≠ me.own → f.st = .ready → exec (.fget d r) s =
          .next (upd (acquireAt (emitS s d f.result 8) core 4) fun x => { x with fetch := [], ahead := [] })))
    ∧ (there → (f.count < 65535 → exec (.fdup r handOff) s = .next (setFut s (hKey h)
          { f with count := f.count + 1, pcount := f.pcount + if handOff then 0 else mine }))
      ∧ (65535 ≤ f.count → allHere x = true → exec (.fdup r handOff) s = .next (trap 41)))
    ∧ (there → (f.held = true → f.count = 1 → allHere x = true → exec (.fdrop r) s = .next (trap 41))
      ∧ (2 ≤ f.count → exec (.fdrop r) s = .next (setFut s (hKey h)
          { f with count := f.count - 1, pcount := if 0 < f.pcount then f.pcount - mine else f.pcount }))
      ∧ (f.count = 1 → f.held = false → f.st = .ready → ∃ t, exec (.fdrop r) s = .next t ∧ getFut t h = none
          ∧ (futAt t (hKey h)).gen = f.gen + 1 ∧ t = { s with car := { s.car with fut := t.car.fut } }))

/-- The end of a task, pins and yields (R202, R204, R221, R377 to R379, R401, R412): a `tend` gives the task its end, whose result is
what its register holds; at the context's next turn the results land, and once its commands have completed and its release at
package scope is performed the task ends: its context is free, and a future with one task behind it is ready with the result
added; a pinned task stays so; a yield lets others issue first, and the save begins where a waiting task would take the context. -/
def Sys2Proof.Claims.TasksEndPinAndYield : Prop :=
  ∀ (s : State) (v : SReg) (h : BitVec 32) (f : Future) (w : Word),
    let x := cc s
    let u := upd s fun x => { x with readyAt := some s.clk, yielded := true }
    let s1 := drainAll (sampleAll s s.cur) s.cur
    let s2 := upd s1 landAll
    exec (.tend v) s = .next (upd s fun x => { x with ending := some (rdS x v) })
    ∧ (∀ (c : Nat) (p s0 t : State), pick p = (some (.issue c), s0) → (cc (turned s0 c)).trap = none →
        overdue (cc (turned s0 c)) = false → (∀ f ∈ (cc (turned s0 c)).flights, f.poison = none) → (cc (turned s0 c)).ending = some w →
        run 7 (endM w) (turned s0 c) = .next t → step p = .next (tick (issued t c (taskOf s0 c).tid)))
    ∧ (allHere x = true → (∀ g ∈ x.flights, g.poison = none) → x.stq = [] → noneOut s s.cur →
        (commandsLeft s1 s.cur = true → run 7 (endM w) s = .next (upd s1 fun x => { x with block := true }))
        ∧ (commandsLeft s1 s.cur = false → (taskOf s s.cur).root = none → releases s2 4 → ∃ t, run 7 (endM w) s = .next t
            ∧ t = endTask (released s2 4) s.cur w ∧ ((taskOf s s.cur).handler = none → (ctxOf t s.cur).task = none)))
    ∧ (getFut s h = some f → f.st = .running → f.left = 1 → 0 < f.count →
        getFut (futEnd s h w) h = some { f with st := .ready, left := 0, result := f.result + w })
    ∧ exec .fpin s = .next (upd s fun x => { x with task := x.task.map fun t => { t with pinned := true } })
    ∧ (yieldTo u s.cur = false → exec .yield s = .next u)
    ∧ (yieldTo u s.cur = true → s.car.saving.any (fun z => z.ctx = s.cur) = false → x.ending = none → exec .yield s =
        .next (upd { u with car := { u.car with saving := u.car.saving ++ [⟨s.cur, s.clk⟩] } } fun y => { y with wfi := y.wfi.map fun _ => [] }))

/-- Event counters, latches and barriers (R380 to R385): a wait ends when the counter has reached its threshold modulo 2^32; an
increment adds; `sev` sets a latch later, and one of no context is only traced; `wfe` takes the latch; a barrier releases, counts
its arrival, waits for the last one, which begins the next episode, and acquires. -/
def Sys2Proof.Claims.EventsLatchesAndBarriers : Prop :=
  ∀ (s : State) (e n : BitVec 3) (r : SReg) (i : BitVec 6),
    let x := cc s
    let blocked (s : State) : State := upd s fun x => { x with block := true }
    let ev (y : Ctx) (k : Nat) : BitVec 32 := y.ev.toList.getD k 0
    let ctx := (rdS x r).toNat % 1024
    let cl := clusterOf s.cur
    let b := barOf s cl n.toNat
    let s0 := released s 2
    let arrived (b' : Bar) : State := upd (setBar s0 cl n.toNat b') fun x => { x with bar := some (n.toNat, b.gen.toNat) }
    let passed (u : State) : State :=
      upd (acquireAt (upd u fun x => { x with bar := none }) (coreOf u.cur) 2) fun x => { x with fetch := [], ahead := [] }
    ((ev x e.toNat - (rdS x r).setWidth 32).toNat < 2 ^ 31 → exec (.evwait e r) s = .next s)
    ∧ (2 ^ 31 ≤ (ev x e.toNat - (rdS x r).setWidth 32).toNat → exec (.evwait e r) s = .next (blocked s))
    ∧ (∃ y, exec (.evinc e i) s = .next (upd s fun x => { x with ev := y })
        ∧ ∀ k, k < 8 → y.toList.getD k 0 = if k = e.toNat then ev x k + BitVec.ofNat 32 i.toNat else ev x k)
    ∧ (ctx < 768 → exec (.sev r) s = .next { s with pending := s.pending ++ [⟨none, .latchSet ctx⟩] })
    ∧ (768 ≤ ctx → exec (.sev r) s = .next (trRec s s.cur 9 x.pc.toNat 0))
    ∧ (x.latch = true → exec .wfe s = .next (upd s fun x => { x with latch := false }))
    ∧ (x.latch = false → exec .wfe s = .next (blocked s))
    ∧ (x.bar = none → b.count = 0 → releases s 2 → exec (.bar n) s = .next (passed s0))
    ∧ (x.bar = none → 0 < b.count → b.count ≤ b.arrived + 1 → releases s 2 → exec (.bar n) s =
        .next (passed (arrived { b with arrived := 0, gen := b.gen + 1, count := b.next })))
    ∧ (x.bar = none → b.arrived + 1 < b.count → releases s 2 → exec (.bar n) s = .next (blocked (arrived { b with arrived := b.arrived + 1 })))
    ∧ (∀ k g, x.bar = some (k, g) → b.gen.toNat = g → exec (.bar n) s = .next (blocked s))
    ∧ (∀ k g, x.bar = some (k, g) → b.gen.toNat ≠ g → exec (.bar n) s = .next (passed s))

/-- Sync variables, sequenced commands, checkpoints and triggers (R144, R186, R386 to R393): `svreg` answers 0 to 4 as R386 says and
registers or removes the sector; a sequenced command leaves with its payload for its group's switch; a join goes on when the
switch has answered; `ckpt` waits for the end of its interval; a trigger fires where it is armed. -/
def Obligations.SyncVariablesAndSequencedCommands : Prop :=
  ∀ (s s1 : State) (d g r : SReg) (len : BitVec 6) (log : Bool) (op : SmOp) (fmt : SmFmt) (c : BitVec 3) (trg : BitVec 6) (pa cp : Nat) (bs : List Byte),
    let x := cc s
    let va := rdS x r
    let die := pa / 2 ^ 36 % 16 / 3
    let l := SMap.getD s.svt die []
    let known : Bool := l.any fun e => e.sector = pa / 32
    let grp := (rdS x g).toNat / 2 ^ 32 % 2 ^ 12
    let off := (rdS x g).toNat % 2 ^ 20
    let inside : Prop := (qst s (taskOf s s.cur).queue).interval = none
    let sends (i : Instr) (kind : SmKind) : Prop := ∃ (t : State) (q : SCmd), exec i s = .next t
      ∧ q = { id := s1.tiles.next, ctx := s1.cur, tid := q.tid, queue := q.queue, ev := c.toNat, cmdno := (cc s1).cmdno.toNat, va := va
              msg := { grp := grp, pkg := s1.pkg, ctx := s1.cur, cmd := s1.tiles.next, kind := kind, data := bs } }
      ∧ q.tid = (taskOf s1 s1.cur).tid ∧ q.queue = (taskOf s1 s1.cur).queue
      ∧ engOf t (coreOf s1.cur) = { engOf s1 (coreOf s1.cur) with sq := (engOf s1 (coreOf s1.cur)).sq ++ [q] }
      ∧ t.pending = s1.pending ++ [⟨none, .switchSequence q.msg⟩]
      ∧ t = { s1 with ctx := t.ctx, eng := t.eng, tiles := { s1.tiles with next := s1.tiles.next + 1 }, pending := t.pending }
      ∧ ctxOf t s1.cur = { cc s1 with cmdno := (cc s1).cmdno + 1, task := (cc s1).task.map fun t => { t with pinned := true } }
    (loopReg x d = false → mapped s va .read pa cp → pa < 0x00C000000000 →
      (known = true → exec (.svreg d r false) s = .next (emitS s d 1 8))
      ∧ (known = false → 4096 ≤ l.length → exec (.svreg d r false) s = .next (emitS s d 2 8))
      ∧ (known = false → l.length < 4096 → exec (.svreg d r false) s =
          .next (emitS { s with svt := SMap.set s.svt die (l ++ [{ sector := pa / 32, asid := asidOf s s.cur }]) } d 0 8))
      ∧ (known = true → exec (.svreg d r true) s =
          .next (emitS { s with svt := SMap.set s.svt die (l.filter fun e => e.sector != pa / 32) } d 3 8))
      ∧ (known = false → exec (.svreg d r true) s = .next (emitS s d 4 8)))
    ∧ (inside → loadClean va (8 * len.toNat) s = (.ok bs, s1) →
        sends (.smst g r len log c) (if log then .log else .dir off) ∧ sends (.smred g r len op fmt c) (.red op fmt off))
    ∧ (inside → loopReg x d = false → ∀ q b p1 p2, (x.remote.find? fun z => z.kind = 16 && z.pkg = (rdS x g).toNat % 2 ^ 12
          && z.addr = va.toNat) = some q → q.reply = some (b, p1, p2) →
        exec (.smjoin d g r) s = .next (emitS (upd s fun y => { y with task := y.task.map fun t => { t with pinned := true } }) d
          (BitVec.ofNat 64 (ofLe b)) 8))
    ∧ (inside → exec .ckpt s = .next s)
    ∧ (∀ n, (qst s (taskOf s s.cur).queue).interval = some n → x.out = true → (qst s (taskOf s s.cur).queue).ckptReq = false →
        exec .ckpt s = .next s)
    ∧ exec (.trig trg) s = .next (trFire (trRec s s.cur 10 x.pc.toNat trg.toNat) (coreOf s.cur) trg.toNat)

/-- Spawns and futures: both of `SpawnsMakeTasksAndFutures` and `FuturesAreReadAndCounted`. -/
def Obligations.SpawnsAndFutures : Prop :=
  Claims.SpawnsMakeTasksAndFutures ∧ Claims.FuturesAreReadAndCounted

/-- Ends of tasks, events, latches and barriers: both of `TasksEndPinAndYield` and `EventsLatchesAndBarriers`. -/
def Obligations.TaskEndsEventsAndBarriers : Prop :=
  Claims.TasksEndPinAndYield ∧ Claims.EventsLatchesAndBarriers


/-! ## Steps of the part that no word encodes (95) -/

/-- Results, contexts, translation and paging (R18, R21 to R23, R27, R28, R35, R36, R207, R213, R294): a result lands early; a core
turns to another context, and the results at hand of the one it leaves land; a walk installs its entry, and an invalidation removes
what it matches from every cache, and, once every access translated before has been performed, releases the accesses parked there and
tells its requester; a sweep starts the next period, and clears the access bit of a leaf it finds touched; a migration goes through its
phases, and gives its page back when it is too late or its entry was written meanwhile, in an address space whose undo log is not
kept. -/
def Sys2Proof.Claims.ExecutionAndPagingSteps : Prop :=
  ∀ (s : State) (c idx i pte lvl at_ : Nat) (f : Flight) (v : Inval) (m : Mig) (ag : Agent) (asid : Nat) (va w e : Word) (acc : Acc4)
    (s1 : State),
    let moved (t : State) (f : Mig → Mig) : Prop := migOf t pte = some (f m)
    let resident : Word := (m.old &&& ~~~0x7#64) ||| 7
    ((ctxOf s c).flights[idx]? = some f → f.poison = none → Flight_here f = true →
      does (.resultLands c idx) s (updCtx (given s (.resultLands c idx)) c fun x =>
        { landOne x f with flights := x.flights.eraseIdx idx }))
    ∧ (let g := given s (.contextSwitch c)
       let to_ : State := { g with running := SMap.set s.running (c / 4) c }
       let own (f : Flight) : Bool := f.parts.isEmpty && mayLand f
       (SMap.get? s.running (c / 4) = none → does (.contextSwitch c) s to_)
       ∧ (SMap.get? s.running (c / 4) = some c → does (.contextSwitch c) s g)
       ∧ (∀ r, SMap.get? s.running (c / 4) = some r → r ≠ c → does (.contextSwitch c) s (updCtx to_ r fun x =>
            { (x.flights.filter own).foldl landOne x with flights := x.flights.filter fun f => !own f })))
    ∧ (va.toNat < 2 ^ 56 → isParked (given s (.tlbMissWalk ag asid va acc)) ag asid va.toNat = false →
        walk (given s (.tlbMissWalk ag asid va acc)) (Agent_die ag) asid va.toNat = (.leaf e lvl at_, s1) →
        checkLeaf s1 e lvl = none → pteKind e = 2 → checkPerm e acc = none → pteA e = true → (Acc4_writes acc = true → pteD e = true) →
        does (.tlbMissWalk ag asid va acc) s (tlbPut s1 ag ⟨asid, va.toNat / pageSize lvl * pageSize lvl, lvl, e⟩))
    ∧ (s.mmu.inval[i]? = some v → ∃ t, does (.pageInvalidationComplete i) s t
        ∧ (∀ k, ∀ x ∈ SMap.getD t.mmu.tlb k [], x.asid ≠ v.asid ∨ ∃ a, v.va = some a ∧ (a < x.page ∨ x.page + pageSize x.lvl ≤ a))
        ∧ (accessesOut s v.asid = true → t.mmu.inval = s.mmu.inval)
        ∧ (accessesOut s v.asid = false → t.mmu.inval = s.mmu.inval.eraseIdx i
          ∧ (∀ p ∈ t.mmu.parked, p.asid ≠ v.asid ∨ ∃ a, v.va = some a ∧ p.page ≠ a / 65536)
          ∧ (∀ k x, v.by_ = some k → x = ctxOf s k → ctxOf t k = { x with inval := x.inval - 1 })))
    ∧ (s.mmu.inval.any Inval.mminvc = false → w.getLsbD 62 = true → ∀ b : Writer, b ≠ .task →
      (w.getLsbD 61 = false → ∃ t, does (.mminvcPage w b) s t ∧ t.mmu.inval = s.mmu.inval ++
          [{ asid := w.toNat % 2 ^ 16, va := some ((devGet s 0xF00001520020).toNat % 2 ^ 56), mminvc := true }])
      ∧ (w.getLsbD 61 = true → ∃ t, does (.mminvcAll w b) s t ∧ t.mmu.inval = s.mmu.inval ++
          [{ asid := w.toNat % 2 ^ 16, va := none, mminvc := true }]))
    ∧ (s.mmu.sweepAt ≤ s.clk → ∃ t, does .accessBitSweep s t
        ∧ t.mmu.sweepAt = t.clk + 2 ^ min 34 (max 24 ((devGet t 0xF00001520008).toNat % 64)))
    ∧ (s.clk < s.mmu.sweepAt → does .accessBitSweep s (given s .accessBitSweep))
    ∧ (pteKind e = 2 → pteA e = true → sweepLeaf s asid va.toNat at_ e = ptePut s none at_ (e &&& ~~~0x100#64))
    ∧ (migOf s pte = some m →
      (m.phase = 1 → ∃ t, does (.migrationShootDownDone pte) s t ∧ moved t (fun m => { m with phase := 2, since := s.clk })
        ∧ ∀ k, ∀ x ∈ SMap.getD t.mmu.tlb k [], x.asid ≠ m.asid ∨ m.va < x.page ∨ x.page + pageSize x.lvl ≤ m.va)
      ∧ (m.phase = 2 → accessesOut s m.asid = true → does (.migrationDrainDone pte) s (given s (.migrationDrainDone pte)))
      ∧ (m.phase = 2 → accessesOut s m.asid = false → ∃ t, does (.migrationDrainDone pte) s t ∧ moved t (fun m => { m with phase := 3 })
        ∧ ∀ n, ∀ r ∈ (chan t n).resv, r.sector * 32 / 65536 ≠ pteFrame m.old)
      ∧ (m.phase = 3 → m.compress = true → let g := given s (.migrationCopyDone pte)
        let slot := (devGet s (dieReg m.die 0x28)).toNat / 2 ^ 15 % 2 ^ 33 * 32768 + 32768 * m.target
        (pteNow s pte ≠ resident → does (.migrationCopyDone pte) s (unparkPte (slotMark (dropMig g pte) m.die m.target true) pte))
        ∧ (pteNow s pte = resident → slot < 2 ^ 48 → logQ s m.asid = none → ∃ p : Word, pteKind p = 4 ∧ pteSlot p = slot ∧ pteA p = false ∧ pteD p = pteD m.old
            ∧ pteRd p = pteRd m.old ∧ pteW p = pteW m.old ∧ pteX p = pteX m.old
            ∧ does (.migrationCopyDone pte) s
              (poolAdd (unparkPte (ptePut (dropMig (compressTo g (pteFrame m.old) slot) pte) none pte p) pte) m.die (pteFrame m.old))))
      ∧ (m.phase = 2 → m.compress = false → m.since + 2 ^ 20 ≤ s.clk → pteNow s pte = resident → logQ s m.asid = none →
        does (.migrationAbandon pte) s (unparkPte (ptePut (dropMig (given s (.migrationAbandon pte)) pte) none pte m.old) pte))
      ∧ (s.clk < m.since + 2 ^ 20 → does (.migrationAbandon pte) s (given s (.migrationAbandon pte))))

/-- An instruction fetch (R272, R423): from a 64-byte block of HBM that the page keeps out of the caches (cp = 2), the sixteen
words of the block join the fetch buffer of the context, behind what it still holds from its position on; a translation that
faults is a fault of the bundle, with the kind of access 3. -/
def Sys2Proof.Claims.InstructionFetchReadsABlock : Prop :=
  ∀ (s s1 : State) (c a pa : Nat) (b : List Byte),
    let e := Ev.instructionFetch c
    let x := ctxOf s c
    let g := given s e
    let at_ : Word := BitVec.ofNat 64 a
    let used (t : State) : State := dropGrants t c (2 ^ 70 + a / 64) 1
    x.pc.toNat % 4 = 0 → fetchNeed x = .fetch a false →
    (translate g (.core (coreOf c)) (asidOf s c) at_ .fetch = (.ok s.pkg pa 2, g) → pa < 0x00C000000000 → bsuOn s = false →
      coreRead g (coreOf c) (pa / 64 * 64) 2 64 = (b, false, s1) →
      does e s (updCtx (used s1) c fun x =>
        let l := (x.fetch.filter fun b => x.pc.toNat / 64 ≤ b.1 && b.1 != a / 64) ++ [(a / 64, wordsOf b)]
        { x with fetch := l.drop (l.length - 4) }))
    ∧ (∀ sub, translate g (.core (coreOf c)) (asidOf s c) at_ .fetch = (.fault sub, g) → allHere x = true →
        does e s (takeTrap (used g) c sub at_ 3 none))

/-- Fills and openings (R75 to R80, R82, R84, R91): room is taken for a line when there is some; data that a request already
has become its line, valid or poisoned; data from another package are provisional; a grant opens the line at the next version
for its writer; a refused request is sent again after 1,024 clocks. -/
def Sys2Proof.Claims.FillStepsDeliverTheirTile : Prop :=
  ∀ (s s1 : State) (id : Nat) (f f' : Fill) (v : Nat) (rows : SMap Vec) (psn : Bool) (k : Packet) (m : TileMsg) (l : TLine),
    fillOf s id = some f → faulted s (.fill id) = false → f.id = id →
    (f.st = .alloc → allocLine (given s (.fillAllocationResume id)) f = some (f', s1) → does (.fillAllocationResume id) s (putFill s1 f'))
    ∧ (f.st = .data v rows psn → f.open_ = none → ctcLine s f.core f.line = some l → ∃ t, does (.fillDataArrives id) s t
        ∧ fillOf t id = none
        ∧ ctcLine t f.core f.line = some { l with
            st := if psn then .poisoned else .valid, ver := v, rows := rows, home := f.pkg
            segs := dataSegs f.b.desc { rows := rows, psn := psn } })
    ∧ (f.st = .data v rows psn → f.open_.isSome = true → liveIn s f.ctx f.tid = true → ctcLine s f.core f.line = some l →
        ∃ t, does (.ownershipGrant id) s t ∧ fillOf t id = none
        ∧ ctcLine t f.core f.line = some { l with
            st := if psn then .openPoisoned else .open_, ver := if 65535 ≤ v then 1 else v + 1, rows := rows, ctx := f.ctx, home := f.pkg })
    ∧ (f.st = .remote → k.tile = some m → k.ty = 8 → m.tile = f.tile → m.fid = id → m.kind = 0 → m.parts ≤ 1 →
        ctcLine s f.core f.line = some l → ∃ t, does (.fillDataProvisional id k) s t
        ∧ fillOf t id = some { f with st := .prov m.ver (msgRows m) (m.psn || k.psn) }
        ∧ ctcLine t f.core f.line = some { l with st := .provisional })
    ∧ (∀ n, f.st = .refused n → n + 1024 ≤ s.clk → ∃ t, does (.fillResend id) s t ∧ fillOf t id = some { f with st := .request })
    ∧ (∀ n, f.st = .refused n → s.clk < n + 1024 → does (.fillResend id) s (given s (.fillResend id)))

/-- A tile's home (R82 to R84, R92 to R95): the entry of a tile that is in its directory. A read that its latest version satisfies is
granted from where that version lives, from HBM while no write-back of another package is under way (log 90), and takes a line of the
asker's CLC where there is room (log 43); an opening with zeros makes its asker the owner; a read of HBM that ends, and a
discard by the owner, free the entry; a post whose copy has its place in the CLC records the version after the latest. -/
def Obligations.HomesGrantReadsAndOpenings : Prop :=
  ∀ (s s1 : State) (id : Nat) (f : Fill) (t : Tile) (o : OEntry) (ctx core : Nat),
    entriesOf s t = [o] → o.tile = t → o.replay = [] → o.hold = [] → o.wbq = [] → (dirOf s (homeChan t)).ovf = [] →
    (chan s (homeChan t)).failed = false →
    let free (r : Ev) (h : OEntry) : Prop := ∃ u, does r s u ∧ entriesOf u t = [h]
    (fillOf s id = some f → f.id = id → f.tile = t → faulted s (.fill id) = false → f.st = .request → dDomain f.b.desc = false →
      (f.open_ = none → verSat o.latest f.u = true → o.loc = .hbm → o.readers < 63 → ∃ u, does (.oasisReadRequest id none) s u
        ∧ entriesOf u t = [{ o with readers := o.readers + 1 }] ∧ ∃ n, fillOf u id = some { f with st := .hbm o.latest, clc := n })
      ∧ (∀ k, f.open_ = none → verSat o.latest f.u = true → o.loc = .clc k → ∃ u, does (.oasisReadRequest id none) s u
        ∧ entriesOf u t = [o] ∧ (∃ n, fillOf u id = some { f with st := .fwd k o.latest, clc := n })
        ∧ ∃ m ∈ u.tiles.homeQ, m.cl = k ∧ m.fid = id ∧ m.ack = false)
      ∧ (f.open_ = none → verSat o.latest f.u = false → replayUse s (homeChan t) < 4096 → ∃ u r, does (.oasisReadRequest id none) s u
        ∧ entriesOf u t = [{ o with replay := [r] }] ∧ r.fid = id ∧ ∃ n, fillOf u id = some { f with st := .home, clc := n })
      ∧ (f.open_ = some true → o.owner = none → ∃ u, does (.oasisOpenRequest id none) s u
        ∧ entriesOf u t = [{ o with owner := some (s.pkg, f.ctx) }] ∧ fillOf u id = some { f with st := .data o.latest [] false }))
    ∧ free (.oasisHbmReadDone t) { o with readers := o.readers - 1 }
    ∧ (o.owner = some (s.pkg, ctx) → free (.oasisDiscard t s.pkg ctx) { o with owner := none })
    ∧ (o.owner ≠ some (s.pkg, ctx) → free (.oasisDiscard t s.pkg ctx) o)
    ∧ (∀ l, ctcLine s core l.id = some l → l.st = .posting → l.tile = t → l.home = s.pkg → faulted s (.wb (core / 8) l.id) = false →
        l.done = true ∨ (l.stream = false ∧ l.wb = false) → o.owner = some (s.pkg, l.ctx) →
        postCopy (given s (.oasisPost core l.id none)) (core / 8) l = some s1 →
        ∃ u, does (.oasisPost core l.id none) s u
          ∧ entriesOf u t = [{ o with latest := verNext o.latest, loc := if l.stream then .hbm else .clc (core / 8), owner := none }]
          ∧ ctcLine u core l.id = some { l with st := .valid, ver := verNext o.latest, stream := false })

/-- Instruction fetch, contexts, translation and paging: both of `ExecutionAndPagingSteps` and `InstructionFetchReadsABlock`. -/
def Obligations.FetchesTranslationsAndMigrations : Prop :=
  Claims.ExecutionAndPagingSteps ∧ Claims.InstructionFetchReadsABlock


/-- Forwards, write-backs, itineraries and purges (R83, R91, R94, R95, R98, R157, R159): a forward finds its version in the CLC or victim
buffer that the home named and becomes the fill's data; a write-back whose home is here writes the tile once no read of the old
version is under way, and one superseded there is acknowledged unwritten (log 21); the acknowledgement, which the forwards sent
before it precede, frees the victim buffer; a
prefetch reads the next 16-byte entry of the itinerary and goes on, or ends at its last; a purge begins when none runs, and ends
only when every write-back has, leaving no unpinned valid or poisoned line of its tensor. -/
def Sys2Proof.Claims.TilesTravelBackAndAway : Prop :=
  ∀ (s s1 : State) (f : Fill) (id cl c core a n : Nat) (v : Victim) (l : TLine) (o : OEntry) (w : Word) (b : Writer),
    (∀ k u, fillOf s id = some f → f.id = id → f.st = .fwd k u → heldAt s k f.tile u = some l →
      ((homeReady s).any fun m => m.fid = id && m.pkt.isNone && !m.ack) = true →
      ∃ t, does (.forwardArrives id none) s t ∧ fillOf t id = some { f with st := .data u l.rows false })
    ∧ (victimOf s cl id = some v → v.acked = false → faulted s (.wb cl v.line.id) = false → v.line.home = s.pkg →
        oReaders s v.line.tile = 0 → entryOf s v.line.tile = some o →
        (o.latest = v.line.ver → o.loc = .clc cl → writeBack (given s (.oasisWriteback cl id none)) cl v.line false = (.ok (), s1) →
          does (.oasisWriteback cl id none) s (wbDone s1 cl v))
        ∧ (o.latest ≠ v.line.ver → does (.oasisWriteback cl id none) s (wbDone (given s (.oasisWriteback cl id none)) cl v)))
    ∧ (victimOf s cl id = some v → v.line.home = s.pkg → s.tiles.purge = none → (∀ d ∈ s.tiles.oasis, d.2.ovf = []) →
        (v.acked = true → ((homeReady s).any fun m => m.ack && m.cl = cl && m.fid = id) = true → ∃ t, does (.victimBufferAck cl id) s t ∧ victimOf t cl id = none)
        ∧ (v.acked = false → does (.victimBufferAck cl id) s (given s (.victimBufferAck cl id))))
    ∧ (∀ d va left bs, (ctxOf s c).itin = some (d, va, left) → (s.tiles.fills.filter fun f => f.pre && f.ctx = c).length < 16 →
        let who : Who := ⟨.fill (coreOf c / 8), coreOf c, c, (taskOf s c).asid, (taskOf s c).queue, 5000 + c⟩
        clcReadClean who va 16 1 (given s (.itineraryPrefetch c)) = (.ok bs, s1) →
        ∃ t, does (.itineraryPrefetch c) s t
          ∧ (ctxOf t c).itin = if (ofLe bs).testBit 127 = true ∨ left ≤ 1 then none else some (d, va + 16, left - 1))
    ∧ (b ≠ .task → s.tiles.purge = none → ∃ t, does (.opurge w b) s t
        ∧ t.tiles.purge = some (w.toNat % 2 ^ 16, w.toNat / 2 ^ 32 % 2 ^ 20))
    ∧ (s.tiles.purge.isSome = true → does (.opurge w b) s (given s (.opurge w b)))
    ∧ (s.tiles.purge = some (a, n) →
        (purgeDone s a n = true → ∃ t, does .opurgeComplete s t ∧ t.tiles.purge = none ∧ ∀ l ∈ ctcOf t core,
          l.tile.asid = a → l.tile.tensor = n → l.pins = 0 → l.st ≠ .valid ∧ l.st ≠ .poisoned)
        ∧ (purgeDone s a n = false → does .opurgeComplete s (given s .opurgeComplete)))

/-- Fills, openings, forwards, write-backs and purges: both of `FillStepsDeliverTheirTile` and `TilesTravelBackAndAway`. -/
def Obligations.TilesAreFilledAndTravel : Prop :=
  Claims.FillStepsDeliverTheirTile ∧ Claims.TilesTravelBackAndAway


/-- Packets of an HBM channel (R100 to R103, R107 to R109): a source that awaits 64 replies of a channel sends it no more; a read of 32, 64 or 128 bytes of live HBM is answered with its
bytes, unpoisoned, and changes no memory; a sector that ECC cannot correct is delivered poisoned and marked, a corrected one is
counted, whether a read or the scrubber meets it; a masked write changes exactly its enabled bytes; a dead-map command makes a block
read as zeros and a power command puts a stack into its state (log 22), each from the management core alone; a reply leaves when it
reaches its source; a refresh slot refreshes the live rows of its group that were not activated within the window of 32 ms, 16 ms
when hot, and clears the mask (log 98: the temperature is an input). -/
def Sys2Proof.Claims.ChannelPacketsReadAndWrite : Prop :=
  ∀ (s : State) (src tag pa len i ch g stack st : Nat) (data : List (Option Byte)) (w : Word) (hot : Bool) (k : CtlPkt) (b : Writer),
    let n := chanOf pa
    let sec := pa / 32
    (pa % len = 0 → noTag s src n = false → (len = 32 ∨ len = 64 ∨ len = 128) → plainHbm s pa len →
      (∃ t, does (.hbmReadPacket src tag pa len []) s t ∧ t.hbm.mem = s.hbm.mem ∧ t.hbm.poison = s.hbm.poison
        ∧ t.hbm.replies = s.hbm.replies ++ [⟨src, tag, Memory.bytes s.hbm.mem pa len, List.replicate (len / 32) false, n⟩])
      ∧ (len = 32 → (∃ t, does (.hbmReadPacket src tag pa len [.uncorrectable]) s t ∧ t.hbm.mem = s.hbm.mem
          ∧ t.hbm.poison = SMap.set s.hbm.poison sec () ∧ (chan t n).poisonSec = sec
          ∧ t.hbm.replies = s.hbm.replies ++ [⟨src, tag, Memory.bytes s.hbm.mem pa 32, [true], n⟩])
        ∧ (∃ t, does (.hbmReadPacket src tag pa len [.corrected]) s t ∧ (chan t n).hecor = bump (chan s n).hecor 1
          ∧ t.hbm.replies = s.hbm.replies ++ [⟨src, tag, Memory.bytes s.hbm.mem pa 32, [false], n⟩])
        ∧ (∃ t, does (.patrolScrub sec .corrected) s t ∧ t.hbm.mem = s.hbm.mem ∧ chan t n = { chan s n with hecor := bump (chan s n).hecor 1 })
        ∧ (∃ t, does (.patrolScrub sec .uncorrectable) s t ∧ t.hbm.mem = s.hbm.mem ∧ t.hbm.poison = SMap.set s.hbm.poison sec ())))
    ∧ (noTag s src n = true → (does (.hbmReadPacket src tag pa len []) s (given s (.hbmReadPacket src tag pa len [])))
        ∧ does (.hbmWritePacket src tag pa data) s (given s (.hbmWritePacket src tag pa data)))
    ∧ (memOk s = true → noTag s src n = false → 1 ≤ data.length → pa % 128 + data.length ≤ 128 → plainHbm s (pa / 128 * 128) 128 →
      ∃ t, does (.hbmWritePacket src tag pa data) s t ∧ t.hbm.replies = s.hbm.replies ++ [⟨src, tag, [], [], n⟩]
        ∧ ∀ a, Memory.read t.hbm.mem a = if pa ≤ a ∧ a < pa + data.length then (data.getD (a - pa) none).getD (Memory.read s.hbm.mem a)
            else Memory.read s.hbm.mem a)
    ∧ (memOk s = true → w.toNat / 2 ^ 12 % 2 ^ 36 * 4096 < 0x00C000000000 → ∃ t, does (.hbmControlPacket (.dead w) .mgmt) s t
        ∧ (∀ a, Memory.read t.hbm.mem a = if a / 4096 = w.toNat / 2 ^ 12 % 2 ^ 36 then 0 else Memory.read s.hbm.mem a)
        ∧ (w.getLsbD 61 = true → isLive t (w.toNat / 2 ^ 12 % 2 ^ 36 * 4096) = true))
    ∧ (stack < 12 → st < 3 → ∃ t, does (.hbmControlPacket (.power stack st) .mgmt) s t
        ∧ (SMap.getD t.sys.unit_ (24 + stack) {}).st = st ∧ t.hbm = s.hbm)
    ∧ (b ≠ .mgmt → does (.hbmControlPacket k b) s (given s (.hbmControlPacket k b)))
    ∧ (∃ t, does (.hbmReply i) s t ∧ t.hbm.replies = s.hbm.replies.eraseIdx i ∧ t.hbm.mem = s.hbm.mem)
    ∧ (∀ r, SMap.get? (chan s ch).rows g = some r → ∃ t, does (.refreshSlot ch g hot) s t ∧ t.hbm.mem = s.hbm.mem
        ∧ SMap.get? (chan t ch).rows g = some { r with mask := 0, slot := s.clk, fresh := liveRows s ch g &&&
            if s.clk < r.time + (if hot then 30400000 else 60800000) then ~~~r.mask else BitVec.allOnes 64 })

/-- `hdeadcmd`, the interface's replays and retrains, and the ends of reservations (R104 to R106, R121): a command written while
none runs kills or revives its frames, 65,536 where its count is 0, and one written during another does nothing; at its end every byte of its
blocks reads 0 and no other changes; a CRC failure is a replay, and after eight replays a retrain; a retrain that succeeds ends, and the third that
fails in a row fails the channel and interrupts the management core; a reservation 4,096 clocks old ends. -/
def Sys2Proof.Claims.DeadBlocksRetrainsAndExpiry : Prop :=
  ∀ (s : State) (w : Word) (b : Writer) (d : DeadCmd) (n c : Nat),
    let q := chan s n
    let frames := if w.toNat % 2 ^ 16 = 0 then 65536 else w.toNat % 2 ^ 16
    let cmd : DeadCmd := { next := w.toNat / 2 ^ 16 % 2 ^ 32 * 16, left := frames * 16, revive := w.getLsbD 61 }
    let ev := if w.getLsbD 61 then Ev.hdeadcmdRevive w b else .hdeadcmdKill w b
    (s.hbm.dead = none → w.getLsbD 62 = true → ∃ t, does ev s t ∧ t.hbm.dead = some cmd ∧ t.hbm.mem = s.hbm.mem)
    ∧ (s.hbm.dead.isSome = true → does ev s (given s ev))
    ∧ (memOk s = true → s.hbm.dead = some d → (d.next + d.left) * 4096 ≤ 0x00C000000000 → ∃ t, does .hdeadcmdDone s t
        ∧ t.hbm.dead = none ∧ ∀ a, Memory.read t.hbm.mem a =
          if d.next ≤ a / 4096 ∧ a / 4096 < d.next + d.left then 0 else Memory.read s.hbm.mem a)
    ∧ (q.failed = false → q.retraining = false → ∃ t, does (.interfaceCrcFail n) s t
        ∧ (q.replays < 8 → chan t n = { q with herpl := bump q.herpl 1, replays := q.replays + 1 })
        ∧ (8 ≤ q.replays → chan t n = { q with herex := bump q.herex 1, replays := 0, retraining := true }))
    ∧ (q.retraining = true →
        (∃ t, does (.interfaceRetrainEnd n true) s t ∧ chan t n = { q with retraining := false, retrains := 0 })
        ∧ (q.retrains < 2 → ∃ t, does (.interfaceRetrainEnd n false) s t ∧ (chan t n).retrains = q.retrains + 1 ∧ (chan t n).retraining = true)
        ∧ (2 ≤ q.retrains → ∃ t, does (.interfaceRetrainEnd n false) s t ∧ (chan t n).failed = true
          ∧ (devGet t 0xF00001500000).getLsbD 2 = true))
    ∧ (∃ t, does (.reservationExpiry n c) s t
        ∧ ∀ r, r ∈ (chan t n).resv ↔ r ∈ q.resv ∧ ¬ (r.ctx = c ∧ r.clk + 4096 ≤ s.clk))

/-- The bandwidth share unit (R122 to R124): the steps `bsuctlEnable`, `bsuctlDisable`, `bsuRefill` and `portUnitSend` complete from
every state. Writing `bsuctl` with en = 1 while it was 0 refills at once, and one with en = 0 stops refills and lets what waits go; a
refill that is due deals the pool and sets the next 1,024 clocks on, an only active class taking all of it; a port sends a unit of
its only request while that class has a token, and nothing while it has none or the unit is off. -/
def Obligations.SharesAreRefilledAndSpent : Prop :=
  ∀ (s : State) (w : Word) (b : Writer) (at_ core : Nat) (r : PortReq) (i : Fin 16),
    let sends := Ev.portUnitSend core
    (∃ t, exec .bsuctlDisable { s with ev := some (.bsuctlDisable w b) } = .next t
        ∧ t.bsu.refillAt = none ∧ t.bsu.queue = [] ∧ t.bsu.grants = [] ∧ bsuOn t = false)
    ∧ (∃ t, exec .bsuctlEnable { s with ev := some (.bsuctlEnable w b) } = .next t ∧ (w.getLsbD 63 = true → bsuOn t = true)
        ∧ t.bsu.refillAt = if bsuOn s then s.bsu.refillAt else some (s.clk + 1024))
    ∧ (∃ t, exec .bsuRefill { s with ev := some .bsuRefill } = .next t ∧ t.bsu.queue = s.bsu.queue
        ∧ (s.bsu.refillAt = none → t = given s .bsuRefill)
        ∧ (s.bsu.refillAt = some at_ → s.clk < at_ → t = given s .bsuRefill)
        ∧ (s.bsu.refillAt = some at_ → at_ ≤ s.clk → t.bsu.refillAt = some (at_ + 1024) ∧ t.bsu.bucket = bsuBuckets s
          ∧ ((∀ k : Fin 16, bsuActive s k = true ↔ k = i) → 0 < bsuShare s i → ∀ k : Fin 16, t.bsu.bucket[k] = if k = i then bsuPool s else 0)))
    ∧ (∃ t, exec .portUnitSend { s with ev := some sends } = .next t
        ∧ (bsuOn s = false → t = given s sends)
        ∧ (bsuOn s = true → SMap.getD s.bsu.queue core [] = [r] → r.cls = i →
          (r.left = 1 → 0 < s.bsu.bucket[i] → t.bsu.grants = s.bsu.grants ++ (if r.key < prefKey then [(r.owner, r.key)] else [])
            ∧ t.bsu.bucket = s.bsu.bucket.set i (s.bsu.bucket[i] - 1) ∧ SMap.getD t.bsu.queue core [] = []
            ∧ devGet t (bsuUsed i) = devGet s (bsuUsed i) + 1)
          ∧ (0 < r.left → s.bsu.bucket[i] = 0 → t.bsu.grants = s.bsu.grants ∧ t.bsu.bucket = s.bsu.bucket
            ∧ SMap.getD t.bsu.queue core [] = [r])))

/-- HBM channels, their packets and their maintenance: both of `ChannelPacketsReadAndWrite` and `DeadBlocksRetrainsAndExpiry`. -/
def Obligations.ChannelsAndTheirMaintenance : Prop :=
  Claims.ChannelPacketsReadAndWrite ∧ Claims.DeadBlocksRetrainsAndExpiry


/-- No cache of a core or its cluster holds the line of an address. -/
def Sys2Proof.Claims.uncachedAt (s : State) (core pa : Nat) : Prop :=
  SMap.get? (l1Of s core).lines (pa / 128) = none ∧ SMap.get? (clcOf s (core / 8)).lines (pa / 128) = none

/-- The remote operation units for a context, on plain HBM (R114, R115, R120, R121): a single-word operation reads its word, writes
its result and no other byte, and answers the old word; `amocas` writes only where the word is the one expected; `lr` reads and
leaves the context its one reservation; `sc` writes and answers 0 while that reservation stands, else answers 1 and writes
nothing, and ends it. -/
def Sys2Proof.Claims.RemoteUnitsPerformTheirOperation : Prop :=
  ∀ (s : State) (c tag : Nat) (op : RouOp) (w : AWidth) (pa : Nat) (e x : Word),
    let n := match w with | .w32 => 4 | .w64 => 8
    let old := ofLe (Memory.bytes s.hbm.mem pa n)
    let v := x.toNat % 2 ^ (8 * n)
    let wrote (t : State) (z : Nat) : Prop := ∀ a, Memory.read t.hbm.mem a =
      if pa ≤ a ∧ a < pa + n then BitVec.ofNat 8 (z / 2 ^ (8 * (a - pa))) else Memory.read s.hbm.mem a
    let answers (t : State) (z : Nat) : Prop := t.hbm.replies = s.hbm.replies ++ [⟨coreOf c, tag, leBytes z 8, [false], chanOf pa⟩]
    let held : Prop := ∃ r, r ∈ (chan s (chanOf pa)).resv ∧ r.ctx = c ∧ r.sector = pa / 32 ∧ s.clk < r.clk + 4096
    memOk s = true → plainHbm s pa n → pa % n = 0 → uncachedAt s (coreOf c) pa → noTag s (coreOf c) (chanOf pa) = false →
    (∃ t, does (.rouSingleWordOp (.ctx c tag) op w pa x) s t ∧ wrote t (rouNew op w old x.toNat).1 ∧ answers t old)
    ∧ (∃ t, does (.rouAmocas (.ctx c tag) w pa e x) s t ∧ answers t old ∧ wrote t (if old = e.toNat % 2 ^ (8 * n) then v else old))
    ∧ (∃ t, does (.rouLr (.ctx c tag) w pa) s t ∧ answers t old ∧ wrote t old
        ∧ ∃ r, r ∈ (chan t (chanOf pa)).resv ∧ r.ctx = c ∧ r.sector = pa / 32 ∧ r.clk = s.clk)
    ∧ (held → ∃ t, does (.rouSc (.ctx c tag) w pa x) s t ∧ answers t 0 ∧ wrote t v ∧ ∀ r ∈ (chan t (chanOf pa)).resv, r.ctx ≠ c)
    ∧ (¬ held → ∃ t, does (.rouSc (.ctx c tag) w pa x) s t ∧ answers t 1 ∧ wrote t old ∧ ∀ r ∈ (chan t (chanOf pa)).resv, r.ctx ≠ c)

/-- The words that an `rcas4` and the list operations read and write (R116, R117), on plain HBM that the asking core does not cache:
`rcas4` answers whether every word is the one expected, with the old words, and only then writes all of them; `renq` to an empty
list makes the node its head and tail, to another list links it after the old tail; `rdeq` takes the head and makes its successor
the head, an empty list answers 0. A link word that is not aligned is a fault, and nothing is written (R119). -/
def Sys2Proof.Claims.ListWordsAreExchanged : Prop :=
  ∀ (s : State) (r : RouWho) (q : Option Nat) (pas es ds : List Nat) (h hva node np tp : Nat),
    let word (s : State) (a : Nat) : Nat := ofLe (Memory.bytes s.hbm.mem a 8)
    let plain (a : Nat) : Prop := a % 8 = 0 ∧ plainHbm s a 8 ∧ (r.own = true → uncachedAt s r.w.core a)
    let same (t : State) : Prop := ∀ a, Memory.read t.hbm.mem a = Memory.read s.hbm.mem a
    let at_ (va pa : Nat) (s : State) : Prop := linkAt r va s = (.ok (s.pkg, pa), s)
    memOk s = true →
    ((∀ a ∈ pas, plain a) → pas.Nodup → es.length = pas.length → ds.length = pas.length →
      (rouCas4 s q pas es ds).1 = some ((if pas.map (word s) = es then 1 else 0) :: pas.map (word s))
      ∧ (pas.map (word s) ≠ es → same (rouCas4 s q pas es ds).2)
      ∧ (pas.map (word s) = es → pas.map (word (rouCas4 s q pas es ds).2) = ds.map (· % 2 ^ 64)))
    ∧ (plain h → plain (h + 8) → plain np → node ≠ 0 → node % 8 = 0 → node < 2 ^ 64 → np ≠ h → np ≠ h + 8 →
        sectorHeld s h r.w.owner = false → at_ node np s →
        (word s (h + 8) = 0 → ∃ t, rouEnq r q h hva node s = (.ok 0, t)
          ∧ word t h = node ∧ word t (h + 8) = node ∧ word t np = 0)
        ∧ (word s (h + 8) ≠ 0 → word s (h + 8) % 8 = 0 → plain tp → tp ≠ np → tp ≠ h → tp ≠ h + 8 →
            at_ (word s (h + 8)) tp (atRead s (h + 8) 8).2 → ∃ t, rouEnq r q h hva node s = (.ok (word s (h + 8)), t)
          ∧ word t tp = node ∧ word t (h + 8) = node ∧ word t np = 0 ∧ word t h = word s h)
        ∧ (word s (h + 8) % 8 ≠ 0 → ∃ t, rouEnq r q h hva node s = (.error (.fault 35 (word s (h + 8)) 4), t) ∧ same t))
    ∧ (plain h → plain (h + 8) → sectorHeld s h r.w.owner = false →
        (word s h = 0 → ∃ t, rouDeq r q h hva s = (.ok 0, t) ∧ same t)
        ∧ (word s h ≠ 0 → word s h % 8 = 0 → plain np → at_ (word s h) np (atRead s h 8).2 →
          (word s np % 8 = 0 → ∃ t, rouDeq r q h hva s = (.ok (word s h), t)
            ∧ word t h = word s np ∧ word t (h + 8) = if word s np = 0 then 0 else word s (h + 8))
          ∧ (word s np % 8 ≠ 0 → ∃ t, rouDeq r q h hva s = (.error (.fault 35 (word s np) 4), t) ∧ same t)))

/-- The X commands that the remote units perform (R116 to R119, R367 to R369): an `rcas4` and a list operation that have nothing to wait for
leave their result in the command; so does a chase at its last hop, at the end of the list and where it finds its key, else it goes
on to the next pointer; a misaligned operand is a fault of the command. -/
def Sys2Proof.Claims.RemoteCommandsPerformTheirOperation : Prop :=
  ListWordsAreExchanged ∧
  ∀ (s s2 : State) (core id : Nat) (k : XCmd) (b : List Byte) (l res : List Nat) (m pa cp : Nat),
    let moves (kind : Nat) : Ev := match kind with | 5 => .rouRcas4 core id | 6 => .rouRenq core id | 7 => .rouRdeq core id | _ => .rchaseHop core id
    let g := given s (moves k.kind)
    let got (s : State) (bs : List Byte) : State :=
      narrowTrack (updX (eDone s (ownerOf id)) core id fun k => { k with got := some bs, flags := 0 }) core k.ctx id
        fun t => { t with readB := [], allR := false }
    let sent (s : State) : State := updX s core id fun k => { k with sent := some (k.sent.getD 0) }
    let n := blkW b 0
    let pick (o : Nat) : List Nat := (List.range n).map fun i => blkW b (o + 8 * i)
    let at_ (o : Nat) : Nat := blkW b 16 / 2 ^ o % 2 ^ 12
    let hops := blkW b 16 / 2 ^ 48 % 32
    let p := if k.hop = 0 then blkW b 0 else k.ptr
    let g1 := updX g core id fun k => { k with ptr := p, sent := some (k.sent.getD 0) }
    let aimed (n : Nat) : State := updX g1 core id fun k => { k with sent := some n }
    let who (n : Nat) : RouWho := { w := { xWho core k with ag := .rou n }, own := true }
    let asks : RouWho := { w := if k.hop = 0 then xWho core k else { xWho core k with ag := .rou (k.sent.getD 0) }, own := true }
    xOf s core id = some k → k.id = id → k.cancel = false → k.got = none → k.deps = [] → faulted s (.xcmd core id) = false →
    k.r.toNat % 8 = 0 → bsuOn s = false →
    (k.kind = 5 → k.a.toNat % 8 = 0 → k.blk = some b → 1 ≤ n → n ≤ 4 → (∀ a ∈ pick 8, a % 8 = 0 ∧ a / 4096 = (pick 8).headD 0 / 4096) →
      (pick 8).Nodup → cas4Xlat (xWho core k) (pick 8) g = (.ok (l.map fun a => (s.pkg, a)), g) →
      l ≠ [] → isFar (l.headD 0) = false → (∀ a ∈ l, sectorHeld s a (ownerOf id) = false) →
      rouCas4 (l.foldl (fun s a => flushOwn s core a) (sent g)) (some k.queue) l (pick 40) (pick 72) = (some res, s2) →
      does (moves 5) s (got (if res.head? = some 1 then l.foldl (fun s a => queueInval s core a) s2 else s2)
        ((List.range 5).flatMap fun i => leBytes (res.getD i 0) 8)))
    ∧ ((k.kind = 6 ∨ k.kind = 7) → k.a.toNat % 16 = 0 → (k.kind = 6 → k.x.toNat ≠ 0 ∧ k.x.toNat % 8 = 0) →
      translate g (.core core) k.asid k.a .atomic = (.ok s.pkg pa cp, g) → pa < 0x00C000000000 →
      (if k.kind = 6 then rouEnq (who (chanOf pa)) (some k.queue) pa k.a.toNat k.x.toNat (flushOwn (sent g) core pa)
        else rouDeq (who (chanOf pa)) (some k.queue) pa k.a.toNat (flushOwn (sent g) core pa)) = (.ok m, s2) →
      does (moves k.kind) s (got s2 (leBytes m 8)))
    ∧ (k.kind = 8 → k.a.toNat % 8 = 0 → k.blk = some b → at_ 0 % 8 = 0 → at_ 16 % 8 = 0 → at_ 32 % 8 = 0 → 1 ≤ hops → hops ≤ 16 →
      (hops ≤ k.hop → does (moves 8) s (got g (leBytes 2 8 ++ leBytes p 8)))
      ∧ (k.hop < hops → p = 0 → does (moves 8) s (got (aimed (k.sent.getD 0)) (leBytes 1 8 ++ leBytes 0 8)))
      ∧ (k.hop < hops → p ≠ 0 → p % 8 = 0 → linkAt asks p g1 = (.ok (s.pkg, pa), g1) →
          (∀ st v, rouHop (who (chanOf pa)) p (blkW b 8) (at_ 0) (at_ 16) (at_ 32) (aimed (chanOf pa)) = (.ok (.done st v), s2) →
            does (moves 8) s (got s2 (leBytes st 8 ++ leBytes v 8)))
          ∧ (∀ z, rouHop (who (chanOf pa)) p (blkW b 8) (at_ 0) (at_ 16) (at_ 32) (aimed (chanOf pa)) = (.ok (.next z), s2) →
            does (moves 8) s (updX s2 core id fun k => { k with hop := k.hop + 1, ptr := z }))))
    ∧ (5 ≤ k.kind → k.kind ≤ 8 → k.a.toNat % 8 ≠ 0 →
        does (moves k.kind) s (xFault g core k 32 k.a.toNat (if k.kind = 5 ∨ k.kind = 8 then 1 else 4)))

/-- What the remote operation units perform: both of `RemoteUnitsPerformTheirOperation` and
`RemoteCommandsPerformTheirOperation`. -/
def Obligations.RemoteOperationsArePerformed : Prop :=
  Claims.RemoteUnitsPerformTheirOperation ∧ Claims.RemoteCommandsPerformTheirOperation


/-- Widenings, mailbox writes and the host's ports (R147, R154, R163, R166 to R168, R355): the retroactive release of the anchor's
cores, which an anchor's package elsewhere is asked for, gives the sync variable its wider scope; the first mailbox write in flight
lands when it is due, in one mailbox or in the eight of a cluster; a host read of a granule that nobody holds enters it in its channel's snoop filter, owned where it is a read for ownership; an eviction
removes it and writes what the host modified, and no other byte; a host snoop changes nothing; a completion lowers the count of
the context's far writes, and with the last of them an earlier `cwb` is complete. -/
def Obligations.WideningsMailboxesAndHostPorts : Prop :=
  ∀ (s : State) (die sector port ha pa c : Nat) (e : SvtE) (n : Nat) (p : Nat × Nat) (w : MboxW) (later : List MboxW) (h : Snoop) (d : Option (BitVec 512)) (v : BitVec 512),
    (svtOf s die sector = some e → e.widening = some (n, p.1, p.2) →
        (e.apkg = s.pkg → ∃ t, does (.svtWidenAcked die sector) s t
          ∧ svtOf t die sector = some { e with scope := n, widen := min (e.widen + 1) 65535, widening := none })
        ∧ (e.apkg ≠ s.pkg → s.fab.asks = [] → ∃ t, does (.svtWidenAcked die sector) s t ∧ svtOf t die sector = some e
          ∧ ∃ r ∈ t.fab.asks, r.2.pkg = e.apkg ∧ r.2.addr = sector * 32 ∧ r.2.arg = 19))
    ∧ (s.mboxW = w :: later →
        (w.land ≤ s.clk → ∀ e, e = .mbstLand 0 ∨ e = .mbcastLand 0 → ∃ t, does e s t ∧ t.mbox = mboxLand s.mbox w ∧ t.mboxW = later)
        ∧ (s.clk < w.land → does (.mbstLand 0) s (given s (.mbstLand 0)) ∧ does (.mbcastLand 0) s (given s (.mbcastLand 0)))
        ∧ (memOk s = true →
          (w.cast = false → ∀ a, Memory.read (mboxLand s.mbox w) a =
            if w.pa ≤ a ∧ a < w.pa + w.data.length then (w.data.getD (a - w.pa) none).getD (Memory.read s.mbox a) else Memory.read s.mbox a)
          ∧ (w.cast = true → w.pa + w.data.length ≤ 0x10000 → ∀ a, Memory.read (mboxLand s.mbox w) a =
            if 0xF00000000000 + w.core / 8 * 0x80000 ≤ a ∧ a < 0xF00000000000 + w.core / 8 * 0x80000 + 0x80000
              ∧ w.pa ≤ a % 0x10000 ∧ a % 0x10000 < w.pa + w.data.length
            then (w.data.getD (a % 0x10000 - w.pa) none).getD (Memory.read s.mbox a) else Memory.read s.mbox a)))
    ∧ (hdmPa s port ha = some pa → snoopOf s pa = none → (chan s (chanOf pa)).snoop.length < 16384 →
        (∃ t, does (.cxlHostReadShared port ha) s t ∧ snoopOf t pa = some { gran := pa / 64, own := false, data := none } ∧ t.hbm.mem = s.hbm.mem)
        ∧ (∃ t, does (.cxlHostReadOwn port ha d) s t ∧ snoopOf t pa = some { gran := pa / 64, own := true, data := d } ∧ t.hbm.mem = s.hbm.mem))
    ∧ (hdmPa s port ha = some pa → snoopOf s pa = some h → memOk s = true → (chan s (chanOf pa)).failed = false →
        (h.own = true → ∃ t, does (.cxlHostEvict port ha (some v)) s t ∧ snoopOf t pa = none ∧ ∀ a, Memory.read t.hbm.mem a =
            if a / 64 = pa / 64 then BitVec.ofNat 8 (v.toNat / 2 ^ (8 * (a % 64))) else Memory.read s.hbm.mem a)
        ∧ (h.own = false → ∃ t, does (.cxlHostEvict port ha d) s t ∧ snoopOf t pa = none ∧ t.hbm.mem = s.hbm.mem))
    ∧ does (.cxlHostSnoop port ha) s (given s (.cxlHostSnoop port ha))
    ∧ (∀ l, ∃ t, does (.cxlCompletion c l) s t ∧ ctxOf t c = { ctxOf s c with
        farOut := (ctxOf s c).farOut - 1, cwb := if (ctxOf s c).farOut ≤ 1 then 0 else (ctxOf s c).cwb } ∧ t.hbm = s.hbm)

/-- Links of the fabric (R171 to R175): an active port takes a flit whose CRC is good and whose number is the next, and hands on
the packet that it completes; any other flit changes no packet and asks for a replay; acknowledgements go out when they are due;
a failed lane is recorded and retrains a link that uses it; a candidate that trains makes the link active at its width; none within
3,800 clocks takes it down and interrupts the management core; software's request starts again at x16. -/
def Obligations.LinksKeepTheirSequence : Prop :=
  ∀ (s : State) (p lane last : Nat) (f : Flit) (k : Packet) (w : Word) (b : Writer) (z : Nat),
    let x := portOf s p
    let y (t : State) : Port := portOf t p
    let after (e : Ev) (P : State → Prop) : Prop := ∃ t, does e s t ∧ P t
    (x.state = 2 → crcOk f = true → f.lseq = (x.rseq + 1) % 4096 → f.nul = false → f.eop = true → f.pkt = some k →
      after (.flitReceive p f) fun t => (y t).rseq = f.lseq ∧ t.pending = s.pending ++ [⟨none, .flecenPacketAccept (p / 5) k⟩])
    ∧ (x.state = 2 → (crcOk f = false ∨ f.lseq ≠ (x.rseq + 1) % 4096) →
      after (.flitReceive p f) fun t => (y t).rseq = x.rseq ∧ t.pending = s.pending
        ∧ (y t).crc = (if crcOk f then x.crc else bump x.crc 1) ∧ ((y t).wantRpl = true ∨ ∃ g ∈ (y t).retry, g.rpl = true))
    ∧ (x.state = 2 → x.unacked ≠ 0 → (32 ≤ x.unacked ∨ x.ackDue + 64 ≤ s.clk) → x.retry.length < 4095 →
      after (.ackDeadline p) fun t => (y t).unacked = 0 ∧ ∃ g ∈ (y t).retry, g.nul = true ∧ g.ackv = true ∧ g.lack = x.rseq)
    ∧ (lane < 16 → after (.laneFail p lane) fun t => (y t).lanefail = x.lanefail ||| BitVec.ofNat 16 (2 ^ lane)
        ∧ ((y t).state = if x.state = 2 ∧ lane ∈ lanesOf x.width then 3 else x.state))
    ∧ (candidate x = some z → (x.state = 1 ∨ x.state = 3) → after (.retrainSuccess p last) fun t => (y t).state = 2 ∧ (y t).width = z)
    ∧ ((x.state = 1 ∨ x.state = 3) →
        (x.since + 3800 ≤ s.clk → after (.retrainTimeout p) fun t => (y t).state = 0 ∧ (devGet t 0xF00001500000).getLsbD 3 = true)
        ∧ (s.clk < x.since + 3800 → does (.retrainTimeout p) s (given s (.retrainTimeout p))))
    ∧ ((x.state = 0 ∨ x.state = 2) → after (.flstatRq p w b) fun t => (y t).state = 3 ∧ (y t).width = 0 ∧ (y t).since = s.clk
        ∧ (y t).lanefail = x.lanefail &&& ~~~(w.extractLsb' 32 16))

/-- Packets at their destination (R38, R177, R179 to R184): a request that arrives whole is performed or held, an acknowledgement goes to the
buffer, a failed tag counts a rejection; a held write that has nothing to follow changes exactly its enabled bytes where a window
admits it, else nothing but the count of refusals; a read is answered with its bytes; a waiting flushing read is answered once every
lower-numbered write is done, with whether one was refused. -/
def Obligations.PacketsArePerformedAtTheirHome : Prop :=
  ∀ (s : State) (die i : Nat) (k : Packet),
    let after (e : Ev) (P : State → Prop) : Prop := ∃ t, does e s t ∧ P t
    let e := Ev.flecenPacketAccept die k
    let g := { given s e with free := s.free + 1 }
    (k.dst = s.pkg → tagOk k = true →
      (k.ty ≤ 2 → seenDone (seenOf s k.src) k.eseq = false → (∀ h ∈ heldFrom s k.src, h.eseq ≠ k.eseq) →
        (k.ty ≠ 2 ∧ mayPerform s k = true ∧ does e s (performFor g die k))
        ∨ does e s (setGw g die fun g => { g with held := g.held ++ [k] }))
      ∧ (k.ty = 13 → after e fun t => t.pending = s.pending ++ [⟨none, .e2eAckReceive die k.src k.addr⟩])
      ∧ (k.ty = 14 → after e fun t => t.pending = s.pending ++ [⟨none, .e2eRejectReceive die k.src k.addr (k.op = 1)⟩]))
    ∧ (k.dst = s.pkg → tagOk k = false → k.ty ≤ 2 → SMap.getD (seenOf s k.src).rejects k.eseq 0 < 15 → after e fun t =>
        SMap.getD (seenOf t k.src).rejects k.eseq 0 = SMap.getD (seenOf s k.src).rejects k.eseq 0 + 1 ∧ t.hbm = s.hbm)
    ∧ (k.dst ≠ s.pkg → does e s (given s e))
    ∧ (die < 4 → (gwOf s die).held[i]? = some k → mayPerform s k = true →
      (k.ty = 1 → memOk s = true → k.psn = false → 1 ≤ k.data.length → k.addr % 4096 + k.data.length ≤ 4096 →
        plainHbm s (k.addr / 4096 * 4096) 4096 → exportOk s k.addr true = true → after (.heldWritePerform die i) fun t =>
          (∀ h ∈ (gwOf t die).held, ¬ (h.src = k.src ∧ h.eseq = k.eseq)) ∧ ∀ a, Memory.read t.hbm.mem a =
            if k.addr ≤ a ∧ a < k.addr + k.data.length ∧ (64 ≤ a - k.addr ∨ k.bmask.getD (a - k.addr) true = true)
            then k.data.getD (a - k.addr) 0 else Memory.read s.hbm.mem a)
      ∧ (k.ty = 1 → exportOk s k.addr true = false → after (.heldWritePerform die i) fun t =>
          t.hbm = s.hbm ∧ (gwOf t die).refuse = bump (gwOf s die).refuse 1)
      ∧ (k.ty = 0 → gwFull s die = false → 0 < k.len → k.addr % 32 = 0 → k.len % 32 = 0 → plainHbm s k.addr k.len → exportOk s k.addr false = true →
        after (.heldWritePerform die i) fun t => t.hbm.mem = s.hbm.mem ∧ ∃ x ∈ (gwOf t die).buf, x.pkt.ty = 3 ∧ x.pkt.dst = k.src
          ∧ x.pkt.addr = k.eseq ∧ x.pkt.op = 0 ∧ x.pkt.data = Memory.bytes s.hbm.mem k.addr k.len))
    ∧ ((gwOf s die).held[i]? = some k → mayPerform s k = false → does (.heldWritePerform die i) s (given s (.heldWritePerform die i)))
    ∧ ((gwOf s die).flushes[i]? = some k →
      (writesDone s k = true → gwFull s die = false → after (.flushingReadAnswer die i) fun t => (gwOf t die).flushes = (gwOf s die).flushes.eraseIdx i
        ∧ ∃ x ∈ (gwOf t die).buf, x.pkt.ty = 6 ∧ x.pkt.dst = k.src ∧ x.pkt.addr = k.eseq
          ∧ x.pkt.op = if (seenOf s k.src).bad.contains k.sctx then 1 else 0)
      ∧ (writesDone s k = false → does (.flushingReadAnswer die i) s (given s (.flushingReadAnswer die i))))

/-- The end-to-end buffer and flush responses (R143, R179, R180, R182, R183, R361): an acknowledged packet leaves the buffer; a rejected one is sent
again, and after 16 rejections, a write is dropped, counted, and its package marked for its context, as it is at once for a refused
write; one unanswered for 2^22 clocks is sent again; a flush response completes the flushing read, or the release, that waits for
it, with the error of its package. -/
def Obligations.PacketsAreKeptUntilAnswered : Prop :=
  ∀ (s : State) (die dst eseq c pkg id : Nat) (e : E2E) (k : XCmd) (r : Remote) (status : Bool),
    let after (e : Ev) (P : State → Prop) : Prop := ∃ t, does e s t ∧ P t
    (e2eOf s die dst eseq = some e →
      (e.pkt.ty ≠ 4 → does (.e2eAckReceive die dst eseq) s (e2eDel (given s (.e2eAckReceive die dst eseq)) die dst eseq)
        ∧ ((gwOf s die).wait = [] → after (.e2eAckReceive die dst eseq) fun t => e2eOf t die dst eseq = none))
      ∧ (e.tries < 15 → after (.e2eRejectReceive die dst eseq false) fun t =>
          e2eOf t die dst eseq = some { e with tries := e.tries + 1, time := s.clk })
      ∧ (15 ≤ e.tries → e.pkt.ty = 1 → after (.e2eRejectReceive die dst eseq false) fun t =>
          destMarked t e.pkt.sctx dst = true ∧ (gwOf t die).drop = bump (gwOf s die).drop 1)
      ∧ (after (.e2eRejectReceive die dst eseq true) fun t => destMarked t e.pkt.sctx dst = true)
      ∧ (e.time + 2 ^ 22 ≤ s.clk → after (.e2eRetransmitTimeout die dst eseq) fun t => e2eOf t die dst eseq = some { e with time := s.clk })
      ∧ (s.clk < e.time + 2 ^ 22 → does (.e2eRetransmitTimeout die dst eseq) s (given s (.e2eRetransmitTimeout die dst eseq))))
    ∧ ((ctxOf s c).remote = [] → s.fab.asks = [] → xOf s (coreOf c) id = some k → k.id = id → k.kind = 9 → k.ctx = c → k.sent = some eseq →
        k.got = none → k.a.toNat % 2 ^ 14 = pkg → after (.flushResponseReceive c pkg eseq status) fun t =>
          xOf t (coreOf c) id = some { k with got := some [if status || destMarked s c pkg then 1 else 0] })
    ∧ ((ctxOf s c).remote = [r] → r.kind = 5 → r.pkg = pkg → r.eseq = eseq → r.arg ≠ 1 → after (.flushResponseReceive c pkg eseq status) fun t =>
          (ctxOf t c).remote = [{ r with reply := some ([], false, false) }] ∧ destMarked t c pkg = false)


/-- Sequenced multicast (R155, R185 to R189, R387 to R391, R464): the management command, of this package or another's, and its status; a store or a last contribution at the switch takes
the next number and goes to the members with its payload or the folded result, one that the group turns away completes with its error; an
entry for which the switch holds a member's credit leaves for it (log 97) and is applied there in the order of the numbers, its payload
and then `last`, and acknowledged, which returns the credit; the last
acknowledgement completes the command, which counts its event, or raises its fault. -/
def Obligations.MulticastGroupsAreSequenced : Prop :=
  ∀ (s : State) (w : Word) (b : Writer) (st g n off j core id sub : Nat) (x : Group) (m : SmMsg) (y : Member) (r : Round)
    (op : SmOp) (fmt : SmFmt) (d : List Byte) (e : SmEntry) (cmds : List SmMsg) (p q : Nat) (c : SCmd),
    let after (e : Ev) (P : State → Prop) : Prop := ∃ t, does e s t ∧ P t
    let asks (e : Ev) : Prop := (s.fab.cmd = none → w.getLsbD 62 = true → w.toNat / 2 ^ 60 % 4 ≠ 3 → mayWrite 0xF00001530000 b = true →
        after e fun t => t.fab.cmd = some w)
      ∧ (s.fab.cmd.isSome = true → b ≠ .peer → does e s (given s e)) ∧ (b = .task → does e s (given s e))
      ∧ (b = .peer → w.getLsbD 62 = true → w.toNat / 2 ^ 60 % 4 ≠ 3 → does e s (smgRun (given s e) w 0).2)
    let owes (x : Group) (p : Nat) : Nat := SMap.getD x.owed p 0
    let grp := w.toNat % 2 ^ 12
    let sw := w.toNat / 2 ^ 32 % 2 ^ 16
    let k := w.toNat / 2 ^ 48 % 2 ^ 3
    let answers (z : Nat) (P : State → Prop) : Prop := after (.smgcmdAnswer st) fun t => t.fab.cmd = none ∧ devGet t 0xF00001530008 = BitVec.ofNat 64 z ∧ P t
    let ends (err : Option Nat) : Prop := after (.switchSequence m) fun t => t.pending = s.pending ++ [⟨none, .sequencedCommandComplete (coreOf m.ctx) m.cmd err⟩]
    asks (.smgcmdCreate w b) ∧ asks (.smgcmdClose w b) ∧ asks (.smgcmdDestroy w b)
    ∧ (s.fab.cmd = some w → (st = 3 → answers 3 fun t => t.fab.group = s.fab.group) ∧ (st ≠ 3 →
        (w.toNat / 2 ^ 60 % 4 = 0 →
          (groupOf s grp = none → k ≤ 4 → answers 0 fun t => groupOf t grp = some { swid := sw, k := k })
          ∧ (groupOf s grp = none → 4 < k → answers 6 fun t => t.fab.group = s.fab.group)
          ∧ ((groupOf s grp).isSome = true → answers 1 fun t => t.fab.group = s.fab.group))
        ∧ (w.toNat / 2 ^ 60 % 4 = 1 → groupOf s grp = some x →
          (x.swid = sw → answers 0 fun t => groupOf t grp = some { x with closed := true, held := [] })
          ∧ (x.swid ≠ sw → answers 2 fun t => t.fab.group = s.fab.group))
        ∧ (w.toNat / 2 ^ 60 % 4 = 2 → groupOf s grp = some x → x.swid = sw →
          (x.closed = false → answers 4 fun t => t.fab.group = s.fab.group)
          ∧ (x.closed = true → x.members ≠ [] → answers 5 fun t => t.fab.group = s.fab.group)
          ∧ (x.closed = true → x.members = [] → answers 0 fun t => t.fab.group = SMap.erase s.fab.group grp))))
    ∧ (groupOf s m.grp = some x → (m.kind = .dir off ∨ m.kind = .red op fmt off) → m.pkg = s.pkg →
        (x.closed = true → ends (some 64))
        ∧ (x.closed = false → x.members = [] → ends (some 66))
        ∧ (x.closed = false → x.members = [(s.pkg, j)] → smRange x.k m = false → ends (some 67))
        ∧ (x.closed = false → x.members = [(s.pkg, j)] → j ≤ x.next → x.next < 0xFFFFFFFF → smRange x.k m = true →
          owes x s.pkg < 64 → x.queue = [] →
          (m.kind = .dir off → after (.switchSequence m) fun t => t.pending = s.pending ++ [⟨none, .smgEntryArrive m.grp x.next (.dir off m.data)⟩]
            ∧ groupOf t m.grp = some { x with
                next := x.next + 1, wait := x.wait ++ [(x.next, [s.pkg], [m])], owed := SMap.set x.owed s.pkg (owes x s.pkg + 1) })
          ∧ (m.kind = .red op fmt off → x.round = some r → x.held = [] → r.op = op → r.fmt = fmt → r.off = off → r.want = [s.pkg] →
              (∀ z ∈ r.data, z.data.length = m.data.length) → after (.switchSequence m) fun t => t.pending = s.pending ++
                [⟨none, .smgEntryArrive m.grp x.next (.dir off (roundResult { r with data := r.data ++ [m] }))⟩])))
    ∧ (SMap.get? s.fab.member g = some y → y.ahead = [] → y.leave = none →
        (n < y.nextN → after (.smgEntryArrive g n e) fun t => t.pending = s.pending ++ [⟨none, .smgMemberAck g s.pkg n⟩] ∧ t.hbm = s.hbm)
        ∧ (y.nextN < n → after (.smgEntryArrive g n e) fun t => t.pending = s.pending ∧ t.hbm = s.hbm
          ∧ SMap.get? t.fab.member g = some { y with ahead := [(n, e)] })
        ∧ (n = y.nextN → memOk s = true → plainHbm s y.pa (2 ^ y.k * 65536) → 8 ≤ off → off + d.length ≤ 2 ^ y.k * 65536 →
          after (.smgEntryArrive g n (.dir off d)) fun t => t.pending = s.pending ++ [⟨none, .smgMemberAck g s.pkg n⟩]
            ∧ SMap.get? t.fab.member g = some { y with nextN := n + 1 }
            ∧ ∀ a, Memory.read t.hbm.mem a = if y.pa + off ≤ a ∧ a < y.pa + off + d.length then d.getD (a - y.pa - off) 0
                else if y.pa ≤ a ∧ a < y.pa + 8 then BitVec.ofNat 8 (n / 2 ^ (8 * (a - y.pa))) else Memory.read s.hbm.mem a))
    ∧ (groupOf s g = some x → x.queue = [] → let back : Group := { x with owed := SMap.set x.owed p (owes x p - 1) }
        (x.wait = [(n, [p], [m])] → m.pkg = s.pkg → after (.smgMemberAck g p n) fun t => groupOf t g = some { back with wait := [] }
          ∧ t.pending = s.pending ++ [⟨none, .sequencedCommandComplete (coreOf m.ctx) m.cmd none⟩])
        ∧ (x.wait = [(n, [p, q], cmds)] → p ≠ q → after (.smgMemberAck g p n) fun t => groupOf t g = some { back with wait := [(n, [q], cmds)] }
          ∧ t.pending = s.pending))
    ∧ ((engOf s core).sq.find? (fun c => c.id = id) = some c →
        (let e := Ev.sequencedCommandComplete core id none
         does e s (countEv (setEng (given s e) core fun e => { e with sq := e.sq.filter fun c => c.id != id }) c.ctx c.tid c.ev))
        ∧ (let e := Ev.sequencedCommandComplete core id (some sub)
           does e s (engineFault (setEng (given s e) core fun e => { e with sq := e.sq.map fun c => if c.id = id then { c with fault := some sub } else c })
             c.ctx c.tid core (.scmd id) c.queue (qAsid s c.queue) 3 c.cmdno sub 0 0 (sqStatus c))))


/-- Latches, barriers and queues (R382, R385, R396 to R402, R404, R438): a latch is set; a barrier's count is taken when nobody
has arrived; enabling a queue that is off starts it with its indices at 0, its class's share and, where it takes checkpoints, its first interval;
disabling a running one drains it; an agent that may not write the queue's registers changes nothing; a doorbell within the ring and ahead of the last is taken, any other sets the error bit; the
host's result is applied to the record that it holds; a ring's next descriptor that can be read becomes a root task. -/
def Obligations.QueuesAreRunAndTaken : Prop :=
  ∀ (s s1 s2 : State) (c q pa k : Nat) (w : Word) (b : Writer) (f : Pf) (t : Task) (h : BitVec 32),
    let after (e : Ev) (P : State → Prop) : Prop := ∃ t, does e s t ∧ P t
    let x := qst s q
    let i := (pa - 0xF00001240000) / 8
    let z := barOf s (i / 8) (i % 8)
    let n := min 32 (w.toNat % 2 ^ 6)
    let p : BitVec 32 := w.setWidth 32
    let ckpt : Prop := 20 ≤ w.toNat / 2 ^ 26 % 2 ^ 6 ∧ w.toNat / 2 ^ 26 % 2 ^ 6 ≤ 34
    let g := given s (.rootTaskTake q)
    let va : Word := (devGet s (qReg q 8) &&& 0x00FFFFFFFFFFFFC0) + BitVec.ofNat 64 (64 * (x.cons.toNat % 2 ^ qLsz s q))
    does (.latchSet c) s (updCtx (given s (.latchSet c)) c fun x => { x with latch := true })
    ∧ (0xF00001240000 ≤ pa → pa < 0xF00001240600 → after (.cbarWrite pa w b) fun t =>
        barOf t (i / 8) (i % 8) = { z with next := n, count := if z.arrived = 0 then n else z.count })
    ∧ (mayWrite (qReg q 0) b = false → does (.qctlEnable q w b) s (given s (.qctlEnable q w b)) ∧ does (.qctlDisable q w b) s (given s (.qctlDisable q w b)))
    ∧ (mayWrite (qReg q 0) b = true → x.st = 0 → after (.qctlEnable q w b) fun t => (qst t q).st = 1 ∧ (qst t q).prod = 0 ∧ (qst t q).cons = 0
        ∧ devGet t (qReg q 0) = (w &&& 0x0000FFFFFEFFFF80) ||| 0x8000000000000000
        ∧ (q < 64 → devGet t (0xF00000C10100 + 8 * (w.toNat / 2 ^ 16 % 2 ^ 4)) = devGet s (qReg q 0x48) &&& 0x1FF)
        ∧ (ckpt → (qst t q).interval = some s.clk ∧ SMap.get? t.undo q = some []) ∧ (¬ ckpt → (qst t q).interval = x.interval))
    ∧ (x.st ≠ 0 → does (.qctlEnable q w b) s (given s (.qctlEnable q w b)))
    ∧ (mayWrite (qReg q 0) b = true → x.st = 0 → after (.qctlDisable q w b) fun t => (qst t q).st = 0 ∧ devGet t (qReg q 0) = w &&& 0x0000FFFFFEFFFF80)
    ∧ (mayWrite (qReg q 0) b = true → x.st = 1 → after (.qctlDisable q w b) fun t => (qst t q).st = (if queueBusy s q then 2 else 0)
        ∧ (devGet t (qReg q 0)).getLsbD 63 = false)
    ∧ (x.st = 1 → (p - x.cons).toNat ≤ 2 ^ qLsz s q → (p - x.prod).toNat < 2 ^ 31 → after (.doorbellProd q w) fun t =>
        qst t q = { x with prod := p } ∧ t.dev = s.dev)
    ∧ (x.st = 1 → (2 ^ qLsz s q < (p - x.cons).toNat ∨ 2 ^ 31 ≤ (p - x.prod).toNat) → after (.doorbellProd q w) fun t =>
        qst t q = x ∧ (devGet t (qReg q 0x60)).getLsbD 63 = true)
    ∧ (x.st ≠ 1 → does (.doorbellProd q w) s (given s (.doorbellProd q w)))
    ∧ (x.hostRec = some k → s.car.pf = [(k, f)] → s.car.pfWait = [] → w = 0 → after (.doorbellFres q w) fun t =>
        (qst t q).hostRec = none ∧ t.car.pf = [] ∧ ∀ m, faulted t m = false)
    ∧ (x.hostRec = some k → SMap.get? s.car.pf k = some f → w ≠ 0 → ∃ u, u.car.pf = SMap.erase s.car.pf k
        ∧ u.ctx = s.ctx ∧ u.dev = s.dev ∧ does (.doorbellFres q w) s (queueFail u f.fault.queue))
    ∧ (x.hostRec = none → does (.doorbellFres q w) s (given s (.doorbellFres q w)))
    ∧ (faulted s (.caravan q) = false → x.completions = [] →
        (mayTake s q = true → readTask g (leader s) q va = (.ok t, s1) →
          allocFut s1 (rootDie s1 t) false { st := .running, count := 1, held := true, left := 1, queue := q } = some (h, s2) →
          after (.rootTaskTake q) fun u => (qst u q).cons = (qst s1 q).cons + 1
            ∧ ∃ y ∈ allTasks u, y.own = h ∧ y.root = some x.cons.toNat ∧ y.entry = t.entry ∧ y.tid = s1.car.tid + 1)
        ∧ (mayTake s q = false → does (.rootTaskTake q) s (queueSettle g q)))


/-- Placement, reclamation and pre-emption (R194, R197, R206, R405 to R411): the task that a dispatcher chooses leaves its list and starts on
the core's free context, with its entry, argument, index, future and stack in place; a range's next indices become tasks of the die that asked; a
reclaimed task that is revocable and not pinned stops, a pinned one runs on as an orphan; one whose `tend` has issued goes on (R221); a pre-emptor begins its victim's save, which completes a `wfi` there (R290). -/
def Obligations.TasksArePlacedAndReclaimed : Prop :=
  ∀ (s : State) (core c die key tid : Nat) (r : Ready) (z : RangeC) (rest : List (Nat × RangeC)) (t : Task) (f : Future) (l : List Nat),
    let after (e : Ev) (P : State → Prop) : Prop := ∃ t, does e s t ∧ P t
    (toPlace s core = some r → r.saved = none → freeCtx s core = some c → takeAcc s core r.task.demand = some l →
      after (.taskPlace core) fun u => (∀ y ∈ u.car.ready, y.task.tid ≠ r.task.tid)
        ∧ (ctxOf u c).pc = r.task.entry ∧ (ctxOf u c).phys = l ∧ (∃ t, (ctxOf u c).task = some t ∧ t.tid = r.task.tid)
        ∧ rdS (ctxOf u c) 1 = r.task.arg ∧ rdS (ctxOf u c) 62 = r.task.stack ∧ rdS (ctxOf u c) 3 = r.task.own.setWidth 64
        ∧ rdS (ctxOf u c) 2 = (if r.task.ranged then BitVec.ofNat 64 r.task.idx else 0))
    ∧ (toPlace s core = none → does (.taskPlace core) s (given s (.taskPlace core)))
    ∧ (wantedRanges s die = (key, z) :: rest → let n := max 1 (min 64 ((z.n - z.next) / 16))
        after (.rangeChunkRequest die) fun u => ∃ l, u.car.ready = s.car.ready ++ l ∧ l.map (fun y => y.task.idx) = (List.range n).map (z.next + ·)
          ∧ (∀ y ∈ l, y.list = .die die ∧ y.task.entry = z.task.entry)
          ∧ (z.next + n < z.n → SMap.get? u.car.range key = some { z with next := z.next + n }))
    ∧ (taskByTid s tid = some t → (qst s t.queue).st = 1 → getFut s t.own = some f →
        (∀ c, ctxOfTid s tid = some c → (ctxOf s c).ending = none) →
        (f.st = .reclaiming → t.pinned = false → t.rev = true → does (.reclamationStop tid) s (stopTask (given s (.reclamationStop tid)) t none)
          ∧ (ctxOfTid s tid = some c → t.tid = tid → after (.reclamationStop tid) fun u => (ctxOf u c).task = none))
        ∧ (f.st = .reclaiming → t.pinned = true → SMap.has s.car.range (hKey t.own) = false → f.left ≤ 1 →
          after (.reclamationStop tid) fun u => getFut u t.own = some { f with st := .orphan } ∧ u.ctx = s.ctx)
        ∧ (f.st ≠ .reclaiming → does (.reclamationStop tid) s (given s (.reclamationStop tid))))
    ∧ (taskByTid s tid = some t → (qst s t.queue).st = 1 → ctxOfTid s tid = some c → (ctxOf s c).ending.isSome = true →
        does (.reclamationStop tid) s (given s (.reclamationStop tid)))
    ∧ (s.car.ready.find? (fun r => r.task.tid = tid) = some r → preemptor s r = true → victimFor s r = some c →
        (s.car.saving.any fun v => v.ctx = c) = false → after (.preemption tid) fun u =>
          u.car.saving = s.car.saving ++ [⟨c, s.clk⟩] ∧ u.car.claim = s.car.claim ++ [(tid, coreOf c)]
          ∧ ctxOf u c = { ctxOf s c with wfi := (ctxOf s c).wfi.map fun _ => [] } ∧ ∀ k, k ≠ c → ctxOf u k = ctxOf s k)

/-- Saves, restores and the watchdog (R427 to R437): a save whose conditions hold writes the image, gives the context up and leaves the
task in a list, loses the context where a write faults, and otherwise waits; at the bound its context is lost; a restore whose image and tiles are there gives the context the image's
registers; an expired watchdog is the trap with code 72,
taken once every result of the context has arrived. -/
def Obligations.ContextsAreSavedAndRestored : Prop :=
  ∀ (s s1 s2 s3 : State) (c : Nat) (r : Ready) (v : Saved) (b : List Byte) (x : Restore) (ps : List (Nat × Nat)) (m : Nat),
    let after (e : Ev) (P : State → Prop) : Prop := ∃ t, does e s t ∧ P t
    let saving : Bool := s.car.saving.any fun v => v.ctx = c
    let bound := max 1 ((devGet s 0xF00001340048).toNat % 2 ^ 32) * 1024
    let g := given s (.contextSave c)
    let d := drainCtx g c
    let img := imageOf d c (mCmds d c) (recVers d c)
    let h := given s (.contextRestore c)
    (saving = true → saveQuiet s c = true → after (.contextSave c) fun t => match imgWrite d (taskOf d c) 0 img (img.length / 64 + 1) with
        | (.ok _, s1) => (ctxOf t c).task = none ∧ (∀ v ∈ t.car.saving, v.ctx ≠ c)
          ∧ ∃ r ∈ t.car.ready, r.saved.isSome = true ∧ r.task.tid = (taskOf s1 c).tid
        | (.fault _ _, s1) => t = loseContext s1 c
        | (.park, s1) => t = s1)
    ∧ ((saving = false ∨ saveQuiet s c = false) → does (.contextSave c) s g)
    ∧ (s.car.saving = [⟨c, m⟩] →
        (m + bound ≤ s.clk → does (.saveBoundExpiry c) s (loseContext (given s (.saveBoundExpiry c)) c))
        ∧ (s.clk < m + bound → does (.saveBoundExpiry c) s (given s (.saveBoundExpiry c))))
    ∧ (s.car.restoring.find? (fun y => y.1 = c) = some (c, r) → r.saved = some v →
        (v.owed = 0 → (if v.regs.isSome then (.ok [], h) else imgRead h r.task 0 0x130000) = (CarR.ok b, s1) → readImage r v (ctxOf s1 c).phys b = some x →
          pinLinesNow (acquireAt s1 (coreOf c) 4) c x.pins = (some ps, s2) → linesRoom s2 (coreOf c) x.lines = some s3 →
          (∀ p ∈ ps, (ctcLine s3 (coreOf c) p.1).isSome = true) → after (.contextRestore c) fun t =>
            (ctxOf t c).pc = x.x.pc ∧ (ctxOf t c).s = x.x.s ∧ (ctxOf t c).v = x.x.v ∧ (ctxOf t c).task.isSome = true
            ∧ ∀ y ∈ t.car.restoring, y.1 ≠ c)
        ∧ (v.owed ≠ 0 → does (.contextRestore c) s h))
    ∧ (wdogDue s c = true → allHere (ctxOf s c) = true → does (.watchdogExpire c) s (takeTrap (given s (.watchdogExpire c)) c 72 0 0 none))
    ∧ (wdogDue s c = true → allHere (ctxOf s c) = false →
        does (.watchdogExpire c) s (updCtx (sampleAll (given s (.watchdogExpire c)) c) c fun x => { x with block := true }))
    ∧ (wdogDue s c = false → does (.watchdogExpire c) s (given s (.watchdogExpire c)))

/-- Checkpoints, rollback and failed dies (R198, R402, R437 to R441): an interval that ends with every context quiet and every tile clean
leaves a checkpoint of the queue's tasks and an empty undo log; before its end nothing happens; a rollback writes every logged line back, runs the queue again and
gives its tasks back, and without a checkpoint puts the queue in error; a failed die is recorded, the
management core told, and the tasks of its contexts lost. -/
def Obligations.CheckpointsAreTakenAndRestored : Prop :=
  ∀ (s s1 : State) (q d ln : Nat) (u : Undo) (k : Ckpt),
    let after (e : Ev) (P : State → Prop) : Prop := ∃ t, does e s t ∧ P t
    let g := given s (.checkpointIntervalEnd q)
    let quiet := cleanTiles (flushPlain ((queueCtxs s q).foldl drainCtx g) q) (qAsid ((queueCtxs s q).foldl drainCtx g) q)
    (intervalDue s q = false → does (.checkpointIntervalEnd q) s g)
    ∧ (intervalDue s q = true → (queueCtxs s q).all (ctxQuiet s) = true → tilesClean quiet (qAsid quiet q) = true →
        tablePut quiet (qAsid quiet q) = some s1 → after (.checkpointIntervalEnd q) fun t => (qst t q).interval = some s1.clk
          ∧ (qst t q).ckptReq = false ∧ SMap.get? t.undo q = some [] ∧ SMap.get? t.car.ckpt q = some (takeCkpt s1 q))
    ∧ ((qst s q).st = 3 → (∀ t ∈ allTasks s, t.queue ≠ q) →
        (SMap.get? s.car.ckpt q = none → after (.rollbackComplete q) fun t => (qst t q).st = 4)
        ∧ (SMap.get? s.car.ckpt q = some k → memOk s = true → k.sq = [] → (qst s q).completions = [] → SMap.getD s.undo q [] = [(ln, u)] →
          after (.rollbackComplete q) fun t => (qst t q).st = 1 ∧ SMap.get? t.undo q = some []
            ∧ (∀ r ∈ k.ready, ∃ y ∈ t.car.ready, y.task = r.task ∧ y.saved = r.saved)
            ∧ (s.tiles.oasis = [] → s.moves = [] → ∀ a, Memory.read t.hbm.mem a =
              if a / 128 = ln then BitVec.ofNat 8 (u.data.toNat / 2 ^ (8 * (a % 128))) else Memory.read s.hbm.mem a)))
    ∧ ((qst s q).st ≠ 3 → does (.rollbackComplete q) s (given s (.rollbackComplete q)))
    ∧ (∃ u, d ∈ u.car.failed ∧ (devGet u 0xF00001500000).getLsbD 0 = true ∧ u.ctx = s.ctx
        ∧ does (.dieFailed d) s (((s.ctx.filter fun (c, x) => dieOf c = d && x.task.isSome).map (·.1)).foldl loseContext u))


/-- The matrix engine (R318, R320, R323, R325, R329 to R331, R338 to R340, R414, R415): at a slot boundary it takes the slot's owner, and does
nothing before it has; the one command that may run advances by one row or k-step: `mzero` clears its row, `mld` converts its row into the
accumulator, a product adds its k-step's terms to every element of its block; no other row changes; a command that is done retires:
its flags are ORed in, its accumulators are free, and it is gone. -/
def Obligations.MatrixStepsComputeAndRetire : Prop :=
  ∀ (s : State) (core id : Nat) (m : MCmd) (f : BitVec 3) (tl : TileOp) (off : BitVec 8) (l lw : TLine) (a w : Binding) (p : Prod) (g : AFmt),
    let after (e : Ev) (P : State → Prop) : Prop := ∃ t, does e s t ∧ P t
    let e := engOf s core
    let x := ctxOf s m.ctx
    let acc := p.acc.toNat
    let slot := s.clk / 2 ^ 10 % 2 ^ 6
    let sorted (x : Ctx) (a : Nat) : Prop := (accOf x a).rows.Pairwise fun p q => p.1 < q.1
    let still (t : State) (r i : Nat) : Prop := ∀ k n, k ≠ i → accElem (ctxOf t m.ctx) r k n = accElem x r k n
    let now (t : State) (r : Nat) (P : MCmd → MCmd) : Prop := ∃ k, mOf t core m.id = some k ∧ { k with flags := m.flags } = P { m with parked := false, acc := r, started := true }
    (after (.matrixSlotBoundary core) fun t => engOf t core = { e with slot := slot, own := slotOwner s slot })
    ∧ (e.slot ≠ slot → does (.matrixKstep core) s (given s (.matrixKstep core)))
    ∧ (e.slot = slot → e.m = [] → after (.matrixKstep core) fun t => engOf t core = { e with run := none })
    ∧ (e.slot = slot → e.m = [m] → m.deps = [] → m.done = false → faulted s (.mcmd core m.id) = false →
        (m.op = .mzero f → sorted x f.toNat → after (.matrixKstep core) fun t => now t f.toNat (fun k => { k with row := m.row + 1, done := decide (128 ≤ m.row + 1) })
          ∧ (∀ n, accElem (ctxOf t m.ctx) f.toNat m.row n = 0) ∧ still t f.toNat m.row)
        ∧ (m.op = .mld f tl off → m.binds = [some a] → mPinned s core m a (m.vals.map BitVec.toNat) = some l → tileFault x (taskOf s m.ctx).demand m f off = none →
            ldFmt (dTfmt a.desc) = some g → g ≠ .f64 → sorted x f.toNat →
          after (.matrixKstep core) fun t => now t f.toNat (fun k => { k with row := m.row + 1, done := decide (dTR a.desc ≤ m.row + 1) })
            ∧ (∀ n, n < dTC a.desc → accElem (ctxOf t m.ctx) f.toNat (offRow off + m.row) (offCol off + n) =
                (conv (dTfmt a.desc) (AFmt_code g) .rne (dFsat a.desc) (edgeElem a.desc (m.vals.map BitVec.toNat) l.rows m.row n)).1 % 2 ^ 32)
            ∧ still t f.toNat (offRow off + m.row))
        ∧ ((∃ b c d r, m.op = .mma f b c d off r ∨ m.op = .mmaq f b c d off r ∨ m.op = .mmag f b c d off r) → m.nest = none → prodOf m = some p →
            p.ba = some a → p.bw = some w → mPinned s core m a (p.ca.map Int.toNat) = some l → mPinned s core m w (p.cw.map Int.toNat) = some lw →
            prodFault x (taskOf s m.ctx).demand p = none → prodAFmt p ≠ .f64 → acc < 8 → sorted x acc →
          after (.matrixKstep core) fun t => (∀ i n, i < dTR a.desc → n < dTC w.desc → accElem (ctxOf t m.ctx) acc (p.ro + i) (p.co + n) =
                (prodElem p a.desc w.desc l lw m.kstep (accElem x acc (p.ro + i) (p.co + n)) i n).1 % 2 ^ 32)
            ∧ (∀ i n, (i < p.ro ∨ p.ro + dTR a.desc ≤ i ∨ n < p.co ∨ p.co + dTC w.desc ≤ n) → accElem (ctxOf t m.ctx) acc i n = accElem x acc i n)))
    ∧ (mOf s core id = some m → m.id = id → m.done = true → liveIn s m.ctx m.tid = true → after (.matrixRetire core id) fun t => mOf t core id = none
        ∧ (∀ a ∈ m.accs, a < 8 → (accOf (ctxOf t m.ctx) a).busy = false) ∧ (ctxOf t m.ctx).fflags = x.fflags ||| m.flags.setWidth 64
        ∧ (m.op = .mzero f → (accOf (ctxOf t m.ctx) f.toNat).tag = .zero))
    ∧ (mOf s core id = some m → m.done = false → does (.matrixRetire core id) s (given s (.matrixRetire core id)))

/-- Copies and the completion of X commands (R356, R358, R359, R362, R363, R371): a copy whose descriptor is not read yet reads it; one
that has nothing to wait for moves its next packet, from its source to its translated destination, and goes on, and what it has read no longer holds later commands (R151); the gateway's
taking of an `xremote`'s packets is recorded; a command that has done everything writes its record or result, leaves
the queue and counts its event; an unfinished one stays. -/
def Obligations.CopiesMoveAndCommandsComplete : Prop :=
  ∀ (s s0 s1 s2 : State) (core id va : Nat) (k : XCmd) (b bs out : List Byte) (ts : List (Nat × Nat × Nat × Nat × Nat)),
    let after (e : Ev) (P : State → Prop) : Prop := ∃ t, does e s t ∧ P t
    let e := Ev.copyPacket core id
    let g := given s e
    let h := given s (.xCommandComplete core id)
    let d := cDstRow k.kind b k.row + k.off
    let n := packetLen b k.off d
    let leaves (t : State) : Prop := xOf t core id = none ∧ (liveIn s k.ctx k.tid = true → ∀ j, (j : Nat) = k.ev → (hj : j < 8) →
      (ctxOf t k.ctx).ev[j] = (ctxOf s k.ctx).ev[j] + 1)
    xOf s core id = some k → k.id = id → faulted s (.xcmd core id) = false →
    (k.kind < 4 → k.cancel = false → k.blk = none → does e s (readDesc g core k))
    ∧ (k.kind < 4 → k.kind ≠ 2 → k.cancel = false → k.blk = some b → copied k = false → k.deps = [] → 0 < n → bsuOn s1 = false →
        packetSrc (xWho core k) k b n g = (.ok (bs, List.replicate n false), s0) → bs.length = n →
        eTargets (xWho core k) 2 (cutsAt 512 d n) s0 = (.ok ts, s1) → (∀ t ∈ ts, t.1 = s.pkg ∧ hostVisible t.2.1 t.2.2.1 = false) → s1.pkg = s.pkg →
        ePut (xWho core k) ts (bs.map some) false s1 = (.ok (), s2) → xOf s2 core id = some k → let k' := copyAdvance b n 0 k
        does e s (narrowTrack (updX (eDone s2 (ownerOf id)) core id (copyAdvance b n 0)) core k.ctx id fun t =>
          if k.kind = 1 then { t with allR := !copied k' } else if k.kind = 3 then t else { t with readB := cLeft k' b }))
    ∧ (k.kind = 2 → copied k = true → k.sent = none → let e := Ev.xremoteTaken core id
        does e s (pumpFlush (updX (given s e) core id fun k => { k with sent := some 0 }) core))
    ∧ (k.cancel = false → xFinished k = true → xWrites k = none → after (.xCommandComplete core id) leaves)
    ∧ (k.cancel = false → xFinished k = true → xWrites k = some (va, out) → bsuOn s = false → eWrite (xWho core k) va out 2 h = (.ok (), s1) →
        s1.eng = s.eng → s1.ctx = s.ctx → after (.xCommandComplete core id) leaves)
    ∧ (k.cancel = true → xWrites k = none → after (.xCommandComplete core id) leaves)
    ∧ (k.cancel = false → xFinished k = false → does (.xCommandComplete core id) s h)


/-- Boot, stops and temperature (R469 to R471, R485): a package reset boots from slot A where its stages verify, else from slot B, else
fails, and leaves the package's number and host memory as they were; a die from 100 °C on is throttled and reported, below 95 °C no longer, and at 115 °C
the package trips; a package that has tripped, or failed to boot, and has nothing left to do stops by name. -/
def Sys2Proof.Claims.PackagesBootAndTrip : Prop :=
  ∀ (s : State) (a b : BootImg) (d temp : Nat),
    let after (e : Ev) (P : State → Prop) : Prop := ∃ t, does e s t ∧ P t
    let good (i : BootImg) : Prop := ∀ k, k < 3 → stageOk k i = true
    let boots (i : BootImg) (slot : Bool) (t : State) : Prop := t.sys.stage = 3 ∧ t.sys.released = true ∧ t.sys.fail = false ∧ t.sys.slot = slot
      ∧ t.sys.fw = i.fw ∧ t.sys.config = i.digest.getD 2 0 ∧ t.pkg = s.pkg ∧ t.far = s.far ∧ (∀ p, p < 20 → (portOf t p).state = 1)
      ∧ ∀ c, (ctxOf t c).task = none
    (good a → after (.packageReset a b) (boots a false))
    ∧ (¬ good a → good b → after (.packageReset a b) (boots b true))
    ∧ (¬ good a → ¬ good b → after (.packageReset a b) fun t => t.sys.fail = true ∧ t.sys.released = false ∧ t.pkg = s.pkg ∧ t.far = s.far)
    ∧ (d < 4 → let heat (t : State) : Prop := (devGet t 0xF00001500018).toNat / 2 ^ (8 * d) % 2 ^ 8 = temp % 2 ^ 8
        (100 ≤ temp → after (.thermalThrottle d temp) fun t => heat t ∧ d ∈ t.sys.throttled ∧ (devGet t 0xF00001500000).getLsbD 6 = true)
        ∧ (temp < 100 → after (.thermalThrottle d temp) fun t => heat t ∧ t.sys = s.sys)
        ∧ (temp < 95 → after (.thermalRecover d temp) fun t => heat t ∧ d ∉ t.sys.throttled)
        ∧ (95 ≤ temp → after (.thermalRecover d temp) fun t => heat t ∧ t.sys = s.sys)
        ∧ (115 ≤ temp → after (.thermalTrip d temp) fun t => t.sys.tripped = true)
        ∧ (temp < 115 → after (.thermalTrip d temp) fun t => heat t ∧ t.sys = s.sys))
    ∧ (agenda s = [] → s.sys.tripped = true → step s = .fault .packageTripped)
    ∧ (agenda s = [] → s.sys.tripped = false → s.sys.fail = true → step s = .fault .bootFailed)

/-- Attestation, the pools' registers and register writes (R110, R396, R472 to R479): `go` begins a report and an extension changes its one
measurement register, each unless a report is being made, which holds extensions back; a pushed frame lies on top of its pool, a full
pool interrupts; a pop shortens the far release list; a register takes its written fields from an agent that may write it,
and no other write changes anything. -/
def Obligations.RegistersAreWritten : Prop :=
  ∀ (s : State) (w : Word) (b : Writer) (d t0 pa q off n : Nat) (m : Word),
    let after (e : Ev) (P : State → Prop) : Prop := ∃ t, does e s t ∧ P t
    let nonce := if w.getLsbD 2 then nonceBytes s else []
    let reg := Ev.registerWrite pa w b
    let base := (devGet s (dieReg d 0)).toNat / 2 ^ 2 % 2 ^ 46 * 4
    let k := reg32 s (dieReg d 0x10)
    let f := w.toNat % 2 ^ 32
    let held := reg32 s (dieReg d 0x60)
    (s.sys.busy = none → after (.atctlGo w b) fun t => t.sys.busy = some s.clk)
    ∧ (s.sys.busy = some t0 → after (.atctlGo w b) fun t => t.sys.busy = some t0)
    ∧ (s.sys.busy = some t0 → s.sys.held = [] → after .attestationReportDone fun t => t.sys.busy = none ∧ t.sys.mr = s.sys.mr
        ∧ t.sys.report = some (reportOf s t0 s.free) ∧ (devGet t 0xF00001500100).getLsbD 61 = true)
    ∧ (s.sys.busy = none → does .attestationReportDone s (given s .attestationReportDone))
    ∧ (s.sys.busy = none → w.toNat / 2 ^ 3 % 2 ^ 5 = 0 → after (.mrext w b) fun t => t.sys.busy = none ∧ ∀ i : Fin 8, t.sys.mr[i] =
        if (i : Nat) = 4 + w.toNat % 4 then Config.sm3 (leBytes s.sys.mr[i].toNat 32 ++ leBytes (Config.sm3 (nonce ++ leBytes w.toNat 8)).toNat 32)
        else s.sys.mr[i])
    ∧ (s.sys.busy = some t0 → after (.mrext w b) fun t => t.sys = { s.sys with held := s.sys.held ++ [w] })
    ∧ (mayWrite (dieReg d 0x18) b = false → does (.fppush d w b) s (given s (.fppush d w b)))
    ∧ (mayWrite (dieReg d 0x18) b = true → s.mmu.poolWait = [] →
        (k < reg32 s (dieReg d 8) → after (.fppush d w b) fun t => reg32 t (dieReg d 0x10) = k + 1
          ∧ (memOk s = true → plainHbm s (base + 4 * k) 4 → (base + 4 * k) / 65536 ≠ f → ofLe (Memory.bytes t.hbm.mem (base + 4 * k) 4) = f))
        ∧ (reg32 s (dieReg d 8) ≤ k → after (.fppush d w b) fun t => t.hbm = s.hbm ∧ (devGet t 0xF00001500000).getLsbD 7 = true))
    ∧ (0 < held → after (.frpop d) fun t => reg32 t (dieReg d 0x60) = held - 1)
    ∧ (held = 0 → does (.frpop d) s (given s (.frpop d)))
    ∧ (pa < 2 ^ 48 → (mayWrite pa b = false ∨ pa % 8 ≠ 0) → does reg s (given s reg))
    ∧ (pa < 2 ^ 48 → mayWrite pa b = true → pa % 8 = 0 →
        (plainMask pa = some m → s.sys.busy = none → does reg s (devSet (given s reg) pa (w &&& m)))
        ∧ (q < 1024 → off < 0x100 → pa = qReg q off → queueMask off = some m →
          ((qst s q).st = 0 → does reg s (devSet (given s reg) pa (w &&& m))) ∧ ((qst s q).st ≠ 0 → does reg s (given s reg)))
        ∧ (n < 384 → pa = 0xF00001000000 + 0x1000 * n + 0x10 → after reg fun t => chan t n = { chan s n with hecor := w.toNat % 2 ^ 32 })
        ∧ (n < 384 → pa = 0xF00001000000 + 0x1000 * n + 0x28 → after reg fun t =>
            chan t n = { chan s n with poisonV := (chan s n).poisonV && !w.getLsbD 63 })
        ∧ (pa = 0xF00001500000 → does reg s (devSet (given s reg) pa (devGet s pa &&& ~~~(w &&& 0xFF)))))

/-- Power (R481 to R483): a tolerance is what was written, and wakes a unit whose state takes longer; an idle unit whose dwell has passed
enters its state, where a cluster's retention leaves no L1D line; an arrival wakes a unit in a low state, but no cluster that is off;
once the wake time has passed it is fully on. -/
def Sys2Proof.Claims.PowerFollowsTolerance : Prop :=
  ∀ (s : State) (u pa at_ : Nat) (w : Word) (b : Writer) (p : PwState),
    let after (e : Ev) (P : State → Prop) : Prop := ∃ t, does e s t ∧ P t
    let x := unitOf s u
    (unitAt pa = some u → after (.pwltrWrite pa w b) fun t => devGet t pa = w &&& 0xFFFFFFFF
        ∧ (x.waking = none → pwState u x.st = some p → w.toNat % 2 ^ 32 < p.ns → (unitOf t u).waking = some (s.clk + p.clocks))
        ∧ (x.waking = none → pwState u x.st = some p → p.ns ≤ w.toNat % 2 ^ 32 → (unitOf t u).waking = none ∧ (unitOf t u).st = x.st))
    ∧ (unitAt pa = none → does (.pwltrWrite pa w b) s (given s (.pwltrWrite pa w b)))
    ∧ (pwNext s u = none → does (.powerDwellExpiry u) s (given s (.powerDwellExpiry u)))
    ∧ (pwNext s u = some p →
        (u < 24 → p.code = 1 → after (.powerDwellExpiry u) fun t => unitOf t u = { x with st := 1 } ∧ t.l1d = s.l1d)
        ∧ (u < 24 → p.code = 2 → after (.powerDwellExpiry u) fun t => unitOf t u = { x with st := 2 }
          ∧ (x.st < 2 → ∀ c, c / 8 = u → (l1Of t c).lines = []))
        ∧ (24 ≤ u → u < 36 → after (.powerDwellExpiry u) fun t => unitOf t u = { x with st := p.code, idle := some s.clk } ∧ t.hbm = s.hbm)
        ∧ (36 ≤ u → after (.powerDwellExpiry u) fun t => unitOf t u = { x with st := 1 } ∨ unitOf t u = { x with idle := some s.clk }))
    ∧ (pwState u x.st = some p → x.waking = none →
        ((24 ≤ u ∨ x.st ≠ 3) → after (.powerWake u) fun t => unitOf t u = { x with waking := some (s.clk + p.clocks), idle := none })
        ∧ (u < 24 → x.st = 3 → does (.powerWake u) s (given s (.powerWake u))))
    ∧ (x.waking = some at_ → at_ ≤ s.clk → after (.wakeComplete u) fun t => (unitOf t u).st = 0 ∧ (unitOf t u).waking = none)
    ∧ (x.waking = some at_ → s.clk < at_ → does (.wakeComplete u) s (given s (.wakeComplete u)))

/-- Boot, stops, temperature and power: both of `PackagesBootAndTrip` and `PowerFollowsTolerance`. -/
def Obligations.PackagesBootTripAndSavePower : Prop :=
  Claims.PackagesBootAndTrip ∧ Claims.PowerFollowsTolerance
end

