-- ==== Sys2Proof/Laws/Encoding.lean ====
section
/-! SUPPORT. The formats and codes of the encoding read back: unpacking a packed format gives its fields, and decoding a code
gives what it codes (R228, R229, R231, R232). -/
namespace Sys2Proof

/-! ## Fields of a concatenation -/

theorem field_lo {n m : Nat} (x : BitVec n) (y : BitVec m) {i w : Nat} (h : i + w ≤ m) :
    (x ++ y).extractLsb' i w = y.extractLsb' i w := by
  ext j hj
  have h1 : i + j < m := by omega
  simp [BitVec.getLsbD_append, h1]
theorem field_hi {n m : Nat} (x : BitVec n) (y : BitVec m) {i w : Nat} (h : m ≤ i) :
    (x ++ y).extractLsb' i w = x.extractLsb' (i - m) w := by
  ext j hj
  have h1 : ¬ i + j < m := by omega
  have h2 : i + j - m = i - m + j := by omega
  simp [BitVec.getLsbD_append, h1, h2]
theorem field_all {n : Nat} (x : BitVec n) : x.extractLsb' 0 n = x := by
  ext j hj
  simp

/-! ## Formats -/

theorem RRR.of_pack (f : RRR) : RRR.of f.pack = f := by
  have h0 : (RRR.of f.pack).d = f.d := (field_hi _ _ (by decide)).trans ((field_hi _ _ (by decide)).trans ((field_hi _ _ (by decide)).trans ((field_hi _ _ (by decide)).trans (field_all _))))
  have h1 : (RRR.of f.pack).a = f.a := (field_hi _ _ (by decide)).trans ((field_hi _ _ (by decide)).trans ((field_hi _ _ (by decide)).trans ((field_lo _ _ (by decide)).trans (field_all _))))
  have h2 : (RRR.of f.pack).b = f.b := (field_hi _ _ (by decide)).trans ((field_hi _ _ (by decide)).trans ((field_lo _ _ (by decide)).trans (field_all _)))
  have h3 : (RRR.of f.pack).q = f.q := (field_hi _ _ (by decide)).trans ((field_lo _ _ (by decide)).trans (field_all _))
  have h4 : (RRR.of f.pack).ty = f.ty := (field_lo _ _ (by decide)).trans (field_all _)
  cases hx : RRR.of f.pack; rw [hx] at h0 h1 h2 h3 h4; cases f; simp_all
theorem RRI.of_pack (f : RRI) : RRI.of f.pack = f := by
  have h0 : (RRI.of f.pack).d = f.d := (field_hi _ _ (by decide)).trans ((field_hi _ _ (by decide)).trans (field_all _))
  have h1 : (RRI.of f.pack).a = f.a := (field_hi _ _ (by decide)).trans ((field_lo _ _ (by decide)).trans (field_all _))
  have h2 : (RRI.of f.pack).imm = f.imm := (field_lo _ _ (by decide)).trans (field_all _)
  cases hx : RRI.of f.pack; rw [hx] at h0 h1 h2; cases f; simp_all
theorem RI.of_pack (f : RI) : RI.of f.pack = f := by
  have h0 : (RI.of f.pack).d = f.d := (field_hi _ _ (by decide)).trans (field_all _)
  have h1 : (RI.of f.pack).imm = f.imm := (field_lo _ _ (by decide)).trans (field_all _)
  cases hx : RI.of f.pack; rw [hx] at h0 h1; cases f; simp_all
theorem BRF.of_pack (f : BRF) : BRF.of f.pack = f := by
  have h0 : (BRF.of f.pack).p = f.p := (field_hi _ _ (by decide)).trans ((field_hi _ _ (by decide)).trans (field_all _))
  have h1 : (BRF.of f.pack).neg = f.neg := (field_hi _ _ (by decide)).trans ((field_lo _ _ (by decide)).trans (field_all _))
  have h2 : (BRF.of f.pack).off = f.off := (field_lo _ _ (by decide)).trans (field_all _)
  cases hx : BRF.of f.pack; rw [hx] at h0 h1 h2; cases f; simp_all
theorem TILE.of_pack (f : TILE) : TILE.of f.pack = f := by
  have h0 : (TILE.of f.pack).r = f.r := (field_hi _ _ (by decide)).trans ((field_hi _ _ (by decide)).trans ((field_hi _ _ (by decide)).trans ((field_hi _ _ (by decide)).trans (field_all _))))
  have h1 : (TILE.of f.pack).b = f.b := (field_hi _ _ (by decide)).trans ((field_hi _ _ (by decide)).trans ((field_hi _ _ (by decide)).trans ((field_lo _ _ (by decide)).trans (field_all _))))
  have h2 : (TILE.of f.pack).c0 = f.c0 := (field_hi _ _ (by decide)).trans ((field_hi _ _ (by decide)).trans ((field_lo _ _ (by decide)).trans (field_all _)))
  have h3 : (TILE.of f.pack).c1 = f.c1 := (field_hi _ _ (by decide)).trans ((field_lo _ _ (by decide)).trans (field_all _))
  have h4 : (TILE.of f.pack).z = f.z := (field_lo _ _ (by decide)).trans (field_all _)
  cases hx : TILE.of f.pack; rw [hx] at h0 h1 h2 h3 h4; cases f; simp_all
theorem CMD.of_pack (f : CMD) : CMD.of f.pack = f := by
  have h0 : (CMD.of f.pack).f1 = f.f1 := (field_hi _ _ (by decide)).trans ((field_hi _ _ (by decide)).trans ((field_hi _ _ (by decide)).trans (field_all _)))
  have h1 : (CMD.of f.pack).f2 = f.f2 := (field_hi _ _ (by decide)).trans ((field_hi _ _ (by decide)).trans ((field_lo _ _ (by decide)).trans (field_all _)))
  have h2 : (CMD.of f.pack).f3 = f.f3 := (field_hi _ _ (by decide)).trans ((field_lo _ _ (by decide)).trans (field_all _))
  have h3 : (CMD.of f.pack).f4 = f.f4 := (field_lo _ _ (by decide)).trans (field_all _)
  cases hx : CMD.of f.pack; rw [hx] at h0 h1 h2 h3; cases f; simp_all
theorem MOD.of_pack (f : MOD) : MOD.of f.pack = f := by
  have h0 : (MOD.of f.pack).rm = f.rm := (field_hi _ _ (by decide)).trans ((field_hi _ _ (by decide)).trans ((field_hi _ _ (by decide)).trans ((field_hi _ _ (by decide)).trans ((field_hi _ _ (by decide)).trans ((field_hi _ _ (by decide)).trans (field_all _))))))
  have h1 : (MOD.of f.pack).sat = f.sat := (field_hi _ _ (by decide)).trans ((field_hi _ _ (by decide)).trans ((field_hi _ _ (by decide)).trans ((field_hi _ _ (by decide)).trans ((field_hi _ _ (by decide)).trans ((field_lo _ _ (by decide)).trans (field_all _))))))
  have h2 : (MOD.of f.pack).ord = f.ord := (field_hi _ _ (by decide)).trans ((field_hi _ _ (by decide)).trans ((field_hi _ _ (by decide)).trans ((field_hi _ _ (by decide)).trans ((field_lo _ _ (by decide)).trans (field_all _)))))
  have h3 : (MOD.of f.pack).sc = f.sc := (field_hi _ _ (by decide)).trans ((field_hi _ _ (by decide)).trans ((field_hi _ _ (by decide)).trans ((field_lo _ _ (by decide)).trans (field_all _))))
  have h4 : (MOD.of f.pack).sub = f.sub := (field_hi _ _ (by decide)).trans ((field_hi _ _ (by decide)).trans ((field_lo _ _ (by decide)).trans (field_all _)))
  have h5 : (MOD.of f.pack).c = f.c := (field_hi _ _ (by decide)).trans ((field_lo _ _ (by decide)).trans (field_all _))
  have h6 : (MOD.of f.pack).aux = f.aux := (field_lo _ _ (by decide)).trans (field_all _)
  cases hx : MOD.of f.pack; rw [hx] at h0 h1 h2 h3 h4 h5 h6; cases f; simp_all
theorem CX.of_pack (f : CX) : CX.of f.pack = f := by
  have h0 : (CX.of f.pack).e1 = f.e1 := (field_hi _ _ (by decide)).trans ((field_hi _ _ (by decide)).trans ((field_hi _ _ (by decide)).trans ((field_hi _ _ (by decide)).trans (field_all _))))
  have h1 : (CX.of f.pack).e2 = f.e2 := (field_hi _ _ (by decide)).trans ((field_hi _ _ (by decide)).trans ((field_hi _ _ (by decide)).trans ((field_lo _ _ (by decide)).trans (field_all _))))
  have h2 : (CX.of f.pack).e3 = f.e3 := (field_hi _ _ (by decide)).trans ((field_hi _ _ (by decide)).trans ((field_lo _ _ (by decide)).trans (field_all _)))
  have h3 : (CX.of f.pack).e4 = f.e4 := (field_hi _ _ (by decide)).trans ((field_lo _ _ (by decide)).trans (field_all _))
  have h4 : (CX.of f.pack).aux = f.aux := (field_lo _ _ (by decide)).trans (field_all _)
  cases hx : CX.of f.pack; rw [hx] at h0 h1 h2 h3 h4; cases f; simp_all

/-- A syllable read back from its words (R227); a short one has no extension word. -/
theorem Syl.ofWords_word (y : Syl) (h : y.l = false → y.ext = 0) : Syl.ofWords y.word y.ext = y := by
  obtain ⟨l, op, opnd, ext⟩ := y
  have hl : (Syl.word ⟨l, op, opnd, ext⟩).getLsbD 31 = l := by
    simp only [Syl.word]
    rw [BitVec.getLsbD_append, BitVec.getLsbD_append]
    simp
  have ho : (Syl.word ⟨l, op, opnd, ext⟩).extractLsb' 24 7 = op :=
    (field_hi _ _ (by decide)).trans ((field_lo _ _ (by decide)).trans (field_all _))
  have hn : (Syl.word ⟨l, op, opnd, ext⟩).extractLsb' 0 24 = opnd :=
    (field_lo _ _ (by decide)).trans (field_all _)
  simp only [Syl.ofWords, hl, ho, hn]
  cases l
  · simp at h ⊢; exact h.symm
  · rfl

/-- The marker and the reserved bits of a packed header are right (R223). -/
theorem Header.good_pack (h : Header) : Header.good h.pack = true := by
  have h1 : h.pack.extractLsb' 24 8 = 0xA5#8 :=
    (field_hi _ _ (by decide)).trans ((field_hi _ _ (by decide)).trans ((field_hi _ _ (by decide)).trans
      ((field_hi _ _ (by decide)).trans ((field_hi _ _ (by decide)).trans (field_all _)))))
  have h2 : h.pack.extractLsb' 17 7 = 0#7 :=
    (field_hi _ _ (by decide)).trans ((field_hi _ _ (by decide)).trans ((field_hi _ _ (by decide)).trans
      ((field_hi _ _ (by decide)).trans ((field_lo _ _ (by decide)).trans (field_all _)))))
  unfold Header.good
  rw [h1, h2]
  decide

/-! ## Codes -/

@[simp] theorem VReg.ofCode_code (r : VReg) : VReg.ofCode r.code = some r := by
  cases r with
  | own n => revert n; decide
  | g n => revert n; decide
@[simp] theorem gOfCode_gCode (g : GReg) : gOfCode (gCode g) = some g := by revert g; decide
@[simp] theorem oct_octCode (c : BitVec 3) : oct (octCode c) = some c := by revert c; decide
@[simp] theorem bindOf_bindCode (c : BitVec 5) : bindOf (bindCode c) = some c := by revert c; decide
@[simp] theorem IFmt.ofCode_code (t : IFmt) : IFmt.ofCode t.code = t := by cases t <;> rfl
@[simp] theorem FFmt.ofCode_code (t : FFmt) : FFmt.ofCode t.code = some t := by cases t <;> rfl
@[simp] theorem Rnd.ofCode_code (r : Rnd) : Rnd.ofCode r.code = some r := by
  cases r with
  | mode m => cases m <;> rfl
  | dyn => rfl
@[simp] theorem Ord.ofCode_code (o : Ord) : Ord.ofCode o.code = o := by cases o <;> rfl
@[simp] theorem Scope.ofCode_code (x : Scope) : Scope.ofCode x.code = x := by cases x <;> rfl
@[simp] theorem SCond.ofCode_code (c : SCond) : SCond.ofCode c.code = some c := by cases c <;> rfl
@[simp] theorem VCond.ofCode_code (c : VCond) : VCond.ofCode c.code = some c := by cases c <;> rfl
@[simp] theorem FCond.ofCode_code (c : FCond) : FCond.ofCode c.code = some c := by cases c <;> rfl
@[simp] theorem BrTest.ofCode_code (t : BrTest) : BrTest.ofCode t.code = some t := by cases t <;> rfl
@[simp] theorem Width.ofCode_code (w : Width) : Width.ofCode w.code = some w := by cases w <;> rfl
@[simp] theorem AWidth.ofTy_ty (w : AWidth) : AWidth.ofTy w.ty = some w := by cases w <;> rfl
@[simp] theorem RouOp.ofCode_code (o : RouOp) : RouOp.ofCode o.code = some o := by cases o <;> rfl
@[simp] theorem RingFile.ofCode_code (f : RingFile) : RingFile.ofCode f.code = f := by cases f <;> rfl
@[simp] theorem LdSize.ofCode_code (z : LdSize) : LdSize.ofCode z.code = some z := by cases z <;> rfl
@[simp] theorem SmOp.ofCode_code (o : SmOp) : SmOp.ofCode o.code = some o := by cases o <;> rfl
@[simp] theorem SmFmt.ofCode_code (t : SmFmt) : SmFmt.ofCode t.code = some t := by cases t <;> rfl
@[simp] theorem SpecReg.ofCode_code (r : SpecReg) : SpecReg.ofCode r.code = some r := by
  cases r with
  | lc n => revert n; decide
  | ev n => revert n; decide
  | _ => rfl

end Sys2Proof
end

