-- ==== Sys2Proof/Laws/Memory.lean ====
section
/-! SUPPORT. Laws of sorted maps and of memory: a read after a write, and that every memory operation keeps the canonical
form. -/
namespace Sys2Proof.Machine

/-! ## Sorted maps -/

@[simp] theorem SMap.get?_set_self {α : Type} (m : SMap α) (n : Nat) (v : α) :
    SMap.get? (SMap.set m n v) n = some v := by
  induction m with
  | nil => simp [SMap.set, SMap.get?]
  | cons e m ih =>
    obtain ⟨k, w⟩ := e
    rcases Nat.lt_trichotomy k n with h | h | h
    · have h1 : ¬ n < k := by omega
      have h2 : k ≠ n := by omega
      simp [SMap.set, SMap.get?, h1, h2, ih]
    · simp [SMap.set, SMap.get?, h]
    · have h2 : k ≠ n := by omega
      simp [SMap.set, SMap.get?, h, h2]

theorem SMap.get?_set_ne {α : Type} (m : SMap α) {n j : Nat} (v : α) (hj : j ≠ n) :
    SMap.get? (SMap.set m n v) j = SMap.get? m j := by
  induction m with
  | nil => simp [SMap.set, SMap.get?, hj.symm]
  | cons e m ih =>
    obtain ⟨k, w⟩ := e
    rcases Nat.lt_trichotomy k n with h | h | h
    · have h1 : ¬ n < k := by omega
      have h2 : k ≠ n := by omega
      simp [SMap.set, SMap.get?, h1, h2, ih]
    · subst h
      simp [SMap.set, SMap.get?, hj.symm]
    · have h2 : k ≠ n := by omega
      by_cases h3 : j < n
      · have h4 : j < k := by omega
        have h5 : k ≠ j := by omega
        simp [SMap.set, SMap.get?, h, h2, hj.symm, h3, h4, h5]
      · simp [SMap.set, SMap.get?, h, h2, hj.symm, h3]

@[simp] theorem SMap.getD_set_self {α : Type} (m : SMap α) (n : Nat) (v d : α) :
    SMap.getD (SMap.set m n v) n d = v := by simp [SMap.getD]

theorem SMap.getD_set_ne {α : Type} (m : SMap α) {n j : Nat} (v d : α) (hj : j ≠ n) :
    SMap.getD (SMap.set m n v) j d = SMap.getD m j d := by simp [SMap.getD, SMap.get?_set_ne m v hj]

/-! ## The canonical form -/

/-- The canonical form of a list with a first entry. -/
theorem Memory.wfFrom_cons {m : Memory} {a : Nat} {b : Byte} {lo : Option Nat} :
    Memory.wfFrom lo ((a, b) :: m) = true ↔ (∀ l, lo = some l → l < a) ∧ b ≠ 0 ∧ Memory.wfFrom (some a) m = true := by
  cases lo <;> simp [Memory.wfFrom, and_assoc]

/-- The bound on a map's first address, weakened. -/
theorem Memory.wfFrom_weaken {m : Memory} {a : Nat} {lo : Option Nat} (h : Memory.wfFrom (some a) m = true)
    (hlo : ∀ l, lo = some l → l ≤ a) : Memory.wfFrom lo m = true := by
  cases m with
  | nil => rfl
  | cons e m =>
    obtain ⟨k, b⟩ := e
    obtain ⟨h1, h2, h3⟩ := Memory.wfFrom_cons.1 h
    refine Memory.wfFrom_cons.2 ⟨fun l hl => ?_, h2, h3⟩
    have := hlo l hl
    have := h1 a rfl
    omega

theorem Memory.wfFrom_set {m : Memory} {lo : Option Nat} {a : Nat} {b : Byte} (h : Memory.wfFrom lo m = true)
    (hlo : ∀ l, lo = some l → l < a) (hb : b ≠ 0) : Memory.wfFrom lo (SMap.set m a b) = true := by
  induction m generalizing lo with
  | nil => exact Memory.wfFrom_cons.2 ⟨hlo, hb, rfl⟩
  | cons e m ih =>
    obtain ⟨k, w⟩ := e
    obtain ⟨h1, h2, h3⟩ := Memory.wfFrom_cons.1 h
    rcases Nat.lt_trichotomy k a with hk | hk | hk
    · have n1 : ¬ a < k := by omega
      have n2 : k ≠ a := by omega
      simp only [SMap.set, n1, n2, ↓reduceIte]
      exact Memory.wfFrom_cons.2 ⟨h1, h2, ih h3 (by rintro l ⟨⟩; exact hk)⟩
    · subst hk
      simp only [SMap.set, ↓reduceIte]
      exact Memory.wfFrom_cons.2 ⟨hlo, hb, h3⟩
    · have n2 : k ≠ a := by omega
      simp only [SMap.set, hk, n2, ↓reduceIte]
      exact Memory.wfFrom_cons.2 ⟨hlo, hb, Memory.wfFrom_cons.2 ⟨(by rintro l ⟨⟩; exact hk), h2, h3⟩⟩

theorem Memory.wfFrom_erase {m : Memory} {lo : Option Nat} {a : Nat} (h : Memory.wfFrom lo m = true) :
    Memory.wfFrom lo (SMap.erase m a) = true := by
  induction m generalizing lo with
  | nil => rfl
  | cons e m ih =>
    obtain ⟨k, w⟩ := e
    obtain ⟨h1, h2, h3⟩ := Memory.wfFrom_cons.1 h
    by_cases n2 : k = a
    · simp only [SMap.erase, n2, ↓reduceIte]
      exact Memory.wfFrom_weaken (n2 ▸ h3) fun l hl => by have := h1 l hl; omega
    · by_cases n1 : a < k
      · simpa [SMap.erase, n1, n2] using h
      · simp only [SMap.erase, n1, n2, ↓reduceIte]
        exact Memory.wfFrom_cons.2 ⟨h1, h2, ih h3⟩

theorem Memory.wfFrom_filter {m : Memory} {lo : Option Nat} (p : Host.Cell → Bool) (h : Memory.wfFrom lo m = true) :
    Memory.wfFrom lo (m.filter p) = true := by
  induction m generalizing lo with
  | nil => rfl
  | cons e m ih =>
    obtain ⟨k, w⟩ := e
    obtain ⟨h1, h2, h3⟩ := Memory.wfFrom_cons.1 h
    rw [List.filter_cons]
    split
    · exact Memory.wfFrom_cons.2 ⟨h1, h2, ih h3⟩
    · exact Memory.wfFrom_weaken (ih h3) fun l hl => by have := h1 l hl; omega

/-- Reset memory has the canonical form. -/
@[simp] theorem Memory.wf_nil : Memory.wf [] = true := rfl

/-- A write keeps the canonical form. -/
theorem Memory.wf_write {m : Memory} (a : Nat) (b : Byte) (h : Memory.wf m = true) : Memory.wf (Memory.write m a b) = true := by
  unfold Memory.write
  split
  · exact Memory.wfFrom_erase h
  · exact Memory.wfFrom_set h (by rintro l ⟨⟩) ‹¬ b = 0›

/-- A masked store keeps the canonical form. -/
theorem Memory.wf_store {m : Memory} (a : Nat) (bs : List (Option Byte)) (h : Memory.wf m = true) :
    Memory.wf (Memory.store m a bs) = true := by
  induction bs generalizing m a with
  | nil => exact h
  | cons b bs ih =>
    cases b with
    | none => exact ih _ h
    | some b => exact ih _ (Memory.wf_write a b h)

/-- A part of a memory keeps the canonical form. -/
theorem Memory.wf_filter {m : Memory} (p : Host.Cell → Bool) (h : Memory.wf m = true) : Memory.wf (m.filter p) = true :=
  Memory.wfFrom_filter p h

/-! ## Reads after writes -/

/-- In a map whose addresses all lie above `a`, `a` has no entry. -/
theorem Memory.get?_below {m : Memory} {a : Nat} (h : Memory.wfFrom (some a) m = true) : SMap.get? m a = none := by
  cases m with
  | nil => rfl
  | cons e m =>
    obtain ⟨k, w⟩ := e
    have h1 : a < k := (Memory.wfFrom_cons.1 h).1 a rfl
    have h2 : k ≠ a := by omega
    simp [SMap.get?, h1, h2]

theorem Memory.get?_erase_self {m : Memory} {lo : Option Nat} (a : Nat) (h : Memory.wfFrom lo m = true) :
    SMap.get? (SMap.erase m a) a = none := by
  induction m generalizing lo with
  | nil => rfl
  | cons e m ih =>
    obtain ⟨k, w⟩ := e
    obtain ⟨-, -, h3⟩ := Memory.wfFrom_cons.1 h
    by_cases h2 : k = a
    · subst h2
      simpa [SMap.erase] using Memory.get?_below h3
    · by_cases h1 : a < k
      · simp [SMap.erase, SMap.get?, h1, h2]
      · simp [SMap.erase, SMap.get?, h1, h2, ih h3]

theorem Memory.get?_erase_ne {m : Memory} {lo : Option Nat} {a j : Nat} (hj : j ≠ a) (h : Memory.wfFrom lo m = true) :
    SMap.get? (SMap.erase m a) j = SMap.get? m j := by
  induction m generalizing lo with
  | nil => rfl
  | cons e m ih =>
    obtain ⟨k, w⟩ := e
    obtain ⟨-, -, h3⟩ := Memory.wfFrom_cons.1 h
    by_cases h2 : k = a
    · subst h2
      by_cases n3 : j < k
      · have h4 : SMap.get? m j = none :=
          Memory.get?_below (Memory.wfFrom_weaken h3 (lo := some j) (by rintro l ⟨⟩; omega))
        simp [SMap.erase, SMap.get?, hj.symm, n3, h4]
      · simp [SMap.erase, SMap.get?, hj.symm, n3]
    · by_cases h1 : a < k
      · simp [SMap.erase, SMap.get?, h1, h2]
      · simp [SMap.erase, SMap.get?, h1, h2, ih h3]

/-- The byte just written is read. -/
theorem Memory.read_write_self {m : Memory} (a : Nat) (b : Byte) (h : Memory.wf m = true) :
    Memory.read (Memory.write m a b) a = b := by
  unfold Memory.read Memory.write SMap.getD
  split
  · next hb => simp [Memory.get?_erase_self a h, hb]
  · simp

/-- A write leaves every other byte alone. -/
theorem Memory.read_write_ne {m : Memory} {a j : Nat} (b : Byte) (hj : j ≠ a) (h : Memory.wf m = true) :
    Memory.read (Memory.write m a b) j = Memory.read m j := by
  unfold Memory.read Memory.write SMap.getD
  split
  · rw [Memory.get?_erase_ne hj h]
  · rw [SMap.get?_set_ne _ _ hj]

/-- A masked store leaves the bytes outside it alone. -/
theorem Memory.read_store_ne {m : Memory} {a j : Nat} (bs : List (Option Byte)) (h : Memory.wf m = true)
    (hj : j < a ∨ a + bs.length ≤ j) : Memory.read (Memory.store m a bs) j = Memory.read m j := by
  induction bs generalizing m a with
  | nil => rfl
  | cons b bs ih =>
    simp only [List.length_cons] at hj
    cases b with
    | none => exact ih h (by omega)
    | some b =>
      simp only [Memory.store]
      rw [ih (Memory.wf_write a b h) (by omega), Memory.read_write_ne b (by omega) h]

end Sys2Proof.Machine
end

