-- ==== Sys2Proof/Laws/State.lean ====
section
/-! SUPPORT. What the named updates of State leave alone: one lemma for each field and update, and what a context reads after
an update of contexts. -/
namespace Sys2Proof.Machine

/-! ## `setCtx` -/

@[simp] theorem setCtx_running (s : State) (c : Nat) (x : Ctx) : (setCtx s c x).running = s.running := rfl
@[simp] theorem setCtx_hbm (s : State) (c : Nat) (x : Ctx) : (setCtx s c x).hbm = s.hbm := rfl
@[simp] theorem setCtx_far (s : State) (c : Nat) (x : Ctx) : (setCtx s c x).far = s.far := rfl
@[simp] theorem setCtx_farPsn (s : State) (c : Nat) (x : Ctx) : (setCtx s c x).farPsn = s.farPsn := rfl
@[simp] theorem setCtx_mbox (s : State) (c : Nat) (x : Ctx) : (setCtx s c x).mbox = s.mbox := rfl
@[simp] theorem setCtx_mboxW (s : State) (c : Nat) (x : Ctx) : (setCtx s c x).mboxW = s.mboxW := rfl
@[simp] theorem setCtx_l1d (s : State) (c : Nat) (x : Ctx) : (setCtx s c x).l1d = s.l1d := rfl
@[simp] theorem setCtx_clc (s : State) (c : Nat) (x : Ctx) : (setCtx s c x).clc = s.clc := rfl
@[simp] theorem setCtx_l1q (s : State) (c : Nat) (x : Ctx) : (setCtx s c x).l1q = s.l1q := rfl
@[simp] theorem setCtx_mmu (s : State) (c : Nat) (x : Ctx) : (setCtx s c x).mmu = s.mmu := rfl
@[simp] theorem setCtx_bsu (s : State) (c : Nat) (x : Ctx) : (setCtx s c x).bsu = s.bsu := rfl
@[simp] theorem setCtx_svt (s : State) (c : Nat) (x : Ctx) : (setCtx s c x).svt = s.svt := rfl
@[simp] theorem setCtx_hdm (s : State) (c : Nat) (x : Ctx) : (setCtx s c x).hdm = s.hdm := rfl
@[simp] theorem setCtx_undo (s : State) (c : Nat) (x : Ctx) : (setCtx s c x).undo = s.undo := rfl
@[simp] theorem setCtx_moves (s : State) (c : Nat) (x : Ctx) : (setCtx s c x).moves = s.moves := rfl
@[simp] theorem setCtx_fab (s : State) (c : Nat) (x : Ctx) : (setCtx s c x).fab = s.fab := rfl
@[simp] theorem setCtx_tiles (s : State) (c : Nat) (x : Ctx) : (setCtx s c x).tiles = s.tiles := rfl
@[simp] theorem setCtx_eng (s : State) (c : Nat) (x : Ctx) : (setCtx s c x).eng = s.eng := rfl
@[simp] theorem setCtx_car (s : State) (c : Nat) (x : Ctx) : (setCtx s c x).car = s.car := rfl
@[simp] theorem setCtx_trace (s : State) (c : Nat) (x : Ctx) : (setCtx s c x).trace = s.trace := rfl
@[simp] theorem setCtx_sys (s : State) (c : Nat) (x : Ctx) : (setCtx s c x).sys = s.sys := rfl
@[simp] theorem setCtx_dev (s : State) (c : Nat) (x : Ctx) : (setCtx s c x).dev = s.dev := rfl
@[simp] theorem setCtx_clk (s : State) (c : Nat) (x : Ctx) : (setCtx s c x).clk = s.clk := rfl
@[simp] theorem setCtx_pkg (s : State) (c : Nat) (x : Ctx) : (setCtx s c x).pkg = s.pkg := rfl
@[simp] theorem setCtx_cur (s : State) (c : Nat) (x : Ctx) : (setCtx s c x).cur = s.cur := rfl
@[simp] theorem setCtx_free (s : State) (c : Nat) (x : Ctx) : (setCtx s c x).free = s.free := rfl
@[simp] theorem setCtx_pending (s : State) (c : Nat) (x : Ctx) : (setCtx s c x).pending = s.pending := rfl
@[simp] theorem setCtx_ev (s : State) (c : Nat) (x : Ctx) : (setCtx s c x).ev = s.ev := rfl

/-! ## `upd` -/

@[simp] theorem upd_running (s : State) (f : Ctx → Ctx) : (upd s f).running = s.running := rfl
@[simp] theorem upd_hbm (s : State) (f : Ctx → Ctx) : (upd s f).hbm = s.hbm := rfl
@[simp] theorem upd_far (s : State) (f : Ctx → Ctx) : (upd s f).far = s.far := rfl
@[simp] theorem upd_farPsn (s : State) (f : Ctx → Ctx) : (upd s f).farPsn = s.farPsn := rfl
@[simp] theorem upd_mbox (s : State) (f : Ctx → Ctx) : (upd s f).mbox = s.mbox := rfl
@[simp] theorem upd_mboxW (s : State) (f : Ctx → Ctx) : (upd s f).mboxW = s.mboxW := rfl
@[simp] theorem upd_l1d (s : State) (f : Ctx → Ctx) : (upd s f).l1d = s.l1d := rfl
@[simp] theorem upd_clc (s : State) (f : Ctx → Ctx) : (upd s f).clc = s.clc := rfl
@[simp] theorem upd_l1q (s : State) (f : Ctx → Ctx) : (upd s f).l1q = s.l1q := rfl
@[simp] theorem upd_mmu (s : State) (f : Ctx → Ctx) : (upd s f).mmu = s.mmu := rfl
@[simp] theorem upd_bsu (s : State) (f : Ctx → Ctx) : (upd s f).bsu = s.bsu := rfl
@[simp] theorem upd_svt (s : State) (f : Ctx → Ctx) : (upd s f).svt = s.svt := rfl
@[simp] theorem upd_hdm (s : State) (f : Ctx → Ctx) : (upd s f).hdm = s.hdm := rfl
@[simp] theorem upd_undo (s : State) (f : Ctx → Ctx) : (upd s f).undo = s.undo := rfl
@[simp] theorem upd_moves (s : State) (f : Ctx → Ctx) : (upd s f).moves = s.moves := rfl
@[simp] theorem upd_fab (s : State) (f : Ctx → Ctx) : (upd s f).fab = s.fab := rfl
@[simp] theorem upd_tiles (s : State) (f : Ctx → Ctx) : (upd s f).tiles = s.tiles := rfl
@[simp] theorem upd_eng (s : State) (f : Ctx → Ctx) : (upd s f).eng = s.eng := rfl
@[simp] theorem upd_car (s : State) (f : Ctx → Ctx) : (upd s f).car = s.car := rfl
@[simp] theorem upd_trace (s : State) (f : Ctx → Ctx) : (upd s f).trace = s.trace := rfl
@[simp] theorem upd_sys (s : State) (f : Ctx → Ctx) : (upd s f).sys = s.sys := rfl
@[simp] theorem upd_dev (s : State) (f : Ctx → Ctx) : (upd s f).dev = s.dev := rfl
@[simp] theorem upd_clk (s : State) (f : Ctx → Ctx) : (upd s f).clk = s.clk := rfl
@[simp] theorem upd_pkg (s : State) (f : Ctx → Ctx) : (upd s f).pkg = s.pkg := rfl
@[simp] theorem upd_cur (s : State) (f : Ctx → Ctx) : (upd s f).cur = s.cur := rfl
@[simp] theorem upd_free (s : State) (f : Ctx → Ctx) : (upd s f).free = s.free := rfl
@[simp] theorem upd_pending (s : State) (f : Ctx → Ctx) : (upd s f).pending = s.pending := rfl
@[simp] theorem upd_ev (s : State) (f : Ctx → Ctx) : (upd s f).ev = s.ev := rfl

/-! ## `updCtx` -/

@[simp] theorem updCtx_running (s : State) (c : Nat) (f : Ctx → Ctx) : (updCtx s c f).running = s.running := rfl
@[simp] theorem updCtx_hbm (s : State) (c : Nat) (f : Ctx → Ctx) : (updCtx s c f).hbm = s.hbm := rfl
@[simp] theorem updCtx_far (s : State) (c : Nat) (f : Ctx → Ctx) : (updCtx s c f).far = s.far := rfl
@[simp] theorem updCtx_farPsn (s : State) (c : Nat) (f : Ctx → Ctx) : (updCtx s c f).farPsn = s.farPsn := rfl
@[simp] theorem updCtx_mbox (s : State) (c : Nat) (f : Ctx → Ctx) : (updCtx s c f).mbox = s.mbox := rfl
@[simp] theorem updCtx_mboxW (s : State) (c : Nat) (f : Ctx → Ctx) : (updCtx s c f).mboxW = s.mboxW := rfl
@[simp] theorem updCtx_l1d (s : State) (c : Nat) (f : Ctx → Ctx) : (updCtx s c f).l1d = s.l1d := rfl
@[simp] theorem updCtx_clc (s : State) (c : Nat) (f : Ctx → Ctx) : (updCtx s c f).clc = s.clc := rfl
@[simp] theorem updCtx_l1q (s : State) (c : Nat) (f : Ctx → Ctx) : (updCtx s c f).l1q = s.l1q := rfl
@[simp] theorem updCtx_mmu (s : State) (c : Nat) (f : Ctx → Ctx) : (updCtx s c f).mmu = s.mmu := rfl
@[simp] theorem updCtx_bsu (s : State) (c : Nat) (f : Ctx → Ctx) : (updCtx s c f).bsu = s.bsu := rfl
@[simp] theorem updCtx_svt (s : State) (c : Nat) (f : Ctx → Ctx) : (updCtx s c f).svt = s.svt := rfl
@[simp] theorem updCtx_hdm (s : State) (c : Nat) (f : Ctx → Ctx) : (updCtx s c f).hdm = s.hdm := rfl
@[simp] theorem updCtx_undo (s : State) (c : Nat) (f : Ctx → Ctx) : (updCtx s c f).undo = s.undo := rfl
@[simp] theorem updCtx_moves (s : State) (c : Nat) (f : Ctx → Ctx) : (updCtx s c f).moves = s.moves := rfl
@[simp] theorem updCtx_fab (s : State) (c : Nat) (f : Ctx → Ctx) : (updCtx s c f).fab = s.fab := rfl
@[simp] theorem updCtx_tiles (s : State) (c : Nat) (f : Ctx → Ctx) : (updCtx s c f).tiles = s.tiles := rfl
@[simp] theorem updCtx_eng (s : State) (c : Nat) (f : Ctx → Ctx) : (updCtx s c f).eng = s.eng := rfl
@[simp] theorem updCtx_car (s : State) (c : Nat) (f : Ctx → Ctx) : (updCtx s c f).car = s.car := rfl
@[simp] theorem updCtx_trace (s : State) (c : Nat) (f : Ctx → Ctx) : (updCtx s c f).trace = s.trace := rfl
@[simp] theorem updCtx_sys (s : State) (c : Nat) (f : Ctx → Ctx) : (updCtx s c f).sys = s.sys := rfl
@[simp] theorem updCtx_dev (s : State) (c : Nat) (f : Ctx → Ctx) : (updCtx s c f).dev = s.dev := rfl
@[simp] theorem updCtx_clk (s : State) (c : Nat) (f : Ctx → Ctx) : (updCtx s c f).clk = s.clk := rfl
@[simp] theorem updCtx_pkg (s : State) (c : Nat) (f : Ctx → Ctx) : (updCtx s c f).pkg = s.pkg := rfl
@[simp] theorem updCtx_cur (s : State) (c : Nat) (f : Ctx → Ctx) : (updCtx s c f).cur = s.cur := rfl
@[simp] theorem updCtx_free (s : State) (c : Nat) (f : Ctx → Ctx) : (updCtx s c f).free = s.free := rfl
@[simp] theorem updCtx_pending (s : State) (c : Nat) (f : Ctx → Ctx) : (updCtx s c f).pending = s.pending := rfl
@[simp] theorem updCtx_ev (s : State) (c : Nat) (f : Ctx → Ctx) : (updCtx s c f).ev = s.ev := rfl

/-! ## `devSet` -/

@[simp] theorem devSet_ctx (s : State) (a : Nat) (w : Word) : (devSet s a w).ctx = s.ctx := rfl
@[simp] theorem devSet_running (s : State) (a : Nat) (w : Word) : (devSet s a w).running = s.running := rfl
@[simp] theorem devSet_hbm (s : State) (a : Nat) (w : Word) : (devSet s a w).hbm = s.hbm := rfl
@[simp] theorem devSet_far (s : State) (a : Nat) (w : Word) : (devSet s a w).far = s.far := rfl
@[simp] theorem devSet_farPsn (s : State) (a : Nat) (w : Word) : (devSet s a w).farPsn = s.farPsn := rfl
@[simp] theorem devSet_mbox (s : State) (a : Nat) (w : Word) : (devSet s a w).mbox = s.mbox := rfl
@[simp] theorem devSet_mboxW (s : State) (a : Nat) (w : Word) : (devSet s a w).mboxW = s.mboxW := rfl
@[simp] theorem devSet_l1d (s : State) (a : Nat) (w : Word) : (devSet s a w).l1d = s.l1d := rfl
@[simp] theorem devSet_clc (s : State) (a : Nat) (w : Word) : (devSet s a w).clc = s.clc := rfl
@[simp] theorem devSet_l1q (s : State) (a : Nat) (w : Word) : (devSet s a w).l1q = s.l1q := rfl
@[simp] theorem devSet_mmu (s : State) (a : Nat) (w : Word) : (devSet s a w).mmu = s.mmu := rfl
@[simp] theorem devSet_bsu (s : State) (a : Nat) (w : Word) : (devSet s a w).bsu = s.bsu := rfl
@[simp] theorem devSet_svt (s : State) (a : Nat) (w : Word) : (devSet s a w).svt = s.svt := rfl
@[simp] theorem devSet_hdm (s : State) (a : Nat) (w : Word) : (devSet s a w).hdm = s.hdm := rfl
@[simp] theorem devSet_undo (s : State) (a : Nat) (w : Word) : (devSet s a w).undo = s.undo := rfl
@[simp] theorem devSet_moves (s : State) (a : Nat) (w : Word) : (devSet s a w).moves = s.moves := rfl
@[simp] theorem devSet_fab (s : State) (a : Nat) (w : Word) : (devSet s a w).fab = s.fab := rfl
@[simp] theorem devSet_tiles (s : State) (a : Nat) (w : Word) : (devSet s a w).tiles = s.tiles := rfl
@[simp] theorem devSet_eng (s : State) (a : Nat) (w : Word) : (devSet s a w).eng = s.eng := rfl
@[simp] theorem devSet_car (s : State) (a : Nat) (w : Word) : (devSet s a w).car = s.car := rfl
@[simp] theorem devSet_trace (s : State) (a : Nat) (w : Word) : (devSet s a w).trace = s.trace := rfl
@[simp] theorem devSet_sys (s : State) (a : Nat) (w : Word) : (devSet s a w).sys = s.sys := rfl
@[simp] theorem devSet_clk (s : State) (a : Nat) (w : Word) : (devSet s a w).clk = s.clk := rfl
@[simp] theorem devSet_pkg (s : State) (a : Nat) (w : Word) : (devSet s a w).pkg = s.pkg := rfl
@[simp] theorem devSet_cur (s : State) (a : Nat) (w : Word) : (devSet s a w).cur = s.cur := rfl
@[simp] theorem devSet_free (s : State) (a : Nat) (w : Word) : (devSet s a w).free = s.free := rfl
@[simp] theorem devSet_pending (s : State) (a : Nat) (w : Word) : (devSet s a w).pending = s.pending := rfl
@[simp] theorem devSet_ev (s : State) (a : Nat) (w : Word) : (devSet s a w).ev = s.ev := rfl

/-! ## `irq` -/

@[simp] theorem irq_ctx (s : State) (b : Nat) : (irq s b).ctx = s.ctx := rfl
@[simp] theorem irq_running (s : State) (b : Nat) : (irq s b).running = s.running := rfl
@[simp] theorem irq_hbm (s : State) (b : Nat) : (irq s b).hbm = s.hbm := rfl
@[simp] theorem irq_far (s : State) (b : Nat) : (irq s b).far = s.far := rfl
@[simp] theorem irq_farPsn (s : State) (b : Nat) : (irq s b).farPsn = s.farPsn := rfl
@[simp] theorem irq_mbox (s : State) (b : Nat) : (irq s b).mbox = s.mbox := rfl
@[simp] theorem irq_mboxW (s : State) (b : Nat) : (irq s b).mboxW = s.mboxW := rfl
@[simp] theorem irq_l1d (s : State) (b : Nat) : (irq s b).l1d = s.l1d := rfl
@[simp] theorem irq_clc (s : State) (b : Nat) : (irq s b).clc = s.clc := rfl
@[simp] theorem irq_l1q (s : State) (b : Nat) : (irq s b).l1q = s.l1q := rfl
@[simp] theorem irq_mmu (s : State) (b : Nat) : (irq s b).mmu = s.mmu := rfl
@[simp] theorem irq_bsu (s : State) (b : Nat) : (irq s b).bsu = s.bsu := rfl
@[simp] theorem irq_svt (s : State) (b : Nat) : (irq s b).svt = s.svt := rfl
@[simp] theorem irq_hdm (s : State) (b : Nat) : (irq s b).hdm = s.hdm := rfl
@[simp] theorem irq_undo (s : State) (b : Nat) : (irq s b).undo = s.undo := rfl
@[simp] theorem irq_moves (s : State) (b : Nat) : (irq s b).moves = s.moves := rfl
@[simp] theorem irq_fab (s : State) (b : Nat) : (irq s b).fab = s.fab := rfl
@[simp] theorem irq_tiles (s : State) (b : Nat) : (irq s b).tiles = s.tiles := rfl
@[simp] theorem irq_eng (s : State) (b : Nat) : (irq s b).eng = s.eng := rfl
@[simp] theorem irq_car (s : State) (b : Nat) : (irq s b).car = s.car := rfl
@[simp] theorem irq_trace (s : State) (b : Nat) : (irq s b).trace = s.trace := rfl
@[simp] theorem irq_sys (s : State) (b : Nat) : (irq s b).sys = s.sys := rfl
@[simp] theorem irq_clk (s : State) (b : Nat) : (irq s b).clk = s.clk := rfl
@[simp] theorem irq_pkg (s : State) (b : Nat) : (irq s b).pkg = s.pkg := rfl
@[simp] theorem irq_cur (s : State) (b : Nat) : (irq s b).cur = s.cur := rfl
@[simp] theorem irq_free (s : State) (b : Nat) : (irq s b).free = s.free := rfl
@[simp] theorem irq_pending (s : State) (b : Nat) : (irq s b).pending = s.pending := rfl
@[simp] theorem irq_ev (s : State) (b : Nat) : (irq s b).ev = s.ev := rfl

/-! ## `cause` -/

@[simp] theorem cause_ctx (s : State) (e : Ev) : (cause s e).ctx = s.ctx := rfl
@[simp] theorem cause_running (s : State) (e : Ev) : (cause s e).running = s.running := rfl
@[simp] theorem cause_hbm (s : State) (e : Ev) : (cause s e).hbm = s.hbm := rfl
@[simp] theorem cause_far (s : State) (e : Ev) : (cause s e).far = s.far := rfl
@[simp] theorem cause_farPsn (s : State) (e : Ev) : (cause s e).farPsn = s.farPsn := rfl
@[simp] theorem cause_mbox (s : State) (e : Ev) : (cause s e).mbox = s.mbox := rfl
@[simp] theorem cause_mboxW (s : State) (e : Ev) : (cause s e).mboxW = s.mboxW := rfl
@[simp] theorem cause_l1d (s : State) (e : Ev) : (cause s e).l1d = s.l1d := rfl
@[simp] theorem cause_clc (s : State) (e : Ev) : (cause s e).clc = s.clc := rfl
@[simp] theorem cause_l1q (s : State) (e : Ev) : (cause s e).l1q = s.l1q := rfl
@[simp] theorem cause_mmu (s : State) (e : Ev) : (cause s e).mmu = s.mmu := rfl
@[simp] theorem cause_bsu (s : State) (e : Ev) : (cause s e).bsu = s.bsu := rfl
@[simp] theorem cause_svt (s : State) (e : Ev) : (cause s e).svt = s.svt := rfl
@[simp] theorem cause_hdm (s : State) (e : Ev) : (cause s e).hdm = s.hdm := rfl
@[simp] theorem cause_undo (s : State) (e : Ev) : (cause s e).undo = s.undo := rfl
@[simp] theorem cause_moves (s : State) (e : Ev) : (cause s e).moves = s.moves := rfl
@[simp] theorem cause_fab (s : State) (e : Ev) : (cause s e).fab = s.fab := rfl
@[simp] theorem cause_tiles (s : State) (e : Ev) : (cause s e).tiles = s.tiles := rfl
@[simp] theorem cause_eng (s : State) (e : Ev) : (cause s e).eng = s.eng := rfl
@[simp] theorem cause_car (s : State) (e : Ev) : (cause s e).car = s.car := rfl
@[simp] theorem cause_trace (s : State) (e : Ev) : (cause s e).trace = s.trace := rfl
@[simp] theorem cause_sys (s : State) (e : Ev) : (cause s e).sys = s.sys := rfl
@[simp] theorem cause_dev (s : State) (e : Ev) : (cause s e).dev = s.dev := rfl
@[simp] theorem cause_clk (s : State) (e : Ev) : (cause s e).clk = s.clk := rfl
@[simp] theorem cause_pkg (s : State) (e : Ev) : (cause s e).pkg = s.pkg := rfl
@[simp] theorem cause_cur (s : State) (e : Ev) : (cause s e).cur = s.cur := rfl
@[simp] theorem cause_free (s : State) (e : Ev) : (cause s e).free = s.free := rfl
@[simp] theorem cause_ev (s : State) (e : Ev) : (cause s e).ev = s.ev := rfl

/-! ## `causeIn` -/

@[simp] theorem causeIn_ctx (s : State) (l : Nat) (e : Ev) : (causeIn s l e).ctx = s.ctx := rfl
@[simp] theorem causeIn_running (s : State) (l : Nat) (e : Ev) : (causeIn s l e).running = s.running := rfl
@[simp] theorem causeIn_hbm (s : State) (l : Nat) (e : Ev) : (causeIn s l e).hbm = s.hbm := rfl
@[simp] theorem causeIn_far (s : State) (l : Nat) (e : Ev) : (causeIn s l e).far = s.far := rfl
@[simp] theorem causeIn_farPsn (s : State) (l : Nat) (e : Ev) : (causeIn s l e).farPsn = s.farPsn := rfl
@[simp] theorem causeIn_mbox (s : State) (l : Nat) (e : Ev) : (causeIn s l e).mbox = s.mbox := rfl
@[simp] theorem causeIn_mboxW (s : State) (l : Nat) (e : Ev) : (causeIn s l e).mboxW = s.mboxW := rfl
@[simp] theorem causeIn_l1d (s : State) (l : Nat) (e : Ev) : (causeIn s l e).l1d = s.l1d := rfl
@[simp] theorem causeIn_clc (s : State) (l : Nat) (e : Ev) : (causeIn s l e).clc = s.clc := rfl
@[simp] theorem causeIn_l1q (s : State) (l : Nat) (e : Ev) : (causeIn s l e).l1q = s.l1q := rfl
@[simp] theorem causeIn_mmu (s : State) (l : Nat) (e : Ev) : (causeIn s l e).mmu = s.mmu := rfl
@[simp] theorem causeIn_bsu (s : State) (l : Nat) (e : Ev) : (causeIn s l e).bsu = s.bsu := rfl
@[simp] theorem causeIn_svt (s : State) (l : Nat) (e : Ev) : (causeIn s l e).svt = s.svt := rfl
@[simp] theorem causeIn_hdm (s : State) (l : Nat) (e : Ev) : (causeIn s l e).hdm = s.hdm := rfl
@[simp] theorem causeIn_undo (s : State) (l : Nat) (e : Ev) : (causeIn s l e).undo = s.undo := rfl
@[simp] theorem causeIn_moves (s : State) (l : Nat) (e : Ev) : (causeIn s l e).moves = s.moves := rfl
@[simp] theorem causeIn_fab (s : State) (l : Nat) (e : Ev) : (causeIn s l e).fab = s.fab := rfl
@[simp] theorem causeIn_tiles (s : State) (l : Nat) (e : Ev) : (causeIn s l e).tiles = s.tiles := rfl
@[simp] theorem causeIn_eng (s : State) (l : Nat) (e : Ev) : (causeIn s l e).eng = s.eng := rfl
@[simp] theorem causeIn_car (s : State) (l : Nat) (e : Ev) : (causeIn s l e).car = s.car := rfl
@[simp] theorem causeIn_trace (s : State) (l : Nat) (e : Ev) : (causeIn s l e).trace = s.trace := rfl
@[simp] theorem causeIn_sys (s : State) (l : Nat) (e : Ev) : (causeIn s l e).sys = s.sys := rfl
@[simp] theorem causeIn_dev (s : State) (l : Nat) (e : Ev) : (causeIn s l e).dev = s.dev := rfl
@[simp] theorem causeIn_clk (s : State) (l : Nat) (e : Ev) : (causeIn s l e).clk = s.clk := rfl
@[simp] theorem causeIn_pkg (s : State) (l : Nat) (e : Ev) : (causeIn s l e).pkg = s.pkg := rfl
@[simp] theorem causeIn_cur (s : State) (l : Nat) (e : Ev) : (causeIn s l e).cur = s.cur := rfl
@[simp] theorem causeIn_free (s : State) (l : Nat) (e : Ev) : (causeIn s l e).free = s.free := rfl
@[simp] theorem causeIn_ev (s : State) (l : Nat) (e : Ev) : (causeIn s l e).ev = s.ev := rfl

/-! ## `setChan` -/

@[simp] theorem setChan_ctx (s : State) (n : Nat) (f : Chan → Chan) : (setChan s n f).ctx = s.ctx := rfl
@[simp] theorem setChan_running (s : State) (n : Nat) (f : Chan → Chan) : (setChan s n f).running = s.running := rfl
@[simp] theorem setChan_far (s : State) (n : Nat) (f : Chan → Chan) : (setChan s n f).far = s.far := rfl
@[simp] theorem setChan_farPsn (s : State) (n : Nat) (f : Chan → Chan) : (setChan s n f).farPsn = s.farPsn := rfl
@[simp] theorem setChan_mbox (s : State) (n : Nat) (f : Chan → Chan) : (setChan s n f).mbox = s.mbox := rfl
@[simp] theorem setChan_mboxW (s : State) (n : Nat) (f : Chan → Chan) : (setChan s n f).mboxW = s.mboxW := rfl
@[simp] theorem setChan_l1d (s : State) (n : Nat) (f : Chan → Chan) : (setChan s n f).l1d = s.l1d := rfl
@[simp] theorem setChan_clc (s : State) (n : Nat) (f : Chan → Chan) : (setChan s n f).clc = s.clc := rfl
@[simp] theorem setChan_l1q (s : State) (n : Nat) (f : Chan → Chan) : (setChan s n f).l1q = s.l1q := rfl
@[simp] theorem setChan_mmu (s : State) (n : Nat) (f : Chan → Chan) : (setChan s n f).mmu = s.mmu := rfl
@[simp] theorem setChan_bsu (s : State) (n : Nat) (f : Chan → Chan) : (setChan s n f).bsu = s.bsu := rfl
@[simp] theorem setChan_svt (s : State) (n : Nat) (f : Chan → Chan) : (setChan s n f).svt = s.svt := rfl
@[simp] theorem setChan_hdm (s : State) (n : Nat) (f : Chan → Chan) : (setChan s n f).hdm = s.hdm := rfl
@[simp] theorem setChan_undo (s : State) (n : Nat) (f : Chan → Chan) : (setChan s n f).undo = s.undo := rfl
@[simp] theorem setChan_moves (s : State) (n : Nat) (f : Chan → Chan) : (setChan s n f).moves = s.moves := rfl
@[simp] theorem setChan_fab (s : State) (n : Nat) (f : Chan → Chan) : (setChan s n f).fab = s.fab := rfl
@[simp] theorem setChan_tiles (s : State) (n : Nat) (f : Chan → Chan) : (setChan s n f).tiles = s.tiles := rfl
@[simp] theorem setChan_eng (s : State) (n : Nat) (f : Chan → Chan) : (setChan s n f).eng = s.eng := rfl
@[simp] theorem setChan_car (s : State) (n : Nat) (f : Chan → Chan) : (setChan s n f).car = s.car := rfl
@[simp] theorem setChan_trace (s : State) (n : Nat) (f : Chan → Chan) : (setChan s n f).trace = s.trace := rfl
@[simp] theorem setChan_sys (s : State) (n : Nat) (f : Chan → Chan) : (setChan s n f).sys = s.sys := rfl
@[simp] theorem setChan_dev (s : State) (n : Nat) (f : Chan → Chan) : (setChan s n f).dev = s.dev := rfl
@[simp] theorem setChan_clk (s : State) (n : Nat) (f : Chan → Chan) : (setChan s n f).clk = s.clk := rfl
@[simp] theorem setChan_pkg (s : State) (n : Nat) (f : Chan → Chan) : (setChan s n f).pkg = s.pkg := rfl
@[simp] theorem setChan_cur (s : State) (n : Nat) (f : Chan → Chan) : (setChan s n f).cur = s.cur := rfl
@[simp] theorem setChan_free (s : State) (n : Nat) (f : Chan → Chan) : (setChan s n f).free = s.free := rfl
@[simp] theorem setChan_pending (s : State) (n : Nat) (f : Chan → Chan) : (setChan s n f).pending = s.pending := rfl
@[simp] theorem setChan_ev (s : State) (n : Nat) (f : Chan → Chan) : (setChan s n f).ev = s.ev := rfl

/-! ## `setL1` -/

@[simp] theorem setL1_ctx (s : State) (c n : Nat) (l : Option Line) : (setL1 s c n l).ctx = s.ctx := rfl
@[simp] theorem setL1_running (s : State) (c n : Nat) (l : Option Line) : (setL1 s c n l).running = s.running := rfl
@[simp] theorem setL1_hbm (s : State) (c n : Nat) (l : Option Line) : (setL1 s c n l).hbm = s.hbm := rfl
@[simp] theorem setL1_far (s : State) (c n : Nat) (l : Option Line) : (setL1 s c n l).far = s.far := rfl
@[simp] theorem setL1_farPsn (s : State) (c n : Nat) (l : Option Line) : (setL1 s c n l).farPsn = s.farPsn := rfl
@[simp] theorem setL1_mbox (s : State) (c n : Nat) (l : Option Line) : (setL1 s c n l).mbox = s.mbox := rfl
@[simp] theorem setL1_mboxW (s : State) (c n : Nat) (l : Option Line) : (setL1 s c n l).mboxW = s.mboxW := rfl
@[simp] theorem setL1_clc (s : State) (c n : Nat) (l : Option Line) : (setL1 s c n l).clc = s.clc := rfl
@[simp] theorem setL1_l1q (s : State) (c n : Nat) (l : Option Line) : (setL1 s c n l).l1q = s.l1q := rfl
@[simp] theorem setL1_mmu (s : State) (c n : Nat) (l : Option Line) : (setL1 s c n l).mmu = s.mmu := rfl
@[simp] theorem setL1_bsu (s : State) (c n : Nat) (l : Option Line) : (setL1 s c n l).bsu = s.bsu := rfl
@[simp] theorem setL1_svt (s : State) (c n : Nat) (l : Option Line) : (setL1 s c n l).svt = s.svt := rfl
@[simp] theorem setL1_hdm (s : State) (c n : Nat) (l : Option Line) : (setL1 s c n l).hdm = s.hdm := rfl
@[simp] theorem setL1_undo (s : State) (c n : Nat) (l : Option Line) : (setL1 s c n l).undo = s.undo := rfl
@[simp] theorem setL1_moves (s : State) (c n : Nat) (l : Option Line) : (setL1 s c n l).moves = s.moves := rfl
@[simp] theorem setL1_fab (s : State) (c n : Nat) (l : Option Line) : (setL1 s c n l).fab = s.fab := rfl
@[simp] theorem setL1_tiles (s : State) (c n : Nat) (l : Option Line) : (setL1 s c n l).tiles = s.tiles := rfl
@[simp] theorem setL1_eng (s : State) (c n : Nat) (l : Option Line) : (setL1 s c n l).eng = s.eng := rfl
@[simp] theorem setL1_car (s : State) (c n : Nat) (l : Option Line) : (setL1 s c n l).car = s.car := rfl
@[simp] theorem setL1_trace (s : State) (c n : Nat) (l : Option Line) : (setL1 s c n l).trace = s.trace := rfl
@[simp] theorem setL1_sys (s : State) (c n : Nat) (l : Option Line) : (setL1 s c n l).sys = s.sys := rfl
@[simp] theorem setL1_dev (s : State) (c n : Nat) (l : Option Line) : (setL1 s c n l).dev = s.dev := rfl
@[simp] theorem setL1_clk (s : State) (c n : Nat) (l : Option Line) : (setL1 s c n l).clk = s.clk := rfl
@[simp] theorem setL1_pkg (s : State) (c n : Nat) (l : Option Line) : (setL1 s c n l).pkg = s.pkg := rfl
@[simp] theorem setL1_cur (s : State) (c n : Nat) (l : Option Line) : (setL1 s c n l).cur = s.cur := rfl
@[simp] theorem setL1_free (s : State) (c n : Nat) (l : Option Line) : (setL1 s c n l).free = s.free := rfl
@[simp] theorem setL1_pending (s : State) (c n : Nat) (l : Option Line) : (setL1 s c n l).pending = s.pending := rfl
@[simp] theorem setL1_ev (s : State) (c n : Nat) (l : Option Line) : (setL1 s c n l).ev = s.ev := rfl

/-! ## `setClc` -/

@[simp] theorem setClc_ctx (s : State) (c n : Nat) (l : Option Line) : (setClc s c n l).ctx = s.ctx := rfl
@[simp] theorem setClc_running (s : State) (c n : Nat) (l : Option Line) : (setClc s c n l).running = s.running := rfl
@[simp] theorem setClc_hbm (s : State) (c n : Nat) (l : Option Line) : (setClc s c n l).hbm = s.hbm := rfl
@[simp] theorem setClc_far (s : State) (c n : Nat) (l : Option Line) : (setClc s c n l).far = s.far := rfl
@[simp] theorem setClc_farPsn (s : State) (c n : Nat) (l : Option Line) : (setClc s c n l).farPsn = s.farPsn := rfl
@[simp] theorem setClc_mbox (s : State) (c n : Nat) (l : Option Line) : (setClc s c n l).mbox = s.mbox := rfl
@[simp] theorem setClc_mboxW (s : State) (c n : Nat) (l : Option Line) : (setClc s c n l).mboxW = s.mboxW := rfl
@[simp] theorem setClc_l1d (s : State) (c n : Nat) (l : Option Line) : (setClc s c n l).l1d = s.l1d := rfl
@[simp] theorem setClc_l1q (s : State) (c n : Nat) (l : Option Line) : (setClc s c n l).l1q = s.l1q := rfl
@[simp] theorem setClc_mmu (s : State) (c n : Nat) (l : Option Line) : (setClc s c n l).mmu = s.mmu := rfl
@[simp] theorem setClc_bsu (s : State) (c n : Nat) (l : Option Line) : (setClc s c n l).bsu = s.bsu := rfl
@[simp] theorem setClc_svt (s : State) (c n : Nat) (l : Option Line) : (setClc s c n l).svt = s.svt := rfl
@[simp] theorem setClc_hdm (s : State) (c n : Nat) (l : Option Line) : (setClc s c n l).hdm = s.hdm := rfl
@[simp] theorem setClc_undo (s : State) (c n : Nat) (l : Option Line) : (setClc s c n l).undo = s.undo := rfl
@[simp] theorem setClc_moves (s : State) (c n : Nat) (l : Option Line) : (setClc s c n l).moves = s.moves := rfl
@[simp] theorem setClc_fab (s : State) (c n : Nat) (l : Option Line) : (setClc s c n l).fab = s.fab := rfl
@[simp] theorem setClc_tiles (s : State) (c n : Nat) (l : Option Line) : (setClc s c n l).tiles = s.tiles := rfl
@[simp] theorem setClc_eng (s : State) (c n : Nat) (l : Option Line) : (setClc s c n l).eng = s.eng := rfl
@[simp] theorem setClc_car (s : State) (c n : Nat) (l : Option Line) : (setClc s c n l).car = s.car := rfl
@[simp] theorem setClc_trace (s : State) (c n : Nat) (l : Option Line) : (setClc s c n l).trace = s.trace := rfl
@[simp] theorem setClc_sys (s : State) (c n : Nat) (l : Option Line) : (setClc s c n l).sys = s.sys := rfl
@[simp] theorem setClc_dev (s : State) (c n : Nat) (l : Option Line) : (setClc s c n l).dev = s.dev := rfl
@[simp] theorem setClc_clk (s : State) (c n : Nat) (l : Option Line) : (setClc s c n l).clk = s.clk := rfl
@[simp] theorem setClc_pkg (s : State) (c n : Nat) (l : Option Line) : (setClc s c n l).pkg = s.pkg := rfl
@[simp] theorem setClc_cur (s : State) (c n : Nat) (l : Option Line) : (setClc s c n l).cur = s.cur := rfl
@[simp] theorem setClc_free (s : State) (c n : Nat) (l : Option Line) : (setClc s c n l).free = s.free := rfl
@[simp] theorem setClc_pending (s : State) (c n : Nat) (l : Option Line) : (setClc s c n l).pending = s.pending := rfl
@[simp] theorem setClc_ev (s : State) (c n : Nat) (l : Option Line) : (setClc s c n l).ev = s.ev := rfl

/-! ## `setPort` -/

@[simp] theorem setPort_ctx (s : State) (p : Nat) (f : Port → Port) : (setPort s p f).ctx = s.ctx := rfl
@[simp] theorem setPort_running (s : State) (p : Nat) (f : Port → Port) : (setPort s p f).running = s.running := rfl
@[simp] theorem setPort_hbm (s : State) (p : Nat) (f : Port → Port) : (setPort s p f).hbm = s.hbm := rfl
@[simp] theorem setPort_far (s : State) (p : Nat) (f : Port → Port) : (setPort s p f).far = s.far := rfl
@[simp] theorem setPort_farPsn (s : State) (p : Nat) (f : Port → Port) : (setPort s p f).farPsn = s.farPsn := rfl
@[simp] theorem setPort_mbox (s : State) (p : Nat) (f : Port → Port) : (setPort s p f).mbox = s.mbox := rfl
@[simp] theorem setPort_mboxW (s : State) (p : Nat) (f : Port → Port) : (setPort s p f).mboxW = s.mboxW := rfl
@[simp] theorem setPort_l1d (s : State) (p : Nat) (f : Port → Port) : (setPort s p f).l1d = s.l1d := rfl
@[simp] theorem setPort_clc (s : State) (p : Nat) (f : Port → Port) : (setPort s p f).clc = s.clc := rfl
@[simp] theorem setPort_l1q (s : State) (p : Nat) (f : Port → Port) : (setPort s p f).l1q = s.l1q := rfl
@[simp] theorem setPort_mmu (s : State) (p : Nat) (f : Port → Port) : (setPort s p f).mmu = s.mmu := rfl
@[simp] theorem setPort_bsu (s : State) (p : Nat) (f : Port → Port) : (setPort s p f).bsu = s.bsu := rfl
@[simp] theorem setPort_svt (s : State) (p : Nat) (f : Port → Port) : (setPort s p f).svt = s.svt := rfl
@[simp] theorem setPort_hdm (s : State) (p : Nat) (f : Port → Port) : (setPort s p f).hdm = s.hdm := rfl
@[simp] theorem setPort_undo (s : State) (p : Nat) (f : Port → Port) : (setPort s p f).undo = s.undo := rfl
@[simp] theorem setPort_moves (s : State) (p : Nat) (f : Port → Port) : (setPort s p f).moves = s.moves := rfl
@[simp] theorem setPort_tiles (s : State) (p : Nat) (f : Port → Port) : (setPort s p f).tiles = s.tiles := rfl
@[simp] theorem setPort_eng (s : State) (p : Nat) (f : Port → Port) : (setPort s p f).eng = s.eng := rfl
@[simp] theorem setPort_car (s : State) (p : Nat) (f : Port → Port) : (setPort s p f).car = s.car := rfl
@[simp] theorem setPort_trace (s : State) (p : Nat) (f : Port → Port) : (setPort s p f).trace = s.trace := rfl
@[simp] theorem setPort_sys (s : State) (p : Nat) (f : Port → Port) : (setPort s p f).sys = s.sys := rfl
@[simp] theorem setPort_dev (s : State) (p : Nat) (f : Port → Port) : (setPort s p f).dev = s.dev := rfl
@[simp] theorem setPort_clk (s : State) (p : Nat) (f : Port → Port) : (setPort s p f).clk = s.clk := rfl
@[simp] theorem setPort_pkg (s : State) (p : Nat) (f : Port → Port) : (setPort s p f).pkg = s.pkg := rfl
@[simp] theorem setPort_cur (s : State) (p : Nat) (f : Port → Port) : (setPort s p f).cur = s.cur := rfl
@[simp] theorem setPort_free (s : State) (p : Nat) (f : Port → Port) : (setPort s p f).free = s.free := rfl
@[simp] theorem setPort_pending (s : State) (p : Nat) (f : Port → Port) : (setPort s p f).pending = s.pending := rfl
@[simp] theorem setPort_ev (s : State) (p : Nat) (f : Port → Port) : (setPort s p f).ev = s.ev := rfl

/-! ## `setGw` -/

@[simp] theorem setGw_ctx (s : State) (d : Nat) (f : Gw → Gw) : (setGw s d f).ctx = s.ctx := rfl
@[simp] theorem setGw_running (s : State) (d : Nat) (f : Gw → Gw) : (setGw s d f).running = s.running := rfl
@[simp] theorem setGw_hbm (s : State) (d : Nat) (f : Gw → Gw) : (setGw s d f).hbm = s.hbm := rfl
@[simp] theorem setGw_far (s : State) (d : Nat) (f : Gw → Gw) : (setGw s d f).far = s.far := rfl
@[simp] theorem setGw_farPsn (s : State) (d : Nat) (f : Gw → Gw) : (setGw s d f).farPsn = s.farPsn := rfl
@[simp] theorem setGw_mbox (s : State) (d : Nat) (f : Gw → Gw) : (setGw s d f).mbox = s.mbox := rfl
@[simp] theorem setGw_mboxW (s : State) (d : Nat) (f : Gw → Gw) : (setGw s d f).mboxW = s.mboxW := rfl
@[simp] theorem setGw_l1d (s : State) (d : Nat) (f : Gw → Gw) : (setGw s d f).l1d = s.l1d := rfl
@[simp] theorem setGw_clc (s : State) (d : Nat) (f : Gw → Gw) : (setGw s d f).clc = s.clc := rfl
@[simp] theorem setGw_l1q (s : State) (d : Nat) (f : Gw → Gw) : (setGw s d f).l1q = s.l1q := rfl
@[simp] theorem setGw_mmu (s : State) (d : Nat) (f : Gw → Gw) : (setGw s d f).mmu = s.mmu := rfl
@[simp] theorem setGw_bsu (s : State) (d : Nat) (f : Gw → Gw) : (setGw s d f).bsu = s.bsu := rfl
@[simp] theorem setGw_svt (s : State) (d : Nat) (f : Gw → Gw) : (setGw s d f).svt = s.svt := rfl
@[simp] theorem setGw_hdm (s : State) (d : Nat) (f : Gw → Gw) : (setGw s d f).hdm = s.hdm := rfl
@[simp] theorem setGw_undo (s : State) (d : Nat) (f : Gw → Gw) : (setGw s d f).undo = s.undo := rfl
@[simp] theorem setGw_moves (s : State) (d : Nat) (f : Gw → Gw) : (setGw s d f).moves = s.moves := rfl
@[simp] theorem setGw_tiles (s : State) (d : Nat) (f : Gw → Gw) : (setGw s d f).tiles = s.tiles := rfl
@[simp] theorem setGw_eng (s : State) (d : Nat) (f : Gw → Gw) : (setGw s d f).eng = s.eng := rfl
@[simp] theorem setGw_car (s : State) (d : Nat) (f : Gw → Gw) : (setGw s d f).car = s.car := rfl
@[simp] theorem setGw_trace (s : State) (d : Nat) (f : Gw → Gw) : (setGw s d f).trace = s.trace := rfl
@[simp] theorem setGw_sys (s : State) (d : Nat) (f : Gw → Gw) : (setGw s d f).sys = s.sys := rfl
@[simp] theorem setGw_dev (s : State) (d : Nat) (f : Gw → Gw) : (setGw s d f).dev = s.dev := rfl
@[simp] theorem setGw_clk (s : State) (d : Nat) (f : Gw → Gw) : (setGw s d f).clk = s.clk := rfl
@[simp] theorem setGw_pkg (s : State) (d : Nat) (f : Gw → Gw) : (setGw s d f).pkg = s.pkg := rfl
@[simp] theorem setGw_cur (s : State) (d : Nat) (f : Gw → Gw) : (setGw s d f).cur = s.cur := rfl
@[simp] theorem setGw_free (s : State) (d : Nat) (f : Gw → Gw) : (setGw s d f).free = s.free := rfl
@[simp] theorem setGw_pending (s : State) (d : Nat) (f : Gw → Gw) : (setGw s d f).pending = s.pending := rfl
@[simp] theorem setGw_ev (s : State) (d : Nat) (f : Gw → Gw) : (setGw s d f).ev = s.ev := rfl

/-! ## `setCtc` -/

@[simp] theorem setCtc_ctx (s : State) (c : Nat) (l : List TLine) : (setCtc s c l).ctx = s.ctx := rfl
@[simp] theorem setCtc_running (s : State) (c : Nat) (l : List TLine) : (setCtc s c l).running = s.running := rfl
@[simp] theorem setCtc_hbm (s : State) (c : Nat) (l : List TLine) : (setCtc s c l).hbm = s.hbm := rfl
@[simp] theorem setCtc_far (s : State) (c : Nat) (l : List TLine) : (setCtc s c l).far = s.far := rfl
@[simp] theorem setCtc_farPsn (s : State) (c : Nat) (l : List TLine) : (setCtc s c l).farPsn = s.farPsn := rfl
@[simp] theorem setCtc_mbox (s : State) (c : Nat) (l : List TLine) : (setCtc s c l).mbox = s.mbox := rfl
@[simp] theorem setCtc_mboxW (s : State) (c : Nat) (l : List TLine) : (setCtc s c l).mboxW = s.mboxW := rfl
@[simp] theorem setCtc_l1d (s : State) (c : Nat) (l : List TLine) : (setCtc s c l).l1d = s.l1d := rfl
@[simp] theorem setCtc_clc (s : State) (c : Nat) (l : List TLine) : (setCtc s c l).clc = s.clc := rfl
@[simp] theorem setCtc_l1q (s : State) (c : Nat) (l : List TLine) : (setCtc s c l).l1q = s.l1q := rfl
@[simp] theorem setCtc_mmu (s : State) (c : Nat) (l : List TLine) : (setCtc s c l).mmu = s.mmu := rfl
@[simp] theorem setCtc_bsu (s : State) (c : Nat) (l : List TLine) : (setCtc s c l).bsu = s.bsu := rfl
@[simp] theorem setCtc_svt (s : State) (c : Nat) (l : List TLine) : (setCtc s c l).svt = s.svt := rfl
@[simp] theorem setCtc_hdm (s : State) (c : Nat) (l : List TLine) : (setCtc s c l).hdm = s.hdm := rfl
@[simp] theorem setCtc_undo (s : State) (c : Nat) (l : List TLine) : (setCtc s c l).undo = s.undo := rfl
@[simp] theorem setCtc_moves (s : State) (c : Nat) (l : List TLine) : (setCtc s c l).moves = s.moves := rfl
@[simp] theorem setCtc_fab (s : State) (c : Nat) (l : List TLine) : (setCtc s c l).fab = s.fab := rfl
@[simp] theorem setCtc_eng (s : State) (c : Nat) (l : List TLine) : (setCtc s c l).eng = s.eng := rfl
@[simp] theorem setCtc_car (s : State) (c : Nat) (l : List TLine) : (setCtc s c l).car = s.car := rfl
@[simp] theorem setCtc_trace (s : State) (c : Nat) (l : List TLine) : (setCtc s c l).trace = s.trace := rfl
@[simp] theorem setCtc_sys (s : State) (c : Nat) (l : List TLine) : (setCtc s c l).sys = s.sys := rfl
@[simp] theorem setCtc_dev (s : State) (c : Nat) (l : List TLine) : (setCtc s c l).dev = s.dev := rfl
@[simp] theorem setCtc_clk (s : State) (c : Nat) (l : List TLine) : (setCtc s c l).clk = s.clk := rfl
@[simp] theorem setCtc_pkg (s : State) (c : Nat) (l : List TLine) : (setCtc s c l).pkg = s.pkg := rfl
@[simp] theorem setCtc_cur (s : State) (c : Nat) (l : List TLine) : (setCtc s c l).cur = s.cur := rfl
@[simp] theorem setCtc_free (s : State) (c : Nat) (l : List TLine) : (setCtc s c l).free = s.free := rfl
@[simp] theorem setCtc_pending (s : State) (c : Nat) (l : List TLine) : (setCtc s c l).pending = s.pending := rfl
@[simp] theorem setCtc_ev (s : State) (c : Nat) (l : List TLine) : (setCtc s c l).ev = s.ev := rfl

/-! ## `setClcT` -/

@[simp] theorem setClcT_ctx (s : State) (c : Nat) (l : List TLine) : (setClcT s c l).ctx = s.ctx := rfl
@[simp] theorem setClcT_running (s : State) (c : Nat) (l : List TLine) : (setClcT s c l).running = s.running := rfl
@[simp] theorem setClcT_hbm (s : State) (c : Nat) (l : List TLine) : (setClcT s c l).hbm = s.hbm := rfl
@[simp] theorem setClcT_far (s : State) (c : Nat) (l : List TLine) : (setClcT s c l).far = s.far := rfl
@[simp] theorem setClcT_farPsn (s : State) (c : Nat) (l : List TLine) : (setClcT s c l).farPsn = s.farPsn := rfl
@[simp] theorem setClcT_mbox (s : State) (c : Nat) (l : List TLine) : (setClcT s c l).mbox = s.mbox := rfl
@[simp] theorem setClcT_mboxW (s : State) (c : Nat) (l : List TLine) : (setClcT s c l).mboxW = s.mboxW := rfl
@[simp] theorem setClcT_l1d (s : State) (c : Nat) (l : List TLine) : (setClcT s c l).l1d = s.l1d := rfl
@[simp] theorem setClcT_clc (s : State) (c : Nat) (l : List TLine) : (setClcT s c l).clc = s.clc := rfl
@[simp] theorem setClcT_l1q (s : State) (c : Nat) (l : List TLine) : (setClcT s c l).l1q = s.l1q := rfl
@[simp] theorem setClcT_mmu (s : State) (c : Nat) (l : List TLine) : (setClcT s c l).mmu = s.mmu := rfl
@[simp] theorem setClcT_bsu (s : State) (c : Nat) (l : List TLine) : (setClcT s c l).bsu = s.bsu := rfl
@[simp] theorem setClcT_svt (s : State) (c : Nat) (l : List TLine) : (setClcT s c l).svt = s.svt := rfl
@[simp] theorem setClcT_hdm (s : State) (c : Nat) (l : List TLine) : (setClcT s c l).hdm = s.hdm := rfl
@[simp] theorem setClcT_undo (s : State) (c : Nat) (l : List TLine) : (setClcT s c l).undo = s.undo := rfl
@[simp] theorem setClcT_moves (s : State) (c : Nat) (l : List TLine) : (setClcT s c l).moves = s.moves := rfl
@[simp] theorem setClcT_fab (s : State) (c : Nat) (l : List TLine) : (setClcT s c l).fab = s.fab := rfl
@[simp] theorem setClcT_eng (s : State) (c : Nat) (l : List TLine) : (setClcT s c l).eng = s.eng := rfl
@[simp] theorem setClcT_car (s : State) (c : Nat) (l : List TLine) : (setClcT s c l).car = s.car := rfl
@[simp] theorem setClcT_trace (s : State) (c : Nat) (l : List TLine) : (setClcT s c l).trace = s.trace := rfl
@[simp] theorem setClcT_sys (s : State) (c : Nat) (l : List TLine) : (setClcT s c l).sys = s.sys := rfl
@[simp] theorem setClcT_dev (s : State) (c : Nat) (l : List TLine) : (setClcT s c l).dev = s.dev := rfl
@[simp] theorem setClcT_clk (s : State) (c : Nat) (l : List TLine) : (setClcT s c l).clk = s.clk := rfl
@[simp] theorem setClcT_pkg (s : State) (c : Nat) (l : List TLine) : (setClcT s c l).pkg = s.pkg := rfl
@[simp] theorem setClcT_cur (s : State) (c : Nat) (l : List TLine) : (setClcT s c l).cur = s.cur := rfl
@[simp] theorem setClcT_free (s : State) (c : Nat) (l : List TLine) : (setClcT s c l).free = s.free := rfl
@[simp] theorem setClcT_pending (s : State) (c : Nat) (l : List TLine) : (setClcT s c l).pending = s.pending := rfl
@[simp] theorem setClcT_ev (s : State) (c : Nat) (l : List TLine) : (setClcT s c l).ev = s.ev := rfl

/-! ## `setEng` -/

@[simp] theorem setEng_ctx (s : State) (c : Nat) (f : Engine → Engine) : (setEng s c f).ctx = s.ctx := rfl
@[simp] theorem setEng_running (s : State) (c : Nat) (f : Engine → Engine) : (setEng s c f).running = s.running := rfl
@[simp] theorem setEng_hbm (s : State) (c : Nat) (f : Engine → Engine) : (setEng s c f).hbm = s.hbm := rfl
@[simp] theorem setEng_far (s : State) (c : Nat) (f : Engine → Engine) : (setEng s c f).far = s.far := rfl
@[simp] theorem setEng_farPsn (s : State) (c : Nat) (f : Engine → Engine) : (setEng s c f).farPsn = s.farPsn := rfl
@[simp] theorem setEng_mbox (s : State) (c : Nat) (f : Engine → Engine) : (setEng s c f).mbox = s.mbox := rfl
@[simp] theorem setEng_mboxW (s : State) (c : Nat) (f : Engine → Engine) : (setEng s c f).mboxW = s.mboxW := rfl
@[simp] theorem setEng_l1d (s : State) (c : Nat) (f : Engine → Engine) : (setEng s c f).l1d = s.l1d := rfl
@[simp] theorem setEng_clc (s : State) (c : Nat) (f : Engine → Engine) : (setEng s c f).clc = s.clc := rfl
@[simp] theorem setEng_l1q (s : State) (c : Nat) (f : Engine → Engine) : (setEng s c f).l1q = s.l1q := rfl
@[simp] theorem setEng_mmu (s : State) (c : Nat) (f : Engine → Engine) : (setEng s c f).mmu = s.mmu := rfl
@[simp] theorem setEng_bsu (s : State) (c : Nat) (f : Engine → Engine) : (setEng s c f).bsu = s.bsu := rfl
@[simp] theorem setEng_svt (s : State) (c : Nat) (f : Engine → Engine) : (setEng s c f).svt = s.svt := rfl
@[simp] theorem setEng_hdm (s : State) (c : Nat) (f : Engine → Engine) : (setEng s c f).hdm = s.hdm := rfl
@[simp] theorem setEng_undo (s : State) (c : Nat) (f : Engine → Engine) : (setEng s c f).undo = s.undo := rfl
@[simp] theorem setEng_moves (s : State) (c : Nat) (f : Engine → Engine) : (setEng s c f).moves = s.moves := rfl
@[simp] theorem setEng_fab (s : State) (c : Nat) (f : Engine → Engine) : (setEng s c f).fab = s.fab := rfl
@[simp] theorem setEng_tiles (s : State) (c : Nat) (f : Engine → Engine) : (setEng s c f).tiles = s.tiles := rfl
@[simp] theorem setEng_car (s : State) (c : Nat) (f : Engine → Engine) : (setEng s c f).car = s.car := rfl
@[simp] theorem setEng_trace (s : State) (c : Nat) (f : Engine → Engine) : (setEng s c f).trace = s.trace := rfl
@[simp] theorem setEng_sys (s : State) (c : Nat) (f : Engine → Engine) : (setEng s c f).sys = s.sys := rfl
@[simp] theorem setEng_dev (s : State) (c : Nat) (f : Engine → Engine) : (setEng s c f).dev = s.dev := rfl
@[simp] theorem setEng_clk (s : State) (c : Nat) (f : Engine → Engine) : (setEng s c f).clk = s.clk := rfl
@[simp] theorem setEng_pkg (s : State) (c : Nat) (f : Engine → Engine) : (setEng s c f).pkg = s.pkg := rfl
@[simp] theorem setEng_cur (s : State) (c : Nat) (f : Engine → Engine) : (setEng s c f).cur = s.cur := rfl
@[simp] theorem setEng_free (s : State) (c : Nat) (f : Engine → Engine) : (setEng s c f).free = s.free := rfl
@[simp] theorem setEng_pending (s : State) (c : Nat) (f : Engine → Engine) : (setEng s c f).pending = s.pending := rfl
@[simp] theorem setEng_ev (s : State) (c : Nat) (f : Engine → Engine) : (setEng s c f).ev = s.ev := rfl

/-! ## `setQ` -/

@[simp] theorem setQ_ctx (s : State) (q : Nat) (f : QState → QState) : (setQ s q f).ctx = s.ctx := rfl
@[simp] theorem setQ_running (s : State) (q : Nat) (f : QState → QState) : (setQ s q f).running = s.running := rfl
@[simp] theorem setQ_hbm (s : State) (q : Nat) (f : QState → QState) : (setQ s q f).hbm = s.hbm := rfl
@[simp] theorem setQ_far (s : State) (q : Nat) (f : QState → QState) : (setQ s q f).far = s.far := rfl
@[simp] theorem setQ_farPsn (s : State) (q : Nat) (f : QState → QState) : (setQ s q f).farPsn = s.farPsn := rfl
@[simp] theorem setQ_mbox (s : State) (q : Nat) (f : QState → QState) : (setQ s q f).mbox = s.mbox := rfl
@[simp] theorem setQ_mboxW (s : State) (q : Nat) (f : QState → QState) : (setQ s q f).mboxW = s.mboxW := rfl
@[simp] theorem setQ_l1d (s : State) (q : Nat) (f : QState → QState) : (setQ s q f).l1d = s.l1d := rfl
@[simp] theorem setQ_clc (s : State) (q : Nat) (f : QState → QState) : (setQ s q f).clc = s.clc := rfl
@[simp] theorem setQ_l1q (s : State) (q : Nat) (f : QState → QState) : (setQ s q f).l1q = s.l1q := rfl
@[simp] theorem setQ_mmu (s : State) (q : Nat) (f : QState → QState) : (setQ s q f).mmu = s.mmu := rfl
@[simp] theorem setQ_bsu (s : State) (q : Nat) (f : QState → QState) : (setQ s q f).bsu = s.bsu := rfl
@[simp] theorem setQ_svt (s : State) (q : Nat) (f : QState → QState) : (setQ s q f).svt = s.svt := rfl
@[simp] theorem setQ_hdm (s : State) (q : Nat) (f : QState → QState) : (setQ s q f).hdm = s.hdm := rfl
@[simp] theorem setQ_undo (s : State) (q : Nat) (f : QState → QState) : (setQ s q f).undo = s.undo := rfl
@[simp] theorem setQ_moves (s : State) (q : Nat) (f : QState → QState) : (setQ s q f).moves = s.moves := rfl
@[simp] theorem setQ_fab (s : State) (q : Nat) (f : QState → QState) : (setQ s q f).fab = s.fab := rfl
@[simp] theorem setQ_tiles (s : State) (q : Nat) (f : QState → QState) : (setQ s q f).tiles = s.tiles := rfl
@[simp] theorem setQ_eng (s : State) (q : Nat) (f : QState → QState) : (setQ s q f).eng = s.eng := rfl
@[simp] theorem setQ_trace (s : State) (q : Nat) (f : QState → QState) : (setQ s q f).trace = s.trace := rfl
@[simp] theorem setQ_sys (s : State) (q : Nat) (f : QState → QState) : (setQ s q f).sys = s.sys := rfl
@[simp] theorem setQ_dev (s : State) (q : Nat) (f : QState → QState) : (setQ s q f).dev = s.dev := rfl
@[simp] theorem setQ_clk (s : State) (q : Nat) (f : QState → QState) : (setQ s q f).clk = s.clk := rfl
@[simp] theorem setQ_pkg (s : State) (q : Nat) (f : QState → QState) : (setQ s q f).pkg = s.pkg := rfl
@[simp] theorem setQ_cur (s : State) (q : Nat) (f : QState → QState) : (setQ s q f).cur = s.cur := rfl
@[simp] theorem setQ_free (s : State) (q : Nat) (f : QState → QState) : (setQ s q f).free = s.free := rfl
@[simp] theorem setQ_pending (s : State) (q : Nat) (f : QState → QState) : (setQ s q f).pending = s.pending := rfl
@[simp] theorem setQ_ev (s : State) (q : Nat) (f : QState → QState) : (setQ s q f).ev = s.ev := rfl

/-! ## `setUnit` -/

@[simp] theorem setUnit_ctx (s : State) (u : Nat) (x : PwUnit) : (setUnit s u x).ctx = s.ctx := rfl
@[simp] theorem setUnit_running (s : State) (u : Nat) (x : PwUnit) : (setUnit s u x).running = s.running := rfl
@[simp] theorem setUnit_hbm (s : State) (u : Nat) (x : PwUnit) : (setUnit s u x).hbm = s.hbm := rfl
@[simp] theorem setUnit_far (s : State) (u : Nat) (x : PwUnit) : (setUnit s u x).far = s.far := rfl
@[simp] theorem setUnit_farPsn (s : State) (u : Nat) (x : PwUnit) : (setUnit s u x).farPsn = s.farPsn := rfl
@[simp] theorem setUnit_mbox (s : State) (u : Nat) (x : PwUnit) : (setUnit s u x).mbox = s.mbox := rfl
@[simp] theorem setUnit_mboxW (s : State) (u : Nat) (x : PwUnit) : (setUnit s u x).mboxW = s.mboxW := rfl
@[simp] theorem setUnit_l1d (s : State) (u : Nat) (x : PwUnit) : (setUnit s u x).l1d = s.l1d := rfl
@[simp] theorem setUnit_clc (s : State) (u : Nat) (x : PwUnit) : (setUnit s u x).clc = s.clc := rfl
@[simp] theorem setUnit_l1q (s : State) (u : Nat) (x : PwUnit) : (setUnit s u x).l1q = s.l1q := rfl
@[simp] theorem setUnit_mmu (s : State) (u : Nat) (x : PwUnit) : (setUnit s u x).mmu = s.mmu := rfl
@[simp] theorem setUnit_bsu (s : State) (u : Nat) (x : PwUnit) : (setUnit s u x).bsu = s.bsu := rfl
@[simp] theorem setUnit_svt (s : State) (u : Nat) (x : PwUnit) : (setUnit s u x).svt = s.svt := rfl
@[simp] theorem setUnit_hdm (s : State) (u : Nat) (x : PwUnit) : (setUnit s u x).hdm = s.hdm := rfl
@[simp] theorem setUnit_undo (s : State) (u : Nat) (x : PwUnit) : (setUnit s u x).undo = s.undo := rfl
@[simp] theorem setUnit_moves (s : State) (u : Nat) (x : PwUnit) : (setUnit s u x).moves = s.moves := rfl
@[simp] theorem setUnit_fab (s : State) (u : Nat) (x : PwUnit) : (setUnit s u x).fab = s.fab := rfl
@[simp] theorem setUnit_tiles (s : State) (u : Nat) (x : PwUnit) : (setUnit s u x).tiles = s.tiles := rfl
@[simp] theorem setUnit_eng (s : State) (u : Nat) (x : PwUnit) : (setUnit s u x).eng = s.eng := rfl
@[simp] theorem setUnit_car (s : State) (u : Nat) (x : PwUnit) : (setUnit s u x).car = s.car := rfl
@[simp] theorem setUnit_trace (s : State) (u : Nat) (x : PwUnit) : (setUnit s u x).trace = s.trace := rfl
@[simp] theorem setUnit_dev (s : State) (u : Nat) (x : PwUnit) : (setUnit s u x).dev = s.dev := rfl
@[simp] theorem setUnit_clk (s : State) (u : Nat) (x : PwUnit) : (setUnit s u x).clk = s.clk := rfl
@[simp] theorem setUnit_pkg (s : State) (u : Nat) (x : PwUnit) : (setUnit s u x).pkg = s.pkg := rfl
@[simp] theorem setUnit_cur (s : State) (u : Nat) (x : PwUnit) : (setUnit s u x).cur = s.cur := rfl
@[simp] theorem setUnit_free (s : State) (u : Nat) (x : PwUnit) : (setUnit s u x).free = s.free := rfl
@[simp] theorem setUnit_pending (s : State) (u : Nat) (x : PwUnit) : (setUnit s u x).pending = s.pending := rfl
@[simp] theorem setUnit_ev (s : State) (u : Nat) (x : PwUnit) : (setUnit s u x).ev = s.ev := rfl

/-! ## `setBar` -/

@[simp] theorem setBar_ctx (s : State) (k n : Nat) (b : Bar) : (setBar s k n b).ctx = s.ctx := rfl
@[simp] theorem setBar_running (s : State) (k n : Nat) (b : Bar) : (setBar s k n b).running = s.running := rfl
@[simp] theorem setBar_hbm (s : State) (k n : Nat) (b : Bar) : (setBar s k n b).hbm = s.hbm := rfl
@[simp] theorem setBar_far (s : State) (k n : Nat) (b : Bar) : (setBar s k n b).far = s.far := rfl
@[simp] theorem setBar_farPsn (s : State) (k n : Nat) (b : Bar) : (setBar s k n b).farPsn = s.farPsn := rfl
@[simp] theorem setBar_mbox (s : State) (k n : Nat) (b : Bar) : (setBar s k n b).mbox = s.mbox := rfl
@[simp] theorem setBar_mboxW (s : State) (k n : Nat) (b : Bar) : (setBar s k n b).mboxW = s.mboxW := rfl
@[simp] theorem setBar_l1d (s : State) (k n : Nat) (b : Bar) : (setBar s k n b).l1d = s.l1d := rfl
@[simp] theorem setBar_clc (s : State) (k n : Nat) (b : Bar) : (setBar s k n b).clc = s.clc := rfl
@[simp] theorem setBar_l1q (s : State) (k n : Nat) (b : Bar) : (setBar s k n b).l1q = s.l1q := rfl
@[simp] theorem setBar_mmu (s : State) (k n : Nat) (b : Bar) : (setBar s k n b).mmu = s.mmu := rfl
@[simp] theorem setBar_bsu (s : State) (k n : Nat) (b : Bar) : (setBar s k n b).bsu = s.bsu := rfl
@[simp] theorem setBar_svt (s : State) (k n : Nat) (b : Bar) : (setBar s k n b).svt = s.svt := rfl
@[simp] theorem setBar_hdm (s : State) (k n : Nat) (b : Bar) : (setBar s k n b).hdm = s.hdm := rfl
@[simp] theorem setBar_undo (s : State) (k n : Nat) (b : Bar) : (setBar s k n b).undo = s.undo := rfl
@[simp] theorem setBar_moves (s : State) (k n : Nat) (b : Bar) : (setBar s k n b).moves = s.moves := rfl
@[simp] theorem setBar_fab (s : State) (k n : Nat) (b : Bar) : (setBar s k n b).fab = s.fab := rfl
@[simp] theorem setBar_tiles (s : State) (k n : Nat) (b : Bar) : (setBar s k n b).tiles = s.tiles := rfl
@[simp] theorem setBar_eng (s : State) (k n : Nat) (b : Bar) : (setBar s k n b).eng = s.eng := rfl
@[simp] theorem setBar_trace (s : State) (k n : Nat) (b : Bar) : (setBar s k n b).trace = s.trace := rfl
@[simp] theorem setBar_sys (s : State) (k n : Nat) (b : Bar) : (setBar s k n b).sys = s.sys := rfl
@[simp] theorem setBar_dev (s : State) (k n : Nat) (b : Bar) : (setBar s k n b).dev = s.dev := rfl
@[simp] theorem setBar_clk (s : State) (k n : Nat) (b : Bar) : (setBar s k n b).clk = s.clk := rfl
@[simp] theorem setBar_pkg (s : State) (k n : Nat) (b : Bar) : (setBar s k n b).pkg = s.pkg := rfl
@[simp] theorem setBar_cur (s : State) (k n : Nat) (b : Bar) : (setBar s k n b).cur = s.cur := rfl
@[simp] theorem setBar_free (s : State) (k n : Nat) (b : Bar) : (setBar s k n b).free = s.free := rfl
@[simp] theorem setBar_pending (s : State) (k n : Nat) (b : Bar) : (setBar s k n b).pending = s.pending := rfl
@[simp] theorem setBar_ev (s : State) (k n : Nat) (b : Bar) : (setBar s k n b).ev = s.ev := rfl

/-! ## The free counter -/

@[simp] theorem draw_fst (s : State) : (draw s).1 = s.free := rfl
@[simp] theorem draw_ctx (s : State) : (draw s).2.ctx = s.ctx := rfl
@[simp] theorem draw_running (s : State) : (draw s).2.running = s.running := rfl
@[simp] theorem draw_hbm (s : State) : (draw s).2.hbm = s.hbm := rfl
@[simp] theorem draw_far (s : State) : (draw s).2.far = s.far := rfl
@[simp] theorem draw_farPsn (s : State) : (draw s).2.farPsn = s.farPsn := rfl
@[simp] theorem draw_mbox (s : State) : (draw s).2.mbox = s.mbox := rfl
@[simp] theorem draw_mboxW (s : State) : (draw s).2.mboxW = s.mboxW := rfl
@[simp] theorem draw_l1d (s : State) : (draw s).2.l1d = s.l1d := rfl
@[simp] theorem draw_clc (s : State) : (draw s).2.clc = s.clc := rfl
@[simp] theorem draw_l1q (s : State) : (draw s).2.l1q = s.l1q := rfl
@[simp] theorem draw_mmu (s : State) : (draw s).2.mmu = s.mmu := rfl
@[simp] theorem draw_bsu (s : State) : (draw s).2.bsu = s.bsu := rfl
@[simp] theorem draw_svt (s : State) : (draw s).2.svt = s.svt := rfl
@[simp] theorem draw_hdm (s : State) : (draw s).2.hdm = s.hdm := rfl
@[simp] theorem draw_undo (s : State) : (draw s).2.undo = s.undo := rfl
@[simp] theorem draw_moves (s : State) : (draw s).2.moves = s.moves := rfl
@[simp] theorem draw_fab (s : State) : (draw s).2.fab = s.fab := rfl
@[simp] theorem draw_tiles (s : State) : (draw s).2.tiles = s.tiles := rfl
@[simp] theorem draw_eng (s : State) : (draw s).2.eng = s.eng := rfl
@[simp] theorem draw_car (s : State) : (draw s).2.car = s.car := rfl
@[simp] theorem draw_trace (s : State) : (draw s).2.trace = s.trace := rfl
@[simp] theorem draw_sys (s : State) : (draw s).2.sys = s.sys := rfl
@[simp] theorem draw_dev (s : State) : (draw s).2.dev = s.dev := rfl
@[simp] theorem draw_clk (s : State) : (draw s).2.clk = s.clk := rfl
@[simp] theorem draw_pkg (s : State) : (draw s).2.pkg = s.pkg := rfl
@[simp] theorem draw_cur (s : State) : (draw s).2.cur = s.cur := rfl
@[simp] theorem draw_free (s : State) : (draw s).2.free = s.free + 1 := rfl
@[simp] theorem draw_pending (s : State) : (draw s).2.pending = s.pending := rfl
@[simp] theorem draw_ev (s : State) : (draw s).2.ev = s.ev := rfl

/-! ## Contexts and registers read back -/

@[simp] theorem ctxOf_setCtx_self (s : State) (c : Nat) (x : Ctx) : ctxOf (setCtx s c x) c = x := by
  simp [ctxOf, setCtx]
theorem ctxOf_setCtx_ne (s : State) {c d : Nat} (x : Ctx) (h : d ≠ c) : ctxOf (setCtx s c x) d = ctxOf s d := by
  simp [ctxOf, setCtx, SMap.getD_set_ne _ _ _ h]
@[simp] theorem ctxOf_updCtx_self (s : State) (c : Nat) (f : Ctx → Ctx) : ctxOf (updCtx s c f) c = f (ctxOf s c) := by
  simp [updCtx]
theorem ctxOf_updCtx_ne (s : State) {c d : Nat} (f : Ctx → Ctx) (h : d ≠ c) : ctxOf (updCtx s c f) d = ctxOf s d := by
  simp [updCtx, ctxOf_setCtx_ne _ _ h]
@[simp] theorem cc_upd (s : State) (f : Ctx → Ctx) : cc (upd s f) = f (cc s) := by
  simp [cc, upd]
@[simp] theorem ctxOf_upd_self (s : State) (f : Ctx → Ctx) : ctxOf (upd s f) s.cur = f (ctxOf s s.cur) := by
  simp [upd]
theorem ctxOf_upd_ne (s : State) {d : Nat} (f : Ctx → Ctx) (h : d ≠ s.cur) : ctxOf (upd s f) d = ctxOf s d :=
  ctxOf_updCtx_ne s f h
@[simp] theorem devGet_devSet_self (s : State) (a : Nat) (w : Word) : devGet (devSet s a w) a = w := by
  simp [devGet, devSet]
theorem devGet_devSet_ne (s : State) {a b : Nat} (w : Word) (h : b ≠ a) : devGet (devSet s a w) b = devGet s b := by
  simp [devGet, devSet, SMap.getD_set_ne _ _ _ h]
@[simp] theorem ctxOf_devSet (s : State) (c a : Nat) (w : Word) : ctxOf (devSet s a w) c = ctxOf s c := rfl
@[simp] theorem cc_devSet (s : State) (a : Nat) (w : Word) : cc (devSet s a w) = cc s := rfl
@[simp] theorem ctxOf_cause (s : State) (c : Nat) (e : Ev) : ctxOf (cause s e) c = ctxOf s c := rfl
@[simp] theorem chan_setChan_self (s : State) (n : Nat) (f : Chan → Chan) : chan (setChan s n f) n = f (chan s n) := by
  simp [chan, setChan]
theorem chan_setChan_ne (s : State) {n m : Nat} (f : Chan → Chan) (h : m ≠ n) : chan (setChan s n f) m = chan s m := by
  simp [chan, setChan, SMap.getD_set_ne _ _ _ h]

end Sys2Proof.Machine
end

