-- ==== Sys2Proof/Laws/Ops.lean ====
section
/-! SUPPORT. What each shared operation can do, once: the trace, results in flight, guarded operations, stops, lanes. The
claims about instructions cite these and never unfold a meaning further. -/
namespace Sys2Proof.Machine

/-! ## The trace touches nothing but device registers and trace buffers -/

/-- The state with other device registers and trace buffers. -/
def withTrace (s t : State) : State := { s with dev := t.dev, trace := t.trace }

theorem trFreeze_frame (s : State) (k : Nat) : trFreeze s k = withTrace s (trFreeze s k) := by
  unfold trFreeze; split <;> rfl
theorem trRec_frame (s : State) (c k a i : Nat) : trRec s c k a i = withTrace s (trRec s c k a i) := by
  unfold trRec; dsimp only; split
  · unfold trFreeze; split <;> rfl
  · rfl
theorem trCtl_frame (s : State) (c k a i : Nat) : trCtl s c k a i = withTrace s (trCtl s c k a i) := by
  unfold trCtl; split
  · exact trRec_frame ..
  · rfl
theorem trFire_frame (s : State) (k n : Nat) : trFire s k n = withTrace s (trFire s k n) := by
  unfold trFire; dsimp only; split
  · unfold trFreeze; split <;> rfl
  · rfl
theorem trCompare_frame (s : State) (c b v : Nat) : trCompare s c b v = withTrace s (trCompare s c b v) := by
  unfold trCompare; dsimp only; split
  · exact trFire_frame ..
  · rfl
theorem trMem_frame (s : State) (c k v l : Nat) : trMem s c k v l = withTrace s (trMem s c k v l) := by
  unfold trMem; split
  · rw [trCompare_frame, trRec_frame]; rfl
  · exact trCompare_frame ..
/-- The overlap that a result makes is traced; one of a predicate or a mask takes a free value (log 85). -/
theorem trOverlap_frame (s : State) (d : Dst) :
    trOverlap s d = withTrace { s with free := (trOverlap s d).free } (trOverlap s d) := by
  have h (t : State) (c k a i : Nat) : trRec t c k a i = withTrace { t with free := (trRec t c k a i).free } (trRec t c k a i) := by
    rw [trRec_frame]; rfl
  unfold trOverlap; split
  · split
    · rfl
    · exact h ..
    · simp only [draw]; rw [h]; rfl
  · rfl

/-- A trace buffer that is off records nothing (R442). -/
theorem trRec_off (s : State) (c k a i : Nat) (h : (devGet s (trReg (coreOf c) 0)).getLsbD 63 = false) :
    trRec s c k a i = s := by
  unfold trRec; dsimp only; rw [h]; rfl

@[simp] theorem cc_withTrace (s t : State) : cc (withTrace s t) = cc s := rfl
@[simp] theorem ctxOf_withTrace (s t : State) (c : Nat) : ctxOf (withTrace s t) c = ctxOf s c := rfl
@[simp] theorem cc_trOverlap (s : State) (d : Dst) : cc (trOverlap s d) = cc s := by rw [trOverlap_frame]; rfl
@[simp] theorem cur_trOverlap (s : State) (d : Dst) : (trOverlap s d).cur = s.cur := by rw [trOverlap_frame]; rfl
@[simp] theorem ctxOf_trOverlap (s : State) (d : Dst) (c : Nat) : ctxOf (trOverlap s d) c = ctxOf s c := by
  rw [trOverlap_frame]; rfl

/-! ## Results in flight (R213) -/

/-- A result put in flight changes the issuing context's results in flight, and the trace. -/
theorem emit_frame (s : State) (d : Dst) (v : Vec) (fl : Fl) (n : Nat) :
    emit s d v fl n = withTrace { s with ctx := (emit s d v fl n).ctx, free := (emit s d v fl n).free } (emit s d v fl n) := by
  unfold emit; rw [trOverlap_frame]; rfl
@[simp] theorem cc_emit (s : State) (d : Dst) (v : Vec) (fl : Fl) (n : Nat) : cc (emit s d v fl n) = fly (cc s) d v fl n := by
  unfold emit
  rw [cc_upd, cc_trOverlap]
theorem ctxOf_emit_ne (s : State) (d : Dst) (v : Vec) (fl : Fl) (n : Nat) {c : Nat} (h : c ≠ s.cur) :
    ctxOf (emit s d v fl n) c = ctxOf s c := by
  unfold emit
  rw [ctxOf_upd_ne _ _ (by simpa using h), ctxOf_trOverlap]

/-! ## Meanings (R233, R260) -/

theorem run_ok {k : Nat} {m : M Unit} {s t : State} (h : m s = (.ok (), t)) : run k m s = .next t := by
  simp [run, h]
/-- A trap is taken once every result of the context has arrived. -/
theorem run_trap {k sub ak : Nat} {va : Word} {m : M Unit} {s t : State} (h : m s = (.error (.trap sub va ak), t))
    (ha : allHere (cc t) = true) : run k m s = .next (takeTrap t t.cur sub va ak (some k)) := by
  have ha : allHere (ctxOf t t.cur) = true := ha
  simp [run, h, whenHere, ha]
/-- Until then the context blocks, and what it awaits is sampled. -/
theorem run_trap_late {k sub ak : Nat} {va : Word} {m : M Unit} {s t : State} (h : m s = (.error (.trap sub va ak), t))
    (ha : allHere (cc t) = false) : run k m s = .next (updCtx (sampleAll t t.cur) t.cur fun x => { x with block := true }) := by
  have ha : allHere (ctxOf t t.cur) = false := ha
  simp [run, h, whenHere, ha]
theorem run_block {k : Nat} {m : M Unit} {s t : State} (h : m s = (.error .block, t)) :
    run k m s = .next (upd t fun x => { x with block := true }) := by simp [run, h]

/-- A syllable always ends in a next state: its effect, a trap or a block. -/
theorem run_next (k : Nat) (m : M Unit) (s : State) : ∃ t, run k m s = .next t := by
  unfold run
  split <;> exact ⟨_, rfl⟩

/-- A sequence of two actions. -/
theorem M_bind_ok {α β : Type} {m : M α} {f : α → M β} {s t : State} {a : α} (h : m s = (.ok a, t)) :
    (m >>= f) s = f a t := by
  show (ExceptT.bind m f) s = _
  simp only [ExceptT.bind, ExceptT.mk]
  show (StateT.bind m (ExceptT.bindCont f)) s = _
  simp only [StateT.bind]
  show (do let (a, s) ← (m s : Id _); ExceptT.bindCont f a s : Id _) = _
  rw [h]
  rfl
theorem M_bind_error {α β : Type} {m : M α} {f : α → M β} {s t : State} {e : Stop} (h : m s = (.error e, t)) :
    (m >>= f) s = (.error e, t) := by
  show (ExceptT.bind m f) s = _
  simp only [ExceptT.bind, ExceptT.mk]
  show (StateT.bind m (ExceptT.bindCont f)) s = _
  simp only [StateT.bind]
  show (do let (a, s) ← (m s : Id _); ExceptT.bindCont f a s : Id _) = _
  rw [h]
  rfl

@[simp] theorem getC_apply (s : State) : getC s = (.ok (cc s), s) := rfl
@[simp] theorem get_apply (s : State) : (get : M State) s = (.ok s, s) := rfl
@[simp] theorem set_apply (s t : State) : (set t : M PUnit) s = (.ok ⟨⟩, t) := rfl
@[simp] theorem pure_apply {α : Type} (a : α) (s : State) : (pure a : M α) s = (.ok a, s) := rfl
@[simp] theorem throw_apply {α : Type} (e : Stop) (s : State) : (throw e : M α) s = (.error e, s) := rfl
@[simp] theorem modify_apply (f : State → State) (s : State) : (modify f : M PUnit) s = (.ok ⟨⟩, f s) := rfl
@[simp] theorem modC_apply (f : Ctx → Ctx) (s : State) : modC f s = (.ok (), upd s f) := rfl
@[simp] theorem outS_apply (d : SReg) (v : Word) (n : Nat) (s : State) : outS d v n s = (.ok (), emitS s d v n) := rfl
@[simp] theorem outG_apply (g : GReg) (v : Vec) (n : Nat) (s : State) :
    outG g v n s = (.ok (), emit s (dstG (cc s) g) v 0 n) := rfl
@[simp] theorem outV_apply (u : VSlot) (d : VReg) (r : Vec × Fl) (n : Nat) (s : State) :
    outV u d r n s = (.ok (), emit s (dstV (cc s) u d) r.1 r.2 n) := rfl
@[simp] theorem trapIf_true (sub : Nat) (va : Word) (ak : Nat) (s : State) :
    trapIf true sub va ak s = (.error (.trap sub va ak), s) := rfl
@[simp] theorem trapIf_false (sub : Nat) (va : Word) (ak : Nat) (s : State) : trapIf false sub va ak s = (.ok (), s) := rfl
@[simp] theorem blockIf_true (s : State) : blockIf true s = (.error .block, s) := rfl
@[simp] theorem blockIf_false (s : State) : blockIf false s = (.ok (), s) := rfl

/-- A guarded operation completes: its result is in flight. -/
theorem alu_ok {d a b : SReg} {q : BitVec 3} {n : Nat} {f : Word → Word → Word} {s : State}
    (hl : loopReg (cc s) d = false) (hq : rdP (cc s) q = true) (k : Nat) :
    run k (alu d a b q n f) s = .next (emitS s d (f (rdS (cc s) a) (rdS (cc s) b)) n) := by
  apply run_ok
  unfold alu
  rw [M_bind_ok (getC_apply s), opTrap, hl, M_bind_ok (trapIf_false 51 0 0 s)]
  simp [hq]
/-- A guarded operation whose guard is false does nothing (R260). -/
theorem alu_off {d a b : SReg} {q : BitVec 3} {n : Nat} {f : Word → Word → Word} {s : State}
    (hl : loopReg (cc s) d = false) (hq : rdP (cc s) q = false) (k : Nat) : run k (alu d a b q n f) s = .next s := by
  apply run_ok
  unfold alu
  rw [M_bind_ok (getC_apply s), opTrap, hl, M_bind_ok (trapIf_false 51 0 0 s)]
  simp [hq]
/-- A guarded operation that names an index of the active loop is illegal (R216). -/
theorem alu_trap {d a b : SReg} {q : BitVec 3} {n : Nat} {f : Word → Word → Word} {s : State}
    (hl : loopReg (cc s) d = true) (ha : allHere (cc s) = true) (k : Nat) :
    run k (alu d a b q n f) s = .next (takeTrap s s.cur 51 0 0 (some k)) := by
  refine run_trap (t := s) ?_ ha
  unfold alu
  rw [M_bind_ok (getC_apply s), opTrap, hl, M_bind_error (trapIf_true 51 0 0 s)]
/-- An operation with an immediate completes. -/
theorem aluI_ok {d a : SReg} {f : Word → Word} {s : State} (hl : loopReg (cc s) d = false) (k : Nat) :
    run k (aluI d a f) s = .next (emitS s d (f (rdS (cc s) a)) 1) := by
  apply run_ok
  unfold aluI
  rw [M_bind_ok (getC_apply s), opTrap, hl, M_bind_ok (trapIf_false 51 0 0 s)]
  simp
/-- An operation with an immediate that names an index of the active loop is illegal (R216). -/
theorem aluI_trap {d a : SReg} {f : Word → Word} {s : State} (hl : loopReg (cc s) d = true) (ha : allHere (cc s) = true)
    (k : Nat) : run k (aluI d a f) s = .next (takeTrap s s.cur 51 0 0 (some k)) := by
  refine run_trap (t := s) ?_ ha
  unfold aluI
  rw [M_bind_ok (getC_apply s), opTrap, hl, M_bind_error (trapIf_true 51 0 0 s)]
/-- An operation on lanes completes. -/
theorem vlanes_ok {u : VSlot} {d : VReg} {m : BitVec 3} {w n b : Nat} {f : Ctx → Nat → Nat × Fl} {s : State} (k : Nat) :
    run k (vlanes u d m w n b f) s = .next (emit s (dstV (cc s) u d)
      (lanesM w n (rdK (cc s) u m) (rdV (cc s) u d) (f (cc s))).1 (lanesM w n (rdK (cc s) u m) (rdV (cc s) u d) (f (cc s))).2 b) := by
  apply run_ok
  unfold vlanes
  rw [M_bind_ok (getC_apply s)]
  simp

end Sys2Proof.Machine
end

