-- ==== Sys2Proof/Laws/PerInstr.lean ====
section
/-! SUPPORT. What holds of every instruction as syntax, one lemma for each constructor: the words of an instruction as a bundle
of its own are one to three, and the first is a header whose marker and reserved bits are right (R222, R223). -/
namespace Sys2Proof.Laws

/-- The words of an instruction form a bundle of a header, a syllable and at most one extension word. -/
def Encoded.Statement (i : Instr) : Prop :=
  ∀ sl ws, encode sl i = some ws → 1 ≤ ws.length ∧ ws.length ≤ 3 ∧ Header.good (ws.headD 0) = true

theorem Encoded.ofSyl {i : Instr} (h : ∀ sl, encode sl i = i.syl.map fun y => loneWords sl y i) : Encoded.Statement i := by
  intro sl ws hw
  rw [h] at hw
  obtain ⟨y, -, rfl⟩ := Option.map_eq_some_iff.1 hw
  refine ⟨by simp [loneWords], ?_, Header.good_pack _⟩
  unfold loneWords
  split <;> simp

theorem Encoded.add (d a b : SReg) (q : BitVec 3) : Encoded.Statement (.add d a b q) := Encoded.ofSyl fun _ => rfl
theorem Encoded.sub (d a b : SReg) (q : BitVec 3) : Encoded.Statement (.sub d a b q) := Encoded.ofSyl fun _ => rfl
theorem Encoded.and (d a b : SReg) (q : BitVec 3) : Encoded.Statement (.and d a b q) := Encoded.ofSyl fun _ => rfl
theorem Encoded.or (d a b : SReg) (q : BitVec 3) : Encoded.Statement (.or d a b q) := Encoded.ofSyl fun _ => rfl
theorem Encoded.xor (d a b : SReg) (q : BitVec 3) : Encoded.Statement (.xor d a b q) := Encoded.ofSyl fun _ => rfl
theorem Encoded.shl (d a b : SReg) (q : BitVec 3) : Encoded.Statement (.shl d a b q) := Encoded.ofSyl fun _ => rfl
theorem Encoded.shr (d a b : SReg) (q : BitVec 3) : Encoded.Statement (.shr d a b q) := Encoded.ofSyl fun _ => rfl
theorem Encoded.sar (d a b : SReg) (q : BitVec 3) : Encoded.Statement (.sar d a b q) := Encoded.ofSyl fun _ => rfl
theorem Encoded.min (d a b : SReg) (q : BitVec 3) : Encoded.Statement (.min d a b q) := Encoded.ofSyl fun _ => rfl
theorem Encoded.max (d a b : SReg) (q : BitVec 3) : Encoded.Statement (.max d a b q) := Encoded.ofSyl fun _ => rfl
theorem Encoded.minn (d a b : SReg) (q : BitVec 3) : Encoded.Statement (.minn d a b q) := Encoded.ofSyl fun _ => rfl
theorem Encoded.maxn (d a b : SReg) (q : BitVec 3) : Encoded.Statement (.maxn d a b q) := Encoded.ofSyl fun _ => rfl
theorem Encoded.mul (d a b : SReg) (q : BitVec 3) : Encoded.Statement (.mul d a b q) := Encoded.ofSyl fun _ => rfl
theorem Encoded.mulh (d a b : SReg) (q : BitVec 3) : Encoded.Statement (.mulh d a b q) := Encoded.ofSyl fun _ => rfl
theorem Encoded.mulhn (d a b : SReg) (q : BitVec 3) : Encoded.Statement (.mulhn d a b q) :=
  Encoded.ofSyl fun _ => rfl
theorem Encoded.div (d a b : SReg) (q : BitVec 3) : Encoded.Statement (.div d a b q) := Encoded.ofSyl fun _ => rfl
theorem Encoded.divn (d a b : SReg) (q : BitVec 3) : Encoded.Statement (.divn d a b q) := Encoded.ofSyl fun _ => rfl
theorem Encoded.rem (d a b : SReg) (q : BitVec 3) : Encoded.Statement (.rem d a b q) := Encoded.ofSyl fun _ => rfl
theorem Encoded.remn (d a b : SReg) (q : BitVec 3) : Encoded.Statement (.remn d a b q) := Encoded.ofSyl fun _ => rfl
theorem Encoded.clz (d a : SReg) (q : BitVec 3) : Encoded.Statement (.clz d a q) := Encoded.ofSyl fun _ => rfl
theorem Encoded.popc (d a : SReg) (q : BitVec 3) : Encoded.Statement (.popc d a q) := Encoded.ofSyl fun _ => rfl
theorem Encoded.bext (d a b : SReg) (q : BitVec 3) (pos : BitVec 6) (wm1 : BitVec 7) : Encoded.Statement (.bext d a b q pos wm1) :=
  Encoded.ofSyl fun _ => rfl
theorem Encoded.bins (d a b : SReg) (q : BitVec 3) (pos : BitVec 6) (wm1 : BitVec 7) : Encoded.Statement (.bins d a b q pos wm1) :=
  Encoded.ofSyl fun _ => rfl
theorem Encoded.sel (d a b : SReg) (q : BitVec 3) (p : BitVec 3) : Encoded.Statement (.sel d a b q p) :=
  Encoded.ofSyl fun _ => rfl
theorem Encoded.cmp (p : BitVec 3) (a b : SReg) (q : BitVec 3) (c : SCond) : Encoded.Statement (.cmp p a b q c) :=
  Encoded.ofSyl fun _ => rfl
theorem Encoded.addi (d a : SReg) (i : BitVec 44) : Encoded.Statement (.addi d a i) := Encoded.ofSyl fun _ => rfl
theorem Encoded.andi (d a : SReg) (i : BitVec 44) : Encoded.Statement (.andi d a i) := Encoded.ofSyl fun _ => rfl
theorem Encoded.ori (d a : SReg) (i : BitVec 44) : Encoded.Statement (.ori d a i) := Encoded.ofSyl fun _ => rfl
theorem Encoded.xori (d a : SReg) (i : BitVec 44) : Encoded.Statement (.xori d a i) := Encoded.ofSyl fun _ => rfl
theorem Encoded.shli (d a : SReg) (n : BitVec 6) : Encoded.Statement (.shli d a n) := Encoded.ofSyl fun _ => rfl
theorem Encoded.shri (d a : SReg) (n : BitVec 6) : Encoded.Statement (.shri d a n) := Encoded.ofSyl fun _ => rfl
theorem Encoded.sari (d a : SReg) (n : BitVec 6) : Encoded.Statement (.sari d a n) := Encoded.ofSyl fun _ => rfl
theorem Encoded.cmpi (p : BitVec 3) (a : SReg) (i : BitVec 44) (c : SCond) : Encoded.Statement (.cmpi p a i c) :=
  Encoded.ofSyl fun _ => rfl
theorem Encoded.li (d : SReg) (i : BitVec 50) : Encoded.Statement (.li d i) := Encoded.ofSyl fun _ => rfl
theorem Encoded.lih (d : SReg) (i : BitVec 50) : Encoded.Statement (.lih d i) := Encoded.ofSyl fun _ => rfl
theorem Encoded.br (p : BitVec 3) (neg : Bool) (off : BitVec 20) : Encoded.Statement (.br p neg off) :=
  Encoded.ofSyl fun _ => rfl
theorem Encoded.brc (p : BitVec 3) (neg : Bool) (off : BitVec 20) (c : SReg) (t : BrTest) : Encoded.Statement (.brc p neg off c t) :=
  Encoded.ofSyl fun _ => rfl
theorem Encoded.call (p : BitVec 3) (neg : Bool) (off : BitVec 20) : Encoded.Statement (.call p neg off) :=
  Encoded.ofSyl fun _ => rfl
theorem Encoded.callr (a : SReg) (q : BitVec 3) : Encoded.Statement (.callr a q) := Encoded.ofSyl fun _ => rfl
theorem Encoded.ret (a : SReg) (q : BitVec 3) : Encoded.Statement (.ret a q) := Encoded.ofSyl fun _ => rfl
theorem Encoded.jr (a : SReg) (q : BitVec 3) : Encoded.Statement (.jr a q) := Encoded.ofSyl fun _ => rfl
theorem Encoded.loop (c0 c1 c2 c3 : SReg) (levels : BitVec 2) (off : BitVec 12) : Encoded.Statement (.loop c0 c1 c2 c3 levels off) :=
  Encoded.ofSyl fun _ => rfl
theorem Encoded.ring (f : RingFile) (base : BitVec 6) (len : BitVec 4) : Encoded.Statement (.ring f base len) :=
  Encoded.ofSyl fun _ => rfl
theorem Encoded.mfsr (d : SReg) (r : SpecReg) : Encoded.Statement (.mfsr d r) := Encoded.ofSyl fun _ => rfl
theorem Encoded.mtsr (r : SpecReg) (a : SReg) : Encoded.Statement (.mtsr r a) := Encoded.ofSyl fun _ => rfl
theorem Encoded.ld (d : SReg) (m : MemOp) (w : Width) : Encoded.Statement (.ld d m w) := Encoded.ofSyl fun _ => rfl
theorem Encoded.st (d : SReg) (m : MemOp) (w : Width) : Encoded.Statement (.st d m w) := Encoded.ofSyl fun _ => rfl
theorem Encoded.lda (d : SReg) (m : MemOp) (w : Width) (sc : Scope) : Encoded.Statement (.lda d m w sc) :=
  Encoded.ofSyl fun _ => rfl
theorem Encoded.stl (d : SReg) (m : MemOp) (w : Width) (sc : Scope) : Encoded.Statement (.stl d m w sc) :=
  Encoded.ofSyl fun _ => rfl
theorem Encoded.amo (op : RouOp) (d a b : SReg) (q : BitVec 3) (w : AWidth) (o : Ord) (sc : Scope) : Encoded.Statement (.amo op d a b q w o sc) :=
  Encoded.ofSyl fun _ => rfl
theorem Encoded.amocas (d a b c : SReg) (q : BitVec 3) (w : AWidth) (o : Ord) (sc : Scope) : Encoded.Statement (.amocas d a b c q w o sc) :=
  Encoded.ofSyl fun _ => rfl
theorem Encoded.lr (d a : SReg) (q : BitVec 3) (w : AWidth) (o : Ord) (sc : Scope) : Encoded.Statement (.lr d a q w o sc) :=
  Encoded.ofSyl fun _ => rfl
theorem Encoded.sc (d a b : SReg) (q : BitVec 3) (w : AWidth) (o : Ord) (s : Scope) : Encoded.Statement (.sc d a b q w o s) :=
  Encoded.ofSyl fun _ => rfl
theorem Encoded.fence (o : Ord) (sc : Scope) (q : BitVec 3) : Encoded.Statement (.fence o sc q) :=
  Encoded.ofSyl fun _ => rfl
theorem Encoded.cwb (a b : SReg) (q : BitVec 3) (sc : Scope) : Encoded.Statement (.cwb a b q sc) :=
  Encoded.ofSyl fun _ => rfl
theorem Encoded.pref (m : MemOp) (clc : Bool) : Encoded.Statement (.pref m clc) := Encoded.ofSyl fun _ => rfl
theorem Encoded.xget (d : SReg) (g : GReg) (lane : BitVec 5) : Encoded.Statement (.xget d g lane) :=
  Encoded.ofSyl fun _ => rfl
theorem Encoded.trap (code : BitVec 8) : Encoded.Statement (.trap code) := Encoded.ofSyl fun _ => rfl
theorem Encoded.svc (num : BitVec 18) : Encoded.Statement (.svc num) := Encoded.ofSyl fun _ => rfl
theorem Encoded.eret (q : BitVec 3) : Encoded.Statement (.eret q) := Encoded.ofSyl fun _ => rfl
theorem Encoded.brk (tag : BitVec 18) : Encoded.Statement (.brk tag) := Encoded.ofSyl fun _ => rfl
theorem Encoded.tlbinv (a b : SReg) (q : BitVec 3) (all : Bool) : Encoded.Statement (.tlbinv a b q all) :=
  Encoded.ofSyl fun _ => rfl
theorem Encoded.wfi (q : BitVec 3) : Encoded.Statement (.wfi q) := Encoded.ofSyl fun _ => rfl
theorem Encoded.nop (drain : Bool) (run : BitVec 4) (tmpl : BitVec 4) : Encoded.Statement (.nop drain run tmpl) := by
  rintro sl ws hw
  obtain rfl : [Header.pack ⟨drain, run, 0, tmpl⟩] = ws := Option.some.inj hw
  exact ⟨by simp, by simp, Header.good_pack _⟩
theorem Encoded.vadd (u : VSlot) (d a b : VReg) (k : BitVec 3) (t : IFmt) : Encoded.Statement (.vadd u d a b k t) :=
  Encoded.ofSyl fun _ => rfl
theorem Encoded.vsub (u : VSlot) (d a b : VReg) (k : BitVec 3) (t : IFmt) : Encoded.Statement (.vsub u d a b k t) :=
  Encoded.ofSyl fun _ => rfl
theorem Encoded.vadds (u : VSlot) (d a b : VReg) (k : BitVec 3) (t : IFmt) : Encoded.Statement (.vadds u d a b k t) :=
  Encoded.ofSyl fun _ => rfl
theorem Encoded.vsubs (u : VSlot) (d a b : VReg) (k : BitVec 3) (t : IFmt) : Encoded.Statement (.vsubs u d a b k t) :=
  Encoded.ofSyl fun _ => rfl
theorem Encoded.vmul (u : VSlot) (d a b : VReg) (k : BitVec 3) (t : IFmt) : Encoded.Statement (.vmul u d a b k t) :=
  Encoded.ofSyl fun _ => rfl
theorem Encoded.vmulh (u : VSlot) (d a b : VReg) (k : BitVec 3) (t : IFmt) : Encoded.Statement (.vmulh u d a b k t) :=
  Encoded.ofSyl fun _ => rfl
theorem Encoded.vmla (u : VSlot) (d a b c : VReg) (k : BitVec 3) (t : IFmt) : Encoded.Statement (.vmla u d a b c k t) :=
  Encoded.ofSyl fun _ => rfl
theorem Encoded.vmls (u : VSlot) (d a b c : VReg) (k : BitVec 3) (t : IFmt) : Encoded.Statement (.vmls u d a b c k t) :=
  Encoded.ofSyl fun _ => rfl
theorem Encoded.vaddw (u : VSlot) (d a b : VReg) (k : BitVec 3) (t : IFmt) : Encoded.Statement (.vaddw u d a b k t) :=
  Encoded.ofSyl fun _ => rfl
theorem Encoded.vmlaw (u : VSlot) (d a b c : VReg) (k : BitVec 3) (t : IFmt) : Encoded.Statement (.vmlaw u d a b c k t) :=
  Encoded.ofSyl fun _ => rfl
theorem Encoded.vnarrow (u : VSlot) (d a : VReg) (k : BitVec 3) (t : IFmt) (sat : Bool) : Encoded.Statement (.vnarrow u d a k t sat) :=
  Encoded.ofSyl fun _ => rfl
theorem Encoded.vabs (u : VSlot) (d a : VReg) (k : BitVec 3) (t : IFmt) : Encoded.Statement (.vabs u d a k t) :=
  Encoded.ofSyl fun _ => rfl
theorem Encoded.vneg (u : VSlot) (d a : VReg) (k : BitVec 3) (t : IFmt) : Encoded.Statement (.vneg u d a k t) :=
  Encoded.ofSyl fun _ => rfl
theorem Encoded.vmin (u : VSlot) (d a b : VReg) (k : BitVec 3) (t : IFmt) : Encoded.Statement (.vmin u d a b k t) :=
  Encoded.ofSyl fun _ => rfl
theorem Encoded.vmax (u : VSlot) (d a b : VReg) (k : BitVec 3) (t : IFmt) : Encoded.Statement (.vmax u d a b k t) :=
  Encoded.ofSyl fun _ => rfl
theorem Encoded.vand (u : VSlot) (d a b : VReg) (k : BitVec 3) (t : IFmt) : Encoded.Statement (.vand u d a b k t) :=
  Encoded.ofSyl fun _ => rfl
theorem Encoded.vor (u : VSlot) (d a b : VReg) (k : BitVec 3) (t : IFmt) : Encoded.Statement (.vor u d a b k t) :=
  Encoded.ofSyl fun _ => rfl
theorem Encoded.vxor (u : VSlot) (d a b : VReg) (k : BitVec 3) (t : IFmt) : Encoded.Statement (.vxor u d a b k t) :=
  Encoded.ofSyl fun _ => rfl
theorem Encoded.vnot (u : VSlot) (d a : VReg) (k : BitVec 3) (t : IFmt) : Encoded.Statement (.vnot u d a k t) :=
  Encoded.ofSyl fun _ => rfl
theorem Encoded.vshl (u : VSlot) (d a b : VReg) (k : BitVec 3) (t : IFmt) : Encoded.Statement (.vshl u d a b k t) :=
  Encoded.ofSyl fun _ => rfl
theorem Encoded.vshr (u : VSlot) (d a b : VReg) (k : BitVec 3) (t : IFmt) : Encoded.Statement (.vshr u d a b k t) :=
  Encoded.ofSyl fun _ => rfl
theorem Encoded.vsar (u : VSlot) (d a b : VReg) (k : BitVec 3) (t : IFmt) : Encoded.Statement (.vsar u d a b k t) :=
  Encoded.ofSyl fun _ => rfl
theorem Encoded.vshli (u : VSlot) (d a : VReg) (n : BitVec 6) (k : BitVec 3) (t : IFmt) : Encoded.Statement (.vshli u d a n k t) :=
  Encoded.ofSyl fun _ => rfl
theorem Encoded.vcmp (u : VSlot) (d : BitVec 3) (a b : VReg) (k : BitVec 3) (t : IFmt) (c : VCond) : Encoded.Statement (.vcmp u d a b k t c) :=
  Encoded.ofSyl fun _ => rfl
theorem Encoded.vsel (u : VSlot) (d a b : VReg) (k : BitVec 3) (t : IFmt) : Encoded.Statement (.vsel u d a b k t) :=
  Encoded.ofSyl fun _ => rfl
theorem Encoded.fadd (u : VSlot) (d a b : VReg) (k : BitVec 3) (t : FFmt) (rm : Rnd) : Encoded.Statement (.fadd u d a b k t rm) :=
  Encoded.ofSyl fun _ => rfl
theorem Encoded.fsub (u : VSlot) (d a b : VReg) (k : BitVec 3) (t : FFmt) (rm : Rnd) : Encoded.Statement (.fsub u d a b k t rm) :=
  Encoded.ofSyl fun _ => rfl
theorem Encoded.fmul (u : VSlot) (d a b : VReg) (k : BitVec 3) (t : FFmt) (rm : Rnd) : Encoded.Statement (.fmul u d a b k t rm) :=
  Encoded.ofSyl fun _ => rfl
theorem Encoded.ffma (u : VSlot) (d a b c : VReg) (k : BitVec 3) (t : FFmt) (rm : Rnd) : Encoded.Statement (.ffma u d a b c k t rm) :=
  Encoded.ofSyl fun _ => rfl
theorem Encoded.ffms (u : VSlot) (d a b c : VReg) (k : BitVec 3) (t : FFmt) (rm : Rnd) : Encoded.Statement (.ffms u d a b c k t rm) :=
  Encoded.ofSyl fun _ => rfl
theorem Encoded.fdiv (u : VSlot) (d a b : VReg) (k : BitVec 3) (t : FFmt) (rm : Rnd) : Encoded.Statement (.fdiv u d a b k t rm) :=
  Encoded.ofSyl fun _ => rfl
theorem Encoded.fsqrt (u : VSlot) (d a : VReg) (k : BitVec 3) (t : FFmt) (rm : Rnd) : Encoded.Statement (.fsqrt u d a k t rm) :=
  Encoded.ofSyl fun _ => rfl
theorem Encoded.frcpe (u : VSlot) (d a : VReg) (k : BitVec 3) (t : FFmt) : Encoded.Statement (.frcpe u d a k t) :=
  Encoded.ofSyl fun _ => rfl
theorem Encoded.fmin (u : VSlot) (d a b : VReg) (k : BitVec 3) (t : FFmt) : Encoded.Statement (.fmin u d a b k t) :=
  Encoded.ofSyl fun _ => rfl
theorem Encoded.fmax (u : VSlot) (d a b : VReg) (k : BitVec 3) (t : FFmt) : Encoded.Statement (.fmax u d a b k t) :=
  Encoded.ofSyl fun _ => rfl
theorem Encoded.fabs (u : VSlot) (d a : VReg) (k : BitVec 3) (t : FFmt) : Encoded.Statement (.fabs u d a k t) :=
  Encoded.ofSyl fun _ => rfl
theorem Encoded.fneg (u : VSlot) (d a : VReg) (k : BitVec 3) (t : FFmt) : Encoded.Statement (.fneg u d a k t) :=
  Encoded.ofSyl fun _ => rfl
theorem Encoded.fcmp (u : VSlot) (d : BitVec 3) (a b : VReg) (k : BitVec 3) (t : FFmt) (c : FCond) : Encoded.Statement (.fcmp u d a b k t c) :=
  Encoded.ofSyl fun _ => rfl
theorem Encoded.fclass (u : VSlot) (d a : VReg) (k : BitVec 3) (t : FFmt) : Encoded.Statement (.fclass u d a k t) :=
  Encoded.ofSyl fun _ => rfl
theorem Encoded.fcvt (u : VSlot) (d a : VReg) (k : BitVec 3) (t src : FFmt) (rm : Rnd) (sat : Bool) : Encoded.Statement (.fcvt u d a k t src rm sat) :=
  Encoded.ofSyl fun _ => rfl
theorem Encoded.fcvti (u : VSlot) (d a : VReg) (k : BitVec 3) (t : IFmt) (src : FFmt) (rm : Rnd) : Encoded.Statement (.fcvti u d a k t src rm) :=
  Encoded.ofSyl fun _ => rfl
theorem Encoded.icvtf (u : VSlot) (d a : VReg) (k : BitVec 3) (t : FFmt) (src : IFmt) (rm : Rnd) : Encoded.Statement (.icvtf u d a k t src rm) :=
  Encoded.ofSyl fun _ => rfl
theorem Encoded.fround (u : VSlot) (d a : VReg) (k : BitVec 3) (t : FFmt) (rm : Rnd) : Encoded.Statement (.fround u d a k t rm) :=
  Encoded.ofSyl fun _ => rfl
theorem Encoded.vmov (u : VSlot) (d a : VReg) (k : BitVec 3) (t : IFmt) : Encoded.Statement (.vmov u d a k t) :=
  Encoded.ofSyl fun _ => rfl
theorem Encoded.vbcast (u : VSlot) (d : VReg) (a : SReg) (k : BitVec 3) (t : IFmt) : Encoded.Statement (.vbcast u d a k t) :=
  Encoded.ofSyl fun _ => rfl
theorem Encoded.vslide (u : VSlot) (d a b : VReg) (k : BitVec 3) (t : IFmt) (off : BitVec 8) : Encoded.Statement (.vslide u d a b k t off) :=
  Encoded.ofSyl fun _ => rfl
theorem Encoded.vperm (u : VSlot) (d a b : VReg) (k : BitVec 3) (t : IFmt) : Encoded.Statement (.vperm u d a b k t) :=
  Encoded.ofSyl fun _ => rfl
theorem Encoded.vlane (u : VSlot) (d : VReg) (a : SReg) (k : BitVec 3) (t : IFmt) (lane : BitVec 8) : Encoded.Statement (.vlane u d a k t lane) :=
  Encoded.ofSyl fun _ => rfl
theorem Encoded.vredadd (u : VSlot) (d a : VReg) (k : BitVec 3) (t : IFmt) : Encoded.Statement (.vredadd u d a k t) :=
  Encoded.ofSyl fun _ => rfl
theorem Encoded.vredmin (u : VSlot) (d a : VReg) (k : BitVec 3) (t : IFmt) : Encoded.Statement (.vredmin u d a k t) :=
  Encoded.ofSyl fun _ => rfl
theorem Encoded.vredmax (u : VSlot) (d a : VReg) (k : BitVec 3) (t : IFmt) : Encoded.Statement (.vredmax u d a k t) :=
  Encoded.ofSyl fun _ => rfl
theorem Encoded.fredadd (u : VSlot) (d a : VReg) (k : BitVec 3) (t : FFmt) (rm : Rnd) : Encoded.Statement (.fredadd u d a k t rm) :=
  Encoded.ofSyl fun _ => rfl
theorem Encoded.vscan (u : VSlot) (d a : VReg) (k : BitVec 3) (t : IFmt) : Encoded.Statement (.vscan u d a k t) :=
  Encoded.ofSyl fun _ => rfl
theorem Encoded.fscan (u : VSlot) (d a : VReg) (k : BitVec 3) (t : FFmt) (rm : Rnd) : Encoded.Statement (.fscan u d a k t rm) :=
  Encoded.ofSyl fun _ => rfl
theorem Encoded.vdequant (u : VSlot) (d a b : VReg) (k : BitVec 3) (t : FFmt) (q4 : Bool) (rm : Rnd) : Encoded.Statement (.vdequant u d a b k t q4 rm) :=
  Encoded.ofSyl fun _ => rfl
theorem Encoded.vquant (u : VSlot) (d a b : VReg) (k : BitVec 3) (t : FFmt) (q4 : Bool) (rm : Rnd) : Encoded.Statement (.vquant u d a b k t q4 rm) :=
  Encoded.ofSyl fun _ => rfl
theorem Encoded.vgen (u : VSlot) (d : VReg) (a b : SReg) (k : BitVec 3) (t : FFmt) : Encoded.Statement (.vgen u d a b k t) :=
  Encoded.ofSyl fun _ => rfl
theorem Encoded.vproj (u : VSlot) (d a b : VReg) (k : BitVec 3) (t : FFmt) (r : BitVec 13) : Encoded.Statement (.vproj u d a b k t r) :=
  Encoded.ofSyl fun _ => rfl
theorem Encoded.vseedscan (u : VSlot) (d : VReg) (a : SReg) (b : VReg) (k : BitVec 3) (t : FFmt) (r : BitVec 13) : Encoded.Statement (.vseedscan u d a b k t r) :=
  Encoded.ofSyl fun _ => rfl
theorem Encoded.kand (u : VSlot) (d a b : BitVec 3) : Encoded.Statement (.kand u d a b) := Encoded.ofSyl fun _ => rfl
theorem Encoded.kor (u : VSlot) (d a b : BitVec 3) : Encoded.Statement (.kor u d a b) := Encoded.ofSyl fun _ => rfl
theorem Encoded.knot (u : VSlot) (d a : BitVec 3) : Encoded.Statement (.knot u d a) := Encoded.ofSyl fun _ => rfl
theorem Encoded.kmov (u : VSlot) (d a : BitVec 3) : Encoded.Statement (.kmov u d a) := Encoded.ofSyl fun _ => rfl
theorem Encoded.mzero (f : BitVec 3) : Encoded.Statement (.mzero f) := Encoded.ofSyl fun _ => rfl
theorem Encoded.mld (r : BitVec 3) (t : TileOp) (off : BitVec 8) : Encoded.Statement (.mld r t off) :=
  Encoded.ofSyl fun _ => rfl
theorem Encoded.mst (r : BitVec 3) (t : TileOp) (off : BitVec 8) : Encoded.Statement (.mst r t off) :=
  Encoded.ofSyl fun _ => rfl
theorem Encoded.mma (f : BitVec 3) (a w : BitVec 5) (c : SReg) (off : BitVec 8) (rm : Rnd) : Encoded.Statement (.mma f a w c off rm) :=
  Encoded.ofSyl fun _ => rfl
theorem Encoded.mmaq (f : BitVec 3) (a w : BitVec 5) (c : SReg) (off : BitVec 8) (rm : Rnd) : Encoded.Statement (.mmaq f a w c off rm) :=
  Encoded.ofSyl fun _ => rfl
theorem Encoded.mmag (f : BitVec 3) (a w : BitVec 5) (c : SReg) (off : BitVec 8) (rm : Rnd) : Encoded.Statement (.mmag f a w c off rm) :=
  Encoded.ofSyl fun _ => rfl
theorem Encoded.mman (f : BitVec 3) (n : SReg) : Encoded.Statement (.mman f n) := Encoded.ofSyl fun _ => rfl
theorem Encoded.mscale (f : BitVec 3) (s : SReg) (rm : Rnd) : Encoded.Statement (.mscale f s rm) :=
  Encoded.ofSyl fun _ => rfl
theorem Encoded.maddt (r : BitVec 3) (t : TileOp) (off : BitVec 8) : Encoded.Statement (.maddt r t off) :=
  Encoded.ofSyl fun _ => rfl
theorem Encoded.mcvt (d s : BitVec 3) (toF32 : Bool) (rm : Rnd) : Encoded.Statement (.mcvt d s toF32 rm) :=
  Encoded.ofSyl fun _ => rfl
theorem Encoded.tld (r : GReg) (t : TileOp) (row : BitVec 8) : Encoded.Statement (.tld r t row) :=
  Encoded.ofSyl fun _ => rfl
theorem Encoded.tldm (d : GReg) (m : MemOp) (size : LdSize) : Encoded.Statement (.tldm d m size) :=
  Encoded.ofSyl fun _ => rfl
theorem Encoded.mbld (d : GReg) (m : MemOp) : Encoded.Statement (.mbld d m) := Encoded.ofSyl fun _ => rfl
theorem Encoded.tacq (t : TileOp) : Encoded.Statement (.tacq t) := Encoded.ofSyl fun _ => rfl
theorem Encoded.tbind (f : BitVec 5) (d v : SReg) : Encoded.Statement (.tbind f d v) := Encoded.ofSyl fun _ => rfl
theorem Encoded.thint (t : TileOp) (h : BitVec 2) : Encoded.Statement (.thint t h) := Encoded.ofSyl fun _ => rfl
theorem Encoded.titin (f : BitVec 5) (i : SReg) : Encoded.Statement (.titin f i) := Encoded.ofSyl fun _ => rfl
theorem Encoded.tcol (r : GReg) (t : TileOp) (col : BitVec 8) : Encoded.Statement (.tcol r t col) :=
  Encoded.ofSyl fun _ => rfl
theorem Encoded.tst (r : GReg) (t : TileOp) (row : BitVec 8) : Encoded.Statement (.tst r t row) :=
  Encoded.ofSyl fun _ => rfl
theorem Encoded.tstm (g : GReg) (a m : SReg) : Encoded.Statement (.tstm g a m) := Encoded.ofSyl fun _ => rfl
theorem Encoded.mbst (d : GReg) (m : MemOp) : Encoded.Statement (.mbst d m) := Encoded.ofSyl fun _ => rfl
theorem Encoded.mbcast (d : GReg) (m : MemOp) : Encoded.Statement (.mbcast d m) := Encoded.ofSyl fun _ => rfl
theorem Encoded.twopen (t : TileOp) (zero : Bool) : Encoded.Statement (.twopen t zero) := Encoded.ofSyl fun _ => rfl
theorem Encoded.tpost (t : TileOp) (wb : Bool) : Encoded.Statement (.tpost t wb) := Encoded.ofSyl fun _ => rfl
theorem Encoded.tdrop (t : TileOp) : Encoded.Statement (.tdrop t) := Encoded.ofSyl fun _ => rfl
theorem Encoded.xcopy (d : SReg) (e : BitVec 3) : Encoded.Statement (.xcopy d e) := Encoded.ofSyl fun _ => rfl
theorem Encoded.xgather (d : SReg) (e : BitVec 3) : Encoded.Statement (.xgather d e) := Encoded.ofSyl fun _ => rfl
theorem Encoded.xremote (d : SReg) (e : BitVec 3) : Encoded.Statement (.xremote d e) := Encoded.ofSyl fun _ => rfl
theorem Encoded.xfill (d : SReg) (e : BitVec 3) : Encoded.Statement (.xfill d e) := Encoded.ofSyl fun _ => rfl
theorem Encoded.xflushrd (p : SReg) (e : BitVec 3) : Encoded.Statement (.xflushrd p e) := Encoded.ofSyl fun _ => rfl
theorem Encoded.xcancel (e : BitVec 3) : Encoded.Statement (.xcancel e) := Encoded.ofSyl fun _ => rfl
theorem Encoded.rop (op : RouOp) (w : AWidth) (a x r : SReg) (e : BitVec 3) : Encoded.Statement (.rop op w a x r e) :=
  Encoded.ofSyl fun _ => rfl
theorem Encoded.rcas4 (b r : SReg) (e : BitVec 3) : Encoded.Statement (.rcas4 b r e) := Encoded.ofSyl fun _ => rfl
theorem Encoded.renq (h n r : SReg) (e : BitVec 3) : Encoded.Statement (.renq h n r e) := Encoded.ofSyl fun _ => rfl
theorem Encoded.rdeq (h r : SReg) (e : BitVec 3) : Encoded.Statement (.rdeq h r e) := Encoded.ofSyl fun _ => rfl
theorem Encoded.rchase (b r : SReg) (e : BitVec 3) : Encoded.Statement (.rchase b r e) := Encoded.ofSyl fun _ => rfl
theorem Encoded.spawn (d a : SReg) : Encoded.Statement (.spawn d a) := Encoded.ofSyl fun _ => rfl
theorem Encoded.spawnr (d a n : SReg) : Encoded.Statement (.spawnr d a n) := Encoded.ofSyl fun _ => rfl
theorem Encoded.fget (d h : SReg) : Encoded.Statement (.fget d h) := Encoded.ofSyl fun _ => rfl
theorem Encoded.fdup (h : SReg) (handOff : Bool) : Encoded.Statement (.fdup h handOff) := Encoded.ofSyl fun _ => rfl
theorem Encoded.fdrop (h : SReg) : Encoded.Statement (.fdrop h) := Encoded.ofSyl fun _ => rfl
theorem Encoded.fpin : Encoded.Statement .fpin := Encoded.ofSyl fun _ => rfl
theorem Encoded.tend (v : SReg) : Encoded.Statement (.tend v) := Encoded.ofSyl fun _ => rfl
theorem Encoded.yield : Encoded.Statement .yield := Encoded.ofSyl fun _ => rfl
theorem Encoded.evwait (e : BitVec 3) (t : SReg) : Encoded.Statement (.evwait e t) := Encoded.ofSyl fun _ => rfl
theorem Encoded.evinc (e : BitVec 3) (i : BitVec 6) : Encoded.Statement (.evinc e i) := Encoded.ofSyl fun _ => rfl
theorem Encoded.sev (t : SReg) : Encoded.Statement (.sev t) := Encoded.ofSyl fun _ => rfl
theorem Encoded.wfe : Encoded.Statement .wfe := Encoded.ofSyl fun _ => rfl
theorem Encoded.bar (n : BitVec 3) : Encoded.Statement (.bar n) := Encoded.ofSyl fun _ => rfl
theorem Encoded.svreg (d a : SReg) (release : Bool) : Encoded.Statement (.svreg d a release) :=
  Encoded.ofSyl fun _ => rfl
theorem Encoded.smst (g s : SReg) (len : BitVec 6) (log : Bool) (c : BitVec 3) : Encoded.Statement (.smst g s len log c) :=
  Encoded.ofSyl fun _ => rfl
theorem Encoded.smred (g s : SReg) (len : BitVec 6) (op : SmOp) (t : SmFmt) (c : BitVec 3) : Encoded.Statement (.smred g s len op t c) :=
  Encoded.ofSyl fun _ => rfl
theorem Encoded.smjoin (d g w : SReg) : Encoded.Statement (.smjoin d g w) := Encoded.ofSyl fun _ => rfl
theorem Encoded.ckpt : Encoded.Statement .ckpt := Encoded.ofSyl fun _ => rfl
theorem Encoded.trig (n : BitVec 6) : Encoded.Statement (.trig n) := Encoded.ofSyl fun _ => rfl
theorem Encoded.resultLands : Encoded.Statement .resultLands := Encoded.ofSyl fun _ => rfl
theorem Encoded.contextSwitch : Encoded.Statement .contextSwitch := Encoded.ofSyl fun _ => rfl
theorem Encoded.instructionFetch : Encoded.Statement .instructionFetch := Encoded.ofSyl fun _ => rfl
theorem Encoded.tlbMissWalk : Encoded.Statement .tlbMissWalk := Encoded.ofSyl fun _ => rfl
theorem Encoded.pageInvalidationComplete : Encoded.Statement .pageInvalidationComplete := Encoded.ofSyl fun _ => rfl
theorem Encoded.mminvcPage : Encoded.Statement .mminvcPage := Encoded.ofSyl fun _ => rfl
theorem Encoded.mminvcAll : Encoded.Statement .mminvcAll := Encoded.ofSyl fun _ => rfl
theorem Encoded.accessBitSweep : Encoded.Statement .accessBitSweep := Encoded.ofSyl fun _ => rfl
theorem Encoded.migrationShootDownDone : Encoded.Statement .migrationShootDownDone := Encoded.ofSyl fun _ => rfl
theorem Encoded.migrationDrainDone : Encoded.Statement .migrationDrainDone := Encoded.ofSyl fun _ => rfl
theorem Encoded.migrationCopyDone : Encoded.Statement .migrationCopyDone := Encoded.ofSyl fun _ => rfl
theorem Encoded.migrationAbandon : Encoded.Statement .migrationAbandon := Encoded.ofSyl fun _ => rfl
theorem Encoded.fillAllocationResume : Encoded.Statement .fillAllocationResume := Encoded.ofSyl fun _ => rfl
theorem Encoded.fillDataArrives : Encoded.Statement .fillDataArrives := Encoded.ofSyl fun _ => rfl
theorem Encoded.fillDataProvisional : Encoded.Statement .fillDataProvisional := Encoded.ofSyl fun _ => rfl
theorem Encoded.ownershipGrant : Encoded.Statement .ownershipGrant := Encoded.ofSyl fun _ => rfl
theorem Encoded.oasisReadRequest : Encoded.Statement .oasisReadRequest := Encoded.ofSyl fun _ => rfl
theorem Encoded.fillResend : Encoded.Statement .fillResend := Encoded.ofSyl fun _ => rfl
theorem Encoded.oasisOpenRequest : Encoded.Statement .oasisOpenRequest := Encoded.ofSyl fun _ => rfl
theorem Encoded.oasisPost : Encoded.Statement .oasisPost := Encoded.ofSyl fun _ => rfl
theorem Encoded.oasisDiscard : Encoded.Statement .oasisDiscard := Encoded.ofSyl fun _ => rfl
theorem Encoded.oasisHbmReadDone : Encoded.Statement .oasisHbmReadDone := Encoded.ofSyl fun _ => rfl
theorem Encoded.oasisWriteback : Encoded.Statement .oasisWriteback := Encoded.ofSyl fun _ => rfl
theorem Encoded.victimBufferAck : Encoded.Statement .victimBufferAck := Encoded.ofSyl fun _ => rfl
theorem Encoded.forwardArrives : Encoded.Statement .forwardArrives := Encoded.ofSyl fun _ => rfl
theorem Encoded.itineraryPrefetch : Encoded.Statement .itineraryPrefetch := Encoded.ofSyl fun _ => rfl
theorem Encoded.opurge : Encoded.Statement .opurge := Encoded.ofSyl fun _ => rfl
theorem Encoded.opurgeComplete : Encoded.Statement .opurgeComplete := Encoded.ofSyl fun _ => rfl
theorem Encoded.hbmReadPacket : Encoded.Statement .hbmReadPacket := Encoded.ofSyl fun _ => rfl
theorem Encoded.hbmWritePacket : Encoded.Statement .hbmWritePacket := Encoded.ofSyl fun _ => rfl
theorem Encoded.hbmControlPacket : Encoded.Statement .hbmControlPacket := Encoded.ofSyl fun _ => rfl
theorem Encoded.hbmReply : Encoded.Statement .hbmReply := Encoded.ofSyl fun _ => rfl
theorem Encoded.refreshSlot : Encoded.Statement .refreshSlot := Encoded.ofSyl fun _ => rfl
theorem Encoded.patrolScrub : Encoded.Statement .patrolScrub := Encoded.ofSyl fun _ => rfl
theorem Encoded.hdeadcmdKill : Encoded.Statement .hdeadcmdKill := Encoded.ofSyl fun _ => rfl
theorem Encoded.hdeadcmdRevive : Encoded.Statement .hdeadcmdRevive := Encoded.ofSyl fun _ => rfl
theorem Encoded.hdeadcmdDone : Encoded.Statement .hdeadcmdDone := Encoded.ofSyl fun _ => rfl
theorem Encoded.interfaceCrcFail : Encoded.Statement .interfaceCrcFail := Encoded.ofSyl fun _ => rfl
theorem Encoded.interfaceRetrainEnd : Encoded.Statement .interfaceRetrainEnd := Encoded.ofSyl fun _ => rfl
theorem Encoded.rouSingleWordOp : Encoded.Statement .rouSingleWordOp := Encoded.ofSyl fun _ => rfl
theorem Encoded.rouAmocas : Encoded.Statement .rouAmocas := Encoded.ofSyl fun _ => rfl
theorem Encoded.rouLr : Encoded.Statement .rouLr := Encoded.ofSyl fun _ => rfl
theorem Encoded.rouSc : Encoded.Statement .rouSc := Encoded.ofSyl fun _ => rfl
theorem Encoded.rouRcas4 : Encoded.Statement .rouRcas4 := Encoded.ofSyl fun _ => rfl
theorem Encoded.rouRenq : Encoded.Statement .rouRenq := Encoded.ofSyl fun _ => rfl
theorem Encoded.rouRdeq : Encoded.Statement .rouRdeq := Encoded.ofSyl fun _ => rfl
theorem Encoded.rchaseHop : Encoded.Statement .rchaseHop := Encoded.ofSyl fun _ => rfl
theorem Encoded.reservationExpiry : Encoded.Statement .reservationExpiry := Encoded.ofSyl fun _ => rfl
theorem Encoded.bsuRefill : Encoded.Statement .bsuRefill := Encoded.ofSyl fun _ => rfl
theorem Encoded.bsuctlEnable : Encoded.Statement .bsuctlEnable := Encoded.ofSyl fun _ => rfl
theorem Encoded.bsuctlDisable : Encoded.Statement .bsuctlDisable := Encoded.ofSyl fun _ => rfl
theorem Encoded.portUnitSend : Encoded.Statement .portUnitSend := Encoded.ofSyl fun _ => rfl
theorem Encoded.svtWidenAcked : Encoded.Statement .svtWidenAcked := Encoded.ofSyl fun _ => rfl
theorem Encoded.mbcastLand : Encoded.Statement .mbcastLand := Encoded.ofSyl fun _ => rfl
theorem Encoded.mbstLand : Encoded.Statement .mbstLand := Encoded.ofSyl fun _ => rfl
theorem Encoded.cxlHostReadShared : Encoded.Statement .cxlHostReadShared := Encoded.ofSyl fun _ => rfl
theorem Encoded.cxlHostReadOwn : Encoded.Statement .cxlHostReadOwn := Encoded.ofSyl fun _ => rfl
theorem Encoded.cxlHostEvict : Encoded.Statement .cxlHostEvict := Encoded.ofSyl fun _ => rfl
theorem Encoded.cxlHostSnoop : Encoded.Statement .cxlHostSnoop := Encoded.ofSyl fun _ => rfl
theorem Encoded.flitReceive : Encoded.Statement .flitReceive := Encoded.ofSyl fun _ => rfl
theorem Encoded.ackDeadline : Encoded.Statement .ackDeadline := Encoded.ofSyl fun _ => rfl
theorem Encoded.laneFail : Encoded.Statement .laneFail := Encoded.ofSyl fun _ => rfl
theorem Encoded.retrainSuccess : Encoded.Statement .retrainSuccess := Encoded.ofSyl fun _ => rfl
theorem Encoded.retrainTimeout : Encoded.Statement .retrainTimeout := Encoded.ofSyl fun _ => rfl
theorem Encoded.flstatRq : Encoded.Statement .flstatRq := Encoded.ofSyl fun _ => rfl
theorem Encoded.flecenPacketAccept : Encoded.Statement .flecenPacketAccept := Encoded.ofSyl fun _ => rfl
theorem Encoded.heldWritePerform : Encoded.Statement .heldWritePerform := Encoded.ofSyl fun _ => rfl
theorem Encoded.e2eAckReceive : Encoded.Statement .e2eAckReceive := Encoded.ofSyl fun _ => rfl
theorem Encoded.e2eRejectReceive : Encoded.Statement .e2eRejectReceive := Encoded.ofSyl fun _ => rfl
theorem Encoded.e2eRetransmitTimeout : Encoded.Statement .e2eRetransmitTimeout := Encoded.ofSyl fun _ => rfl
theorem Encoded.flushingReadAnswer : Encoded.Statement .flushingReadAnswer := Encoded.ofSyl fun _ => rfl
theorem Encoded.flushResponseReceive : Encoded.Statement .flushResponseReceive := Encoded.ofSyl fun _ => rfl
theorem Encoded.smgcmdCreate : Encoded.Statement .smgcmdCreate := Encoded.ofSyl fun _ => rfl
theorem Encoded.smgcmdClose : Encoded.Statement .smgcmdClose := Encoded.ofSyl fun _ => rfl
theorem Encoded.smgcmdDestroy : Encoded.Statement .smgcmdDestroy := Encoded.ofSyl fun _ => rfl
theorem Encoded.smgcmdAnswer : Encoded.Statement .smgcmdAnswer := Encoded.ofSyl fun _ => rfl
theorem Encoded.switchSequence : Encoded.Statement .switchSequence := Encoded.ofSyl fun _ => rfl
theorem Encoded.smgEntryArrive : Encoded.Statement .smgEntryArrive := Encoded.ofSyl fun _ => rfl
theorem Encoded.smgMemberAck : Encoded.Statement .smgMemberAck := Encoded.ofSyl fun _ => rfl
theorem Encoded.sequencedCommandComplete : Encoded.Statement .sequencedCommandComplete := Encoded.ofSyl fun _ => rfl
theorem Encoded.taskPlace : Encoded.Statement .taskPlace := Encoded.ofSyl fun _ => rfl
theorem Encoded.rangeChunkRequest : Encoded.Statement .rangeChunkRequest := Encoded.ofSyl fun _ => rfl
theorem Encoded.reclamationStop : Encoded.Statement .reclamationStop := Encoded.ofSyl fun _ => rfl
theorem Encoded.matrixKstep : Encoded.Statement .matrixKstep := Encoded.ofSyl fun _ => rfl
theorem Encoded.matrixRetire : Encoded.Statement .matrixRetire := Encoded.ofSyl fun _ => rfl
theorem Encoded.matrixSlotBoundary : Encoded.Statement .matrixSlotBoundary := Encoded.ofSyl fun _ => rfl
theorem Encoded.copyPacket : Encoded.Statement .copyPacket := Encoded.ofSyl fun _ => rfl
theorem Encoded.xremoteTaken : Encoded.Statement .xremoteTaken := Encoded.ofSyl fun _ => rfl
theorem Encoded.xCommandComplete : Encoded.Statement .xCommandComplete := Encoded.ofSyl fun _ => rfl
theorem Encoded.latchSet : Encoded.Statement .latchSet := Encoded.ofSyl fun _ => rfl
theorem Encoded.cbarWrite : Encoded.Statement .cbarWrite := Encoded.ofSyl fun _ => rfl
theorem Encoded.qctlEnable : Encoded.Statement .qctlEnable := Encoded.ofSyl fun _ => rfl
theorem Encoded.qctlDisable : Encoded.Statement .qctlDisable := Encoded.ofSyl fun _ => rfl
theorem Encoded.doorbellProd : Encoded.Statement .doorbellProd := Encoded.ofSyl fun _ => rfl
theorem Encoded.doorbellFres : Encoded.Statement .doorbellFres := Encoded.ofSyl fun _ => rfl
theorem Encoded.rootTaskTake : Encoded.Statement .rootTaskTake := Encoded.ofSyl fun _ => rfl
theorem Encoded.rollbackComplete : Encoded.Statement .rollbackComplete := Encoded.ofSyl fun _ => rfl
theorem Encoded.preemption : Encoded.Statement .preemption := Encoded.ofSyl fun _ => rfl
theorem Encoded.contextSave : Encoded.Statement .contextSave := Encoded.ofSyl fun _ => rfl
theorem Encoded.saveBoundExpiry : Encoded.Statement .saveBoundExpiry := Encoded.ofSyl fun _ => rfl
theorem Encoded.contextRestore : Encoded.Statement .contextRestore := Encoded.ofSyl fun _ => rfl
theorem Encoded.watchdogExpire : Encoded.Statement .watchdogExpire := Encoded.ofSyl fun _ => rfl
theorem Encoded.checkpointIntervalEnd : Encoded.Statement .checkpointIntervalEnd := Encoded.ofSyl fun _ => rfl
theorem Encoded.dieFailed : Encoded.Statement .dieFailed := Encoded.ofSyl fun _ => rfl
theorem Encoded.packageReset : Encoded.Statement .packageReset := Encoded.ofSyl fun _ => rfl
theorem Encoded.atctlGo : Encoded.Statement .atctlGo := Encoded.ofSyl fun _ => rfl
theorem Encoded.attestationReportDone : Encoded.Statement .attestationReportDone := Encoded.ofSyl fun _ => rfl
theorem Encoded.mrext : Encoded.Statement .mrext := Encoded.ofSyl fun _ => rfl
theorem Encoded.fppush : Encoded.Statement .fppush := Encoded.ofSyl fun _ => rfl
theorem Encoded.frpop : Encoded.Statement .frpop := Encoded.ofSyl fun _ => rfl
theorem Encoded.pwltrWrite : Encoded.Statement .pwltrWrite := Encoded.ofSyl fun _ => rfl
theorem Encoded.powerDwellExpiry : Encoded.Statement .powerDwellExpiry := Encoded.ofSyl fun _ => rfl
theorem Encoded.powerWake : Encoded.Statement .powerWake := Encoded.ofSyl fun _ => rfl
theorem Encoded.wakeComplete : Encoded.Statement .wakeComplete := Encoded.ofSyl fun _ => rfl
theorem Encoded.thermalThrottle : Encoded.Statement .thermalThrottle := Encoded.ofSyl fun _ => rfl
theorem Encoded.thermalRecover : Encoded.Statement .thermalRecover := Encoded.ofSyl fun _ => rfl
theorem Encoded.thermalTrip : Encoded.Statement .thermalTrip := Encoded.ofSyl fun _ => rfl
theorem Encoded.registerWrite : Encoded.Statement .registerWrite := Encoded.ofSyl fun _ => rfl
theorem Encoded.cxlCompletion : Encoded.Statement .cxlCompletion := Encoded.ofSyl fun _ => rfl

end Sys2Proof.Laws
end

