-- ==== Sys2Proof/Tests/Slice0.lean ====
section
/-! SUPPORT. Tests: the checks of `Instr.wf` each refuse an ill-formed term, words written out from the encodings of spec/08
decode to what they stand for, instructions give the values that the spec's rules give by hand, and the hypotheses of the
statements are met by concrete states. -/
namespace Sys2Proof.Tests
set_option Elab.async false
open Sys2Proof.Machine Sys2Proof.Claims

/-! ## Well-formedness: one ill-formed term for each check -/

theorem test_wf_bit_field : (Instr.bext 1 2 3 0 60 4).wf = false ∧ (Instr.bins 1 2 3 0 1 63).wf = false
    ∧ (Instr.bext 1 2 3 0 60 3).wf = true := by decide
theorem test_wf_loop : (Instr.loop 1 0 0 0 0 0).wf = false ∧ (Instr.loop 1 2 0 0 0 7).wf = false
    ∧ (Instr.loop 1 2 3 0 1 7).wf = false ∧ (Instr.loop 1 2 3 4 2 7).wf = false ∧ (Instr.loop 1 2 3 4 3 7).wf = true := by decide
theorem test_wf_ring : (Instr.ring .v 32 0).wf = false ∧ (Instr.ring .w 40 0).wf = false ∧ (Instr.ring .g 16 0).wf = false
    ∧ (Instr.ring .s 63 0).wf = true ∧ (Instr.ring .g 15 0).wf = true := by decide
theorem test_wf_amo : (Instr.amo .fadd 1 2 3 0 .w64 .rlx .pkg).wf = false := by decide
theorem test_wf_fence : (Instr.fence .rlx .pkg 0).wf = false ∧ (Instr.fence .ar .inf 0).wf = false
    ∧ (Instr.fence .ar .sys 0).wf = true := by decide
theorem test_wf_cwb : (Instr.cwb 1 2 0 .inf).wf = false := by decide
theorem test_wf_tlbinv : (Instr.tlbinv 1 2 0 true).wf = false ∧ (Instr.tlbinv 1 2 0 false).wf = true := by decide
theorem test_wf_widening : (Instr.vaddw .v0 (.own 1) (.own 2) (.own 3) 0 .i64).wf = false
    ∧ (Instr.vmlaw .v0 (.own 1) (.own 2) (.own 3) (.own 4) 0 .n64).wf = false
    ∧ (Instr.vnarrow .v0 (.own 1) (.own 2) 0 .i64 false).wf = false := by decide
theorem test_wf_lane_counts : (Instr.vshli .v0 (.own 1) (.own 2) 8 0 .i8).wf = false
    ∧ (Instr.vslide .v0 (.own 1) (.own 2) (.own 3) 0 .i64 33).wf = false
    ∧ (Instr.vlane .v0 (.own 1) 2 0 .i32 64).wf = false ∧ (Instr.vlane .v0 (.own 1) 2 0 .i32 63).wf = true := by decide
theorem test_wf_rank : (Instr.vproj .v0 (.own 1) (.own 2) (.own 3) 0 .f32 0).wf = false
    ∧ (Instr.vseedscan .v0 (.own 1) 2 (.own 3) 0 .f32 65).wf = false
    ∧ (Instr.vproj .v0 (.own 1) (.own 2) (.own 3) 0 .f32 64).wf = true := by decide
theorem test_wf_mcvt : (Instr.mcvt 1 2 false .dyn).wf = false ∧ (Instr.mcvt 2 1 true .dyn).wf = false
    ∧ (Instr.mcvt 2 1 false .dyn).wf = true := by decide
theorem test_wf_sequenced : (Instr.smst 1 2 0 false 0).wf = false ∧ (Instr.smred 1 2 33 .add .f32 0).wf = false := by decide

/-! ## Decoding: words written out field by field from R227 to R232 and the opcode map (R249, R252 to R257) -/

theorem test_decode_scalar : decodeSyl .S (Syl.ofWords 0x000C1080#32 0) = some (.add 3 1 2 0)
    ∧ decodeSyl .S (Syl.ofWords 0x170C1085#32 0) = some (.sel 3 1 2 0 5)
    ∧ decodeSyl .S (Syl.ofWords 0x18081084#32 0) = some (.cmp 2 1 2 0 .ltn)
    ∧ decodeSyl .S (Syl.ofWords 0x950C1080#32 0x000001C4#32) = some (.bext 3 1 2 0 4 7)
    ∧ decodeSyl .S (Syl.ofWords 0x200C1FFF#32 0) = some (.addi 3 1 (BitVec.ofInt 44 (-1))) := by decide
theorem test_decode_control : decodeSyl .S (Syl.ofWords 0xB17FFFFC#32 0x00092000#32) = some (.brc 3 true (BitVec.ofInt 20 (-4)) 9 .nz)
    ∧ decodeSyl .S (Syl.ofWords 0x3403F000#32 0) = some (.ret 63 0)
    ∧ decodeSyl .S (Syl.ofWords 0x39D40011#32 0) = none := by decide
theorem test_decode_memory : decodeSyl .S (Syl.ofWords 0xC00C1008#32 0x00100000#32) = some (.ld 3 ⟨1, 8, 0⟩ .i16)
    ∧ decodeSyl .S (Syl.ofWords 0xC40C1083#32 0x0E400000#32) = some (.amo .swap 3 1 2 0 .w64 .ar .pkg)
    ∧ decodeSyl .S (Syl.ofWords 0xC8000000#32 0x0E000000#32) = some (.fence .ar .pkg 0)
    ∧ decodeSyl .S (Syl.ofWords 0x4B0C2005#32 0) = some (.xget 3 2 5) := by decide
theorem test_decode_system : decodeSyl .S (Syl.ofWords 0x50000012#32 0) = some (.trap 0x12)
    ∧ decodeSyl .S (Syl.ofWords 0x540010C1#32 0) = none
    ∧ decodeSyl .S (Syl.ofWords 0x540000C1#32 0) = some (.tlbinv 0 3 0 true) := by decide
theorem test_decode_vector : decodeSyl .V0 (Syl.ofWords 0xA30C4154#32 0x20042000#32) =
      some (.ffma .v0 (.own 3) (.own 4) (.own 5) (.g 1) 2 .f32 (.mode .rtz))
    ∧ decodeSyl .V0 (Syl.ofWords 0xA30C4154#32 0xA0042000#32) = none
    ∧ decodeSyl .V1 (Syl.ofWords 0x970C4142#32 0x00100000#32) = some (.vcmp .v1 3 (.own 4) (.own 5) 0 .i32 .lt)
    ∧ decodeSyl .V0 (Syl.ofWords 0xC40C4001#32 0x00000007#32) = some (.vlane .v0 (.own 3) 4 0 .i16 7)
    ∧ decodeSyl .V0 (Syl.ofWords 0x680C4140#32 0) = some (.kand .v0 3 4 5)
    ∧ decodeSyl .V1 (Syl.ofWords 0x600C4144#32 0) = some (.vgen .v1 (.own 3) 4 5 0 .f32) := by decide
theorem test_decode_matrix : decodeSyl .M (Syl.ofWords 0x8108620A#32 0x18000009#32) = some (.mld 2 ⟨3, 4, 5, 6, 0, 0, 0⟩ 9)
    ∧ decodeSyl .M (Syl.ofWords 0x030420C4#32 0) = some (.mma 1 2 3 4 0 .dyn) := by decide
theorem test_decode_tiles : decodeSyl .L (Syl.ofWords 0x0088620A#32 0) = some (.tld 2 ⟨3, 4, 5, 0, 0, 0, 0⟩ 0)
    ∧ decodeSyl .L (Syl.ofWords 0x040C4140#32 0) = some (.tbind 3 4 5)
    ∧ decodeSyl .T (Syl.ofWords 0x0088620A#32 0) = some (.tst 2 ⟨3, 4, 5, 0, 0, 0, 0⟩ 0)
    ∧ decodeSyl .T (Syl.ofWords 0x8500620A#32 0x00000001#32) = some (.tpost ⟨3, 4, 5, 0, 0, 0, 0⟩ true) := by decide
theorem test_decode_copy_and_remote : decodeSyl .X (Syl.ofWords 0x00102000#32 0) = some (.xcopy 4 2)
    ∧ decodeSyl .X (Syl.ofWords 0x90105182#32 0x00380001#32) = some (.rop .maxn .w32 4 5 6 2) := by decide
theorem test_decode_tasks : decodeSyl .Y (Syl.ofWords 0x000C4000#32 0) = some (.spawn 3 4)
    ∧ decodeSyl .Y (Syl.ofWords 0x11080005#32 0) = some (.evinc 2 5)
    ∧ decodeSyl .Y (Syl.ofWords 0xA1004143#32 0x0008400C#32) = some (.smred 4 5 3 .min .f32 2) := by decide
/-- A syllable of a slot with its extension word stands for an instruction. -/
def decodesTo (l : List (Slot × BitVec 32 × BitVec 32 × Instr)) : Bool :=
  l.all fun (sl, w, x, i) => decodeSyl sl (Syl.ofWords w x) == some i
theorem test_words_scalar_registers : decodesTo [
    (.S, 0x010C4170#32, 0, .sub 3 4 5 6), (.S, 0x020C4170#32, 0, .and 3 4 5 6), (.S, 0x030C4170#32, 0, .or 3 4 5 6),
    (.S, 0x040C4170#32, 0, .xor 3 4 5 6), (.S, 0x050C4170#32, 0, .shl 3 4 5 6), (.S, 0x060C4170#32, 0, .shr 3 4 5 6),
    (.S, 0x070C4170#32, 0, .sar 3 4 5 6), (.S, 0x080C4170#32, 0, .min 3 4 5 6), (.S, 0x090C4170#32, 0, .max 3 4 5 6),
    (.S, 0x0A0C4170#32, 0, .minn 3 4 5 6), (.S, 0x0B0C4170#32, 0, .maxn 3 4 5 6), (.S, 0x0C0C4170#32, 0, .mul 3 4 5 6),
    (.S, 0x0D0C4170#32, 0, .mulh 3 4 5 6), (.S, 0x0E0C4170#32, 0, .mulhn 3 4 5 6), (.S, 0x0F0C4170#32, 0, .div 3 4 5 6),
    (.S, 0x100C4170#32, 0, .divn 3 4 5 6), (.S, 0x110C4170#32, 0, .rem 3 4 5 6), (.S, 0x120C4170#32, 0, .remn 3 4 5 6),
    (.S, 0x130C4030#32, 0, .clz 3 4 6), (.S, 0x140C4030#32, 0, .popc 3 4 6),
    (.S, 0x960C4170#32, 0x000001C9#32, .bins 3 4 5 6 9 7)] = true := by decide +kernel
theorem test_words_scalar_immediates : decodesTo [
    (.S, 0x210C4FFB#32, 0, .andi 3 4 (BitVec.ofInt 44 (-5))), (.S, 0x220C4FFB#32, 0, .ori 3 4 (BitVec.ofInt 44 (-5))),
    (.S, 0x230C4FFB#32, 0, .xori 3 4 (BitVec.ofInt 44 (-5))), (.S, 0x240C4029#32, 0, .shli 3 4 41),
    (.S, 0x250C4029#32, 0, .shri 3 4 41), (.S, 0x260C4029#32, 0, .sari 3 4 41),
    (.S, 0xA00C4123#32, 0x00000FED#32, .addi 3 4 0xFED123), (.S, 0x27544FFF#32, 0, .cmpi 2 4 (BitVec.ofInt 44 (-1)) .gen),
    (.S, 0x280FFFFE#32, 0, .li 3 (BitVec.ofInt 50 (-2))), (.S, 0x290C1234#32, 0, .lih 3 0x1234)] = true := by decide +kernel
theorem test_words_control : decodesTo [
    (.S, 0x30BFFFF9#32, 0, .br 5 true (BitVec.ofInt 20 (-7))), (.S, 0x32A00009#32, 0, .call 5 false 9),
    (.S, 0x33004030#32, 0, .callr 4 6), (.S, 0x35004030#32, 0, .jr 4 6),
    (.S, 0xB80C4158#32, 0x18008700#32, .loop 3 4 5 6 3 135), (.S, 0x39240026#32, 0, .ring .w 9 6),
    (.S, 0x3A0C0044#32, 0, .mfsr 3 (.lc 2)), (.S, 0x3B0C0023#32, 0, .mtsr .tstat 3), (.S, 0x5102ABCD#32, 0, .svc 0x2ABCD),
    (.S, 0x52000030#32, 0, .eret 6), (.S, 0x5302ABCD#32, 0, .brk 0x2ABCD), (.S, 0x54004170#32, 0, .tlbinv 4 5 6 false),
    (.S, 0x55000030#32, 0, .wfi 6)] = true := by decide +kernel
theorem test_words_scalar_memory : decodesTo [
    (.S, 0xC10C4FF8#32, 0x00280002#32, .st 3 ⟨4, 0xFF8, 2⟩ .n16), (.S, 0xC20C4008#32, 0x03080000#32, .lda 3 ⟨4, 8, 0⟩ .i8 .sys),
    (.S, 0xC30C4008#32, 0x03B00000#32, .stl 3 ⟨4, 8, 0⟩ .n32 .inf),
    (.S, 0xC50C4172#32, 0x0580E000#32, .amocas 3 4 5 7 6 .w32 .acq .die),
    (.S, 0xC60C4033#32, 0x05000000#32, .lr 3 4 6 .w64 .acq .cl), (.S, 0xC70C4173#32, 0x0A800000#32, .sc 3 4 5 6 .w64 .rel .dom),
    (.S, 0xC9004170#32, 0x03000000#32, .cwb 4 5 6 .sys), (.S, 0xCA004008#32, 0x00080000#32, .pref ⟨4, 8, 0⟩ true)] = true := by decide +kernel
theorem test_words_vector_integers : decodesTo [
    (.V0, 0x000C4975#32, 0, .vadd .v0 (.own 3) (.own 4) (.g 5) 6 .n16),
    (.V0, 0x010C4975#32, 0, .vsub .v0 (.own 3) (.own 4) (.g 5) 6 .n16),
    (.V0, 0x020C4975#32, 0, .vadds .v0 (.own 3) (.own 4) (.g 5) 6 .n16),
    (.V0, 0x030C4975#32, 0, .vsubs .v0 (.own 3) (.own 4) (.g 5) 6 .n16),
    (.V0, 0x040C4975#32, 0, .vmul .v0 (.own 3) (.own 4) (.g 5) 6 .n16),
    (.V0, 0x050C4975#32, 0, .vmulh .v0 (.own 3) (.own 4) (.g 5) 6 .n16),
    (.V0, 0x080C4975#32, 0, .vaddw .v0 (.own 3) (.own 4) (.g 5) 6 .n16),
    (.V0, 0x0D0C4975#32, 0, .vmin .v0 (.own 3) (.own 4) (.g 5) 6 .n16),
    (.V0, 0x0E0C4975#32, 0, .vmax .v0 (.own 3) (.own 4) (.g 5) 6 .n16),
    (.V0, 0x0F0C4975#32, 0, .vand .v0 (.own 3) (.own 4) (.g 5) 6 .n16),
    (.V0, 0x100C4975#32, 0, .vor .v0 (.own 3) (.own 4) (.g 5) 6 .n16),
    (.V0, 0x110C4975#32, 0, .vxor .v0 (.own 3) (.own 4) (.g 5) 6 .n16),
    (.V0, 0x130C4975#32, 0, .vshl .v0 (.own 3) (.own 4) (.g 5) 6 .n16),
    (.V0, 0x140C4975#32, 0, .vshr .v0 (.own 3) (.own 4) (.g 5) 6 .n16),
    (.V0, 0x150C4975#32, 0, .vsar .v0 (.own 3) (.own 4) (.g 5) 6 .n16),
    (.V0, 0x180C4975#32, 0, .vsel .v0 (.own 3) (.own 4) (.g 5) 6 .n16),
    (.V0, 0x430C4975#32, 0, .vperm .v0 (.own 3) (.own 4) (.g 5) 6 .n16),
    (.V1, 0x860C4171#32, 0x0000E000#32, .vmla .v1 (.own 3) (.own 4) (.own 5) (.own 7) 6 .i16),
    (.V1, 0x870C4171#32, 0x0000E000#32, .vmls .v1 (.own 3) (.own 4) (.own 5) (.own 7) 6 .i16),
    (.V1, 0x890C4171#32, 0x0000E000#32, .vmlaw .v1 (.own 3) (.own 4) (.own 5) (.own 7) 6 .i16),
    (.V0, 0x8A0C4034#32, 0x10000000#32, .vnarrow .v0 (.own 3) (.own 4) 6 .n8 true),
    (.V1, 0x0B0C4032#32, 0, .vabs .v1 (.own 3) (.own 4) 6 .i32), (.V1, 0x0C0C4032#32, 0, .vneg .v1 (.own 3) (.own 4) 6 .i32),
    (.V1, 0x120C4032#32, 0, .vnot .v1 (.own 3) (.own 4) 6 .i32), (.V1, 0x400C4032#32, 0, .vmov .v1 (.own 3) (.own 4) 6 .i32),
    (.V1, 0x500C4032#32, 0, .vredadd .v1 (.own 3) (.own 4) 6 .i32),
    (.V1, 0x510C4032#32, 0, .vredmin .v1 (.own 3) (.own 4) 6 .i32),
    (.V1, 0x520C4032#32, 0, .vredmax .v1 (.own 3) (.own 4) 6 .i32),
    (.V1, 0x540C4032#32, 0, .vscan .v1 (.own 3) (.own 4) 6 .i32),
    (.V0, 0x160C4371#32, 0, .vshli .v0 (.own 3) (.own 4) 13 6 .i16), (.V0, 0x410EC033#32, 0, .vbcast .v0 (.own 3) 44 6 .i64),
    (.V0, 0xC20C4170#32, 0x0000004D#32, .vslide .v0 (.own 3) (.own 4) (.own 5) 6 .i8 77),
    (.V0, 0x690C4140#32, 0, .kor .v0 3 4 5), (.V1, 0x6A0C4000#32, 0, .knot .v1 3 4), (.V1, 0x6B0C4000#32, 0, .kmov .v1 3 4)] = true := by decide +kernel
theorem test_words_vector_floats : decodesTo [
    (.V0, 0xA00C4175#32, 0x60000000#32, .fadd .v0 (.own 3) (.own 4) (.own 5) 6 .f64 (.mode .rup)),
    (.V0, 0xA10C4175#32, 0x60000000#32, .fsub .v0 (.own 3) (.own 4) (.own 5) 6 .f64 (.mode .rup)),
    (.V0, 0xA20C4175#32, 0x60000000#32, .fmul .v0 (.own 3) (.own 4) (.own 5) 6 .f64 (.mode .rup)),
    (.V0, 0xA50C4175#32, 0x60000000#32, .fdiv .v0 (.own 3) (.own 4) (.own 5) 6 .f64 (.mode .rup)),
    (.V1, 0xA30C4174#32, 0x8000E000#32, .ffma .v1 (.own 3) (.own 4) (.own 5) (.own 7) 6 .f32 (.mode .rna)),
    (.V1, 0xA40C4174#32, 0x8000E000#32, .ffms .v1 (.own 3) (.own 4) (.own 5) (.own 7) 6 .f32 (.mode .rna)),
    (.V0, 0xA60C4032#32, 0x20000000#32, .fsqrt .v0 (.own 3) (.own 4) 6 .f16 (.mode .rtz)),
    (.V0, 0xB10C4032#32, 0x20000000#32, .fround .v0 (.own 3) (.own 4) 6 .f16 (.mode .rtz)),
    (.V0, 0xD30C4032#32, 0x20000000#32, .fredadd .v0 (.own 3) (.own 4) 6 .f16 (.mode .rtz)),
    (.V0, 0xD50C4032#32, 0x20000000#32, .fscan .v0 (.own 3) (.own 4) 6 .f16 (.mode .rtz)),
    (.V1, 0x280C4173#32, 0, .fmin .v1 (.own 3) (.own 4) (.own 5) 6 .bf16),
    (.V1, 0x290C4173#32, 0, .fmax .v1 (.own 3) (.own 4) (.own 5) 6 .bf16),
    (.V1, 0x270C4030#32, 0, .frcpe .v1 (.own 3) (.own 4) 6 .e4m3), (.V1, 0x2A0C4030#32, 0, .fabs .v1 (.own 3) (.own 4) 6 .e4m3),
    (.V1, 0x2B0C4030#32, 0, .fneg .v1 (.own 3) (.own 4) 6 .e4m3),
    (.V1, 0x2D0C4030#32, 0, .fclass .v1 (.own 3) (.own 4) 6 .e4m3),
    (.V0, 0xAC0C4174#32, 0x00280000#32, .fcmp .v0 3 (.own 4) (.own 5) 6 .f32 .or),
    (.V0, 0xAE0C4031#32, 0x50200000#32, .fcvt .v0 (.own 3) (.own 4) 6 .e5m2 .f32 (.mode .rdn) true),
    (.V0, 0xAF0C4036#32, 0x40280000#32, .fcvti .v0 (.own 3) (.own 4) 6 .n32 .f64 (.mode .rdn)),
    (.V0, 0xB00C4035#32, 0x40380000#32, .icvtf .v0 (.own 3) (.own 4) 6 .f64 .n64 (.mode .rdn)),
    (.V1, 0xD80C4172#32, 0x00080000#32, .vdequant .v1 (.own 3) (.own 4) (.own 5) 6 .f16 true (.mode .rne)),
    (.V1, 0xD90C4172#32, 0x00080000#32, .vquant .v1 (.own 3) (.own 4) (.own 5) 6 .f16 true (.mode .rne)),
    (.V0, 0xE10C4174#32, 0x00000040#32, .vproj .v0 (.own 3) (.own 4) (.own 5) 6 .f32 64),
    (.V0, 0xE20EC174#32, 0x00000009#32, .vseedscan .v0 (.own 3) 44 (.own 5) 6 .f32 9)] = true := by decide +kernel
theorem test_words_matrix : decodesTo [
    (.M, 0x00180000#32, 0, .mzero 6), (.M, 0x8218620A#32, 0x18720959#32, .mst 6 ⟨3, 4, 5, 6, 7, 8, 9⟩ 0x59),
    (.M, 0x8818620A#32, 0x18720959#32, .maddt 6 ⟨3, 4, 5, 6, 7, 8, 9⟩ 0x59),
    (.M, 0x841914AC#32, 0x200000A3#32, .mmaq 6 17 18 44 0xA3 (.mode .rtz)),
    (.M, 0x851914AC#32, 0x200000A3#32, .mmag 6 17 18 44 0xA3 (.mode .rtz)), (.M, 0x061AC000#32, 0, .mman 6 44),
    (.M, 0x871AC000#32, 0x40000000#32, .mscale 6 44 (.mode .rdn)),
    (.M, 0x89184000#32, 0x60080000#32, .mcvt 6 4 true (.mode .rup))] = true := by decide +kernel
theorem test_words_tiles : decodesTo [
    (.L, 0x818EC010#32, 0x00100001#32, .tldm 3 ⟨44, 16, 1⟩ .b64), (.L, 0x828EC010#32, 0x00000001#32, .mbld 3 ⟨44, 16, 1⟩),
    (.L, 0x8300620A#32, 0x18720900#32, .tacq ⟨3, 4, 5, 6, 7, 8, 9⟩),
    (.L, 0x8500620A#32, 0x18720903#32, .thint ⟨3, 4, 5, 6, 7, 8, 9⟩ 3), (.L, 0x0646C000#32, 0, .titin 17 44),
    (.L, 0x878C620A#32, 0x187209FA#32, .tcol 3 ⟨3, 4, 5, 6, 7, 8, 9⟩ 250), (.T, 0x018ECB40#32, 0, .tstm 3 44 45),
    (.T, 0x828EC010#32, 0x00000001#32, .mbst 3 ⟨44, 16, 1⟩), (.T, 0x838EC010#32, 0x00000001#32, .mbcast 3 ⟨44, 16, 1⟩),
    (.T, 0x8400620A#32, 0x18720901#32, .twopen ⟨3, 4, 5, 6, 7, 8, 9⟩ true),
    (.T, 0x8600620A#32, 0x18720900#32, .tdrop ⟨3, 4, 5, 6, 7, 8, 9⟩)] = true := by decide +kernel
theorem test_words_commands : decodesTo [
    (.X, 0x01B05000#32, 0, .xgather 44 5), (.X, 0x02B05000#32, 0, .xremote 44 5), (.X, 0x03B05000#32, 0, .xfill 44 5),
    (.X, 0x04B05000#32, 0, .xflushrd 44 5), (.X, 0x05005000#32, 0, .xcancel 5), (.X, 0x11B2D140#32, 0, .rcas4 44 45 5),
    (.X, 0x12B2DB85#32, 0, .renq 44 45 46 5), (.X, 0x13B00B85#32, 0, .rdeq 44 46 5), (.X, 0x14B2D140#32, 0, .rchase 44 45 5),
    (.Y, 0x010ECB40#32, 0, .spawnr 3 44 45), (.Y, 0x020EC000#32, 0, .fget 3 44), (.Y, 0x0302C001#32, 0, .fdup 44 true),
    (.Y, 0x0402C000#32, 0, .fdrop 44), (.Y, 0x05000000#32, 0, .fpin), (.Y, 0x0602C000#32, 0, .tend 44),
    (.Y, 0x07000000#32, 0, .yield), (.Y, 0x101AC000#32, 0, .evwait 6 44), (.Y, 0x1202C000#32, 0, .sev 44),
    (.Y, 0x13000000#32, 0, .wfe), (.Y, 0x14000006#32, 0, .bar 6), (.Y, 0x150EC001#32, 0, .svreg 3 44 true),
    (.Y, 0xA002CB47#32, 0x0008C000#32, .smst 44 45 7 true 6), (.Y, 0x220ECB40#32, 0, .smjoin 3 44 45),
    (.Y, 0x30000000#32, 0, .ckpt), (.Y, 0x31000029#32, 0, .trig 41)] = true := by decide +kernel
theorem test_words_empty_bundle : decodeTableWord 32 0xA5013005 = some (.nop true 3 5) := by decide +kernel
/-- What decoding a bundle finds: the bundle, or why it is malformed. -/
def found (ws : List (BitVec 32)) : Option Bundle × Option DecErr :=
  match decodeBundle ws with | .ok b => (some b, none) | .error e => (none, some e)
theorem test_decode_bundle : found [0xA5000010#32, 0x000C1080#32] = (some ⟨false, 0, 0, 2, [(.S, .add 3 1 2 0)]⟩, none)
    ∧ found [0xA5010000#32] = (some ⟨true, 0, 0, 1, []⟩, none) ∧ found [0xA5000010#32, 0x190C1080#32] = (none, some (.opcode .S))
    ∧ found [0x00000010#32, 0x000C1080#32] = (none, some .bundle) := by decide

/-! ## Small states -/

/-- Context 0 of the released part with a task, at a bundle of `add s3, s1, s2`. -/
def w0 : State := State.reset.withFetchWord 64 0x000C1080
/-- Registers of the issuing context set. -/
def setS (s : State) (l : List (Nat × Word)) : State :=
  upd s fun x => { x with s := l.foldl (fun v p => v.setIfInBounds p.1 p.2) x.s }
/-- The value, the bound and the flags of the last result in flight after an instruction. -/
def out (i : Instr) (s : State) : Option (Nat × Nat × Nat) :=
  match exec i s with
  | .next t => ((cc t).flights.getLast?).map fun f => (f.val.toNat, f.bound, f.flags.toNat)
  | _ => none
/-- The value alone. -/
def val (i : Instr) (s : State) : Option Nat := (out i s).map (·.1)
/-- The subcode of the trap that an instruction takes, and the slot it reports. -/
def trapOf (i : Instr) (s : State) : Option (Nat × Nat) :=
  match exec i s with
  | .next t => (cc t).trap.map fun w => (w.code, (cc t).tstat.toNat % 16)
  | _ => none
/-- The issuing context after an instruction. -/
def after (i : Instr) (s : State) : Ctx :=
  match exec i s with
  | .next t => cc t
  | _ => {}
/-- What an instruction gives. -/
def nextIs (i : Instr) (s t : State) : Bool := match exec i s with | .next u => decide (u = t) | _ => false
/-- The next state of an instruction meets a check. -/
def gives (i : Instr) (s : State) (p : State → Bool) : Bool := match exec i s with | .next t => p t | _ => false
/-- -1 as a word. -/
def neg1 : Word := 0xFFFFFFFFFFFFFFFF
/-- A loop that issues. -/
def looping (s : State) : State := upd s fun x => { x with loop := { x.loop with active := true, lb := 0, le := 4, lc := #v[3, 0, 0, 0] } }

/-! ## The S slot, by hand (R261 to R266) -/

def wA : State := setS w0 [(1, neg1), (2, 3)]
theorem test_scalar : val (.add 3 1 2 0) wA = some 2 ∧ val (.sub 3 2 1 0) wA = some 4 ∧ val (.and 3 1 2 0) wA = some 3
    ∧ val (.or 3 1 2 0) wA = some (2 ^ 64 - 1) ∧ val (.xor 3 1 2 0) wA = some (2 ^ 64 - 4) ∧ val (.shl 3 1 2 0) wA = some (2 ^ 64 - 8)
    ∧ val (.shr 3 1 2 0) wA = some (2 ^ 61 - 1) ∧ val (.sar 3 1 2 0) wA = some (2 ^ 64 - 1) ∧ val (.min 3 1 2 0) wA = some (2 ^ 64 - 1)
    ∧ val (.max 3 1 2 0) wA = some 3 ∧ val (.minn 3 1 2 0) wA = some 3 ∧ val (.maxn 3 1 2 0) wA = some (2 ^ 64 - 1) := by
  decide +kernel
theorem test_multiply : out (.mul 3 1 2 0) wA = some (2 ^ 64 - 3, 3, 0) ∧ out (.mulh 3 1 2 0) wA = some (2 ^ 64 - 1, 3, 0)
    ∧ out (.mulhn 3 1 2 0) wA = some (2, 3, 0) := by decide +kernel
theorem test_divide : out (.div 3 1 2 0) wA = some (0, 20, 0) ∧ val (.rem 3 1 2 0) wA = some (2 ^ 64 - 1)
    ∧ val (.divn 3 1 2 0) wA = some 6148914691236517205 ∧ val (.remn 3 1 2 0) wA = some 0
    ∧ val (.div 3 2 0 0) wA = some (2 ^ 64 - 1) ∧ val (.rem 3 2 0 0) wA = some 3
    ∧ val (.div 3 5 1 0) (setS wA [(5, 0x8000000000000000)]) = some (2 ^ 63)
    ∧ val (.rem 3 5 1 0) (setS wA [(5, 0x8000000000000000)]) = some 0 := by decide +kernel
theorem test_bits : val (.clz 3 2 0) wA = some 62 ∧ val (.clz 3 0 0) wA = some 64 ∧ val (.popc 3 1 0) wA = some 64
    ∧ val (.bext 3 1 2 0 4 7) wA = some 0xFF ∧ val (.bins 3 1 0 0 4 7) wA = some (2 ^ 64 - 1 - 0xFF0)
    ∧ val (.bext 3 2 4 0 1 63) (setS wA [(4, 64)]) = some 1 := by decide +kernel
theorem test_immediates : val (.addi 3 2 (BitVec.ofInt 44 (-4))) wA = some (2 ^ 64 - 1) ∧ val (.andi 3 1 (BitVec.ofInt 44 (-2))) wA = some (2 ^ 64 - 2)
    ∧ val (.ori 3 2 8) wA = some 11 ∧ val (.xori 3 2 1) wA = some 2 ∧ val (.shli 3 2 62) wA = some (2 ^ 63 + 2 ^ 62)
    ∧ val (.shri 3 1 63) wA = some 1 ∧ val (.sari 3 1 63) wA = some (2 ^ 64 - 1) ∧ val (.li 3 (BitVec.ofInt 50 (-5))) wA = some (2 ^ 64 - 5)
    ∧ val (.lih 2 0x12345678) wA = some 0x1234567800000003 := by decide +kernel
theorem test_compare : val (.cmp 2 1 2 0 .lt) wA = some 1 ∧ val (.cmp 2 1 2 0 .ltn) wA = some 0 ∧ val (.cmpi 2 2 3 .eq) wA = some 1
    ∧ val (.sel 3 1 2 0 0) wA = some (2 ^ 64 - 1) ∧ val (.sel 3 1 2 0 5) wA = some 3 := by decide +kernel
theorem test_special : val (.mfsr 3 .coreid) wA = some 0 ∧ trapOf (.mtsr .lb 1) (looping wA) = some (51, 8)
    ∧ (after (.mtsr .fctl 2) wA).late = [.spec .fctl 3] ∧ val (.xget 3 2 1) (upd wA fun x => { x with g := x.g.set 2 (7 <<< 64) }) = some 7 := by
  decide +kernel
theorem test_guard : nextIs (.add 3 1 2 4) wA wA = true ∧ trapOf (.add 56 1 2 4) (looping wA) = some (51, 8) := by decide +kernel

/-! ## Hypotheses of the statements about steps and registers, met -/

/-- Nothing traps a write of s3, and the guard p0 is true. -/
theorem met_ScalarArithmeticComputes : loopReg (cc wA) 3 = false ∧ rdP (cc wA) 0 = true := by decide +kernel
theorem met_DivisionRoundsTowardZero : loopReg (cc wA) 3 = false ∧ rdP (cc wA) 0 = true ∧ rdS (cc wA) 4 = 0 ∧ rdS (cc wA) 2 ≠ 0
    ∧ (let s := setS wA [(5, 0x8000000000000000)]; (rdS (cc s) 5).toInt = -2 ^ 63 ∧ (rdS (cc s) 1).toInt = -1) := by decide +kernel
theorem met_BitFieldsAndCounts : (rdS (cc wA) 2).toNat < 2 ^ (64 - 62) ∧ 2 ^ (63 - 62) ≤ (rdS (cc wA) 2).toNat
    ∧ (rdS (cc wA) 4).toNat < 2 ^ (64 - 64) ∧ 2 ^ (63 - 0) ≤ (rdS (cc wA) 1).toNat := by decide +kernel
theorem met_SelectAndCompare : loopReg (cc wA) 3 = false ∧ rdP (cc wA) 0 = true
    ∧ (decodeSyl .S ⟨false, 0x18, 0x201080, 0⟩ = none ∧ 8 ≤ (0x201080 : Nat) / 2 ^ 18) ∧ decodeSyl .S ⟨false, 0x18, 0x081086, 0⟩ = none
    ∧ decodeSyl .S ⟨false, 0x18, 0x1C1085, 0⟩ = some (.cmp 7 1 2 0 .gen) := by decide +kernel
theorem met_AFalseGuardDoesNothing : rdP (cc wA) 4 = false ∧ loopReg (cc wA) 3 = false := by decide +kernel
theorem met_AWriteToALoopIndexTraps : (cc (looping wA)).loop.active = true ∧ 56 ≤ (56 : SReg).toNat ∧ (59 : SReg).toNat ≤ 59
    ∧ allHere (cc (looping wA)) = true := by decide +kernel
theorem met_SpecialRegistersRead : loopReg (cc wA) 3 = false ∧ (cc wA).loop.active = false ∧ (cc (looping wA)).loop.active = true
    ∧ SpecReg.wdog ≠ .lb := by decide +kernel

/-- The state of an `add` about to issue. -/
theorem met_StepRunsTheDecodedInstruction : pick w0 = (some (.issue 0), w0)
    ∧ reaches (cc (turned w0 0)) [0xA5000010#32, 0x000C1080#32] ∧ found [0xA5000010#32, 0x000C1080#32] = (some ⟨false, 0, 0, 2, [(.S, .add 3 1 2 0)]⟩, none)
    ∧ unheld (cc (turned w0 0)) ⟨false, 0, 0, 2, [(.S, .add 3 1 2 0)]⟩
    ∧ leavesBundle (cc (turned w0 0)) (.add 3 1 2 0) = false ∧ waitsForBundle (.add 3 1 2 0) = false
    ∧ gives (.add 3 1 2 0) (begun w0 0) (fun _ => true) = true := by
  unfold reaches unheld; decide +kernel

/-- A load of a context in flight at its position, whose piece is with the fabric. -/
def waiting (x : Ctx) : Flight :=
  { dst := .s 9, pos := x.pos, bound := 8, parts := [{ off := 0, va := 0, pkg := 1, pa := 0, cp := 0, len := 8, eseq := some 5 }] }
/-- Words placed where context 0 fetches. -/
def placed (ws : List (BitVec 32)) : State := upd w0 fun x => { x with fetch := placeBlocks x.pc.toNat ws }
/-- A turn of context 0 reaches the words, which decode to the bundle. -/
def atBundle (s : State) (ws : List (BitVec 32)) (b : Bundle) : Prop :=
  pick s = (some (.issue 0), s) ∧ reaches (cc (begun s 0)) ws ∧ found ws = (some b, none) ∧ unheld (cc (begun s 0)) b

/-- A bundle with its drain bit set while a result of this position is in flight is held back. -/
theorem met_StepRunsTheDecodedInstruction_held :
    (let s := upd (placed [0xA5010010#32, 0x000C1080#32]) fun x => { x with flights := [{ dst := .s 9, pos := x.pos, bound := 3 }] }
     pick s = (some (.issue 0), s) ∧ reaches (cc (turned s 0)) [0xA5010010#32, 0x000C1080#32]
     ∧ found [0xA5010010#32, 0x000C1080#32] = (some ⟨true, 0, 0, 2, [(.S, .add 3 1 2 0)]⟩, none)
     ∧ ¬ unheld (cc (turned s 0)) ⟨true, 0, 0, 2, [(.S, .add 3 1 2 0)]⟩) := by
  unfold reaches unheld; decide +kernel
/-- An empty bundle, a `bar`, a `trap` and a taken `eret`, each about to issue. -/
theorem met_StepRunsTheOtherBundles : atBundle (placed [0xA5000000#32]) [0xA5000000#32] ⟨false, 0, 0, 1, []⟩
    ∧ atBundle (placed [0xA5000800#32, 0x14000001#32]) [0xA5000800#32, 0x14000001#32] ⟨false, 0, 0, 2, [(.Y, .bar 1)]⟩
    ∧ limitTrap (begun (placed [0xA5000800#32, 0x14000001#32]) 0) [(.Y, .bar 1)] = none
    ∧ atBundle (placed [0xA5000010#32, 0x50000012#32]) [0xA5000010#32, 0x50000012#32] ⟨false, 0, 0, 2, [(.S, .trap 0x12)]⟩
    ∧ limitTrap (begun (placed [0xA5000010#32, 0x50000012#32]) 0) [(.S, .trap 0x12)] = none
    ∧ allHere (cc (begun (placed [0xA5000010#32, 0x50000012#32]) 0)) = true
    ∧ atBundle (placed [0xA5000010#32, 0x52000000#32]) [0xA5000010#32, 0x52000000#32] ⟨false, 0, 0, 2, [(.S, .eret 0)]⟩
    ∧ (cc (turned (placed [0xA5000010#32, 0x52000000#32]) 0)).flights = [] ∧ (cc (begun (placed [0xA5000010#32, 0x52000000#32]) 0)).dly = 0
    ∧ (cc (begun (placed [0xA5000010#32, 0x52000000#32]) 0)).loop.active = false
    ∧ (let s := upd (placed [0xA5000010#32, 0x50000012#32]) fun x => { x with flights := [waiting x] }
       atBundle s [0xA5000010#32, 0x50000012#32] ⟨false, 0, 0, 2, [(.S, .trap 0x12)]⟩ ∧ allHere (cc (begun s 0)) = false
       ∧ limitTrap (begun s 0) [(.S, .trap 0x12)] = none) := by
  unfold atBundle reaches unheld
  refine ⟨?_, ?_, ?_, ?_, ?_, ?_, ?_, ?_, ?_, ?_, ?_, ?_⟩ <;> decide +kernel
/-- A reply that leaves its channel, an input from outside, evictions. -/
theorem met_StepTakesAnEvent :
    (let s : State := { State.reset with hbm := { State.reset.hbm with replies := [⟨1, 0, [], [], 0⟩] } }
     pick s = (some (.ev (.hbmReply 0)), s))
    ∧ (let s : State := { State.reset with pending := [⟨none, .refreshSlot 0 0 false⟩] }
       pick s = (some (.pend 0), s))
    ∧ (let s : State := { State.reset with l1d := [(3, { lines := [(5, { data := 0, gens := [0, 0, 0, 0, 0] })] })] }
       pick s = (some (.evictL1 3 5), s))
    ∧ (let s : State := { State.reset with clc := [(3, { lines := [(5, { data := 0, gens := [0, 0, 0, 0] })] })] }
       pick s = (some (.evictClc 3 5), s))
    ∧ (let s : State := { State.reset with ctx := [(0, { flights := [{ dst := .s 3, pos := 0, bound := 8, parts :=
          [{ off := 0, va := 0, pkg := 0, pa := 0x50000, cp := 0, len := 8 }] }] })] }
       pick s = (some (.sample 0 0 0), s))
    ∧ (let s : State := { State.reset with ctx := [(0, { flights := [{ dst := .s 3, pos := 0, bound := 8, acq := some 3, parts :=
          [{ off := 0, va := 0, pkg := 0, pa := 0x50000, cp := 0, len := 8, got := some ([], false) }] }] })] }
       pick s = (some (.acquired 0 0), s))
    ∧ (let s : State := { State.reset with ctx := [(0, { stq := [⟨0x50000, 0, [some 1], 0, 0⟩] })] }
       pick s = (some (.drain 0 0), s)) := by decide +kernel
theorem met_MalformedBundlesTrap :
    (let s := placed [0x00000010#32]; let ws := [0x00000010#32, 0xA5000000#32, 0xA5000000#32]
     pick s = (some (.issue 0), s) ∧ reaches (cc (turned s 0)) ws ∧ found ws = (none, some .bundle))
    ∧ (let ws := [0xA5000010#32, 0x190C1080#32]; let s := placed ws
       pick s = (some (.issue 0), s) ∧ reaches (cc (turned s 0)) ws ∧ found ws = (none, some (.opcode .S)) ∧ allHere (cc (turned s 0)) = true)
    ∧ (let ws := [0xA5000022#32, 0xA30C4154#32, 0x20042000#32]; let s := placed ws
       pick s = (some (.issue 0), s) ∧ reaches (cc (turned s 0)) ws ∧ found ws = (none, some (.ports .V0))
       ∧ allHere (cc (turned s 0)) = true)
    ∧ (let ws := [0xA5000010#32, 0x190C1080#32]; let s := upd (placed ws) fun x => { x with flights := [waiting x] }
       pick s = (some (.issue 0), s) ∧ reaches (cc (turned s 0)) ws ∧ found ws = (none, some (.opcode .S))
       ∧ allHere (cc (turned s 0)) = false) := by
  unfold reaches; refine ⟨?_, ?_, ?_, ?_⟩ <;> decide +kernel
theorem met_TakingATrapWritesItsRegisters : (ctxOf w0 0).task = some placedTask ∧ classOf 51 = 7 ∧ classOf 24 = 4 ∧ classOf 25 = 3 := by
  decide +kernel
theorem met_EveryStepKeepsMemoryCanonical : memOk w0 = true ∧ memOk State.reset = true ∧ memOk { w0 with hbm := { w0.hbm with mem := [(5, 7), (9, 1)] } } = true
    ∧ memOk { w0 with hbm := { w0.hbm with mem := [(5, 0)] } } = false := by decide +kernel
theorem met_HardWiredRegistersHold : ∀ r ∈ (cc (looping wA)).loop.rings, 1 ≤ r.base := by decide +kernel

/-- A result for s3, with and without poison, expired at position 5 and not. -/
def fly3 : Flight := { dst := .s 3, val := 9, flags := 2, pos := 4, bound := 1 }
def xF (p : Nat) (f : Flight) : Ctx := { (cc wA) with pos := p, flights := [f] }
theorem met_ResultsLandWhereAndWhenTheyShould : fly3.poison = none ∧ ({ fly3 with poison := some 8 } : Flight).poison.isSome = true
    ∧ (xF 5 fly3).flights = [fly3] ∧ fly3.pos + fly3.bound ≤ (xF 5 fly3).pos ∧ (xF 4 fly3).pos < fly3.pos + fly3.bound
    ∧ (cc wA).flights.all (fun g => g.dst != .s 3) = true := by decide +kernel
theorem test_landing : (landExpired (xF 5 fly3)).s.toList.getD 3 0 = 9 ∧ (landExpired (xF 5 fly3)).fflags = 2
    ∧ (landExpired (xF 4 fly3)).s.toList.getD 3 0 = 0 ∧ (landExpired (xF 5 { fly3 with poison := some 8 })).flights.length = 1 := by
  decide +kernel

/-! ## Control flow -/

/-- What is found of the address after the delay bundles. -/
def fallOf (x : Ctx) : Option Nat := match fallThrough x with | .ok n => some n | .error _ => none
/-- A body of two bundles, the first of them at pc, or five. -/
def bodyState (le : Word) : State := upd (looping wA) fun x => { x with loop := { x.loop with le := le } }
theorem met_ControlInstructionsTransferOrTrap : (cc wA).dly = 0 ∧ (cc wA).loop.active = false ∧ fallOf (cc wA) = some 20
    ∧ 3 ≤ positionsAfter (cc (bodyState 24)) 33 (cc (bodyState 24)).pc.toNat ∧ fallOf (cc (bodyState 24)) = some 20
    ∧ positionsAfter (cc (bodyState 16)) 33 (cc (bodyState 16)).pc.toNat = 3
    ∧ positionsAfter (cc (bodyState 12)) 33 (cc (bodyState 12)).pc.toNat = 2 ∧ 0 < (cc (upd wA fun x => { x with dly := 1 })).dly
    ∧ allHere (cc (bodyState 12)) = true ∧ allHere (cc (upd wA fun x => { x with dly := 1 })) = true := by
  decide +kernel
theorem test_control : nextIs (.br 0 false 100) wA (branched wA true false 400 20 0) = true
    ∧ nextIs (.brc 0 true 100 1 .neg) wA (branched wA false false 400 20 0) = true
    ∧ nextIs (.brc 0 false (BitVec.ofInt 20 (-1)) 1 .neg) wA (branched wA true false (BitVec.ofInt 64 (-4)) 20 0) = true
    ∧ nextIs (.call 0 false 100) wA (branched wA true true 400 20 1) = true
    ∧ nextIs (.callr 2 0) wA (branched wA true true 3 20 2) = true ∧ nextIs (.ret 63 0) wA (branched wA true false 0 20 3) = true
    ∧ nextIs (.jr 2 4) wA (branched wA false false 3 20 4) = true
    ∧ nextIs (.jr 2 0) (bodyState 12) (takeTrap (bodyState 12) 0 51 0 0 (some 0)) = true := by decide +kernel

/-- The last delay position of a taken transfer to 400. -/
def lastDelay : Ctx := { cc (looping wA) with dly := 1, ptaken := true, pend := 400 }
theorem met_DelayPositionsThenTheTransfer : lastDelay.late = [] ∧ (0 < (1 : Nat) ∧ lastDelay.ptaken = true) ∧ (cc wA).loop.active = false
    ∧ (cc (bodyState 8)).hdr ≠ (cc (bodyState 8)).loop.le := by decide +kernel
theorem test_delay : (posDone lastDelay 1).pc = 400 ∧ (posDone lastDelay 1).loop.active = false ∧ (posDone lastDelay 1).dly = 0
    ∧ (posDone lastDelay 2).dly = 1 ∧ (posDone (cc wA) 0).pos = (cc wA).pos + 1 := by decide +kernel

/-- A body from address 8 to address 16 after a `loop` at address 0; s5 holds the count 3, s6 holds 2. -/
def wL : State := setS (placed [0xA5000010#32, 0xB8140000#32, 0x00000004#32]) [(5, 3), (6, 2)]
theorem met_LoopsAndRingsStart : allHere (cc (looping wL)) = true ∧ allHere (cc wL) = true ∧ (cc (looping wL)).loop.active = true ∧ (cc wL).loop.active = false
    ∧ walkBody (aheadAt (cc wL)) 16 33 (afterBundle (cc wL)).toNat 0 = .ok ∧ walkBody (aheadAt (cc wL)) 14 33 (afterBundle (cc wL)).toNat 0 = .bad
    ∧ (rdS (cc wL) 7).setWidth 32 = (0 : BitVec 32) ∧ (rdS (cc wL) 5).setWidth 32 ≠ (0 : BitVec 32)
    ∧ (cc wL).loop.decl.length < 4 ∧ (40 : BitVec 6).toNat + 16 ≤ 56 ∧ ¬ (41 : BitVec 6).toNat + 16 ≤ 56 := by decide +kernel
/-- The context once the late writes of its bundle have taken effect. -/
def started (i : Instr) (s : State) : Ctx := let x := after i s; x.late.foldl applyLate x
theorem test_loop : (started (.loop 5 6 0 0 1 4) wL).loop.active = true ∧ (started (.loop 5 6 0 0 1 4) wL).loop.lb = 12
    ∧ (started (.loop 5 6 0 0 1 4) wL).loop.lc = #v[3, 2, 0, 0] ∧ (started (.loop 7 0 0 0 0 4) wL).loop.active = false
    ∧ (started (.loop 7 0 0 0 0 4) wL).loop.skip.isSome = true ∧ (after (.loop 5 6 0 0 1 4) wL).loop.active = false
    ∧ (after (.ring .s 40 15) wL).loop.decl = [⟨.s, 40, 16⟩] ∧ trapOf (.ring .s 41 15) wL = some (51, 8)
    ∧ trapOf (.ring .s 0 0) wL = some (51, 8) := by decide +kernel

/-- A nest at given indices and counts. -/
def nest (levels : Nat) (i0 i1 : Word) (c0 c1 : BitVec 32) : Ctx :=
  let x := cc (setS (looping wA) [(56, i0), (57, i1)])
  { x with loop := { x.loop with levels := levels, lc := #v[c0, c1, 0, 0], lb := 12 }, pc := 20 }
theorem met_LoopEndTestCountsItsLevels : (nest 1 1 0 3 0).loop.active = true ∧ (nest 1 1 0 3 0).loop.levels = 1
    ∧ ((nest 1 1 0 3 0).s.toList.getD 56 0).toNat + 1 < ((nest 1 1 0 3 0).loop.lc.toList.getD 0 0).toNat
    ∧ ((nest 1 2 0 3 0).loop.lc.toList.getD 0 0).toNat ≤ ((nest 1 2 0 3 0).s.toList.getD 56 0).toNat + 1
    ∧ (nest 2 2 0 3 2).loop.levels = 2 ∧ ((nest 2 1 0 3 2).s.toList.getD 56 0).toNat + 1 < ((nest 2 1 0 3 2).loop.lc.toList.getD 0 0).toNat
    ∧ ((nest 2 2 0 3 2).s.toList.getD 57 0).toNat + 1 < ((nest 2 2 0 3 2).loop.lc.toList.getD 1 0).toNat
    ∧ ((nest 2 2 1 3 2).loop.lc.toList.getD 1 0).toNat ≤ ((nest 2 2 1 3 2).s.toList.getD 57 0).toNat + 1 := by decide +kernel
theorem test_loop_end : (loopEndTest (nest 1 1 0 3 0)).pc = 12 ∧ (loopEndTest (nest 1 2 0 3 0)).loop.active = false
    ∧ (loopEndTest (nest 1 2 0 3 0)).pc = 20 ∧ (loopEndTest (nest 2 2 0 3 2)).s.toList.getD 57 0 = 1
    ∧ (loopEndTest (nest 2 2 0 3 2)).s.toList.getD 56 7 = 0 ∧ (loopEndTest (nest 2 2 1 3 2)).loop.active = false := by decide +kernel

theorem met_SystemInstructionsOfTheSSlot : (cc wA).loop.active = false ∧ (cc wA).dly = 0 ∧ (cc wA).late = [] ∧ (cc wA).loop.skip = none
    ∧ (cc wA).task = some placedTask ∧ bundleShape (cc wA) = (2, 0) ∧ allHere (cc wA) = true ∧ (cc wA).flights = [] ∧ rdP (cc wA) 0 = true ∧ rdP (cc wA) 4 = false
    ∧ (cc (upd wA fun x => { x with latch := true })).latch = true ∧ (cc wA).latch = false ∧ (cc wA).wfi = none
    ∧ (let x := cc (upd wA fun x => { x with wfi := some [1] }); x.wfi = some [1] ∧ [1] ≠ x.ev.toList) := by decide +kernel
theorem test_system : trapOf (.trap 0x12) wA = some (56, 8) ∧ (after (.trap 0x12) wA).tva = 0x12 ∧ (after (.trap 0x12) wA).tpc = 8
    ∧ (after (.brk 5) wA).tpc = 0 ∧ (after (.svc 7) wA).tcause = BitVec.ofNat 64 (57 + 8 * 2 ^ 16)
    ∧ (after (.eret 0) (upd wA fun x => { x with tpc := 64 })).pc = 64 ∧ (after (.wfi 0) wA).block = true
    ∧ (after (.nop false 3 0) wA).fold = 3 ∧ (after (.nop false 3 0) wA).pc = 4 := by decide +kernel

/-! ## Memory -/

/-- A leaf of the page at VA 0x10000, resident at 0x50000, readable, writable, touched, with a cache policy. -/
def leaf (cp : Nat) : Word := BitVec.ofNat 64 (0x50372 + cp * 0x400)
/-- Core 0 and the channels' units hold the leaf; the frame is live; the byte at 0x50000 + i is i. -/
def wM (cp : Nat) : State :=
  setS { w0 with
    mmu := { w0.mmu with tlb := [(0, [⟨0, 0x10000, 0, leaf cp⟩]), (1000, [⟨0, 0x10000, 0, leaf cp⟩])] }
    hbm := { w0.hbm with live := (List.range 16).map fun i => (0x50 + i, ()), mem := (List.range 24).map fun i => (0x50001 + i, BitVec.ofNat 8 (i + 1)) } }
    [(1, 0x10000), (2, 0xABCD), (3, 0x10003)]
/-- The same with the line in core 0's L1D: byte i is i. -/
def line0 (s : State) : Line := { data := (List.range 128).foldr (fun i d => (d <<< 8) ||| BitVec.ofNat 1024 i) 0, gens := gensL1 (l1Of s 0) }
def wC : State := { wM 0 with l1d := [(0, { lines := [(0xA00, line0 (wM 0))] })] }
/-- The same with the first sector poisoned. -/
def wP : State := { wM 0 with l1d := [(0, { lines := [(0xA00, { line0 (wM 0) with psn := 1 })] })] }
/-- A VA that no translation admits. -/
def badVa : Word := 0x0100000000000000

/-- The state after an instruction. -/
def flown (i : Instr) (s : State) : State := match exec i s with | .next t => t | _ => s
/-- The piece of a load in flight. -/
def piece0 (f : Flight) : LoadPart := f.parts.headD { off := 0, va := 0, pkg := 9, pa := 0, cp := 0, len := 0 }
/-- The first load in flight is due in a state. -/
def due0 (u : State) (f : Flight) : Prop := loadDue u 0 0 f (piece0 f)
/-- A load of context 0 performed: what it will land with, and its poison. -/
def loadOut (i : Instr) (s : State) : Option (Nat × Option Word) :=
  let t := flown i s
  let n := (((cc t).flights.getLast?).map fun f => f.parts.length).getD 0
  ((cc ((List.range n).foldl (fun u j => samplePart u 0 0 j) t)).flights.getLast?).map fun f => ((Flight_val f).toNat, f.poison)
theorem met_LoadsTakeTheBytesOfTheirLine : mapped wC 0x10008 .read 0x50008 0 ∧ loopReg (cc wC) 4 = false ∧ bsuOn wC = false
    ∧ rdS (cc wC) 1 + BitVec.ofInt 64 8 = 0x10008 ∧ tagsUsed wC 0 (chanOf 0x50008) < 64 ∧ (0x10018 : Nat) % 32 + 8 ≤ 32
    ∧ inL1 wC 0 0x50008 (line0 (wM 0))
    ∧ due0 (flown (.ld 4 ⟨1, 8, 0⟩ .d64) wC) (loadOf wC 4 .d64 0x10008 0x50008 0 none)
    ∧ inL1 (flown (.ld 4 ⟨1, 8, 0⟩ .d64) wC) 0 0x50008 (line0 (wM 0))
    ∧ (∀ i, i < 8 → (line0 (wM 0)).psn.getLsbD ((8 + i) / 32) = false)
    ∧ due0 (flown (.ld 4 ⟨1, 8, 0⟩ .d64) wP) (loadOf wP 4 .d64 0x10008 0x50008 0 none)
    ∧ inL1 (flown (.ld 4 ⟨1, 8, 0⟩ .d64) wP) 0 0x50008 { line0 (wM 0) with psn := 1 }
    ∧ translate wC (.core 0) 0 badVa .read = (.fault 2, wC) ∧ allHere (cc wC) = true := by
  unfold due0 loadDue inL1 mapped; decide +kernel
theorem test_load : loadOut (.ld 4 ⟨1, 8, 0⟩ .d64) wC = some (0x0F0E0D0C0B0A0908, none) ∧ loadOut (.ld 4 ⟨1, 0x7F, 0⟩ .i8) wC = some (0x7F, none)
    ∧ loadOut (.ld 4 ⟨1, 0x7C, 0⟩ .n32) wC = some (0x7F7E7D7C, none) ∧ trapOf (.ld 4 ⟨1, 8, 0⟩ .d64) (setS wC [(1, badVa)]) = some (2, 8)
    ∧ (loadOut (.ld 4 ⟨1, 8, 0⟩ .n16) wP).bind (·.2) = some 0x10008 := by decide +kernel

theorem met_StoresWriteTheirBytesAndNoOthers : mapped wC 0x10008 .write 0x50008 0 ∧ descHeld wC 0x10008 8 = false ∧ bsuOn wC = false
    ∧ settled (cc wC) ∧ inL1 wC 0 0x50008 (line0 (wM 0)) ∧ (0x50008 : Nat) % 32 + 8 ≤ 32
    ∧ mapped wC 0x1001C .write 0x5001C 0 ∧ descHeld wC 0x1001C 8 = false ∧ inL1 wC 0 0x5001C (line0 (wM 0)) ∧ ¬ (0x5001C : Nat) % 32 + 8 ≤ 32
    ∧ settled (cc (wM 2)) ∧ bsuOn (wM 2) = false
    ∧ mapped (wM 2) 0x10008 .write 0x50008 2 ∧ memOk (wM 2) = true ∧ plainHbm (wM 2) 0x50008 8 ∧ descHeld (wM 2) 0x10008 8 = false
    ∧ mapped (wM 2) 0x1001C .write 0x5001C 2 ∧ plainHbm (wM 2) 0x5001C 8 ∧ descHeld (wM 2) 0x1001C 8 = false
    ∧ translate wC (.core 0) 0 badVa .write = (.fault 2, wC) ∧ descHeld wC badVa.toNat 8 = false ∧ allHere (cc wC) = true := by
  unfold mapped plainHbm settled inL1; refine ⟨?_, ?_, ?_, ?_, ?_, ?_, ?_, ?_, ?_, ?_, ?_, ?_, ?_, ?_, ?_, ?_, ?_, ?_, ?_, ?_, ?_, ?_⟩ <;> decide +kernel
/-- Bytes of memory after an instruction. -/
def memAfter (i : Instr) (s : State) (a n : Nat) : Nat := match exec i s with | .next t => ofLe (Memory.bytes t.hbm.mem a n) | _ => 0
theorem test_store : memAfter (.st 2 ⟨1, 8, 0⟩ .n16) (wM 2) 0x50006 6 = 0x0B0AABCD0706
    ∧ gives (.st 2 ⟨1, 8, 0⟩ .n16) wC (fun t =>
        ((l1Of t 0).lines.map fun e => (e.2.data.toNat / 2 ^ 48 % 2 ^ 48, e.2.dirty.toNat)) = [(0x0B0AABCD0706, 0x300)])
    ∧ memAfter (.st 2 ⟨1, 31, 0⟩ .n16) (wM 2) 0x5001E 4 = 0
    ∧ gives (.st 2 ⟨1, 31, 0⟩ .n16) (wM 2) (fun t => ofLe (Memory.bytes (drainAll t 0).hbm.mem 0x5001E 4) = 0xABCD00) := by decide +kernel

theorem met_AcquiringLoadsAndReleasingStores : mapped wC 0x10008 .read 0x50008 0 ∧ mapped wC 0x10008 .write 0x50008 0 ∧ bsuOn wC = false
    ∧ loopReg (cc wC) 4 = false ∧ tagsUsed wC 0 (chanOf 0x50008) < 64 ∧ descHeld wC 0x10008 8 = false
    ∧ releases wC 4 ∧ releases wC 1 ∧ mapped wC 0x1001C .write 0x5001C 0 ∧ descHeld wC 0x1001C 8 = false ∧ 32 < (0x5001C : Nat) % 32 + 8
    ∧ due0 (flown (.lda 4 ⟨1, 8, 0⟩ .d64 .pkg) wC) (loadOf wC 4 .d64 0x10008 0x50008 0 (some 4))
    ∧ Sys2Proof.Machine.Scope.code .pkg ≤ 4 := by
  unfold due0 loadDue mapped releases settled noneOut
  refine ⟨?_, ?_, ?_, ?_, ?_, ?_, ?_, ?_, ?_, ?_, ?_, ?_, ?_⟩ <;> decide +kernel
/-- The acquire of context 0's first load performed. -/
def acquired (i : Instr) (s : State) : Ctx := cc (sampleAcq (flown i s) 0 0)
theorem test_acquire_release : ((acquired (.lda 4 ⟨1, 8, 0⟩ .d64 .pkg) wC).flights.map fun f => (f.acq, f.parts.map (·.got))) = [(none, [some ([8, 9, 10, 11, 12, 13, 14, 15], false)])]
    ∧ (acquired (.lda 4 ⟨1, 8, 0⟩ .d64 .pkg) wC).fetch = []
    ∧ memAfter (.stl 2 ⟨1, 8, 0⟩ .n16 .pkg) wC 0x50006 6 = 0x0B0AABCD0706 := by decide +kernel

theorem met_AtomicsReadAndWriteTheirWord : loopReg (cc (wM 0)) 4 = false ∧ rdP (cc (wM 0)) 0 = true ∧ (rdS (cc (wM 0)) 1).toNat % 8 = 0
    ∧ memOk (wM 0) = true ∧ plainHbm (wM 0) 0x50000 8 ∧ bsuOn (wM 0) = false ∧ SMap.get? (l1Of (wM 0) 0).lines 0xA00 = none
    ∧ SMap.get? (clcOf (wM 0) 0).lines 0xA00 = none ∧ mapped (wM 0) 0x10000 .atomic 0x50000 0
    ∧ settled (cc (wM 0)) ∧ sectorHeld (wM 0) 0x50000 0 = false := by unfold mapped plainHbm settled; decide +kernel
theorem test_atomics : val (.amo .add 4 1 2 0 .w32 .rlx .pkg) (wM 0) = some 0x03020100
    ∧ memAfter (.amo .add 4 1 2 0 .w32 .rlx .pkg) (wM 0) 0x50000 8 = 0x070605040302ACCD
    ∧ memAfter (.amo .min 4 1 2 0 .w64 .rlx .pkg) (setS (wM 0) [(2, neg1)]) 0x50000 8 = 2 ^ 64 - 1
    ∧ memAfter (.amocas 4 1 2 5 0 .w32 .rlx .pkg) (setS (wM 0) [(5, 0x03020100)]) 0x50000 8 = 0x070605040000ABCD
    ∧ memAfter (.amocas 4 1 2 5 0 .w32 .rlx .pkg) (wM 0) 0x50000 8 = 0x0706050403020100 := by decide +kernel
theorem met_MisalignedAtomicsTrap : loopReg (cc (wM 0)) 4 = false ∧ rdP (cc (wM 0)) 0 = true ∧ (rdS (cc (wM 0)) 3).toNat % 4 ≠ 0
    ∧ allHere (cc (wM 0)) = true := by decide +kernel
theorem test_misaligned : trapOf (.amo .add 4 3 2 0 .w32 .ar .sys) (wM 0) = some (32, 8) ∧ trapOf (.sc 4 3 2 0 .w32 .ar .sys) (wM 0) = some (32, 8) := by
  decide +kernel
/-- The state after `lr` of the word, with its result landed. -/
def wR : State := match exec (.lr 4 1 0 .w64 .rlx .pkg) (wM 0) with | .next t => upd t fun x => { x with flights := [] } | _ => wM 0
theorem met_ReservationsDecideTheConditionalStore : mapped wR 0x10000 .write 0x50000 0 ∧ mapped (wM 0) 0x10000 .read 0x50000 0
    ∧ (∃ r ∈ (chan wR (chanOf 0x50000)).resv, r.ctx = wR.cur ∧ r.sector = 0x50000 / 32 ∧ wR.clk < r.clk + 4096)
    ∧ (¬ ∃ r ∈ (chan (wM 0) (chanOf 0x50000)).resv, r.ctx = 0) ∧ memOk wR = true ∧ plainHbm wR 0x50000 8
    ∧ settled (cc wR) ∧ sectorHeld wR 0x50000 0 = false := by
  unfold mapped plainHbm settled; decide +kernel
theorem test_reservation : val (.lr 4 1 0 .w64 .rlx .pkg) (wM 0) = some 0x0706050403020100 ∧ val (.sc 4 1 2 0 .w32 .rlx .pkg) wR = some 0
    ∧ memAfter (.sc 4 1 2 0 .w32 .rlx .pkg) wR 0x50000 8 = 0x070605040000ABCD ∧ val (.sc 4 1 2 0 .w32 .rlx .pkg) (wM 0) = some 1
    ∧ memAfter (.sc 4 1 2 0 .w32 .rlx .pkg) (wM 0) 0x50000 8 = 0x0706050403020100
    ∧ val (.sc 4 1 2 0 .w32 .rlx .pkg) { wR with clk := wR.clk + 4096 } = some 1 := by decide +kernel

/-- Core 0 holds the line dirty, cluster 0 a copy of it. -/
def wD : State :=
  let s := wM 0
  { s with l1d := [(0, { lines := [(0xA00, { line0 s with dirty := BitVec.allOnes 128 })] })]
           clc := [(0, { lines := [(0xA00, { line0 s with data := 0, gens := gensClc (clcOf s 0) })] })] }
/-- The cluster alone holds the line. -/
def wE : State := { wD with l1d := [] }
theorem met_FencesReleaseAndAcquire : rdP (cc wD) 0 = true ∧ (cc wD).inval = 0 ∧ settled (cc wD) ∧ noneOut wD 0 ∧ copiesRun (released wD 6) 0 = false
    ∧ xremoteRuns (released wD 6) 0 = false ∧ (cc (released wD 6)).dests = [] ∧ (cc (released wD 6)).farOut = 0
    ∧ (cc (released wD 2)).farOut = 0 := by unfold settled noneOut; decide +kernel
theorem met_CacheAndTranslationControl : rdP (cc wD) 0 = true ∧ (rdS (cc wD) 4).toNat = 0 ∧ 0 < (rdS (cc (setS wD [(4, 64)])) 4).toNat
    ∧ peek (drainAll wD 0) (.core 0) 0 0x10000 none = (some (0, 0x50000, 0), drainAll wD 0) ∧ (cc wD).stq = [] ∧ allHere (cc wD) = true ∧ SMap.get? (l1Of wD 0).lines 0xA00 = some { line0 (wM 0) with dirty := BitVec.allOnes 128 }
    ∧ (l1Of wD 0).lines.length = 1 ∧ (clcOf wD 0).lines.length = 1 ∧ ((clcOf wD 0).lines.map fun e => e.2.gens) = [gensClc (clcOf wD 0)]
    ∧ peek wD (.core 0) 0 badVa.toNat (some .read) = (none, wD) ∧ SMap.get? (l1Of wE 0).lines 0xA00 = none ∧ peek wE (.core 0) 0 0x10008 (some .read) = (some (0, 0x50008, 0), wE)
    ∧ asidOf wD 0 = 0 ∧ (rdS (cc wD) 2).toNat ≠ asidOf wD 0 := by decide +kernel
theorem test_cache_control : gives (.cwb 1 4 0 .cl) (setS wD [(4, 64)]) (fun t =>
        ((l1Of t 0).lines.map fun e => e.2.dirty.toNat, (clcOf t 0).lines.map fun e => e.2.data.toNat % 2 ^ 24) = ([2 ^ 128 - 2 ^ 96], [0x020100]))
    ∧ gives (.pref ⟨1, 8, 0⟩ false) wE (fun t => (l1Of t 0).lines.map (fun e => e.2.data) = [0])
    ∧ gives (.fence .rel .cl 0) wD (fun t => (l1Of t 0).lines.map (fun e => e.2.dirty) = [0])
    ∧ trapOf (.tlbinv 1 2 0 false) wD = some (12, 8)
    ∧ gives (.tlbinv 1 4 0 false) wD (fun t => t.mmu.inval = [{ asid := 0, va := some 0x10000, by_ := some 0 }]) := by
  decide +kernel

/-! ## Vectors, by hand -/

/-- v1 and v2 of context 0. -/
def wV (a b : Nat) : State := upd w0 fun x => { x with v := (x.v.set 1 (BitVec.ofNat 2048 a)).set 2 (BitVec.ofNat 2048 b), k := x.k.set 1 1, s := x.s.set 4 0x1234 }
/-- The low n bits of the result of an instruction. -/
def low (n : Nat) (i : Instr) (s : State) : Option Nat := (val i s).map (· % 2 ^ n)
theorem test_vector_integers : low 16 (.vadd .v0 (.own 3) (.own 1) (.own 2) 0 .i8) (wV 0x7F80 0x0180) = some 0x8000
    ∧ low 16 (.vadds .v0 (.own 3) (.own 1) (.own 2) 0 .i8) (wV 0x7F80 0x0180) = some 0x7F80
    ∧ low 16 (.vadds .v0 (.own 3) (.own 1) (.own 2) 0 .n8) (wV 0x7F80 0x0180) = some 0x80FF
    ∧ low 16 (.vsubs .v0 (.own 3) (.own 1) (.own 2) 1 .n8) (wV 0x7F00 0x0180) = some 0
    ∧ low 32 (.vmulh .v0 (.own 3) (.own 1) (.own 2) 0 .i32) (wV 0xFFFFFFFF 2) = some 0xFFFFFFFF
    ∧ low 32 (.vsar .v0 (.own 3) (.own 1) (.own 2) 0 .i32) (wV 0x80000000 40) = some 0xFFFFFFFF
    ∧ low 32 (.vmul .v0 (.own 3) (.own 1) (.own 2) 0 .i32) (wV 0xFFFFFFFF 2) = some 0xFFFFFFFE
    ∧ low 32 (.vmls .v0 (.own 3) (.own 1) (.own 2) (.own 2) 0 .i32) (wV 3 2) = some 0xFFFFFFFC
    ∧ low 32 (.vaddw .v0 (.own 3) (.own 1) (.own 2) 0 .i8) (wV 0x807F 0x8001) = some 0xFF000080
    ∧ low 16 (.vnarrow .v0 (.own 3) (.own 1) 0 .i8 true) (wV 0xFF000080 0) = some 0x807F := by decide +kernel
theorem test_vector_floats : low 32 (.fadd .v0 (.own 3) (.own 1) (.own 2) 1 .f32 (.mode .rne)) (wV 0x3F800000 0x33800000) = some 0x3F800000
    ∧ out (.fadd .v0 (.own 3) (.own 1) (.own 2) 1 .f32 (.mode .rup)) (wV 0x3F800000 0x33800000) = some (0x3F800001, 4, 16)
    ∧ out (.fdiv .v0 (.own 3) (.own 1) (.own 2) 1 .f32 .dyn) (wV 0x3F800000 0) = some (0x7F800000, 12, 2)
    ∧ out (.fsqrt .v0 (.own 3) (.own 1) 1 .f64 .dyn) (wV 0x4022000000000000 0) = some (0x4008000000000000, 20, 0)
    ∧ out (.ffma .v0 (.own 3) (.own 1) (.own 1) (.own 2) 1 .f16 .dyn) (wV 0x4200 0xC800) = some (0x3C00, 4, 0)
    ∧ out (.fneg .v0 (.own 3) (.own 1) 1 .e4m3) (wV 0x7F 0) = some (0xFF, 4, 0)
    ∧ out (.fcvti .v0 (.own 3) (.own 1) 1 .i32 .f32 (.mode .rtz)) (wV 0xC0200000 0) = some (0xFFFFFFFE, 3, 16)
    ∧ out (.icvtf .v0 (.own 3) (.own 1) 1 .f32 .i32 .dyn) (wV 0xFFFFFFFD 0) = some (0xC0400000, 3, 0) := by decide +kernel
theorem test_vector_moves : low 32 (.vslide .v0 (.own 3) (.own 1) (.own 2) 0 .i16 1) (wV 0x11112222 0) = some 0x1111
    ∧ low 32 (.vperm .v0 (.own 3) (.own 1) (.own 2) 0 .i16) (wV 0x11112222 1) = some 0x22221111
    ∧ low 32 (.vbcast .v0 (.own 3) 4 0 .i16) (wV 0 0) = some 0x12341234 ∧ low 32 (.vlane .v0 (.own 1) 4 0 .i16 1) (wV 7 0) = some 0x12340007
    ∧ val (.vredadd .v0 (.own 3) (.own 1) 0 .i16) (wV 0xFFFF0003 0) = some 2 ∧ low 32 (.vscan .v0 (.own 3) (.own 1) 0 .i16) (wV 0xFFFF0003 0) = some 0x00020003
    ∧ val (.vcmp .v0 2 (.own 1) (.own 2) 1 .i16 .lt) (wV 0xFFFF 0) = some 1 ∧ val (.knot .v0 2 0) (wV 0 0) = some 0
    ∧ val (.vredmin .v0 (.own 3) (.own 1) 0 .n16) (wV 7 0) = some 0 := by decide +kernel
theorem met_VectorIntegersAndWidths : IFmt.i8.width ≤ 32 ∧ IFmt.n32.width ≤ 32 ∧ ¬ IFmt.i64.width ≤ 32 := by decide
theorem met_FloatLanesNanAndInvalid : (∃ z, FV.nan true = .nan z) ∧ (0 < 3 ∧ FFmt.f16 ≠ .e4m3) := ⟨⟨true, rfl⟩, by decide⟩
theorem met_ConversionsQuantisationAndMirage : (64 : BitVec 13).toNat ≤ 64 := by decide

/-! ## Engines -/

/-- A task whose demand is two accumulators. -/
def wTwo : State := upd wC fun x => { x with task := some { placedTask with demand := 2 } }
theorem met_EngineCommandsEnterTheirQueues : mOpen wC [5] [5] ∧ mOpen wC [4, 7] [4, 5] ∧ ¬ mOpen wTwo [5] [5]
    ∧ (∃ a ∈ [5], (taskOf wTwo 0).demand ≤ a ∧ allHere (cc wTwo) = true) ∧ xOpen wC := by unfold mOpen xOpen settled; refine ⟨?_, ?_, ?_, ?_, ?_⟩ <;> decide +kernel
theorem test_matrix_issue : gives (.mzero 5) wC (fun t => (engOf t 0).m.map (fun m => (m.id, m.op, m.accs)) = [(1, .mzero 5, [5])])
    ∧ gives (.mzero 5) wC (fun t => (accOf (cc t) 5).busy && !(accOf (cc t) 4).busy) ∧ trapOf (.mzero 5) wTwo = some (51, 11)
    ∧ gives (.mcvt 2 5 false .dyn) wC (fun t => (engOf t 0).m.map (fun m => m.accs) = [[5, 2, 3]])
    ∧ gives (.mscale 5 2 (.mode .rtz)) wC (fun t => (engOf t 0).m.map (fun m => (m.vals, m.rm)) = [([0xABCD], .rtz)]) := by decide +kernel
theorem test_remote_issue : gives (.rop .maxn .w32 1 2 0 3) wC (fun t => (engOf t 0).x.map (fun k => (k.kind, k.op, k.ev, k.x, k.rnone)) = [(4, .maxn, 3, 0xABCD, true)])
    ∧ gives (.rop .maxn .w32 1 2 0 3) wC (fun t => ((cc t).task.map (·.pinned)) = some true)
    ∧ gives (.rop .maxn .w32 1 2 0 3) wC (fun t => (cc t).track.map (fun f => (f.readB, f.writeB)) = [([(0x800, 0x800)], [(0x800, 0x800)])]) := by
  decide +kernel

/-! ## Tiles -/

/-- An f32 matrix of 8 rows and 16 columns of a class, one tile of tensor 5 at VA 0x10000. -/
def desc (cls : Nat) : BitVec 512 := BitVec.ofNat 512
  (0x10000 + 12 * 2 ^ 122 + 16 * 2 ^ 128 + 8 * 2 ^ 152 + 64 * 2 ^ 272 + 5 * 2 ^ 472 + 12 * 2 ^ 492 + 2 * 2 ^ 497 + cls * 2 ^ 507)
def bind5 (cls : Nat) : Binding := ⟨desc cls, 0x20000, 1⟩
def tile5 : Tile := ⟨0, 5, [0, 0, 0, 0, 0, 0]⟩
/-- A line of the tile: row 1 holds 2 and 3 in its first elements. -/
def tl (st : TSt) : TLine := { id := 1, tile := tile5, ver := 1, st := st, b := bind5 0, asid := 0, rows := [(1, 0x0000000300000002)], segs := 1, ctx := 0, tid := 1 }
/-- Context 0 of core 0 with the tensor bound to b3, the core's tile cache given; s4 = 1, s5 = 16. -/
def wT (cls : Nat) (l : List TLine) : State :=
  let s := setS (wM 0) [(4, 1), (5, 16)]
  let s := upd s fun x => { x with b := x.b.set 3 (some (bind5 cls)), g := x.g.set 2 (BitVec.ofNat 2048 0x77) }
  { s with tiles := { s.tiles with ctc := [(0, l)], next := 2 } }
def op5 : TileOp := ⟨3, 0, 0, 0, 0, 0, 0⟩
theorem met_OpenTilesAreReadAndWritten : tileAt (wT 0 [tl .open_]) op5 (bind5 0) tile5 ∧ openOf (wT 0 [tl .open_]) 0 tile5 = some (tl .open_)
    ∧ mWrites (wT 0 [tl .open_]) 0 tile5 = false ∧ mReads (wT 0 [tl .open_]) 0 1 = false ∧ dRB (desc 0) = 64 ∧ dTR (desc 0) = 8 ∧ dTC (desc 0) = 16
    ∧ fmtBits (dTfmt (desc 0)) = 32 ∧ openOf (wT 0 []) 0 tile5 = none ∧ tileAt (wT 0 []) op5 (bind5 0) tile5
    ∧ openOf (wT 0 [tl .openPoisoned]) 0 tile5 = some (tl .openPoisoned) ∧ tileAt (wT 0 [tl .openPoisoned]) op5 (bind5 0) tile5
    ∧ (cc (wM 0)).b.toList.getD 3 none = none ∧ dClass (bind5 2).desc = 2 ∧ coordsOk (desc 0) (tileCoords (cc (wT 0 [])) ⟨3, 4, 0, 0, 0, 0, 0⟩) = false
    ∧ ((tl .open_).rows.map Prod.fst).Pairwise (· < ·) ∧ mWrites (wT 0 [tl .openPoisoned]) 0 tile5 = false
    ∧ allHere (cc (wT 0 [tl .openPoisoned])) = true ∧ allHere (cc (wM 0)) = true ∧ allHere (cc (wT 2 [])) = true ∧ allHere (cc (wT 0 [])) = true := by
  unfold tileAt; decide +kernel
theorem test_tiles : low 96 (.tld 2 op5 1) (wT 0 [tl .open_]) = some 0x300000002 ∧ low 64 (.tcol 2 op5 0) (wT 0 [tl .open_]) = some 0x200000000
    ∧ gives (.tst 2 op5 7) (wT 0 [tl .open_]) (fun t => (ctcOf t 0).map (fun l => l.rows) = [[(1, 0x0000000300000002), (7, 0x77)]])
    ∧ trapOf (.tld 2 op5 1) (wT 0 [tl .openPoisoned]) = some (24, 12) ∧ trapOf (.tst 2 op5 1) (wM 0) = some (17, 13)
    ∧ trapOf (.tld 2 op5 1) (wT 2 []) = some (19, 12) ∧ trapOf (.tst 2 ⟨3, 4, 0, 0, 0, 0, 0⟩ 1) (wT 0 []) = some (20, 13) := by decide +kernel

/-- The line pinned by the context already. -/
def wPin (n : Nat) : State := upd (wT 0 [{ tl .valid with pins := n }]) fun x => { x with pins := [(1, n)] }
/-- A valid line, with 64 tiles pinned beside it. -/
def wFull : State := upd (wT 0 (tl .valid :: (List.range 64).map fun i => { tl .valid with id := 10 + i, tile := ⟨0, 6 + i, []⟩, pins := 1 })) fun x =>
  { x with pins := (List.range 64).map fun i => (10 + i, 1) }
theorem met_TilesArePinnedDroppedAndHinted : tileAt (wT 0 [tl .valid]) op5 (bind5 0) tile5 ∧ ctcLine (wT 0 [tl .valid]) 0 1 = some (tl .valid)
    ∧ pinnedOf (wT 0 [tl .valid]) 0 tile5 1 = none ∧ newestOf (ctcOf (wT 0 [tl .valid]) 0) tile5 1 = some (tl .valid)
    ∧ (pinUse (wT 0 [tl .valid]) 0).1 < 64 ∧ (pinUse (wT 0 [tl .valid]) 0).2 + dSegs (desc 0) ≤ 224
    ∧ tileAt (wPin 1) op5 (bind5 0) tile5 ∧ pinnedOf (wPin 1) 0 tile5 1 = some { tl .valid with pins := 1 }
    ∧ tileAt wFull op5 (bind5 0) tile5 ∧ pinnedOf wFull 0 tile5 1 = none ∧ newestOf (ctcOf wFull 0) tile5 1 = some (tl .valid) ∧ (pinUse wFull 0).1 = 64
    ∧ (tl .open_).home = (wT 0 [tl .open_]).pkg ∧ (cc (wT 0 [])).pins = [] ∧ openOf (wPin 1) 0 tile5 = none ∧ (cc (wPin 2)).pins = [(1, 2)]
    ∧ newestOf (ctcOf (wT 0 []) 0) tile5 1 = none
    ∧ allHere (cc wFull) = true ∧ openOf (wT 0 [tl .open_]) 0 tile5 = some (tl .open_) ∧ mWrites (wT 0 [tl .open_]) 0 tile5 = false
    ∧ tileAt (wPin 2) op5 (bind5 0) tile5 ∧ ctcLine (wPin 2) 0 1 = some { tl .valid with pins := 2 } ∧ openOf (wT 0 [tl .valid]) 0 tile5 = none := by
  unfold tileAt; decide +kernel
theorem test_pins : gives (.tacq op5) (wT 0 [tl .valid]) (fun t => (cc t).pins = [(1, 1)] && (ctcOf t 0).map TLine.pins = [1])
    ∧ gives (.tacq op5) (wPin 1) (fun t => (cc t).pins = [(1, 2)] && (ctcOf t 0).map TLine.pins = [2]) ∧ trapOf (.tacq op5) wFull = some (22, 12)
    ∧ gives (.tdrop op5) (wT 0 [tl .open_]) (fun t => ctcOf t 0 = [] && t.pending = [⟨none, .oasisDiscard tile5 0 0⟩])
    ∧ gives (.tdrop op5) (wPin 1) (fun t => (cc t).pins = [] && (ctcOf t 0).map TLine.pins = [0])
    ∧ gives (.thint op5 2) (wPin 1) (fun t => (ctcOf t 0).map TLine.goLast = [true]) := by decide +kernel

theorem met_TilesAreOpenedAndPosted : openFaults (desc 0) = false ∧ openOf (wT 0 []) 0 tile5 = none ∧ (openLines (wT 0 []) 0).length = 0
    ∧ (pinUse (wT 0 []) 0).2 + dSegs (desc 0) ≤ 224 ∧ tileAt wFull op5 (bind5 0) tile5 ∧ openOf wFull 0 tile5 = none ∧ ¬ (pinUse wFull 0).1 < 64
    ∧ dClass (desc 2) = 2 ∧ dClass (desc 3) = 3 ∧ coordsOk (desc 3) (tileCoords (cc (wT 3 [])) op5) = true
    ∧ dDomain (desc 0) = false ∧ tileVisible (released (wT 0 [tl .open_]) 4) 0 (desc 0) [0, 0, 0, 0, 0, 0] = false
    ∧ releases (wT 0 [tl .open_]) 4 ∧ tileAt (wT 0 [tl .open_]) op5 (bind5 0) tile5 ∧ openOf (wT 0 [tl .open_]) 0 tile5 = some (tl .open_)
    ∧ mWrites (wT 0 [tl .open_]) 0 tile5 = false ∧ tileAt (wT 0 []) op5 (bind5 0) tile5 ∧ tileAt (wT 0 [tl .openPoisoned]) op5 (bind5 0) tile5
    ∧ allHere (cc wFull) = true ∧ allHere (cc (wT 2 [])) = true ∧ allHere (cc (wT 3 [])) = true ∧ allHere (cc (wT 0 [tl .openPoisoned])) = true := by
  unfold tileAt releases settled noneOut
  refine ⟨?_, ?_, ?_, ?_, ?_, ?_, ?_, ?_, ?_, ?_, ?_, ?_, ?_, ?_, ?_, ?_, ?_, ?_, ?_, ?_, ?_, ?_⟩ <;> decide +kernel
theorem test_openings : gives (.twopen op5 true) (wT 0 []) (fun t => t.tiles.fills.map (fun f => (f.id, f.tile, f.open_)) = [(2, tile5, some true)])
    ∧ trapOf (.twopen op5 true) wFull = some (22, 13) ∧ trapOf (.twopen op5 true) (wT 2 []) = some (11, 13) ∧ trapOf (.twopen op5 true) (wT 3 []) = some (21, 13)
    ∧ gives (.tpost op5 true) (wT 0 [tl .open_]) (fun t => (ctcOf t 0).map (fun l => (l.st, l.wb)) = [(.posting, true)])
    ∧ trapOf (.tpost op5 false) (wT 0 [tl .openPoisoned]) = some (24, 13) := by decide +kernel

/-- Core 0 holds a line with a descriptor at VA 0x10000, which is in s1; the page at VA 0x20000, in s6, is core 0's mailbox. -/
def wB (d : BitVec 512) : State :=
  let s := setS (wT 0 []) [(6, 0x20000), (7, 0x20010)]
  { s with l1d := [(0, { lines := [(0xA00, { line0 s with data := d.setWidth 1024 })] })]
           mmu := { s.mmu with tlb := [(0, [⟨0, 0x10000, 0, leaf 0⟩, ⟨0, 0x20000, 0, 0xF00000000372⟩])] }
           mbox := [(0xF00000000005, 9)] }
/-- What a read of memory that finds no poison gives. -/
def loaded (va : Word) (n : Nat) (s : State) : Option (List Byte) := match loadClean va n s with | (.ok r, _) => some r | _ => none
/-- The bytes of a descriptor as it is read. -/
def loadedDesc (s : State) : Option (BitVec 512) := (loaded 0x10000 64 s).map fun b => BitVec.ofNat 512 (ofLe b)
/-- A store of memory goes through. -/
def stored (va : Word) (l : List (Option Byte)) (s : State) : Bool := match storeMem va l s with | (.ok (), _) => true | _ => false
/-- The one piece of a load of the mailbox at VA 0x20000. -/
def mbPart : LoadPart := { off := 0, va := 0x20000, pkg := 0, pa := 0xF00000000000, cp := 2, len := 256, due := 3 }
theorem met_BindingsVectorAccessesAndMailboxes : loadedDesc (wB (desc 0)) = some (desc 0) ∧ (loaded 0x10000 64 (wB (desc 0))).map List.length = some 64
    ∧ (desc 0).toNat / 2 ^ 56 % 2 ^ 8 = 0 ∧ dBad (desc 0) = none ∧ loadedDesc (wB 0) = some 0 ∧ dBad 0 = some 17 ∧ allHere (cc (wB 0)) = true
    ∧ dClass (bind5 0).desc ≠ 2 ∧ stored 0x10000 ((List.range 256).map fun i => if i < 8 then some 5 else none) (wB 0) = true
    ∧ mapped (wB 0) 0x10000 .read 0x50000 0
    ∧ tagsFull (wB 0) 0 (loadParts (wB 0) { off := 0, va := 0x10000, pkg := 0, pa := 0x50000, cp := 0, len := 256 }) = false
    ∧ mapped (wB 0) 0x20000 .read 0xF00000000000 2 ∧ mapped (wB 0) 0x20000 .write 0xF00000000000 2 ∧ mapped (wB 0) 0x20010 .read 0xF00000000010 2
    ∧ (0xF00000000010 : Nat) % 32 ≠ 0 ∧ (wB 0).mboxW = [] ∧ (16128 : Nat) % 32 = 0
    ∧ (let u := { flown (.mbld 2 ⟨6, 0, 0⟩) (wB 0) with clk := 3 }
       (cc u).flights = [{ dst := dstG (cc (wB 0)) 2, pos := (cc (wB 0)).pos, bound := 7, parts := [mbPart] }]
       ∧ turnOfPart u 0 0 mbPart = true ∧ isMbox mbPart.pa = true ∧ (∀ w ∈ u.mboxW, mbPart.due < w.land ∧ u.clk < w.land)) := by
  unfold mapped
  refine ⟨?_, ?_, ?_, ?_, ?_, ?_, ?_, ?_, ?_, ?_, ?_, ?_, ?_, ?_, ?_, ?_, ?_, ?_⟩ <;> decide +kernel
theorem test_bindings : gives (.tbind 9 1 4) (wB (desc 0)) (fun t => (cc t).late = [.bind 9 ⟨desc 0, 0x10000, 1⟩]) ∧ trapOf (.tbind 9 1 4) (wB 0) = some (17, 12)
    ∧ (loadOut (.tldm 2 ⟨1, 8, 0⟩ .b32) (wB 0x1234567800000000000000000000000000000000)).map (·.1) = some (0x12345678 * 2 ^ 64)
    ∧ (loadOut (.tldm 2 ⟨1, 16, 0⟩ .b32) (wB 0x1234567800000000000000000000000000000000)).map (·.1) = some 0x12345678
    ∧ gives (.titin 3 1) (wB 0) (fun t => ((cc t).itin.map (fun i => (i.2.1, i.2.2))) = some (0x10000, 65536)) := by decide +kernel
/-- What a load of the mailbox lands with, sampled at clock 3. -/
def sampled (i : Instr) (s : State) : Option Nat :=
  ((cc (samplePart { flown i s with clk := 3 } 0 0 0)).flights.getLast?).map fun f => (Flight_val f).toNat
theorem test_mailboxes : (sampled (.mbld 2 ⟨6, 0, 0⟩) (wB 0)).map (· % 2 ^ 64) = some 0x090000000000 ∧ trapOf (.mbld 2 ⟨7, 0, 0⟩) (wB 0) = some (4, 12)
    ∧ gives (.mbst 2 ⟨6, 32, 0⟩) (wB 0) (fun t => t.mboxW.map (fun w => (w.land, w.pa, w.cast, w.data.headD none)) = [(7, 0xF00000000020, false, some 0x77)])
    ∧ gives (.mbcast 2 ⟨0, 32, 0⟩) (wB 0) (fun t => t.mboxW.map (fun w => (w.pa, w.cast)) = [(32, true)]) ∧ trapOf (.mbcast 2 ⟨7, 0, 0⟩) (wB 0) = some (4, 13) := by
  decide +kernel


/-! ## Tasks, futures, events -/

/-- Bytes of a number at an address, for a memory to be listed. -/
def cells (a n v : Nat) : Memory := ((leBytes v n).zipIdx.map fun p => (a + p.2, p.1)).filter fun c => c.2 != 0
/-- The page tables of ASID 0 for VA 0x10000, walked once by die 0; a child's descriptor at that VA, of entry 0x40, argument 7,
two accumulators, priority 5, revocable. -/
def wS (d : Nat) : State :=
  let s := wM 0
  setS { s with
    dev := [(0xF00001300000, 3 * 2 ^ 13), (0xF00001300018, 0xFF), (0xF00001520000, 0x80000)]
    mmu := { s.mmu with walk := [(0, [⟨0, 3, 0, 0x84000⟩, ⟨0, 2, 0, 0x86000⟩, ⟨0, 1, 0, 0x88000⟩])] }
    hbm := { s.hbm with mem := cells 0x50000 64 d ++ cells 0x80000 8 0x82001 ++ cells 0x88008 8 (leaf 0).toNat
                        live := s.hbm.live ++ (List.range 9).map fun i => (0x80 + i, ()) } } [(4, 3)]
def child : Nat := 0x40 + 7 * 2 ^ 64 + 2 * 2 ^ 320 + 5 * 2 ^ 328 + 2 ^ 336
/-- Its demand is nine accumulators. -/
def badChild : Nat := child + 7 * 2 ^ 320
/-- The task that the descriptor gives. -/
def childT : Task := { entry := 0x40, arg := 7, demand := 2, prio := 5, mask := 0xFF }
def fut1 (st : FState) (left : Nat) : Future := { st := st, left := left, count := 1, pcount := 1, creator := 1, queue := 0 }
/-- The handle of a new future, and whether its table takes it. -/
def handleOf (s : State) (f : Future) : Option (BitVec 32) := (allocFut s 0 false f).map (·.1)
theorem met_SpawnsMakeTasksAndFutures : (let s0 := released (wS child) 4; let r := readTask s0 0 0 0x10000
      r.1 = .ok childT ∧ handleOf r.2 (fut1 .running 1) = some 1 ∧ handleOf r.2 (fut1 .running 3) = some 1 ∧ handleOf r.2 (fut1 .ready 0) = some 1
      ∧ r.2.car.range.length < 4096 ∧ allHere (cc r.2) = true) ∧ releases (wS child) 4 ∧ releases (wS badChild) 4 ∧ allHere (cc (looping (wS child))) = true
    ∧ allHere (cc (readTask (released (wS badChild) 4) 0 0 0x10000).2) = true ∧ loopReg (cc (wS child)) 9 = false ∧ (rdS (cc (wS child)) 4).toNat % 2 ^ 32 = 3
    ∧ (readTask (released (wS badChild) 4) 0 0 0x10000).1 = .bad ∧ (readTask (released (wS child) 4) 0 0 badVa).1 = .fault 2 badVa.toNat
    ∧ loopReg (cc (looping (wS child))) 56 = true ∧ freeCtx (wS child) 1 = some 4 ∧ takeAcc (wS child) 1 2 = some [0, 1] ∧ childT.root = none := by
  unfold releases settled noneOut
  refine ⟨?_, ?_, ?_, ?_, ?_, ?_, ?_, ?_, ?_, ?_, ?_, ?_, ?_⟩ <;> decide +kernel
theorem test_spawn : gives (.spawn 9 1) (wS child) (fun t => (cc t).flights.map (fun f => (f.val.toNat, f.bound)) = [(1, 8)]
        && (ctxOf t 4).pc = 0x40 && rdS (ctxOf t 4) 1 = 7 && (ctxOf t 4).task.map (fun k => (k.prio, k.tid)) = some (3, 1))
    ∧ gives (.spawnr 9 1 4) (wS child) (fun t => t.car.range.map (fun r => (r.1, r.2.n)) = [(1, 3)]) ∧ trapOf (.spawn 9 1) (wS badChild) = some (42, 15) := by
  decide +kernel

/-- Handle 0x30005, in s1, names the future; s2 holds a stale one. -/
def wF (f : Future) : State := { setS w0 [(1, 0x30005), (2, 0x40005)] with car := { w0.car with fut := [(5, { f with gen := 3 })] } }
def fReady : Future := { st := .ready, count := 1, pcount := 1, creator := 1, result := 99 }
/-- The issuing task's own future. -/
def wOwn : State := upd (wF fReady) fun x => { x with task := some { placedTask with own := 0x30005 } }
theorem met_FuturesAreReadAndCounted : getFut (wF fReady) 0x30005 = some { fReady with gen := 3 } ∧ 0 < fReady.count ∧ getFut (wF fReady) 0x40005 = none
    ∧ getFut (wF { fReady with count := 0 }) 0x30005 = some { fReady with count := 0, gen := 3 } ∧ loopReg (cc (wF fReady)) 4 = false
    ∧ (0x30005 : BitVec 32) = (taskOf wOwn 0).own ∧ (0x30005 : BitVec 32) ≠ (taskOf (wF fReady) 0).own ∧ fReady.st = .ready
    ∧ ({ fReady with st := .running } : Future).st ≠ .ready ∧ (65535 : Nat) ≤ ({ fReady with count := 65535 } : Future).count
    ∧ ({ fReady with held := true } : Future).held = true ∧ fReady.held = false
    ∧ allHere (cc (wF fReady)) = true ∧ allHere (cc wOwn) = true ∧ allHere (cc (wF { fReady with count := 65535 })) = true := by decide +kernel
theorem test_futures : out (.fget 4 1) (wF fReady) = some (99, 8, 0) ∧ trapOf (.fget 4 1) wOwn = some (43, 15) ∧ trapOf (.fget 4 2) (wF fReady) = some (40, 15)
    ∧ (after (.fget 4 1) (wF { fReady with st := .running })).block = true
    ∧ gives (.fdup 1 true) (wF fReady) (fun t => t.car.fut.map (fun f => (f.2.count, f.2.pcount)) = [(2, 1)])
    ∧ gives (.fdup 1 false) (wF fReady) (fun t => t.car.fut.map (fun f => (f.2.count, f.2.pcount)) = [(2, 2)])
    ∧ trapOf (.fdup 1 true) (wF { fReady with count := 65535 }) = some (41, 15) ∧ gives (.fdrop 1) (wF fReady) (fun t => t.car.fut.map (fun f => (f.2.st, f.2.gen)) = [(.free, 4)])
    ∧ trapOf (.fdrop 1) (wF { fReady with held := true }) = some (41, 15) := by decide +kernel

/-- A task with a save area, and another of its priority that waits in the cluster's list. -/
def wY : State := { upd w0 fun x => { x with task := some { placedTask with save := 0x40 } } with
  car := { w0.car with ready := [{ task := { placedTask with tid := 2 }, list := .cl 0, since := 0 }] } }
/-- The task of context 0 has been told to end. -/
def wEnd : State := upd w0 fun x => { x with ending := some 7 }
/-- The end of the issuing task performed meets a check. -/
def ends (w : Word) (s : State) (p : State → Bool) : Bool := match run 7 (endM w) s with | .next t => p t | _ => false
/-- Context 0 with a command of the matrix engine in its queue. -/
def wBusy : State := flown (.mzero 5) wC
theorem met_TaskEndsEventsAndBarriers : pick wEnd = (some (.issue 0), wEnd) ∧ (cc (turned wEnd 0)).trap = none ∧ overdue (cc (turned wEnd 0)) = false
    ∧ (cc (turned wEnd 0)).flights = [] ∧ (cc (turned wEnd 0)).ending = some 7 ∧ ends 7 (turned wEnd 0) (fun _ => true) = true
    ∧ allHere (cc w0) = true ∧ (cc w0).stq = [] ∧ noneOut w0 0 ∧ commandsLeft (drainAll (sampleAll w0 0) 0) 0 = false
    ∧ allHere (cc wBusy) = true ∧ (cc wBusy).stq = [] ∧ noneOut wBusy 0 ∧ commandsLeft (drainAll (sampleAll wBusy 0) 0) 0 = true
    ∧ releases (upd (drainAll (sampleAll w0 0) 0) landAll) 4 ∧ (taskOf w0 0).root = none ∧ (taskOf w0 0).handler = none
    ∧ getFut (wF { fReady with st := .running, left := 1 }) 0x30005 = some { fReady with st := .running, left := 1, gen := 3 }
    ∧ yieldTo (upd w0 fun x => { x with readyAt := some 0, yielded := true }) 0 = false
    ∧ yieldTo (upd wY fun x => { x with readyAt := some 0, yielded := true }) 0 = true
    ∧ wY.car.saving.any (fun z => z.ctx = 0) = false ∧ (cc wY).ending = none := by
  unfold releases settled noneOut
  refine ⟨?_, ?_, ?_, ?_, ?_, ?_, ?_, ?_, ?_, ?_, ?_, ?_, ?_, ?_, ?_, ?_, ?_, ?_, ?_, ?_, ?_, ?_⟩ <;> decide +kernel
/-- A barrier of cluster 0: arrivals, count. -/
def wBar (arrived count : Nat) : State := { setS w0 [(1, 768), (2, 0x80000000)] with car := { w0.car with bar := [(1, { arrived := arrived, count := count })] } }
theorem met_EventsLatchesAndBarriers : (cc w0).bar = none ∧ (barOf (wBar 0 0) 0 1).count = 0 ∧ (barOf (wBar 1 2) 0 1).count ≤ (barOf (wBar 1 2) 0 1).arrived + 1
    ∧ (barOf (wBar 0 2) 0 1).arrived + 1 < (barOf (wBar 0 2) 0 1).count ∧ (cc (upd (wBar 0 2) fun x => { x with bar := some (1, 0) })).bar = some (1, 0)
    ∧ (barOf (wBar 0 2) 0 1).gen.toNat = 0 ∧ (0 - (2147483648 : BitVec 32)).toNat = 2 ^ 31 ∧ (rdS (cc (wBar 0 2)) 1).toNat % 1024 = 768
    ∧ releases (wBar 0 0) 2 ∧ releases (wBar 1 2) 2 ∧ releases (wBar 0 2) 2 := by
  unfold releases settled noneOut; decide +kernel
theorem test_task_ends : gives (.tend 1) (wF fReady) (fun t => (cc t).ending = some 0x30005) ∧ ends 5 wEnd (fun t => (cc t).task.isNone)
    ∧ ends 5 wBusy (fun t => (cc t).block && (cc t).task.isSome) ∧ gives .yield wY (fun t => t.car.saving.map (·.ctx) = [0])
    ∧ gives .fpin w0 (fun t => (cc t).task.map (·.pinned) = some true) ∧ (after (.evwait 1 2) (wBar 0 0)).block = true
    ∧ (after (.evwait 1 3) (wBar 0 0)).block = false ∧ (after (.evinc 1 63) (wBar 0 0)).ev.toList.getD 1 0 = 63
    ∧ gives (.sev 3) (wBar 0 0) (fun t => t.pending = [⟨none, .latchSet 0⟩]) ∧ gives (.sev 1) (wBar 0 0) (fun t => t.pending = [])
    ∧ (after .wfe w0).block = true ∧ gives (.bar 1) (wBar 0 2) (fun t => (cc t).block && (barOf t 0 1).arrived = 1)
    ∧ gives (.bar 1) (wBar 1 2) (fun t => !(cc t).block && (barOf t 0 1).gen = 1) := by decide +kernel

/-- The answer of a group's switch has come back to the context. -/
def wJ : State := upd (setS wC [(5, 0x1000000040)]) fun x => { x with remote := [{ pkg := 0x40, addr := 0x10000, len := 0, kind := 16, reply := some ([3], false, false) }] }
/-- Queue 0 is in a checkpoint interval, whose end the context has requested. -/
def wQ : State := upd (setQ w0 0 fun q => { q with st := 1, interval := some 0 }) fun x => { x with out := true }
theorem met_SyncVariablesAndSequencedCommands : loopReg (cc wC) 4 = false ∧ mapped wC 0x10008 .read 0x50008 0 ∧ (SMap.getD wC.svt 0 []).length < 4096
    ∧ (let s : State := { wC with svt := [(0, [{ sector := 0x50008 / 32 }])] }; (SMap.getD s.svt 0 []).any (fun e => e.sector = 0x50008 / 32) = true)
    ∧ (let s : State := { wC with svt := [(0, List.replicate 4096 { sector := 0 })] }; 4096 ≤ (SMap.getD s.svt 0 []).length
        ∧ (SMap.getD s.svt 0 []).any (fun e => e.sector = 0x50008 / 32) = false)
    ∧ (qst wC (taskOf wC 0).queue).interval = none ∧ (0x50008 : Nat) < 0x00C000000000 ∧ (loaded 0x10000 16 wC).isSome = true
    ∧ ((cc wJ).remote.find? fun z => z.kind = 16 && z.pkg = (rdS (cc wJ) 5).toNat % 2 ^ 12 && z.addr = (rdS (cc wJ) 1).toNat).bind (·.reply) = some ([3], false, false)
    ∧ (qst wQ (taskOf wQ 0).queue).interval = some 0 ∧ (cc wQ).out = true ∧ (qst wQ (taskOf wQ 0).queue).ckptReq = false := by unfold mapped; decide +kernel
theorem test_sync : out (.svreg 4 1 false) wC = some (0, 8, 0) ∧ gives (.svreg 4 1 false) wC (fun t => t.svt.map (fun e => (e.1, e.2.map (·.sector))) = [(0, [0x2800])])
    ∧ val (.svreg 4 1 true) wC = some 4 ∧ val (.smjoin 4 5 1) wJ = some 3
    ∧ gives (.smst 5 1 2 false 3) wJ (fun t => t.pending.map (·.ev) = [.switchSequence { grp := 16, pkg := 0, ctx := 0, cmd := 1, kind := .dir 0x40, data := (List.range 16).map fun i => BitVec.ofNat 8 i }])
    ∧ nextIs .ckpt wC wC = true ∧ nextIs .ckpt wQ wQ = true := by decide +kernel

/-! ## Steps of the part -/

/-- A step of the part performed on a state meets a check. -/
def doesIs (e : Ev) (s : State) (p : State → Bool) : Bool := match exec e.row (given s e) with | .next t => p t | _ => false
/-- The walk of an agent finds a leaf. -/
def walked (s : State) (va : Nat) : WalkR := (walk s 0 0 va).1
def inval0 : Inval := { asid := 0, va := some 0x10008, by_ := some 0 }
def wI : State := { upd (wS child) (fun x => { x with inval := 1 }) with mmu := { (wS child).mmu with inval := [inval0] } }
/-- A migration of the frame 5, in a phase, towards a slot of die 0's compressed store or not. -/
def wMig (ph : Nat) (cz : Bool) (pte : Nat) : State :=
  let s := wS child
  { s with clk := 2 ^ 20
           dev := s.dev ++ [(0xF00001521028, 0x100000)]
           mmu := { s.mmu with migs := [{ die := 0, asid := 0, va := 0x10000, pte := 0x88008, old := leaf 0, compress := cz, target := 0, phase := ph }] }
           hbm := { s.hbm with mem := cells 0x50000 64 child ++ cells 0x80000 8 0x82001 ++ cells 0x88008 8 pte } }
def kind7 : Nat := 0x50377
theorem met_ExecutionAndPagingSteps : (let s := upd w0 fun x => { x with flights := [fly3] }; (ctxOf s 0).flights[0]? = some fly3 ∧ fly3.poison = none ∧ Flight_here fly3 = true)
    ∧ SMap.get? { w0 with running := [] }.running 0 = none ∧ SMap.get? { w0 with running := [(0, 3)] }.running 0 = some 3
    ∧ isParked (given (wS child) (.tlbMissWalk (.core 5) 0 0x10008 .write)) (.core 5) 0 0x10008 = false ∧ (0x10008 : Word).toNat < 2 ^ 56
    ∧ accessesOut wI 0 = false ∧ accessesOut (upd wI fun x => { x with stq := [⟨0x50000, 0, [some 1], 0, 0⟩] }) 0 = true
    ∧ accessesOut (wMig 2 false 0) 0 = false ∧ accessesOut (upd (wMig 2 false 0) fun x => { x with stq := [⟨0x50000, 0, [some 1], 0, 0⟩] }) 0 = true
    ∧ logQ (wMig 3 true kind7) 0 = none ∧ logQ (wMig 2 false kind7) 0 = none ∧ pteNow (wMig 2 false kind7) 0x88008 = BitVec.ofNat 64 kind7
    ∧ walked (given (wS child) (.tlbMissWalk (.core 5) 0 0x10008 .write)) 0x10008 = .leaf (leaf 0) 0 0x88008 ∧ checkLeaf (wS child) (leaf 0) 0 = none
    ∧ pteKind (leaf 0) = 2 ∧ checkPerm (leaf 0) .write = none ∧ pteA (leaf 0) = true ∧ pteD (leaf 0) = true ∧ wI.mmu.inval[0]? = some inval0
    ∧ wI.mmu.inval.any Inval.mminvc = false ∧ (0x4000000000000000 : Word).getLsbD 62 = true ∧ (0x6000000000000000 : Word).getLsbD 61 = true
    ∧ ({ w0 with clk := 2 ^ 30 } : State).mmu.sweepAt ≤ 2 ^ 30 ∧ w0.clk < w0.mmu.sweepAt
    ∧ (migOf (wMig 1 false 0) 0x88008).map (·.phase) = some 1 ∧ (migOf (wMig 2 false kind7) 0x88008).map (fun m => (m.phase, m.compress)) = some (2, false)
    ∧ (migOf (wMig 3 true 0) 0x88008).map (fun m => (m.phase, m.compress)) = some (3, true)
    ∧ pteNow (wMig 3 true kind7) 0x88008 = BitVec.ofNat 64 kind7 ∧ pteNow (wMig 3 true 0) 0x88008 ≠ BitVec.ofNat 64 kind7
    ∧ (leaf 0 &&& ~~~0x7#64) ||| 7 = BitVec.ofNat 64 kind7 ∧ (devGet (wMig 3 true 0) (dieReg 0 0x28)).toNat / 2 ^ 15 % 2 ^ 33 * 32768 < 2 ^ 48
    ∧ 0 + 2 ^ 20 ≤ (wMig 2 false 0).clk ∧ ({ wMig 2 false 0 with clk := 5 } : State).clk < 0 + 2 ^ 20 := by
  and_intros <;> decide +kernel
theorem test_paging : doesIs (.resultLands 0 0) (upd w0 fun x => { x with flights := [fly3] }) (fun t => rdS (cc t) 3 = 9 && (cc t).flights = [])
    ∧ doesIs (.contextSwitch 3) w0 (fun t => t.running = [(0, 3)])
    ∧ doesIs (.tlbMissWalk (.core 5) 0 0x10008 .write) (wS child) (fun t => SMap.get? t.mmu.tlb 5 = some [⟨0, 0x10000, 0, leaf 0⟩])
    ∧ doesIs (.pageInvalidationComplete 0) wI (fun t => t.mmu.inval = [] && t.mmu.tlb.all (fun e => e.2 = []) && (cc t).inval = 0)
    ∧ doesIs (.mminvcPage 0x4000000000000003 .mgmt) w0 (fun t => t.mmu.inval = [{ asid := 3, va := some 0, mminvc := true }])
    ∧ doesIs (.mminvcAll 0x6000000000000003 .task) w0 (fun t => t.mmu.inval = [])
    ∧ doesIs (.migrationShootDownDone 0x88008) (wMig 1 false 0) (fun t => t.mmu.migs.map (fun m => (m.phase, m.since)) = [(2, 2 ^ 20)] && t.mmu.tlb.all (fun e => e.2 = []))
    ∧ doesIs (.migrationDrainDone 0x88008) (wMig 2 false 0) (fun t => t.mmu.migs.map (·.phase) = [3])
    ∧ doesIs (.migrationAbandon 0x88008) (wMig 2 false kind7) (fun t => t.mmu.migs = [] && pteNow t 0x88008 = leaf 0) := by decide +kernel

/-- Context 0 at VA 0x10000, which its core may fetch through a page with cp = 2; at VA 0x20000 there is a page it may not. -/
def wFe (pc : Nat) : State := { upd (wM 2) (fun x => { x with pc := BitVec.ofNat 64 pc, fetch := [] }) with
  mmu := { w0.mmu with tlb := [(0, [⟨0, 0x10000, 0, leaf 2⟩, ⟨0, 0x20000, 0, 0x60332⟩])] } }
theorem met_InstructionFetchReadsABlock : (let s := wFe 0x10004; let g := given s (.instructionFetch 0)
      (ctxOf s 0).pc.toNat % 4 = 0 ∧ fetchNeed (ctxOf s 0) = .fetch 0x10004 false ∧ translate g (.core 0) 0 0x10004 .fetch = (.ok 0 0x50004 2, g) ∧ bsuOn s = false
      ∧ (coreRead g 0 0x50000 2 64).2.1 = false ∧ (coreRead g 0 0x50000 2 64).1.length = 64)
    ∧ (let s := wFe 0x20000; let g := given s (.instructionFetch 0)
      fetchNeed (ctxOf s 0) = .fetch 0x20000 false ∧ translate g (.core 0) 0 0x20000 .fetch = (.fault 10, g)
      ∧ allHere (ctxOf s 0) = true) := by decide +kernel
theorem test_fetch : doesIs (.instructionFetch 0) (wFe 0x10004) (fun t => (cc t).fetch.map (fun b => (b.1, b.2.take 2)) = [(0x400, [0x03020100#32, 0x07060504#32])])
    ∧ doesIs (.instructionFetch 0) (wFe 0x20000) (fun t => (cc t).trap = some ⟨10⟩ && (cc t).tva = 0x20000) := by decide +kernel

/-- A fill of the tile for core 0, with its line, and the entry of the tile at its home. -/
def fill7 (st : FillSt) (op : Option Bool) : Fill :=
  { id := 7, core := 0, ctx := 0, tid := 1, queue := 0, tile := tile5, b := bind5 0, asid := 0, u := 1, hint := 0, open_ := op, line := 1, st := st }
def oe (loc : OLoc) (owner : Option (Nat × Nat)) : OEntry := { tile := tile5, latest := 1, loc := loc, owner := owner, readers := 2 }
def wFl (st : FillSt) (op : Option Bool) (l : List TLine) (o : OEntry) : State :=
  let s := wT 0 l
  { s with clk := 5000, tiles := { s.tiles with fills := [fill7 st op], oasis := [(homeChan tile5, { sets := [(homeSet tile5, [o])] })], next := 8 } }
def msg8 : Packet := { ty := 8, dst := 0, src := 1, tile := some { tile := tile5, ver := 1, ctx := 0, fid := 7, kind := 0, pkg := 1, rows := [(0, 5)] } }
/-- The post of a stream-through line whose write-back is done. -/
def tlPost : TLine := { tl .posting with stream := true, done := true }
theorem met_FillStepsDeliverTheirTile :
    (let s := wFl .alloc none [] (oe .hbm none); fillOf s 7 = some (fill7 .alloc none) ∧ faulted s (.fill 7) = false
      ∧ (allocLine (given s (.fillAllocationResume 7)) (fill7 .alloc none)).isSome = true)
    ∧ (let s := wFl (.data 1 [(0, 5)] false) none [tl .filling] (oe .hbm none); fillOf s 7 = some (fill7 (.data 1 [(0, 5)] false) none)
      ∧ faulted s (.fill 7) = false ∧ ctcLine s 0 1 = some (tl .filling) ∧ (fill7 (.data 1 [(0, 5)] false) none).id = 7)
    ∧ (let s := wFl (.data 1 [] false) (some true) [tl .filling] (oe .hbm none); (fill7 (.data 1 [] false) (some true)).open_.isSome = true ∧ liveIn s 0 1 = true)
    ∧ (msg8.tile.map fun m => (m.tile, m.fid, m.kind, m.parts)) = some (tile5, 7, 0, 1) ∧ msg8.ty = 8 ∧ fillOf (wFl .remote none [tl .filling] (oe .hbm none)) 7 = some (fill7 .remote none)
    ∧ 3976 + 1024 ≤ (wFl (.refused 3976) none [] (oe .hbm none)).clk ∧ (wFl (.refused 3976) none [] (oe .hbm none)).clk < 3977 + 1024 := by decide +kernel
theorem test_fills : doesIs (.fillAllocationResume 7) (wFl .alloc none [] (oe .hbm none)) (fun t => (ctcOf t 0).map (fun l => (l.id, l.st)) = [(8, .filling)] && t.tiles.fills.map (fun f => (f.line, f.st)) = [(8, .request)])
    ∧ doesIs (.fillDataArrives 7) (wFl (.data 1 [(0, 5)] false) none [tl .filling] (oe .hbm none)) (fun t => (ctcOf t 0).map (fun l => (l.st, l.rows, l.ver)) = [(.valid, [(0, 5)], 1)] && t.tiles.fills = [])
    ∧ doesIs (.ownershipGrant 7) (wFl (.data 65535 [] true) (some true) [tl .filling] (oe .hbm none)) (fun t => (ctcOf t 0).map (fun l => (l.st, l.ver)) = [(.openPoisoned, 1)])
    ∧ doesIs (.fillDataProvisional 7 msg8) (wFl .remote none [tl .filling] (oe .hbm none)) (fun t => (ctcOf t 0).map (fun l => l.st) = [.provisional])
    ∧ doesIs (.fillResend 7) (wFl (.refused 3976) none [tl .filling] (oe .hbm none)) (fun t => t.tiles.fills.map (·.st) = [.request])
    ∧ doesIs (.fillResend 7) (wFl (.refused 3977) none [tl .filling] (oe .hbm none)) (fun t => t.tiles.fills.map (·.st) = [.refused 3977]) := by decide +kernel
theorem met_HomesGrantReadsAndOpenings : (let s := wFl .request none [tl .filling] (oe .hbm none)
      entriesOf s tile5 = [oe .hbm none] ∧ (chan s (homeChan tile5)).failed = false ∧ fillOf s 7 = some (fill7 .request none) ∧ faulted s (.fill 7) = false
      ∧ dDomain (fill7 .request none).b.desc = false ∧ verSat 1 1 = true ∧ verSat 1 2 = false ∧ (oe .hbm none).readers < 63 ∧ replayUse s (homeChan tile5) < 4096
      ∧ (dirOf s (homeChan tile5)).ovf = [] ∧ (oe .hbm none).hold = [] ∧ (oe .hbm none).wbq = [] ∧ (oe .hbm none).replay = [])
    ∧ (let s := wFl .request none [tl .filling] { oe .hbm none with latest := 0 }; entriesOf s tile5 = [{ oe .hbm none with latest := 0 }] ∧ verSat 0 1 = false)
    ∧ (let s := wFl .request none [tlPost] (oe .hbm (some (0, 0))); ctcLine s 0 1 = some tlPost ∧ tlPost.home = s.pkg ∧ faulted s (.wb 0 1) = false
      ∧ (oe .hbm (some (0, 0))).owner = some (s.pkg, tlPost.ctx) ∧ (oe .hbm (some (0, 0))).owner ≠ some (s.pkg, 3)
      ∧ (postCopy (given s (.oasisPost 0 1 none)) 0 tlPost).isSome = true) := by decide +kernel
theorem test_homes : doesIs (.oasisReadRequest 7 none) (wFl .request none [tl .filling] (oe .hbm none)) (fun t => entriesOf t tile5 = [{ oe .hbm none with readers := 3 }] && t.tiles.fills.map (·.st) = [.hbm 1])
    ∧ doesIs (.oasisReadRequest 7 none) (wFl .request none [tl .filling] (oe (.clc 3) none)) (fun t => t.tiles.fills.map (·.st) = [.fwd 3 1])
    ∧ doesIs (.oasisReadRequest 7 none) (wFl .request none [tl .filling] { oe .hbm none with latest := 0 }) (fun t =>
        (entriesOf t tile5).map (fun o => o.replay.map (·.fid)) = [[7]] && t.tiles.fills.map (·.st) = [.home])
    ∧ doesIs (.oasisReadRequest 7 none) (wFl .request none [tl .filling] (oe (.clc 3) none)) (fun t => t.tiles.homeQ.map (fun m => (m.cl, m.fid, m.ack)) = [(3, 7, false)])
    ∧ doesIs (.oasisOpenRequest 7 none) (wFl .request (some true) [tl .filling] (oe .hbm none)) (fun t => (entriesOf t tile5).map (·.owner) = [some (0, 0)] && t.tiles.fills.map (·.st) = [.data 1 [] false])
    ∧ doesIs (.oasisHbmReadDone tile5) (wFl .request none [] (oe .hbm none)) (fun t => (entriesOf t tile5).map (·.readers) = [1])
    ∧ doesIs (.oasisDiscard tile5 0 0) (wFl .request none [] (oe .hbm (some (0, 0)))) (fun t => (entriesOf t tile5).map (·.owner) = [none])
    ∧ doesIs (.oasisPost 0 1 none) (wFl .request none [tlPost] (oe .hbm (some (0, 0)))) (fun t => (entriesOf t tile5).map (fun o => (o.latest, o.owner)) = [(2, none)] && (ctcOf t 0).map (fun l => (l.st, l.ver)) = [(.valid, 2)]) := by
  decide +kernel

/-- A line of version 1 in the CLC of cluster 0, and a victim buffer of cluster 0 with it. -/
def vic (acked : Bool) : Victim := { id := 3, line := { tl .valid with dirty := true, rows := [] }, acked := acked }
def wVic (acked : Bool) (latest readers : Nat) : State :=
  let s := wFl (.fwd 0 1) none [] { oe (.clc 0) none with latest := latest, readers := readers }
  { s with tiles := { s.tiles with clc := [(0, [tl .valid])], victims := [(0, [vic acked])], homeQ := ⟨homeChan tile5, 0, 7, none, false⟩ :: if acked then [⟨homeChan tile5, 0, 3, none, true⟩] else [] } }
/-- The acknowledgement alone has not arrived. -/
def wAck : State := { wVic true 2 0 with tiles := { (wVic true 2 0).tiles with homeQ := [⟨homeChan tile5, 0, 3, none, true⟩] } }
/-- The next entry of an itinerary, 16 bytes at VA 0x10000 whose last bit is `last`. -/
def wIt (last : Bool) : State :=
  let s := upd (wT 0 []) fun x => { x with itin := some (bind5 0, 0x10000, 2) }
  { s with hbm := { s.hbm with mem := cells 0x50000 16 (if last then 2 ^ 127 else 1) } }
def itinRead (s : State) : Option (List Byte) :=
  match clcReadClean ⟨.fill 0, 0, 0, (taskOf s 0).asid, (taskOf s 0).queue, 5000⟩ 0x10000 16 1 (given s (.itineraryPrefetch 0)) with | (.ok b, _) => some b | _ => none
theorem met_TilesTravelBackAndAway : (let s := wVic false 1 0; fillOf s 7 = some (fill7 (.fwd 0 1) none) ∧ heldAt s 0 tile5 1 = some (tl .valid)
      ∧ victimOf s 0 3 = some (vic false) ∧ faulted s (.wb 0 1) = false ∧ (vic false).line.home = s.pkg ∧ oReaders s tile5 = 0
      ∧ ((homeReady s).any fun m => m.fid = 7 && m.pkt.isNone && !m.ack) = true ∧ (entryOf s tile5).map (·.latest) = some 1
      ∧ (writeBack (given s (.oasisWriteback 0 3 none)) 0 (vic false).line false).1 = .ok () ∧ s.tiles.purge = none ∧ (∀ d ∈ s.tiles.oasis, d.2.ovf = []))
    ∧ (entryOf (wVic false 2 0) tile5).map (·.latest) = some 2 ∧ ((homeReady (wVic true 2 0)).any fun m => m.ack) = false
    ∧ ((homeReady wAck).any fun m => m.ack && m.cl = 0 && m.fid = 3) = true ∧ victimOf wAck 0 3 = some (vic true) ∧ (vic true).line.home = wAck.pkg
    ∧ (itinRead (wIt false)).map (fun b => (ofLe b).testBit 127) = some false ∧ (itinRead (wIt true)).map (fun b => (ofLe b).testBit 127) = some true
    ∧ purgeDone (wVic true 2 0) 0 5 = false ∧ purgeDone (wT 0 [tl .valid]) 0 5 = true := by decide +kernel
theorem test_travel : doesIs (.forwardArrives 7 none) (wVic false 1 0) (fun t => t.tiles.fills.map (·.st) = [.data 1 [(1, 0x0000000300000002)] false])
    ∧ doesIs (.oasisWriteback 0 3 none) (wVic false 1 0) (fun t => (entriesOf t tile5).map (·.loc) = [.hbm] && (victimOf t 0 3).map (·.acked) = some true)
    ∧ doesIs (.oasisWriteback 0 3 none) (wVic false 2 0) (fun t => (entriesOf t tile5).map (·.loc) = [.clc 0] && (victimOf t 0 3).map (·.acked) = some true)
    ∧ doesIs (.oasisWriteback 0 3 none) (wVic false 1 2) (fun t => (victimOf t 0 3).map (·.acked) = some false)
    ∧ doesIs (.victimBufferAck 0 3) wAck (fun t => (victimOf t 0 3).isNone && t.tiles.homeQ = [])
    ∧ doesIs (.itineraryPrefetch 0) (wIt false) (fun t => (cc t).itin = some (bind5 0, 0x10010, 1)) ∧ doesIs (.itineraryPrefetch 0) (wIt true) (fun t => (cc t).itin = none)
    ∧ doesIs (.opurge 0x0010000500000000 .mgmt) w0 (fun t => t.tiles.purge = some (0, 5))
    ∧ doesIs .opurgeComplete { wT 0 [tl .valid] with tiles := { (wT 0 [tl .valid]).tiles with purge := some (0, 5) } } (fun t => t.tiles.purge = none && ctcOf t 0 = []) := by
  decide +kernel

/-! ## The memory side -/

/-- Channel 3 with a group of rows, of which rows 0 and 3 were activated at clock 5. -/
def wRow (clk : Nat) : State := { setChan (wM 0) 3 fun c => { c with rows := [(0, ⟨5, 9, 0, 0⟩)] } with clk := clk }
/-- Source 5 awaits 64 replies of the channel of 0x50000. -/
def wBusyTags : State := { wM 0 with hbm := { (wM 0).hbm with replies := List.replicate 64 ⟨5, 0, [], [], chanOf 0x50000⟩ } }
theorem met_ChannelPacketsReadAndWrite : plainHbm (wM 0) 0x50000 32 ∧ plainHbm (wM 0) 0x50000 128 ∧ memOk (wM 0) = true
    ∧ (0x20000000 + 0x50 * 2 ^ 12 : Nat) / 2 ^ 12 % 2 ^ 36 * 4096 < 0x00C000000000 ∧ SMap.get? (chan (wRow 0) 3).rows 0 = some ⟨5, 9, 0, 0⟩
    ∧ noTag (wM 0) 5 (chanOf 0x50000) = false ∧ noTag wBusyTags 5 (chanOf 0x50000) = true ∧ (11 < 12 ∧ 2 < 3) ∧ Writer.host ≠ .mgmt := by
  unfold plainHbm; decide +kernel
theorem test_packets : doesIs (.hbmReadPacket 5 6 0x50000 32 []) (wM 0) (fun t => t.hbm.replies.map (fun r => (r.src, r.tag, ofLe (r.data.take 3), r.psn)) = [(5, 6, 0x20100, [false])])
    ∧ doesIs (.hbmReadPacket 5 6 0x50000 32 [.uncorrectable]) (wM 0) (fun t => t.hbm.poison = [(0x2800, ())] && t.hbm.replies.map (·.psn) = [[true]])
    ∧ doesIs (.patrolScrub 0x2800 .corrected) (wM 0) (fun t => (chan t (chanOf 0x50000)).hecor = 1)
    ∧ doesIs (.hbmWritePacket 5 6 0x50002 [some 7, none, some 9]) (wM 0) (fun t => ofLe (Memory.bytes t.hbm.mem 0x50001 5) = 0x0509030701)
    ∧ doesIs (.hbmControlPacket (.dead (BitVec.ofNat 64 (2 ^ 61 + 0x50000))) .mgmt) (wM 0) (fun t => Memory.bytes t.hbm.mem 0x50000 4 = [0, 0, 0, 0] && isLive t 0x50000)
    ∧ doesIs (.hbmControlPacket (.dead (BitVec.ofNat 64 (2 ^ 61 + 0x50000))) .host) (wM 0) (fun t => Memory.bytes t.hbm.mem 0x50000 4 = [0, 1, 2, 3])
    ∧ doesIs (.hbmControlPacket (.power 11 2) .mgmt) (wM 0) (fun t => (SMap.getD t.sys.unit_ 35 {}).st = 2)
    ∧ doesIs (.hbmReadPacket 5 6 0x50000 32 []) wBusyTags (fun t => t.hbm.replies.length = 64)
    ∧ doesIs (.refreshSlot 3 0 false) (wRow 7) (fun t => (chan t 3).rows.map (fun r => (r.1, r.2.mask, r.2.slot)) = [(0, 0, 7)]) := by decide +kernel

def wCh (f : Chan → Chan) : State := setChan (wM 0) 3 f
/-- A command in progress over two blocks at 0x50000. -/
def wDead : State := { wM 0 with hbm := { (wM 0).hbm with dead := some ⟨0x50, 2, false⟩ } }
theorem met_DeadBlocksRetrainsAndExpiry : (wM 0).hbm.dead = none ∧ (0x4000000000050001 : Word).getLsbD 62 = true ∧ memOk wDead = true ∧ (0x50 + 2) * 4096 ≤ 0x00C000000000
    ∧ (chan (wM 0) 3).failed = false ∧ (chan (wCh fun c => { c with replays := 7 }) 3).replays < 8 ∧ 8 ≤ (chan (wCh fun c => { c with replays := 8 }) 3).replays ∧ (chan (wCh fun c => { c with retraining := true }) 3).retrains < 2
    ∧ 2 ≤ (chan (wCh fun c => { c with retraining := true, retrains := 2 }) 3).retrains := by decide +kernel
theorem test_dead_blocks : doesIs (.hdeadcmdKill 0x4000000000050001 .mgmt) (wM 0) (fun t => t.hbm.dead = some ⟨0x50, 16, false⟩)
    ∧ doesIs (.hdeadcmdRevive 0x6000000000050000 .mgmt) (wM 0) (fun t => t.hbm.dead = some ⟨0x50, 1048576, true⟩)
    ∧ doesIs .hdeadcmdDone wDead (fun t => t.hbm.dead = none && Memory.bytes t.hbm.mem 0x50000 4 = [0, 0, 0, 0] && !isLive t 0x50000)
    ∧ doesIs (.interfaceCrcFail 3) (wCh fun c => { c with replays := 8 }) (fun t => (chan t 3).retraining && (chan t 3).herex = 1 && (chan t 3).herpl = 0)
    ∧ doesIs (.interfaceCrcFail 3) (wCh fun c => { c with replays := 7 }) (fun t => !(chan t 3).retraining && (chan t 3).replays = 8 && (chan t 3).herpl = 1)
    ∧ doesIs (.interfaceRetrainEnd 3 true) (wCh fun c => { c with retraining := true, retrains := 2 }) (fun t => (chan t 3).retrains = 0)
    ∧ doesIs (.interfaceRetrainEnd 3 false) (wCh fun c => { c with retraining := true, retrains := 2 }) (fun t => (chan t 3).failed)
    ∧ doesIs (.reservationExpiry 3 0) { wCh fun c => { c with resv := [⟨0, 1, 4⟩, ⟨0, 2, 5⟩] } with clk := 4100 } (fun t => (chan t 3).resv = [⟨0, 2, 5⟩]) := by decide +kernel

/-- Metering on, a pool of 1000 tokens, class 2 with share 64; a request of a unit of class 2 waits at core 0. -/
def wBsu (left tok : Nat) : State :=
  { w0 with dev := [(0xF00000C10000, BitVec.ofNat 64 (2 ^ 63 + 1000)), (0xF00000C10110, 64)]
            bsu := { w0.bsu with queue := [(0, [⟨0, 1, 2, left⟩])], bucket := w0.bsu.bucket.set 2 tok, refillAt := some 100 } }
theorem met_SharesAreRefilledAndSpent : (wBsu 1 3).bsu.refillAt = some 100 ∧ (wBsu 1 3).clk < 100 ∧ 100 ≤ ({ wBsu 1 3 with clk := 100 } : State).clk
    ∧ (∀ k : Fin 16, bsuActive (wBsu 1 3) k = true ↔ k = 2) ∧ 0 < bsuShare (wBsu 1 3) 2 ∧ bsuOn (wBsu 1 3) = true
    ∧ SMap.getD (wBsu 1 3).bsu.queue 0 [] = [⟨0, 1, 2, 1⟩] ∧ 0 < (wBsu 1 3).bsu.bucket[2] ∧ (wBsu 1 0).bsu.bucket[2] = 0
    ∧ bsuOn w0 = false ∧ bsuOn ({ wBsu 1 3 with clk := 100 } : State) = true ∧ (1 : Nat) < prefKey ∧ (0x8000000000000400 : Word).getLsbD 63 = true
    ∧ State.reset.bsu.refillAt = none := by decide +kernel
theorem test_shares : doesIs .bsuRefill { wBsu 1 3 with clk := 100 } (fun t => t.bsu.bucket[2] = 1000 && t.bsu.bucket[1] = 0 && t.bsu.refillAt = some 1124)
    ∧ doesIs .bsuRefill (wBsu 1 3) (fun t => t.bsu.bucket[2] = 3) ∧ doesIs (.portUnitSend 0) (wBsu 1 3) (fun t => t.bsu.bucket[2] = 2 && t.bsu.grants = [(0, 1)])
    ∧ doesIs (.portUnitSend 0) (wBsu 1 0) (fun t => t.bsu.grants = []) ∧ doesIs (.bsuctlDisable 0x0000000000000400 .host) (wBsu 1 3) (fun t => !bsuOn t && t.bsu.queue = [])
    ∧ doesIs (.bsuctlEnable 0x8000000000000400 .mgmt) w0 (fun t => t.bsu.refillAt = some 1024) := by decide +kernel

/-! ## Remote operations -/

theorem met_RemoteUnitsPerformTheirOperation : memOk wR = true ∧ plainHbm wR 0x50000 8 ∧ uncachedAt wR (coreOf 0) 0x50000
    ∧ (∃ r, r ∈ (chan wR (chanOf 0x50000)).resv ∧ r.ctx = 0 ∧ r.sector = 0x50000 / 32 ∧ wR.clk < r.clk + 4096)
    ∧ ¬ (∃ r, r ∈ (chan (wM 0) (chanOf 0x50000)).resv ∧ r.ctx = 0) ∧ uncachedAt (wM 0) (coreOf 0) 0x50000
    ∧ noTag wR (coreOf 0) (chanOf 0x50000) = false ∧ memOk (wM 0) = true ∧ plainHbm (wM 0) 0x50000 8 := by unfold uncachedAt plainHbm; decide +kernel
theorem test_units : doesIs (.rouSingleWordOp (.ctx 0 0) .max .w32 0x50000 0x80000000) (wM 0) (fun t => ofLe (Memory.bytes t.hbm.mem 0x50000 5) = 0x0403020100
        && t.hbm.replies.map (fun r => ofLe r.data) = [0x03020100])
    ∧ doesIs (.rouSingleWordOp (.ctx 0 0) .maxn .w32 0x50000 0x80000000) (wM 0) (fun t => ofLe (Memory.bytes t.hbm.mem 0x50000 5) = 0x0480000000)
    ∧ doesIs (.rouAmocas (.ctx 0 0) .w32 0x50000 0x03020100 7) (wM 0) (fun t => ofLe (Memory.bytes t.hbm.mem 0x50000 5) = 0x0400000007)
    ∧ doesIs (.rouLr (.ctx 3 0) .w64 0x50000) (wM 0) (fun t => (chan t (chanOf 0x50000)).resv = [⟨3, 0x2800, 0⟩])
    ∧ doesIs (.rouSc (.ctx 0 0) .w32 0x50000 9) wR (fun t => ofLe (Memory.bytes t.hbm.mem 0x50000 5) = 0x0400000009 && t.hbm.replies.map (fun r => ofLe r.data) = [0])
    ∧ doesIs (.rouSc (.ctx 0 0) .w32 0x50000 9) (wM 0) (fun t => ofLe (Memory.bytes t.hbm.mem 0x50000 5) = 0x0403020100 && t.hbm.replies.map (fun r => ofLe r.data) = [1]) := by
  decide +kernel

/-- An X command of context 0 at VA 0x10000, its result at 0x10000. -/
def xk (kind x : Nat) (blk : Option (List Byte)) : XCmd :=
  { id := 1, ctx := 0, tid := 1, queue := 0, asid := 0, kind := kind, a := 0x10000, x := BitVec.ofNat 64 x, r := 0x10000, ev := 3, blk := blk }
/-- Words in HBM from VA 0x10000 up, and the command; the channel's unit translates the page. -/
def wX (k : XCmd) (ws : List Nat) : State :=
  let s := wM 0
  { s with eng := [(0, { x := [k] })]
           mmu := { s.mmu with tlb := [(0, [⟨0, 0x10000, 0, leaf 0⟩]), (2000, [⟨0, 0x10000, 0, leaf 0⟩]), (2018, [⟨0, 0x10000, 0, leaf 0⟩])] }
           hbm := { s.hbm with mem := (ws.zipIdx.map fun p => cells (0x50000 + 8 * p.2) 8 p.1).flatten } }
/-- An operand block. -/
def blkOf (ws : List Nat) : List Byte := ws.flatMap fun x => leBytes x 8
/-- Two words at VA 0x10000, expected 5 and e, becoming 7 and 8. -/
def cas (e : Nat) : XCmd := xk 5 0 (some (blkOf [2, 0x10000, 0x10008, 0, 0, 5, e, 0, 0, 7, 8, 0, 0]))
/-- A chase for key 9 from VA 0x10010: key, next pointer and value at 0, 8 and 16, three hops. -/
def chase (hop ptr : Nat) : XCmd := { xk 8 0 (some (blkOf [0x10010, 9, 0x3001000080000])) with hop := hop, ptr := ptr, sent := some 0 }
/-- The words of an `rcas4` translate, and translating them changes nothing. -/
def cas4Goes (k : XCmd) (as : List Nat) (g : State) (l : List (Nat × Nat)) : Bool := match cas4Xlat (xWho 0 k) as g with | (.ok r, t) => r = l && t = g | _ => false
/-- The unit of channel 18 acting for a command of core 0. -/
def rw18 (k : XCmd) : RouWho := { w := { xWho 0 k with ag := .rou 18 }, own := true }
/-- An access of a unit answers a value and changes nothing. -/
def eIs {α : Type} [DecidableEq α] (m : EM α) (s : State) (a : α) : Bool := match m s with | (.ok x, t) => x = a && t = s | _ => false
/-- An access of a unit answers a value. -/
def eOk {α : Type} [DecidableEq α] (m : EM α) (s : State) (a : α) : Bool := match m s with | (.ok x, _) => decide (x = a) | _ => false
/-- A word of memory. -/
def word8 (s : State) (a : Nat) : Nat := ofLe (Memory.bytes s.hbm.mem a 8)
/-- A word in plain HBM that core 0 does not cache. -/
def plainAt (s : State) (a : Nat) : Prop := a % 8 = 0 ∧ plainHbm s a 8 ∧ uncachedAt s 0 a
/-- The command of core 0 sent. -/
def sentBy (g : State) (n : Nat) : State := updX g 0 1 fun k => { k with sent := some n }
theorem met_ListWordsAreExchanged :
    (let k := xk 6 0x10020 none; let s := wX k [0, 0]
     memOk s = true ∧ plainAt s 0x50000 ∧ plainAt s 0x50008 ∧ plainAt s 0x50020 ∧ sectorHeld s 0x50000 (rw18 k).w.owner = false
       ∧ eIs (linkAt (rw18 k) 0x10020) s (0, 0x50020) = true ∧ word8 s 0x50008 = 0 ∧ word8 s 0x50000 = 0)
    ∧ (let k := xk 6 0x10020 none; let s := wX k [0x10010, 0x10010]
       plainAt s 0x50010 ∧ plainAt s 0x50020 ∧ word8 s 0x50008 = 0x10010 ∧ eIs (linkAt (rw18 k) 0x10020) s (0, 0x50020) = true
       ∧ eIs (linkAt (rw18 k) 0x10010) (atRead s 0x50008 8).2 (0, 0x50010) = true)
    ∧ (let k := xk 6 0x10020 none; let s := wX k [0x10010, 0x10011]
       plainAt s 0x50000 ∧ plainAt s 0x50020 ∧ word8 s 0x50008 % 8 ≠ 0 ∧ eIs (linkAt (rw18 k) 0x10020) s (0, 0x50020) = true)
    ∧ (let k := xk 7 0 none; let s := wX k [0x10010, 0x10010, 0x10018]
       plainAt s 0x50000 ∧ plainAt s 0x50008 ∧ plainAt s 0x50010 ∧ word8 s 0x50000 = 0x10010 ∧ word8 s 0x50010 % 8 = 0
       ∧ eIs (linkAt (rw18 k) 0x10010) (atRead s 0x50000 8).2 (0, 0x50010) = true ∧ sectorHeld s 0x50000 (rw18 k).w.owner = false)
    ∧ (let s := wX (xk 7 0 none) [0x10010, 0x10010, 0x10019]; plainAt s 0x50010 ∧ word8 s 0x50010 % 8 ≠ 0) := by
  unfold plainAt plainHbm uncachedAt; refine ⟨?_, ?_, ?_, ?_, ?_⟩ <;> decide +kernel
theorem met_RemoteCommandsPerformTheirOperation :
    (let s := wX (cas 6) [5, 6]; plainHbm s 0x50000 8 ∧ plainHbm s 0x50008 8 ∧ memOk s = true ∧ xOf s 0 1 = some (cas 6) ∧ faulted s (.xcmd 0 1) = false ∧ bsuOn s = false
      ∧ blkW (blkOf [2, 0x10000, 0x10008]) 0 = 2 ∧ isFar 0x50000 = false ∧ sectorHeld s 0x50000 (ownerOf 1) = false ∧ sectorHeld s 0x50008 (ownerOf 1) = false
      ∧ (let g := given s (.rouRcas4 0 1); cas4Goes (cas 6) [0x10000, 0x10008] g [(0, 0x50000), (0, 0x50008)] = true
        ∧ (rouCas4 ([0x50000, 0x50008].foldl (fun s a => flushOwn s 0 a) (sentBy g 0)) (some 0) [0x50000, 0x50008] [5, 6] [7, 8]).1 = some [1, 5, 6]))
    ∧ (let k := xk 6 0x10020 none; let s := wX k [0, 0]; let g := given s (.rouRenq 0 1); translate g (.core 0) 0 0x10000 .atomic = (.ok 0 0x50000 0, g)
      ∧ eOk (rouEnq (rw18 k) (some 0) 0x50000 0x10000 0x10020) (flushOwn (sentBy g 0) 0 0x50000) 0 = true)
    ∧ (let k := xk 7 0 none; let s := wX k [0x10010, 0x10010, 0x10018]; let g := given s (.rouRdeq 0 1)
       translate g (.core 0) 0 0x10000 .atomic = (.ok 0 0x50000 0, g)
       ∧ eOk (rouDeq (rw18 k) (some 0) 0x50000 0x10000) (flushOwn (sentBy g 0) 0 0x50000) 0x10010 = true)
    ∧ (let k := chase 1 0x10010; let s := wX k [0, 0, 9, 0x10028, 77]; let g1 := updX (given s (.rchaseHop 0 1)) 0 1 fun k => { k with ptr := 0x10010, sent := some 0 }
       eIs (linkAt { w := { xWho 0 k with ag := .rou 0 }, own := true } 0x10010) g1 (0, 0x50010) = true
       ∧ eOk (rouHop (rw18 k) 0x10010 9 0 8 16) (sentBy g1 18) (.done 0 77) = true ∧ eOk (rouHop (rw18 k) 0x10010 8 0 8 16) (sentBy g1 18) (.next 0x10028) = true)
    ∧ blkW (blkOf [0x10010, 9, 0x3001000080000]) 16 / 2 ^ 48 % 32 = 3 ∧ (chase 3 0).hop = 3 ∧ ({ chase 0 0 with a := 0x10004 } : XCmd).a.toNat % 8 ≠ 0 := by
  unfold plainHbm; refine ⟨?_, ?_, ?_, ?_, ?_⟩ <;> decide +kernel
/-- The result of the command, and the first words of memory. -/
def xAfter (e : Ev) (s : State) : List Nat × List Nat :=
  match exec e.row (given s e) with
  | .next t => ((((xOf t 0 1).bind (·.got)).getD []).length / 8 :: ((List.range 3).map fun i => blkW (((xOf t 0 1).bind (·.got)).getD []) (8 * i)),
      (List.range 5).map fun i => ofLe (Memory.bytes t.hbm.mem (0x50000 + 8 * i) 8))
  | _ => ([], [])
theorem test_commands : xAfter (.rouRcas4 0 1) (wX (cas 6) [5, 6]) = ([5, 1, 5, 6], [7, 8, 0, 0, 0]) ∧ xAfter (.rouRcas4 0 1) (wX (cas 4) [5, 6]) = ([5, 0, 5, 6], [5, 6, 0, 0, 0])
    ∧ xAfter (.rouRenq 0 1) (wX (xk 6 0x10020 none) [0, 0, 0, 0, 3]) = ([1, 0, 0, 0], [0x10020, 0x10020, 0, 0, 0])
    ∧ xAfter (.rouRenq 0 1) (wX (xk 6 0x10020 none) [0x10010, 0x10010, 0, 4, 3]) = ([1, 0x10010, 0, 0], [0x10010, 0x10020, 0x10020, 4, 0])
    ∧ xAfter (.rouRdeq 0 1) (wX (xk 7 0 none) [0x10010, 0x10018, 0x10018]) = ([1, 0x10010, 0, 0], [0x10018, 0x10018, 0x10018, 0, 0])
    ∧ xAfter (.rouRdeq 0 1) (wX (xk 7 0 none) [0x10010, 0x10010, 0]) = ([1, 0x10010, 0, 0], [0, 0, 0, 0, 0])
    ∧ (xAfter (.rchaseHop 0 1) (wX (chase 1 0x10010) [0, 0, 9, 0x10028, 77])).1 = [2, 0, 77, 0] ∧ (xAfter (.rchaseHop 0 1) (wX (chase 3 0x10010) [])).1 = [2, 2, 0x10010, 0]
    ∧ (xAfter (.rchaseHop 0 1) (wX (chase 1 0) [])).1 = [2, 1, 0, 0]
    ∧ doesIs (.rchaseHop 0 1) (wX (chase 1 0x10010) [0, 0, 8, 0x10028]) (fun t => (xOf t 0 1).map (fun k => (k.hop, k.ptr)) = some (2, 0x10028)) := by decide +kernel

/-! ## Widenings, host ports, links -/

/-- A sync variable of cluster scope at PA 0x50000 that widens to package scope; the host window of a port over HBM; mailbox writes in flight. -/
def wWid : State :=
  { wM 0 with svt := [(0, [{ sector := 0x2800, scope := 2, widening := some (4, 1, 2) }])], hdm := [(0, ⟨0x1000000, 0x50000, 0x10000⟩)], clk := 10
              mboxW := [⟨10, 9, 36, 0xF00000010020, [some 5, some 6], false, false, 0⟩] }
/-- A multicast is the first write in flight. -/
def wCast : State := { wWid with mboxW := [⟨11, 9, 36, 0x20, [some 7], true, false, 0⟩] }
/-- The sync variable's anchor is a context of package 3. -/
def wFarSv : State := { wM 0 with svt := [(0, [{ sector := 0x2800, scope := 2, apkg := 3, widening := some (4, 1, 2) }])] }
/-- The host holds the granule at PA 0x50040. -/
def wSnp (own : Bool) : State := setSnoop wWid 0x50040 (some { gran := 0x50040 / 64, own := own, data := none })
theorem met_WideningsMailboxesAndHostPorts : svtOf wWid 0 0x2800 = some { sector := 0x2800, scope := 2, widening := some (4, 1, 2) }
    ∧ wWid.pkg = 0 ∧ svtOf wFarSv 0 0x2800 = some { sector := 0x2800, scope := 2, apkg := 3, widening := some (4, 1, 2) } ∧ wFarSv.pkg ≠ 3 ∧ wFarSv.fab.asks = []
    ∧ (wWid.mboxW.map fun w => (w.cast, decide (w.land ≤ wWid.clk))) = [(false, true)]
    ∧ (wCast.mboxW.map fun w => (w.cast, decide (wCast.clk < w.land), decide (w.pa + w.data.length ≤ 0x10000))) = [(true, true, true)]
    ∧ hdmPa wWid 0 0x1000040 = some 0x50040 ∧ snoopOf wWid 0x50040 = none ∧ (chan wWid (chanOf 0x50040)).snoop.length < 16384 ∧ memOk wWid = true
    ∧ snoopOf (wSnp true) 0x50040 = some { gran := 0x50040 / 64, own := true, data := none } ∧ hdmPa (wSnp true) 0 0x1000040 = some 0x50040
    ∧ memOk (wSnp true) = true ∧ (chan (wSnp true) (chanOf 0x50040)).failed = false ∧ (snoopOf (wSnp false) 0x50040).map (·.own) = some false := by decide +kernel
theorem test_host : doesIs (.svtWidenAcked 0 0x2800) wWid (fun t => t.svt.map (fun e => e.2.map fun x => (x.scope, x.widen, x.widening.isNone)) = [[(4, 1, true)]])
    ∧ doesIs (.mbstLand 0) wWid (fun t => t.mbox = [(0xF00000010020, 5), (0xF00000010021, 6)] && t.mboxW = []) ∧ doesIs (.mbcastLand 0) wCast (fun t => t.mbox = [] && t.mboxW.length = 1)
    ∧ doesIs (.svtWidenAcked 0 0x2800) wFarSv (fun t => t.fab.asks.map (fun a => (a.2.pkg, a.2.addr, a.2.arg)) = [(3, 0x50000, 19)])
    ∧ doesIs (.mbcastLand 0) { wCast with clk := 11 } (fun t => t.mbox.map (·.1) = (List.range 8).map fun i => 0xF00000080020 + 0x10000 * i)
    ∧ doesIs (.cxlHostReadShared 0 0x1000040) wWid (fun t => (snoopOf t 0x50040).map (·.own) = some false)
    ∧ doesIs (.cxlHostReadOwn 0 0x1000040 (some 9)) wWid (fun t => (snoopOf t 0x50040).map (fun h => (h.own, h.data)) = some (true, some 9))
    ∧ doesIs (.cxlHostEvict 0 0x1000040 (some 0x0807)) (wSnp true) (fun t => snoopOf t 0x50040 = none && ofLe (Memory.bytes t.hbm.mem 0x5003F 4) = 0x080700)
    ∧ doesIs (.cxlCompletion 0 []) (upd wWid fun x => { x with farOut := 2 }) (fun t => (cc t).farOut = 1) := by decide +kernel

/-- Port 6, of die 1, active; and a packet in one flit. -/
def wPo (f : Port → Port) : State := setPort { w0 with clk := 5000 } 6 fun x => f { x with state := 2, rseq := 7, lseq := 9 }
def pk (ty : Nat) : Packet := { ty := ty, dst := 0, src := 3, eseq := 0, addr := 0x50000, len := 32 }
def fl (ok : Bool) (n : Nat) : Flit :=
  let f := sealFlit { lseq := n, lack := 9, ackv := true, cvc := 1, cinc := 2, pkt := some (pk 1) }
  if ok then f else { f with crc := f.crc + 1 }
theorem met_LinksKeepTheirSequence : (portOf (wPo id) 6).state = 2 ∧ (fl true 8).lseq = ((portOf (wPo id) 6).rseq + 1) % 4096 ∧ (fl true 8).eop = true ∧ crcOk (fl true 8) = true ∧ crcOk (fl false 8) = false
    ∧ (fl true 9).lseq ≠ ((portOf (wPo id) 6).rseq + 1) % 4096
    ∧ (let x := portOf (wPo fun x => { x with unacked := 1, ackDue := 4936 }) 6; x.unacked ≠ 0 ∧ x.ackDue + 64 ≤ 5000 ∧ x.retry.length < 4095)
    ∧ 15 ∈ lanesOf (portOf (wPo id) 6).width ∧ 15 ∉ lanesOf (portOf (wPo fun x => { x with width := 1 }) 6).width
    ∧ candidate (portOf (wPo fun x => { x with state := 3, lanefail := 0x8000 }) 6) = some 1 ∧ (portOf (wPo fun x => { x with state := 3 }) 6).since + 3800 ≤ 5000
    ∧ 5000 < (portOf (wPo fun x => { x with state := 1, since := 1201 }) 6).since + 3800 ∧ (portOf w0 6).state = 0 := by decide +kernel
def por (t : State) : Nat × Nat × Nat := ((portOf t 6).state, (portOf t 6).width, (portOf t 6).rseq)
theorem test_links : doesIs (.flitReceive 6 (fl true 8)) (wPo id) (fun t => por t = (2, 0, 8) && t.pending = [⟨none, .flecenPacketAccept 1 (pk 1)⟩] && (portOf t 6).credit = #v[512, 514, 256, 32])
    ∧ doesIs (.flitReceive 6 (fl false 8)) (wPo id) (fun t => por t = (2, 0, 7) && (portOf t 6).crc = 1 && (portOf t 6).retry.map (·.rpl) = [true])
    ∧ doesIs (.flitReceive 6 (fl true 9)) (wPo id) (fun t => por t = (2, 0, 7) && (portOf t 6).crc = 0)
    ∧ doesIs (.ackDeadline 6) (wPo fun x => { x with unacked := 1, ackDue := 4936 }) (fun t => (portOf t 6).retry.map (fun f => (f.nul, f.ackv, f.lack, f.lseq)) = [(true, true, 7, 10)])
    ∧ doesIs (.laneFail 6 15) (wPo id) (fun t => por t = (3, 0, 7) && (portOf t 6).lanefail = 0x8000) ∧ doesIs (.laneFail 6 15) (wPo fun x => { x with width := 1 }) (fun t => por t = (2, 1, 7))
    ∧ doesIs (.retrainSuccess 6 9) (wPo fun x => { x with state := 3, lanefail := 0x8000 }) (fun t => por t = (2, 1, 7))
    ∧ doesIs (.retrainTimeout 6) (wPo fun x => { x with state := 3 }) (fun t => por t = (0, 0, 7)) ∧ doesIs (.flstatRq 6 0x8000000100000000 .mgmt) w0 (fun t => (portOf t 6).state = 3) := by decide +kernel

/-! ## Packets at their destination and in their buffer -/

/-- Export window 0 admits reads and writes of the first 16 MiB; a packet is held at die 0. -/
def wPk (k : Packet) (f : Gw → Gw) : State :=
  setGw { wM 0 with clk := 2 ^ 22, dev := [(0xF00001520800, 3), (0xF00001520808, 0xFF0000)] } 0 fun g => f { g with held := [k] }
def wr : Packet := { pk 1 with addr := 0x50002, len := 64, bmask := [true, false, true], data := [7, 8, 9] }
theorem met_PacketsArePerformedAtTheirHome : tagOk (sealPkt (pk 0)) = true ∧ tagOk (pk 0) = false ∧ gwFull (wM 0) 0 = false
    ∧ mayPerform (wM 0) (sealPkt (pk 0)) = true ∧ gwFull (wPk (pk 0) id) 0 = false ∧ (pk 0).dst = (wM 0).pkg ∧ seenDone (seenOf (wM 0) 3) 0 = false ∧ heldFrom (wM 0) 3 = [] ∧ mayPerform (wM 0) (pk 0) = true
    ∧ mayPerform (wM 0) { pk 0 with eseq := 1 } = false ∧ SMap.getD (seenOf (wM 0) 3).rejects 0 0 < 15
    ∧ (let s := wPk wr id; (gwOf s 0).held[0]? = some wr ∧ mayPerform s wr = true ∧ memOk s = true ∧ exportOk s wr.addr true = true)
    ∧ plainHbm (wPk wr id) 0x50000 64 ∧ exportOk (wM 0) wr.addr true = false ∧ (let s := setGw (wM 0) 0 fun g => { g with held := [wr] }; (gwOf s 0).held[0]? = some wr ∧ mayPerform s wr = true)
    ∧ (let s := wPk (pk 0) id; mayPerform s (pk 0) = true ∧ exportOk s 0x50000 false = true)
    ∧ (let s := wPk { pk 0 with eseq := 1 } fun g => { g with flushes := [pk 5] }; mayPerform s { pk 0 with eseq := 1 } = false ∧ (gwOf s 0).flushes[0]? = some (pk 5) ∧ writesDone s (pk 5) = true
      ∧ writesDone s { pk 5 with eseq := 1 } = false) := by unfold plainHbm; decide +kernel
/-- Types, numbers and op fields of the packets in the buffer of die 0. -/
def bufOf (t : State) : List (Nat × Nat × Nat) := (gwOf t 0).buf.map fun e => (e.pkt.ty, e.pkt.addr, e.pkt.op)
theorem test_destination : doesIs (.heldWritePerform 0 0) (wPk wr id) (fun t => ofLe (Memory.bytes t.hbm.mem 0x50001 5) = 0x0509030701 && (gwOf t 0).held = [] && (seenOf t 3).point = 1)
    ∧ doesIs (.heldWritePerform 0 0) (setGw (wM 0) 0 fun g => { g with held := [wr] }) (fun t => ofLe (Memory.bytes t.hbm.mem 0x50001 5) = 0x0504030201 && (gwOf t 0).refuse = 1)
    ∧ doesIs (.heldWritePerform 0 0) (wPk (pk 0) id) (fun t => bufOf t = [(3, 0, 0)] && (gwOf t 0).buf.map (fun e => ofLe (e.pkt.data.take 4)) = [0x03020100])
    ∧ doesIs (.heldWritePerform 0 0) (wPk { pk 0 with eseq := 1 } id) (fun t => (gwOf t 0).held = [{ pk 0 with eseq := 1 }])
    ∧ doesIs (.flushingReadAnswer 0 0) (wPk { pk 0 with eseq := 1 } fun g => { g with flushes := [pk 5] }) (fun t => bufOf t = [(6, 0, 0)])
    ∧ doesIs (.flecenPacketAccept 0 (pk 1)) (wM 0) (fun t => (seenOf t 3).rejects = [(0, 1)])
    ∧ doesIs (.flecenPacketAccept 0 (sealPkt { pk 14 with op := 1, addr := 4 })) (wM 0) (fun t => t.pending = [⟨none, .e2eRejectReceive 0 3 4 true⟩]) := by decide +kernel

/-- A write to package 3 in the buffer of die 0, sent at clock 0. -/
def kept (tries : Nat) : E2E := { pkt := { pk 1 with dst := 3, src := 0, eseq := 4 }, tries := tries, port := 0, time := 0 }
def wKept (tries : Nat) : State := wPk (pk 0) fun g => { g with buf := [kept tries] }
/-- A flushing read of package 3, and a release, that wait for the answer to number 4. -/
def xfl : XCmd := { xk 9 0 none with a := 3, sent := some 4 }
def rfl5 : Remote := { pkg := 3, addr := 0, len := 0, kind := 5, eseq := 4 }
theorem met_PacketsAreKeptUntilAnswered : e2eOf (wKept 0) 0 3 4 = some (kept 0) ∧ (kept 0).tries < 15 ∧ 15 ≤ (kept 15).tries ∧ (kept 0).pkt.ty = 1
    ∧ (∀ core ∈ (wKept 0).eng.map (·.1), ∀ j ∈ (engOf (wKept 0) core).x, j.kind ≠ 9) ∧ (kept 0).time + 2 ^ 22 ≤ (wKept 0).clk
    ∧ ({ wKept 0 with clk := 5 } : State).clk < (kept 0).time + 2 ^ 22
    ∧ (let s := wX xfl []; (cc s).remote = [] ∧ s.fab.asks = [] ∧ xOf s (coreOf 0) 1 = some xfl ∧ xfl.kind = 9 ∧ xfl.got = none ∧ xfl.a.toNat % 2 ^ 14 = 3)
    ∧ (cc (upd w0 fun x => { x with remote := [rfl5] })).remote = [rfl5] ∧ rfl5.arg ≠ 1
    ∧ (gwOf (wKept 0) 0).wait = [] := by decide +kernel
theorem test_buffer : doesIs (.e2eAckReceive 0 3 4) (wKept 0) (fun t => (gwOf t 0).buf = [])
    ∧ doesIs (.e2eRejectReceive 0 3 4 false) (wKept 0) (fun t => (gwOf t 0).buf.map (fun e => (e.tries, e.time)) = [(1, 2 ^ 22)])
    ∧ doesIs (.e2eRejectReceive 0 3 4 false) (wKept 15) (fun t => (gwOf t 0).buf = [] && (gwOf t 0).drop = 1 && destMarked t 0 3)
    ∧ doesIs (.e2eRejectReceive 0 3 4 true) (wKept 0) (fun t => (gwOf t 0).buf = [] && destMarked t 0 3)
    ∧ doesIs (.e2eRetransmitTimeout 0 3 4) (wKept 2) (fun t => (gwOf t 0).buf.map (fun e => (e.tries, e.time)) = [(2, 2 ^ 22)])
    ∧ doesIs (.flushResponseReceive 0 3 4 true) (wX xfl []) (fun t => (xOf t 0 1).bind (·.got) = some [1])
    ∧ doesIs (.flushResponseReceive 0 3 4 false) (upd w0 fun x => { x with remote := [rfl5] }) (fun t => (cc t).remote.map (·.reply) = [some ([], false, false)]) := by decide +kernel

/-! ## Sequenced multicast -/

/-- Group 16 at its switch, with this package its one member, its window of two pages at PA 0x50000; a command of context 0 waits. -/
def msg (k : SmKind) (d : List Byte) : SmMsg := { grp := 16, pkg := 0, ctx := 0, cmd := 1, kind := k, data := d }
def wGr (f : Group → Group) (y : Member → Member) : State :=
  let s := wM 0
  { s with fab := { s.fab with group := [(16, f { swid := 9, k := 0, next := 5, members := [(0, 2)] })], member := [(16, y { pa := 0x50000, k := 0, nextN := 5 })] }
           eng := [(0, { sq := [{ id := 1, ctx := 0, tid := 1, queue := 0, ev := 3, cmdno := 0, msg := msg (.dir 0x40) [] }] })]
           dev := [(0xF00001300000, 3 * 2 ^ 13)] }
def cmdW (op k : Nat) : Word := BitVec.ofNat 64 (2 ^ 62 + op * 2 ^ 60 + k * 2 ^ 48 + 9 * 2 ^ 32 + 16)
def asked (s : State) (w : Word) : State := { s with fab := { s.fab with cmd := some w } }
/-- A round of f32 sums that expects this package alone; one contribution has come. -/
def rnd : Round := { op := .add, fmt := .i32, off := 0x40, data := [{ msg (.red .add .i32 0x40) [1, 0, 0, 0, 2, 0, 0, 0] with pkg := 3 }], want := [0] }
theorem met_MulticastGroupsAreSequenced : (wM 0).fab.cmd = none ∧ (cmdW 0 0).getLsbD 62 = true ∧ mayWrite 0xF00001530000 .mgmt = true ∧ (asked (wM 0) (cmdW 0 0)).fab.cmd = some (cmdW 0 0)
    ∧ groupOf (wM 0) 16 = none ∧ (cmdW 2 0).toNat / 2 ^ 60 % 4 = 2 ∧ (cmdW 1 5).toNat / 2 ^ 48 % 2 ^ 3 = 5 ∧ (cmdW 1 0).toNat / 2 ^ 32 % 2 ^ 16 = 9
    ∧ (groupOf (wGr id id) 16).map (fun x => (x.swid, x.closed, x.members, x.next)) = some (9, false, [(0, 2)], 5) ∧ smRange 0 (msg (.dir 0x40) [1, 2]) = true ∧ smRange 0 (msg (.dir 0x38) []) = false
    ∧ smRange 0 (msg (.red .add .i32 0x40) [1, 0, 0, 0, 2, 0, 0, 0]) = true ∧ (∀ z ∈ rnd.data, z.data.length = 8)
    ∧ SMap.get? (wGr id id).fab.member 16 = some { pa := 0x50000, k := 0, nextN := 5 } ∧ memOk (wGr id id) = true
    ∧ ((List.range 16).all fun i => isLive (wGr id id) (0x50000 + 4096 * i)) = true ∧ (wGr id id).hbm.poison = [] ∧ (wGr id id).hbm.ch = []
    ∧ ((engOf (wGr id id) 0).sq.find? (fun c => c.id = 1)).isSome = true ∧ (asked (wM 0) (cmdW 0 0)).fab.cmd.isSome = true ∧ Writer.mgmt ≠ .peer
    ∧ (groupOf (wGr id id) 16).map (fun x => (x.queue, SMap.getD x.owed 0 0, x.held, x.round.isNone)) = some ([], 0, [], true) ∧ (msg (.dir 0) []).pkg = (wM 0).pkg
    ∧ (rnd.op, rnd.fmt, rnd.off, rnd.want) = (.add, .i32, 0x40, [0]) := by and_intros <;> decide +kernel
theorem test_groups : doesIs (.smgcmdCreate (cmdW 0 0) .mgmt) (wM 0) (fun t => t.fab.cmd = some (cmdW 0 0)) ∧ doesIs (.smgcmdClose (cmdW 1 0) .task) (wM 0) (fun t => t.fab.cmd = none)
    ∧ doesIs (.smgcmdCreate (cmdW 0 0) .peer) (asked (wM 0) (cmdW 0 0)) (fun t => (groupOf t 16).isSome && t.fab.cmd.isSome)
    ∧ doesIs (.smgcmdAnswer 0) (asked (wM 0) (cmdW 0 4)) (fun t => groupOf t 16 = some { swid := 9, k := 4 } && devGet t 0xF00001530008 = 0)
    ∧ doesIs (.smgcmdAnswer 0) (asked (wM 0) (cmdW 0 5)) (fun t => groupOf t 16 = none && devGet t 0xF00001530008 = 6)
    ∧ doesIs (.smgcmdAnswer 0) (asked (wGr id id) (cmdW 1 0)) (fun t => (groupOf t 16).map (·.closed) = some true) ∧ doesIs (.smgcmdAnswer 3) (asked (wM 0) (cmdW 0 4)) (fun t => groupOf t 16 = none)
    ∧ doesIs (.smgcmdAnswer 0) (asked (wGr (fun x => { x with closed := true }) id) (cmdW 2 0)) (fun t => devGet t 0xF00001530008 = 5)
    ∧ doesIs (.switchSequence (msg (.dir 0x40) [7])) (wGr (fun x => { x with closed := true }) id) (fun t => t.pending = [⟨none, .sequencedCommandComplete 0 1 (some 64)⟩])
    ∧ doesIs (.switchSequence (msg (.dir 0x38) [7])) (wGr id id) (fun t => t.pending = [⟨none, .sequencedCommandComplete 0 1 (some 67)⟩])
    ∧ doesIs (.switchSequence (msg (.dir 0x40) [7])) (wGr id id) (fun t => t.pending = [⟨none, .smgEntryArrive 16 5 (.dir 0x40 [7])⟩] && (groupOf t 16).map (·.next) = some 6)
    ∧ doesIs (.switchSequence (msg (.red .add .i32 0x40) [3, 0, 0, 0, 255, 255, 255, 255])) (wGr (fun x => { x with round := some rnd }) id)
        (fun t => t.pending = [⟨none, .smgEntryArrive 16 5 (.dir 0x40 [4, 0, 0, 0, 1, 0, 0, 0])⟩]) := by decide +kernel
theorem test_entries : doesIs (.smgEntryArrive 16 4 .empty) (wGr id id) (fun t => t.pending = [⟨none, .smgMemberAck 16 0 4⟩] && t.hbm = (wGr id id).hbm)
    ∧ doesIs (.smgEntryArrive 16 6 .empty) (wGr id id) (fun t => t.pending = [] && t.fab.member.map (fun y => y.2.ahead) = [[(6, .empty)]])
    ∧ doesIs (.smgEntryArrive 16 5 (.dir 0x40 [9, 8])) (wGr id fun y => { y with ahead := [(6, .dir 0x41 [7])] }) (fun t =>
        t.pending = [⟨none, .smgMemberAck 16 0 5⟩, ⟨none, .smgMemberAck 16 0 6⟩] && ofLe (Memory.bytes t.hbm.mem 0x50040 2) = 0x0709 && ofLe (Memory.bytes t.hbm.mem 0x50000 8) = 6)
    ∧ doesIs (.smgMemberAck 16 0 4) (wGr (fun x => { x with wait := [(4, [0], [msg (.dir 0x40) []])] }) id) (fun t => t.pending = [⟨none, .sequencedCommandComplete 0 1 none⟩])
    ∧ doesIs (.smgMemberAck 16 0 4) (wGr (fun x => { x with wait := [(4, [0, 3], [msg (.dir 0x40) []])] }) id) (fun t => t.pending = [] && (groupOf t 16).map (·.wait.map (·.2.1)) = some [[3]])
    ∧ doesIs (.sequencedCommandComplete 0 1 none) (wGr id id) (fun t => (engOf t 0).sq = []) := by decide +kernel

/-! ## Queues -/

/-- Queue 0 in a state; its descriptors lie at VA 0x10000, a ring of two. -/
def wQu (f : QState → QState) : State :=
  let s := wS child
  setQ { s with dev := [(0xF00001300000, 3 * 2 ^ 13), (0xF00001300008, 0x10000 + 2 ^ 60), (0xF00001300018, 0xFF), (0xF00001520000, 0x80000)] } 0 f
def pf0 : Pf := { fault := { key := .page 0 0 0, who := .caravan 0, queue := 0, core := none, words := [] }, members := [] }
/-- The host holds the record of entry 7. -/
def wRec : State := let s := wQu fun x => { x with st := 1, hostRec := some 7 }; { s with car := { s.car with pf := [(7, pf0)] } }
theorem met_QueuesAreRunAndTaken : (qst w0 5).st = 0 ∧ mayWrite (qReg 5 0) .mgmt = true ∧ mayWrite (qReg 0 0) .mgmt = true ∧ mayWrite (qReg 5 0) .task = false ∧ (20 ≤ (22 : Nat) / 1 ∧ (0x58000080 : Nat) / 2 ^ 26 % 2 ^ 6 = 22) ∧ (0x80 : Nat) / 2 ^ 26 % 2 ^ 6 = 0 ∧ 0xF00001240000 ≤ 0xF000012405F8 ∧ 0xF000012405F8 < 0xF00001240600
    ∧ (let s := wQu fun x => { x with st := 1, prod := 1 }; (qst s 0).st = 1 ∧ ((2 : BitVec 32) - (qst s 0).cons).toNat ≤ 2 ^ qLsz s 0 ∧ ((2 : BitVec 32) - (qst s 0).prod).toNat < 2 ^ 31
      ∧ 2 ^ qLsz s 0 < ((3 : BitVec 32) - (qst s 0).cons).toNat ∧ mayTake s 0 = true ∧ faulted s (.caravan 0) = false ∧ (qst s 0).completions = []
      ∧ (readTask (given s (.rootTaskTake 0)) (leader s) 0 0x10000).1 = .ok childT)
    ∧ mayTake (wQu id) 0 = false
    ∧ (let s := wRec; (qst s 0).hostRec = some 7 ∧ s.car.pf = [(7, pf0)] ∧ s.car.pfWait = [] ∧ SMap.get? s.car.pf 7 = some pf0) ∧ (qst w0 0).hostRec = none := by decide +kernel
theorem test_queues : doesIs (.latchSet 3) w0 (fun t => (ctxOf t 3).latch) ∧ doesIs (.cbarWrite 0xF00001240008 63 .mgmt) (wBar 1 2) (fun t => (barOf t 0 1).next = 32 && (barOf t 0 1).count = 2)
    ∧ doesIs (.qctlEnable 5 0x8000000058000080 .mgmt) w0 (fun t => (qst t 5).st = 1 && (qst t 5).interval = some 0 && devGet t (qReg 5 0) = 0x8000000058000080)
    ∧ doesIs (.qctlEnable 5 0x8000000058000080 .task) w0 (fun t => (qst t 5).st = 0)
    ∧ doesIs (.qctlDisable 0 0 .mgmt) (wQu fun x => { x with st := 1, completions := [{ i := 0, value := 0, status := 0 }] }) (fun t => (qst t 0).st = 2)
    ∧ doesIs (.doorbellProd 0 2) (wQu fun x => { x with st := 1, prod := 1 }) (fun t => (qst t 0).prod = 2)
    ∧ doesIs (.doorbellProd 0 3) (wQu fun x => { x with st := 1, prod := 1 }) (fun t => (qst t 0).prod = 1 && (devGet t (qReg 0 0x60)).getLsbD 63)
    ∧ doesIs (.doorbellProd 0 0) (wQu fun x => { x with st := 1, prod := 1 }) (fun t => (qst t 0).prod = 1 && (devGet t (qReg 0 0x60)).getLsbD 63)
    ∧ doesIs (.doorbellFres 0 0) wRec (fun t => (qst t 0).hostRec = none && t.car.pf = [] && (qst t 0).st = 1) ∧ doesIs (.doorbellFres 0 1) wRec (fun t => (qst t 0).st = 4)
    ∧ doesIs (.rootTaskTake 0) (wQu fun x => { x with st := 1, prod := 1 }) (fun t => (qst t 0).cons = 1 && (allTasks t).any fun k => k.entry = 0x40 && k.root = some 0 && k.prio = 3) := by decide +kernel

/-! ## Placement, saves, checkpoints -/

def rdy : Ready := { task := { childT with tid := 9, own := 0x30005, idx := 6, stack := 0x77 }, list := .cl 0, since := 0 }
/-- Queue 0 runs; its ready task, a range of it, the task's future being reclaimed. -/
def wRd (f : Caravan → Caravan) : State :=
  let s := setQ (wS child) 0 fun q => { q with st := 1 }
  { s with car := f { s.car with ready := [rdy], range := [(5, { task := childT, fut := 5, next := 3, n := 40 })], fut := [(5, { fReady with st := .reclaiming, gen := 3, left := 1 })] } }
/-- A handler's task that only core 0 may run, whose one task has a save area; so a pre-emptor. -/
def wPre : State :=
  let s := wRd fun c => { c with ready := [{ rdy with task := { rdy.task with mask := 1, handler := some (0, 0) } }] }
  upd s fun x => { x with task := some { placedTask with save := 0x100000 } }
/-- The task of context 0 is to be reclaimed; pinned or not. -/
def wRc (pin : Bool) : State := upd (wRd fun c => { c with ready := [], range := [] }) fun x => { x with task := some { placedTask with own := 0x30005, rev := true, pinned := pin } }
theorem met_TasksArePlacedAndReclaimed : toPlace (wRd id) 1 = some rdy ∧ freeCtx (wRd id) 1 = some 4 ∧ takeAcc (wRd id) 1 rdy.task.demand = some [0, 1] ∧ toPlace (wRd id) 0 = none
    ∧ (wantedRanges (wRd id) 0).map (fun r => (r.1, r.2.next, r.2.n)) = [(5, 3, 40)] ∧ taskByTid (wRc false) 1 = (cc (wRc false)).task ∧ (qst (wRc false) 0).st = 1
    ∧ (getFut (wRc false) 0x30005).map (fun f => (f.st, f.left)) = some (.reclaiming, 1) ∧ ctxOfTid (wRc false) 1 = some 0 ∧ SMap.has (wRc true).car.range (hKey 0x30005) = false
    ∧ (cc (wRc false)).ending = none ∧ (let s := upd (wRc false) fun x => { x with ending := some 3 }; (cc s).ending.isSome = true ∧ ctxOfTid s 1 = some 0)
    ∧ preemptor wPre (wPre.car.ready.headD rdy) = true ∧ victimFor wPre (wPre.car.ready.headD rdy) = some 0 ∧ wPre.car.saving = [] := by decide +kernel
theorem test_placement : doesIs (.taskPlace 1) (wRd id) (fun t => (ctxOf t 4).pc = 0x40 && rdS (ctxOf t 4) 1 = 7 && rdS (ctxOf t 4) 62 = 0x77 && rdS (ctxOf t 4) 3 = 0x30005 && t.car.ready.isEmpty)
    ∧ doesIs (.rangeChunkRequest 0) (wRd id) (fun t => t.car.ready.map (fun r => r.task.idx) = [6, 3, 4] && t.car.range.map (fun r => r.2.next) = [5])
    ∧ doesIs (.reclamationStop 1) (wRc false) (fun t => (cc t).task.isNone) ∧ doesIs (.reclamationStop 1) (wRc true) (fun t => (cc t).task.isSome && (getFut t 0x30005).map (·.st) = some .orphan)
    ∧ doesIs (.preemption 9) wPre (fun t => t.car.saving.map (·.ctx) = [0] && t.car.claim = [(9, 0)]) := by decide +kernel

/-- A save of context 0 is requested; a restore of its task, whose registers a checkpoint holds, is bound to context 1. -/
def wSv : State := let s := wRd id; { s with clk := 2 ^ 24, car := { s.car with saving := [⟨0, 0⟩] } }
def wRe (owed : Nat) : State :=
  let s := wRd id
  { s with car := { s.car with restoring := [(1, { rdy with saved := some { regs := some { (cc s) with pc := 0x88 }, owed := owed } })] } }
def wDog (n : Nat) : State := upd w0 fun x => { x with wdog := BitVec.ofNat 64 n }
theorem met_ContextsAreSavedAndRestored : saveQuiet wSv 0 = true ∧ wSv.car.saving = [⟨0, 0⟩] ∧ saveQuiet (upd wSv fun x => { x with farOut := 1 }) 0 = false
    ∧ 0 + max 1 ((devGet wSv 0xF00001340048).toNat % 2 ^ 32) * 1024 ≤ wSv.clk ∧ (wRd id).car.saving = [] ∧ ({ wSv with clk := 5 } : State).clk < 0 + 1024
    ∧ (let h := given (wRe 0) (.contextRestore 1); let v : Saved := { regs := some { (cc (wRd id)) with pc := 0x88 } }
      (readImage rdy v (ctxOf h 1).phys []).map (fun x => (x.x.pc, x.lines, x.pins)) = some (0x88, [], []) ∧ (pinLinesNow (acquireAt h 0 4) 1 []).1 = some [] ∧ (linesRoom h 0 []).isSome = true ∧ v.owed = 0)
    ∧ wdogDue (wDog 0) 0 = true ∧ wdogDue (wDog 1) 0 = false ∧ allHere (cc (wDog 0)) = true
    ∧ (let s := upd (wDog 0) fun x => { x with flights := [waiting x] }; wdogDue s 0 = true ∧ allHere (ctxOf s 0) = false) := by and_intros <;> decide +kernel
theorem test_saves : doesIs (.saveBoundExpiry 0) wSv (fun t => (cc t).task.isNone) ∧ doesIs (.saveBoundExpiry 0) { wSv with clk := 5 } (fun t => (cc t).task.isSome)
    ∧ doesIs (.contextRestore 1) (wRe 0) (fun t => (ctxOf t 1).pc = 0x88 && t.car.restoring.isEmpty) ∧ doesIs (.contextRestore 1) (wRe 2) (fun t => t.car.restoring.length = 1)
    ∧ doesIs (.watchdogExpire 0) (wDog 0) (fun t => (cc t).trap = some ⟨72⟩) ∧ doesIs (.watchdogExpire 0) (wDog 1) (fun t => (cc t).trap = none) := by decide +kernel

/-- Queue 0 takes checkpoints, and its interval began at clock 0. -/
def wCk (clk : Nat) (f : Caravan → Caravan) : State :=
  let s := setQ (wS child) 0 fun q => { q with st := 1, interval := some 0 }
  { s with clk := clk, dev := [(0xF00001300000, 20 * 2 ^ 26)], undo := [(0, [(0xA00, { data := 0x0908, psn := 0, live := true })])], car := f s.car }
def wRb (k : List (Nat × Ckpt)) : State :=
  let s := wCk 5 fun c => { c with ckpt := k }
  setQ { s with ctx := [] } 0 fun q => { q with st := 3 }
def ck : Ckpt := { futs := [(5, fReady)], ready := [rdy], ranges := [], x := [] }
theorem met_CheckpointsAreTakenAndRestored : intervalDue (wCk 5 id) 0 = false ∧ (let s := wCk (2 ^ 20) id; intervalDue s 0 = true ∧ (queueCtxs s 0).all (ctxQuiet s) = true
      ∧ (let g := given s (.checkpointIntervalEnd 0); let y := cleanTiles (flushPlain ((queueCtxs s 0).foldl drainCtx g) 0) 0; tilesClean y (qAsid y 0) = true ∧ (tablePut y (qAsid y 0)).isSome = true))
    ∧ (qst (wRb []) 0).st = 3 ∧ allTasks (wRb []) = [] ∧ SMap.get? (wRb [(0, ck)]).car.ckpt 0 = some ck ∧ memOk (wRb [(0, ck)]) = true ∧ ck.sq = [] ∧ (qst (wRb [(0, ck)]) 0).completions = []
    ∧ SMap.get? (wRb []).car.ckpt 0 = none ∧ (wRb [(0, ck)]).moves = []
    ∧ SMap.getD (wRb [(0, ck)]).undo 0 [] = [(0xA00, { data := 0x0908, psn := 0, live := true })] ∧ (wRb [(0, ck)]).tiles.oasis = [] := by decide +kernel
theorem test_checkpoints : doesIs (.checkpointIntervalEnd 0) (wCk (2 ^ 20) id) (fun t => (qst t 0).interval = some (2 ^ 20) && t.undo = [(0, [])] && t.car.ckpt.map (fun k => k.2.ready.map (·.task.tid)) = [[1]])
    ∧ doesIs (.checkpointIntervalEnd 0) (wCk 5 id) (fun t => (qst t 0).interval = some 0) ∧ doesIs (.rollbackComplete 0) (wRb []) (fun t => (qst t 0).st = 4)
    ∧ doesIs (.rollbackComplete 0) (wRb [(0, ck)]) (fun t => (qst t 0).st = 1 && t.car.ready.map (·.task.tid) = [9] && ofLe (Memory.bytes t.hbm.mem 0x50000 4) = 0x0908)
    ∧ doesIs (.dieFailed 0) (wS child) (fun t => t.car.failed = [0] && (devGet t 0xF00001500000).getLsbD 0 && (cc t).task.isNone) := by decide +kernel

/-! ## The engines at work -/

/-- 16 rows of tensor 6, and its line: 3.0 in row 0, element 2. -/
def bindW : Binding := ⟨desc 0 + BitVec.ofNat 512 (2 ^ 500 + 8 * 2 ^ 152 + 2 ^ 472), 0x20000, 1⟩
def lineA : TLine := { tl .valid with rows := [(1, 0x400000003F800000)], pins := 1 }
def lineW : TLine := { tl .valid with id := 2, tile := ⟨0, 6, [0, 0, 0, 0, 0, 0]⟩, b := bindW, rows := [(0, BitVec.ofNat 2048 (0x40400000 * 2 ^ 64))], pins := 1 }
/-- Accumulator 5 holds 7 in rows 0 and 9, element 2. -/
def acc5 : Acc := { tag := .f32, rows := [(0, BitVec.ofNat 4096 (7 * 2 ^ 64)), (9, BitVec.ofNat 4096 (7 * 2 ^ 64))], busy := true }
def mc (op : Instr) (binds : List (Option Binding)) (pins : List Nat) : MCmd :=
  { id := 4, ctx := 0, tid := 1, queue := 0, asid := 0, op := op, vals := [0], binds := binds, accs := [5], pins := pins, parked := true }
def wMx (m : MCmd) : State :=
  let s := upd (wT 0 [lineA, lineW]) fun x => { x with acc := x.acc.set 5 acc5 }
  { s with eng := [(0, { m := [m], slot := 0 })] }
def mz : MCmd := mc (.mzero 5) [] []
def ml : MCmd := mc (.mld 5 op5 0x10) [some (bind5 0)] [1]
def mm : MCmd := mc (.mma 5 0 0 0 0 .dyn) [some (bind5 0), some bindW] [1, 2]
theorem met_MatrixStepsComputeAndRetire : (engOf (wMx mz) 0).slot = (wMx mz).clk / 2 ^ 10 % 2 ^ 6 ∧ (engOf w0 0).slot ≠ w0.clk / 2 ^ 10 % 2 ^ 6 ∧ (engOf (wMx mz) 0).m = [mz] ∧ faulted (wMx mz) (.mcmd 0 4) = false
    ∧ ((accOf (cc (wMx mz)) 5).rows.Pairwise fun p q => p.1 < q.1) ∧ (ctcLine (wMx ml) 0 1) = some lineA ∧ (ctcLine (wMx mm) 0 2) = some lineW
    ∧ tileFault (cc (wMx ml)) 8 ml 5 0x10 = none ∧ ldFmt (dTfmt (bind5 0).desc) = some .f32 ∧ (prodOf mm).map (fun p => (p.acc, p.ba, p.bw)) = some (5, some (bind5 0), some bindW)
    ∧ (prodOf mm).map (fun p => (prodFault (cc (wMx mm)) 8 p, decide (prodAFmt p ≠ .f64))) = some (none, true)
    ∧ mPinned (wMx ml) 0 ml (bind5 0) (ml.vals.map BitVec.toNat) = some lineA ∧ (prodOf mm).map (fun p => (mPinned (wMx mm) 0 mm (bind5 0) (p.ca.map Int.toNat), mPinned (wMx mm) 0 mm bindW (p.cw.map Int.toNat))) = some (some lineA, some lineW)
    ∧ (let s := wMx { mz with done := true, flags := 1 }; (mOf s 0 4).map (·.done) = some true ∧ liveIn s 0 1 = true) ∧ (mOf (wMx mz) 0 4).map (·.done) = some false
    ∧ (engOf { wMx mz with eng := [(0, { slot := 0 })] } 0).m = [] := by decide +kernel
def el (t : State) (r n : Nat) : Nat := accElem (cc t) 5 r n
theorem test_matrix : doesIs (.matrixSlotBoundary 0) { w0 with clk := 5 * 1024, dev := [(0xF00001340008, 0x830000000000)] } (fun t => (engOf t 0).slot = 5 && (engOf t 0).own = some 3)
    ∧ doesIs (.matrixKstep 0) (wMx mz) (fun t => el t 0 2 = 0 && el t 9 2 = 7 && mOf t 0 4 = some { mz with parked := false, acc := 5, started := true, row := 1 })
    ∧ doesIs (.matrixKstep 0) (wMx { ml with row := 1 }) (fun t => el t 9 0 = 0x3F800000 && el t 9 1 = 0x40000000 && el t 9 2 = 0 && el t 0 2 = 7)
    ∧ doesIs (.matrixKstep 0) (wMx mm) (fun t => el t 1 2 = 0x40400000 && el t 0 2 = 7 && el t 9 2 = 7 && (mOf t 0 4).map (fun k => (k.kstep, k.done)) = some (1, false))
    ∧ doesIs (.matrixKstep 0) (wMx { mm with kstep := 1 }) (fun t => el t 1 2 = 0) ∧ doesIs (.matrixKstep 0) (wMx { mm with kstep := 15 }) (fun t => (mOf t 0 4).map (·.done) = some true)
    ∧ doesIs (.matrixRetire 0 4) (wMx { mz with done := true, flags := 1 }) (fun t => (engOf t 0).m = [] && !(accOf (cc t) 5).busy && (accOf (cc t) 5).tag = .zero && (cc t).fflags = 1) := by decide +kernel

/-- A copy of 16 bytes from VA 0x10000 to VA 0x10010, one row, no record; its packets of 1 KiB. -/
def cb : List Byte := leBytes (0x10000 + 0x10010 * 2 ^ 64 + 16 * 2 ^ 192 + 2 ^ 224) 64
def cp (kind : Nat) (blk : Option (List Byte)) : XCmd := { xk kind 0 blk with ev := 2, cmdno := 0 }
def wCp (k : XCmd) : State := let s := wX k []; { s with hbm := (wM 0).hbm }
/-- The parts of a packet's move each go through: its bytes are read clean and its one target is translated. -/
def moves (k : XCmd) (bs : List Byte) (pa : Nat) : Bool :=
  match packetSrc (xWho 0 k) k cb 16 (given (wCp k) (.copyPacket 0 1)) with
  | (.ok (b, psn), s0) => match eTargets (xWho 0 k) 2 (cutsAt 512 0x10010 16) s0 with
    | (.ok ts, s1) => match ePut (xWho 0 k) ts (bs.map some) false s1 with
      | (.ok (), _) => b = bs && psn = List.replicate 16 false && ts = [(0, pa, 0, 0, 16)] && !bsuOn s1 && s1.pkg = 0
      | _ => false
    | _ => false
  | _ => false
def wrote (k : XCmd) (va : Nat) (out : List Byte) : Bool :=
  match eWrite (xWho 0 k) va out 2 (given (wCp k) (.xCommandComplete 0 1)) with | (.ok (), s1) => s1.eng = (wCp k).eng && s1.ctx = (wCp k).ctx | _ => false
def rcd : XCmd := { cp 4 none with got := some (leBytes 9 8) }
theorem met_CopiesMoveAndCommandsComplete : xOf (wCp (cp 0 none)) 0 1 = some (cp 0 none) ∧ faulted (wCp (cp 0 none)) (.xcmd 0 1) = false ∧ copied (cp 0 (some cb)) = false
    ∧ cDstRow 0 cb 0 + 0 = 0x10010 ∧ packetLen cb 0 0x10010 = 16
    ∧ moves (cp 0 (some cb)) ((List.range 16).map (BitVec.ofNat 8)) 0x50010 = true ∧ hostVisible 0x50010 0 = false
    ∧ copied { cp 2 (some cb) with row := 1 } = true ∧ xFinished rcd = true ∧ xWrites rcd = some (0x10000, leBytes 9 8) ∧ wrote rcd 0x10000 (leBytes 9 8) = true
    ∧ xFinished { cp 0 (some cb) with row := 1 } = true ∧ xWrites { cp 0 (some cb) with row := 1 } = none ∧ xWrites { cp 9 none with cancel := true } = none ∧ xFinished (cp 4 none) = false
    ∧ liveIn (wCp rcd) 0 1 = true := by decide +kernel
theorem test_copies : doesIs (.copyPacket 0 1) { wCp (cp 0 none) with hbm := { (wM 0).hbm with mem := cells 0x50000 64 (ofLe cb) } } (fun t => (xOf t 0 1).bind (·.blk) = some cb)
    ∧ doesIs (.copyPacket 0 1) (wCp (cp 0 (some cb))) (fun t => Memory.bytes t.hbm.mem 0x50010 16 = (List.range 16).map (BitVec.ofNat 8) && (xOf t 0 1).map (fun k => (k.row, k.done)) = some (1, 16))
    ∧ doesIs (.xremoteTaken 0 1) (wCp { cp 2 (some cb) with row := 1 }) (fun t => (xOf t 0 1).map (·.sent) = some (some 0))
    ∧ doesIs (.xCommandComplete 0 1) (wCp rcd) (fun t => (engOf t 0).x.isEmpty && (cc t).ev[2] = 1 && ofLe (Memory.bytes t.hbm.mem 0x50000 8) = 9)
    ∧ doesIs (.xCommandComplete 0 1) (wCp { cp 0 (some cb) with row := 1 }) (fun t => (engOf t 0).x.isEmpty && (cc t).ev[2] = 1)
    ∧ doesIs (.xCommandComplete 0 1) (wCp (cp 4 none)) (fun t => (engOf t 0).x.length = 1) := by decide +kernel

/-! ## Boot, registers, power -/

def img (ok : Bool) (fw : Word) : BootImg := { digest := [1, 2, 3], ok := [true, ok, true], fw := fw, cfg := [(0xF00001340000, 7)], cert := 0 }
/-- Nothing is left to do. -/
def wOff (f : Sys → Sys) : State := { State.reset with sys := f State.reset.sys }
/-- The step stops by a name. -/
def stopsWith (s : State) (f : Fault) : Bool := match step s with | .fault g => decide (g = f) | _ => false
theorem met_PackagesBootAndTrip : (∀ k, k < 3 → stageOk k (img true 5) = true) ∧ (¬ ∀ k, k < 3 → stageOk k (img false 5) = true)
    ∧ agenda (wOff fun y => { y with tripped := true }) = [] ∧ agenda (wOff fun y => { y with fail := true }) = [] := by decide +kernel
theorem test_boot : doesIs (.packageReset (img true 5) (img true 6)) w0 (fun t => t.sys.stage = 3 && t.sys.released && !t.sys.slot && t.sys.fw = 5 && (portOf t 19).state = 1 && (cc t).task.isNone && devGet t 0xF00001340000 = 7)
    ∧ doesIs (.packageReset (img false 5) (img true 6)) w0 (fun t => t.sys.slot && t.sys.fw = 6 && t.sys.released) ∧ doesIs (.packageReset (img false 5) (img false 6)) w0 (fun t => t.sys.fail && !t.sys.released)
    ∧ doesIs (.thermalThrottle 2 104) w0 (fun t => t.sys.throttled = [2] && (devGet t 0xF00001500000).getLsbD 6 && (devGet t 0xF00001500018).toNat / 2 ^ 16 % 256 = 104)
    ∧ doesIs (.thermalRecover 2 94) { w0 with sys := { w0.sys with throttled := [2] } } (fun t => t.sys.throttled = []) ∧ doesIs (.thermalTrip 0 115) w0 (fun t => t.sys.tripped)
    ∧ stopsWith (wOff fun y => { y with tripped := true }) .packageTripped ∧ stopsWith (wOff fun y => { y with fail := true }) .bootFailed := by
  decide +kernel

def wBy (b : Option Nat) (h : List Word) : State := { w0 with sys := { w0.sys with busy := b, held := h } }
/-- Die 1's pool of two frames at 0x50000 holds one; its far release list holds two. -/
def wPool (n : Nat) : State := { wM 0 with dev := [(0xF00001521100, 0x50000), (0xF00001521108, 2), (0xF00001521110, BitVec.ofNat 64 n), (0xF00001521150, 0x50010), (0xF00001521158, 4), (0xF00001521160, 2)] }
theorem met_RegistersAreWritten : w0.sys.busy = none ∧ (wBy (some 3) []).sys.busy = some 3 ∧ (0x2 : Nat) / 2 ^ 3 % 2 ^ 5 = 0 ∧ mayWrite (dieReg 1 0x18) .task = false ∧ mayWrite (dieReg 1 0x18) .mgmt = true
    ∧ (wPool 1).mmu.poolWait = [] ∧ reg32 (wPool 1) (dieReg 1 0x10) < reg32 (wPool 1) (dieReg 1 8) ∧ reg32 (wPool 2) (dieReg 1 8) ≤ reg32 (wPool 2) (dieReg 1 0x10)
    ∧ memOk (wPool 1) = true ∧ plainHbm (wPool 1) 0x50004 4 ∧ (0x50004 : Nat) / 65536 ≠ 0x77 ∧ reg32 (wPool 1) (dieReg 1 0x60) = 2 ∧ reg32 w0 (dieReg 1 0x60) = 0
    ∧ mayWrite 0xF00001340048 .mgmt = true ∧ plainMask 0xF00001340048 = some 0xFFFFFFFF ∧ mayWrite (dieReg 1 8) .task = false ∧ queueMask 0x48 = some 0x1FF ∧ mayWrite (qReg 3 0x48) .mgmt = true ∧ (qst w0 3).st = 0
    ∧ (qst (wQu fun x => { x with st := 1 }) 0).st ≠ 0 ∧ mayWrite (0xF00001000000 + 0x1000 * 3 + 0x10) .mgmt = true ∧ mayWrite 0xF00001500000 .mgmt = true := by unfold plainHbm; decide +kernel
theorem test_registers : doesIs (.atctlGo 0x4000000000000000 .mgmt) w0 (fun t => t.sys.busy = some 0) ∧ doesIs (.mrext 2 .mgmt) (wBy (some 3) []) (fun t => t.sys.held = [2])
    ∧ doesIs .attestationReportDone (wBy (some 3) []) (fun t => t.sys.busy = none && t.sys.report.isSome && (devGet t 0xF00001500100).getLsbD 61)
    ∧ doesIs (.fppush 1 0x77 .mgmt) (wPool 1) (fun t => reg32 t (dieReg 1 0x10) = 2 && ofLe (Memory.bytes t.hbm.mem 0x50004 4) = 0x77) ∧ doesIs (.fppush 1 0x77 .task) (wPool 1) (fun t => reg32 t (dieReg 1 0x10) = 1)
    ∧ doesIs (.fppush 1 0x77 .mgmt) (wPool 2) (fun t => reg32 t (dieReg 1 0x10) = 2 && (devGet t 0xF00001500000).getLsbD 7) ∧ doesIs (.frpop 1) (wPool 1) (fun t => reg32 t (dieReg 1 0x60) = 1)
    ∧ doesIs (.registerWrite 0xF00001340048 0x700000009 .mgmt) w0 (fun t => devGet t 0xF00001340048 = 9) ∧ doesIs (.registerWrite (dieReg 1 8) 9 .task) w0 (fun t => t.dev = w0.dev)
    ∧ doesIs (.registerWrite (qReg 3 0x48) 0x7FF .mgmt) w0 (fun t => devGet t (qReg 3 0x48) = 0x1FF) ∧ doesIs (.registerWrite 0xF00001003010 5 .mgmt) w0 (fun t => (chan t 3).hecor = 5)
    ∧ doesIs (.registerWrite 0xF00001500000 4 .mgmt) { w0 with dev := [(0xF00001500000, 12)] } (fun t => devGet t 0xF00001500000 = 8) := by decide +kernel

/-- Unit u in a state, with its tolerance, idle since clock 0. -/
def wPw (u ltr clk : Nat) (x : PwUnit) : State := { State.reset with clk := clk, dev := [(ltrReg u, BitVec.ofNat 64 ltr)], sys := { State.reset.sys with unit_ := [(u, x)] } }
theorem met_PowerFollowsTolerance : unitAt 0xF00001500208 = some 1 ∧ unitAt 0xF00001500004 = none ∧ (pwState 1 1).map (fun p => (p.ns, p.clocks)) = some (50, 95) ∧ (49 : Nat) < 50
    ∧ (pwNext (wPw 1 60 4096 { idle := some 0 }) 1).map (·.code) = some 1 ∧ pwNext (wPw 1 60 4095 { idle := some 0 }) 1 = none ∧ (pwNext (wPw 1 5000 (2 ^ 20) { idle := some 0 }) 1).map (·.code) = some 2
    ∧ (pwNext (wPw 30 3000 (2 ^ 18) {}) 30).map (·.code) = some 2 ∧ (pwNext (wPw 40 2000 (2 ^ 20) { idle := some 0 }) 40).map (·.code) = some 1
    ∧ (unitOf (wPw 1 60 5 { st := 3 }) 1).waking = none ∧ (pwState 1 3).isSome = true ∧ (unitOf (wPw 1 60 5 { st := 1, waking := some 5 }) 1).waking = some 5 := by decide +kernel
theorem test_power : doesIs (.pwltrWrite 0xF00001500208 49 .mgmt) (wPw 1 60 5 { st := 1 }) (fun t => devGet t 0xF00001500208 = 49 && (unitOf t 1).waking = some 100)
    ∧ doesIs (.pwltrWrite 0xF00001500208 50 .mgmt) (wPw 1 60 5 { st := 1 }) (fun t => (unitOf t 1).waking = none) ∧ doesIs (.powerDwellExpiry 1) (wPw 1 60 4096 { idle := some 0 }) (fun t => (unitOf t 1).st = 1)
    ∧ doesIs (.powerDwellExpiry 1) { wPw 1 5000 (2 ^ 20) { idle := some 0 } with l1d := [(8, { lines := [(0xA00, line0 w0)] })] } (fun t => (unitOf t 1).st = 2 && (l1Of t 8).lines.isEmpty)
    ∧ doesIs (.powerDwellExpiry 30) (wPw 30 3000 (2 ^ 18) {}) (fun t => unitOf t 30 = { st := 2, idle := some (2 ^ 18) })
    ∧ doesIs (.powerWake 1) (wPw 1 60 5 { st := 2 }) (fun t => (unitOf t 1).waking = some 9505) ∧ doesIs (.powerWake 1) (wPw 1 60 5 { st := 3 }) (fun t => (unitOf t 1).waking = none)
    ∧ doesIs (.wakeComplete 1) (wPw 1 60 5 { st := 1, waking := some 5 }) (fun t => unitOf t 1 = {}) ∧ doesIs (.wakeComplete 1) (wPw 1 60 4 { st := 1, waking := some 5 }) (fun t => (unitOf t 1).st = 1) := by decide +kernel

/-! ## Encodings -/

theorem met_SyllablesDecodeToWhatWasEncoded : (Instr.add 3 1 2 0).wf = true ∧ slotOf (.add 3 1 2 0) = some .S
    ∧ (Instr.add 3 1 2 0).syl.map (fun y => (y.word, decide (portsOk (loneTmpl .S (.add 3 1 2 0)) .S (.add 3 1 2 0) = true))) = some (0x000C1080, true) := by decide +kernel

end Sys2Proof.Tests
end

section
/-! PROOF. Every step keeps every memory in the canonical form (O8).

`memOk` reads three fields of the state: the memory of the HBM, the mailboxes, and the memories beyond the CXL ports. Ten
functions write them (`chanWrite`, `killBlock`, `farWriteSec`, `killFar`, `expand`, `mboxDone`, `cxlDone`, `undoLine`,
`clearCluster`, `resetKeep`), each through the operations of `Memory` that keep its canonical form, or as reset leaves them.
Every other function of the machine that gives a state changes other fields or calls such functions. So there is one lemma per
function, in the order of the model, and each is put together from the lemmas of the functions that it calls: `memOk_f` where `f` gives a state, alone or last in a tuple,
`someOk_f` where it gives an option, `outOk_f` where it gives an outcome, and `keeps_f` where it is a computation over the
state. -/
namespace Sys2Proof.Machine

/-! ### The memories of a state -/

theorem memOk_iff {s : State} : memOk s = true ↔
    Memory.wf s.hbm.mem = true ∧ Memory.wf s.mbox = true ∧ (s.far.all fun e => Memory.wf e.2) = true := by
  unfold memOk
  rw [Bool.and_eq_true, Bool.and_eq_true, and_assoc]

theorem memOk_hbmMem {s : State} (h : memOk s = true) : Memory.wf s.hbm.mem = true := (memOk_iff.mp h).1
theorem memOk_mbox {s : State} (h : memOk s = true) : Memory.wf s.mbox = true := (memOk_iff.mp h).2.1

/-- A new memory in the HBM. -/
theorem memOk_setMem {s : State} (h : memOk s = true) {m : Memory} (hm : Memory.wf m = true)
    {live poison ch dead replies} : memOk { s with hbm := ⟨m, live, poison, ch, dead, replies⟩ } = true := by
  obtain ⟨-, hmbox, hfar⟩ := memOk_iff.mp h
  exact memOk_iff.mpr ⟨hm, hmbox, hfar⟩

/-- A new memory of the mailboxes. -/
theorem memOk_setMbox {s : State} (h : memOk s = true) {m : Memory} (hm : Memory.wf m = true) {mboxW} :
    memOk { s with mbox := m, mboxW := mboxW } = true := by
  obtain ⟨hmem, -, hfar⟩ := memOk_iff.mp h
  exact memOk_iff.mpr ⟨hmem, hm, hfar⟩

theorem SMap.all_set {α : Type} {p : α → Bool} {m : SMap α} (h : m.all (fun e => p e.2) = true) {n : Nat} {v : α}
    (hv : p v = true) : (SMap.set m n v).all (fun e => p e.2) = true := by
  induction m with
  | nil => simp [SMap.set, hv]
  | cons e m ih =>
    obtain ⟨k, w⟩ := e
    rw [List.all_cons, Bool.and_eq_true] at h
    obtain ⟨hw, hm⟩ := h
    unfold SMap.set
    split
    · simp [hv, hm]
    · split
      · simp [hv, hw, hm]
      · simp [hw, ih hm]

theorem SMap.getD_of_all {α : Type} {p : α → Bool} {m : SMap α} (h : m.all (fun e => p e.2) = true) {n : Nat} {d : α}
    (hd : p d = true) : p (SMap.getD m n d) = true := by
  induction m with
  | nil => exact hd
  | cons e m ih =>
    obtain ⟨k, w⟩ := e
    rw [List.all_cons, Bool.and_eq_true] at h
    obtain ⟨hw, hm⟩ := h
    have hget := ih hm
    unfold SMap.getD SMap.get?
    split
    · exact hw
    · split
      · exact hd
      · exact hget

/-- A memory beyond a CXL port changed by a function that keeps its canonical form. -/
theorem memOk_modifyFar {s : State} (h : memOk s = true) {n : Nat} {f : Memory → Memory} {farPsn}
    (hf : ∀ m, Memory.wf m = true → Memory.wf (f m) = true) :
    memOk { s with far := SMap.modify s.far n [] f, farPsn := farPsn } = true := by
  obtain ⟨hmem, hmbox, hfar⟩ := memOk_iff.mp h
  exact memOk_iff.mpr ⟨hmem, hmbox, SMap.all_set hfar (hf _ (SMap.getD_of_all hfar Memory.wf_nil))⟩

/-! ### Reasoning rules -/

/-- An update of any fields but the three that hold memories. -/
theorem memOk_update {s : State} (h : memOk s = true) {ctx running farPsn mboxW l1d clc l1q mmu bsu svt hdm undo moves fab
    tiles eng car trace sys dev clk pkg cur free pending ev} :
    memOk (.mk ctx running s.hbm s.far farPsn s.mbox mboxW l1d clc l1q mmu bsu svt hdm undo moves fab tiles eng car trace
      sys dev clk pkg cur free pending ev) = true := h
/-- The same, where the HBM's fields other than its bytes change as well. -/
theorem memOk_updateHbm {s : State} (h : memOk s = true) {ctx running farPsn mboxW l1d clc l1q mmu bsu svt hdm undo moves fab
    tiles eng car trace sys dev clk pkg cur free pending ev live poison ch dead replies} :
    memOk (.mk ctx running (.mk s.hbm.mem live poison ch dead replies) s.far farPsn s.mbox mboxW l1d clc l1q mmu bsu svt
      hdm undo moves fab tiles eng car trace sys dev clk pkg cur free pending ev) = true := h

theorem memOk_ite {c : Prop} [Decidable c] {s t : State} (hs : memOk s = true) (ht : memOk t = true) :
    memOk (if c then s else t) = true := by
  split
  · exact hs
  · exact ht
theorem memOk_ite_snd {c : Prop} [Decidable c] {α : Type} {p q : α × State} (hp : memOk p.2 = true) (hq : memOk q.2 = true) :
    memOk (if c then p else q).2 = true := by
  split
  · exact hp
  · exact hq
theorem memOk_ite_snd_snd {c : Prop} [Decidable c] {α β : Type} {p q : α × β × State} (hp : memOk p.2.2 = true)
    (hq : memOk q.2.2 = true) : memOk (if c then p else q).2.2 = true := by
  split
  · exact hp
  · exact hq
theorem memOk_eq {s t : State} (h : memOk s = true) (e : s = t) : memOk t = true := e ▸ h
theorem memOk_snd {α : Type} {p q : α × State} (h : memOk p.2 = true) (e : p = q) : memOk q.2 = true := e ▸ h
theorem memOk_snd_snd {α β : Type} {p q : α × β × State} (h : memOk p.2.2 = true) (e : p = q) : memOk q.2.2 = true :=
  e ▸ h

theorem memOk_foldl {α : Type} {f : State → α → State} {s : State} (h : memOk s = true)
    (hf : ∀ s a, memOk s = true → memOk (f s a) = true) {l : List α} : memOk (l.foldl f s) = true := by
  induction l generalizing s with
  | nil => exact h
  | cons a l ih => exact ih (hf s a h)

theorem memOk_foldl_snd {α β : Type} {f : β × State → α → β × State} {p : β × State} (h : memOk p.2 = true)
    (hf : ∀ p a, memOk p.2 = true → memOk (f p a).2 = true) {l : List α} : memOk (l.foldl f p).2 = true := by
  induction l generalizing p with
  | nil => exact h
  | cons a l ih => exact ih (hf p a h)
theorem memOk_foldl_snd_snd {α β γ : Type} {f : β × γ × State → α → β × γ × State} {p : β × γ × State}
    (h : memOk p.2.2 = true) (hf : ∀ p a, memOk p.2.2 = true → memOk (f p a).2.2 = true) {l : List α} :
    memOk (l.foldl f p).2.2 = true := by
  induction l generalizing p with
  | nil => exact h
  | cons a l ih => exact ih (hf p a h)

/-- An option whose value, where there is one, holds a state with canonical memories: `st` reads that state. -/
def SomeOk {α : Type} (st : α → State) (o : Option α) : Prop := ∀ a, o = some a → memOk (st a) = true

theorem someOk_none {α : Type} {st : α → State} : SomeOk st none := by rintro a ⟨⟩
theorem someOk_some {α : Type} {st : α → State} {a : α} (h : memOk (st a) = true) : SomeOk st (some a) := by
  rintro b ⟨⟩
  exact h
theorem someOk_ite {c : Prop} [Decidable c] {α : Type} {st : α → State} {o p : Option α} (ho : SomeOk st o)
    (hp : SomeOk st p) : SomeOk st (if c then o else p) := by
  split
  · exact ho
  · exact hp
theorem someOk_map {α β : Type} {st : β → State} {f : α → β} (h : ∀ a, memOk (st (f a)) = true) {o : Option α} :
    SomeOk st (o.map f) := by
  cases o with
  | none => exact someOk_none
  | some a => exact someOk_some (h a)
theorem someOk_mapState {β : Type} {st : β → State} {f : State → β} {o : Option State} (ho : SomeOk id o)
    (h : ∀ s, memOk s = true → memOk (st (f s)) = true) : SomeOk st (o.map f) := by
  cases o with
  | none => exact someOk_none
  | some s => exact someOk_some (h s (ho s rfl))
theorem someOk_orElse {α : Type} {st : α → State} {o p : Option α} (ho : SomeOk st o) (hp : SomeOk st p) :
    SomeOk st (o <|> p) := by
  cases o with
  | none => exact hp
  | some a => exact ho
theorem someOk_findSome {α β : Type} {st : β → State} {f : α → Option β} (h : ∀ a, SomeOk st (f a)) {l : List α} :
    SomeOk st (l.findSome? f) := by
  intro b hb
  obtain ⟨a, -, ha⟩ := List.exists_of_findSome?_eq_some hb
  exact h a b ha

theorem memOk_getD {o : Option State} {s : State} (ho : SomeOk id o) (h : memOk s = true) : memOk (o.getD s) = true := by
  cases o with
  | none => exact h
  | some a => exact ho a rfl

/-- An outcome whose next state, where there is one, has canonical memories. -/
def OutOk (o : Host.Outcome State Fault Refusal) : Prop := ∀ t, o = .next t → memOk t = true

theorem outOk_next {s : State} (h : memOk s = true) : OutOk (.next s) := by
  rintro t ⟨⟩
  exact h
theorem outOk_ite {c : Prop} [Decidable c] {o p : Host.Outcome State Fault Refusal} (ho : OutOk o) (hp : OutOk p) :
    OutOk (if c then o else p) := by
  split
  · exact ho
  · exact hp

/-- A computation over the state that keeps the memories canonical, also where it throws. `M` and `EM` are of this form. -/
def Keeps {ε α : Type} (m : ExceptT ε (StateM State) α) : Prop := ∀ s, memOk s = true → memOk (m s).2 = true

theorem keeps_pure {ε α : Type} (a : α) : Keeps (pure a : ExceptT ε (StateM State) α) := fun _ h => h
theorem keeps_throw {ε α : Type} (e : ε) : Keeps (throw e : ExceptT ε (StateM State) α) := fun _ h => h
theorem keeps_set {ε : Type} {t : State} (h : memOk t = true) : Keeps (set t : ExceptT ε (StateM State) PUnit) := fun _ _ => h
theorem keeps_modify {ε : Type} {f : State → State} (h : ∀ s, memOk s = true → memOk (f s) = true) :
    Keeps (modify f : ExceptT ε (StateM State) PUnit) := h
theorem keeps_get {ε : Type} : Keeps (get : ExceptT ε (StateM State) State) := fun _ h => h
theorem keeps_bind {ε α β : Type} {m : ExceptT ε (StateM State) α} {f : α → ExceptT ε (StateM State) β}
    (hm : Keeps m) (hf : ∀ a, Keeps (f a)) : Keeps (m >>= f) := by
  intro s h
  have h2 := hm s h
  change memOk (ExceptT.bindCont f (m s).1 (m s).2).2 = true
  cases (m s).1 with
  | ok a => exact hf a _ h2
  | error e => exact h2
theorem keeps_get_bind {ε β : Type} {f : State → ExceptT ε (StateM State) β} (hf : ∀ s, memOk s = true → Keeps (f s)) :
    Keeps (get >>= f) := fun s h => hf s h s h
theorem keeps_forIn {ε α β : Type} {l : List α} {b : β} {f : α → β → ExceptT ε (StateM State) (ForInStep β)}
    (h : ∀ a b, Keeps (f a b)) : Keeps (forIn l b f) := by
  induction l generalizing b with
  | nil => exact keeps_pure b
  | cons a l ih =>
    rw [List.forIn_cons]
    refine keeps_bind (h a b) fun r => ?_
    cases r with
    | done b => exact keeps_pure b
    | yield b => exact ih
theorem keeps_foldlM {ε α β : Type} {l : List α} {b : β} {f : β → α → ExceptT ε (StateM State) β}
    (h : ∀ b a, Keeps (f b a)) : Keeps (l.foldlM f b) := by
  induction l generalizing b with
  | nil => exact keeps_pure b
  | cons a l ih =>
    rw [List.foldlM_cons]
    exact keeps_bind (h b a) fun b => ih
theorem keeps_ite {ε α : Type} {c : Prop} [Decidable c] {m n : ExceptT ε (StateM State) α} (hm : Keeps m) (hn : Keeps n) :
    Keeps (if c then m else n) := by
  split
  · exact hm
  · exact hn

/-! ### The functions of Machine/Hbm.lean -/

theorem memOk_devSet {s pa w} (hs : memOk s = true) : memOk (devSet s pa w) = true :=
  memOk_update hs

theorem memOk_irq {s bit} (hs : memOk s = true) : memOk (irq s bit) = true :=
  memOk_devSet hs

theorem memOk_draw {s} (hs : memOk s = true) : memOk (draw s).2 = true :=
  memOk_update hs

theorem memOk_actsAs {s mask w} (hs : memOk s = true) : memOk (actsAs s mask w).2 = true :=
  memOk_ite_snd hs (memOk_draw hs)

theorem memOk_cause {s ev} (hs : memOk s = true) : memOk (cause s ev) = true :=
  memOk_update hs

theorem memOk_causeIn {s lane ev} (hs : memOk s = true) : memOk (causeIn s lane ev) = true :=
  memOk_update hs

theorem memOk_setChan {s n f} (hs : memOk s = true) : memOk (setChan s n f) = true :=
  memOk_updateHbm hs

theorem memOk_activate {s pa} (hs : memOk s = true) : memOk (activate s pa) = true :=
  memOk_setChan hs

theorem memOk_setSnoop {s pa e} (hs : memOk s = true) : memOk (setSnoop s pa e) = true :=
  memOk_setChan hs

theorem memOk_undoLog {s q pa} (hs : memOk s = true) : memOk (undoLog s q pa) = true := by
  unfold undoLog
  split
  · exact hs
  · split
    · exact hs
    · exact memOk_ite hs (memOk_update hs)

theorem memOk_chanWrite {s q sec bs psn} (hs : memOk s = true) : memOk (chanWrite s q sec bs psn) = true := by
  have h : memOk (setChan (activate (undoLog s q (sec * 32)) (sec * 32)) (chanOf (sec * 32)) fun c =>
      { c with resv := c.resv.filter fun r => r.sector != sec }) = true :=
    memOk_setChan (memOk_activate (memOk_undoLog hs))
  exact memOk_ite hs (memOk_ite (memOk_updateHbm h) (memOk_ite (memOk_updateHbm h)
    (memOk_setMem (memOk_updateHbm h) (Memory.wf_store _ _ (memOk_hbmMem h)))))

theorem memOk_hostData {s gran d} (hs : memOk s = true) : memOk (hostData s gran d) = true := by
  unfold hostData
  split
  · exact hs
  · exact memOk_chanWrite (memOk_chanWrite hs)

theorem memOk_snoopRead {s pa} (hs : memOk s = true) : memOk (snoopRead s pa) = true := by
  unfold snoopRead
  split
  · exact memOk_ite (memOk_setSnoop (memOk_hostData hs)) hs
  · exact hs

theorem memOk_snoopInv {s pa} (hs : memOk s = true) : memOk (snoopInv s pa) = true := by
  unfold snoopInv
  split
  · exact memOk_setSnoop (memOk_hostData hs)
  · exact hs

theorem memOk_hbmWriteSec {s q sec bs psn} (hs : memOk s = true) : memOk (hbmWriteSec s q sec bs psn) = true :=
  memOk_chanWrite (memOk_snoopInv hs)

theorem memOk_hbmReadSec {s sec} (hs : memOk s = true) : memOk (hbmReadSec s sec).2.2 = true :=
  memOk_ite_snd_snd (memOk_activate (memOk_snoopRead hs))
    (memOk_ite_snd_snd (memOk_setChan (memOk_activate (memOk_snoopRead hs)))
      (memOk_ite_snd_snd (memOk_setChan (memOk_activate (memOk_snoopRead hs))) (memOk_activate (memOk_snoopRead hs))))

theorem memOk_hbmReadSecs {s sec k} (hs : memOk s = true) : memOk (hbmReadSecs s sec k).2.2 = true := by
  induction k generalizing s sec with
  | zero =>
    unfold hbmReadSecs
    exact hs
  | succ n ih =>
    unfold hbmReadSecs
    exact ih (memOk_hbmReadSec hs)

theorem memOk_hbmRead {s pa n} (hs : memOk s = true) : memOk (hbmRead s pa n).2.2 = true :=
  memOk_hbmReadSecs (sec := pa / 32) (k := (pa + n - 1) / 32 - pa / 32 + 1) hs

theorem memOk_hbmReadN {s pa n} (hs : memOk s = true) : memOk (hbmReadN s pa n).2.2 = true :=
  memOk_hbmRead hs

theorem memOk_hbmWrite {s q pa bs} (hs : memOk s = true) : memOk (hbmWrite s q pa bs) = true :=
  memOk_ite hs (memOk_foldl hs fun _ _ h => memOk_ite (memOk_hbmWriteSec h) h)

theorem memOk_hbmPut {s q pa bs} (hs : memOk s = true) : memOk (hbmPut s q pa bs) = true :=
  memOk_hbmWrite hs

theorem memOk_hbmPutN {s q pa n x} (hs : memOk s = true) : memOk (hbmPutN s q pa n x) = true :=
  memOk_hbmPut hs

theorem memOk_killBlock {s blk} (hs : memOk s = true) : memOk (killBlock s blk) = true :=
  memOk_setMem hs (Memory.wf_filter _ (memOk_hbmMem hs))

theorem memOk_dropResv {s blk} (hs : memOk s = true) : memOk (dropResv s blk) = true :=
  memOk_setChan hs

theorem memOk_reviveBlock {s blk} (hs : memOk s = true) : memOk (reviveBlock s blk) = true :=
  memOk_updateHbm (memOk_killBlock (memOk_dropResv hs))

theorem memOk_killFrame {s frame} (hs : memOk s = true) : memOk (killFrame s frame) = true :=
  memOk_foldl hs fun _ _ h => memOk_killBlock h

theorem memOk_zeroFrame {s frame} (hs : memOk s = true) : memOk (zeroFrame s frame) = true :=
  memOk_foldl hs fun _ _ h => memOk_reviveBlock h

theorem memOk_poisonFrame {s frame} (hs : memOk s = true) : memOk (poisonFrame s frame) = true :=
  memOk_updateHbm (memOk_zeroFrame hs)

theorem memOk_eccSec {s sec e} (hs : memOk s = true) : memOk (eccSec s sec e) = true := by
  unfold eccSec
  dsimp only
  split
  · exact hs
  · exact memOk_setChan hs
  · exact memOk_updateHbm (memOk_setChan hs)

/-! ### The functions of Machine/Mmu.lean -/

theorem memOk_farWriteSec {s key sec bs psn} (hs : memOk s = true) : memOk (farWriteSec s key sec bs psn) = true :=
  have h := memOk_modifyFar hs (n := key) (farPsn := s.farPsn) fun _ hm => Memory.wf_store (sec * 32) bs hm
  memOk_ite (memOk_update hs) (memOk_ite hs (memOk_ite (memOk_update h) h))

theorem memOk_farWrite {s cs h bs psn} (hs : memOk s = true) : memOk (farWrite s cs h bs psn) = true :=
  memOk_ite hs
    (memOk_foldl (memOk_foldl hs fun _ _ h => memOk_ite (memOk_farWriteSec h) h) fun _ _ h =>
      memOk_cause (memOk_update h))

theorem memOk_homeRead {s pa n} (hs : memOk s = true) : memOk (homeRead s pa n).2.2 = true := by
  unfold homeRead
  refine memOk_ite_snd_snd (memOk_hbmReadSecs hs) ?_
  split
  · exact hs
  · exact hs

theorem memOk_homeBytes {s pa n} (hs : memOk s = true) : memOk (homeBytes s pa n).2.2 = true := by
  unfold homeBytes
  refine memOk_ite_snd_snd (memOk_hbmRead hs) ?_
  split
  · exact hs
  · exact hs

theorem memOk_homeWrite {s cs q pa bs} (hs : memOk s = true) : memOk (homeWrite s cs q pa bs) = true := by
  unfold homeWrite
  refine memOk_ite (memOk_hbmWrite hs) ?_
  split
  · exact memOk_farWrite hs
  · exact hs

theorem memOk_homePoison {s cs q pa bs} (hs : memOk s = true) : memOk (homePoison s cs q pa bs) = true := by
  unfold homePoison
  refine memOk_ite hs (memOk_ite (memOk_foldl hs fun _ _ h => memOk_ite (memOk_hbmWriteSec h) h) ?_)
  split
  · exact memOk_farWrite hs
  · exact hs

theorem memOk_killFar {s frame} (hs : memOk s = true) : memOk (killFar s frame) = true := by
  unfold killFar
  split
  · exact memOk_modifyFar hs fun _ hm => Memory.wf_filter _ hm
  · exact hs

theorem someOk_pmem {s pa n} (hs : memOk s = true) : SomeOk (fun r => r.2.2) (pmem s pa n) := by
  unfold pmem
  refine someOk_ite (someOk_some (memOk_hbmReadN hs)) (someOk_map fun _ => ?_)
  exact hs

theorem memOk_ptePut {s q pte e} (hs : memOk s = true) : memOk (ptePut s q pte e) = true :=
  memOk_homeWrite hs

theorem someOk_poolTake {s d} (hs : memOk s = true) : SomeOk Prod.snd (poolTake s d) :=
  someOk_ite someOk_none
    (someOk_some (memOk_ite (memOk_irq (memOk_devSet (memOk_hbmReadN hs))) (memOk_devSet (memOk_hbmReadN hs))))

theorem someOk_poolAlloc {s d} (hs : memOk s = true) : SomeOk Prod.snd (poolAlloc s d) := by
  unfold poolAlloc
  split
  next e => exact someOk_some (someOk_poolTake hs _ e)
  · split
    next e => exact someOk_some (someOk_poolTake hs _ e)
    · split
      next e => exact someOk_some (someOk_poolTake hs _ e)
      · exact someOk_poolTake hs

theorem memOk_poolAdd {s d f} (hs : memOk s = true) : memOk (poolAdd s d f) = true :=
  memOk_ite (memOk_devSet (memOk_hbmPutN (memOk_killFrame hs))) (memOk_irq hs)

theorem memOk_farRelease {s d f} (hs : memOk s = true) : memOk (farRelease s d f) = true :=
  memOk_ite (memOk_irq (memOk_devSet (memOk_hbmPutN (memOk_killFar hs))))
    (memOk_devSet (memOk_hbmPutN (memOk_killFar hs)))

theorem memOk_slotMark {s d i free} (hs : memOk s = true) : memOk (slotMark s d i free) = true :=
  memOk_devSet (memOk_hbmPutN (memOk_hbmReadN hs))

theorem memOk_slotDrop {s pa} (hs : memOk s = true) : memOk (slotDrop s pa) = true := by
  unfold slotDrop
  dsimp only
  split
  · exact memOk_slotMark (memOk_update hs)
  · exact memOk_update hs

theorem wf_foldl_write {α : Type} {a : α → Nat} {b : α → Byte} {l : List α} {m : Memory} (h : Memory.wf m = true) :
    Memory.wf (l.foldl (fun m c => Memory.write m (a c) (b c)) m) = true := by
  induction l generalizing m with
  | nil => exact h
  | cons c l ih => exact ih (Memory.wf_write _ _ h)

theorem memOk_expand {s e frame} (hs : memOk s = true) : memOk (expand s e frame) = true := by
  unfold expand
  dsimp only
  split
  · have h : memOk (killFrame ((List.range 16).foldl (fun s i => dropResv s (frame * 16 + i)) s) frame) = true :=
      memOk_killFrame (memOk_foldl hs fun _ _ h => memOk_dropResv h)
    exact memOk_ite (memOk_setMem h (wf_foldl_write (memOk_hbmMem h))) (memOk_poisonFrame hs)
  · exact memOk_poisonFrame hs

theorem memOk_freeMoved {s m} (hs : memOk s = true) : memOk (freeMoved s m) = true :=
  memOk_ite (memOk_poolAdd hs) (memOk_ite (memOk_farRelease hs) (memOk_slotDrop hs))

theorem memOk_giveBack {s asid m} (hs : memOk s = true) : memOk (giveBack s asid m) = true := by
  unfold giveBack
  split
  · exact memOk_freeMoved hs
  · exact memOk_update hs

theorem memOk_tookNew {s asid m} (hs : memOk s = true) : memOk (tookNew s asid m) = true := by
  unfold tookNew
  split
  · exact hs
  · exact memOk_update hs

theorem memOk_movesEnd {s q} (hs : memOk s = true) : memOk (movesEnd s q) = true :=
  memOk_foldl (memOk_update hs) fun _ _ h => memOk_freeMoved h

theorem memOk_movesBack {s q} (hs : memOk s = true) : memOk (movesBack s q) = true :=
  memOk_foldl (memOk_update hs) fun _ _ h => memOk_freeMoved h

theorem memOk_fillPage {s asid e f} (hs : memOk s = true) : memOk (fillPage s asid e f) = true :=
  memOk_ite (memOk_zeroFrame hs) (memOk_giveBack (memOk_expand hs))

theorem memOk_unparkPte {s pte} (hs : memOk s = true) : memOk (unparkPte s pte) = true :=
  memOk_update hs

theorem memOk_poolServe {s w} (hs : memOk s = true) : memOk (poolServe s w) = true := by
  unfold poolServe
  refine memOk_ite hs ?_
  split
  · exact memOk_update hs
  next e => exact memOk_unparkPte (memOk_ptePut (memOk_fillPage (memOk_tookNew (someOk_poolAlloc hs _ e :))))

theorem memOk_poolPump {s} (hs : memOk s = true) : memOk (poolPump s) = true :=
  memOk_foldl (memOk_update hs) fun _ _ h => memOk_poolServe h

theorem memOk_poolPush {s d f} (hs : memOk s = true) : memOk (poolPush s d f) = true :=
  memOk_poolPump (memOk_poolAdd hs)

theorem memOk_walkFrom {s die asid va lvl t} (hs : memOk s = true) :
    memOk (walkFrom s die asid va lvl t).2 = true := by
  induction lvl generalizing s die asid va t with
  | zero =>
    unfold walkFrom
    dsimp only
    split
    · exact hs
    next e => exact (someOk_pmem hs _ e :)
  | succ n ih =>
    unfold walkFrom
    dsimp only
    split
    · exact ih hs
    · split
      · exact hs
      next e =>
        have h := someOk_pmem hs _ e
        exact memOk_ite_snd h (memOk_ite_snd (ih (memOk_update h)) h)

/-- The definition is unfolded as a function, without its arguments, so that the kernel does not evaluate the walk. -/
theorem memOk_walk {s die asid va} (hs : memOk s = true) : memOk (walk s die asid va).2 = true := by
  simp only [show @walk = delta% @walk from rfl]
  split
  · exact hs
  next e =>
    have h := someOk_pmem hs _ e
    exact memOk_ite_snd h (memOk_walkFrom h)

theorem memOk_tlbPut {s ag t} (hs : memOk s = true) : memOk (tlbPut s ag t) = true :=
  memOk_ite hs (memOk_update hs)

theorem memOk_park {s ag asid va pte} (hs : memOk s = true) : memOk (park s ag asid va pte) = true :=
  memOk_update hs

theorem memOk_unpark {s i} (hs : memOk s = true) : memOk (unpark s i) = true :=
  memOk_update hs

theorem memOk_firstTouch {s ag asid va e pte wr} (hs : memOk s = true) :
    memOk (firstTouch s ag asid va e pte wr).2 = true := by
  unfold firstTouch
  dsimp only
  split
  · exact memOk_irq (memOk_update (memOk_park (memOk_ptePut hs)))
  next e => exact memOk_tlbPut (memOk_ptePut (memOk_fillPage (memOk_tookNew (someOk_poolAlloc hs _ e :))))

theorem memOk_deadWrite {s e} (hs : memOk s = true) : memOk (deadWrite s e) = true :=
  memOk_foldl hs fun _ _ h => memOk_ite h (memOk_reviveBlock h)

theorem memOk_walkFor {s ag asid va acc} (hs : memOk s = true) : memOk (walkFor s ag asid va acc).2 = true := by
  unfold walkFor
  refine memOk_ite_snd hs ?_
  split
  next e => exact (memOk_snd (memOk_walk hs) e :)
  next e =>
    have h := memOk_snd (memOk_walk hs) e
    split
    · exact h
    · refine memOk_ite_snd (memOk_park h) ?_
      split
      · exact h
      · exact memOk_ite_snd (memOk_firstTouch h)
          (memOk_tlbPut (memOk_ite (memOk_ite (memOk_deadWrite h) h) (memOk_ptePut (memOk_ite (memOk_deadWrite h) h))))

theorem memOk_translate {s ag asid va acc} (hs : memOk s = true) : memOk (translate s ag asid va acc).2 = true := by
  unfold translate
  refine memOk_ite_snd hs ?_
  split
  · split
    · exact hs
    · exact memOk_ite_snd (memOk_walkFor hs) hs
  · exact memOk_walkFor hs

theorem memOk_dropXlat {s i} (hs : memOk s = true) : memOk (dropXlat s i) = true :=
  memOk_update hs

/-! ### The functions of Machine/Cache.lean -/

theorem memOk_setClcT {s cl l} (hs : memOk s = true) : memOk (setClcT s cl l) = true :=
  memOk_update hs

theorem memOk_beginWriteback {s cl l} (hs : memOk s = true) : memOk (beginWriteback s cl l) = true :=
  memOk_update (memOk_setClcT hs)

theorem someOk_clcDropTile {s cl} (hs : memOk s = true) : SomeOk id (clcDropTile s cl) := by
  unfold clcDropTile
  split
  · exact someOk_none
  · exact someOk_ite (someOk_some (memOk_setClcT hs)) (someOk_ite (someOk_some (memOk_beginWriteback hs)) someOk_none)

theorem memOk_setL1 {s core ln l} (hs : memOk s = true) : memOk (setL1 s core ln l) = true :=
  memOk_update hs

theorem memOk_setClc {s cl ln l} (hs : memOk s = true) : memOk (setClc s cl ln l) = true :=
  memOk_update hs

theorem memOk_clcWriteBackM {s cl ln m} (hs : memOk s = true) : memOk (clcWriteBackM s cl ln m) = true := by
  unfold clcWriteBackM
  split
  · exact hs
  · exact memOk_ite hs (memOk_setClc (memOk_homeWrite hs))

theorem memOk_clcWriteBack {s cl ln} (hs : memOk s = true) : memOk (clcWriteBack s cl ln) = true :=
  memOk_clcWriteBackM hs

theorem someOk_clcDropPlain {s cl} (hs : memOk s = true) : SomeOk id (clcDropPlain s cl) := by
  unfold clcDropPlain
  refine someOk_ite someOk_none (someOk_map fun _ => ?_)
  exact memOk_setClc (memOk_clcWriteBack (memOk_draw hs))

theorem someOk_clcEvict {s cl} (hs : memOk s = true) : SomeOk id (clcEvict s cl) :=
  someOk_ite (someOk_orElse (someOk_clcDropPlain (memOk_draw hs)) (someOk_clcDropTile (memOk_draw hs)))
    (someOk_orElse (someOk_clcDropTile (memOk_draw hs)) (someOk_clcDropPlain (memOk_draw hs)))

theorem someOk_clcMake {s cl lines segs tags k} (hs : memOk s = true) :
    SomeOk id (clcMake s cl lines segs tags k) := by
  induction k generalizing s cl lines segs tags with
  | zero =>
    unfold clcMake
    exact someOk_ite (someOk_some hs) someOk_none
  | succ n ih =>
    unfold clcMake
    refine someOk_ite (someOk_some hs) ?_
    split
    next e => exact ih (someOk_clcEvict hs _ e :)
    · exact someOk_none

theorem someOk_clcRoom {s cl lines segs tags} (hs : memOk s = true) : SomeOk id (clcRoom s cl lines segs tags) :=
  someOk_clcMake hs

theorem memOk_clcFill {s cl ln l} (hs : memOk s = true) : memOk (clcFill s cl ln l) = true := by
  unfold clcFill
  split
  next e => exact memOk_setClc (someOk_clcRoom hs _ e :)
  · exact hs

theorem memOk_clcEnsure {s cl ln} (hs : memOk s = true) : memOk (clcEnsure s cl ln).2 = true := by
  unfold clcEnsure
  dsimp only
  split
  · exact memOk_ite_snd hs (memOk_clcFill (memOk_homeRead (memOk_setClc (memOk_clcWriteBack hs))))
  · exact memOk_clcFill (memOk_homeRead hs)

theorem memOk_clcPut {s core cs q ln data m} (hs : memOk s = true) : memOk (clcPut s core cs q ln data m) = true :=
  memOk_ite (memOk_setClc (memOk_clcEnsure hs)) (memOk_homeWrite (memOk_clcEnsure hs))

theorem memOk_l1WriteBackM {s core ln m} (hs : memOk s = true) : memOk (l1WriteBackM s core ln m) = true := by
  unfold l1WriteBackM
  split
  · exact hs
  · exact memOk_ite hs (memOk_setL1 (memOk_ite (memOk_homeWrite hs) (memOk_clcPut hs)))

theorem memOk_l1WriteBack {s core ln} (hs : memOk s = true) : memOk (l1WriteBack s core ln) = true :=
  memOk_l1WriteBackM hs

theorem memOk_l1Fill {s core ln l} (hs : memOk s = true) : memOk (l1Fill s core ln l) = true := by
  unfold l1Fill
  refine memOk_ite (memOk_setL1 hs) (memOk_setL1 ?_)
  split
  · exact memOk_setL1 (memOk_l1WriteBack (memOk_draw hs))
  · exact memOk_draw hs

theorem memOk_clcMark {s core ln} (hs : memOk s = true) : memOk (clcMark s core ln) = true := by
  unfold clcMark
  split
  · exact memOk_ite hs (memOk_setClc hs)
  · exact hs

theorem memOk_l1Ensure {s core ln noClc} (hs : memOk s = true) : memOk (l1Ensure s core ln noClc).2 = true := by
  unfold l1Ensure
  dsimp only
  split
  · exact memOk_ite_snd hs
      (memOk_ite_snd (memOk_l1Fill (memOk_homeRead (memOk_setL1 (memOk_l1WriteBack hs))))
        (memOk_l1Fill (memOk_clcMark (memOk_clcEnsure (memOk_setL1 (memOk_l1WriteBack hs))))))
  · exact memOk_ite_snd (memOk_l1Fill (memOk_homeRead hs)) (memOk_l1Fill (memOk_clcMark (memOk_clcEnsure hs)))

theorem memOk_coreReadPiece {s core pa cp n} (hs : memOk s = true) :
    memOk (coreReadPiece s core pa cp n).2.2 = true :=
  memOk_ite_snd_snd (memOk_homeBytes hs) (memOk_ite_snd_snd (memOk_clcMark (memOk_clcEnsure hs)) (memOk_l1Ensure hs))

theorem memOk_coreWritePiece {s c core q pa cp bs} (hs : memOk s = true) :
    memOk (coreWritePiece s c core q pa cp bs) = true :=
  memOk_ite (memOk_homeWrite hs) (memOk_ite (memOk_clcPut hs) (memOk_setL1 (memOk_l1Ensure hs)))

theorem memOk_coreRead {s core pa cp n} (hs : memOk s = true) : memOk (coreRead s core pa cp n).2.2 = true := by
  unfold coreRead
  refine memOk_ite_snd_snd hs (memOk_foldl_snd_snd hs fun _ _ h => ?_)
  exact memOk_coreReadPiece h

theorem memOk_coreWrite {s c core q pa cp bs} (hs : memOk s = true) : memOk (coreWrite s c core q pa cp bs) = true :=
  memOk_ite hs (memOk_foldl hs fun _ _ h => memOk_ite (memOk_coreWritePiece h) h)

theorem memOk_l1Flush {s core} (hs : memOk s = true) : memOk (l1Flush s core) = true :=
  memOk_foldl hs fun _ _ h => memOk_l1WriteBack h

theorem memOk_clcFlush {s core} (hs : memOk s = true) : memOk (clcFlush s core) = true :=
  memOk_foldl hs fun _ _ h => memOk_ite (memOk_clcWriteBack h) h

theorem memOk_releaseAt {s core scope} (hs : memOk s = true) : memOk (releaseAt s core scope) = true :=
  memOk_ite (memOk_clcFlush (memOk_ite (memOk_l1Flush hs) hs)) (memOk_ite (memOk_l1Flush hs) hs)

theorem memOk_l1Wrap {s core} (hs : memOk s = true) : memOk (l1Wrap s core) = true :=
  memOk_update (memOk_l1Flush hs)

theorem memOk_clcWrap {s cl} (hs : memOk s = true) : memOk (clcWrap s cl) = true :=
  memOk_update (memOk_foldl hs fun _ _ h => memOk_clcWriteBack h)

theorem memOk_drainInvals {s core} (hs : memOk s = true) : memOk (drainInvals s core) = true :=
  memOk_update (memOk_foldl hs fun _ _ h => memOk_setClc (memOk_clcWriteBack (memOk_setL1 (memOk_l1WriteBack h))))

theorem memOk_acquireAt {s core scope} (hs : memOk s = true) : memOk (acquireAt s core scope) = true :=
  memOk_ite
    (memOk_update
      (memOk_ite
        (memOk_clcWrap
          (memOk_ite (memOk_update (memOk_ite (memOk_l1Wrap (memOk_drainInvals hs)) (memOk_drainInvals hs)))
            (memOk_drainInvals hs)))
        (memOk_ite (memOk_update (memOk_ite (memOk_l1Wrap (memOk_drainInvals hs)) (memOk_drainInvals hs)))
          (memOk_drainInvals hs))))
    (memOk_ite (memOk_update (memOk_ite (memOk_l1Wrap (memOk_drainInvals hs)) (memOk_drainInvals hs)))
      (memOk_drainInvals hs))

theorem memOk_flushOwn {s core pa} (hs : memOk s = true) : memOk (flushOwn s core pa) = true :=
  memOk_setClc (memOk_clcWriteBack (memOk_setL1 (memOk_l1WriteBack hs)))

theorem memOk_engineRead {s core pa n} (hs : memOk s = true) : memOk (engineRead s core pa n).2.2 = true := by
  unfold engineRead
  refine memOk_foldl_snd_snd hs fun _ _ h => ?_
  split
  · split
    · dsimp only
      split
      · exact h
      · split
        · exact h
        · exact memOk_homeBytes h

theorem memOk_queueInval {s core pa} (hs : memOk s = true) : memOk (queueInval s core pa) = true :=
  memOk_update hs

theorem memOk_engineWrite {s c core q pa bs psn} (hs : memOk s = true) :
    memOk (engineWrite s c core q pa bs psn) = true :=
  memOk_ite hs
    (memOk_foldl hs fun _ _ h =>
      memOk_queueInval
        (memOk_ite (memOk_homePoison (memOk_clcWriteBack (memOk_l1WriteBack h)))
          (memOk_homeWrite (memOk_clcWriteBack (memOk_l1WriteBack h)))))

/-! ### The functions of Machine/Operands.lean -/

theorem memOk_setCtx {s c x} (hs : memOk s = true) : memOk (setCtx s c x) = true :=
  memOk_update hs

theorem memOk_updCtx {s c f} (hs : memOk s = true) : memOk (updCtx s c f) = true :=
  memOk_setCtx hs

theorem memOk_upd {s f} (hs : memOk s = true) : memOk (upd s f) = true :=
  memOk_updCtx hs

theorem memOk_trFreeze {s core} (hs : memOk s = true) : memOk (trFreeze s core) = true := by
  unfold trFreeze
  split
  · exact memOk_update (memOk_devSet hs)
  · exact hs

theorem memOk_trRec {s c kind addr info} (hs : memOk s = true) : memOk (trRec s c kind addr info) = true :=
  memOk_ite (memOk_trFreeze (memOk_update (memOk_devSet hs))) hs

theorem memOk_trCtl {s c kind addr info} (hs : memOk s = true) : memOk (trCtl s c kind addr info) = true :=
  memOk_ite (memOk_trRec hs) hs

theorem memOk_trFire {s core n} (hs : memOk s = true) : memOk (trFire s core n) = true :=
  memOk_ite (memOk_trFreeze (memOk_update hs)) hs

theorem memOk_trCompare {s c bit va} (hs : memOk s = true) : memOk (trCompare s c bit va) = true :=
  memOk_ite (memOk_trFire hs) hs

theorem memOk_trMem {s c kind va lg} (hs : memOk s = true) : memOk (trMem s c kind va lg) = true :=
  memOk_trCompare (memOk_ite (memOk_trRec hs) hs)

theorem memOk_trOverlap {s d} (hs : memOk s = true) : memOk (trOverlap s d) = true := by
  unfold trOverlap
  refine memOk_ite ?_ hs
  split
  · exact hs
  · exact memOk_trRec hs
  · exact memOk_trRec (memOk_draw hs)

theorem memOk_emit {s d v fl bound} (hs : memOk s = true) : memOk (emit s d v fl bound) = true :=
  memOk_upd (memOk_trOverlap hs)

theorem memOk_emitS {s r v bound} (hs : memOk s = true) : memOk (emitS s r v bound) = true :=
  memOk_emit hs

/-! ### The functions of Machine/Fabric.lean -/

theorem memOk_setPort {s p f} (hs : memOk s = true) : memOk (setPort s p f) = true :=
  memOk_update hs

theorem memOk_setGw {s d f} (hs : memOk s = true) : memOk (setGw s d f) = true :=
  memOk_update hs

theorem memOk_portQueue {s p k} (hs : memOk s = true) : memOk (portQueue s p k) = true :=
  memOk_setPort hs

theorem memOk_gwEmit {s d k} (hs : memOk s = true) : memOk (gwEmit s d k) = true :=
  memOk_portQueue (memOk_setGw hs)

theorem memOk_gwSend {s d k} (hs : memOk s = true) : memOk (gwSend s d k).2 = true :=
  memOk_ite (memOk_setGw (memOk_update hs)) (memOk_gwEmit (memOk_update hs))

theorem memOk_gwPump {s d k} (hs : memOk s = true) : memOk (gwPump s d k) = true := by
  induction k generalizing s d with
  | zero =>
    unfold gwPump
    exact hs
  | succ n ih =>
    unfold gwPump
    split
    · exact memOk_ite hs (ih (memOk_gwEmit (memOk_setGw hs)))
    · exact hs

theorem memOk_gwReply {s d k} (hs : memOk s = true) : memOk (gwReply s d k) = true :=
  memOk_portQueue hs

theorem memOk_remoteWriteBy {s die c pkg pa bs psn} (hs : memOk s = true) :
    memOk (remoteWriteBy s die c pkg pa bs psn) = true :=
  memOk_ite hs (memOk_foldl hs fun _ _ h => memOk_ite (memOk_gwSend h) h)

theorem memOk_remoteWrite {s c pkg pa bs psn} (hs : memOk s = true) : memOk (remoteWrite s c pkg pa bs psn) = true :=
  memOk_remoteWriteBy hs

/-! ### The functions of Machine/Caravan.lean -/

theorem memOk_setQ {s q f} (hs : memOk s = true) : memOk (setQ s q f) = true :=
  memOk_update hs

theorem memOk_carAsk {s die pkg pa n va} (hs : memOk s = true) : memOk (carAsk s die pkg pa n va).2 = true := by
  unfold carAsk
  split
  · split
    · split
      · exact hs
      · exact hs
    · exact memOk_update (memOk_gwSend hs)

theorem memOk_carDone {s} (hs : memOk s = true) : memOk (carDone s) = true :=
  memOk_update hs

theorem memOk_carRead1 {s die asid va n} (hs : memOk s = true) : memOk (carRead1 s die asid va n).2 = true := by
  unfold carRead1
  split
  next e => exact (memOk_snd (memOk_translate hs) e :)
  next e => exact (memOk_snd (memOk_translate hs) e :)
  next e =>
    have h := memOk_snd (memOk_translate hs) e
    exact memOk_ite_snd (memOk_carAsk h) (memOk_ite_snd (memOk_homeBytes h) h)

theorem memOk_carRead {s die asid va n} (hs : memOk s = true) : memOk (carRead s die asid va n).2 = true := by
  unfold carRead
  refine memOk_ite (memOk_foldl_snd hs fun _ _ h => ?_) (memOk_carDone (memOk_foldl_snd hs fun _ _ h => ?_))
  · split
    · split
      · split
        next e => exact (memOk_snd (memOk_carRead1 h) e :)
        · exact memOk_carRead1 h
      · exact h
  · split
    · split
      · split
        next e => exact (memOk_snd (memOk_carRead1 h) e :)
        · exact memOk_carRead1 h
      · exact h

theorem memOk_carWrite {s die asid q va b} (hs : memOk s = true) : memOk (carWrite s die asid q va b).2 = true := by
  unfold carWrite
  split
  next e => exact (memOk_snd (memOk_translate hs) e :)
  next e => exact (memOk_snd (memOk_translate hs) e :)
  next e =>
    have h := memOk_snd (memOk_translate hs) e
    exact memOk_ite_snd (memOk_remoteWriteBy h) (memOk_ite_snd (memOk_homeWrite h) h)

theorem memOk_effMask {s die q cmi} (hs : memOk s = true) : memOk (effMask s die q cmi).2.2 = true := by
  unfold effMask
  refine memOk_ite_snd_snd hs ?_
  dsimp only
  split
  next e => exact (memOk_snd (memOk_carRead hs) e :)
  next e => exact (memOk_snd (memOk_carRead hs) e :)

theorem memOk_readTask {s die q va handler} (hs : memOk s = true) : memOk (readTask s die q va handler).2 = true := by
  unfold readTask
  split
  next e => exact (memOk_snd (memOk_carRead hs) e :)
  next e => exact (memOk_snd (memOk_carRead hs) e :)
  next e =>
    have h := memOk_snd (memOk_carRead hs) e
    refine memOk_ite_snd (memOk_actsAs h) ?_
    split
    next e =>
      have h := memOk_snd_snd (memOk_effMask (memOk_actsAs h)) e
      exact memOk_ite_snd h h
    next e => exact (memOk_snd_snd (memOk_effMask (memOk_actsAs h)) e :)
    next e => exact (memOk_snd_snd (memOk_effMask (memOk_actsAs h)) e :)

theorem memOk_setFut {s k f} (hs : memOk s = true) : memOk (setFut s k f) = true :=
  memOk_update hs

theorem someOk_allocFut {s die handler f} (hs : memOk s = true) : SomeOk Prod.snd (allocFut s die handler f) := by
  unfold allocFut
  refine someOk_map fun _ => ?_
  exact memOk_setFut hs

theorem memOk_freeFut {s k} (hs : memOk s = true) : memOk (freeFut s k) = true :=
  memOk_setFut hs

theorem memOk_settle {s k} (hs : memOk s = true) : memOk (settle s k) = true := by
  unfold settle
  refine memOk_ite hs ?_
  split
  · exact memOk_freeFut hs
  · dsimp only
    split
    · exact memOk_ite (memOk_freeFut (memOk_update hs))
        (memOk_foldl (memOk_setFut (memOk_update hs)) fun _ _ h => memOk_cause h)
    · exact memOk_ite (memOk_setFut hs) (memOk_foldl (memOk_setFut hs) fun _ _ h => memOk_cause h)
  · exact hs

theorem memOk_futEnd {s h v} (hs : memOk s = true) : memOk (futEnd s h v) = true := by
  unfold futEnd
  split
  · exact hs
  · refine memOk_ite (memOk_setFut hs) ?_
    split
    · exact memOk_settle (memOk_setFut hs)
    · exact memOk_freeFut hs

theorem memOk_futStop {s h} (hs : memOk s = true) : memOk (futStop s h) = true := by
  unfold futStop
  split
  · exact hs
  · exact memOk_ite (memOk_setFut hs) (memOk_ite (memOk_setFut hs) (memOk_freeFut hs))

theorem memOk_dropHeld {s h} (hs : memOk s = true) : memOk (dropHeld s h) = true := by
  unfold dropHeld
  split
  · exact hs
  · exact memOk_ite (memOk_settle (memOk_setFut hs)) hs

theorem memOk_dropChildren {s tid} (hs : memOk s = true) : memOk (dropChildren s tid) = true :=
  memOk_ite hs (memOk_foldl hs fun _ _ h => memOk_settle (memOk_setFut h))

theorem memOk_placeOn {s t core} (hs : memOk s = true) : memOk (placeOn s t core) = true := by
  unfold placeOn
  split
  · exact memOk_setCtx hs
  · exact hs

theorem memOk_enterList {s t from_} (hs : memOk s = true) : memOk (enterList s t from_) = true :=
  memOk_update hs

theorem memOk_becomeReady {s t from_} (hs : memOk s = true) : memOk (becomeReady s t from_) = true := by
  unfold becomeReady
  split
  · exact memOk_ite (memOk_placeOn hs) (memOk_cause (memOk_enterList hs))
  · exact memOk_enterList hs

theorem memOk_newTid {s} (hs : memOk s = true) : memOk (newTid s).2 = true :=
  memOk_update hs

theorem memOk_giveUpWb {s m} (hs : memOk s = true) : memOk (giveUpWb s m) = true := by
  unfold giveUpWb
  split
  · exact memOk_update hs
  · exact hs

theorem memOk_dropFaults {s q} (hs : memOk s = true) : memOk (dropFaults s q) = true :=
  memOk_update
    (memOk_foldl (memOk_foldl hs fun _ _ h => memOk_foldl h fun _ _ h => memOk_giveUpWb h) fun _ _ h =>
      memOk_giveUpWb h)

theorem memOk_queueFail {s q} (hs : memOk s = true) : memOk (queueFail s q) = true :=
  memOk_ite hs
    (memOk_ite
      (memOk_cause (memOk_foldl (memOk_update (memOk_setQ (memOk_dropFaults hs))) fun _ _ h => memOk_cause h))
      (memOk_foldl (memOk_update (memOk_setQ (memOk_dropFaults hs))) fun _ _ h => memOk_cause h))

theorem memOk_spawnHandler {s die e p} (hs : memOk s = true) : memOk (spawnHandler s die e p) = true := by
  unfold spawnHandler
  dsimp only
  split
  next e => exact (memOk_snd (memOk_readTask hs) e :)
  next e => exact memOk_queueFail (memOk_snd (memOk_readTask hs) e :)
  next e => exact memOk_queueFail (memOk_snd (memOk_readTask hs) e :)
  next e =>
    have h := memOk_snd (memOk_readTask hs) e
    split
    · exact h
    next e => exact memOk_becomeReady (memOk_update (memOk_newTid (memOk_hbmPut (someOk_allocFut h _ e :))))

theorem memOk_sendRecord {s k p} (hs : memOk s = true) : memOk (sendRecord s k p) = true := by
  unfold sendRecord
  refine memOk_ite hs ?_
  split
  next e => exact memOk_setQ (memOk_update (memOk_snd (memOk_carWrite hs) e :))
  next e => exact (memOk_snd (memOk_carWrite hs) e :)
  next e => exact memOk_queueFail (memOk_snd (memOk_carWrite hs) e :)

theorem memOk_deliver {s k} (hs : memOk s = true) : memOk (deliver s k) = true := by
  unfold deliver
  split
  · exact hs
  · exact memOk_ite hs (memOk_ite (memOk_sendRecord hs) (memOk_spawnHandler hs))

theorem memOk_raiseFault {s die f} (hs : memOk s = true) : memOk (raiseFault s die f) = true := by
  unfold raiseFault
  refine memOk_ite hs (memOk_ite (memOk_queueFail hs) ?_)
  split
  · exact memOk_ite (memOk_hbmPutN (memOk_update hs)) (memOk_update hs)
  · split
    · exact memOk_deliver (memOk_update hs)
    · exact memOk_update hs

theorem memOk_pumpFaults {s} (hs : memOk s = true) : memOk (pumpFaults s) = true :=
  memOk_foldl (memOk_foldl (memOk_update hs) fun _ _ h => memOk_raiseFault h) fun _ _ h => memOk_deliver h

theorem memOk_applyResult {s k r} (hs : memOk s = true) : memOk (applyResult s k r) = true := by
  unfold applyResult
  split
  · exact hs
  · exact memOk_ite (memOk_pumpFaults (memOk_update hs))
      (memOk_queueFail (memOk_foldl (memOk_update hs) fun _ _ h => memOk_giveUpWb h))

/-! ### The functions of Machine/Dev.lean -/

theorem memOk_popFar {s d} (hs : memOk s = true) : memOk (popFar s d).2 = true :=
  memOk_ite_snd hs (memOk_devSet (memOk_hbmReadN hs))

theorem memOk_devRead {s pa} (hs : memOk s = true) : memOk (devRead s pa).2 = true :=
  memOk_ite_snd hs
    (memOk_ite_snd hs
      (memOk_ite_snd hs
        (memOk_ite_snd hs
          (memOk_ite_snd hs
            (memOk_ite_snd hs
              (memOk_ite_snd hs
                (memOk_ite_snd hs
                  (memOk_ite_snd hs
                    (memOk_ite_snd hs
                      (memOk_ite_snd (memOk_ite_snd (memOk_popFar hs) (memOk_ite_snd hs hs))
                        (memOk_ite_snd hs
                          (memOk_ite_snd hs
                            (memOk_ite_snd hs (memOk_ite_snd hs (memOk_ite_snd hs (memOk_ite_snd hs hs))))))))))))))))

/-! ### The functions of Machine/Ops.lean -/

theorem keeps_trapIf {b sub va akind} : Keeps (trapIf b sub va akind) :=
  keeps_ite (keeps_throw _) (keeps_pure _)

theorem keeps_blockIf {b} : Keeps (blockIf b) :=
  keeps_ite (keeps_throw _) (keeps_pure _)

theorem keeps_getC : Keeps (getC) :=
  keeps_get_bind fun _ _ => keeps_pure _

theorem keeps_modC {f} : Keeps (modC f) :=
  keeps_modify fun _ h => memOk_upd h

theorem memOk_svtLeave {s pkg c} (hs : memOk s = true) : memOk (svtLeave s pkg c) = true :=
  memOk_update hs

theorem memOk_takeTrap {s c sub va akind slot} (hs : memOk s = true) :
    memOk (takeTrap s c sub va akind slot) = true :=
  memOk_raiseFault (memOk_trRec (memOk_svtLeave (memOk_setCtx hs)))

theorem keeps_opTrap {b} : Keeps (opTrap b) :=
  keeps_trapIf

theorem memOk_meterFor {s core owner cls key tokens} (hs : memOk s = true) :
    memOk (meterFor s core owner cls key tokens).2 = true :=
  memOk_ite_snd hs (memOk_ite_snd hs (memOk_update hs))

theorem keeps_meter {key tokens} : Keeps (meter key tokens) :=
  keeps_get_bind fun _ h => keeps_bind (keeps_set (memOk_meterFor h)) fun _ => keeps_blockIf

theorem memOk_dropGrants {s owner lo n} (hs : memOk s = true) : memOk (dropGrants s owner lo n) = true :=
  memOk_update hs

theorem keeps_xlatAs {va acc ak} : Keeps (xlatAs va acc ak) := by
  unfold xlatAs
  refine keeps_get_bind fun _ h => keeps_bind (keeps_set (memOk_translate h)) fun _ => ?_
  split
  · exact keeps_pure _
  · exact keeps_throw _
  · exact keeps_throw _

theorem keeps_xlat {va acc} : Keeps (xlat va acc) :=
  keeps_xlatAs

theorem keeps_pieces {va n acc off k} : Keeps (pieces va n acc off k) := by
  induction k generalizing va n acc off with
  | zero =>
    unfold pieces
    exact keeps_pure _
  | succ n ih =>
    unfold pieces
    exact keeps_ite (keeps_pure _)
      (keeps_bind keeps_xlat fun _ => keeps_get_bind fun _ _ => keeps_bind keeps_trapIf fun _ =>
        keeps_bind ih fun _ => keeps_pure _)

theorem memOk_pinTask {s c} (hs : memOk s = true) : memOk (pinTask s c) = true :=
  memOk_updCtx hs

theorem keeps_pin : Keeps pin :=
  keeps_modify fun _ h => memOk_pinTask h

theorem keeps_outbound : Keeps outbound :=
  keeps_get_bind fun _ h =>
    keeps_ite (keeps_pure _)
      (keeps_ite (keeps_bind keeps_blockIf fun _ => keeps_pure _)
        (keeps_bind (keeps_set (memOk_setQ (memOk_upd h))) fun _ => keeps_throw _))

theorem memOk_sendFlush {s c pkg} (hs : memOk s = true) : memOk (sendFlush s c pkg).2 = true :=
  memOk_gwSend hs

theorem keeps_destEnter {pkg} : Keeps (destEnter pkg) := by
  unfold destEnter
  refine keeps_bind keeps_getC fun _ => keeps_ite keeps_modC (keeps_get_bind fun _ h => ?_)
  dsimp only
  split
  · exact keeps_ite
      (keeps_bind keeps_blockIf fun _ => keeps_bind (keeps_set (memOk_upd (memOk_sendFlush h))) fun _ => keeps_throw _)
      (keeps_throw _)
  · exact keeps_throw _

theorem memOk_mboxSend {s w} (hs : memOk s = true) : memOk (mboxSend s w) = true :=
  memOk_update hs

theorem keeps_startParts {ps} : Keeps (startParts ps) := by
  induction ps with
  | nil =>
    unfold startParts
    exact keeps_pure _
  | cons n l ih =>
    unfold startParts
    exact keeps_get_bind fun _ h =>
      keeps_ite
        (keeps_bind keeps_blockIf fun _ => keeps_bind (keeps_set (memOk_devRead h)) fun _ => keeps_bind ih fun _ =>
          keeps_pure _)
        (keeps_bind ih fun _ => keeps_pure _)

theorem keeps_loadOut {ps d ext akind bound acq} : Keeps (loadOut ps d ext akind bound acq) :=
  keeps_bind keeps_startParts fun _ => keeps_get_bind fun _ _ => keeps_bind keeps_blockIf fun _ =>
    keeps_modify fun _ h => memOk_upd (memOk_trOverlap h)

theorem memOk_updFlight {s c k f} (hs : memOk s = true) : memOk (updFlight s c k f) = true :=
  memOk_updCtx hs

theorem memOk_putPart {s c k i b psn} (hs : memOk s = true) : memOk (putPart s c k i b psn) = true := by
  unfold putPart
  dsimp only
  split
  · exact memOk_ite (memOk_dropGrants (memOk_updFlight hs)) (memOk_updFlight hs)
  · exact memOk_updFlight hs

theorem memOk_partMeter {s c f i p} (hs : memOk s = true) : memOk (partMeter s c f i p).2 = true :=
  memOk_meterFor hs

theorem memOk_samplePart {s c k i} (hs : memOk s = true) : memOk (samplePart s c k i) = true := by
  unfold samplePart
  split
  · exact hs
  · split
    · exact hs
    · refine memOk_ite hs ?_
      split
      · split
        next e => exact (memOk_snd (memOk_partMeter hs) e :)
        next e => exact memOk_updFlight (memOk_gwSend (memOk_snd (memOk_partMeter hs) e :))
      · refine memOk_ite hs (memOk_ite (memOk_ite hs (memOk_putPart hs)) ?_)
        split
        next e => exact (memOk_snd (memOk_partMeter hs) e :)
        next e => exact memOk_putPart (memOk_coreReadPiece (memOk_snd (memOk_partMeter hs) e :))

theorem memOk_acqReady {s c k f} (hs : memOk s = true) : memOk (acqReady s c k f).2 = true := by
  unfold acqReady
  refine memOk_foldl_snd hs fun _ _ h => ?_
  split
  · dsimp only
    split
    · exact h
    · exact memOk_ite_snd h (memOk_ite_snd h (memOk_ite_snd h (memOk_partMeter h)))

theorem memOk_sampleAcq {s c k} (hs : memOk s = true) : memOk (sampleAcq s c k) = true := by
  unfold sampleAcq
  split
  · exact hs
  · split
    · exact hs
    · split
      next e => exact (memOk_snd (memOk_acqReady hs) e :)
      next e =>
        refine memOk_updCtx
          (memOk_updFlight (memOk_foldl (memOk_acquireAt (memOk_snd (memOk_acqReady hs) e :)) fun _ _ h => ?_))
        dsimp only
        split
        · exact h
        · exact memOk_ite h (memOk_ite (memOk_putPart h) (memOk_putPart (memOk_coreReadPiece h)))

theorem memOk_sampleAll {s c} (hs : memOk s = true) : memOk (sampleAll s c) = true :=
  memOk_foldl hs fun _ _ h => memOk_sampleAcq (memOk_foldl h fun _ _ h => memOk_samplePart h)

theorem memOk_whenHere {s c f} (hs : memOk s = true) (hf : ∀ t, memOk t = true → memOk (f t) = true) :
    memOk (whenHere s c f) = true :=
  memOk_ite (hf _ hs) (memOk_updCtx (memOk_sampleAll hs))

theorem outOk_run {slot m s} (hm : Keeps m) (hs : memOk s = true) : OutOk (run slot m s) := by
  unfold run
  split
  next e => exact outOk_next (memOk_snd (hm _ hs) e :)
  next e => exact outOk_next (memOk_whenHere (memOk_snd (hm _ hs) e :) fun _ h => memOk_takeTrap h)
  next e => exact outOk_next (memOk_upd (memOk_snd (hm _ hs) e :))

theorem memOk_storeThrough {s core pa cp n scope} (hs : memOk s = true) :
    memOk (storeThrough s core pa cp n scope) = true :=
  memOk_ite hs
    (memOk_foldl hs fun _ _ h => memOk_ite (memOk_clcWriteBack (memOk_l1WriteBack h)) (memOk_l1WriteBack h))

theorem memOk_performPart {s c e} (hs : memOk s = true) : memOk (performPart s c e) = true :=
  memOk_storeThrough (memOk_coreWritePiece hs)

theorem memOk_drainPart {s c j} (hs : memOk s = true) : memOk (drainPart s c j) = true := by
  unfold drainPart
  split
  · exact hs
  · exact memOk_ite hs (memOk_performPart (memOk_updCtx hs))

theorem memOk_drainAll {s c} (hs : memOk s = true) : memOk (drainAll s c) = true :=
  memOk_foldl (memOk_updCtx hs) fun _ _ h => memOk_performPart h

theorem keeps_settleBytes {pkg pa n} : Keeps (settleBytes pkg pa n) :=
  keeps_bind
    (keeps_modify fun _ h =>
      memOk_ite (memOk_drainAll (memOk_ite (memOk_sampleAll h) h)) (memOk_ite (memOk_sampleAll h) h)) fun _ =>
    keeps_bind keeps_getC fun _ => keeps_blockIf

theorem keeps_settleLoads : Keeps (settleLoads) :=
  keeps_bind (keeps_modify fun _ h => memOk_sampleAll h) fun _ => keeps_bind keeps_getC fun _ => keeps_blockIf

theorem keeps_settleIssue : Keeps (settleIssue) :=
  keeps_bind (keeps_modify fun _ h => memOk_drainAll h) fun _ => keeps_settleLoads

theorem keeps_settleAll : Keeps (settleAll) :=
  keeps_bind keeps_settleIssue fun _ => keeps_get_bind fun _ _ => keeps_bind keeps_blockIf fun _ => keeps_blockIf

theorem keeps_remoteAsk {pkg addr len kind arg data va} : Keeps (remoteAsk pkg addr len kind arg data va) := by
  unfold remoteAsk
  refine keeps_get_bind fun _ h => ?_
  dsimp only
  split
  · split
    · exact keeps_throw _
    · exact keeps_ite (keeps_bind keeps_modC fun _ => keeps_bind (keeps_throw _) fun _ => keeps_pure _) (keeps_pure _)
  · exact keeps_bind (keeps_set (memOk_upd (memOk_gwSend h))) fun _ => keeps_throw _

theorem keeps_remoteRead {pkg va l} : Keeps (remoteRead pkg va l) := by
  induction l generalizing pkg va with
  | nil =>
    unfold remoteRead
    exact keeps_pure _
  | cons n l ih =>
    unfold remoteRead
    exact keeps_bind keeps_remoteAsk fun _ => keeps_bind ih fun _ => keeps_pure _

theorem keeps_readNow {p} : Keeps (readNow p) :=
  keeps_bind keeps_settleBytes fun _ => keeps_get_bind fun _ h =>
    keeps_ite (keeps_bind keeps_meter fun _ => keeps_remoteRead)
      (keeps_ite (keeps_pure _)
        (keeps_ite (keeps_bind keeps_blockIf fun _ => keeps_bind (keeps_set (memOk_devRead h)) fun _ => keeps_pure _)
          (keeps_bind keeps_meter fun _ => keeps_get_bind fun _ h =>
            keeps_bind (keeps_set (memOk_coreRead h)) fun _ => keeps_pure _)))

theorem keeps_readAllNow {ps} : Keeps (readAllNow ps) := by
  induction ps with
  | nil =>
    unfold readAllNow
    exact keeps_pure _
  | cons n l ih =>
    unfold readAllNow
    exact keeps_bind keeps_readNow fun _ => keeps_bind ih fun _ => keeps_pure _

theorem keeps_loadClean {va n} : Keeps (loadClean va n) :=
  keeps_bind keeps_pieces fun _ => keeps_bind keeps_readAllNow fun _ => keeps_bind keeps_trapIf fun _ => keeps_pure _

theorem keeps_storePiece {p whole bs through} : Keeps (storePiece p whole bs through) :=
  keeps_get_bind fun _ h =>
    keeps_ite (keeps_set (memOk_remoteWrite h))
      (keeps_ite (keeps_set (memOk_mboxSend h))
        (keeps_ite (keeps_set (memOk_upd (memOk_causeIn h)))
          (keeps_ite (keeps_set (memOk_storeThrough (memOk_coreWrite h))) (keeps_set (memOk_upd h)))))

theorem keeps_storeReady {p} : Keeps (storeReady p) :=
  keeps_bind keeps_settleBytes fun _ => keeps_get_bind fun _ _ =>
    keeps_ite (keeps_bind keeps_outbound fun _ => keeps_destEnter)
      (keeps_ite keeps_blockIf (keeps_ite keeps_outbound (keeps_pure _)))

theorem keeps_storeAll {va ps} : Keeps (storeAll va ps) :=
  keeps_bind (keeps_forIn fun _ _ => keeps_bind keeps_storeReady fun _ => keeps_pure _) fun _ =>
    keeps_get_bind fun _ _ => keeps_bind keeps_meter fun _ => keeps_modify fun _ h => memOk_ite (memOk_pinTask h) h

theorem keeps_storeMem {va bs} : Keeps (storeMem va bs) :=
  keeps_get_bind fun _ _ => keeps_bind keeps_blockIf fun _ => keeps_bind keeps_pieces fun _ =>
    keeps_bind keeps_storeAll fun _ =>
    keeps_bind (keeps_forIn fun _ _ => keeps_bind keeps_storePiece fun _ => keeps_pure _) fun _ => keeps_pure _

theorem keeps_flushDests : Keeps (flushDests) :=
  keeps_get_bind fun _ _ => keeps_bind keeps_blockIf fun _ =>
    keeps_ite (keeps_pure _)
      (keeps_ite (keeps_ite keeps_modC (keeps_throw _))
        (keeps_bind
          (keeps_forIn fun _ _ => keeps_get_bind fun _ h =>
            keeps_ite (keeps_bind (keeps_set (memOk_upd (memOk_sendFlush h))) fun _ => keeps_pure _) (keeps_pure _))
          fun _ => keeps_throw _))

theorem keeps_farWait {scope} : Keeps (farWait scope) :=
  keeps_bind keeps_getC fun _ => keeps_blockIf

theorem keeps_release {scope inv} : Keeps (release scope inv) :=
  keeps_bind keeps_getC fun _ => keeps_bind keeps_blockIf fun _ =>
    keeps_ite
      (keeps_bind keeps_settleAll fun _ => keeps_bind (keeps_modify fun _ h => memOk_releaseAt h) fun _ =>
        keeps_ite (keeps_bind keeps_flushDests fun _ => keeps_farWait) keeps_farWait)
      (keeps_bind (keeps_modify fun _ h => memOk_releaseAt h) fun _ =>
        keeps_ite (keeps_bind keeps_flushDests fun _ => keeps_farWait) keeps_farWait)

theorem keeps_acquire {scope} : Keeps (acquire scope) :=
  keeps_bind (keeps_modify fun _ h => memOk_acquireAt h) fun _ => keeps_modC

theorem memOk_setSvt {s die e} (hs : memOk s = true) : memOk (setSvt s die e) = true :=
  memOk_update hs

theorem memOk_svtAccess {s d sec pkg c} (hs : memOk s = true) : memOk (svtAccess s d sec pkg c).2 = true := by
  unfold svtAccess
  split
  · exact hs
  · exact memOk_ite_snd (memOk_setSvt hs)
      (memOk_ite_snd (memOk_setSvt hs) (memOk_ite_snd (memOk_setSvt hs) (memOk_cause (memOk_setSvt hs))))

theorem keeps_resolve {pkg pa scope} : Keeps (resolve pkg pa scope) := by
  unfold resolve
  refine keeps_ite (keeps_pure _)
    (keeps_get_bind fun _ h => keeps_ite (keeps_bind keeps_remoteAsk fun _ => keeps_pure _) ?_)
  split
  next e => exact keeps_bind (keeps_set (memOk_snd (memOk_svtAccess h) e :)) fun _ => keeps_pure _
  next e => exact keeps_bind (keeps_set (memOk_snd (memOk_svtAccess h) e :)) fun _ => keeps_throw _

theorem keeps_outS {d v bound} : Keeps (outS d v bound) :=
  keeps_modify fun _ h => memOk_emitS h

theorem keeps_outP {p b bound} : Keeps (outP p b bound) :=
  keeps_modify fun _ h => memOk_emit h

theorem keeps_outG {g v bound} : Keeps (outG g v bound) :=
  keeps_modify fun _ h => memOk_emit h

/-! ### The functions of Machine/Fetch.lean -/

theorem memOk_fetchBlock {s c} (hs : memOk s = true) : memOk (fetchBlock s c) = true := by
  unfold fetchBlock
  dsimp only
  split
  · exact hs
  · split
    next e => exact memOk_whenHere (memOk_dropGrants (memOk_snd (memOk_translate hs) e :)) fun _ h => memOk_takeTrap h
    next e => exact (memOk_snd (memOk_translate hs) e :)
    next e =>
      have h := memOk_snd (memOk_translate hs) e
      refine memOk_ite (memOk_ite (memOk_meterFor h) ?_)
        (memOk_ite (memOk_whenHere (memOk_dropGrants h) fun _ h => memOk_takeTrap h) ?_)
      · split
        next e =>
          have h := memOk_snd (keeps_remoteAsk _ (memOk_update (memOk_meterFor h))) e
          exact memOk_ite (memOk_whenHere (memOk_dropGrants (memOk_update h)) fun _ h => memOk_takeTrap h)
            (memOk_updCtx (memOk_dropGrants (memOk_update h)))
        next e =>
            exact memOk_whenHere
              (memOk_dropGrants (memOk_update (memOk_snd (keeps_remoteAsk _ (memOk_update (memOk_meterFor h))) e :)))
              fun _ h => memOk_takeTrap h
        next e => exact memOk_update (memOk_snd (keeps_remoteAsk _ (memOk_update (memOk_meterFor h))) e :)
      · split
        next e => exact (memOk_snd (memOk_meterFor h) e :)
        next e =>
          have h := memOk_snd (memOk_meterFor h) e
          exact memOk_ite
            (memOk_whenHere (memOk_dropGrants (memOk_ite_snd_snd (memOk_coreRead h) (memOk_coreRead h))) fun _ h =>
              memOk_takeTrap h)
            (memOk_updCtx (memOk_dropGrants (memOk_ite_snd_snd (memOk_coreRead h) (memOk_coreRead h))))

/-! ### The functions of Machine/Control.lean -/

theorem keeps_control {taken tgt link info} : Keeps (control taken tgt link info) := by
  unfold control
  refine keeps_bind keeps_getC fun _ => keeps_bind keeps_opTrap fun _ => ?_
  split
  · exact keeps_throw _
  · exact keeps_ite
      (keeps_bind keeps_outS fun _ => keeps_bind keeps_modC fun _ =>
        keeps_ite (keeps_modify fun _ h => memOk_trCtl h) (keeps_pure _))
      (keeps_bind keeps_modC fun _ => keeps_ite (keeps_modify fun _ h => memOk_trCtl h) (keeps_pure _))

theorem outOk_execBr {p neg off s} (hs : memOk s = true) : OutOk (execBr p neg off s) :=
  outOk_run keeps_control hs

theorem outOk_execBrc {p neg off c t s} (hs : memOk s = true) : OutOk (execBrc p neg off c t s) :=
  outOk_run keeps_control hs

theorem outOk_execCall {p neg off s} (hs : memOk s = true) : OutOk (execCall p neg off s) :=
  outOk_run keeps_control hs

theorem outOk_execCallr {a q s} (hs : memOk s = true) : OutOk (execCallr a q s) :=
  outOk_run keeps_control hs

theorem outOk_execRet {a q s} (hs : memOk s = true) : OutOk (execRet a q s) :=
  outOk_run keeps_control hs

theorem outOk_execJr {a q s} (hs : memOk s = true) : OutOk (execJr a q s) :=
  outOk_run keeps_control hs

theorem outOk_execLoop {c0 c1 c2 c3 levels off s} (hs : memOk s = true) :
    OutOk (execLoop c0 c1 c2 c3 levels off s) := by
  unfold execLoop
  refine outOk_run (keeps_bind keeps_getC fun _ => keeps_bind keeps_opTrap fun _ => ?_) hs
  dsimp only
  split
  · exact keeps_throw _
  · exact keeps_opTrap
  · exact keeps_modC

theorem outOk_execRing {f base len s} (hs : memOk s = true) : OutOk (execRing f base len s) :=
  outOk_run (keeps_bind keeps_getC fun _ => keeps_bind keeps_opTrap fun _ => keeps_modC) hs

theorem memOk_sysTrap {s sub va} (hs : memOk s = true) : memOk (sysTrap s sub va) = true :=
  memOk_whenHere hs fun _ h => memOk_takeTrap (memOk_setCtx h)

theorem outOk_execTrap {code s} (hs : memOk s = true) : OutOk (execTrap code s) :=
  outOk_next (memOk_sysTrap hs)

theorem outOk_execSvc {num s} (hs : memOk s = true) : OutOk (execSvc num s) :=
  outOk_next (memOk_sysTrap hs)

theorem outOk_execBrk {tag s} (hs : memOk s = true) : OutOk (execBrk tag s) :=
  outOk_next (memOk_whenHere hs fun _ h => memOk_takeTrap h)

theorem outOk_execEret {q s} (hs : memOk s = true) : OutOk (execEret q s) :=
  outOk_run
    (keeps_bind keeps_getC fun _ => keeps_bind keeps_opTrap fun _ =>
      keeps_ite
        (keeps_bind keeps_blockIf fun _ => keeps_bind keeps_modC fun _ => keeps_modify fun _ h => memOk_trCtl h)
        (keeps_pure _))
    hs

theorem outOk_execWfi {q s} (hs : memOk s = true) : OutOk (execWfi q s) := by
  unfold execWfi
  refine outOk_run (keeps_bind keeps_getC fun _ => keeps_ite ?_ (keeps_pure _)) hs
  split
  · exact keeps_bind keeps_modC fun _ => keeps_throw _
  · exact keeps_blockIf

theorem outOk_execNop {drain runLen _tmpl s} (hs : memOk s = true) : OutOk (execNop drain runLen _tmpl s) :=
  outOk_run (keeps_bind keeps_getC fun _ => keeps_bind keeps_blockIf fun _ => keeps_modC) hs

/-! ### The functions of Machine/Lines.lean -/

theorem memOk_setCtc {s core l} (hs : memOk s = true) : memOk (setCtc s core l) = true :=
  memOk_update hs

theorem memOk_newId {s} (hs : memOk s = true) : memOk (newId s).2 = true :=
  memOk_update hs

theorem memOk_updLine {s core id f} (hs : memOk s = true) : memOk (updLine s core id f) = true :=
  memOk_setCtc hs

theorem memOk_delLine {s core id} (hs : memOk s = true) : memOk (delLine s core id) = true :=
  memOk_setCtc hs

theorem memOk_useLine {s core id} (hs : memOk s = true) : memOk (useLine s core id) = true :=
  memOk_setCtc hs

theorem memOk_unpinLine {s core id n} (hs : memOk s = true) : memOk (unpinLine s core id n) = true :=
  memOk_setCtc (memOk_updLine hs)

theorem someOk_clcInstall {s cl l} (hs : memOk s = true) : SomeOk id (clcInstall s cl l) := by
  unfold clcInstall
  refine someOk_mapState (someOk_clcRoom (memOk_setClcT hs)) fun _ h => ?_
  exact memOk_setClcT (memOk_newId h)

/-! ### The functions of Machine/Save.lean -/

theorem memOk_imgRead {s t off n} (hs : memOk s = true) : memOk (imgRead s t off n).2 = true :=
  memOk_carRead hs

theorem memOk_imgWrite {s t off b k} (hs : memOk s = true) : memOk (imgWrite s t off b k).2 = true := by
  induction k generalizing s t off b with
  | zero =>
    unfold imgWrite
    exact hs
  | succ n ih =>
    unfold imgWrite
    refine memOk_ite_snd hs ?_
    split
    next e => exact ih (memOk_snd (memOk_carWrite hs) e :)
    · exact memOk_carWrite hs

theorem memOk_imgUpd {s t off n f} (hs : memOk s = true) : memOk (imgUpd s t off n f) = true := by
  unfold imgUpd
  split
  next e => exact memOk_carWrite (memOk_snd (memOk_imgRead hs) e :)
  next e => exact (memOk_snd (memOk_imgRead hs) e :)

theorem memOk_updSaved {s tid f} (hs : memOk s = true) : memOk (updSaved s tid f) = true :=
  memOk_update hs

theorem memOk_regsTo {s c tid f img} (hs : memOk s = true) (himg : ∀ t n, memOk t = true → memOk (img t n) = true) :
    memOk (regsTo s c tid f img) = true := by
  unfold regsTo
  refine memOk_ite (memOk_updCtx hs) ?_
  split
  · exact memOk_ite (memOk_updSaved hs) (himg _ _ hs)
  · exact hs

theorem memOk_flagsTo {s c tid fl} (hs : memOk s = true) : memOk (flagsTo s c tid fl) = true :=
  memOk_ite hs (memOk_regsTo hs fun _ _ h => memOk_imgUpd h)

theorem memOk_xstatTo {s c tid pc bits} (hs : memOk s = true) : memOk (xstatTo s c tid pc bits) = true :=
  memOk_regsTo hs fun _ _ h => memOk_imgUpd h

theorem memOk_countEv {s c tid e} (hs : memOk s = true) : memOk (countEv s c tid e) = true :=
  memOk_ite (memOk_regsTo hs fun _ _ h => memOk_imgUpd (memOk_imgUpd h))
    (memOk_updSaved (memOk_regsTo hs fun _ _ h => memOk_imgUpd (memOk_imgUpd h)))

theorem memOk_engineFault {s c tid core who q asid engine cmdno sub va akind tcmd} (hs : memOk s = true) :
    memOk (engineFault s c tid core who q asid engine cmdno sub va akind tcmd) = true :=
  memOk_ite hs
    (memOk_raiseFault (memOk_regsTo hs fun _ _ h => memOk_imgUpd (memOk_imgUpd (memOk_imgUpd (memOk_imgUpd h)))))

/-! ### The functions of Machine/Access.lean -/

theorem keeps_eFaultIf {b sub va ak} : Keeps (eFaultIf b sub va ak) :=
  keeps_ite (keeps_throw _) (keeps_pure _)

theorem keeps_eWaitIf {b} : Keeps (eWaitIf b) :=
  keeps_ite (keeps_throw _) (keeps_pure _)

theorem keeps_eXlat {w va acc ak} : Keeps (eXlat w va acc ak) := by
  unfold eXlat
  refine keeps_get_bind fun _ h => keeps_bind (keeps_set (memOk_translate h)) fun _ => ?_
  split
  · exact keeps_bind keeps_eFaultIf fun _ => keeps_pure _
  · exact keeps_throw _
  · exact keeps_throw _

theorem keeps_eAsk {w pkg pa n va ak} : Keeps (eAsk w pkg pa n va ak) := by
  unfold eAsk
  refine keeps_get_bind fun _ h => ?_
  dsimp only
  split
  · split
    · exact keeps_throw _
    · exact keeps_ite
        (keeps_bind (keeps_set (memOk_update h)) fun _ => keeps_bind (keeps_throw _) fun _ => keeps_pure _)
        (keeps_pure _)
  · exact keeps_bind (keeps_set (memOk_update (memOk_gwSend h))) fun _ => keeps_throw _

theorem memOk_uncount {s t} (ht : memOk t = true) : memOk (uncount s t) = true :=
  memOk_updateHbm ht

theorem memOk_eRun {α : Type} {s} {m : EM α} (hm : Keeps m) (hs : memOk s = true) : memOk (eRun m s).2 = true := by
  unfold eRun
  split
  next e => exact memOk_uncount (memOk_snd (hm _ hs) e :)
  · exact hm _ hs

theorem memOk_eDone {s owner} (hs : memOk s = true) : memOk (eDone s owner) = true :=
  memOk_update hs

theorem keeps_eMeter {w key tokens} : Keeps (eMeter w key tokens) :=
  keeps_get_bind fun _ h => keeps_bind (keeps_set (memOk_meterFor h)) fun _ => keeps_eWaitIf

theorem keeps_eReadL {w ak l} : Keeps (eReadL w ak l) := by
  induction l generalizing w ak with
  | nil =>
    unfold eReadL
    exact keeps_pure _
  | cons n l ih =>
    unfold eReadL
    exact keeps_bind keeps_eXlat fun _ => keeps_get_bind fun _ h =>
      keeps_ite
        (keeps_bind (keeps_set (memOk_engineRead h)) fun _ => keeps_bind (keeps_pure _) fun _ =>
          keeps_bind ih fun _ => keeps_pure _)
        (keeps_bind keeps_eAsk fun _ => keeps_bind ih fun _ => keeps_pure _)

theorem keeps_eRead {w va n ak} : Keeps (eRead w va n ak) :=
  keeps_eReadL

theorem keeps_eReadClean {w va n ak} : Keeps (eReadClean w va n ak) :=
  keeps_bind keeps_eRead fun _ => keeps_bind keeps_eFaultIf fun _ => keeps_pure _

theorem memOk_clcPieces {s core pa n} (hs : memOk s = true) : memOk (clcPieces s core pa n).2.2 = true := by
  unfold clcPieces
  refine memOk_foldl_snd_snd hs fun _ _ h => ?_
  split
  · split
    · dsimp only
      split
      · exact h
      · exact memOk_coreReadPiece h

theorem keeps_clcReadClean {w va n ak} : Keeps (clcReadClean w va n ak) :=
  keeps_bind keeps_eXlat fun _ => keeps_get_bind fun _ _ =>
    keeps_ite keeps_eReadClean
      (keeps_bind keeps_eMeter fun _ => keeps_get_bind fun _ h =>
        keeps_bind (keeps_set (memOk_ite_snd_snd (memOk_engineRead h) (memOk_clcPieces h))) fun _ =>
        keeps_bind keeps_eFaultIf fun _ => keeps_pure _)

theorem keeps_eTargets {w ak l} : Keeps (eTargets w ak l) := by
  induction l generalizing w ak with
  | nil =>
    unfold eTargets
    exact keeps_pure _
  | cons n l ih =>
    unfold eTargets
    exact keeps_bind keeps_eXlat fun _ => keeps_bind ih fun _ => keeps_pure _

theorem keeps_ePut {w ts bs psn} : Keeps (ePut w ts bs psn) :=
  keeps_modify fun _ h => memOk_foldl h fun _ _ h => memOk_ite (memOk_engineWrite h) (memOk_remoteWrite h)

theorem keeps_eWrite {w va bs ak} : Keeps (eWrite w va bs ak) :=
  keeps_bind keeps_eTargets fun _ => keeps_ePut

/-! ### The functions of Machine/Oasis.lean -/

theorem memOk_setDir {s ch f} (hs : memOk s = true) : memOk (setDir s ch f) = true :=
  memOk_update hs

theorem memOk_setEntries {s t l} (hs : memOk s = true) : memOk (setEntries s t l) = true :=
  memOk_setDir hs

theorem memOk_updEntry {s t f} (hs : memOk s = true) : memOk (updEntry s t f) = true :=
  memOk_setEntries hs

theorem memOk_touchEntry {s t} (hs : memOk s = true) : memOk (touchEntry s t) = true := by
  unfold touchEntry
  split
  · exact memOk_setEntries hs
  · exact hs

theorem memOk_vtVer {s t} (hs : memOk s = true) : memOk (vtVer s t).2 = true := by
  unfold vtVer
  split
  · exact hs
  · exact memOk_ite_snd (memOk_draw hs) hs

theorem someOk_vtPut {s t v} (hs : memOk s = true) : SomeOk id (vtPut s t v) := by
  unfold vtPut
  refine someOk_map fun _ => ?_
  exact memOk_hbmPutN hs

theorem memOk_setFillSt {s id x} (hs : memOk s = true) : memOk (setFillSt s id x) = true :=
  memOk_update hs

theorem memOk_tileSend {s die dst ty m} (hs : memOk s = true) : memOk (tileSend s die dst ty m) = true :=
  memOk_foldl hs fun _ _ h => memOk_gwSend h

theorem memOk_homeSay {s t m} (hs : memOk s = true) : memOk (homeSay s t m) = true :=
  memOk_update hs

theorem someOk_homeTake {s p} (hs : memOk s = true) : SomeOk id (homeTake s p) := by
  unfold homeTake
  refine someOk_map fun _ => ?_
  exact memOk_update hs

theorem memOk_grant {s t e r} (hs : memOk s = true) : memOk (grant s t e r) = true := by
  unfold grant
  refine memOk_ite
    (memOk_ite (memOk_setFillSt (memOk_touchEntry (memOk_updEntry hs)))
      (memOk_tileSend (memOk_touchEntry (memOk_updEntry hs))))
    ?_
  split
  · exact memOk_ite (memOk_setFillSt (memOk_touchEntry (memOk_updEntry hs)))
      (memOk_tileSend (memOk_touchEntry (memOk_updEntry hs)))
  · exact memOk_ite (memOk_homeSay (memOk_setFillSt (memOk_touchEntry (memOk_updEntry hs))))
      (memOk_homeSay (memOk_touchEntry (memOk_updEntry hs)))
  · exact memOk_tileSend
      (memOk_ite (memOk_setFillSt (memOk_touchEntry (memOk_updEntry hs))) (memOk_touchEntry (memOk_updEntry hs)))

theorem memOk_refuse {s t r} (hs : memOk s = true) : memOk (refuse s t r) = true :=
  memOk_ite (memOk_setFillSt hs) (memOk_tileSend hs)

theorem memOk_parkReq {s t r} (hs : memOk s = true) : memOk (parkReq s t r) = true :=
  memOk_ite (memOk_setFillSt (memOk_updEntry hs)) (memOk_updEntry hs)

theorem memOk_serveReq {s t r} (hs : memOk s = true) : memOk (serveReq s t r) = true := by
  unfold serveReq
  split
  · exact hs
  · exact memOk_ite (memOk_grant hs) (memOk_ite (memOk_refuse (memOk_ite (memOk_updEntry hs) hs)) (memOk_parkReq hs))

theorem memOk_reServe {s t} (hs : memOk s = true) : memOk (reServe s t) = true := by
  unfold reServe
  split
  · exact hs
  · refine memOk_foldl (memOk_updEntry hs) fun _ _ h => ?_
    split
    · exact h
    · exact memOk_ite (memOk_grant h) (memOk_parkReq h)

theorem memOk_vtFull {s t} (hs : memOk s = true) : memOk (vtFull s t) = true :=
  memOk_irq (memOk_setChan hs)

theorem memOk_ovfVictim {s l} (hs : memOk s = true) : memOk (ovfVictim s l).2 = true := by
  induction l generalizing s with
  | nil =>
    unfold ovfVictim
    exact hs
  | cons n l ih =>
    unfold ovfVictim
    refine memOk_ite_snd ?_ (ih hs)
    split
    next e => exact (someOk_vtPut hs _ e :)
    · exact ih (memOk_vtFull hs)

theorem memOk_orderWb {s t} (hs : memOk s = true) : memOk (orderWb s t).2 = true := by
  unfold orderWb
  refine memOk_ite_snd hs ?_
  split
  · split
    · split
      · exact memOk_ite (memOk_beginWriteback hs) hs
      · exact memOk_updEntry hs
    · exact hs
  · exact hs

theorem memOk_takeWay {s t k} (hs : memOk s = true) : memOk (takeWay s t k).2 = true := by
  induction k generalizing s t with
  | zero =>
    unfold takeWay
    exact hs
  | succ n ih =>
    unfold takeWay
    split
    next e => exact memOk_setEntries (memOk_snd (memOk_ovfVictim hs) e :)
    next e =>
      have h := memOk_snd (memOk_ovfVictim hs) e
      split
      next e => exact ih (memOk_snd (memOk_orderWb h) e :)
      next e => exact (memOk_snd (memOk_orderWb h) e :)

theorem memOk_allocEntry {s t} (hs : memOk s = true) : memOk (allocEntry s t).2 = true := by
  unfold allocEntry
  refine memOk_ite_snd hs ?_
  split
  next e => exact (memOk_snd (memOk_ite_snd hs (memOk_takeWay hs)) e :)
  next e => exact memOk_setEntries (memOk_vtVer (memOk_snd (memOk_ite_snd hs (memOk_takeWay hs)) e :))

theorem memOk_oRequest {s t r} (hs : memOk s = true) : memOk (oRequest s t r) = true := by
  unfold oRequest
  split
  next e => exact memOk_serveReq (memOk_snd (memOk_allocEntry hs) e :)
  next e =>
    have h := memOk_snd (memOk_allocEntry hs) e
    exact memOk_ite (memOk_refuse h) (memOk_ite (memOk_setFillSt (memOk_setDir h)) (memOk_setDir h))

theorem memOk_pumpOvf {s ch} (hs : memOk s = true) : memOk (pumpOvf s ch) = true :=
  memOk_foldl (memOk_setDir hs) fun _ _ h => memOk_oRequest h

theorem memOk_pumpAll {s} (hs : memOk s = true) : memOk (pumpAll s) = true :=
  memOk_foldl hs fun _ _ h => memOk_ite h (memOk_pumpOvf h)

theorem memOk_oPost {s t v loc pkg ctx} (hs : memOk s = true) : memOk (oPost s t v loc pkg ctx).2 = true := by
  unfold oPost
  split
  next e => exact (memOk_snd (memOk_allocEntry hs) e :)
  next e =>
    have h := memOk_snd (memOk_allocEntry hs) e
    split
    · exact h
    · exact memOk_pumpOvf (memOk_reServe (memOk_updEntry h))

theorem memOk_oDiscard {s t pkg ctx} (hs : memOk s = true) : memOk (oDiscard s t pkg ctx) = true := by
  unfold oDiscard
  split
  · exact memOk_ite (memOk_pumpOvf (memOk_reServe (memOk_updEntry hs))) hs
  · exact hs

theorem memOk_sendDiscard {s home t ver ctx fid} (hs : memOk s = true) :
    memOk (sendDiscard s home t ver ctx fid) = true :=
  memOk_ite (memOk_cause hs) (memOk_tileSend hs)

theorem memOk_oMoved {s t pkg from_ ctx} (hs : memOk s = true) : memOk (oMoved s t pkg from_ ctx) = true :=
  memOk_updEntry hs

theorem memOk_tellMoved {s home t from_ ctx} (hs : memOk s = true) : memOk (tellMoved s home t from_ ctx) = true :=
  memOk_ite (memOk_oMoved hs) (memOk_tileSend hs)

theorem memOk_wbAllow {s m} (hs : memOk s = true) : memOk (wbAllow s m) = true :=
  memOk_tileSend (memOk_updEntry hs)

theorem memOk_wbAsked {s m} (hs : memOk s = true) : memOk (wbAsked s m) = true := by
  unfold wbAsked
  split
  · exact memOk_wbAllow hs
  · exact memOk_ite (memOk_tileSend hs) (memOk_ite (memOk_updEntry hs) (memOk_wbAllow hs))

theorem memOk_wbOver {s t pkg fid} (hs : memOk s = true) : memOk (wbOver s t pkg fid) = true :=
  memOk_reServe (memOk_updEntry hs)

theorem memOk_oReadDone {s t} (hs : memOk s = true) : memOk (oReadDone s t) = true := by
  unfold oReadDone
  refine memOk_pumpOvf (memOk_reServe ?_)
  split
  · exact memOk_ite (memOk_foldl (memOk_updEntry (memOk_updEntry hs)) fun _ _ h => memOk_wbAsked h)
      (memOk_updEntry hs)
  · exact memOk_updEntry hs

/-! ### The functions of Machine/Fill.lean -/

theorem keeps_readIdx {w d x1 rs} : Keeps (readIdx w d x1 rs) := by
  induction rs generalizing w d x1 with
  | nil =>
    unfold readIdx
    exact keeps_pure _
  | cons n l ih =>
    unfold readIdx
    exact keeps_bind keeps_eRead fun _ => keeps_bind ih fun _ => keeps_pure _

theorem keeps_readRuns {w d co rows rs} : Keeps (readRuns w d co rows rs) := by
  induction rs generalizing w d co rows with
  | nil =>
    unfold readRuns
    exact keeps_pure _
  | cons n l ih =>
    unfold readRuns
    exact keeps_bind keeps_eRead fun _ => keeps_bind ih fun _ => keeps_pure _

theorem keeps_readParams {w d co gs} : Keeps (readParams w d co gs) := by
  induction gs generalizing w d co with
  | nil =>
    unfold readParams
    exact keeps_pure _
  | cons n l ih =>
    unfold readParams
    exact keeps_bind keeps_eRead fun _ => keeps_bind ih fun _ => keeps_pure _

theorem keeps_readCoef {w va n js} : Keeps (readCoef w va n js) := by
  induction js generalizing w va n with
  | nil =>
    unfold readCoef
    exact keeps_pure _
  | cons n l ih =>
    unfold readCoef
    exact keeps_bind keeps_eRead fun _ => keeps_bind ih fun _ => keeps_pure _

theorem keeps_readTile {w d co} : Keeps (readTile w d co) :=
  keeps_ite
    (keeps_bind keeps_eMeter fun _ => keeps_bind keeps_eRead fun _ =>
      keeps_ite (keeps_pure _) (keeps_bind keeps_eMeter fun _ => keeps_bind keeps_readCoef fun _ => keeps_pure _))
    (keeps_bind keeps_eMeter fun _ =>
      keeps_ite
        (keeps_bind keeps_readIdx fun _ => keeps_bind keeps_readRuns fun _ =>
          keeps_ite (keeps_bind keeps_readParams fun _ => keeps_pure _)
            (keeps_bind (keeps_pure _) fun _ => keeps_pure _))
        (keeps_bind (keeps_pure _) fun _ => keeps_bind keeps_readRuns fun _ =>
          keeps_ite (keeps_bind keeps_readParams fun _ => keeps_pure _)
            (keeps_bind (keeps_pure _) fun _ => keeps_pure _)))

theorem keeps_mergeHalf {w va b low} : Keeps (mergeHalf w va b low) :=
  keeps_bind keeps_eRead fun _ => keeps_pure _

theorem keeps_runWrite {w bit mb es} : Keeps (runWrite w bit mb es) :=
  keeps_ite
    (keeps_bind (keeps_pure _) fun _ =>
      keeps_ite (keeps_bind (keeps_pure _) fun _ => keeps_pure _)
        (keeps_bind keeps_mergeHalf fun _ => keeps_bind (keeps_pure _) fun _ => keeps_pure _))
    (keeps_bind keeps_mergeHalf fun _ => keeps_bind (keeps_pure _) fun _ =>
      keeps_ite (keeps_bind (keeps_pure _) fun _ => keeps_pure _)
        (keeps_bind keeps_mergeHalf fun _ => keeps_bind (keeps_pure _) fun _ => keeps_pure _))

theorem keeps_tileRuns {w d co rows rs} : Keeps (tileRuns w d co rows rs) := by
  induction rs generalizing w d co rows with
  | nil =>
    unfold tileRuns
    exact keeps_pure _
  | cons n l ih =>
    unfold tileRuns
    exact keeps_bind keeps_runWrite fun _ => keeps_bind ih fun _ => keeps_pure _

theorem keeps_tileTargets {w l} : Keeps (tileTargets w l) := by
  induction l generalizing w with
  | nil =>
    unfold tileTargets
    exact keeps_pure _
  | cons n l ih =>
    unfold tileTargets
    exact keeps_bind keeps_eTargets fun _ => keeps_bind ih fun _ => keeps_pure _

theorem keeps_tileOut {w d co rows} : Keeps (tileOut w d co rows) :=
  keeps_bind keeps_tileRuns fun _ => keeps_tileTargets

theorem keeps_writeTile {w metered d co rows} : Keeps (writeTile w metered d co rows) :=
  keeps_bind keeps_tileOut fun _ =>
    keeps_ite
      (keeps_bind keeps_eMeter fun _ =>
        keeps_bind (keeps_forIn fun _ _ => keeps_bind keeps_ePut fun _ => keeps_pure _) fun _ =>
        keeps_get_bind fun _ _ => keeps_pure _)
      (keeps_bind (keeps_forIn fun _ _ => keeps_bind keeps_ePut fun _ => keeps_pure _) fun _ =>
        keeps_get_bind fun _ _ => keeps_pure _)

theorem someOk_allocLine {s f} (hs : memOk s = true) : SomeOk Prod.snd (allocLine s f) := by
  unfold allocLine
  refine someOk_map fun _ => ?_
  exact memOk_setCtc (memOk_newId hs)

theorem memOk_addFill {s f} (hs : memOk s = true) : memOk (addFill s f) = true :=
  memOk_update hs

theorem memOk_putFill {s f} (hs : memOk s = true) : memOk (putFill s f) = true :=
  memOk_update hs

theorem memOk_updClcT {s cl id g} (hs : memOk s = true) : memOk (updClcT s cl id g) = true :=
  memOk_setClcT hs

theorem memOk_updFillLines {s f g} (hs : memOk s = true) : memOk (updFillLines s f g) = true :=
  memOk_updClcT (memOk_updLine hs)

theorem memOk_clcHold {s f} (hs : memOk s = true) : memOk (clcHold s f).2 = true := by
  unfold clcHold
  refine memOk_ite_snd hs ?_
  split
  · exact hs
  next e => exact memOk_setClcT (memOk_newId (someOk_clcRoom hs _ e :))

theorem memOk_dropFill {s id} (hs : memOk s = true) : memOk (dropFill s id) = true := by
  unfold dropFill
  refine memOk_eDone (memOk_update ?_)
  split
  · exact memOk_setClcT hs
  · exact hs

theorem memOk_newFill {s f} (hs : memOk s = true) : memOk (newFill s f) = true := by
  unfold newFill
  dsimp only
  split
  next e => exact memOk_addFill (someOk_allocLine (memOk_newId (memOk_ite hs (memOk_setCtc hs))) _ e :)
  · exact memOk_addFill (memOk_newId (memOk_ite hs (memOk_setCtc hs)))

theorem memOk_tileNeed {s c b t u} (hs : memOk s = true) : memOk (tileNeed s c b t u).2 = true := by
  unfold tileNeed
  dsimp only
  split
  · exact hs
  · split
    · exact hs
    · exact memOk_ite_snd hs (memOk_newFill hs)

theorem memOk_deliverJoined {s id v d} (hs : memOk s = true) : memOk (deliverJoined s id v d) = true :=
  memOk_update hs

theorem memOk_readDone {s f} (hs : memOk s = true) : memOk (readDone s f) = true :=
  memOk_ite (memOk_cause hs) (memOk_tileSend hs)

theorem memOk_abandonFill {s f} (hs : memOk s = true) : memOk (abandonFill s f) = true := by
  unfold abandonFill
  refine memOk_dropFill (memOk_deliverJoined (memOk_delLine ?_))
  split
  · exact memOk_readDone hs
  · exact hs

theorem memOk_clcTake {s f v t fromClc} (hs : memOk s = true) : memOk (clcTake s f v t fromClc) = true := by
  unfold clcTake
  refine memOk_ite hs (memOk_ite (memOk_setClcT (memOk_updClcT hs)) (memOk_ite hs ?_))
  split
  · exact memOk_getD (someOk_clcInstall hs) hs
  · exact hs

theorem memOk_deliverFill {s f v t fromClc} (hs : memOk s = true) : memOk (deliverFill s f v t fromClc) = true :=
  memOk_dropFill (memOk_deliverJoined (memOk_flagsTo (memOk_clcTake (memOk_updLine hs))))

theorem memOk_deliverOpen {s f v t} (hs : memOk s = true) : memOk (deliverOpen s f v t) = true := by
  unfold deliverOpen
  dsimp only
  split
  · exact memOk_dropFill (memOk_sendDiscard (memOk_delLine (memOk_flagsTo hs)))
  · exact memOk_setFillSt (memOk_flagsTo hs)
  · split
    · exact memOk_dropFill (memOk_updLine (memOk_flagsTo hs))
    · exact memOk_tellMoved
        (memOk_dropFill
          (memOk_ite (memOk_updLine (memOk_flagsTo hs)) (memOk_setCtc (memOk_delLine (memOk_flagsTo hs)))))
    · exact memOk_updSaved (memOk_dropFill (memOk_delLine (memOk_flagsTo hs)))
    · exact memOk_dropFill (memOk_sendDiscard (memOk_delLine (memOk_flagsTo hs)))

/-! ### The functions of Machine/EvTile.lean -/

theorem memOk_runFill {α : Type} {s f} {m : EM α} (hs : memOk s = true) (hm : Keeps m) :
    memOk (runFill s f m).2 = true := by
  unfold runFill
  split
  next e => exact (memOk_snd (memOk_eRun hm hs) e :)
  next e => exact (memOk_snd (memOk_eRun hm hs) e :)
  next e =>
    have h := memOk_snd (memOk_eRun hm hs) e
    exact memOk_ite (memOk_abandonFill h) (memOk_engineFault h)

theorem memOk_clcServe {s cl l} (hs : memOk s = true) : memOk (clcServe s cl l) = true :=
  memOk_ite (memOk_setClcT hs) (memOk_updClcT (memOk_setClcT hs))

theorem memOk_holdData {s f v rows psn} (hs : memOk s = true) : memOk (holdData s f v rows psn) = true :=
  memOk_updFillLines (memOk_setFillSt hs)

theorem memOk_tagCheck {s id ok} (hs : memOk s = true) : memOk (tagCheck s id ok) = true := by
  unfold tagCheck
  split
  · split
    · exact memOk_updFillLines (memOk_setFillSt hs)
    · exact hs
  · exact hs

theorem memOk_bring {s f} (hs : memOk s = true) : memOk (bring s f).2 = true := by
  unfold bring
  split
  · split
    · exact memOk_clcServe hs
    · exact memOk_setFillSt hs
  · exact hs
  · split
    next e =>
      have h := memOk_snd (memOk_runFill hs keeps_readTile) e
      exact memOk_ite_snd (memOk_readDone h) (memOk_tagCheck (memOk_holdData (memOk_flagsTo (memOk_readDone h))))
    next e => exact (memOk_snd (memOk_runFill hs keeps_readTile) e :)
  · exact hs

theorem memOk_resumeAlloc {s id} (hs : memOk s = true) : memOk (resumeAlloc s id) = true := by
  unfold resumeAlloc
  split
  · refine memOk_ite ?_ hs
    split
    next e => exact memOk_putFill (someOk_allocLine hs _ e :)
    · exact hs
  · exact hs

theorem outOk_execFillAllocationResume {s} (hs : memOk s = true) : OutOk (execFillAllocationResume s) := by
  unfold execFillAllocationResume
  split
  · exact outOk_next (memOk_resumeAlloc hs)
  · exact outOk_next hs

theorem memOk_fillArrive {s id} (hs : memOk s = true) : memOk (fillArrive s id) = true := by
  unfold fillArrive
  split
  · refine memOk_ite hs ?_
    split
    next e => exact memOk_deliverFill (memOk_snd (memOk_bring hs) e :)
    next e => exact (memOk_snd (memOk_bring hs) e :)
  · exact hs

theorem outOk_execFillDataArrives {s} (hs : memOk s = true) : OutOk (execFillDataArrives s) := by
  unfold execFillDataArrives
  split
  · exact outOk_next (memOk_fillArrive hs)
  · exact outOk_next hs

theorem memOk_fillProvisional {s id k} (hs : memOk s = true) : memOk (fillProvisional s id k) = true := by
  unfold fillProvisional
  split
  · exact memOk_ite (memOk_holdData hs) hs
  · exact hs

theorem outOk_execFillDataProvisional {s} (hs : memOk s = true) : OutOk (execFillDataProvisional s) := by
  unfold execFillDataProvisional
  split
  · exact outOk_next (memOk_fillProvisional hs)
  · exact outOk_next hs

theorem memOk_tilePart {s src m} (hs : memOk s = true) : memOk (tilePart s src m).2 = true :=
  memOk_ite_snd hs (memOk_ite_snd (memOk_update hs) (memOk_update hs))

theorem memOk_ownGrant {s id} (hs : memOk s = true) : memOk (ownGrant s id) = true := by
  unfold ownGrant
  split
  · refine memOk_ite hs ?_
    split
    next e => exact memOk_deliverOpen (memOk_snd (memOk_bring hs) e :)
    next e => exact (memOk_snd (memOk_bring hs) e :)
  · exact hs

theorem outOk_execOwnershipGrant {s} (hs : memOk s = true) : OutOk (execOwnershipGrant s) := by
  unfold execOwnershipGrant
  split
  · exact outOk_next (memOk_ownGrant hs)
  · exact outOk_next hs

theorem keeps_homeOf {w b t} : Keeps (homeOf w b t) :=
  keeps_ite (keeps_bind keeps_eXlat fun _ => keeps_pure _) (keeps_get_bind fun _ _ => keeps_pure _)

theorem memOk_askHome {s f} (hs : memOk s = true) : memOk (askHome s f) = true := by
  unfold askHome
  split
  next e => exact (memOk_snd (memOk_runFill hs keeps_homeOf) e :)
  next e =>
    have h := memOk_snd (memOk_runFill hs keeps_homeOf) e
    exact memOk_ite (memOk_oRequest (memOk_putFill (memOk_clcHold h)))
      (memOk_tileSend (memOk_putFill (memOk_putFill (memOk_clcHold h))))

theorem memOk_askedBy {s k open_} (hs : memOk s = true) : memOk (askedBy s k open_) = true := by
  unfold askedBy
  split
  · exact memOk_oRequest hs
  · exact hs

theorem outOk_execOasisReadRequest {s} (hs : memOk s = true) : OutOk (execOasisReadRequest s) := by
  unfold execOasisReadRequest
  split
  · exact outOk_next (memOk_askedBy hs)
  · refine outOk_next ?_
    split
    · exact memOk_askHome hs
    · exact hs
  · exact outOk_next hs

theorem outOk_execOasisOpenRequest {s} (hs : memOk s = true) : OutOk (execOasisOpenRequest s) := by
  unfold execOasisOpenRequest
  split
  · exact outOk_next (memOk_askedBy hs)
  · refine outOk_next ?_
    split
    · exact memOk_askHome hs
    · exact hs
  · exact outOk_next hs

theorem memOk_resend {s id} (hs : memOk s = true) : memOk (resend s id) = true := by
  unfold resend
  split
  · split
    · exact memOk_ite (memOk_setFillSt hs) hs
    · exact hs
  · exact hs

theorem outOk_execFillResend {s} (hs : memOk s = true) : OutOk (execFillResend s) := by
  unfold execFillResend
  split
  · exact outOk_next (memOk_resend hs)
  · exact outOk_next hs

theorem outOk_execOasisHbmReadDone {s} (hs : memOk s = true) : OutOk (execOasisHbmReadDone s) := by
  unfold execOasisHbmReadDone
  split
  · exact outOk_next (memOk_oReadDone hs)
  · exact outOk_next hs

theorem outOk_execOasisDiscard {s} (hs : memOk s = true) : OutOk (execOasisDiscard s) := by
  unfold execOasisDiscard
  split
  · exact outOk_next (memOk_oDiscard hs)
  · exact outOk_next hs

theorem memOk_wbTry {α : Type} {s cl l} {m : EM α} (hs : memOk s = true) (hm : Keeps m) :
    memOk (wbTry s cl l m).2 = true := by
  unfold wbTry
  refine memOk_ite_snd hs ?_
  split
  next e => exact (memOk_snd (memOk_eRun hm hs) e :)
  next e => exact (memOk_snd (memOk_eRun hm hs) e :)
  next e =>
    have h := memOk_snd (memOk_eRun hm hs) e
    exact memOk_ite_snd h (memOk_engineFault h)

theorem memOk_pinPoster {s tid} (hs : memOk s = true) : memOk (pinPoster s tid) = true := by
  unfold pinPoster
  split
  · exact memOk_pinTask hs
  · exact memOk_update hs

theorem memOk_writeBack {s cl l post} (hs : memOk s = true) : memOk (writeBack s cl l post).2 = true := by
  unfold writeBack
  split
  next e =>
    have h := memOk_snd (memOk_wbTry hs keeps_writeTile) e
    exact memOk_eDone (memOk_flagsTo (memOk_ite (memOk_pinPoster h) h))
  next e => exact memOk_eDone (memOk_snd (memOk_wbTry hs keeps_writeTile) e :)
  next e => exact (memOk_snd (memOk_wbTry hs keeps_writeTile) e :)

theorem memOk_tellDiscard {s l} (hs : memOk s = true) : memOk (tellDiscard s l) = true :=
  memOk_ite (memOk_oDiscard hs) (memOk_sendDiscard hs)

theorem memOk_abandonPost {s core l} (hs : memOk s = true) : memOk (abandonPost s core l) = true :=
  memOk_tellDiscard (memOk_delLine hs)

theorem memOk_renameVer {s cl t v n} (hs : memOk s = true) : memOk (renameVer s cl t v n) = true :=
  memOk_ite hs (memOk_setGw (memOk_update (memOk_setClcT hs)))

theorem someOk_postCopy {s cl l} (hs : memOk s = true) : SomeOk id (postCopy s cl l) :=
  someOk_clcInstall hs

theorem memOk_postHere {s core l} (hs : memOk s = true) : memOk (postHere s core l) = true := by
  unfold postHere
  refine memOk_ite (memOk_ite hs ?_) ?_
  · split
    next e => exact memOk_updLine (memOk_snd (memOk_writeBack hs) e :)
    next e => exact memOk_abandonPost (memOk_snd (memOk_writeBack hs) e :)
    next e => exact (memOk_snd (memOk_writeBack hs) e :)
  · split
    next e => exact (memOk_snd (memOk_allocEntry hs) e :)
    next e =>
      have h := memOk_snd (memOk_allocEntry hs) e
      split
      · exact h
      next e =>
        have h := someOk_postCopy h _ e
        split
        next e => exact (memOk_snd (memOk_oPost h) e :)
        next e => exact memOk_updLine (memOk_renameVer (memOk_snd (memOk_oPost h) e :))

theorem memOk_tableTidy {s die} (hs : memOk s = true) : memOk (tableTidy s die) = true :=
  memOk_setGw hs

theorem memOk_wbAsk {s cl l kind fid} (hs : memOk s = true) : memOk (wbAsk s cl l kind fid).2 = true := by
  unfold wbAsk
  split
  next e => exact memOk_tileSend (memOk_snd (memOk_wbTry hs keeps_tileOut) e :)
  next e => exact memOk_eDone (memOk_snd (memOk_wbTry hs keeps_tileOut) e :)
  next e => exact (memOk_snd (memOk_wbTry hs keeps_tileOut) e :)

theorem memOk_postAway {s core l} (hs : memOk s = true) : memOk (postAway s core l) = true := by
  unfold postAway
  refine memOk_ite (memOk_tableTidy hs) (memOk_ite (memOk_ite ?_ ?_) (memOk_ite (memOk_tableTidy hs) ?_))
  · split
    next e => exact memOk_updLine (memOk_snd (memOk_wbAsk (memOk_tableTidy hs)) e :)
    next e => exact memOk_abandonPost (memOk_snd (memOk_wbAsk (memOk_tableTidy hs)) e :)
    next e => exact (memOk_snd (memOk_wbAsk (memOk_tableTidy hs)) e :)
  · split
    next e =>
      have h := memOk_snd (memOk_writeBack (memOk_tableTidy hs)) e
      exact memOk_updLine (memOk_ite (memOk_setGw h) h)
    next e => exact memOk_abandonPost (memOk_snd (memOk_writeBack (memOk_tableTidy hs)) e :)
    next e => exact (memOk_snd (memOk_writeBack (memOk_tableTidy hs)) e :)
  · split
    · exact memOk_tableTidy hs
    next e =>
      have h := someOk_postCopy (memOk_tableTidy hs) _ e
      exact memOk_tileSend (memOk_updLine (memOk_ite h (memOk_setGw h)))

theorem memOk_postFrom {s k} (hs : memOk s = true) : memOk (postFrom s k) = true := by
  unfold postFrom
  split
  · exact hs
  · dsimp only
    split
    next e => exact memOk_cause (memOk_snd (memOk_oPost (memOk_wbOver hs)) e :)
    next e => exact memOk_tileSend (memOk_snd (memOk_oPost (memOk_wbOver hs)) e :)

theorem memOk_purgeStep {s} (hs : memOk s = true) : memOk (purgeStep s) = true := by
  unfold purgeStep
  split
  · exact hs
  · exact memOk_foldl hs fun _ _ h => memOk_foldl h fun _ _ h => memOk_beginWriteback h

theorem memOk_postStep {s core line} (hs : memOk s = true) : memOk (postStep s core line) = true := by
  unfold postStep
  split
  · exact memOk_ite hs (memOk_purgeStep (memOk_ite (memOk_postHere hs) (memOk_postAway hs)))
  · exact hs

theorem outOk_execOasisPost {s} (hs : memOk s = true) : OutOk (execOasisPost s) := by
  unfold execOasisPost
  split
  · exact outOk_next (memOk_postFrom hs)
  · exact outOk_next (memOk_postStep hs)
  · exact outOk_next hs

theorem memOk_updVictim {s cl id f} (hs : memOk s = true) : memOk (updVictim s cl id f) = true :=
  memOk_update hs

theorem memOk_nowInHbm {s t v loc} (hs : memOk s = true) : memOk (nowInHbm s t v loc) = true :=
  memOk_updEntry hs

theorem memOk_wbDone {s cl v} (hs : memOk s = true) : memOk (wbDone s cl v) = true :=
  memOk_homeSay (memOk_pumpOvf (memOk_updVictim (memOk_reServe (memOk_nowInHbm hs))))

theorem memOk_wbHere {s cl v} (hs : memOk s = true) : memOk (wbHere s cl v) = true := by
  unfold wbHere
  refine memOk_ite hs (memOk_ite (memOk_wbDone hs) ?_)
  split
  next e => exact memOk_wbDone (memOk_snd (memOk_writeBack hs) e :)
  next e => exact memOk_wbDone (memOk_snd (memOk_writeBack hs) e :)
  next e => exact (memOk_snd (memOk_writeBack hs) e :)

theorem memOk_wbAway {s cl v} (hs : memOk s = true) : memOk (wbAway s cl v) = true := by
  unfold wbAway
  dsimp only
  split
  · split
    next e => exact memOk_updVictim (memOk_snd (memOk_wbAsk hs) e :)
    next e => exact memOk_updVictim (memOk_snd (memOk_wbAsk hs) e :)
    next e => exact (memOk_snd (memOk_wbAsk hs) e :)
  · split
    next e => exact memOk_updVictim (memOk_snd (memOk_writeBack hs) e :)
    next e => exact memOk_updVictim (memOk_snd (memOk_writeBack hs) e :)
    next e => exact (memOk_snd (memOk_writeBack hs) e :)
  · exact memOk_ite hs (memOk_tileSend (memOk_updVictim hs))
  · exact hs

theorem memOk_wbFrom {s k} (hs : memOk s = true) : memOk (wbFrom s k) = true := by
  unfold wbFrom
  split
  · exact hs
  · exact memOk_tileSend (memOk_pumpOvf (memOk_wbOver (memOk_nowInHbm hs)))

theorem outOk_execOasisWriteback {s} (hs : memOk s = true) : OutOk (execOasisWriteback s) := by
  unfold execOasisWriteback
  split
  · exact outOk_next (memOk_wbFrom hs)
  · refine outOk_next ?_
    split
    · exact memOk_ite hs (memOk_ite (memOk_wbHere hs) (memOk_wbAway hs))
    · exact hs
  · exact outOk_next hs

theorem memOk_victimAck {s cl id} (hs : memOk s = true) : memOk (victimAck s cl id) = true := by
  unfold victimAck
  split
  · refine memOk_ite hs (memOk_ite ?_ (memOk_pumpAll (memOk_purgeStep (memOk_update (memOk_setGw hs)))))
    split
    next e => exact memOk_pumpAll (memOk_purgeStep (memOk_update (someOk_homeTake hs _ e :)))
    · exact hs
  · exact hs

theorem outOk_execVictimBufferAck {s} (hs : memOk s = true) : OutOk (execVictimBufferAck s) := by
  unfold execVictimBufferAck
  split
  · exact outOk_next (memOk_victimAck hs)
  · exact outOk_next hs

theorem memOk_absentAt {s loc m open_} (hs : memOk s = true) : memOk (absentAt s loc m open_) = true :=
  memOk_oRequest (memOk_nowInHbm hs)

theorem memOk_forwardMine {s id} (hs : memOk s = true) : memOk (forwardMine s id) = true := by
  unfold forwardMine
  split
  · exact hs
  next e =>
    have h := someOk_homeTake hs _ e
    split
    · split
      · split
        · exact memOk_setFillSt h
        · exact memOk_absentAt h
      · exact h
    · exact h

theorem memOk_forwardAway {s k} (hs : memOk s = true) : memOk (forwardAway s k) = true := by
  unfold forwardAway
  split
  · exact hs
  · dsimp only
    split
    · exact memOk_ite (memOk_setFillSt hs) (memOk_tileSend hs)
    · exact memOk_ite (memOk_absentAt hs) (memOk_tileSend hs)

theorem outOk_execForwardArrives {s} (hs : memOk s = true) : OutOk (execForwardArrives s) := by
  unfold execForwardArrives
  split
  · refine outOk_ite (outOk_next ?_) (outOk_next (memOk_forwardAway hs))
    split
    next e => exact memOk_forwardAway (someOk_homeTake hs _ e :)
    · exact hs
  · exact outOk_next (memOk_forwardMine hs)
  · exact outOk_next hs

theorem memOk_tileRequest {s k} (hs : memOk s = true) : memOk (tileRequest s k) = true := by
  unfold tileRequest
  split
  · exact hs
  · split
    · exact memOk_cause hs
    · exact memOk_cause hs
    · exact memOk_cause hs
    · exact memOk_cause hs
    · exact memOk_cause (memOk_wbOver hs)
    · exact memOk_cause hs
    · exact memOk_cause hs
    · exact memOk_wbAsked hs
    · exact memOk_wbAsked hs
    · exact memOk_oMoved hs
    · exact hs

theorem memOk_postRecorded {s id n} (hs : memOk s = true) : memOk (postRecorded s id n) = true := by
  unfold postRecorded
  split
  · exact hs
  · split
    · exact memOk_updLine (memOk_renameVer hs)
    · exact hs

theorem memOk_wbAllowed {s id} (hs : memOk s = true) : memOk (wbAllowed s id) = true := by
  unfold wbAllowed
  dsimp only
  split
  · exact memOk_updLine (memOk_foldl hs fun _ _ h => memOk_updVictim h)
  · exact memOk_foldl hs fun _ _ h => memOk_updVictim h

theorem memOk_tileData {s k m} (hs : memOk s = true) : memOk (tileData s k m) = true := by
  unfold tileData
  split
  · exact hs
  · refine memOk_ite (memOk_tagCheck hs) ?_
    split
    next e => exact memOk_tagCheck (memOk_fillProvisional (memOk_snd (memOk_tilePart hs) e :))
    next e => exact memOk_updFillLines (memOk_snd (memOk_tilePart hs) e :)

theorem memOk_tileReply {s k} (hs : memOk s = true) : memOk (tileReply s k) = true := by
  unfold tileReply
  split
  · exact hs
  · dsimp only
    split
    · exact memOk_tileData hs
    · exact memOk_ite (memOk_setFillSt hs) hs
    · exact memOk_ite (memOk_setFillSt hs) hs
    · exact memOk_ite (memOk_setFillSt hs) hs
    · exact memOk_foldl hs fun _ _ h => memOk_updVictim h
    · exact memOk_postRecorded hs
    · exact memOk_absentAt hs
    · exact memOk_absentAt hs
    · exact memOk_wbAllowed hs
    · exact hs

theorem memOk_prefetch {s c} (hs : memOk s = true) : memOk (prefetch s c) = true := by
  unfold prefetch
  split
  · exact hs
  · refine memOk_ite hs ?_
    dsimp only
    split
    next e => exact (memOk_snd (memOk_eRun keeps_clcReadClean hs) e :)
    next e => exact memOk_eDone (memOk_updCtx (memOk_snd (memOk_eRun keeps_clcReadClean hs) e :))
    next e =>
      have h := memOk_snd (memOk_eRun keeps_clcReadClean hs) e
      exact memOk_ite (memOk_ite (memOk_eDone (memOk_updCtx h)) (memOk_eDone (memOk_updCtx h)))
        (memOk_newFill (memOk_ite (memOk_eDone (memOk_updCtx h)) (memOk_eDone (memOk_updCtx h))))

theorem outOk_execItineraryPrefetch {s} (hs : memOk s = true) : OutOk (execItineraryPrefetch s) := by
  unfold execItineraryPrefetch
  split
  · exact outOk_next (memOk_prefetch hs)
  · exact outOk_next hs

theorem memOk_purgeStart {s w by_} (hs : memOk s = true) : memOk (purgeStart s w by_) = true :=
  memOk_ite hs (memOk_purgeStep (memOk_update (memOk_devSet hs)))

theorem outOk_execOpurge {s} (hs : memOk s = true) : OutOk (execOpurge s) := by
  unfold execOpurge
  split
  · exact outOk_next (memOk_purgeStart hs)
  · exact outOk_next hs

theorem memOk_purgeEnd {s} (hs : memOk s = true) : memOk (purgeEnd s) = true := by
  unfold purgeEnd
  split
  · exact hs
  · exact memOk_ite hs
      (memOk_pumpAll
        (memOk_foldl
          (memOk_foldl (memOk_foldl (memOk_update hs) fun _ _ h => memOk_hbmPutN h) fun _ _ h => memOk_oRequest h) fun
          _ _ h => memOk_wbAsked h))

theorem outOk_execOpurgeComplete {s} (hs : memOk s = true) : OutOk (execOpurgeComplete s) := by
  unfold execOpurgeComplete
  split
  · exact outOk_next (memOk_purgeEnd hs)
  · exact outOk_next hs

/-! ### The functions of Machine/Rou.lean -/

theorem memOk_atRead {s pa n} (hs : memOk s = true) : memOk (atRead s pa n).2 = true := by
  unfold atRead
  refine memOk_ite_snd (memOk_hbmReadN hs) ?_
  split
  · exact hs
  · exact hs

theorem memOk_atWrite {s cs q pa n x} (hs : memOk s = true) : memOk (atWrite s cs q pa n x) = true := by
  unfold atWrite
  refine memOk_ite (memOk_hbmPutN hs) ?_
  split
  · exact memOk_farWrite hs
  · exact hs

theorem memOk_rouOp {s cs q op w pa x} (hs : memOk s = true) : memOk (rouOp s cs q op w pa x).2 = true := by
  unfold rouOp
  split
  next e => exact (memOk_snd (memOk_atRead hs) e :)
  next e => exact memOk_atWrite (memOk_snd (memOk_atRead hs) e :)

theorem memOk_rouCas {s cs q w pa e x} (hs : memOk s = true) : memOk (rouCas s cs q w pa e x).2 = true := by
  unfold rouCas
  split
  next e => exact (memOk_snd (memOk_atRead hs) e :)
  next e =>
    have h := memOk_snd (memOk_atRead hs) e
    exact memOk_ite (memOk_atWrite h) h

theorem memOk_resvCancel {s c} (hs : memOk s = true) : memOk (resvCancel s c) = true :=
  memOk_updateHbm hs

theorem memOk_resvMake {s c pa} (hs : memOk s = true) : memOk (resvMake s c pa) = true :=
  memOk_setChan (memOk_resvCancel hs)

theorem memOk_rouLoadR {s c w pa} (hs : memOk s = true) : memOk (rouLoadR s c w pa).2 = true := by
  unfold rouLoadR
  split
  next e => exact (memOk_snd (memOk_atRead hs) e :)
  next e => exact memOk_resvMake (memOk_snd (memOk_atRead hs) e :)

theorem memOk_rouStoreC {s c q w pa x} (hs : memOk s = true) : memOk (rouStoreC s c q w pa x).2 = true :=
  memOk_ite_snd (memOk_resvCancel hs)
    (memOk_ite_snd (memOk_ite_snd (memOk_resvCancel hs) (memOk_resvCancel (memOk_atWrite hs))) (memOk_resvCancel hs))

theorem memOk_rouCas4 {s q pas e d} (hs : memOk s = true) : memOk (rouCas4 s q pas e d).2 = true := by
  unfold rouCas4
  refine memOk_ite_snd (memOk_foldl_snd hs fun _ _ h => ?_)
    (memOk_ite (memOk_foldl (memOk_foldl_snd hs fun _ _ h => ?_) fun _ _ h => memOk_atWrite h)
      (memOk_foldl_snd hs fun _ _ h => ?_))
  · exact memOk_atRead h
  · exact memOk_atRead h
  · exact memOk_atRead h

theorem keeps_ownLine {r pa} : Keeps (ownLine r pa) :=
  keeps_modify fun _ h => memOk_ite (memOk_flushOwn h) h

theorem keeps_linkAt {r va} : Keeps (linkAt r va) :=
  keeps_bind keeps_eXlat fun _ => keeps_get_bind fun _ _ => keeps_bind keeps_eFaultIf fun _ => keeps_pure _

theorem keeps_linkRead {r hdr at_ va} : Keeps (linkRead r hdr at_ va) := by
  unfold linkRead
  refine keeps_get_bind fun _ h =>
    keeps_ite
      (keeps_bind keeps_ownLine fun _ => keeps_get_bind fun _ h => keeps_bind (keeps_set (memOk_atRead h)) fun _ => ?_)
      ?_
  · split
    · exact keeps_pure _
    · exact keeps_throw _
  · split
    · split
      · split
        · exact keeps_throw _
        · exact keeps_bind (keeps_set (memOk_eDone h)) fun _ => keeps_bind keeps_eFaultIf fun _ =>
            keeps_bind keeps_eFaultIf fun _ => keeps_pure _
      · exact keeps_bind (keeps_set (memOk_update (memOk_gwSend h))) fun _ => keeps_throw _

theorem keeps_linkWrite {r q at_ x} : Keeps (linkWrite r q at_ x) :=
  keeps_get_bind fun _ _ =>
    keeps_ite
      (keeps_bind keeps_ownLine fun _ => keeps_modify fun _ h =>
        memOk_ite (memOk_queueInval (memOk_atWrite h)) (memOk_atWrite h))
      (keeps_modify fun _ h => memOk_remoteWriteBy h)

theorem keeps_headRead {h va} : Keeps (headRead h va) := by
  unfold headRead
  refine keeps_get_bind fun _ h => keeps_bind (keeps_set (memOk_atRead h)) fun _ => ?_
  split
  · exact keeps_pure _
  · exact keeps_throw _

theorem keeps_rouEnq {r q h hva node} : Keeps (rouEnq r q h hva node) :=
  keeps_bind keeps_eFaultIf fun _ => keeps_bind keeps_linkAt fun _ => keeps_get_bind fun _ _ =>
    keeps_bind keeps_eWaitIf fun _ => keeps_bind keeps_headRead fun _ => keeps_bind keeps_eFaultIf fun _ =>
    keeps_ite
      (keeps_bind (keeps_pure _) fun _ => keeps_bind keeps_linkWrite fun _ => keeps_bind keeps_linkWrite fun _ =>
        keeps_bind keeps_linkWrite fun _ => keeps_pure _)
      (keeps_bind keeps_linkAt fun _ => keeps_bind keeps_linkWrite fun _ => keeps_bind keeps_linkWrite fun _ =>
        keeps_bind keeps_linkWrite fun _ => keeps_pure _)

theorem keeps_rouDeq {r q h hva} : Keeps (rouDeq r q h hva) :=
  keeps_get_bind fun _ _ => keeps_bind keeps_eWaitIf fun _ => keeps_bind keeps_headRead fun _ =>
    keeps_ite (keeps_pure _)
      (keeps_bind keeps_eFaultIf fun _ => keeps_bind keeps_linkAt fun _ => keeps_bind keeps_linkRead fun _ =>
        keeps_bind keeps_eFaultIf fun _ => keeps_bind keeps_linkWrite fun _ =>
        keeps_ite (keeps_bind keeps_linkWrite fun _ => keeps_pure _) (keeps_pure _))

theorem keeps_hopWord {r va} : Keeps (hopWord r va) :=
  keeps_bind keeps_linkAt fun _ => keeps_get_bind fun _ _ =>
    keeps_ite (keeps_pure _) (keeps_bind keeps_linkRead fun _ => keeps_pure _)

theorem keeps_rouHop {r p key koff noff voff} : Keeps (rouHop r p key koff noff voff) := by
  unfold rouHop
  refine keeps_ite (keeps_pure _)
    (keeps_bind keeps_eFaultIf fun _ => keeps_bind keeps_linkAt fun _ => keeps_get_bind fun _ _ =>
      keeps_ite (keeps_pure _) (keeps_bind keeps_hopWord fun _ => ?_))
  split
  · exact keeps_pure _
  · refine keeps_ite (keeps_bind keeps_hopWord fun _ => ?_) (keeps_bind keeps_hopWord fun _ => ?_)
    · split
      · exact keeps_pure _
      · exact keeps_pure _
    · split
      · exact keeps_bind keeps_eFaultIf fun _ => keeps_pure _
      · exact keeps_pure _

theorem keeps_atomTarget {va w acc} : Keeps (atomTarget va w acc) :=
  keeps_bind keeps_trapIf fun _ => keeps_bind keeps_xlatAs fun _ => keeps_get_bind fun _ _ =>
    keeps_bind keeps_trapIf fun _ => keeps_pure _

theorem keeps_atomScope {o sc pkg pa} : Keeps (atomScope o sc pkg pa) :=
  keeps_ite (keeps_pure _) keeps_resolve

/-! ### The functions of Machine/Memory.lean -/

theorem keeps_scopeAt {ps scope} : Keeps (scopeAt ps scope) := by
  unfold scopeAt
  split
  · exact keeps_pure _
  · exact keeps_resolve

theorem outOk_execLd {d m w s} (hs : memOk s = true) : OutOk (execLd d m w s) :=
  outOk_run
    (keeps_bind keeps_getC fun _ => keeps_bind keeps_opTrap fun _ => keeps_bind keeps_pieces fun _ =>
      keeps_bind (keeps_modify fun _ h => memOk_trMem h) fun _ => keeps_loadOut)
    hs

theorem outOk_execSt {d m w s} (hs : memOk s = true) : OutOk (execSt d m w s) :=
  outOk_run (keeps_bind keeps_getC fun _ => keeps_bind keeps_storeMem fun _ => keeps_modify fun _ h => memOk_trMem h)
    hs

theorem outOk_execLda {d m w sc s} (hs : memOk s = true) : OutOk (execLda d m w sc s) :=
  outOk_run
    (keeps_bind keeps_getC fun _ => keeps_bind keeps_opTrap fun _ => keeps_bind keeps_pieces fun _ =>
      keeps_bind keeps_scopeAt fun _ => keeps_bind (keeps_modify fun _ h => memOk_trMem h) fun _ => keeps_loadOut)
    hs

theorem outOk_execStl {d m w sc s} (hs : memOk s = true) : OutOk (execStl d m w sc s) :=
  outOk_run
    (keeps_bind keeps_getC fun _ => keeps_bind keeps_pieces fun _ => keeps_get_bind fun _ _ =>
      keeps_bind keeps_blockIf fun _ => keeps_bind keeps_scopeAt fun _ => keeps_bind keeps_release fun _ =>
      keeps_bind keeps_storeAll fun _ =>
      keeps_bind (keeps_forIn fun _ _ => keeps_bind keeps_storePiece fun _ => keeps_pure _) fun _ =>
      keeps_modify fun _ h => memOk_trMem h)
    hs

theorem keeps_atHome {pa here} (hhere : ∀ t n, memOk t = true → memOk (here t n).2 = true) : Keeps (atHome pa here) :=
  keeps_get_bind fun _ h => keeps_bind (keeps_set (hhere _ _ (memOk_flushOwn h))) fun _ => keeps_pure _

theorem keeps_atomOut {d va r} : Keeps (atomOut d va r) := by
  unfold atomOut
  split
  · exact keeps_outS
  · exact keeps_get_bind fun _ h => keeps_set (memOk_upd (memOk_trOverlap h))

theorem keeps_atomAway {d va pkg pa w arg data acq} : Keeps (atomAway d va pkg pa w arg data acq) :=
  keeps_get_bind fun _ h => keeps_set (memOk_upd (memOk_trOverlap (memOk_gwSend h)))

theorem keeps_atomic {d a w o sc acc simple resv arg data rel here}
    (hhere : ∀ t n, memOk t = true → memOk (here t n).2 = true) :
    Keeps (atomic d a w o sc acc simple resv arg data rel here) :=
  keeps_bind keeps_getC fun _ => keeps_bind keeps_atomTarget fun _ => keeps_get_bind fun _ _ =>
    keeps_bind keeps_trapIf fun _ => keeps_bind keeps_atomScope fun _ => keeps_bind keeps_settleBytes fun _ =>
    keeps_get_bind fun _ _ => keeps_bind keeps_blockIf fun _ => keeps_bind keeps_meter fun _ =>
    keeps_get_bind fun _ _ =>
    keeps_ite
      (keeps_bind keeps_release fun _ => keeps_bind (keeps_modify fun _ h => memOk_trMem h) fun _ =>
        keeps_ite
          (keeps_bind (keeps_atHome fun _ _ h => hhere _ _ h) fun _ => keeps_bind keeps_atomOut fun _ =>
            keeps_ite keeps_acquire (keeps_pure _))
          keeps_atomAway)
      (keeps_bind (keeps_modify fun _ h => memOk_trMem h) fun _ =>
        keeps_ite
          (keeps_bind (keeps_atHome fun _ _ h => hhere _ _ h) fun _ => keeps_bind keeps_atomOut fun _ =>
            keeps_ite keeps_acquire (keeps_pure _))
          keeps_atomAway)

theorem outOk_execAmo {op d a b q w o sc s} (hs : memOk s = true) : OutOk (execAmo op d a b q w o sc s) :=
  outOk_run
    (keeps_bind keeps_getC fun _ => keeps_bind keeps_opTrap fun _ =>
      keeps_ite (keeps_atomic fun _ _ h => memOk_rouOp h) (keeps_pure _))
    hs

theorem outOk_execAmocas {d a b c q w o sc s} (hs : memOk s = true) : OutOk (execAmocas d a b c q w o sc s) :=
  outOk_run
    (keeps_bind keeps_getC fun _ => keeps_bind keeps_opTrap fun _ =>
      keeps_ite (keeps_atomic fun _ _ h => memOk_rouCas h) (keeps_pure _))
    hs

theorem outOk_execLr {d a q w o sc s} (hs : memOk s = true) : OutOk (execLr d a q w o sc s) :=
  outOk_run
    (keeps_bind keeps_getC fun _ => keeps_bind keeps_opTrap fun _ =>
      keeps_ite (keeps_atomic fun _ _ h => memOk_rouLoadR h) (keeps_pure _))
    hs

theorem outOk_execSc {d a b q w o sx s} (hs : memOk s = true) : OutOk (execSc d a b q w o sx s) :=
  outOk_run
    (keeps_bind keeps_getC fun _ => keeps_bind keeps_opTrap fun _ =>
      keeps_ite (keeps_atomic fun _ _ h => memOk_rouStoreC h) (keeps_pure _))
    hs

theorem outOk_execFence {o sc q s} (hs : memOk s = true) : OutOk (execFence o sc q s) :=
  outOk_run
    (keeps_bind keeps_getC fun _ =>
      keeps_ite
        (keeps_bind keeps_blockIf fun _ =>
          keeps_ite
            (keeps_bind keeps_release fun _ =>
              keeps_ite (keeps_bind keeps_settleLoads fun _ => keeps_bind keeps_farWait fun _ => keeps_acquire)
                (keeps_pure _))
            (keeps_ite (keeps_bind keeps_settleLoads fun _ => keeps_bind keeps_farWait fun _ => keeps_acquire)
              (keeps_pure _)))
        (keeps_pure _))
    hs

theorem memOk_peekPte {s ag asid va} (hs : memOk s = true) : memOk (peekPte s ag asid va).2 = true := by
  have hw : memOk (walk s (Agent_die ag) asid va).2 = true := memOk_walk hs
  unfold peekPte
  generalize walk s (Agent_die ag) asid va = w at hw
  split
  · exact hs
  · cases tlbFind s ag asid va with
    | some t => exact hs
    | none =>
      obtain ⟨r, t⟩ := w
      cases r <;> exact hw

theorem memOk_peek {s ag asid va acc} (hs : memOk s = true) : memOk (peek s ag asid va acc).2 = true := by
  unfold peek
  split
  next e =>
    have h := memOk_snd (memOk_peekPte hs) e
    exact memOk_ite_snd h h
  next e => exact (memOk_snd (memOk_peekPte hs) e :)

theorem memOk_wbPart {s c ln lo hi scope} (hs : memOk s = true) : memOk (wbPart s c ln lo hi scope) = true := by
  unfold wbPart
  refine memOk_ite ?_ ?_
  · split
    · exact memOk_l1WriteBackM (memOk_setL1 hs)
    · exact hs
  · split
    · refine memOk_clcWriteBackM (memOk_setClc ?_)
      split
      · exact memOk_l1WriteBackM (memOk_setL1 hs)
      · exact hs
    · split
      · exact memOk_l1WriteBackM (memOk_setL1 hs)
      · exact hs

theorem memOk_cwbPages {s c asid scope hi k va} (hs : memOk s = true) :
    memOk (cwbPages s c asid scope hi k va) = true := by
  induction k generalizing s c asid scope hi va with
  | zero =>
    unfold cwbPages
    exact hs
  | succ n ih =>
    unfold cwbPages
    refine memOk_ite hs (ih ?_)
    dsimp only
    split
    next e =>
      have h := memOk_snd (memOk_peek hs) e
      exact memOk_ite (memOk_foldl h fun _ _ h => memOk_wbPart h) h
    next e => exact (memOk_snd (memOk_peek hs) e :)

theorem outOk_execCwb {a b q sc s} (hs : memOk s = true) : OutOk (execCwb a b q sc s) :=
  outOk_run
    (keeps_bind keeps_getC fun _ =>
      keeps_ite (keeps_ite (keeps_modify fun _ h => memOk_upd (memOk_cwbPages (memOk_drainAll h))) (keeps_pure _))
        (keeps_pure _))
    hs

theorem outOk_execPref {m clc s} (hs : memOk s = true) : OutOk (execPref m clc s) := by
  unfold execPref
  refine outOk_run (keeps_bind keeps_getC fun _ => keeps_modify fun _ h => ?_) hs
  split
  next e =>
    have h := memOk_snd (memOk_peek h) e
    exact memOk_ite h (memOk_ite (memOk_clcEnsure (memOk_meterFor h)) (memOk_l1Ensure (memOk_meterFor h)))
  next e => exact (memOk_snd (memOk_peek h) e :)

theorem outOk_execTlbinv {a b q all s} (hs : memOk s = true) : OutOk (execTlbinv a b q all s) :=
  outOk_run
    (keeps_bind keeps_getC fun _ =>
      keeps_ite (keeps_bind keeps_trapIf fun _ => keeps_modify fun _ h => memOk_update (memOk_upd h)) (keeps_pure _))
    hs

/-! ### The functions of Machine/TileOps.lean -/

theorem keeps_bindingM {n} : Keeps (bindingM n) := by
  unfold bindingM
  refine keeps_bind keeps_getC fun _ => ?_
  split
  · exact keeps_pure _
  · exact keeps_throw _

theorem keeps_tileOpnd {t below above} : Keeps (tileOpnd t below above) := by
  unfold tileOpnd
  refine keeps_bind keeps_getC fun _ => keeps_bind keeps_bindingM fun _ => ?_
  dsimp only
  split
  · exact keeps_throw _
  · exact keeps_get_bind fun _ _ => keeps_get_bind fun _ _ => keeps_pure _

theorem keeps_noEffect {i} : Keeps (noEffect i) :=
  keeps_modify fun _ h => memOk_trRec h

theorem keeps_openingWait {t} : Keeps (openingWait t) :=
  keeps_get_bind fun _ _ => keeps_blockIf

theorem keeps_needLine {b t} : Keeps (needLine b t) := by
  unfold needLine
  refine keeps_get_bind fun _ h => ?_
  split
  next e =>
    have h := memOk_snd (memOk_tileNeed h) e
    split
    · exact keeps_bind (keeps_set h) fun _ => keeps_pure _
    · exact keeps_bind (keeps_set (memOk_delLine h)) fun _ => keeps_throw _
    · exact keeps_bind (keeps_set h) fun _ => keeps_throw _

theorem keeps_readLine {b t} : Keeps (readLine b t) := by
  unfold readLine
  refine keeps_bind keeps_openingWait fun _ => keeps_get_bind fun _ h => ?_
  split
  · exact keeps_bind keeps_blockIf fun _ => keeps_bind keeps_trapIf fun _ => keeps_pure _
  · split
    · exact keeps_bind (keeps_set (memOk_useLine h)) fun _ => keeps_pure _
    · exact keeps_bind keeps_blockIf fun _ => keeps_bind keeps_needLine fun _ => keeps_bind keeps_acquire fun _ =>
        keeps_bind (keeps_modify fun _ h => memOk_updLine (memOk_useLine h)) fun _ => keeps_pure _

theorem outOk_execTbind {f d v s} (hs : memOk s = true) : OutOk (execTbind f d v s) := by
  unfold execTbind
  refine outOk_run
    (keeps_bind keeps_getC fun _ => keeps_bind keeps_loadClean fun _ => keeps_get_bind fun _ h =>
      keeps_bind (keeps_set (memOk_actsAs h)) fun _ => ?_)
    hs
  dsimp only
  split
  · exact keeps_throw _
  · exact keeps_modC

theorem outOk_execTitin {f i s} (hs : memOk s = true) : OutOk (execTitin f i s) :=
  outOk_run (keeps_bind keeps_bindingM fun _ => keeps_bind keeps_trapIf fun _ => keeps_modC) hs

theorem outOk_execTld {r t row s} (hs : memOk s = true) : OutOk (execTld r t row s) :=
  outOk_run (keeps_bind keeps_tileOpnd fun _ => keeps_bind keeps_readLine fun _ => keeps_outG) hs

theorem outOk_execTcol {r t col s} (hs : memOk s = true) : OutOk (execTcol r t col s) :=
  outOk_run (keeps_bind keeps_tileOpnd fun _ => keeps_bind keeps_readLine fun _ => keeps_outG) hs

theorem memOk_pinLine {s c id n} (hs : memOk s = true) : memOk (pinLine s c id n) = true :=
  memOk_updCtx (memOk_updLine hs)

theorem outOk_execTacq {t s} (hs : memOk s = true) : OutOk (execTacq t s) := by
  unfold execTacq
  refine outOk_run
    (keeps_bind keeps_tileOpnd fun _ => keeps_bind keeps_openingWait fun _ => keeps_get_bind fun _ _ => ?_)
    hs
  dsimp only
  split
  · exact keeps_bind (keeps_pure _) fun _ =>
      keeps_bind (keeps_modify fun _ h => memOk_pinLine (memOk_useLine h)) fun _ => keeps_acquire
  · exact keeps_bind keeps_trapIf fun _ => keeps_bind keeps_blockIf fun _ => keeps_bind keeps_needLine fun _ =>
      keeps_bind (keeps_modify fun _ h => memOk_pinLine (memOk_useLine h)) fun _ => keeps_acquire

theorem memOk_discardOpen {s core l} (hs : memOk s = true) : memOk (discardOpen s core l) = true :=
  memOk_sendDiscard (memOk_delLine hs)

theorem memOk_unpinOne {s c id} (hs : memOk s = true) : memOk (unpinOne s c id) = true :=
  memOk_updCtx (memOk_unpinLine hs)

theorem outOk_execTdrop {t s} (hs : memOk s = true) : OutOk (execTdrop t s) := by
  unfold execTdrop
  refine outOk_run
    (keeps_bind keeps_tileOpnd fun _ => keeps_bind keeps_openingWait fun _ => keeps_get_bind fun _ h => ?_)
    hs
  split
  · exact keeps_bind keeps_blockIf fun _ => keeps_set (memOk_discardOpen h)
  · split
    · exact keeps_set (memOk_unpinOne h)
    · exact keeps_noEffect

theorem outOk_execThint {t h s} (hs : memOk s = true) : OutOk (execThint t h s) := by
  unfold execThint
  refine outOk_run
    (keeps_bind keeps_tileOpnd fun _ => keeps_bind keeps_openingWait fun _ => keeps_get_bind fun _ h => ?_)
    hs
  dsimp only
  split
  · exact keeps_set (memOk_setCtc (memOk_updLine h))
  · exact keeps_pure _

theorem outOk_execTwopen {t zero s} (hs : memOk s = true) : OutOk (execTwopen t zero s) := by
  unfold execTwopen
  refine outOk_run (keeps_bind keeps_getC fun _ => keeps_bind keeps_bindingM fun _ => ?_) hs
  dsimp only
  split
  · exact keeps_throw _
  · exact keeps_get_bind fun _ h => keeps_bind keeps_openingWait fun _ =>
      keeps_ite keeps_noEffect (keeps_bind keeps_trapIf fun _ => keeps_set (memOk_newFill h))

theorem outOk_execTst {r t row s} (hs : memOk s = true) : OutOk (execTst r t row s) := by
  unfold execTst
  refine outOk_run
    (keeps_bind keeps_getC fun _ => keeps_bind keeps_tileOpnd fun _ => keeps_bind keeps_openingWait fun _ =>
      keeps_get_bind fun _ h => ?_)
    hs
  split
  · exact keeps_bind keeps_trapIf fun _ => keeps_bind keeps_blockIf fun _ => keeps_set (memOk_updLine h)
  · exact keeps_noEffect

theorem outOk_execTpost {t wb s} (hs : memOk s = true) : OutOk (execTpost t wb s) := by
  unfold execTpost
  refine outOk_run
    (keeps_bind keeps_tileOpnd fun _ => keeps_bind keeps_openingWait fun _ => keeps_get_bind fun _ _ => ?_)
    hs
  split
  · exact keeps_bind keeps_trapIf fun _ => keeps_bind keeps_blockIf fun _ => keeps_bind keeps_release fun _ =>
      keeps_get_bind fun _ _ =>
      keeps_ite (keeps_bind keeps_pin fun _ => keeps_modify fun _ h => memOk_updLine h)
        (keeps_modify fun _ h => memOk_updLine h)
  · exact keeps_noEffect

theorem outOk_execTldm {d m size s} (hs : memOk s = true) : OutOk (execTldm d m size s) :=
  outOk_run
    (keeps_bind keeps_getC fun _ => keeps_bind keeps_pieces fun _ =>
      keeps_bind (keeps_modify fun _ h => memOk_trMem h) fun _ => keeps_loadOut)
    hs

theorem outOk_execTstm {g a m s} (hs : memOk s = true) : OutOk (execTstm g a m s) :=
  outOk_run (keeps_bind keeps_getC fun _ => keeps_bind keeps_storeMem fun _ => keeps_modify fun _ h => memOk_trMem h)
    hs

theorem keeps_mboxAddr {va acc} : Keeps (mboxAddr va acc) :=
  keeps_bind keeps_xlat fun _ => keeps_get_bind fun _ _ => keeps_bind keeps_trapIf fun _ => keeps_pure _

theorem outOk_execMbld {d m s} (hs : memOk s = true) : OutOk (execMbld d m s) :=
  outOk_run
    (keeps_bind keeps_getC fun _ => keeps_bind keeps_mboxAddr fun _ => keeps_get_bind fun _ h =>
      keeps_set (memOk_upd (memOk_trOverlap h)))
    hs

theorem outOk_execMbst {d m s} (hs : memOk s = true) : OutOk (execMbst d m s) := by
  unfold execMbst
  refine outOk_run (keeps_bind keeps_getC fun _ => keeps_bind keeps_mboxAddr fun _ => keeps_get_bind fun s h => ?_) hs
  split
  next n t e =>
    have ht : memOk t = true := (memOk_snd (memOk_draw h) e :)
    extract_lets core
    split
    next e => exact keeps_set (memOk_mboxSend (memOk_snd (memOk_ite_snd h (q := (Config.choose n % 58, t)) ht) e :))

theorem outOk_execMbcast {d m s} (hs : memOk s = true) : OutOk (execMbcast d m s) :=
  outOk_run (keeps_bind keeps_getC fun _ => keeps_bind keeps_trapIf fun _ => keeps_modify fun _ h => memOk_mboxSend h)
    hs

/-! ### The functions of Machine/Track.lean -/

theorem memOk_setEng {s core f} (hs : memOk s = true) : memOk (setEng s core f) = true :=
  memOk_update hs

theorem memOk_addTrack {s c t} (hs : memOk s = true) : memOk (addTrack s c t).2 = true :=
  memOk_updCtx hs

theorem memOk_allSaved {s f} (hs : memOk s = true) : memOk (allSaved s f) = true :=
  memOk_update hs

theorem memOk_mapDeps {s core f} (hs : memOk s = true) : memOk (mapDeps s core f) = true :=
  memOk_allSaved (memOk_setEng hs)

theorem memOk_mapTrack {s c f} (hs : memOk s = true) : memOk (mapTrack s c f) = true :=
  memOk_allSaved (memOk_updCtx hs)

theorem memOk_endTrack {s core c id} (hs : memOk s = true) : memOk (endTrack s core c id) = true :=
  memOk_mapDeps (memOk_mapTrack hs)

theorem memOk_narrowTrack {s core c id f} (hs : memOk s = true) : memOk (narrowTrack s core c id f) = true := by
  unfold narrowTrack
  exact memOk_mapDeps (memOk_mapTrack hs)

theorem keeps_nextCmd : Keeps (nextCmd) :=
  keeps_bind keeps_getC fun _ => keeps_bind keeps_modC fun _ => keeps_pure _

/-! ### The functions of Machine/Copy.lean -/

theorem memOk_updX {s core id f} (hs : memOk s = true) : memOk (updX s core id f) = true :=
  memOk_setEng hs

theorem memOk_xFault {s core k sub va ak} (hs : memOk s = true) : memOk (xFault s core k sub va ak) = true :=
  memOk_engineFault hs

theorem memOk_xRun {s core k m} (hs : memOk s = true) (hm : Keeps m) : memOk (xRun s core k m) = true := by
  unfold xRun
  split
  next e => exact (memOk_snd (memOk_eRun hm hs) e :)
  next e => exact (memOk_snd (memOk_eRun hm hs) e :)
  next e => exact memOk_xFault (memOk_snd (memOk_eRun hm hs) e :)

theorem memOk_destsTo {s c tid f} (hs : memOk s = true) : memOk (destsTo s c tid f) = true :=
  memOk_ite (memOk_updCtx hs) (memOk_updSaved hs)

theorem keeps_eDest {core k pkg} : Keeps (eDest core k pkg) := by
  unfold eDest
  refine keeps_get_bind fun _ h => keeps_ite (keeps_pure _) (keeps_ite (keeps_set (memOk_destsTo h)) ?_)
  split
  · exact keeps_ite
      (keeps_bind keeps_eWaitIf fun _ => keeps_bind (keeps_set (memOk_update (memOk_sendFlush h))) fun _ =>
        keeps_throw _)
      (keeps_throw _)
  · exact keeps_pure _

theorem keeps_eDests {core k ps} : Keeps (eDests core k ps) := by
  induction ps generalizing core k with
  | nil =>
    unfold eDests
    exact keeps_pure _
  | cons n l ih =>
    unfold eDests
    exact keeps_bind keeps_eDest fun _ => ih

theorem memOk_readDesc {s core k} (hs : memOk s = true) : memOk (readDesc s core k) = true :=
  memOk_ite hs
    (memOk_xRun hs
      (keeps_bind keeps_eMeter fun _ => keeps_bind keeps_eReadClean fun _ => keeps_get_bind fun _ h =>
        keeps_bind (keeps_set (memOk_actsAs h)) fun _ => keeps_bind keeps_eFaultIf fun _ =>
        keeps_ite
          (keeps_bind keeps_eDests fun _ => keeps_get_bind fun _ h =>
            keeps_set (memOk_narrowTrack (memOk_updX (memOk_mapTrack (memOk_eDone h)))))
          (keeps_get_bind fun _ h => keeps_set (memOk_narrowTrack (memOk_updX (memOk_mapTrack (memOk_eDone h)))))))

theorem keeps_issueX {kind e foot init} : Keeps (issueX kind e foot init) :=
  keeps_get_bind fun _ _ => keeps_bind keeps_blockIf fun _ => keeps_bind keeps_blockIf fun _ =>
    keeps_ite
      (keeps_bind keeps_outbound fun _ =>
        keeps_ite
          (keeps_bind keeps_pin fun _ => keeps_bind keeps_settleIssue fun _ =>
            keeps_bind (keeps_modify fun _ h => memOk_releaseAt h) fun _ => keeps_bind keeps_nextCmd fun _ =>
            keeps_get_bind fun _ h => keeps_bind (keeps_set (memOk_setEng (memOk_addTrack (memOk_newId h)))) fun _ =>
            keeps_pure _)
          (keeps_bind keeps_settleIssue fun _ => keeps_bind (keeps_modify fun _ h => memOk_releaseAt h) fun _ =>
            keeps_bind keeps_nextCmd fun _ => keeps_get_bind fun _ h =>
            keeps_bind (keeps_set (memOk_setEng (memOk_addTrack (memOk_newId h)))) fun _ => keeps_pure _))
      (keeps_ite
        (keeps_bind keeps_pin fun _ => keeps_bind keeps_settleIssue fun _ =>
          keeps_bind (keeps_modify fun _ h => memOk_releaseAt h) fun _ => keeps_bind keeps_nextCmd fun _ =>
          keeps_get_bind fun _ h => keeps_bind (keeps_set (memOk_setEng (memOk_addTrack (memOk_newId h)))) fun _ =>
          keeps_pure _)
        (keeps_bind keeps_settleIssue fun _ => keeps_bind (keeps_modify fun _ h => memOk_releaseAt h) fun _ =>
          keeps_bind keeps_nextCmd fun _ => keeps_get_bind fun _ h =>
          keeps_bind (keeps_set (memOk_setEng (memOk_addTrack (memOk_newId h)))) fun _ => keeps_pure _))

theorem keeps_issueCopy {kind d e} : Keeps (issueCopy kind d e) := by
  unfold issueCopy
  refine keeps_bind keeps_getC fun _ => keeps_bind keeps_issueX fun _ => keeps_modify fun _ h => ?_
  split
  · exact memOk_readDesc h
  · exact h

theorem outOk_execXcopy {d e s} (hs : memOk s = true) : OutOk (execXcopy d e s) :=
  outOk_run keeps_issueCopy hs

theorem outOk_execXgather {d e s} (hs : memOk s = true) : OutOk (execXgather d e s) :=
  outOk_run keeps_issueCopy hs

theorem outOk_execXremote {d e s} (hs : memOk s = true) : OutOk (execXremote d e s) :=
  outOk_run keeps_issueCopy hs

theorem outOk_execXfill {d e s} (hs : memOk s = true) : OutOk (execXfill d e s) :=
  outOk_run keeps_issueCopy hs

theorem memOk_pumpFlush {s core} (hs : memOk s = true) : memOk (pumpFlush s core) = true :=
  memOk_foldl hs fun _ _ h => memOk_ite (memOk_updX h) (memOk_ite h (memOk_updX (memOk_sendFlush h)))

theorem outOk_execXflushrd {p e s} (hs : memOk s = true) : OutOk (execXflushrd p e s) :=
  outOk_run
    (keeps_bind keeps_getC fun _ => keeps_bind keeps_issueX fun _ => keeps_modify fun _ h => memOk_pumpFlush h)
    hs

theorem outOk_execXcancel {e s} (hs : memOk s = true) : OutOk (execXcancel e s) :=
  outOk_run (keeps_modify fun _ h => memOk_setEng h) hs

theorem outOk_execRop {op w a x r e s} (hs : memOk s = true) : OutOk (execRop op w a x r e s) :=
  outOk_run (keeps_bind keeps_getC fun _ => keeps_bind keeps_issueX fun _ => keeps_pure _) hs

theorem keeps_issueAll {kind a x r e} : Keeps (issueAll kind a x r e) :=
  keeps_bind keeps_getC fun _ => keeps_bind keeps_issueX fun _ => keeps_pure _

theorem outOk_execRcas4 {b r e s} (hs : memOk s = true) : OutOk (execRcas4 b r e s) :=
  outOk_run keeps_issueAll hs

theorem outOk_execRenq {h n r e s} (hs : memOk s = true) : OutOk (execRenq h n r e s) :=
  outOk_run keeps_issueAll hs

theorem outOk_execRdeq {h r e s} (hs : memOk s = true) : OutOk (execRdeq h r e s) :=
  outOk_run keeps_issueAll hs

theorem outOk_execRchase {b r e s} (hs : memOk s = true) : OutOk (execRchase b r e s) :=
  outOk_run keeps_issueAll hs

theorem keeps_eReadPsnL {w l} : Keeps (eReadPsnL w l) := by
  induction l generalizing w with
  | nil =>
    unfold eReadPsnL
    exact keeps_pure _
  | cons n l ih =>
    unfold eReadPsnL
    refine keeps_bind keeps_eXlat fun _ => keeps_get_bind fun _ h =>
      keeps_ite
        (keeps_bind (keeps_set (memOk_foldl_snd h fun _ _ h => ?_)) fun _ => keeps_bind (keeps_pure _) fun _ =>
          keeps_bind ih fun _ => keeps_pure _)
        (keeps_bind keeps_eAsk fun _ =>
          keeps_ite (keeps_bind (keeps_pure _) fun _ => keeps_bind ih fun _ => keeps_pure _)
            (keeps_bind (keeps_foldlM fun _ _ => keeps_bind keeps_eAsk fun _ => keeps_pure _) fun _ =>
              keeps_bind ih fun _ => keeps_pure _))
    exact memOk_engineRead h

theorem keeps_eReadPsn {w va n} : Keeps (eReadPsn w va n) :=
  keeps_bind keeps_eReadPsnL fun _ => keeps_pure _

theorem keeps_packetSrc {w k b n} : Keeps (packetSrc w k b n) := by
  unfold packetSrc
  split
  · exact keeps_pure _
  · exact keeps_bind keeps_eReadClean fun _ => keeps_eReadPsn
  · exact keeps_eReadPsn

theorem keeps_copyMove {core k b} : Keeps (copyMove core k b) := by
  unfold copyMove
  refine keeps_bind keeps_packetSrc fun _ =>
    keeps_ite
      (keeps_bind keeps_eMeter fun _ => keeps_bind (keeps_modify fun _ h => memOk_remoteWrite h) fun _ =>
        keeps_modify fun _ h => ?_)
      (keeps_bind keeps_eTargets fun _ => keeps_get_bind fun _ h =>
        keeps_ite
          (keeps_bind (keeps_set (memOk_updX h)) fun _ => keeps_bind (keeps_throw _) fun _ =>
            keeps_bind keeps_eDests fun _ => keeps_bind keeps_eMeter fun _ =>
            keeps_ite
              (keeps_bind (keeps_modify fun _ h => memOk_pinPoster h) fun _ => keeps_bind keeps_ePut fun _ =>
                keeps_modify fun _ h => ?_)
              (keeps_bind keeps_ePut fun _ => keeps_modify fun _ h => ?_))
          (keeps_bind keeps_eDests fun _ => keeps_bind keeps_eMeter fun _ =>
            keeps_ite
              (keeps_bind (keeps_modify fun _ h => memOk_pinPoster h) fun _ => keeps_bind keeps_ePut fun _ =>
                keeps_modify fun _ h => ?_)
              (keeps_bind keeps_ePut fun _ => keeps_modify fun _ h => ?_)))
  all_goals
    dsimp only
    split
    · exact memOk_narrowTrack (memOk_updX (memOk_eDone h))
    · exact memOk_updX (memOk_eDone h)

theorem memOk_copyStep {s core id} (hs : memOk s = true) : memOk (copyStep s core id) = true := by
  unfold copyStep
  split
  · refine memOk_ite hs ?_
    split
    · exact memOk_readDesc hs
    · exact memOk_ite (memOk_xRun hs keeps_copyMove) hs
  · exact hs

theorem outOk_execCopyPacket {s} (hs : memOk s = true) : OutOk (execCopyPacket s) := by
  unfold execCopyPacket
  split
  · exact outOk_next (memOk_copyStep hs)
  · exact outOk_next hs

theorem memOk_takenStep {s core id} (hs : memOk s = true) : memOk (takenStep s core id) = true := by
  unfold takenStep
  split
  · exact memOk_ite (memOk_pumpFlush (memOk_updX hs)) hs
  · exact hs

theorem outOk_execXremoteTaken {s} (hs : memOk s = true) : OutOk (execXremoteTaken s) := by
  unfold execXremoteTaken
  split
  · exact outOk_next (memOk_takenStep hs)
  · exact outOk_next hs

theorem keeps_eAtom {w pkg pa n arg data va} : Keeps (eAtom w pkg pa n arg data va) := by
  unfold eAtom
  refine keeps_get_bind fun _ h => ?_
  split
  · split
    · exact keeps_throw _
    · exact keeps_ite
        (keeps_bind (keeps_set (memOk_eDone h)) fun _ => keeps_bind keeps_eFaultIf fun _ =>
          keeps_bind keeps_eFaultIf fun _ => keeps_bind keeps_eFaultIf fun _ => keeps_pure _)
        (keeps_bind keeps_eFaultIf fun _ => keeps_bind keeps_eFaultIf fun _ => keeps_bind keeps_eFaultIf fun _ =>
          keeps_pure _)
  · exact keeps_bind (keeps_set (memOk_update (memOk_gwSend h))) fun _ => keeps_throw _

theorem keeps_xGot {core k bs fl} : Keeps (xGot core k bs fl) :=
  keeps_modify fun _ h => memOk_narrowTrack (memOk_updX (memOk_eDone h))

theorem keeps_xSent {core id} : Keeps (xSent core id) :=
  keeps_modify fun _ h => memOk_updX h

theorem keeps_ropMove {core k} : Keeps (ropMove core k) := by
  unfold ropMove
  refine keeps_bind keeps_eFaultIf fun _ => keeps_bind keeps_eFaultIf fun _ => keeps_bind keeps_eXlat fun _ =>
    keeps_get_bind fun _ _ => keeps_bind keeps_eFaultIf fun _ => keeps_bind keeps_eMeter fun _ =>
    keeps_bind keeps_xSent fun _ =>
    keeps_ite (keeps_bind keeps_eAtom fun _ => keeps_xGot)
      (keeps_get_bind fun _ h => keeps_bind keeps_eWaitIf fun _ =>
        keeps_bind (keeps_set (memOk_queueInval (memOk_rouOp (memOk_flushOwn h)))) fun _ => ?_)
  split
  · exact keeps_xGot
  · exact keeps_throw _

theorem keeps_xBlock {core k n mask} : Keeps (xBlock core k n mask) := by
  unfold xBlock
  split
  · exact keeps_pure _
  · exact keeps_bind keeps_eMeter fun _ => keeps_bind keeps_eReadClean fun _ => keeps_get_bind fun _ h =>
      keeps_bind (keeps_set (memOk_updX (memOk_eDone (memOk_actsAs h)))) fun _ => keeps_pure _

theorem keeps_cas4Xlat {w as} : Keeps (cas4Xlat w as) := by
  induction as generalizing w with
  | nil =>
    unfold cas4Xlat
    exact keeps_pure _
  | cons n l ih =>
    unfold cas4Xlat
    exact keeps_bind keeps_eXlat fun _ => keeps_bind ih fun _ => keeps_pure _

theorem keeps_cas4Move {core k} : Keeps (cas4Move core k) := by
  unfold cas4Move
  refine keeps_bind keeps_eFaultIf fun _ => keeps_bind keeps_eFaultIf fun _ => keeps_bind keeps_xBlock fun _ => ?_
  refine keeps_bind keeps_eFaultIf fun _ => keeps_bind keeps_eFaultIf fun _ => keeps_bind keeps_eFaultIf fun _ => ?_
  refine keeps_bind keeps_eFaultIf fun _ => keeps_bind keeps_cas4Xlat fun ts => keeps_get_bind fun _ _ => ?_
  split
  · exact keeps_pure _
  next ts pkg pa rest =>
    refine keeps_bind keeps_eFaultIf fun _ => keeps_bind keeps_eMeter fun _ => keeps_bind keeps_xSent fun _ => ?_
    refine keeps_ite (keeps_bind keeps_eAtom fun _ => keeps_xGot) (keeps_get_bind fun s h => ?_)
    refine keeps_bind keeps_eWaitIf fun _ => ?_
    generalize (pkg, pa) :: rest = ts
    dsimp only
    refine keeps_bind (keeps_set (memOk_foldl ?_ fun _ _ h => memOk_ite (memOk_queueInval h) h)) fun _ => ?_
    · exact memOk_rouCas4 (memOk_foldl h fun _ _ h => memOk_flushOwn h)
    · split
      · exact keeps_xGot
      · exact keeps_throw _

theorem keeps_listMove {core k} : Keeps (listMove core k) :=
  keeps_bind keeps_eFaultIf fun _ => keeps_bind keeps_eFaultIf fun _ => keeps_bind keeps_eFaultIf fun _ =>
    keeps_bind keeps_eXlat fun _ => keeps_get_bind fun _ _ => keeps_bind keeps_eFaultIf fun _ =>
    keeps_bind keeps_eMeter fun _ => keeps_bind keeps_xSent fun _ =>
    keeps_ite (keeps_bind keeps_eAtom fun _ => keeps_xGot)
      (keeps_bind keeps_ownLine fun _ =>
        keeps_ite (keeps_bind keeps_rouEnq fun _ => keeps_xGot) (keeps_bind keeps_rouDeq fun _ => keeps_xGot))

theorem keeps_chaseMove {core k} : Keeps (chaseMove core k) := by
  unfold chaseMove
  refine keeps_bind keeps_eFaultIf fun _ => keeps_bind keeps_eFaultIf fun _ => keeps_bind keeps_xBlock fun _ =>
    keeps_bind keeps_eFaultIf fun _ =>
    keeps_ite keeps_xGot
      (keeps_bind keeps_eMeter fun _ => keeps_bind (keeps_modify fun _ h => memOk_updX h) fun _ =>
        keeps_ite
          (keeps_bind (keeps_pure _) fun _ => keeps_bind (keeps_modify fun _ h => memOk_updX h) fun _ =>
            keeps_bind keeps_rouHop fun _ => ?_)
          (keeps_bind keeps_linkAt fun _ => keeps_get_bind fun _ _ => keeps_bind (keeps_pure _) fun _ =>
            keeps_bind (keeps_modify fun _ h => memOk_updX h) fun _ => keeps_bind keeps_rouHop fun _ => ?_))
  · split
    · exact keeps_xGot
    · exact keeps_modify fun _ h => memOk_updX h
  · split
    · exact keeps_xGot
    · exact keeps_modify fun _ h => memOk_updX h

theorem memOk_rouMove {s core id kind} (hs : memOk s = true) : memOk (rouMove s core id kind) = true := by
  unfold rouMove
  split
  · refine memOk_ite hs (memOk_xRun hs ?_)
    split
    · exact keeps_ropMove
    · exact keeps_cas4Move
    · exact keeps_chaseMove
    · exact keeps_listMove
  · exact hs

theorem outOk_execRouRcas4 {s} (hs : memOk s = true) : OutOk (execRouRcas4 s) := by
  unfold execRouRcas4
  split
  · exact outOk_next (memOk_rouMove hs)
  · exact outOk_next hs

theorem outOk_execRouRenq {s} (hs : memOk s = true) : OutOk (execRouRenq s) := by
  unfold execRouRenq
  split
  · exact outOk_next (memOk_rouMove hs)
  · exact outOk_next hs

theorem outOk_execRouRdeq {s} (hs : memOk s = true) : OutOk (execRouRdeq s) := by
  unfold execRouRdeq
  split
  · exact outOk_next (memOk_rouMove hs)
  · exact outOk_next hs

theorem outOk_execRchaseHop {s} (hs : memOk s = true) : OutOk (execRchaseHop s) := by
  unfold execRchaseHop
  split
  · exact outOk_next (memOk_rouMove hs)
  · exact outOk_next hs

theorem memOk_xEnd {s core k} (hs : memOk s = true) : memOk (xEnd s core k) = true :=
  memOk_pumpFlush
    (memOk_countEv (memOk_setEng (memOk_endTrack (memOk_eDone (memOk_flagsTo (memOk_ite hs (memOk_xstatTo hs)))))))

theorem memOk_completeStep {s core id} (hs : memOk s = true) : memOk (completeStep s core id) = true := by
  unfold completeStep
  split
  · exact hs
  · refine memOk_ite ?_ (memOk_ite hs ?_)
    · split
      · split
        next e => exact (memOk_snd (memOk_eRun keeps_eWrite hs) e :)
        next e => exact memOk_xEnd (memOk_snd (memOk_eRun keeps_eWrite hs) e :)
      · exact memOk_xEnd hs
    · split
      · exact memOk_xEnd hs
      · exact memOk_xRun hs
          (keeps_bind keeps_eMeter fun _ => keeps_bind keeps_eWrite fun _ => keeps_modify fun _ h => memOk_xEnd h)

theorem outOk_execXCommandComplete {s} (hs : memOk s = true) : OutOk (execXCommandComplete s) := by
  unfold execXCommandComplete
  split
  · exact outOk_next (memOk_completeStep hs)
  · exact outOk_next hs

/-! ### The functions of Machine/Matrix.lean -/

theorem keeps_issueM {op limit accs binds vals rm foot slots} :
    Keeps (issueM op limit accs binds vals rm foot slots) :=
  keeps_bind keeps_getC fun _ => keeps_get_bind fun _ _ => keeps_bind keeps_opTrap fun _ =>
    keeps_bind keeps_blockIf fun _ => keeps_bind keeps_blockIf fun _ => keeps_bind keeps_blockIf fun _ =>
    keeps_bind keeps_settleIssue fun _ => keeps_bind (keeps_modify fun _ h => memOk_releaseAt h) fun _ =>
    keeps_bind keeps_nextCmd fun _ => keeps_get_bind fun _ h =>
    keeps_set (memOk_setEng (memOk_upd (memOk_addTrack (memOk_newId h))))

theorem keeps_issueTile {op r t} : Keeps (issueTile op r t) :=
  keeps_bind keeps_getC fun _ => keeps_get_bind fun _ _ => keeps_issueM

theorem keeps_issueProd {op kind f a w c rm} : Keeps (issueProd op kind f a w c rm) :=
  keeps_bind keeps_getC fun _ => keeps_get_bind fun _ _ => keeps_issueM

theorem outOk_execMzero {f s} (hs : memOk s = true) : OutOk (execMzero f s) :=
  outOk_run keeps_issueM hs

theorem outOk_execMld {r t off s} (hs : memOk s = true) : OutOk (execMld r t off s) :=
  outOk_run keeps_issueTile hs

theorem outOk_execMst {r t off s} (hs : memOk s = true) : OutOk (execMst r t off s) :=
  outOk_run keeps_issueTile hs

theorem outOk_execMaddt {r t off s} (hs : memOk s = true) : OutOk (execMaddt r t off s) :=
  outOk_run keeps_issueTile hs

theorem outOk_execMma {f a w c off rm s} (hs : memOk s = true) : OutOk (execMma f a w c off rm s) :=
  outOk_run keeps_issueProd hs

theorem outOk_execMmaq {f a w c off rm s} (hs : memOk s = true) : OutOk (execMmaq f a w c off rm s) :=
  outOk_run keeps_issueProd hs

theorem outOk_execMmag {f a w c off rm s} (hs : memOk s = true) : OutOk (execMmag f a w c off rm s) :=
  outOk_run keeps_issueProd hs

theorem outOk_execMman {f n s} (hs : memOk s = true) : OutOk (execMman f n s) :=
  outOk_run (keeps_bind keeps_getC fun _ => keeps_get_bind fun _ _ => keeps_issueM) hs

theorem outOk_execMscale {f sr rm s} (hs : memOk s = true) : OutOk (execMscale f sr rm s) :=
  outOk_run (keeps_bind keeps_getC fun _ => keeps_issueM) hs

theorem outOk_execMcvt {d a toF32 rm s} (hs : memOk s = true) : OutOk (execMcvt d a toF32 rm s) :=
  outOk_run (keeps_bind keeps_getC fun _ => keeps_issueM) hs

theorem memOk_updM {s core id f} (hs : memOk s = true) : memOk (updM s core id f) = true :=
  memOk_setEng hs

theorem memOk_mFault {s core m sub va ak} (hs : memOk s = true) : memOk (mFault s core m sub va ak) = true :=
  memOk_updM (memOk_engineFault hs)

theorem memOk_mUnpin {s core m} (hs : memOk s = true) : memOk (mUnpin s core m) = true :=
  memOk_updM (memOk_foldl hs fun _ _ h => memOk_unpinLine h)

theorem memOk_mLine {s m b co} (hs : memOk s = true) : memOk (mLine s m b co).2 = true := by
  unfold mLine
  dsimp only
  split
  · exact hs
  · exact memOk_tileNeed hs

theorem memOk_mAcquire {s core m ts} (hs : memOk s = true) : memOk (mAcquire s core m ts) = true := by
  unfold mAcquire
  refine memOk_ite (memOk_updM hs) ?_
  split
  next e =>
    split
    · refine memOk_mFault (memOk_delLine (memOk_snd (memOk_foldl_snd hs fun _ _ h => ?_) e))
      exact memOk_mLine h
    · refine memOk_ite (memOk_updM (memOk_snd (memOk_foldl_snd hs fun _ _ h => ?_) e))
        (memOk_updM
          (memOk_updCtx
            (memOk_foldl
              (memOk_foldl (memOk_snd (memOk_foldl_snd hs fun _ _ h => ?_) e) fun _ _ h =>
                memOk_updLine (memOk_useLine h)) fun _ _ h => memOk_acquireAt h)))
      · exact memOk_mLine h
      · exact memOk_mLine h

theorem memOk_mNarrow {s core id} (hs : memOk s = true) : memOk (mNarrow s core id) = true := by
  unfold mNarrow
  split
  · exact memOk_narrowTrack hs
  · exact hs

theorem memOk_mPrepare {s core m} (hs : memOk s = true) : memOk (mPrepare s core m) = true := by
  unfold mPrepare
  dsimp only
  split
  · split
    · exact memOk_mFault hs
    · exact memOk_mAcquire hs
    · exact memOk_mFault hs
  · split
    · exact memOk_mFault hs
    · exact memOk_mAcquire hs
    · exact memOk_mFault hs
  · split
    · exact memOk_mFault hs
    · split
      · exact memOk_mFault hs
      · exact memOk_updM hs
      · exact memOk_updM hs
  · exact memOk_ite (memOk_mFault hs) (memOk_updM hs)
  · exact memOk_ite (memOk_updM hs) (memOk_ite (memOk_mFault hs) (memOk_updM hs))
  · split
    · split
      · exact memOk_mFault hs
      · split
        · exact memOk_mFault hs
        · exact memOk_mAcquire hs
    · split
      next e => exact memOk_updM (memOk_snd (memOk_eRun keeps_eReadClean hs) e :)
      next e => exact memOk_mFault (memOk_snd (memOk_eRun keeps_eReadClean hs) e :)
      next e =>
        have h := memOk_snd (memOk_eRun keeps_eReadClean hs) e
        split
        · exact memOk_mFault (memOk_actsAs (memOk_eDone h))
        · split
          · refine memOk_ite ?_ (memOk_mNarrow (memOk_updM (memOk_updCtx (memOk_actsAs (memOk_eDone h)))))
            split
            · exact memOk_mFault (memOk_mNarrow (memOk_updM (memOk_updCtx (memOk_actsAs (memOk_eDone h)))))
            · split
              · exact memOk_mFault (memOk_mNarrow (memOk_updM (memOk_updCtx (memOk_actsAs (memOk_eDone h)))))
              · exact memOk_mAcquire (memOk_mNarrow (memOk_updM (memOk_updCtx (memOk_actsAs (memOk_eDone h)))))
          · exact memOk_mNarrow (memOk_updM (memOk_updCtx (memOk_actsAs (memOk_eDone h))))
  · split
    · exact memOk_mFault hs
    · split
      · exact memOk_mFault hs
      · exact memOk_mAcquire hs
  · split
    · exact memOk_mFault hs
    · split
      · exact memOk_mFault hs
      · exact memOk_mAcquire hs
  · split
    · exact memOk_mFault hs
    · split
      · exact memOk_mFault hs
      · exact memOk_mAcquire hs
  · exact memOk_updM hs

theorem memOk_mStep {s core m} (hs : memOk s = true) : memOk (mStep s core m) = true := by
  unfold mStep
  dsimp only
  split
  · exact memOk_updM (memOk_setCtx hs)
  · split
    · exact hs
    · exact memOk_updM (memOk_setCtx hs)
  · split
    · exact hs
    · exact memOk_updM (memOk_setCtx hs)
  · split
    · exact memOk_updM (memOk_updLine hs)
    · exact memOk_updM (memOk_trRec hs)
  · exact memOk_updM (memOk_setCtx hs)
  · exact memOk_updM (memOk_setCtx hs)
  · split
    · exact hs
    · split
      · exact memOk_updM (memOk_setCtx hs)
      · exact hs
  · split
    · exact hs
    · split
      · exact memOk_updM (memOk_setCtx hs)
      · exact hs
  · split
    · exact hs
    · split
      · exact memOk_updM (memOk_setCtx hs)
      · exact hs
  · split
    · exact hs
    · split
      · exact memOk_updM (memOk_setCtx hs)
      · exact hs
  · exact hs

theorem memOk_slotStep {s core} (hs : memOk s = true) : memOk (slotStep s core) = true :=
  memOk_setEng hs

theorem outOk_execMatrixSlotBoundary {s} (hs : memOk s = true) : OutOk (execMatrixSlotBoundary s) := by
  unfold execMatrixSlotBoundary
  split
  · exact outOk_next (memOk_slotStep hs)
  · exact outOk_next hs

theorem memOk_kstep {s core} (hs : memOk s = true) : memOk (kstep s core) = true := by
  unfold kstep
  refine memOk_ite hs ?_
  dsimp only
  split
  · refine memOk_setEng (memOk_foldl hs fun _ _ h => ?_)
    split
    · exact memOk_ite (memOk_mPrepare h) h
    · exact h
  · split
    · refine memOk_ite (memOk_mNarrow (memOk_mStep (memOk_setEng (memOk_foldl hs fun _ _ h => ?_))))
        (memOk_mStep (memOk_setEng (memOk_foldl hs fun _ _ h => ?_)))
      · split
        · exact memOk_ite (memOk_mPrepare h) h
        · exact h
      · split
        · exact memOk_ite (memOk_mPrepare h) h
        · exact h
    · refine memOk_mStep (memOk_setEng (memOk_foldl hs fun _ _ h => ?_))
      split
      · exact memOk_ite (memOk_mPrepare h) h
      · exact h

theorem outOk_execMatrixKstep {s} (hs : memOk s = true) : OutOk (execMatrixKstep s) := by
  unfold execMatrixKstep
  split
  · exact outOk_next (memOk_kstep hs)
  · exact outOk_next hs

theorem memOk_retire {s core id} (hs : memOk s = true) : memOk (retire s core id) = true := by
  unfold retire
  split
  · exact memOk_ite hs (memOk_setEng (memOk_endTrack (memOk_updCtx (memOk_mUnpin (memOk_flagsTo hs)))))
  · exact hs

theorem outOk_execMatrixRetire {s} (hs : memOk s = true) : OutOk (execMatrixRetire s) := by
  unfold execMatrixRetire
  split
  · exact outOk_next (memOk_retire hs)
  · exact outOk_next hs

/-! ### The functions of Machine/Task.lean -/

theorem memOk_carFault {s q code va ak} (hs : memOk s = true) : memOk (carFault s q code va ak) = true :=
  memOk_raiseFault (memOk_setQ hs)

theorem memOk_setPhase {s q n} (hs : memOk s = true) : memOk (setPhase s q n) = true :=
  memOk_setQ hs

theorem memOk_completionEnd {s q va c} (hs : memOk s = true) : memOk (completionEnd s q va c).2 = true := by
  unfold completionEnd
  split
  next e => exact memOk_carFault (memOk_snd (memOk_carWrite hs) e :)
  next e => exact (memOk_snd (memOk_carWrite hs) e :)
  next e => exact (memOk_snd (memOk_carWrite hs) e :)

theorem memOk_completionOut {s q c} (hs : memOk s = true) : memOk (completionOut s q c).2 = true := by
  unfold completionOut
  dsimp only
  split
  · split
    next e => exact memOk_carFault (memOk_snd (memOk_carWrite hs) e :)
    next e => exact (memOk_snd (memOk_carWrite hs) e :)
    next e =>
      have h := memOk_snd (memOk_carWrite hs) e
      split
      next e =>
        have h := memOk_snd (memOk_translate h) e
        exact memOk_ite_snd (memOk_completionEnd (memOk_setPhase h)) (memOk_setPhase (memOk_update (memOk_gwSend h)))
      next e => exact memOk_completionEnd (memOk_setPhase (memOk_snd (memOk_translate h) e :))
  · exact memOk_ite_snd (memOk_completionEnd (memOk_setPhase (memOk_eDone hs))) hs
  · exact memOk_completionEnd hs
  · exact hs

theorem memOk_flushCompletions {s q k} (hs : memOk s = true) : memOk (flushCompletions s q k) = true := by
  induction k generalizing s q with
  | zero =>
    unfold flushCompletions
    exact hs
  | succ n ih =>
    unfold flushCompletions
    split
    · exact hs
    · split
      next e =>
        have h := memOk_snd (memOk_completionOut hs) e
        refine ih ?_
        split
        · exact memOk_dropHeld (memOk_setQ h)
        · exact memOk_setQ h
      next e => exact (memOk_snd (memOk_completionOut hs) e :)

theorem memOk_complete {s q c} (hs : memOk s = true) : memOk (complete s q c) = true :=
  memOk_ite (memOk_flushCompletions (memOk_setQ hs)) (memOk_setQ hs)

theorem memOk_heldCompletions {s q write} (hs : memOk s = true) : memOk (heldCompletions s q write) = true :=
  memOk_flushCompletions (memOk_setQ hs)

theorem memOk_queueOff {s q} (hs : memOk s = true) : memOk (queueOff s q) = true :=
  memOk_update
    (memOk_movesEnd (memOk_setQ (memOk_dropFaults (memOk_foldl (memOk_update hs) fun _ _ h => memOk_freeFut h))))

theorem memOk_queueSettle {s q} (hs : memOk s = true) : memOk (queueSettle s q) = true :=
  memOk_ite (memOk_queueOff hs) hs

theorem memOk_freeContext {s c} (hs : memOk s = true) : memOk (freeContext s c) = true :=
  memOk_updCtx (memOk_svtLeave (memOk_update hs))

theorem memOk_dropTiles {s c} (hs : memOk s = true) : memOk (dropTiles s c) = true :=
  memOk_foldl (memOk_foldl hs fun _ _ h => memOk_discardOpen h) fun _ _ h => memOk_unpinLine h

theorem memOk_dropSavedTiles {s t v} (hs : memOk s = true) : memOk (dropSavedTiles s t v) = true :=
  memOk_foldl (memOk_update hs) fun _ _ h => memOk_sendDiscard h

theorem memOk_publish {s t v} (hs : memOk s = true) : memOk (publish s t v) = true := by
  unfold publish
  dsimp only
  split
  · exact memOk_dropHeld (memOk_applyResult (memOk_futEnd hs))
  · exact memOk_complete (memOk_futEnd hs)
  · exact memOk_futEnd hs

theorem memOk_endTask {s c v} (hs : memOk s = true) : memOk (endTask s c v) = true :=
  memOk_queueSettle (memOk_dropChildren (memOk_publish (memOk_freeContext (memOk_dropTiles (memOk_resvCancel hs)))))

theorem keeps_endM {v} : Keeps (endM v) :=
  keeps_bind (keeps_modify fun _ h => memOk_drainAll (memOk_sampleAll h)) fun _ => keeps_bind keeps_getC fun _ =>
    keeps_get_bind fun _ _ => keeps_bind keeps_blockIf fun _ => keeps_bind keeps_blockIf fun _ =>
    keeps_bind keeps_blockIf fun _ => keeps_bind keeps_modC fun _ => keeps_bind keeps_release fun _ =>
    keeps_modify fun _ h => memOk_endTask h

theorem memOk_dropCommands {s tid} (hs : memOk s = true) : memOk (dropCommands s tid) = true :=
  memOk_foldl hs fun _ _ h =>
    memOk_setEng
      (memOk_foldl (memOk_foldl h fun _ _ h => memOk_endTrack (memOk_mUnpin h)) fun _ _ h =>
        memOk_endTrack (memOk_eDone h))

theorem memOk_removeTask {s tid} (hs : memOk s = true) : memOk (removeTask s tid) = true := by
  unfold removeTask
  dsimp only
  split
  · exact memOk_update (memOk_freeContext (memOk_dropTiles (memOk_resvCancel (memOk_dropCommands hs))))
  · refine memOk_update ?_
    split
    · split
      · exact memOk_dropSavedTiles (memOk_dropCommands hs)
      · exact memOk_dropCommands hs
    · exact memOk_dropCommands hs

theorem memOk_stopTask {s t status} (hs : memOk s = true) : memOk (stopTask s t status) = true := by
  unfold stopTask
  refine memOk_queueSettle ?_
  split
  · exact memOk_ite (memOk_setQ (memOk_dropChildren (memOk_futStop (memOk_removeTask hs))))
      (memOk_complete (memOk_dropChildren (memOk_futStop (memOk_removeTask hs))))
  · exact memOk_ite (memOk_dropHeld (memOk_dropChildren (memOk_futStop (memOk_removeTask hs))))
      (memOk_dropChildren (memOk_futStop (memOk_removeTask hs)))

theorem memOk_reclaimStep {s tid} (hs : memOk s = true) : memOk (reclaimStep s tid) = true := by
  unfold reclaimStep
  split
  · exact hs
  · refine memOk_ite (memOk_stopTask hs) ?_
    split
    · exact memOk_ite hs (memOk_ite (memOk_ite hs (memOk_setFut hs)) (memOk_stopTask hs))
    · exact hs

theorem outOk_execReclamationStop {s} (hs : memOk s = true) : OutOk (execReclamationStop s) := by
  unfold execReclamationStop
  split
  · exact outOk_next (memOk_reclaimStep hs)
  · exact outOk_next hs

theorem memOk_loseTask {s tid} (hs : memOk s = true) : memOk (loseTask s tid) = true := by
  unfold loseTask
  split
  · exact hs
  · exact memOk_stopTask (memOk_queueFail hs)

theorem memOk_loseContext {s c} (hs : memOk s = true) : memOk (loseContext s c) = true := by
  unfold loseContext
  split
  · exact memOk_loseTask hs
  · exact hs

/-! ### The functions of Machine/EvMmu.lean -/

theorem outOk_execResultLands {s} (hs : memOk s = true) : OutOk (execResultLands s) := by
  unfold execResultLands
  split
  · exact outOk_next (memOk_updCtx hs)
  · exact outOk_next hs

theorem memOk_switchTo {s c} (hs : memOk s = true) : memOk (switchTo s c) = true := by
  unfold switchTo
  split
  · exact memOk_ite hs (memOk_updCtx (memOk_update hs))
  · exact memOk_update hs

theorem outOk_execContextSwitch {s} (hs : memOk s = true) : OutOk (execContextSwitch s) := by
  unfold execContextSwitch
  split
  · exact outOk_next (memOk_switchTo hs)
  · exact outOk_next hs

theorem outOk_execInstructionFetch {s} (hs : memOk s = true) : OutOk (execInstructionFetch s) := by
  unfold execInstructionFetch
  split
  · exact outOk_next (memOk_fetchBlock hs)
  · exact outOk_next hs

theorem outOk_execTlbMissWalk {s} (hs : memOk s = true) : OutOk (execTlbMissWalk s) := by
  unfold execTlbMissWalk
  split
  · exact outOk_next (memOk_ite hs (memOk_walkFor hs))
  · exact outOk_next hs

theorem memOk_invalDone {s i} (hs : memOk s = true) : memOk (invalDone s i) = true := by
  unfold invalDone
  split
  · exact hs
  · refine memOk_ite (memOk_dropXlat hs) ?_
    dsimp only
    split
    · exact memOk_updCtx (memOk_unpark (memOk_update (memOk_dropXlat hs)))
    · exact memOk_unpark (memOk_update (memOk_dropXlat hs))

theorem outOk_execPageInvalidationComplete {s} (hs : memOk s = true) : OutOk (execPageInvalidationComplete s) := by
  unfold execPageInvalidationComplete
  split
  · exact outOk_next (memOk_invalDone hs)
  · exact outOk_next hs

theorem memOk_invalStart {s w by_} (hs : memOk s = true) : memOk (invalStart s w by_) = true :=
  memOk_ite hs (memOk_ite (memOk_devSet hs) (memOk_update (memOk_devSet hs)))

theorem outOk_execMminvcPage {s} (hs : memOk s = true) : OutOk (execMminvcPage s) := by
  unfold execMminvcPage
  split
  · exact outOk_next (memOk_invalStart hs)
  · exact outOk_next hs

theorem outOk_execMminvcAll {s} (hs : memOk s = true) : OutOk (execMminvcAll s) := by
  unfold execMminvcAll
  split
  · exact outOk_next (memOk_invalStart hs)
  · exact outOk_next hs

theorem memOk_slotTake {s d i} (hs : memOk s = true) : memOk (slotTake s d i) = true :=
  memOk_ite (memOk_irq (memOk_slotMark hs)) (memOk_slotMark hs)

theorem memOk_migClaim {s die asid va pte e compress target} (hs : memOk s = true) :
    memOk (migClaim s die asid va pte e compress target) = true :=
  memOk_update (memOk_ptePut hs)

theorem memOk_sweepLeaf {s asid va pte e} (hs : memOk s = true) : memOk (sweepLeaf s asid va pte e) = true := by
  unfold sweepLeaf
  refine memOk_ite (memOk_ptePut hs)
    (memOk_ite (memOk_ite ?_ hs)
      (memOk_ite
        (memOk_ite (memOk_ite (memOk_irq (memOk_ptePut hs)) (memOk_ite (memOk_migClaim hs) hs)) (memOk_ptePut hs))
        hs))
  split
  next e =>
    have h := memOk_snd (memOk_draw hs) e
    split
    · exact memOk_ite (memOk_migClaim (memOk_slotTake h)) h
    · exact h

theorem memOk_sweepTable {s asid lvl t va} (hs : memOk s = true) : memOk (sweepTable s asid lvl t va) = true := by
  induction lvl generalizing s t va with
  | zero =>
    unfold sweepTable
    exact memOk_foldl hs fun _ _ h => memOk_ite (memOk_sweepLeaf h) h
  | succ lvl ih =>
    unfold sweepTable
    exact memOk_foldl hs fun _ _ h => memOk_ite (ih h) h

theorem memOk_sweep {s} (hs : memOk s = true) : memOk (sweep s) = true :=
  memOk_ite hs (memOk_update (memOk_foldl hs fun _ _ h => memOk_ite (memOk_sweepTable h) h))

theorem outOk_execAccessBitSweep {s} (hs : memOk s = true) : OutOk (execAccessBitSweep s) := by
  unfold execAccessBitSweep
  split
  · exact outOk_next (memOk_sweep hs)
  · exact outOk_next hs

theorem memOk_updMig {s pte f} (hs : memOk s = true) : memOk (updMig s pte f) = true :=
  memOk_update hs

theorem memOk_dropMig {s pte} (hs : memOk s = true) : memOk (dropMig s pte) = true :=
  memOk_update hs

theorem memOk_migShot {s pte} (hs : memOk s = true) : memOk (migShot s pte) = true := by
  unfold migShot
  split
  · exact memOk_ite hs (memOk_updMig (memOk_dropXlat hs))
  · exact hs

theorem outOk_execMigrationShootDownDone {s} (hs : memOk s = true) : OutOk (execMigrationShootDownDone s) := by
  unfold execMigrationShootDownDone
  split
  · exact outOk_next (memOk_migShot hs)
  · exact outOk_next hs

theorem memOk_drainFrame {s pa} (hs : memOk s = true) : memOk (drainFrame s pa) = true :=
  memOk_foldl (memOk_foldl hs fun _ _ h => memOk_foldl h fun _ _ h => memOk_setL1 (memOk_l1WriteBack h)) fun _ _ h =>
    memOk_foldl h fun _ _ h => memOk_setClc (memOk_clcWriteBack h)

theorem memOk_migDrained {s pte} (hs : memOk s = true) : memOk (migDrained s pte) = true := by
  unfold migDrained
  split
  · exact memOk_ite hs (memOk_updMig (memOk_updateHbm (memOk_drainFrame hs)))
  · exact hs

theorem outOk_execMigrationDrainDone {s} (hs : memOk s = true) : OutOk (execMigrationDrainDone s) := by
  unfold execMigrationDrainDone
  split
  · exact outOk_next (memOk_migDrained hs)
  · exact outOk_next hs

theorem memOk_migFree {s m} (hs : memOk s = true) : memOk (migFree s m) = true :=
  memOk_ite (memOk_slotMark hs) hs

theorem memOk_migGiveUp {s m} (hs : memOk s = true) : memOk (migGiveUp s m) = true :=
  memOk_unparkPte (memOk_ite (memOk_ptePut (memOk_migFree (memOk_dropMig hs))) (memOk_migFree (memOk_dropMig hs)))

theorem memOk_migLate {s pte} (hs : memOk s = true) : memOk (migLate s pte) = true := by
  unfold migLate
  split
  · exact memOk_ite (memOk_migGiveUp hs) hs
  · exact hs

theorem outOk_execMigrationAbandon {s} (hs : memOk s = true) : OutOk (execMigrationAbandon s) := by
  unfold execMigrationAbandon
  split
  · exact outOk_next (memOk_migLate hs)
  · exact outOk_next hs

theorem memOk_compressTo {s frame slot} (hs : memOk s = true) : memOk (compressTo s frame slot) = true :=
  memOk_update (memOk_hbmPut (memOk_draw hs))

theorem memOk_copyFar {s frame f} (hs : memOk s = true) : memOk (copyFar s frame f) = true := by
  unfold copyFar
  split
  · exact memOk_foldl (memOk_hbmPut (memOk_zeroFrame hs)) fun _ _ h => memOk_ite (memOk_hbmWriteSec h) h
  · exact memOk_zeroFrame hs

theorem memOk_migCopied {s pte} (hs : memOk s = true) : memOk (migCopied s pte) = true := by
  unfold migCopied
  split
  · exact hs
  · refine memOk_ite hs
      (memOk_ite
        (memOk_ite (memOk_unparkPte (memOk_migFree (memOk_dropMig hs)))
          (memOk_giveBack (memOk_unparkPte (memOk_ptePut (memOk_tookNew (memOk_dropMig (memOk_compressTo hs)))))))
        (memOk_ite (memOk_unparkPte (memOk_dropMig hs)) ?_))
    split
    · exact memOk_ite hs (memOk_irq (memOk_updMig hs))
    next e =>
        exact memOk_giveBack
          (memOk_unparkPte (memOk_ptePut (memOk_tookNew (memOk_dropMig (memOk_copyFar (someOk_poolAlloc hs _ e :))))))

theorem outOk_execMigrationCopyDone {s} (hs : memOk s = true) : OutOk (execMigrationCopyDone s) := by
  unfold execMigrationCopyDone
  split
  · exact outOk_next (memOk_migCopied hs)
  · exact outOk_next hs

/-! ### The functions of Machine/Gateway.lean -/

theorem memOk_setSeen {s p f} (hs : memOk s = true) : memOk (setSeen s p f) = true :=
  memOk_update hs

theorem memOk_markDone {s p n} (hs : memOk s = true) : memOk (markDone s p n) = true :=
  memOk_setSeen hs

theorem memOk_e2eAck {s die k} (hs : memOk s = true) : memOk (e2eAck s die k) = true :=
  memOk_gwReply hs

theorem memOk_e2eRej {s die k refused} (hs : memOk s = true) : memOk (e2eRej s die k refused) = true :=
  memOk_gwReply hs

theorem memOk_respond {s die k ty op data} (hs : memOk s = true) : memOk (respond s die k ty op data) = true :=
  memOk_gwSend (memOk_e2eAck hs)

theorem memOk_atomAnswer {s die k op data} (hs : memOk s = true) : memOk (atomAnswer s die k op data) = true :=
  memOk_respond (memOk_markDone (memOk_setSeen hs))

theorem memOk_readFor {s die k} (hs : memOk s = true) : memOk (readFor s die k) = true :=
  memOk_ite (memOk_respond hs) (memOk_respond (memOk_homeRead hs))

theorem memOk_writeFor {s die k} (hs : memOk s = true) : memOk (writeFor s die k) = true :=
  memOk_ite (memOk_e2eRej (memOk_setSeen (memOk_setGw (memOk_markDone hs))))
    (memOk_e2eAck (memOk_ite (memOk_homePoison (memOk_markDone hs)) (memOk_homeWrite (memOk_markDone hs))))

theorem memOk_unhold {s k} (hs : memOk s = true) : memOk (unhold s k) = true :=
  memOk_foldl hs fun _ _ h => memOk_ite (memOk_setGw h) h

theorem memOk_wordAnswer {s die k r fl} (hs : memOk s = true) : memOk (wordAnswer s die k r fl) = true := by
  unfold wordAnswer
  split
  · exact memOk_atomAnswer hs
  · exact memOk_atomAnswer hs

theorem memOk_holdPkt {s die k} (hs : memOk s = true) : memOk (holdPkt s die k) = true :=
  memOk_setGw hs

theorem memOk_listFor {s die k} (hs : memOk s = true) : memOk (listFor s die k) = true := by
  unfold listFor
  refine memOk_ite (memOk_ite (memOk_holdPkt hs) ?_) ?_
  · split
    next e =>
      have h := memOk_snd (memOk_rouCas4 hs) e
      split
      · exact memOk_atomAnswer h
      · exact memOk_atomAnswer h
  · dsimp only
    split
    next e =>
        exact memOk_atomAnswer (memOk_eDone (memOk_snd (memOk_eRun (keeps_ite keeps_rouEnq keeps_rouDeq) hs) e :))
    next e => exact memOk_holdPkt (memOk_snd (memOk_eRun (keeps_ite keeps_rouEnq keeps_rouDeq) hs) e :)
    next e =>
      have h := memOk_snd (memOk_eRun (keeps_ite keeps_rouEnq keeps_rouDeq) hs) e
      exact memOk_ite (memOk_atomAnswer (memOk_eDone h)) (memOk_atomAnswer (memOk_eDone h))

theorem memOk_svtRegister {s die sec asid} (hs : memOk s = true) : memOk (svtRegister s die sec asid).2 = true :=
  memOk_ite_snd hs (memOk_ite_snd hs (memOk_update hs))

theorem memOk_svtRelease {s die sec} (hs : memOk s = true) : memOk (svtRelease s die sec).2 = true :=
  memOk_ite_snd (memOk_update hs) hs

theorem memOk_retroRelease {s old ctx n} (hs : memOk s = true) : memOk (retroRelease s old ctx n) = true :=
  memOk_foldl hs fun _ _ h => memOk_releaseAt h

theorem memOk_svtFor {s die k} (hs : memOk s = true) : memOk (svtFor s die k) = true := by
  unfold svtFor
  dsimp only
  split
  · exact memOk_atomAnswer (memOk_svtRegister hs)
  · split
    next e => exact memOk_atomAnswer (memOk_snd (memOk_svtAccess hs) e :)
    next e => exact memOk_holdPkt (memOk_snd (memOk_svtAccess hs) e :)
  · exact memOk_atomAnswer (memOk_svtRelease hs)
  · exact memOk_atomAnswer (memOk_retroRelease hs)

theorem memOk_atomFor {s die k} (hs : memOk s = true) : memOk (atomFor s die k) = true := by
  unfold atomFor
  refine memOk_ite (memOk_atomAnswer (memOk_unhold hs))
    (memOk_ite (memOk_atomAnswer (memOk_unhold hs)) (memOk_ite (memOk_holdPkt (memOk_unhold hs)) ?_))
  dsimp only
  split
  · exact memOk_wordAnswer (memOk_rouOp (memOk_unhold hs))
  · exact memOk_wordAnswer (memOk_rouOp (memOk_unhold hs))
  · exact memOk_wordAnswer (memOk_rouOp (memOk_unhold hs))
  · exact memOk_wordAnswer (memOk_rouOp (memOk_unhold hs))
  · exact memOk_wordAnswer (memOk_rouOp (memOk_unhold hs))
  · exact memOk_wordAnswer (memOk_rouOp (memOk_unhold hs))
  · exact memOk_wordAnswer (memOk_rouOp (memOk_unhold hs))
  · exact memOk_wordAnswer (memOk_rouOp (memOk_unhold hs))
  · exact memOk_wordAnswer (memOk_rouOp (memOk_unhold hs))
  · exact memOk_wordAnswer (memOk_rouOp (memOk_unhold hs))
  · exact memOk_wordAnswer (memOk_rouCas (memOk_unhold hs))
  · exact memOk_wordAnswer (memOk_rouLoadR (memOk_unhold hs))
  · exact memOk_wordAnswer (memOk_rouStoreC (memOk_unhold hs))
  · exact memOk_listFor (memOk_unhold hs)
  · exact memOk_listFor (memOk_unhold hs)
  · exact memOk_listFor (memOk_unhold hs)
  · exact memOk_svtFor (memOk_unhold hs)
  · exact memOk_svtFor (memOk_unhold hs)
  · exact memOk_svtFor (memOk_unhold hs)
  · exact memOk_svtFor (memOk_unhold hs)
  · exact memOk_atomAnswer (memOk_unhold hs)

theorem memOk_performFor {s die k} (hs : memOk s = true) : memOk (performFor s die k) = true := by
  unfold performFor
  split
  · exact memOk_readFor (memOk_markDone hs)
  · exact memOk_writeFor hs
  · exact memOk_atomFor hs

theorem memOk_replyPart {s c k i p r} (hs : memOk s = true) : memOk (replyPart s c k i p r) = true :=
  memOk_ite (memOk_updFlight (memOk_putPart hs)) (memOk_putPart hs)

theorem memOk_replyFlights {s pkg eseq r} (hs : memOk s = true) : memOk (replyFlights s pkg eseq r) = true :=
  memOk_foldl hs fun _ _ h => memOk_replyPart h

theorem memOk_replyTo {s pkg eseq r} (hs : memOk s = true) : memOk (replyTo s pkg eseq r) = true :=
  memOk_foldl (memOk_replyFlights (memOk_update hs)) fun _ _ h => memOk_cause h

theorem memOk_markDest {s c pkg} (hs : memOk s = true) : memOk (markDest s c pkg) = true :=
  memOk_ite (memOk_updCtx hs) (memOk_ite hs (memOk_update hs))

theorem memOk_clearMark {s c pkg} (hs : memOk s = true) : memOk (clearMark s c pkg) = true :=
  memOk_update (memOk_updCtx hs)

/-! ### The functions of Machine/EvFabric.lean -/

theorem memOk_widened {s die sector} (hs : memOk s = true) : memOk (widened s die sector) = true := by
  unfold widened
  split
  · exact hs
  · split
    · exact hs
    · refine memOk_ite (memOk_setSvt (memOk_retroRelease hs)) ?_
      dsimp only
      split
      · exact memOk_ite hs (memOk_setSvt (memOk_update hs))
      · exact memOk_update (memOk_gwSend hs)

theorem outOk_execSvtWidenAcked {s} (hs : memOk s = true) : OutOk (execSvtWidenAcked s) := by
  unfold execSvtWidenAcked
  split
  · exact outOk_next (memOk_widened hs)
  · exact outOk_next hs

theorem memOk_mboxSettle {s w} (hs : memOk s = true) : memOk (mboxSettle s w) = true :=
  memOk_foldl hs fun _ _ h => memOk_putPart h

theorem wf_mboxLand {m : Memory} (hm : Memory.wf m = true) (w : MboxW) : Memory.wf (mboxLand m w) = true := by
  have hfold : ∀ l : List Nat, Memory.wf (l.foldl (fun m i =>
      Memory.store m (0xF00000000000 + (w.core / 8 * 8 + i) * 0x10000 + w.pa) w.data) m) = true := by
    intro l
    induction l generalizing m with
    | nil => exact hm
    | cons i l ih => exact ih (Memory.wf_store _ _ hm)
  unfold mboxLand
  split
  · exact hfold _
  · exact Memory.wf_store _ _ hm

theorem memOk_mboxDone {s i} (hs : memOk s = true) : memOk (mboxDone s i) = true := by
  unfold mboxDone
  split
  next w _ =>
    have h : memOk (mboxSettle s w) = true := memOk_mboxSettle hs
    exact memOk_ite (memOk_setMbox h (wf_mboxLand (memOk_mbox h) w)) hs
  · exact hs

theorem outOk_execMbcastLand {s} (hs : memOk s = true) : OutOk (execMbcastLand s) := by
  unfold execMbcastLand
  split
  · exact outOk_next (memOk_mboxDone hs)
  · exact outOk_next hs

theorem outOk_execMbstLand {s} (hs : memOk s = true) : OutOk (execMbstLand s) := by
  unfold execMbstLand
  split
  · exact outOk_next (memOk_mboxDone hs)
  · exact outOk_next hs

theorem memOk_snoopRoom {s pa} (hs : memOk s = true) : memOk (snoopRoom s pa) = true := by
  unfold snoopRoom
  split
  · exact memOk_ite (memOk_snoopInv hs) hs
  · exact hs

theorem memOk_hostRead {s port ha own data} (hs : memOk s = true) : memOk (hostRead s port ha own data) = true := by
  unfold hostRead
  split
  · exact hs
  · split
    · exact memOk_ite (memOk_setSnoop hs) (memOk_setSnoop (memOk_hbmReadSecs hs))
    · exact memOk_setSnoop (memOk_hbmReadSecs (memOk_snoopRoom hs))

theorem outOk_execCxlHostReadShared {s} (hs : memOk s = true) : OutOk (execCxlHostReadShared s) := by
  unfold execCxlHostReadShared
  split
  · exact outOk_next (memOk_hostRead hs)
  · exact outOk_next hs

theorem outOk_execCxlHostReadOwn {s} (hs : memOk s = true) : OutOk (execCxlHostReadOwn s) := by
  unfold execCxlHostReadOwn
  split
  · exact outOk_next (memOk_hostRead hs)
  · exact outOk_next hs

theorem memOk_hostEvict {s port ha data} (hs : memOk s = true) : memOk (hostEvict s port ha data) = true := by
  unfold hostEvict
  split
  · exact hs
  · split
    · exact hs
    · exact memOk_setSnoop (memOk_hostData hs)

theorem outOk_execCxlHostEvict {s} (hs : memOk s = true) : OutOk (execCxlHostEvict s) := by
  unfold execCxlHostEvict
  split
  · exact outOk_next (memOk_hostEvict hs)
  · exact outOk_next hs

theorem outOk_execCxlHostSnoop {s} (hs : memOk s = true) : OutOk (execCxlHostSnoop s) :=
  outOk_next hs

theorem memOk_cxlDone {s c shared} (hs : memOk s = true) : memOk (cxlDone s c shared) = true :=
  memOk_updCtx (memOk_foldl hs fun _ _ h => memOk_ite h (memOk_modifyFar h fun _ hm => Memory.wf_write _ _ hm))

theorem outOk_execCxlCompletion {s} (hs : memOk s = true) : OutOk (execCxlCompletion s) := by
  unfold execCxlCompletion
  split
  · exact outOk_next (memOk_cxlDone hs)
  · exact outOk_next hs

theorem memOk_retrain {s p} (hs : memOk s = true) : memOk (retrain s p) = true :=
  memOk_setPort hs

theorem memOk_flitReject {s p crcOk} (hs : memOk s = true) : memOk (flitReject s p crcOk) = true :=
  memOk_setPort hs

theorem memOk_flitTake {s p f} (hs : memOk s = true) : memOk (flitTake s p f) = true :=
  memOk_setPort
    (memOk_ite (memOk_ite (memOk_retrain (memOk_setPort (memOk_setPort hs))) (memOk_setPort (memOk_setPort hs)))
      (memOk_setPort hs))

theorem memOk_flitArrive {s p f} (hs : memOk s = true) : memOk (flitArrive s p f) = true := by
  unfold flitArrive
  refine memOk_ite hs (memOk_ite (memOk_flitReject hs) ?_)
  dsimp only
  split
  · exact memOk_ite (memOk_cause (memOk_flitTake hs)) (memOk_flitTake hs)
  · exact memOk_flitTake hs

theorem outOk_execFlitReceive {s} (hs : memOk s = true) : OutOk (execFlitReceive s) := by
  unfold execFlitReceive
  split
  · exact outOk_next (memOk_flitArrive hs)
  · exact outOk_next hs

theorem memOk_ackNow {s p} (hs : memOk s = true) : memOk (ackNow s p) = true :=
  memOk_ite (memOk_setPort hs) hs

theorem outOk_execAckDeadline {s} (hs : memOk s = true) : OutOk (execAckDeadline s) := by
  unfold execAckDeadline
  split
  · exact outOk_next (memOk_ackNow hs)
  · exact outOk_next hs

theorem memOk_laneDown {s p lane} (hs : memOk s = true) : memOk (laneDown s p lane) = true :=
  memOk_ite (memOk_retrain (memOk_setPort hs)) (memOk_setPort hs)

theorem outOk_execLaneFail {s} (hs : memOk s = true) : OutOk (execLaneFail s) := by
  unfold execLaneFail
  split
  · exact outOk_next (memOk_laneDown hs)
  · exact outOk_next hs

theorem memOk_trained {s p last} (hs : memOk s = true) : memOk (trained s p last) = true := by
  unfold trained
  dsimp only
  split
  · exact hs
  · exact memOk_ite hs (memOk_setPort hs)

theorem outOk_execRetrainSuccess {s} (hs : memOk s = true) : OutOk (execRetrainSuccess s) := by
  unfold execRetrainSuccess
  split
  · exact outOk_next (memOk_trained hs)
  · exact outOk_next hs

theorem memOk_resendPort {s p} (hs : memOk s = true) : memOk (resendPort s p) = true :=
  memOk_foldl hs fun _ _ h => memOk_portQueue (memOk_setGw h)

theorem memOk_trainLate {s p} (hs : memOk s = true) : memOk (trainLate s p) = true :=
  memOk_ite (memOk_resendPort (memOk_irq (memOk_setPort hs))) hs

theorem outOk_execRetrainTimeout {s} (hs : memOk s = true) : OutOk (execRetrainTimeout s) := by
  unfold execRetrainTimeout
  split
  · exact outOk_next (memOk_trainLate hs)
  · exact outOk_next hs

theorem memOk_lanefailW1C {s p w} (hs : memOk s = true) : memOk (lanefailW1C s p w) = true :=
  memOk_setPort hs

theorem memOk_linkRequest {s p w} (hs : memOk s = true) : memOk (linkRequest s p w) = true :=
  memOk_ite (memOk_retrain (memOk_setPort (memOk_lanefailW1C hs))) (memOk_lanefailW1C hs)

theorem outOk_execFlstatRq {s} (hs : memOk s = true) : OutOk (execFlstatRq s) := by
  unfold execFlstatRq
  split
  · exact outOk_next (memOk_linkRequest hs)
  · exact outOk_next hs

theorem memOk_tagFailed {s die k} (hs : memOk s = true) : memOk (tagFailed s die k) = true := by
  unfold tagFailed
  refine memOk_ite hs (memOk_e2eRej (memOk_ite (memOk_markDone (memOk_setSeen ?_)) (memOk_setSeen ?_)))
  · split
    · exact memOk_tagCheck hs
    · exact hs
  · split
    · exact memOk_tagCheck hs
    · exact hs

theorem memOk_requestArrive {s die k} (hs : memOk s = true) : memOk (requestArrive s die k) = true := by
  unfold requestArrive
  refine memOk_ite (memOk_readFor hs)
    (memOk_ite (memOk_ite (memOk_e2eRej hs) (memOk_e2eAck hs))
      (memOk_ite ?_ (memOk_ite hs (memOk_ite (memOk_performFor (memOk_draw hs)) (memOk_setGw (memOk_draw hs))))))
  split
  · exact memOk_respond hs
  · exact memOk_e2eAck hs

theorem memOk_flushAnswer {s die k} (hs : memOk s = true) : memOk (flushAnswer s die k) = true :=
  memOk_respond (memOk_setSeen hs)

theorem memOk_onceArrive {s die k} (hs : memOk s = true) : memOk (onceArrive s die k) = true := by
  unfold onceArrive
  refine memOk_ite (memOk_e2eAck hs) ?_
  dsimp only
  split
  · exact memOk_replyTo (memOk_markDone (memOk_e2eAck hs))
  · exact memOk_replyTo (memOk_markDone (memOk_e2eAck hs))
  · exact memOk_cause (memOk_markDone (memOk_e2eAck hs))
  · exact memOk_tileRequest (memOk_markDone (memOk_e2eAck hs))
  · exact memOk_tileReply (memOk_markDone (memOk_e2eAck hs))
  · exact memOk_cause (memOk_markDone (memOk_e2eAck hs))
  · exact memOk_markDone (memOk_e2eAck hs)

theorem memOk_packetArrive {s die k} (hs : memOk s = true) : memOk (packetArrive s die k) = true := by
  unfold packetArrive
  refine memOk_ite hs (memOk_ite (memOk_tagFailed hs) ?_)
  split
  · exact memOk_requestArrive hs
  · exact memOk_requestArrive hs
  · exact memOk_requestArrive hs
  · exact memOk_ite (memOk_flushAnswer (memOk_markDone hs)) (memOk_setGw (memOk_markDone hs))
  · exact memOk_cause hs
  · exact memOk_cause hs
  · exact hs
  · exact memOk_onceArrive hs

theorem outOk_execFlecenPacketAccept {s} (hs : memOk s = true) : OutOk (execFlecenPacketAccept s) := by
  unfold execFlecenPacketAccept
  split
  · exact outOk_next (memOk_packetArrive hs)
  · exact outOk_next hs

theorem memOk_heldStep {s die i} (hs : memOk s = true) : memOk (heldStep s die i) = true := by
  unfold heldStep
  split
  · exact memOk_ite (memOk_performFor (memOk_unhold hs)) hs
  · exact hs

theorem outOk_execHeldWritePerform {s} (hs : memOk s = true) : OutOk (execHeldWritePerform s) := by
  unfold execHeldWritePerform
  split
  · exact outOk_next (memOk_heldStep hs)
  · exact outOk_next hs

theorem memOk_flushStep {s die i} (hs : memOk s = true) : memOk (flushStep s die i) = true := by
  unfold flushStep
  split
  · exact memOk_ite (memOk_flushAnswer (memOk_setGw hs)) hs
  · exact hs

theorem outOk_execFlushingReadAnswer {s} (hs : memOk s = true) : OutOk (execFlushingReadAnswer s) := by
  unfold execFlushingReadAnswer
  split
  · exact outOk_next (memOk_flushStep hs)
  · exact outOk_next hs

theorem memOk_e2eDel {s die dst eseq} (hs : memOk s = true) : memOk (e2eDel s die dst eseq) = true :=
  memOk_gwPump (memOk_setGw hs)

theorem memOk_e2eAcked {s die dst eseq} (hs : memOk s = true) : memOk (e2eAcked s die dst eseq) = true := by
  unfold e2eAcked
  dsimp only
  split
  · exact hs
  · exact memOk_ite (memOk_setSeen (memOk_e2eDel hs)) (memOk_e2eDel hs)

theorem outOk_execE2eAckReceive {s} (hs : memOk s = true) : OutOk (execE2eAckReceive s) := by
  unfold execE2eAckReceive
  split
  · exact outOk_next (memOk_e2eAcked hs)
  · exact outOk_next hs

theorem memOk_resendE2E {s die e} (hs : memOk s = true) : memOk (resendE2E s die e) = true :=
  memOk_portQueue (memOk_setGw hs)

theorem memOk_dropPacket {s die e} (hs : memOk s = true) : memOk (dropPacket s die e) = true := by
  unfold dropPacket
  dsimp only
  split
  · exact memOk_markDest (memOk_setGw (memOk_e2eDel hs))
  · exact memOk_replyTo (memOk_e2eDel hs)
  · exact memOk_replyTo (memOk_e2eDel hs)
  · exact memOk_cause (memOk_e2eDel hs)
  · split
    · refine memOk_ite ?_ (memOk_e2eDel hs)
      split
      · exact memOk_ite (memOk_setFillSt (memOk_e2eDel hs)) (memOk_e2eDel hs)
      · exact memOk_e2eDel hs
    · exact memOk_e2eDel hs
  · exact memOk_e2eDel hs

theorem memOk_e2eRejected {s die dst eseq refused} (hs : memOk s = true) :
    memOk (e2eRejected s die dst eseq refused) = true := by
  unfold e2eRejected
  dsimp only
  split
  · exact hs
  · exact memOk_ite (memOk_markDest (memOk_e2eDel hs)) (memOk_ite (memOk_dropPacket hs) (memOk_resendE2E hs))

theorem outOk_execE2eRejectReceive {s} (hs : memOk s = true) : OutOk (execE2eRejectReceive s) := by
  unfold execE2eRejectReceive
  split
  · exact outOk_next (memOk_e2eRejected hs)
  · exact outOk_next hs

theorem memOk_e2eLate {s die dst eseq} (hs : memOk s = true) : memOk (e2eLate s die dst eseq) = true := by
  unfold e2eLate
  split
  · exact memOk_ite (memOk_resendE2E hs) hs
  · exact hs

theorem outOk_execE2eRetransmitTimeout {s} (hs : memOk s = true) : OutOk (execE2eRetransmitTimeout s) := by
  unfold execE2eRetransmitTimeout
  split
  · exact outOk_next (memOk_e2eLate hs)
  · exact outOk_next hs

theorem memOk_flushDone {s c pkg eseq status} (hs : memOk s = true) :
    memOk (flushDone s c pkg eseq status) = true := by
  unfold flushDone
  dsimp only
  split
  · exact memOk_ite (memOk_updCtx (memOk_ite (memOk_updCtx (memOk_clearMark hs)) (memOk_clearMark hs)))
      (memOk_updCtx (memOk_ite (memOk_updCtx (memOk_clearMark hs)) (memOk_clearMark hs)))
  · split
    · split
      · exact memOk_update
          (memOk_ite (memOk_xstatTo (memOk_destsTo (memOk_clearMark hs))) (memOk_destsTo (memOk_clearMark hs)))
      · exact memOk_update (memOk_clearMark hs)
    · exact memOk_setEng (memOk_clearMark hs)

theorem outOk_execFlushResponseReceive {s} (hs : memOk s = true) : OutOk (execFlushResponseReceive s) := by
  unfold execFlushResponseReceive
  split
  · exact outOk_next (memOk_flushDone hs)
  · exact outOk_next hs

/-! ### The functions of Machine/EvHbm.lean -/

theorem memOk_linkOk {s n} (hs : memOk s = true) : memOk (linkOk s n) = true :=
  memOk_setChan hs

theorem memOk_eccRead {s sec l} (hs : memOk s = true) : memOk (eccRead s sec l) = true := by
  induction l generalizing s sec with
  | nil =>
    unfold eccRead
    exact hs
  | cons n l ih => exact ih (memOk_ite (memOk_eccSec hs) hs)

theorem memOk_reply {s r} (hs : memOk s = true) : memOk (reply s r) = true :=
  memOk_updateHbm hs

theorem memOk_readPkt {s src tag pa len ecc} (hs : memOk s = true) : memOk (readPkt s src tag pa len ecc) = true :=
  memOk_ite hs (memOk_reply (memOk_hbmReadSecs (memOk_eccRead (memOk_linkOk hs))))

theorem outOk_execHbmReadPacket {s} (hs : memOk s = true) : OutOk (execHbmReadPacket s) := by
  unfold execHbmReadPacket
  split
  · exact outOk_next (memOk_readPkt hs)
  · exact outOk_next hs

theorem memOk_writePkt {s src tag pa data} (hs : memOk s = true) : memOk (writePkt s src tag pa data) = true :=
  memOk_ite hs (memOk_reply (memOk_hbmWrite (memOk_linkOk hs)))

theorem outOk_execHbmWritePacket {s} (hs : memOk s = true) : OutOk (execHbmWritePacket s) := by
  unfold execHbmWritePacket
  split
  · exact outOk_next (memOk_writePkt hs)
  · exact outOk_next hs

theorem memOk_ctlPkt {s k by_} (hs : memOk s = true) : memOk (ctlPkt s k by_) = true := by
  unfold ctlPkt
  refine memOk_ite hs ?_
  split
  · exact memOk_ite hs (memOk_ite (memOk_reviveBlock hs) (memOk_killBlock hs))
  · exact memOk_ite hs (memOk_update hs)

theorem outOk_execHbmControlPacket {s} (hs : memOk s = true) : OutOk (execHbmControlPacket s) := by
  unfold execHbmControlPacket
  split
  · exact outOk_next (memOk_ctlPkt hs)
  · exact outOk_next hs

theorem outOk_execHbmReply {s} (hs : memOk s = true) : OutOk (execHbmReply s) := by
  unfold execHbmReply
  split
  · exact outOk_next (memOk_updateHbm hs)
  · exact outOk_next hs

theorem memOk_refreshGroup {s n g hot} (hs : memOk s = true) : memOk (refreshGroup s n g hot) = true :=
  memOk_setChan hs

theorem outOk_execRefreshSlot {s} (hs : memOk s = true) : OutOk (execRefreshSlot s) := by
  unfold execRefreshSlot
  split
  · exact outOk_next (memOk_refreshGroup hs)
  · exact outOk_next hs

theorem memOk_scrubOn {s sec} (hs : memOk s = true) : memOk (scrubOn s sec) = true :=
  memOk_update hs

theorem memOk_scrub {s sec e} (hs : memOk s = true) : memOk (scrub s sec e) = true :=
  memOk_ite (memOk_eccRead (memOk_ite (memOk_scrubOn hs) hs)) (memOk_ite (memOk_scrubOn hs) hs)

theorem outOk_execPatrolScrub {s} (hs : memOk s = true) : OutOk (execPatrolScrub s) := by
  unfold execPatrolScrub
  split
  · exact outOk_next (memOk_scrub hs)
  · exact outOk_next hs

theorem memOk_deadWriteReg {s w} (hs : memOk s = true) : memOk (deadWriteReg s w) = true :=
  memOk_ite hs (memOk_ite (memOk_devSet hs) (memOk_updateHbm (memOk_devSet hs)))

theorem outOk_execHdeadcmdKill {s} (hs : memOk s = true) : OutOk (execHdeadcmdKill s) := by
  unfold execHdeadcmdKill
  split
  · exact outOk_next (memOk_deadWriteReg hs)
  · exact outOk_next hs

theorem outOk_execHdeadcmdRevive {s} (hs : memOk s = true) : OutOk (execHdeadcmdRevive s) := by
  unfold execHdeadcmdRevive
  split
  · exact outOk_next (memOk_deadWriteReg hs)
  · exact outOk_next hs

theorem memOk_deadBlocks {s revive k b} (hs : memOk s = true) : memOk (deadBlocks s revive k b) = true := by
  induction k generalizing s revive b with
  | zero =>
    unfold deadBlocks
    exact hs
  | succ n ih =>
    unfold deadBlocks
    exact memOk_ite hs (ih (memOk_ite (memOk_reviveBlock hs) (memOk_killBlock hs)))

theorem memOk_deadDone {s} (hs : memOk s = true) : memOk (deadDone s) = true := by
  unfold deadDone
  split
  · exact hs
  · exact memOk_updateHbm (memOk_deadBlocks hs)

theorem outOk_execHdeadcmdDone {s} (hs : memOk s = true) : OutOk (execHdeadcmdDone s) := by
  unfold execHdeadcmdDone
  split
  · exact outOk_next (memOk_deadDone hs)
  · exact outOk_next hs

theorem memOk_crcFail {s n} (hs : memOk s = true) : memOk (crcFail s n) = true :=
  memOk_ite hs (memOk_setChan hs)

theorem outOk_execInterfaceCrcFail {s} (hs : memOk s = true) : OutOk (execInterfaceCrcFail s) := by
  unfold execInterfaceCrcFail
  split
  · exact outOk_next (memOk_crcFail hs)
  · exact outOk_next hs

theorem memOk_failChan {s n} (hs : memOk s = true) : memOk (failChan s n) = true :=
  memOk_setDir (memOk_irq (memOk_setChan hs))

theorem memOk_ifTrained {s n ok} (hs : memOk s = true) : memOk (ifTrained s n ok) = true :=
  memOk_ite hs (memOk_ite (memOk_setChan hs) (memOk_ite (memOk_failChan hs) (memOk_setChan hs)))

theorem outOk_execInterfaceRetrainEnd {s} (hs : memOk s = true) : OutOk (execInterfaceRetrainEnd s) := by
  unfold execInterfaceRetrainEnd
  split
  · exact outOk_next (memOk_ifTrained hs)
  · exact outOk_next hs

theorem memOk_rouFor {s c tag pa f} (hs : memOk s = true) (hf : ∀ t, memOk t = true → memOk (f t).2 = true) :
    memOk (rouFor s c tag pa f) = true :=
  memOk_ite hs (memOk_reply (hf _ (memOk_flushOwn hs)))

theorem outOk_execRouSingleWordOp {s} (hs : memOk s = true) : OutOk (execRouSingleWordOp s) := by
  unfold execRouSingleWordOp
  split
  · exact outOk_next (memOk_rouFor hs fun _ h => memOk_rouOp h)
  · exact outOk_next (memOk_atomFor hs)
  · exact outOk_next (memOk_rouMove hs)
  · exact outOk_next hs

theorem outOk_execRouAmocas {s} (hs : memOk s = true) : OutOk (execRouAmocas s) := by
  unfold execRouAmocas
  split
  · exact outOk_next (memOk_rouFor hs fun _ h => memOk_rouCas h)
  · exact outOk_next (memOk_atomFor hs)
  · exact outOk_next hs

theorem outOk_execRouLr {s} (hs : memOk s = true) : OutOk (execRouLr s) := by
  unfold execRouLr
  split
  · exact outOk_next (memOk_rouFor hs fun _ h => memOk_rouLoadR h)
  · exact outOk_next (memOk_atomFor hs)
  · exact outOk_next hs

theorem outOk_execRouSc {s} (hs : memOk s = true) : OutOk (execRouSc s) := by
  unfold execRouSc
  split
  · exact outOk_next (memOk_rouFor hs fun _ h => memOk_rouStoreC h)
  · exact outOk_next (memOk_atomFor hs)
  · exact outOk_next hs

theorem memOk_resvExpire {s n c} (hs : memOk s = true) : memOk (resvExpire s n c) = true :=
  memOk_setChan hs

theorem outOk_execReservationExpiry {s} (hs : memOk s = true) : OutOk (execReservationExpiry s) := by
  unfold execReservationExpiry
  split
  · exact outOk_next (memOk_resvExpire hs)
  · exact outOk_next hs

theorem memOk_refillNow {s at_} (hs : memOk s = true) : memOk (refillNow s at_) = true :=
  memOk_update hs

theorem outOk_execBsuRefill {s} (hs : memOk s = true) : OutOk (execBsuRefill s) := by
  unfold execBsuRefill
  split
  · refine outOk_next ?_
    split
    · exact memOk_ite (memOk_refillNow hs) hs
    · exact hs
  · exact outOk_next hs

theorem memOk_bsuOnWrite {s w} (hs : memOk s = true) : memOk (bsuOnWrite s w) = true :=
  memOk_ite (memOk_devSet hs) (memOk_refillNow (memOk_devSet hs))

theorem memOk_bsuOffWrite {s w} (hs : memOk s = true) : memOk (bsuOffWrite s w) = true :=
  memOk_update (memOk_devSet hs)

theorem outOk_execBsuctlEnable {s} (hs : memOk s = true) : OutOk (execBsuctlEnable s) := by
  unfold execBsuctlEnable
  split
  · exact outOk_next (memOk_bsuOnWrite hs)
  · exact outOk_next hs

theorem outOk_execBsuctlDisable {s} (hs : memOk s = true) : OutOk (execBsuctlDisable s) := by
  unfold execBsuctlDisable
  split
  · exact outOk_next (memOk_bsuOffWrite hs)
  · exact outOk_next hs

theorem memOk_portUnit {s core} (hs : memOk s = true) : memOk (portUnit s core) = true := by
  unfold portUnit
  split
  · exact hs
  · exact memOk_update (memOk_devSet hs)

theorem memOk_portClock {s core} (hs : memOk s = true) : memOk (portClock s core) = true :=
  memOk_update (memOk_portUnit (memOk_portUnit (memOk_portUnit (memOk_portUnit hs))))

theorem outOk_execPortUnitSend {s} (hs : memOk s = true) : OutOk (execPortUnitSend s) := by
  unfold execPortUnitSend
  split
  · exact outOk_next (memOk_ite (memOk_portClock hs) hs)
  · exact outOk_next hs

/-! ### The functions of Machine/Sync.lean -/

theorem keeps_childTask {a} : Keeps (childTask a) := by
  unfold childTask
  refine keeps_bind keeps_getC fun _ => keeps_bind keeps_release fun _ => keeps_get_bind fun _ h =>
    keeps_bind (keeps_set (memOk_readTask h)) fun _ => ?_
  split
  · exact keeps_throw _
  · exact keeps_throw _
  · exact keeps_throw _
  · exact keeps_pure _

theorem keeps_newFuture {f} : Keeps (newFuture f) := by
  unfold newFuture
  refine keeps_get_bind fun _ h => ?_
  dsimp only
  split
  · exact keeps_throw _
  next e => exact keeps_bind (keeps_set (someOk_allocFut h _ e :)) fun _ => keeps_pure _

theorem outOk_execSpawn {d a s} (hs : memOk s = true) : OutOk (execSpawn d a s) :=
  outOk_run
    (keeps_bind keeps_getC fun _ => keeps_bind keeps_opTrap fun _ => keeps_bind keeps_childTask fun _ =>
      keeps_bind keeps_newFuture fun _ => keeps_bind keeps_outS fun _ => keeps_modify fun _ h =>
      memOk_becomeReady (memOk_newTid h))
    hs

theorem outOk_execSpawnr {d a n s} (hs : memOk s = true) : OutOk (execSpawnr d a n s) :=
  outOk_run
    (keeps_bind keeps_getC fun _ => keeps_bind keeps_opTrap fun _ => keeps_bind keeps_childTask fun _ =>
      keeps_get_bind fun _ _ => keeps_bind keeps_blockIf fun _ => keeps_bind keeps_newFuture fun _ =>
      keeps_bind keeps_outS fun _ => keeps_ite (keeps_modify fun _ h => memOk_update (memOk_update h)) (keeps_pure _))
    hs

theorem keeps_future {h} : Keeps (future h) := by
  unfold future
  refine keeps_get_bind fun _ _ => ?_
  split
  · exact keeps_throw _
  · exact keeps_bind keeps_trapIf fun _ => keeps_pure _

theorem outOk_execFget {d h s} (hs : memOk s = true) : OutOk (execFget d h s) :=
  outOk_run
    (keeps_bind keeps_getC fun _ => keeps_bind keeps_opTrap fun _ => keeps_bind keeps_future fun _ =>
      keeps_get_bind fun _ _ => keeps_bind keeps_trapIf fun _ => keeps_bind keeps_blockIf fun _ =>
      keeps_bind keeps_outS fun _ => keeps_acquire)
    hs

theorem outOk_execFdup {h handOff s} (hs : memOk s = true) : OutOk (execFdup h handOff s) :=
  outOk_run
    (keeps_bind keeps_getC fun _ => keeps_bind keeps_future fun _ => keeps_bind keeps_trapIf fun _ =>
      keeps_get_bind fun _ h => keeps_set (memOk_setFut h))
    hs

theorem outOk_execFdrop {h s} (hs : memOk s = true) : OutOk (execFdrop h s) :=
  outOk_run
    (keeps_bind keeps_getC fun _ => keeps_bind keeps_future fun _ => keeps_bind keeps_trapIf fun _ =>
      keeps_get_bind fun _ h => keeps_set (memOk_settle (memOk_setFut h)))
    hs

theorem outOk_execFpin {s} (hs : memOk s = true) : OutOk (execFpin s) :=
  outOk_run keeps_pin hs

theorem outOk_execTend {v s} (hs : memOk s = true) : OutOk (execTend v s) :=
  outOk_run keeps_modC hs

theorem memOk_beginSave {s c} (hs : memOk s = true) : memOk (beginSave s c) = true :=
  memOk_ite hs (memOk_updCtx (memOk_update hs))

theorem outOk_execYield {s} (hs : memOk s = true) : OutOk (execYield s) :=
  outOk_run (keeps_bind keeps_modC fun _ => keeps_modify fun _ h => memOk_ite (memOk_beginSave h) h) hs

theorem outOk_execEvwait {e t s} (hs : memOk s = true) : OutOk (execEvwait e t s) :=
  outOk_run (keeps_bind keeps_getC fun _ => keeps_blockIf) hs

theorem outOk_execEvinc {e i s} (hs : memOk s = true) : OutOk (execEvinc e i s) :=
  outOk_run keeps_modC hs

theorem outOk_execSev {t s} (hs : memOk s = true) : OutOk (execSev t s) :=
  outOk_run (keeps_bind keeps_getC fun _ => keeps_modify fun _ h => memOk_ite (memOk_trRec h) (memOk_cause h)) hs

theorem outOk_execWfe {s} (hs : memOk s = true) : OutOk (execWfe s) :=
  outOk_run (keeps_bind keeps_getC fun _ => keeps_bind keeps_blockIf fun _ => keeps_modC) hs

theorem memOk_setBar {s cl n b} (hs : memOk s = true) : memOk (setBar s cl n b) = true :=
  memOk_update hs

theorem outOk_execBar {n s} (hs : memOk s = true) : OutOk (execBar n s) := by
  unfold execBar
  refine outOk_run (keeps_get_bind fun _ _ => ?_) hs
  dsimp only
  split
  · exact keeps_bind keeps_blockIf fun _ => keeps_bind keeps_modC fun _ => keeps_acquire
  · exact keeps_bind keeps_release fun _ =>
      keeps_ite
        (keeps_bind (keeps_modify fun _ h => memOk_upd (memOk_setBar h)) fun _ => keeps_get_bind fun _ _ =>
          keeps_bind keeps_blockIf fun _ => keeps_bind keeps_modC fun _ => keeps_acquire)
        (keeps_bind keeps_modC fun _ => keeps_acquire)

theorem outOk_execSvreg {d a rel s} (hs : memOk s = true) : OutOk (execSvreg d a rel s) :=
  outOk_run
    (keeps_bind keeps_getC fun _ => keeps_bind keeps_opTrap fun _ => keeps_bind keeps_xlat fun _ =>
      keeps_get_bind fun _ h => keeps_bind keeps_trapIf fun _ =>
      keeps_ite (keeps_bind keeps_remoteAsk fun _ => keeps_outS)
        (keeps_bind (keeps_set (memOk_ite_snd (memOk_svtRelease h) (memOk_svtRegister h))) fun _ => keeps_outS))
    hs

theorem keeps_sendSm {g s len c kind} : Keeps (sendSm g s len c kind) :=
  keeps_bind keeps_getC fun _ => keeps_bind keeps_outbound fun _ => keeps_bind keeps_loadClean fun _ =>
    keeps_bind keeps_pin fun _ => keeps_bind keeps_nextCmd fun _ => keeps_get_bind fun _ h =>
    keeps_set (memOk_cause (memOk_setEng (memOk_newId h)))

theorem outOk_execSmst {g s len log c sx} (hsx : memOk sx = true) : OutOk (execSmst g s len log c sx) :=
  outOk_run keeps_sendSm hsx

theorem outOk_execSmred {g s len op t c sx} (hsx : memOk sx = true) : OutOk (execSmred g s len op t c sx) :=
  outOk_run keeps_sendSm hsx

theorem outOk_execSmjoin {d g w s} (hs : memOk s = true) : OutOk (execSmjoin d g w s) := by
  unfold execSmjoin
  refine outOk_run
    (keeps_bind keeps_getC fun _ => keeps_bind keeps_opTrap fun _ => keeps_bind keeps_outbound fun _ =>
      keeps_bind keeps_pin fun _ => keeps_get_bind fun _ h => ?_)
    hs
  split
  · split
    · exact keeps_throw _
    · exact keeps_outS
  · exact keeps_bind (keeps_set (memOk_cause (memOk_upd h))) fun _ => keeps_throw _

theorem outOk_execCkpt {s} (hs : memOk s = true) : OutOk (execCkpt s) :=
  outOk_run keeps_outbound hs

theorem outOk_execTrig {n s} (hs : memOk s = true) : OutOk (execTrig n s) :=
  outOk_run (keeps_modify fun _ h => memOk_trFire (memOk_trRec h)) hs

/-! ### The functions of Machine/Place.lean -/

theorem outOk_execLatchSet {s} (hs : memOk s = true) : OutOk (execLatchSet s) := by
  unfold execLatchSet
  split
  · exact outOk_next (memOk_updCtx hs)
  · exact outOk_next hs

theorem memOk_cbarSet {s pa w} (hs : memOk s = true) : memOk (cbarSet s pa w) = true :=
  memOk_setBar hs

theorem outOk_execCbarWrite {s} (hs : memOk s = true) : OutOk (execCbarWrite s) := by
  unfold execCbarWrite
  split
  · exact outOk_next (memOk_ite (memOk_cbarSet hs) hs)
  · exact outOk_next hs

theorem memOk_firstInterval {s q} (hs : memOk s = true) : memOk (firstInterval s q) = true :=
  memOk_ite hs (memOk_update (memOk_setQ hs))

theorem memOk_queueOn {s q w} (hs : memOk s = true) : memOk (queueOn s q w) = true :=
  memOk_ite hs (memOk_firstInterval (memOk_setQ (memOk_devSet (memOk_devSet hs))))

theorem outOk_execQctlEnable {s} (hs : memOk s = true) : OutOk (execQctlEnable s) := by
  unfold execQctlEnable
  split
  · exact outOk_next (memOk_ite (memOk_queueOn hs) hs)
  · exact outOk_next hs

theorem memOk_queueOffWrite {s q w} (hs : memOk s = true) : memOk (queueOffWrite s q w) = true := by
  unfold queueOffWrite
  dsimp only
  split
  · exact memOk_devSet hs
  · exact memOk_queueSettle (memOk_devSet (memOk_setQ hs))
  · exact memOk_queueOff (memOk_foldl (memOk_devSet hs) fun _ _ h => memOk_stopTask h)
  · exact hs

theorem outOk_execQctlDisable {s} (hs : memOk s = true) : OutOk (execQctlDisable s) := by
  unfold execQctlDisable
  split
  · exact outOk_next (memOk_ite (memOk_queueOffWrite hs) hs)
  · exact outOk_next hs

theorem memOk_prodWrite {s q w} (hs : memOk s = true) : memOk (prodWrite s q w) = true :=
  memOk_ite hs (memOk_ite (memOk_setQ hs) (memOk_devSet hs))

theorem outOk_execDoorbellProd {s} (hs : memOk s = true) : OutOk (execDoorbellProd s) := by
  unfold execDoorbellProd
  split
  · exact outOk_next (memOk_prodWrite hs)
  · exact outOk_next hs

theorem memOk_fresWrite {s q w} (hs : memOk s = true) : memOk (fresWrite s q w) = true := by
  unfold fresWrite
  split
  · exact hs
  · exact memOk_applyResult (memOk_setQ hs)

theorem outOk_execDoorbellFres {s} (hs : memOk s = true) : OutOk (execDoorbellFres s) := by
  unfold execDoorbellFres
  split
  · exact outOk_next (memOk_fresWrite hs)
  · exact outOk_next hs

theorem memOk_rootTaken {s q} (hs : memOk s = true) : memOk (rootTaken s q) = true :=
  memOk_setQ hs

theorem memOk_rootReady {s q i t} (hs : memOk s = true) : memOk (rootReady s q i t) = true := by
  unfold rootReady
  dsimp only
  split
  · exact hs
  next e => exact memOk_becomeReady (memOk_newTid (memOk_rootTaken (someOk_allocFut hs _ e :)))

theorem memOk_takeRoot {s q} (hs : memOk s = true) : memOk (takeRoot s q) = true := by
  unfold takeRoot
  dsimp only
  split
  next e => exact memOk_carFault (memOk_snd (memOk_readTask hs) e :)
  next e => exact (memOk_snd (memOk_readTask hs) e :)
  next e => exact memOk_complete (memOk_devSet (memOk_rootTaken (memOk_snd (memOk_readTask hs) e :)))
  next e => exact memOk_rootReady (memOk_snd (memOk_readTask hs) e :)

theorem memOk_rootStep {s q} (hs : memOk s = true) : memOk (rootStep s q) = true :=
  memOk_ite hs
    (memOk_ite (memOk_flushCompletions hs)
      (memOk_ite (memOk_takeRoot (memOk_flushCompletions hs)) (memOk_queueSettle (memOk_flushCompletions hs))))

theorem outOk_execRootTaskTake {s} (hs : memOk s = true) : OutOk (execRootTaskTake s) := by
  unfold execRootTaskTake
  split
  · exact outOk_next (memOk_rootStep hs)
  · exact outOk_next hs

theorem memOk_chunkTasks {s die t k i} (hs : memOk s = true) : memOk (chunkTasks s die t k i) = true := by
  induction k generalizing s die t i with
  | zero =>
    unfold chunkTasks
    exact hs
  | succ n ih => exact ih (memOk_update (memOk_update hs))

theorem memOk_grantChunk {s die key r} (hs : memOk s = true) : memOk (grantChunk s die key r) = true :=
  memOk_chunkTasks (memOk_ite (memOk_update (memOk_update hs)) (memOk_update (memOk_update hs)))

theorem outOk_execRangeChunkRequest {s} (hs : memOk s = true) : OutOk (execRangeChunkRequest s) := by
  unfold execRangeChunkRequest
  split
  · refine outOk_next ?_
    split
    · exact memOk_grantChunk hs
    · exact hs
  · exact outOk_next hs

theorem memOk_bindSaved {s core r} (hs : memOk s = true) : memOk (bindSaved s core r) = true := by
  unfold bindSaved
  split
  · exact memOk_update (memOk_setCtx hs)
  · exact hs

theorem memOk_placeReady {s core r} (hs : memOk s = true) : memOk (placeReady s core r) = true := by
  unfold placeReady
  dsimp only
  split
  · exact memOk_bindSaved (memOk_update hs)
  · exact memOk_placeOn (memOk_update hs)

theorem outOk_execTaskPlace {s} (hs : memOk s = true) : OutOk (execTaskPlace s) := by
  unfold execTaskPlace
  split
  · refine outOk_next ?_
    split
    · exact memOk_placeReady hs
    · exact hs
  · exact outOk_next hs

theorem memOk_preempt {s tid} (hs : memOk s = true) : memOk (preempt s tid) = true := by
  unfold preempt
  split
  · exact hs
  · refine memOk_ite hs ?_
    split
    · exact hs
    · exact memOk_beginSave (memOk_update hs)

theorem outOk_execPreemption {s} (hs : memOk s = true) : OutOk (execPreemption s) := by
  unfold execPreemption
  split
  · exact outOk_next (memOk_preempt hs)
  · exact outOk_next hs

/-! ### The functions of Machine/EvSave.lean -/

theorem memOk_takeLoad {s c f va} (hs : memOk s = true) : memOk (takeLoad s c f va) = true :=
  memOk_ite (memOk_updCtx (memOk_takeTrap hs)) (memOk_takeTrap hs)

theorem memOk_poisonTrap {s c} (hs : memOk s = true) : memOk (poisonTrap s c) = true := by
  unfold poisonTrap
  refine memOk_ite hs ?_
  split
  · exact memOk_takeLoad hs
  · exact hs

theorem memOk_drainCtx {s c} (hs : memOk s = true) : memOk (drainCtx s c) = true :=
  memOk_resvCancel (memOk_updCtx (memOk_poisonTrap hs))

theorem memOk_leaveCtx {s c} (hs : memOk s = true) : memOk (leaveCtx s c) = true := by
  unfold leaveCtx
  exact memOk_updCtx
    (memOk_freeContext
      (memOk_setEng
        (memOk_foldl (memOk_foldl (memOk_foldl hs fun _ _ h => memOk_mUnpin h) fun _ _ h => memOk_unpinLine h) fun _ _
          h => memOk_delLine h)))

theorem memOk_saveNow {s c} (hs : memOk s = true) : memOk (saveNow s c) = true := by
  have hw : ∀ l n k, memOk (imgWrite (drainCtx s c) (taskOf (drainCtx s c) c) n l k).2 = true :=
    fun _ _ _ => memOk_imgWrite (memOk_drainCtx hs)
  unfold saveNow
  extract_lets t img
  have h := hw img 0 (img.length / 64 + 1)
  change memOk (imgWrite t (taskOf t c) 0 img (img.length / 64 + 1)).2 = true at h
  generalize imgWrite t (taskOf t c) 0 img (img.length / 64 + 1) = p at h
  obtain ⟨r, u⟩ := p
  cases r with
  | fault _ _ => exact memOk_loseContext h
  | park => exact h
  | ok _ => exact memOk_update (memOk_leaveCtx (memOk_trRec (memOk_releaseAt h)))

theorem outOk_execContextSave {s} (hs : memOk s = true) : OutOk (execContextSave s) := by
  unfold execContextSave
  split
  · exact outOk_next (memOk_ite (memOk_saveNow hs) hs)
  · exact outOk_next hs

theorem outOk_execSaveBoundExpiry {s} (hs : memOk s = true) : OutOk (execSaveBoundExpiry s) := by
  unfold execSaveBoundExpiry
  split
  · exact outOk_next (memOk_ite (memOk_loseContext hs) hs)
  · exact outOk_next hs

theorem memOk_pinLinesNow {s c ls} (hs : memOk s = true) : memOk (pinLinesNow s c ls).2 = true := by
  induction ls generalizing s with
  | nil => exact hs
  | cons x ls ih =>
    obtain ⟨l, ver, n⟩ := x
    unfold pinLinesNow
    split
    next need t e =>
      have ht : memOk t = true := by
        refine memOk_snd ?_ e
        split
        · next e => exact memOk_delLine (memOk_snd (memOk_tileNeed hs) e :)
        · exact memOk_tileNeed hs
      split
      · next hrest => exact (memOk_snd (ih ht) hrest :)
      · next hrest => exact (memOk_snd (ih ht) hrest :)

theorem someOk_linesRoom {s core ls} (hs : memOk s = true) : SomeOk id (linesRoom s core ls) := by
  unfold linesRoom
  refine someOk_ite (someOk_some hs) (someOk_map fun _ => ?_)
  exact memOk_setCtc hs

theorem memOk_openPut {s c l} (hs : memOk s = true) : memOk (openPut s c l) = true :=
  memOk_ite (memOk_setCtc (memOk_newId hs)) (memOk_tellMoved (memOk_setCtc (memOk_newId hs)))

theorem memOk_restorePut {s c r v x pins} (hs : memOk s = true) : memOk (restorePut s c r v x pins) = true :=
  memOk_trRec
    (memOk_update
      (memOk_setEng
        (memOk_foldl (memOk_setCtx (memOk_foldl hs fun _ _ h => memOk_openPut h)) fun _ _ h =>
          memOk_pinLine (memOk_useLine h))))

theorem memOk_restoreStep {s c r v} (hs : memOk s = true) : memOk (restoreStep s c r v) = true := by
  unfold restoreStep
  split
  next e =>
    have h := memOk_snd (memOk_ite_snd hs (memOk_imgRead hs)) e
    split
    · exact memOk_loseContext h
    · exact h
    · split
      · exact memOk_loseContext h
      · split
        next e => exact (memOk_snd (memOk_pinLinesNow (memOk_acquireAt h)) e :)
        next e =>
          have h := memOk_snd (memOk_pinLinesNow (memOk_acquireAt h)) e
          split
          · exact h
          next e =>
            have h := someOk_linesRoom h _ e
            exact memOk_ite (memOk_restorePut h) h

theorem outOk_execContextRestore {s} (hs : memOk s = true) : OutOk (execContextRestore s) := by
  unfold execContextRestore
  split
  · refine outOk_next ?_
    split
    · split
      · exact memOk_ite (memOk_restoreStep hs) hs
      · exact hs
    · exact hs
  · exact outOk_next hs

theorem outOk_execWatchdogExpire {s} (hs : memOk s = true) : OutOk (execWatchdogExpire s) := by
  unfold execWatchdogExpire
  split
  · exact outOk_next (memOk_ite (memOk_whenHere hs fun _ h => memOk_takeTrap h) hs)
  · exact outOk_next hs

theorem memOk_flushPlain {s q} (hs : memOk s = true) : memOk (flushPlain s q) = true :=
  memOk_foldl (memOk_foldl hs fun _ _ h => memOk_foldl h fun _ _ h => memOk_ite (memOk_l1WriteBack h) h) fun _ _ h =>
    memOk_foldl h fun _ _ h => memOk_ite (memOk_clcWriteBack h) h

theorem memOk_cleanLine {s cl l} (hs : memOk s = true) : memOk (cleanLine s cl l) = true := by
  unfold cleanLine
  refine memOk_ite (memOk_ite (memOk_beginWriteback hs) hs) (memOk_ite hs ?_)
  split
  next e => exact memOk_pumpOvf (memOk_reServe (memOk_nowInHbm (memOk_setClcT (memOk_snd (memOk_writeBack hs) e :))))
  next e => exact memOk_pumpOvf (memOk_reServe (memOk_nowInHbm (memOk_setClcT (memOk_snd (memOk_writeBack hs) e :))))
  next e => exact (memOk_snd (memOk_writeBack hs) e :)

theorem memOk_cleanTiles {s asid} (hs : memOk s = true) : memOk (cleanTiles s asid) = true :=
  memOk_foldl hs fun _ _ h => memOk_foldl h fun _ _ h => memOk_cleanLine h

theorem someOk_foldl_bind {α : Type} {f : State → α → Option State} (hf : ∀ s a, memOk s = true → SomeOk id (f s a))
    {l : List α} {o : Option State} (ho : SomeOk id o) : SomeOk id (l.foldl (fun o a => o.bind fun s => f s a) o) := by
  induction l generalizing o with
  | nil => exact ho
  | cons a l ih =>
    refine ih ?_
    cases o with
    | none => exact someOk_none
    | some s => exact hf s a (ho s rfl)

theorem someOk_tablePut {s asid} (hs : memOk s = true) : SomeOk id (tablePut s asid) := by
  unfold tablePut
  refine someOk_foldl_bind (fun _ _ h => ?_) (someOk_some hs)
  exact someOk_vtPut h

theorem memOk_ckptAbandon {s q} (hs : memOk s = true) : memOk (ckptAbandon s q) = true :=
  memOk_foldl (memOk_irq (memOk_setQ hs)) fun _ _ h => memOk_updCtx h

theorem memOk_ckptStep {s q} (hs : memOk s = true) : memOk (ckptStep s q) = true := by
  unfold ckptStep
  refine memOk_ite hs
    (memOk_ite (memOk_cleanTiles (memOk_flushPlain (memOk_foldl hs fun _ _ h => memOk_drainCtx h))) ?_)
  split
  · exact memOk_ckptAbandon (memOk_cleanTiles (memOk_flushPlain (memOk_foldl hs fun _ _ h => memOk_drainCtx h)))
  next e =>
      exact memOk_update
        (memOk_movesEnd
          (memOk_setQ
            (someOk_tablePut (memOk_cleanTiles (memOk_flushPlain (memOk_foldl hs fun _ _ h => memOk_drainCtx h))) _ e
              :)))

theorem outOk_execCheckpointIntervalEnd {s} (hs : memOk s = true) : OutOk (execCheckpointIntervalEnd s) := by
  unfold execCheckpointIntervalEnd
  split
  · exact outOk_next (memOk_ckptStep hs)
  · exact outOk_next hs

theorem memOk_undoLine {s ln u} (hs : memOk s = true) : memOk (undoLine s ln u) = true := by
  have h : memOk (setChan (snoopInv (snoopInv s (ln * 128)) (ln * 128 + 64)) (chanOf (ln * 128)) fun c =>
      { c with resv := c.resv.filter fun r => r.sector / 4 != ln }) = true :=
    memOk_setChan (memOk_snoopInv (memOk_snoopInv hs))
  exact memOk_setMem h (Memory.wf_store _ _ (memOk_hbmMem h))

theorem memOk_purgeAsid {s asid} (hs : memOk s = true) : memOk (purgeAsid s asid) = true :=
  memOk_pumpAll
    (memOk_foldl
      (memOk_foldl (memOk_foldl (memOk_update hs) fun _ _ h => memOk_tellDiscard h) fun _ _ h => memOk_oRequest h) fun
      _ _ h => memOk_wbAsked h)

theorem memOk_dropPlain {s q} (hs : memOk s = true) : memOk (dropPlain s q) = true :=
  memOk_update hs

theorem memOk_restoreSq {s now core k} (hs : memOk s = true) : memOk (restoreSq s now core k) = true := by
  unfold restoreSq
  split
  · exact memOk_setEng hs
  · exact memOk_countEv hs

theorem memOk_restoreCkpt {s q k sq} (hs : memOk s = true) : memOk (restoreCkpt s q k sq) = true :=
  memOk_foldl
    (memOk_update
      (memOk_foldl (memOk_foldl (memOk_foldl hs fun _ _ h => memOk_freeFut h) fun _ _ h => memOk_setFut h) fun _ _ h
        => memOk_setEng h)) fun _ _ h => memOk_restoreSq h

theorem memOk_rollback {s q} (hs : memOk s = true) : memOk (rollback s q) = true := by
  unfold rollback
  refine memOk_ite hs ?_
  dsimp only
  split
  · exact memOk_heldCompletions (memOk_setQ (memOk_foldl hs fun _ _ h => memOk_stopTask h))
  · exact memOk_heldCompletions
      (memOk_update
        (memOk_setQ
          (memOk_restoreCkpt
            (memOk_movesBack
              (memOk_purgeAsid
                (memOk_foldl (memOk_dropPlain (memOk_foldl hs fun _ _ h => memOk_stopTask h)) fun _ _ h =>
                  memOk_undoLine h))))))

theorem outOk_execRollbackComplete {s} (hs : memOk s = true) : OutOk (execRollbackComplete s) := by
  unfold execRollbackComplete
  split
  · exact outOk_next (memOk_rollback hs)
  · exact outOk_next hs

theorem memOk_dieLost {s d} (hs : memOk s = true) : memOk (dieLost s d) = true :=
  memOk_foldl (memOk_ite (memOk_update (memOk_irq (memOk_update hs))) (memOk_irq (memOk_update hs))) fun _ _ h =>
    memOk_loseContext h

theorem outOk_execDieFailed {s} (hs : memOk s = true) : OutOk (execDieFailed s) := by
  unfold execDieFailed
  split
  · exact outOk_next (memOk_dieLost hs)
  · exact outOk_next hs

/-! ### The functions of Machine/EvSmg.lean -/

theorem memOk_setGroup {s g x} (hs : memOk s = true) : memOk (setGroup s g x) = true :=
  memOk_update hs

theorem memOk_entryOut {s g n e pkg} (hs : memOk s = true) : memOk (entryOut s g n e pkg) = true := by
  unfold entryOut
  split
  · exact hs
  · exact memOk_ite (memOk_ite (memOk_cause (memOk_setGroup hs)) (memOk_setGroup hs)) (memOk_setGroup hs)

theorem memOk_creditBack {s g pkg} (hs : memOk s = true) : memOk (creditBack s g pkg) = true := by
  unfold creditBack
  split
  · exact hs
  · dsimp only
    split
    · exact memOk_setGroup hs
    · split
      · exact memOk_setGroup (memOk_entryOut (memOk_setGroup hs))
      · exact memOk_entryOut (memOk_setGroup hs)

theorem memOk_sendEntry {s g n x e cmds} (hs : memOk s = true) : memOk (sendEntry s g n x e cmds) = true :=
  memOk_foldl (memOk_setGroup hs) fun _ _ h => memOk_entryOut h

theorem memOk_smTell {s m err} (hs : memOk s = true) : memOk (smTell s m err) = true :=
  memOk_ite (memOk_cause hs) hs

theorem memOk_smgRun {s w status} (hs : memOk s = true) : memOk (smgRun s w status).2 = true := by
  unfold smgRun
  refine memOk_ite_snd hs ?_
  split
  · exact memOk_ite_snd hs (memOk_ite_snd hs (memOk_setGroup hs))
  · split
    · exact memOk_ite_snd hs (memOk_foldl (memOk_setGroup hs) fun _ _ h => memOk_smTell h)
    · exact hs
  · split
    · exact memOk_ite_snd hs
        (memOk_ite_snd hs (memOk_ite_snd hs (memOk_foldl (memOk_setGroup hs) fun _ _ h => memOk_cause h)))
    · exact hs

theorem memOk_smgWrite {s w by_} (hs : memOk s = true) : memOk (smgWrite s w by_) = true :=
  memOk_ite hs
    (memOk_ite (memOk_ite (memOk_smgRun hs) hs)
      (memOk_ite hs (memOk_ite (memOk_gwReply (memOk_update (memOk_devSet hs))) (memOk_devSet hs))))

theorem outOk_execSmgcmdCreate {s} (hs : memOk s = true) : OutOk (execSmgcmdCreate s) := by
  unfold execSmgcmdCreate
  split
  · exact outOk_next (memOk_smgWrite hs)
  · exact outOk_next hs

theorem outOk_execSmgcmdClose {s} (hs : memOk s = true) : OutOk (execSmgcmdClose s) := by
  unfold execSmgcmdClose
  split
  · exact outOk_next (memOk_smgWrite hs)
  · exact outOk_next hs

theorem outOk_execSmgcmdDestroy {s} (hs : memOk s = true) : OutOk (execSmgcmdDestroy s) := by
  unfold execSmgcmdDestroy
  split
  · exact outOk_next (memOk_smgWrite hs)
  · exact outOk_next hs

theorem memOk_smgAnswer {s status} (hs : memOk s = true) : memOk (smgAnswer s status) = true := by
  unfold smgAnswer
  split
  · exact hs
  · exact memOk_devSet (memOk_update (memOk_smgRun hs))

theorem outOk_execSmgcmdAnswer {s} (hs : memOk s = true) : OutOk (execSmgcmdAnswer s) := by
  unfold execSmgcmdAnswer
  split
  · exact outOk_next (memOk_smgAnswer hs)
  · exact outOk_next hs

theorem memOk_smFlags {s m fl} (hs : memOk s = true) : memOk (smFlags s m fl) = true := by
  unfold smFlags
  split
  · exact memOk_ite (memOk_flagsTo hs) hs
  · exact hs

theorem memOk_closeRound {s g n x r} (hs : memOk s = true) : memOk (closeRound s g n x r).2 = true :=
  memOk_sendEntry hs

theorem memOk_contribute {s g x m op t off} (hs : memOk s = true) : memOk (contribute s g x m op t off).2 = true := by
  unfold contribute
  dsimp only
  split
  · exact memOk_ite_snd (memOk_closeRound (memOk_smFlags hs)) (memOk_sendEntry (memOk_smFlags hs))
  · exact memOk_ite_snd (memOk_smTell hs)
      (memOk_ite_snd (memOk_ite_snd (memOk_closeRound (memOk_smFlags hs)) (memOk_sendEntry (memOk_smFlags hs)))
        (memOk_setGroup hs))

theorem memOk_smStep {s m} (hs : memOk s = true) : memOk (smStep s m).2 = true := by
  unfold smStep
  split
  · exact memOk_smTell hs
  · refine memOk_ite_snd (memOk_smTell hs) (memOk_ite_snd (memOk_smTell hs) (memOk_ite_snd (memOk_smTell hs) ?_))
    split
    · exact memOk_contribute hs
    · exact memOk_sendEntry hs
    · exact memOk_sendEntry hs

theorem memOk_smAll {k l s} (hs : memOk s = true) : memOk (smAll k l s) = true := by
  induction k generalizing l s with
  | zero => exact hs
  | succ k ih =>
    cases l with
    | nil => exact hs
    | cons m l => exact ih (memOk_smStep hs)

theorem memOk_smFree {l s} (hs : memOk s = true) : memOk (smFree l s) = true :=
  memOk_smAll hs

theorem memOk_smCommand {s m} (hs : memOk s = true) : memOk (smCommand s m) = true :=
  memOk_smFree (memOk_smStep hs)

/-- The walk is hidden behind a variable before the definition is unfolded: the kernel would evaluate it otherwise, to compare
the two sides of the unfolding. -/
theorem memOk_windowAt {s die asid va k i base} (hs : memOk s = true) :
    memOk (windowAt s die asid va k i base).2 = true := by
  have hwalk : ∀ {s die asid va}, memOk s = true → memOk (walk s die asid va).2 = true := memOk_walk
  delta windowAt windowAt._f
  obtain ⟨walk, e⟩ : ∃ w, @walk = w := ⟨_, rfl⟩
  rw [e] at hwalk ⊢
  clear e
  induction k generalizing s i base with
  | zero => exact hs
  | succ k ih =>
    dsimp only [Nat.brecOn, Nat.brecOn.go] at ih ⊢
    split
    next e => exact (memOk_snd (hwalk hs) e :)
    next e =>
      have h := memOk_snd (hwalk hs) e
      exact memOk_ite_snd h (ih h)

theorem memOk_joinWindow {s die asid va k} (hs : memOk s = true) : memOk (joinWindow s die asid va k).2 = true :=
  memOk_ite_snd hs (memOk_windowAt hs)

theorem memOk_joinAnswer {s m status} (hs : memOk s = true) : memOk (joinAnswer s m status) = true := by
  unfold joinAnswer
  refine memOk_ite hs (memOk_ite (memOk_updCtx hs) ?_)
  split
  · exact memOk_updSaved (memOk_updCtx hs)
  · exact memOk_updSaved hs

theorem memOk_writeHeader {s pa k n} (hs : memOk s = true) : memOk (writeHeader s pa k n) = true :=
  memOk_hbmPut hs

theorem memOk_joinGroup {s m x} (hs : memOk s = true) : memOk (joinGroup s m x) = true := by
  unfold joinGroup
  refine memOk_ite (memOk_joinAnswer hs) ?_
  split
  next e =>
    have h := memOk_snd (memOk_ite_snd (memOk_joinWindow hs) hs) e
    split
    · exact memOk_joinAnswer h
    · exact memOk_joinAnswer (memOk_ite (memOk_writeHeader (memOk_update (memOk_sendEntry h))) (memOk_sendEntry h))

theorem memOk_leaveGroup {s m x} (hs : memOk s = true) : memOk (leaveGroup s m x) = true := by
  unfold leaveGroup
  refine memOk_ite (memOk_joinAnswer hs) (memOk_joinAnswer (memOk_smFree ?_))
  split
  · refine memOk_setGroup ?_
    split
    · exact memOk_sendEntry (memOk_ite (memOk_update hs) hs)
    · exact memOk_ite_snd (memOk_closeRound (memOk_ite (memOk_update hs) hs))
        (memOk_sendEntry (memOk_ite (memOk_update hs) hs))
  · split
    · exact memOk_sendEntry (memOk_ite (memOk_update hs) hs)
    · exact memOk_ite_snd (memOk_closeRound (memOk_ite (memOk_update hs) hs))
        (memOk_sendEntry (memOk_ite (memOk_update hs) hs))

theorem memOk_smClear {s m} (hs : memOk s = true) : memOk (smClear s m) = true :=
  memOk_ite hs (memOk_setEng hs)

theorem outOk_execSwitchSequence {s} (hs : memOk s = true) : OutOk (execSwitchSequence s) := by
  unfold execSwitchSequence
  split
  · refine outOk_next ?_
    split
    · split
      · exact memOk_joinAnswer hs
      · exact memOk_ite (memOk_joinAnswer hs) (memOk_ite (memOk_joinGroup hs) (memOk_leaveGroup hs))
    · split
      · exact memOk_joinAnswer hs
      · exact memOk_ite (memOk_joinAnswer hs) (memOk_ite (memOk_joinGroup hs) (memOk_leaveGroup hs))
    · exact memOk_smCommand (memOk_smClear hs)
  · exact outOk_next hs

theorem memOk_applyEntry {s m n e} (hs : memOk s = true) : memOk (applyEntry s m n e) = true := by
  unfold applyEntry
  refine memOk_hbmPutN ?_
  split
  · exact hs
  · exact memOk_hbmPut hs
  · exact memOk_hbmPut hs

theorem memOk_applyAll {s g k} (hs : memOk s = true) : memOk (applyAll s g k) = true := by
  induction k generalizing s g with
  | zero =>
    unfold applyAll
    exact hs
  | succ n ih =>
    unfold applyAll
    split
    · exact hs
    · split
      · exact hs
      · exact memOk_ite (memOk_update (memOk_cause (memOk_applyEntry hs)))
          (ih (memOk_update (memOk_cause (memOk_applyEntry hs))))

theorem memOk_entryArrive {s g n e} (hs : memOk s = true) : memOk (entryArrive s g n e) = true := by
  unfold entryArrive
  split
  · exact hs
  · exact memOk_ite (memOk_cause hs) (memOk_ite (memOk_cause hs) (memOk_applyAll (memOk_update hs)))

theorem outOk_execSmgEntryArrive {s} (hs : memOk s = true) : OutOk (execSmgEntryArrive s) := by
  unfold execSmgEntryArrive
  split
  · exact outOk_next (memOk_entryArrive hs)
  · exact outOk_next hs

theorem memOk_memberAck {s g pkg n} (hs : memOk s = true) : memOk (memberAck s g pkg n) = true := by
  unfold memberAck
  split
  · exact hs
  · exact memOk_foldl (memOk_ite (memOk_creditBack (memOk_setGroup hs)) (memOk_setGroup hs)) fun _ _ h =>
      memOk_smTell h

theorem outOk_execSmgMemberAck {s} (hs : memOk s = true) : OutOk (execSmgMemberAck s) := by
  unfold execSmgMemberAck
  split
  · exact outOk_next (memOk_memberAck hs)
  · exact outOk_next hs

theorem memOk_sqDone {s core id err} (hs : memOk s = true) : memOk (sqDone s core id err) = true := by
  unfold sqDone
  split
  · exact hs
  · split
    · exact memOk_countEv (memOk_setEng hs)
    · exact memOk_engineFault (memOk_setEng hs)

theorem outOk_execSequencedCommandComplete {s} (hs : memOk s = true) : OutOk (execSequencedCommandComplete s) := by
  unfold execSequencedCommandComplete
  split
  · exact outOk_next (memOk_sqDone hs)
  · exact outOk_next hs

/-! ### The functions of Machine/EvSys.lean -/

theorem memOk_chanRegWrite {s n off w} (hs : memOk s = true) : memOk (chanRegWrite s n off w) = true :=
  memOk_ite (memOk_pumpOvf (memOk_setChan hs)) (memOk_setChan hs)

theorem memOk_portRegWrite {s p off w} (hs : memOk s = true) : memOk (portRegWrite s p off w) = true := by
  unfold portRegWrite
  dsimp only
  split
  · exact memOk_lanefailW1C hs
  · exact memOk_setPort hs
  · exact memOk_setPort hs
  · exact memOk_setPort hs
  · exact hs

theorem memOk_gwRegWrite {s d off w} (hs : memOk s = true) : memOk (gwRegWrite s d off w) = true :=
  memOk_setGw hs

theorem memOk_queueRegWrite {s q off w} (hs : memOk s = true) : memOk (queueRegWrite s q off w) = true := by
  unfold queueRegWrite
  refine memOk_ite (memOk_devSet hs) ?_
  split
  · exact memOk_ite (memOk_devSet hs) hs
  · exact hs

theorem memOk_trctlWrite {s core w} (hs : memOk s = true) : memOk (trctlWrite s core w) = true :=
  memOk_devSet hs

theorem memOk_hdmSet {s k off w} (hs : memOk s = true) : memOk (hdmSet s k off w) = true :=
  memOk_ite (memOk_update hs) (memOk_update hs)

theorem memOk_regWrite {s pa w} (hs : memOk s = true) : memOk (regWrite s pa w) = true := by
  unfold regWrite
  refine memOk_ite (memOk_chanRegWrite hs)
    (memOk_ite (memOk_portRegWrite hs)
      (memOk_ite (memOk_gwRegWrite hs)
        (memOk_ite (memOk_queueRegWrite hs)
          (memOk_ite (memOk_trctlWrite hs)
            (memOk_ite (memOk_devSet hs)
              (memOk_ite (memOk_devSet hs) (memOk_ite (memOk_ite hs (memOk_devSet hs)) (memOk_ite hs ?_))))))))
  split
  · exact memOk_devSet hs
  · exact hs

theorem memOk_registerWrite {s pa w by_} (hs : memOk s = true) : memOk (registerWrite s pa w by_) = true :=
  memOk_ite (memOk_ite (memOk_hdmSet hs) hs) (memOk_ite (memOk_regWrite hs) hs)

theorem outOk_execRegisterWrite {s} (hs : memOk s = true) : OutOk (execRegisterWrite s) := by
  unfold execRegisterWrite
  split
  · exact outOk_next (memOk_registerWrite hs)
  · exact outOk_next hs

theorem outOk_execFppush {s} (hs : memOk s = true) : OutOk (execFppush s) := by
  unfold execFppush
  split
  · exact outOk_next (memOk_ite (memOk_poolPush hs) hs)
  · exact outOk_next hs

theorem outOk_execFrpop {s} (hs : memOk s = true) : OutOk (execFrpop s) := by
  unfold execFrpop
  split
  · exact outOk_next (memOk_popFar hs)
  · exact outOk_next hs

theorem memOk_mrextNow {s w} (hs : memOk s = true) : memOk (mrextNow s w) = true :=
  memOk_ite hs (memOk_update hs)

theorem outOk_execMrext {s} (hs : memOk s = true) : OutOk (execMrext s) := by
  unfold execMrext
  split
  · exact outOk_next (memOk_ite (memOk_update hs) (memOk_mrextNow hs))
  · exact outOk_next hs

theorem memOk_atctlWrite {s w} (hs : memOk s = true) : memOk (atctlWrite s w) = true :=
  memOk_ite (memOk_regWrite hs) (memOk_update (memOk_regWrite hs))

theorem outOk_execAtctlGo {s} (hs : memOk s = true) : OutOk (execAtctlGo s) := by
  unfold execAtctlGo
  split
  · exact outOk_next (memOk_atctlWrite hs)
  · exact outOk_next hs

theorem memOk_reportDone {s} (hs : memOk s = true) : memOk (reportDone s) = true := by
  unfold reportDone
  split
  · exact hs
  · exact memOk_foldl (memOk_devSet (memOk_update (memOk_draw hs))) fun _ _ h => memOk_mrextNow h

theorem outOk_execAttestationReportDone {s} (hs : memOk s = true) : OutOk (execAttestationReportDone s) := by
  unfold execAttestationReportDone
  split
  · exact outOk_next (memOk_reportDone hs)
  · exact outOk_next hs

theorem memOk_setUnit {s u x} (hs : memOk s = true) : memOk (setUnit s u x) = true :=
  memOk_update hs

theorem memOk_retainCluster {s k} (hs : memOk s = true) : memOk (retainCluster s k) = true :=
  memOk_update (memOk_foldl hs fun _ _ h => memOk_update (memOk_draw (memOk_l1Flush h)))

theorem memOk_cleanCluster {s k} (hs : memOk s = true) : memOk (cleanCluster s k) = true :=
  memOk_foldl (memOk_foldl hs fun _ _ h => memOk_clcWriteBack h) fun _ _ h => memOk_cleanLine h

theorem memOk_clearCluster {s k} (hs : memOk s = true) : memOk (clearCluster s k) = true := by
  unfold clearCluster
  refine memOk_setClcT (memOk_foldl (memOk_update (memOk_foldl hs fun _ _ h => memOk_updEntry h)) fun s c h => ?_)
  split
  next n t e =>
    have h : memOk (setCtc t c []) = true := memOk_setCtc (memOk_snd (memOk_draw h) e :)
    exact memOk_setMbox h (Memory.wf_store _ _ (memOk_mbox h))

theorem memOk_clusterDown {s k p} (hs : memOk s = true) : memOk (clusterDown s k p) = true :=
  memOk_ite (memOk_setUnit hs)
    (memOk_ite (memOk_setUnit (memOk_ite (memOk_retainCluster hs) hs))
      (memOk_ite (memOk_setUnit (memOk_cleanCluster (memOk_ite (memOk_retainCluster hs) hs)))
        (memOk_setUnit (memOk_clearCluster (memOk_cleanCluster (memOk_ite (memOk_retainCluster hs) hs))))))

theorem memOk_portHalf {s u} (hs : memOk s = true) : memOk (portHalf s u) = true :=
  memOk_ite (memOk_retrain (memOk_setPort (memOk_setUnit (memOk_draw hs)))) (memOk_setUnit (memOk_draw hs))

theorem memOk_dwellExpiry {s u} (hs : memOk s = true) : memOk (dwellExpiry s u) = true := by
  unfold dwellExpiry
  split
  · exact hs
  · exact memOk_ite (memOk_clusterDown hs) (memOk_ite (memOk_setUnit hs) (memOk_portHalf hs))

theorem outOk_execPowerDwellExpiry {s} (hs : memOk s = true) : OutOk (execPowerDwellExpiry s) := by
  unfold execPowerDwellExpiry
  split
  · exact outOk_next (memOk_dwellExpiry hs)
  · exact outOk_next hs

theorem memOk_wakeUnit {s u} (hs : memOk s = true) : memOk (wakeUnit s u) = true := by
  unfold wakeUnit
  dsimp only
  split
  · exact hs
  · exact memOk_ite hs
      (memOk_ite (memOk_setUnit hs)
        (memOk_ite (memOk_retrain (memOk_setPort (memOk_setUnit hs))) (memOk_setPort (memOk_setUnit hs))))

theorem outOk_execPowerWake {s} (hs : memOk s = true) : OutOk (execPowerWake s) := by
  unfold execPowerWake
  split
  · exact outOk_next (memOk_ite hs (memOk_wakeUnit hs))
  · exact outOk_next hs

theorem memOk_wakeDone {s u} (hs : memOk s = true) : memOk (wakeDone s u) = true := by
  unfold wakeDone
  dsimp only
  split
  · exact memOk_ite (memOk_setUnit hs) hs
  · exact hs

theorem outOk_execWakeComplete {s} (hs : memOk s = true) : OutOk (execWakeComplete s) := by
  unfold execWakeComplete
  split
  · exact outOk_next (memOk_wakeDone hs)
  · exact outOk_next hs

theorem memOk_ltrWrite {s u w} (hs : memOk s = true) : memOk (ltrWrite s u w) = true := by
  unfold ltrWrite
  dsimp only
  split
  · exact memOk_ite (memOk_wakeUnit (memOk_setUnit (memOk_devSet hs))) (memOk_setUnit (memOk_devSet hs))
  · exact memOk_setUnit (memOk_devSet hs)

theorem outOk_execPwltrWrite {s} (hs : memOk s = true) : OutOk (execPwltrWrite s) := by
  unfold execPwltrWrite
  split
  · refine outOk_next ?_
    split
    · exact memOk_ltrWrite hs
    · exact hs
  · exact outOk_next hs

theorem memOk_idleTick {s} (hs : memOk s = true) : memOk (idleTick s) = true :=
  memOk_update hs

theorem memOk_setTemp {s d t} (hs : memOk s = true) : memOk (setTemp s d t) = true :=
  memOk_devSet hs

theorem outOk_execThermalThrottle {s} (hs : memOk s = true) : OutOk (execThermalThrottle s) := by
  unfold execThermalThrottle
  split
  · exact outOk_next (memOk_ite (memOk_setTemp hs) (memOk_irq (memOk_update (memOk_setTemp hs))))
  · exact outOk_next hs

theorem outOk_execThermalRecover {s} (hs : memOk s = true) : OutOk (execThermalRecover s) := by
  unfold execThermalRecover
  split
  · exact outOk_next (memOk_ite (memOk_update (memOk_setTemp hs)) (memOk_setTemp hs))
  · exact outOk_next hs

theorem memOk_tripQueue {s q} (hs : memOk s = true) : memOk (tripQueue s q) = true :=
  memOk_ite hs (memOk_foldl (memOk_update (memOk_setQ (memOk_dropFaults hs))) fun _ _ h => memOk_stopTask h)

theorem outOk_execThermalTrip {s} (hs : memOk s = true) : OutOk (execThermalTrip s) := by
  unfold execThermalTrip
  split
  · exact outOk_next
      (memOk_ite (memOk_setTemp hs) (memOk_update (memOk_foldl (memOk_setTemp hs) fun _ _ h => memOk_tripQueue h)))
  · exact outOk_next hs

theorem memOk_cfgWrite {s e} (hs : memOk s = true) : memOk (cfgWrite s e) = true := by
  unfold cfgWrite
  refine memOk_ite (memOk_poolPush hs) ?_
  split
  · exact memOk_ltrWrite hs
  · exact memOk_regWrite hs

theorem memOk_storeInit {s d} (hs : memOk s = true) : memOk (storeInit s d) = true :=
  memOk_ite hs (memOk_devSet (memOk_hbmPut hs))

theorem memOk_bootDone {s img} (hs : memOk s = true) : memOk (bootDone s img) = true :=
  memOk_update
    (memOk_foldl (memOk_foldl (memOk_foldl hs fun _ _ h => memOk_cfgWrite h) fun _ _ h => memOk_storeInit h) fun _ _ h
      => memOk_setPort h)

theorem memOk_resetKeep {s} (hs : memOk s = true) : memOk (resetKeep s) = true := by
  obtain ⟨-, -, hfar⟩ := memOk_iff.mp hs
  exact memOk_iff.mpr ⟨rfl, rfl, hfar⟩

theorem memOk_boot {s a b} (hs : memOk s = true) : memOk (boot s a b) = true := by
  unfold boot
  dsimp only
  split
  · exact memOk_bootDone (memOk_update (memOk_resetKeep hs))
  · split
    · exact memOk_bootDone (memOk_update (memOk_resetKeep hs))
    · exact memOk_update (memOk_resetKeep hs)

theorem outOk_execPackageReset {s} (hs : memOk s = true) : OutOk (execPackageReset s) := by
  unfold execPackageReset
  split
  · exact outOk_next (memOk_boot hs)
  · exact outOk_next hs

/-! ### The functions of Machine/Scalar.lean -/

theorem keeps_alu {d a b q bound f} : Keeps (alu d a b q bound f) :=
  keeps_bind keeps_getC fun _ => keeps_bind keeps_opTrap fun _ => keeps_ite keeps_outS (keeps_pure _)

theorem keeps_aluI {d a f} : Keeps (aluI d a f) :=
  keeps_bind keeps_getC fun _ => keeps_bind keeps_opTrap fun _ => keeps_outS

theorem outOk_execAdd {d a b q s} (hs : memOk s = true) : OutOk (execAdd d a b q s) :=
  outOk_run keeps_alu hs

theorem outOk_execSub {d a b q s} (hs : memOk s = true) : OutOk (execSub d a b q s) :=
  outOk_run keeps_alu hs

theorem outOk_execAnd {d a b q s} (hs : memOk s = true) : OutOk (execAnd d a b q s) :=
  outOk_run keeps_alu hs

theorem outOk_execOr {d a b q s} (hs : memOk s = true) : OutOk (execOr d a b q s) :=
  outOk_run keeps_alu hs

theorem outOk_execXor {d a b q s} (hs : memOk s = true) : OutOk (execXor d a b q s) :=
  outOk_run keeps_alu hs

theorem outOk_execShl {d a b q s} (hs : memOk s = true) : OutOk (execShl d a b q s) :=
  outOk_run keeps_alu hs

theorem outOk_execShr {d a b q s} (hs : memOk s = true) : OutOk (execShr d a b q s) :=
  outOk_run keeps_alu hs

theorem outOk_execSar {d a b q s} (hs : memOk s = true) : OutOk (execSar d a b q s) :=
  outOk_run keeps_alu hs

theorem outOk_execMin {d a b q s} (hs : memOk s = true) : OutOk (execMin d a b q s) :=
  outOk_run keeps_alu hs

theorem outOk_execMax {d a b q s} (hs : memOk s = true) : OutOk (execMax d a b q s) :=
  outOk_run keeps_alu hs

theorem outOk_execMinn {d a b q s} (hs : memOk s = true) : OutOk (execMinn d a b q s) :=
  outOk_run keeps_alu hs

theorem outOk_execMaxn {d a b q s} (hs : memOk s = true) : OutOk (execMaxn d a b q s) :=
  outOk_run keeps_alu hs

theorem outOk_execMul {d a b q s} (hs : memOk s = true) : OutOk (execMul d a b q s) :=
  outOk_run keeps_alu hs

theorem outOk_execMulh {d a b q s} (hs : memOk s = true) : OutOk (execMulh d a b q s) :=
  outOk_run keeps_alu hs

theorem outOk_execMulhn {d a b q s} (hs : memOk s = true) : OutOk (execMulhn d a b q s) :=
  outOk_run keeps_alu hs

theorem outOk_execDiv {d a b q s} (hs : memOk s = true) : OutOk (execDiv d a b q s) :=
  outOk_run keeps_alu hs

theorem outOk_execDivn {d a b q s} (hs : memOk s = true) : OutOk (execDivn d a b q s) :=
  outOk_run keeps_alu hs

theorem outOk_execRem {d a b q s} (hs : memOk s = true) : OutOk (execRem d a b q s) :=
  outOk_run keeps_alu hs

theorem outOk_execRemn {d a b q s} (hs : memOk s = true) : OutOk (execRemn d a b q s) :=
  outOk_run keeps_alu hs

theorem outOk_execClz {d a q s} (hs : memOk s = true) : OutOk (execClz d a q s) :=
  outOk_run keeps_alu hs

theorem outOk_execPopc {d a q s} (hs : memOk s = true) : OutOk (execPopc d a q s) :=
  outOk_run keeps_alu hs

theorem outOk_execBext {d a b q pos wm1 s} (hs : memOk s = true) : OutOk (execBext d a b q pos wm1 s) :=
  outOk_run keeps_alu hs

theorem outOk_execBins {d a b q pos wm1 s} (hs : memOk s = true) : OutOk (execBins d a b q pos wm1 s) :=
  outOk_run keeps_alu hs

theorem outOk_execSel {d a b q p s} (hs : memOk s = true) : OutOk (execSel d a b q p s) :=
  outOk_run keeps_alu hs

theorem outOk_execCmp {p a b q c s} (hs : memOk s = true) : OutOk (execCmp p a b q c s) :=
  outOk_run (keeps_bind keeps_getC fun _ => keeps_ite keeps_outP (keeps_pure _)) hs

theorem outOk_execCmpi {p a i c s} (hs : memOk s = true) : OutOk (execCmpi p a i c s) :=
  outOk_run (keeps_bind keeps_getC fun _ => keeps_outP) hs

theorem outOk_execAddi {d a i s} (hs : memOk s = true) : OutOk (execAddi d a i s) :=
  outOk_run keeps_aluI hs

theorem outOk_execAndi {d a i s} (hs : memOk s = true) : OutOk (execAndi d a i s) :=
  outOk_run keeps_aluI hs

theorem outOk_execOri {d a i s} (hs : memOk s = true) : OutOk (execOri d a i s) :=
  outOk_run keeps_aluI hs

theorem outOk_execXori {d a i s} (hs : memOk s = true) : OutOk (execXori d a i s) :=
  outOk_run keeps_aluI hs

theorem outOk_execShli {d a n s} (hs : memOk s = true) : OutOk (execShli d a n s) :=
  outOk_run keeps_aluI hs

theorem outOk_execShri {d a n s} (hs : memOk s = true) : OutOk (execShri d a n s) :=
  outOk_run keeps_aluI hs

theorem outOk_execSari {d a n s} (hs : memOk s = true) : OutOk (execSari d a n s) :=
  outOk_run keeps_aluI hs

theorem outOk_execLi {d i s} (hs : memOk s = true) : OutOk (execLi d i s) :=
  outOk_run keeps_aluI hs

theorem outOk_execLih {d i s} (hs : memOk s = true) : OutOk (execLih d i s) :=
  outOk_run keeps_aluI hs

theorem outOk_execMfsr {d r s} (hs : memOk s = true) : OutOk (execMfsr d r s) :=
  outOk_run (keeps_bind keeps_getC fun _ => keeps_bind keeps_opTrap fun _ => keeps_outS) hs

theorem outOk_execMtsr {r a s} (hs : memOk s = true) : OutOk (execMtsr r a s) :=
  outOk_run (keeps_bind keeps_getC fun _ => keeps_bind keeps_opTrap fun _ => keeps_modC) hs

theorem outOk_execXget {d g lane s} (hs : memOk s = true) : OutOk (execXget d g lane s) :=
  outOk_run (keeps_bind keeps_getC fun _ => keeps_bind keeps_opTrap fun _ => keeps_outS) hs

/-! ### The functions of Machine/VecInt.lean -/

theorem keeps_outV {u d r bound} : Keeps (outV u d r bound) :=
  keeps_modify fun _ h => memOk_emit h

theorem keeps_outK {u d m fl bound} : Keeps (outK u d m fl bound) :=
  keeps_modify fun _ h => memOk_emit (memOk_ite h (memOk_trCtl h))

theorem keeps_vlanes {u d k w n bound f} : Keeps (vlanes u d k w n bound f) :=
  keeps_bind keeps_getC fun _ => keeps_outV

theorem keeps_vint {u d a b k t bound f} : Keeps (vint u d a b k t bound f) :=
  keeps_vlanes

theorem keeps_vint3 {u d a b c k t bound f} : Keeps (vint3 u d a b c k t bound f) :=
  keeps_vlanes

theorem outOk_execVadd {u d a b k t s} (hs : memOk s = true) : OutOk (execVadd u d a b k t s) :=
  outOk_run keeps_vint hs

theorem outOk_execVsub {u d a b k t s} (hs : memOk s = true) : OutOk (execVsub u d a b k t s) :=
  outOk_run keeps_vint hs

theorem outOk_execVadds {u d a b k t s} (hs : memOk s = true) : OutOk (execVadds u d a b k t s) :=
  outOk_run keeps_vint hs

theorem outOk_execVsubs {u d a b k t s} (hs : memOk s = true) : OutOk (execVsubs u d a b k t s) :=
  outOk_run keeps_vint hs

theorem outOk_execVmul {u d a b k t s} (hs : memOk s = true) : OutOk (execVmul u d a b k t s) :=
  outOk_run keeps_vint hs

theorem outOk_execVmulh {u d a b k t s} (hs : memOk s = true) : OutOk (execVmulh u d a b k t s) :=
  outOk_run keeps_vint hs

theorem outOk_execVmla {u d a b c k t s} (hs : memOk s = true) : OutOk (execVmla u d a b c k t s) :=
  outOk_run keeps_vint3 hs

theorem outOk_execVmls {u d a b c k t s} (hs : memOk s = true) : OutOk (execVmls u d a b c k t s) :=
  outOk_run keeps_vint3 hs

theorem outOk_execVaddw {u d a b k t s} (hs : memOk s = true) : OutOk (execVaddw u d a b k t s) :=
  outOk_run keeps_vlanes hs

theorem outOk_execVmlaw {u d a b c k t s} (hs : memOk s = true) : OutOk (execVmlaw u d a b c k t s) :=
  outOk_run keeps_vlanes hs

theorem outOk_execVnarrow {u d a k t sat s} (hs : memOk s = true) : OutOk (execVnarrow u d a k t sat s) :=
  outOk_run keeps_vlanes hs

theorem outOk_execVabs {u d a k t s} (hs : memOk s = true) : OutOk (execVabs u d a k t s) :=
  outOk_run keeps_vint hs

theorem outOk_execVneg {u d a k t s} (hs : memOk s = true) : OutOk (execVneg u d a k t s) :=
  outOk_run keeps_vint hs

theorem outOk_execVmin {u d a b k t s} (hs : memOk s = true) : OutOk (execVmin u d a b k t s) :=
  outOk_run keeps_vint hs

theorem outOk_execVmax {u d a b k t s} (hs : memOk s = true) : OutOk (execVmax u d a b k t s) :=
  outOk_run keeps_vint hs

theorem outOk_execVand {u d a b k t s} (hs : memOk s = true) : OutOk (execVand u d a b k t s) :=
  outOk_run keeps_vint hs

theorem outOk_execVor {u d a b k t s} (hs : memOk s = true) : OutOk (execVor u d a b k t s) :=
  outOk_run keeps_vint hs

theorem outOk_execVxor {u d a b k t s} (hs : memOk s = true) : OutOk (execVxor u d a b k t s) :=
  outOk_run keeps_vint hs

theorem outOk_execVnot {u d a k t s} (hs : memOk s = true) : OutOk (execVnot u d a k t s) :=
  outOk_run keeps_vint hs

theorem outOk_execVshl {u d a b k t s} (hs : memOk s = true) : OutOk (execVshl u d a b k t s) :=
  outOk_run keeps_vint hs

theorem outOk_execVshr {u d a b k t s} (hs : memOk s = true) : OutOk (execVshr u d a b k t s) :=
  outOk_run keeps_vint hs

theorem outOk_execVsar {u d a b k t s} (hs : memOk s = true) : OutOk (execVsar u d a b k t s) :=
  outOk_run keeps_vint hs

theorem outOk_execVshli {u d a n k t s} (hs : memOk s = true) : OutOk (execVshli u d a n k t s) :=
  outOk_run keeps_vint hs

theorem outOk_execVcmp {u d a b k t c s} (hs : memOk s = true) : OutOk (execVcmp u d a b k t c s) :=
  outOk_run (keeps_bind keeps_getC fun _ => keeps_outK) hs

theorem outOk_execVsel {u d a b k t s} (hs : memOk s = true) : OutOk (execVsel u d a b k t s) :=
  outOk_run (keeps_bind keeps_getC fun _ => keeps_outV) hs

theorem outOk_execKand {u d a b s} (hs : memOk s = true) : OutOk (execKand u d a b s) :=
  outOk_run (keeps_bind keeps_getC fun _ => keeps_outK) hs

theorem outOk_execKor {u d a b s} (hs : memOk s = true) : OutOk (execKor u d a b s) :=
  outOk_run (keeps_bind keeps_getC fun _ => keeps_outK) hs

theorem outOk_execKnot {u d a s} (hs : memOk s = true) : OutOk (execKnot u d a s) :=
  outOk_run (keeps_bind keeps_getC fun _ => keeps_outK) hs

theorem outOk_execKmov {u d a s} (hs : memOk s = true) : OutOk (execKmov u d a s) :=
  outOk_run (keeps_bind keeps_getC fun _ => keeps_outK) hs

/-! ### The functions of Machine/VecFloat.lean -/

theorem keeps_vfl2 {u d a b k t rm bound f} : Keeps (vfl2 u d a b k t rm bound f) :=
  keeps_vlanes

theorem keeps_vfl3 {u d a b c k t rm f} : Keeps (vfl3 u d a b c k t rm f) :=
  keeps_vlanes

theorem keeps_vpat {u d a b k t bound f} : Keeps (vpat u d a b k t bound f) :=
  keeps_vlanes

theorem outOk_execFadd {u d a b k t rm s} (hs : memOk s = true) : OutOk (execFadd u d a b k t rm s) :=
  outOk_run keeps_vfl2 hs

theorem outOk_execFsub {u d a b k t rm s} (hs : memOk s = true) : OutOk (execFsub u d a b k t rm s) :=
  outOk_run keeps_vfl2 hs

theorem outOk_execFmul {u d a b k t rm s} (hs : memOk s = true) : OutOk (execFmul u d a b k t rm s) :=
  outOk_run keeps_vfl2 hs

theorem outOk_execFfma {u d a b c k t rm s} (hs : memOk s = true) : OutOk (execFfma u d a b c k t rm s) :=
  outOk_run keeps_vfl3 hs

theorem outOk_execFfms {u d a b c k t rm s} (hs : memOk s = true) : OutOk (execFfms u d a b c k t rm s) :=
  outOk_run keeps_vfl3 hs

theorem outOk_execFdiv {u d a b k t rm s} (hs : memOk s = true) : OutOk (execFdiv u d a b k t rm s) :=
  outOk_run keeps_vfl2 hs

theorem outOk_execFsqrt {u d a k t rm s} (hs : memOk s = true) : OutOk (execFsqrt u d a k t rm s) :=
  outOk_run keeps_vfl2 hs

theorem outOk_execFrcpe {u d a k t s} (hs : memOk s = true) : OutOk (execFrcpe u d a k t s) :=
  outOk_run keeps_vpat hs

theorem outOk_execFmin {u d a b k t s} (hs : memOk s = true) : OutOk (execFmin u d a b k t s) :=
  outOk_run keeps_vpat hs

theorem outOk_execFmax {u d a b k t s} (hs : memOk s = true) : OutOk (execFmax u d a b k t s) :=
  outOk_run keeps_vpat hs

theorem outOk_execFabs {u d a k t s} (hs : memOk s = true) : OutOk (execFabs u d a k t s) :=
  outOk_run keeps_vpat hs

theorem outOk_execFneg {u d a k t s} (hs : memOk s = true) : OutOk (execFneg u d a k t s) :=
  outOk_run keeps_vpat hs

theorem outOk_execFcmp {u d a b k t c s} (hs : memOk s = true) : OutOk (execFcmp u d a b k t c s) :=
  outOk_run (keeps_bind keeps_getC fun _ => keeps_outK) hs

theorem outOk_execFclass {u d a k t s} (hs : memOk s = true) : OutOk (execFclass u d a k t s) :=
  outOk_run keeps_vpat hs

theorem outOk_execFround {u d a k t rm s} (hs : memOk s = true) : OutOk (execFround u d a k t rm s) :=
  outOk_run keeps_vlanes hs

theorem outOk_execFcvt {u d a k t src rm sat s} (hs : memOk s = true) : OutOk (execFcvt u d a k t src rm sat s) :=
  outOk_run keeps_vlanes hs

theorem outOk_execFcvti {u d a k t src rm s} (hs : memOk s = true) : OutOk (execFcvti u d a k t src rm s) :=
  outOk_run keeps_vlanes hs

theorem outOk_execIcvtf {u d a k t src rm s} (hs : memOk s = true) : OutOk (execIcvtf u d a k t src rm s) :=
  outOk_run keeps_vlanes hs

/-! ### The functions of Machine/VecMove.lean -/

theorem outOk_execVmov {u d a k t s} (hs : memOk s = true) : OutOk (execVmov u d a k t s) :=
  outOk_run keeps_vint hs

theorem outOk_execVbcast {u d a k t s} (hs : memOk s = true) : OutOk (execVbcast u d a k t s) :=
  outOk_run keeps_vlanes hs

theorem outOk_execVslide {u d a b k t off s} (hs : memOk s = true) : OutOk (execVslide u d a b k t off s) :=
  outOk_run keeps_vlanes hs

theorem outOk_execVperm {u d a b k t s} (hs : memOk s = true) : OutOk (execVperm u d a b k t s) :=
  outOk_run keeps_vlanes hs

theorem outOk_execVlane {u d a k t ln s} (hs : memOk s = true) : OutOk (execVlane u d a k t ln s) :=
  outOk_run keeps_vlanes hs

theorem keeps_vred {u d a k t ident f} : Keeps (vred u d a k t ident f) :=
  keeps_bind keeps_getC fun _ => keeps_outV

theorem outOk_execVredadd {u d a k t s} (hs : memOk s = true) : OutOk (execVredadd u d a k t s) :=
  outOk_run keeps_vred hs

theorem outOk_execVredmin {u d a k t s} (hs : memOk s = true) : OutOk (execVredmin u d a k t s) :=
  outOk_run keeps_vred hs

theorem outOk_execVredmax {u d a k t s} (hs : memOk s = true) : OutOk (execVredmax u d a k t s) :=
  outOk_run keeps_vred hs

theorem outOk_execFredadd {u d a k t rm s} (hs : memOk s = true) : OutOk (execFredadd u d a k t rm s) :=
  outOk_run (keeps_bind keeps_getC fun _ => keeps_outV) hs

theorem outOk_execVscan {u d a k t s} (hs : memOk s = true) : OutOk (execVscan u d a k t s) :=
  outOk_run (keeps_bind keeps_getC fun _ => keeps_outV) hs

theorem outOk_execFscan {u d a k t rm s} (hs : memOk s = true) : OutOk (execFscan u d a k t rm s) := by
  unfold execFscan
  refine outOk_run (keeps_bind keeps_getC fun _ => ?_) hs
  split
  · exact keeps_pure _
  · exact keeps_outV

theorem outOk_execVdequant {u d a b k t q4 rm s} (hs : memOk s = true) : OutOk (execVdequant u d a b k t q4 rm s) :=
  outOk_run keeps_vlanes hs

theorem outOk_execVquant {u d a b k t q4 rm s} (hs : memOk s = true) : OutOk (execVquant u d a b k t q4 rm s) :=
  outOk_run keeps_vlanes hs

theorem outOk_execVgen {u d a b k t s} (hs : memOk s = true) : OutOk (execVgen u d a b k t s) :=
  outOk_run keeps_vlanes hs

theorem outOk_execVproj {u d a b k t r s} (hs : memOk s = true) : OutOk (execVproj u d a b k t r s) :=
  outOk_run (keeps_bind keeps_getC fun _ => keeps_outV) hs

theorem outOk_execVseedscan {u d a b k t r s} (hs : memOk s = true) : OutOk (execVseedscan u d a b k t r s) :=
  outOk_run (keeps_bind keeps_getC fun _ => keeps_outV) hs

/-! ### The functions of Machine/Dispatch.lean -/

theorem outOk_exec {i s} (hs : memOk s = true) : OutOk (exec i s) := by
  unfold exec
  split
  · exact outOk_execAdd hs
  · exact outOk_execSub hs
  · exact outOk_execAnd hs
  · exact outOk_execOr hs
  · exact outOk_execXor hs
  · exact outOk_execShl hs
  · exact outOk_execShr hs
  · exact outOk_execSar hs
  · exact outOk_execMin hs
  · exact outOk_execMax hs
  · exact outOk_execMinn hs
  · exact outOk_execMaxn hs
  · exact outOk_execMul hs
  · exact outOk_execMulh hs
  · exact outOk_execMulhn hs
  · exact outOk_execDiv hs
  · exact outOk_execDivn hs
  · exact outOk_execRem hs
  · exact outOk_execRemn hs
  · exact outOk_execClz hs
  · exact outOk_execPopc hs
  · exact outOk_execBext hs
  · exact outOk_execBins hs
  · exact outOk_execSel hs
  · exact outOk_execCmp hs
  · exact outOk_execAddi hs
  · exact outOk_execAndi hs
  · exact outOk_execOri hs
  · exact outOk_execXori hs
  · exact outOk_execShli hs
  · exact outOk_execShri hs
  · exact outOk_execSari hs
  · exact outOk_execCmpi hs
  · exact outOk_execLi hs
  · exact outOk_execLih hs
  · exact outOk_execBr hs
  · exact outOk_execBrc hs
  · exact outOk_execCall hs
  · exact outOk_execCallr hs
  · exact outOk_execRet hs
  · exact outOk_execJr hs
  · exact outOk_execLoop hs
  · exact outOk_execRing hs
  · exact outOk_execMfsr hs
  · exact outOk_execMtsr hs
  · exact outOk_execLd hs
  · exact outOk_execSt hs
  · exact outOk_execLda hs
  · exact outOk_execStl hs
  · exact outOk_execAmo hs
  · exact outOk_execAmocas hs
  · exact outOk_execLr hs
  · exact outOk_execSc hs
  · exact outOk_execFence hs
  · exact outOk_execCwb hs
  · exact outOk_execPref hs
  · exact outOk_execXget hs
  · exact outOk_execTrap hs
  · exact outOk_execSvc hs
  · exact outOk_execEret hs
  · exact outOk_execBrk hs
  · exact outOk_execTlbinv hs
  · exact outOk_execWfi hs
  · exact outOk_execNop hs
  · exact outOk_execVadd hs
  · exact outOk_execVsub hs
  · exact outOk_execVadds hs
  · exact outOk_execVsubs hs
  · exact outOk_execVmul hs
  · exact outOk_execVmulh hs
  · exact outOk_execVmla hs
  · exact outOk_execVmls hs
  · exact outOk_execVaddw hs
  · exact outOk_execVmlaw hs
  · exact outOk_execVnarrow hs
  · exact outOk_execVabs hs
  · exact outOk_execVneg hs
  · exact outOk_execVmin hs
  · exact outOk_execVmax hs
  · exact outOk_execVand hs
  · exact outOk_execVor hs
  · exact outOk_execVxor hs
  · exact outOk_execVnot hs
  · exact outOk_execVshl hs
  · exact outOk_execVshr hs
  · exact outOk_execVsar hs
  · exact outOk_execVshli hs
  · exact outOk_execVcmp hs
  · exact outOk_execVsel hs
  · exact outOk_execFadd hs
  · exact outOk_execFsub hs
  · exact outOk_execFmul hs
  · exact outOk_execFfma hs
  · exact outOk_execFfms hs
  · exact outOk_execFdiv hs
  · exact outOk_execFsqrt hs
  · exact outOk_execFrcpe hs
  · exact outOk_execFmin hs
  · exact outOk_execFmax hs
  · exact outOk_execFabs hs
  · exact outOk_execFneg hs
  · exact outOk_execFcmp hs
  · exact outOk_execFclass hs
  · exact outOk_execFcvt hs
  · exact outOk_execFcvti hs
  · exact outOk_execIcvtf hs
  · exact outOk_execFround hs
  · exact outOk_execVmov hs
  · exact outOk_execVbcast hs
  · exact outOk_execVslide hs
  · exact outOk_execVperm hs
  · exact outOk_execVlane hs
  · exact outOk_execVredadd hs
  · exact outOk_execVredmin hs
  · exact outOk_execVredmax hs
  · exact outOk_execFredadd hs
  · exact outOk_execVscan hs
  · exact outOk_execFscan hs
  · exact outOk_execVdequant hs
  · exact outOk_execVquant hs
  · exact outOk_execVgen hs
  · exact outOk_execVproj hs
  · exact outOk_execVseedscan hs
  · exact outOk_execKand hs
  · exact outOk_execKor hs
  · exact outOk_execKnot hs
  · exact outOk_execKmov hs
  · exact outOk_execMzero hs
  · exact outOk_execMld hs
  · exact outOk_execMst hs
  · exact outOk_execMma hs
  · exact outOk_execMmaq hs
  · exact outOk_execMmag hs
  · exact outOk_execMman hs
  · exact outOk_execMscale hs
  · exact outOk_execMaddt hs
  · exact outOk_execMcvt hs
  · exact outOk_execTld hs
  · exact outOk_execTldm hs
  · exact outOk_execMbld hs
  · exact outOk_execTacq hs
  · exact outOk_execTbind hs
  · exact outOk_execThint hs
  · exact outOk_execTitin hs
  · exact outOk_execTcol hs
  · exact outOk_execTst hs
  · exact outOk_execTstm hs
  · exact outOk_execMbst hs
  · exact outOk_execMbcast hs
  · exact outOk_execTwopen hs
  · exact outOk_execTpost hs
  · exact outOk_execTdrop hs
  · exact outOk_execXcopy hs
  · exact outOk_execXgather hs
  · exact outOk_execXremote hs
  · exact outOk_execXfill hs
  · exact outOk_execXflushrd hs
  · exact outOk_execXcancel hs
  · exact outOk_execRop hs
  · exact outOk_execRcas4 hs
  · exact outOk_execRenq hs
  · exact outOk_execRdeq hs
  · exact outOk_execRchase hs
  · exact outOk_execSpawn hs
  · exact outOk_execSpawnr hs
  · exact outOk_execFget hs
  · exact outOk_execFdup hs
  · exact outOk_execFdrop hs
  · exact outOk_execFpin hs
  · exact outOk_execTend hs
  · exact outOk_execYield hs
  · exact outOk_execEvwait hs
  · exact outOk_execEvinc hs
  · exact outOk_execSev hs
  · exact outOk_execWfe hs
  · exact outOk_execBar hs
  · exact outOk_execSvreg hs
  · exact outOk_execSmst hs
  · exact outOk_execSmred hs
  · exact outOk_execSmjoin hs
  · exact outOk_execCkpt hs
  · exact outOk_execTrig hs
  · exact outOk_execResultLands hs
  · exact outOk_execContextSwitch hs
  · exact outOk_execInstructionFetch hs
  · exact outOk_execTlbMissWalk hs
  · exact outOk_execPageInvalidationComplete hs
  · exact outOk_execMminvcPage hs
  · exact outOk_execMminvcAll hs
  · exact outOk_execAccessBitSweep hs
  · exact outOk_execMigrationShootDownDone hs
  · exact outOk_execMigrationDrainDone hs
  · exact outOk_execMigrationCopyDone hs
  · exact outOk_execMigrationAbandon hs
  · exact outOk_execFillAllocationResume hs
  · exact outOk_execFillDataArrives hs
  · exact outOk_execFillDataProvisional hs
  · exact outOk_execOwnershipGrant hs
  · exact outOk_execOasisReadRequest hs
  · exact outOk_execFillResend hs
  · exact outOk_execOasisOpenRequest hs
  · exact outOk_execOasisPost hs
  · exact outOk_execOasisDiscard hs
  · exact outOk_execOasisHbmReadDone hs
  · exact outOk_execOasisWriteback hs
  · exact outOk_execVictimBufferAck hs
  · exact outOk_execForwardArrives hs
  · exact outOk_execItineraryPrefetch hs
  · exact outOk_execOpurge hs
  · exact outOk_execOpurgeComplete hs
  · exact outOk_execHbmReadPacket hs
  · exact outOk_execHbmWritePacket hs
  · exact outOk_execHbmControlPacket hs
  · exact outOk_execHbmReply hs
  · exact outOk_execRefreshSlot hs
  · exact outOk_execPatrolScrub hs
  · exact outOk_execHdeadcmdKill hs
  · exact outOk_execHdeadcmdRevive hs
  · exact outOk_execHdeadcmdDone hs
  · exact outOk_execInterfaceCrcFail hs
  · exact outOk_execInterfaceRetrainEnd hs
  · exact outOk_execRouSingleWordOp hs
  · exact outOk_execRouAmocas hs
  · exact outOk_execRouLr hs
  · exact outOk_execRouSc hs
  · exact outOk_execRouRcas4 hs
  · exact outOk_execRouRenq hs
  · exact outOk_execRouRdeq hs
  · exact outOk_execRchaseHop hs
  · exact outOk_execReservationExpiry hs
  · exact outOk_execBsuRefill hs
  · exact outOk_execBsuctlEnable hs
  · exact outOk_execBsuctlDisable hs
  · exact outOk_execPortUnitSend hs
  · exact outOk_execSvtWidenAcked hs
  · exact outOk_execMbcastLand hs
  · exact outOk_execMbstLand hs
  · exact outOk_execCxlHostReadShared hs
  · exact outOk_execCxlHostReadOwn hs
  · exact outOk_execCxlHostEvict hs
  · exact outOk_execCxlHostSnoop hs
  · exact outOk_execFlitReceive hs
  · exact outOk_execAckDeadline hs
  · exact outOk_execLaneFail hs
  · exact outOk_execRetrainSuccess hs
  · exact outOk_execRetrainTimeout hs
  · exact outOk_execFlstatRq hs
  · exact outOk_execFlecenPacketAccept hs
  · exact outOk_execHeldWritePerform hs
  · exact outOk_execE2eAckReceive hs
  · exact outOk_execE2eRejectReceive hs
  · exact outOk_execE2eRetransmitTimeout hs
  · exact outOk_execFlushingReadAnswer hs
  · exact outOk_execFlushResponseReceive hs
  · exact outOk_execSmgcmdCreate hs
  · exact outOk_execSmgcmdClose hs
  · exact outOk_execSmgcmdDestroy hs
  · exact outOk_execSmgcmdAnswer hs
  · exact outOk_execSwitchSequence hs
  · exact outOk_execSmgEntryArrive hs
  · exact outOk_execSmgMemberAck hs
  · exact outOk_execSequencedCommandComplete hs
  · exact outOk_execTaskPlace hs
  · exact outOk_execRangeChunkRequest hs
  · exact outOk_execReclamationStop hs
  · exact outOk_execMatrixKstep hs
  · exact outOk_execMatrixRetire hs
  · exact outOk_execMatrixSlotBoundary hs
  · exact outOk_execCopyPacket hs
  · exact outOk_execXremoteTaken hs
  · exact outOk_execXCommandComplete hs
  · exact outOk_execLatchSet hs
  · exact outOk_execCbarWrite hs
  · exact outOk_execQctlEnable hs
  · exact outOk_execQctlDisable hs
  · exact outOk_execDoorbellProd hs
  · exact outOk_execDoorbellFres hs
  · exact outOk_execRootTaskTake hs
  · exact outOk_execRollbackComplete hs
  · exact outOk_execPreemption hs
  · exact outOk_execContextSave hs
  · exact outOk_execSaveBoundExpiry hs
  · exact outOk_execContextRestore hs
  · exact outOk_execWatchdogExpire hs
  · exact outOk_execCheckpointIntervalEnd hs
  · exact outOk_execDieFailed hs
  · exact outOk_execPackageReset hs
  · exact outOk_execAtctlGo hs
  · exact outOk_execAttestationReportDone hs
  · exact outOk_execMrext hs
  · exact outOk_execFppush hs
  · exact outOk_execFrpop hs
  · exact outOk_execPwltrWrite hs
  · exact outOk_execPowerDwellExpiry hs
  · exact outOk_execPowerWake hs
  · exact outOk_execWakeComplete hs
  · exact outOk_execThermalThrottle hs
  · exact outOk_execThermalRecover hs
  · exact outOk_execThermalTrip hs
  · exact outOk_execRegisterWrite hs
  · exact outOk_execCxlCompletion hs

/-! ### The functions of Machine/Issue.lean -/

theorem outOk_andThen {o f} (ho : OutOk o) (hf : ∀ t, memOk t = true → OutOk (f t)) : OutOk (andThen o f) := by
  cases o with
  | next t => exact hf t (ho t rfl)
  | fault x => rintro t ⟨⟩
  | refused x => rintro t ⟨⟩

theorem memOk_nextOf {s o} (hs : memOk s = true) (ho : OutOk o) : memOk (nextOf s o) = true := by
  cases o with
  | next t => exact ho t rfl
  | fault x => exact hs
  | refused x => exact hs

theorem memOk_stopAt {s0 i t} (hs0 : memOk s0 = true) : memOk (stopAt s0 i t) = true := by
  unfold stopAt
  refine memOk_ite (memOk_nextOf hs0 (outOk_exec hs0)) ?_
  dsimp only
  split
  · exact memOk_takeTrap hs0
  · exact memOk_upd hs0

theorem outOk_runOps {s0 ops s} (hs0 : memOk s0 = true) (hs : memOk s = true) : OutOk (runOps s0 ops s) := by
  induction ops generalizing s with
  | nil => exact outOk_next hs
  | cons o ops ih =>
    exact outOk_andThen (outOk_exec hs) fun _ h => outOk_ite (outOk_next (memOk_stopAt hs0)) (ih h)

theorem someOk_limitTrap {s ops} (hs : memOk s = true) : SomeOk id (limitTrap s ops) := by
  unfold limitTrap
  refine someOk_findSome fun _ => ?_
  exact someOk_ite (someOk_some (memOk_nextOf hs (outOk_exec hs))) someOk_none

theorem memOk_finishBundle {s x0 b} (hs : memOk s = true) : memOk (finishBundle s x0 b) = true :=
  memOk_upd (memOk_dropGrants (memOk_trCompare hs))

theorem outOk_leaveBundle {s x0 i} (hs : memOk s = true) : OutOk (leaveBundle s x0 i) := by
  unfold leaveBundle
  dsimp only
  split
  · exact outOk_andThen (outOk_exec (memOk_upd (memOk_dropGrants (memOk_trCompare hs)))) fun _ h =>
      outOk_next (memOk_upd h)
  · exact outOk_exec (memOk_upd (memOk_dropGrants (memOk_trCompare hs)))

theorem outOk_issueOps {s b} (hs : memOk s = true) : OutOk (issueOps s b) := by
  unfold issueOps
  dsimp only
  split
  next e => exact outOk_next (someOk_limitTrap hs _ e :)
  · split
    · exact outOk_exec hs
    · refine outOk_andThen (outOk_runOps hs hs) fun _ h =>
        outOk_ite (outOk_next h)
          (outOk_ite (outOk_andThen (outOk_runOps hs hs) fun _ h => outOk_next (memOk_ite h (memOk_upd h)))
            (outOk_ite
              (outOk_next
                (memOk_upd
                  (memOk_sampleAll (memOk_ite (memOk_ite (memOk_upd h) h) (memOk_upd (memOk_ite (memOk_upd h) h))))))
              (outOk_andThen
                (outOk_runOps (memOk_ite (memOk_ite (memOk_upd h) h) (memOk_upd (memOk_ite (memOk_upd h) h)))
                  (memOk_ite (memOk_ite (memOk_upd h) h) (memOk_upd (memOk_ite (memOk_upd h) h)))) fun _ h =>
                outOk_ite (outOk_next h) ?_)))
      split
      · exact outOk_leaveBundle h
      · exact outOk_next (memOk_finishBundle h)

theorem memOk_decodeTrap {s e} (hs : memOk s = true) : memOk (decodeTrap s e) = true := by
  unfold decodeTrap
  split
  · exact memOk_whenHere hs fun _ h => memOk_takeTrap h
  · exact memOk_whenHere hs fun _ h => memOk_takeTrap h
  · exact memOk_whenHere hs fun _ h => memOk_takeTrap h

theorem outOk_issueBundle {s ws} (hs : memOk s = true) : OutOk (issueBundle s ws) := by
  unfold issueBundle
  split
  · exact outOk_next (memOk_decodeTrap hs)
  · exact outOk_ite (outOk_next (memOk_upd hs)) (outOk_issueOps (memOk_ite hs (memOk_upd hs)))

theorem memOk_poisonNow {s} (hs : memOk s = true) : memOk (poisonNow s).2 = true := by
  unfold poisonNow
  dsimp only
  split
  · exact hs
  · exact memOk_draw hs

theorem memOk_resume {s code} (hs : memOk s = true) : memOk (resume s code) = true :=
  memOk_upd hs

theorem outOk_blocked {s} (hs : memOk s = true) : OutOk (blocked s) :=
  outOk_next (memOk_upd hs)

theorem outOk_position {s} (hs : memOk s = true) : OutOk (position s) := by
  unfold position
  refine outOk_ite (outOk_blocked hs) ?_
  split
  · exact outOk_run keeps_endM hs
  · refine outOk_ite (outOk_next (memOk_upd hs)) (outOk_ite (outOk_next (memOk_decodeTrap hs)) ?_)
    split
    · exact outOk_blocked hs
    · exact outOk_issueBundle hs

theorem outOk_attempt {s c} (hs : memOk s = true) : OutOk (attempt s c) := by
  unfold attempt
  dsimp only
  split
  · exact outOk_next
      (memOk_resume
        (memOk_ite (memOk_updCtx (memOk_sampleAll (memOk_updCtx (memOk_update hs)))) (memOk_updCtx (memOk_update hs))))
  · split
    next e =>
        exact outOk_next
          (memOk_whenHere
            (memOk_snd
              (memOk_poisonNow
                (memOk_ite (memOk_updCtx (memOk_sampleAll (memOk_updCtx (memOk_update hs))))
                  (memOk_updCtx (memOk_update hs))))
              e
              :) fun _ h => memOk_takeLoad h)
    next e =>
        exact outOk_position
          (memOk_snd
            (memOk_poisonNow
              (memOk_ite (memOk_updCtx (memOk_sampleAll (memOk_updCtx (memOk_update hs))))
                (memOk_updCtx (memOk_update hs))))
            e
            :)

theorem memOk_issued {t c tid} (ht : memOk t = true) : memOk (issued t c tid) = true :=
  memOk_ite (memOk_updCtx (memOk_switchTo ht)) ht

theorem outOk_turn {s c} (hs : memOk s = true) : OutOk (turn s c) :=
  outOk_andThen (outOk_attempt hs) fun _ h => outOk_next (memOk_issued h)

/-! ### The functions of Machine/Agenda.lean -/

theorem memOk_pick {s} (hs : memOk s = true) : memOk (pick s).2 = true := by
  unfold pick
  split
  · exact hs
  · exact hs
  · exact memOk_draw hs

theorem outOk_perform {s e} (hs : memOk s = true) : OutOk (perform s e) :=
  outOk_andThen (outOk_exec (memOk_update hs)) fun _ h => outOk_next (memOk_update h)

theorem outOk_take {s c} (hs : memOk s = true) : OutOk (take s c) := by
  unfold take
  split
  · exact outOk_turn hs
  · exact outOk_perform hs
  · split
    · exact outOk_perform (memOk_update hs)
    · exact outOk_next hs
  · exact outOk_next (memOk_setL1 (memOk_l1WriteBack hs))
  · exact outOk_next (memOk_setClc (memOk_clcWriteBack hs))
  · exact outOk_next (memOk_samplePart hs)
  · exact outOk_next (memOk_sampleAcq hs)
  · exact outOk_next (memOk_drainPart hs)

theorem memOk_faultTick {s} (hs : memOk s = true) : memOk (faultTick s) = true :=
  memOk_ite (memOk_pumpFaults hs) hs

theorem memOk_tick {s} (hs : memOk s = true) : memOk (tick s) = true :=
  memOk_faultTick (memOk_idleTick (memOk_update (memOk_draw hs)))

theorem outOk_advanceStep {s} (hs : memOk s = true) : OutOk (advanceStep s) := by
  unfold advanceStep
  split
  · next e =>
      split
      · rintro t ⟨⟩
      · exact outOk_next (memOk_tick (memOk_snd (memOk_pick hs) e :))
  · next e => exact outOk_andThen (outOk_take (memOk_snd (memOk_pick hs) e :)) fun _ h => outOk_next (memOk_tick h)

/-! ### The functions of Machine/Step.lean -/

theorem outOk_step {s} (hs : memOk s = true) : OutOk (step s) :=
  outOk_advanceStep hs

/-! ### The obligation -/

/-- Settles O8: the step is the last function of the model that gives a state, and its lemma rests on those of the others. -/
theorem everyStepKeepsMemoryCanonical : Obligations.EveryStepKeepsMemoryCanonical := by
  unfold Obligations.EveryStepKeepsMemoryCanonical
  intro s t hs h
  exact outOk_step hs t h

end Sys2Proof.Machine
end

section
/-! PROOF. Plain HBM. What a masked write leaves in memory and what a read delivers, where the sectors are in no failed channel,
not held by the host and not poisoned (R103, R106, R109, R163): the rules that O21 and O48 share. -/
namespace Sys2Proof.Machine
open Sys2Proof.Claims

/-! ### Bytes from an address up -/

/-- What a masked list of bytes that begins at `pa` holds for the address `a`. -/
def byteAt (pa : Nat) (bs : List (Option Byte)) (a : Nat) : Option Byte :=
  if pa ≤ a then bs.getD (a - pa) none else none

theorem byteAt_outside {pa a : Nat} {bs : List (Option Byte)} (h : a < pa ∨ pa + bs.length ≤ a) :
    byteAt pa bs a = none := by
  unfold byteAt
  split
  · exact List.getD_eq_default _ _ (by omega)
  · rfl

theorem byteAt_cons_self (pa : Nat) (b : Option Byte) (bs : List (Option Byte)) : byteAt pa (b :: bs) pa = b := by
  simp [byteAt]

theorem byteAt_cons_ne {pa a : Nat} (b : Option Byte) (bs : List (Option Byte)) (h : a ≠ pa) :
    byteAt pa (b :: bs) a = byteAt (pa + 1) bs a := by
  unfold byteAt
  by_cases hlt : pa ≤ a
  · obtain ⟨i, rfl⟩ : ∃ i, a = pa + 1 + i := ⟨a - pa - 1, by omega⟩
    rw [if_pos hlt, if_pos (by omega), show pa + 1 + i - pa = i + 1 by omega, show pa + 1 + i - (pa + 1) = i by omega,
      List.getD_cons_succ]
  · rw [if_neg hlt, if_neg (by omega)]

/-- A list of bytes cut in two holds what its halves hold. -/
theorem byteAt_split (pa k : Nat) (bs : List (Option Byte)) (hk : k ≤ bs.length) (a : Nat) :
    byteAt pa bs a = (byteAt (pa + k) (bs.drop k) a).or (byteAt pa (bs.take k) a) := by
  by_cases h : pa + k ≤ a
  · rw [byteAt_outside (bs := bs.take k) (by simp; omega)]
    simp only [byteAt, if_pos h, if_pos (show pa ≤ a by omega), List.getD_eq_getElem?_getD, List.getElem?_drop,
      show k + (a - (pa + k)) = a - pa by omega]
    exact Option.or_none.symm
  · rw [byteAt_outside (pa := pa + k) (by omega)]
    simp only [byteAt, List.getD_eq_getElem?_getD]
    split
    · rw [List.getElem?_take_of_lt (by omega)]
      rfl
    · rfl

/-- A masked store: each of its enabled bytes is read, and every other byte as before. -/
theorem Memory.read_store {m : Memory} (h : Memory.wf m = true) (pa : Nat) (bs : List (Option Byte)) (a : Nat) :
    Memory.read (Memory.store m pa bs) a = (byteAt pa bs a).getD (Memory.read m a) := by
  induction bs generalizing m pa with
  | nil => rw [byteAt_outside (by simp; omega)]; rfl
  | cons b bs ih =>
    by_cases ha : a = pa
    · subst ha
      rw [byteAt_cons_self]
      cases b with
      | none =>
        simp only [Memory.store]
        rw [Memory.read_store_ne bs h (by omega)]
        rfl
      | some b =>
        simp only [Memory.store]
        rw [Memory.read_store_ne bs (Memory.wf_write a b h) (by omega), Memory.read_write_self a b h]
        rfl
    · rw [byteAt_cons_ne b bs ha]
      cases b with
      | none => exact ih h (pa + 1)
      | some b =>
        simp only [Memory.store]
        rw [ih (Memory.wf_write pa b h) (pa + 1), Memory.read_write_ne b ha h]

theorem Memory.bytes_add (m : Memory) (a n k : Nat) :
    Memory.bytes m a (n + k) = Memory.bytes m a n ++ Memory.bytes m (a + n) k := by
  simp [Memory.bytes, List.range_add, Function.comp_def, Nat.add_assoc]

/-! ### Clean sectors -/

/-- A key that has no entry: nothing to erase. -/
theorem SMap.erase_of_get?_none {α : Type} {m : SMap α} {n : Nat} (h : SMap.get? m n = none) : SMap.erase m n = m := by
  induction m with
  | nil => rfl
  | cons e m ih =>
    obtain ⟨k, w⟩ := e
    by_cases hk : k = n
    · simp [SMap.get?, hk] at h
    · by_cases hn : n < k
      · simp [SMap.erase, hk, hn]
      · simp only [SMap.get?, if_neg hk, if_neg hn] at h
        simp [SMap.erase, hk, hn, ih h]

/-- A sector in no failed channel, not held by the host, and not poisoned. -/
def CleanSec (s : State) (sec : Nat) : Prop :=
  (chan s (chanOf (sec * 32))).failed = false ∧ snoopOf s (sec * 32) = none ∧ isPoison s sec = false

theorem cleanSec_congr (s t : State) (hf : ∀ n, (chan t n).failed = (chan s n).failed)
    (hs : ∀ n, (chan t n).snoop = (chan s n).snoop) (hp : t.hbm.poison = s.hbm.poison) {sec : Nat} (h : CleanSec s sec) :
    CleanSec t sec := by
  unfold CleanSec snoopOf isPoison at *
  rw [hf, hs, hp]
  exact h

theorem chan_setChan (s : State) (n m : Nat) (f : Chan → Chan) :
    chan (setChan s n f) m = if m = n then f (chan s n) else chan s m := by
  split
  · next h => rw [h, chan_setChan_self]
  · next h => exact chan_setChan_ne s f h

/-- A change of a channel that keeps its failure and its snoop filter keeps the clean sectors. -/
theorem cleanSec_setChan {s : State} {n : Nat} {f : Chan → Chan} {sec : Nat} (h : CleanSec s sec)
    (hf : ∀ c, (f c).failed = c.failed) (hs : ∀ c, (f c).snoop = c.snoop) : CleanSec (setChan s n f) sec := by
  refine cleanSec_congr s (setChan s n f) (fun m => ?_) (fun m => ?_) rfl h
  · rw [chan_setChan]
    split
    · next e => rw [hf, e]
    · rfl
  · rw [chan_setChan]
    split
    · next e => rw [hs, e]
    · rfl

theorem cleanSec_activate {s : State} {pa sec : Nat} (h : CleanSec s sec) : CleanSec (activate s pa) sec := by
  unfold activate
  refine cleanSec_setChan h ?_ ?_ <;> exact fun _ => rfl

theorem chanOf_sector (a : Nat) : chanOf (a / 32 * 32) = chanOf a := by
  unfold chanOf bitsAt
  simp only [Nat.shiftRight_eq_div_pow]
  congr 2 <;> omega

theorem snoopOf_sector (s : State) (a : Nat) : snoopOf s (a / 32 * 32) = snoopOf s a := by
  unfold snoopOf
  rw [chanOf_sector, show a / 32 * 32 / 64 = a / 64 by omega]

/-- The sector of each byte of plain HBM is clean. -/
theorem cleanSec_of_plainHbm {s : State} {pa n a : Nat} (h : plainHbm s pa n) (hlo : pa ≤ a) (hhi : a < pa + n) :
    CleanSec s (a / 32) := by
  obtain ⟨-, hbyte⟩ := h
  obtain ⟨-, hpsn, hfail, hsnoop⟩ := hbyte (a - pa) (by omega)
  rw [show pa + (a - pa) = a by omega] at hpsn hfail hsnoop
  exact ⟨by rw [chanOf_sector]; exact hfail, by rw [snoopOf_sector]; exact hsnoop, hpsn⟩

/-- The block of each byte of plain HBM is live. -/
theorem isLive_of_plainHbm {s : State} {pa n a : Nat} (h : plainHbm s pa n) (hlo : pa ≤ a) (hhi : a < pa + n) :
    isLive s (a / 32 * 32) = true := by
  obtain ⟨-, hbyte⟩ := h
  obtain ⟨hlive, -⟩ := hbyte (a - pa) (by omega)
  unfold isLive at *
  rw [show a / 32 * 32 / 4096 = (pa + (a - pa)) / 4096 by omega]
  exact hlive

theorem isHbm_of_plainHbm {s : State} {pa n a : Nat} (h : plainHbm s pa n) (hhi : a < pa + n) : isHbm a = true := by
  obtain ⟨hend, -⟩ := h
  simpa [isHbm] using (by omega : a < 0x00C000000000)

/-! ### Masked writes -/

/-- `t` is `s` after HBM writes of the bytes `w`: no other byte of memory has changed, the clean sectors are clean still, and
nothing outside the HBM and the undo records has changed. -/
structure WroteHbm (s t : State) (w : Nat → Option Byte) : Prop where
  frame : t = { s with hbm := t.hbm, undo := t.undo }
  clean : ∀ sec, CleanSec s sec → CleanSec t sec
  reads : ∀ a, Memory.read t.hbm.mem a = (w a).getD (Memory.read s.hbm.mem a)

theorem WroteHbm.refl (s : State) : WroteHbm s s fun _ => none := ⟨rfl, fun _ h => h, fun _ => rfl⟩

theorem WroteHbm.trans {s t u : State} {w v : Nat → Option Byte} (h : WroteHbm s t w) (g : WroteHbm t u v) :
    WroteHbm s u fun a => (v a).or (w a) where
  frame := by rw [g.frame, h.frame]
  clean := fun sec hc => g.clean sec (h.clean sec hc)
  reads := fun a => by
    rw [g.reads, h.reads]
    cases v a <;> rfl

theorem WroteHbm.congr {s t : State} {w v : Nat → Option Byte} (h : WroteHbm s t w) (e : ∀ a, w a = v a) : WroteHbm s t v :=
  funext e ▸ h

section
variable {s t : State} {w : Nat → Option Byte} (h : WroteHbm s t w)
include h
theorem WroteHbm.ctx : t.ctx = s.ctx := by rw [h.frame]
theorem WroteHbm.l1d : t.l1d = s.l1d := by rw [h.frame]
theorem WroteHbm.clc : t.clc = s.clc := by rw [h.frame]
theorem WroteHbm.mbox : t.mbox = s.mbox := by rw [h.frame]
theorem WroteHbm.far : t.far = s.far := by rw [h.frame]
theorem WroteHbm.fab : t.fab = s.fab := by rw [h.frame]
end

theorem undoLog_frame (s : State) (q : Option Nat) (pa : Nat) : undoLog s q pa = { s with undo := (undoLog s q pa).undo } := by
  unfold undoLog
  split
  · rfl
  · split
    · rfl
    · dsimp only
      split <;> rfl

theorem cleanSec_undoLog {s : State} {q : Option Nat} {pa sec : Nat} (h : CleanSec s sec) : CleanSec (undoLog s q pa) sec := by
  rw [undoLog_frame]
  exact h

/-- What a write of a sector does before its bytes are stored: the undo record, the row, and the lost reservations (R440, R102,
R121). -/
def openSec (s : State) (q : Option Nat) (sec : Nat) : State :=
  setChan (activate (undoLog s q (sec * 32)) (sec * 32)) (chanOf (sec * 32)) fun c =>
    { c with resv := c.resv.filter fun r => r.sector != sec }

/-- The store itself: the block is live, and the bytes are taken unless the sector is poisoned and not written whole. -/
def storeSec (u : State) (sec : Nat) (bs : List (Option Byte)) : State :=
  let live := SMap.set u.hbm.live (sec * 32 / 4096) ()
  if isPoison u sec && !(bs.length = 32 && bs.all Option.isSome) then { u with hbm := { u.hbm with live } }
  else { u with hbm := { u.hbm with
    live, mem := Memory.store u.hbm.mem (sec * 32) bs, poison := SMap.erase u.hbm.poison sec } }

theorem openSec_frame (s : State) (q : Option Nat) (sec : Nat) :
    openSec s q sec = { s with hbm := { s.hbm with ch := (openSec s q sec).hbm.ch }, undo := (openSec s q sec).undo } := by
  unfold openSec activate setChan
  rw [undoLog_frame]
theorem openSec_mem (s : State) (q : Option Nat) (sec : Nat) : (openSec s q sec).hbm.mem = s.hbm.mem := by rw [openSec_frame]
theorem cleanSec_openSec {s : State} {q : Option Nat} {sec j : Nat} (h : CleanSec s j) : CleanSec (openSec s q sec) j := by
  unfold openSec
  refine cleanSec_setChan (cleanSec_activate (cleanSec_undoLog h)) ?_ ?_ <;> exact fun _ => rfl

/-- `chanWrite` as what it does before its bytes are stored, and then the store. -/
theorem chanWrite_eq (s : State) (q : Option Nat) (sec : Nat) (bs : List (Option Byte)) :
    chanWrite s q sec bs false =
      if (chan s (chanOf (sec * 32))).failed then s
      else storeSec (openSec s q sec) sec bs := rfl

/-- A clean sector takes the enabled bytes, and its block is live (R103, R106, R109). -/
theorem storeSec_clean {u : State} {sec : Nat} (bs : List (Option Byte)) (hc : CleanSec u sec) :
    storeSec u sec bs = { u with hbm := { u.hbm with
      live := SMap.set u.hbm.live (sec * 32 / 4096) (), mem := Memory.store u.hbm.mem (sec * 32) bs } } := by
  obtain ⟨-, -, hpsn⟩ := hc
  have hgone : SMap.get? u.hbm.poison sec = none := by simpa [isPoison, SMap.has] using hpsn
  unfold storeSec
  rw [hpsn, Bool.false_and, if_neg Bool.false_ne_true, SMap.erase_of_get?_none hgone]

/-- The write of one clean sector. -/
theorem wroteHbm_chanWrite {s : State} {sec : Nat} (q : Option Nat) (bs : List (Option Byte)) (hs : memOk s = true)
    (hc : CleanSec s sec) : WroteHbm s (chanWrite s q sec bs false) (byteAt (sec * 32) bs) := by
  obtain ⟨hfail, -, -⟩ := id hc
  rw [chanWrite_eq, if_neg (by simp [hfail]), storeSec_clean bs (cleanSec_openSec hc)]
  constructor
  · rw [openSec_frame]
  · exact fun j hj => cleanSec_congr (openSec s q sec) _ (fun _ => rfl) (fun _ => rfl) rfl (cleanSec_openSec hj)
  · intro a
    dsimp only
    rw [openSec_mem, Memory.read_store (memOk_hbmMem hs)]

/-- A device write of a clean sector: no host copy is to be invalidated (R163). -/
theorem wroteHbm_hbmWriteSec {s : State} {sec : Nat} (q : Option Nat) (bs : List (Option Byte)) (hs : memOk s = true)
    (hc : CleanSec s sec) : WroteHbm s (hbmWriteSec s q sec bs false) (byteAt (sec * 32) bs) := by
  have hsnoop : snoopInv s (sec * 32) = s := by
    obtain ⟨-, hnone, -⟩ := hc
    unfold snoopInv
    rw [hnone]
  unfold hbmWriteSec
  rw [hsnoop]
  exact wroteHbm_chanWrite q bs hs hc

/-- The slice of a list for one sector holds the list's bytes there, and none elsewhere. -/
theorem byteAt_secSlice (pa : Nat) (bs : List (Option Byte)) (sec a : Nat) :
    byteAt (sec * 32) (secSlice pa bs sec) a = if a / 32 = sec then byteAt pa bs a else none := by
  by_cases hsec : a / 32 = sec
  · rw [if_pos hsec]
    have hi : a - sec * 32 < 32 := by omega
    have ha : sec * 32 + (a - sec * 32) = a := by omega
    simp only [byteAt, if_pos (show sec * 32 ≤ a by omega), secSlice, List.getD_eq_getElem?_getD, List.getElem?_map,
      List.getElem?_range hi, Option.map_some, Option.getD_some, ha]
    by_cases hlt : a < pa
    · rw [if_pos hlt, if_neg (by omega)]
    · rw [if_neg hlt, if_pos (by omega)]
  · rw [if_neg hsec]
    exact byteAt_outside (by simp [secSlice]; omega)

/-- A sector's step of `hbmWrite`: its slice of the bytes is written, where it has an enabled byte. -/
def writeSlice (q : Option Nat) (pa : Nat) (bs : List (Option Byte)) (s : State) (sec : Nat) : State :=
  if (secSlice pa bs sec).any Option.isSome then hbmWriteSec s q sec (secSlice pa bs sec) false else s

theorem memOk_writeSlice {q : Option Nat} {pa : Nat} {bs : List (Option Byte)} {s : State} {sec : Nat} (hs : memOk s = true) :
    memOk (writeSlice q pa bs s sec) = true := memOk_ite (memOk_hbmWriteSec hs) hs

theorem wroteHbm_writeSlice {s : State} {pa : Nat} {bs : List (Option Byte)} {sec : Nat} (q : Option Nat) (hs : memOk s = true)
    (hc : (secSlice pa bs sec).any Option.isSome = true → CleanSec s sec) :
    WroteHbm s (writeSlice q pa bs s sec) (byteAt (sec * 32) (secSlice pa bs sec)) := by
  unfold writeSlice
  split
  · next hany => exact wroteHbm_hbmWriteSec q _ hs (hc hany)
  · next hnone =>
    refine (WroteHbm.refl s).congr fun a => ?_
    simp only [List.any_eq_true, not_exists, not_and, Bool.not_eq_true, Option.isSome_eq_false_iff,
      Option.isNone_iff_eq_none] at hnone
    unfold byteAt
    split
    · by_cases hlen : a - sec * 32 < (secSlice pa bs sec).length
      · rw [List.getD_eq_getElem _ _ hlen]
        exact (hnone _ (List.getElem_mem hlen)).symm
      · rw [List.getD_eq_default _ _ (by omega)]
    · rfl

/-- The first `k` sectors of `hbmWrite`. -/
theorem wroteHbm_writeSlices {s : State} (q : Option Nat) (pa : Nat) (bs : List (Option Byte)) (hs : memOk s = true)
    (hc : ∀ a, pa ≤ a → a < pa + bs.length → CleanSec s (a / 32)) (k : Nat) :
    WroteHbm s ((List.range k).foldl (fun s i => writeSlice q pa bs s (pa / 32 + i)) s)
      fun a => if a / 32 < pa / 32 + k then byteAt pa bs a else none := by
  induction k with
  | zero =>
    refine (WroteHbm.refl s).congr fun a => ?_
    split
    · exact (byteAt_outside (by omega)).symm
    · rfl
  | succ k ih =>
    rw [List.range_succ, List.foldl_append, List.foldl_cons, List.foldl_nil]
    refine (ih.trans (wroteHbm_writeSlice (sec := pa / 32 + k) q ?canonical fun hany => ih.clean _ ?clean)).congr
      fun a => ?bytes
    case canonical => exact memOk_foldl hs fun _ _ => memOk_writeSlice
    case clean =>
      obtain ⟨b, hb, hsome⟩ := List.any_eq_true.1 hany
      obtain ⟨i, hi, rfl⟩ := List.mem_map.1 hb
      have hi : i < 32 := List.mem_range.1 hi
      split at hsome
      · simp at hsome
      · next hge =>
        have hin : (pa / 32 + k) * 32 + i - pa < bs.length := by
          by_contra hout
          rw [List.getD_eq_default _ _ (by omega)] at hsome
          simp at hsome
        have h := hc ((pa / 32 + k) * 32 + i) (by omega) (by omega)
        rwa [show ((pa / 32 + k) * 32 + i) / 32 = pa / 32 + k by omega] at h
    case bytes =>
      rw [byteAt_secSlice]
      by_cases heq : a / 32 = pa / 32 + k
      · rw [if_pos heq, if_neg (by omega), if_pos (by omega)]
        exact Option.or_none
      · rw [if_neg heq]
        by_cases hlt : a / 32 < pa / 32 + k
        · rw [if_pos hlt, if_pos (by omega)]
          rfl
        · rw [if_neg hlt, if_neg (by omega)]
          rfl

/-- A masked write of clean HBM changes exactly its enabled bytes. -/
theorem wroteHbm_hbmWrite {s : State} (q : Option Nat) (pa : Nat) (bs : List (Option Byte)) (hs : memOk s = true)
    (hc : ∀ a, pa ≤ a → a < pa + bs.length → CleanSec s (a / 32)) : WroteHbm s (hbmWrite s q pa bs) (byteAt pa bs) := by
  unfold hbmWrite
  split
  · next hempty =>
    rw [List.isEmpty_iff.1 hempty]
    exact (WroteHbm.refl s).congr fun a => (byteAt_outside (by simp; omega)).symm
  · next hsome =>
    have hlen : bs.length ≠ 0 := by simpa using hsome
    refine (wroteHbm_writeSlices q pa bs hs hc _).congr fun a => ?_
    split
    · rfl
    · exact (byteAt_outside (by omega)).symm

/-- A masked write at the home of plain HBM. -/
theorem wroteHbm_homeWrite {s : State} (cs : List Nat) (q : Option Nat) (pa : Nat) (bs : List (Option Byte))
    (hs : memOk s = true) (hpa : isHbm pa = true) (hc : ∀ a, pa ≤ a → a < pa + bs.length → CleanSec s (a / 32)) :
    WroteHbm s (homeWrite s cs q pa bs) (byteAt pa bs) := by
  unfold homeWrite
  rw [if_pos hpa]
  exact wroteHbm_hbmWrite q pa bs hs hc

/-! ### Reads -/

/-- The read of a clean, live sector delivers its bytes unpoisoned (R103, R106). -/
theorem hbmReadSec_clean {s : State} {sec : Nat} (hc : CleanSec s sec) (hl : isLive s (sec * 32) = true) :
    hbmReadSec s sec = (Memory.bytes s.hbm.mem (sec * 32) 32, false, activate s (sec * 32)) := by
  obtain ⟨hfail, -, hpsn⟩ := cleanSec_activate (pa := sec * 32) hc
  obtain ⟨-, hnone, -⟩ := hc
  have hsnoop : snoopRead s (sec * 32) = s := by
    unfold snoopRead
    rw [hnone]
  have hlive : isLive (activate s (sec * 32)) (sec * 32) = true := hl
  unfold hbmReadSec
  dsimp only
  rw [hsnoop, hfail, hlive, hpsn]
  rfl

/-- A read of clean, live sectors delivers their bytes, none of them poisoned, and changes no memory. -/
theorem hbmReadSecs_clean {s : State} {sec k : Nat}
    (hc : ∀ j, sec ≤ j → j < sec + k → CleanSec s j ∧ isLive s (j * 32) = true) :
    ∃ t, hbmReadSecs s sec k = (Memory.bytes s.hbm.mem (sec * 32) (32 * k), List.replicate k false, t)
      ∧ t = { s with hbm := t.hbm } ∧ t.hbm.mem = s.hbm.mem := by
  induction k generalizing s sec with
  | zero => exact ⟨s, rfl, rfl, rfl⟩
  | succ k ih =>
    obtain ⟨hclean, hlive⟩ := hc sec (by omega) (by omega)
    obtain ⟨t, hread, hframe, hmem⟩ := ih (s := activate s (sec * 32)) (sec := sec + 1) fun j hlo hhi =>
      have ⟨hj, hl⟩ := hc j (by omega) (by omega)
      ⟨cleanSec_activate hj, hl⟩
    refine ⟨t, ?_, hframe, hmem⟩
    rw [hbmReadSecs, hbmReadSec_clean hclean hlive]
    dsimp only
    rw [hread, show 32 * (k + 1) = 32 + 32 * k by omega, Memory.bytes_add, show sec * 32 + 32 = (sec + 1) * 32 by omega]
    rfl

end Sys2Proof.Machine
end

section
/-! PROOF. Packets of other packages at their destination (O48): what a gateway's updates leave as it is, what a write and a read
of another package come to, and the steps of the gateway. -/
namespace Sys2Proof.Machine
open Sys2Proof.Claims

/-! ### Gateways and sequence points -/

theorem gwOf_setGw (s : State) (d e : Nat) (f : Gw → Gw) :
    gwOf (setGw s d f) e = if e = d then f (gwOf s d) else gwOf s e := by
  unfold gwOf setGw
  split
  · next h => rw [h, SMap.getD_set_self]; rfl
  · next h => exact SMap.getD_set_ne _ _ _ h
@[simp] theorem gwOf_setGw_self (s : State) (d : Nat) (f : Gw → Gw) : gwOf (setGw s d f) d = f (gwOf s d) := by
  rw [gwOf_setGw, if_pos rfl]
theorem gwOf_congr {s t : State} (h : t.fab = s.fab) (d : Nat) : gwOf t d = gwOf s d := by
  unfold gwOf
  rw [h]
@[simp] theorem gwOf_setPort (s : State) (p d : Nat) (f : Port → Port) : gwOf (setPort s p f) d = gwOf s d := rfl
@[simp] theorem gwOf_setSeen (s : State) (p d : Nat) (f : Seen → Seen) : gwOf (setSeen s p f) d = gwOf s d := rfl
@[simp] theorem seenOf_setSeen_self (s : State) (p : Nat) (f : Seen → Seen) : seenOf (setSeen s p f) p = f (seenOf s p) := by
  simp [seenOf, setSeen]
@[simp] theorem setSeen_hbm (s : State) (p : Nat) (f : Seen → Seen) : (setSeen s p f).hbm = s.hbm := rfl
@[simp] theorem gwOf_markDone (s : State) (p n d : Nat) : gwOf (markDone s p n) d = gwOf s d := rfl
@[simp] theorem markDone_hbm (s : State) (p n : Nat) : (markDone s p n).hbm = s.hbm := rfl
@[simp] theorem markDone_dev (s : State) (p n : Nat) : (markDone s p n).dev = s.dev := rfl

/-! ### Replies and responses -/

@[simp] theorem gwOf_e2eAck (s : State) (die : Nat) (k : Packet) (d : Nat) : gwOf (e2eAck s die k) d = gwOf s d := rfl
@[simp] theorem e2eAck_hbm (s : State) (die : Nat) (k : Packet) : (e2eAck s die k).hbm = s.hbm := rfl
@[simp] theorem gwOf_e2eRej (s : State) (die : Nat) (k : Packet) (r : Bool) (d : Nat) :
    gwOf (e2eRej s die k r) d = gwOf s d := rfl
@[simp] theorem seenOf_e2eRej (s : State) (die : Nat) (k : Packet) (r : Bool) (p : Nat) :
    seenOf (e2eRej s die k r) p = seenOf s p := rfl
@[simp] theorem e2eRej_hbm (s : State) (die : Nat) (k : Packet) (r : Bool) : (e2eRej s die k r).hbm = s.hbm := rfl

/-- A packet as `gwSend` puts it into the buffer: numbered, with its path and its tag (R176, R179). -/
def stamped (s : State) (k : Packet) : Packet :=
  sealPkt { k with src := s.pkg, eseq := SMap.getD s.fab.eseq k.dst 0, path := (k.dst + k.addr / 4096) % 65536 }
/-- The next number to a package is used. -/
def numbered (s : State) (dst : Nat) : State :=
  { s with fab := { s.fab with eseq := SMap.set s.fab.eseq dst ((SMap.getD s.fab.eseq dst 0 + 1) % 2 ^ 32) } }

/-- A packet for which the buffer has room is buffered and sent (R179). -/
theorem gwSend_room {s : State} {d : Nat} (k : Packet) (hroom : gwFull s d = false) :
    (gwSend s d k).2 = gwEmit (numbered s k.dst) d (stamped s k) :=
  if_neg fun hfull => Bool.false_ne_true (hroom.symm.trans hfull)

theorem gwOf_gwEmit (s : State) (d : Nat) (k : Packet) :
    gwOf (gwEmit s d k) d =
      { gwOf s d with buf := (gwOf s d).buf ++ [{ pkt := k, port := portFor s d k, time := s.clk }] } := by
  unfold gwEmit portQueue
  rw [gwOf_setPort, gwOf_setGw_self]

/-- `x` is a buffered response of a type to a packet: it names the packet's number in its address field (log 20). -/
def Answers (k : Packet) (ty op : Nat) (data : List Byte) (x : E2E) : Prop :=
  x.pkt.ty = ty ∧ x.pkt.dst = k.src ∧ x.pkt.addr = k.eseq ∧ x.pkt.op = op ∧ x.pkt.data = data

/-- A response for which the buffer has room enters it (R179); the die's gateway keeps all else. -/
theorem respond_buffered {s : State} {die : Nat} (k : Packet) (ty op : Nat) (data : List Byte) (hroom : gwFull s die = false) :
    ∃ x, Answers k ty op data x
      ∧ gwOf (respond s die k ty op data) die = { gwOf s die with buf := (gwOf s die).buf ++ [x] } := by
  unfold respond
  rw [gwSend_room _ (show gwFull (e2eAck s die k) die = false from hroom), gwOf_gwEmit]
  exact ⟨_, ⟨rfl, rfl, rfl, rfl, rfl⟩, rfl⟩

theorem respond_hbm (s : State) (die : Nat) (k : Packet) (ty op : Nat) (data : List Byte) :
    (respond s die k ty op data).hbm = s.hbm := by
  unfold respond gwSend
  dsimp only
  split <;> rfl

/-! ### Held packets -/

/-- A packet is not the one that leaves its gateway. -/
def notPacket (k h : Packet) : Bool := !(h.src = k.src && h.eseq = k.eseq)

/-- A gateway without a packet. -/
def withoutPacket (k : Packet) (g : Gw) : Gw := { g with held := g.held.filter (notPacket k) }

/-- One gateway's step of `unhold`. -/
def unholdAt (k : Packet) (s : State) (d : Nat) : State :=
  if (gwOf s d).held.any (fun h => !notPacket k h) then setGw s d (withoutPacket k) else s

theorem unhold_eq (s : State) (k : Packet) : unhold s k = (List.range 4).foldl (unholdAt k) s := rfl

theorem gwOf_unholdAt (k : Packet) (s : State) (d e : Nat) :
    gwOf (unholdAt k s d) e = if e = d then withoutPacket k (gwOf s d) else gwOf s e := by
  unfold unholdAt
  split
  · exact gwOf_setGw s d e _
  · next hnone =>
    split
    · next h =>
      have hall : (gwOf s d).held.filter (notPacket k) = (gwOf s d).held := by
        rw [List.filter_eq_self]
        intro x hx
        simp only [List.any_eq_true, not_exists, not_and, Bool.not_eq_true, Bool.not_eq_false'] at hnone
        exact hnone x hx
      rw [h, withoutPacket, hall]
    · rfl

theorem gwOf_unholdFirst (k : Packet) (s : State) (n d : Nat) :
    gwOf ((List.range n).foldl (unholdAt k) s) d = if d < n then withoutPacket k (gwOf s d) else gwOf s d := by
  induction n with
  | zero => rfl
  | succ n ih =>
    rw [List.range_succ, List.foldl_append, List.foldl_cons, List.foldl_nil, gwOf_unholdAt]
    rcases Nat.lt_trichotomy d n with h | rfl | h
    · rw [if_neg (by omega), ih, if_pos h, if_pos (by omega)]
    · rw [if_pos rfl, ih, if_neg (by omega), if_pos (by omega)]
    · rw [if_neg (by omega), ih, if_neg (by omega), if_neg (by omega)]

theorem gwOf_unhold {s : State} {k : Packet} {d : Nat} (hd : d < 4) : gwOf (unhold s k) d = withoutPacket k (gwOf s d) := by
  rw [unhold_eq, gwOf_unholdFirst, if_pos hd]

theorem unholdAt_frame (k : Packet) (s : State) (d : Nat) :
    unholdAt k s d = { s with fab := { s.fab with gw := (unholdAt k s d).fab.gw } } := by
  unfold unholdAt
  split <;> rfl

theorem unhold_frame (s : State) (k : Packet) : unhold s k = { s with fab := { s.fab with gw := (unhold s k).fab.gw } } := by
  rw [unhold_eq]
  induction List.range 4 generalizing s with
  | nil => rfl
  | cons d l ih =>
    rw [List.foldl_cons, ih, unholdAt_frame]

@[simp] theorem unhold_hbm (s : State) (k : Packet) : (unhold s k).hbm = s.hbm := by rw [unhold_frame]
@[simp] theorem unhold_dev (s : State) (k : Packet) : (unhold s k).dev = s.dev := by rw [unhold_frame]

/-- The packet is held nowhere any more. -/
theorem not_held_withoutPacket (k : Packet) (g : Gw) :
    ∀ h ∈ (withoutPacket k g).held, ¬ (h.src = k.src ∧ h.eseq = k.eseq) := by
  intro h hh
  obtain ⟨-, hkeep⟩ := List.mem_filter.1 hh
  simpa only [notPacket, Bool.not_eq_true', Bool.and_eq_false_iff, decide_eq_false_iff_not, not_and_or] using hkeep

/-! ### What a write and a read of another package come to -/

/-- Whether a window allows an address rests on device registers alone (R38). -/
theorem exportOk_congr {s t : State} (h : t.dev = s.dev) (pa : Nat) (wr : Bool) : exportOk t pa wr = exportOk s pa wr := by
  have hget : devGet t = devGet s := by
    funext a
    rw [devGet, h]
    rfl
  unfold exportOk exportWin farDecode
  rw [hget]

theorem plainHbm_congr {s t : State} (h : t.hbm = s.hbm) {pa n : Nat} (hp : plainHbm s pa n) : plainHbm t pa n := by
  unfold plainHbm snoopOf isLive isPoison chan at *
  rw [h]
  exact hp

/-- The enabled bytes of a packet (R176). -/
theorem byteAt_pktBytes (k : Packet) (a : Nat) :
    byteAt k.addr (pktBytes k) a =
      if k.addr ≤ a ∧ a < k.addr + k.data.length ∧ (64 ≤ a - k.addr ∨ k.bmask.getD (a - k.addr) true = true)
      then some (k.data.getD (a - k.addr) 0) else none := by
  by_cases hin : k.addr ≤ a ∧ a < k.addr + k.data.length
  · obtain ⟨hlo, hhi⟩ := hin
    have hi : a - k.addr < k.data.length := by omega
    simp only [byteAt, if_pos hlo, pktBytes, List.getD_eq_getElem?_getD (l := List.map _ _), List.getElem?_map,
      List.getElem?_range hi, Option.map_some, Option.getD_some]
    by_cases hen : 64 ≤ a - k.addr ∨ k.bmask.getD (a - k.addr) true = true
    · have hon : ¬ (decide (a - k.addr < 64) && !k.bmask.getD (a - k.addr) true) = true := by
        obtain h | h := hen
        · simp [h]
        · rw [h]
          simp
      rw [if_neg hon]
      exact (if_pos ⟨hlo, hhi, hen⟩).symm
    · have hoff : (decide (a - k.addr < 64) && !k.bmask.getD (a - k.addr) true) = true := by
        obtain ⟨hlt, hmask⟩ := not_or.1 hen
        rw [Bool.eq_false_iff.2 hmask, decide_eq_true (by omega)]
        rfl
      rw [if_pos hoff]
      exact (if_neg fun ⟨_, _, h⟩ => hen h).symm
  · rw [byteAt_outside (by simp [pktBytes]; omega), if_neg fun ⟨hlo, hhi, _⟩ => hin ⟨hlo, hhi⟩]

/-- An allowed write is performed, and acknowledged (R38, R179). -/
theorem writeFor_allowed {s : State} {die : Nat} {k : Packet} (hok : exportOk s k.addr true = true) (hpsn : k.psn = false) :
    writeFor s die k = e2eAck (homeWrite (markDone s k.src k.eseq) [] none k.addr (pktBytes k)) die k := by
  unfold writeFor
  dsimp only
  rw [exportOk_congr (markDone_dev s _ _), hok, hpsn]
  rfl

/-- A write that no window allows is counted, and rejected for good (R38, R182). -/
theorem writeFor_refused {s : State} {die : Nat} {k : Packet} (hno : exportOk s k.addr true = false) :
    writeFor s die k = e2eRej (setSeen (setGw (markDone s k.src k.eseq) die fun g => { g with refuse := bump g.refuse 1 }) k.src
      fun x => { x with refused := x.refused ++ [k.eseq], bad := x.bad ++ [k.sctx] }) die k true := by
  unfold writeFor
  dsimp only
  rw [exportOk_congr (markDone_dev s _ _), hno]
  rfl

/-- An allowed read of plain HBM is answered with its bytes, and changes no memory. -/
theorem readFor_plain {s : State} {die : Nat} {k : Packet} (hok : exportOk s k.addr false = true) (hlen : 0 < k.len)
    (haddr : k.addr % 32 = 0) (hmod : k.len % 32 = 0) (hp : plainHbm s k.addr k.len) :
    ∃ t, readFor s die k = respond t die k 3 0 (Memory.bytes s.hbm.mem k.addr k.len) ∧ t.hbm.mem = s.hbm.mem
      ∧ t.fab = s.fab := by
  obtain ⟨t, hread, hframe, hmem⟩ := hbmReadSecs_clean (s := s) (sec := k.addr / 32) (k := k.len / 32) fun j hlo hhi => by
    have hclean := cleanSec_of_plainHbm hp (a := j * 32) (by omega) (by omega)
    have hlive := isLive_of_plainHbm hp (a := j * 32) (by omega) (by omega)
    rw [show j * 32 / 32 = j by omega] at hclean hlive
    exact ⟨hclean, hlive⟩
  rw [show k.addr / 32 * 32 = k.addr by omega, show 32 * (k.len / 32) = k.len by omega] at hread
  refine ⟨t, ?_, hmem, by rw [hframe]⟩
  unfold readFor homeRead
  rw [hok, if_pos (isHbm_of_plainHbm hp (a := k.addr) (by omega)), hread]
  simp

/-! ### The steps of a gateway -/

theorem does_packetAccept (s : State) (die : Nat) (k : Packet) :
    does (.flecenPacketAccept die k) s (packetArrive (given s (.flecenPacketAccept die k)) die k) := rfl
theorem does_heldWritePerform (s : State) (die i : Nat) :
    does (.heldWritePerform die i) s (heldStep (given s (.heldWritePerform die i)) die i) := rfl
theorem does_flushingReadAnswer (s : State) (die i : Nat) :
    does (.flushingReadAnswer die i) s (flushStep (given s (.flushingReadAnswer die i)) die i) := rfl

/-- A packet for another package changes nothing. -/
theorem packetArrive_elsewhere {s : State} {die : Nat} {k : Packet} (h : k.dst ≠ s.pkg) : packetArrive s die k = s := by
  unfold packetArrive
  rw [if_pos (by simpa using h)]

/-- A packet for this package whose tag passes goes the way of its type. -/
theorem packetArrive_whole {s : State} {die : Nat} {k : Packet} (hdst : k.dst = s.pkg) (htag : tagOk k = true) :
    (k.ty ≤ 2 → packetArrive s die k = requestArrive s die k)
    ∧ (k.ty = 13 → packetArrive s die k = cause s (.e2eAckReceive die k.src k.addr))
    ∧ (k.ty = 14 → packetArrive s die k = cause s (.e2eRejectReceive die k.src k.addr (k.op = 1))) := by
  unfold packetArrive
  rw [if_neg (by simpa using hdst), if_neg (by simpa using htag)]
  refine ⟨fun h => ?_, fun h => ?_, fun h => ?_⟩
  · obtain h | h | h : k.ty = 0 ∨ k.ty = 1 ∨ k.ty = 2 := by omega
    all_goals simp only [h]
  · simp only [h]
  · simp only [h]

/-- A packet for this package whose tag fails is rejected (R179). -/
theorem packetArrive_torn {s : State} {die : Nat} {k : Packet} (hdst : k.dst = s.pkg) (htag : tagOk k = false) :
    packetArrive s die k = tagFailed s die k := by
  unfold packetArrive
  rw [if_neg (by simpa using hdst), if_pos (by simpa using htag)]

/-- The rejection of a request counts, and does no more before the sixteenth (R179). -/
theorem tagFailed_counts {s : State} {die : Nat} {k : Packet} (hty : k.ty ≤ 2)
    (hfew : SMap.getD (seenOf s k.src).rejects k.eseq 0 < 15) :
    tagFailed s die k = e2eRej (setSeen s k.src fun x =>
      { x with rejects := SMap.set x.rejects k.eseq (SMap.getD (seenOf s k.src).rejects k.eseq 0 + 1) }) die k false := by
  unfold tagFailed
  rw [if_neg (by omega)]
  split
  · omega
  · dsimp only
    rw [if_neg (by omega)]

/-- A request that arrives whole for the first time is performed, where it may be, or held (R180 to R182). -/
theorem requestArrive_new {s : State} {die : Nat} {k : Packet} (hnew : seenDone (seenOf s k.src) k.eseq = false)
    (hheld : ∀ h ∈ heldFrom s k.src, h.eseq ≠ k.eseq) :
    (k.ty ≠ 2 ∧ mayPerform s k = true ∧ requestArrive s die k = performFor (draw s).2 die k)
    ∨ requestArrive s die k = setGw (draw s).2 die fun g => { g with held := g.held ++ [k] } := by
  have hany : ((heldFrom s k.src).any fun h => h.eseq = k.eseq) = false := by
    rw [List.any_eq_false]
    exact fun h hh => by simpa using hheld h hh
  unfold requestArrive
  dsimp only
  rw [hnew, hany]
  simp only [Bool.and_false, Bool.false_eq_true, ↓reduceIte]
  split
  · next hgo =>
    simp only [Bool.and_eq_true, bne_iff_ne, ne_eq] at hgo
    obtain ⟨⟨hty, hmay⟩, -⟩ := hgo
    exact .inl ⟨hty, hmay, rfl⟩
  · exact .inr rfl

theorem heldStep_performs {s : State} {die i : Nat} {k : Packet} (hk : (gwOf s die).held[i]? = some k)
    (hmay : mayPerform s k = true) : heldStep s die i = performFor (unhold s k) die k := by
  unfold heldStep
  rw [hk]
  exact if_pos hmay
theorem heldStep_waits {s : State} {die i : Nat} {k : Packet} (hk : (gwOf s die).held[i]? = some k)
    (hmay : mayPerform s k = false) : heldStep s die i = s := by
  unfold heldStep
  rw [hk]
  exact if_neg (by simp [hmay])

theorem performFor_read {s : State} {die : Nat} {k : Packet} (h : k.ty = 0) :
    performFor s die k = readFor (markDone s k.src k.eseq) die k := by
  unfold performFor
  simp only [h]
theorem performFor_write {s : State} {die : Nat} {k : Packet} (h : k.ty = 1) : performFor s die k = writeFor s die k := by
  unfold performFor
  simp only [h]

/-- A write that may be performed leaves its gateway; an allowed one changes exactly its enabled bytes. -/
theorem heldStep_write {s : State} {die i : Nat} {k : Packet} (hdie : die < 4) (hk : (gwOf s die).held[i]? = some k)
    (hmay : mayPerform s k = true) (hty : k.ty = 1) (hs : memOk s = true) (hpsn : k.psn = false)
    (hpage : k.addr % 4096 + k.data.length ≤ 4096) (hp : plainHbm s (k.addr / 4096 * 4096) 4096)
    (hok : exportOk s k.addr true = true) :
    (∀ h ∈ (gwOf (heldStep s die i) die).held, ¬ (h.src = k.src ∧ h.eseq = k.eseq))
    ∧ ∀ a, Memory.read (heldStep s die i).hbm.mem a =
        if k.addr ≤ a ∧ a < k.addr + k.data.length ∧ (64 ≤ a - k.addr ∨ k.bmask.getD (a - k.addr) true = true)
        then k.data.getD (a - k.addr) 0 else Memory.read s.hbm.mem a := by
  have hok : exportOk (unhold s k) k.addr true = true := (exportOk_congr (unhold_dev s k) _ _).trans hok
  have hp : plainHbm (markDone (unhold s k) k.src k.eseq) (k.addr / 4096 * 4096) 4096 :=
    plainHbm_congr ((markDone_hbm _ _ _).trans (unhold_hbm s k)) hp
  have hwrote := wroteHbm_homeWrite [] none k.addr (pktBytes k) (memOk_markDone (memOk_unhold hs))
    (isHbm_of_plainHbm hp (by omega)) fun a hlo hhi =>
      cleanSec_of_plainHbm hp (by omega) (by simp only [pktBytes, List.length_map, List.length_range] at hhi; omega)
  rw [heldStep_performs hk hmay, performFor_write hty, writeFor_allowed hok hpsn, gwOf_e2eAck, e2eAck_hbm]
  refine ⟨?_, fun a => ?_⟩
  · rw [gwOf_congr hwrote.fab, gwOf_markDone, gwOf_unhold hdie]
    exact not_held_withoutPacket k _
  · rw [hwrote.reads, byteAt_pktBytes, markDone_hbm, unhold_hbm]
    split <;> rfl

/-- A write that no window allows changes no memory, and is counted. -/
theorem heldStep_refused {s : State} {die i : Nat} {k : Packet} (hdie : die < 4) (hk : (gwOf s die).held[i]? = some k)
    (hmay : mayPerform s k = true) (hty : k.ty = 1) (hno : exportOk s k.addr true = false) :
    (heldStep s die i).hbm = s.hbm ∧ (gwOf (heldStep s die i) die).refuse = bump (gwOf s die).refuse 1 := by
  have hno : exportOk (unhold s k) k.addr true = false := (exportOk_congr (unhold_dev s k) _ _).trans hno
  rw [heldStep_performs hk hmay, performFor_write hty, writeFor_refused hno]
  constructor
  · rw [e2eRej_hbm, setSeen_hbm, setGw_hbm, markDone_hbm, unhold_hbm]
  · rw [gwOf_e2eRej, gwOf_setSeen, gwOf_setGw_self, gwOf_markDone, gwOf_unhold hdie]
    rfl

/-- An allowed read is answered with its bytes, and changes no memory. -/
theorem heldStep_read {s : State} {die i : Nat} {k : Packet} (hdie : die < 4) (hk : (gwOf s die).held[i]? = some k)
    (hmay : mayPerform s k = true) (hty : k.ty = 0) (hroom : gwFull s die = false) (hlen : 0 < k.len) (haddr : k.addr % 32 = 0)
    (hmod : k.len % 32 = 0) (hp : plainHbm s k.addr k.len) (hok : exportOk s k.addr false = true) :
    (heldStep s die i).hbm.mem = s.hbm.mem
    ∧ ∃ x ∈ (gwOf (heldStep s die i) die).buf, Answers k 3 0 (Memory.bytes s.hbm.mem k.addr k.len) x := by
  have hok : exportOk (markDone (unhold s k) k.src k.eseq) k.addr false = true :=
    (exportOk_congr ((markDone_dev _ _ _).trans (unhold_dev s k)) _ _).trans hok
  have hp : plainHbm (markDone (unhold s k) k.src k.eseq) k.addr k.len :=
    plainHbm_congr ((markDone_hbm _ _ _).trans (unhold_hbm s k)) hp
  obtain ⟨t, hread, hmem, hfab⟩ := readFor_plain (die := die) hok hlen haddr hmod hp
  have hgw : gwOf t die = withoutPacket k (gwOf s die) := by
    rw [gwOf_congr hfab, gwOf_markDone, gwOf_unhold hdie]
  have hroom : gwFull t die = false := by
    unfold gwFull at *
    rw [hgw]
    exact hroom
  obtain ⟨x, hx, hbuf⟩ := respond_buffered k 3 0 (Memory.bytes s.hbm.mem k.addr k.len) hroom
  rw [markDone_hbm, unhold_hbm] at hread hmem
  rw [heldStep_performs hk hmay, performFor_read hty, hread, respond_hbm]
  exact ⟨hmem, x, by rw [hbuf]; simp, hx⟩

/-- A flushing read whose lower-numbered writes are done is answered: whether one was refused (R183). -/
theorem flushStep_answers {s : State} {die i : Nat} {k : Packet} (hk : (gwOf s die).flushes[i]? = some k)
    (hdone : writesDone s k = true) (hroom : gwFull s die = false) :
    (gwOf (flushStep s die i) die).flushes = (gwOf s die).flushes.eraseIdx i
    ∧ ∃ x ∈ (gwOf (flushStep s die i) die).buf,
        Answers k 6 (if (seenOf s k.src).bad.contains k.sctx then 1 else 0) [] x := by
  let u := setSeen (setGw s die fun g => { g with flushes := g.flushes.eraseIdx i }) k.src fun x =>
    { x with bad := x.bad.filter fun c => c != k.sctx }
  have hstep : flushStep s die i = respond u die k 6 (if (seenOf s k.src).bad.contains k.sctx then 1 else 0) [] := by
    unfold flushStep
    rw [hk]
    exact if_pos hdone
  have hgw : gwOf u die = { gwOf s die with flushes := (gwOf s die).flushes.eraseIdx i } := by
    rw [gwOf_setSeen, gwOf_setGw_self]
  have hroom : gwFull u die = false := by
    unfold gwFull at *
    rw [hgw]
    exact hroom
  obtain ⟨x, hx, hbuf⟩ := respond_buffered k 6 (if (seenOf s k.src).bad.contains k.sctx then 1 else 0) [] hroom
  rw [hstep, hbuf, hgw]
  exact ⟨rfl, x, by simp, hx⟩
theorem flushStep_waits {s : State} {die i : Nat} {k : Packet} (hk : (gwOf s die).flushes[i]? = some k)
    (hdone : writesDone s k = false) : flushStep s die i = s := by
  unfold flushStep
  rw [hk]
  exact if_neg (by simp [hdone])

/-! ### The obligation -/

/-- Settles O48: each clause is a step of the gateway, performed with its event in the state. -/
theorem packetsArePerformedAtTheirHome : Obligations.PacketsArePerformedAtTheirHome := by
  unfold Obligations.PacketsArePerformedAtTheirHome
  intro s die i k
  have harrive := does_packetAccept s die k
  have hheld := does_heldWritePerform s die i
  have hflush := does_flushingReadAnswer s die i
  refine ⟨fun hdst htag => ?whole, fun hdst htag hty hfew => ?torn, fun hdst => ?elsewhere, fun hdie hk hmay => ?performs,
    fun hk hmay => ?waits, fun hk => ?flush⟩
  case whole =>
    obtain ⟨hreq, hack, hrej⟩ := packetArrive_whole (s := given s (.flecenPacketAccept die k)) (die := die) hdst htag
    refine ⟨fun hty hnew hnone => ?_, fun hty => ?_, fun hty => ?_⟩
    · rw [hreq hty] at harrive
      obtain ⟨hne, hmay, hperf⟩ | hhold :=
        requestArrive_new (s := given s (.flecenPacketAccept die k)) (die := die) hnew hnone
      · exact .inl ⟨hne, hmay, hperf ▸ harrive⟩
      · exact .inr (hhold ▸ harrive)
    · exact ⟨_, harrive, by rw [hack hty]; rfl⟩
    · exact ⟨_, harrive, by rw [hrej hty]; rfl⟩
  case torn =>
    rw [packetArrive_torn (s := given s _) hdst htag, tagFailed_counts (s := given s _) hty hfew] at harrive
    refine ⟨_, harrive, ?_, rfl⟩
    rw [seenOf_e2eRej, seenOf_setSeen_self, SMap.getD_set_self]
    rfl
  case elsewhere => rwa [packetArrive_elsewhere (s := given s _) hdst] at harrive
  case performs =>
    refine ⟨fun hty hs hpsn _ hpage hp hok => ⟨_, hheld, ?_⟩, fun hty hno => ⟨_, hheld, ?_⟩,
      fun hty hroom hlen haddr hmod hp hok => ⟨_, hheld, ?_⟩⟩
    · exact heldStep_write (s := given s _) hdie hk hmay hty (memOk_update hs) hpsn hpage hp hok
    · exact heldStep_refused (s := given s _) hdie hk hmay hty hno
    · exact heldStep_read (s := given s _) hdie hk hmay hty hroom hlen haddr hmod hp hok
  case waits => rwa [heldStep_waits (s := given s _) hk hmay] at hheld
  case flush =>
    refine ⟨fun hdone hroom => ⟨_, hflush, ?_⟩, fun hdone => ?_⟩
    · obtain ⟨hgone, x, hx, hty, hdst, haddr, hop, -⟩ :=
        flushStep_answers (s := given s (.flushingReadAnswer die i)) hk hdone hroom
      exact ⟨hgone, x, hx, hty, hdst, haddr, hop⟩
    · rwa [flushStep_waits (s := given s _) hk hdone] at hflush

end Sys2Proof.Machine
end

section
/-! PROOF. Lines of an L1D (O21): the bytes of a current line that a core's masked write changes, and what it leaves alone (R139,
R141). -/
namespace Sys2Proof.Machine
open Sys2Proof.Claims

/-! ### Masks and bytes of a line -/

theorem packN_lt (w : Nat) (f : Nat → Nat) (n : Nat) : packN w f n < 2 ^ (w * n) := by
  induction n with
  | zero => simp [packN]
  | succ n ih =>
    have hlane : f n % 2 ^ w + 1 ≤ 2 ^ w := Nat.mod_lt _ (Nat.two_pow_pos w)
    calc packN w f n + f n % 2 ^ w * 2 ^ (w * n)
        < (f n % 2 ^ w + 1) * 2 ^ (w * n) := by rw [Nat.add_mul]; omega
      _ ≤ 2 ^ w * 2 ^ (w * n) := Nat.mul_le_mul_right _ hlane
      _ = 2 ^ (w * (n + 1)) := by rw [← Nat.pow_add, Nat.mul_succ, Nat.add_comm]

/-- Bit `j` of lane `i` of a packed number. -/
theorem testBit_packN {w n i j : Nat} (f : Nat → Nat) (hi : i < n) (hj : j < w) :
    (packN w f n).testBit (w * i + j) = (f i).testBit j := by
  induction n with
  | zero => omega
  | succ n ih =>
    rw [packN, Nat.add_comm, Nat.mul_comm (f n % 2 ^ w), Nat.testBit_two_pow_mul_add _ (packN_lt w f n)]
    by_cases hlast : i = n
    · subst hlast
      rw [if_neg (by omega), Nat.add_sub_cancel_left, Nat.testBit_mod_two_pow, decide_eq_true hj, Bool.true_and]
    · have hlane : w * (i + 1) ≤ w * n := Nat.mul_le_mul_left w (by omega)
      rw [Nat.mul_succ] at hlane
      rw [if_pos (by omega), ih (by omega)]

theorem getLsbD_byteBits (m : BitVec 128) {i j : Nat} (hi : i < 128) (hj : j < 8) :
    (byteBits m).getLsbD (8 * i + j) = m.getLsbD i := by
  unfold byteBits
  rw [BitVec.getLsbD_ofNat, testBit_packN _ hi hj, decide_eq_true (by omega), Bool.true_and]
  split
  · next h => rw [h, show 255 = 2 ^ 8 - 1 from rfl, Nat.testBit_two_pow_sub_one, decide_eq_true hj]
  · next h => rw [Nat.zero_testBit, Bool.eq_false_iff.2 h]

/-- Under its mask, a line takes the bytes of the data, and keeps its own elsewhere. -/
theorem byte_Line_put (l : Line) (data : BitVec 1024) (m : BitVec 128) {i : Nat} (hi : i < 128) :
    (Line_put l data m).data.extractLsb' (8 * i) 8
      = if m.getLsbD i then data.extractLsb' (8 * i) 8 else l.data.extractLsb' (8 * i) 8 := by
  refine BitVec.eq_of_getLsbD_eq fun j hj => ?_
  have hlt : 8 * i + j < 1024 := by omega
  rw [BitVec.getLsbD_extractLsb']
  simp only [Line_put, BitVec.getLsbD_or, BitVec.getLsbD_and, BitVec.getLsbD_not, getLsbD_byteBits m hi hj, hj, hlt,
    decide_true, Bool.true_and]
  cases hm : m.getLsbD i <;> simp [hj]

/-- The mask of a list of bytes at an offset covers those that are there. -/
theorem getLsbD_lineMask (o : Nat) (bs : List (Option Byte)) {i : Nat} (hi : i < 128) :
    (lineMask o bs).2.getLsbD i = (byteAt o bs i).isSome := by
  have hlane := testBit_packN (w := 1) (j := 0)
    (fun i => if o ≤ i && (bs.getD (i - o) none).isSome then 1 else 0) hi (by omega)
  rw [Nat.one_mul, Nat.add_zero] at hlane
  unfold lineMask byteAt
  rw [BitVec.getLsbD_ofNat, hlane, decide_eq_true hi, Bool.true_and]
  by_cases ho : o ≤ i
  · rw [if_pos ho, decide_eq_true ho, Bool.true_and]
    cases (bs.getD (i - o) none).isSome <;> rfl
  · simp [ho]

/-- The data of a list of bytes at an offset. -/
theorem byte_lineMask (o : Nat) (bs : List (Option Byte)) {i : Nat} (hi : i < 128) {b : Byte} (hb : byteAt o bs i = some b) :
    (lineMask o bs).1.extractLsb' (8 * i) 8 = b := by
  have ho : o ≤ i := by
    by_contra h
    rw [byteAt_outside (by omega)] at hb
    cases hb
  have hget : bs.getD (i - o) none = some b := by
    rw [byteAt, if_pos ho] at hb
    exact hb
  refine BitVec.eq_of_getLsbD_eq fun j hj => ?_
  unfold lineMask
  rw [BitVec.getLsbD_extractLsb', BitVec.getLsbD_ofNat, testBit_packN _ hi hj, if_neg (by omega), hget, decide_eq_true hj,
    decide_eq_true (by omega)]
  exact BitVec.testBit_toNat b

/-- A masked write of a line: each of its bytes is there, and the line's own bytes elsewhere. -/
theorem byte_Line_put_lineMask (l : Line) (o : Nat) (bs : List (Option Byte)) {i : Nat} (hi : i < 128) :
    (Line_put l (lineMask o bs).1 (lineMask o bs).2).data.extractLsb' (8 * i) 8
      = (byteAt o bs i).getD (l.data.extractLsb' (8 * i) 8) := by
  rw [byte_Line_put _ _ _ hi, getLsbD_lineMask o bs hi]
  cases hb : byteAt o bs i with
  | none => rfl
  | some b => exact byte_lineMask o bs hi hb

/-! ### Lines of an L1D -/

theorem l1Of_setL1_self (s : State) (core ln : Nat) (l : Line) :
    l1Of (setL1 s core ln (some l)) core = { l1Of s core with lines := SMap.set (l1Of s core).lines ln l } := by
  simp [l1Of, setL1, SMap.modify]
theorem l1Of_setL1_ne (s : State) {core k : Nat} (ln : Nat) (l : Option Line) (h : k ≠ core) :
    l1Of (setL1 s core ln l) k = l1Of s k := by
  simp [l1Of, setL1, SMap.modify, SMap.getD_set_ne _ _ _ h]

/-- `t` is `s` after the writes `w` into the line `l` of a core's L1D: those bytes are the line's, and dirty there; no other line,
no other cache, no memory and no context has changed. -/
structure WroteLine (s t : State) (core ln : Nat) (l : Line) (w : Nat → Option Byte) : Prop where
  line : ∃ l', SMap.get? (l1Of t core).lines ln = some l' ∧ l'.gens = gensL1 (l1Of t core)
    ∧ (∀ i, i < 128 → l'.data.extractLsb' (8 * i) 8 = (w i).getD (l.data.extractLsb' (8 * i) 8))
    ∧ (∀ i, i < 128 → l'.dirty.getLsbD i = (l.dirty.getLsbD i || (w i).isSome))
  others : ∀ j, j ≠ ln → SMap.get? (l1Of t core).lines j = SMap.get? (l1Of s core).lines j
  cores : ∀ k, k ≠ core → l1Of t k = l1Of s k
  hbm : t.hbm = s.hbm
  clc : t.clc = s.clc
  ctx : ∀ c, ctxOf t c = ctxOf s c

theorem WroteLine.start {s t : State} {core ln : Nat} {l : Line} (hline : SMap.get? (l1Of s core).lines ln = some l)
    (hgens : l.gens = gensL1 (l1Of s core)) (hl1d : t.l1d = s.l1d) (hhbm : t.hbm = s.hbm) (hclc : t.clc = s.clc)
    (hctx : ∀ c, ctxOf t c = ctxOf s c) : WroteLine s t core ln l fun _ => none := by
  have hl1 : ∀ k, l1Of t k = l1Of s k := fun k => by unfold l1Of; rw [hl1d]
  refine ⟨⟨l, ?_, ?_, fun i _ => rfl, fun i _ => (Bool.or_false _).symm⟩, fun j _ => ?_, fun k _ => hl1 k, hhbm,
    hclc, hctx⟩
  · rw [hl1, hline]
  · rw [hl1, hgens]
  · rw [hl1]

theorem WroteLine.congr {s t : State} {core ln : Nat} {l : Line} {w v : Nat → Option Byte} (h : WroteLine s t core ln l w)
    (e : ∀ i, w i = v i) : WroteLine s t core ln l v := funext e ▸ h

/-- The trace of an access touches no cache, no memory and no context. -/
theorem WroteLine.trMem {s t : State} {core ln : Nat} {l : Line} {w : Nat → Option Byte} (h : WroteLine s t core ln l w)
    (c k v n : Nat) : WroteLine s (trMem t c k v n) core ln l w := by
  obtain ⟨hline, hothers, hcores, hhbm, hclc, hctx⟩ := h
  rw [trMem_frame]
  exact ⟨hline, hothers, hcores, hhbm, hclc, hctx⟩

/-- A current line is not fetched again (R139). -/
theorem l1Ensure_current {s : State} {core ln : Nat} {l : Line} (hline : SMap.get? (l1Of s core).lines ln = some l)
    (hgens : l.gens = gensL1 (l1Of s core)) (noClc : Bool) : l1Ensure s core ln noClc = (l, s) := by
  unfold l1Ensure
  rw [hline]
  exact if_pos hgens

/-- A core's masked write within a current line, through a page that its L1D caches. -/
theorem WroteLine.write {s t : State} {core ln : Nat} {l : Line} {w : Nat → Option Byte} {pa cp : Nat}
    (h : WroteLine s t core ln l w) (hln : pa / 128 = ln) (hunc : uncached t pa cp = false) (hcp : cp ≠ 3) (c : Nat)
    (q : Option Nat) (bs : List (Option Byte)) :
    WroteLine s (coreWritePiece t c core q pa cp bs) core ln l fun i => (byteAt (pa % 128) bs i).or (w i) := by
  subst hln
  obtain ⟨⟨l', hline, hgens, hdata, hdirty⟩, hothers, hcores, hhbm, hclc, hctx⟩ := h
  obtain ⟨m, hm, hmdata, hmdirty, hmgens⟩ :
      ∃ m : Line, coreWritePiece t c core q pa cp bs = setL1 t core (pa / 128) (some m)
      ∧ m.data = (Line_put l' (lineMask (pa % 128) bs).1 (lineMask (pa % 128) bs).2).data
      ∧ m.dirty = l'.dirty ||| (lineMask (pa % 128) bs).2 ∧ m.gens = l'.gens := by
    unfold coreWritePiece
    rw [hunc, if_neg Bool.false_ne_true]
    dsimp only
    rw [if_neg hcp, l1Ensure_current hline hgens]
    exact ⟨_, rfl, rfl, rfl, rfl⟩
  rw [hm]
  refine ⟨⟨m, ?_, ?_, fun i hi => ?_, fun i hi => ?_⟩, fun j hj => ?_, fun k hk => ?_, hhbm, hclc, hctx⟩
  · rw [l1Of_setL1_self, SMap.get?_set_self]
  · rw [l1Of_setL1_self, hmgens, hgens]
    rfl
  · rw [hmdata, byte_Line_put_lineMask _ _ _ hi, hdata i hi]
    cases byteAt (pa % 128) bs i <;> rfl
  · rw [hmdirty, BitVec.getLsbD_or, hdirty i hi, getLsbD_lineMask _ _ hi]
    cases byteAt (pa % 128) bs i <;> simp
  · rw [l1Of_setL1_self, SMap.get?_set_ne _ _ hj, hothers j hj]
  · rw [l1Of_setL1_ne _ _ _ hk, hcores k hk]

end Sys2Proof.Machine
end

section
/-! PROOF. `st` (O21): its one piece, performed at once within a sector and as two parts otherwise (R131), and its trap. -/
namespace Sys2Proof.Machine
open Sys2Proof.Claims

/-! ### The pieces of an access -/

/-- An access within one line is one piece. -/
theorem linePieces_within {pa n : Nat} (hn : 0 < n) (h : pa % 128 + n ≤ 128) : linePieces pa n = [(pa, 0, n)] := by
  have hcount : (pa + n - 1) / 128 - pa / 128 + 1 = 1 := by omega
  have hend : min (pa + n) ((pa / 128 + 0 + 1) * 128) - pa = n := by omega
  unfold linePieces cutsAt
  rw [if_neg (by omega), hcount, show List.range 1 = [0] from rfl]
  simp only [List.map_cons, List.map_nil, ↓reduceIte, hend, Nat.sub_self]

/-- An access of at most a sector's length that spans sectors is two pieces (R131). -/
theorem sectorPieces_across {pa n : Nat} (hn : n ≤ 32) (h : 32 < pa % 32 + n) :
    sectorPieces pa n = [(pa, 0, 32 - pa % 32), (pa + (32 - pa % 32), 32 - pa % 32, n - (32 - pa % 32))] := by
  obtain ⟨hcount, hmin, hnext, hlast, hoff⟩ : (pa + n - 1) / 32 - pa / 32 + 1 = 2
      ∧ min (pa + n) (pa + (32 - pa % 32)) = pa + (32 - pa % 32)
      ∧ (pa / 32 + 1) * 32 = pa + (32 - pa % 32)
      ∧ min (pa + n) ((pa / 32 + 1 + 1) * 32) - (pa + (32 - pa % 32)) = n - (32 - pa % 32)
      ∧ pa + (32 - pa % 32) - pa = 32 - pa % 32 := by
    refine ⟨?_, ?_, ?_, ?_, ?_⟩ <;> omega
  unfold sectorPieces cutsAt
  rw [if_neg (by omega), hcount, show List.range 2 = [0, 1] from rfl]
  simp only [List.map_cons, List.map_nil, ↓reduceIte, Nat.one_ne_zero, hnext, hmin, hlast, hoff, Nat.sub_self]

/-- A core's write within one line is one write at its caches or its home. -/
theorem coreWrite_within {s : State} {c core cp pa : Nat} {q : Option Nat} {bs : List (Option Byte)}
    (h : pa % 128 + bs.length ≤ 128) (hsome : bs.any Option.isSome = true) :
    coreWrite s c core q pa cp bs = coreWritePiece s c core q pa cp bs := by
  have hlen : 0 < bs.length := by
    cases bs with
    | nil => simp at hsome
    | cons b bs => exact Nat.succ_pos _
  have hne : ¬ bs.isEmpty = true := by
    rw [List.isEmpty_iff_length_eq_zero]
    omega
  unfold coreWrite
  rw [if_neg hne, linePieces_within hlen h, List.foldl_cons, List.foldl_nil]
  dsimp only
  rw [List.drop_zero, List.take_length, if_pos hsome]

/-! ### A store on its way to HBM -/

theorem map_range {pa : Nat} (h : pa < 0x00C000000000) :
    isHbm pa = true ∧ isFar pa = false ∧ isMbox pa = false ∧ isDev pa = false := by
  refine ⟨?_, ?_, ?_, ?_⟩ <;> simp [isHbm, isFar, isMbox, isDev] <;> omega

/-- A store of `n` bytes from `va` to HBM that nothing holds back: its page is translated without a walk, the context's earlier
accesses are performed, nothing is metered, and no copy descriptor waits there. -/
structure StoreReady (s : State) (va : Word) (n pa cp : Nat) : Prop where
  settled : settled (cc s)
  mapped : mapped s va .write pa cp
  inPage : va.toNat % 65536 + n ≤ 65536
  unmetered : bsuOn s = false
  free : descHeld s va.toNat n = false
  pos : 0 < n
  short : n ≤ 8
  inHbm : pa + n ≤ 0x00C000000000
  policy : cp ≤ 2

/-- The one piece of such a store. -/
def wholePiece (s : State) (va : Word) (n pa cp : Nat) : Piece :=
  { off := 0, va := va, pkg := s.pkg, pa := pa, cp := cp, len := n }

theorem xlat_ok {s : State} {va : Word} {acc : Acc4} {pa cp : Nat} (h : mapped s va acc pa cp) :
    xlat va acc s = (.ok (s.pkg, pa, cp), s) := by
  unfold xlat xlatAs
  rw [M_bind_ok (get_apply s), show translate s (.core (coreOf s.cur)) (asidOf s s.cur) va acc = _ from h]
  rfl
theorem xlat_fault {s t : State} {va : Word} {acc : Acc4} {sub : Nat}
    (h : translate s (.core (coreOf s.cur)) (asidOf s s.cur) va acc = (.fault sub, t)) :
    xlat va acc s = (.error (.trap sub va (akOf acc)), t) := by
  unfold xlat xlatAs
  rw [M_bind_ok (get_apply s), h]
  rfl

theorem pieces_none (va : Word) (acc : Acc4) (off k : Nat) (s : State) : pieces va 0 acc off k s = (.ok [], s) := by
  cases k <;> rfl

theorem pieces_fault {s t : State} {va : Word} {n k off sub : Nat} {acc : Acc4} (hn : 0 < n)
    (h : translate s (.core (coreOf s.cur)) (asidOf s s.cur) va acc = (.fault sub, t)) :
    pieces va n acc off (k + 1) s = (.error (.trap sub va (akOf acc)), t) := by
  unfold pieces
  rw [if_neg (by omega), M_bind_error (xlat_fault h)]

theorem pieces_whole {s : State} {va : Word} {n pa cp k : Nat} (h : StoreReady s va n pa cp) :
    pieces va n .write 0 (k + 1) s = (.ok [wholePiece s va n pa cp], s) := by
  obtain ⟨hhbm, -, -, hdev⟩ := map_range (pa := pa) (by have := h.inHbm; have := h.pos; omega)
  have hphys : physOk s pa n = true := by simp [physOk, hhbm, h.inHbm]
  have hlen : min n (65536 - va.toNat % 65536) = n := by have := h.inPage; omega
  have hpos : n ≠ 0 := by have := h.pos; omega
  unfold pieces
  rw [if_neg hpos, M_bind_ok (xlat_ok h.mapped)]
  dsimp only
  rw [hlen, M_bind_ok (get_apply s), hdev, if_neg Bool.false_ne_true, hphys, Bool.not_true, Bool.and_false,
    M_bind_ok (trapIf_false _ _ _ s), Nat.sub_self, M_bind_ok (pieces_none _ _ _ _ s)]
  rfl

/-- A context whose accesses have all been performed waits for none of them. -/
theorem settled_any {x : Ctx} (h : settled x) (p : LoadPart → Bool) :
    (x.flights.any fun f => f.parts.any fun r => r.got.isNone && p r) = false := by
  obtain ⟨hall, -⟩ := h
  rw [List.any_eq_false]
  intro f hf
  have hhere := List.all_eq_true.1 hall f hf
  unfold Flight_here at hhere
  obtain ⟨-, hparts⟩ := Bool.and_eq_true_iff.1 hhere
  rw [Bool.not_eq_true, List.any_eq_false]
  intro r hr
  have hgot : r.got.isSome = true := List.all_eq_true.1 hparts r hr
  rw [Option.isSome_iff_exists] at hgot
  obtain ⟨v, hv⟩ := hgot
  simp [hv]

theorem settleBytes_settled {s : State} (h : settled (cc s)) (pkg pa n : Nat) : settleBytes pkg pa n s = (.ok (), s) := by
  have hload := settled_any h (sharesByte pkg pa n)
  have hlate : ((cc s).flights.any fun f => f.pos < (cc s).pos && f.parts.any fun p => p.got.isNone && sharesByte pkg pa n p)
      = false := by
    rw [List.any_eq_false] at hload ⊢
    intro f hf hboth
    exact hload f hf (Bool.and_eq_true_iff.1 hboth).2
  have hstore : (cc s).stq = [] := h.2
  unfold settleBytes
  rw [M_bind_ok (modify_apply _ s)]
  dsimp only
  rw [hload, if_neg Bool.false_ne_true, hstore, List.any_nil, Bool.and_false, if_neg Bool.false_ne_true,
    M_bind_ok (getC_apply s), hlate]
  rfl

theorem meter_off {s : State} (h : bsuOn s = false) (key n : Nat) : meter key n s = (.ok (), s) := by
  unfold meter
  rw [M_bind_ok (get_apply s)]
  have hoff : meterFor s (coreOf s.cur) s.cur (taskOf s s.cur).tclass key n = (true, s) := by
    unfold meterFor
    rw [h]
    rfl
  rw [hoff]
  rfl

theorem storeReady_hbm {s : State} {va : Word} {n pa cp : Nat} (h : StoreReady s va n pa cp) :
    storeReady (wholePiece s va n pa cp) s = (.ok (), s) := by
  obtain ⟨-, hfar, hmbox, hdev⟩ := map_range (pa := pa) (by have := h.inHbm; have := h.pos; omega)
  have hhost : hostVisible pa cp = false := by
    have := h.policy
    simp [hostVisible, hfar]
    omega
  unfold storeReady wholePiece
  rw [M_bind_ok (settleBytes_settled h.settled _ _ _), M_bind_ok (get_apply s)]
  simp [hmbox, hdev, hhost]

/-- A loop over one element is its body. -/
theorem forIn_one {α : Type} {a : α} {f : α → M Unit} {s t : State} (h : f a s = (.ok (), t)) :
    (forIn [a] PUnit.unit fun a _ => do f a; pure (ForInStep.yield PUnit.unit) : M PUnit) s = (.ok ⟨⟩, t) := by
  have hbody : (do f a; pure (ForInStep.yield PUnit.unit) : M (ForInStep PUnit)) s = (.ok (.yield ⟨⟩), t) := M_bind_ok h
  rw [List.forIn_cons, M_bind_ok hbody]
  rfl

theorem storeAll_hbm {s : State} {va : Word} {n pa cp : Nat} (h : StoreReady s va n pa cp) :
    storeAll va [wholePiece s va n pa cp] s = (.ok (), s) := by
  obtain ⟨-, hfar, hmbox, hdev⟩ := map_range (pa := pa) (by have := h.inHbm; have := h.pos; omega)
  have hpin : pinsTask s (wholePiece s va n pa cp) = false := by
    have := h.policy
    simp [pinsTask, wholePiece, hostVisible, hfar]
    omega
  unfold storeAll
  rw [M_bind_ok (forIn_one (storeReady_hbm h)), M_bind_ok (get_apply s), M_bind_ok (meter_off h.unmetered _ _),
    modify_apply, List.any_cons, hpin]
  rfl

/-- A store is the performance of its one piece. -/
theorem storeMem_hbm {s t : State} {va : Word} {pa cp : Nat} {bs : List (Option Byte)} (h : StoreReady s va bs.length pa cp)
    (hpiece : storePiece (wholePiece s va bs.length pa cp) true bs 0 s = (.ok (), t)) : storeMem va bs s = (.ok (), t) := by
  unfold storeMem
  rw [M_bind_ok (get_apply s), h.free, M_bind_ok (blockIf_false s), M_bind_ok (pieces_whole h), M_bind_ok (storeAll_hbm h)]
  exact M_bind_ok (forIn_one (f := fun p => storePiece p ([wholePiece s va bs.length pa cp].length = 1) bs) hpiece)

/-- A store within one sector is performed at once (R131). -/
theorem storePiece_within {s : State} {va : Word} {pa cp : Nat} {bs : List (Option Byte)} (h : StoreReady s va bs.length pa cp)
    (hsome : bs.any Option.isSome = true) (hsec : pa % 32 + bs.length ≤ 32) :
    storePiece (wholePiece s va bs.length pa cp) true bs 0 s
      = (.ok (), coreWritePiece s s.cur (coreOf s.cur) (some (taskOf s s.cur).queue) pa cp bs) := by
  have hpos := h.pos
  obtain ⟨-, -, hmbox, hdev⟩ := map_range (pa := pa) (by have := h.inHbm; omega)
  have hone : pa / 32 = (pa + bs.length - 1) / 32 := by omega
  unfold storePiece wholePiece
  rw [M_bind_ok (get_apply s)]
  dsimp only
  rw [hmbox, hdev, List.drop_zero, List.take_length, coreWrite_within (by omega) hsome]
  simp [← hone, storeThrough]

/-- The parts of a store that spans sectors, as they wait to be performed (R131). -/
def firstPart (s : State) (pa cp : Nat) (bs : List (Option Byte)) : StorePart :=
  { pa := pa, cp := cp, bytes := bs.take (32 - pa % 32), queue := (taskOf s s.cur).queue, through := 0 }
def secondPart (s : State) (pa cp : Nat) (bs : List (Option Byte)) : StorePart :=
  { pa := pa + (32 - pa % 32), cp := cp, bytes := bs.drop (32 - pa % 32), queue := (taskOf s s.cur).queue, through := 0 }

/-- A store that spans sectors waits as a piece in each (R131). -/
theorem storePiece_across {s : State} {va : Word} {pa cp : Nat} {bs : List (Option Byte)} (h : StoreReady s va bs.length pa cp)
    (hsome : ∀ b ∈ bs, b.isSome = true) (hsec : ¬ pa % 32 + bs.length ≤ 32) :
    storePiece (wholePiece s va bs.length pa cp) true bs 0 s
      = (.ok (), upd s fun x => { x with stq := x.stq ++ [firstPart s pa cp bs, secondPart s pa cp bs] }) := by
  have hpos := h.pos
  have hshort := h.short
  obtain ⟨-, -, hmbox, hdev⟩ := map_range (pa := pa) (by have := h.inHbm; omega)
  have hlen : bs.length ≤ 32 := by omega
  have hacross : 32 < pa % 32 + bs.length := by omega
  have htwo : ¬ pa / 32 = (pa + bs.length - 1) / 32 := by omega
  have hrest : (bs.drop (32 - pa % 32)).take (bs.length - (32 - pa % 32)) = bs.drop (32 - pa % 32) := by
    rw [List.take_of_length_le (by simp)]
  have hany : ∀ l : List (Option Byte), (∀ b ∈ l, b ∈ bs) → l ≠ [] → l.any Option.isSome = true := by
    intro l hl hne
    obtain ⟨b, l, rfl⟩ := List.exists_cons_of_ne_nil hne
    exact List.any_eq_true.2 ⟨b, List.mem_cons_self, hsome b (hl b List.mem_cons_self)⟩
  have hfirst := hany (bs.take (32 - pa % 32)) (fun _ => List.mem_of_mem_take) fun he => by
    have hnil := congrArg List.length he
    rw [List.length_take, List.length_nil] at hnil
    omega
  have hsecond := hany (bs.drop (32 - pa % 32)) (fun _ => List.mem_of_mem_drop) fun he => by
    have hnil := congrArg List.length he
    rw [List.length_drop, List.length_nil] at hnil
    omega
  unfold storePiece wholePiece
  rw [M_bind_ok (get_apply s)]
  dsimp only
  rw [hmbox, hdev, List.drop_zero, List.take_length, sectorPieces_across hlen hacross]
  simp [htwo, hrest, hfirst, hsecond, firstPart, secondPart]

/-! ### The instruction -/

@[simp] theorem trMem_l1d (s : State) (c k v n : Nat) : (trMem s c k v n).l1d = s.l1d := by rw [trMem_frame]; rfl
@[simp] theorem trMem_hbm (s : State) (c k v n : Nat) : (trMem s c k v n).hbm = s.hbm := by rw [trMem_frame]; rfl
@[simp] theorem trMem_clc (s : State) (c k v n : Nat) : (trMem s c k v n).clc = s.clc := by rw [trMem_frame]; rfl
@[simp] theorem trMem_mbox (s : State) (c k v n : Nat) : (trMem s c k v n).mbox = s.mbox := by rw [trMem_frame]; rfl
@[simp] theorem trMem_far (s : State) (c k v n : Nat) : (trMem s c k v n).far = s.far := by rw [trMem_frame]; rfl
@[simp] theorem ctxOf_trMem (s : State) (c k v n d : Nat) : ctxOf (trMem s c k v n) d = ctxOf s d := by rw [trMem_frame]; rfl

/-- The bytes that `st` stores. -/
def storeBytes (x : Ctx) (d : SReg) (w : Width) : List (Option Byte) := (leBytes (rdS x d).toNat (Width_bytes w)).map some

@[simp] theorem length_storeBytes (x : Ctx) (d : SReg) (w : Width) : (storeBytes x d w).length = (bytesOf w).1 := by
  cases w <;> simp [storeBytes, leBytes, bytesOf, Width_bytes]
theorem bytesOf_bounds (w : Width) : 0 < (bytesOf w).1 ∧ (bytesOf w).1 ≤ 8 := by cases w <;> simp [bytesOf]
theorem isSome_storeBytes (x : Ctx) (d : SReg) (w : Width) : ∀ b ∈ storeBytes x d w, b.isSome = true := by
  intro b hb
  obtain ⟨v, -, rfl⟩ := List.mem_map.1 hb
  rfl
theorem any_storeBytes (x : Ctx) (d : SReg) (w : Width) : (storeBytes x d w).any Option.isSome = true := by
  have hpos := (bytesOf_bounds w).1
  rw [← length_storeBytes x d w] at hpos
  exact List.any_eq_true.2 ⟨_, List.getElem_mem hpos, isSome_storeBytes x d w _ (List.getElem_mem hpos)⟩

/-- Little-endian: byte `i` of the value is stored at offset `i` (R279). -/
theorem byteAt_storeBytes (x : Ctx) (d : SReg) (w : Width) (o a : Nat) :
    byteAt o (storeBytes x d w) a = if o ≤ a ∧ a < o + (bytesOf w).1
      then some (BitVec.ofNat 8 ((rdS x d).toNat / 2 ^ (8 * (a - o)))) else none := by
  by_cases hin : o ≤ a ∧ a < o + (bytesOf w).1
  · obtain ⟨hlo, hhi⟩ := id hin
    have hlt : a - o < Width_bytes w := by
      have h : Width_bytes w = (bytesOf w).1 := by cases w <;> rfl
      omega
    rw [if_pos hin, byteAt, if_pos hlo]
    simp [storeBytes, leBytes, List.getElem?_range hlt, Nat.shiftRight_eq_div_pow]
  · rw [if_neg hin, byteAt_outside (by rw [length_storeBytes]; omega)]

theorem memAddr_eq (x : Ctx) (m : MemOp) :
    memAddr x m = rdS x m.a + BitVec.ofInt 64 (m.aux.toInt * 2 ^ 12 + m.imm.toInt) := by
  unfold memAddr memOff
  rw [BitVec.ofInt_add, BitVec.ofInt_mul, BitVec.shiftLeft_eq_mul_twoPow]
  rfl

/-- `st` completes once its one piece is performed, or waits to be. -/
theorem exec_st {s t : State} {d : SReg} {m : MemOp} {w : Width} {pa cp : Nat}
    (h : StoreReady s (memAddr (cc s) m) (storeBytes (cc s) d w).length pa cp)
    (hpiece : storePiece (wholePiece s (memAddr (cc s) m) (storeBytes (cc s) d w).length pa cp) true (storeBytes (cc s) d w) 0 s
      = (.ok (), t)) :
    exec (.st d m w) s = .next (trMem t t.cur 5 (memAddr (cc s) m).toNat (Width_lg w)) := by
  show run 0 _ s = _
  apply run_ok
  rw [M_bind_ok (getC_apply s)]
  exact M_bind_ok (storeMem_hbm h hpiece)

/-- A store that waits: what it put into the queue of its context, and the trace of it. -/
def waiting (s : State) (l : List StorePart) (k v n : Nat) : State :=
  let t := upd s fun x => { x with stq := x.stq ++ l }
  trMem t t.cur k v n

section
variable {s : State} {d : SReg} {m : MemOp} {w : Width} {pa cp : Nat}
  (h : StoreReady s (memAddr (cc s) m) (storeBytes (cc s) d w).length pa cp)
include h

/-- Within one sector `st` is performed at once. -/
theorem exec_st_within (hsec : pa % 32 + (storeBytes (cc s) d w).length ≤ 32) :
    let u := coreWritePiece s s.cur (coreOf s.cur) (some (taskOf s s.cur).queue) pa cp (storeBytes (cc s) d w)
    exec (.st d m w) s = .next (trMem u u.cur 5 (memAddr (cc s) m).toNat (Width_lg w)) :=
  exec_st h (storePiece_within h (any_storeBytes _ d w) hsec)

/-- Across sectors `st` waits as its two parts. -/
theorem exec_st_across (hsec : ¬ pa % 32 + (storeBytes (cc s) d w).length ≤ 32) :
    exec (.st d m w) s = .next (waiting s
      [firstPart s pa cp (storeBytes (cc s) d w), secondPart s pa cp (storeBytes (cc s) d w)]
      5 (memAddr (cc s) m).toNat (Width_lg w)) :=
  exec_st h (storePiece_across h (isSome_storeBytes _ d w) hsec)

end

/-- `st` traps where its translation faults (R417). -/
theorem exec_st_fault {s t : State} {d : SReg} {m : MemOp} {w : Width} {sub : Nat}
    (hfree : descHeld s (memAddr (cc s) m).toNat (bytesOf w).1 = false)
    (hfault : translate s (.core (coreOf s.cur)) (asidOf s s.cur) (memAddr (cc s) m) .write = (.fault sub, t))
    (hall : allHere (cc t) = true) :
    exec (.st d m w) s = .next (takeTrap t t.cur sub (memAddr (cc s) m) 2 (some 0)) := by
  have hpos := (bytesOf_bounds w).1
  have hstop : storeMem (memAddr (cc s) m) (storeBytes (cc s) d w) s = (.error (.trap sub (memAddr (cc s) m) 2), t) := by
    unfold storeMem
    rw [M_bind_ok (get_apply s), length_storeBytes, hfree, M_bind_ok (blockIf_false s)]
    exact M_bind_error (pieces_fault hpos hfault)
  show run 0 _ s = _
  refine run_trap ?_ hall
  rw [M_bind_ok (getC_apply s)]
  exact M_bind_error hstop

/-! ### The parts of a store that waits -/

/-- A context's queue of parts emptied. -/
def emptied (t : State) (c : Nat) : State := updCtx t c fun x => { x with stq := [] }

/-- A part of a plain store is written at its place in the caches or at its home. -/
def writePart (t : State) (c : Nat) (e : StorePart) : State :=
  coreWritePiece t c (coreOf c) (some e.queue) e.pa e.cp e.bytes

theorem performPart_plain {t : State} {c : Nat} {e : StorePart} (h : e.through = 0) : performPart t c e = writePart t c e := by
  unfold performPart storeThrough
  rw [h, if_pos (by simp)]
  rfl

theorem drainAll_two {t : State} {c : Nat} {e f : StorePart} (hq : (ctxOf t c).stq = [e, f]) (he : e.through = 0)
    (hf : f.through = 0) : drainAll t c = writePart (writePart (emptied t c) c e) c f := by
  unfold drainAll
  rw [hq, List.foldl_cons, List.foldl_cons, List.foldl_nil, performPart_plain he, performPart_plain hf]
  rfl

theorem waiting_l1d (s : State) (l : List StorePart) (k v n : Nat) : (waiting s l k v n).l1d = s.l1d := trMem_l1d ..
theorem waiting_hbm (s : State) (l : List StorePart) (k v n : Nat) : (waiting s l k v n).hbm = s.hbm := trMem_hbm ..

theorem stq_waiting {s : State} (h : (cc s).stq = []) (l : List StorePart) (k v n : Nat) :
    (ctxOf (waiting s l k v n) s.cur).stq = l := by
  have hq : (ctxOf s s.cur).stq = [] := h
  simp [waiting, hq]

/-- Once its queue is emptied, the context is as it was before the store. -/
theorem ctxOf_emptied_waiting {s : State} (h : (cc s).stq = []) (l : List StorePart) (k v n c : Nat) :
    ctxOf (emptied (waiting s l k v n) s.cur) c = ctxOf s c := by
  have hq : (ctxOf s s.cur).stq = [] := h
  unfold emptied waiting
  by_cases hc : c = s.cur
  · subst hc
    simp only [ctxOf_updCtx_self, ctxOf_trMem, ctxOf_upd_self]
    rw [← hq]
  · rw [ctxOf_updCtx_ne _ _ hc, ctxOf_trMem, ctxOf_upd_ne _ _ hc]

/-! ### Where the bytes are -/

/-- The caching of HBM follows the page alone (R16). -/
theorem uncached_hbm {s : State} {pa cp : Nat} (h : pa < 0x00C000000000) : uncached s pa cp = decide (cp = 2) := by
  obtain ⟨-, hfar, -, -⟩ := map_range h
  simp [uncached, hfar]

/-- A write through a page that allows no cache goes to its home. -/
theorem wroteHbm_uncached {t : State} {pa : Nat} (c core : Nat) (q : Option Nat) (bs : List (Option Byte)) (hs : memOk t = true)
    (hpa : pa < 0x00C000000000) (hc : ∀ a, pa ≤ a → a < pa + bs.length → CleanSec t (a / 32)) :
    WroteHbm t (coreWritePiece t c core q pa 2 bs) (byteAt pa bs) := by
  unfold coreWritePiece
  rw [uncached_hbm hpa, if_pos (by simp)]
  exact wroteHbm_homeWrite [c] q pa bs hs (map_range hpa).1 hc

section
variable {s : State} {bs : List (Option Byte)} {pa cp : Nat}

/-- A store within one sector, through a cacheable page: the bytes are in the line. -/
theorem wroteLine_within {l : Line} (hpa : pa < 0x00C000000000) (hcp : cp ≤ 1) (hl : inL1 s s.cur pa l) (q : Option Nat)
    (c k v n : Nat) : WroteLine s (trMem (coreWritePiece s s.cur (coreOf s.cur) q pa cp bs) c k v n) (coreOf s.cur) (pa / 128) l
      (byteAt (pa % 128) bs) := by
  obtain ⟨hline, hgens⟩ := hl
  have hunc : uncached s pa cp = false := by rw [uncached_hbm hpa]; simp; omega
  have hstart := WroteLine.start hline hgens rfl rfl rfl fun _ => rfl
  exact ((hstart.write rfl hunc (by omega) s.cur q bs).congr fun _ => Option.or_none).trMem c k v n

/-- A store that spans sectors, once its parts are performed: the bytes are in the line. -/
theorem wroteLine_across {l : Line} (hpa : pa % 128 + bs.length ≤ 128) (hhbm : pa + bs.length ≤ 0x00C000000000)
    (hcp : cp ≤ 1) (hl : inL1 s s.cur pa l) (hset : (cc s).stq = []) (hsec : ¬ pa % 32 + bs.length ≤ 32) (k v n : Nat) :
    WroteLine s (drainAll (waiting s [firstPart s pa cp bs, secondPart s pa cp bs] k v n) s.cur) (coreOf s.cur) (pa / 128) l
      (byteAt (pa % 128) bs) := by
  obtain ⟨hline, hgens⟩ := hl
  have hunc : ∀ (t : State) (a : Nat), a < 0x00C000000000 → uncached t a cp = false := fun t a ha => by
    rw [uncached_hbm ha]
    simp
    omega
  have hstart : WroteLine s (emptied (waiting s [firstPart s pa cp bs, secondPart s pa cp bs] k v n) s.cur) (coreOf s.cur)
      (pa / 128) l fun _ => none :=
    WroteLine.start hline hgens (trMem_l1d ..) (trMem_hbm ..) (trMem_clc ..) (ctxOf_emptied_waiting hset _ k v n)
  have hfirst := hstart.write (pa := pa) rfl (hunc _ _ (by omega)) (by omega) s.cur (some (taskOf s s.cur).queue)
    (bs.take (32 - pa % 32))
  have hboth := hfirst.write (pa := pa + (32 - pa % 32)) (by omega) (hunc _ _ (by omega)) (by omega) s.cur
    (some (taskOf s s.cur).queue) (bs.drop (32 - pa % 32))
  rw [drainAll_two (stq_waiting hset _ k v n) rfl rfl]
  refine hboth.congr fun i => ?_
  rw [Option.or_none, show (pa + (32 - pa % 32)) % 128 = pa % 128 + (32 - pa % 32) by omega,
    ← byteAt_split _ _ _ (by omega)]

/-- `t` is `s` after the writes `w` to HBM: no other byte of memory, no cache, no other memory and no context has changed. -/
structure WroteHome (s t : State) (w : Nat → Option Byte) : Prop where
  l1d : t.l1d = s.l1d
  clc : t.clc = s.clc
  mbox : t.mbox = s.mbox
  far : t.far = s.far
  reads : ∀ a, Memory.read t.hbm.mem a = (w a).getD (Memory.read s.hbm.mem a)
  ctx : ∀ c, ctxOf t c = ctxOf s c

/-- HBM writes from a state that agrees with `s` in its caches, memories and contexts. -/
theorem WroteHome.of_wroteHbm {s u t : State} {w : Nat → Option Byte} (h : WroteHbm u t w) (hl1d : u.l1d = s.l1d)
    (hclc : u.clc = s.clc) (hmbox : u.mbox = s.mbox) (hfar : u.far = s.far) (hhbm : u.hbm = s.hbm)
    (hctx : ∀ c, ctxOf u c = ctxOf s c) : WroteHome s t w where
  l1d := h.l1d.trans hl1d
  clc := h.clc.trans hclc
  mbox := h.mbox.trans hmbox
  far := h.far.trans hfar
  reads := fun a => by rw [h.reads, hhbm]
  ctx := fun c => by rw [← hctx, ctxOf, h.ctx]; rfl

theorem WroteHome.trMem {s t : State} {w : Nat → Option Byte} (h : WroteHome s t w) (c k v n : Nat) :
    WroteHome s (trMem t c k v n) w := by
  obtain ⟨hl1d, hclc, hmbox, hfar, hreads, hctx⟩ := h
  rw [trMem_frame]
  exact ⟨hl1d, hclc, hmbox, hfar, hreads, hctx⟩

/-- A store within one sector, through a page that allows no cache: the bytes are in HBM. -/
theorem wroteHome_within (hs : memOk s = true) (hp : plainHbm s pa bs.length) (hpos : 0 < bs.length) (q : Option Nat)
    (c k v n : Nat) :
    WroteHome s (trMem (coreWritePiece s s.cur (coreOf s.cur) q pa 2 bs) c k v n) (byteAt pa bs) := by
  obtain ⟨hend, -⟩ := id hp
  have hwrote := wroteHbm_uncached s.cur (coreOf s.cur) q bs hs (by omega) fun a hlo hhi => cleanSec_of_plainHbm hp hlo hhi
  exact (WroteHome.of_wroteHbm hwrote rfl rfl rfl rfl rfl fun _ => rfl).trMem c k v n

/-- A store that spans sectors, through a page that allows no cache, once its parts are performed: the bytes are in HBM. -/
theorem wroteHome_across (hs : memOk s = true) (hp : plainHbm s pa bs.length) (hset : (cc s).stq = [])
    (hsec : ¬ pa % 32 + bs.length ≤ 32) (hn : bs.length ≤ 32) (k v n : Nat) :
    WroteHome s (drainAll (waiting s [firstPart s pa 2 bs, secondPart s pa 2 bs] k v n) s.cur) (byteAt pa bs) := by
  obtain ⟨hend, -⟩ := id hp
  have hlen : (bs.take (32 - pa % 32)).length = 32 - pa % 32 := by rw [List.length_take]; omega
  have hlen2 : (bs.drop (32 - pa % 32)).length = bs.length - (32 - pa % 32) := List.length_drop
  have hok : memOk (emptied (waiting s [firstPart s pa 2 bs, secondPart s pa 2 bs] k v n) s.cur) = true :=
    memOk_updCtx (memOk_trMem (memOk_upd hs))
  have hplain : plainHbm (emptied (waiting s [firstPart s pa 2 bs, secondPart s pa 2 bs] k v n) s.cur) pa bs.length :=
    plainHbm_congr (trMem_hbm ..) hp
  have hfirst := wroteHbm_uncached (pa := pa) s.cur (coreOf s.cur) (some (taskOf s s.cur).queue)
    (bs.take (32 - pa % 32)) hok (by omega)
    fun a hlo hhi => cleanSec_of_plainHbm hplain hlo (by omega)
  have hsecond := wroteHbm_uncached (pa := pa + (32 - pa % 32)) s.cur (coreOf s.cur) (some (taskOf s s.cur).queue)
    (bs.drop (32 - pa % 32)) (memOk_coreWritePiece hok) (by omega)
    fun a hlo hhi => hfirst.clean _ (cleanSec_of_plainHbm hplain (by omega) (by omega))
  rw [drainAll_two (stq_waiting hset _ k v n) rfl rfl]
  exact WroteHome.of_wroteHbm ((hfirst.trans hsecond).congr fun a => (byteAt_split pa _ bs (by omega) a).symm)
    (trMem_l1d ..) (trMem_clc ..) (trMem_mbox ..) (trMem_far ..) (trMem_hbm ..) (ctxOf_emptied_waiting hset _ k v n)

end

/-! ### The obligation -/

/-- Settles O21: a store's bytes are those of its one piece, or of its two parts once they are performed. -/
theorem storesWriteTheirBytesAndNoOthers : Obligations.StoresWriteTheirBytesAndNoOthers := by
  unfold Obligations.StoresWriteTheirBytesAndNoOthers
  refine ⟨?stores, ?faults⟩
  case faults =>
    intro s t d m w sub va hfree hfault hall
    have hva : memAddr (cc s) m = va := memAddr_eq (cc s) m
    rw [← hva] at hfree hfault ⊢
    exact exec_st_fault hfree hfault hall
  case stores =>
    intro s d m w pa cp l x va n byte inLine inHbm oneSector hset hmap hpage hbsu hfree
    have hva : memAddr (cc s) m = va := memAddr_eq (cc s) m
    have hlen : (storeBytes x d w).length = n := length_storeBytes x d w
    obtain ⟨hpos, hshort⟩ : 0 < n ∧ n ≤ 8 := bytesOf_bounds w
    obtain ⟨-, hqueue⟩ := id hset
    have hready : pa + n ≤ 0x00C000000000 → cp ≤ 2 →
        StoreReady s (memAddr (cc s) m) (storeBytes (cc s) d w).length pa cp := fun hend hcp => by
      rw [hlen, hva]
      exact ⟨hset, hmap, hpage, hbsu, hfree, hpos, hshort, hend, hcp⟩
    have hone : pa % 32 + (storeBytes x d w).length ≤ 32 ↔ oneSector := Iff.of_eq (congrArg (pa % 32 + · ≤ 32) hlen)
    have hinLine : ∀ t, WroteLine s t (coreOf s.cur) (pa / 128) l (byteAt (pa % 128) (storeBytes x d w)) →
        inLine t ∧ ∀ c, ctxOf t c = ctxOf s c := fun t h => by
      obtain ⟨⟨l', hline, -, hdata, hdirty⟩, hothers, hcores, hhbm, hclc, hctx⟩ := h
      refine ⟨⟨l', hline, fun i hi => ?_, fun i hi => ?_, hothers, hcores, hhbm, hclc⟩, hctx⟩
      · rw [hdata i hi, byteAt_storeBytes]
        split <;> rfl
      · rw [hdirty i hi, byteAt_storeBytes]
        split
        · next h => rw [decide_eq_true h]; rfl
        · next h => rw [decide_eq_false h]; rfl
    have hinHbm : ∀ t, WroteHome s t (byteAt pa (storeBytes x d w)) →
        inHbm t ∧ ∀ c, ctxOf t c = ctxOf s c := fun t h => by
      obtain ⟨hl1d, hclc, hmbox, hfar, hreads, hctx⟩ := h
      refine ⟨⟨hl1d, hclc, hmbox, hfar, fun a => ?_⟩, hctx⟩
      rw [hreads, byteAt_storeBytes]
      split <;> rfl
    refine ⟨fun hpa hline hcp hl => ?cached, fun hs hp hcp => ?uncached⟩
    case cached =>
      have hst := hready (by omega) (by omega)
      rw [← hlen] at hline
      by_cases hsec : pa % 32 + (storeBytes x d w).length ≤ 32
      · exact ⟨_, exec_st_within hst hsec, fun _ => hinLine _ (wroteLine_within hpa hcp hl _ _ _ _ _),
          fun hacross => absurd (hone.1 hsec) hacross⟩
      · exact ⟨_, exec_st_across hst hsec, fun hwithin => absurd (hone.2 hwithin) hsec, fun _ =>
          ⟨waiting_l1d .., waiting_hbm .., hinLine _ (wroteLine_across hline hst.inHbm hcp hl hqueue hsec _ _ _)⟩⟩
    case uncached =>
      subst hcp
      obtain ⟨hend, -⟩ := id hp
      have hst := hready hend (by omega)
      rw [← hlen] at hp
      by_cases hsec : pa % 32 + (storeBytes x d w).length ≤ 32
      · exact ⟨_, exec_st_within hst hsec, fun _ => hinHbm _ (wroteHome_within hs hp hst.pos _ _ _ _ _),
          fun hacross => absurd (hone.1 hsec) hacross⟩
      · exact ⟨_, exec_st_across hst hsec, fun hwithin => absurd (hone.2 hwithin) hsec, fun _ =>
          ⟨waiting_hbm .., hinHbm _ (wroteHome_across hs hp hqueue hsec (by omega) _ _ _)⟩⟩

end Sys2Proof.Machine
end

section
/-! PROOF. What package reset leaves (O9). Every field of `State.reset` is the default of its type, so a map of it has no entry,
and what is read at a key is the default that its reader names, whatever the key. -/
namespace Sys2Proof.Machine

/-- Settles O9: the maps of the reset state are empty, and its registers are read off. -/
theorem resetLeavesWhatTheSpecGives : Obligations.ResetLeavesWhatTheSpecGives := by
  unfold Obligations.ResetLeavesWhatTheSpecGives
  refine ⟨?memory, ?bytes, ?blocks, ?channels, ?contexts, ?ports, ?registers⟩
  case memory => decide
  case bytes => intro a; rfl
  case blocks => intro a; exact ⟨rfl, rfl⟩
  case channels => intro n; exact ⟨rfl, rfl, rfl, rfl, rfl, rfl, rfl, rfl, rfl, rfl⟩
  case contexts => intro c; exact ⟨rfl, rfl, rfl, rfl, rfl, rfl⟩
  case ports => intro p; exact ⟨rfl, rfl, rfl, rfl⟩
  case registers => decide

end Sys2Proof.Machine
end

section
/-! PROOF. Lanes of a result (O29, O31). What a register that is packed from a list of lanes holds lane by lane, and which flags
its list raises (R291, R292); then the forms of operations on lanes, each read back once. -/
namespace Sys2Proof.Machine
open Sys2Proof.Claims

/-! ### Lists of lanes -/

theorem lane_eq_laneOf (w i : Nat) (v : Vec) : lane w i v = laneOf w i v := by
  simp [lane, bitsAt, laneOf, Nat.shiftRight_eq_div_pow]

theorem laneOf_mod (w i : Nat) (v : Vec) : laneOf w i v % 2 ^ w = laneOf w i v := Nat.mod_mod _ _

theorem packL_lt (w : Nat) (l : List Nat) : packL w l < 2 ^ (w * l.length) := by
  induction l with
  | nil => simp [packL]
  | cons x l ih =>
    have hx : x % 2 ^ w < 2 ^ w := Nat.mod_lt _ (by positivity)
    calc packL w (x :: l) < 2 ^ w * (packL w l + 1) := by rw [packL, Nat.mul_add]; omega
      _ ≤ 2 ^ w * 2 ^ (w * l.length) := Nat.mul_le_mul_left _ ih
      _ = 2 ^ (w * (x :: l).length) := by rw [← Nat.pow_add, List.length_cons, Nat.mul_succ, Nat.add_comm]

theorem packL_div_mod (w : Nat) {l : List Nat} {j : Nat} (hj : j < l.length) :
    packL w l / 2 ^ (w * j) % 2 ^ w = l[j] % 2 ^ w := by
  induction l generalizing j with
  | nil => simp at hj
  | cons x l ih =>
    cases j with
    | zero => simp [packL]
    | succ j =>
      have hx : (x % 2 ^ w + 2 ^ w * packL w l) / 2 ^ w = packL w l := by
        rw [Nat.add_mul_div_left _ _ (by positivity), Nat.div_eq_of_lt (Nat.mod_lt _ (by positivity)), Nat.zero_add]
      rw [packL, Nat.mul_succ, Nat.add_comm (w * j), Nat.pow_add, ← Nat.div_div_eq_div_mul, hx, List.getElem_cons_succ]
      exact ih (by simpa using hj)

/-- A register packed from `n` lanes that fit holds each of them in its place. -/
theorem laneOf_packL {w n j : Nat} (f : Nat → Nat) (hn : n * w ≤ 2048) (hj : j < n) :
    laneOf w j (BitVec.ofNat 2048 (packL w ((List.range n).map f))) = f j % 2 ^ w := by
  have hlt := (packL_lt w ((List.range n).map f)).trans_le
    (Nat.pow_le_pow_right (by decide) (show w * _ ≤ 2048 by simpa [Nat.mul_comm] using hn))
  rw [laneOf, BitVec.toNat_ofNat, Nat.mod_eq_of_lt hlt, packL_div_mod w (by simpa using hj), List.getElem_map,
    List.getElem_range]

/-- Above its lanes the register is 0. -/
theorem getLsbD_packL_above {w n p : Nat} (f : Nat → Nat) (hp : n * w ≤ p) :
    (BitVec.ofNat 2048 (packL w ((List.range n).map f))).getLsbD p = false := by
  have hlt : packL w ((List.range n).map f) < 2 ^ p :=
    (packL_lt w _).trans_le (Nat.pow_le_pow_right (by decide) (by simpa [Nat.mul_comm] using hp))
  rw [BitVec.getLsbD_ofNat, Nat.testBit_lt_two_pow hlt, Bool.and_false]

theorem getLsbD_foldl_or (l : List Fl) (z : Fl) (b : Nat) :
    (l.foldl (· ||| ·) z).getLsbD b = (z.getLsbD b || l.any fun f => f.getLsbD b) := by
  induction l generalizing z with
  | nil => simp
  | cons f l ih => simp [ih, Bool.or_assoc]

/-- A flag is raised where one of the results raises it. -/
theorem getLsbD_orFlags (l : List Fl) (b : Nat) : (orFlags l).getLsbD b = l.any fun f => f.getLsbD b := by
  simp [orFlags, getLsbD_foldl_or]

theorem FFmt_lanes_fit (t : FFmt) : t.lanes * t.width ≤ 2048 := Nat.div_mul_le_self _ _

theorem IFmt_lanes_fit (t : IFmt) : t.lanes * t.width ≤ 2048 := Nat.div_mul_le_self _ _

/-! ### Operations on lanes -/

/-- An operation whose meaning is one on lanes gives the lanes it computes from the registers (R213, R291 to R295). -/
theorem givesLanes_vlanes {i : Instr} {s : State} {u : VSlot} {d : VReg} {k : BitVec 3} {w n bound : Nat}
    {f : Ctx → Nat → Nat × Fl} {g : Nat → Nat × Fl} (hi : exec i s = run (vslot u) (vlanes u d k w n bound f) s)
    (hn : n * w ≤ 2048) (hg : ∀ j, f (cc s) j = g j) : givesLanes i s u d k w n bound g := by
  obtain rfl : f (cc s) = g := funext hg
  refine ⟨_, _, hi.trans (vlanes_ok _), fun j hj => ?_, fun p hp => ?_, fun b => ?_⟩
  · rw [lanesM, List.map_map, laneOf_packL _ hn hj, Function.comp_apply]
    split
    · rfl
    · rw [lane_eq_laneOf, laneOf_mod]
  · rw [lanesM, List.map_map, getLsbD_packL_above _ hp]
  · rw [lanesM, getLsbD_orFlags, List.map_map, List.any_map]
    congr 1
    funext j
    cases h : (rdK (cc s) u k).getLsbD j <;> simp [h]

end Sys2Proof.Machine
end

section
/-! PROOF. Float lanes, NaN and invalid operations (O29). Each operation on lanes has one of three forms, which are read back
once; NaN and the invalid operations are cases of the exact results before their rounding. -/
namespace Sys2Proof.Machine
open Sys2Proof.Claims

/-! ### Modes and bounds -/

theorem rmOf_dyn (x : Ctx) : rmOf x .dyn =
    if x.fctl.toNat % 8 = 1 then .rtz else if x.fctl.toNat % 8 = 2 then .rdn else if x.fctl.toNat % 8 = 3 then .rup
    else if x.fctl.toNat % 8 = 4 then .rna else .rne := by
  have h : bitsAt x.fctl.toNat 0 3 = x.fctl.toNat % 8 := rfl
  simp only [rmOf, h]
  split
  case h_5 h1 h2 h3 h4 => rw [if_neg h1, if_neg h2, if_neg h3, if_neg h4]
  all_goals next h => rw [h]; rfl

theorem fbound_eq (t : FFmt) (short long : Nat) : fbound t short long = if t = .f64 then long else short := by
  cases t <;> rfl

/-! ### The forms -/

theorem fl_eq (x : Ctx) (u : VSlot) (t : FFmt) (r : VReg) (i : Nat) :
    fl x u t r i = decF t (laneOf t.width i (rdV x u r)) := by
  rw [fl, lane_eq_laneOf]

section
variable {i : Instr} {s : State} {u : VSlot} {d a b c : VReg} {k : BitVec 3} {t : FFmt} {rm : Rnd} {bound : Nat}

theorem givesLanes_vfl2 {f : RMode → FV → FV → XV × Fl} (hi : exec i s = run (vslot u) (vfl2 u d a b k t rm bound f) s) :
    givesLanes i s u d k t.width t.lanes bound fun j => roundX t (rmOf (cc s) rm) false
      (f (rmOf (cc s) rm) (decF t (laneOf t.width j (rdV (cc s) u a))) (decF t (laneOf t.width j (rdV (cc s) u b)))) :=
  givesLanes_vlanes hi (FFmt_lanes_fit t) fun j => by simp only [fl_eq]

theorem givesLanes_vfl3 {f : RMode → FV → FV → FV → XV × Fl} (hi : exec i s = run (vslot u) (vfl3 u d a b c k t rm f) s) :
    givesLanes i s u d k t.width t.lanes (fbound t 4 6) fun j => roundX t (rmOf (cc s) rm) false
      (f (rmOf (cc s) rm) (decF t (laneOf t.width j (rdV (cc s) u a))) (decF t (laneOf t.width j (rdV (cc s) u b)))
        (decF t (laneOf t.width j (rdV (cc s) u c)))) :=
  givesLanes_vlanes hi (FFmt_lanes_fit t) fun j => by simp only [fl_eq]

theorem givesLanes_vpat {f : Nat → Nat → Nat × Fl} (hi : exec i s = run (vslot u) (vpat u d a b k t bound f) s) :
    givesLanes i s u d k t.width t.lanes bound fun j =>
      f (laneOf t.width j (rdV (cc s) u a)) (laneOf t.width j (rdV (cc s) u b)) :=
  givesLanes_vlanes hi (FFmt_lanes_fit t) fun j => by simp only [lane_eq_laneOf]

end

theorem vectorFloatLanes : VectorFloatLanes := by
  intro s u d a b c k t rm x m pa pb A B C rounded two long ok
  have hm : m = rmOf x rm := by
    cases rm with
    | mode m => rfl
    | dyn => exact (rmOf_dyn x).symm
  have htwo : two = fbound t 4 6 := (fbound_eq t 4 6).symm
  have hlong : long = fbound t 12 20 := (fbound_eq t 12 20).symm
  clear_value m two long
  subst hm htwo hlong
  refine ⟨?fadd, ?fsub, ?fmul, ?ffma, ?ffms, ?fdiv, ?fsqrt, ?frcpe, ?fmin, ?fmax, ?fclass, ?fround⟩
  case fadd => exact givesLanes_vfl2 (f := fun m a b => addF m a b) rfl
  case fsub => exact givesLanes_vfl2 (f := fun m a b => addF m a b.neg) rfl
  case fmul => exact givesLanes_vfl2 (f := fun _ a b => mulX a b) rfl
  case ffma => exact givesLanes_vfl3 (f := fun m a b c => fmaF m a b c) rfl
  case ffms => exact givesLanes_vfl3 (f := fun m a b c => fmaF m a b c.neg) rfl
  case fdiv => exact givesLanes_vfl2 (f := fun _ a b => divF a b) rfl
  case fsqrt => exact givesLanes_vfl2 (b := a) (f := fun _ a _ => sqrtF a) rfl
  case frcpe => exact givesLanes_vpat (b := a) (f := fun a _ => rcpeF t (decF t a)) rfl
  case fmin => exact givesLanes_vpat (f := minMaxF t false) rfl
  case fmax => exact givesLanes_vpat (f := minMaxF t true) rfl
  case fclass => exact givesLanes_vpat (b := a) (f := fun a _ => (classF t a, 0)) rfl
  case fround => 
    exact givesLanes_vlanes (f := fun x i => roundIntegral t (rmOf x rm) (lane t.width i (rdV x u a))) rfl (FFmt_lanes_fit t)
      fun j => by rw [lane_eq_laneOf]

/-! ### NaN and invalid operations -/

/-- A result that is no number is the canonical NaN, with the flags raised before the rounding (R46, R49). -/
theorem roundX_nan (t : FFmt) (m : RMode) (sat : Bool) (f : Fl) : roundX t m sat (.nan, f) = (t.nan, f) := by
  simp [roundX, round]

/-- `nv` where one of the two operands is a signalling NaN (R47). -/
def nvOf (x y : FV) : Fl := raise (x.isSnan || y.isSnan) flNv

theorem isSnan_iff (x : FV) : x.isSnan = true ↔ x = .nan true := by
  cases x <;> simp [FV.isSnan]

theorem nvOf_eq (x y : FV) : nvOf x y = if x = .nan true ∨ y = .nan true then 1 else 0 := by
  simp only [nvOf, raise, Bool.or_eq_true, isSnan_iff, flNv]

section
variable {x y : FV} (h : (∃ z, x = .nan z) ∨ ∃ z, y = .nan z)
include h

theorem addF_of_nan (m : RMode) : addF m x y = (.nan, nvOf x y) := by
  obtain ⟨z, rfl⟩ | ⟨z, rfl⟩ := h <;> simp [addF, sumF, nvOf, FV.isNan]

theorem mulX_of_nan : mulX x y = (.nan, nvOf x y) := by
  obtain ⟨z, rfl⟩ | ⟨z, rfl⟩ := h
  · rfl
  · cases x <;> simp [mulX, mulF, nvOf, FV.exact, FV.isSnan, Bool.or_comm]

theorem divF_of_nan : divF x y = (.nan, nvOf x y) := by
  obtain ⟨z, rfl⟩ | ⟨z, rfl⟩ := h
  · rfl
  · cases x <;> simp [divF, nvOf, FV.isSnan, Bool.or_comm]

end

/-- ∞ − ∞ (R47). -/
theorem addF_inf_opposite (m : RMode) (g : Bool) : addF m (.inf g) (.inf !g) = (.nan, flNv) := by
  cases g <;> rfl

theorem sqrtF_negative {n : Nat} (e : Int) (hn : 0 < n) : sqrtF (.fin true n e) = (.nan, flNv) := by
  simp [sqrtF, hn.ne']

/-- A finite number over 0 (R51). -/
theorem divF_by_zero {n : Nat} (g h : Bool) (e f : Int) (hn : 0 < n) :
    divF (.fin g n e) (.fin h 0 f) = (.inf (g != h), flDz) := by
  simp [divF, hn.ne']

theorem roundX_inf {t : FFmt} (ht : t ≠ .e4m3) (m : RMode) (neg : Bool) (f : Fl) : roundX t m false (.inf neg, f) =
    ((if neg then 2 ^ (t.width - 1) else 0) + (2 ^ t.ebits - 1) * 2 ^ t.mbits, f) := by
  simp [roundX, round, ht, FFmt.signBit]

theorem nanAndInvalidOperations : NanAndInvalidOperations := by
  intro t m x y g h n e f q nv
  have hnv : nvOf x y = nv := nvOf_eq x y
  have hnan (fl : Fl) : q (.nan, fl) = (t.nan, fl) := roundX_nan t m false fl
  refine ⟨fun hxy => ?nan, ?opposite, hnan 1, hnan 1, hnan 1, hnan 1, fun hn => ?root, hnan 1, fun hn ht => ?zero⟩
  case nan => rw [addF_of_nan hxy, mulX_of_nan hxy, divF_of_nan hxy, hnan, hnv]; exact ⟨rfl, rfl, rfl⟩
  case opposite => rw [addF_inf_opposite, hnan]; rfl
  case root => rw [sqrtF_negative e hn, hnan]; rfl
  case zero => 
    have hinf := roundX_inf ht m (g != h) flDz
    simp only [bne_iff_ne] at hinf
    rw [divF_by_zero g h e f hn]
    exact hinf

/-! ### The obligation -/

/-- Settles O29: the lanes by the form of each operation, the special cases before their rounding. -/
theorem floatLanesNanAndInvalid : Obligations.FloatLanesNanAndInvalid :=
  ⟨vectorFloatLanes, nanAndInvalidOperations⟩

end Sys2Proof.Machine
end

section
/-! PROOF. Conversions, quantisation and Mirage operations (O31). The conversions and the quantisation are operations on lanes; a
Mirage sum packs its f32 results into the low lanes; the generator is a recursion on its state, which never becomes 0. -/
namespace Sys2Proof.Machine
open Sys2Proof.Claims

/-! ### Integers of a width (R296) -/

theorem wrap_eq (w : Nat) (z : Int) : wrap w z = (z % 2 ^ w).toNat := by
  simp [wrap]

theorem val_eq (t : IFmt) (w p : Nat) :
    val t w p = if t.signed ∧ 2 ^ (w - 1) ≤ p then (p : Int) - 2 ^ w else p := by
  unfold val sgn
  by_cases hs : t.signed = true
  · by_cases hp : p < 2 ^ (w - 1)
    · simp [hs, hp]
    · simp [hs, hp, not_lt.1 hp]
  · simp [hs]

/-! ### Conversions and quantisation (R307, R312) -/

/-- The lanes that another format also has fit in a register. -/
theorem min_lanes_fit {n w : Nat} (hn : n * w ≤ 2048) (m : Nat) : min n m * w ≤ 2048 :=
  (Nat.mul_le_mul_right w (Nat.min_le_left n m)).trans hn

theorem vectorConversions : VectorConversions := by
  intro s u d a k t src ti rm sat x m v hi lo z
  refine ⟨?fcvt, ?fcvti, ?icvtf⟩
  case fcvt =>
    exact givesLanes_vlanes (f := fun x i => cvtFF t (rmOf x rm) sat (fl x u src a i)) rfl (min_lanes_fit (FFmt_lanes_fit t) _)
      fun j => by rw [fl_eq]
  case fcvti =>
    refine givesLanes_vlanes (f := fun x i =>
        (wrap ti.width (cvtFI (minOf ti.signed ti.width) (maxOf ti.signed ti.width) (rmOf x rm) (fl x u src a i)).1,
          (cvtFI (minOf ti.signed ti.width) (maxOf ti.signed ti.width) (rmOf x rm) (fl x u src a i)).2))
      rfl (min_lanes_fit (IFmt_lanes_fit ti) _) fun j => ?_
    rw [fl_eq, wrap_eq]
    rfl
  case icvtf =>
    refine givesLanes_vlanes (f := fun x i => cvtIF t (rmOf x rm) (val ti ti.width (lane ti.width i (rdV x u a))))
      rfl (min_lanes_fit (FFmt_lanes_fit t) _) fun j => ?_
    rw [lane_eq_laneOf, val_eq]

theorem codeBits_le (q4 : Bool) : codeBits q4 ≤ 8 := by
  cases q4 <;> decide

theorem quantisationOfLanes : QuantisationOfLanes := by
  intro s u d a b k t q4 rm x m bits par deq
  have hcodes : min 64 t.lanes * codeBits q4 ≤ 64 * 8 := Nat.mul_le_mul (Nat.min_le_left ..) (codeBits_le q4)
  refine ⟨?vdequant, ?vquant⟩
  case vdequant =>
    refine givesLanes_vlanes (f := fun x i => roundX t (rmOf x rm) false
      (dequant (lane 32 i (rdV x u b)) (lane (codeBits q4) i (rdV x u a)))) rfl ?_ fun j => ?_
    · exact Nat.min_comm t.lanes 64 ▸ min_lanes_fit (FFmt_lanes_fit t) 64
    · rw [lane_eq_laneOf, lane_eq_laneOf]
      rfl
  case vquant =>
    refine givesLanes_vlanes (w := codeBits q4) (f := fun x i =>
      quant (codeBits q4) (rmOf x rm) (lane 32 i (rdV x u b)) (fl x u t a i)) rfl (hcodes.trans (by decide)) fun j => ?_
    rw [lane_eq_laneOf, fl_eq]
    rfl

/-! ### Mirage operations (R313 to R315) -/

/-- Results in the low f32 lanes: each in its lane, zeros above, and every flag (R314). -/
theorem lowF32_range {r : Nat} (hr : r ≤ 64) (f : Nat → Nat × Fl) :
    (∀ j, j < r → laneOf 32 j (lowF32 ((List.range r).map f)).1 = (f j).1 % 2 ^ 32)
    ∧ (∀ p, 32 * r ≤ p → (lowF32 ((List.range r).map f)).1.getLsbD p = false)
    ∧ ∀ z, (lowF32 ((List.range r).map f)).2.getLsbD z = (List.range r).any fun j => (f j).2.getLsbD z := by
  simp only [lowF32, List.map_map]
  refine ⟨fun j hj => ?_, fun p hp => ?_, fun z => ?_⟩
  · rw [laneOf_packL _ (by omega) hj, Function.comp_apply]
  · exact getLsbD_packL_above _ (by omega)
  · rw [getLsbD_orFlags, List.any_map]
    rfl

theorem exec_vproj (u : VSlot) (d a b : VReg) (k : BitVec 3) (t : FFmt) (r : BitVec 13) (s : State) :
    let out := lowF32 ((List.range r.toNat).map fun j =>
      project (cc s) u b k t ((rdV (cc s) u a).setWidth 64) [.fin false 0 0] fun i => (lane 32 2 (rdV (cc s) u a) + i) * r.toNat + j)
    exec (.vproj u d a b k t r) s = .next (emit s (dstV (cc s) u d) out.1 out.2 8) := by
  intro out
  change execVproj u d a b k t r s = _
  rw [execVproj]
  exact run_ok (M_bind_ok (getC_apply s))

theorem exec_vseedscan (u : VSlot) (d : VReg) (a : SReg) (b : VReg) (k : BitVec 3) (t : FFmt) (r : BitVec 13) (s : State) :
    let out := lowF32 ((List.range 8).map fun j =>
      project (cc s) u b k t (rdS (cc s) a + BitVec.ofNat 64 j) [] fun i => i * r.toNat)
    exec (.vseedscan u d a b k t r) s = .next (emit s (dstV (cc s) u d) out.1 out.2 16) := by
  intro out
  change execVseedscan u d a b k t r s = _
  rw [execVseedscan]
  exact run_ok (M_bind_ok (getC_apply s))

/-! ### The generator (R58) -/

/-- A step takes a state with a 1 in it to another: bit 0 is all that the shift drops, and where it is 1 bit 63 is set. -/
theorem lfsrNext_ne_zero {sd : Word} (h : sd ≠ 0) : lfsrNext sd ≠ 0 := by
  unfold lfsrNext
  intro h0
  apply h
  split at h0
  case isTrue =>
    have := congrArg (·.getLsbD 63) h0
    simp at this
  case isFalse hb =>
    ext i hi
    cases i with
    | zero => simpa using hb
    | succ i => simpa [Nat.add_comm, BitVec.getLsbD_eq_getElem hi] using congrArg (·.getLsbD i) h0

/-- A seed that is not 0 is the first state. -/
theorem lfsrAt_first {sd : Word} (h : sd ≠ 0) : lfsrAt sd 0 = sd := if_neg h

theorem lfsrAt_succ {sd : Word} (h : sd ≠ 0) (j : Nat) : lfsrAt sd (j + 1) = lfsrAt (lfsrNext sd) j := by
  induction j with
  | zero => rw [lfsrAt_first (lfsrNext_ne_zero h), lfsrAt, lfsrAt_first h]
  | succ j ih => rw [lfsrAt, ih, lfsrAt]

theorem lfsrAt_zero_seed (j : Nat) : lfsrAt 0 j = lfsrAt 1 j := by
  induction j with
  | zero => rfl
  | succ j ih => rw [lfsrAt, ih, lfsrAt]

theorem lfsrNext_eq (sd : Word) :
    lfsrNext sd = (sd >>> 1) ^^^ (if sd.getLsbD 0 then 0xD800000000000000#64 else 0) := by
  unfold lfsrNext
  split
  · rfl
  · exact (BitVec.xor_zero).symm

theorem onePat_eq (t : FFmt) (neg : Bool) :
    onePat t neg = if neg then t.bias * 2 ^ t.mbits + 2 ^ (t.width - 1) else t.bias * 2 ^ t.mbits := by
  cases neg <;> rfl

theorem mirageOperations : MirageOperations := by
  intro s u d a b ga gb k t r x one seed k0 sum
  have hsum (z : List FV) (sd : Word) (step : Nat → Nat) : project (cc s) u b k t sd z step = sum z sd step := by
    simp only [project, fl_eq]
    rfl
  refine ⟨?vgen, fun hr => ?vproj, ?vseedscan, fun sd j => ⟨?_, fun h => ?_, fun h => ?_⟩⟩
  case vgen =>
    refine givesLanes_vlanes (f := fun x i => (onePat t (lfsr (rdS x ga) (bitsAt (rdS x gb).toNat 0 32 + i)), 0)) rfl
      (FFmt_lanes_fit t) fun j => ?_
    rw [onePat_eq]
    rfl
  case vproj =>
    refine ⟨_, _, exec_vproj u d a b k t r s, ?_⟩
    simp only [hsum, lane_eq_laneOf]
    exact lowF32_range hr _
  case vseedscan =>
    refine ⟨_, _, exec_vseedscan u d ga b k t r s, ?_⟩
    simp only [hsum]
    exact lowF32_range (r := 8) (by decide) _
  · rw [lfsr, lfsrAt_zero_seed, lfsr]
  · rw [lfsr, lfsrAt_first h]
  · rw [lfsr, lfsrAt_succ h, lfsrNext_eq, lfsr]

/-! ### The obligation -/

/-- Settles O31: the lanes of each conversion, the codes, and the sums with the generator that signs their terms. -/
theorem conversionsQuantisationAndMirage : Obligations.ConversionsQuantisationAndMirage :=
  ⟨vectorConversions, quantisationOfLanes, mirageOperations⟩

end Sys2Proof.Machine
end

section
/-! PROOF. Results in flight (O11). What the landing of a value does to each register file, one equation for each kind of
destination; the value of a load from its pieces; what a result put in flight leaves as it is; and which results land before a
bundle issues (R209, R213, R214). -/
namespace Sys2Proof.Machine
open Sys2Proof.Claims

/-! ### Registers of a file -/

section
variable {α : Type} {n m : Nat}

theorem toNat_eq_iff_eq_ofNat (k : BitVec m) {i : Nat} (hi : i < 2 ^ m) : k.toNat = i ↔ k = BitVec.ofNat m i := by
  rw [BitVec.toNat_eq, BitVec.toNat_ofNat, Nat.mod_eq_of_lt hi]

theorem ofNat_eq_zero_iff {i : Nat} (hi : i < 2 ^ m) : BitVec.ofNat m i = 0#m ↔ i = 0 := by
  rw [BitVec.toNat_eq, BitVec.toNat_ofNat, Nat.mod_eq_of_lt hi]
  simp

/-- A register of a file after a write to one of them. -/
theorem getD_setReg (r : Vector α n) (k : BitVec m) (hk : k.toNat < n) (a d : α) {i : Nat} (hi : i < 2 ^ m) :
    (r.set k.toNat a hk).toList.getD i d = if k = BitVec.ofNat m i then a else r.toList.getD i d := by
  simp only [List.getD_eq_getElem?_getD, Vector.toList_set, List.getElem?_set, ← toNat_eq_iff_eq_ofNat k hi]
  by_cases h : k.toNat = i
  · simp [h, h ▸ hk]
  · simp [h]

/-- The same where register 0 is hard-wired, and a write to it is discarded (R209). -/
theorem getD_setReg_wired (r : Vector α n) (k : BitVec m) (hk : k.toNat < n) (a d : α) {i : Nat} (hi : i < 2 ^ m) :
    (if k = 0#m then r else r.set k.toNat a hk).toList.getD i d =
      if k = BitVec.ofNat m i ∧ i ≠ 0 then a else r.toList.getD i d := by
  by_cases h : k = 0#m
  · rw [if_pos h, if_neg]
    rintro ⟨hki, hi0⟩
    exact hi0 ((ofNat_eq_zero_iff hi).1 (hki.symm.trans h))
  · have hne : k = BitVec.ofNat m i → i ≠ 0 := fun hki hi0 => h (hki.trans ((ofNat_eq_zero_iff hi).2 hi0))
    simp only [if_neg h, getD_setReg r k hk a d hi, and_iff_left_of_imp hne]

end

/-- A predicate after a write to one of them; p0 is hard-wired (R209). -/
theorem getLsbD_setPred (r : BitVec 8) (k : BitVec 3) (b : Bool) {i : Nat} (hi : i < 8) :
    (if k = 0#3 then r else (r &&& ~~~(1#8 <<< k.toNat)) ||| (if b then 1#8 <<< k.toNat else 0)).getLsbD i =
      if k = BitVec.ofNat 3 i ∧ i ≠ 0 then b else r.getLsbD i := by
  have hbit : (1#8 <<< k.toNat).getLsbD i = decide (k.toNat = i) := by
    rw [BitVec.getLsbD_shiftLeft, BitVec.getLsbD_one]
    by_cases h : k.toNat = i
    · simp [h, hi]
    · simp [h, hi]; omega
  have hput : (if b then 1#8 <<< k.toNat else 0).getLsbD i = (b && decide (k.toNat = i)) := by
    cases b
    · exact BitVec.getLsbD_zero
    · rw [Bool.true_and]; exact hbit
  simp only [← toNat_eq_iff_eq_ofNat k hi]
  by_cases hk : k = 0#3
  · simp [hk, eq_comm (a := 0)]
  · rw [if_neg hk, BitVec.getLsbD_or, BitVec.getLsbD_and, BitVec.getLsbD_not, hbit, hput]
    by_cases h : k.toNat = i
    · have hi0 : i ≠ 0 := by rintro rfl; exact hk (BitVec.eq_of_toNat_eq h)
      simp [h, hi0]
    · simp [h, hi]

/-! ### The landing of a value, by its destination (R209) -/

section
variable (x : Ctx) (v : Vec)

@[simp] theorem landVal_none : landVal x .none v = x := rfl
@[simp] theorem landVal_s (n : SReg) :
    landVal x (.s n) v = { x with s := if n = 0#6 then x.s else x.s.set n.toNat (v.setWidth 64) n.isLt } := by
  by_cases h : n = 0#6 <;> simp [landVal, h]
@[simp] theorem landVal_p (n : BitVec 3) : landVal x (.p n) v = { x with p := if n = 0#3 then x.p else
    (x.p &&& ~~~(1#8 <<< n.toNat)) ||| (if v.getLsbD 0 then 1#8 <<< n.toNat else 0) } := by
  by_cases h : n = 0#3 <;> simp [landVal, h]
@[simp] theorem landVal_v0 (n : BitVec 5) : landVal x (.v .v0 n) v = { x with v := x.v.set n.toNat v n.isLt } := rfl
@[simp] theorem landVal_v1 (n : BitVec 5) : landVal x (.v .v1 n) v = { x with w := x.w.set n.toNat v n.isLt } := rfl
@[simp] theorem landVal_k0 (n : BitVec 3) :
    landVal x (.k .v0 n) v = { x with k := if n = 0#3 then x.k else x.k.set n.toNat (v.setWidth 256) n.isLt } := by
  by_cases h : n = 0#3 <;> simp [landVal, h]
@[simp] theorem landVal_k1 (n : BitVec 3) :
    landVal x (.k .v1 n) v = { x with j := if n = 0#3 then x.j else x.j.set n.toNat (v.setWidth 256) n.isLt } := by
  by_cases h : n = 0#3 <;> simp [landVal, h]
@[simp] theorem landVal_g (n : GReg) : landVal x (.g n) v = { x with g := x.g.set n.toNat v n.isLt } := rfl

/-- The register files, and nothing else, can change where a value lands. -/
theorem landVal_frame (d : Dst) : landVal x d v =
    { x with s := (landVal x d v).s, p := (landVal x d v).p, v := (landVal x d v).v, w := (landVal x d v).w
             k := (landVal x d v).k, j := (landVal x d v).j, g := (landVal x d v).g } := by
  rcases d with _ | n | n | ⟨_ | _, n⟩ | ⟨_ | _, n⟩ | n <;> simp

/-! Each register of each file after the landing: the value in the destination, and what it held in every other. -/

variable (d : Dst) {i : Nat}

theorem landVal_getD_s (hi : i < 64) : (landVal x d v).s.toList.getD i 0 =
    if d = .s (BitVec.ofNat 6 i) ∧ i ≠ 0 then v.setWidth 64 else x.s.toList.getD i 0 := by
  rcases d with _ | n | n | ⟨_ | _, n⟩ | ⟨_ | _, n⟩ | n
  case s => simpa using getD_setReg_wired x.s n n.isLt (v.setWidth 64) 0 hi
  all_goals simp

theorem landVal_getLsbD_p (hi : i < 8) : (landVal x d v).p.getLsbD i =
    if d = .p (BitVec.ofNat 3 i) ∧ i ≠ 0 then v.getLsbD 0 else x.p.getLsbD i := by
  rcases d with _ | n | n | ⟨_ | _, n⟩ | ⟨_ | _, n⟩ | n
  case p => simpa using getLsbD_setPred x.p n (v.getLsbD 0) hi
  all_goals simp

theorem landVal_getD_v (hi : i < 32) : (landVal x d v).v.toList.getD i 0 =
    if d = .v .v0 (BitVec.ofNat 5 i) then v else x.v.toList.getD i 0 := by
  rcases d with _ | n | n | ⟨_ | _, n⟩ | ⟨_ | _, n⟩ | n
  case v.v0 => simpa only [landVal_v0, Dst.v.injEq, true_and] using getD_setReg x.v n n.isLt v 0 hi
  all_goals simp

theorem landVal_getD_w (hi : i < 32) : (landVal x d v).w.toList.getD i 0 =
    if d = .v .v1 (BitVec.ofNat 5 i) then v else x.w.toList.getD i 0 := by
  rcases d with _ | n | n | ⟨_ | _, n⟩ | ⟨_ | _, n⟩ | n
  case v.v1 => simpa only [landVal_v1, Dst.v.injEq, true_and] using getD_setReg x.w n n.isLt v 0 hi
  all_goals simp

theorem landVal_getD_k (hi : i < 8) : (landVal x d v).k.toList.getD i 0 =
    if d = .k .v0 (BitVec.ofNat 3 i) ∧ i ≠ 0 then v.setWidth 256 else x.k.toList.getD i 0 := by
  rcases d with _ | n | n | ⟨_ | _, n⟩ | ⟨_ | _, n⟩ | n
  case k.v0 => simpa using getD_setReg_wired x.k n n.isLt (v.setWidth 256) 0 hi
  all_goals simp

theorem landVal_getD_j (hi : i < 8) : (landVal x d v).j.toList.getD i 0 =
    if d = .k .v1 (BitVec.ofNat 3 i) ∧ i ≠ 0 then v.setWidth 256 else x.j.toList.getD i 0 := by
  rcases d with _ | n | n | ⟨_ | _, n⟩ | ⟨_ | _, n⟩ | n
  case k.v1 => simpa using getD_setReg_wired x.j n n.isLt (v.setWidth 256) 0 hi
  all_goals simp

theorem landVal_getD_g (hi : i < 16) : (landVal x d v).g.toList.getD i 0 =
    if d = .g (BitVec.ofNat 4 i) then v else x.g.toList.getD i 0 := by
  rcases d with _ | n | n | ⟨_ | _, n⟩ | ⟨_ | _, n⟩ | n
  case g => simpa only [landVal_g, Dst.g.injEq] using getD_setReg x.g n n.isLt v 0 hi
  all_goals simp

end

/-! ### The landing of a result (R52, R108) -/

theorem landOne_poisoned {x : Ctx} {f : Flight} (h : f.poison.isSome = true) : landOne x f = x := by
  obtain ⟨va, hva⟩ := Option.isSome_iff_exists.1 h
  simp [landOne, hva]

theorem landOne_sound {x : Ctx} {f : Flight} (h : f.poison = none) :
    landOne x f = { landVal x f.dst (Flight_val f) with fflags := x.fflags ||| f.flags.setWidth 64 } := by
  simp [landOne, h]

/-- Where a result lands, only the register files and `fflags` change. -/
theorem landOne_frame (x : Ctx) (f : Flight) : landOne x f =
    { x with s := (landOne x f).s, p := (landOne x f).p, v := (landOne x f).v, w := (landOne x f).w, k := (landOne x f).k
             j := (landOne x f).j, g := (landOne x f).g, fflags := (landOne x f).fflags } := by
  cases h : f.poison with
  | some va => rw [landOne_poisoned (by simp [h])]
  | none => rw [landOne_sound h, landVal_frame]

theorem ofLe_lt (b : List Byte) : ofLe b < 256 ^ b.length := by
  induction b with
  | nil => simp [ofLe]
  | cons a b ih =>
    have := a.isLt
    rw [ofLe, List.length_cons, Nat.pow_succ]
    omega

/-- The bytes of an access, extended to its width (R279). -/
theorem Width_ext_eq (w : Width) {b : List Byte} (h : b.length = (bytesOf w).1) : Width_ext w (ofLe b) = extended w (ofLe b) := by
  have hlt : ofLe b < 256 ^ (bytesOf w).1 := h ▸ ofLe_lt b
  cases w with
  | n8 | n16 | n32 => exact congrArg (BitVec.ofNat 64) (Nat.mod_eq_of_lt hlt).symm
  | d64 | i8 | i16 | i32 => rfl

/-- A load of one piece lands with that piece's bytes. -/
theorem Flight_num_one {f : Flight} {p : LoadPart} {b : List Byte} {c : Bool} (hf : f.parts = [p]) (hp : p.got = some (b, c))
    (ho : p.off = 0) : Flight_num f = ofLe b := by
  simp [Flight_num, hf, hp, ho]

theorem aResultLandsInItsRegisterOnly : AResultLandsInItsRegisterOnly := by
  intro x f y v
  refine ⟨landOne_poisoned, fun h => ?_, fun p b w hf hp ho hb => ⟨fun he => ?_, fun he => ?_⟩, fun h => ?_⟩
  · simp [v, Flight_val, h]
  · simp [v, Flight_val, he, hf, ← Width_ext_eq w hb, Flight_num_one hf hp ho]
  · simp [v, Flight_val, he, hf, Flight_num_one hf hp ho]
  · have hy : y = { landVal x f.dst v with fflags := x.fflags ||| f.flags.setWidth 64 } := landOne_sound h
    clear_value y
    subst hy
    refine ⟨?_, fun _ => landVal_getD_s x v f.dst, fun _ => landVal_getLsbD_p x v f.dst, fun _ => landVal_getD_v x v f.dst,
      fun _ => landVal_getD_w x v f.dst, fun _ => landVal_getD_k x v f.dst, fun _ => landVal_getD_j x v f.dst,
      fun _ => landVal_getD_g x v f.dst⟩
    rw [landVal_frame]

/-! ### A result put in flight (R213, R214) -/

/-- A write to a register that no earlier write still covers is not traced. -/
theorem trOverlap_of_clear {s : State} {d : Dst}
    (h : ∀ r ∈ (cc s).recent, r.1 = d → (cc s).pos ≤ r.2.1 ∨ r.2.2 ≤ (cc s).pos) : trOverlap s d = s := by
  have hno : overlaps (cc s) d = false := by
    simp only [overlaps, List.any_eq_false, Bool.and_eq_true, beq_iff_eq, decide_eq_true_eq]
    rintro r hr ⟨⟨hd, hlt⟩, hgt⟩
    have := h r hr hd
    omega
  simp [trOverlap, hno]

theorem aResultInFlightChangesNothingElse : AResultInFlightChangesNothingElse := by
  intro s d v fl bound t x f
  have hframe : t = { s with ctx := t.ctx, dev := t.dev, trace := t.trace, free := t.free } := emit_frame s d v fl bound
  refine ⟨?flight, fun c hc => ctxOf_emit_ne s d v fl bound hc, hframe, fun a => ?_, fun h => ?_⟩
  case flight =>
    have hbound : f.bound = bound + Dst_extra d := by cases d <;> rfl
    have hf : f = { dst := d, val := v, flags := fl, pos := x.pos, bound := bound + Dst_extra d } := hbound ▸ rfl
    rw [show cc t = fly x d v fl bound from cc_emit s d v fl bound, hf, fly, wrote, Nat.add_assoc]
  · rw [hframe]
    exact ⟨rfl, rfl⟩
  · have ht : t = upd s fun x => fly x d v fl bound := by rw [← trOverlap_of_clear h]; rfl
    rw [ht]
    exact ⟨rfl, rfl, rfl⟩

/-! ### Which results land before a bundle issues (R207, R213) -/

theorem Flight_here_iff (f : Flight) :
    Flight_here f = true ↔ f.acq = none ∧ ∀ p ∈ f.parts, p.got.isSome = true := by
  simp [Flight_here, LoadPart_here]

theorem expired_mayLand_iff (x : Ctx) (f : Flight) : (expired x f && mayLand f) = true ↔
    f.pos + f.bound ≤ x.pos ∧ f.poison = none ∧ f.acq = none ∧ ∀ p ∈ f.parts, p.got.isSome = true := by
  simp only [expired, mayLand, Bool.and_eq_true, decide_eq_true_eq, Flight_here_iff, Option.isNone_iff_eq_none]
  tauto

/-- Landing results leave the place of the context in its program as it is. -/
theorem foldl_landOne_place (l : List Flight) (x : Ctx) :
    (l.foldl landOne x).pc = x.pc ∧ (l.foldl landOne x).pos = x.pos ∧ (l.foldl landOne x).loop = x.loop := by
  induction l generalizing x with
  | nil => exact ⟨rfl, rfl, rfl⟩
  | cons f l ih =>
    have h := ih (landOne x f)
    rw [landOne_frame x f] at h
    rw [List.foldl_cons, landOne_frame x f]
    exact h

theorem expiredResultsLandBeforeTheBundle : ExpiredResultsLandBeforeTheBundle := by
  intro x
  refine ⟨fun f => ?flights, foldl_landOne_place _ x, fun f hx hp hparts hacq hpos => ?lands, fun f hx _ hpos => ?stays, ?overdue⟩
  case flights =>
    rw [← expired_mayLand_iff, landExpired, List.mem_filter, Bool.not_eq_true', Bool.not_eq_true]
  case lands =>
    have h : (expired x f && mayLand f) = true :=
      (expired_mayLand_iff x f).2 ⟨hpos, hp, hacq, by simp [hparts]⟩
    simp only [landExpired, hx, List.filter_cons, h, Bool.not_true]
    rfl
  case stays =>
    have h : expired x f = false := by simpa [expired] using hpos
    simp only [landExpired, hx, List.filter_cons, h, Bool.false_and, Bool.not_false]
    exact congrArg (fun l => { x with flights := l }) hx.symm
  case overdue =>
    have hwaits (f : Flight) : (!Flight_here f) = true ↔ f.acq ≠ none ∨ ∃ p ∈ f.parts, p.got = none := by
      rw [Bool.not_eq_true', ← Bool.not_eq_true, Flight_here_iff]
      simp [imp_iff_not_or]
    simp only [overdue, List.any_eq_true, Bool.and_eq_true, hwaits, expired, decide_eq_true_eq]

/-! ### The obligation -/

/-- Settles O11: a result's landing by its destination, the frame of a result put in flight, and the results that land. -/
theorem resultsLandWhereAndWhenTheyShould : Obligations.ResultsLandWhereAndWhenTheyShould :=
  ⟨aResultLandsInItsRegisterOnly, aResultInFlightChangesNothingElse, expiredResultsLandBeforeTheBundle⟩

end Sys2Proof.Machine
end

section
/-! PROOF. Tile operands, lines of a CTC and pins (O34): `tacq`, `tdrop` and `thint` find a line of their tile and change it, the
context's pins, or the class of the line (R84, R85, R89, R347 to R349). -/
namespace Sys2Proof.Machine
open Sys2Proof.Claims

/-! ### Tile operands (R343) -/

theorem bindingM_some {s : State} {n : BitVec 5} {b : Binding} (h : (cc s).b.toList.getD n.toNat none = some b) :
    bindingM n s = (.ok b, s) := by
  unfold bindingM
  rw [M_bind_ok (getC_apply s), h]
  rfl

/-- A tile operand that passes the checks of R343. -/
theorem tileOpnd_ok {s : State} {t : TileOp} {b : Binding} {tile : Tile} (h : tileAt s t b tile) :
    tileOpnd t (fun _ => []) (fun _ => []) s = (.ok (b, tile), s) := by
  obtain ⟨hb, hcls, hco, htile, -⟩ := h
  unfold tileOpnd
  rw [M_bind_ok (getC_apply s), M_bind_ok (bindingM_some hb)]
  have hlow : lowest [(decide (dClass b.desc = 2), 19), (!coordsOk b.desc (tileCoords (cc s) t), 20)] = none := by
    simp [lowest, hcls, hco]
  simp only [List.nil_append, List.append_nil, hlow]
  rw [M_bind_ok (get_apply s), M_bind_ok (get_apply s), htile]
  rfl

theorem openingWait_none {s : State} {tile : Tile} (h : openingOf s s.cur tile = none) : openingWait tile s = (.ok (), s) := by
  unfold openingWait
  rw [M_bind_ok (get_apply s), h]
  rfl

theorem tileAt_waits {s : State} {t : TileOp} {b : Binding} {tile : Tile} (h : tileAt s t b tile) :
    openingWait tile s = (.ok (), s) := by
  obtain ⟨-, -, -, -, hopening⟩ := h
  exact openingWait_none hopening

/-! ### Lines of a CTC -/

@[simp] theorem ctcOf_setCtc_self (s : State) (core : Nat) (l : List TLine) : ctcOf (setCtc s core l) core = l := by
  simp [ctcOf, setCtc]
theorem ctcOf_setCtc_ne (s : State) {core n : Nat} (l : List TLine) (h : n ≠ core) : ctcOf (setCtc s core l) n = ctcOf s n := by
  simp [ctcOf, setCtc, SMap.getD_set_ne _ _ _ h]

/-- Changes that keep every line's number keep which line has a number. -/
theorem find_id_map {f : TLine → TLine} (hf : ∀ x, (f x).id = x.id) (l : List TLine) (id : Nat) :
    (l.map f).find? (fun x => x.id = id) = (l.find? fun x => x.id = id).map f := by
  rw [List.find?_map]
  simp [hf]

theorem ctcLine_updLine {s : State} {core id : Nat} {f : TLine → TLine} {l : TLine} (h : ctcLine s core id = some l)
    (hf : ∀ x, (f x).id = x.id) : ctcLine (updLine s core id f) core id = some (f l) := by
  have hid : l.id = id := by simpa using List.find?_some h
  unfold ctcLine at h ⊢
  rw [updLine, ctcOf_setCtc_self, find_id_map (by intro x; split <;> simp [hf]), h]
  simp [hid]

/-- The cap on hinted-reuse changes no line but in its class (R89). -/
theorem find_id_capReuse {id : Nat} {y : TLine} (n : Nat) {l : List TLine} (h : l.find? (fun x => x.id = id) = some y) :
    ∃ c, (capReuse l n).find? (fun x => x.id = id) = some { y with cls := c } := by
  induction n generalizing l y with
  | zero => exact ⟨y.cls, h⟩
  | succ n ih =>
    unfold capReuse
    split
    · exact ⟨y.cls, h⟩
    · split
      · next z _ =>
        have hmap : (l.map fun x => if x.id = z.id then { x with cls := 0 } else x).find? (fun x => x.id = id)
            = some (if y.id = z.id then { y with cls := 0 } else y) := by
          rw [find_id_map (by intro x; split <;> rfl), h]
          rfl
        obtain ⟨c, hc⟩ := ih hmap
        refine ⟨c, hc.trans ?_⟩
        split <;> rfl
      · exact ⟨y.cls, h⟩

theorem ctcLine_capped {s : State} {core id : Nat} {y : TLine} (h : ctcLine s core id = some y) :
    ∃ c, ctcLine (setCtc s core (capped (ctcOf s core))) core id = some { y with cls := c } := by
  obtain ⟨c, hc⟩ := find_id_capReuse (ctcOf s core).length h
  refine ⟨c, ?_⟩
  unfold ctcLine
  rwa [ctcOf_setCtc_self]

/-- A use of a line marks it used and may move it to hinted-reuse (R89). -/
theorem ctcLine_useLine {s : State} {core id : Nat} {l : TLine} (h : ctcLine s core id = some l) :
    ∃ c, ctcLine (useLine s core id) core id = some { l with used := true, cls := c } := by
  have hid : l.id = id := by simpa using List.find?_some h
  have hlast (y : TLine) (hy : y.id = id) :
      ((ctcOf s core).filter (fun x => x.id != id) ++ [y]).find? (fun x => x.id = id) = some y := by
    rw [List.find?_append, List.find?_eq_none.2 (by simp), Option.none_or, List.find?_singleton]
    simp [hy]
  have hl : (ctcOf s core).find? (fun x => x.id = id) = some l := h
  obtain ⟨c, hc⟩ := find_id_capReuse _ (hlast { l with used := true, cls := _ } hid)
  refine ⟨c, ?_⟩
  unfold ctcLine useLine useIn
  rw [ctcOf_setCtc_self, hl]
  exact hc

/-! ### Pins (R85) -/

/-- A context's list of pins with the pin on a line raised by one. -/
def raisedPins (l : List (Nat × Nat)) (id : Nat) : List (Nat × Nat) :=
  if l.any fun p => p.1 = id then l.map fun p => if p.1 = id then (id, p.2 + 1) else p else l ++ [(id, 1)]

/-- A line used and pinned once more by the issuing context. -/
def usedAndPinned (s : State) (id : Nat) : State := pinLine (useLine s (coreOf s.cur) id) s.cur id 1

theorem usedAndPinned_frame (s : State) (id : Nat) : usedAndPinned s id =
    { s with ctx := (usedAndPinned s id).ctx, tiles := { s.tiles with ctc := (usedAndPinned s id).tiles.ctc } } := rfl
theorem cc_usedAndPinned (s : State) (id : Nat) :
    cc (usedAndPinned s id) = { cc s with pins := raisedPins (cc s).pins id } := by
  unfold usedAndPinned pinLine raisedPins
  exact ctxOf_updCtx_self ..
theorem ctxOf_usedAndPinned_ne (s : State) (id : Nat) {c : Nat} (h : c ≠ s.cur) : ctxOf (usedAndPinned s id) c = ctxOf s c :=
  ctxOf_updCtx_ne _ _ h
theorem ctcLine_usedAndPinned {s : State} {id : Nat} {l : TLine} (h : ctcLine s (coreOf s.cur) id = some l) :
    ∃ c, ctcLine (usedAndPinned s id) (coreOf s.cur) id = some { l with used := true, cls := c, pins := l.pins + 1 } := by
  obtain ⟨c, hc⟩ := ctcLine_useLine h
  exact ⟨c, ctcLine_updLine (f := fun l => { l with pins := l.pins + 1 }) hc fun _ => rfl⟩

/-- One pin of the issuing context on a line released: the line loses one pin, and the context's list follows (R348). -/
theorem cc_unpinOne (s : State) (id : Nat) : cc (unpinOne s s.cur id) =
    { cc s with pins := (cc s).pins.filterMap fun p =>
        if p.1 = id then (if p.2 ≤ 1 then none else some (id, p.2 - 1)) else some p } := by
  unfold unpinOne
  exact ctxOf_updCtx_self ..

theorem lastUse_eq (l : TLine) : lastUse l =
    { l with cls := if l.goLast && l.pins = 0 then 2 else l.cls, goLast := if l.goLast && l.pins = 0 then false else l.goLast } := by
  unfold lastUse
  split <;> rfl

theorem ctcLine_unpinOne {s : State} {id : Nat} {l : TLine} (h : ctcLine s (coreOf s.cur) id = some l) :
    ∃ l', ctcLine (unpinOne s s.cur id) (coreOf s.cur) id = some l' ∧ l'.pins = l.pins - 1 ∧ l'.rows = l.rows := by
  have hlow := ctcLine_updLine (f := fun l => lastUse { l with pins := l.pins - 1 }) h fun x => by rw [lastUse_eq]
  obtain ⟨c, hc⟩ := ctcLine_capped hlow
  exact ⟨_, hc, by rw [lastUse_eq], by rw [lastUse_eq]⟩

/-! ### `tacq` (R85, R347) -/

/-- A command that finds a valid line at its requirement takes it (R77). -/
theorem needLine_newest {s : State} {b : Binding} {tile : Tile} {l : TLine}
    (h : newestOf (ctcOf s (coreOf s.cur)) tile b.ver.toNat = some l) : needLine b tile s = (.ok l, s) := by
  have hneed : tileNeed s s.cur b tile b.ver.toNat = (.line l, s) := by
    unfold tileNeed
    dsimp only
    rw [h]
  unfold needLine
  rw [M_bind_ok (get_apply s), hneed]
  rfl

theorem discardOpen_here {s : State} {l : TLine} (core : Nat) (h : l.home = s.pkg) :
    discardOpen s core l = cause (delLine s core l.id) (.oasisDiscard l.tile s.pkg l.ctx) := if_pos h

section
variable {s : State} {t : TileOp} {b : Binding} {tile : Tile} {l : TLine} (h : tileAt s t b tile)
include h

/-- What `tacq` leaves where it finds its line. -/
theorem exec_tacq_line
    (hl : pinnedOf s s.cur tile b.ver.toNat = some l
      ∨ (pinnedOf s s.cur tile b.ver.toNat = none ∧ newestOf (ctcOf s (coreOf s.cur)) tile b.ver.toNat = some l)
        ∧ (pinUse s s.cur).1 < 64 ∧ (pinUse s s.cur).2 + dSegs b.desc ≤ 224) :
    exec (.tacq t) s = .next (upd (acquireAt (usedAndPinned s l.id) (coreOf s.cur) (if dDomain b.desc then 5 else 4))
      fun x => { x with fetch := [], ahead := [] }) := by
  show run slotL _ s = _
  apply run_ok
  rw [M_bind_ok (tileOpnd_ok h)]
  dsimp only
  rw [M_bind_ok (tileAt_waits h), M_bind_ok (get_apply s)]
  rcases hl with hl | ⟨⟨hnone, hnew⟩, hn, hk⟩
  · rw [hl]
    rfl
  · have hroom : (decide ((pinUse s s.cur).1 ≥ 64) || decide ((pinUse s s.cur).2 + dSegs b.desc > 224)) = false := by
      simp; omega
    rw [hnone]
    dsimp only
    rw [hroom, hnew, M_bind_ok (trapIf_false ..), Option.isNone_some, Bool.false_and, M_bind_ok (blockIf_false s),
      M_bind_ok (needLine_newest hnew)]
    rfl

theorem exec_tacq_full (hnone : pinnedOf s s.cur tile b.ver.toNat = none)
    (hfull : ¬ ((pinUse s s.cur).1 < 64 ∧ (pinUse s s.cur).2 + dSegs b.desc ≤ 224)) (hall : allHere (cc s) = true) :
    exec (.tacq t) s = .next (takeTrap s s.cur 22 0 0 (some 4)) := by
  have hroom : (decide ((pinUse s s.cur).1 ≥ 64) || decide ((pinUse s s.cur).2 + dSegs b.desc > 224)) = true := by
    simp; omega
  show run slotL _ s = _
  refine run_trap ?_ hall
  rw [M_bind_ok (tileOpnd_ok h)]
  dsimp only
  rw [M_bind_ok (tileAt_waits h), M_bind_ok (get_apply s), hnone]
  dsimp only
  rw [hroom, M_bind_error (trapIf_true ..)]

/-! ### `tdrop` (R84, R348) -/

theorem exec_tdrop_open (hl : openOf s s.cur tile = some l) (hfree : mWrites s s.cur tile = false) :
    exec (.tdrop t) s = .next (discardOpen s (coreOf s.cur) l) := by
  show run slotT _ s = _
  apply run_ok
  rw [M_bind_ok (tileOpnd_ok h)]
  dsimp only
  rw [M_bind_ok (tileAt_waits h), M_bind_ok (get_apply s), hl]
  dsimp only
  rw [hfree]
  rfl

theorem exec_tdrop_idle (hl : openOf s s.cur tile = none) (hpins : (cc s).pins = []) :
    exec (.tdrop t) s = .next (trRec s s.cur 8 (cc s).pc.toNat (Instr_op (.tdrop t))) := by
  show run slotT _ s = _
  apply run_ok
  rw [M_bind_ok (tileOpnd_ok h)]
  dsimp only
  rw [M_bind_ok (tileAt_waits h), M_bind_ok (get_apply s), hl, hpins]
  rfl

theorem exec_tdrop_pinned {n : Nat} (hopen : openOf s s.cur tile = none) (hl : ctcLine s (coreOf s.cur) l.id = some l)
    (htile : l.tile = tile) (hpins : (cc s).pins = [(l.id, n)]) : exec (.tdrop t) s = .next (unpinOne s s.cur l.id) := by
  show run slotT _ s = _
  apply run_ok
  rw [M_bind_ok (tileOpnd_ok h)]
  dsimp only
  rw [M_bind_ok (tileAt_waits h), M_bind_ok (get_apply s), hopen, hpins]
  dsimp only
  rw [List.find?_singleton]
  dsimp only
  rw [hl]
  simp [htile]

/-! ### `thint` (R89, R349) -/

/-- The line that a hint is for: the open one, or the newest valid one. -/
def hinted (s : State) (tile : Tile) (u : Nat) : Option TLine :=
  match openOf s s.cur tile with
  | some l => some l
  | none => newestOf (ctcOf s (coreOf s.cur)) tile u

theorem exec_thint (g : BitVec 2) : exec (.thint t g) s = .next (match hinted s tile b.ver.toNat with
    | some l =>
      let s1 := updLine s (coreOf s.cur) l.id fun l => hintTo l g.toNat
      setCtc s1 (coreOf s.cur) (capReuse (ctcOf s1 (coreOf s.cur)) (ctcOf s1 (coreOf s.cur)).length)
    | none => s) := by
  show run slotL _ s = _
  apply run_ok
  rw [M_bind_ok (tileOpnd_ok h)]
  dsimp only
  rw [M_bind_ok (tileAt_waits h), M_bind_ok (get_apply s)]
  unfold hinted
  cases openOf s s.cur tile with
  | some l => rfl
  | none =>
    dsimp only
    cases newestOf (ctcOf s (coreOf s.cur)) tile b.ver.toNat <;> rfl

end

/-- The class that a hint gives a line: default, hinted-reuse, last-use at the end of its uses, and for an open line its post stream
through. -/
def hintOf (h : BitVec 2) (y : TLine) : TLine :=
  let last (y : TLine) : TLine := if y.pins = 0 then { y with cls := 2, goLast := false } else { y with goLast := true }
  if h = 0 then { y with cls := 0, goLast := false } else if h = 1 then { y with cls := 1, goLast := false }
  else if h = 2 then last y
  else if y.st = .open_ ∨ y.st = .openPoisoned then { y with stream := true } else last y

theorem lastUse_goLast (y : TLine) :
    lastUse { y with goLast := true } = if y.pins = 0 then { y with cls := 2, goLast := false } else { y with goLast := true } := by
  simp [lastUse]

theorem hintTo_eq (h : BitVec 2) (y : TLine) : hintTo y h.toNat = hintOf h y := by
  have hcases : h = 0 ∨ h = 1 ∨ h = 2 ∨ h = 3 := by revert h; decide
  rcases hcases with rfl | rfl | rfl | rfl
  · rfl
  · rfl
  · exact lastUse_goLast y
  · show (if y.st == .open_ || y.st == .openPoisoned then _ else _) = if y.st = .open_ ∨ y.st = .openPoisoned then _ else _
    rw [lastUse_goLast]
    simp

/-! ### The obligation -/

/-- Settles O34: what each of the three leaves, and the pins and the lines that it changes. -/
theorem tilesArePinnedDroppedAndHinted : Obligations.TilesArePinnedDroppedAndHinted := by
  unfold Obligations.TilesArePinnedDroppedAndHinted
  intro s t b tile l h core u k use new room hat
  refine ⟨⟨fun hline hl => ?acquires, fun ⟨hnone, _⟩ hfull => exec_tacq_full hat hnone hfull⟩, fun hl hfree hhome => ?discards,
    exec_tdrop_idle hat, fun n hopen hline htile hpins => ?unpins, fun hl => ?hints, fun hopen hnone => ?nothing⟩
  case acquires =>
    obtain ⟨c, hpinned⟩ := ctcLine_usedAndPinned hline
    refine ⟨_, _, exec_tacq_line hat hl, usedAndPinned_frame s l.id, by rw [cc_usedAndPinned],
      fun _ => ctxOf_usedAndPinned_ne s l.id, hpinned, rfl, rfl, rfl, rfl, fun hno => ?_, fun hyes => ?_⟩
    · rw [cc_usedAndPinned, raisedPins, hno]
      rfl
    · rw [cc_usedAndPinned, raisedPins, hyes]
      rfl
  case discards =>
    rw [exec_tdrop_open hat hl hfree, discardOpen_here _ hhome]
    exact ⟨_, rfl, rfl, ctcOf_setCtc_self .., fun _ => ctcOf_setCtc_ne s _⟩
  case unpins =>
    obtain ⟨l', hl', hp, hr⟩ := ctcLine_unpinOne hline
    refine ⟨_, l', exec_tdrop_pinned hat hopen hline htile hpins, ?_, hl', hp, hr⟩
    rw [cc_unpinOne, hpins]
    by_cases hn : n ≤ 1 <;> simp [hn]
  case hints =>
    have hline : hinted s tile u = some l := by
      unfold hinted
      rcases hl with hl | ⟨hopen, hl⟩
      · rw [hl]
      · rw [hopen]
        exact hl
    rw [exec_thint hat, hline]
    simp only [hintTo_eq]
    rfl
  case nothing =>
    have hline : hinted s tile u = none := by
      unfold hinted
      rw [hopen]
      exact hnone
    rw [exec_thint hat, hline]

end Sys2Proof.Machine
end

section
/-! PROOF. What accesses to memory leave alone (O35, O36, O41): the issuing context, the package, the registers of every context,
the tile caches but for the lines and victim buffers of the CLCs, and which channels have failed. Every read and write at a home, every
eviction from a cache and every translation keeps them. -/
namespace Sys2Proof.Machine
open Sys2Proof.Claims

/-- A context but for its accesses on the way and its fetch buffer, which an acquire empties. -/
def stillOf (x : Ctx) : Ctx := { x with flights := [], stq := [], remote := [], farOut := 0, fetch := [], ahead := [] }

theorem rdS_stillOf (x : Ctx) (r : SReg) : rdS (stillOf x) r = rdS x r := rfl

/-- The part of a state that no access to memory changes. -/
structure Steady where
  cur : Nat
  pkg : Nat
  ctx : Nat → Ctx
  ctc : SMap (List TLine)
  fills : List Fill
  oasis : SMap Oasis
  homeQ : List HomeMsg
  purge : Option (Nat × Nat)
  failed : Nat → Bool

def steady (s : State) : Steady where
  cur := s.cur
  pkg := s.pkg
  ctx c := stillOf (ctxOf s c)
  ctc := s.tiles.ctc
  fills := s.tiles.fills
  oasis := s.tiles.oasis
  homeQ := s.tiles.homeQ
  purge := s.tiles.purge
  failed n := (chan s n).failed

theorem steady_foldl {α : Type} {f : State → α → State} (hf : ∀ s a, steady (f s a) = steady s) (l : List α) (s : State) :
    steady (l.foldl f s) = steady s := by
  induction l generalizing s with
  | nil => rfl
  | cons a l ih => rw [List.foldl_cons, ih, hf]

theorem steady_ite {c : Prop} [Decidable c] {s t u : State} (ht : steady t = steady s) (hu : steady u = steady s) :
    steady (if c then t else u) = steady s := by
  split
  · exact ht
  · exact hu

theorem steady_ite_snd {c : Prop} [Decidable c] {α : Type} {s : State} {p q : α × State} (hp : steady p.2 = steady s)
    (hq : steady q.2 = steady s) : steady (if c then p else q).2 = steady s := by
  split
  · exact hp
  · exact hq
theorem steady_ite_snd_snd {c : Prop} [Decidable c] {α β : Type} {s : State} {p q : α × β × State}
    (hp : steady p.2.2 = steady s) (hq : steady q.2.2 = steady s) : steady (if c then p else q).2.2 = steady s := by
  split
  · exact hp
  · exact hq
theorem steady_foldl_snd {α β : Type} {f : β × State → α → β × State} (hf : ∀ p a, steady (f p a).2 = steady p.2) (l : List α)
    (p : β × State) : steady (l.foldl f p).2 = steady p.2 := by
  induction l generalizing p with
  | nil => rfl
  | cons a l ih => rw [List.foldl_cons, ih, hf]
theorem steady_foldl_snd_snd {α β γ : Type} {f : β × γ × State → α → β × γ × State}
    (hf : ∀ p a, steady (f p a).2.2 = steady p.2.2) (l : List α) (p : β × γ × State) :
    steady (l.foldl f p).2.2 = steady p.2.2 := by
  induction l generalizing p with
  | nil => rfl
  | cons a l ih => rw [List.foldl_cons, ih, hf]

/-- An update of a context's accesses on the way, or of its fetch buffer. -/
theorem steady_updCtx (s : State) (c : Nat) {f : Ctx → Ctx} (hf : ∀ x, stillOf (f x) = stillOf x) :
    steady (updCtx s c f) = steady s := by
  have hctx : (fun d => stillOf (ctxOf (updCtx s c f) d)) = fun d => stillOf (ctxOf s d) := by
    funext d
    by_cases hd : d = c
    · subst hd
      rw [ctxOf_updCtx_self, hf]
    · rw [ctxOf_updCtx_ne s f hd]
  unfold steady
  rw [hctx]
  rfl

/-! ### Channels of HBM (R100 to R109, R163) -/

/-- An update of a channel that fails none and mends none. -/
theorem steady_setChan (s : State) (n : Nat) {f : Chan → Chan} (hf : ∀ c, (f c).failed = c.failed) :
    steady (setChan s n f) = steady s := by
  have hfailed : (fun m => (chan (setChan s n f) m).failed) = fun m => (chan s m).failed := by
    funext m
    by_cases hm : m = n
    · subst hm
      rw [chan_setChan_self, hf]
    · rw [chan_setChan_ne s f hm]
  unfold steady
  rw [hfailed]
  rfl

@[simp] theorem steady_activate (s : State) (pa : Nat) : steady (activate s pa) = steady s := steady_setChan s _ fun _ => rfl
@[simp] theorem steady_setSnoop (s : State) (pa : Nat) (e : Option Snoop) : steady (setSnoop s pa e) = steady s :=
  steady_setChan s _ fun _ => rfl
@[simp] theorem steady_undoLog (s : State) (q : Option Nat) (pa : Nat) : steady (undoLog s q pa) = steady s := by
  rw [undoLog_frame]
  rfl

@[simp] theorem steady_openSec (s : State) (q : Option Nat) (sec : Nat) : steady (openSec s q sec) = steady s := by
  unfold openSec
  rw [steady_setChan _ _ (by exact fun _ => rfl), steady_activate, steady_undoLog]

theorem steady_storeSec (s : State) (sec : Nat) (bs : List (Option Byte)) : steady (storeSec s sec bs) = steady s :=
  steady_ite rfl rfl

/-- A sector written unpoisoned. -/
@[simp] theorem steady_chanWrite (s : State) (q : Option Nat) (sec : Nat) (bs : List (Option Byte)) :
    steady (chanWrite s q sec bs false) = steady s := by
  rw [chanWrite_eq]
  exact steady_ite rfl ((steady_storeSec ..).trans (steady_openSec ..))

@[simp] theorem steady_hostData (s : State) (gran : Nat) (d : Option (BitVec 512)) : steady (hostData s gran d) = steady s := by
  cases d with
  | none => rfl
  | some v => simp [hostData]

@[simp] theorem steady_snoopRead (s : State) (pa : Nat) : steady (snoopRead s pa) = steady s := by
  unfold snoopRead
  cases snoopOf s pa with
  | none => rfl
  | some e => exact steady_ite (by simp) rfl
@[simp] theorem steady_snoopInv (s : State) (pa : Nat) : steady (snoopInv s pa) = steady s := by
  unfold snoopInv
  cases snoopOf s pa with
  | none => rfl
  | some e => simp

theorem steady_hbmReadSec (s : State) (sec : Nat) : steady (hbmReadSec s sec).2.2 = steady s := by
  have hopen : steady (activate (snoopRead s (sec * 32)) (sec * 32)) = steady s := by simp
  unfold hbmReadSec
  dsimp only
  split
  · exact hopen
  · split
    · exact (steady_setChan _ _ (by exact fun _ => rfl)).trans hopen
    · split
      · exact (steady_setChan _ _ (by exact fun _ => rfl)).trans hopen
      · exact hopen

theorem steady_hbmReadSecs (s : State) (sec k : Nat) : steady (hbmReadSecs s sec k).2.2 = steady s := by
  induction k generalizing s sec with
  | zero => rfl
  | succ k ih => exact (ih _ _).trans (steady_hbmReadSec s sec)

@[simp] theorem steady_hbmWriteSec (s : State) (q : Option Nat) (sec : Nat) (bs : List (Option Byte)) :
    steady (hbmWriteSec s q sec bs false) = steady s := by
  simp [hbmWriteSec]
@[simp] theorem steady_hbmWrite (s : State) (q : Option Nat) (pa : Nat) (bs : List (Option Byte)) :
    steady (hbmWrite s q pa bs) = steady s :=
  steady_ite rfl (steady_foldl (fun _ _ => steady_ite (steady_hbmWriteSec ..) rfl) _ _)

/-! ### Far memory and homes -/

theorem steady_farWriteSec (s : State) (key sec : Nat) (bs : List (Option Byte)) :
    steady (farWriteSec s key sec bs false) = steady s := by
  unfold farWriteSec
  dsimp only
  rw [if_neg Bool.false_ne_true]
  exact steady_ite rfl (steady_ite rfl rfl)
theorem steady_farWrite (s : State) (cs : List Nat) (h : FarHit) (bs : List (Option Byte)) :
    steady (farWrite s cs h bs) = steady s := by
  unfold farWrite
  refine steady_ite rfl ((steady_foldl ?_ cs _).trans (steady_foldl ?_ _ _))
  · exact fun s c => steady_updCtx s c (f := fun x => { x with farOut := x.farOut + 1 }) fun _ => rfl
  · exact fun _ _ => steady_ite (steady_farWriteSec ..) rfl

theorem steady_homeRead (s : State) (pa n : Nat) : steady (homeRead s pa n).2.2 = steady s := by
  unfold homeRead
  split
  · exact steady_hbmReadSecs ..
  · cases farDecode s pa <;> rfl
@[simp] theorem steady_homeWrite (s : State) (cs : List Nat) (q : Option Nat) (pa : Nat) (bs : List (Option Byte)) :
    steady (homeWrite s cs q pa bs) = steady s := by
  unfold homeWrite
  refine steady_ite (steady_hbmWrite ..) ?_
  cases farDecode s pa with
  | none => rfl
  | some h => exact steady_farWrite ..

/-! ### Lines and room of a CLC (R76, R90, R141) -/

@[simp] theorem steady_setL1 (s : State) (core ln : Nat) (l : Option Line) : steady (setL1 s core ln l) = steady s := rfl
@[simp] theorem steady_setClc (s : State) (cl ln : Nat) (l : Option Line) : steady (setClc s cl ln l) = steady s := rfl
@[simp] theorem steady_setClcT (s : State) (cl : Nat) (l : List TLine) : steady (setClcT s cl l) = steady s := rfl
@[simp] theorem steady_beginWriteback (s : State) (cl : Nat) (l : TLine) : steady (beginWriteback s cl l) = steady s := rfl
@[simp] theorem steady_draw (s : State) : steady (draw s).2 = steady s := rfl

@[simp] theorem steady_clcWriteBackM (s : State) (cl ln : Nat) (m : BitVec 128) : steady (clcWriteBackM s cl ln m) = steady s := by
  unfold clcWriteBackM
  cases SMap.get? (clcOf s cl).lines ln with
  | none => rfl
  | some l => exact steady_ite rfl (by simp)
@[simp] theorem steady_clcWriteBack (s : State) (cl ln : Nat) : steady (clcWriteBack s cl ln) = steady s :=
  steady_clcWriteBackM ..

theorem steady_clcDropPlain {s t : State} {cl : Nat} (h : clcDropPlain s cl = some t) : steady t = steady s := by
  unfold clcDropPlain at h
  dsimp only at h
  split at h
  · cases h
  · obtain ⟨e, -, rfl⟩ := Option.map_eq_some_iff.1 h
    simp
theorem steady_clcDropTile {s t : State} {cl : Nat} (h : clcDropTile s cl = some t) : steady t = steady s := by
  unfold clcDropTile at h
  split at h
  · cases h
  · split at h
    · cases h
      rfl
    · split at h
      · cases h
        rfl
      · cases h

/-- What leaves a CLC first is free (log 8): a plain line, or else a tile line, or the other way round. -/
theorem steady_clcEvict {s t : State} {cl : Nat} (h : clcEvict s cl = some t) : steady t = steady s := by
  have hplain (h : clcDropPlain (draw s).2 cl = some t) : steady t = steady s :=
    (steady_clcDropPlain h).trans (steady_draw s)
  have htile (h : clcDropTile (draw s).2 cl = some t) : steady t = steady s :=
    (steady_clcDropTile h).trans (steady_draw s)
  unfold clcEvict at h
  dsimp only at h
  split at h <;> rcases (Option.orElse_eq_some ..).1 h with h | ⟨-, h⟩
  · exact hplain h
  · exact htile h
  · exact htile h
  · exact hplain h

theorem steady_clcMake {s t : State} {cl lines segs tags n : Nat} (h : clcMake s cl lines segs tags n = some t) :
    steady t = steady s := by
  induction n generalizing s with
  | zero =>
    unfold clcMake at h
    split at h
    · cases h
      rfl
    · cases h
  | succ n ih =>
    unfold clcMake at h
    split at h
    · cases h
      rfl
    · split at h
      · next u hu => exact (ih h).trans (steady_clcEvict hu)
      · cases h
theorem steady_clcRoom {s t : State} {cl lines segs tags : Nat} (h : clcRoom s cl lines segs tags = some t) :
    steady t = steady s := steady_clcMake h

@[simp] theorem steady_clcFill (s : State) (cl ln : Nat) (l : Line) : steady (clcFill s cl ln l) = steady s := by
  unfold clcFill
  split
  · next t ht => exact (steady_setClc ..).trans (steady_clcRoom ht)
  · rfl

theorem steady_clcEnsure (s : State) (cl ln : Nat) : steady (clcEnsure s cl ln).2 = steady s := by
  have hfill (t : State) (l : Line) (h : steady t = steady s) :
      steady (clcFill (homeRead t (ln * 128) 128).2.2 cl ln l) = steady s := by
    rw [steady_clcFill, steady_homeRead, h]
  unfold clcEnsure
  dsimp only
  split
  · split
    · rfl
    · exact hfill _ _ (by simp)
  · exact hfill _ _ rfl

/-! ### Releases (R141) -/

@[simp] theorem steady_clcPut (s : State) (core : Nat) (cs : List Nat) (q : Option Nat) (ln : Nat) (data : BitVec 1024)
    (m : BitVec 128) : steady (clcPut s core cs q ln data m) = steady s := by
  unfold clcPut
  dsimp only
  exact steady_ite (steady_clcEnsure ..) ((steady_homeWrite ..).trans (steady_clcEnsure ..))

@[simp] theorem steady_l1WriteBack (s : State) (core ln : Nat) : steady (l1WriteBack s core ln) = steady s := by
  unfold l1WriteBack l1WriteBackM
  cases SMap.get? (l1Of s core).lines ln with
  | none => rfl
  | some l => exact steady_ite rfl (steady_ite (by simp) (by simp))

theorem steady_l1Flush (s : State) (core : Nat) : steady (l1Flush s core) = steady s :=
  steady_foldl (fun _ _ => steady_l1WriteBack ..) _ _
theorem steady_clcFlush (s : State) (core : Nat) : steady (clcFlush s core) = steady s :=
  steady_foldl (fun _ _ => steady_ite (steady_clcWriteBack ..) rfl) _ _
theorem steady_releaseAt (s : State) (core scope : Nat) : steady (releaseAt s core scope) = steady s := by
  have hl1 : steady (if scope ≥ 2 then l1Flush s core else s) = steady s := steady_ite (steady_l1Flush ..) rfl
  exact steady_ite ((steady_clcFlush ..).trans hl1) hl1

end Sys2Proof.Machine
end

section
/-! PROOF. `twopen` and `tpost` (O35): a release that nothing holds back, the opening that a `twopen` asks for, and the checks that
come before either (R82, R83, R148, R351, R353). -/
namespace Sys2Proof.Machine
open Sys2Proof.Claims

/-! ### A release that nothing holds back (R133) -/

section
variable {s : State} {c : Nat} (h : allHere (ctxOf s c) = true)
include h

theorem samplePart_here (k i : Nat) : samplePart s c k i = s := by
  unfold samplePart
  cases hf : (ctxOf s c).flights[k]? with
  | none => rfl
  | some f =>
    cases hp : f.parts[i]? with
    | none => simp [hp]
    | some p =>
      obtain ⟨-, hparts⟩ := (Flight_here_iff f).1 (List.all_eq_true.1 h f (List.mem_of_getElem? hf))
      simp [hp, LoadPart_idle, hparts p (List.mem_of_getElem? hp)]
theorem sampleAcq_here (k : Nat) : sampleAcq s c k = s := by
  unfold sampleAcq
  cases hf : (ctxOf s c).flights[k]? with
  | none => rfl
  | some f =>
    obtain ⟨hacq, -⟩ := (Flight_here_iff f).1 (List.all_eq_true.1 h f (List.mem_of_getElem? hf))
    simp [hacq]
/-- Where every result of a context has arrived, none is left to be performed. -/
theorem sampleAll_here : sampleAll s c = s :=
  List.foldl_fixed' (fun k => by
    dsimp only
    rw [List.foldl_fixed' (samplePart_here h k), sampleAcq_here h]) _

end

/-! A context of which no access is on the way has an empty queue of stores to perform. -/

theorem drainAll_settled {s : State} (h : settled (cc s)) : drainAll s s.cur = emptied s s.cur := by
  obtain ⟨-, hq⟩ := h
  have hq : (ctxOf s s.cur).stq = [] := hq
  unfold drainAll
  rw [hq]
  rfl
theorem cc_emptied_settled {s : State} (h : settled (cc s)) : cc (emptied s s.cur) = cc s := by
  obtain ⟨-, hq⟩ := h
  rw [show cc (emptied s s.cur) = { cc s with stq := [] } from ctxOf_updCtx_self .., ← hq]
theorem sampleAll_emptied {s : State} (h : settled (cc s)) : sampleAll (emptied s s.cur) s.cur = emptied s s.cur := by
  have hcc := cc_emptied_settled h
  obtain ⟨hall, -⟩ := h
  exact sampleAll_here ((congrArg allHere hcc).trans hall)

theorem loadsLeft_here {x : Ctx} (h : allHere x = true) : loadsLeft x = false := by
  unfold loadsLeft
  rw [List.any_eq_false]
  intro f hf
  have hhere : Flight_here f = true := List.all_eq_true.1 h f hf
  simp [hhere]

/-- A release waits for nothing where no access of the context is on the way. -/
theorem settleAll_settled {s : State} (h : settled (cc s)) (hout : noneOut s s.cur) :
    settleAll s = (.ok (), emptied s s.cur) := by
  obtain ⟨hmbox, hpend⟩ := hout
  have hcc := cc_emptied_settled h
  have hissue : settleIssue s = (.ok (), emptied s s.cur) := by
    unfold settleIssue settleLoads
    rw [M_bind_ok (modify_apply _ s), drainAll_settled h, M_bind_ok (modify_apply _ _)]
    show (getC >>= fun x => blockIf (loadsLeft x)) (sampleAll (emptied s s.cur) s.cur) = _
    obtain ⟨hall, -⟩ := id h
    rw [sampleAll_emptied h, M_bind_ok (getC_apply _), hcc, loadsLeft_here hall]
    rfl
  have hmbox : ((emptied s s.cur).mboxW.any fun w => w.ctx = (emptied s s.cur).cur && w.pos < (cc s).pos) = false := by
    rw [List.any_eq_false]
    intro w hw
    simp [show w.ctx ≠ (emptied s s.cur).cur from hmbox w hw]
  have hpend : ((emptied s s.cur).pending.any fun e => e.lane == some (100000 + (emptied s s.cur).cur)) = false := by
    rw [List.any_eq_false]
    intro e he
    simpa using show e.lane ≠ some (100000 + (emptied s s.cur).cur) from hpend e he
  unfold settleAll
  rw [M_bind_ok hissue, M_bind_ok (get_apply _)]
  rw [hcc, hmbox, M_bind_ok (blockIf_false _), hpend, Bool.and_false]
  rfl

theorem released_settled {s : State} (h : settled (cc s)) {k : Nat} (hk : 1 ≤ k) :
    released s k = releaseAt (emptied s s.cur) (coreOf s.cur) k := by
  unfold released
  rw [if_pos hk, drainAll_settled h, sampleAll_emptied h]

/-- The caches that a release writes back leave the issuing context the same. -/
theorem cur_released {s : State} (h : settled (cc s)) {k : Nat} (hk : 1 ≤ k) : (released s k).cur = s.cur := by
  rw [released_settled h hk]
  exact congrArg Steady.cur (steady_releaseAt ..)

/-- A release at a scope up to the package that nothing holds back (R133, R141). -/
theorem release_released {s : State} {k : Nat} (h : releases s k) (hk : 1 ≤ k) (hpkg : k ≤ 4) :
    (release k : M Unit) s = (.ok (), released s k) := by
  obtain ⟨hset, hout, hfar⟩ := h
  have hlow : ¬ k ≥ 5 := by omega
  unfold release
  rw [M_bind_ok (getC_apply s), Bool.false_and, Bool.false_and, M_bind_ok (blockIf_false s), if_pos hk,
    M_bind_ok (settleAll_settled hset hout)]
  dsimp only
  rw [M_bind_ok (modify_apply _ _), if_neg hlow]
  show farWait k (releaseAt (emptied s s.cur) (coreOf s.cur) k) = _
  rw [← released_settled hset hk]
  unfold farWait
  rw [M_bind_ok (getC_apply _), hfar]
  rfl

/-! ### `tpost` (R83, R148, R353) -/

section
variable {s : State} {t : TileOp} {b : Binding} {tile : Tile} {l : TLine} (h : tileAt s t b tile) (wb : Bool)
include h

theorem exec_tpost_open (hl : openOf s s.cur tile = some l) (hst : l.st = .open_) (hfree : mWrites s s.cur tile = false)
    (hdom : dDomain b.desc = false) (hrel : releases s 4) (hseen : tileVisible (released s 4) s.cur b.desc tile.co = false) :
    exec (.tpost t wb) s = .next (updLine (released s 4) (coreOf s.cur) l.id fun y => { y with st := .posting, wb := wb }) := by
  obtain ⟨hset, -, -⟩ := id hrel
  have hcur := cur_released hset (k := 4) (by omega)
  have hscope : tensorScope b.desc = 4 := by simp [tensorScope, hdom]
  show run slotT _ s = _
  apply run_ok
  rw [M_bind_ok (tileOpnd_ok h)]
  dsimp only
  rw [M_bind_ok (tileAt_waits h), M_bind_ok (get_apply s), hl]
  dsimp only
  rw [hst, show (TSt.open_ == TSt.openPoisoned) = false from rfl, M_bind_ok (trapIf_false _ _ _ s), hfree,
    M_bind_ok (blockIf_false s), hscope, M_bind_ok (release_released hrel (by omega) (by omega)), M_bind_ok (get_apply _)]
  rw [hcur, hseen, if_neg Bool.false_ne_true, modify_apply, hcur]

theorem exec_tpost_poisoned (hl : openOf s s.cur tile = some l) (hst : l.st = .openPoisoned) (hall : allHere (cc s) = true) :
    exec (.tpost t wb) s = .next (takeTrap s s.cur 24 0 0 (some 5)) := by
  show run slotT _ s = _
  refine run_trap ?_ hall
  rw [M_bind_ok (tileOpnd_ok h)]
  dsimp only
  rw [M_bind_ok (tileAt_waits h), M_bind_ok (get_apply s), hl]
  dsimp only
  rw [hst, show (TSt.openPoisoned == TSt.openPoisoned) = true from rfl, M_bind_error (trapIf_true ..)]

theorem exec_tpost_idle (hl : openOf s s.cur tile = none) :
    exec (.tpost t wb) s = .next (trRec s s.cur 8 (cc s).pc.toNat (Instr_op (.tpost t wb))) := by
  show run slotT _ s = _
  apply run_ok
  rw [M_bind_ok (tileOpnd_ok h)]
  dsimp only
  rw [M_bind_ok (tileAt_waits h), M_bind_ok (get_apply s), hl]
  rfl

end

/-! ### `twopen` (R82, R351) -/

/-- A meaning does what another does that ends as it does. -/
theorem run_congr {k : Nat} {m n : M Unit} {s : State} (h : m s = n s) : run k m s = run k n s := by
  unfold run
  rw [h]

/-- A fill or an opening that begins: it is the last of the fills, with the next number, and waits for its line or asks its home. -/
theorem newFill_open {s : State} {f : Fill} (h : f.open_.isSome = true) : ∃ n st, (st = .alloc ∨ st = .request)
    ∧ newFill s f = { s with tiles := (newFill s f).tiles }
    ∧ (newFill s f).tiles.fills = s.tiles.fills ++ [{ f with id := s.tiles.next, pkg := s.pkg, line := n, st := st }] := by
  unfold newFill
  rw [if_pos h]
  dsimp only
  cases hline : allocLine (newId s).2 { f with id := s.tiles.next, pkg := s.pkg, st := .alloc } with
  | none =>
    dsimp only [newId] at hline ⊢
    rw [hline]
    exact ⟨f.line, .alloc, .inl rfl, rfl, rfl⟩
  | some p =>
    obtain ⟨room, -, hp⟩ := Option.map_eq_some_iff.1 hline
    dsimp only [newId] at hline hp ⊢
    rw [hline, ← hp]
    unfold routeFill
    rw [if_pos h]
    exact ⟨_, .request, .inr rfl, rfl, rfl⟩

/-- The openings of the issuing context, granted and not, in its task. -/
def openings (s : State) : Nat :=
  (openLines s s.cur).length
    + (s.tiles.fills.filter fun f => f.ctx = s.cur && f.tid = (taskOf s s.cur).tid && f.open_.isSome).length

/-- The request that a `twopen` makes. -/
def openRequest (s : State) (b : Binding) (tile : Tile) (zero : Bool) : Fill :=
  { id := 0, core := coreOf s.cur, ctx := s.cur, tid := (taskOf s s.cur).tid, queue := (taskOf s s.cur).queue, tile := tile, b := b,
    asid := (taskOf s s.cur).asid, u := 0, hint := dHint b.desc, open_ := some zero }

section
variable {s : State} {t : TileOp} {b : Binding} {tile : Tile} (zero : Bool)

/-- The checks of a `twopen`, in the order of their subcodes. -/
theorem exec_twopen_fault {sub : Nat} (hb : (cc s).b.toList.getD t.b.toNat none = some b)
    (hsub : lowest [(decide (dClass b.desc = 2), 11), (!coordsOk b.desc (tileCoords (cc s) t), 20), (openFaults b.desc, 21)]
      = some sub) (hall : allHere (cc s) = true) :
    exec (.twopen t zero) s = .next (takeTrap s s.cur sub 0 0 (some 5)) := by
  show run slotT _ s = _
  refine run_trap ?_ hall
  rw [M_bind_ok (getC_apply s), M_bind_ok (bindingM_some hb)]
  dsimp only
  rw [hsub]
  rfl

variable (h : tileAt s t b tile) (hfault : openFaults b.desc = false)
include h hfault

/-- A `twopen` whose checks have passed. -/
theorem exec_twopen_checked : exec (.twopen t zero) s = run slotT (if (openOf s s.cur tile).isSome then noEffect (.twopen t zero)
    else do
      trapIf (openings s ≥ 16 || (pinUse s s.cur).1 ≥ 64 || (pinUse s s.cur).2 + dSegs b.desc > 224) 22
      set (newFill s (openRequest s b tile zero))) s := by
  have hwait := tileAt_waits h
  obtain ⟨hb, hcls, hco, htile, -⟩ := h
  have hlow : lowest [(decide (dClass b.desc = 2), 11), (!coordsOk b.desc (tileCoords (cc s) t), 20), (openFaults b.desc, 21)]
      = none := by simp [lowest, hcls, hco, hfault]
  show run slotT _ s = _
  refine run_congr ?_
  rw [M_bind_ok (getC_apply s), M_bind_ok (bindingM_some hb)]
  dsimp only
  rw [hlow]
  dsimp only
  rw [M_bind_ok (get_apply s), ← htile, M_bind_ok hwait]
  rfl

theorem exec_twopen_again {l : TLine} (hl : openOf s s.cur tile = some l) :
    exec (.twopen t zero) s = .next (trRec s s.cur 8 (cc s).pc.toNat (Instr_op (.twopen t zero))) := by
  rw [exec_twopen_checked zero h hfault, hl]
  rfl

theorem exec_twopen_full (hl : openOf s s.cur tile = none) (hall : allHere (cc s) = true)
    (hfull : ¬ (openings s < 16 ∧ (pinUse s s.cur).1 < 64 ∧ (pinUse s s.cur).2 + dSegs b.desc ≤ 224)) :
    exec (.twopen t zero) s = .next (takeTrap s s.cur 22 0 0 (some 5)) := by
  have hroom : (decide (openings s ≥ 16) || decide ((pinUse s s.cur).1 ≥ 64) || decide ((pinUse s s.cur).2 + dSegs b.desc > 224))
      = true := by simp; omega
  rw [exec_twopen_checked zero h hfault, hl, hroom]
  exact run_trap (M_bind_error (trapIf_true ..)) hall

theorem exec_twopen_room (hl : openOf s s.cur tile = none)
    (hroom : openings s < 16 ∧ (pinUse s s.cur).1 < 64 ∧ (pinUse s s.cur).2 + dSegs b.desc ≤ 224) :
    exec (.twopen t zero) s = .next (newFill s (openRequest s b tile zero)) := by
  have hroom : (decide (openings s ≥ 16) || decide ((pinUse s s.cur).1 ≥ 64) || decide ((pinUse s s.cur).2 + dSegs b.desc > 224))
      = false := by simp; omega
  rw [exec_twopen_checked zero h hfault, hl, hroom]
  exact run_ok (M_bind_ok (trapIf_false ..))

end

/-! ### The obligation -/

/-- Settles O35: an opening is requested, is there already, or traps; a post releases and leaves its line to be recorded. -/
theorem tilesAreOpenedAndPosted : Obligations.TilesAreOpenedAndPosted := by
  unfold Obligations.TilesAreOpenedAndPosted
  intro s t zero wb b tile l x core d use opens room here
  refine ⟨fun h hfault hl hroom => ?opens, fun h hfault hl hfull hall => exec_twopen_full zero h hfault hl hall hfull,
    fun h hfault hl => exec_twopen_again zero h hfault hl, fun hb hcls hall => ?mirage,
    fun hb hcls hco hkind hall => ?readOnly, fun h hl hst hfree hdom hrel hseen => exec_tpost_open h wb hl hst hfree hdom hrel hseen,
    fun h hl hst hall => exec_tpost_poisoned h wb hl hst hall, fun h hl => exec_tpost_idle h wb hl⟩
  case opens =>
    obtain ⟨n, st, hst, hframe, hfills⟩ := newFill_open (s := s) (f := openRequest s b tile zero) rfl
    exact ⟨_, _, exec_twopen_room zero h hfault hl hroom, hframe, hfills, rfl, rfl, rfl, rfl, rfl, rfl, rfl, hst⟩
  case mirage => exact exec_twopen_fault zero hb (by simp [lowest, show dClass b.desc = 2 from hcls]) hall
  case readOnly =>
    have hopen : openFaults b.desc = true := by simpa [openFaults] using hkind
    exact exec_twopen_fault zero hb (by simp [lowest, show ¬ dClass b.desc = 2 from hcls,
      show coordsOk b.desc (tileCoords (cc s) t) = true from hco, hopen]) hall

end Sys2Proof.Machine
end

section
/-! PROOF. Translation and a core's reads leave alone what every access to memory does (O36): the walks and first touches (R18, R29), a
core's reads through its caches, and the pieces of loads and stores performed on the way (R131). -/
namespace Sys2Proof.Machine
open Sys2Proof.Claims

/-! ### Frames and pools (R26, R29, R104) -/

/-! Updates of the parts of a state that accesses to memory may change. -/

theorem steady_setHbm (s : State) (m : Memory) (live poison : SMap Unit) :
    steady { s with hbm := { s.hbm with mem := m, live := live, poison := poison } } = steady s := rfl
theorem steady_setL1q (s : State) (q : SMap (List Nat)) : steady { s with l1q := q } = steady s := rfl
theorem steady_setL1d (s : State) (l : SMap Cache) : steady { s with l1d := l } = steady s := rfl
theorem steady_setPlain (s : State) (l : SMap Cache) : steady { s with clc := l } = steady s := rfl
@[simp] theorem steady_devSet (s : State) (a : Nat) (w : Word) : steady (devSet s a w) = steady s := rfl
@[simp] theorem steady_irq (s : State) (b : Nat) : steady (irq s b) = steady s := rfl

theorem steady_hbmRead (s : State) (pa n : Nat) : steady (hbmRead s pa n).2.2 = steady s := by
  unfold hbmRead
  exact steady_hbmReadSecs s (pa / 32) ((pa + n - 1) / 32 - pa / 32 + 1)
theorem steady_hbmReadN (s : State) (pa n : Nat) : steady (hbmReadN s pa n).2.2 = steady s := by
  unfold hbmReadN
  exact steady_hbmRead ..
theorem steady_hbmPutN (s : State) (q : Option Nat) (pa n x : Nat) : steady (hbmPutN s q pa n x) = steady s := by
  unfold hbmPutN hbmPut
  exact steady_hbmWrite ..

theorem steady_killBlock (s : State) (blk : Nat) : steady (killBlock s blk) = steady s := rfl
theorem steady_killFrame (s : State) (frame : Nat) : steady (killFrame s frame) = steady s := by
  unfold killFrame
  exact steady_foldl (fun _ _ => steady_killBlock ..) _ _
theorem steady_dropResv (s : State) (blk : Nat) : steady (dropResv s blk) = steady s := by
  unfold dropResv
  exact steady_setChan s _ fun _ => rfl
theorem steady_reviveBlock (s : State) (blk : Nat) : steady (reviveBlock s blk) = steady s := by
  unfold reviveBlock
  exact steady_dropResv s blk
theorem steady_zeroFrame (s : State) (frame : Nat) : steady (zeroFrame s frame) = steady s := by
  unfold zeroFrame
  exact steady_foldl (fun _ _ => steady_reviveBlock ..) _ _
theorem steady_poisonFrame (s : State) (frame : Nat) : steady (poisonFrame s frame) = steady s := by
  unfold poisonFrame
  exact (steady_setHbm ..).trans (steady_zeroFrame ..)

theorem steady_killFar (s : State) (frame : Nat) : steady (killFar s frame) = steady s := by
  unfold killFar
  split <;> rfl

theorem steady_poolTake {s t : State} {d f : Nat} (h : poolTake s d = some (f, t)) : steady t = steady s := by
  unfold poolTake at h
  dsimp only at h
  split at h
  · cases h
  · simp only [Option.some.injEq] at h
    obtain ⟨-, rfl⟩ := h
    exact steady_ite ((steady_irq ..).trans ((steady_devSet ..).trans (steady_hbmReadN ..)))
      ((steady_devSet ..).trans (steady_hbmReadN ..))
theorem steady_poolAlloc {s t : State} {d f : Nat} (h : poolAlloc s d = some (f, t)) : steady t = steady s := by
  unfold poolAlloc at h
  split at h
  · next r hr => exact steady_poolTake (hr.trans h)
  · split at h
    · next r hr => exact steady_poolTake (hr.trans h)
    · split at h
      · next r hr => exact steady_poolTake (hr.trans h)
      · exact steady_poolTake h

theorem steady_poolAdd (s : State) (d f : Nat) : steady (poolAdd s d f) = steady s := by
  unfold poolAdd
  exact steady_ite ((steady_devSet ..).trans ((steady_hbmPutN ..).trans (steady_killFrame ..))) (steady_irq ..)
theorem steady_farRelease (s : State) (d f : Nat) : steady (farRelease s d f) = steady s := by
  have hput (a : Nat) (w : Word) (pa : Nat) : steady (devSet (hbmPutN (killFar s f) none pa 4 f) a w) = steady s :=
    (steady_devSet ..).trans ((steady_hbmPutN ..).trans (steady_killFar ..))
  unfold farRelease
  exact steady_ite ((steady_irq ..).trans (hput ..)) (hput ..)
theorem steady_slotMark (s : State) (d i : Nat) (free : Bool) : steady (slotMark s d i free) = steady s := by
  unfold slotMark
  exact (steady_devSet ..).trans ((steady_hbmPutN ..).trans (steady_hbmReadN ..))
theorem steady_slotDrop (s : State) (pa : Nat) : steady (slotDrop s pa) = steady s := by
  unfold slotDrop
  dsimp only
  split
  · exact steady_slotMark ..
  · rfl
theorem steady_freeMoved (s : State) (m : Moved) : steady (freeMoved s m) = steady s := by
  unfold freeMoved
  exact steady_ite (steady_poolAdd ..) (steady_ite (steady_farRelease ..) (steady_slotDrop ..))
theorem steady_giveBack (s : State) (asid : Nat) (m : Moved) : steady (giveBack s asid m) = steady s := by
  unfold giveBack
  split
  · exact steady_freeMoved ..
  · rfl
theorem steady_tookNew (s : State) (asid : Nat) (m : Moved) : steady (tookNew s asid m) = steady s := by
  unfold tookNew
  split <;> rfl

theorem steady_expand (s : State) (e : Word) (frame : Nat) : steady (expand s e frame) = steady s := by
  have hdrop (m : Memory) (live poison : SMap Unit) :
      let t := killFrame ((List.range 16).foldl (fun s i => dropResv s (frame * 16 + i)) s) frame
      steady { t with hbm := { t.hbm with mem := m, live := live, poison := poison } } = steady s :=
    (steady_setHbm ..).trans ((steady_killFrame ..).trans (steady_foldl (fun _ _ => steady_dropResv ..) _ _))
  unfold expand
  dsimp only
  split
  · exact steady_ite (hdrop ..) (steady_poisonFrame ..)
  · exact steady_poisonFrame ..
theorem steady_fillPage (s : State) (asid : Nat) (e : Word) (f : Nat) : steady (fillPage s asid e f) = steady s := by
  unfold fillPage
  exact steady_ite (steady_zeroFrame s f) ((steady_giveBack ..).trans (steady_expand ..))

/-! ### Walks (R18, R21, R29) -/

theorem steady_pmem {s t : State} {pa n e : Nat} {p : Bool} (h : pmem s pa n = some (e, p, t)) : steady t = steady s := by
  unfold pmem at h
  by_cases hpa : isHbm pa = true
  · rw [if_pos hpa] at h
    have hread := steady_hbmReadN s pa n
    rw [Option.some.inj h] at hread
    exact hread
  · rw [if_neg hpa] at h
    obtain ⟨x, -, hx⟩ := Option.map_eq_some_iff.1 h
    exact congrArg (fun r => steady r.2.2) hx.symm

theorem steady_walkFrom (s : State) (die asid va lvl t : Nat) : steady (walkFrom s die asid va lvl t).2 = steady s := by
  induction lvl generalizing s t with
  | zero =>
    unfold walkFrom
    dsimp only
    split
    · rfl
    · next h => exact steady_pmem h
  | succ lvl ih =>
    unfold walkFrom
    dsimp only
    split
    · exact ih ..
    · split
      · rfl
      · next u h =>
        have h : steady u = steady s := steady_pmem h
        exact steady_ite_snd h (steady_ite_snd ((ih ..).trans h) h)

/-- The definition is unfolded as a function, without its arguments, so that the kernel does not evaluate the walk. -/
theorem steady_walk (s : State) (die asid va : Nat) : steady (walk s die asid va).2 = steady s := by
  simp only [show @walk = delta% @walk from rfl]
  split
  · rfl
  · next h => exact steady_ite_snd (steady_pmem h) ((steady_walkFrom ..).trans (steady_pmem h))

theorem steady_tlbPut (s : State) (ag : Agent) (t : TlbE) : steady (tlbPut s ag t) = steady s := by
  unfold tlbPut
  exact steady_ite rfl rfl
theorem steady_ptePut (s : State) (q : Option Nat) (pte : Nat) (e : Word) : steady (ptePut s q pte e) = steady s := by
  unfold ptePut
  exact steady_homeWrite ..
theorem steady_deadWrite (s : State) (e : Word) : steady (deadWrite s e) = steady s := by
  unfold deadWrite
  exact steady_foldl (fun _ _ => steady_ite rfl (steady_reviveBlock ..)) _ _

theorem steady_firstTouch (s : State) (ag : Agent) (asid va : Nat) (e : Word) (pte : Nat) (wr : Bool) :
    steady (firstTouch s ag asid va e pte wr).2 = steady s := by
  unfold firstTouch
  dsimp only
  split
  · exact steady_ptePut ..
  · next h =>
    exact (steady_tlbPut ..).trans ((steady_ptePut ..).trans
      ((steady_fillPage ..).trans ((steady_tookNew ..).trans (steady_poolAlloc h))))

theorem steady_walkFor (s : State) (ag : Agent) (asid va : Nat) (acc : Acc4) : steady (walkFor s ag asid va acc).2 = steady s := by
  unfold walkFor
  refine steady_ite_snd rfl ?_
  have hwalk := steady_walk s (Agent_die ag) asid va
  split
  · next h => rwa [h] at hwalk
  · next u h =>
    rw [h] at hwalk
    have hwalk : steady u = steady s := hwalk
    split
    · exact hwalk
    · refine steady_ite_snd hwalk ?_
      split
      · exact hwalk
      · have hdead (c : Bool) (e : Word) : steady (if c then deadWrite u e else u) = steady s :=
          steady_ite ((steady_deadWrite ..).trans hwalk) hwalk
        exact steady_ite_snd ((steady_firstTouch ..).trans hwalk)
          ((steady_tlbPut ..).trans (steady_ite (hdead ..) ((steady_ptePut ..).trans (hdead ..))))

theorem steady_translate (s : State) (ag : Agent) (asid : Nat) (va : Word) (acc : Acc4) :
    steady (translate s ag asid va acc).2 = steady s := by
  unfold translate
  refine steady_ite_snd rfl ?_
  split
  · split
    · rfl
    · exact steady_ite_snd (steady_walkFor ..) rfl
  · exact steady_walkFor ..

/-! ### A core's reads and writes (R139, R141) -/

theorem steady_homeBytes (s : State) (pa n : Nat) : steady (homeBytes s pa n).2.2 = steady s := by
  unfold homeBytes
  refine steady_ite_snd_snd (steady_hbmRead ..) ?_
  split <;> rfl

@[simp] theorem steady_l1Fill (s : State) (core ln : Nat) (l : Line) : steady (l1Fill s core ln l) = steady s := by
  unfold l1Fill
  refine steady_ite rfl ?_
  dsimp only
  split
  · exact steady_l1WriteBack ..
  · rfl
@[simp] theorem steady_clcMark (s : State) (core ln : Nat) : steady (clcMark s core ln) = steady s := by
  unfold clcMark
  split
  · exact steady_ite rfl rfl
  · rfl

theorem steady_l1Ensure (s : State) (core ln : Nat) (noClc : Bool) : steady (l1Ensure s core ln noClc).2 = steady s := by
  have hfill (t : State) (h : steady t = steady s) : steady (if noClc && !SMap.has (clcOf t (core / 8)).lines ln then
      let (bs, ps, u) := homeRead t (ln * 128) 128
      let l := { mkLine bs ps (gensL1 (l1Of u core)) with noClc := true }
      (l, l1Fill u core ln l)
    else
      let (c, u) := clcEnsure t (core / 8) ln
      let l : Line := { data := c.data, psn := c.psn, gens := gensL1 (l1Of u core), noClc := noClc }
      (l, l1Fill (clcMark u core ln) core ln l)).2 = steady s :=
    steady_ite_snd ((steady_l1Fill ..).trans ((steady_homeRead ..).trans h))
      ((steady_l1Fill ..).trans ((steady_clcMark ..).trans ((steady_clcEnsure ..).trans h)))
  unfold l1Ensure
  split
  · exact steady_ite_snd rfl (hfill _ (steady_l1WriteBack ..))
  · exact hfill s rfl

theorem steady_coreReadPiece (s : State) (core pa cp n : Nat) : steady (coreReadPiece s core pa cp n).2.2 = steady s := by
  unfold coreReadPiece
  exact steady_ite_snd_snd (steady_homeBytes ..)
    (steady_ite_snd_snd ((steady_clcMark ..).trans (steady_clcEnsure ..)) (steady_l1Ensure ..))
theorem steady_coreRead (s : State) (core pa cp n : Nat) : steady (coreRead s core pa cp n).2.2 = steady s := by
  unfold coreRead
  refine steady_ite_snd_snd rfl (steady_foldl_snd_snd ?_ _ _)
  exact fun (_, _, t) (a, _, k) => steady_coreReadPiece t core a cp k
theorem steady_coreWritePiece (s : State) (c core : Nat) (q : Option Nat) (pa cp : Nat) (bs : List (Option Byte)) :
    steady (coreWritePiece s c core q pa cp bs) = steady s := by
  unfold coreWritePiece
  exact steady_ite (steady_homeWrite ..) (steady_ite (steady_clcPut ..) ((steady_setL1 ..).trans (steady_l1Ensure ..)))

/-! ### Acquires (R139, R140) -/

theorem steady_drainInvals (s : State) (core : Nat) : steady (drainInvals s core) = steady s := by
  unfold drainInvals
  refine (steady_setL1q ..).trans (steady_foldl ?_ _ _)
  exact fun t ln => (steady_setClc ..).trans ((steady_clcWriteBack ..).trans ((steady_setL1 ..).trans (steady_l1WriteBack ..)))
theorem steady_l1Wrap (s : State) (core : Nat) : steady (l1Wrap s core) = steady s := by
  unfold l1Wrap
  exact (steady_setL1d ..).trans (steady_l1Flush ..)
theorem steady_clcWrap (s : State) (cl : Nat) : steady (clcWrap s cl) = steady s := by
  unfold clcWrap
  exact (steady_setPlain ..).trans (steady_foldl (fun _ _ => steady_clcWriteBack ..) _ _)
/-- The part of an acquire that makes lines of the core's L1D stale, and the part that makes lines of its CLC stale. -/
def staleL1 (s : State) (core scope : Nat) : State :=
  if scope ≥ 2 && scope < 7 then
    let s := if (l1Of s core).gen.toList.getD scope 0 == 15 then l1Wrap s core else s
    { s with l1d := SMap.modify s.l1d core {} fun c => genUp c scope }
  else s
def staleClc (s : State) (core scope : Nat) : State :=
  if scope ≥ 3 && scope < 7 then
    let s := if (clcOf s (core / 8)).gen.toList.getD scope 0 == 15 then clcWrap s (core / 8) else s
    { s with clc := SMap.modify s.clc (core / 8) {} fun c => genUp c scope }
  else s
theorem acquireAt_eq (s : State) (core scope : Nat) :
    acquireAt s core scope = staleClc (staleL1 (drainInvals s core) core scope) core scope := rfl

theorem steady_staleL1 (s : State) (core scope : Nat) : steady (staleL1 s core scope) = steady s := by
  unfold staleL1
  exact steady_ite ((steady_setL1d ..).trans (steady_ite (steady_l1Wrap ..) rfl)) rfl
theorem steady_staleClc (s : State) (core scope : Nat) : steady (staleClc s core scope) = steady s := by
  unfold staleClc
  exact steady_ite ((steady_setPlain ..).trans (steady_ite (steady_clcWrap ..) rfl)) rfl
theorem steady_acquireAt (s : State) (core scope : Nat) : steady (acquireAt s core scope) = steady s := by
  rw [acquireAt_eq, steady_staleClc, steady_staleL1, steady_drainInvals]

end Sys2Proof.Machine
end

section
/-! PROOF. Reads that an instruction awaits leave alone what every access to memory does (O36): the pieces of loads and stores on the
way, performed first, the requests to other packages, and the bytes themselves (R20, R129 to R131, R177, R280). -/
namespace Sys2Proof.Machine
open Sys2Proof.Claims

theorem steady_snd {α : Type} {z : Steady} {p q : α × State} (h : steady p.2 = z) (e : p = q) : steady q.2 = z := e ▸ h

/-! ### Tokens, requests to other packages, device registers -/

theorem steady_meterFor (s : State) (core owner cls key tokens : Nat) :
    steady (meterFor s core owner cls key tokens).2 = steady s := by
  unfold meterFor
  exact steady_ite_snd rfl (steady_ite_snd rfl rfl)

theorem steady_setGw (s : State) (d : Nat) (f : Gw → Gw) : steady (setGw s d f) = steady s := rfl
theorem steady_gwEmit (s : State) (d : Nat) (k : Packet) : steady (gwEmit s d k) = steady s := rfl
theorem steady_gwSend (s : State) (d : Nat) (k : Packet) : steady (gwSend s d k).2 = steady s := by
  unfold gwSend
  exact steady_ite (steady_setGw ..) (steady_gwEmit ..)

theorem steady_popFar (s : State) (d : Nat) : steady (popFar s d).2 = steady s := by
  unfold popFar
  exact steady_ite_snd rfl ((steady_devSet ..).trans (steady_hbmReadN ..))
/-- Of the device registers only `frpop` changes anything when it is read (R475). -/
theorem steady_devRead (s : State) (pa : Nat) : steady (devRead s pa).2 = steady s := by
  unfold devRead
  iterate 10 refine steady_ite_snd rfl ?_
  refine steady_ite_snd (steady_ite_snd (steady_popFar ..) (steady_ite_snd rfl rfl)) ?_
  iterate 6 refine steady_ite_snd rfl ?_
  rfl

/-! ### Pieces of loads and stores performed (R131, R134) -/

theorem steady_dropGrants (s : State) (owner lo n : Nat) : steady (dropGrants s owner lo n) = steady s := rfl
theorem steady_updFlight (s : State) (c k : Nat) (f : Flight → Flight) : steady (updFlight s c k f) = steady s := by
  unfold updFlight
  exact steady_updCtx s c fun _ => rfl
theorem steady_putPart (s : State) (c k i : Nat) (b : List Byte) (psn : Bool) : steady (putPart s c k i b psn) = steady s := by
  unfold putPart
  dsimp only
  split
  · exact steady_ite ((steady_dropGrants ..).trans (steady_updFlight ..)) (steady_updFlight ..)
  · exact steady_updFlight ..
theorem steady_partMeter (s : State) (c : Nat) (f : Flight) (i : Nat) (p : LoadPart) :
    steady (partMeter s c f i p).2 = steady s := by
  unfold partMeter
  exact steady_meterFor ..

theorem steady_samplePart (s : State) (c k i : Nat) : steady (samplePart s c k i) = steady s := by
  unfold samplePart
  split
  · rfl
  · next f _ =>
    split
    · rfl
    · next p _ =>
      refine steady_ite rfl ?_
      have hmeter := steady_partMeter s c f i p
      split
      · split
        · next h => exact steady_snd hmeter h
        · next h => exact (steady_updFlight ..).trans ((steady_gwSend ..).trans (steady_snd hmeter h))
      · refine steady_ite rfl (steady_ite (steady_ite rfl (steady_putPart ..)) ?_)
        split
        · next h => exact steady_snd hmeter h
        · next h => exact (steady_putPart ..).trans ((steady_coreReadPiece ..).trans (steady_snd hmeter h))

theorem steady_acqReady (s : State) (c k : Nat) (f : Flight) : steady (acqReady s c k f).2 = steady s := by
  unfold acqReady
  refine steady_foldl_snd ?_ _ _
  rintro ⟨ok, t⟩ i
  dsimp only
  split
  · rfl
  · exact steady_ite_snd rfl (steady_ite_snd rfl (steady_ite_snd rfl (steady_partMeter ..)))

theorem steady_sampleAcq (s : State) (c k : Nat) : steady (sampleAcq s c k) = steady s := by
  unfold sampleAcq
  split
  · rfl
  · next f _ =>
    split
    · rfl
    · split
      · next h => exact steady_snd (steady_acqReady s c k f) h
      · next h =>
        refine (steady_updCtx _ _ (by exact fun _ => rfl)).trans ((steady_updFlight ..).trans
          ((steady_foldl ?_ _ _).trans ((steady_acquireAt ..).trans (steady_snd (steady_acqReady s c k f) h))))
        intro t i
        dsimp only
        split
        · rfl
        · exact steady_ite rfl (steady_ite (steady_putPart ..) ((steady_putPart ..).trans (steady_coreReadPiece ..)))

theorem steady_sampleAll (s : State) (c : Nat) : steady (sampleAll s c) = steady s := by
  unfold sampleAll
  exact steady_foldl (fun _ _ => (steady_sampleAcq ..).trans (steady_foldl (fun _ _ => steady_samplePart ..) _ _)) _ _

theorem steady_performPart (s : State) (c : Nat) (e : StorePart) : steady (performPart s c e) = steady s := by
  unfold performPart storeThrough
  refine (steady_ite rfl (steady_foldl ?_ _ _)).trans (steady_coreWritePiece s c (coreOf c) (some e.queue) e.pa e.cp e.bytes)
  exact fun t x => steady_ite ((steady_clcWriteBack ..).trans (steady_l1WriteBack ..)) (steady_l1WriteBack ..)
theorem steady_drainAll (s : State) (c : Nat) : steady (drainAll s c) = steady s := by
  unfold drainAll
  exact (steady_foldl (fun _ _ => steady_performPart ..) _ _).trans (steady_updCtx s c fun _ => rfl)

/-! ### Actions that leave alone what accesses to memory do -/

/-- An action that keeps the steady part of a state at `z`, also where it stops. -/
def Stays {α : Type} (z : Steady) (m : M α) : Prop := ∀ s, steady s = z → steady (m s).2 = z

section
variable {α β : Type} {z : Steady}

theorem stays_pure (a : α) : Stays z (pure a : M α) := fun _ h => h
theorem stays_throw (e : Stop) : Stays z (throw e : M α) := fun _ h => h
theorem stays_set {t : State} (h : steady t = z) : Stays z (set t : M PUnit) := fun _ _ => h
theorem stays_modify {f : State → State} (hf : ∀ s, steady (f s) = steady s) : Stays z (modify f : M PUnit) :=
  fun s h => (hf s).trans h
theorem stays_bind {m : M α} {f : α → M β} (hm : Stays z m) (hf : ∀ a, Stays z (f a)) : Stays z (m >>= f) := by
  intro s h
  have hs := hm s h
  cases hr : m s with
  | mk r t =>
    rw [hr] at hs
    cases r with
    | ok a => rw [M_bind_ok hr]; exact hf a t hs
    | error e => rw [M_bind_error hr]; exact hs
theorem stays_get_bind {f : State → M β} (hf : ∀ s, steady s = z → Stays z (f s)) : Stays z (get >>= f) :=
  fun s h => hf s h s h
theorem stays_ite {c : Prop} [Decidable c] {m n : M α} (hm : Stays z m) (hn : Stays z n) : Stays z (if c then m else n) := by
  split
  · exact hm
  · exact hn
theorem stays_blockIf (b : Bool) : Stays z (blockIf b) := stays_ite (stays_throw _) (stays_pure _)
theorem stays_trapIf (b : Bool) (sub : Nat) (va : Word) (ak : Nat) : Stays z (trapIf b sub va ak) :=
  stays_ite (stays_throw _) (stays_pure _)
theorem stays_getC : Stays z getC := fun _ h => h

end

/-! ### Reads that an instruction awaits (R20, R178, R356) -/

section
variable {z : Steady}

theorem stays_meter (key tokens : Nat) : Stays z (meter key tokens) :=
  stays_get_bind fun _ h => stays_bind (stays_set ((steady_meterFor ..).trans h)) fun _ => stays_blockIf _

theorem stays_xlat (va : Word) (acc : Acc4) : Stays z (xlat va acc) := by
  unfold xlat xlatAs
  refine stays_get_bind fun s h => stays_bind (stays_set ((steady_translate ..).trans h)) fun _ => ?_
  split
  · exact stays_pure _
  · exact stays_throw _
  · exact stays_throw _

theorem stays_pieces (va : Word) (n : Nat) (acc : Acc4) (off k : Nat) : Stays z (pieces va n acc off k) := by
  induction k generalizing va n off with
  | zero =>
    unfold pieces
    exact stays_pure _
  | succ k ih =>
    unfold pieces
    exact stays_ite (stays_pure _) (stays_bind (stays_xlat _ _) fun _ => stays_get_bind fun _ _ =>
      stays_bind (stays_trapIf _ _ _ _) fun _ => stays_bind (ih _ _ _) fun _ => stays_pure _)

theorem stays_settleBytes (pkg pa n : Nat) : Stays z (settleBytes pkg pa n) := by
  unfold settleBytes
  refine stays_bind (stays_modify fun s => ?_) fun _ => stays_bind stays_getC fun _ => stays_blockIf _
  have hload : steady (if (cc s).flights.any fun f => f.parts.any fun p => p.got.isNone && sharesByte pkg pa n p
    then sampleAll s s.cur else s) = steady s := steady_ite (steady_sampleAll ..) rfl
  exact steady_ite ((steady_drainAll ..).trans hload) hload

theorem stays_remoteAsk (pkg addr len kind arg : Nat) (data : List Byte) (va : Word) :
    Stays z (remoteAsk pkg addr len kind arg data va) := by
  unfold remoteAsk
  refine stays_get_bind fun s h => ?_
  dsimp only
  split
  · split
    · exact stays_throw _
    · refine stays_ite (stays_bind (stays_modify fun s => ?_) fun _ => stays_bind (stays_throw _) fun _ => stays_pure _)
        (stays_pure _)
      exact steady_updCtx s s.cur fun _ => rfl
  · refine stays_bind (stays_set ?_) fun _ => stays_throw _
    exact (steady_updCtx _ _ (by exact fun _ => rfl)).trans ((steady_gwSend ..).trans h)

theorem stays_remoteRead (pkg : Nat) (va : Word) (l : List (Nat × Nat × Nat)) : Stays z (remoteRead pkg va l) := by
  induction l with
  | nil =>
    unfold remoteRead
    exact stays_pure _
  | cons x l ih =>
    unfold remoteRead
    exact stays_bind (stays_remoteAsk _ _ _ _ _ _ _) fun _ => stays_bind ih fun _ => stays_pure _

theorem stays_readNow (p : Piece) : Stays z (readNow p) := by
  unfold readNow
  exact stays_bind (stays_settleBytes _ _ _) fun _ => stays_get_bind fun _ h =>
    stays_ite (stays_bind (stays_meter _ _) fun _ => stays_remoteRead _ _ _)
      (stays_ite (stays_pure _)
        (stays_ite (stays_bind (stays_blockIf _) fun _ => stays_bind (stays_set ((steady_devRead ..).trans h)) fun _ => stays_pure _)
          (stays_bind (stays_meter _ _) fun _ => stays_get_bind fun _ h =>
            stays_bind (stays_set ((steady_coreRead ..).trans h)) fun _ => stays_pure _)))

theorem stays_readAllNow (ps : List Piece) : Stays z (readAllNow ps) := by
  induction ps with
  | nil =>
    unfold readAllNow
    exact stays_pure _
  | cons p ps ih =>
    unfold readAllNow
    exact stays_bind (stays_readNow p) fun _ => stays_bind ih fun _ => stays_pure _

theorem stays_loadClean (va : Word) (n : Nat) : Stays z (loadClean va n) := by
  unfold loadClean
  exact stays_bind (stays_pieces _ _ _ _ _) fun _ => stays_bind (stays_readAllNow _) fun _ =>
    stays_bind (stays_trapIf _ _ _ _) fun _ => stays_pure _

end

/-- A read that an instruction awaits changes no register. -/
theorem rdS_loadClean {s t : State} {va : Word} {n : Nat} {bs : List Byte} (h : loadClean va n s = (.ok bs, t)) (r : SReg) :
    rdS (cc t) r = rdS (cc s) r := by
  have hst := steady_snd (stays_loadClean va n s rfl) h
  have hcur : t.cur = s.cur := congrArg Steady.cur hst
  have hctx : stillOf (ctxOf t s.cur) = stillOf (ctxOf s s.cur) := congrFun (congrArg Steady.ctx hst) s.cur
  rw [← rdS_stillOf (cc t), ← rdS_stillOf (cc s)]
  unfold cc
  rw [hcur, hctx]

end Sys2Proof.Machine
end

section
/-! PROOF. Bindings and vector accesses (O36): the descriptor that a binding takes, the pieces of a load from HBM, one a sector, and the
value that they land with, and the bytes that a mask leaves (R72, R91, R131, R342, R350, R354). -/
namespace Sys2Proof.Machine
open Sys2Proof.Claims

/-! ### Descriptors (R7, R67, R342) -/

theorem descMask_eq : descMask = 2 ^ 64 * (2 ^ 448 - 1) + (2 ^ 56 - 1) := by
  have hsplit : (2 : Nat) ^ 512 = 2 ^ 64 * 2 ^ 448 := Nat.pow_add 2 64 448
  have hpos : 0 < (2 : Nat) ^ 448 := Nat.two_pow_pos 448
  unfold descMask fieldsBut
  rw [hsplit]
  simp only [List.map_cons, List.map_nil, List.foldl_cons, List.foldl_nil]
  omega

theorem testBit_descMask {i : Nat} (hi : i < 512) (hout : i < 56 ∨ 64 ≤ i) : descMask.testBit i = true := by
  rw [descMask_eq, Nat.testBit_two_pow_mul_add _ (by decide)]
  split
  · rw [Nat.testBit_two_pow_sub_one]
    simp
    omega
  · rw [Nat.testBit_two_pow_sub_one]
    simp
    omega

/-- A descriptor whose reserved bits are 0 acts as it stands (R7). -/
theorem actsAs_whole (s : State) {w : Nat} (hw : w < 2 ^ 512) (hres : w / 2 ^ 56 % 2 ^ 8 = 0) :
    actsAs s descMask w = (w, s) := by
  have hmask : w &&& descMask = w := by
    refine Nat.eq_of_testBit_eq fun i => ?_
    rw [Nat.testBit_and]
    cases hbit : w.testBit i with
    | false => rfl
    | true =>
      have hi : i < 512 := by
        by_contra hge
        rw [Nat.testBit_lt_two_pow (hw.trans_le (Nat.pow_le_pow_right (by omega) (by omega)))] at hbit
        cases hbit
      have hout : i < 56 ∨ 64 ≤ i := by
        by_contra hin
        have hzero : (w / 2 ^ 56 % 2 ^ 8).testBit (i - 56) = true := by
          rw [Nat.testBit_mod_two_pow, Nat.testBit_div_two_pow, show i - 56 + 56 = i by omega, hbit]
          simp
          omega
        rw [hres] at hzero
        simp at hzero
      rw [testBit_descMask hi hout]
      rfl
  unfold actsAs
  rw [if_pos hmask]

theorem actsAs_read (s : State) {bs : List Byte} (hlen : bs.length = 64) (hres : ofLe bs / 2 ^ 56 % 2 ^ 8 = 0) :
    actsAs s descMask (ofLe bs) = (ofLe bs, s) :=
  have hlt : ofLe bs < (2 ^ 8) ^ 64 := hlen ▸ ofLe_lt bs
  actsAs_whole s (by rwa [← Nat.pow_mul] at hlt) hres

section
variable {s s1 : State} {f : BitVec 5} {d v : SReg} {bs : List Byte}
  (hread : loadClean (rdS (cc s) d &&& ~~~0x3F#64) 64 s = (.ok bs, s1)) (hlen : bs.length = 64)
  (hres : ofLe bs / 2 ^ 56 % 2 ^ 8 = 0)
include hread hlen hres

/-- A well-formed descriptor becomes the binding after the bundle (R342). -/
theorem exec_tbind (hgood : dBad (BitVec.ofNat 512 (ofLe bs)) = none) : exec (.tbind f d v) s = .next (upd s1 fun y => { y with
    late := y.late ++ [.bind f { desc := BitVec.ofNat 512 (ofLe bs), va := rdS (cc s) d &&& ~~~0x3F#64
                                 ver := (rdS (cc s) v).setWidth 16 }] }) := by
  show run slotL _ s = _
  apply run_ok
  rw [M_bind_ok (getC_apply s), M_bind_ok hread, M_bind_ok (get_apply s1)]
  rw [actsAs_read s1 hlen hres]
  dsimp only
  rw [M_bind_ok (set_apply s1 s1), hgood, ← rdS_loadClean hread v]
  rfl

theorem exec_tbind_bad {sub : Nat} (hbad : dBad (BitVec.ofNat 512 (ofLe bs)) = some sub) (hall : allHere (cc s1) = true) :
    exec (.tbind f d v) s = .next (takeTrap s1 s1.cur sub 0 0 (some 4)) := by
  show run slotL _ s = _
  refine run_trap ?_ hall
  rw [M_bind_ok (getC_apply s), M_bind_ok hread, M_bind_ok (get_apply s1)]
  rw [actsAs_read s1 hlen hres]
  dsimp only
  rw [M_bind_ok (set_apply s1 s1), hbad]
  rfl

end

/-- A binding that takes effect is that of its number alone (R72). -/
theorem applyLate_bind (y : Ctx) (f : BitVec 5) (b : Binding) (k : Nat) :
    (applyLate y (.bind f b)).b.toList.getD k none = if k = f.toNat then some b else y.b.toList.getD k none := by
  have hf := f.isLt
  show (y.b.set f.toNat (some b) f.isLt).toList.getD k none = _
  rw [Vector.toList_set, List.getD_eq_getElem?_getD, List.getElem?_set]
  by_cases hk : k = f.toNat
  · subst hk
    simp [hf]
  · rw [if_neg (Ne.symm hk), if_neg hk, List.getD_eq_getElem?_getD]

/-- `titin` (R91, R350). -/
theorem exec_titin {s : State} {f : BitVec 5} {i : SReg} {b : Binding} (hb : (cc s).b.toList.getD f.toNat none = some b)
    (hcls : dClass b.desc ≠ 2) : exec (.titin f i) s = .next (upd s fun y =>
      { y with itin := if i = 0 then none else some (b, (rdS (cc s) i).toNat / 16 * 16, 65536) }) := by
  show run slotL _ s = _
  apply run_ok
  rw [M_bind_ok (bindingM_some hb), decide_eq_false hcls, M_bind_ok (trapIf_false _ _ _ s), modC_apply]
  by_cases hi : i = 0
  · subst hi
    rfl
  · have hne : (i == 0) = false := beq_eq_false_iff_ne.2 hi
    simp only [hne, if_neg hi]
    rfl

/-! ### The sectors of an access (R131) -/

/-- The start of sector `i` of an access from `pa`. -/
def sectorFrom (pa i : Nat) : Nat := if i = 0 then pa else (pa / 32 + i) * 32
/-- The bytes of sector `i` of an access of `n` bytes from `pa`. -/
def sectorLen (pa n i : Nat) : Nat := min (pa + n) ((pa / 32 + i + 1) * 32) - sectorFrom pa i

theorem sectorPieces_eq {pa n : Nat} (hn : 0 < n) : sectorPieces pa n =
    (List.range ((pa + n - 1) / 32 - pa / 32 + 1)).map fun i => (sectorFrom pa i, sectorFrom pa i - pa, sectorLen pa n i) := by
  unfold sectorPieces cutsAt
  rw [if_neg (by omega)]
  rfl

/-- Every sector lies among the bytes of the access, and in one sector. -/
theorem of_mem_sectorPieces {pa n : Nat} (hn : 0 < n) {x : Nat × Nat × Nat} (hx : x ∈ sectorPieces pa n) :
    x.1 = pa + x.2.1 ∧ x.1 < pa + n ∧ x.1 % 32 + x.2.2 ≤ 32 := by
  rw [sectorPieces_eq hn] at hx
  obtain ⟨i, hi, rfl⟩ := List.mem_map.1 hx
  rw [List.mem_range] at hi
  dsimp only
  unfold sectorLen sectorFrom
  split <;> omega

/-- The sectors of an access cover its bytes once. -/
theorem sum_sectorLen {pa n : Nat} (hn : 0 < n) (c : Nat) (hc : c ≤ (pa + n - 1) / 32 - pa / 32) :
    ((List.range (c + 1)).map (sectorLen pa n)).sum = min (pa + n) ((pa / 32 + c + 1) * 32) - pa := by
  induction c with
  | zero => simp [sectorLen, sectorFrom]
  | succ c ih =>
    rw [List.range_succ, List.map_append, List.sum_append, ih (by omega), List.map_singleton, List.sum_singleton, sectorLen,
      sectorFrom, if_neg (Nat.succ_ne_zero c)]
    omega

theorem sum_sectorPieces {pa n : Nat} (hn : 0 < n) : ((sectorPieces pa n).map fun x => x.2.2).sum = n := by
  rw [sectorPieces_eq hn, List.map_map]
  exact (sum_sectorLen hn _ (Nat.le_refl _)).trans (by omega)

/-! ### A load of HBM put in flight (R131, R213, R354) -/

/-- The piece of a load from HBM that a sector of it becomes. -/
def sectorPart (s : State) (va : Word) (cp : Nat) (x : Nat × Nat × Nat) : LoadPart :=
  { off := x.2.1, va := va + BitVec.ofNat 64 x.2.1, pkg := s.pkg, pa := x.1, cp := cp, len := x.2.2 }

theorem loadParts_hbm {s : State} {va : Word} {n pa cp : Nat} (hn : 0 < n) (hhbm : pa + n ≤ 0x00C000000000) :
    loadParts s (wholePiece s va n pa cp) = (sectorPieces pa n).map (sectorPart s va cp) := by
  unfold loadParts wholePiece
  simp only [bne_self_eq_false, Bool.false_eq_true, ↓reduceIte]
  refine List.map_congr_left fun x hx => ?_
  obtain ⟨-, hlt, -⟩ := of_mem_sectorPieces hn hx
  obtain ⟨-, -, hmbox, -⟩ := map_range (hlt.trans_le hhbm)
  rw [hmbox, if_neg Bool.false_ne_true, Nat.zero_add]
  rfl

/-- An access within one page, to HBM of the context's package, is one piece. -/
theorem pieces_onePage {s : State} {va : Word} {n pa cp k : Nat} {acc : Acc4} (hmap : mapped s va acc pa cp) (hn : 0 < n)
    (hpage : va.toNat % 65536 + n ≤ 65536) (hhbm : pa + n ≤ 0x00C000000000) :
    pieces va n acc 0 (k + 1) s = (.ok [wholePiece s va n pa cp], s) := by
  obtain ⟨hin, -, -, hdev⟩ := map_range (pa := pa) (by omega)
  have hphys : physOk s pa n = true := by simp [physOk, hin, hhbm]
  have hlen : min n (65536 - va.toNat % 65536) = n := by omega
  unfold pieces
  rw [if_neg (by omega), M_bind_ok (xlat_ok hmap)]
  dsimp only
  rw [hlen, M_bind_ok (get_apply s), hdev, if_neg Bool.false_ne_true, hphys, Bool.not_true, Bool.and_false,
    M_bind_ok (trapIf_false _ _ _ s), Nat.sub_self, M_bind_ok (pieces_none _ _ _ _ s)]
  rfl

theorem startParts_one {s : State} {p : Piece} (h : isDev p.pa = false) : startParts [p] s = (.ok (loadParts s p), s) := by
  unfold startParts
  rw [M_bind_ok (get_apply s), h, Bool.and_false, if_neg Bool.false_ne_true]
  show ((.ok (loadParts s p ++ []), s) : Except Stop (List LoadPart) × State) = _
  rw [List.append_nil]

theorem loadOut_here {s : State} {ps : List Piece} {d : Dst} {ext : Option Width} {ak b : Nat} {acq : Option Nat}
    {l : List LoadPart} (hl : startParts ps s = (.ok l, s)) (htags : tagsFull s (coreOf s.cur) l = false) :
    loadOut ps d ext ak b acq s = (.ok (), upd (trOverlap s d) fun x => flyLoad x d l ext ak b acq) := by
  unfold loadOut
  rw [M_bind_ok hl, M_bind_ok (get_apply s), htags, M_bind_ok (blockIf_false s), modify_apply]

/-- A load put in flight: what the context and the trace become. -/
def inFlight (s : State) (d : Dst) (l : List LoadPart) : State := upd (trOverlap s d) fun x => flyLoad x d l none 1 6 none

section
variable (s : State) (x : Ctx) (g : GReg) (l : List LoadPart)

theorem flights_inFlight : (cc (inFlight s (dstG x g) l)).flights =
    (cc s).flights ++ [{ dst := dstG x g, pos := (cc s).pos, bound := 7, parts := l }] := by
  unfold inFlight
  rw [cc_upd, cc_trOverlap]
  rfl
theorem ctxOf_inFlight {d : Dst} {c : Nat} (h : c ≠ s.cur) : ctxOf (inFlight s d l) c = ctxOf s c := by
  unfold inFlight
  rw [ctxOf_upd_ne _ _ (by rwa [cur_trOverlap]), ctxOf_trOverlap]
theorem inFlight_frame (d : Dst) : inFlight s d l = { s with
    ctx := (inFlight s d l).ctx, dev := (inFlight s d l).dev, trace := (inFlight s d l).trace, free := (inFlight s d l).free } := by
  unfold inFlight
  rw [trOverlap_frame]
  rfl

end

/-- `tldm` from HBM in one page puts one result in flight, whose pieces are its sectors (R131, R354). -/
theorem exec_tldm {s : State} {g : GReg} {m : MemOp} {size : LdSize} {pa cp : Nat} {l : List LoadPart}
    (hmap : mapped s (memAddr (cc s) m) .read pa cp) (hpage : (memAddr (cc s) m).toNat % 65536 + 2 ^ LdSize_lg size ≤ 65536)
    (hhbm : pa + 2 ^ LdSize_lg size ≤ 0x00C000000000)
    (hl : loadParts s (wholePiece s (memAddr (cc s) m) (2 ^ LdSize_lg size) pa cp) = l)
    (htags : tagsFull s (coreOf s.cur) l = false) : exec (.tldm g m size) s =
      .next (inFlight (trMem s s.cur 4 (memAddr (cc s) m).toNat (LdSize_lg size)) (dstG (cc s) g) l) := by
  have hn := Nat.two_pow_pos (LdSize_lg size)
  obtain ⟨-, -, -, hdev⟩ := map_range (pa := pa) (by omega)
  show run slotL _ s = _
  apply run_ok
  rw [M_bind_ok (getC_apply s), M_bind_ok (pieces_onePage hmap hn hpage hhbm), M_bind_ok (modify_apply _ s)]
  rw [trMem_frame]
  exact loadOut_here ((startParts_one hdev).trans (by rw [← hl]; rfl)) htags

/-! ### The value of a load's pieces (R131, R354) -/

/-- The bytes of a performed piece at their place in the value; a piece not performed gives nothing. -/
def partNum (p : LoadPart) : Nat := match p.got with | some (b, _) => ofLe b * 2 ^ (8 * p.off) | none => 0

theorem Flight_num_eq_sum (f : Flight) : Flight_num f = (f.parts.map partNum).sum := by
  have hstep : ∀ (l : List LoadPart) (n : Nat),
      l.foldl (fun n p => match p.got with | some (b, _) => n + ofLe b * 2 ^ (8 * p.off) | none => n) n = n + (l.map partNum).sum := by
    intro l
    induction l with
    | nil => exact fun n => rfl
    | cons p l ih =>
      intro n
      rw [List.foldl_cons, ih, List.map_cons, List.sum_cons, ← Nat.add_assoc]
      congr 1
      unfold partNum
      split <;> rfl
  exact (hstep f.parts 0).trans (Nat.zero_add _)

theorem Flight_val_of_parts {f : Flight} (hext : f.ext = none) (hparts : f.parts ≠ []) :
    Flight_val f = BitVec.ofNat 2048 (f.parts.map partNum).sum := by
  have hne : f.parts.isEmpty = false := by simpa using hparts
  unfold Flight_val
  rw [hne, if_neg Bool.false_ne_true, hext, Flight_num_eq_sum]

/-! ### Masked stores (R354) -/

/-- The bytes of `tstm`: bit `k` of the mask suppresses bytes 8k to 8k + 7. -/
def maskedBytes (v : Vec) (m : Word) : List (Option Byte) := (List.range 256).map fun k =>
  if m.toNat / 2 ^ (k / 8) % 2 = 1 then none else some (BitVec.ofNat 8 (v.toNat / 2 ^ (8 * k)))

theorem zipIdx_leBytes_mask (v : Vec) (m : Word) :
    ((leBytes v.toNat 256).zipIdx.map fun (b, i) => if m.getLsbD (i / 8) then none else some b) = maskedBytes v m := by
  refine List.ext_getElem (by simp [maskedBytes, leBytes]) fun k _ _ => ?_
  simp [maskedBytes, leBytes, BitVec.getLsbD, Nat.testBit_eq_decide_div_mod_eq, Nat.shiftRight_eq_div_pow]

theorem exec_tstm {s s1 : State} {g : GReg} {a m : SReg}
    (h : storeMem (rdS (cc s) a) (maskedBytes (rdG (cc s) g) (rdS (cc s) m)) s = (.ok (), s1)) :
    exec (.tstm g a m) s = .next (trMem s1 s1.cur 5 (rdS (cc s) a).toNat 8) := by
  show run slotT _ s = _
  apply run_ok
  rw [M_bind_ok (getC_apply s)]
  dsimp only
  rw [zipIdx_leBytes_mask, M_bind_ok h, modify_apply]

/-! ### The claim -/

theorem bindingsAndVectorAccesses : BindingsAndVectorAccesses := by
  intro s s1 f d v a m g mo size bs b i pa cp x va desc n ma parts masked
  have hma : memAddr (cc s) mo = ma := memAddr_eq (cc s) mo
  have hsize : 2 ^ LdSize_lg size = n := by cases size <;> rfl
  have hn : 0 < n := hsize ▸ Nat.two_pow_pos _
  refine ⟨fun hread hlen hres => ⟨exec_tbind hread hlen hres, fun sub hbad hall => exec_tbind_bad hread hlen hres hbad hall⟩,
    fun y k => applyLate_bind y f b k, exec_titin, fun hmap hpage hhbm htags => ?load, fun e => Flight_val_of_parts, exec_tstm⟩
  case load =>
    have hparts : parts = (sectorPieces pa n).map (sectorPart s ma cp) := loadParts_hbm hn hhbm
    refine ⟨⟨_, exec_tldm (l := parts) (by rwa [hma]) (by rwa [hma, hsize]) (by rwa [hsize]) (by rw [hma, hsize]; rfl) htags,
      ?_, fun c hc => ?_, ?_⟩, fun p hp => ?_, ?_⟩
    · rw [trMem_frame]
      exact flights_inFlight _ _ g parts
    · rw [trMem_frame]
      exact ctxOf_inFlight _ _ hc
    · rw [trMem_frame, inFlight_frame]
      rfl
    · rw [hparts] at hp
      obtain ⟨y, hy, rfl⟩ := List.mem_map.1 hp
      obtain ⟨hoff, -, hsec⟩ := of_mem_sectorPieces hn hy
      exact ⟨hoff, rfl, rfl, rfl, hsec⟩
    · rw [hparts, List.map_map]
      exact sum_sectorPieces hn

end Sys2Proof.Machine
end

section
/-! PROOF. Mailboxes (O36): the places that a mailbox has for an access, the sample of a load, and the clocks at which writes land
(R12, R129, R154, R355). -/
namespace Sys2Proof.Machine
open Sys2Proof.Claims

/-! ### Addresses in mailboxes (R12, R355) -/

/-- An address where 256 bytes of a mailbox begin. -/
def mboxPlace (pa : Nat) : Prop := 0xF00000000000 ≤ pa ∧ pa < 0xF00000C00000 ∧ pa % 32 = 0 ∧ pa % 0x10000 + 256 ≤ 0x4000

theorem isMbox_of_mboxPlace {pa : Nat} (h : mboxPlace pa) : isMbox pa = true := by
  unfold mboxPlace at h
  simp only [isMbox, Bool.and_eq_true, decide_eq_true_eq]
  omega
theorem mboxPlace_iff (pa : Nat) : (isMbox pa && pa % 32 = 0 && pa % 0x10000 + 256 ≤ 0x4000) = true ↔ mboxPlace pa := by
  simp only [isMbox, mboxPlace, Bool.and_eq_true, decide_eq_true_eq]
  omega

section
variable {s : State} {va : Word} {acc : Acc4} {pa cp : Nat} (hmap : mapped s va acc pa cp)
include hmap

theorem mboxAddr_ok (h : mboxPlace pa) : mboxAddr va acc s = (.ok pa, s) := by
  unfold mboxAddr
  rw [M_bind_ok (xlat_ok hmap)]
  dsimp only
  rw [M_bind_ok (get_apply s), (mboxPlace_iff pa).2 h, bne_self_eq_false]
  rfl
theorem mboxAddr_trap (h : ¬ mboxPlace pa) : mboxAddr va acc s = (.error (.trap 4 va (akOf acc)), s) := by
  have hno : (isMbox pa && pa % 32 = 0 && pa % 0x10000 + 256 ≤ 0x4000) = false :=
    Bool.eq_false_iff.2 fun hyes => h ((mboxPlace_iff pa).1 hyes)
  unfold mboxAddr
  rw [M_bind_ok (xlat_ok hmap)]
  dsimp only
  rw [M_bind_ok (get_apply s), hno, Bool.not_false, Bool.or_true]
  rfl

end

/-! ### `mbld` (R129, R154, R355) -/

theorem take_one_sectorPieces {pa n : Nat} (hn : 0 < n) : (sectorPieces pa n).take 1 = [(pa, 0, sectorLen pa n 0)] := by
  rw [sectorPieces_eq hn, ← List.map_take, List.take_range, Nat.min_eq_left (Nat.le_add_left 1 _)]
  show [(pa, pa - pa, sectorLen pa n 0)] = _
  rw [Nat.sub_self]

/-- The sample of a load of a mailbox, where none of the context's writes is on its way. -/
def mboxSample (s : State) (va : Word) (pa : Nat) : LoadPart :=
  { off := 0, va := va, pkg := s.pkg, pa := pa, cp := 2, len := 256, due := s.clk + 3 }

theorem loadParts_mbox {s : State} {va : Word} {pa : Nat} (hmbox : isMbox pa = true) (hown : ∀ w ∈ s.mboxW, w.ctx ≠ s.cur) :
    ((loadParts s { off := 0, va := va, pkg := s.pkg, pa := pa, cp := 2, len := 256 }).take 1).map (fun p => { p with len := 256 })
      = [mboxSample s va pa] := by
  have hnone : (s.mboxW.filter fun w => w.ctx = s.cur && w.plain && mboxHits w (mboxOf pa)) = [] :=
    List.filter_eq_nil_iff.2 fun w hw => by simp [hown w hw]
  unfold loadParts
  simp only [bne_self_eq_false, Bool.false_eq_true, ↓reduceIte]
  rw [← List.map_take, take_one_sectorPieces (by omega)]
  simp only [List.map_cons, List.map_nil, hmbox, ↓reduceIte, hnone]
  show [({ mboxSample s va pa with va := va + 0#64 } : LoadPart)] = _
  rw [BitVec.add_zero]
  rfl

theorem exec_mbld {s : State} {g : GReg} {m : MemOp} {pa cp : Nat} (hmap : mapped s (memAddr (cc s) m) .read pa cp)
    (hplace : mboxPlace pa) (hown : ∀ w ∈ s.mboxW, w.ctx ≠ s.cur) :
    exec (.mbld g m) s = .next (inFlight s (dstG (cc s) g) [mboxSample s (memAddr (cc s) m) pa]) := by
  show run slotL _ s = _
  apply run_ok
  rw [M_bind_ok (getC_apply s), M_bind_ok (mboxAddr_ok hmap hplace), M_bind_ok (get_apply s)]
  rw [loadParts_mbox (isMbox_of_mboxPlace hplace) hown]
  rfl
theorem exec_mbld_trap {s : State} {g : GReg} {m : MemOp} {pa cp : Nat} (hmap : mapped s (memAddr (cc s) m) .read pa cp)
    (hplace : ¬ mboxPlace pa) (hall : allHere (cc s) = true) :
    exec (.mbld g m) s = .next (takeTrap s s.cur 4 (memAddr (cc s) m) 1 (some 4)) := by
  show run slotL _ s = _
  refine run_trap ?_ hall
  rw [M_bind_ok (getC_apply s), M_bind_error (mboxAddr_trap hmap hplace)]
  rfl

/-! ### `mbst` and `mbcast` (R129, R154, R355) -/

/-- A write of a multicast register on its way to mailboxes. -/
def mboxItem (s : State) (g : GReg) (land pa : Nat) (cast : Bool) : MboxW :=
  { land := land, core := coreOf s.cur, ctx := s.cur, pa := pa, data := (leBytes (rdG (cc s) g).toNat 256).map some, cast := cast
    pos := (cc s).pos }
/-- The clock at which a store of the issuing context lands in a mailbox, `z` clocks after the earliest and after its earlier writes
there. -/
def mboxLanding (s : State) (owner z : Nat) : Nat := max (s.clk + 7 + z) (mboxLast s s.cur owner)

theorem exec_mbst {s : State} {g : GReg} {m : MemOp} {pa cp : Nat} (hmap : mapped s (memAddr (cc s) m) .write pa cp)
    (hplace : mboxPlace pa) : ∃ z f, z < 58 ∧ (mboxOf pa / 8 = coreOf s.cur / 8 → z = 0) ∧ exec (.mbst g m) s
      = .next { s with mboxW := mboxInsert (mboxItem s g (mboxLanding s (mboxOf pa) z) pa false) s.mboxW, free := f } := by
  have haddr := mboxAddr_ok hmap hplace
  by_cases hnear : mboxOf pa / 8 = coreOf s.cur / 8
  · refine ⟨0, s.free, by omega, fun _ => rfl, ?_⟩
    show run slotT _ s = _
    apply run_ok
    rw [M_bind_ok (getC_apply s), M_bind_ok haddr, M_bind_ok (get_apply s), if_pos hnear]
    rfl
  · refine ⟨Config.choose s.free % 58, s.free + 1, Nat.mod_lt _ (Nat.succ_pos 57), fun h => absurd h hnear, ?_⟩
    show run slotT _ s = _
    apply run_ok
    rw [M_bind_ok (getC_apply s), M_bind_ok haddr, M_bind_ok (get_apply s), if_neg hnear]
    rfl
theorem exec_mbst_trap {s : State} {g : GReg} {m : MemOp} {pa cp : Nat} (hmap : mapped s (memAddr (cc s) m) .write pa cp)
    (hplace : ¬ mboxPlace pa) (hall : allHere (cc s) = true) :
    exec (.mbst g m) s = .next (takeTrap s s.cur 4 (memAddr (cc s) m) 2 (some 5)) := by
  show run slotT _ s = _
  refine run_trap ?_ hall
  rw [M_bind_ok (getC_apply s), M_bind_error (mboxAddr_trap hmap hplace)]
  rfl

theorem exec_mbcast {s : State} {g : GReg} {m : MemOp} (halign : (memAddr (cc s) m).toNat % 32 = 0)
    (hlow : (memAddr (cc s) m).toNat ≤ 16128) : exec (.mbcast g m) s
      = .next { s with mboxW := mboxInsert (mboxItem s g (s.clk + 7) (memAddr (cc s) m).toNat true) s.mboxW } := by
  have hok : ((memAddr (cc s) m).toNat % 32 != 0 || decide ((memAddr (cc s) m).toNat > 16128)) = false := by
    simp [halign, hlow]
  show run slotT _ s = _
  apply run_ok
  rw [M_bind_ok (getC_apply s)]
  rw [hok, M_bind_ok (trapIf_false _ _ _ s), modify_apply]
  rfl
theorem exec_mbcast_trap {s : State} {g : GReg} {m : MemOp}
    (hbad : (memAddr (cc s) m).toNat % 32 ≠ 0 ∨ 16128 < (memAddr (cc s) m).toNat) (hall : allHere (cc s) = true) :
    exec (.mbcast g m) s = .next (takeTrap s s.cur 4 (memAddr (cc s) m) 2 (some 5)) := by
  have htrap : ((memAddr (cc s) m).toNat % 32 != 0 || decide ((memAddr (cc s) m).toNat > 16128)) = true := by
    simpa using hbad
  show run slotT _ s = _
  refine run_trap ?_ hall
  rw [M_bind_ok (getC_apply s)]
  rw [htrap, M_bind_error (trapIf_true _ _ _ s)]

/-! ### The sample of a mailbox (R154) -/

theorem ctxOf_dropGrants (s : State) (owner lo n c : Nat) : ctxOf (dropGrants s owner lo n) c = ctxOf s c := rfl
/-- A sample that is taken gives its piece its bytes, and nothing else to its load. -/
theorem flights_putPart {u : State} {c k : Nat} {f : Flight} {p : LoadPart} (b : List Byte)
    (hf : (ctxOf u c).flights[k]? = some f) (hp : f.parts = [p]) :
    (ctxOf (putPart u c k 0 b false) c).flights = (ctxOf u c).flights.set k { f with parts := [{ p with got := some (b, false) }] } := by
  have hput : (ctxOf (putPart u c k 0 b false) c).flights = (ctxOf u c).flights.modify k fun f => { f with
      poison := if false && f.poison.isNone then some (Flight_va f) else f.poison
      parts := f.parts.modify 0 fun p => { p with got := some (b, false) } } := by
    unfold putPart updFlight
    dsimp only
    split
    · split
      · rw [ctxOf_dropGrants, ctxOf_updCtx_self]
      · rw [ctxOf_updCtx_self]
    · rw [ctxOf_updCtx_self]
  rw [hput, List.modify_eq_set_getElem?, hf]
  show (ctxOf u c).flights.set k { f with poison := f.poison, parts := f.parts.modify 0 _ } = _
  rw [hp]
  rfl

/-- Where every write on its way lands later, a sample sees the mailboxes as they are. -/
theorem mboxValue_now {u : State} {c : Nat} {f : Flight} {p : LoadPart} (h : ∀ w ∈ u.mboxW, p.due < w.land ∧ u.clk < w.land) :
    mboxValue u c f p = Memory.bytes u.mbox p.pa p.len := by
  have hnone (clk : Nat) (hclk : clk = p.due ∨ clk = u.clk) :
      (u.mboxW.filter fun w => !(w.ctx = c && wAfter f w)).filter (fun w => w.land ≤ clk) = [] := by
    refine List.filter_eq_nil_iff.2 fun w hw => ?_
    obtain ⟨hdue, hnow⟩ := h w (List.mem_filter.1 hw).1
    rw [decide_eq_true_eq]
    omega
  unfold mboxValue mboxAt
  dsimp only
  rw [hnone _ (by split <;> simp)]
  rfl

section
variable {u : State} {c k : Nat} {f : Flight} {p : LoadPart} (hf : (ctxOf u c).flights[k]? = some f) (hp : f.parts = [p])
  (hacq : f.acq = none) (hask : p.ask = none) (hgot : p.got = none) (heseq : p.eseq = none) (hmbox : isMbox p.pa = true)
  (hturn : turnOfPart u c k p = true)
include hf hp hacq hask hgot heseq hmbox hturn

/-- A sample of a mailbox is taken once it is due. -/
theorem samplePart_mbox : samplePart u c k 0 = if u.clk < p.due then u else putPart u c k 0 (mboxValue u c f p) false := by
  have hidle : LoadPart_idle p = true := by simp [LoadPart_idle, hgot, heseq]
  unfold samplePart
  simp [hf, hp, hidle, hturn, hask, hacq, hmbox]

end

/-! ### The claim -/

theorem mailboxesAreReadAndWritten : MailboxesAreReadAndWritten := by
  refine ⟨?accesses, ?samples⟩
  case accesses =>
    intro s g m pa cp x core va there owner item load last
    have hva : memAddr (cc s) m = va := memAddr_eq (cc s) m
    clear_value va
    subst hva
    exact ⟨fun hmap hplace hown => ⟨_, exec_mbld hmap hplace hown, flights_inFlight .., fun c hc => ctxOf_inFlight _ _ hc,
        inFlight_frame ..⟩,
      exec_mbst, exec_mbcast, fun hall => ⟨fun hbad => exec_mbcast_trap hbad hall,
        fun hmap hplace => exec_mbld_trap hmap hplace hall, fun hmap hplace => exec_mbst_trap hmap hplace hall⟩⟩
  case samples =>
    intro u c k f p hf hp hacq _ hask hgot heseq _ hmbox hturn
    have hsample := samplePart_mbox hf hp hacq hask hgot heseq hmbox hturn
    refine ⟨fun hdue hlater => ?_, fun hearly => hsample.trans (if_pos hearly)⟩
    rw [hsample, if_neg (by omega), mboxValue_now hlater, flights_putPart _ hf hp]

/-- Settles O36: bindings and vector accesses, by the sectors of a load from HBM; mailboxes, by the places that they have for an
access. -/
theorem bindingsVectorAccessesAndMailboxes : Obligations.BindingsVectorAccessesAndMailboxes :=
  ⟨bindingsAndVectorAccesses, mailboxesAreReadAndWritten⟩

end Sys2Proof.Machine
end

section
/-! PROOF. A tile's home (O41): the entry of a tile alone in its set, through updates of it, its replay list and its channel's overflow
queue; what a request finds there; what a post records (R82 to R84, R92 to R95). -/
namespace Sys2Proof.Machine
open Sys2Proof.Claims

/-! ### Directories and their entries (R92) -/

/-- A state with other directories. -/
def withDirs (s : State) (d : SMap Oasis) : State := { s with tiles := { s.tiles with oasis := d } }

theorem fillOf_withDirs (s : State) (d : SMap Oasis) (id : Nat) : fillOf (withDirs s d) id = fillOf s id := rfl

theorem entriesOf_setEntries (s : State) (t : Tile) (l : List OEntry) : entriesOf (setEntries s t l) t = l := by
  unfold entriesOf setEntries dirOf setDir
  rw [SMap.getD_set_self, SMap.getD_set_self]
theorem ovf_setEntries (s : State) (t : Tile) (l : List OEntry) :
    (dirOf (setEntries s t l) (homeChan t)).ovf = (dirOf s (homeChan t)).ovf := by
  unfold setEntries dirOf setDir
  rw [SMap.getD_set_self]
  rfl

/-- `u` is `s` but for its directories, in which `o`, the entry of `t`, is alone in its set and no request waits for a way. -/
structure AtHome (s u : State) (t : Tile) (o : OEntry) : Prop where
  frame : u = withDirs s u.tiles.oasis
  entries : entriesOf u t = [o]
  tile : o.tile = t
  noOverflow : (dirOf u (homeChan t)).ovf = []

namespace AtHome
variable {s u : State} {t : Tile} {o : OEntry}

theorem setEntries (h : AtHome s u t o) {p : OEntry} (hp : p.tile = t) : AtHome s (setEntries u t [p]) t p where
  frame := by
    obtain ⟨hframe, -, -, -⟩ := h
    rw [hframe]
    rfl
  entries := entriesOf_setEntries ..
  tile := hp
  noOverflow := (ovf_setEntries ..).trans h.noOverflow

theorem present (h : AtHome s u t o) : entryOf u t = some o := by
  unfold entryOf
  rw [h.entries]
  simp [h.tile]

theorem update (h : AtHome s u t o) {f : OEntry → OEntry} (hf : (f o).tile = t) : AtHome s (updEntry u t f) t (f o) := by
  have heq : updEntry u t f = Machine.setEntries u t [f o] := by
    unfold updEntry
    rw [h.entries]
    simp [h.tile]
  rw [heq]
  exact h.setEntries hf

theorem touch (h : AtHome s u t o) : AtHome s (touchEntry u t) t o := by
  have heq : touchEntry u t = Machine.setEntries u t [o] := by
    unfold touchEntry
    rw [h.present, h.entries]
    simp [h.tile]
  rw [heq]
  exact h.setEntries h.tile

/-- A replay list with nothing in it is served. -/
theorem serve (h : AtHome s u t o) (hreplay : o.replay = []) : AtHome s (reServe u t) t o := by
  have hsame : ({ o with replay := [] } : OEntry) = o := by rw [← hreplay]
  unfold reServe
  rw [h.present]
  dsimp only
  rw [hreplay, List.foldl_nil]
  have hnext := h.update (f := fun e => { e with replay := [] }) h.tile
  rwa [hsame] at hnext

/-- An overflow queue with nothing in it is tried again. -/
theorem pump (h : AtHome s u t o) : AtHome s (pumpOvf u (homeChan t)) t o := by
  unfold pumpOvf
  rw [h.noOverflow]
  dsimp only
  rw [List.foldl_nil]
  refine ⟨?_, ?_, h.tile, ?_⟩
  · obtain ⟨hframe, -, -, -⟩ := h
    rw [hframe]
    rfl
  · refine Eq.trans ?_ h.entries
    unfold entriesOf
    congr 1
    unfold dirOf setDir
    rw [SMap.getD_set_self]
    rfl
  · unfold dirOf setDir
    rw [SMap.getD_set_self]

/-- A tile in its directory needs no way. -/
theorem alloc (h : AtHome s u t o) : allocEntry u t = (true, u) := by
  unfold allocEntry
  rw [h.entries]
  simp [h.tile]

end AtHome

/-! ### Reads done, discards and posts at a home (R83, R84, R94) -/

section
variable {s u : State} {t : Tile} {o : OEntry} (h : AtHome s u t o) (hreplay : o.replay = [])
include h hreplay

theorem atHome_oReadDone (hwbq : o.wbq = []) : AtHome s (oReadDone u t) t { o with readers := o.readers - 1 } := by
  have hless := h.update (f := fun e => { e with readers := e.readers - 1 }) h.tile
  unfold oReadDone
  dsimp only
  rw [hless.present]
  dsimp only
  split
  · rw [hwbq, List.foldl_nil]
    have hfree := hless.update (f := fun e => { e with wbq := [] }) h.tile
    exact (hfree.serve hreplay).pump
  · exact (hless.serve hreplay).pump

theorem atHome_oDiscard {pkg ctx : Nat} (howner : o.owner = some (pkg, ctx)) :
    AtHome s (oDiscard u t pkg ctx) t { o with owner := none } := by
  have hfree := h.update (f := fun e => { e with owner := none }) h.tile
  unfold oDiscard
  rw [h.present]
  dsimp only
  rw [howner, if_pos (beq_self_eq_true _)]
  exact (hfree.serve hreplay).pump

omit hreplay in
theorem oDiscard_stranger {pkg ctx : Nat} (howner : o.owner ≠ some (pkg, ctx)) : oDiscard u t pkg ctx = u := by
  unfold oDiscard
  rw [h.present]
  dsimp only
  rw [if_neg (by simpa using howner)]

/-- The owner's post is recorded as the version after the latest (R83, R94). -/
theorem oPost_owner {v pkg ctx : Nat} {loc : OLoc} (howner : o.owner = some (pkg, ctx)) : ∃ u', oPost u t v loc pkg ctx =
    (some (verNext o.latest), u') ∧ AtHome s u' t { o with latest := verNext o.latest, loc := loc, owner := none } := by
  have hnew := h.update (f := fun e => { e with latest := verNext o.latest, loc := loc, owner := none }) h.tile
  refine ⟨_, ?_, (hnew.serve hreplay).pump⟩
  unfold oPost
  rw [h.alloc]
  dsimp only
  rw [h.present]
  dsimp only
  rw [howner, beq_self_eq_true]
  rfl

end

/-! ### Fills (R77, R80) -/

theorem find_fill_map {g : Fill → Fill} (hg : ∀ f, (g f).id = f.id) (l : List Fill) (id : Nat) :
    (l.map g).find? (fun f => f.id = id) = (l.find? fun f => f.id = id).map g := by
  rw [List.find?_map]
  simp [hg]

theorem fillOf_setFillSt {s : State} {id : Nat} {f : Fill} (h : fillOf s id = some f) (x : FillSt) :
    fillOf (setFillSt s id x) id = some { f with st := x } := by
  have hid : f.id = id := by simpa using List.find?_some h
  have hmap : fillOf (setFillSt s id x) id = (fillOf s id).map fun f => if f.id = id then { f with st := x } else f :=
    find_fill_map (by intro f; split <;> rfl) _ id
  rw [hmap, h, Option.map_some, if_pos hid]
theorem fillOf_putFill {s : State} {f g : Fill} (h : fillOf s f.id = some g) : fillOf (putFill s f) f.id = some f := by
  have hid : g.id = f.id := by simpa using List.find?_some h
  have hmap : fillOf (putFill s f) f.id = (fillOf s f.id).map fun g => if g.id = f.id then f else g :=
    find_fill_map (by intro g; split <;> simp [*]) _ f.id
  rw [hmap, h, Option.map_some, if_pos hid]

theorem steady_newId (s : State) : steady (newId s).2 = steady s := rfl
/-- A fill that asks its home may take a line of its CLC; an opening takes none (R80, log 43). -/
theorem clcHold_spec (s : State) (f : Fill) : ∃ n u, clcHold s f = ({ f with clc := n }, u) ∧ steady u = steady s
    ∧ (f.open_.isSome = true → n = f.clc) := by
  unfold clcHold
  split
  · exact ⟨f.clc, s, rfl, rfl, fun _ => rfl⟩
  · next hnot =>
    split
    · exact ⟨f.clc, s, rfl, rfl, fun _ => rfl⟩
    · next u hu =>
      exact ⟨(newId u).1, setClcT (newId u).2 (f.core / 8) _, rfl,
        (steady_setClcT ..).trans ((steady_newId u).trans (steady_clcRoom hu)),
        fun hopen => absurd (by rw [hopen, Bool.or_true]) hnot⟩

@[simp] theorem entriesOf_setFillSt (s : State) (id : Nat) (x : FillSt) (t : Tile) : entriesOf (setFillSt s id x) t = entriesOf s t := rfl
@[simp] theorem entriesOf_homeSay (s : State) (t u : Tile) (m : HomeMsg) : entriesOf (homeSay s t m) u = entriesOf s u := rfl
@[simp] theorem fillOf_homeSay (s : State) (t : Tile) (m : HomeMsg) (id : Nat) : fillOf (homeSay s t m) id = fillOf s id := rfl

/-- The request of a fill at its home in this package. -/
def requestOf (s : State) (f : Fill) : OReq := { fid := f.id, u := f.u, open_ := f.open_, pkg := s.pkg, ctx := f.ctx }

/-- The home of a tile that no other package shares lies in this one (R93). -/
theorem askHome_here {s : State} {f : Fill} (hdom : dDomain f.b.desc = false) : ∃ n u, steady u = steady s
    ∧ (f.open_.isSome = true → n = f.clc)
    ∧ askHome s f = oRequest (putFill u { f with clc := n }) f.tile (requestOf s f) := by
  obtain ⟨n, u, hhold, hsteady, hopen⟩ := clcHold_spec s f
  have hpkg : u.pkg = s.pkg := congrArg Steady.pkg hsteady
  have hrun : runFill s f (homeOf (fillWho f) f.b f.tile) = (some s.pkg, s) := by
    unfold runFill homeOf
    rw [hdom]
    rfl
  refine ⟨n, u, hsteady, hopen, ?_⟩
  unfold askHome
  rw [hrun]
  dsimp only
  rw [hhold]
  dsimp only
  rw [if_pos (show s.pkg = (putFill u { f with clc := n }).pkg from hpkg.symm)]
  unfold requestOf
  rw [← hpkg]
  rfl

/-! ### Requests at a home (R82, R92, R94, R95) -/

/-- An entry whose request has been granted from `loc`. -/
def granted (r : OReq) (loc : OLoc) (e : OEntry) : OEntry :=
  { e with owner := if r.open_.isSome then some (r.pkg, r.ctx) else e.owner
           readers := if !(r.open_ == some true) && loc == .hbm then e.readers + 1 else e.readers }

section
variable {s : State} {t : Tile} {o : OEntry} {r : OReq}

theorem answerLoc_live (hlive : (chan s (homeChan t)).failed = false) : answerLoc s t o = o.loc := by
  unfold answerLoc
  rw [hlive, if_neg Bool.false_ne_true]

/-- The home's entry once it has granted a request, the most recently used of its set. -/
def grantedAt (s : State) (t : Tile) (r : OReq) (loc : OLoc) : State := touchEntry (updEntry s t (granted r loc)) t

variable (hpkg : r.pkg = s.pkg)
include hpkg

theorem grant_zeros (hopen : r.open_ = some true) :
    grant s t o r = setFillSt (grantedAt s t r (answerLoc s t o)) r.fid (.data o.latest [] false) := by
  have hzero : (r.open_ == some true) = true := by rw [hopen]; rfl
  unfold grant
  dsimp only
  rw [if_pos hzero, if_pos hpkg]
  rfl
theorem grant_hbm (hopen : r.open_ = none) (hloc : answerLoc s t o = .hbm) :
    grant s t o r = setFillSt (grantedAt s t r .hbm) r.fid (.hbm o.latest) := by
  have hzero : ¬ (r.open_ == some true) = true := by rw [hopen]; decide
  unfold grant
  dsimp only
  rw [if_neg hzero, hloc]
  dsimp only
  rw [if_pos hpkg]
  rfl
theorem grant_clc {k : Nat} (hopen : r.open_ = none) (hloc : answerLoc s t o = .clc k) : grant s t o r =
    homeSay (setFillSt (grantedAt s t r (.clc k)) r.fid (.fwd k o.latest)) t { ch := 0, cl := k, fid := r.fid } := by
  have hzero : ¬ (r.open_ == some true) = true := by rw [hopen]; decide
  unfold grant
  dsimp only
  rw [if_neg hzero, hloc]
  dsimp only
  rw [if_pos hpkg]
  rfl

end

section
variable {s : State} {t : Tile} {o : OEntry} {r : OReq} (h : AtHome s s t o)
include h

theorem oRequest_present : oRequest s t r =
    if canGrant (answerLoc s t o) o r then grant s t o r
    else if replayUse s (homeChan t) ≥ 4096 then refuse (if r.own then updEntry s t fun e => { e with owner := none } else s) t r
    else parkReq s t r := by
  unfold oRequest
  rw [h.alloc]
  dsimp only
  unfold serveReq
  rw [h.present]

theorem atHome_granted (loc : OLoc) : AtHome s (grantedAt s t r loc) t (granted r loc o) := (h.update h.tile).touch
theorem fillOf_granted {f : Fill} {id : Nat} (hf : fillOf s id = some f) (loc : OLoc) : fillOf (grantedAt s t r loc) id = some f := by
  have hat := atHome_granted (r := r) h loc
  rw [hat.frame, fillOf_withDirs, hf]

variable {f : Fill} (hf : fillOf s r.fid = some f) (hpkg : r.pkg = s.pkg)
include hf hpkg

/-- A read that the latest version does not satisfy waits in the replay list. -/
theorem oRequest_parked (hopen : r.open_ = none) (hver : verSat o.latest r.u = false) (hroom : replayUse s (homeChan t) < 4096) :
    entriesOf (oRequest s t r) t = [{ o with replay := o.replay ++ [r] }]
      ∧ fillOf (oRequest s t r) r.fid = some { f with st := .home } := by
  have hat := h.update (f := fun e => { e with replay := e.replay ++ [r] }) h.tile
  have hcan : ¬ canGrant (answerLoc s t o) o r = true := by simp [canGrant, hopen, hver]
  have hpark : oRequest s t r = setFillSt (updEntry s t fun e => { e with replay := e.replay ++ [r] }) r.fid .home := by
    rw [oRequest_present h, if_neg hcan, if_neg (by omega)]
    exact if_pos hpkg
  rw [hpark, entriesOf_setFillSt]
  refine ⟨hat.entries, fillOf_setFillSt ?_ _⟩
  rw [hat.frame, fillOf_withDirs, hf]

variable (hlive : (chan s (homeChan t)).failed = false)
include hlive

/-- A read granted from HBM. -/
theorem oRequest_hbm (hopen : r.open_ = none) (hver : verSat o.latest r.u = true) (hloc : o.loc = .hbm) (hroom : o.readers < 63)
    (hhold : o.hold = []) : entriesOf (oRequest s t r) t = [{ o with readers := o.readers + 1 }]
      ∧ fillOf (oRequest s t r) r.fid = some { f with st := .hbm o.latest } := by
  have hlive := (answerLoc_live hlive).trans hloc
  have hcan : canGrant .hbm o r = true := by simp [canGrant, hopen, hver, hroom, hhold]
  have hentry : granted r .hbm o = { o with readers := o.readers + 1 } := by simp [granted, hopen]
  rw [oRequest_present h, hlive, if_pos hcan, grant_hbm hpkg hopen hlive, entriesOf_setFillSt, (atHome_granted h .hbm).entries, hentry]
  exact ⟨rfl, fillOf_setFillSt (fillOf_granted h hf .hbm) _⟩

/-- A read forwarded to the CLC that holds the latest version. -/
theorem oRequest_clc {k : Nat} (hopen : r.open_ = none) (hver : verSat o.latest r.u = true) (hloc : o.loc = .clc k) :
    entriesOf (oRequest s t r) t = [o] ∧ fillOf (oRequest s t r) r.fid = some { f with st := .fwd k o.latest }
      ∧ ∃ m ∈ (oRequest s t r).tiles.homeQ, m.cl = k ∧ m.fid = r.fid ∧ m.ack = false := by
  have hlive := (answerLoc_live hlive).trans hloc
  have hcan : canGrant (.clc k) o r = true := by simp [canGrant, hopen, hver]
  have hentry : granted r (.clc k) o = o := by simp [granted, hopen]
  rw [oRequest_present h, hlive, if_pos hcan, grant_clc hpkg hopen hlive, entriesOf_homeSay, entriesOf_setFillSt, fillOf_homeSay,
    (atHome_granted h (.clc k)).entries, hentry]
  exact ⟨rfl, fillOf_setFillSt (fillOf_granted h hf (.clc k)) _,
    _, List.mem_append_right _ (List.mem_singleton_self _), rfl, rfl, rfl⟩

/-- An opening with zeros makes its asker the owner. -/
theorem oRequest_zeros (hopen : r.open_ = some true) (howner : o.owner = none) (hreplay : o.replay = []) :
    entriesOf (oRequest s t r) t = [{ o with owner := some (r.pkg, r.ctx) }]
      ∧ fillOf (oRequest s t r) r.fid = some { f with st := .data o.latest [] false } := by
  have hlive := answerLoc_live (o := o) hlive
  have hcan : canGrant o.loc o r = true := by simp [canGrant, hopen, howner, hreplay]
  have hentry : granted r o.loc o = { o with owner := some (r.pkg, r.ctx) } := by simp [granted, hopen]
  rw [oRequest_present h, hlive, if_pos hcan, grant_zeros hpkg hopen, hlive, entriesOf_setFillSt, (atHome_granted h o.loc).entries,
    hentry]
  exact ⟨rfl, fillOf_setFillSt (fillOf_granted h hf o.loc) _⟩

end

/-! ### The post of a line (R83, R98) -/

theorem steady_clcInstall {s u : State} {cl : Nat} {l : TLine} (h : clcInstall s cl l = some u) : steady u = steady s := by
  unfold clcInstall at h
  obtain ⟨v, hv, rfl⟩ := Option.map_eq_some_iff.1 h
  exact (steady_setClcT (newId v).2 ..).trans ((steady_newId v).trans ((steady_clcRoom hv).trans (steady_setClcT s ..)))
theorem steady_renameVer (s : State) (cl : Nat) (t : Tile) (v n : Nat) : steady (renameVer s cl t v n) = steady s :=
  steady_ite rfl rfl
theorem steady_purgeStep (s : State) : steady (purgeStep s) = steady s := by
  unfold purgeStep
  split
  · rfl
  · exact steady_foldl (fun _ _ => steady_foldl (fun _ _ => steady_beginWriteback ..) _ _) _ _

theorem entriesOf_congr {s u : State} (h : steady u = steady s) (t : Tile) : entriesOf u t = entriesOf s t := by
  have hdirs : u.tiles.oasis = s.tiles.oasis := congrArg Steady.oasis h
  unfold entriesOf dirOf
  rw [hdirs]
theorem ctcLine_congr {s u : State} (h : steady u = steady s) (core id : Nat) : ctcLine u core id = ctcLine s core id := by
  have hctc : u.tiles.ctc = s.tiles.ctc := congrArg Steady.ctc h
  unfold ctcLine ctcOf
  rw [hctc]
theorem fillOf_congr {s u : State} (h : steady u = steady s) (id : Nat) : fillOf u id = fillOf s id := by
  have hfills : u.tiles.fills = s.tiles.fills := congrArg Steady.fills h
  unfold fillOf
  rw [hfills]
/-- A state with the directories of another finds there what that one finds. -/
theorem AtHome.of_dirs {s u v : State} {t : Tile} {o : OEntry} (h : AtHome s u t o) (hv : v.tiles.oasis = u.tiles.oasis) :
    AtHome v v t o := by
  obtain ⟨-, hentries, htile, hovf⟩ := h
  unfold entriesOf dirOf at hentries
  unfold dirOf at hovf
  rw [← hv] at hentries hovf
  exact ⟨rfl, hentries, htile, hovf⟩

/-- A line posted, its version recorded. -/
def posted (n : Nat) (l : TLine) : TLine := { l with st := .valid, ver := n, stream := false }

/-- A post whose copy has its place in the CLC. -/
theorem postHere_copied {s s1 : State} {core : Nat} {l : TLine} {o : OEntry} (h : AtHome s s l.tile o) (hreplay : o.replay = [])
    (hline : ctcLine s core l.id = some l) (hwritten : l.done = true ∨ (l.stream = false ∧ l.wb = false))
    (howner : o.owner = some (s.pkg, l.ctx)) (hcopy : postCopy s (core / 8) l = some s1) :
    entriesOf (postHere s core l) l.tile =
        [{ o with latest := verNext o.latest, loc := if l.stream then .hbm else .clc (core / 8), owner := none }]
      ∧ ctcLine (postHere s core l) core l.id = some (posted (verNext o.latest) l) := by
  have hsteady : steady s1 = steady s := steady_clcInstall hcopy
  have hpkg : s1.pkg = s.pkg := congrArg Steady.pkg hsteady
  have hthrough : ¬ ((l.wb || l.stream) && !l.done) = true := by
    rcases hwritten with h | ⟨h, h'⟩ <;> simp [*]
  obtain ⟨u, hpost, hu⟩ := oPost_owner (v := l.ver) (loc := if l.stream then .hbm else .clc (core / 8))
    (h.of_dirs (congrArg Steady.oasis hsteady)) hreplay howner
  have hheld : ctcLine (renameVer u (core / 8) l.tile l.ver (verNext o.latest)) core l.id = some l := by
    rw [ctcLine_congr (steady_renameVer ..), hu.frame]
    exact (ctcLine_congr hsteady ..).trans hline
  have hdone : postHere s core l = updLine (renameVer u (core / 8) l.tile l.ver (verNext o.latest)) core l.id
      (posted (verNext o.latest)) := by
    unfold postHere
    dsimp only
    rw [if_neg hthrough, h.alloc]
    dsimp only
    rw [hcopy]
    dsimp only
    rw [hpkg, hpost]
    rfl
  rw [hdone]
  exact ⟨(entriesOf_congr (steady_renameVer ..) _).trans hu.entries, ctcLine_updLine hheld fun _ => rfl⟩

/-! ### The request of a fill (R80, R92) -/

/-- What stands at the home of a fill's tile when the fill asks it, having taken a line of its CLC where there is room. -/
structure Asked (s : State) (f : Fill) (o : OEntry) (n : Nat) (v : State) : Prop where
  request : askHome s f = oRequest v f.tile (requestOf s f)
  noLine : f.open_.isSome = true → n = f.clc
  home : AtHome v v f.tile o
  fill : fillOf v f.id = some { f with clc := n }
  pkg : s.pkg = v.pkg
  live : (chan v (homeChan f.tile)).failed = false
  room : replayUse v (homeChan f.tile) = replayUse s (homeChan f.tile)

theorem askHome_asked {s : State} {f : Fill} {o : OEntry} (h : AtHome s s f.tile o) (hf : fillOf s f.id = some f)
    (hlive : (chan s (homeChan f.tile)).failed = false) (hdom : dDomain f.b.desc = false) : ∃ n v, Asked s f o n v := by
  obtain ⟨n, u, hsteady, hopen, hask⟩ := askHome_here (s := s) hdom
  have hdirs : u.tiles.oasis = s.tiles.oasis := congrArg Steady.oasis hsteady
  refine ⟨n, putFill u { f with clc := n }, hask, hopen, h.of_dirs hdirs, ?fill, (congrArg Steady.pkg hsteady).symm, ?live, ?room⟩
  case fill => exact fillOf_putFill (f := { f with clc := n }) ((fillOf_congr hsteady f.id).trans hf)
  case live => exact (congrFun (congrArg Steady.failed hsteady) _).trans hlive
  case room =>
    have hdir (ch : Nat) : dirOf (putFill u { f with clc := n }) ch = dirOf s ch := congrArg (fun d : SMap Oasis => SMap.getD d ch {}) hdirs
    unfold replayUse
    rw [hdir]

theorem asking_some {s : State} {f : Fill} {opening : Bool} (hf : fillOf s f.id = some f) (hfault : faulted s (.fill f.id) = false)
    (hst : f.st = .request) (hopening : f.open_.isSome = opening) : asking s f.id opening = some f := by
  have hfree : fillFree s f.id = some f := (if_neg (by simp [hfault])).trans hf
  unfold asking
  rw [hfree, Option.bind_some, hst, hopening]
  simp

theorem exec_oasisReadRequest (s : State) : exec .oasisReadRequest s = execOasisReadRequest s := rfl
theorem exec_oasisOpenRequest (s : State) : exec .oasisOpenRequest s = execOasisOpenRequest s := rfl

section
variable {s : State} {f : Fill}

theorem does_oasisReadRequest (h : asking (given s (.oasisReadRequest f.id none)) f.id false = some f) :
    does (.oasisReadRequest f.id none) s (askHome (given s (.oasisReadRequest f.id none)) f) := by
  show exec .oasisReadRequest (given s _) = _
  rw [exec_oasisReadRequest]
  unfold execOasisReadRequest
  rw [show (given s (.oasisReadRequest f.id none)).ev = some (.oasisReadRequest f.id none) from rfl]
  dsimp only
  rw [h]
theorem does_oasisOpenRequest (h : asking (given s (.oasisOpenRequest f.id none)) f.id true = some f) :
    does (.oasisOpenRequest f.id none) s (askHome (given s (.oasisOpenRequest f.id none)) f) := by
  show exec .oasisOpenRequest (given s _) = _
  rw [exec_oasisOpenRequest]
  unfold execOasisOpenRequest
  rw [show (given s (.oasisOpenRequest f.id none)).ev = some (.oasisOpenRequest f.id none) from rfl]
  dsimp only
  rw [h]

end

theorem does_oasisPost {s : State} {core : Nat} {l : TLine}
    (hline : ctcLine s core l.id = some l) (hpost : l.st = .posting) (hhome : l.home = s.pkg)
    (hfree : faulted s (.wb (core / 8) l.id) = false) :
    does (.oasisPost core l.id none) s (purgeStep (postHere (given s (.oasisPost core l.id none)) core l)) := by
  have hgo : ¬ (l.st != .posting || faulted (given s (.oasisPost core l.id none)) (.wb (core / 8) l.id)) = true := by
    rw [show faulted (given s (.oasisPost core l.id none)) _ = faulted s _ from rfl, hfree, hpost]
    decide
  show Host.Outcome.next (postStep (given s (.oasisPost core l.id none)) core l.id) = _
  unfold postStep
  rw [show ctcLine (given s (.oasisPost core l.id none)) core l.id = some l from hline]
  dsimp only
  rw [if_neg hgo, if_pos (show l.home = (given s (.oasisPost core l.id none)).pkg from hhome)]

/-! ### The obligation -/

/-- Settles O41: the entry of a tile alone in its set, through each request, read done, discard and post. -/
theorem homesGrantReadsAndOpenings : Obligations.HomesGrantReadsAndOpenings := by
  intro s s1 id f t o ctx core hentries htile hreplay hhold hwbq hovf hlive free
  have hat (e : Ev) : AtHome (given s e) (given s e) t o := ⟨rfl, hentries, htile, hovf⟩
  have htake {e : Ev} {u : State} {h : OEntry} (hdoes : does e s u) (hu : AtHome (given s e) u t h) : free e h :=
    ⟨u, hdoes, hu.entries⟩
  refine ⟨fun hf hid hft hfault hst hdom => ?requests, htake rfl (atHome_oReadDone (hat _) hreplay hwbq),
    fun howner => htake rfl (atHome_oDiscard (hat _) hreplay howner),
    fun howner => htake (congrArg _ (oDiscard_stranger (hat _) howner)) (hat _), fun l hline hpost hlt hhome hfree hwritten howner
      hcopy => ?post⟩
  case requests =>
    subst hid hft
    have hasked (e : Ev) : ∃ n v, Asked (given s e) f o n v := askHome_asked (hat e) hf hlive hdom
    have hreads (hopen : f.open_ = none) := does_oasisReadRequest (s := s)
      (asking_some hf hfault hst (by rw [hopen]; rfl))
    refine ⟨fun hopen hver hloc hroom => ?hbm, fun k hopen hver hloc => ?clc, fun hopen hver hroom => ?parked,
      fun hopen howner => ?zeros⟩
    case hbm =>
      obtain ⟨n, v, hask⟩ := hasked (.oasisReadRequest f.id none)
      obtain ⟨hentry, hfill⟩ := oRequest_hbm (r := requestOf _ f) hask.home hask.fill hask.pkg hask.live hopen hver hloc hroom hhold
      exact ⟨_, hreads hopen, hask.request ▸ hentry, n, hask.request ▸ hfill⟩
    case clc =>
      obtain ⟨n, v, hask⟩ := hasked (.oasisReadRequest f.id none)
      obtain ⟨hentry, hfill, hsay⟩ := oRequest_clc (r := requestOf _ f) hask.home hask.fill hask.pkg hask.live hopen hver hloc
      exact ⟨_, hreads hopen, hask.request ▸ hentry, ⟨n, hask.request ▸ hfill⟩, hask.request ▸ hsay⟩
    case parked =>
      obtain ⟨n, v, hask⟩ := hasked (.oasisReadRequest f.id none)
      obtain ⟨hentry, hfill⟩ := oRequest_parked (r := requestOf _ f) hask.home hask.fill hask.pkg hopen hver (hask.room.trans_lt hroom)
      rw [hreplay, List.nil_append] at hentry
      exact ⟨_, _, hreads hopen, hask.request ▸ hentry, rfl, n, hask.request ▸ hfill⟩
    case zeros =>
      obtain ⟨n, v, hask⟩ := hasked (.oasisOpenRequest f.id none)
      obtain ⟨hentry, hfill⟩ := oRequest_zeros (r := requestOf _ f) hask.home hask.fill hask.pkg hask.live hopen howner hreplay
      have hline : n = f.clc := hask.noLine (by rw [hopen]; rfl)
      subst hline
      exact ⟨_, does_oasisOpenRequest (asking_some hf hfault hst (by rw [hopen]; rfl)), hask.request ▸ hentry, hask.request ▸ hfill⟩
  case post =>
    subst hlt
    obtain ⟨hentry, hvalid⟩ := postHere_copied (hat _) hreplay hline hwritten howner hcopy
    exact ⟨_, does_oasisPost hline hpost hhome hfree, (entriesOf_congr (steady_purgeStep _) _).trans hentry,
      (ctcLine_congr (steady_purgeStep _) _ _).trans hvalid⟩

end Sys2Proof.Machine
end

section
/-! PROOF. Words and their bytes (R6): a word is the sum of its bytes, and each byte is a digit of the word. -/
namespace Sys2Proof.Machine

/-- Bytes that are the digits of a number are its remainder. -/
theorem ofLe_digits {f : Nat → Byte} {n x : Nat} (h : ∀ i, i < n → (f i).toNat = x / 2 ^ (8 * i) % 256) :
    ofLe ((List.range n).map f) = x % 2 ^ (8 * n) := by
  induction n generalizing f x with
  | zero => simp [ofLe, Nat.mod_one]
  | succ n ih =>
    have hlow : (f 0).toNat = x % 256 := by simpa using h 0 (Nat.succ_pos n)
    have hrest : ∀ i, i < n → (f (i + 1)).toNat = x / 256 / 2 ^ (8 * i) % 256 := fun i hi => by
      rw [h (i + 1) (Nat.succ_lt_succ hi), Nat.div_div_eq_div_mul, show 2 ^ (8 * (i + 1)) = 256 * 2 ^ (8 * i) by
        rw [Nat.mul_succ, Nat.pow_add, Nat.mul_comm]]
    rw [List.range_succ_eq_map, List.map_cons, List.map_map, ofLe, hlow]
    show x % 256 + 256 * ofLe ((List.range n).map fun i => f (i + 1)) = _
    rw [ih hrest, show 2 ^ (8 * (n + 1)) = 256 * 2 ^ (8 * n) by rw [Nat.mul_succ, Nat.pow_add, Nat.mul_comm], Nat.mod_mul]

theorem ofLe_leBytes (x n : Nat) : ofLe (leBytes x n) = x % 2 ^ (8 * n) :=
  ofLe_digits fun i _ => by rw [BitVec.toNat_ofNat, Nat.shiftRight_eq_div_pow]

@[simp] theorem length_leBytes (x n : Nat) : (leBytes x n).length = n := by simp [leBytes]

/-- A byte is a digit of the number of its list. -/
theorem digit_ofLe (b : List Byte) {i : Nat} (hi : i < b.length) : BitVec.ofNat 8 (ofLe b / 2 ^ (8 * i)) = b[i] := by
  induction b generalizing i with
  | nil => exact absurd hi (Nat.not_lt_zero i)
  | cons a b ih =>
    have ha := a.isLt
    cases i with
    | zero =>
      apply BitVec.eq_of_toNat_eq
      rw [BitVec.toNat_ofNat, ofLe, Nat.mul_zero, Nat.pow_zero, Nat.div_one, List.getElem_cons_zero]
      omega
    | succ i =>
      rw [List.getElem_cons_succ, ← ih (Nat.lt_of_succ_lt_succ hi), ofLe, show 2 ^ (8 * (i + 1)) = 256 * 2 ^ (8 * i) by
        rw [Nat.mul_succ, Nat.pow_add, Nat.mul_comm], ← Nat.div_div_eq_div_mul,
        show (a.toNat + 256 * ofLe b) / 256 = ofLe b by omega]

/-- The byte of memory at an offset is a digit of the word that is read there. -/
theorem digit_word (m : Memory) (pa n a : Nat) (hlo : pa ≤ a) (hhi : a < pa + n) :
    BitVec.ofNat 8 (ofLe (Memory.bytes m pa n) / 2 ^ (8 * (a - pa))) = Memory.read m a := by
  have hlen : a - pa < (Memory.bytes m pa n).length := by simp [Memory.bytes]; omega
  rw [digit_ofLe _ hlen]
  simp [Memory.bytes, show pa + (a - pa) = a by omega]

end Sys2Proof.Machine
end

section
/-! PROOF. `ld` (O20): the load that it leaves in flight from one sector of HBM, its trap, and the performance of a load of one piece from
a current line of its core's L1D (R108, R131, R139, R213, R279). -/
namespace Sys2Proof.Machine
open Sys2Proof.Claims

/-! ### The instruction -/

/-- An access within one sector is one piece. -/
theorem sectorPieces_within {pa n : Nat} (hn : 0 < n) (h : pa % 32 + n ≤ 32) : sectorPieces pa n = [(pa, 0, n)] := by
  have hcount : (pa + n - 1) / 32 - pa / 32 + 1 = 1 := by omega
  have hlen : sectorLen pa n 0 = n := by unfold sectorLen sectorFrom; rw [if_pos rfl]; omega
  rw [sectorPieces_eq hn, hcount]
  show [(pa, pa - pa, sectorLen pa n 0)] = _
  rw [hlen, Nat.sub_self]

theorem Width_bytes_eq (w : Width) : Width_bytes w = (bytesOf w).1 := by cases w <;> rfl

/-- A scalar load put in flight: what the context and the trace become. -/
def loading (s : State) (d : Dst) (l : List LoadPart) (w : Width) : State :=
  upd (trOverlap s d) fun x => flyLoad x d l (some w) 1 8 none

theorem loading_frame (s : State) (d : Dst) (l : List LoadPart) (w : Width) : loading s d l w = { s with
    ctx := (loading s d l w).ctx, dev := (loading s d l w).dev, trace := (loading s d l w).trace, free := (loading s d l w).free } := by
  unfold loading
  rw [trOverlap_frame]
  rfl
theorem ctxOf_loading {s : State} {c : Nat} (d : Dst) (l : List LoadPart) (w : Width) (h : c ≠ s.cur) :
    ctxOf (loading s d l w) c = ctxOf s c := by
  unfold loading
  rw [ctxOf_upd_ne _ _ (by rwa [cur_trOverlap]), ctxOf_trOverlap]
theorem flights_loading (s : State) (x : Ctx) (r : SReg) (l : List LoadPart) (w : Width) :
    (cc (loading s (dstS x r) l w)).flights =
      (cc s).flights ++ [{ dst := dstS x r, pos := (cc s).pos, bound := 8, parts := l, ext := some w }] := by
  unfold loading
  rw [cc_upd, cc_trOverlap]
  rfl

section
variable {s : State} {d : SReg} {m : MemOp} {w : Width} (hloop : loopReg (cc s) d = false)
include hloop

/-- `ld` from HBM in one page puts one result in flight. -/
theorem exec_ld {pa cp : Nat} {l : List LoadPart} (hmap : mapped s (memAddr (cc s) m) .read pa cp)
    (hpage : (memAddr (cc s) m).toNat % 65536 + Width_bytes w ≤ 65536) (hhbm : pa + Width_bytes w ≤ 0x00C000000000)
    (hl : loadParts s (wholePiece s (memAddr (cc s) m) (Width_bytes w) pa cp) = l) (htags : tagsFull s (coreOf s.cur) l = false) :
    exec (.ld d m w) s = .next (loading (trMem s s.cur 4 (memAddr (cc s) m).toNat (Width_lg w)) (dstS (cc s) d) l w) := by
  have hn : 0 < Width_bytes w := by cases w <;> decide
  obtain ⟨-, -, -, hdev⟩ := map_range (pa := pa) (by omega)
  show run 0 _ s = _
  apply run_ok
  rw [M_bind_ok (getC_apply s), opTrap, hloop, M_bind_ok (trapIf_false 51 0 0 s), M_bind_ok (pieces_onePage hmap hn hpage hhbm),
    M_bind_ok (modify_apply _ s), trMem_frame]
  exact loadOut_here ((startParts_one hdev).trans (by rw [← hl]; rfl)) htags

/-- `ld` traps where its translation faults (R417). -/
theorem exec_ld_fault {t : State} {sub : Nat}
    (hfault : translate s (.core (coreOf s.cur)) (asidOf s s.cur) (memAddr (cc s) m) .read = (.fault sub, t))
    (hall : allHere (cc t) = true) : exec (.ld d m w) s = .next (takeTrap t t.cur sub (memAddr (cc s) m) 1 (some 0)) := by
  have hn : 0 < Width_bytes w := by cases w <;> decide
  show run 0 _ s = _
  refine run_trap ?_ hall
  rw [M_bind_ok (getC_apply s), opTrap, hloop, M_bind_ok (trapIf_false 51 0 0 s), M_bind_error (pieces_fault hn hfault)]
  rfl

end

/-! ### The performance of a load of one piece (R131, R139) -/

/-- A read of a current line of an L1D takes its bytes there. -/
theorem coreReadPiece_line {s : State} {c pa cp n : Nat} {l : Line} (hpa : pa < 0x00C000000000) (hcp : cp ≤ 1)
    (hl : inL1 s c pa l) : coreReadPiece s (coreOf c) pa cp n = ((Line_bytes l (pa % 128) n).1, (Line_bytes l (pa % 128) n).2, s) := by
  obtain ⟨hline, hgens⟩ := hl
  have hunc : uncached s pa cp = false := by rw [uncached_hbm hpa]; simp; omega
  unfold coreReadPiece
  rw [hunc, if_neg Bool.false_ne_true, if_neg (by omega), l1Ensure_current hline hgens]

theorem partMeter_off {s : State} (h : bsuOn s = false) (c i : Nat) (f : Flight) (p : LoadPart) :
    partMeter s c f i p = (true, s) := by
  unfold partMeter meterFor
  simp [h]

section
variable {u : State} {c k : Nat} {f : Flight} {p : LoadPart} (hdue : loadDue u c k f p)
include hdue

theorem samplePart_line {l : Line} (hacq : f.acq = none) (hl : inL1 u c p.pa l) :
    samplePart u c k 0 = putPart u c k 0 (Line_bytes l (p.pa % 128) p.len).1 (Line_bytes l (p.pa % 128) p.len).2 := by
  obtain ⟨hf, hp, -, hask, hgot, heseq, -, hpkg, hpa, hcp, hlen, hturn, hbsu⟩ := hdue
  obtain ⟨-, -, hmbox, -⟩ := map_range hpa
  have hidle : LoadPart_idle p = true := by simp [LoadPart_idle, hgot, heseq]
  unfold samplePart
  simp [hf, hp, hidle, hturn, hask, hacq, hmbox, partMeter_off hbsu, coreReadPiece_line hpa hcp hl]

end

/-- Piece `i` of a load with its bytes. -/
def gotPart (i : Nat) (b : List Byte) (bad : Bool) (f : Flight) : Flight := { f with
  poison := if bad && f.poison.isNone then some (Flight_va f) else f.poison
  parts := f.parts.modify i fun p => { p with got := some (b, bad) } }

/-- Besides the load of the piece, its performance changes the share unit's grants alone. -/
theorem putPart_eq (u : State) (c k i : Nat) (b : List Byte) (bad : Bool) :
    ∃ g, putPart u c k i b bad = { updFlight u c k (gotPart i b bad) with bsu := g } := by
  unfold putPart
  dsimp only
  split
  · split
    · exact ⟨_, rfl⟩
    · exact ⟨u.bsu, rfl⟩
  · exact ⟨u.bsu, rfl⟩

/-- A load of one piece, performed. -/
theorem gotPart_one {f : Flight} {p : LoadPart} (hp : f.parts = [p]) (hpsn : f.poison = none) (hoff : p.off = 0) (b : List Byte)
    (bad : Bool) : gotPart 0 b bad f =
      { f with poison := if bad then some p.va else none, parts := [{ p with got := some (b, bad) }] } := by
  have hva : Flight_va f = p.va := by simp [Flight_va, hp, hoff]
  unfold gotPart
  rw [hp, hpsn, hva, Option.isNone_none, Bool.and_true]
  rfl

/-! ### The value of the bytes of a line (R6, R139) -/

theorem ofLe_bytes_of_line (data : BitVec 1024) (o n : Nat) :
    ofLe ((List.range n).map fun i => data.extractLsb' (8 * (o + i)) 8) = data.toNat / 2 ^ (8 * o) % 2 ^ (8 * n) :=
  ofLe_digits fun i _ => by
    rw [BitVec.extractLsb'_toNat, Nat.shiftRight_eq_div_pow, Nat.mul_add, Nat.pow_add, Nat.div_div_eq_div_mul]

/-! ### The obligation -/

/-- Settles O20: a load of one sector has one piece, and a current line has its bytes. -/
theorem loadsTakeTheBytesOfTheirLine : Obligations.LoadsTakeTheBytesOfTheirLine := by
  refine ⟨?issued, ?performed⟩
  case issued =>
    intro s d m w pa cp x va n hloop
    have hva : memAddr (cc s) m = va := memAddr_eq (cc s) m
    have hn : Width_bytes w = n := Width_bytes_eq w
    refine ⟨fun hmap hpage hpa hsec htags => ?flies, fun sub t hfault hall => ?traps⟩
    case traps =>
      rw [← hva] at hfault ⊢
      exact exec_ld_fault hloop hfault hall
    case flies =>
      obtain ⟨hpos, -⟩ := bytesOf_bounds w
      have hhbm : pa + n ≤ 0x00C000000000 := by omega
      have hparts : loadParts s (wholePiece s va n pa cp) = (loadOf s d w va pa cp none).parts := by
        rw [loadParts_hbm hpos hhbm, sectorPieces_within hpos hsec]
        simp [sectorPart, loadOf]
      have hfree : tagsFull s (coreOf s.cur) (loadOf s d w va pa cp none).parts = false := by
        simp [tagsFull, loadOf, htags]
      refine ⟨_, exec_ld hloop (by rwa [hva]) (by rwa [hva, hn]) (by rwa [hn]) (by rw [hva, hn]; exact hparts) hfree, ?_,
        fun c hc => ?_, ?_⟩
      · rw [trMem_frame, flights_loading]
        rfl
      · rw [trMem_frame]
        exact ctxOf_loading _ _ _ hc
      · rw [trMem_frame, loading_frame]
        rfl
  case performed =>
    intro u c k f p l w hdue hacq hl hext hlen t bytes bad g
    have ht : t = putPart u c k 0 bytes bad := samplePart_line hdue hacq hl
    obtain ⟨hf, hp, hpsn, -, -, -, hoff, -⟩ := hdue
    obtain ⟨grants, hput⟩ := putPart_eq u c k 0 bytes bad
    rw [hput] at ht
    refine ⟨?flight, fun hgood => ?value, fun e he => ?others, ?frame⟩
    case flight =>
      have hmod : (ctxOf t c).flights = (ctxOf u c).flights.modify k (gotPart 0 bytes bad) := by
        rw [ht]
        show (ctxOf (updFlight u c k (gotPart 0 bytes bad)) c).flights = _
        rw [updFlight, ctxOf_updCtx_self]
      rw [hmod, List.modify_eq_set_getElem?, hf]
      exact congrArg _ (gotPart_one hp hpsn hoff bytes bad)
    case value =>
      have hnum : Flight_num g = ofLe bytes := Flight_num_one rfl rfl hoff
      have hbytes : bytes.length = (bytesOf w).1 := by simp [bytes, hlen]
      have hval : Flight_val g = (Width_ext w (ofLe bytes)).setWidth 2048 := by
        rw [← hnum]
        simp [Flight_val, g, hext]
      rw [hval, Width_ext_eq w hbytes, ofLe_bytes_of_line]
    case others =>
      rw [ht]
      show ctxOf (updFlight u c k (gotPart 0 bytes bad)) e = _
      exact ctxOf_updCtx_ne _ _ he
    case frame =>
      rw [ht]
      rfl

end Sys2Proof.Machine
end

section
/-! PROOF. The bandwidth share unit (O44): the buckets that a refill deals to an only active class, and the clock of a port with one
request (R122 to R124). -/
namespace Sys2Proof.Machine
open Sys2Proof.Claims

/-! ### Refills (R123) -/

/-- The active classes, where there is one. -/
theorem activeClasses_only {s : State} {i : Fin 16} (hact : ∀ k : Fin 16, bsuActive s k = true ↔ k = i) :
    (List.range 16).filter (bsuActive s) = [i.val] := by
  have hsame : ∀ c ∈ List.range 16, bsuActive s c = (c == i.val) := fun c hc => by
    rw [Bool.eq_iff_iff, beq_iff_eq]
    exact (hact ⟨c, List.mem_range.1 hc⟩).trans Fin.ext_iff
  rw [List.filter_congr hsame, List.filter_beq,
    List.count_eq_one_of_mem List.nodup_range (List.mem_range.2 i.isLt), List.replicate_one]

theorem bsuShare_le (s : State) (c : Nat) : bsuShare s c * bsuPool s / 256 ≤ bsuPool s := by
  have hmax : bsuShare s c ≤ 256 := Nat.min_le_left ..
  exact Nat.div_le_of_le_mul (Nat.mul_le_mul_right _ hmax)

/-- An only active class with a share takes all of the pool: its share, and then all that is idle. -/
theorem bsuBuckets_only {s : State} {i : Fin 16} (hact : ∀ k : Fin 16, bsuActive s k = true ↔ k = i) (hshare : 0 < bsuShare s i)
    (k : Fin 16) : (bsuBuckets s)[k] = if k = i then bsuPool s else 0 := by
  have hall := bsuShare_le s i
  unfold bsuBuckets
  simp only [activeClasses_only hact, List.map_cons, List.map_nil, List.foldl_cons, List.foldl_nil, Nat.zero_add, hshare,
    ↓reduceIte, gt_iff_lt, Nat.mul_div_cancel _ hshare, Nat.sub_self, List.take_zero, List.contains_nil, Nat.add_zero,
    Bool.false_eq_true, Fin.getElem_fin, Vector.getElem_ofFn, bsuPart]
  by_cases hk : k = i
  · subst hk
    rw [if_pos rfl, (hact k).2 rfl]
    simp only [Bool.not_true, Bool.false_eq_true, ↓reduceIte, Nat.mul_div_cancel _ hshare]
    omega
  · have hidle : bsuActive s k = false := Bool.eq_false_iff.2 fun h => hk ((hact k).1 h)
    simp [hidle, hk]

/-! ### A port with one request (R122, R124) -/

theorem bucketOf_fin (s : State) (i : Fin 16) : bucketOf s i = s.bsu.bucket[i] := by
  simp [bucketOf, List.getD_eq_getElem?_getD]

/-- The port's only request sends a unit where it has one left and its class has a token. -/
theorem portNext_one {s : State} {core : Nat} {r : PortReq} (hq : SMap.getD s.bsu.queue core [] = [r]) :
    portNext s core = if 0 < r.left ∧ 0 < bucketOf s r.cls then some r else none := by
  unfold portNext
  rw [hq, List.find?_cons]
  split
  · next h => rw [if_pos (by simpa using h)]
  · next h => rw [if_neg (by simpa using h)]; rfl

/-- A port of which no request can send a unit. -/
theorem portUnit_none {s : State} {core : Nat} (h : portNext s core = none) : portUnit s core = s := by
  unfold portUnit
  rw [h]

/-- The state after the last unit of the port's only request, of class `i`. -/
def lastUnit (s : State) (core : Nat) (r : PortReq) (i : Fin 16) : State :=
  let t := devSet s (bsuUsed i) (devGet s (bsuUsed i) + 1)
  { t with bsu := { t.bsu with
    bucket := s.bsu.bucket.set i (s.bsu.bucket[i] - 1)
    queue := SMap.set s.bsu.queue core [{ r with left := 0 }] } }

theorem portUnit_last {s : State} {core : Nat} {r : PortReq} {i : Fin 16} (hq : SMap.getD s.bsu.queue core [] = [r])
    (hcls : r.cls = i) (hleft : r.left = 1) (htoken : 0 < s.bsu.bucket[i]) : portUnit s core = lastUnit s core r i := by
  have hnext : portNext s core = some r := by
    rw [portNext_one hq, hcls, bucketOf_fin, hleft, if_pos ⟨Nat.one_pos, htoken⟩]
  unfold portUnit
  rw [hnext]
  simp [hq, hcls, hleft, lastUnit, devSet]

/-- A clock of a port whose only request has one unit left and a token: it leaves, and the request is finished. -/
theorem portClock_last {s : State} {core : Nat} {r : PortReq} {i : Fin 16} (hq : SMap.getD s.bsu.queue core [] = [r])
    (hcls : r.cls = i) (hleft : r.left = 1) (htoken : 0 < s.bsu.bucket[i]) : portClock s core =
      let t := lastUnit s core r i
      { t with bsu := { t.bsu with
        turn := core + 1
        grants := s.bsu.grants ++ (if r.key < prefKey then [(r.owner, r.key)] else [])
        queue := SMap.set t.bsu.queue core [] } } := by
  have hqueue : SMap.getD (lastUnit s core r i).bsu.queue core [] = [{ r with left := 0 }] := SMap.getD_set_self ..
  have hstop : portUnit (lastUnit s core r i) core = lastUnit s core r i :=
    portUnit_none (by rw [portNext_one hqueue, if_neg fun h => absurd h.1 (Nat.lt_irrefl 0)])
  unfold portClock
  dsimp only
  rw [portUnit_last hq hcls hleft htoken, hstop, hstop, hstop, hqueue]
  by_cases hkey : r.key < prefKey <;> simp [hkey, lastUnit, devSet]

/-- A clock of a port whose only request waits for a token: nothing leaves. -/
theorem portClock_waits {s : State} {core : Nat} {r : PortReq} (hq : SMap.getD s.bsu.queue core [] = [r])
    (hleft : 0 < r.left) (hnone : bucketOf s r.cls = 0) : portClock s core =
      { s with bsu := { s.bsu with turn := core + 1, queue := SMap.set s.bsu.queue core [r] } } := by
  have hstop : portUnit s core = s :=
    portUnit_none (by rw [portNext_one hq, if_neg fun h => absurd h.2 (by omega)])
  have hne : r.left ≠ 0 := by omega
  unfold portClock
  dsimp only
  rw [hstop, hstop, hstop, hstop, hq]
  simp [hne, hleft]

/-! ### The steps of the unit -/

theorem bsuOn_devSet (s : State) (w : Word) : bsuOn (devSet s 0xF00000C10000 w) = w.getLsbD 63 := by
  unfold bsuOn
  rw [devGet_devSet_self]

theorem bsuOn_bsuOnWrite (s : State) (w : Word) : bsuOn (bsuOnWrite s w) = w.getLsbD 63 := by
  have hset : bsuOn (devSet s 0xF00000C10000 (w &&& 0x80000000000FFFFF)) = w.getLsbD 63 := by
    rw [bsuOn_devSet]
    simp
  unfold bsuOnWrite
  dsimp only
  split <;> exact hset

/-- A write with en = 1 refills at once where it changes en. -/
theorem refillAt_bsuOnWrite (s : State) (w : Word) :
    (bsuOnWrite s w).bsu.refillAt = if bsuOn s then s.bsu.refillAt else some (s.clk + 1024) := by
  unfold bsuOnWrite
  dsimp only
  split <;> rfl

/-- What the step `BSU_REFILL` does: a refill where one is due. -/
def refillDue (s : State) : State :=
  match s.bsu.refillAt with
  | some t => if t ≤ s.clk then refillNow s t else s
  | none => s

theorem does_bsuRefill (s : State) : does .bsuRefill s (refillDue (given s .bsuRefill)) := rfl

theorem refillDue_never {s : State} (h : s.bsu.refillAt = none) : refillDue s = s := by
  unfold refillDue
  rw [h]

theorem refillDue_early {s : State} {t : Nat} (h : s.bsu.refillAt = some t) (hlt : s.clk < t) : refillDue s = s := by
  unfold refillDue
  rw [h]
  exact if_neg (by omega)

theorem refillDue_now {s : State} {t : Nat} (h : s.bsu.refillAt = some t) (hle : t ≤ s.clk) :
    refillDue s = refillNow s t := by
  unfold refillDue
  rw [h]
  exact if_pos hle

theorem queue_refillDue (s : State) : (refillDue s).bsu.queue = s.bsu.queue := by
  unfold refillDue
  split
  · split <;> rfl
  · rfl

/-- What the step `PORT_UNIT_SEND` does: a clock of the port while the unit is on. -/
def portStep (s : State) (core : Nat) : State := if bsuOn s then portClock s core else s

theorem does_portUnitSend (s : State) (core : Nat) :
    does (.portUnitSend core) s (portStep (given s (.portUnitSend core)) core) := rfl

/-! ### The obligation -/

/-- Settles O44: the writes of `bsuctl`, a refill with one active class, and a clock of a port with one request. -/
theorem sharesAreRefilledAndSpent : Obligations.SharesAreRefilledAndSpent := by
  intro s w b at_ core r i sends
  refine ⟨⟨_, rfl, rfl, rfl, rfl, ?disabled⟩, ⟨_, rfl, fun hen => ?enabled, refillAt_bsuOnWrite _ w⟩,
    ⟨_, does_bsuRefill s, queue_refillDue _, refillDue_never (s := given s .bsuRefill),
    refillDue_early (s := given s .bsuRefill), fun h hle => ?due⟩,
    ⟨_, does_portUnitSend s core, fun hoff => if_neg (Bool.eq_false_iff.1 hoff), fun hon hq hcls => ?on⟩⟩
  case disabled =>
    refine (bsuOn_devSet _ _).trans ?_
    simp
  case enabled => exact (bsuOn_bsuOnWrite _ w).trans hen
  case due =>
    rw [refillDue_now (s := given s .bsuRefill) h hle]
    exact ⟨rfl, rfl, fun hact hshare => bsuBuckets_only hact hshare⟩
  case on =>
    rw [show portStep (given s sends) core = portClock (given s sends) core from if_pos hon]
    refine ⟨fun hleft htoken => ?sent, fun hleft hnone => ?waits⟩
    case sent =>
      rw [portClock_last (s := given s sends) hq hcls hleft htoken]
      exact ⟨rfl, rfl, SMap.getD_set_self .., devGet_devSet_self ..⟩
    case waits =>
      rw [portClock_waits (s := given s sends) hq hleft (by rw [hcls, bucketOf_fin]; exact hnone)]
      exact ⟨rfl, rfl, SMap.getD_set_self ..⟩

end Sys2Proof.Machine
end

section
/-! PROOF. Frame pools (O57, refuted). Maps of a state are lists that the model's own updates keep sorted, but the statement takes any
state, and only the memories' order is among its hypotheses (`memOk`). A push of a frame first kills it (R104), which takes its
sectors out of the poison map; where that map is not sorted, an entry that the lookup passed over comes to light. -/
namespace Sys2Proof.Machine
open Sys2Proof.Claims

/-- Die 1's pool of two frames at 0x50000 holds one. Its next place lies in sector 0x2800, whose entry of the poison map stands behind
that of sector 0x3B800, of frame 0x77, so that no lookup finds it. -/
def disorderedPool : State :=
  { State.reset with
    dev := [(0xF00001521100, 0x50000), (0xF00001521108, 2), (0xF00001521110, 1)]
    hbm := { live := [(0x50, ())], poison := [(0x3B800, ()), (0x2800, ())] } }

/-- The place of the pushed frame is plain HBM. -/
theorem plainHbm_disorderedPool : plainHbm disorderedPool 0x50004 4 := by
  unfold plainHbm
  decide +kernel

/-- The push of frame 0x77 brings the poison of its place to light, so that its number is not written there (R109). -/
theorem mem_poolPush_disorderedPool : (poolPush (given disorderedPool (.fppush 1 0x77 .mgmt)) 1 0x77).hbm.mem = [] := by
  decide +kernel

theorem does_fppush {s : State} {d : Nat} {w : Word} {b : Writer} (h : mayWrite (dieReg d 0x18) b = true) :
    does (.fppush d w b) s (poolPush (given s (.fppush d w b)) d (bitsAt w.toNat 0 32)) :=
  congrArg Host.Outcome.next (if_pos h)

/-- Refutes O57: in `disorderedPool` the push of frame 0x77 onto die 1's pool leaves the four bytes of its place 0. -/
theorem not_registersAreWritten : ¬ Obligations.RegistersAreWritten := by
  intro h
  obtain ⟨-, -, -, -, -, -, -, hpush, -⟩ := h disorderedPool 0x77 .mgmt 1 0 0 0 0 0 0
  obtain ⟨t, hdoes, -, hbytes⟩ := (hpush rfl rfl).1 (by decide +kernel)
  have ht := hdoes.symm.trans (does_fppush (s := disorderedPool) (d := 1) (w := 0x77) (b := .mgmt) rfl)
  injection ht with ht
  have hmem : t.hbm.mem = [] := ht ▸ mem_poolPush_disorderedPool
  have hlost := hbytes (by decide +kernel) plainHbm_disorderedPool (by decide +kernel)
  rw [hmem] at hlost
  exact absurd hlost (by decide +kernel)

end Sys2Proof.Machine
end

section
/-! PROOF. Words of plain HBM that no cache of the asking core holds: what the read and the write of an aligned word at its home, and
the flush before it, come to (R103, R114, R115, R142). The atomics of O23 and the remote operations of O45 share these rules. -/
namespace Sys2Proof.Machine
open Sys2Proof.Claims

/-! ### What the operations of a remote unit leave as it is -/

/-- The word of `n` bytes at an address. -/
def wordOf (m : Memory) (pa n : Nat) : Nat := ofLe (Memory.bytes m pa n)

/-- `t` is `s` after accesses to clean sectors: no cache has another line, the HBM has the same replies on their way, and its clean
sectors and its live blocks are clean and live still. -/
structure Reached (s t : State) : Prop where
  frame : t = { s with hbm := t.hbm, undo := t.undo, l1d := t.l1d, clc := t.clc, l1q := t.l1q }
  replies : t.hbm.replies = s.hbm.replies
  canonical : memOk s = true → memOk t = true
  clean : ∀ sec, CleanSec s sec → CleanSec t sec
  live : ∀ pa, isLive s pa = true → isLive t pa = true
  l1 : ∀ k, l1Of t k = l1Of s k
  cl : ∀ k, clcOf t k = clcOf s k

theorem Reached.refl (s : State) : Reached s s := ⟨rfl, rfl, id, fun _ => id, fun _ => id, fun _ => rfl, fun _ => rfl⟩

theorem Reached.trans {s t u : State} (h : Reached s t) (g : Reached t u) : Reached s u where
  frame := by rw [g.frame, h.frame]
  replies := g.replies.trans h.replies
  canonical := g.canonical ∘ h.canonical
  clean sec := g.clean sec ∘ h.clean sec
  live pa := g.live pa ∘ h.live pa
  l1 k := (g.l1 k).trans (h.l1 k)
  cl k := (g.cl k).trans (h.cl k)

section
variable {s t : State} (h : Reached s t)
include h

theorem Reached.pkg : t.pkg = s.pkg := by rw [h.frame]
theorem Reached.clk : t.clk = s.clk := by rw [h.frame]
theorem Reached.fab : t.fab = s.fab := by rw [h.frame]
theorem Reached.ctx : t.ctx = s.ctx := by rw [h.frame]
theorem Reached.cur : t.cur = s.cur := by rw [h.frame]

theorem Reached.uncached {core pa : Nat} (hu : uncachedAt s core pa) : uncachedAt t core pa := by
  unfold uncachedAt at *
  rwa [h.l1, h.cl]

end

/-- Plain HBM by its sectors. -/
theorem plainHbm_iff {s : State} {pa n : Nat} : plainHbm s pa n ↔
    pa + n ≤ 0x00C000000000 ∧ ∀ i, i < n → isLive s (pa + i) = true ∧ CleanSec s ((pa + i) / 32) := by
  refine ⟨fun h => ⟨h.1, fun i hi => ?_⟩, fun ⟨hend, h⟩ => ⟨hend, fun i hi => ?_⟩⟩
  · obtain ⟨-, hbyte⟩ := id h
    obtain ⟨hlive, -⟩ := hbyte i hi
    exact ⟨hlive, cleanSec_of_plainHbm h (by omega) (by omega)⟩
  · obtain ⟨hlive, hfail, hsnoop, hpsn⟩ := h i hi
    rw [chanOf_sector] at hfail
    rw [snoopOf_sector] at hsnoop
    exact ⟨hlive, hpsn, hfail, hsnoop⟩

theorem Reached.plain {s t : State} (h : Reached s t) {pa n : Nat} (hp : plainHbm s pa n) : plainHbm t pa n := by
  rw [plainHbm_iff] at *
  obtain ⟨hend, hbyte⟩ := hp
  exact ⟨hend, fun i hi => have ⟨hlive, hclean⟩ := hbyte i hi; ⟨h.live _ hlive, h.clean _ hclean⟩⟩

/-! ### The flush before an operation at home (R114, R142) -/

/-- Dropping a line that a cache does not hold leaves every cache its lines. -/
theorem getD_dropLine {m : SMap Cache} {i ln : Nat} (h : SMap.get? (SMap.getD m i {}).lines ln = none) (k : Nat) :
    SMap.getD (SMap.modify m i {} fun c => { c with lines := SMap.erase c.lines ln }) k {} = SMap.getD m k {} := by
  unfold SMap.modify
  by_cases hk : k = i
  · rw [hk]
    dsimp only
    rw [SMap.erase_of_get?_none h, SMap.getD, SMap.get?_set_self]
    rfl
  · rw [SMap.getD, SMap.get?_set_ne _ _ hk]
    rfl

theorem flushOwn_uncached {s : State} {core pa : Nat} (h : uncachedAt s core pa) :
    flushOwn s core pa = setClc (setL1 s core (pa / 128) none) (core / 8) (pa / 128) none := by
  obtain ⟨hl1, hcl⟩ := h
  unfold flushOwn
  have hback : l1WriteBack s core (pa / 128) = s := by
    unfold l1WriteBack l1WriteBackM
    rw [hl1]
  have hclc : clcWriteBack (setL1 s core (pa / 128) none) (core / 8) (pa / 128) = setL1 s core (pa / 128) none := by
    unfold clcWriteBack clcWriteBackM
    rw [show clcOf (setL1 s core (pa / 128) none) (core / 8) = clcOf s (core / 8) from rfl, hcl]
  dsimp only
  rw [hback, hclc]

/-- Nothing is flushed of a line that neither cache holds. -/
theorem reached_flushOwn {s : State} {core pa : Nat} (h : uncachedAt s core pa) : Reached s (flushOwn s core pa) := by
  have hflush := flushOwn_uncached h
  obtain ⟨hl1, hcl⟩ := h
  refine ⟨by rw [hflush]; rfl, by rw [hflush]; rfl, memOk_flushOwn, fun sec hsec => ?_, fun a ha => ?_, fun k => ?_, fun k => ?_⟩ <;>
    rw [hflush]
  · exact hsec
  · exact ha
  · exact getD_dropLine hl1 k
  · exact getD_dropLine hcl k

theorem flushOwn_hbm {s : State} {core pa : Nat} (h : uncachedAt s core pa) : (flushOwn s core pa).hbm = s.hbm := by
  rw [flushOwn_uncached h]
  rfl

/-! ### The read of a word -/

theorem reached_activate (s : State) (pa : Nat) : Reached s (activate s pa) :=
  ⟨rfl, rfl, memOk_activate, fun _ => cleanSec_activate, fun _ => id, fun _ => rfl, fun _ => rfl⟩

theorem Memory.length_bytes (m : Memory) (a n : Nat) : (Memory.bytes m a n).length = n := by simp [Memory.bytes]

/-- The bytes at an address within the bytes of its sector. -/
theorem Memory.bytes_within (m : Memory) {base k pa n : Nat} (hlo : base ≤ pa) (hhi : pa + n ≤ base + k) :
    ((Memory.bytes m base k).drop (pa - base)).take n = Memory.bytes m pa n := by
  obtain ⟨i, rfl⟩ := Nat.exists_eq_add_of_le hlo
  obtain ⟨j, rfl⟩ := Nat.exists_eq_add_of_le (show i + n ≤ k by omega)
  rw [show i + n + j = i + (n + j) by omega, Memory.bytes_add, Memory.bytes_add, Nat.add_sub_cancel_left,
    List.drop_left' (Memory.length_bytes ..), List.take_left' (Memory.length_bytes ..)]

/-- A word of plain HBM within one sector, read at its home. -/
theorem atRead_plain {s : State} {pa n : Nat} (hn : 0 < n) (hsec : pa % 32 + n ≤ 32) (hp : plainHbm s pa n) :
    atRead s pa n = (some (wordOf s.hbm.mem pa n), activate s (pa / 32 * 32)) := by
  have hhbm : isHbm pa = true := isHbm_of_plainHbm hp (by omega)
  have hone : (pa + n - 1) / 32 - pa / 32 + 1 = 1 := by omega
  have hsector : hbmReadSecs s (pa / 32) 1 = (Memory.bytes s.hbm.mem (pa / 32 * 32) 32, [false], activate s (pa / 32 * 32)) := by
    rw [hbmReadSecs, hbmReadSec_clean (cleanSec_of_plainHbm hp (Nat.le_refl _) (by omega))
      (isLive_of_plainHbm hp (Nat.le_refl _) (by omega))]
    simp [hbmReadSecs]
  unfold atRead hbmReadN hbmRead
  rw [if_pos hhbm]
  dsimp only
  rw [hone, hsector]
  dsimp only
  rw [Memory.bytes_within _ (by omega) (by omega)]
  rfl

/-! ### The write of a word -/

/-- Memory after the write of a word of `n` bytes at `pa`. -/
def tookWord (m m' : Memory) (pa n x : Nat) : Prop := ∀ a, Memory.read m' a =
  if pa ≤ a ∧ a < pa + n then BitVec.ofNat 8 (x / 2 ^ (8 * (a - pa))) else Memory.read m a

theorem byteAt_leBytes (pa x n a : Nat) : byteAt pa ((leBytes x n).map some) a =
    if pa ≤ a ∧ a < pa + n then some (BitVec.ofNat 8 (x / 2 ^ (8 * (a - pa)))) else none := by
  by_cases hin : pa ≤ a ∧ a < pa + n
  · rw [if_pos hin, byteAt, if_pos hin.1, List.getD_eq_getElem _ _ (by simp; omega)]
    simp [leBytes, Nat.shiftRight_eq_div_pow]
  · rw [if_neg hin]
    exact byteAt_outside (by simp; omega)

/-- A word within one sector is written by one write of its sector. -/
theorem hbmPutN_sector (s : State) (q : Option Nat) {pa n : Nat} (x : Nat) (hn : 0 < n) (hsec : pa % 32 + n ≤ 32) :
    hbmPutN s q pa n x = hbmWriteSec s q (pa / 32) (secSlice pa ((leBytes x n).map some) (pa / 32)) false := by
  have hone : (pa + n - 1) / 32 - pa / 32 + 1 = 1 := by omega
  have hlen : ((leBytes x n).map some).length = n := by simp
  have hany : (secSlice pa ((leBytes x n).map some) (pa / 32)).any Option.isSome = true := by
    refine List.any_eq_true.2 ⟨some (BitVec.ofNat 8 x), List.mem_map.2 ⟨pa % 32, List.mem_range.2 (by omega), ?_⟩, rfl⟩
    rw [if_neg (by omega), show pa / 32 * 32 + pa % 32 - pa = 0 by omega, List.getD_eq_getElem _ _ (by omega)]
    simp [leBytes]
  unfold hbmPutN hbmPut hbmWrite
  rw [if_neg (by rw [List.isEmpty_iff_length_eq_zero, hlen]; omega), hlen, hone]
  show (if (secSlice pa _ (pa / 32 + 0)).any Option.isSome = true then _ else s) = _
  rw [Nat.add_zero, if_pos hany]

/-- The write of a clean sector. -/
theorem hbmWriteSec_clean {s : State} {sec : Nat} (q : Option Nat) (bs : List (Option Byte)) (hc : CleanSec s sec) :
    hbmWriteSec s q sec bs false = { openSec s q sec with hbm := { (openSec s q sec).hbm with
      live := SMap.set (openSec s q sec).hbm.live (sec * 32 / 4096) ()
      mem := Memory.store (openSec s q sec).hbm.mem (sec * 32) bs } } := by
  obtain ⟨hfail, hnone, -⟩ := id hc
  have hsnoop : snoopInv s (sec * 32) = s := by
    unfold snoopInv
    rw [hnone]
  rw [hbmWriteSec, hsnoop, chanWrite_eq, if_neg (by simp [hfail]), storeSec_clean bs (cleanSec_openSec hc)]

theorem SMap.has_set_of_has {α : Type} {m : SMap α} {n : Nat} (k : Nat) (v : α) (h : SMap.has m n = true) :
    SMap.has (SMap.set m k v) n = true := by
  unfold SMap.has at *
  by_cases hk : n = k
  · rw [hk, SMap.get?_set_self]
    rfl
  · rwa [SMap.get?_set_ne _ _ hk]

theorem reached_hbmWriteSec {s : State} {sec : Nat} (q : Option Nat) (bs : List (Option Byte)) (hc : CleanSec s sec) :
    Reached s (hbmWriteSec s q sec bs false) := by
  rw [hbmWriteSec_clean q bs hc]
  have hframe := openSec_frame s q sec
  refine ⟨by rw [hframe], by rw [hframe], fun hs => ?_, fun j hj => ?_, fun a ha => ?_, fun k => ?_, fun k => ?_⟩
  · rw [← hbmWriteSec_clean q bs hc]
    exact memOk_hbmWriteSec hs
  · exact cleanSec_congr (openSec s q sec) _ (fun _ => rfl) (fun _ => rfl) rfl (cleanSec_openSec hj)
  · have hl : (openSec s q sec).hbm.live = s.hbm.live := by rw [hframe]
    unfold isLive at *
    dsimp only
    rw [hl]
    exact SMap.has_set_of_has _ _ ha
  · rw [hframe]
    rfl
  · rw [hframe]
    rfl

section
variable {s : State} {pa n : Nat} (hn : 0 < n) (hp : plainHbm s pa n) (cs : List Nat) (q : Option Nat) (x : Nat)
include hn hp

theorem atWrite_plain : atWrite s cs q pa n x = hbmPutN s q pa n x := by
  unfold atWrite
  rw [if_pos (isHbm_of_plainHbm hp (by omega))]

theorem reached_atWrite (hsec : pa % 32 + n ≤ 32) : Reached s (atWrite s cs q pa n x) := by
  rw [atWrite_plain hn hp, hbmPutN_sector s q x hn hsec]
  exact reached_hbmWriteSec q _ (cleanSec_of_plainHbm hp (Nat.le_refl _) (by omega))

/-- A word of plain HBM written at its home: its bytes, and no other. -/
theorem tookWord_atWrite (hs : memOk s = true) : tookWord s.hbm.mem (atWrite s cs q pa n x).hbm.mem pa n x := by
  rw [atWrite_plain hn hp]
  intro a
  have hwrote := wroteHbm_hbmWrite q pa ((leBytes x n).map some) hs fun a hlo hhi =>
    cleanSec_of_plainHbm hp hlo (by simpa using hhi)
  rw [hbmPutN, hbmPut, hwrote.reads, byteAt_leBytes]
  split <;> rfl

end

theorem wordOf_lt (m : Memory) (a n : Nat) : wordOf m a n < 2 ^ (8 * n) := by
  have h := ofLe_lt (Memory.bytes m a n)
  rwa [Memory.length_bytes, show (256 : Nat) = 2 ^ 8 from rfl, ← Nat.pow_mul] at h

section
variable {m m' : Memory} {pa n x : Nat}

/-- The written word. -/
theorem wordOf_took_self (h : tookWord m m' pa n x) : wordOf m' pa n = x % 2 ^ (8 * n) :=
  ofLe_digits fun i hi => by rw [h, if_pos (by omega), BitVec.toNat_ofNat, Nat.add_sub_cancel_left]

/-- A word that lies apart from the written one. -/
theorem wordOf_took_apart (h : tookWord m m' pa n x) {a k : Nat} (hap : a + k ≤ pa ∨ pa + n ≤ a) : wordOf m' a k = wordOf m a k := by
  unfold wordOf Memory.bytes
  congr 1
  refine List.map_congr_left fun i hi => ?_
  have hi := List.mem_range.1 hi
  rw [h, if_neg (by omega)]

/-- Of what is written, only the word's bytes count. -/
theorem tookWord_mod (h : tookWord m m' pa n (x % 2 ^ (8 * n))) : tookWord m m' pa n x := by
  intro a
  rw [h]
  split
  · next hin =>
    obtain ⟨k, hk⟩ : ∃ k, n = (a - pa) + (k + 1) := ⟨pa + n - a - 1, by omega⟩
    apply BitVec.eq_of_toNat_eq
    rw [BitVec.toNat_ofNat, BitVec.toNat_ofNat, hk, Nat.mul_add, Nat.pow_add, Nat.mod_mul_right_div_self,
      Nat.mod_mod_of_dvd _ (Nat.pow_dvd_pow 2 (by omega))]
  · rfl

/-- Unchanged memory is memory whose word is written over itself. -/
theorem tookWord_self (m : Memory) (pa n : Nat) : tookWord m m pa n (wordOf m pa n) := by
  intro a
  split
  · next hin => exact (digit_word m pa n a hin.1 hin.2).symm
  · rfl

end

/-! ### Reservations (R120, R121) -/

/-- A map whose values are changed. -/
theorem SMap.get?_map_values {α : Type} (f : α → α) (m : SMap α) (n : Nat) :
    SMap.get? (m.map fun e => (e.1, f e.2)) n = (SMap.get? m n).map f := by
  induction m with
  | nil => rfl
  | cons e m ih =>
    simp only [List.map_cons, SMap.get?, ih]
    split
    · rfl
    · split <;> rfl

def dropResvOf (c : Nat) (x : Chan) : Chan := { x with resv := x.resv.filter fun r => r.ctx != c }

theorem chan_resvCancel (s : State) (c n : Nat) : chan (resvCancel s c) n = dropResvOf c (chan s n) := by
  show (SMap.get? (s.hbm.ch.map fun e => (e.1, dropResvOf c e.2)) n).getD {} = dropResvOf c ((SMap.get? s.hbm.ch n).getD {})
  rw [SMap.get?_map_values]
  cases SMap.get? s.hbm.ch n <;> rfl

/-- A context whose reservations are cancelled has none. -/
theorem ctx_ne_of_mem_resvCancel (s : State) (c n : Nat) : ∀ r ∈ (chan (resvCancel s c) n).resv, r.ctx ≠ c := by
  intro r hr
  rw [chan_resvCancel] at hr
  simpa using (List.mem_filter.1 hr).2

theorem mem_resvMake (s : State) (c pa : Nat) : (⟨c, pa / 32, s.clk⟩ : Resv) ∈ (chan (resvMake s c pa) (chanOf pa)).resv := by
  unfold resvMake
  rw [chan_setChan_self]
  exact List.mem_append_right _ (List.mem_singleton_self _)

/-- The context's reservation is the one made, and its only one. -/
theorem eq_of_mem_resvMake {s : State} {c pa : Nat} {r : Resv} (hr : r ∈ (chan (resvMake s c pa) (chanOf pa)).resv) (hc : r.ctx = c) :
    r = ⟨c, pa / 32, s.clk⟩ := by
  have hnone := ctx_ne_of_mem_resvCancel s c (chanOf pa)
  unfold resvMake at hr
  rw [chan_setChan_self] at hr
  obtain hold | hnew := List.mem_append.1 hr
  · split at hold
    · exact absurd hc (hnone r (List.mem_of_mem_tail hold))
    · exact absurd hc (hnone r hold)
  · exact List.mem_singleton.1 hnew

@[simp] theorem resvCancel_mem (s : State) (c : Nat) : (resvCancel s c).hbm.mem = s.hbm.mem := rfl
@[simp] theorem resvCancel_replies (s : State) (c : Nat) : (resvCancel s c).hbm.replies = s.hbm.replies := rfl
@[simp] theorem resvCancel_ctx (s : State) (c : Nat) : (resvCancel s c).ctx = s.ctx := rfl
@[simp] theorem resvCancel_cur (s : State) (c : Nat) : (resvCancel s c).cur = s.cur := rfl
@[simp] theorem resvMake_ctx (s : State) (c pa : Nat) : (resvMake s c pa).ctx = s.ctx := rfl
@[simp] theorem resvMake_cur (s : State) (c pa : Nat) : (resvMake s c pa).cur = s.cur := rfl
@[simp] theorem resvMake_mem (s : State) (c pa : Nat) : (resvMake s c pa).hbm.mem = s.hbm.mem := rfl
@[simp] theorem resvMake_replies (s : State) (c pa : Nat) : (resvMake s c pa).hbm.replies = s.hbm.replies := rfl

theorem resvHeld_iff {s : State} {c pa : Nat} : resvHeld s c pa = true ↔
    ∃ r, r ∈ (chan s (chanOf pa)).resv ∧ r.ctx = c ∧ r.sector = pa / 32 ∧ s.clk < r.clk + 4096 := by
  simp [resvHeld, List.any_eq_true, and_assoc]

/-! ### The operations of one word (R115, R120) -/

theorem AWidth_bytes_pos (w : AWidth) : 0 < AWidth_bytes w := by cases w <;> decide

/-- An aligned word lies in one sector. -/
theorem AWidth_in_sector {w : AWidth} {pa : Nat} (h : pa % AWidth_bytes w = 0) : pa % 32 + AWidth_bytes w ≤ 32 := by
  cases w <;> simp only [AWidth_bytes] at * <;> omega

section
variable {u : State} {pa : Nat} {w : AWidth} (hp : plainHbm u pa (AWidth_bytes w)) (hal : pa % AWidth_bytes w = 0)
include hp hal

theorem atRead_word : atRead u pa (AWidth_bytes w) = (some (wordOf u.hbm.mem pa (AWidth_bytes w)), activate u (pa / 32 * 32)) :=
  atRead_plain (AWidth_bytes_pos w) (AWidth_in_sector hal) hp

theorem rouLoadR_plain (c : Nat) :
    rouLoadR u c w pa = (some (wordOf u.hbm.mem pa (AWidth_bytes w)), resvMake (activate u (pa / 32 * 32)) c pa) := by
  rw [rouLoadR, atRead_word hp hal]

omit hal in
theorem rouStoreC_plain (c : Nat) (q : Option Nat) (x : Word) : rouStoreC u c q w pa x =
    if resvHeld u c pa then (some 0, resvCancel (atWrite u [c] q pa (AWidth_bytes w) (x.toNat % 2 ^ AWidth_bits w)) c)
    else (some 1, resvCancel u c) := by
  obtain ⟨-, hbyte⟩ := hp
  obtain ⟨-, hpsn, hfail, -⟩ := hbyte 0 (AWidth_bytes_pos w)
  rw [Nat.add_zero] at hpsn hfail
  rw [rouStoreC, hfail, hpsn]
  rfl

variable (hu : memOk u = true)
include hu

/-- A read of a word and then its write. -/
theorem atWrite_after_read (cs : List Nat) (q : Option Nat) (x : Nat) :
    let t := atWrite (activate u (pa / 32 * 32)) cs q pa (AWidth_bytes w) x
    Reached u t ∧ tookWord u.hbm.mem t.hbm.mem pa (AWidth_bytes w) x := by
  have hread := reached_activate u (pa / 32 * 32)
  exact ⟨hread.trans (reached_atWrite (AWidth_bytes_pos w) (hread.plain hp) cs q x (AWidth_in_sector hal)),
    tookWord_atWrite (AWidth_bytes_pos w) (hread.plain hp) cs q x (hread.canonical hu)⟩

theorem rouOp_plain (cs : List Nat) (q : Option Nat) (op : RouOp) (x : Word) :
    let old := wordOf u.hbm.mem pa (AWidth_bytes w)
    ∃ t, rouOp u cs q op w pa x = (some (old, (rouNew op w old x.toNat).2), t) ∧ Reached u t
      ∧ tookWord u.hbm.mem t.hbm.mem pa (AWidth_bytes w) (rouNew op w old x.toNat).1 := by
  refine ⟨_, ?_, atWrite_after_read hp hal hu cs q _⟩
  rw [rouOp, atRead_word hp hal]

theorem rouCas_plain (cs : List Nat) (q : Option Nat) (e x : Word) :
    let old := wordOf u.hbm.mem pa (AWidth_bytes w)
    ∃ t, rouCas u cs q w pa e x = (some old, t) ∧ Reached u t
      ∧ tookWord u.hbm.mem t.hbm.mem pa (AWidth_bytes w)
        (if old = e.toNat % 2 ^ AWidth_bits w then x.toNat % 2 ^ AWidth_bits w else old) := by
  dsimp only
  rw [rouCas, atRead_word hp hal]
  dsimp only
  refine ⟨_, rfl, ?_⟩
  split
  · exact atWrite_after_read hp hal hu cs q _
  · exact ⟨reached_activate u _, tookWord_self _ _ _⟩

end

end Sys2Proof.Machine
end

section
/-! PROOF. The remote operation units for a context (O45): a request at its channel is answered with what its operation answers
(R114, R115, R120, R121). -/
namespace Sys2Proof.Machine
open Sys2Proof.Claims

/-- The state in which a request's operation is performed: its core's copies are flushed. -/
def atUnit (s : State) (e : Ev) (c pa : Nat) : State := flushOwn (given s e) (coreOf c) pa

section
variable {s : State} {c pa : Nat} {w : AWidth} (tag : Nat) (e : Ev)

/-- A request with a free tag: what its operation leaves, and its reply. -/
theorem does_of_rouFor {t : State} {z : Nat} {f : State → Option Nat × State}
    (he : exec e.row (given s e) = .next (rouFor (given s e) c tag pa f)) (htag : noTag s (coreOf c) (chanOf pa) = false)
    (hf : f (atUnit s e c pa) = (some z, t)) : does e s (reply t ⟨coreOf c, tag, leBytes z 8, [false], chanOf pa⟩) := by
  have htag : noTag (given s e) (coreOf c) (chanOf pa) = false := htag
  have hf : f (flushOwn (given s e) (coreOf c) pa) = (some z, t) := hf
  rw [does, he, rouFor, htag, hf]
  rfl

variable (hu : uncachedAt s (coreOf c) pa)
include hu

theorem reached_atUnit : Reached (given s e) (atUnit s e c pa) := reached_flushOwn hu
theorem atUnit_hbm : (atUnit s e c pa).hbm = s.hbm := flushOwn_hbm (s := given s e) hu

/-- What is reached from there has the replies of the first state. -/
theorem replies_of_reached_atUnit {t : State} (h : Reached (atUnit s e c pa) t) : t.hbm.replies = s.hbm.replies :=
  ((reached_atUnit e hu).trans h).replies

theorem tookWord_atUnit (n : Nat) : tookWord s.hbm.mem (atUnit s e c pa).hbm.mem pa n (wordOf s.hbm.mem pa n) := by
  rw [atUnit_hbm e hu]
  exact tookWord_self _ _ _

theorem resvHeld_atUnit : resvHeld (atUnit s e c pa) c pa = resvHeld s c pa := by
  have hclk : (atUnit s e c pa).clk = s.clk := (reached_atUnit e hu).clk
  unfold resvHeld chan
  rw [atUnit_hbm e hu, hclk]

end

section
variable {s : State} {c pa : Nat} {w : AWidth} (tag : Nat) (x : Word)

/-- What the context is answered. -/
def answered (s t : State) (c tag pa z : Nat) : Prop :=
  t.hbm.replies = s.hbm.replies ++ [⟨coreOf c, tag, leBytes z 8, [false], chanOf pa⟩]

theorem answered_reply {s t : State} {c tag pa z : Nat} (h : t.hbm.replies = s.hbm.replies) :
    answered s (reply t ⟨coreOf c, tag, leBytes z 8, [false], chanOf pa⟩) c tag pa z := congrArg (· ++ _) h

variable (hs : memOk s = true) (hp : plainHbm s pa (AWidth_bytes w)) (hal : pa % AWidth_bytes w = 0)
  (hu : uncachedAt s (coreOf c) pa) (htag : noTag s (coreOf c) (chanOf pa) = false)
include hs hp hal hu htag

theorem does_rouSingleWordOp (op : RouOp) : let old := wordOf s.hbm.mem pa (AWidth_bytes w)
    ∃ t, does (.rouSingleWordOp (.ctx c tag) op w pa x) s t
      ∧ tookWord s.hbm.mem t.hbm.mem pa (AWidth_bytes w) (rouNew op w old x.toNat).1 ∧ answered s t c tag pa old := by
  let ev : Ev := .rouSingleWordOp (.ctx c tag) op w pa x
  have hat := reached_atUnit ev hu
  obtain ⟨t, hop, hreach, htook⟩ := rouOp_plain (hat.plain hp) hal (hat.canonical hs) [c] (ctxQueue (atUnit s ev c pa) c) op x
  rw [atUnit_hbm ev hu] at hop htook
  exact ⟨_, does_of_rouFor tag ev rfl htag (by simp only [hop]; rfl), htook,
    answered_reply (replies_of_reached_atUnit ev hu hreach)⟩

theorem does_rouAmocas (e : Word) : let old := wordOf s.hbm.mem pa (AWidth_bytes w)
    ∃ t, does (.rouAmocas (.ctx c tag) w pa e x) s t ∧ answered s t c tag pa old
      ∧ tookWord s.hbm.mem t.hbm.mem pa (AWidth_bytes w)
        (if old = e.toNat % 2 ^ AWidth_bits w then x.toNat % 2 ^ AWidth_bits w else old) := by
  let ev : Ev := .rouAmocas (.ctx c tag) w pa e x
  have hat := reached_atUnit ev hu
  obtain ⟨t, hcas, hreach, htook⟩ := rouCas_plain (hat.plain hp) hal (hat.canonical hs) [c] (ctxQueue (atUnit s ev c pa) c) e x
  rw [atUnit_hbm ev hu] at hcas htook
  exact ⟨_, does_of_rouFor tag ev rfl htag hcas, answered_reply (replies_of_reached_atUnit ev hu hreach), htook⟩

omit hs in
theorem does_rouLr : let old := wordOf s.hbm.mem pa (AWidth_bytes w)
    ∃ t, does (.rouLr (.ctx c tag) w pa) s t ∧ answered s t c tag pa old ∧ tookWord s.hbm.mem t.hbm.mem pa (AWidth_bytes w) old
      ∧ (⟨c, pa / 32, s.clk⟩ : Resv) ∈ (chan t (chanOf pa)).resv := by
  let ev : Ev := .rouLr (.ctx c tag) w pa
  let u := activate (atUnit s ev c pa) (pa / 32 * 32)
  have hat := reached_atUnit ev hu
  have hreach : Reached (atUnit s ev c pa) u := reached_activate _ _
  have hclk : u.clk = s.clk := (hat.trans hreach).clk
  have hlr := rouLoadR_plain (hat.plain hp) hal c
  have hresv : (⟨c, pa / 32, s.clk⟩ : Resv) ∈ (chan (resvMake u c pa) (chanOf pa)).resv := hclk ▸ mem_resvMake u c pa
  have hreplies : (resvMake u c pa).hbm.replies = s.hbm.replies := by
    rw [resvMake_replies, replies_of_reached_atUnit ev hu hreach]
  have hkept : tookWord s.hbm.mem (resvMake u c pa).hbm.mem pa (AWidth_bytes w) (wordOf s.hbm.mem pa (AWidth_bytes w)) := by
    rw [resvMake_mem]
    exact tookWord_atUnit ev hu _
  rw [atUnit_hbm ev hu] at hlr
  exact ⟨_, does_of_rouFor tag ev rfl htag hlr, answered_reply hreplies, hkept, hresv⟩

theorem does_rouSc_held (hheld : resvHeld s c pa = true) :
    ∃ t, does (.rouSc (.ctx c tag) w pa x) s t ∧ answered s t c tag pa 0
      ∧ tookWord s.hbm.mem t.hbm.mem pa (AWidth_bytes w) (x.toNat % 2 ^ AWidth_bits w)
      ∧ ∀ r ∈ (chan t (chanOf pa)).resv, r.ctx ≠ c := by
  let ev : Ev := .rouSc (.ctx c tag) w pa x
  let u := atUnit s ev c pa
  let t := atWrite u [c] (ctxQueue u c) pa (AWidth_bytes w) (x.toNat % 2 ^ AWidth_bits w)
  have hat : Reached (given s ev) u := reached_atUnit ev hu
  have hsc : rouStoreC u c (ctxQueue u c) w pa x = (some 0, resvCancel t c) := by
    rw [rouStoreC_plain (hat.plain hp), resvHeld_atUnit ev hu, if_pos hheld]
  have hreach : Reached u t := reached_atWrite (AWidth_bytes_pos w) (hat.plain hp) _ _ _ (AWidth_in_sector hal)
  have htook : tookWord u.hbm.mem t.hbm.mem pa (AWidth_bytes w) (x.toNat % 2 ^ AWidth_bits w) :=
    tookWord_atWrite (AWidth_bytes_pos w) (hat.plain hp) _ _ _ (hat.canonical hs)
  have hreplies := replies_of_reached_atUnit ev hu hreach
  rw [atUnit_hbm ev hu] at htook
  exact ⟨_, does_of_rouFor tag ev rfl htag hsc, answered_reply hreplies, htook, ctx_ne_of_mem_resvCancel t c _⟩

omit hs hal in
theorem does_rouSc_lost (hlost : resvHeld s c pa = false) :
    ∃ t, does (.rouSc (.ctx c tag) w pa x) s t ∧ answered s t c tag pa 1
      ∧ tookWord s.hbm.mem t.hbm.mem pa (AWidth_bytes w) (wordOf s.hbm.mem pa (AWidth_bytes w))
      ∧ ∀ r ∈ (chan t (chanOf pa)).resv, r.ctx ≠ c := by
  let ev : Ev := .rouSc (.ctx c tag) w pa x
  let u := atUnit s ev c pa
  have hat : Reached (given s ev) u := reached_atUnit ev hu
  have hsc : rouStoreC u c (ctxQueue u c) w pa x = (some 1, resvCancel u c) := by
    rw [rouStoreC_plain (hat.plain hp), resvHeld_atUnit ev hu, hlost]
    rfl
  have hreplies := replies_of_reached_atUnit ev hu (Reached.refl u)
  have hkept : tookWord s.hbm.mem (resvCancel u c).hbm.mem pa (AWidth_bytes w) (wordOf s.hbm.mem pa (AWidth_bytes w)) := by
    rw [resvCancel_mem]
    exact tookWord_atUnit ev hu _
  exact ⟨_, does_of_rouFor tag ev rfl htag hsc, answered_reply hreplies, hkept, ctx_ne_of_mem_resvCancel u c _⟩

end

theorem remoteUnitsPerformTheirOperation : RemoteUnitsPerformTheirOperation := by
  intro s c tag op w pa e x n old v wrote answers held hs hp hal hu htag
  have hn : n = AWidth_bytes w := by cases w <;> rfl
  clear_value n
  subst hn
  have hheld : resvHeld s c pa = true ↔ held := resvHeld_iff
  refine ⟨does_rouSingleWordOp tag x hs hp hal hu htag op, does_rouAmocas tag x hs hp hal hu htag e, ?lr,
    fun hstands => does_rouSc_held tag x hs hp hal hu htag (hheld.2 hstands),
    fun hlost => does_rouSc_lost tag x hp hu htag (by simpa using hlost ∘ hheld.1)⟩
  obtain ⟨t, hdoes, hanswers, hwrote, hresv⟩ := does_rouLr tag hp hal hu htag
  exact ⟨t, hdoes, hanswers, hwrote, _, hresv, rfl, rfl, rfl⟩

end Sys2Proof.Machine
end

section
/-! PROOF. The words that `rcas4` and the list operations read and write (O45): an operation of a remote unit as a sequence of
reads and writes of words (R116, R117, R119). -/
namespace Sys2Proof.Machine
open Sys2Proof.Claims

/-! ### Parts of a command -/

theorem EM_bind_ok {α β : Type} {m : EM α} {f : α → EM β} {s t : State} {a : α} (h : m s = (.ok a, t)) : (m >>= f) s = f a t := by
  show (do let (a, s) ← (m s : Id _); ExceptT.bindCont f a s : Id _) = _
  rw [h]
  rfl
theorem EM_bind_error {α β : Type} {m : EM α} {f : α → EM β} {s t : State} {e : EStop} (h : m s = (.error e, t)) :
    (m >>= f) s = (.error e, t) := by
  show (do let (a, s) ← (m s : Id _); ExceptT.bindCont f a s : Id _) = _
  rw [h]
  rfl

theorem EM_get (s : State) : (get : EM State) s = (.ok s, s) := rfl
theorem EM_set (s t : State) : (set t : EM PUnit) s = (.ok ⟨⟩, t) := rfl
theorem EM_pure {α : Type} (a : α) (s : State) : (pure a : EM α) s = (.ok a, s) := rfl
theorem EM_modify (f : State → State) (s : State) : (modify f : EM PUnit) s = (.ok ⟨⟩, f s) := rfl
theorem eFaultIf_no {b : Bool} (h : b = false) (sub va ak : Nat) (s : State) : eFaultIf b sub va ak s = (.ok (), s) := by
  rw [h]
  rfl
theorem eFaultIf_yes {b : Bool} (h : b = true) (sub va ak : Nat) (s : State) :
    eFaultIf b sub va ak s = (.error (.fault sub va ak), s) := by
  rw [h]
  rfl
theorem eWaitIf_no {b : Bool} (h : b = false) (s : State) : eWaitIf b s = (.ok (), s) := by
  rw [h]
  rfl

/-! ### Words of eight bytes -/

/-- An aligned word of plain HBM. -/
def PlainWord (s : State) (a : Nat) : Prop := a % 8 = 0 ∧ plainHbm s a 8

theorem Reached.plainWord {s t : State} (h : Reached s t) {a : Nat} (ha : PlainWord s a) : PlainWord t a := ⟨ha.1, h.plain ha.2⟩

theorem atRead_plainWord {s : State} {a : Nat} (ha : PlainWord s a) :
    atRead s a 8 = (some (wordOf s.hbm.mem a 8), activate s (a / 32 * 32)) :=
  atRead_word (w := .w64) ha.2 ha.1

theorem PlainWord.write {s : State} {a : Nat} (ha : PlainWord s a) (hs : memOk s = true) (cs : List Nat) (q : Option Nat) (x : Nat) :
    Reached s (atWrite s cs q a 8 x) ∧ tookWord s.hbm.mem (atWrite s cs q a 8 x).hbm.mem a 8 x := by
  obtain ⟨hal, hp⟩ := ha
  exact ⟨reached_atWrite (by decide) hp cs q x (by omega), tookWord_atWrite (by decide) hp cs q x hs⟩

/-- Another aligned word than the written one. -/
theorem wordOf_took_ne {m m' : Memory} {a b x : Nat} (h : tookWord m m' a 8 x) (ha : a % 8 = 0) (hb : b % 8 = 0) (hne : b ≠ a) :
    wordOf m' b 8 = wordOf m b 8 :=
  wordOf_took_apart h (by omega)

/-! ### Four words (R116) -/

/-- The reads of an `rcas4`. -/
theorem readWords (pas : List Nat) (s : State) (acc : List (Option Nat)) (hp : ∀ a ∈ pas, PlainWord s a) :
    ∃ t, pas.foldl (fun (r : List (Option Nat) × State) pa => (r.1 ++ [(atRead r.2 pa 8).1], (atRead r.2 pa 8).2)) (acc, s)
        = (acc ++ pas.map fun a => some (wordOf s.hbm.mem a 8), t)
      ∧ Reached s t ∧ t.hbm.mem = s.hbm.mem := by
  induction pas generalizing s acc with
  | nil => exact ⟨s, by simp, Reached.refl s, rfl⟩
  | cons a pas ih =>
    have hreach := reached_activate s (a / 32 * 32)
    obtain ⟨t, hread, hreach', hmem⟩ := ih (activate s (a / 32 * 32)) (acc ++ [some (wordOf s.hbm.mem a 8)]) fun b hb =>
      hreach.plainWord (hp b (List.mem_cons_of_mem _ hb))
    refine ⟨t, ?_, hreach.trans hreach', hmem⟩
    rw [List.foldl_cons, atRead_plainWord (hp a List.mem_cons_self), hread, List.append_assoc]
    rfl

/-- The writes of an `rcas4`: each word is written, and no other. -/
theorem writeWords (q : Option Nat) (pas ds : List Nat) (s : State) (hs : memOk s = true) (hp : ∀ a ∈ pas, PlainWord s a)
    (hnodup : pas.Nodup) (hlen : ds.length = pas.length) :
    let t := (pas.zip ds).foldl (fun s (z : Nat × Nat) => atWrite s [] q z.1 8 z.2) s
    (pas.map fun a => wordOf t.hbm.mem a 8) = ds.map (· % 2 ^ 64)
      ∧ ∀ b, b % 8 = 0 → b ∉ pas → wordOf t.hbm.mem b 8 = wordOf s.hbm.mem b 8 := by
  induction pas generalizing ds s with
  | nil =>
    rw [List.length_nil, List.length_eq_zero_iff] at hlen
    simp [hlen]
  | cons a pas ih =>
    obtain ⟨d, ds, rfl⟩ : ∃ d l, ds = d :: l := List.exists_cons_of_length_eq_add_one hlen
    have ha := hp a List.mem_cons_self
    obtain ⟨hreach, htook⟩ := ha.write hs [] q d
    obtain ⟨hnot, hnodup⟩ := List.nodup_cons.1 hnodup
    obtain ⟨hwords, hothers⟩ := ih ds (atWrite s [] q a 8 d) (hreach.canonical hs)
      (fun b hb => hreach.plainWord (hp b (List.mem_cons_of_mem _ hb))) hnodup (by simpa using hlen)
    dsimp only at *
    rw [List.zip_cons_cons, List.foldl_cons]
    refine ⟨?_, fun b hb hne => ?_⟩
    · rw [List.map_cons, List.map_cons, hwords, hothers a ha.1 hnot, wordOf_took_self htook]
    · obtain ⟨hba, hb'⟩ := not_or.1 (mt List.mem_cons.2 hne)
      rw [hothers b hb hb', wordOf_took_ne htook ha.1 hb hba]

theorem all_zip_eq {a b : List Nat} (h : a.length = b.length) : ((a.zip b).all fun (x, y) => x == y) = true ↔ a = b := by
  induction a generalizing b with
  | nil => simp [List.length_eq_zero_iff.1 h.symm]
  | cons x a ih =>
    obtain ⟨y, b, rfl⟩ := List.exists_cons_of_length_eq_add_one h.symm
    rw [List.zip_cons_cons, List.all_cons, Bool.and_eq_true, ih (Nat.succ.inj h), beq_iff_eq, List.cons.injEq]

/-- `rcas4` on plain words: what it answers, and its writes where every word is the one expected. -/
theorem rouCas4_plain {s : State} (q : Option Nat) {pas es : List Nat} (ds : List Nat) (hp : ∀ a ∈ pas, PlainWord s a)
    (hlen : es.length = pas.length) : let old := pas.map fun a => wordOf s.hbm.mem a 8
    ∃ u, Reached s u ∧ u.hbm.mem = s.hbm.mem ∧ rouCas4 s q pas es ds = (some ((if old = es then 1 else 0) :: old),
      if old = es then (pas.zip ds).foldl (fun s (z : Nat × Nat) => atWrite s [] q z.1 8 z.2) u else u) := by
  intro old
  obtain ⟨u, hread, hreach, hmem⟩ := readWords pas s [] hp
  refine ⟨u, hreach, hmem, ?_⟩
  have hread : pas.foldl (fun (r : List (Option Nat) × State) pa => (r.1 ++ [(atRead r.2 pa 8).1], (atRead r.2 pa 8).2)) ([], s)
      = (old.map some, u) := by
    rw [hread, List.nil_append, List.map_map]
    rfl
  have hall : ((old.zip es).all fun (x, y) => x == y) = decide (old = es) := by
    rw [Bool.eq_iff_iff, all_zip_eq (by simp [old, hlen]), decide_eq_true_iff]
  unfold rouCas4
  dsimp only
  rw [hread]
  have hnone : (old.map some).any Option.isNone = false := by simp
  have hold : (old.map some).map (fun x => x.getD 0) = old := by simp
  dsimp only
  rw [hnone, hold, hall]
  by_cases h : old = es <;> simp [h]

/-! ### The words of a list (R117) -/

/-- A plain word that the asking core, where it is of this package, does not cache. -/
def LinkWord (s : State) (r : RouWho) (a : Nat) : Prop :=
  a % 8 = 0 ∧ plainHbm s a 8 ∧ (r.own = true → uncachedAt s r.w.core a)

theorem LinkWord.plainWord {s : State} {r : RouWho} {a : Nat} (h : LinkWord s r a) : PlainWord s a := ⟨h.1, h.2.1⟩

theorem Reached.linkWord {s t : State} (h : Reached s t) {r : RouWho} {a : Nat} (ha : LinkWord s r a) : LinkWord t r a :=
  ⟨ha.1, h.plain ha.2.1, fun hown => h.uncached (ha.2.2 hown)⟩

theorem reached_queueInval (s : State) (core pa : Nat) : Reached s (queueInval s core pa) :=
  ⟨rfl, rfl, memOk_queueInval, fun _ => id, fun _ => id, fun _ => rfl, fun _ => rfl⟩

theorem headRead_plain {s : State} {h : Nat} (hva : Nat) (hp : PlainWord s h) :
    headRead h hva s = (.ok (wordOf s.hbm.mem h 8), activate s (h / 32 * 32)) := by
  unfold headRead
  rw [EM_bind_ok (EM_get s), atRead_plainWord hp]
  rfl

section
variable {s : State} {r : RouWho} {a : Nat} (ha : LinkWord s r a)
include ha

theorem ownLine_plain : ∃ t, ownLine r a s = (.ok (), t) ∧ Reached s t ∧ t.hbm.mem = s.hbm.mem := by
  obtain ⟨-, -, hunc⟩ := ha
  refine ⟨_, EM_modify _ s, ?_⟩
  split
  · next hown => exact ⟨reached_flushOwn (hunc hown), by rw [flushOwn_hbm (hunc hown)]⟩
  · exact ⟨Reached.refl s, rfl⟩

/-- A link word of this package is read where it lies. -/
theorem linkRead_here (hdr va : Nat) : ∃ t, linkRead r hdr (s.pkg, a) va s = (.ok (wordOf s.hbm.mem a 8), t)
    ∧ Reached s t ∧ t.hbm.mem = s.hbm.mem := by
  obtain ⟨u, hown, hreach, hmem⟩ := ownLine_plain ha
  refine ⟨activate u (a / 32 * 32), ?_, hreach.trans (reached_activate u _), hmem⟩
  unfold linkRead
  rw [EM_bind_ok (EM_get s)]
  dsimp only
  rw [beq_self_eq_true, if_pos rfl, EM_bind_ok hown, EM_bind_ok (EM_get u), atRead_plainWord (hreach.plainWord ha.plainWord), hmem]
  rfl

/-- A word of a list of this package is written where it lies. -/
theorem linkWrite_here (hs : memOk s = true) (q : Option Nat) (x : Nat) : ∃ t, linkWrite r q (s.pkg, a) x s = (.ok (), t)
    ∧ Reached s t ∧ tookWord s.hbm.mem t.hbm.mem a 8 x := by
  obtain ⟨u, hown, hreach, hmem⟩ := ownLine_plain ha
  obtain ⟨hreach', htook⟩ := (hreach.plainWord ha.plainWord).write (hreach.canonical hs) [] q x
  rw [hmem] at htook
  have hall := hreach.trans hreach'
  refine ⟨if r.own then queueInval (atWrite u [] q a 8 x) r.w.core a else atWrite u [] q a 8 x, ?_, ?_, ?_⟩
  · unfold linkWrite
    rw [EM_bind_ok (EM_get s)]
    dsimp only
    rw [beq_self_eq_true, if_pos rfl, EM_bind_ok hown]
    rfl
  · split
    · exact hall.trans (reached_queueInval _ _ _)
    · exact hall
  · split <;> exact htook

end

/-- The three writes of an `renq`: of different words, each holds what it was given, and every other word what it held. -/
theorem linkWrites_three {s : State} {r : RouWho} {a b c : Nat} (ha : LinkWord s r a) (hb : LinkWord s r b) (hc : LinkWord s r c)
    (hab : a ≠ b) (hac : a ≠ c) (hbc : b ≠ c) (hs : memOk s = true) (q : Option Nat) (x y z v : Nat) :
    ∃ t, (do linkWrite r q (s.pkg, a) x; linkWrite r q (s.pkg, b) y; linkWrite r q (s.pkg, c) z; return v : EM Nat) s = (.ok v, t)
      ∧ wordOf t.hbm.mem a 8 = x % 2 ^ 64 ∧ wordOf t.hbm.mem b 8 = y % 2 ^ 64 ∧ wordOf t.hbm.mem c 8 = z % 2 ^ 64
      ∧ ∀ d, d % 8 = 0 → d ≠ a → d ≠ b → d ≠ c → wordOf t.hbm.mem d 8 = wordOf s.hbm.mem d 8 := by
  obtain ⟨s1, hwrite1, hreach1, htook1⟩ := linkWrite_here ha hs q x
  obtain ⟨s2, hwrite2, hreach2, htook2⟩ := linkWrite_here (hreach1.linkWord hb) (hreach1.canonical hs) q y
  have hreach := hreach1.trans hreach2
  obtain ⟨s3, hwrite3, hreach3, htook3⟩ := linkWrite_here (hreach.linkWord hc) (hreach.canonical hs) q z
  rw [hreach1.pkg] at hwrite2
  rw [hreach.pkg] at hwrite3
  obtain ⟨ha, -⟩ := ha
  obtain ⟨hb, -⟩ := hb
  obtain ⟨hc, -⟩ := hc
  refine ⟨s3, ?_, ?_, ?_, ?_, fun d hd hda hdb hdc => ?_⟩
  · rw [EM_bind_ok hwrite1, EM_bind_ok hwrite2, EM_bind_ok hwrite3]
    rfl
  · rw [wordOf_took_ne htook3 hc ha hac, wordOf_took_ne htook2 hb ha hab, wordOf_took_self htook1]
  · rw [wordOf_took_ne htook3 hc hb hbc, wordOf_took_self htook2]
  · rw [wordOf_took_self htook3]
  · rw [wordOf_took_ne htook3 hc hd hdc, wordOf_took_ne htook2 hb hd hdb, wordOf_took_ne htook1 ha hd hda]

section
variable {s : State} {r : RouWho} (q : Option Nat) {h hva node np : Nat}

/-- `renq` up to its check of the old tail (R119). -/
theorem rouEnq_eq (hh8 : LinkWord s r (h + 8)) (h0 : node ≠ 0) (h8 : node % 8 = 0) (hne : np ≠ h + 8)
    (hfree : sectorHeld s h r.w.owner = false) (hat : linkAt r node s = (.ok (s.pkg, np), s)) :
    let t := wordOf s.hbm.mem (h + 8) 8
    rouEnq r q h hva node s = (do
      eFaultIf (t % 8 != 0) 35 t 4
      let tp ← if t = 0 then pure (s.pkg, h) else linkAt r t
      linkWrite r q (s.pkg, np) 0
      linkWrite r q tp node
      linkWrite r q (s.pkg, h + 8) node
      return t : EM Nat) (activate s ((h + 8) / 32 * 32)) := by
  intro t
  have hnp : ((s.pkg, np) == (s.pkg, h + 8)) = false := by simp [hne]
  unfold rouEnq
  rw [EM_bind_ok (eFaultIf_no (by simp [h0, h8]) 35 node 4 s), EM_bind_ok hat, EM_bind_ok (EM_get s), EM_bind_ok (eWaitIf_no hfree s),
    EM_bind_ok (headRead_plain hva hh8.plainWord)]
  dsimp only
  rw [hnp]
  rfl

/-- `rdeq` up to its check of the old head. -/
theorem rouDeq_eq (hh : LinkWord s r h) (hfree : sectorHeld s h r.w.owner = false) :
    let p := wordOf s.hbm.mem h 8
    rouDeq r q h hva s = (if p = 0 then pure 0 else do
      eFaultIf (p % 8 != 0) 35 p 4
      let x ← linkRead r h (← linkAt r p) p
      eFaultIf (x % 8 != 0) 35 x 4
      linkWrite r q (s.pkg, h) x
      if x = 0 then linkWrite r q (s.pkg, h + 8) 0
      return p : EM Nat) (activate s (h / 32 * 32)) := by
  intro p
  unfold rouDeq
  rw [EM_bind_ok (EM_get s), EM_bind_ok (eWaitIf_no hfree s), EM_bind_ok (headRead_plain hva hh.plainWord)]

end

section
variable {s : State} {r : RouWho} (q : Option Nat) {h node np : Nat} (hva : Nat)

/-- The old tail, or 0, is in the tail word. -/
theorem rouEnq_plain (hh : LinkWord s r h) (hh8 : LinkWord s r (h + 8)) (hnp : LinkWord s r np) (h0 : node ≠ 0) (h8 : node % 8 = 0)
    (hlt : node < 2 ^ 64) (hne : np ≠ h) (hne8 : np ≠ h + 8) (hfree : sectorHeld s h r.w.owner = false)
    (hat : linkAt r node s = (.ok (s.pkg, np), s)) {tp : Nat} (htp : LinkWord s r tp) (htp8 : tp ≠ h + 8) (htpn : tp ≠ np)
    (htail : let t := wordOf s.hbm.mem (h + 8) 8
      (t = 0 ∧ tp = h) ∨ (t ≠ 0 ∧ t % 8 = 0 ∧ linkAt r t (atRead s (h + 8) 8).2 = (.ok (s.pkg, tp), (atRead s (h + 8) 8).2)))
    (hs : memOk s = true) :
    ∃ t, rouEnq r q h hva node s = (.ok (wordOf s.hbm.mem (h + 8) 8), t)
      ∧ wordOf t.hbm.mem np 8 = 0 ∧ wordOf t.hbm.mem tp 8 = node ∧ wordOf t.hbm.mem (h + 8) 8 = node
      ∧ ∀ d, d % 8 = 0 → d ≠ np → d ≠ tp → d ≠ h + 8 → wordOf t.hbm.mem d 8 = wordOf s.hbm.mem d 8 := by
  have hreach := reached_activate s ((h + 8) / 32 * 32)
  obtain ⟨t, hwrites, hx, hy, hz, hothers⟩ := linkWrites_three (hreach.linkWord hnp) (hreach.linkWord htp) (hreach.linkWord hh8)
    htpn.symm hne8 htp8 (hreach.canonical hs) q 0 node node (wordOf s.hbm.mem (h + 8) 8)
  rw [Nat.mod_eq_of_lt hlt] at hy hz
  refine ⟨t, ?_, hx, hy, hz, hothers⟩
  rw [rouEnq_eq q hh8 h0 h8 hne8 hfree hat]
  rw [atRead_plainWord hh8.plainWord] at htail
  obtain ⟨hzero, rfl⟩ | ⟨hsome, hal, hlink⟩ := htail
  · rw [EM_bind_ok (eFaultIf_no (by simp [hzero]) _ _ _ _), if_pos hzero, EM_bind_ok (EM_pure _ _)]
    exact hwrites
  · rw [EM_bind_ok (eFaultIf_no (by simp [hal]) _ _ _ _), if_neg hsome, EM_bind_ok hlink]
    exact hwrites

/-- `renq` to a list whose tail is not aligned. -/
theorem rouEnq_misaligned (hh8 : LinkWord s r (h + 8)) (h0 : node ≠ 0) (h8 : node % 8 = 0) (hne8 : np ≠ h + 8)
    (hfree : sectorHeld s h r.w.owner = false) (hat : linkAt r node s = (.ok (s.pkg, np), s))
    (hbad : wordOf s.hbm.mem (h + 8) 8 % 8 ≠ 0) :
    rouEnq r q h hva node s = (.error (.fault 35 (wordOf s.hbm.mem (h + 8) 8) 4), activate s ((h + 8) / 32 * 32)) := by
  rw [rouEnq_eq q hh8 h0 h8 hne8 hfree hat, EM_bind_error (eFaultIf_yes (by simpa using hbad) _ _ _ _)]

variable (hh : LinkWord s r h) (hfree : sectorHeld s h r.w.owner = false)
include hh hfree

/-- `rdeq` from an empty list. -/
theorem rouDeq_empty (hzero : wordOf s.hbm.mem h 8 = 0) : rouDeq r q h hva s = (.ok 0, activate s (h / 32 * 32)) := by
  rw [rouDeq_eq q hh hfree, hzero]
  rfl

variable (hnp : LinkWord s r np) (hsome : wordOf s.hbm.mem h 8 ≠ 0) (hal : wordOf s.hbm.mem h 8 % 8 = 0)
  (hat : linkAt r (wordOf s.hbm.mem h 8) (atRead s h 8).2 = (.ok (s.pkg, np), (atRead s h 8).2))
include hnp hsome hal hat

/-- `rdeq` up to its check of the head's successor. -/
theorem rouDeq_head_eq : ∃ u, Reached s u ∧ u.hbm.mem = s.hbm.mem ∧ rouDeq r q h hva s = (do
      eFaultIf (wordOf s.hbm.mem np 8 % 8 != 0) 35 (wordOf s.hbm.mem np 8) 4
      linkWrite r q (s.pkg, h) (wordOf s.hbm.mem np 8)
      if wordOf s.hbm.mem np 8 = 0 then linkWrite r q (s.pkg, h + 8) 0
      return wordOf s.hbm.mem h 8 : EM Nat) u := by
  have hreach := reached_activate s (h / 32 * 32)
  rw [atRead_plainWord hh.plainWord] at hat
  obtain ⟨u, hread, hreach', hmem⟩ := linkRead_here (hreach.linkWord hnp) h (wordOf s.hbm.mem h 8)
  refine ⟨u, hreach.trans hreach', hmem, ?_⟩
  rw [rouDeq_eq q hh hfree, if_neg hsome, EM_bind_ok (eFaultIf_no (by simp [hal]) _ _ _ _), EM_bind_ok hat]
  rw [hreach.pkg] at hread
  rw [EM_bind_ok hread]
  rfl

theorem rouDeq_misaligned (hbad : wordOf s.hbm.mem np 8 % 8 ≠ 0) : ∃ u, u.hbm.mem = s.hbm.mem ∧
    rouDeq r q h hva s = (.error (.fault 35 (wordOf s.hbm.mem np 8) 4), u) := by
  obtain ⟨u, -, hmem, hdeq⟩ := rouDeq_head_eq q hva hh hfree hnp hsome hal hat
  exact ⟨u, hmem, by rw [hdeq, EM_bind_error (eFaultIf_yes (by simpa using hbad) _ _ _ _)]⟩

/-- The head's successor becomes the head. -/
theorem rouDeq_plain (hh8 : LinkWord s r (h + 8)) (hnext : wordOf s.hbm.mem np 8 % 8 = 0) (hs : memOk s = true) :
    ∃ t, rouDeq r q h hva s = (.ok (wordOf s.hbm.mem h 8), t) ∧ wordOf t.hbm.mem h 8 = wordOf s.hbm.mem np 8
      ∧ wordOf t.hbm.mem (h + 8) 8 = if wordOf s.hbm.mem np 8 = 0 then 0 else wordOf s.hbm.mem (h + 8) 8 := by
  obtain ⟨u, hreach, hmem, hdeq⟩ := rouDeq_head_eq q hva hh hfree hnp hsome hal hat
  obtain ⟨v, hwrite, hreach', htook⟩ := linkWrite_here (hreach.linkWord hh) (hreach.canonical hs) q (wordOf s.hbm.mem np 8)
  have hall := hreach.trans hreach'
  rw [hreach.pkg] at hwrite
  rw [hmem] at htook
  have hhead : wordOf v.hbm.mem h 8 = wordOf s.hbm.mem np 8 := by
    rw [wordOf_took_self htook, Nat.mod_eq_of_lt (wordOf_lt _ _ _)]
  obtain ⟨hal, -⟩ := hh
  rw [hdeq, EM_bind_ok (eFaultIf_no (by simp [hnext]) _ _ _ _), EM_bind_ok hwrite]
  by_cases hlast : wordOf s.hbm.mem np 8 = 0
  · obtain ⟨t, hwrite', -, htook'⟩ := linkWrite_here (hall.linkWord hh8) (hall.canonical hs) q 0
    rw [hall.pkg] at hwrite'
    refine ⟨t, ?_, ?_, ?_⟩
    · rw [if_pos hlast, EM_bind_ok hwrite']
      rfl
    · rw [wordOf_took_ne htook' (by omega) hal (by omega), hhead]
    · rw [wordOf_took_self htook', if_pos hlast, Nat.zero_mod]
  · refine ⟨v, ?_, hhead, ?_⟩
    · rw [if_neg hlast]
      rfl
    · rw [wordOf_took_ne htook hal (by omega) (by omega), if_neg hlast]

end

theorem listWordsAreExchanged : ListWordsAreExchanged := by
  intro s r q pas es ds h hva node np tp word plain same at_ hs
  refine ⟨fun hpas hnodup hes hds => ?cas4, fun hh hh8 hnp h0 h8 hlt hne hne8 hfree hat => ?enq, fun hh hh8 hfree => ?deq⟩
  case cas4 =>
    have hwords : ∀ a ∈ pas, PlainWord s a := fun a ha => LinkWord.plainWord (r := r) (hpas a ha)
    obtain ⟨u, hreach, hmem, hcas⟩ := rouCas4_plain q ds hwords hes
    rw [hcas]
    refine ⟨rfl, fun (hne : (pas.map fun a => wordOf s.hbm.mem a 8) ≠ es) a => ?_,
      fun (heq : (pas.map fun a => wordOf s.hbm.mem a 8) = es) => ?_⟩
    · dsimp only
      rw [if_neg hne, hmem]
    · dsimp only
      rw [if_pos heq]
      exact (writeWords q pas ds u (hreach.canonical hs) (fun a ha => hreach.plainWord (hwords a ha)) hnodup hds).1
  case enq =>
    refine ⟨fun hzero => ?_, fun hsome hal htp htpn htph htp8 hlink => ?_, fun hbad => ?_⟩
    · obtain ⟨t, henq, hnode, hhead, htail, -⟩ := rouEnq_plain q hva hh hh8 hnp h0 h8 hlt hne hne8 hfree hat hh (by omega) hne.symm
        (.inl ⟨hzero, rfl⟩) hs
      exact ⟨t, by rw [henq]; exact congrArg (fun x => (Except.ok x, t)) hzero, hhead, htail, hnode⟩
    · have hlink : linkAt r (word s (h + 8)) (atRead s (h + 8) 8).2 = (.ok (s.pkg, tp), (atRead s (h + 8) 8).2) := by
        rw [atRead_plainWord (LinkWord.plainWord hh8)] at hlink ⊢
        exact hlink
      obtain ⟨t, henq, hnode, hold, htail, hothers⟩ := rouEnq_plain q hva hh hh8 hnp h0 h8 hlt hne hne8 hfree hat htp htp8 htpn
        (.inr ⟨hsome, hal, hlink⟩) hs
      exact ⟨t, henq, hold, htail, hnode, hothers h hh.1 hne.symm htph.symm (by omega)⟩
    · exact ⟨_, rouEnq_misaligned q hva hh8 h0 h8 hne8 hfree hat hbad, fun _ => rfl⟩
  case deq =>
    refine ⟨fun hzero => ⟨_, rouDeq_empty q hva hh hfree hzero, fun _ => rfl⟩, fun hsome hal hnp hlink => ?_⟩
    have hlink : linkAt r (word s h) (atRead s h 8).2 = (.ok (s.pkg, np), (atRead s h 8).2) := by
      rw [atRead_plainWord (LinkWord.plainWord hh)] at hlink ⊢
      exact hlink
    refine ⟨fun hnext => rouDeq_plain q hva hh hfree hnp hsome hal hlink hh8 hnext hs, fun hbad => ?_⟩
    obtain ⟨u, hmem, hdeq⟩ := rouDeq_misaligned q hva hh hfree hnp hsome hal hlink hbad
    exact ⟨u, hdeq, fun a => by rw [hmem]⟩

end Sys2Proof.Machine
end

section
/-! PROOF. The X commands that the remote units perform (O45): the moves of `rcas4`, of the list operations and of `rchase` in which
nothing is to be waited for (R116 to R119, R367 to R369). -/
namespace Sys2Proof.Machine
open Sys2Proof.Claims

/-! ### A move of a command -/

section
variable {s t : State} {core : Nat} {k : XCmd} {m : EM Unit}

theorem xRun_ok (h : m s = (.ok (), t)) : xRun s core k m = t := by
  unfold xRun eRun
  rw [h]

theorem xRun_fault {sub va ak : Nat} (h : m s = (.error (.fault sub va ak), t)) :
    xRun s core k m = xFault t core ((xOf t core k.id).getD k) sub va ak := by
  unfold xRun eRun
  rw [h]

end

/-- What a command of a kind performs at a remote unit. -/
def moveOf (core : Nat) (k : XCmd) (kind : Nat) : EM Unit :=
  match kind with
  | 4 => ropMove core k
  | 5 => cas4Move core k
  | 8 => chaseMove core k
  | _ => listMove core k

/-- A command that waits for nothing moves. -/
theorem rouMove_free {s : State} {core id : Nat} {k : XCmd} (hk : xOf s core id = some k) (hcancel : k.cancel = false)
    (hgot : k.got = none) (hdeps : k.deps = []) (hfault : faulted s (.xcmd core id) = false) :
    rouMove s core id k.kind = xRun s core k (moveOf core k k.kind) := by
  unfold rouMove
  rw [hk]
  dsimp only
  rw [hcancel, hgot, hdeps, hfault, bne_self_eq_false]
  rfl

theorem eMeter_off {s : State} (h : bsuOn s = false) (w : Who) (key n : Nat) : eMeter w key n s = (.ok (), s) := by
  have hmeter : meterFor s w.core w.owner (qTclass s w.queue) key n = (true, s) := by simp [meterFor, h]
  unfold eMeter
  rw [EM_bind_ok (EM_get s), hmeter]
  rfl

/-- A translation to HBM of this package. -/
theorem eXlat_hbm {s : State} {w : Who} {a : Word} {pa cp : Nat} {acc : Acc4} (ak : Nat)
    (h : translate s w.ag w.asid a acc = (.ok s.pkg pa cp, s)) (hpa : pa < 0x00C000000000) :
    eXlat w a.toNat acc ak s = (.ok (s.pkg, pa, cp), s) := by
  have hhbm : isHbm pa = true := by simpa [isHbm] using hpa
  have ha : BitVec.ofNat 64 a.toNat = a := by simp
  unfold eXlat
  rw [EM_bind_ok (EM_get s), ha, h]
  dsimp only
  rw [EM_bind_ok (EM_set s s), EM_bind_ok (eFaultIf_no (by simp [hhbm]) 4 _ ak s)]
  rfl

theorem xBlock_read {core : Nat} {k : XCmd} {b : List Byte} (h : k.blk = some b) (n mask : Nat) (s : State) :
    xBlock core k n mask s = (.ok b, s) := by
  unfold xBlock
  rw [h]
  rfl

/-- The state in which a command has its result. -/
def resulted (s : State) (core : Nat) (k : XCmd) (bs : List Byte) : State :=
  narrowTrack (updX (eDone s (ownerOf k.id)) core k.id fun k => { k with got := some bs, flags := 0 }) core k.ctx k.id
    fun t => { t with readB := [], allR := false }
theorem xGot_apply (core : Nat) (k : XCmd) (bs : List Byte) (s : State) : xGot core k bs 0 s = (.ok (), resulted s core k bs) := rfl

/-- The state in which a command has its operation on its way. -/
def sentX (s : State) (core id : Nat) : State := updX s core id fun k => { k with sent := some (k.sent.getD 0) }
theorem xSent_apply (core id : Nat) (s : State) : xSent core id s = (.ok (), sentX s core id) := rfl

/-! ### `rcas4` (R116, R367) -/

theorem eraseDups_of_nodup {l : List Nat} (h : l.Nodup) : l.eraseDups = l := by
  induction l with
  | nil => rfl
  | cons a l ih =>
    obtain ⟨hnot, hl⟩ := List.nodup_cons.1 h
    have hfilter : (l.filter fun b => !b == a) = l :=
      List.filter_eq_self.2 fun b hb => by simpa using fun e : b = a => hnot (e ▸ hb)
    rw [List.eraseDups_cons, hfilter, ih hl]

/-- The words of an operand block from an offset up. -/
def blkWords (b : List Byte) (o : Nat) : List Nat := (List.range (blkW b 0)).map fun i => blkW b (o + 8 * i)

section
variable {g s2 : State} {core : Nat} {k : XCmd} {b : List Byte} (hbsu : bsuOn g = false) (hr : k.r.toNat % 8 = 0)
include hbsu hr

theorem cas4Move_apply {l res : List Nat} (ha : k.a.toNat % 8 = 0) (hb : k.blk = some b) (h1 : 1 ≤ blkW b 0) (h4 : blkW b 0 ≤ 4)
    (hpage : ∀ a ∈ blkWords b 8, a % 8 = 0 ∧ a / 4096 = (blkWords b 8).headD 0 / 4096) (hnodup : (blkWords b 8).Nodup)
    (hxlat : cas4Xlat (xWho core k) (blkWords b 8) g = (.ok (l.map fun a => (g.pkg, a)), g)) (hl : l ≠ [])
    (hnear : isFar (l.headD 0) = false) (hfree : ∀ a ∈ l, sectorHeld g a (ownerOf k.id) = false)
    (hcas : rouCas4 (l.foldl (fun s a => flushOwn s core a) (sentX g core k.id)) (some k.queue) l (blkWords b 40) (blkWords b 72)
      = (some res, s2)) :
    cas4Move core k g = (.ok (), resulted (if res.head? = some 1 then l.foldl (fun s a => queueInval s core a) s2 else s2) core k
      ((List.range 5).flatMap fun i => leBytes (res.getD i 0) 8)) := by
  obtain ⟨pa, rest, rfl⟩ := List.exists_cons_of_ne_nil hl
  let ts : List (Nat × Nat) := (pa :: rest).map fun a => (g.pkg, a)
  have hfold (o : Nat) : (List.range (blkW b 0)).map (fun i => blkW b (o + 8 * i)) = blkWords b o := rfl
  have hlen : (blkWords b 8).length = blkW b 0 := by simp [blkWords]
  have hcount : (blkW b 0 = 0 || blkW b 0 > 4 : Bool) = false := by simp; omega
  have haligned : (blkWords b 8).any (fun a => a % 8 != 0) = false := by
    rw [List.any_eq_false]
    exact fun a h => by simp [(hpage a h).1]
  have honePage : (blkWords b 8).any (fun a => a / 4096 != (blkWords b 8).headD 0 / 4096) = false := by
    rw [List.any_eq_false]
    exact fun a h => by simp [(hpage a h).2]
  have hdistinct : decide ((blkWords b 8).eraseDups.length < blkW b 0) = false := by
    rw [eraseDups_of_nodup hnodup, hlen]
    simp
  have hheld : ts.any (fun t => sectorHeld (sentX g core k.id) t.2 (xWho core k).owner) = false := by
    rw [List.any_map, List.any_eq_false]
    exact fun a h => Bool.eq_false_iff.1 (hfree a h)
  have hflush : ts.foldl (fun s t => flushOwn s core t.2) (sentX g core k.id)
      = (pa :: rest).foldl (fun s a => flushOwn s core a) (sentX g core k.id) := List.foldl_map
  have hpas : ts.map Prod.snd = pa :: rest := by simp [ts, Function.comp_def]
  have hinval : ts.foldl (fun s t => if res.head? == some 1 then queueInval s core t.2 else s) s2
      = if res.head? = some 1 then (pa :: rest).foldl (fun s a => queueInval s core a) s2 else s2 := by
    rw [List.foldl_map]
    by_cases h : res.head? = some 1 <;> simp [h]
  unfold cas4Move
  dsimp only
  rw [EM_bind_ok (eFaultIf_no (by simp [ha]) 32 _ 1 g), EM_bind_ok (eFaultIf_no (by simp [hr]) 32 _ 2 g), EM_bind_ok (xBlock_read hb _ _ g),
    hfold 8, hfold 40, hfold 72,
    EM_bind_ok (eFaultIf_no hcount 33 _ 4 g), EM_bind_ok (eFaultIf_no haligned 32 _ 4 g), EM_bind_ok (eFaultIf_no honePage 33 _ 4 g),
    EM_bind_ok (eFaultIf_no hdistinct 34 _ 4 g), EM_bind_ok hxlat, EM_bind_ok (EM_get g)]
  show (eFaultIf (g.pkg == g.pkg && isFar pa) 36 _ 4 >>= _) g = _
  rw [EM_bind_ok (eFaultIf_no (by simpa using hnear) 36 _ 4 g), EM_bind_ok (eMeter_off hbsu _ 1 1),
    EM_bind_ok (xSent_apply core k.id g), bne_self_eq_false, if_neg Bool.false_ne_true, EM_bind_ok (EM_get _),
    EM_bind_ok (eWaitIf_no hheld _), hflush, hpas, hcas, EM_bind_ok (EM_set _ _)]
  dsimp only
  rw [xGot_apply]
  exact congrArg (fun s => (Except.ok (), resulted s core k _)) hinval


/-- On whose behalf the remote unit of a channel performs a part of a command. -/
def atRou (core : Nat) (k : XCmd) (n : Nat) : RouWho := { w := { xWho core k with ag := .rou n }, own := true }
omit hbsu hr in
theorem ownLine_atRou (n pa : Nat) (s : State) : ownLine (atRou core k n) pa s = (.ok (), flushOwn s core pa) := rfl

/-- `renq` and `rdeq` (R117, R368). -/
theorem listMove_apply {pa cp v : Nat} (ha : k.a.toNat % 16 = 0) (hx : k.kind = 6 → k.x.toNat ≠ 0 ∧ k.x.toNat % 8 = 0)
    (hxlat : translate g (.core core) k.asid k.a .atomic = (.ok g.pkg pa cp, g)) (hpa : pa < 0x00C000000000)
    (hop : (if k.kind = 6
        then rouEnq (atRou core k (chanOf pa)) (some k.queue) pa k.a.toNat k.x.toNat (flushOwn (sentX g core k.id) core pa)
        else rouDeq (atRou core k (chanOf pa)) (some k.queue) pa k.a.toNat (flushOwn (sentX g core k.id) core pa)) = (.ok v, s2)) :
    listMove core k g = (.ok (), resulted s2 core k (leBytes v 8)) := by
  have hnode : (k.kind = 6 && (k.x.toNat = 0 || k.x.toNat % 8 != 0) : Bool) = false := by
    by_cases h : k.kind = 6
    · simp [hx h]
    · simp [h]
  have hnear : isFar pa = false := by simp [isFar]; omega
  unfold listMove
  dsimp only
  rw [EM_bind_ok (eFaultIf_no (by simp [ha]) 32 _ 4 g), EM_bind_ok (eFaultIf_no (by simp [hr]) 32 _ 2 g),
    EM_bind_ok (eFaultIf_no hnode 35 _ 4 g), EM_bind_ok (eXlat_hbm (w := xWho core k) 4 hxlat hpa), EM_bind_ok (EM_get g)]
  dsimp only
  rw [EM_bind_ok (eFaultIf_no (by simpa using hnear) 36 _ 4 g), EM_bind_ok (eMeter_off hbsu _ 1 1),
    EM_bind_ok (xSent_apply core k.id g), bne_self_eq_false, if_neg Bool.false_ne_true]
  refine (EM_bind_ok (ownLine_atRou _ _ _)).trans ?_
  split at hop <;> rename_i hkind
  · rw [if_pos hkind]
    exact EM_bind_ok hop
  · rw [if_neg hkind]
    exact EM_bind_ok hop

end

/-! ### `rchase` (R118, R369) -/

/-- The pointer of a chase at its hop. -/
def chasePtr (k : XCmd) (b : List Byte) : Nat := if k.hop = 0 then blkW b 0 else k.ptr
/-- A chase on its way to its pointer's hop. -/
def chasing (g : State) (core : Nat) (k : XCmd) (b : List Byte) : State :=
  updX g core k.id fun x => { x with ptr := chasePtr k b, sent := some (x.sent.getD 0) }
/-- Its operation is at the remote unit of a channel. -/
def chaseAt (g : State) (core : Nat) (k : XCmd) (b : List Byte) (n : Nat) : State :=
  updX (chasing g core k b) core k.id fun x => { x with sent := some n }
/-- On whose behalf a chase's pointer is translated: its core's at the first hop, else the remote unit's that has the operation. -/
def chaser (core : Nat) (k : XCmd) : RouWho :=
  { w := if k.hop = 0 then xWho core k else { xWho core k with ag := .rou (k.sent.getD 0) }, own := true }

/-- The channel whose remote unit performs the hop. -/
def chaseUnit (core : Nat) (k : XCmd) (b : List Byte) : EM Nat :=
  if chasePtr k b = 0 || chasePtr k b % 8 != 0 then pure (k.sent.getD 0)
  else linkAt (chaser core k) (chasePtr k b) >>= fun at_ => get >>= fun (s : State) =>
    pure (if at_.1 = s.pkg then chanOf at_.2 else k.sent.getD 0)
/-- A field of the operand block's last word: its twelve bits from `lo` up. -/
def chaseField (b : List Byte) (lo : Nat) : Nat := blkW b 16 / 2 ^ lo % 2 ^ 12
/-- What a hop leaves: the command's result, or its next pointer. -/
def hopped (s : State) (core : Nat) (k : XCmd) : HopR → State
  | .done st v => resulted s core k (leBytes st 8 ++ leBytes v 8)
  | .next q => updX s core k.id fun k => { k with hop := k.hop + 1, ptr := q }
/-- The end of a hop. -/
def hopEnd (core : Nat) (k : XCmd) (r : HopR) : EM Unit := modify fun s => hopped s core k r
/-- The hop at a channel. -/
def chaseHop (core : Nat) (k : XCmd) (b : List Byte) (n : Nat) : EM Unit :=
  rouHop (atRou core k n) (chasePtr k b) (blkW b 8) (chaseField b 0) (chaseField b 16) (chaseField b 32) >>= hopEnd core k

section
variable {g s2 : State} {core : Nat} {k : XCmd} {b : List Byte} (hbsu : bsuOn g = false) (hr : k.r.toNat % 8 = 0)
  (ha : k.a.toNat % 8 = 0) (hb : k.blk = some b)
  (hfields : chaseField b 0 % 8 = 0 ∧ chaseField b 16 % 8 = 0 ∧ chaseField b 32 % 8 = 0)
  (hlimit : 1 ≤ blkW b 16 / 2 ^ 48 % 32 ∧ blkW b 16 / 2 ^ 48 % 32 ≤ 16)
include hr ha hb hfields hlimit

/-- A chase whose operands are in order. -/
theorem chaseMove_eq : chaseMove core k g =
    (if k.hop ≥ blkW b 16 / 2 ^ 48 % 32 then xGot core k (leBytes 2 8 ++ leBytes (chasePtr k b) 8) 0
    else eMeter (xWho core k) 1 1 >>= fun _ => (modify fun s => chasing s core k b) >>= fun _ => chaseUnit core k b >>= fun n =>
      (modify fun s => updX s core k.id fun k => { k with sent := some n }) >>= fun _ => chaseHop core k b n : EM Unit) g := by
  obtain ⟨hkey, hnext, hvalue⟩ := hfields
  have hoff (lo n : Nat) : bitsAt (blkW b 16) lo n = blkW b 16 / 2 ^ lo % 2 ^ n := by rw [bitsAt, Nat.shiftRight_eq_div_pow]
  have hok : (bitsAt (blkW b 16) 0 12 % 8 != 0 || bitsAt (blkW b 16) 16 12 % 8 != 0 || bitsAt (blkW b 16) 32 12 % 8 != 0
      || bitsAt (blkW b 16) 48 5 = 0 || bitsAt (blkW b 16) 48 5 > 16 : Bool) = false := by
    unfold chaseField at hkey hnext hvalue
    rw [hoff, hoff, hoff, hoff, hkey, hnext, hvalue]
    simp
    omega
  unfold chaseMove
  dsimp only
  rw [EM_bind_ok (eFaultIf_no (by simp [ha]) 32 _ 1 g), EM_bind_ok (eFaultIf_no (by simp [hr]) 32 _ 2 g),
    EM_bind_ok (xBlock_read hb _ _ g), EM_bind_ok (eFaultIf_no hok 33 _ 4 g), hoff, hoff, hoff, hoff]
  have hend : hopEnd core k = fun r => match r with
      | .done st v => xGot core k (leBytes st 8 ++ leBytes v 8) 0
      | .next q => modify fun s => updX s core k.id fun k => { k with hop := k.hop + 1, ptr := q } := by
    funext r
    cases r <;> rfl
  unfold chaseHop chaseUnit
  rw [hend, show (if k.hop = 0 then blkW b 0 else k.ptr) = chasePtr k b from rfl]
  by_cases hstop : (chasePtr k b = 0 || chasePtr k b % 8 != 0 : Bool) = true
  · rw [if_pos hstop, if_pos hstop]
    rfl
  · rw [if_neg hstop, if_neg hstop]
    simp only [bind_assoc]
    rfl

/-- A chase at its last hop. -/
theorem chaseMove_last (h : blkW b 16 / 2 ^ 48 % 32 ≤ k.hop) :
    chaseMove core k g = (.ok (), resulted g core k (leBytes 2 8 ++ leBytes (chasePtr k b) 8)) := by
  rw [chaseMove_eq hr ha hb hfields hlimit, if_pos h]
  rfl

include hbsu

/-- A chase that is not at its last hop. -/
theorem chaseMove_on {n : Nat} {r : HopR} (h : k.hop < blkW b 16 / 2 ^ 48 % 32)
    (hunit : chaseUnit core k b (chasing g core k b) = (.ok n, chasing g core k b))
    (hhop : rouHop (atRou core k n) (chasePtr k b) (blkW b 8) (chaseField b 0) (chaseField b 16) (chaseField b 32)
      (chaseAt g core k b n) = (.ok r, s2)) : chaseMove core k g = (.ok (), hopped s2 core k r) := by
  rw [chaseMove_eq hr ha hb hfields hlimit, if_neg (by omega), EM_bind_ok (eMeter_off hbsu _ 1 1), EM_bind_ok (EM_modify _ g),
    EM_bind_ok hunit, EM_bind_ok (EM_modify _ _)]
  exact EM_bind_ok hhop

end

theorem chaseUnit_end {core : Nat} {k : XCmd} {b : List Byte} (hp : chasePtr k b = 0) (s : State) :
    chaseUnit core k b s = (.ok (k.sent.getD 0), s) := by
  unfold chaseUnit
  rw [if_pos (by simp [hp])]
  rfl

/-- A pointer of this package: the channel of its address. -/
theorem chaseUnit_here {core : Nat} {k : XCmd} {b : List Byte} {s : State} {pa : Nat} (hp : chasePtr k b ≠ 0)
    (hal : chasePtr k b % 8 = 0) (hat : linkAt (chaser core k) (chasePtr k b) s = (.ok (s.pkg, pa), s)) :
    chaseUnit core k b s = (.ok (chanOf pa), s) := by
  unfold chaseUnit
  rw [if_neg (by simp [hp, hal]), EM_bind_ok hat, EM_bind_ok (EM_get s), if_pos rfl]
  rfl

theorem rouHop_end {p : Nat} (hp : p = 0) (r : RouWho) (key koff noff voff : Nat) (s : State) :
    rouHop r p key koff noff voff s = (.ok (.done 1 0), s) := by
  rw [hp]
  rfl

/-! ### Misaligned operands (R119) -/

/-- A misaligned operand is a fault of the command before anything else. -/
theorem moveOf_misaligned (core : Nat) (k : XCmd) (g : State) (h5 : 5 ≤ k.kind) (h8 : k.kind ≤ 8) (ha : k.a.toNat % 8 ≠ 0) :
    moveOf core k k.kind g = (.error (.fault 32 k.a.toNat (if k.kind = 5 ∨ k.kind = 8 then 1 else 4)), g) := by
  have hodd : (k.a.toNat % 8 != 0) = true := by simpa using ha
  have hlist : listMove core k g = (.error (.fault 32 k.a.toNat 4), g) := by
    rw [listMove, EM_bind_error (eFaultIf_yes (by simp; omega) 32 _ 4 g)]
  obtain h | h | h | h : k.kind = 5 ∨ k.kind = 6 ∨ k.kind = 7 ∨ k.kind = 8 := by omega
  · rw [h]
    show cas4Move core k g = _
    rw [cas4Move, EM_bind_error (eFaultIf_yes hodd 32 _ 1 g)]
    rfl
  · rw [h]
    exact hlist
  · rw [h]
    exact hlist
  · rw [h]
    show chaseMove core k g = _
    rw [chaseMove, EM_bind_error (eFaultIf_yes hodd 32 _ 1 g)]
    rfl

/-! ### The obligation -/

/-- The event at which a command of a kind moves. -/
def moveEv (core id kind : Nat) : Ev :=
  match kind with
  | 5 => .rouRcas4 core id
  | 6 => .rouRenq core id
  | 7 => .rouRdeq core id
  | _ => .rchaseHop core id

theorem exec_moveEv {kind : Nat} (core id : Nat) (s : State) (h5 : 5 ≤ kind) (h8 : kind ≤ 8) :
    exec (moveEv core id kind).row (given s (moveEv core id kind)) = .next (rouMove (given s (moveEv core id kind)) core id kind) := by
  obtain h | h | h | h : kind = 5 ∨ kind = 6 ∨ kind = 7 ∨ kind = 8 := by omega
  all_goals
    rw [h]
    rfl

theorem remoteCommandsPerformTheirOperation : RemoteCommandsPerformTheirOperation := by
  refine ⟨listWordsAreExchanged, ?_⟩
  intro s s2 core id k b l res m pa cp moves g got sent n pick at_ hops p g1 aimed who asks
    hk hid hcancel hgot hdeps hfault hr hbsu
  subst hid
  have hrun (h5 : 5 ≤ k.kind) (h8 : k.kind ≤ 8) : does (moves k.kind) s (xRun g core k (moveOf core k k.kind)) := by
    rw [← rouMove_free (s := g) hk hcancel hgot hdeps hfault]
    exact exec_moveEv core k.id s h5 h8
  have hdone {t : State} (h5 : 5 ≤ k.kind) (h8 : k.kind ≤ 8) (h : moveOf core k k.kind g = (.ok (), t)) : does (moves k.kind) s t :=
    xRun_ok h ▸ hrun h5 h8
  refine ⟨fun hkind ha hb h1 h4 hpage hnodup hxlat hl hnear hfree hcas => ?cas4, fun hkind ha hx hxlat hpa hop => ?list,
    fun hkind ha hb h0 h16 h32 hmin hmax => ?chase, fun h5 h8 ha => ?misaligned⟩
  case cas4 =>
    have hmove : moveOf core k k.kind = cas4Move core k := by rw [hkind]; rfl
    have h := cas4Move_apply (g := g) hbsu hr ha hb h1 h4 hpage hnodup hxlat hl hnear hfree hcas
    have hdoes := hdone (by omega) (by omega) (hmove ▸ h)
    rw [hkind] at hdoes
    exact hdoes
  case list =>
    have hmove : moveOf core k k.kind = listMove core k := by obtain h | h := hkind <;> rw [h] <;> rfl
    have h := listMove_apply (g := g) hbsu hr ha hx hxlat hpa hop
    exact hdone (by omega) (by omega) (hmove ▸ h)
  case chase =>
    have hmove : moveOf core k k.kind = chaseMove core k := by rw [hkind]; rfl
    have hdone {t : State} (h : chaseMove core k g = (.ok (), t)) : does (moves 8) s t := by
      rw [← hkind]
      exact hdone (by omega) (by omega) (hmove ▸ h)
    have hfields : chaseField b 0 % 8 = 0 ∧ chaseField b 16 % 8 = 0 ∧ chaseField b 32 % 8 = 0 := ⟨h0, h16, h32⟩
    have hon {n : Nat} {r : HopR} {u : State} (hmore : k.hop < hops)
        (hunit : chaseUnit core k b (chasing g core k b) = (.ok n, chasing g core k b))
        (hhop : rouHop (atRou core k n) (chasePtr k b) (blkW b 8) (chaseField b 0) (chaseField b 16) (chaseField b 32)
          (chaseAt g core k b n) = (.ok r, u)) : does (moves 8) s (hopped u core k r) :=
      hdone (chaseMove_on (g := g) (core := core) hbsu hr ha hb hfields ⟨hmin, hmax⟩ hmore hunit hhop)
    refine ⟨fun hlast => ?_, fun hmore hp => ?_, fun hmore hp hal hat => ?_⟩
    · exact hdone (chaseMove_last (g := g) (core := core) hr ha hb hfields ⟨hmin, hmax⟩ hlast)
    · have hp : chasePtr k b = 0 := hp
      exact hon hmore (chaseUnit_end hp _) (rouHop_end hp ..)
    · have hunit := chaseUnit_here (core := core) (s := chasing g core k b) hp hal hat
      exact ⟨fun st v hhop => hon hmore hunit hhop, fun z hhop => hon hmore hunit hhop⟩
  case misaligned =>
    have hfault := hrun h5 h8
    have hk : xOf g core k.id = some k := hk
    rw [xRun_fault (moveOf_misaligned core k g h5 h8 ha), hk] at hfault
    exact hfault

/-- Settles O45: a unit's operation on plain words is its reads and its writes, and a command's move is its operation. -/
theorem remoteOperationsArePerformed : Obligations.RemoteOperationsArePerformed :=
  ⟨remoteUnitsPerformTheirOperation, remoteCommandsPerformTheirOperation⟩

end Sys2Proof.Machine
end

section
/-! PROOF. The atomics of the S slot (O23): an atomic on plain HBM that no cache of its core holds performs its operation there and puts
its answer in flight; a misaligned one traps before it translates (R114, R115, R119 to R121, R281, R282; log 33: the alignment is checked
first). -/
namespace Sys2Proof.Machine
open Sys2Proof.Claims

/-! ### The instruction -/

/-- An atomic on HBM that nothing holds back: its page is translated without a walk, the context's earlier accesses are performed,
nothing is metered, and no list operation holds the sector. -/
structure AtomReady (s : State) (va : Word) (w : AWidth) (acc : Acc4) (pa cp : Nat) : Prop where
  aligned : va.toNat % AWidth_bytes w = 0
  mapped : mapped s va acc pa cp
  inHbm : pa < 0x00C000000000
  settled : settled (cc s)
  free : sectorHeld s pa s.cur = false
  unmetered : bsuOn s = false

/-- The trace of an atomic. -/
def traced (s : State) (va : Word) (w : AWidth) : State := trMem s s.cur 6 va.toNat (match w with | .w32 => 2 | .w64 => 3)
/-- The state in which an atomic is performed: its core's own copies of the line are gone (R114). -/
def atAtom (s : State) (va : Word) (w : AWidth) (pa : Nat) : State := flushOwn (traced s va w) (coreOf s.cur) pa

section
variable {s : State} {va : Word} {w : AWidth} {acc : Acc4} {pa cp : Nat}

theorem atomTarget_ready (h : AtomReady s va w acc pa cp) : atomTarget va w acc s = (.ok (s.pkg, pa, cp), s) := by
  have hmap : translate s (.core (coreOf s.cur)) (asidOf s s.cur) va acc = (.ok s.pkg pa cp, s) := h.mapped
  have hxlat : xlatAs va acc 4 s = (.ok (s.pkg, pa, cp), s) := by
    unfold xlatAs
    rw [M_bind_ok (get_apply s), hmap]
    rfl
  unfold atomTarget
  rw [h.aligned, bne_self_eq_false, M_bind_ok (trapIf_false 32 va 4 s), M_bind_ok hxlat]
  dsimp only
  rw [M_bind_ok (get_apply s), (map_range h.inHbm).1, Bool.true_or, Bool.not_true, Bool.and_false,
    M_bind_ok (trapIf_false 4 va 4 s)]
  rfl

/-- The operation at home. -/
theorem atHome_apply {here : State → Nat → Option Nat × State} {u t : State} {r : Option Nat}
    (h : here (flushOwn u (coreOf u.cur) pa) pa = (r, t)) : atHome pa here u = (.ok r, t) := by
  unfold atHome
  rw [M_bind_ok (get_apply u), h]
  rfl

/-- A relaxed atomic that is performed here. -/
theorem atomic_here {d a : SReg} {sc : Scope} {simple resv : Bool} {arg v : Nat} {data : List Byte} {rel : State → Nat → Bool}
    {here : State → Nat → Option Nat × State} {t : State} (hready : AtomReady s (rdS (cc s) a) w acc pa cp)
    (hhere : here (atAtom s (rdS (cc s) a) w pa) pa = (some v, t)) :
    atomic d a w .rlx sc acc simple resv arg data rel here s = (.ok (), emitS t d (BitVec.ofNat 64 v) 8) := by
  have hfar : farOp s pa cp simple resv = false := by
    unfold farOp
    rw [(map_range hready.inHbm).2.1]
    rfl
  have hcur : (traced s (rdS (cc s) a) w).cur = s.cur := by
    unfold traced
    rw [trMem_frame]
    rfl
  have hhome : atHome pa here (traced s (rdS (cc s) a) w) = (.ok (some v), t) := atHome_apply (by rw [hcur]; exact hhere)
  unfold atomic
  rw [M_bind_ok (getC_apply s)]
  dsimp only
  rw [M_bind_ok (atomTarget_ready hready)]
  dsimp only
  rw [M_bind_ok (get_apply s), beq_self_eq_true, if_pos rfl, hfar, M_bind_ok (trapIf_false 36 _ 4 s)]
  rw [M_bind_ok (show atomScope .rlx sc s.pkg pa s = (.ok 0, s) from rfl), M_bind_ok (settleBytes_settled hready.settled _ _ _),
    M_bind_ok (get_apply s), hready.free, Bool.and_false, M_bind_ok (blockIf_false s), M_bind_ok (meter_off hready.unmetered _ _),
    M_bind_ok (get_apply s), show Ord.rels .rlx = false from rfl, Bool.false_and, if_neg Bool.false_ne_true]
  refine (M_bind_ok (modify_apply _ s)).trans ?_
  rw [if_pos rfl]
  exact (M_bind_ok hhome).trans (M_bind_ok (outS_apply d _ 8 t))

/-- A guarded operation on a scalar register, given what it reads at issue. -/
def guarded (d : SReg) (q : BitVec 3) (m : Ctx → M Unit) : M Unit := do
  let x ← getC
  opTrap (loopReg x d)
  if rdP x q then m x

theorem guarded_next {d : SReg} {q : BitVec 3} {m : Ctx → M Unit} {t : State} (hloop : loopReg (cc s) d = false)
    (hq : rdP (cc s) q = true) (hm : m (cc s) s = (.ok (), t)) : run 0 (guarded d q m) s = .next t := by
  apply run_ok
  unfold guarded
  rw [M_bind_ok (getC_apply s), opTrap, hloop, M_bind_ok (trapIf_false 51 0 0 s), if_pos hq]
  exact hm

theorem guarded_trap {d : SReg} {q : BitVec 3} {m : Ctx → M Unit} {sub ak : Nat} {va : Word} (hloop : loopReg (cc s) d = false)
    (hq : rdP (cc s) q = true) (hm : m (cc s) s = (.error (.trap sub va ak), s)) (hall : allHere (cc s) = true) :
    run 0 (guarded d q m) s = .next (takeTrap s s.cur sub va ak (some 0)) := by
  refine run_trap ?_ hall
  unfold guarded
  rw [M_bind_ok (getC_apply s), opTrap, hloop, M_bind_ok (trapIf_false 51 0 0 s), if_pos hq]
  exact hm

end

/-! ### The state in which an atomic is performed -/

section
variable {s : State} {va : Word} {w : AWidth} {pa : Nat} (hu : uncachedAt s (coreOf s.cur) pa)

theorem traced_frame (s : State) (va : Word) (w : AWidth) : traced s va w = withTrace s (traced s va w) := trMem_frame ..

include hu

theorem reached_atAtom : Reached (traced s va w) (atAtom s va w pa) := by
  refine reached_flushOwn ?_
  rw [traced_frame]
  exact hu

theorem atAtom_hbm : (atAtom s va w pa).hbm = s.hbm := by
  have hu : uncachedAt (traced s va w) (coreOf s.cur) pa := by
    rw [traced_frame]
    exact hu
  rw [atAtom, flushOwn_hbm hu, traced_frame]
  rfl

theorem atAtom_ctx : (atAtom s va w pa).ctx = s.ctx := by
  rw [(reached_atAtom hu).ctx, traced_frame]
  rfl
theorem atAtom_cur : (atAtom s va w pa).cur = s.cur := by
  rw [(reached_atAtom hu).cur, traced_frame]
  rfl
theorem atAtom_clk : (atAtom s va w pa).clk = s.clk := by
  rw [(reached_atAtom hu).clk, traced_frame]
  rfl

theorem plainHbm_atAtom {n : Nat} (hp : plainHbm s pa n) : plainHbm (atAtom s va w pa) pa n := plainHbm_congr (atAtom_hbm hu) hp

theorem memOk_atAtom (hs : memOk s = true) : memOk (atAtom s va w pa) = true := (reached_atAtom hu).canonical (memOk_trMem hs)

end

/-! ### The answer in flight -/

/-- An atomic's answer on its way to its register (R213). -/
def answerOf (x : Ctx) (d : SReg) (v : Nat) : Flight :=
  { dst := dstS x d, val := (BitVec.ofNat 64 v).setWidth 2048, pos := x.pos, bound := 8 }

theorem answerOf_num (x : Ctx) (d : SReg) {v : Nat} (h : v < 2 ^ 64) : (answerOf x d v).val.toNat = v := by
  have hbig : v < 2 ^ 2048 := Nat.lt_trans h (Nat.pow_lt_pow_right (by decide) (by decide))
  show ((BitVec.ofNat 64 v).setWidth 2048).toNat = v
  rw [BitVec.toNat_setWidth, BitVec.toNat_ofNat, Nat.mod_eq_of_lt h, Nat.mod_eq_of_lt hbig]

theorem flights_emitS (t : State) (d : SReg) (v : Nat) :
    (cc (emitS t d (BitVec.ofNat 64 v) 8)).flights = (cc t).flights ++ [answerOf (cc t) d v] := by
  rw [emitS, cc_emit]
  rfl

@[simp] theorem hbm_emitS (t : State) (d : SReg) (v : Word) (n : Nat) : (emitS t d v n).hbm = t.hbm := by
  rw [emitS, emit_frame]
  rfl

theorem cc_congr {s t : State} (hctx : t.ctx = s.ctx) (hcur : t.cur = s.cur) : cc t = cc s := by rw [cc, ctxOf, hctx, hcur]; rfl

theorem wordOf_lt_64 (m : Memory) (a : Nat) (w : AWidth) : wordOf m a (AWidth_bytes w) < 2 ^ 64 :=
  Nat.lt_of_lt_of_le (wordOf_lt m a _) (Nat.pow_le_pow_right (by decide) (by cases w <;> decide))

/-! ### The instructions -/

/-- What each atomic does here: its operation at the home of its word. -/
def amoAt (op : RouOp) (w : AWidth) (x : Word) (s : State) (pa : Nat) : Option Nat × State :=
  let (r, t) := rouOp s [s.cur] (some (taskOf s s.cur).queue) op w pa x
  (r.map (·.1), t)
def amocasAt (w : AWidth) (e x : Word) (s : State) (pa : Nat) : Option Nat × State :=
  rouCas s [s.cur] (some (taskOf s s.cur).queue) w pa e x
def lrAt (w : AWidth) (s : State) (pa : Nat) : Option Nat × State := rouLoadR s s.cur w pa
def scAt (w : AWidth) (x : Word) (s : State) (pa : Nat) : Option Nat × State :=
  rouStoreC s s.cur (some (taskOf s s.cur).queue) w pa x

section
variable (s : State) (d a b c : SReg) (q : BitVec 3) (w : AWidth) (o : Sys2Proof.Ord) (sc : Scope)

theorem exec_amo_eq (op : RouOp) : exec (.amo op d a b q w o sc) s = run 0 (guarded d q fun x =>
    atomic d a w o sc .atomic (op == .add || op == .swap) false (RouOp_code op) (leBytes (rdS x b).toNat (AWidth_bytes w))
      (fun _ _ => true) (amoAt op w (rdS x b))) s := rfl
theorem exec_amocas_eq : exec (.amocas d a b c q w o sc) s = run 0 (guarded d q fun x =>
    atomic d a w o sc .atomic true false 10 (leBytes (rdS x c).toNat (AWidth_bytes w) ++ leBytes (rdS x b).toNat (AWidth_bytes w))
      (fun _ _ => true) (amocasAt w (rdS x c) (rdS x b))) s := rfl
theorem exec_lr_eq : exec (.lr d a q w o sc) s = run 0 (guarded d q fun _ =>
    atomic d a w o sc .read false true 11 [] (fun _ _ => true) (lrAt w)) s := rfl
theorem exec_sc_eq : exec (.sc d a b q w o sc) s = run 0 (guarded d q fun x =>
    atomic d a w o sc .write false true 12 (leBytes (rdS x b).toNat (AWidth_bytes w)) scHolds (scAt w (rdS x b))) s := rfl

end

/-- `t` answers `v` to the register `d` of the issuing context. -/
def gaveAnswer (s t : State) (d : SReg) (v : Nat) : Prop := (cc t).flights = (cc s).flights ++ [answerOf (cc s) d v]

theorem gaveAnswer_emitS {s t : State} (hctx : t.ctx = s.ctx) (hcur : t.cur = s.cur) (d : SReg) (v : Nat) :
    gaveAnswer s (emitS t d (BitVec.ofNat 64 v) 8) d v := by
  rw [gaveAnswer, flights_emitS, cc_congr hctx hcur]

section
variable {s : State} {d a : SReg} (b : SReg) {q : BitVec 3} {w : AWidth} (sc : Scope) {pa cp : Nat}
  (hloop : loopReg (cc s) d = false) (hq : rdP (cc s) q = true) (hal : pa % AWidth_bytes w = 0) (hs : memOk s = true)
  (hp : plainHbm s pa (AWidth_bytes w)) (hu : uncachedAt s (coreOf s.cur) pa)
include hloop hq hp hu

section
variable (hready : AtomReady s (rdS (cc s) a) w .atomic pa cp)
include hal hs hready

theorem exec_amo (op : RouOp) : let old := wordOf s.hbm.mem pa (AWidth_bytes w)
    ∃ t, exec (.amo op d a b q w .rlx sc) s = .next t
      ∧ tookWord s.hbm.mem t.hbm.mem pa (AWidth_bytes w) (rouNew op w old (rdS (cc s) b).toNat).1 ∧ gaveAnswer s t d old := by
  let u := atAtom s (rdS (cc s) a) w pa
  obtain ⟨t, hop, hreach, htook⟩ := rouOp_plain (plainHbm_atAtom (va := rdS (cc s) a) (w := w) hu hp) hal (memOk_atAtom hu hs) [u.cur]
    (some (taskOf u u.cur).queue) op (rdS (cc s) b)
  rw [atAtom_hbm hu] at hop htook
  have hhere : amoAt op w (rdS (cc s) b) u pa = (some (wordOf s.hbm.mem pa (AWidth_bytes w)), t) := by
    rw [amoAt, hop]
    rfl
  rw [exec_amo_eq]
  refine ⟨_, guarded_next hloop hq (atomic_here hready hhere), by rwa [hbm_emitS], ?_⟩
  exact gaveAnswer_emitS (hreach.ctx.trans (atAtom_ctx hu)) (hreach.cur.trans (atAtom_cur hu)) d _

theorem exec_amocas (c : SReg) : let old := wordOf s.hbm.mem pa (AWidth_bytes w)
    ∃ t, exec (.amocas d a b c q w .rlx sc) s = .next t ∧ gaveAnswer s t d old
      ∧ tookWord s.hbm.mem t.hbm.mem pa (AWidth_bytes w)
        (if old = (rdS (cc s) c).toNat % 2 ^ AWidth_bits w then (rdS (cc s) b).toNat % 2 ^ AWidth_bits w else old) := by
  let u := atAtom s (rdS (cc s) a) w pa
  obtain ⟨t, hcas, hreach, htook⟩ := rouCas_plain (plainHbm_atAtom (va := rdS (cc s) a) (w := w) hu hp) hal (memOk_atAtom hu hs) [u.cur]
    (some (taskOf u u.cur).queue) (rdS (cc s) c) (rdS (cc s) b)
  rw [atAtom_hbm hu] at hcas htook
  have hhere : amocasAt w (rdS (cc s) c) (rdS (cc s) b) u pa = (some (wordOf s.hbm.mem pa (AWidth_bytes w)), t) := hcas
  rw [exec_amocas_eq]
  refine ⟨_, guarded_next hloop hq (atomic_here hready hhere), ?_, by rwa [hbm_emitS]⟩
  exact gaveAnswer_emitS (hreach.ctx.trans (atAtom_ctx hu)) (hreach.cur.trans (atAtom_cur hu)) d _

end

section
variable (hready : AtomReady s (rdS (cc s) a) w .read pa cp)
include hal hready

/-- `lr` leaves the context the one reservation that it makes. -/
theorem exec_lr : let old := wordOf s.hbm.mem pa (AWidth_bytes w)
    ∃ t, exec (.lr d a q w .rlx sc) s = .next t ∧ gaveAnswer s t d old ∧ t.hbm.mem = s.hbm.mem
      ∧ (∀ r, r ∈ (chan t (chanOf pa)).resv → r.ctx = s.cur → r.sector = pa / 32 ∧ r.clk = s.clk)
      ∧ ∃ r, r ∈ (chan t (chanOf pa)).resv ∧ r.ctx = s.cur := by
  let u := atAtom s (rdS (cc s) a) w pa
  let v := activate u (pa / 32 * 32)
  have hcur : u.cur = s.cur := atAtom_cur hu
  have hclk : v.clk = s.clk := ((reached_activate u _).clk).trans (atAtom_clk hu)
  have hctx : v.ctx = s.ctx := ((reached_activate u _).ctx).trans (atAtom_ctx hu)
  have hvcur : v.cur = s.cur := ((reached_activate u _).cur).trans hcur
  have hmem : v.hbm.mem = s.hbm.mem := congrArg (·.mem) (atAtom_hbm hu)
  have hlr := rouLoadR_plain (plainHbm_atAtom (va := rdS (cc s) a) (w := w) hu hp) hal u.cur
  rw [atAtom_hbm hu, hcur] at hlr
  have hhere : lrAt w u pa = (some (wordOf s.hbm.mem pa (AWidth_bytes w)), resvMake v s.cur pa) := by rw [lrAt, hcur, hlr]
  rw [exec_lr_eq]
  refine ⟨_, guarded_next hloop hq (atomic_here hready hhere),
    gaveAnswer_emitS ((resvMake_ctx v _ _).trans hctx) ((resvMake_cur v _ _).trans hvcur) d _, ?_, ?_, ?_⟩
  · rw [hbm_emitS, resvMake_mem, hmem]
  · unfold chan
    rw [hbm_emitS]
    intro r hr hc
    rw [eq_of_mem_resvMake hr hc, ← hclk]
    exact ⟨rfl, rfl⟩
  · unfold chan
    rw [hbm_emitS]
    exact ⟨_, mem_resvMake v s.cur pa, rfl⟩

end

omit hloop hq in
/-- The operation of an `sc`, as its reservation decides. -/
theorem scAt_eq (va x : Word) : let u := atAtom s va w pa
    scAt w x u pa = if resvHeld s s.cur pa
      then (some 0, resvCancel (atWrite u [s.cur] (some (taskOf u s.cur).queue) pa (AWidth_bytes w) (x.toNat % 2 ^ AWidth_bits w)) s.cur)
      else (some 1, resvCancel u s.cur) := by
  intro u
  have hcur : u.cur = s.cur := atAtom_cur hu
  have hheld : resvHeld u s.cur pa = resvHeld s s.cur pa := by
    unfold resvHeld chan
    rw [show u.hbm = s.hbm from atAtom_hbm hu, show u.clk = s.clk from atAtom_clk hu]
  rw [scAt, hcur, rouStoreC_plain (plainHbm_atAtom hu hp), hheld]

section
variable (hready : AtomReady s (rdS (cc s) a) w .write pa cp)
include hready

include hal hs in
theorem exec_sc_held (hheld : resvHeld s s.cur pa = true) : ∃ t, exec (.sc d a b q w .rlx sc) s = .next t ∧ gaveAnswer s t d 0
    ∧ tookWord s.hbm.mem t.hbm.mem pa (AWidth_bytes w) (rdS (cc s) b).toNat
    ∧ ∀ r, r ∈ (chan t (chanOf pa)).resv → r.ctx ≠ s.cur := by
  let u := atAtom s (rdS (cc s) a) w pa
  let v := atWrite u [s.cur] (some (taskOf u s.cur).queue) pa (AWidth_bytes w) ((rdS (cc s) b).toNat % 2 ^ AWidth_bits w)
  have hplain : plainHbm u pa (AWidth_bytes w) := plainHbm_atAtom hu hp
  have hreach : Reached u v := reached_atWrite (AWidth_bytes_pos w) hplain _ _ _ (AWidth_in_sector hal)
  have htook : tookWord u.hbm.mem v.hbm.mem pa (AWidth_bytes w) (rdS (cc s) b).toNat :=
    tookWord_mod (tookWord_atWrite (AWidth_bytes_pos w) hplain _ _ _ (memOk_atAtom hu hs))
  have hhere : scAt w (rdS (cc s) b) u pa = (some 0, resvCancel v s.cur) := by rw [scAt_eq hp hu, if_pos hheld]
  rw [show u.hbm = s.hbm from atAtom_hbm hu] at htook
  rw [exec_sc_eq]
  refine ⟨_, guarded_next hloop hq (atomic_here hready hhere), ?_, ?_, ?_⟩
  · exact gaveAnswer_emitS ((resvCancel_ctx v _).trans (hreach.ctx.trans (atAtom_ctx hu)))
      ((resvCancel_cur v _).trans (hreach.cur.trans (atAtom_cur hu))) d _
  · rwa [hbm_emitS, resvCancel_mem]
  · unfold chan
    rw [hbm_emitS]
    exact ctx_ne_of_mem_resvCancel v s.cur _

theorem exec_sc_lost (hlost : resvHeld s s.cur pa = false) : ∃ t, exec (.sc d a b q w .rlx sc) s = .next t ∧ gaveAnswer s t d 1
    ∧ t.hbm.mem = s.hbm.mem ∧ ∀ r, r ∈ (chan t (chanOf pa)).resv → r.ctx ≠ s.cur := by
  let u := atAtom s (rdS (cc s) a) w pa
  have hhere : scAt w (rdS (cc s) b) u pa = (some 1, resvCancel u s.cur) := by
    rw [scAt_eq hp hu, if_neg (by simp [hlost])]
  rw [exec_sc_eq]
  refine ⟨_, guarded_next hloop hq (atomic_here hready hhere), 
    gaveAnswer_emitS ((resvCancel_ctx u _).trans (atAtom_ctx hu)) ((resvCancel_cur u _).trans (atAtom_cur hu)) d _, ?_, ?_⟩
  · rw [hbm_emitS, resvCancel_mem, show u.hbm = s.hbm from atAtom_hbm hu]
  · unfold chan
    rw [hbm_emitS]
    exact ctx_ne_of_mem_resvCancel u s.cur _

end

end

/-! ### The alignment trap (R119; log 33) -/

theorem atomic_misaligned {s : State} {d a : SReg} {w : AWidth} {o : Sys2Proof.Ord} {sc : Scope} {acc : Acc4} {simple resv : Bool}
    {arg : Nat} {data : List Byte} {rel : State → Nat → Bool} {here : State → Nat → Option Nat × State}
    (h : (rdS (cc s) a).toNat % AWidth_bytes w ≠ 0) :
    atomic d a w o sc acc simple resv arg data rel here s = (.error (.trap 32 (rdS (cc s) a) 4), s) := by
  have hodd : ((rdS (cc s) a).toNat % AWidth_bytes w != 0) = true := by simpa using h
  have htarget : atomTarget (rdS (cc s) a) w acc s = (.error (.trap 32 (rdS (cc s) a) 4), s) := by
    unfold atomTarget
    rw [hodd, M_bind_error (trapIf_true 32 _ 4 s)]
  unfold atomic
  rw [M_bind_ok (getC_apply s)]
  exact M_bind_error htarget

/-! ### The obligation -/

theorem atomicsReadAndWriteTheirWord : AtomicsReadAndWriteTheirWord := by
  intro s op d a b c q w sc pa cp x n va old v new line wrote got hloop hq hva hpa hs hp hbsu hset hfree hl1 hclc hmap
  have hn : n = AWidth_bytes w := by cases w <;> rfl
  clear_value n
  subst hn
  obtain ⟨hend, -⟩ := id hp
  have hw := AWidth_bytes_pos w
  have hready : AtomReady s va w .atomic pa cp := ⟨hva, hmap, by omega, hset, hfree, hbsu⟩
  have hu : uncachedAt s (coreOf s.cur) pa := ⟨hl1, by rwa [coreOf, Nat.div_div_eq_div_mul]⟩
  have hold : (answerOf (cc s) d old).val.toNat = old := answerOf_num _ d (wordOf_lt_64 _ _ w)
  refine ⟨fun hop => ?_, ?_⟩
  · obtain ⟨t, hexec, htook, hanswer⟩ := exec_amo b sc hloop hq hpa hs hp hu hready op
    have hnew : (rouNew op w (wordOf s.hbm.mem pa (AWidth_bytes w)) (rdS (cc s) b).toNat).1 = new := by
      cases op with
      | fadd => exact absurd rfl hop
      | _ => rfl
    rw [hnew] at htook
    exact ⟨t, hexec, htook, _, hanswer, rfl, rfl, rfl, hold, rfl⟩
  · obtain ⟨t, hexec, hanswer, htook⟩ := exec_amocas b sc hloop hq hpa hs hp hu hready c
    exact ⟨t, hexec, ⟨_, hanswer, rfl, rfl, rfl, hold, rfl⟩, htook⟩

theorem misalignedAtomicsTrap : MisalignedAtomicsTrap := by
  intro s op d a b c q w o sc hloop hq hodd hall t
  have hodd : (rdS (cc s) a).toNat % AWidth_bytes w ≠ 0 := by cases w <;> exact hodd
  rw [exec_amo_eq, exec_amocas_eq, exec_lr_eq, exec_sc_eq]
  exact ⟨guarded_trap hloop hq (atomic_misaligned hodd) hall, guarded_trap hloop hq (atomic_misaligned hodd) hall,
    guarded_trap hloop hq (atomic_misaligned hodd) hall, guarded_trap hloop hq (atomic_misaligned hodd) hall⟩

theorem reservationsDecideTheConditionalStore : ReservationsDecideTheConditionalStore := by
  intro s d a b q w sc pa cp x n va line old got held hloop hq hva hpa hs hp hbsu hset hfree hl1 hclc
  have hn : n = AWidth_bytes w := by cases w <;> rfl
  clear_value n
  subst hn
  obtain ⟨hend, -⟩ := id hp
  have hw := AWidth_bytes_pos w
  have hready (acc : Acc4) (hmap : mapped s va acc pa cp) : AtomReady s va w acc pa cp := ⟨hva, hmap, by omega, hset, hfree, hbsu⟩
  have hu : uncachedAt s (coreOf s.cur) pa := ⟨hl1, by rwa [coreOf, Nat.div_div_eq_div_mul]⟩
  have hheld : resvHeld s s.cur pa = true ↔ held := resvHeld_iff
  refine ⟨fun hmap => ?_, fun hmap hstands => ?_, fun hmap hlost => ?_⟩
  · obtain ⟨t, hexec, hanswer, hmem, hresv⟩ := exec_lr sc hloop hq hpa hp hu (hready _ hmap)
    exact ⟨t, hexec, ⟨_, hanswer, rfl, rfl, rfl, answerOf_num _ d (wordOf_lt_64 _ _ w)⟩, fun e => by rw [hmem], hresv⟩
  · obtain ⟨t, hexec, hanswer, htook, hresv⟩ := exec_sc_held b sc hloop hq hpa hs hp hu (hready _ hmap) (hheld.2 hstands)
    exact ⟨t, hexec, ⟨_, hanswer, rfl, rfl, rfl, answerOf_num _ d (by decide)⟩, htook, hresv⟩
  · obtain ⟨t, hexec, hanswer, hmem, hresv⟩ := exec_sc_lost b sc hloop hq hp hu (hready _ hmap) (by simpa using hlost ∘ hheld.1)
    exact ⟨t, hexec, ⟨_, hanswer, rfl, rfl, rfl, answerOf_num _ d (by decide)⟩, fun e => by rw [hmem], hresv⟩

/-- Settles O23: an atomic is its operation on plain HBM and its answer in flight, and its alignment is checked before anything else. -/
theorem atomicsAndReservations : Obligations.AtomicsAndReservations :=
  ⟨atomicsReadAndWriteTheirWord, misalignedAtomicsTrap, reservationsDecideTheConditionalStore⟩

end Sys2Proof.Machine
end

section
/-! PROOF. HBM maintenance (O43): dead and revived blocks, `hdeadcmd`, the interface's replays and retrains, and the ends of
reservations (R104 to R106, R121). -/
namespace Sys2Proof.Machine
open Sys2Proof.Claims

/-! ### Memory without some addresses -/

theorem Memory.get?_filter {m : Memory} {lo : Option Nat} (p : Nat → Bool) (h : Memory.wfFrom lo m = true) (a : Nat) :
    SMap.get? (m.filter fun c => p c.1) a = if p a then SMap.get? m a else none := by
  induction m generalizing lo with
  | nil => simp [SMap.get?]
  | cons e m ih =>
    obtain ⟨k, b⟩ := e
    obtain ⟨-, -, hm⟩ := Memory.wfFrom_cons.1 h
    have hrest := ih hm
    have hbelow (hlt : a < k) : SMap.get? m a = none :=
      Memory.get?_below (Memory.wfFrom_weaken hm fun l hl => by obtain rfl := Option.some.inj hl; omega)
    rw [List.filter_cons]
    by_cases hk : k = a
    · subst hk
      cases hp : p k <;> simp [hp, SMap.get?, hrest]
    · by_cases hlt : a < k
      · rw [hbelow hlt] at hrest
        cases hp : p k <;> simp [SMap.get?, hk, hlt, hrest]
      · cases hp : p k <;> simp [SMap.get?, hk, hlt, hrest]

theorem Memory.read_filter {m : Memory} (p : Nat → Bool) (h : Memory.wf m = true) (a : Nat) :
    Memory.read (m.filter fun c => p c.1) a = if p a then Memory.read m a else 0 := by
  unfold Memory.read SMap.getD
  rw [Memory.get?_filter p h]
  split <;> rfl

/-! ### Blocks killed and revived (R104) -/

/-- A block that is killed or revived reads as zeros, and no other byte changes. -/
theorem read_killBlock {s : State} (hs : memOk s = true) (blk a : Nat) :
    Memory.read (killBlock s blk).hbm.mem a = if a / 4096 = blk then 0 else Memory.read s.hbm.mem a := by
  refine (Memory.read_filter (fun a => a / 4096 != blk) (memOk_hbmMem hs) a).trans ?_
  by_cases h : a / 4096 = blk <;> simp [h]

theorem read_reviveBlock {s : State} (hs : memOk s = true) (blk a : Nat) :
    Memory.read (reviveBlock s blk).hbm.mem a = if a / 4096 = blk then 0 else Memory.read s.hbm.mem a :=
  read_killBlock (memOk_dropResv (blk := blk) hs) blk a

/-- The blocks of a command, all of them in HBM. -/
theorem read_deadBlocks {s : State} (revive : Bool) {k b : Nat} (hs : memOk s = true) (hend : (b + k) * 4096 ≤ 0x00C000000000) (a : Nat) :
    Memory.read (deadBlocks s revive k b).hbm.mem a =
      if b ≤ a / 4096 ∧ a / 4096 < b + k then 0 else Memory.read s.hbm.mem a := by
  induction k generalizing s b with
  | zero => rw [if_neg (by omega), deadBlocks]
  | succ k ih =>
    have hhbm : isHbm (b * 4096) = true := (map_range (by omega)).1
    have hrest : (b + 1 + k) * 4096 ≤ 0x00C000000000 := by rwa [show b + 1 + k = b + (k + 1) by omega]
    have hblock : Memory.read (if revive then reviveBlock s b else killBlock s b).hbm.mem a
        = if a / 4096 = b then 0 else Memory.read s.hbm.mem a := by
      split
      · exact read_reviveBlock hs b a
      · exact read_killBlock hs b a
    rw [deadBlocks, hhbm, Bool.not_true, if_neg Bool.false_ne_true,
      ih (memOk_ite (memOk_reviveBlock hs) (memOk_killBlock hs)) hrest, hblock]
    by_cases hin : b ≤ a / 4096 ∧ a / 4096 < b + (k + 1)
    · rw [if_pos hin]
      split
      · rfl
      · rw [if_pos (by omega)]
    · rw [if_neg hin, if_neg (by omega), if_neg (by omega)]

/-! ### `hdeadcmd` (R104) -/

/-- The command that a write of `hdeadcmd` starts. -/
def deadCmdOf (w : Word) : DeadCmd :=
  { next := w.toNat / 2 ^ 16 % 2 ^ 32 * 16, left := (if w.toNat % 2 ^ 16 = 0 then 65536 else w.toNat % 2 ^ 16) * 16
    revive := w.getLsbD 61 }

theorem deadWriteReg_start {s : State} {w : Word} (hidle : s.hbm.dead = none) (hgo : w.getLsbD 62 = true) :
    (deadWriteReg s w).hbm = { s.hbm with dead := some (deadCmdOf w) } := by
  have hfields (lo n : Nat) : bitsAt w.toNat lo n = w.toNat / 2 ^ lo % 2 ^ n := by rw [bitsAt, Nat.shiftRight_eq_div_pow]
  unfold deadWriteReg
  rw [hidle, hgo, hfields, hfields, Nat.pow_zero, Nat.div_one]
  rfl

theorem deadWriteReg_busy {s : State} (w : Word) (hbusy : s.hbm.dead.isSome = true) : deadWriteReg s w = s := by
  unfold deadWriteReg
  rw [if_pos hbusy]

/-- A write of `hdeadcmd`, as its op says. -/
def deadEv (w : Word) (b : Writer) : Ev := if w.getLsbD 61 then .hdeadcmdRevive w b else .hdeadcmdKill w b
theorem does_deadEv (s : State) (w : Word) (b : Writer) : does (deadEv w b) s (deadWriteReg (given s (deadEv w b)) w) := by
  unfold deadEv
  split <;> rfl

/-! ### The interface (R105, R106) -/

theorem crcFail_open {s : State} {n : Nat} (hfail : (chan s n).failed = false) (hre : (chan s n).retraining = false) :
    chan (crcFail s n) n = if 8 ≤ (chan s n).replays
      then { chan s n with herex := bump (chan s n).herex 1, replays := 0, retraining := true }
      else { chan s n with herpl := bump (chan s n).herpl 1, replays := (chan s n).replays + 1 } := by
  unfold crcFail
  rw [hfail, hre, if_neg (by decide), chan_setChan_self]

section
variable {s : State} {n : Nat} (hre : (chan s n).retraining = true)
include hre

theorem ifTrained_ok : chan (ifTrained s n true) n = { chan s n with retraining := false, retrains := 0 } := by
  unfold ifTrained
  rw [hre, if_neg (by decide), if_pos rfl, chan_setChan_self]

theorem ifTrained_again (h : (chan s n).retrains < 2) :
    chan (ifTrained s n false) n = { chan s n with retrains := (chan s n).retrains + 1 } := by
  unfold ifTrained
  rw [hre, if_neg (by decide), if_neg Bool.false_ne_true, if_neg (by omega), chan_setChan_self]

theorem ifTrained_third (h : 2 ≤ (chan s n).retrains) : ifTrained s n false = failChan s n := by
  unfold ifTrained
  rw [hre, if_neg (by decide), if_neg Bool.false_ne_true, if_pos (by omega)]

end

/-- A channel fails: the management core is interrupted. -/
theorem failChan_spec (s : State) (n : Nat) :
    (chan (failChan s n) n).failed = true ∧ (devGet (failChan s n) 0xF00001500000).getLsbD 2 = true := by
  constructor
  · show (chan (setChan s n fun c => { c with failed := true, retraining := false }) n).failed = true
    rw [chan_setChan_self]
  · show (devGet (irq (setChan s n fun c => { c with failed := true, retraining := false }) 2) 0xF00001500000).getLsbD 2 = true
    rw [irq, devGet_devSet_self, BitVec.getLsbD_or]
    exact Bool.or_true _

/-! ### Reservations (R121) -/

theorem mem_resvExpire {s : State} {n c : Nat} {r : Resv} : r ∈ (chan (resvExpire s n c) n).resv ↔
    r ∈ (chan s n).resv ∧ ¬ (r.ctx = c ∧ r.clk + 4096 ≤ s.clk) := by
  unfold resvExpire
  rw [chan_setChan_self]
  simp [List.mem_filter, imp_iff_not_or]

/-! ### The obligation's part -/

theorem deadBlocksRetrainsAndExpiry : DeadBlocksRetrainsAndExpiry := by
  intro s w b d n c q frames cmd ev
  refine ⟨fun hidle hgo => ?start, fun hbusy => ?busy, fun hs hd hend => ?done, fun hfail hre => ?crc, fun hre => ?retrain, ?expiry⟩
  case start =>
    have hhbm := deadWriteReg_start (s := given s ev) hidle hgo
    exact ⟨_, does_deadEv s w b, congrArg (·.dead) hhbm, congrArg (·.mem) hhbm⟩
  case busy =>
    have hdoes := does_deadEv s w b
    rwa [deadWriteReg_busy w (show (given s (deadEv w b)).hbm.dead.isSome = true from hbusy)] at hdoes
  case done =>
    refine ⟨deadDone (given s .hdeadcmdDone), rfl, ?_, fun a => ?_⟩
    all_goals
      unfold deadDone
      rw [show (given s .hdeadcmdDone).hbm.dead = some d from hd]
    exact read_deadBlocks (s := given s .hdeadcmdDone) d.revive hs hend a
  case crc =>
    have hchan := crcFail_open (s := given s (.interfaceCrcFail n)) (n := n) hfail hre
    refine ⟨_, rfl, fun hfew => ?_, fun hmany => ?_⟩
    · exact hchan.trans (if_neg (Nat.not_le.2 hfew))
    · exact hchan.trans (if_pos hmany)
  case retrain =>
    have hre' (e : Ev) : (chan (given s e) n).retraining = true := hre
    refine ⟨⟨_, rfl, ifTrained_ok (hre' _)⟩, fun hfew => ⟨_, rfl, ?_⟩,
      fun hthird => ⟨failChan (given s (.interfaceRetrainEnd n false)) n, ?_, ?_⟩⟩
    · have hchan := ifTrained_again (hre' (.interfaceRetrainEnd n false)) hfew
      exact ⟨congrArg (·.retrains) hchan, (congrArg (·.retraining) hchan).trans hre⟩
    · exact congrArg Host.Outcome.next (ifTrained_third (hre' _) hthird)
    · exact failChan_spec _ n
  case expiry => exact ⟨_, rfl, fun r => mem_resvExpire⟩

end Sys2Proof.Machine
end

section
/-! PROOF. Packets of an HBM channel (O43): reads, ECC, masked writes, control packets, replies, refresh and scrubbing (R100 to R103,
R107 to R109; logs 20, 22 and 98). -/
namespace Sys2Proof.Machine
open Sys2Proof.Claims

/-! ### What a read leaves as it is -/

/-- `t` is `s` with other channel records. -/
def SameButChannels (s t : State) : Prop := t = { s with hbm := { s.hbm with ch := t.hbm.ch } }

theorem SameButChannels.trans {s t u : State} (h : SameButChannels s t) (g : SameButChannels t u) : SameButChannels s u := by
  unfold SameButChannels at *
  rw [g, h]

theorem sameButChannels_setChan (s : State) (n : Nat) (f : Chan → Chan) : SameButChannels s (setChan s n f) := rfl

/-- The read of clean, live sectors changes channel records alone. -/
theorem sameButChannels_hbmReadSecs {s : State} {sec k : Nat}
    (hc : ∀ j, sec ≤ j → j < sec + k → CleanSec s j ∧ isLive s (j * 32) = true) :
    SameButChannels s (hbmReadSecs s sec k).2.2 := by
  induction k generalizing s sec with
  | zero => rfl
  | succ k ih =>
    obtain ⟨hclean, hlive⟩ := hc sec (by omega) (by omega)
    rw [hbmReadSecs, hbmReadSec_clean hclean hlive]
    refine SameButChannels.trans (t := activate s (sec * 32)) rfl (ih fun j hlo hhi => ?_)
    obtain ⟨hj, hl⟩ := hc j (by omega) (by omega)
    exact ⟨cleanSec_activate hj, hl⟩

theorem cleanSec_linkOk {s : State} {n sec : Nat} (h : CleanSec s sec) : CleanSec (linkOk s n) sec :=
  cleanSec_setChan h (fun _ => rfl) fun _ => rfl

/-- The sectors of plain HBM are clean and live. -/
theorem sectors_of_plainHbm {s : State} {pa len j : Nat} (hp : plainHbm s pa len) (hal : pa % 32 = 0) (hlen : len % 32 = 0)
    (hlo : pa / 32 ≤ j) (hhi : j < pa / 32 + len / 32) : CleanSec s j ∧ isLive s (j * 32) = true := by
  have hclean := cleanSec_of_plainHbm (a := j * 32) hp (by omega) (by omega)
  have hlive := isLive_of_plainHbm (a := j * 32) hp (by omega) (by omega)
  rw [Nat.mul_div_cancel _ (by decide)] at hclean hlive
  exact ⟨hclean, hlive⟩

/-! ### Reads (R100, R103, R107) -/

section
variable {s : State} {src tag pa len : Nat} (hal : pa % len = 0) (htag : noTag s src (chanOf pa) = false)
  (hlen : len = 32 ∨ len = 64 ∨ len = 128) (hp : plainHbm s pa len)
include hal htag hlen hp

/-- A read packet that its channel takes. -/
theorem readPkt_eq (ecc : List Ecc) : readPkt s src tag pa len ecc =
    let r := hbmReadSecs (eccRead (linkOk s (chanOf pa)) (pa / 32) (ecc.take (len / 32))) (pa / 32) (len / 32)
    reply r.2.2 ⟨src, tag, r.1, r.2.1, chanOf pa⟩ := by
  have hsize : (len = 32 || len = 64 || len = 128 : Bool) = true := by simpa [or_assoc] using hlen
  have hhbm : isHbm pa = true := isHbm_of_plainHbm hp (by omega)
  unfold readPkt
  rw [hsize, hhbm, htag, hal]
  rfl

/-- A read without errors. -/
theorem readPkt_good : ∃ t, readPkt s src tag pa len [] =
    reply t ⟨src, tag, Memory.bytes s.hbm.mem pa len, List.replicate (len / 32) false, chanOf pa⟩ ∧ SameButChannels s t := by
  have h32 : pa % 32 = 0 := by obtain rfl | rfl | rfl := hlen <;> omega
  have hsectors : ∀ j, pa / 32 ≤ j → j < pa / 32 + len / 32 →
      CleanSec (linkOk s (chanOf pa)) j ∧ isLive (linkOk s (chanOf pa)) (j * 32) = true := fun j hlo hhi =>
    have ⟨hclean, hlive⟩ := sectors_of_plainHbm hp h32 (by omega) hlo hhi
    ⟨cleanSec_linkOk hclean, hlive⟩
  obtain ⟨t, hread, -, -⟩ := hbmReadSecs_clean hsectors
  have hsame := sameButChannels_hbmReadSecs hsectors
  rw [readPkt_eq hal htag hlen hp, List.take_nil, eccRead]
  rw [hread] at hsame ⊢
  rw [show pa / 32 * 32 = pa by omega, show 32 * (len / 32) = len by omega]
  exact ⟨t, rfl, (sameButChannels_setChan s _ _).trans hsame⟩

end

theorem hbmReadSecs_one (s : State) (sec : Nat) :
    hbmReadSecs s sec 1 = ((hbmReadSec s sec).1, [(hbmReadSec s sec).2.1], (hbmReadSec s sec).2.2) := by
  simp [hbmReadSecs]

/-! ### ECC (R107) -/

/-- The activation of a row changes no counter and no record of poison. -/
theorem hecor_activate (s : State) (pa n : Nat) : (chan (activate s pa) n).hecor = (chan s n).hecor := by
  unfold activate
  rw [chan_setChan]
  split
  · next h => rw [h]
  · rfl
theorem poisonSec_activate (s : State) (pa n : Nat) : (chan (activate s pa) n).poisonSec = (chan s n).poisonSec := by
  unfold activate
  rw [chan_setChan]
  split
  · next h => rw [h]
  · rfl

/-- What ECC finds in one live sector of a channel that has not failed. -/
theorem eccRead_one {s : State} {sec : Nat} (e : Ecc) (hc : CleanSec s sec) (hl : isLive s (sec * 32) = true) :
    eccRead s sec [e] = eccSec s sec e := by
  obtain ⟨hfail, -⟩ := hc
  rw [eccRead, eccRead, hl, hfail]
  rfl

/-- The read of one sector that ECC could not correct. -/
theorem hbmReadSec_uncorrectable {s : State} {sec : Nat} (hc : CleanSec s sec) (hl : isLive s (sec * 32) = true) :
    let u := eccSec s sec .uncorrectable
    hbmReadSec u sec = (Memory.bytes s.hbm.mem (sec * 32) 32, true,
      setChan (activate u (sec * 32)) (chanOf (sec * 32)) fun c => { c with heunc := bump c.heunc 1 }) := by
  intro u
  have hc : CleanSec (setChan s (chanOf (sec * 32)) fun c => { c with poisonV := true, poisonSec := sec }) sec :=
    cleanSec_setChan hc (fun _ => rfl) fun _ => rfl
  have hnone : snoopOf u (sec * 32) = none := hc.2.1
  have hsnoop : snoopRead u (sec * 32) = u := by
    unfold snoopRead
    rw [hnone]
  have hfail : (chan (activate u (sec * 32)) (chanOf (sec * 32))).failed = false := (cleanSec_activate hc).1
  have hlive : isLive (activate u (sec * 32)) (sec * 32) = true := hl
  have hpsn : isPoison (activate u (sec * 32)) sec = true := by
    show (SMap.get? (SMap.set s.hbm.poison sec ()) sec).isSome = true
    rw [SMap.get?_set_self]
    rfl
  unfold hbmReadSec
  dsimp only
  rw [hsnoop, hfail, hlive, hpsn]
  rfl

section
variable {s : State} {src tag pa : Nat} (hal : pa % 32 = 0) (htag : noTag s src (chanOf pa) = false) (hp : plainHbm s pa 32)
include hal htag hp

omit htag in
/-- One sector of plain HBM is clean and live, whatever has been counted of its channel's packets. -/
theorem sector_linkOk : CleanSec (linkOk s (chanOf pa)) (pa / 32) ∧ isLive (linkOk s (chanOf pa)) (pa / 32 * 32) = true :=
  have ⟨hclean, hlive⟩ := sectors_of_plainHbm hp hal (by decide) (Nat.le_refl _) (by omega)
  ⟨cleanSec_linkOk hclean, hlive⟩

/-- The read of one sector with what ECC finds there. -/
theorem readPkt_sector (e : Ecc) : readPkt s src tag pa 32 [e] =
    let r := hbmReadSec (eccSec (linkOk s (chanOf pa)) (pa / 32) e) (pa / 32)
    reply r.2.2 ⟨src, tag, r.1, [r.2.1], chanOf pa⟩ := by
  obtain ⟨hclean, hlive⟩ := sector_linkOk hal hp
  rw [readPkt_eq hal htag (.inl rfl) hp, show [e].take (32 / 32) = [e] from rfl, eccRead_one e hclean hlive,
    show 32 / 32 = 1 from rfl, hbmReadSecs_one]

/-- A sector that ECC cannot correct is delivered poisoned, and it is marked. -/
theorem readPkt_uncorrectable : let t := readPkt s src tag pa 32 [.uncorrectable]
    t.hbm.mem = s.hbm.mem ∧ t.hbm.poison = SMap.set s.hbm.poison (pa / 32) () ∧ (chan t (chanOf pa)).poisonSec = pa / 32
      ∧ t.hbm.replies = s.hbm.replies ++ [⟨src, tag, Memory.bytes s.hbm.mem pa 32, [true], chanOf pa⟩] := by
  obtain ⟨hclean, hlive⟩ := sector_linkOk hal hp
  have hsec : pa / 32 * 32 = pa := by omega
  rw [readPkt_sector hal htag hp, hbmReadSec_uncorrectable hclean hlive, hsec]
  refine ⟨rfl, rfl, ?_, rfl⟩
  let u := eccSec (linkOk s (chanOf pa)) (pa / 32) .uncorrectable
  show (chan (setChan (activate u pa) (chanOf pa) fun c => { c with heunc := bump c.heunc 1 }) (chanOf pa)).poisonSec = _
  rw [chan_setChan_self, poisonSec_activate]
  show (chan (setChan (linkOk s (chanOf pa)) (chanOf (pa / 32 * 32)) fun c => { c with poisonV := true, poisonSec := pa / 32 })
    (chanOf pa)).poisonSec = _
  rw [hsec, chan_setChan_self]

/-- A sector that ECC corrects is delivered as it is, and it is counted. -/
theorem readPkt_corrected : let t := readPkt s src tag pa 32 [.corrected]
    (chan t (chanOf pa)).hecor = bump (chan s (chanOf pa)).hecor 1
      ∧ t.hbm.replies = s.hbm.replies ++ [⟨src, tag, Memory.bytes s.hbm.mem pa 32, [false], chanOf pa⟩] := by
  obtain ⟨hclean, hlive⟩ := sector_linkOk hal hp
  have hsec : pa / 32 * 32 = pa := by omega
  let u := eccSec (linkOk s (chanOf pa)) (pa / 32) .corrected
  have hclean : CleanSec u (pa / 32) := cleanSec_setChan hclean (fun _ => rfl) fun _ => rfl
  have hlive : isLive u (pa / 32 * 32) = true := hlive
  rw [readPkt_sector hal htag hp, hbmReadSec_clean hclean hlive, hsec]
  refine ⟨?_, rfl⟩
  show (chan (activate u pa) (chanOf pa)).hecor = _
  rw [hecor_activate]
  show (chan (setChan (linkOk s (chanOf pa)) (chanOf (pa / 32 * 32)) fun c => { c with hecor := bump c.hecor 1 }) (chanOf pa)).hecor = _
  rw [hsec, chan_setChan_self, linkOk, chan_setChan_self]

end

/-! ### Scrubbing (R107) -/

theorem scrubOn_frame (s : State) (sec : Nat) : scrubOn s sec = { s with mmu := (scrubOn s sec).mmu } := rfl

/-- The scrubber reads a live sector wherever its patrol is. -/
theorem scrub_live {s : State} {sec : Nat} (e : Ecc) (hc : CleanSec s sec) (hl : isLive s (sec * 32) = true)
    (hhbm : isHbm (sec * 32) = true) : ∃ m, scrub s sec e = eccSec { s with mmu := m } sec e := by
  have hpatrol : ∃ m, (if s.mmu.scrubAt ≤ s.clk && sec = s.mmu.scrubNext then scrubOn s sec else s) = { s with mmu := m } := by
    split
    · exact ⟨_, scrubOn_frame s sec⟩
    · exact ⟨s.mmu, rfl⟩
  obtain ⟨m, hm⟩ := hpatrol
  refine ⟨m, ?_⟩
  unfold scrub
  rw [hm]
  dsimp only
  rw [hhbm, if_pos rfl]
  exact eccRead_one (s := { s with mmu := m }) e hc hl

/-! ### Masked writes (R103, R109) -/

theorem replies_chanWrite (s : State) (q : Option Nat) (sec : Nat) (bs : List (Option Byte)) :
    (chanWrite s q sec bs false).hbm.replies = s.hbm.replies := by
  rw [chanWrite_eq]
  split
  · rfl
  · unfold storeSec
    rw [openSec_frame]
    split <;> rfl

theorem replies_snoopInv (s : State) (pa : Nat) : (snoopInv s pa).hbm.replies = s.hbm.replies := by
  unfold snoopInv
  split
  · show (hostData _ _ _).hbm.replies = _
    unfold hostData
    split
    · rfl
    · rw [replies_chanWrite, replies_chanWrite]
  · rfl

/-- A write at the channels sends no reply of its own. -/
theorem replies_hbmWrite (s : State) (q : Option Nat) (pa : Nat) (bs : List (Option Byte)) :
    (hbmWrite s q pa bs).hbm.replies = s.hbm.replies := by
  have hslices (l : List Nat) (s : State) :
      (l.foldl (fun s i => writeSlice q pa bs s (pa / 32 + i)) s).hbm.replies = s.hbm.replies := by
    induction l generalizing s with
    | nil => rfl
    | cons i l ih =>
      rw [List.foldl_cons, ih, writeSlice]
      split
      · rw [hbmWriteSec, replies_chanWrite, replies_snoopInv]
      · rfl
  unfold hbmWrite
  split
  · rfl
  · exact hslices _ s

section
variable {s : State} {src tag pa : Nat} {data : List (Option Byte)} (hs : memOk s = true) (htag : noTag s src (chanOf pa) = false)
  (hsome : 1 ≤ data.length) (hline : pa % 128 + data.length ≤ 128) (hp : plainHbm s (pa / 128 * 128) 128)
include hs htag hsome hline hp

/-- A write packet that its channel takes: its acknowledgement, and its enabled bytes. -/
theorem writePkt_spec : let t := writePkt s src tag pa data
    t.hbm.replies = s.hbm.replies ++ [⟨src, tag, [], [], chanOf pa⟩]
      ∧ ∀ a, Memory.read t.hbm.mem a = (byteAt pa data a).getD (Memory.read s.hbm.mem a) := by
  have hhbm : isHbm pa = true := isHbm_of_plainHbm hp (by omega)
  have hwrite : writePkt s src tag pa data = reply (hbmWrite (linkOk s (chanOf pa)) none pa data) ⟨src, tag, [], [], chanOf pa⟩ := by
    unfold writePkt
    rw [hhbm, htag, decide_eq_true hsome, decide_eq_true hline]
    rfl
  have hclean : ∀ a, pa ≤ a → a < pa + data.length → CleanSec (linkOk s (chanOf pa)) (a / 32) := fun a hlo hhi =>
    cleanSec_linkOk (cleanSec_of_plainHbm hp (by omega) (by omega))
  have hwrote := wroteHbm_hbmWrite none pa data (memOk_setChan hs : memOk (linkOk s (chanOf pa)) = true) hclean
  rw [hwrite]
  exact ⟨congrArg (· ++ _) (replies_hbmWrite _ _ _ _), hwrote.reads⟩

end

/-! ### Control packets (R100, R103; logs 20 and 22) -/

/-- A dead-map command of the management core to a block of HBM. -/
theorem ctlPkt_dead {s : State} {w : Word} (hs : memOk s = true) (hend : w.toNat / 2 ^ 12 % 2 ^ 36 * 4096 < 0x00C000000000) :
    let t := ctlPkt s (.dead w) .mgmt
    (∀ a, Memory.read t.hbm.mem a = if a / 4096 = w.toNat / 2 ^ 12 % 2 ^ 36 then 0 else Memory.read s.hbm.mem a)
      ∧ (w.getLsbD 61 = true → isLive t (w.toNat / 2 ^ 12 % 2 ^ 36 * 4096) = true) := by
  have hblk : bitsAt w.toNat 12 36 = w.toNat / 2 ^ 12 % 2 ^ 36 := by rw [bitsAt, Nat.shiftRight_eq_div_pow]
  generalize w.toNat / 2 ^ 12 % 2 ^ 36 = blk at hblk hend ⊢
  have hhbm : isHbm (blk * 4096) = true := (map_range hend).1
  have hdead : ctlPkt s (.dead w) .mgmt = if w.getLsbD 61 then reviveBlock s blk else killBlock s blk := by
    unfold ctlPkt
    rw [if_neg (by decide)]
    dsimp only
    rw [hblk, hhbm, Nat.mul_div_cancel _ (by decide)]
    rfl
  dsimp only
  rw [hdead]
  refine ⟨fun a => ?_, fun hrevive => ?_⟩
  · split
    · exact read_reviveBlock hs blk a
    · exact read_killBlock hs blk a
  · rw [if_pos hrevive, isLive, Nat.mul_div_cancel _ (by decide)]
    show (SMap.get? (SMap.set _ blk ()) blk).isSome = true
    rw [SMap.get?_set_self]
    rfl

/-- A power command of the management core. -/
theorem ctlPkt_power {s : State} {stack st : Nat} (hstack : stack < 12) (hst : st < 3) :
    let t := ctlPkt s (.power stack st) .mgmt
    (SMap.getD t.sys.unit_ (24 + stack) {}).st = st ∧ t.hbm = s.hbm := by
  have hpower : (12 ≤ stack || 3 ≤ st : Bool) = false := by simp; omega
  unfold ctlPkt
  rw [if_neg (by decide)]
  dsimp only
  rw [hpower, if_neg Bool.false_ne_true]
  exact ⟨by rw [SMap.getD_set_self], rfl⟩

/-! ### Refresh (R102; log 98) -/

theorem refreshGroup_spec {s : State} {ch g : Nat} {r : RowGroup} (hot : Bool) (hr : SMap.get? (chan s ch).rows g = some r) :
    SMap.get? (chan (refreshGroup s ch g hot) ch).rows g = some { r with mask := 0, slot := s.clk, fresh := liveRows s ch g &&&
      if s.clk < r.time + (if hot then 30400000 else 60800000) then ~~~r.mask else BitVec.allOnes 64 } := by
  have hrow : SMap.getD (chan s ch).rows g { time := 0, mask := 0 } = r := by rw [SMap.getD, hr]; rfl
  unfold refreshGroup
  rw [chan_setChan_self]
  dsimp only
  rw [SMap.get?_set_self, hrow, BitVec.and_comm]
  rfl

/-! ### The obligation -/

theorem channelPacketsReadAndWrite : ChannelPacketsReadAndWrite := by
  intro s src tag pa len i ch g stack st data w hot k b n sec
  refine ⟨fun hal htag hlen hp => ⟨?good, fun h32 => ?ecc⟩, fun hfull => ?waits, fun hs htag hsome hline hp => ?write,
    fun hs hend => ⟨_, rfl, ctlPkt_dead (s := given s (.hbmControlPacket (.dead w) .mgmt)) hs hend⟩,
    fun hstack hst => ⟨_, rfl, ctlPkt_power hstack hst⟩, fun hb => ?others, ⟨_, rfl, rfl, rfl⟩,
    fun r hr => ⟨_, rfl, rfl, refreshGroup_spec (s := given s (.refreshSlot ch g hot)) hot hr⟩⟩
  case good =>
    obtain ⟨t, hread, hsame⟩ := readPkt_good (s := given s (.hbmReadPacket src tag pa len [])) hal htag hlen hp
    refine ⟨_, congrArg Host.Outcome.next hread, ?_, ?_, ?_⟩ <;>
      rw [hsame] <;> rfl
  case ecc =>
    subst h32
    obtain ⟨hclean, hlive⟩ := sectors_of_plainHbm (j := sec) hp hal (by decide) (Nat.le_refl _) (by omega)
    have hsec : sec * 32 = pa := by omega
    have hhbm : isHbm (sec * 32) = true := by rw [hsec]; exact isHbm_of_plainHbm hp (by omega)
    refine ⟨⟨_, rfl, readPkt_uncorrectable (s := given s _) hal htag hp⟩,
      ⟨_, rfl, readPkt_corrected (s := given s _) hal htag hp⟩, ?_, ?_⟩
    · obtain ⟨m, hscrub⟩ := scrub_live (s := given s (.patrolScrub sec .corrected)) .corrected hclean hlive hhbm
      refine ⟨_, congrArg Host.Outcome.next hscrub, rfl, ?_⟩
      show chan (setChan { given s _ with mmu := m } (chanOf (sec * 32)) _) n = _
      rw [hsec, chan_setChan_self]
      rfl
    · obtain ⟨m, hscrub⟩ := scrub_live (s := given s (.patrolScrub sec .uncorrectable)) .uncorrectable hclean hlive hhbm
      exact ⟨_, congrArg Host.Outcome.next hscrub, rfl, rfl⟩
  case waits =>
    refine ⟨congrArg Host.Outcome.next (if_pos ?_), congrArg Host.Outcome.next (if_pos ?_)⟩
    all_goals exact Bool.or_eq_true_iff.2 (.inr hfull)
  case write =>
    obtain ⟨hreply, hreads⟩ := writePkt_spec (s := given s (.hbmWritePacket src tag pa data)) hs htag hsome hline hp
    refine ⟨_, rfl, hreply, fun a => (hreads a).trans ?_⟩
    unfold byteAt
    by_cases hlo : pa ≤ a
    · by_cases hhi : a < pa + data.length
      · rw [if_pos hlo, if_pos ⟨hlo, hhi⟩]
        rfl
      · rw [if_pos hlo, if_neg (hhi ·.2), List.getD_eq_default _ _ (by omega)]
        rfl
    · rw [if_neg hlo, if_neg (hlo ·.1)]
      rfl
  case others => exact congrArg Host.Outcome.next (if_pos (by simpa using hb))

/-- Settles O43: each packet and each step of maintenance is an equation of its channel's records and of memory. -/
theorem channelsAndTheirMaintenance : Obligations.ChannelsAndTheirMaintenance :=
  ⟨channelPacketsReadAndWrite, deadBlocksRetrainsAndExpiry⟩

end Sys2Proof.Machine
end

section
/-! PROOF. The step that comes next (O6): the candidate that the agenda gives is taken, and its clocks pass. -/
namespace Sys2Proof.Machine
open Sys2Proof.Claims

/-- A step takes its candidate, and its clocks pass. -/
theorem step_of_pick {s s0 : State} {c : Cand} (h : pick s = (some c, s0)) :
    step s = andThen (take s0 c) fun t => .next (tick t) := by
  unfold step advanceStep
  rw [h]

/-- A candidate that gives a next state is a step. -/
theorem step_of_take {s s0 t : State} {c : Cand} (h : pick s = (some c, s0)) (ht : take s0 c = .next t) :
    step s = .next (tick t) := by
  rw [step_of_pick h, ht]
  rfl

/-- A step of the part is performed with what it acts on in `ev`, which is empty afterwards (95). -/
theorem perform_of_exec {s t : State} {e : Ev} (h : exec e.row (given s e) = .next t) :
    perform s e = .next { t with ev := none } := by
  have h' : exec e.row { s with ev := some e } = .next t := h
  unfold perform
  rw [h']
  rfl

/-- Settles O6: each candidate is taken as its row says, and the clocks of the step pass. -/
theorem stepTakesAnEvent : Obligations.StepTakesAnEvent := by
  refine ⟨fun s s0 t e hpick h => ?ev, fun s s0 t n p hpick hp h => ?pend, fun s s0 core ln hpick => ?l1,
    fun s s0 cl ln hpick => ?clc, fun s s0 c k i => ⟨fun hpick => ?sample, fun hpick => ?acquired, fun hpick => ?drain⟩⟩
  case ev => exact step_of_take hpick (perform_of_exec h)
  case pend =>
    refine step_of_take hpick ?_
    simp only [take, hp]
    exact perform_of_exec h
  all_goals exact step_of_take hpick rfl

end Sys2Proof.Machine
end

section
/-! PROOF. Sync variables, sequenced commands, checkpoints and triggers (O39): what the SVT of this package answers, the command that
leaves for its group's switch, and the outbound effects that no checkpoint interval holds back. -/
namespace Sys2Proof.Machine
open Sys2Proof.Claims

/-! ### The SVT of this package (R144, R386) -/

/-- The die that keeps the sync variables of an HBM address: its stack's. -/
theorem svtDie_hbm (s : State) {pa : Nat} (h : pa < 0x00C000000000) : svtDie s pa = pa / 2 ^ 36 % 16 / 3 := by
  have hbm : isHbm pa = true := decide_eq_true h
  have hxor : bitsAt pa 12 5 ^^^ bitsAt pa 17 5 < 2 ^ 5 :=
    Nat.xor_lt_two_pow (Nat.mod_lt _ (by decide)) (Nat.mod_lt _ (by decide))
  unfold svtDie dieOfChan chanOf
  rw [if_pos hbm]
  generalize bitsAt pa 12 5 ^^^ bitsAt pa 17 5 = c at hxor
  rw [bitsAt, Nat.shiftRight_eq_div_pow]
  omega

/-- An entry of a sector stands in the SVT of a die. -/
def inSvt (s : State) (die sec : Nat) : Bool := (SMap.getD s.svt die []).any fun e => e.sector = sec

theorem isSome_svtOf (s : State) (die sec : Nat) : (svtOf s die sec).isSome = inSvt s die sec := by
  rw [Bool.eq_iff_iff, svtOf, inSvt, List.find?_isSome, List.any_eq_true]

section
variable {s : State} {die sec : Nat}

theorem svtRegister_known (h : inSvt s die sec = true) (asid : Nat) : svtRegister s die sec asid = (1, s) :=
  if_pos ((isSome_svtOf ..).trans h)

theorem svtRegister_full (h : inSvt s die sec = false) (hfull : 4096 ≤ (SMap.getD s.svt die []).length) (asid : Nat) :
    svtRegister s die sec asid = (3, s) := by
  unfold svtRegister
  rw [isSome_svtOf, h]
  exact if_pos hfull

theorem svtRegister_new (h : inSvt s die sec = false) (hroom : (SMap.getD s.svt die []).length < 4096) (asid : Nat) :
    svtRegister s die sec asid =
      (0, { s with svt := SMap.set s.svt die (SMap.getD s.svt die [] ++ [{ sector := sec, asid := asid }]) }) := by
  unfold svtRegister
  rw [isSome_svtOf, h]
  exact if_neg (Nat.not_le.2 hroom)

theorem svtRelease_known (h : inSvt s die sec = true) : svtRelease s die sec =
    (0, { s with svt := SMap.set s.svt die ((SMap.getD s.svt die []).filter fun e => e.sector != sec) }) :=
  if_pos ((isSome_svtOf ..).trans h)

theorem svtRelease_unknown (h : inSvt s die sec = false) : svtRelease s die sec = (4, s) := by
  unfold svtRelease
  rw [isSome_svtOf, h]
  rfl

end

/-- `svreg` of a sector of this package's HBM puts the status of what the SVT answers in flight (R386). -/
theorem exec_svreg {s : State} {d r : SReg} {pa cp : Nat} (rel : Bool) (hd : loopReg (cc s) d = false)
    (hmap : mapped s (rdS (cc s) r) .read pa cp) (hpa : pa < 0x00C000000000) {n : Nat} {t : State}
    (hsvt : (if rel then svtRelease s (pa / 2 ^ 36 % 16 / 3) (pa / 32)
      else svtRegister s (pa / 2 ^ 36 % 16 / 3) (pa / 32) (asidOf s s.cur)) = (n, t)) :
    exec (.svreg d r rel) s = .next (emitS t d (svStatus rel n) 8) := by
  have hbm : isHbm pa = true := decide_eq_true hpa
  refine run_ok (k := slotY) ?_
  rw [M_bind_ok (getC_apply s), opTrap, hd, M_bind_ok (trapIf_false ..), M_bind_ok (xlat_ok hmap)]
  dsimp only
  rw [M_bind_ok (get_apply s)]
  simp only [hbm, Bool.true_or, Bool.not_true, Bool.and_false]
  rw [M_bind_ok (trapIf_false ..)]
  simp only [bne_self_eq_false, Bool.false_eq_true, if_false, svtDie_hbm s hpa, hsvt]
  rw [M_bind_ok (set_apply ..)]
  rfl

/-! ### Outbound effects (R392, R438) -/

theorem outbound_outside {s : State} (h : (qst s (taskOf s s.cur).queue).interval = none) : outbound s = (.ok (), s) := by
  unfold outbound
  rw [M_bind_ok (get_apply s), h]
  rfl

/-- An effect whose interval has ended goes on. -/
theorem outbound_ended {s : State} {n : Nat} (h : (qst s (taskOf s s.cur).queue).interval = some n) (hout : (cc s).out = true)
    (hreq : (qst s (taskOf s s.cur).queue).ckptReq = false) : outbound s = (.ok (), s) := by
  unfold outbound
  rw [M_bind_ok (get_apply s)]
  simp only [h, hout, hreq, Option.isNone_some, Bool.false_eq_true, if_false, if_true]
  rw [M_bind_ok (blockIf_false s)]
  rfl

/-! ### Sequenced commands (R388) -/

/-- The issuing task pinned for good (R204). -/
def pinnedNow (s : State) : State := upd s fun y => { y with task := y.task.map fun t => { t with pinned := true } }

theorem pin_apply (s : State) : pin s = (.ok (), pinnedNow s) := rfl

/-- The command number of the issuing context taken. -/
def nextNumber (s : State) : State := upd s fun x => { x with cmdno := x.cmdno + 1 }

theorem nextCmd_apply (s : State) : nextCmd s = (.ok (cc s).cmdno.toNat, nextNumber s) := by
  unfold nextCmd
  rw [M_bind_ok (getC_apply s), M_bind_ok (modC_apply ..)]
  rfl

/-- The state in which a sequenced command takes its number: its task is pinned. -/
def numbering (s : State) : State := nextNumber (pinnedNow s)

/-- A sequenced command of the issuing context, with the number that it takes. -/
def sequenced (s : State) (va : Word) (c : BitVec 3) (grp : Nat) (kind : SmKind) (bs : List Byte) : SCmd :=
  { id := s.tiles.next, ctx := s.cur, tid := (taskOf s s.cur).tid, queue := (taskOf s s.cur).queue, ev := c.toNat
    cmdno := (cc s).cmdno.toNat, va := va
    msg := { grp := grp, pkg := s.pkg, ctx := s.cur, cmd := s.tiles.next, kind := kind, data := bs } }

/-- The state after a sequenced command has left the slot for its group's switch. -/
def afterSending (s : State) (q : SCmd) : State :=
  cause (setEng (newId (numbering s)).2 (coreOf s.cur) fun e => { e with sq := e.sq ++ [q] }) (.switchSequence q.msg)

theorem ctxOf_numbering (s : State) : ctxOf (numbering s) s.cur =
    { cc s with cmdno := (cc s).cmdno + 1, task := (cc s).task.map fun t => { t with pinned := true } } := by
  unfold numbering nextNumber
  rw [show s.cur = (pinnedNow s).cur from rfl, ctxOf_upd_self, pinnedNow, upd_cur, ctxOf_upd_self]
  rfl

theorem task_numbering (s : State) : (taskOf (numbering s) s.cur).tid = (taskOf s s.cur).tid
    ∧ (taskOf (numbering s) s.cur).queue = (taskOf s s.cur).queue := by
  unfold taskOf
  rw [ctxOf_numbering, show cc s = ctxOf s s.cur from rfl]
  cases (ctxOf s s.cur).task with
  | none => exact ⟨rfl, rfl⟩
  | some t => exact ⟨rfl, rfl⟩

/-- `smst` and `smred` outside a checkpoint interval read their payload and leave for the switch (R388). -/
theorem run_sendSm {s s1 : State} {g r : SReg} {len : BitVec 6} {bs : List Byte} (c : BitVec 3) (kind : Nat → SmKind)
    (hin : (qst s (taskOf s s.cur).queue).interval = none) (hload : loadClean (rdS (cc s) r) (8 * len.toNat) s = (.ok bs, s1)) :
    run slotY (sendSm g r len c kind) s = .next (afterSending s1 (sequenced s1 (rdS (cc s) r) c
      ((rdS (cc s) g).toNat / 2 ^ 32 % 2 ^ 12) (kind ((rdS (cc s) g).toNat % 2 ^ 20)) bs)) := by
  obtain ⟨htid, hqueue⟩ := task_numbering s1
  have hcmdno : (cc (pinnedNow s1)).cmdno = (cc s1).cmdno := by rw [pinnedNow, cc_upd]
  refine run_ok (k := slotY) ?_
  unfold sendSm
  rw [M_bind_ok (getC_apply s), M_bind_ok (outbound_outside hin), M_bind_ok hload, M_bind_ok (pin_apply s1),
    M_bind_ok (nextCmd_apply _), M_bind_ok (get_apply _)]
  simp only [bitsAt, Nat.shiftRight_eq_div_pow, pow_zero, Nat.div_one]
  unfold sequenced
  rw [← htid, ← hqueue, ← hcmdno]
  rfl

section
variable (s : State) (q : SCmd)

theorem engOf_afterSending : engOf (afterSending s q) (coreOf s.cur) =
    { engOf s (coreOf s.cur) with sq := (engOf s (coreOf s.cur)).sq ++ [q] } := by
  simp [afterSending, engOf, setEng, cause, numbering, nextNumber, pinnedNow, newId]

theorem afterSending_frame : afterSending s q = { s with
    ctx := (afterSending s q).ctx, eng := (afterSending s q).eng, tiles := { s.tiles with next := s.tiles.next + 1 }
    pending := (afterSending s q).pending } := rfl

theorem ctxOf_afterSending : ctxOf (afterSending s q) s.cur =
    { cc s with cmdno := (cc s).cmdno + 1, task := (cc s).task.map fun t => { t with pinned := true } } := ctxOf_numbering s

end

/-! ### Joins (R387) -/

/-- A join whose switch has answered goes on with the answer. -/
theorem exec_smjoin_answered {s : State} {d g r : SReg} {q : Remote} {b : List Byte} {p1 p2 : Bool}
    (hin : (qst s (taskOf s s.cur).queue).interval = none) (hd : loopReg (cc s) d = false)
    (hq : (cc s).remote.find? (fun z => z.kind = 16 && z.pkg = (rdS (cc s) g).toNat % 2 ^ 12 && z.addr = (rdS (cc s) r).toNat) = some q)
    (hb : q.reply = some (b, p1, p2)) :
    exec (.smjoin d g r) s = .next (emitS (pinnedNow s) d (BitVec.ofNat 64 (ofLe b)) 8) := by
  have hremote : (cc (pinnedNow s)).remote = (cc s).remote := by rw [pinnedNow, cc_upd]
  refine run_ok (k := slotY) ?_
  rw [M_bind_ok (getC_apply s), opTrap, hd, M_bind_ok (trapIf_false ..), M_bind_ok (outbound_outside hin), M_bind_ok (pin_apply s),
    M_bind_ok (get_apply _)]
  simp only [bitsAt, Nat.shiftRight_eq_div_pow, pow_zero, Nat.div_one, hremote, hq, hb]
  rfl

/-! ### The obligation -/

/-- Settles O39: each clause is the reading of its instruction where the SVT, the interval and the switch stand as it says. -/
theorem syncVariablesAndSequencedCommands : Obligations.SyncVariablesAndSequencedCommands := by
  intro s s1 d g r len log op fmt c trg pa cp bs
  refine ⟨fun hd hmap hpa => ?svreg, fun hin hload => ?send, fun hin hd q b p1 p2 hq hb => exec_smjoin_answered hin hd hq hb,
    fun hin => run_ok (outbound_outside hin), fun n hn hout hreq => run_ok (outbound_ended hn hout hreq), rfl⟩
  case svreg =>
    refine ⟨fun hk => ?_, fun hk hfull => ?_, fun hk hroom => ?_, fun hk => ?_, fun hk => ?_⟩
    · exact exec_svreg false hd hmap hpa (svtRegister_known hk _)
    · exact exec_svreg false hd hmap hpa (svtRegister_full hk hfull _)
    · exact exec_svreg false hd hmap hpa (svtRegister_new hk hroom _)
    · exact exec_svreg true hd hmap hpa (svtRelease_known hk)
    · exact exec_svreg true hd hmap hpa (svtRelease_unknown hk)
  case send =>
    exact ⟨⟨_, _, run_sendSm c _ hin hload, rfl, rfl, rfl, engOf_afterSending .., rfl, afterSending_frame .., ctxOf_afterSending ..⟩,
      ⟨_, _, run_sendSm c _ hin hload, rfl, rfl, rfl, engOf_afterSending .., rfl, afterSending_frame .., ctxOf_afterSending ..⟩⟩

end Sys2Proof.Machine
end

section
/-! PROOF. The end-to-end buffer and flush responses (O49): what an acknowledgement, a rejection and a timeout do to the packet that
they name, the mark of a package in a context's destination list, and what goes on with a flush response. -/
namespace Sys2Proof.Machine
open Sys2Proof.Claims

/-! ### Packets in the buffer (R179) -/

/-- A buffered packet is the one with a number to a package. -/
def isPacket (dst eseq : Nat) (e : E2E) : Bool := e.pkt.dst = dst && e.pkt.eseq = eseq

theorem e2eOf_eq (s : State) (die dst eseq : Nat) : e2eOf s die dst eseq = (gwOf s die).buf.find? (isPacket dst eseq) := rfl

theorem e2eDie_here {s : State} {die dst eseq : Nat} {e : E2E} (h : e2eOf s die dst eseq = some e) :
    e2eDie s die dst eseq = die := by
  unfold e2eDie
  rw [List.find?_cons_of_pos (by rw [h]; rfl)]
  rfl

theorem drop_gwPump (s : State) (d n : Nat) : (gwOf (gwPump s d n) d).drop = (gwOf s d).drop := by
  induction n generalizing s with
  | zero => rfl
  | succ n ih =>
    unfold gwPump
    split
    · split
      · rfl
      · rw [ih, gwOf_gwEmit, gwOf_setGw_self]
    · rfl

theorem drop_e2eDel (s : State) (die dst eseq : Nat) : (gwOf (e2eDel s die dst eseq) die).drop = (gwOf s die).drop := by
  unfold e2eDel
  dsimp only
  rw [drop_gwPump, gwOf_setGw_self]

/-- A packet taken from a buffer for whose room none waits leaves nothing in its place. -/
theorem e2eOf_e2eDel {s : State} {die : Nat} (dst eseq : Nat) (h : (gwOf s die).wait = []) :
    e2eOf (e2eDel s die dst eseq) die dst eseq = none := by
  have hpump : e2eDel s die dst eseq =
      setGw s die fun g => { g with buf := g.buf.filter fun e => !isPacket dst eseq e } := by
    unfold e2eDel
    dsimp only
    rw [gwOf_setGw_self, h]
    rfl
  rw [hpump, e2eOf_eq, gwOf_setGw_self, List.find?_eq_none]
  intro e he
  simpa using (List.mem_filter.1 he).2

section
variable {s : State} {die dst eseq : Nat} {e : E2E} (h : e2eOf s die dst eseq = some e)
include h

theorem isPacket_of_e2eOf : isPacket dst eseq e = true := List.find?_some (e2eOf_eq .. ▸ h)

theorem dst_of_e2eOf : e.pkt.dst = dst := by
  have hp := isPacket_of_e2eOf h
  simp only [isPacket, Bool.and_eq_true, decide_eq_true_eq] at hp
  exact hp.1

/-- A packet sent again stands in its place in the buffer, sent now (R179). -/
theorem e2eOf_resendE2E {f : E2E} (hf : f.pkt = e.pkt) :
    e2eOf (resendE2E s die f) die dst eseq = some { f with time := s.clk } := by
  have hpkt := isPacket_of_e2eOf h
  simp only [isPacket, Bool.and_eq_true, decide_eq_true_eq] at hpkt
  obtain ⟨hdst, hseq⟩ := hpkt
  unfold resendE2E portQueue
  dsimp only
  rw [e2eOf_eq, gwOf_setPort, gwOf_setGw_self, List.find?_map]
  have hsame : (isPacket dst eseq ∘ fun x : E2E =>
      if x.pkt.dst = f.pkt.dst && x.pkt.eseq = f.pkt.eseq then { f with time := s.clk } else x) = isPacket dst eseq := by
    funext x
    simp only [Function.comp_apply, hf, hdst, hseq]
    split
    · next hx => rw [show isPacket dst eseq x = true from hx]; simp [isPacket, hdst, hseq]
    · rfl
  rw [hsame, ← e2eOf_eq, h]
  simp [hf]

theorem e2eAcked_kept (hty : e.pkt.ty ≠ 4) : e2eAcked s die dst eseq = e2eDel s die dst eseq := by
  unfold e2eAcked
  simp only [e2eDie_here h, h, if_neg hty]

theorem e2eRejected_refused : e2eRejected s die dst eseq true = markDest (e2eDel s die dst eseq) e.pkt.sctx dst := by
  unfold e2eRejected
  simp only [e2eDie_here h, h, if_true]

theorem e2eRejected_again (ht : e.tries < 15) :
    e2eRejected s die dst eseq false = resendE2E s die { e with tries := e.tries + 1 } := by
  unfold e2eRejected
  simp only [e2eDie_here h, h, Bool.false_eq_true, if_false]
  rw [if_neg (by omega)]

theorem e2eRejected_dropped (ht : 15 ≤ e.tries) : e2eRejected s die dst eseq false = dropPacket s die e := by
  unfold e2eRejected
  simp only [e2eDie_here h, h, Bool.false_eq_true, if_false]
  rw [if_pos (by omega)]

theorem e2eLate_due (hd : e.time + 2 ^ 22 ≤ s.clk) : e2eLate s die dst eseq = resendE2E s die e := by
  unfold e2eLate
  simp only [h, if_pos hd]

theorem e2eLate_early (hd : s.clk < e.time + 2 ^ 22) : e2eLate s die dst eseq = s := by
  unfold e2eLate
  simp only [h, if_neg (Nat.not_le.2 hd)]

end

/-! ### The mark of a package (R143, R179, R183) -/

theorem destMarked_markDest (s : State) (c pkg : Nat) : destMarked (markDest s c pkg) c pkg = true := by
  unfold markDest
  split
  · next hany =>
    obtain ⟨d, hd, hpkg⟩ := List.any_eq_true.1 hany
    unfold destMarked
    rw [ctxOf_updCtx_self, Bool.or_eq_true]
    refine .inl (List.any_eq_true.2 ⟨(pkg, true), List.mem_map.2 ⟨d, hd, if_pos (of_decide_eq_true hpkg)⟩, ?_⟩)
    simp
  · split
    · next hmark => exact Bool.or_eq_true_iff.2 (.inr hmark)
    · exact Bool.or_eq_true_iff.2 (.inr (by simp))

theorem gwOf_markDest (s : State) (c pkg d : Nat) : gwOf (markDest s c pkg) d = gwOf s d := by
  unfold markDest
  split
  · rfl
  · split <;> rfl

theorem destMarked_clearMark (s : State) (c pkg : Nat) : destMarked (clearMark s c pkg) c pkg = false := by
  unfold destMarked clearMark
  dsimp only
  rw [Bool.or_eq_false_iff]
  constructor
  · rw [show ∀ u m, ctxOf { u with fab := { u.fab with marked := m } } c = ctxOf u c from fun _ _ => rfl, ctxOf_updCtx_self,
      List.any_map, List.any_eq_false]
    intro d _
    simp only [Function.comp_apply]
    split <;> simp_all
  · simp

/-- The mark of a package depends on the context's destination list and on the marks beside it. -/
theorem destMarked_updCtx (s : State) (c pkg : Nat) {f : Ctx → Ctx} (hf : ∀ x, (f x).dests = x.dests) :
    destMarked (updCtx s c f) c pkg = destMarked s c pkg := by
  unfold destMarked
  rw [ctxOf_updCtx_self, hf]
  rfl

/-- A write that is dropped is counted, and its package marked (R179). -/
theorem dropPacket_write {s : State} {die dst eseq : Nat} {e : E2E} (h : e2eOf s die dst eseq = some e) (hty : e.pkt.ty = 1) :
    destMarked (dropPacket s die e) e.pkt.sctx dst = true ∧ (gwOf (dropPacket s die e) die).drop = bump (gwOf s die).drop 1 := by
  unfold dropPacket
  simp only [hty, dst_of_e2eOf h]
  exact ⟨destMarked_markDest .., by rw [gwOf_markDest, gwOf_setGw_self, drop_e2eDel]⟩

/-! ### Flush responses (R143, R183, R361) -/

theorem remote_clearMark (s : State) (c pkg : Nat) : (ctxOf (clearMark s c pkg) c).remote = (ctxOf s c).remote := by
  unfold clearMark
  dsimp only
  rw [show ∀ u m, ctxOf { u with fab := { u.fab with marked := m } } c = ctxOf u c from fun _ _ => rfl, ctxOf_updCtx_self]

/-- A flushing read that no context and no request waits for completes its command, with the error of its package (R361). -/
theorem xOf_flushDone {s : State} {c pkg id eseq : Nat} {k : XCmd} (status : Bool) (hrem : (ctxOf s c).remote = [])
    (hasks : s.fab.asks = []) (hk : xOf s (coreOf c) id = some k) (hkind : k.kind = 9) (hctx : k.ctx = c)
    (hsent : k.sent = some eseq) (hgot : k.got = none) (hpkg : k.a.toNat % 2 ^ 14 = pkg) :
    xOf (flushDone s c pkg eseq status) (coreOf c) id =
      some { k with got := some [if status || destMarked s c pkg then 1 else 0] } := by
  have hasks' : (clearMark s c pkg).fab.asks = [] := hasks
  have hbits : bitsAt k.a.toNat 0 14 = pkg := by simpa [bitsAt] using hpkg
  have hx : (engOf (clearMark s c pkg) (coreOf c)).x.find? (fun k => k.id = id) = some k := hk
  unfold flushDone
  simp only [remote_clearMark, hrem, List.find?_nil, hasks']
  unfold xOf
  rw [show ∀ u f, engOf (setEng u (coreOf c) f) (coreOf c) = f (engOf u (coreOf c)) from
    fun u f => by simp [engOf, setEng], List.find?_map]
  have hsame : ((fun k : XCmd => decide (k.id = id)) ∘ fun k : XCmd =>
      if k.kind = 9 && k.ctx = c && k.sent = some eseq && k.got.isNone && bitsAt k.a.toNat 0 14 = pkg
      then { k with got := some [if status || destMarked s c pkg then 1 else 0] } else k) = fun k => decide (k.id = id) := by
    funext k
    simp only [Function.comp_apply]
    split <;> rfl
  rw [hsame, hx]
  simp [hkind, hctx, hsent, hgot, hbits]

/-- The error status of a package, where it has one, in the context's `xstat` (R364). -/
def noteError (s : State) (c : Nat) (bad : Bool) : State :=
  if bad then updCtx s c fun x => { x with xstat := x.xstat ||| 0x100000000 } else s

theorem noteError_spec (s : State) (c pkg : Nat) (bad : Bool) :
    (ctxOf (noteError s c bad) c).remote = (ctxOf s c).remote ∧ destMarked (noteError s c bad) c pkg = destMarked s c pkg := by
  unfold noteError
  cases bad with
  | false => exact ⟨rfl, rfl⟩
  | true =>
    rw [if_pos rfl]
    exact ⟨by rw [ctxOf_updCtx_self], destMarked_updCtx _ _ _ (by exact fun _ => rfl)⟩

/-- A release that awaits the flush of its package goes on, and the mark of the package is gone (R143). -/
theorem flushDone_release {s : State} {c pkg eseq : Nat} {r : Remote} (status : Bool) (hrem : (ctxOf s c).remote = [r])
    (hkind : r.kind = 5) (hpkg : r.pkg = pkg) (hseq : r.eseq = eseq) (harg : r.arg ≠ 1) :
    (ctxOf (flushDone s c pkg eseq status) c).remote = [{ r with reply := some ([], false, false) }]
      ∧ destMarked (flushDone s c pkg eseq status) c pkg = false := by
  have hcleared := (remote_clearMark s c pkg).trans hrem
  have hfind : (ctxOf (clearMark s c pkg) c).remote.find? (fun r => r.kind = 5 && r.pkg = pkg && r.eseq = eseq) = some r := by
    simp [hcleared, hkind, hpkg, hseq]
  have hflush : flushDone s c pkg eseq status =
      updCtx (noteError (clearMark s c pkg) c (status || destMarked s c pkg)) c fun x => { x with remote := x.remote.map fun r =>
        if r.kind = 5 && r.pkg = pkg && r.eseq = eseq then { r with reply := some ([], false, false) } else r } := by
    unfold flushDone
    simp only [hfind, if_neg harg]
    rfl
  obtain ⟨hremote, hmark⟩ := noteError_spec (clearMark s c pkg) c pkg (status || destMarked s c pkg)
  rw [hflush]
  constructor
  · rw [ctxOf_updCtx_self]
    simp [hremote, hcleared, hkind, hpkg, hseq]
  · exact (destMarked_updCtx _ _ _ (by exact fun _ => rfl)).trans (hmark.trans (destMarked_clearMark ..))

/-! ### The obligation -/

/-- Settles O49: each answer finds its packet, or the request that waits, and does what its rule says. -/
theorem packetsAreKeptUntilAnswered : Obligations.PacketsAreKeptUntilAnswered := by
  intro s die dst eseq c pkg id e k r status
  refine ⟨fun h => ⟨fun hty => ⟨?ack, fun hw => ?gone⟩, fun ht => ?again, fun ht hty => ?dropped, ?refused, fun hd => ?late,
    fun hd => ?early⟩, fun hrem hasks hk hid hkind hctx hsent hgot hpkg => ?command,
    fun hrem hkind hpkg hseq harg => ⟨_, rfl, flushDone_release status hrem hkind hpkg hseq harg⟩⟩
  case ack => exact congrArg Host.Outcome.next (e2eAcked_kept (s := given s _) h hty)
  case gone =>
    exact ⟨_, congrArg Host.Outcome.next (e2eAcked_kept (s := given s _) h hty), e2eOf_e2eDel (s := given s _) dst eseq hw⟩
  case again =>
    exact ⟨_, congrArg Host.Outcome.next (e2eRejected_again (s := given s _) h ht), e2eOf_resendE2E (s := given s _) h rfl⟩
  case dropped =>
    refine ⟨_, congrArg Host.Outcome.next (e2eRejected_dropped (s := given s _) h ht), ?_⟩
    exact dropPacket_write (s := given s _) h hty
  case refused =>
    exact ⟨_, congrArg Host.Outcome.next (e2eRejected_refused (s := given s _) h), destMarked_markDest ..⟩
  case late =>
    exact ⟨_, congrArg Host.Outcome.next (e2eLate_due (s := given s _) h hd), e2eOf_resendE2E (s := given s _) h rfl⟩
  case early => exact congrArg Host.Outcome.next (e2eLate_early (s := given s _) h hd)
  case command => exact ⟨_, rfl, xOf_flushDone (s := given s _) status hrem hasks hk hkind hctx hsent hgot hpkg⟩

end Sys2Proof.Machine
end

section
/-! PROOF. Tile loads and stores (O33): the lanes of a row and of a column of a line, the rows of a line after a store, and the checks of
a tile operand (R343 to R346, R352). -/
namespace Sys2Proof.Machine
open Sys2Proof.Claims

/-! ### Lanes of a packed register (R291) -/

theorem toNat_vec {w n : Nat} (f : Nat → Nat) (hn : n * w ≤ 2048) : (vec w n f).toNat = packN w f n := by
  have hlt := (packN_lt w f n).trans_le (Nat.pow_le_pow_right (by decide) (show w * n ≤ 2048 by rwa [Nat.mul_comm]))
  rw [vec, BitVec.toNat_ofNat, Nat.mod_eq_of_lt hlt]

theorem laneOf_vec {w n j : Nat} (f : Nat → Nat) (hn : n * w ≤ 2048) (hj : j < n) : laneOf w j (vec w n f) = f j % 2 ^ w := by
  rw [laneOf, toNat_vec f hn]
  refine Nat.eq_of_testBit_eq fun k => ?_
  rw [Nat.testBit_mod_two_pow, Nat.testBit_mod_two_pow, Nat.testBit_div_two_pow]
  by_cases hk : k < w
  · rw [Nat.add_comm, testBit_packN f hj hk]
  · simp [hk]

theorem getLsbD_vec_above {w n p : Nat} (f : Nat → Nat) (hn : n * w ≤ 2048) (hp : n * w ≤ p) : (vec w n f).getLsbD p = false := by
  have hlt : packN w f n < 2 ^ p :=
    (packN_lt w f n).trans_le (Nat.pow_le_pow_right (by decide) (show w * n ≤ p by rwa [Nat.mul_comm]))
  rw [BitVec.getLsbD, toNat_vec f hn, Nat.testBit_lt_two_pow hlt]

/-! ### Elements of a line as they are read (R73, R345) -/

theorem edgeElem_eq (b : Binding) (tile : Tile) (l : TLine) (i n : Nat) :
    edgeElem b.desc tile.co l.rows i n = elemOf b tile l i n := by
  unfold edgeElem elemOf rowElem inRows inCols
  simp only [lane_eq_laneOf, Bool.and_eq_true, decide_eq_true_iff]

theorem elemOf_mod (b : Binding) (tile : Tile) (l : TLine) (i n : Nat) :
    elemOf b tile l i n % 2 ^ fmtBits (dTfmt b.desc) = elemOf b tile l i n := by
  unfold elemOf
  dsimp only
  split
  · exact laneOf_mod ..
  · exact Nat.zero_mod _

/-- The columns of a row lie in its bytes. -/
theorem cols_fit {d : Desc} (h : dRB d ≤ 256) : dTC d * fmtBits (dTfmt d) ≤ 2048 :=
  (Nat.div_mul_le_self _ _).trans (by omega)

section
variable (b : Binding) (tile : Tile) (l : TLine)

/-- A row of a line, lane by lane. -/
theorem tileRow_lanes {row : Nat} (hrow : row < dTR b.desc) (hrb : dRB b.desc ≤ 256) :
    (∀ n, n < dTC b.desc → laneOf (fmtBits (dTfmt b.desc)) n (tileRow b.desc tile.co l.rows row) = elemOf b tile l row n)
      ∧ ∀ p, dTC b.desc * fmtBits (dTfmt b.desc) ≤ p → (tileRow b.desc tile.co l.rows row).getLsbD p = false := by
  unfold tileRow
  rw [if_pos hrow]
  refine ⟨fun n hn => ?_, fun p hp => getLsbD_vec_above _ (cols_fit hrb) hp⟩
  rw [laneOf_vec _ (cols_fit hrb) hn, edgeElem_eq, elemOf_mod]

/-- A column of a line, lane by lane. -/
theorem column_lanes (col : Nat) (hfit : dTR b.desc * fmtBits (dTfmt b.desc) ≤ 2048) :
    (∀ i, i < dTR b.desc → laneOf (fmtBits (dTfmt b.desc)) i (column b.desc tile.co l.rows col) = elemOf b tile l i col)
      ∧ ∀ p, dTR b.desc * fmtBits (dTfmt b.desc) ≤ p → (column b.desc tile.co l.rows col).getLsbD p = false := by
  unfold column
  refine ⟨fun i hi => ?_, fun p hp => getLsbD_vec_above _ hfit hp⟩
  rw [laneOf_vec _ hfit hi, edgeElem_eq, elemOf_mod]

end

/-! ### The rows of a line after a store (R352) -/

/-- The keys of a map rise strictly. -/
def Rising {α : Type} (m : SMap α) : Prop := (m.map Prod.fst).Pairwise (· < ·)

theorem SMap.get?_below {α : Type} {m : SMap α} {n : Nat} (h : ∀ k ∈ m.map Prod.fst, n < k) : SMap.get? m n = none := by
  cases m with
  | nil => rfl
  | cons e m =>
    have hlt : n < e.1 := h e.1 (by simp)
    rw [SMap.get?, if_neg (by omega), if_pos hlt]

theorem SMap.get?_erase {α : Type} {m : SMap α} (h : Rising m) (n j : Nat) :
    SMap.get? (SMap.erase m n) j = if j = n then none else SMap.get? m j := by
  induction m with
  | nil => simp [SMap.erase, SMap.get?]
  | cons e m ih =>
    obtain ⟨hhead, htail⟩ := List.pairwise_cons.1 (show (e.1 :: m.map Prod.fst).Pairwise (· < ·) from h)
    rw [SMap.erase]
    split
    · next hkey =>
      subst hkey
      by_cases hj : j = e.1
      · subst hj
        rw [if_pos rfl, SMap.get?_below hhead]
      · rw [if_neg hj, SMap.get?, if_neg (Ne.symm hj)]
        split
        · next hlt => exact SMap.get?_below fun k hk => hlt.trans (hhead k hk)
        · rfl
    · next hkey =>
      split
      · next hlt =>
        split
        · next hj => rw [hj, SMap.get?, if_neg hkey, if_pos hlt]
        · rfl
      · next hlt =>
        rw [SMap.get?, SMap.get?, ih htail]
        split
        · next hj => rw [if_neg (by omega)]
        · split
          · next hj => rw [if_neg (by omega)]
          · rfl

/-- A row of the tile stored: it reads as the row's bytes, every other row as before. -/
theorem getD_putRow {d : Desc} {rows : SMap Vec} (h : Rising rows) {row : Nat} (hrow : row < dTR d) (v : Vec) (j : Nat) :
    SMap.getD (putRow d rows row v) j 0 =
      if j = row then BitVec.ofNat 2048 (v.toNat % 2 ^ (8 * dRB d)) else SMap.getD rows j 0 := by
  unfold putRow
  simp only [if_pos hrow]
  split
  · next hzero =>
    rw [SMap.getD, SMap.get?_erase h, hzero]
    split <;> rfl
  · split
    · next hj => rw [hj, SMap.getD_set_self]
    · next hj => rw [SMap.getD_set_ne _ _ _ hj]

/-! ### Tile operands (R343) -/

section
variable {s : State} {t : TileOp} {b : Binding} {tile : Tile} {below above : Desc → List (Bool × Nat)}

theorem lowest_none {l : List (Bool × Nat)} (h : ∀ x ∈ l, x.1 = false) : lowest l = none := by
  rw [lowest, List.find?_eq_none.2 fun x hx => by simp [h x hx]]
  rfl

/-- A tile operand that passes the checks of R343 and those of its instruction. -/
theorem tileOpnd_passes (h : tileAt s t b tile) (hbelow : ∀ x ∈ below b.desc, x.1 = false) (habove : ∀ x ∈ above b.desc, x.1 = false) :
    tileOpnd t below above s = (.ok (b, tile), s) := by
  obtain ⟨hb, hcls, hco, htile, -⟩ := h
  unfold tileOpnd
  rw [M_bind_ok (getC_apply s), M_bind_ok (bindingM_some hb)]
  have hlow : lowest (below b.desc ++ [(decide (dClass b.desc = 2), 19), (!coordsOk b.desc (tileCoords (cc s) t), 20)]
      ++ above b.desc) = none := by
    refine lowest_none fun x hx => ?_
    simp only [List.mem_append, List.mem_cons, List.not_mem_nil, or_false] at hx
    rcases hx with (hx | rfl | rfl) | hx
    · exact hbelow x hx
    · exact decide_eq_false hcls
    · rw [hco]; rfl
    · exact habove x hx
  simp only [hlow]
  rw [M_bind_ok (get_apply s), M_bind_ok (get_apply s), htile]
  rfl

theorem tileOpnd_unbound (h : (cc s).b.toList.getD t.b.toNat none = none) : tileOpnd t below above s = (.error (.trap 17 0 0), s) := by
  have hbind : bindingM t.b s = (.error (.trap 17 0 0), s) := by
    unfold bindingM
    rw [M_bind_ok (getC_apply s), h]
    rfl
  unfold tileOpnd
  rw [M_bind_ok (getC_apply s), M_bind_error hbind]

theorem tileOpnd_mirage (hb : (cc s).b.toList.getD t.b.toNat none = some b) (hcls : dClass b.desc = 2) :
    tileOpnd t (fun _ => []) above s = (.error (.trap 19 0 0), s) := by
  unfold tileOpnd
  rw [M_bind_ok (getC_apply s), M_bind_ok (bindingM_some hb)]
  simp [lowest, hcls]

theorem tileOpnd_outside (hb : (cc s).b.toList.getD t.b.toNat none = some b) (hcls : dClass b.desc ≠ 2)
    (hco : coordsOk b.desc (tileCoords (cc s) t) = false) : tileOpnd t (fun _ => []) above s = (.error (.trap 20 0 0), s) := by
  unfold tileOpnd
  rw [M_bind_ok (getC_apply s), M_bind_ok (bindingM_some hb)]
  simp [lowest, hcls, hco]

/-! ### Instructions whose operand fails a check -/

variable {sub : Nat} (r : GReg) (row : BitVec 8) (hall : allHere (cc s) = true)
include hall

/-- An operand that fails a check stops both `tld` and `tst`. -/
theorem exec_tile_trap (h : ∀ above, tileOpnd t (fun _ => []) above s = (.error (.trap sub 0 0), s)) :
    exec (.tld r t row) s = .next (takeTrap s s.cur sub 0 0 (some 4))
      ∧ exec (.tst r t row) s = .next (takeTrap s s.cur sub 0 0 (some 5)) := by
  refine ⟨run_trap (k := slotL) (M_bind_error (h _)) hall, run_trap (k := slotT) ?_ hall⟩
  rw [M_bind_ok (getC_apply s), M_bind_error (h _)]

end

/-! ### A line that the context holds open (R129, R344, R352) -/

section
variable {s : State} {r : GReg} {t : TileOp} {row : BitVec 8} {b : Binding} {tile : Tile} {l : TLine}
  (h : tileAt s t b tile)
include h

/-- The row operand of `tld` and `tst` names a row of the tile. -/
theorem tileOpnd_row (hrow : row.toNat < dTR b.desc) :
    tileOpnd t (fun _ => []) (fun d => [(row.toNat ≥ rowCount d, 20)]) s = (.ok (b, tile), s) := by
  refine tileOpnd_passes h (by simp) fun x hx => ?_
  rw [List.mem_singleton.1 hx]
  exact decide_eq_false (Nat.not_le.2 (Nat.lt_add_right _ hrow))

/-- The column operand of `tcol` names a column of a tile whose columns fit in a register. -/
theorem tileOpnd_col (hcol : row.toNat < dTC b.desc) (hw : fmtBits (dTfmt b.desc) ≠ 4)
    (hfit : dTR b.desc * fmtBits (dTfmt b.desc) ≤ 2048) :
    tileOpnd t (fun d => [(dTR d * fmtBits (dTfmt d) > 2048, 17), (fmtBits (dTfmt d) = 4, 18)])
      (fun d => [(row.toNat ≥ dTC d, 20)]) s = (.ok (b, tile), s) := by
  refine tileOpnd_passes h (fun x hx => ?_) fun x hx => ?_
  · simp only [List.mem_cons, List.not_mem_nil, or_false] at hx
    rcases hx with rfl | rfl
    · exact decide_eq_false (Nat.not_lt.2 hfit)
    · exact decide_eq_false hw
  · rw [List.mem_singleton.1 hx]
    exact decide_eq_false (Nat.not_le.2 hcol)

/-- Without an open line `tst` leaves its entry in the trace. -/
theorem exec_tst_closed (hopen : openOf s s.cur tile = none) (hrow : row.toNat < dTR b.desc) :
    exec (.tst r t row) s = .next (trRec s s.cur 8 (cc s).pc.toNat (Instr_op (.tst r t row))) := by
  refine run_ok (k := slotT) ?_
  rw [M_bind_ok (getC_apply s), M_bind_ok (tileOpnd_row h hrow)]
  dsimp only
  rw [M_bind_ok (tileAt_waits h), M_bind_ok (get_apply s), hopen]
  rfl

variable (hl : openOf s s.cur tile = some l)
include hl

section
variable (hst : l.st = .open_) (hfree : mWrites s s.cur tile = false)
include hst hfree

theorem readLine_open : readLine b tile s = (.ok l, s) := by
  unfold readLine
  rw [M_bind_ok (tileAt_waits h), M_bind_ok (get_apply s)]
  simp only [hl, hfree, hst]
  rw [M_bind_ok (blockIf_false s)]
  rfl

theorem exec_tld_open (hrow : row.toNat < dTR b.desc) :
    exec (.tld r t row) s = .next (emit s (dstG (cc s) r) (tileRow b.desc tile.co l.rows row.toNat) 0 6) := by
  refine run_ok (k := slotL) ?_
  rw [M_bind_ok (tileOpnd_row h hrow)]
  dsimp only
  rw [M_bind_ok (readLine_open h hl hst hfree)]
  rfl

theorem exec_tcol_open (hcol : row.toNat < dTC b.desc) (hw : fmtBits (dTfmt b.desc) ≠ 4)
    (hfit : dTR b.desc * fmtBits (dTfmt b.desc) ≤ 2048) :
    exec (.tcol r t row) s = .next (emit s (dstG (cc s) r) (column b.desc tile.co l.rows row.toNat) 0 6) := by
  refine run_ok (k := slotL) ?_
  rw [M_bind_ok (tileOpnd_col h hcol hw hfit)]
  dsimp only
  rw [M_bind_ok (readLine_open h hl hst hfree)]
  rfl

/-- A row stored into the open line, at once. -/
theorem exec_tst_open (hrow : row.toNat < dTR b.desc) (hreads : mReads s s.cur l.id = false) :
    exec (.tst r t row) s =
      .next (updLine s (coreOf s.cur) l.id fun y => { y with rows := putRow b.desc y.rows row.toNat (rdG (cc s) r) }) := by
  refine run_ok (k := slotT) ?_
  rw [M_bind_ok (getC_apply s), M_bind_ok (tileOpnd_row h hrow)]
  dsimp only
  rw [M_bind_ok (tileAt_waits h), M_bind_ok (get_apply s), hl]
  simp only [hst, hfree, hreads]
  rfl

end

/-- A poisoned open line faults (R108; that the record's VA is 0 is log 46). -/
theorem exec_tile_poisoned (hst : l.st = .openPoisoned) (hfree : mWrites s s.cur tile = false) (hrow : row.toNat < dTR b.desc)
    (hall : allHere (cc s) = true) : exec (.tld r t row) s = .next (takeTrap s s.cur 24 0 1 (some 4))
      ∧ exec (.tst r t row) s = .next (takeTrap s s.cur 24 0 2 (some 5)) := by
  have hread : readLine b tile s = (.error (.trap 24 0 1), s) := by
    unfold readLine
    rw [M_bind_ok (tileAt_waits h), M_bind_ok (get_apply s)]
    simp only [hl, hfree, hst]
    rw [M_bind_ok (blockIf_false s)]
    rfl
  refine ⟨run_trap (k := slotL) ?_ hall, run_trap (k := slotT) ?_ hall⟩
  · rw [M_bind_ok (tileOpnd_row h hrow)]
    dsimp only
    rw [M_bind_error hread]
  · rw [M_bind_ok (getC_apply s), M_bind_ok (tileOpnd_row h hrow)]
    dsimp only
    rw [M_bind_ok (tileAt_waits h), M_bind_ok (get_apply s), hl]
    simp only [hst]
    rfl

end

/-! ### The lines of a CTC after a store (R352) -/

section
variable {s : State} {core id : Nat} {f : TLine → TLine}

/-- A change of a line that keeps its tile, its context and its state keeps which line a context holds open. -/
theorem openOf_updLine {c : Nat} {tile : Tile} {l : TLine} (hl : openOf s c tile = some l)
    (hf : ∀ y, (f y).tile = y.tile ∧ (f y).ctx = y.ctx ∧ (f y).st = y.st) :
    openOf (updLine s (coreOf c) l.id f) c tile = some (f l) := by
  have hsame : ((fun x : TLine => x.tile == tile && x.ctx = c && (x.st == .open_ || x.st == .openPoisoned))
      ∘ fun x => if x.id = l.id then f x else x) = fun x => x.tile == tile && x.ctx = c && (x.st == .open_ || x.st == .openPoisoned) := by
    funext x
    obtain ⟨htile, hctx, hst⟩ := hf x
    simp only [Function.comp_apply]
    split
    · rw [htile, hctx, hst]
    · rfl
  rw [openOf, updLine, ctcOf_setCtc_self, List.find?_map, hsame, show List.find? _ _ = some l from hl]
  simp

theorem mem_updLine {x : TLine} (h : x ∈ ctcOf s core) (hid : x.id ≠ id) : x ∈ ctcOf (updLine s core id f) core := by
  rw [updLine, ctcOf_setCtc_self]
  exact List.mem_map.2 ⟨x, h, if_neg hid⟩

end

/-! ### The obligation -/

/-- Settles O33: an open line is read by row and by column and stored by row; any other operand is without effect or traps. -/
theorem openTilesAreReadAndWritten : Obligations.OpenTilesAreReadAndWritten := by
  intro s r t row b tile l
  refine ⟨fun h hl hst hfree hrb => ⟨fun hrow => ⟨_, exec_tld_open h hl hst hfree hrow, tileRow_lanes b tile l hrow hrb⟩,
      fun hcol hw hfit => ⟨_, exec_tcol_open h hl hst hfree hcol hw hfit, column_lanes b tile l _ hfit⟩, fun hrow hreads hrise => ?store⟩,
    fun h hopen hrow => exec_tst_closed h hopen hrow,
    fun h hl hst hfree hrow hall => exec_tile_poisoned h hl hst hfree hrow hall,
    fun hb hall => exec_tile_trap r row hall fun _ => tileOpnd_unbound hb,
    fun hb hcls hall => exec_tile_trap r row hall fun _ => tileOpnd_mirage hb hcls,
    fun hb hcls hco hall => exec_tile_trap r row hall fun _ => tileOpnd_outside hb hcls hco⟩
  case store =>
    exact ⟨_, _, exec_tst_open h hl hst hfree hrow hreads, openOf_updLine hl fun _ => ⟨rfl, rfl, rfl⟩, rfl,
      fun k hk => ctcOf_setCtc_ne s _ hk, fun l' hl' hid => mem_updLine hl' hid, getD_putRow hrise hrow _⟩

end Sys2Proof.Machine
end

section
/-! PROOF. What no access to the memory at a home changes (O22, O24, O46, O50): each part of a state that looks neither at the HBM nor at
the far memory stays as it is through the reads and the writes of both. -/
namespace Sys2Proof.Machine
open Sys2Proof.Claims

section
variable {α : Type} {p : State → α}

/-! ### A part of the state through branches and folds -/

theorem same_foldl {β : Type} {f : State → β → State} (hf : ∀ s a, p (f s a) = p s) (l : List β) (s : State) :
    p (l.foldl f s) = p s := by
  induction l generalizing s with
  | nil => rfl
  | cons a l ih => rw [List.foldl_cons, ih, hf]
theorem same_foldl_mem {β : Type} {f : State → β → State} (l : List β) (hf : ∀ s, ∀ a ∈ l, p (f s a) = p s) (s : State) :
    p (l.foldl f s) = p s := by
  induction l generalizing s with
  | nil => rfl
  | cons a l ih =>
    rw [List.foldl_cons, ih fun s b hb => hf s b (List.mem_cons_of_mem _ hb), hf _ _ List.mem_cons_self]
theorem same_foldl_snd {β γ : Type} {f : β × State → γ → β × State} (hf : ∀ q a, p (f q a).2 = p q.2) (l : List γ)
    (q : β × State) : p (l.foldl f q).2 = p q.2 := by
  induction l generalizing q with
  | nil => rfl
  | cons a l ih => rw [List.foldl_cons, ih, hf]
theorem same_ite {c : Prop} [Decidable c] {x : α} {t u : State} (ht : p t = x) (hu : p u = x) : p (if c then t else u) = x := by
  split
  · exact ht
  · exact hu
theorem same_ite_snd {c : Prop} [Decidable c] {β : Type} {x : α} {q r : β × State} (hq : p q.2 = x) (hr : p r.2 = x) :
    p (if c then q else r).2 = x := by
  split
  · exact hq
  · exact hr
theorem same_ite_snd_snd {c : Prop} [Decidable c] {β γ : Type} {x : α} {q r : β × γ × State} (hq : p q.2.2 = x)
    (hr : p r.2.2 = x) : p (if c then q else r).2.2 = x := by
  split
  · exact hq
  · exact hr

/-! ### Parts that look at no memory -/

/-- A part of a state that the HBM with its undo records and the far memory are not in. -/
structure BesideMemory (p : State → α) : Prop where
  hbm (s : State) h : p { s with hbm := h } = p s
  undo (s : State) u : p { s with undo := u } = p s
  far (s : State) m : p { s with far := m } = p s
  farPsn (s : State) m : p { s with farPsn := m } = p s

variable (hp : BesideMemory p)
include hp

/-! ### Channels of HBM (R100 to R109, R163) -/

theorem same_setChan (s : State) (n : Nat) (f : Chan → Chan) : p (setChan s n f) = p s := hp.hbm ..
theorem same_activate (s : State) (pa : Nat) : p (activate s pa) = p s := hp.hbm ..
theorem same_setSnoop (s : State) (pa : Nat) (e : Option Snoop) : p (setSnoop s pa e) = p s := hp.hbm ..
theorem same_undoLog (s : State) (q : Option Nat) (pa : Nat) : p (undoLog s q pa) = p s := by
  rw [undoLog_frame]
  exact hp.undo ..

theorem same_chanWrite (s : State) (q : Option Nat) (sec : Nat) (bs : List (Option Byte)) (psn : Bool) :
    p (chanWrite s q sec bs psn) = p s := by
  have hopen (live : SMap Unit) (h : p (setChan (activate (undoLog s q (sec * 32)) (sec * 32)) (chanOf (sec * 32))
      fun c => { c with resv := c.resv.filter fun r => r.sector != sec }) = p s) :
      let u := setChan (activate (undoLog s q (sec * 32)) (sec * 32)) (chanOf (sec * 32))
        fun c => { c with resv := c.resv.filter fun r => r.sector != sec }
      p { u with hbm := { u.hbm with live := live } } = p s := (hp.hbm ..).trans h
  have hopen := fun live => hopen live
    ((same_setChan hp ..).trans ((same_activate hp ..).trans (same_undoLog hp ..)))
  unfold chanWrite
  exact same_ite rfl (same_ite ((hp.hbm ..).trans (hopen _)) (same_ite (hopen _) ((hp.hbm ..).trans (hopen _))))

theorem same_hostData (s : State) (gran : Nat) (d : Option (BitVec 512)) : p (hostData s gran d) = p s := by
  cases d with
  | none => rfl
  | some v => exact (same_chanWrite hp ..).trans (same_chanWrite hp ..)
theorem same_snoopRead (s : State) (pa : Nat) : p (snoopRead s pa) = p s := by
  unfold snoopRead
  cases snoopOf s pa with
  | none => rfl
  | some e => exact same_ite ((same_setSnoop hp ..).trans (same_hostData hp ..)) rfl
theorem same_snoopInv (s : State) (pa : Nat) : p (snoopInv s pa) = p s := by
  unfold snoopInv
  cases snoopOf s pa with
  | none => rfl
  | some e => exact (same_setSnoop hp ..).trans (same_hostData hp ..)

theorem same_hbmReadSec (s : State) (sec : Nat) : p (hbmReadSec s sec).2.2 = p s := by
  have hopen : p (activate (snoopRead s (sec * 32)) (sec * 32)) = p s := (same_activate hp ..).trans (same_snoopRead hp ..)
  unfold hbmReadSec
  dsimp only
  split
  · exact hopen
  · split
    · dsimp only
      exact (same_setChan hp ..).trans hopen
    · split
      · dsimp only
        exact (same_setChan hp ..).trans hopen
      · exact hopen
theorem same_hbmReadSecs (s : State) (sec k : Nat) : p (hbmReadSecs s sec k).2.2 = p s := by
  induction k generalizing s sec with
  | zero => rfl
  | succ k ih => exact (ih _ _).trans (same_hbmReadSec hp s sec)
theorem same_hbmRead (s : State) (pa n : Nat) : p (hbmRead s pa n).2.2 = p s := by
  unfold hbmRead
  exact same_hbmReadSecs hp s (pa / 32) ((pa + n - 1) / 32 - pa / 32 + 1)
theorem same_hbmReadN (s : State) (pa n : Nat) : p (hbmReadN s pa n).2.2 = p s := by
  unfold hbmReadN
  exact same_hbmRead hp ..

theorem same_hbmWriteSec (s : State) (q : Option Nat) (sec : Nat) (bs : List (Option Byte)) (psn : Bool) :
    p (hbmWriteSec s q sec bs psn) = p s := (same_chanWrite hp ..).trans (same_snoopInv hp ..)
theorem same_hbmWrite (s : State) (q : Option Nat) (pa : Nat) (bs : List (Option Byte)) : p (hbmWrite s q pa bs) = p s :=
  same_ite rfl (same_foldl (fun _ _ => same_ite (same_hbmWriteSec hp ..) rfl) _ _)
theorem same_hbmPutN (s : State) (q : Option Nat) (pa n x : Nat) : p (hbmPutN s q pa n x) = p s := same_hbmWrite hp ..

/-! ### Far memory and homes -/

theorem same_farWriteSec (s : State) (key sec : Nat) (bs : List (Option Byte)) (psn : Bool) :
    p (farWriteSec s key sec bs psn) = p s := by
  unfold farWriteSec
  exact same_ite (hp.farPsn ..) (same_ite rfl (same_ite ((hp.farPsn ..).trans (hp.far ..)) (hp.far ..)))

theorem same_homeRead (s : State) (pa n : Nat) : p (homeRead s pa n).2.2 = p s := by
  unfold homeRead
  refine same_ite_snd_snd (same_hbmReadSecs hp ..) ?_
  split <;> rfl
theorem same_homeBytes (s : State) (pa n : Nat) : p (homeBytes s pa n).2.2 = p s := by
  unfold homeBytes
  refine same_ite_snd_snd (same_hbmRead hp ..) ?_
  split <;> rfl

/-- A write at a home keeps what the completions that it causes keep. -/
theorem same_homeWrite {cs : List Nat} (hcs : ∀ s, ∀ c ∈ cs,
      p (cause { s with ctx := SMap.modify s.ctx c {} fun x => { x with farOut := x.farOut + 1 } } (.cxlCompletion c [])) = p s)
    (s : State) (q : Option Nat) (pa : Nat) (bs : List (Option Byte)) : p (homeWrite s cs q pa bs) = p s := by
  unfold homeWrite
  refine same_ite (same_hbmWrite hp ..) ?_
  split
  · exact same_ite rfl ((same_foldl_mem cs hcs _).trans (same_foldl (fun _ _ => same_ite (same_farWriteSec hp ..) rfl) _ _))
  · rfl

end

end Sys2Proof.Machine
end

section
/-! PROOF. What no access of Caravan's causes (O50): translation, hardware paging, and the reads and writes of a save image leave the
steps to come as they are, and so do the flags that a contribution raises in a task that is saved. -/
namespace Sys2Proof.Machine
open Sys2Proof.Claims

/-! ### What no access to memory causes (R18, R29, R433, R488) -/

/-- The steps that are still to come, and the package's number. -/
def toCome (s : State) : List Pend × Nat := (s.pending, s.pkg)

theorem besideMemory_toCome : BesideMemory toCome :=
  ⟨fun _ _ => rfl, fun _ _ => rfl, fun _ _ => rfl, fun _ _ => rfl⟩

theorem toCome_homeWrite (s : State) (q : Option Nat) (pa : Nat) (bs : List (Option Byte)) :
    toCome (homeWrite s [] q pa bs) = toCome s :=
  same_homeWrite besideMemory_toCome (fun _ _ hc => absurd hc List.not_mem_nil) ..

theorem toCome_killFrame (s : State) (frame : Nat) : toCome (killFrame s frame) = toCome s :=
  same_foldl (f := fun s i => killBlock s (frame * 16 + i)) (fun _ _ => rfl) _ _
theorem toCome_zeroFrame (s : State) (frame : Nat) : toCome (zeroFrame s frame) = toCome s :=
  same_foldl (f := fun s i => reviveBlock s (frame * 16 + i)) (fun _ _ => rfl) _ _
theorem toCome_killFar (s : State) (frame : Nat) : toCome (killFar s frame) = toCome s := by
  unfold killFar
  split <;> rfl

theorem toCome_devSet (s : State) (a : Nat) (w : Word) : toCome (devSet s a w) = toCome s := rfl
theorem toCome_irq (s : State) (b : Nat) : toCome (irq s b) = toCome s := rfl

theorem toCome_poolTake {s t : State} {d f : Nat} (h : poolTake s d = some (f, t)) : toCome t = toCome s := by
  unfold poolTake at h
  dsimp only at h
  split at h
  · cases h
  · simp only [Option.some.injEq] at h
    obtain ⟨-, rfl⟩ := h
    exact same_ite ((toCome_irq ..).trans ((toCome_devSet ..).trans (same_hbmReadN besideMemory_toCome ..)))
      ((toCome_devSet ..).trans (same_hbmReadN besideMemory_toCome ..))
theorem toCome_poolAlloc {s t : State} {d f : Nat} (h : poolAlloc s d = some (f, t)) : toCome t = toCome s := by
  unfold poolAlloc at h
  split at h
  · next hr => exact toCome_poolTake (hr.trans h)
  · split at h
    · next hr => exact toCome_poolTake (hr.trans h)
    · split at h
      · next hr => exact toCome_poolTake (hr.trans h)
      · exact toCome_poolTake h

theorem toCome_poolAdd (s : State) (d f : Nat) : toCome (poolAdd s d f) = toCome s :=
  same_ite ((toCome_devSet ..).trans ((same_hbmPutN besideMemory_toCome ..).trans (toCome_killFrame ..))) (toCome_irq ..)
theorem toCome_farRelease (s : State) (d f : Nat) : toCome (farRelease s d f) = toCome s := by
  have hput (a : Nat) (w : Word) (pa : Nat) : toCome (devSet (hbmPutN (killFar s f) none pa 4 f) a w) = toCome s :=
    (toCome_devSet ..).trans ((same_hbmPutN besideMemory_toCome ..).trans (toCome_killFar ..))
  exact same_ite ((toCome_irq ..).trans (hput ..)) (hput ..)
theorem toCome_slotMark (s : State) (d i : Nat) (free : Bool) : toCome (slotMark s d i free) = toCome s := by
  unfold slotMark
  exact (toCome_devSet ..).trans <| (same_hbmPutN besideMemory_toCome ..).trans (same_hbmReadN besideMemory_toCome ..)
theorem toCome_slotDrop (s : State) (pa : Nat) : toCome (slotDrop s pa) = toCome s := by
  unfold slotDrop
  dsimp only
  split
  · exact toCome_slotMark ..
  · rfl
theorem toCome_giveBack (s : State) (asid : Nat) (m : Moved) : toCome (giveBack s asid m) = toCome s := by
  unfold giveBack
  split
  · exact same_ite (toCome_poolAdd ..) (same_ite (toCome_farRelease ..) (toCome_slotDrop ..))
  · rfl
theorem toCome_tookNew (s : State) (asid : Nat) (m : Moved) : toCome (tookNew s asid m) = toCome s := by
  unfold tookNew
  split <;> rfl
theorem toCome_setHbm (s : State) (m : Memory) (live poison : SMap Unit) :
    toCome { s with hbm := { s.hbm with mem := m, live := live, poison := poison } } = toCome s := rfl
theorem toCome_poisonFrame (s : State) (frame : Nat) : toCome (poisonFrame s frame) = toCome s :=
  (toCome_setHbm ..).trans (toCome_zeroFrame ..)
theorem toCome_expand (s : State) (e : Word) (frame : Nat) : toCome (expand s e frame) = toCome s := by
  have hdrop (m : Memory) (live poison : SMap Unit) :
      let t := killFrame ((List.range 16).foldl (fun s i => dropResv s (frame * 16 + i)) s) frame
      toCome { t with hbm := { t.hbm with mem := m, live := live, poison := poison } } = toCome s :=
    (toCome_setHbm ..).trans ((toCome_killFrame ..).trans
      (same_foldl (f := fun s i => dropResv s (frame * 16 + i)) (fun _ _ => rfl) _ _))
  unfold expand
  dsimp only
  split
  · exact same_ite (hdrop ..) (toCome_poisonFrame ..)
  · exact toCome_poisonFrame ..
theorem toCome_fillPage (s : State) (asid : Nat) (e : Word) (f : Nat) : toCome (fillPage s asid e f) = toCome s :=
  same_ite (toCome_zeroFrame s f) ((toCome_giveBack ..).trans (toCome_expand ..))

theorem toCome_pmem {s t : State} {pa n e : Nat} {p : Bool} (h : pmem s pa n = some (e, p, t)) : toCome t = toCome s := by
  unfold pmem at h
  split at h
  · have hread := same_hbmReadN besideMemory_toCome s pa n
    rwa [Option.some.inj h] at hread
  · obtain ⟨x, -, hx⟩ := Option.map_eq_some_iff.1 h
    exact congrArg (fun r => toCome r.2.2) hx.symm

theorem toCome_walkFrom (s : State) (die asid va lvl t : Nat) : toCome (walkFrom s die asid va lvl t).2 = toCome s := by
  induction lvl generalizing s t with
  | zero =>
    unfold walkFrom
    dsimp only
    split
    · rfl
    · next h => exact toCome_pmem h
  | succ lvl ih =>
    unfold walkFrom
    dsimp only
    split
    · exact ih ..
    · split
      · rfl
      · next u h =>
        have h : toCome u = toCome s := toCome_pmem h
        exact same_ite_snd h (same_ite_snd ((ih ..).trans h) h)

/-- The walk is unfolded as a function, so that the kernel does not evaluate it. -/
theorem toCome_walk (s : State) (die asid va : Nat) : toCome (walk s die asid va).2 = toCome s := by
  simp only [show @walk = delta% @walk from rfl]
  split
  · rfl
  · next h => exact same_ite_snd (toCome_pmem h) ((toCome_walkFrom ..).trans (toCome_pmem h))

theorem toCome_reviveBlock (s : State) (blk : Nat) : toCome (reviveBlock s blk) = toCome s := rfl
theorem toCome_deadWrite (s : State) (e : Word) : toCome (deadWrite s e) = toCome s := by
  unfold deadWrite
  exact same_foldl (fun _ _ => same_ite rfl (toCome_reviveBlock ..)) _ _

theorem toCome_tlbPut (s : State) (ag : Agent) (t : TlbE) : toCome (tlbPut s ag t) = toCome s := same_ite rfl rfl

theorem toCome_firstTouch (s : State) (ag : Agent) (asid va : Nat) (e : Word) (pte : Nat) (wr : Bool) :
    toCome (firstTouch s ag asid va e pte wr).2 = toCome s := by
  unfold firstTouch
  dsimp only
  split
  · exact toCome_homeWrite ..
  · next h =>
    exact (toCome_tlbPut ..).trans ((toCome_homeWrite ..).trans
      ((toCome_fillPage ..).trans ((toCome_tookNew ..).trans (toCome_poolAlloc h))))

theorem toCome_walkFor (s : State) (ag : Agent) (asid va : Nat) (acc : Acc4) : toCome (walkFor s ag asid va acc).2 = toCome s := by
  have hwalk := toCome_walk s (Agent_die ag) asid va
  unfold walkFor
  refine same_ite_snd rfl ?_
  split
  · next h => rwa [h] at hwalk
  · next u h =>
    rw [h] at hwalk
    have hwalk : toCome u = toCome s := hwalk
    split
    · exact hwalk
    · refine same_ite_snd hwalk ?_
      split
      · exact hwalk
      · have hdead (c : Bool) (e : Word) : toCome (if c then deadWrite u e else u) = toCome s :=
          same_ite ((toCome_deadWrite ..).trans hwalk) hwalk
        exact same_ite_snd ((toCome_firstTouch ..).trans hwalk)
          ((toCome_tlbPut ..).trans (same_ite (hdead ..) ((toCome_homeWrite ..).trans (hdead ..))))

theorem toCome_translate (s : State) (ag : Agent) (asid : Nat) (va : Word) (acc : Acc4) :
    toCome (translate s ag asid va acc).2 = toCome s := by
  unfold translate
  refine same_ite_snd rfl ?_
  split
  · split
    · rfl
    · exact same_ite_snd (toCome_walkFor ..) rfl
  · exact toCome_walkFor ..

/-! ### Caravan's accesses, and a task's registers (R433, R488) -/

theorem toCome_gwSend (s : State) (d : Nat) (k : Packet) : toCome (gwSend s d k).2 = toCome s := by
  unfold gwSend
  exact same_ite rfl rfl

theorem toCome_carRead1 (s : State) (die asid : Nat) (va : Word) (n : Nat) : toCome (carRead1 s die asid va n).2 = toCome s := by
  have htr := toCome_translate s (.caravan die) asid va .read
  unfold carRead1
  split
  · next h => rwa [h] at htr
  · next h => rwa [h] at htr
  · next u h =>
    rw [h] at htr
    have htr : toCome u = toCome s := htr
    refine same_ite_snd ?_ (same_ite_snd ((same_homeBytes besideMemory_toCome ..).trans htr) htr)
    unfold carAsk
    dsimp only
    split
    · split <;> exact htr
    · exact (toCome_gwSend ..).trans htr

theorem toCome_carRead (s : State) (die asid : Nat) (va : Word) (n : Nat) : toCome (carRead s die asid va n).2 = toCome s := by
  unfold carRead
  generalize hread : List.foldl _ _ _ = q
  have hread : toCome q.2 = toCome s := by
    subst hread
    refine same_foldl_snd (fun (r, u) i => ?_) _ _
    cases r with
    | ok b =>
      have hpiece := toCome_carRead1 u die asid (va + BitVec.ofNat 64 (64 * i)) (min 64 (n - 64 * i))
      dsimp only
      split
      · next h => rwa [h] at hpiece
      · exact hpiece
    | fault c v => rfl
    | park => rfl
  exact same_ite hread hread

/-- Caravan's writes are on behalf of no context: no completion is caused. -/
theorem toCome_carWrite (s : State) (die asid : Nat) (q : Option Nat) (va : Word) (b : List Byte) :
    toCome (carWrite s die asid q va b).2 = toCome s := by
  have htr := toCome_translate s (.caravan die) asid va .write
  unfold carWrite
  split
  · next h => rwa [h] at htr
  · next h => rwa [h] at htr
  · next u h =>
    rw [h] at htr
    have htr : toCome u = toCome s := htr
    refine same_ite_snd ((same_ite rfl (same_foldl ?_ _ _)).trans htr) (same_ite_snd ((toCome_homeWrite ..).trans htr) htr)
    exact fun _ _ => same_ite (toCome_gwSend ..) rfl

theorem toCome_imgUpd (s : State) (t : Task) (off n : Nat) (f : Nat → Nat) : toCome (imgUpd s t off n f) = toCome s := by
  have hread := toCome_carRead s (leader s) t.asid (imgVa t off) n
  unfold imgUpd imgRead
  split
  · next h =>
    rw [h] at hread
    exact (toCome_carWrite ..).trans hread
  · next h => rwa [h] at hread

theorem toCome_flagsTo (s : State) (c tid : Nat) (fl : Fl) : toCome (flagsTo s c tid fl) = toCome s := by
  unfold flagsTo
  refine same_ite rfl ?_
  unfold regsTo
  refine same_ite rfl ?_
  split
  · exact same_ite rfl (toCome_imgUpd ..)
  · rfl

theorem toCome_smFlags (s : State) (m : SmMsg) (fl : Fl) : toCome (smFlags s m fl) = toCome s := by
  unfold smFlags
  split
  · exact same_ite (toCome_flagsTo ..) rfl
  · rfl

end Sys2Proof.Machine
end

section
/-! PROOF. Sequenced multicast (O50): the management command, the commands at their switch, the entries at a member, and the
acknowledgements. -/
namespace Sys2Proof.Machine
open Sys2Proof.Claims

/-! ### `smgcmd` (R186) -/

theorem opField_ne {n k : Nat} (h : n / 2 ^ 60 % 4 ≠ k) : bitsAt n 60 2 ≠ k := by
  rwa [bitsAt, Nat.shiftRight_eq_div_pow]

section
variable {s : State} {w : Word} {b : Writer}

theorem smgWrite_begins (hcmd : s.fab.cmd = none) (hgo : w.getLsbD 62 = true) (hop : w.toNat / 2 ^ 60 % 4 ≠ 3)
    (hb : mayWrite 0xF00001530000 b = true) : (smgWrite s w b).fab.cmd = some w := by
  have hpeer : ¬ (b == .peer) = true := by
    rintro h
    rw [eq_of_beq h] at hb
    cases hb
  unfold smgWrite
  rw [if_neg (opField_ne hop), if_neg hpeer, if_neg (by simp [hcmd, hb]), if_pos hgo]
  rfl

theorem smgWrite_ignored (hpeer : b ≠ .peer) (h : (s.fab.cmd.isSome || !mayWrite 0xF00001530000 b) = true) :
    smgWrite s w b = s := by
  unfold smgWrite
  rw [if_neg (show ¬ (b == .peer) = true by simpa using hpeer), if_pos h, ite_self]

theorem smgWrite_peer (hgo : w.getLsbD 62 = true) (hop : w.toNat / 2 ^ 60 % 4 ≠ 3) :
    smgWrite s w .peer = (smgRun s w 0).2 := by
  unfold smgWrite
  rw [if_neg (opField_ne hop), if_pos (show (Writer.peer == Writer.peer) = true from rfl), if_pos hgo]

end

/-! The three operations, by the fields of the command: its group, its switch and its window's exponent. -/

theorem smgRun_unreachable (s : State) (w : Word) : smgRun s w 3 = (3, s) := rfl

section
variable {s : State} {w : Word} {st : Nat} (hst : st ≠ 3)
include hst

theorem smgRun_create (hop : w.toNat / 2 ^ 60 % 4 = 0) : smgRun s w st =
    if (groupOf s (w.toNat % 2 ^ 12)).isSome then (1, s)
    else if w.toNat / 2 ^ 48 % 2 ^ 3 > 4 then (6, s)
    else (0, setGroup s (w.toNat % 2 ^ 12) (some { swid := w.toNat / 2 ^ 32 % 2 ^ 16, k := w.toNat / 2 ^ 48 % 2 ^ 3 })) := by
  unfold smgRun
  simp only [bitsAt, Nat.shiftRight_eq_div_pow, pow_zero, Nat.div_one]
  rw [if_neg hst, show w.toNat / 2 ^ 60 % 2 ^ 2 = 0 from hop]
  rfl

variable {x : Group} (hx : groupOf s (w.toNat % 2 ^ 12) = some x)
include hx

theorem smgRun_close (hop : w.toNat / 2 ^ 60 % 4 = 1) : smgRun s w st =
    if x.swid != w.toNat / 2 ^ 32 % 2 ^ 16 then (2, s)
    else (0, x.held.foldl (fun s m => smTell s m (some 64))
      (setGroup s (w.toNat % 2 ^ 12) (some { x with closed := true, held := [] }))) := by
  unfold smgRun
  simp only [bitsAt, Nat.shiftRight_eq_div_pow, pow_zero, Nat.div_one]
  rw [if_neg hst, show w.toNat / 2 ^ 60 % 2 ^ 2 = 1 from hop, hx]
  rfl

theorem smgRun_destroy (hop : w.toNat / 2 ^ 60 % 4 = 2) (hsw : x.swid = w.toNat / 2 ^ 32 % 2 ^ 16) : smgRun s w st =
    if !x.closed then (4, s)
    else if !x.members.isEmpty then (5, s)
    else (0, (x.queue.filter fun q => q.1 = s.pkg).foldl (fun s q => cause s (.smgEntryArrive (w.toNat % 2 ^ 12) q.2.1 q.2.2))
      (setGroup s (w.toNat % 2 ^ 12) none)) := by
  unfold smgRun
  simp only [bitsAt, Nat.shiftRight_eq_div_pow, pow_zero, Nat.div_one]
  rw [if_neg hst, show w.toNat / 2 ^ 60 % 2 ^ 2 = 2 from hop, hx]
  simp only [hsw, bne_self_eq_false, Bool.false_eq_true, if_false]

end

theorem fab_cause (s : State) (e : Ev) : (cause s e).fab = s.fab := rfl
theorem fab_smTell (s : State) (m : SmMsg) (err : Option Nat) : (smTell s m err).fab = s.fab := same_ite (p := State.fab) rfl rfl

theorem groupOf_setGroup (s : State) (g : Nat) (x : Group) : groupOf (setGroup s g (some x)) g = some x := SMap.get?_set_self ..

theorem smgAnswer_eq {s u : State} {w : Word} {st z : Nat} (h : s.fab.cmd = some w) (hrun : smgRun s w st = (z, u)) :
    smgAnswer s st = devSet { u with fab := { u.fab with cmd := none } } 0xF00001530008 (BitVec.ofNat 64 z) := by
  unfold smgAnswer
  rw [h]
  dsimp only
  rw [hrun]

theorem devGet_devSet (s : State) (a : Nat) (w : Word) : devGet (devSet s a w) a = w := SMap.getD_set_self ..

/-- The management core reads the status that the switch's command gives (R186). -/
theorem smgAnswer_spec {s u : State} {w : Word} {st z : Nat} (h : s.fab.cmd = some w) (hrun : smgRun s w st = (z, u)) :
    (smgAnswer s st).fab.cmd = none ∧ devGet (smgAnswer s st) 0xF00001530008 = BitVec.ofNat 64 z
      ∧ (smgAnswer s st).fab.group = u.fab.group := by
  rw [smgAnswer_eq h hrun]
  exact ⟨rfl, devGet_devSet .., rfl⟩

/-! ### Commands at the switch (R185, R188, R189) -/

/-- A sequenced command that has come back for its switch is no longer stopped; nothing else changes. -/
theorem smClear_here {s : State} {m : SmMsg} (h : m.pkg = s.pkg) : smClear s m =
    setEng s (coreOf m.ctx) fun e => { e with sq := e.sq.map fun c => if c.id = m.cmd then { c with fault := none } else c } := by
  unfold smClear
  rw [if_neg (by simp [h])]

theorem execSwitchSequence_command {s : State} {m : SmMsg} {off : Nat} {op : SmOp} {fmt : SmFmt}
    (hev : s.ev = some (.switchSequence m)) (hk : m.kind = .dir off ∨ m.kind = .red op fmt off) :
    execSwitchSequence s = .next (smCommand (smClear s m) m) := by
  unfold execSwitchSequence
  rw [hev]
  rcases hk with hk | hk <;> simp only [hk]

/-- A command that sets nothing free is all that the switch performs. -/
theorem smCommand_alone {s t : State} {m : SmMsg} (h : smStep s m = ([], t)) : smCommand s m = t := by
  unfold smCommand
  rw [h]
  rfl

/-- The pending steps once a command of this package has ended with an error. -/
theorem pending_smTell {s : State} {m : SmMsg} (err : Option Nat) (h : m.pkg = s.pkg) :
    (smTell s m err).pending = s.pending ++ [⟨none, .sequencedCommandComplete (coreOf m.ctx) m.cmd err⟩] := by
  unfold smTell
  rw [if_pos h]
  rfl

section
variable {s : State} {m : SmMsg} {x : Group} (hx : groupOf s m.grp = some x)
include hx

theorem smStep_closed (hc : x.closed = true) : smStep s m = ([], smTell s m (some 64)) := by
  unfold smStep
  simp only [hx, hc, if_true]

theorem smStep_stranger (hc : x.closed = false) (hm : x.members = []) : smStep s m = ([], smTell s m (some 66)) := by
  unfold smStep
  simp only [hx, hc, hm, List.any_nil, Bool.not_false, if_true, Bool.false_eq_true, if_false]

variable {j : Nat} (hc : x.closed = false) (hm : x.members = [(m.pkg, j)])
include hc hm

theorem smStep_range (hr : smRange x.k m = false) : smStep s m = ([], smTell s m (some 67)) := by
  unfold smStep
  simp [hx, hc, hm, hr]

variable (hr : smRange x.k m = true)
include hr

theorem smStep_dir {off : Nat} (hk : m.kind = .dir off) :
    smStep s m = ([], sendEntry s m.grp x.next (number x).2 (.dir off m.data) [m]) := by
  unfold smStep
  simp only [hx, hc, hm, hr, hk, List.any_cons, List.any_nil, decide_true, Bool.or_false, Bool.not_true, Bool.false_eq_true, if_false]
  rfl

theorem smStep_red {op : SmOp} {fmt : SmFmt} {off : Nat} (hk : m.kind = .red op fmt off) :
    smStep s m = contribute s m.grp x m op fmt off := by
  unfold smStep
  simp [hx, hc, hm, hr, hk]

end

/-- The number that the switch gives leaves the group open, but for the last. -/
theorem number_open {x : Group} (hc : x.closed = false) (hn : x.next < 0xFFFFFFFF) :
    number x = (x.next, { x with next := x.next + 1 }) := by
  unfold number
  rw [hc, decide_eq_false (Nat.not_le.2 hn), Bool.or_false, ← hc]

/-- An entry for this package leaves at once where the switch holds its credit (log 97). -/
theorem entryOut_leaves {s : State} {g p : Nat} {x : Group} (n : Nat) (e : SmEntry) (hp : p = s.pkg) (hg : groupOf s g = some x)
    (howed : SMap.getD x.owed p 0 < 64) (hq : x.queue = []) : entryOut s g n e p =
      cause (setGroup s g (some { x with owed := SMap.set x.owed p (SMap.getD x.owed p 0 + 1) })) (.smgEntryArrive g n e) := by
  have hcredit : (SMap.getD x.owed p 0 < smCredit && !(x.queue.any fun q => q.1 = p)) = true := by
    simp [hq, smCredit, howed]
  unfold entryOut
  rw [hg]
  dsimp only
  rw [if_pos hcredit]
  exact if_pos hp

/-- An entry for the one member, of this package, waits for its acknowledgement alone. -/
theorem sendEntry_member {s : State} {g n j : Nat} {x : Group} (e : SmEntry) (cmds : List SmMsg) (hm : x.members = [(s.pkg, j)])
    (hj : j ≤ n) (howed : SMap.getD x.owed s.pkg 0 < 64) (hq : x.queue = []) :
    (sendEntry s g n x e cmds).pending = s.pending ++ [⟨none, .smgEntryArrive g n e⟩]
      ∧ groupOf (sendEntry s g n x e cmds) g = some { x with
          wait := x.wait ++ [(n, [s.pkg], cmds)], owed := SMap.set x.owed s.pkg (SMap.getD x.owed s.pkg 0 + 1) } := by
  have hdst : (x.members.filter fun m => m.2 ≤ n).map (·.1) = [s.pkg] := by simp [hm, hj]
  have hout := entryOut_leaves (p := s.pkg) (s := setGroup s g (some { x with wait := x.wait ++ [(n, [s.pkg], cmds)] })) n e rfl
    (groupOf_setGroup ..) howed hq
  unfold sendEntry
  rw [hdst]
  simp only [List.isEmpty_cons, Bool.false_eq_true, if_false, List.foldl_cons, List.foldl_nil]
  rw [hout]
  exact ⟨rfl, groupOf_setGroup ..⟩

/-- The last contribution that a round of one member expects closes it: the folded result leaves (R189). -/
theorem pending_contribute {s : State} {m : SmMsg} {x : Group} {r : Round} {op : SmOp} {fmt : SmFmt} {off j : Nat}
    (hpkg : m.pkg = s.pkg) (hc : x.closed = false) (hn : x.next < 0xFFFFFFFF) (hm : x.members = [(s.pkg, j)]) (hj : j ≤ x.next)
    (howed : SMap.getD x.owed s.pkg 0 < 64) (hq : x.queue = []) (hr : x.round = some r) (hheld : x.held = [])
    (hop : r.op = op) (hfmt : r.fmt = fmt) (hoff : r.off = off) (hwant : r.want = [s.pkg])
    (hlen : ∀ z ∈ r.data, z.data.length = m.data.length) :
    (contribute s m.grp x m op fmt off).1 = [] ∧ (contribute s m.grp x m op fmt off).2.pending = s.pending ++
      [⟨none, .smgEntryArrive m.grp x.next (.dir off (roundResult { r with data := r.data ++ [m] }))⟩] := by
  have hfits : (r.op = op && r.fmt = fmt && r.off = off && (r.data.all fun d => d.data.length = m.data.length)) = true := by
    simp [hop, hfmt, hoff]
    exact hlen
  have hpend : (smFlags s m (roundFlags r m)).pending = s.pending := congrArg Prod.fst (toCome_smFlags s m (roundFlags r m))
  have hsame : (smFlags s m (roundFlags r m)).pkg = s.pkg := congrArg Prod.snd (toCome_smFlags s m (roundFlags r m))
  unfold contribute
  simp only [hr, hfits, hwant, hpkg, number_open hc hn, hheld, closeRound, List.contains_cons, List.contains_nil, beq_self_eq_true,
    Bool.or_false, Bool.not_true, Bool.false_eq_true, if_false, if_true, bne_self_eq_false, List.filter_cons, List.filter_nil,
    List.isEmpty_nil, true_and]
  have hsent := sendEntry_member (s := smFlags s m (roundFlags r m)) (g := m.grp) (n := x.next)
    (x := { x with next := x.next + 1, round := none, held := [] }) (.dir r.off (roundResult { r with data := r.data ++ [m] }))
    (r.data ++ [m]) (hsame ▸ hm) hj (hsame ▸ howed) hq
  rw [← hoff, ← hpend]
  exact hsent.1

/-! ### Entries at a member (R155, R188) -/

/-- A member of a group replaced. -/
def setMember (s : State) (g : Nat) (y : Member) : State :=
  { s with fab := { s.fab with member := SMap.set s.fab.member g y } }

theorem get?_setMember (s : State) (g : Nat) (y : Member) : SMap.get? (setMember s g y).fab.member g = some y :=
  SMap.get?_set_self ..

section
variable {s : State} {g n : Nat} {y : Member} (e : SmEntry) (hy : SMap.get? s.fab.member g = some y)
include hy

theorem entryArrive_applied (h : n < y.nextN) : entryArrive s g n e = cause s (.smgMemberAck g s.pkg n) := by
  unfold entryArrive
  simp only [hy, if_pos h]

variable (hahead : y.ahead = []) (h : y.nextN ≤ n)
include hahead h

theorem entryArrive_kept : entryArrive s g n e = applyAll (setMember s g { y with ahead := [(n, e)] }) g 2 := by
  unfold entryArrive
  simp only [hy, hahead, if_neg (Nat.not_lt.2 h)]
  rfl

end

/-- An entry ahead of its turn waits. -/
theorem applyAll_waits {s : State} {g n : Nat} {y : Member} {e : SmEntry} (k : Nat) (hy : SMap.get? s.fab.member g = some y)
    (hahead : y.ahead = [(n, e)]) (h : y.nextN < n) : applyAll s g (k + 1) = s := by
  have hnone : SMap.get? y.ahead y.nextN = none := by
    rw [hahead, SMap.get?, if_neg (by omega), if_pos h]
  unfold applyAll
  simp only [hy, hnone]

/-- The only entry that waits is applied and acknowledged in its turn. -/
theorem applyAll_turn {s : State} {g : Nat} {y : Member} {e : SmEntry} (hy : SMap.get? s.fab.member g = some y)
    (hahead : y.ahead = [(y.nextN, e)]) (hleave : y.leave = none) : applyAll s g 2 =
      setMember (cause (applyEntry s y y.nextN e) (.smgMemberAck g s.pkg y.nextN)) g { y with nextN := y.nextN + 1, ahead := [] } := by
  have hget : SMap.get? y.ahead y.nextN = some e := by rw [hahead, SMap.get?, if_pos rfl]
  have hrest : SMap.erase y.ahead y.nextN = [] := by rw [hahead, SMap.erase, if_pos rfl]
  have hstop (u : State) : applyAll (setMember u g { y with nextN := y.nextN + 1, ahead := [] }) g 1 =
      setMember u g { y with nextN := y.nextN + 1, ahead := [] } := by
    unfold applyAll
    rw [get?_setMember]
    rfl
  unfold applyAll
  rw [hy]
  dsimp only
  rw [hget]
  dsimp only
  rw [hrest, if_neg (by rw [hleave]; exact nofun)]
  exact hstop _

theorem pending_applyEntry (s : State) (y : Member) (n : Nat) (e : SmEntry) : (applyEntry s y n e).pending = s.pending := by
  have hput (u : State) (pa : Nat) (d : List Byte) : (hbmPut u none pa d).pending = u.pending :=
    congrArg Prod.fst (same_hbmWrite besideMemory_toCome u none pa (d.map some))
  cases e with
  | empty => exact hput ..
  | dir off d => exact (hput ..).trans (hput ..)
  | log pkg ctx d => exact (hput ..).trans (hput ..)

/-- A stored entry applied: its payload in its place of the window, its number in the window's first word (R188). -/
theorem reads_applyEntry {s : State} {y : Member} {n off : Nat} {d : List Byte} (hs : memOk s = true)
    (hp : plainHbm s y.pa (2 ^ y.k * 65536)) (hlo : 8 ≤ off) (hhi : off + d.length ≤ 2 ^ y.k * 65536) (a : Nat) :
    Memory.read (applyEntry s y n (.dir off d)).hbm.mem a =
      if y.pa + off ≤ a ∧ a < y.pa + off + d.length then d.getD (a - y.pa - off) 0
      else if y.pa ≤ a ∧ a < y.pa + 8 then BitVec.ofNat 8 (n / 2 ^ (8 * (a - y.pa))) else Memory.read s.hbm.mem a := by
  have hlen : ((leBytes n 8).map some).length = 8 := by simp
  have hdata : WroteHbm s (hbmPut s none (y.pa + off) d) (byteAt (y.pa + off) (d.map some)) :=
    wroteHbm_hbmWrite none _ _ hs fun a ha hb => cleanSec_of_plainHbm hp (by omega) (by rw [List.length_map] at hb; omega)
  have hlast := wroteHbm_hbmWrite none y.pa ((leBytes n 8).map some) (memOk_hbmPut (q := none) (pa := y.pa + off) (bs := d) hs)
    fun a ha hb => hdata.clean _ (cleanSec_of_plainHbm hp ha (by omega))
  have hreads := (hdata.trans hlast).reads a
  refine hreads.trans ?_
  rw [byteAt_leBytes]
  by_cases hin : y.pa + off ≤ a ∧ a < y.pa + off + d.length
  · rw [if_pos hin, if_neg (by omega), byteAt, if_pos hin.1, Nat.sub_sub]
    simp [List.getD_eq_getElem?_getD, show a - (y.pa + off) < d.length by omega]
  · rw [if_neg hin, byteAt_outside (pa := y.pa + off) (by rw [List.length_map]; omega)]
    split <;> rfl

/-! ### Acknowledgements (R188, R391) -/

theorem creditBack_idle {s : State} {g p : Nat} {x : Group} (hx : groupOf s g = some x) (hq : x.queue = []) :
    creditBack s g p = setGroup s g (some { x with owed := SMap.set x.owed p (SMap.getD x.owed p 0 - 1) }) := by
  unfold creditBack
  simp only [hx, hq, List.find?_nil]

section
variable {s : State} {g n p : Nat} {x : Group} (hx : groupOf s g = some x) (hq : x.queue = [])
include hx hq

/-- The last member's acknowledgement of an entry completes the command that waits for it. -/
theorem memberAck_last {m : SmMsg} (hw : x.wait = [(n, [p], [m])]) : memberAck s g p n =
    smTell (setGroup (setGroup s g (some { x with wait := [] })) g
      (some { x with wait := [], owed := SMap.set x.owed p (SMap.getD x.owed p 0 - 1) })) m none := by
  have hback := creditBack_idle (p := p) (groupOf_setGroup s g { x with wait := [] }) hq
  unfold memberAck
  simp only [hx, hw]
  simp [hback]

theorem memberAck_first {q : Nat} {cmds : List SmMsg} (hpq : p ≠ q) (hw : x.wait = [(n, [p, q], cmds)]) : memberAck s g p n =
    setGroup (setGroup s g (some { x with wait := [(n, [q], cmds)] })) g
      (some { x with wait := [(n, [q], cmds)], owed := SMap.set x.owed p (SMap.getD x.owed p 0 - 1) }) := by
  have hback := creditBack_idle (p := p) (groupOf_setGroup s g { x with wait := [(n, [q], cmds)] }) hq
  unfold memberAck
  simp only [hx, hw]
  simp [hpq.symm, hback]

end

section
variable {s : State} {core id : Nat} {c : SCmd} (hc : (engOf s core).sq.find? (fun c => c.id = id) = some c)
include hc

theorem sqDone_counts : sqDone s core id none =
    countEv (setEng s core fun e => { e with sq := e.sq.filter fun c => c.id != id }) c.ctx c.tid c.ev := by
  unfold sqDone
  simp only [hc]

theorem sqDone_faults (sub : Nat) : sqDone s core id (some sub) =
    engineFault (setEng s core fun e => { e with sq := e.sq.map fun c => if c.id = id then { c with fault := some sub } else c })
      c.ctx c.tid core (.scmd id) c.queue (qAsid s c.queue) 3 c.cmdno sub 0 0 (sqStatus c) := by
  unfold sqDone
  simp only [hc]
  rfl

end

/-! ### The steps -/

/-- A write of `smgcmd`, whichever operation it asks for (R186). -/
theorem smgWrite_asked {s : State} {w : Word} {b : Writer} (e : Ev)
    (he : exec e.row (given s e) = .next (smgWrite (given s e) w b)) :
    (s.fab.cmd = none → w.getLsbD 62 = true → w.toNat / 2 ^ 60 % 4 ≠ 3 → mayWrite 0xF00001530000 b = true →
        ∃ t, does e s t ∧ t.fab.cmd = some w)
      ∧ (s.fab.cmd.isSome = true → b ≠ .peer → does e s (given s e)) ∧ (b = .task → does e s (given s e))
      ∧ (b = .peer → w.getLsbD 62 = true → w.toNat / 2 ^ 60 % 4 ≠ 3 → does e s (smgRun (given s e) w 0).2) := by
  refine ⟨fun hcmd hgo hop hb => ⟨_, he, smgWrite_begins (s := given s e) hcmd hgo hop hb⟩, fun hbusy hpeer => ?busy, ?task, ?peer⟩
  case busy =>
    refine he.trans (congrArg _ (smgWrite_ignored hpeer ?_))
    rw [show (given s e).fab.cmd.isSome = true from hbusy, Bool.true_or]
  case task =>
    rintro rfl
    exact he.trans (congrArg _ (smgWrite_ignored (by decide) (Bool.or_true _)))
  case peer =>
    rintro rfl hgo hop
    exact he.trans (congrArg _ (smgWrite_peer hgo hop))

/-- What the management core reads, and the groups, once the switch has answered. -/
theorem smgcmd_answered {s u : State} {w : Word} {st z : Nat} {P : State → Prop} (hcmd : s.fab.cmd = some w)
    (hrun : smgRun (given s (.smgcmdAnswer st)) w st = (z, u)) (hP : ∀ t, t.fab.group = u.fab.group → P t) :
    ∃ t, does (.smgcmdAnswer st) s t ∧ t.fab.cmd = none ∧ devGet t 0xF00001530008 = BitVec.ofNat 64 z ∧ P t := by
  obtain ⟨hnone, hstat, hgroup⟩ := smgAnswer_spec (s := given s _) hcmd hrun
  exact ⟨_, rfl, hnone, hstat, hP _ hgroup⟩

/-- What a command of this package that the switch takes does, from the state in which it is no longer stopped. -/
theorem switch_takes {s : State} {m : SmMsg} {off : Nat} {op : SmOp} {fmt : SmFmt} {P : State → Prop} (hpkg : m.pkg = s.pkg)
    (hk : m.kind = .dir off ∨ m.kind = .red op fmt off)
    (hstep : ∀ t, t.fab = s.fab → t.pkg = s.pkg → t.pending = s.pending → ∃ u, smStep t m = ([], u) ∧ P u) :
    ∃ t, does (.switchSequence m) s t ∧ P t := by
  refine ⟨_, execSwitchSequence_command (s := given s _) rfl hk, ?_⟩
  rw [smClear_here (s := given s _) hpkg]
  obtain ⟨u, hu, hP⟩ := hstep (setEng (given s _) (coreOf m.ctx) fun e =>
    { e with sq := e.sq.map fun c => if c.id = m.cmd then { c with fault := none } else c }) rfl rfl rfl
  rwa [smCommand_alone hu]

/-- A command of this package that the switch turns away ends with its error. -/
theorem switch_ends {s : State} {m : SmMsg} {off : Nat} {op : SmOp} {fmt : SmFmt} {err : Option Nat} (hpkg : m.pkg = s.pkg)
    (hk : m.kind = .dir off ∨ m.kind = .red op fmt off)
    (hstep : ∀ t, t.fab = s.fab → smStep t m = ([], smTell t m err)) :
    ∃ t, does (.switchSequence m) s t ∧ t.pending = s.pending ++ [⟨none, .sequencedCommandComplete (coreOf m.ctx) m.cmd err⟩] :=
  switch_takes hpkg hk fun t hfab htpkg hpend =>
    ⟨_, hstep t hfab, (pending_smTell err (hpkg.trans htpkg.symm)).trans (congrArg (· ++ _) hpend)⟩

/-! ### The obligation -/

/-- Settles O50: each step is the switch's, the member's or the management core's reading of its row. -/
theorem multicastGroupsAreSequenced : Obligations.MulticastGroupsAreSequenced := by
  intro s w b st g n off j core id sub x m y r op fmt d e cmds p q c
  refine ⟨smgWrite_asked _ rfl, smgWrite_asked _ rfl, smgWrite_asked _ rfl, fun hcmd => ⟨?unreachable, fun hst => ⟨fun hop => ?opens,
    fun hop hx => ?closes, fun hop hx hsw => ?destroys⟩⟩, fun hx hk hpkg => ?switch, fun hy hahead hleave => ?member,
    fun hx hq => ⟨fun hw hpkg => ?last, fun hw hpq => ?first⟩, fun hc => ⟨?done, ?fault⟩⟩
  case unreachable =>
    rintro rfl
    exact smgcmd_answered hcmd (smgRun_unreachable ..) fun t ht => ht
  case opens =>
    have hrun := smgRun_create (s := given s (.smgcmdAnswer st)) hst hop
    rw [show groupOf (given s (.smgcmdAnswer st)) = groupOf s from rfl] at hrun
    refine ⟨fun hnone hk => ?_, fun hnone hk => ?_, fun hsome => ?_⟩
    · rw [hnone, if_neg (by simp), if_neg (by omega)] at hrun
      exact smgcmd_answered hcmd hrun fun t ht => (congrArg (SMap.get? · _) ht).trans (SMap.get?_set_self ..)
    · rw [hnone, if_neg (by simp), if_pos hk] at hrun
      exact smgcmd_answered hcmd hrun fun t ht => ht
    · rw [if_pos hsome] at hrun
      exact smgcmd_answered hcmd hrun fun t ht => ht
  case closes =>
    have hrun := smgRun_close (s := given s (.smgcmdAnswer st)) hst hx hop
    constructor
    · intro hsw
      rw [if_neg (by simpa using hsw)] at hrun
      refine smgcmd_answered hcmd hrun fun t ht => ?_
      rw [groupOf, ht, same_foldl (p := State.fab) fun u z => fab_smTell u z _]
      exact groupOf_setGroup ..
    · intro hsw
      rw [if_pos (bne_iff_ne.2 hsw)] at hrun
      exact smgcmd_answered hcmd hrun fun t ht => ht
  case destroys =>
    have hrun := smgRun_destroy (s := given s (.smgcmdAnswer st)) hst hx hop hsw
    refine ⟨fun hopen => ?_, fun hclosed hm => ?_, fun hclosed hm => ?_⟩
    · rw [hopen, if_pos (by rfl)] at hrun
      exact smgcmd_answered hcmd hrun fun t ht => ht
    · rw [hclosed, if_neg (by simp), if_pos (by simpa using hm)] at hrun
      exact smgcmd_answered hcmd hrun fun t ht => ht
    · rw [hclosed, hm, if_neg (by simp), if_neg (by simp)] at hrun
      refine smgcmd_answered hcmd hrun fun t ht => ht.trans ?_
      rw [same_foldl (p := State.fab) fun u z => fab_cause u _]
      rfl
  case switch =>
    have hx (t : State) (ht : t.fab = s.fab) : groupOf t m.grp = some x := by rwa [groupOf, ht]
    refine ⟨fun hc => ?_, fun hc hm => ?_, fun hc hm hr => ?_, fun hc hm hj hn hr howed hq => ⟨fun hdir => ?_,
      fun hred hround hheld hop hfmt hoff hwant hlen => ?_⟩⟩
    · exact switch_ends hpkg hk fun t ht => smStep_closed (hx t ht) hc
    · exact switch_ends hpkg hk fun t ht => smStep_stranger (hx t ht) hc hm
    · exact switch_ends hpkg hk fun t ht => smStep_range (hx t ht) hc (hpkg ▸ hm) hr
    · refine switch_takes hpkg hk fun t ht htpkg hpend => ⟨_, smStep_dir (hx t ht) hc (hpkg ▸ hm) hr hdir, ?_⟩
      rw [number_open hc hn, ← hpend, ← htpkg]
      exact sendEntry_member _ _ (htpkg ▸ hm) hj (htpkg ▸ howed) hq
    · refine switch_takes hpkg hk fun t ht htpkg hpend => ?_
      obtain ⟨hfree, hsent⟩ := pending_contribute (hpkg.trans htpkg.symm) hc hn (htpkg ▸ hm) hj (htpkg ▸ howed) hq hround hheld
        hop hfmt hoff (htpkg ▸ hwant) hlen
      exact ⟨_, (smStep_red (hx t ht) hc (hpkg ▸ hm) hr hred).trans (Prod.ext hfree rfl), hpend ▸ hsent⟩
  case member =>
    refine ⟨fun hlt => ?_, fun hlt => ?_, fun heq hs hp hlo hhi => ?_⟩
    · exact ⟨_, congrArg Host.Outcome.next (entryArrive_applied (s := given s _) e hy hlt), rfl, rfl⟩
    · refine ⟨_, congrArg Host.Outcome.next ((entryArrive_kept (s := given s _) e hy hahead (by omega)).trans
        (applyAll_waits 1 (get?_setMember ..) rfl hlt)), rfl, rfl, get?_setMember ..⟩
    · subst heq
      refine ⟨_, congrArg Host.Outcome.next ((entryArrive_kept (s := given s _) (.dir off d) hy hahead (Nat.le_refl _)).trans
        (applyAll_turn (get?_setMember ..) rfl hleave)), ?_, ?_, ?_⟩
      · exact congrArg (· ++ _) (pending_applyEntry ..)
      · exact (get?_setMember ..).trans (by rw [← hahead])
      · exact reads_applyEntry (s := setMember (given s _) g _) hs hp hlo hhi
  case last =>
    refine ⟨_, congrArg Host.Outcome.next (memberAck_last (s := given s _) hx hq hw), ?_, pending_smTell none hpkg⟩
    rw [groupOf, fab_smTell]
    exact groupOf_setGroup ..
  case first =>
    exact ⟨_, congrArg Host.Outcome.next (memberAck_first (s := given s _) hx hq hpq hw), groupOf_setGroup .., rfl⟩
  case done => exact congrArg Host.Outcome.next (sqDone_counts (s := given s _) hc)
  case fault => exact congrArg Host.Outcome.next (sqDone_faults (s := given s _) hc sub)

end Sys2Proof.Machine
end

section
/-! PROOF. What write-backs and fills change (O22, O24, O46): nothing but the caches, the memory below them, the far writes on the
way, and what leaves a CLC for the room (R76, R90, R139 to R141). -/
namespace Sys2Proof.Machine
open Sys2Proof.Claims

section
variable {α : Type} {p : State → α}

/-! ### Plain lines of a CLC (R76, R90, R141) -/

/-- A part of a state that a CLC, what leaves it and the memory below it are not in. -/
structure BesideClc (p : State → α) : Prop extends BesideMemory p where
  clc (s : State) c : p { s with clc := c } = p s
  tiles (s : State) l v : p { s with tiles := { s.tiles with clc := l, victims := v } } = p s
  free (s : State) n : p { s with free := n } = p s
  completion (s : State) c :
    p (cause { s with ctx := SMap.modify s.ctx c {} fun x => { x with farOut := x.farOut + 1 } } (.cxlCompletion c [])) = p s

section
variable (hp : BesideClc p)
include hp

theorem same_setClc (s : State) (cl ln : Nat) (l : Option Line) : p (setClc s cl ln l) = p s := hp.clc ..
theorem same_setClcT (s : State) (cl : Nat) (l : List TLine) : p (setClcT s cl l) = p s := hp.tiles ..
theorem same_homeWriteFor (s : State) (cs : List Nat) (q : Option Nat) (pa : Nat) (bs : List (Option Byte)) :
    p (homeWrite s cs q pa bs) = p s := same_homeWrite hp.toBesideMemory (fun s c _ => hp.completion s c) s q pa bs

theorem same_clcWriteBackM (s : State) (cl ln : Nat) (m : BitVec 128) : p (clcWriteBackM s cl ln m) = p s := by
  unfold clcWriteBackM
  split
  · rfl
  · exact same_ite rfl ((same_setClc hp ..).trans (same_homeWriteFor hp ..))
theorem same_clcWriteBack (s : State) (cl ln : Nat) : p (clcWriteBack s cl ln) = p s := same_clcWriteBackM hp ..

theorem same_clcDropPlain {s t : State} {cl : Nat} (h : clcDropPlain s cl = some t) : p t = p s := by
  unfold clcDropPlain at h
  dsimp only at h
  split at h
  · cases h
  · obtain ⟨e, -, rfl⟩ := Option.map_eq_some_iff.1 h
    exact (same_setClc hp ..).trans ((same_clcWriteBack hp ..).trans (hp.free ..))
theorem same_clcDropTile {s t : State} {cl : Nat} (h : clcDropTile s cl = some t) : p t = p s := by
  unfold clcDropTile at h
  split at h
  · cases h
  · split at h
    · cases h
      exact same_setClcT hp ..
    · split at h
      · cases h
        exact (hp.tiles ..).trans (same_setClcT hp ..)
      · cases h

theorem same_clcEvict {s t : State} {cl : Nat} (h : clcEvict s cl = some t) : p t = p s := by
  have hdraw : p (draw s).2 = p s := hp.free ..
  unfold clcEvict at h
  dsimp only at h
  split at h <;> rcases (Option.orElse_eq_some ..).1 h with h | ⟨-, h⟩
  · exact (same_clcDropPlain hp h).trans hdraw
  · exact (same_clcDropTile hp h).trans hdraw
  · exact (same_clcDropTile hp h).trans hdraw
  · exact (same_clcDropPlain hp h).trans hdraw

theorem same_clcMake {s t : State} {cl lines segs tags n : Nat} (h : clcMake s cl lines segs tags n = some t) : p t = p s := by
  induction n generalizing s with
  | zero =>
    unfold clcMake at h
    split at h
    · cases h
      rfl
    · cases h
  | succ n ih =>
    unfold clcMake at h
    split at h
    · cases h
      rfl
    · split at h
      · next hu => exact (ih h).trans (same_clcEvict hp hu)
      · cases h

theorem same_clcFill (s : State) (cl ln : Nat) (l : Line) : p (clcFill s cl ln l) = p s := by
  unfold clcFill
  split
  · next h => exact (same_setClc hp ..).trans (same_clcMake hp h)
  · rfl

theorem same_clcEnsure (s : State) (cl ln : Nat) : p (clcEnsure s cl ln).2 = p s := by
  have hfill (t : State) (l : Line) (h : p t = p s) : p (clcFill (homeRead t (ln * 128) 128).2.2 cl ln l) = p s :=
    (same_clcFill hp ..).trans ((same_homeRead hp.toBesideMemory ..).trans h)
  unfold clcEnsure
  dsimp only
  split
  · split
    · rfl
    · exact hfill _ _ ((same_setClc hp ..).trans (same_clcWriteBack hp ..))
  · exact hfill _ _ rfl
theorem same_clcPut (s : State) (core : Nat) (cs : List Nat) (q : Option Nat) (ln : Nat) (data : BitVec 1024) (m : BitVec 128) :
    p (clcPut s core cs q ln data m) = p s := by
  unfold clcPut
  dsimp only
  exact same_ite ((same_setClc hp ..).trans (same_clcEnsure hp ..)) ((same_homeWriteFor hp ..).trans (same_clcEnsure hp ..))
theorem same_clcMark (s : State) (core ln : Nat) : p (clcMark s core ln) = p s := by
  unfold clcMark
  split
  · exact same_ite rfl (same_setClc hp ..)
  · rfl
theorem same_clcFlush (s : State) (core : Nat) : p (clcFlush s core) = p s :=
  same_foldl (fun _ _ => same_ite (same_clcWriteBack hp ..) rfl) _ _
/-- The part of an acquire that makes lines of a CLC stale (R139, R140). -/
theorem same_staleClc (s : State) (core scope : Nat) : p (staleClc s core scope) = p s :=
  same_ite ((hp.clc ..).trans
    (same_ite ((hp.clc ..).trans (same_foldl (fun _ _ => same_clcWriteBack hp ..) _ _)) rfl)) rfl

end

/-! ### Plain lines of an L1D (R139, R141) -/

/-- A part of a state that no line of a cache, nor the memory below, is in. -/
structure BesideCaches (p : State → α) : Prop extends BesideClc p where
  setL1 (s : State) core ln l : p (setL1 s core ln l) = p s

section
variable (hp : BesideCaches p)
include hp

theorem same_l1WriteBackM (s : State) (core ln : Nat) (m : BitVec 128) : p (l1WriteBackM s core ln m) = p s := by
  unfold l1WriteBackM
  split
  · rfl
  · exact same_ite rfl ((hp.setL1 ..).trans
      (same_ite (same_homeWriteFor hp.toBesideClc ..) (same_clcPut hp.toBesideClc ..)))
theorem same_l1WriteBack (s : State) (core ln : Nat) : p (l1WriteBack s core ln) = p s := same_l1WriteBackM hp ..
theorem same_l1Flush (s : State) (core : Nat) : p (l1Flush s core) = p s :=
  same_foldl (fun _ _ => same_l1WriteBack hp ..) _ _
theorem same_l1Fill (s : State) (core ln : Nat) (l : Line) : p (l1Fill s core ln l) = p s := by
  unfold l1Fill
  refine same_ite (hp.setL1 ..) ?_
  dsimp only
  refine (hp.setL1 ..).trans ?_
  split
  · exact (hp.setL1 ..).trans ((same_l1WriteBack hp ..).trans (hp.free ..))
  · exact hp.free ..
theorem same_l1Ensure (s : State) (core ln : Nat) (noClc : Bool) : p (l1Ensure s core ln noClc).2 = p s := by
  have hfill (t : State) (h : p t = p s) : p (if noClc && !SMap.has (clcOf t (core / 8)).lines ln then
      let (bs, ps, u) := homeRead t (ln * 128) 128
      let l := { mkLine bs ps (gensL1 (l1Of u core)) with noClc := true }
      (l, l1Fill u core ln l)
    else
      let (c, u) := clcEnsure t (core / 8) ln
      let l : Line := { data := c.data, psn := c.psn, gens := gensL1 (l1Of u core), noClc := noClc }
      (l, l1Fill (clcMark u core ln) core ln l)).2 = p s := by
    split
    · exact (same_l1Fill hp ..).trans ((same_homeRead hp.toBesideMemory ..).trans h)
    · exact (same_l1Fill hp ..).trans ((same_clcMark hp.toBesideClc ..).trans ((same_clcEnsure hp.toBesideClc ..).trans h))
  unfold l1Ensure
  dsimp only
  split
  · split
    · rfl
    · exact hfill _ ((hp.setL1 ..).trans (same_l1WriteBack hp ..))
  · exact hfill s rfl

/-! ### Releases (R141) -/

theorem same_releaseAt (s : State) (core scope : Nat) : p (releaseAt s core scope) = p s := by
  have hl1 : p (if scope ≥ 2 then l1Flush s core else s) = p s := same_ite (same_l1Flush hp ..) rfl
  exact same_ite ((same_clcFlush hp.toBesideClc ..).trans hl1) hl1

end

/-! ### Reads and writes of a core (R139, R141), and acquires (R139, R140, R150) -/

/-- A part of a state that neither the caches, with their counters and their queued invalidations, nor the memory below is in. -/
structure BesideAcquires (p : State → α) : Prop extends BesideClc p where
  l1d (s : State) m : p { s with l1d := m } = p s
  l1q (s : State) q : p { s with l1q := q } = p s

variable (hp : BesideAcquires p)
include hp

theorem BesideAcquires.toBesideCaches : BesideCaches p := { hp.toBesideClc with setL1 := fun _ _ _ _ => hp.l1d .. }

theorem same_coreReadPiece (s : State) (core pa cp n : Nat) : p (coreReadPiece s core pa cp n).2.2 = p s := by
  unfold coreReadPiece
  exact same_ite_snd_snd (same_homeBytes hp.toBesideMemory ..)
    (same_ite_snd_snd ((same_clcMark hp.toBesideClc ..).trans (same_clcEnsure hp.toBesideClc ..))
      (same_l1Ensure hp.toBesideCaches ..))
theorem same_coreWritePiece (s : State) (c core : Nat) (q : Option Nat) (pa cp : Nat) (bs : List (Option Byte)) :
    p (coreWritePiece s c core q pa cp bs) = p s := by
  unfold coreWritePiece
  exact same_ite (same_homeWriteFor hp.toBesideClc ..)
    (same_ite (same_clcPut hp.toBesideClc ..) ((hp.l1d ..).trans (same_l1Ensure hp.toBesideCaches ..)))

theorem same_drainInvals (s : State) (core : Nat) : p (drainInvals s core) = p s := by
  refine (hp.l1q ..).trans (same_foldl (fun t ln => ?_) _ _)
  exact (same_setClc hp.toBesideClc ..).trans ((same_clcWriteBack hp.toBesideClc ..).trans
    ((hp.l1d ..).trans (same_l1WriteBack hp.toBesideCaches ..)))
theorem same_staleL1 (s : State) (core scope : Nat) : p (staleL1 s core scope) = p s :=
  same_ite ((hp.l1d ..).trans (same_ite ((hp.l1d ..).trans (same_l1Flush hp.toBesideCaches ..)) rfl)) rfl
theorem same_acquireAt (s : State) (core scope : Nat) : p (acquireAt s core scope) = p s := by
  rw [acquireAt_eq, same_staleClc hp.toBesideClc, same_staleL1 hp, same_drainInvals hp]

end

/-! ### What a core's accesses leave on the way (R131) -/

/-- The device registers, and the loads and stores on the way of every context. -/
def onTheWay (s : State) : SMap Word × (Nat → List Flight × List StorePart) :=
  (s.dev, fun c => ((ctxOf s c).flights, (ctxOf s c).stq))

theorem onTheWay_updCtx (s : State) (c : Nat) {f : Ctx → Ctx} (hf : ∀ x, ((f x).flights, (f x).stq) = (x.flights, x.stq)) :
    onTheWay (updCtx s c f) = onTheWay s := by
  unfold onTheWay
  congr 1
  funext d
  by_cases hd : d = c
  · rw [hd, ctxOf_updCtx_self, hf]
  · rw [ctxOf_updCtx_ne s f hd]

theorem besideAcquires_onTheWay : BesideAcquires onTheWay :=
  { hbm := fun _ _ => rfl, undo := fun _ _ => rfl, far := fun _ _ => rfl, farPsn := fun _ _ => rfl, clc := fun _ _ => rfl
    tiles := fun _ _ _ => rfl, free := fun _ _ => rfl, l1d := fun _ _ => rfl, l1q := fun _ _ => rfl
    completion := fun s c => onTheWay_updCtx s c (f := fun x => { x with farOut := x.farOut + 1 }) fun _ => rfl }

/-- The metering of requests is set in a device register. -/
theorem bsuOn_congr {s t : State} (h : onTheWay t = onTheWay s) : bsuOn t = bsuOn s := by
  have hdev : t.dev = s.dev := congrArg Prod.fst h
  unfold bsuOn devGet
  rw [hdev]
theorem flights_congr {s t : State} (h : onTheWay t = onTheWay s) (c : Nat) : (ctxOf t c).flights = (ctxOf s c).flights :=
  congrArg Prod.fst (congrFun (congrArg Prod.snd h) c)
theorem stq_congr {s t : State} (h : onTheWay t = onTheWay s) (c : Nat) : (ctxOf t c).stq = (ctxOf s c).stq :=
  congrArg Prod.snd (congrFun (congrArg Prod.snd h) c)
theorem settled_congr {s t : State} (h : onTheWay t = onTheWay s) (c : Nat) (hs : settled (ctxOf s c)) : settled (ctxOf t c) := by
  unfold settled allHere at *
  rwa [flights_congr h, stq_congr h]

end Sys2Proof.Machine
end

section
/-! PROOF. Widenings, mailbox writes and the host's ports (O46): what the anchor's release leaves of the sync variable, the bytes of a
write that lands, and the snoop filter of a channel through the host's accesses. -/
namespace Sys2Proof.Machine
open Sys2Proof.Claims

/-! ### Sync variables (R147) -/

theorem besideCaches_svt : BesideCaches State.svt :=
  { hbm := fun _ _ => rfl, undo := fun _ _ => rfl, far := fun _ _ => rfl, farPsn := fun _ _ => rfl, clc := fun _ _ => rfl
    tiles := fun _ _ _ => rfl, free := fun _ _ => rfl, completion := fun _ _ => rfl, setL1 := fun _ _ _ _ => rfl }

/-- A retroactive release changes no sync variable. -/
theorem svtOf_retroRelease (s : State) (old ctx n die sector : Nat) : svtOf (retroRelease s old ctx n) die sector = svtOf s die sector := by
  have hsvt : (retroRelease s old ctx n).svt = s.svt := same_foldl (fun _ _ => same_releaseAt besideCaches_svt ..) _ _
  unfold svtOf
  rw [hsvt]

/-- The entry of a sector replaced by another of the same sector. -/
theorem svtOf_setSvt {s : State} {die sector : Nat} {e f : SvtE} (h : svtOf s die sector = some e) (hf : f.sector = e.sector) :
    svtOf (setSvt s die f) die sector = some f := by
  have hsec : e.sector = sector := by simpa using List.find?_some h
  have hsame : ((fun x : SvtE => decide (x.sector = sector)) ∘ fun x : SvtE => if x.sector = f.sector then f else x) =
      fun x => decide (x.sector = sector) := by
    funext x
    simp only [Function.comp_apply]
    split <;> simp_all
  unfold svtOf setSvt
  rw [SMap.modify, SMap.getD_set_self, List.find?_map, hsame]
  rw [svtOf] at h
  rw [h, Option.map_some, if_pos hf.symm]

section
variable {s : State} {die sector n : Nat} {p : Nat × Nat} {e : SvtE} (h : svtOf s die sector = some e)
  (hw : e.widening = some (n, p.1, p.2))
include h hw

/-- The anchor's cores have released: the scope is wider. -/
theorem svtOf_widened (hpkg : e.apkg = s.pkg) : svtOf (widened s die sector) die sector =
    some { e with scope := n, widen := min (e.widen + 1) 65535, widening := none } := by
  unfold widened
  simp only [h, hw, if_pos hpkg]
  exact svtOf_setSvt ((svtOf_retroRelease ..).trans h) rfl

/-- An anchor's package elsewhere is asked for the release (logs 20 and 50). -/
theorem widened_asks (hpkg : e.apkg ≠ s.pkg) (hasks : s.fab.asks = []) : svtOf (widened s die sector) die sector = some e
    ∧ ∃ r ∈ (widened s die sector).fab.asks, r.2.pkg = e.apkg ∧ r.2.addr = sector * 32 ∧ r.2.arg = 19 := by
  have hsend (d : Nat) (k : Packet) : (gwSend s d k).2.svt = s.svt := by
    unfold gwSend
    exact same_ite rfl rfl
  unfold widened
  simp only [h, hw, if_neg hpkg, hasks, List.find?_nil]
  refine ⟨?_, _, List.mem_append_right _ List.mem_cons_self, rfl, rfl, rfl⟩
  rw [svtOf] at h ⊢
  rw [hsend]
  exact h

end

/-! ### Mailbox writes (R154, R355) -/

theorem mailboxes_mboxSettle (s : State) (w : MboxW) : ((mboxSettle s w).mbox, (mboxSettle s w).mboxW) = (s.mbox, s.mboxW) := by
  have hput (s : State) (c k i : Nat) (b : List Byte) (psn : Bool) :
      ((putPart s c k i b psn).mbox, (putPart s c k i b psn).mboxW) = (s.mbox, s.mboxW) := by
    unfold putPart
    dsimp only
    split
    · exact same_ite (p := fun t : State => (t.mbox, t.mboxW)) rfl rfl
    · rfl
  exact same_foldl (p := fun t : State => (t.mbox, t.mboxW)) (fun _ _ => hput ..) _ _

section
variable {s : State} {w : MboxW} {later : List MboxW} (h : s.mboxW = w :: later)
include h

theorem mboxDone_lands (hdue : w.land ≤ s.clk) : (mboxDone s 0).mbox = mboxLand s.mbox w ∧ (mboxDone s 0).mboxW = later := by
  have hmbox : (mboxSettle s w).mbox = s.mbox := congrArg Prod.fst (mailboxes_mboxSettle s w)
  have hmboxW : (mboxSettle s w).mboxW = s.mboxW := congrArg Prod.snd (mailboxes_mboxSettle s w)
  unfold mboxDone
  simp [h, hdue, hmbox, hmboxW]

theorem mboxDone_early (hdue : s.clk < w.land) : mboxDone s 0 = s := by
  unfold mboxDone
  simp [h, Nat.not_le.2 hdue]

end

/-- A stored list of bytes as its bytes within its bounds. -/
theorem byteAt_getD (pa : Nat) (bs : List (Option Byte)) (a : Nat) (b : Byte) : (byteAt pa bs a).getD b =
    if pa ≤ a ∧ a < pa + bs.length then (bs.getD (a - pa) none).getD b else b := by
  by_cases hin : pa ≤ a ∧ a < pa + bs.length
  · rw [if_pos hin, byteAt, if_pos hin.1]
  · rw [if_neg hin, byteAt_outside (by omega)]
    rfl

/-- A multicast as it lands in the first `k` mailboxes from an address (R154). -/
theorem read_eachMailbox {m : Memory} (hm : Memory.wf m = true) {box pa : Nat} {bs : List (Option Byte)} (hbox : box % 0x10000 = 0)
    (hend : pa + bs.length ≤ 0x10000) (k : Nat) :
    let m' := (List.range k).foldl (fun m i => Memory.store m (box + i * 0x10000 + pa) bs) m
    Memory.wf m' = true ∧ ∀ a, Memory.read m' a =
      if box ≤ a ∧ a < box + k * 0x10000 ∧ pa ≤ a % 0x10000 ∧ a % 0x10000 < pa + bs.length
      then (bs.getD (a % 0x10000 - pa) none).getD (Memory.read m a) else Memory.read m a := by
  induction k with
  | zero => exact ⟨hm, fun a => (if_neg (by omega)).symm⟩
  | succ k ih =>
    obtain ⟨hwf, hread⟩ := ih
    rw [List.range_succ, List.foldl_append]
    refine ⟨Memory.wf_store _ _ hwf, fun a => ?_⟩
    rw [List.foldl_cons, List.foldl_nil, Memory.read_store hwf, byteAt_getD, hread]
    by_cases hin : box + k * 0x10000 + pa ≤ a ∧ a < box + k * 0x10000 + pa + bs.length
    · rw [if_pos hin, if_neg (by omega), if_pos (by omega), show a % 0x10000 - pa = a - (box + k * 0x10000 + pa) by omega]
    · rw [if_neg hin]
      exact if_congr (by omega) rfl rfl

/-- A multicast lands in the eight mailboxes of its source's cluster. -/
theorem read_mboxLand_cast {m : Memory} (hm : Memory.wf m = true) {w : MboxW} (hc : w.cast = true)
    (hend : w.pa + w.data.length ≤ 0x10000) (a : Nat) : Memory.read (mboxLand m w) a =
      if 0xF00000000000 + w.core / 8 * 0x80000 ≤ a ∧ a < 0xF00000000000 + w.core / 8 * 0x80000 + 0x80000
        ∧ w.pa ≤ a % 0x10000 ∧ a % 0x10000 < w.pa + w.data.length
      then (w.data.getD (a % 0x10000 - w.pa) none).getD (Memory.read m a) else Memory.read m a := by
  have hland : mboxLand m w = (List.range 8).foldl (fun m i =>
      Memory.store m (0xF00000000000 + w.core / 8 * 0x80000 + i * 0x10000 + w.pa) w.data) m := by
    unfold mboxLand
    rw [if_pos hc]
    congr 1
    funext m i
    congr 1
    omega
  rw [hland]
  exact (read_eachMailbox hm (by omega) hend 8).2 a

/-! ### The snoop filter of a channel (R163) -/

theorem chanOf_granule (pa : Nat) : chanOf (pa / 64 * 64) = chanOf pa := by
  unfold chanOf bitsAt
  simp only [Nat.shiftRight_eq_div_pow]
  congr 2 <;> omega
theorem snoopOf_granule {s : State} {pa a : Nat} (h : a / 64 = pa / 64) : snoopOf s a = snoopOf s pa := by
  unfold snoopOf
  rw [← chanOf_granule a, ← chanOf_granule pa, h]

theorem snoopOf_setSnoop (s : State) (pa : Nat) (e : Option Snoop) (he : ∀ x ∈ e, x.gran = pa / 64) :
    snoopOf (setSnoop s pa e) pa = e := by
  have hgone (l : List Snoop) : (l.filter fun x => x.gran != pa / 64).find? (fun x => decide (x.gran = pa / 64)) = none := by
    rw [List.find?_eq_none]
    intro x hx
    simpa using (List.mem_filter.1 hx).2
  unfold snoopOf setSnoop
  rw [chan_setChan_self, List.find?_append, hgone, Option.none_or]
  cases e with
  | none => rfl
  | some x => simp [he x rfl]

theorem snoopOf_setSnoop_none (s : State) (pa : Nat) : snoopOf (setSnoop s pa none) pa = none :=
  snoopOf_setSnoop s pa none fun _ hx => nomatch hx

/-- What a read of HBM that the host does not hold leaves: the bytes, and every snoop filter. -/
def readKept (s : State) : Memory × (Nat → List Snoop) := (s.hbm.mem, fun n => (chan s n).snoop)

theorem readKept_setChan (s : State) (n : Nat) {f : Chan → Chan} (hf : ∀ c, (f c).snoop = c.snoop) :
    readKept (setChan s n f) = readKept s := by
  unfold readKept
  congr 1
  funext j
  by_cases hj : j = n
  · rw [hj, chan_setChan_self, hf]
  · rw [chan_setChan_ne s f hj]

theorem readKept_hbmReadSec {s : State} {sec : Nat} (h : snoopOf s (sec * 32) = none) :
    readKept (hbmReadSec s sec).2.2 = readKept s := by
  have hopen : readKept (activate (snoopRead s (sec * 32)) (sec * 32)) = readKept s := by
    unfold snoopRead
    rw [h]
    exact readKept_setChan s _ fun _ => rfl
  unfold hbmReadSec
  dsimp only
  split
  · exact hopen
  · split
    · exact (readKept_setChan _ _ (by exact fun _ => rfl)).trans hopen
    · split
      · exact (readKept_setChan _ _ (by exact fun _ => rfl)).trans hopen
      · exact hopen

theorem snoopOf_readKept {s t : State} (h : readKept t = readKept s) (pa : Nat) : snoopOf t pa = snoopOf s pa := by
  have hsnoop : (chan t (chanOf pa)).snoop = (chan s (chanOf pa)).snoop := congrFun (congrArg Prod.snd h) _
  unfold snoopOf
  rw [hsnoop]

theorem readKept_hbmReadSecs {s : State} {sec k : Nat} (h : ∀ i, i < k → snoopOf s ((sec + i) * 32) = none) :
    readKept (hbmReadSecs s sec k).2.2 = readKept s := by
  induction k generalizing s sec with
  | zero => rfl
  | succ k ih =>
    have hfirst : readKept (hbmReadSec s sec).2.2 = readKept s := readKept_hbmReadSec (h 0 (by omega))
    refine (ih (s := (hbmReadSec s sec).2.2) (sec := sec + 1) fun i hi => ?_).trans hfirst
    rw [snoopOf_readKept hfirst, Nat.add_assoc, Nat.add_comm 1 i]
    exact h (i + 1) (by omega)

/-- A filter with room takes a new granule without losing one. -/
theorem snoopRoom_free {s : State} {pa : Nat} (h : (chan s (chanOf pa)).snoop.length < 16384) : snoopRoom s pa = s := by
  unfold snoopRoom
  split
  · next e l hl =>
    rw [hl, List.length_cons] at h
    exact if_neg (by omega)
  · rfl

/-- A granule that nobody holds is read from HBM and entered for the host. -/
theorem hostRead_enters {s : State} {port ha pa : Nat} (own : Bool) (d : Option (BitVec 512)) (hpa : hdmPa s port ha = some pa)
    (hnone : snoopOf s pa = none) (hroom : (chan s (chanOf pa)).snoop.length < 16384) :
    snoopOf (hostRead s port ha own d) pa = some { gran := pa / 64, own := own, data := if own then d else none }
      ∧ (hostRead s port ha own d).hbm.mem = s.hbm.mem := by
  have hread : hostRead s port ha own d = setSnoop (hbmReadSecs s (pa / 64 * 2) 2).2.2 pa
      (some { gran := pa / 64, own := own, data := if own then d else none }) := by
    unfold hostRead
    simp only [hpa, hnone, snoopRoom_free hroom]
  rw [hread]
  refine ⟨snoopOf_setSnoop _ _ _ fun x hx => ?_, congrArg Prod.fst (readKept_hbmReadSecs fun i hi => ?_)⟩
  · rw [← Option.some.inj hx]
  · exact (snoopOf_granule (by omega)).trans hnone

/-! ### What the host modified (R163) -/

/-- A whole sector written to a channel that works takes its bytes, poisoned as it may have been (R109). -/
theorem read_chanWrite_whole {s : State} {sec : Nat} {bs : List (Option Byte)} (hs : memOk s = true)
    (hfail : (chan s (chanOf (sec * 32))).failed = false) (hlen : bs.length = 32) (hall : bs.all Option.isSome = true) (a : Nat) :
    Memory.read (chanWrite s none sec bs false).hbm.mem a = (byteAt (sec * 32) bs a).getD (Memory.read s.hbm.mem a) := by
  rw [chanWrite_eq, if_neg (by simp [hfail]), storeSec, hlen, hall, if_neg (by simp)]
  dsimp only
  rw [openSec_mem, Memory.read_store (memOk_hbmMem hs)]

/-- A granule of the host's data written to HBM: its 64 bytes, and no other. -/
theorem read_hostData {s : State} {gran : Nat} (v : BitVec 512) (hs : memOk s = true)
    (hfail : (chan s (chanOf (gran * 64))).failed = false) (a : Nat) :
    Memory.read (hostData s gran (some v)).hbm.mem a =
      if a / 64 = gran then BitVec.ofNat 8 (v.toNat / 2 ^ (8 * (a % 64))) else Memory.read s.hbm.mem a := by
  have hlow : 2 * gran * 32 = gran * 64 := by omega
  have hhigh : (2 * gran + 1) * 32 = gran * 64 + 32 := by omega
  have hchan : chanOf (gran * 64 + 32) = chanOf (gran * 64) := by
    rw [← chanOf_granule (gran * 64 + 32)]
    congr 1
    omega
  have hfirst := read_chanWrite_whole (sec := 2 * gran) (bs := ((leBytes v.toNat 64).map some).take 32) hs (by rw [hlow]; exact hfail)
    (by simp) (by simp [← List.map_take])
  have hkept := congrFun (congrArg Steady.failed (steady_chanWrite s none (2 * gran) (((leBytes v.toNat 64).map some).take 32)))
  have hsecond := read_chanWrite_whole (sec := 2 * gran + 1) (bs := ((leBytes v.toNat 64).map some).drop 32)
    (memOk_chanWrite (q := none) (sec := 2 * gran) (bs := ((leBytes v.toNat 64).map some).take 32) (psn := false) hs)
    ((hkept _).trans (by rw [hhigh, hchan]; exact hfail)) (by simp) (by simp [← List.map_drop])
  have hsplit := byteAt_split (gran * 64) 32 ((leBytes v.toNat 64).map some) (by simp) a
  rw [byteAt_leBytes] at hsplit
  show Memory.read (chanWrite (chanWrite s none (2 * gran) _ false) none (2 * gran + 1) _ false).hbm.mem a = _
  rw [hsecond, hfirst, hhigh, hlow]
  by_cases hin : a / 64 = gran
  · rw [if_pos (by omega), show a - gran * 64 = a % 64 by omega] at hsplit
    rw [if_pos hin, ← Option.getD_or, ← hsplit]
    rfl
  · rw [if_neg (by omega)] at hsplit
    rw [if_neg hin, ← Option.getD_or, ← hsplit]
    rfl

section
variable {s : State} {port ha pa : Nat} {h : Snoop} (hpa : hdmPa s port ha = some pa) (hh : snoopOf s pa = some h)
include hpa hh

/-- The host gives up a granule that it owned: what it modified reaches HBM. -/
theorem hostEvict_owned (v : BitVec 512) (hown : h.own = true) :
    hostEvict s port ha (some v) = setSnoop (hostData s (pa / 64) (some v)) pa none := by
  have hgran : h.gran = pa / 64 := by simpa using List.find?_some hh
  unfold hostEvict
  simp only [hpa, hh, hgran, hown, if_true]

theorem hostEvict_shared (d : Option (BitVec 512)) (hown : h.own = false) : hostEvict s port ha d = setSnoop s pa none := by
  unfold hostEvict
  simp only [hpa, hh, hown, Bool.false_eq_true, if_false]
  rfl

end

/-! ### Completions of far writes (R168) -/

theorem cxlDone_spec (s : State) (c : Nat) (l : List (Nat × Nat × BitVec 8)) :
    ctxOf (cxlDone s c l) c = { ctxOf s c with
        farOut := (ctxOf s c).farOut - 1, cwb := if (ctxOf s c).farOut ≤ 1 then 0 else (ctxOf s c).cwb }
      ∧ (cxlDone s c l).hbm = s.hbm := by
  have hshared := same_foldl (p := fun t : State => (t.ctx, t.hbm)) (f := fun t (e : Nat × Nat × BitVec 8) =>
    if e.1 = 0 then t else { t with far := SMap.modify t.far e.1 [] fun m => Memory.write m e.2.1 e.2.2 })
    (fun t e => same_ite (p := fun t : State => (t.ctx, t.hbm)) rfl rfl) l s
  unfold cxlDone
  constructor
  · rw [ctxOf_updCtx_self, ctxOf, show State.ctx _ = s.ctx from congrArg Prod.fst hshared]
    rfl
  · exact congrArg Prod.snd hshared

/-! ### The obligation -/

/-- Settles O46: each step is its row's reading of the SVT, of the mailboxes, or of the snoop filters. -/
theorem wideningsMailboxesAndHostPorts : Obligations.WideningsMailboxesAndHostPorts := by
  intro s die sector port ha pa c e n p w later h d v
  refine ⟨fun he hw => ⟨fun hpkg => ⟨_, rfl, svtOf_widened (s := given s _) he hw hpkg⟩,
      fun hpkg hasks => ⟨_, rfl, widened_asks (s := given s _) he hw hpkg hasks⟩⟩,
    fun hW => ⟨fun hdue => ?lands, fun hdue => ?early, fun hs => ⟨fun hc => ?one, fun hc hend => ?eight⟩⟩,
    fun hpa hnone hroom => ⟨⟨_, rfl, hostRead_enters (s := given s _) false none hpa hnone hroom⟩,
      ⟨_, rfl, hostRead_enters (s := given s _) true d hpa hnone hroom⟩⟩,
    fun hpa hh hs hfail => ⟨fun hown => ?written, fun hown => ?dropped⟩, rfl, fun l => ⟨_, rfl, cxlDone_spec (given s _) c l⟩⟩
  case lands =>
    rintro e (rfl | rfl)
    · exact ⟨_, rfl, mboxDone_lands (s := given s _) hW hdue⟩
    · exact ⟨_, rfl, mboxDone_lands (s := given s _) hW hdue⟩
  case early =>
    exact ⟨congrArg Host.Outcome.next (mboxDone_early (s := given s _) hW hdue),
      congrArg Host.Outcome.next (mboxDone_early (s := given s _) hW hdue)⟩
  case one =>
    intro a
    rw [mboxLand, hc, if_neg Bool.false_ne_true, Memory.read_store (memOk_mbox hs), byteAt_getD]
  case eight => exact read_mboxLand_cast (memOk_mbox hs) hc hend
  case written =>
    refine ⟨_, congrArg Host.Outcome.next (hostEvict_owned (s := given s _) hpa hh v hown), snoopOf_setSnoop_none .., ?_⟩
    exact read_hostData (s := given s _) v hs ((congrArg (fun n => (chan s n).failed) (chanOf_granule pa)).trans hfail)
  case dropped =>
    exact ⟨_, congrArg Host.Outcome.next (hostEvict_shared (s := given s _) hpa hh d hown), snoopOf_setSnoop_none .., rfl⟩

end Sys2Proof.Machine
end

section
/-! PROOF. Acquiring loads and releasing stores (O22): the load that an `lda` leaves in flight and its performance, and the release
and the store of an `stl`. -/
namespace Sys2Proof.Machine
open Sys2Proof.Claims

theorem scopeAt_known {ps : List Piece} {k : Nat} (hk : k ≠ 7) (s : State) : scopeAt ps k s = (.ok k, s) := by
  unfold scopeAt
  split
  · rfl
  · unfold resolve
    rw [if_pos (by simpa using hk)]
    rfl

/-! ### `lda` (R134, R279) -/

/-- An acquiring load put in flight: what the context and the trace become. -/
def acqLoading (s : State) (d : Dst) (l : List LoadPart) (w : Width) (k : Nat) : State :=
  upd (trOverlap s d) fun x => flyLoad x d l (some w) 1 8 (some k)

theorem acqLoading_frame (s : State) (d : Dst) (l : List LoadPart) (w : Width) (k : Nat) : acqLoading s d l w k = { s with
    ctx := (acqLoading s d l w k).ctx, dev := (acqLoading s d l w k).dev, trace := (acqLoading s d l w k).trace
    free := (acqLoading s d l w k).free } := by
  unfold acqLoading
  rw [trOverlap_frame]
  rfl
theorem ctxOf_acqLoading {s : State} {c : Nat} (d : Dst) (l : List LoadPart) (w : Width) (k : Nat) (h : c ≠ s.cur) :
    ctxOf (acqLoading s d l w k) c = ctxOf s c := by
  unfold acqLoading
  rw [ctxOf_upd_ne _ _ (by rwa [cur_trOverlap]), ctxOf_trOverlap]
theorem flights_acqLoading (s : State) (x : Ctx) (r : SReg) (l : List LoadPart) (w : Width) (k : Nat) :
    (cc (acqLoading s (dstS x r) l w k)).flights =
      (cc s).flights ++ [{ dst := dstS x r, pos := (cc s).pos, bound := 8, parts := l, ext := some w, acq := some k }] := by
  unfold acqLoading
  rw [cc_upd, cc_trOverlap]
  rfl

/-- `lda` from HBM in one page, at a scope that is given, puts one result in flight. -/
theorem exec_lda {s : State} {d : SReg} {m : MemOp} {w : Width} {sc : Sys2Proof.Scope} {pa cp : Nat} {l : List LoadPart}
    (hloop : loopReg (cc s) d = false) (hmap : mapped s (memAddr (cc s) m) .read pa cp) (hk : Scope.code sc ≠ 7)
    (hpage : (memAddr (cc s) m).toNat % 65536 + Width_bytes w ≤ 65536) (hhbm : pa + Width_bytes w ≤ 0x00C000000000)
    (hl : loadParts s (wholePiece s (memAddr (cc s) m) (Width_bytes w) pa cp) = l) (htags : tagsFull s (coreOf s.cur) l = false) :
    exec (.lda d m w sc) s =
      .next (acqLoading (trMem s s.cur 4 (memAddr (cc s) m).toNat (Width_lg w)) (dstS (cc s) d) l w (Scope.code sc)) := by
  have hn : 0 < Width_bytes w := by cases w <;> decide
  obtain ⟨-, -, -, hdev⟩ := map_range (pa := pa) (by omega)
  show run 0 _ s = _
  apply run_ok
  rw [M_bind_ok (getC_apply s), opTrap, hloop, M_bind_ok (trapIf_false 51 0 0 s), M_bind_ok (pieces_onePage hmap hn hpage hhbm),
    M_bind_ok (scopeAt_known hk s), M_bind_ok (modify_apply _ s), trMem_frame]
  exact loadOut_here ((startParts_one hdev).trans (by rw [← hl]; rfl)) htags

/-! ### The performance of an acquire (R134, R139) -/

section
variable {u : State} {c k : Nat} {f : Flight} {p : LoadPart} (hdue : loadDue u c k f p)
include hdue

/-- Nothing holds back an acquire of one piece that is due. -/
theorem acqReady_due : acqReady u c k f = (true, u) := by
  obtain ⟨hf, hp, -, hask, hgot, -, -, -, hpa, -, -, hturn, hbsu⟩ := hdue
  obtain ⟨-, -, hmbox, -⟩ := map_range hpa
  unfold acqReady
  simp [hp, hgot, hask, hturn, hmbox, partMeter_off hbsu]

/-- An acquire of one piece makes stale what its scope says, and then reads. -/
theorem sampleAcq_due {scope : Nat} (hacq : f.acq = some scope) :
    let r := coreReadPiece (acquireAt u (coreOf c) scope) (coreOf c) p.pa p.cp p.len
    sampleAcq u c k = updCtx (updFlight (putPart r.2.2 c k 0 r.1 r.2.1) c k fun f => { f with acq := none }) c
      fun x => { x with fetch := [], ahead := [] } := by
  have hready := acqReady_due hdue
  obtain ⟨hf, hp, -, hask, hgot, -, -, -, hpa, -⟩ := hdue
  obtain ⟨-, -, hmbox, -⟩ := map_range hpa
  unfold sampleAcq
  simp [hf, hacq, hready, hp, hgot, hmbox]

end

/-! ### `stl` (R133, R279) -/

/-- What a store to HBM needs before it is performed: nothing of the context is on the way, and nothing is metered. -/
theorem storeAll_near {s : State} {va : Word} {p : Piece} (hset : settled (cc s)) (hbsu : bsuOn s = false) (hpkg : p.pkg = s.pkg)
    (hpa : p.pa < 0x00C000000000) (hcp : p.cp ≤ 1) : storeAll va [p] s = (.ok (), s) := by
  obtain ⟨-, hfar, hmbox, hdev⟩ := map_range hpa
  have hvisible : hostVisible p.pa p.cp = false := by
    simp [hostVisible, hfar]
    omega
  have hready : storeReady p s = (.ok (), s) := by
    unfold storeReady
    rw [M_bind_ok (settleBytes_settled hset _ _ _), M_bind_ok (get_apply s)]
    simp [hpkg, hmbox, hdev, hvisible]
  have hpin : pinsTask s p = false := by simp [pinsTask, hpkg, hvisible]
  unfold storeAll
  rw [M_bind_ok (forIn_one hready), M_bind_ok (get_apply s), M_bind_ok (meter_off hbsu _ _), modify_apply, List.any_cons, hpin]
  rfl

/-- A releasing store within one line goes through to the point of coherence of its scope (R127, R133). -/
theorem storeThrough_line {s : State} {core pa cp n k : Nat} (hpa : pa < 0x00C000000000) (hcp : cp ≤ 1) (hn : 0 < n)
    (hline : pa % 128 + n ≤ 128) : storeThrough s core pa cp n k =
      let t := if 2 ≤ k then l1WriteBack s core (pa / 128) else s
      if 3 ≤ k then clcWriteBack t (core / 8) (pa / 128) else t := by
  have hunc : uncached s pa cp = false := by
    rw [uncached_hbm hpa]
    simp
    omega
  unfold storeThrough
  rw [hunc, Bool.or_false, linePieces_within hn hline]
  by_cases hk : 2 ≤ k
  · rw [if_neg (by simp; omega), if_pos hk]
    rfl
  · rw [if_pos (by simp; omega), if_neg hk]
    exact (if_neg (by omega)).symm

/-- The pieces of a store, one a sector, each with its queue and its scope (R131, R133). -/
def sectorParts (pa cp q k : Nat) (bs : List (Option Byte)) : List StorePart :=
  (sectorPieces pa bs.length).map fun z =>
    { pa := z.1, cp := cp, bytes := (bs.drop z.2.1).take z.2.2, queue := q, through := k }

/-- Each piece of a store that spans sectors has a byte to write. -/
theorem filter_sectorParts {pa : Nat} (cp q k : Nat) {bs : List (Option Byte)} (hsome : ∀ b ∈ bs, b.isSome = true)
    (hn : bs.length ≤ 32) (hsec : 32 < pa % 32 + bs.length) :
    (sectorParts pa cp q k bs).filter (fun e => e.bytes.any Option.isSome) = sectorParts pa cp q k bs := by
  have hany (o n : Nat) (ho : o < bs.length) (h : 0 < n) : ((bs.drop o).take n).any Option.isSome = true := by
    have hlen : 0 < ((bs.drop o).take n).length := by simp; omega
    exact List.any_eq_true.2 ⟨_, List.getElem_mem hlen, hsome _ (List.mem_of_mem_drop (List.mem_of_mem_take (List.getElem_mem hlen)))⟩
  rw [List.filter_eq_self, sectorParts, sectorPieces_across hn hsec]
  intro e he
  simp only [List.map_cons, List.map_nil, List.mem_cons, List.not_mem_nil, or_false] at he
  rcases he with rfl | rfl
  · exact hany _ _ (by omega) (by omega)
  · exact hany _ _ (by omega) (by omega)

section
variable {s t : State} {va : Word} {pa cp k : Nat} {bs : List (Option Byte)} (hpkg : t.pkg = s.pkg) (hpa : pa < 0x00C000000000)
include hpkg hpa

/-- A releasing store within one sector is performed at once, with what goes through. -/
theorem storePiece_sector (hpos : 0 < bs.length) (hsec : pa % 32 + bs.length ≤ 32) :
    storePiece (wholePiece s va bs.length pa cp) true bs k t = (.ok (), storeThrough
      (coreWrite t t.cur (coreOf t.cur) (some (taskOf t t.cur).queue) pa cp bs) (coreOf t.cur) pa cp bs.length k) := by
  obtain ⟨-, -, hmbox, hdev⟩ := map_range hpa
  have hone : pa / 32 = (pa + bs.length - 1) / 32 := by omega
  unfold storePiece wholePiece
  rw [M_bind_ok (get_apply t)]
  dsimp only
  rw [hpkg, hmbox, hdev, List.drop_zero, List.take_length]
  simp [← hone]

/-- A releasing store that spans sectors waits, each piece with its scope. -/
theorem storePiece_sectors (hsome : ∀ b ∈ bs, b.isSome = true) (hn : bs.length ≤ 32) (hsec : 32 < pa % 32 + bs.length) :
    storePiece (wholePiece s va bs.length pa cp) true bs k t =
      (.ok (), upd t fun y => { y with stq := y.stq ++ sectorParts pa cp (taskOf t t.cur).queue k bs }) := by
  obtain ⟨-, -, hmbox, hdev⟩ := map_range hpa
  have htwo : ¬ pa / 32 = (pa + bs.length - 1) / 32 := by omega
  unfold storePiece wholePiece
  rw [M_bind_ok (get_apply t)]
  dsimp only
  rw [hpkg, hmbox, hdev, List.drop_zero, List.take_length, ← filter_sectorParts cp (taskOf t t.cur).queue k hsome hn hsec]
  simp [htwo, sectorParts]

end

/-! ### The state after a release (R133, R141) -/

section
variable {s : State} (h : settled (cc s)) (k : Nat)
include h

theorem steady_released : steady (released s k) = steady s := by
  by_cases hk : 1 ≤ k
  · rw [released_settled h hk, steady_releaseAt]
    exact steady_updCtx s _ fun _ => rfl
  · unfold released
    rw [if_neg hk, steady_releaseAt]

/-- A release performs no access that was not on the way. -/
theorem onTheWay_released : onTheWay (released s k) = onTheWay s := by
  by_cases hk : 1 ≤ k
  · obtain ⟨-, hq⟩ := id h
    have hempty : onTheWay (emptied s s.cur) = onTheWay s := by
      unfold onTheWay
      congr 1
      funext d
      by_cases hd : d = s.cur
      · rw [hd, show ctxOf (emptied s s.cur) s.cur = ctxOf s s.cur from cc_emptied_settled h]
      · rw [emptied, ctxOf_updCtx_ne _ _ hd]
    rw [released_settled h hk, same_releaseAt besideAcquires_onTheWay.toBesideCaches, hempty]
  · unfold released
    rw [if_neg hk, same_releaseAt besideAcquires_onTheWay.toBesideCaches]

theorem settled_released : settled (cc (released s k)) := by
  have hcur : (released s k).cur = s.cur := congrArg Steady.cur (steady_released h k)
  unfold cc
  rw [hcur]
  exact settled_congr (onTheWay_released h k) _ h

end

/-- A release at a scope up to the package that nothing holds back; at the scope of the context it writes back nothing. -/
theorem release_upTo {s : State} {k : Nat} (h : releases s k) (hk : k ≤ 4) : (release k : M Unit) s = (.ok (), released s k) := by
  by_cases h1 : 1 ≤ k
  · exact release_released h h1 hk
  · obtain ⟨-, -, hfar⟩ := h
    obtain rfl : k = 0 := by omega
    unfold release
    rw [M_bind_ok (getC_apply s), Bool.false_and, Bool.false_and, M_bind_ok (blockIf_false s), if_neg h1]
    show farWait 0 (released s 0) = _
    unfold farWait
    rw [M_bind_ok (getC_apply _), hfar]
    rfl

/-- `stl` whose release nothing holds back is its release and then its one piece. -/
theorem exec_stl {s t : State} {d : SReg} {m : MemOp} {w : Width} {sc : Sys2Proof.Scope} {pa cp : Nat}
    (hmap : mapped s (memAddr (cc s) m) .write pa cp) (hk : Scope.code sc ≤ 4)
    (hpage : (memAddr (cc s) m).toNat % 65536 + Width_bytes w ≤ 65536) (hhbm : pa + Width_bytes w ≤ 0x00C000000000) (hcp : cp ≤ 1)
    (hheld : descHeld s (memAddr (cc s) m).toNat (Width_bytes w) = false) (hrel : releases s (Scope.code sc)) (hbsu : bsuOn s = false)
    (hpiece : storePiece (wholePiece s (memAddr (cc s) m) (Width_bytes w) pa cp) true (storeBytes (cc s) d w) (Scope.code sc)
      (released s (Scope.code sc)) = (.ok (), t)) :
    exec (.stl d m w sc) s = .next (trMem t t.cur 5 (memAddr (cc s) m).toNat (Width_lg w)) := by
  have hn : 0 < Width_bytes w := by cases w <;> decide
  obtain ⟨hset, -, -⟩ := id hrel
  have hpkg : (released s (Scope.code sc)).pkg = s.pkg := congrArg Steady.pkg (steady_released hset _)
  have hall := storeAll_near (va := memAddr (cc s) m) (p := wholePiece s (memAddr (cc s) m) (Width_bytes w) pa cp)
    (settled_released hset (Scope.code sc)) ((bsuOn_congr (onTheWay_released hset _)).trans hbsu) hpkg.symm
    (show pa < _ by omega) hcp
  show run 0 _ s = _
  apply run_ok
  rw [M_bind_ok (getC_apply s), M_bind_ok (pieces_onePage hmap hn hpage hhbm), M_bind_ok (get_apply s), hheld,
    M_bind_ok (blockIf_false s), M_bind_ok (scopeAt_known (by omega) s), M_bind_ok (release_upTo hrel hk), M_bind_ok hall]
  exact M_bind_ok (forIn_one hpiece)

/-! ### The obligation -/

/-- An acquire of one piece, once it is performed. -/
theorem sampleAcq_performed {u : State} {c k scope : Nat} {f : Flight} {p : LoadPart} (hdue : loadDue u c k f p)
    (hacq : f.acq = some scope) :
    let r := coreReadPiece (acquireAt u (coreOf c) scope) (coreOf c) p.pa p.cp p.len
    let t := sampleAcq u c k
    let y := ctxOf r.2.2 c
    ctxOf t c = { y with fetch := [], ahead := [], flights := y.flights.set k { f with
      acq := none, poison := if r.2.1 then some p.va else none, parts := [{ p with got := some (r.1, r.2.1) }] } }
    ∧ (∀ e, e ≠ c → ctxOf t e = ctxOf r.2.2 e) ∧ t = { r.2.2 with ctx := t.ctx, bsu := t.bsu } := by
  intro r t y
  have ht : t = updCtx (updFlight (putPart r.2.2 c k 0 r.1 r.2.1) c k fun f => { f with acq := none }) c
      fun x => { x with fetch := [], ahead := [] } := sampleAcq_due hdue hacq
  obtain ⟨hf, hp, hpsn, -, -, -, hoff, -⟩ := hdue
  obtain ⟨g, hput⟩ := putPart_eq r.2.2 c k 0 r.1 r.2.1
  have hsame : onTheWay r.2.2 = onTheWay u :=
    (same_coreReadPiece besideAcquires_onTheWay ..).trans (same_acquireAt besideAcquires_onTheWay ..)
  have hy : y.flights[k]? = some f := by rw [← hf, ← flights_congr hsame]
  have hctx (e : Nat) : ctxOf { updFlight r.2.2 c k (gotPart 0 r.1 r.2.1) with bsu := g } e =
      ctxOf (updFlight r.2.2 c k (gotPart 0 r.1 r.2.1)) e := rfl
  rw [hput] at ht
  refine ⟨?_, fun e he => ?_, by rw [ht]; rfl⟩
  · have hset : (y.flights.modify k (gotPart 0 r.1 r.2.1)).modify k (fun f => { f with acq := none }) =
        y.flights.set k { gotPart 0 r.1 r.2.1 f with acq := none } := by
      rw [List.modify_eq_set_getElem?, List.modify_eq_set_getElem?, hy]
      have hlt : k < y.flights.length := (List.getElem?_eq_some_iff.1 hy).1
      simp [hlt]
    rw [ht, ctxOf_updCtx_self, updFlight, ctxOf_updCtx_self, hctx, updFlight, ctxOf_updCtx_self]
    dsimp only
    rw [hset, gotPart_one hp hpsn hoff]
  · rw [ht, ctxOf_updCtx_ne _ _ he, updFlight, ctxOf_updCtx_ne _ _ he, hctx, updFlight, ctxOf_updCtx_ne _ _ he]

/-- Settles O22: an acquire has one piece, and a store's release comes before its one piece or its two. -/
theorem acquiringLoadsAndReleasingStores : Obligations.AcquiringLoadsAndReleasingStores := by
  refine ⟨?instructions, fun u c k scope f p hdue hacq => sampleAcq_performed hdue hacq⟩
  intro s d m w sc pa cp x core va n k hk hpage hpa hline hcp
  have hva : memAddr (cc s) m = va := memAddr_eq (cc s) m
  have hn : Width_bytes w = n := Width_bytes_eq w
  obtain ⟨hpos, hshort⟩ : 0 < n ∧ n ≤ 8 := bytesOf_bounds w
  have hhbm : pa + n ≤ 0x00C000000000 := by omega
  refine ⟨fun hloop hmap hsec htags => ?load, fun hmap hheld hrel hbsu => ?store⟩
  case load =>
    have hparts : loadParts s (wholePiece s va n pa cp) = (loadOf s d w va pa cp (some k)).parts := by
      rw [loadParts_hbm hpos hhbm, sectorPieces_within hpos hsec]
      simp [sectorPart, loadOf, n]
    have hfree : tagsFull s (coreOf s.cur) (loadOf s d w va pa cp (some k)).parts = false := by
      have htags : tagsUsed s (coreOf s.cur) (chanOf pa) < 64 := htags
      simp [tagsFull, loadOf, htags]
    refine ⟨_, exec_lda hloop (by rwa [hva]) (show k ≠ 7 by omega) (by rwa [hva, hn]) (by rwa [hn]) (by rw [hva, hn]; exact hparts)
      hfree, ?_, fun c hc => ?_, ?_⟩
    · rw [trMem_frame, flights_acqLoading]
      rfl
    · rw [trMem_frame]
      exact ctxOf_acqLoading _ _ _ _ hc
    · rw [trMem_frame, acqLoading_frame]
      rfl
  case store =>
    intro s1 bytes s2 s3 s4 piece s5
    have hbytes : storeBytes (cc s) d w = bytes := by
      unfold storeBytes
      rw [hn]
    have hlen : bytes.length = n := by rw [← hbytes]; exact length_storeBytes ..
    have hsome : ∀ b ∈ bytes, b.isSome = true := hbytes ▸ isSome_storeBytes (cc s) d w
    obtain ⟨hset, -, -⟩ := id hrel
    have hcur : s1.cur = s.cur := congrArg Steady.cur (steady_released hset k)
    have hpkg : s1.pkg = s.pkg := congrArg Steady.pkg (steady_released hset k)
    have hstl {t : State} (hpiece : storePiece (wholePiece s va bytes.length pa cp) true bytes k s1 = (.ok (), t)) :
        exec (.stl d m w sc) s = .next (trMem t t.cur 5 va.toNat (bytesOf w).2) := by
      rw [← hva, show (bytesOf w).2 = Width_lg w by cases w <;> rfl]
      refine exec_stl (by rwa [hva]) hk (by rwa [hva, hn]) (by rwa [hn]) hcp (by rwa [hva, hn]) hrel hbsu ?_
      rwa [hva, hn, ← hlen, hbytes]
    constructor
    · intro hsec
      have hpiece := storePiece_sector (s := s) (t := s1) (va := va) (cp := cp) (k := k) hpkg hpa (bs := bytes) (by omega) (by omega)
      rw [storeThrough_line hpa hcp (by omega) (by omega), hcur] at hpiece
      have hany : bytes.any Option.isSome = true := hbytes ▸ any_storeBytes (cc s) d w
      have hs2 : steady s2 = steady s1 := by
        show steady (coreWrite _ _ _ _ _ _ _) = _
        rw [coreWrite_within (by omega) hany]
        exact steady_coreWritePiece ..
      have hs3 : steady s3 = steady s1 := steady_ite ((steady_l1WriteBack ..).trans hs2) hs2
      have hs4 : steady s4 = steady s1 := steady_ite ((steady_clcWriteBack ..).trans hs3) hs3
      rw [← hcur, ← show s4.cur = s1.cur from congrArg Steady.cur hs4]
      exact hstl hpiece
    · intro hsec
      have hpiece := storePiece_sectors (s := s) (t := s1) (va := va) (cp := cp) (k := k) hpkg hpa hsome (by omega) (by omega)
      rw [hcur] at hpiece
      rw [← hcur, ← show s5.cur = s1.cur from rfl]
      refine (hstl hpiece).trans ?_
      unfold sectorParts
      rw [hlen]

end Sys2Proof.Machine
end

section
/-! PROOF. Fences, `cwb`, `pref` and `tlbinv` (O24): the lines that a release leaves clean, the counter that an acquire advances, the
sectors of a line that a `cwb` writes back, and the line that a prefetch brings. -/
namespace Sys2Proof.Machine
open Sys2Proof.Claims

/-! ### The lines that a release leaves in the L1D (R141) -/

/-- The line of a core's L1D at a line number. -/
def l1Line (s : State) (core ln : Nat) : Option Line := SMap.get? (l1Of s core).lines ln

theorem l1Line_congr {s t : State} (h : t.l1d = s.l1d) (core ln : Nat) : l1Line t core ln = l1Line s core ln := by
  unfold l1Line l1Of
  rw [h]
theorem l1Line_setL1_self (s : State) (core ln : Nat) (l : Line) : l1Line (setL1 s core ln (some l)) core ln = some l := by
  rw [l1Line, l1Of_setL1_self, SMap.get?_set_self]
theorem l1Line_setL1_ne (s : State) (core : Nat) {ln j : Nat} (l : Line) (h : j ≠ ln) :
    l1Line (setL1 s core ln (some l)) core j = l1Line s core j := by
  rw [l1Line, l1Of_setL1_self, SMap.get?_set_ne _ _ h, l1Line]

theorem besideClc_l1d : BesideClc State.l1d :=
  { hbm := fun _ _ => rfl, undo := fun _ _ => rfl, far := fun _ _ => rfl, farPsn := fun _ _ => rfl, clc := fun _ _ => rfl
    tiles := fun _ _ _ => rfl, free := fun _ _ => rfl, completion := fun _ _ => rfl }

theorem dirty_Line_clean (l : Line) (m : BitVec 128) : (Line_clean l m).dirty = l.dirty &&& ~~~m := by
  unfold Line_clean
  dsimp only
  split
  · next h => exact h.symm
  · rfl

section
variable {s : State} {core ln : Nat} {l : Line} (hl : l1Line s core ln = some l)
include hl

theorem l1WriteBackM_clean {m : BitVec 128} (hm : l.dirty &&& m = 0) : l1WriteBackM s core ln m = s := by
  have hl : SMap.get? (l1Of s core).lines ln = some l := hl
  unfold l1WriteBackM
  rw [hl]
  exact if_pos hm

theorem l1WriteBackM_dirty {m : BitVec 128} (hm : l.dirty &&& m ≠ 0) : l1WriteBackM s core ln m =
    setL1 (if l.noClc then homeWrite s l.ctx l.queue (ln * 128) (Line_dirtyBytes { l with dirty := l.dirty &&& m })
      else clcPut s core l.ctx l.queue ln l.data (l.dirty &&& m)) core ln (some (Line_clean l m)) := by
  have hl : SMap.get? (l1Of s core).lines ln = some l := hl
  unfold l1WriteBackM
  rw [hl]
  exact if_neg hm

/-- A line written back whole is clean. -/
theorem l1Line_l1WriteBack_self : ∃ l', l1Line (l1WriteBack s core ln) core ln = some l' ∧ l'.dirty = 0 := by
  unfold l1WriteBack
  by_cases hd : l.dirty &&& BitVec.allOnes 128 = 0
  · exact ⟨l, by rw [l1WriteBackM_clean hl hd, hl], by rwa [BitVec.and_allOnes] at hd⟩
  · exact ⟨_, by rw [l1WriteBackM_dirty hl hd, l1Line_setL1_self], by rw [dirty_Line_clean]; simp⟩

theorem l1Line_l1WriteBack_other {j : Nat} (hj : j ≠ ln) : l1Line (l1WriteBack s core ln) core j = l1Line s core j := by
  unfold l1WriteBack
  by_cases hd : l.dirty &&& BitVec.allOnes 128 = 0
  · rw [l1WriteBackM_clean hl hd]
  · rw [l1WriteBackM_dirty hl hd, l1Line_setL1_ne _ _ _ hj]
    exact l1Line_congr (same_ite (same_homeWriteFor besideClc_l1d ..) (same_clcPut besideClc_l1d ..)) core j

end

theorem l1WriteBack_absent {s : State} {core ln : Nat} (h : l1Line s core ln = none) : l1WriteBack s core ln = s := by
  have h : SMap.get? (l1Of s core).lines ln = none := h
  unfold l1WriteBack l1WriteBackM
  rw [h]

/-- Whatever line is written back, one that is dirty afterwards is another, and stood there before. -/
theorem l1Line_l1WriteBack {s : State} {core ln j : Nat} {l : Line} (h : l1Line (l1WriteBack s core ln) core j = some l) :
    l.dirty = 0 ∨ j ≠ ln ∧ l1Line s core j = some l := by
  cases hl : l1Line s core ln with
  | none =>
    rw [l1WriteBack_absent hl] at h
    exact .inr ⟨fun hj => absurd h (by rw [hj, hl]; exact nofun), h⟩
  | some l0 =>
    by_cases hj : j = ln
    · subst hj
      obtain ⟨l', hl', hclean⟩ := l1Line_l1WriteBack_self hl
      rw [hl'] at h
      exact .inl (Option.some.inj h ▸ hclean)
    · exact .inr ⟨hj, (l1Line_l1WriteBack_other hl hj).symm.trans h⟩

/-- A line stands among the entries of its map. -/
theorem SMap.mem_of_get? {α : Type} {m : SMap α} {n : Nat} {v : α} (h : SMap.get? m n = some v) : (n, v) ∈ m := by
  induction m with
  | nil => cases h
  | cons e m ih =>
    obtain ⟨k, w⟩ := e
    unfold SMap.get? at h
    split at h
    · next hk =>
      rw [← hk, ← Option.some.inj h]
      exact List.mem_cons_self
    · split at h
      · cases h
      · exact List.mem_cons_of_mem _ (ih h)

/-- After the lines of a list have been written back, a line that was clean or is in the list is clean. -/
theorem clean_writeBacks (core : Nat) (ks : List (Nat × Line)) {s : State} {j : Nat} {l : Line}
    (h : ∀ l', l1Line s core j = some l' → l'.dirty = 0 ∨ ∃ v, (j, v) ∈ ks)
    (hl : l1Line (ks.foldl (fun s (ln, _) => l1WriteBack s core ln) s) core j = some l) : l.dirty = 0 := by
  induction ks generalizing s with
  | nil =>
    rcases h l hl with hclean | ⟨v, hv⟩
    · exact hclean
    · cases hv
  | cons e ks ih =>
    obtain ⟨ln, w⟩ := e
    refine ih (fun l' hl' => ?_) hl
    rcases l1Line_l1WriteBack hl' with hclean | ⟨hj, hbefore⟩
    · exact .inl hclean
    · refine (h l' hbefore).imp_right fun ⟨v, hv⟩ => ⟨v, (List.mem_cons.1 hv).resolve_left fun heq => hj (congrArg Prod.fst heq)⟩

/-- A release at cluster scope or wider leaves no dirty line in the L1D (R141). -/
theorem clean_releaseAt {s : State} {core k ln : Nat} {l : Line} (hk : 2 ≤ k)
    (hl : SMap.get? (l1Of (releaseAt s core k) core).lines ln = some l) : l.dirty = 0 := by
  have hl1d : (releaseAt s core k).l1d = (l1Flush s core).l1d := by
    unfold releaseAt
    rw [if_pos hk]
    exact same_ite (same_clcFlush besideClc_l1d ..) rfl
  have hl : l1Line (l1Flush s core) core ln = some l := (l1Line_congr hl1d ..).symm.trans hl
  exact clean_writeBacks core _ (fun l' hl' => .inr ⟨l', SMap.mem_of_get? hl'⟩) hl

/-! ### The counter that an acquire advances (R139, R140) -/

/-- The counters of a core's L1D. -/
def l1Gens (core : Nat) (s : State) : Vector (BitVec 4) 8 := (l1Of s core).gen

theorem besideCaches_l1Gens (core : Nat) : BesideCaches (l1Gens core) :=
  { hbm := fun _ _ => rfl, undo := fun _ _ => rfl, far := fun _ _ => rfl, farPsn := fun _ _ => rfl, clc := fun _ _ => rfl
    tiles := fun _ _ _ => rfl, free := fun _ _ => rfl, completion := fun _ _ => rfl
    setL1 := fun s k ln l => by
      unfold l1Gens
      by_cases hk : core = k
      · subst hk
        simp [l1Of, setL1, SMap.modify]
      · rw [l1Of_setL1_ne _ _ _ hk] }

theorem l1Gens_drainInvals (s : State) (core : Nat) : l1Gens core (drainInvals s core) = l1Gens core s := by
  have hp := besideCaches_l1Gens core
  refine same_foldl (p := l1Gens core) (fun t ln => ?_) _ _
  exact (same_setClc hp.toBesideClc ..).trans ((same_clcWriteBack hp.toBesideClc ..).trans
    ((hp.setL1 ..).trans (same_l1WriteBack hp ..)))

theorem l1Gens_l1Wrap (s : State) (core : Nat) : l1Gens core (l1Wrap s core) = l1Gens core s := by
  refine Eq.trans ?_ (same_l1Flush (besideCaches_l1Gens core) s core)
  unfold l1Wrap l1Gens l1Of
  simp [SMap.modify]

/-- An acquire at cluster scope or wider advances the counter of its scope by one. -/
theorem gen_acquireAt (s : State) {core k : Nat} (h2 : 2 ≤ k) (h6 : k ≤ 6) :
    (l1Of (acquireAt s core k) core).gen.toList.getD k 0 = (l1Of s core).gen.toList.getD k 0 + 1 := by
  have hold : l1Gens core (if (l1Of (drainInvals s core) core).gen.toList.getD k 0 == 15 then l1Wrap (drainInvals s core) core
      else drainInvals s core) = l1Gens core s :=
    same_ite ((l1Gens_l1Wrap ..).trans (l1Gens_drainInvals ..)) (l1Gens_drainInvals ..)
  have hk : k < 8 := by omega
  have hgen : l1Gens core (acquireAt s core k) = (l1Gens core s).set k ((l1Gens core s)[k] + 1) := by
    rw [acquireAt_eq, same_staleClc (besideCaches_l1Gens core).toBesideClc, staleL1, if_pos (by simp; omega), ← hold]
    dsimp only
    rw [l1Gens, l1Of, SMap.modify, SMap.getD_set_self, genUp, dif_pos hk]
    rfl
  show (l1Gens core (acquireAt s core k)).toList.getD k 0 = (l1Gens core s).toList.getD k 0 + 1
  rw [hgen]
  simp [hk]

/-! ### `fence` (R135, R283) -/

theorem farWait_none {s : State} (h : (cc s).farOut = 0) (k : Nat) : farWait k s = (.ok (), s) := by
  unfold farWait
  rw [M_bind_ok (getC_apply s), h]
  rfl

theorem flushDests_none {s : State} (hcopies : copiesRun s s.cur = false) (hremote : xremoteRuns s s.cur = false)
    (hdests : (cc s).dests = []) : flushDests s = (.ok (), s) := by
  unfold flushDests
  rw [M_bind_ok (get_apply s), hcopies, hremote, Bool.or_false, M_bind_ok (blockIf_false s), hdests]
  rfl

/-- The release of a fence, with no access of the context on the way: what it writes back, at any scope. -/
theorem release_fence {s : State} {k : Nat} (hset : settled (cc s)) (hout : noneOut s s.cur) (hinv : 4 ≤ k → (cc s).inval = 0)
    (hdests : 5 ≤ k → copiesRun (released s k) s.cur = false ∧ xremoteRuns (released s k) s.cur = false ∧
      (cc (released s k)).dests = []) (hfar : (cc (released s k)).farOut = 0) : release k true s = (.ok (), released s k) := by
  have hheld : (true && k ≥ 4 && (cc s).inval != 0) = false := by
    by_cases hk : 4 ≤ k
    · simp [hinv hk]
    · simp [hk]
  have hcur : (released s k).cur = s.cur := congrArg Steady.cur (steady_released hset k)
  have hend : (if k ≥ 5 then flushDests >>= fun _ => farWait k else farWait k : M Unit) (released s k) = (.ok (), released s k) := by
    split
    · next hk =>
      obtain ⟨hcopies, hremote, hnone⟩ := hdests hk
      rw [← hcur] at hcopies hremote
      rw [M_bind_ok (flushDests_none hcopies hremote hnone), farWait_none hfar]
    · exact farWait_none hfar k
  unfold release
  rw [M_bind_ok (getC_apply s), hheld, M_bind_ok (blockIf_false s)]
  by_cases h1 : 1 ≤ k
  · rw [if_pos h1, M_bind_ok (settleAll_settled hset hout)]
    rw [released_settled hset h1] at hend ⊢
    exact hend
  · rw [if_neg h1]
    rw [show released s k = releaseAt s (coreOf s.cur) k by rw [released, if_neg h1]] at hend ⊢
    exact hend

theorem acquire_apply (s : State) (k : Nat) : acquire k s =
    (.ok (), upd (acquireAt s (coreOf s.cur) k) fun x => { x with fetch := [], ahead := [] }) := rfl

/-- Earlier loads that have all arrived hold back no acquire. -/
theorem settleLoads_here {s : State} (h : allHere (cc s) = true) : settleLoads s = (.ok (), s) := by
  unfold settleLoads
  rw [M_bind_ok (modify_apply _ s), sampleAll_here (show allHere (ctxOf s s.cur) = true from h), M_bind_ok (getC_apply s),
    loadsLeft_here h]
  rfl

section
variable {s : State} {o : Sys2Proof.Ord} {sc : Sys2Proof.Scope} {q : BitVec 3} (hq : rdP (cc s) q = true)
  (hinv : 4 ≤ Scope.code sc → (cc s).inval = 0)
include hq hinv

/-- The state after the release of a fence, where it has one. -/
def fenceReleased (s : State) (o : Sys2Proof.Ord) (k : Nat) : State := if Ord.rels o then released s k else s

/-- A fence that nothing holds back is its release and then its acquire. -/
theorem exec_fence (hset : settled (cc s)) (hout : noneOut s s.cur)
    (hdests : 5 ≤ Scope.code sc → Ord.rels o = true → copiesRun (released s (Scope.code sc)) s.cur = false
      ∧ xremoteRuns (released s (Scope.code sc)) s.cur = false ∧ (cc (released s (Scope.code sc))).dests = [])
    (hfar : (cc (fenceReleased s o (Scope.code sc))).farOut = 0) : exec (.fence o sc q) s =
      .next (if Ord.acqs o then upd (acquireAt (sampleAll (fenceReleased s o (Scope.code sc)) s.cur) (coreOf s.cur) (Scope.code sc))
        fun x => { x with fetch := [], ahead := [] } else fenceReleased s o (Scope.code sc)) := by
  have hheld : (Scope.code sc ≥ 4 && (cc s).inval != 0) = false := by
    by_cases hk : 4 ≤ Scope.code sc
    · simp [hinv hk]
    · simp [hk]
  have hcur : (fenceReleased s o (Scope.code sc)).cur = s.cur := by
    unfold fenceReleased
    split
    · exact congrArg Steady.cur (steady_released hset _)
    · rfl
  have hhere : allHere (cc (fenceReleased s o (Scope.code sc))) = true := by
    unfold fenceReleased
    split
    · exact (settled_released hset _).1
    · exact hset.1
  have hacq : (if Ord.acqs o then (do settleLoads; farWait (Scope.code sc); acquire (Scope.code sc)) else pure () : M Unit)
      (fenceReleased s o (Scope.code sc)) = (.ok (), if Ord.acqs o then
        upd (acquireAt (sampleAll (fenceReleased s o (Scope.code sc)) s.cur) (coreOf s.cur) (Scope.code sc))
          fun x => { x with fetch := [], ahead := [] } else fenceReleased s o (Scope.code sc)) := by
    split
    · rw [M_bind_ok (settleLoads_here hhere), M_bind_ok (farWait_none hfar _), acquire_apply, ← hcur,
        sampleAll_here (show allHere (ctxOf _ _) = true from hhere)]
    · rfl
  show run 0 _ s = _
  apply run_ok
  rw [M_bind_ok (getC_apply s), if_pos hq, hheld, M_bind_ok (blockIf_false s)]
  unfold fenceReleased at *
  by_cases hrel : Ord.rels o = true
  · simp only [hrel, if_true] at hfar hacq ⊢
    rw [M_bind_ok (release_fence hset hout hinv (fun hk => hdests hk hrel) hfar)]
    exact hacq
  · simp only [hrel] at hacq ⊢
    exact hacq

end

/-- A fence releases and acquires as its order says, and its scope's lines and counter are those of its core (R135). -/
theorem fencesReleaseAndAcquire : FencesReleaseAndAcquire := by
  intro s o sc q core k rel acq s1 hq hset hout hinv hdests hfar
  have hrel : rel = Ord.rels o := by cases o <;> rfl
  have hacq : acq = Ord.acqs o := by cases o <;> rfl
  have hs1 : s1 = fenceReleased s o k := by
    show (if rel then released s k else s) = _
    rw [hrel]
    rfl
  have hdests (hk : 5 ≤ k) (hr : Ord.rels o = true) := hdests hk (hrel.trans hr)
  rw [hs1] at hfar hdests
  refine ⟨?_, fun hr hk ln l hl => ?_, fun h2 h6 => gen_acquireAt s h2 h6⟩
  · rw [hacq, hs1]
    refine exec_fence hq hinv hset hout (fun hk hr => ?_) hfar
    have hthese := hdests hk hr
    rwa [fenceReleased, if_pos hr] at hthese
  · rw [hs1, fenceReleased, if_pos (hrel.symm.trans hr)] at hl
    exact clean_releaseAt hk hl

/-! ### `cwb` (R284) -/

theorem getLsbD_sectorMask (ln lo hi : Nat) {i : Nat} (h : i < 128) :
    (sectorMask ln lo hi).getLsbD i = decide (lo / 32 ≤ ln * 4 + i / 32 ∧ ln * 4 + i / 32 ≤ hi / 32) := by
  have hlane := testBit_packN (w := 1) (j := 0)
    (fun i => let sec := ln * 4 + i / 32; if lo / 32 ≤ sec && sec ≤ hi / 32 then 1 else 0) h (by omega)
  rw [Nat.one_mul, Nat.add_zero] at hlane
  unfold sectorMask
  rw [BitVec.getLsbD_ofNat, hlane, decide_eq_true h, Bool.true_and]
  by_cases hin : lo / 32 ≤ ln * 4 + i / 32 ∧ ln * 4 + i / 32 ≤ hi / 32
  · simp [hin]
  · rw [decide_eq_false hin]
    simp only [Bool.and_eq_true, decide_eq_true_eq, hin, if_false, Nat.zero_testBit]

/-- The line of a CLC at a line number. -/
def clcLine (s : State) (cl ln : Nat) : Option Line := SMap.get? (clcOf s cl).lines ln

theorem clcLine_setClc_self (s : State) (cl ln : Nat) (l : Line) : clcLine (setClc s cl ln (some l)) cl ln = some l := by
  simp [clcLine, clcOf, setClc, SMap.modify]

/-- A current CLC line is not fetched again (R139). -/
theorem clcEnsure_current {s : State} {cl ln : Nat} {l : Line} (hl : clcLine s cl ln = some l) (hgens : l.gens = gensClc (clcOf s cl)) :
    clcEnsure s cl ln = (l, s) := by
  have hl : SMap.get? (clcOf s cl).lines ln = some l := hl
  unfold clcEnsure
  rw [hl]
  exact if_pos hgens

/-- Bytes written back into a current CLC line are put into it. -/
theorem clcPut_current {s : State} {core ln : Nat} {l : Line} (hl : clcLine s (core / 8) ln = some l)
    (hgens : l.gens = gensClc (clcOf s (core / 8))) (cs : List Nat) (q : Option Nat) (data : BitVec 1024) (m : BitVec 128) :
    ∃ l', l'.data = (Line_put l data m).data ∧ clcPut s core cs q ln data m = setClc s (core / 8) ln (some l') := by
  have hhas : SMap.has (clcOf s (core / 8)).lines ln = true := by
    rw [SMap.has, show SMap.get? (clcOf s (core / 8)).lines ln = some l from hl]
    rfl
  refine ⟨{ Line_put l data m with mask := l.mask ||| BitVec.ofNat 8 (2 ^ (core % 8)), queue := q, ctx := (l.ctx ++ cs).eraseDups },
    rfl, ?_⟩
  unfold clcPut
  dsimp only
  rw [clcEnsure_current hl hgens]
  exact if_pos hhas

/-- A state in which a core caches a line at both levels, with the contexts and the memory of another. -/
structure CachesLine (s t : State) (core ln : Nat) (c l : Line) : Prop where
  clc : clcLine t (core / 8) ln = some c
  l1 : l1Line t core ln = some l
  ctx : ∀ k, ctxOf t k = ctxOf s k
  hbm : t.hbm = s.hbm
  cur : t.cur = s.cur

/-- Where nothing of a line is dirty under a mask, a `cwb` at cluster scope leaves it. -/
theorem CachesLine.again {s t : State} {core ln : Nat} {c l : Line} (h : CachesLine s t core ln c l) {m : BitVec 128}
    (hm : l.dirty &&& m = 0) (k : Nat) :
    CachesLine s (l1WriteBackM (setL1 t core ln (some (chargeTo k m l))) core ln m) core ln c l := by
  obtain ⟨hclc, -, hctx, hhbm, hcur⟩ := h
  have hcharge : chargeTo k m l = l := by
    unfold chargeTo
    rw [hm]
    rfl
  rw [hcharge, l1WriteBackM_clean (l1Line_setL1_self ..) hm]
  exact ⟨hclc, l1Line_setL1_self .., hctx, hhbm, hcur⟩

theorem chargeTo_fields (k : Nat) (m : BitVec 128) (l : Line) : (chargeTo k m l).data = l.data ∧ (chargeTo k m l).dirty = l.dirty
    ∧ (chargeTo k m l).noClc = l.noClc := by
  unfold chargeTo
  split <;> exact ⟨rfl, rfl, rfl⟩

theorem data_Line_clean (l : Line) (m : BitVec 128) : (Line_clean l m).data = l.data := by
  unfold Line_clean
  dsimp only
  split <;> rfl

/-- The dirty sectors of a line that a `cwb` covers go into the cluster's line, and are clean in the core's. -/
theorem CachesLine.first {s t : State} {core ln : Nat} {c l : Line} (h : CachesLine s t core ln c l)
    (hgens : c.gens = gensClc (clcOf t (core / 8))) (hclc : l.noClc = false) {m : BitVec 128} (hm : l.dirty &&& m ≠ 0) (k : Nat) :
    ∃ c' l', c'.data = (Line_put c l.data (l.dirty &&& m)).data ∧ l'.data = l.data ∧ l'.dirty = l.dirty &&& ~~~m
      ∧ CachesLine s (l1WriteBackM (setL1 t core ln (some (chargeTo k m l))) core ln m) core ln c' l' := by
  obtain ⟨hc, -, hctx, hhbm, hcur⟩ := h
  obtain ⟨hdata, hdirty, hno⟩ := chargeTo_fields k m l
  obtain ⟨c', hc', hput⟩ := clcPut_current (s := setL1 t core ln (some (chargeTo k m l))) hc hgens (chargeTo k m l).ctx
    (chargeTo k m l).queue l.data (l.dirty &&& m)
  refine ⟨c', Line_clean (chargeTo k m l) m, hc', by rw [data_Line_clean, hdata], by rw [dirty_Line_clean, hdirty], ?_⟩
  rw [l1WriteBackM_dirty (l1Line_setL1_self ..) (by rwa [hdirty]), hno, hclc, if_neg Bool.false_ne_true, hdata, hdirty, hput]
  exact ⟨clcLine_setClc_self .., l1Line_setL1_self .., hctx, hhbm, hcur⟩

theorem wbPart_cluster {s : State} {c ln : Nat} {l : Line} (h : l1Line s (coreOf c) ln = some l) (lo hi : Nat) :
    wbPart s c ln lo hi 2 = l1WriteBackM (setL1 s (coreOf c) ln (some (chargeTo c (sectorMask ln lo hi) l))) (coreOf c) ln
      (sectorMask ln lo hi) := by
  have h : SMap.get? (l1Of s (coreOf c)).lines ln = some l := h
  unfold wbPart
  dsimp only
  rw [h, if_pos (by omega)]

/-- A line that stands in both caches is written back once, however often it is listed. -/
theorem cachesLine_wbParts {s : State} {k ln lo hi : Nat} {c l : Line} (h : CachesLine s s (coreOf k) ln c l)
    (hgens : c.gens = gensClc (clcOf s (coreOf k / 8))) (hclc : l.noClc = false) (hm : l.dirty &&& sectorMask ln lo hi ≠ 0)
    {ls : List Nat} (hsome : ls ≠ []) (hall : ∀ j ∈ ls, j = ln) :
    ∃ c' l', c'.data = (Line_put c l.data (l.dirty &&& sectorMask ln lo hi)).data ∧ l'.data = l.data
      ∧ l'.dirty = l.dirty &&& ~~~sectorMask ln lo hi
      ∧ CachesLine s (ls.foldl (fun s j => wbPart s k j lo hi 2) s) (coreOf k) ln c' l' := by
  obtain ⟨j, js, rfl⟩ := List.exists_cons_of_ne_nil hsome
  obtain rfl := hall j List.mem_cons_self
  obtain ⟨c', l', hc', hl', hdirty, hfirst⟩ := h.first hgens hclc hm k
  refine ⟨c', l', hc', hl', hdirty, ?_⟩
  rw [List.foldl_cons, wbPart_cluster h.l1]
  have hclean : l'.dirty &&& sectorMask j lo hi = 0 := by
    rw [hdirty, BitVec.and_assoc, BitVec.not_and_self]
    exact BitVec.and_zero
  have hrest : ∀ i ∈ js, i = j := fun i hi => hall i (List.mem_cons_of_mem _ hi)
  clear hsome h hall
  generalize l1WriteBackM _ _ _ _ = t at hfirst
  induction js generalizing t with
  | nil => exact hfirst
  | cons i js ih =>
    rw [List.foldl_cons, hrest i List.mem_cons_self, wbPart_cluster hfirst.l1]
    exact ih (fun i hmem => hrest i (List.mem_cons_of_mem _ hmem)) _ (hfirst.again hclean k)

/-- The lines of the bytes from `pa` to `top` that a context's core or its cluster holds, in the order in which a `cwb` goes through
them. -/
def linesCovering (s : State) (c pa top : Nat) : List Nat :=
  ((l1Of s (coreOf c)).lines.map (·.1) ++ (clcOf s (coreOf c / 8)).lines.map (·.1)).filter
    fun ln => pa / 128 ≤ ln && ln ≤ top / 128

/-- A `cwb` whose bytes lie in one page of plain HBM goes through the lines that the core and its cluster hold of them. -/
theorem cwbPages_page {s : State} {c asid scope hi k va pa cp : Nat}
    (hpeek : peek s (.core (coreOf c)) asid va none = (some (s.pkg, pa, cp), s)) (hcache : cacheable s s.pkg pa cp = true)
    (hlo : va ≤ hi) (hpage : hi ≤ va / 65536 * 65536 + 65535) : cwbPages s c asid scope hi (k + 1) va =
      (linesCovering s c pa (pa + (hi - va))).foldl (fun s ln => wbPart s c ln pa (pa + (hi - va)) scope) s := by
  have hlast : min hi (va / 65536 * 65536 + 65535) = hi := Nat.min_eq_left hpage
  have hstop (u : State) : cwbPages u c asid scope hi k (hi + 1) = u := by
    cases k with
    | zero => rfl
    | succ k => exact if_pos (by omega)
  rw [cwbPages, if_neg (by omega)]
  dsimp only
  rw [hpeek]
  dsimp only
  rw [hcache, if_pos rfl, hlast, hstop]
  rfl

/-! A context with no store left to perform is itself after its stores are drained. -/

theorem drainAll_empty {s : State} {c : Nat} (hq : (ctxOf s c).stq = []) : drainAll s c = emptied s c := by
  unfold drainAll
  rw [hq]
  rfl
theorem ctxOf_emptied {s : State} {c : Nat} (hq : (ctxOf s c).stq = []) (k : Nat) : ctxOf (emptied s c) k = ctxOf s k := by
  by_cases hk : k = c
  · rw [hk, emptied, ctxOf_updCtx_self, ← hq]
  · exact ctxOf_updCtx_ne _ _ hk

/-- A page of plain HBM whose policy is not 2 lets a core cache its lines. -/
theorem cacheable_hbm {s : State} {pa cp : Nat} (hpa : pa < 0x00C000000000) (hcp : cp ≠ 2) : cacheable s s.pkg pa cp = true := by
  simp [cacheable, uncached_hbm hpa, hcp, isHbm, hpa]

/-- A `cwb` of no bytes, or below cluster scope, does nothing (R284). -/
theorem exec_cwb_nothing {s : State} {a b : SReg} {q : BitVec 3} {sc : Scope} (hq : rdP (cc s) q = true)
    (h : (rdS (cc s) b).toNat % 2 ^ 40 = 0 ∨ Scope.code sc < 2) : exec (.cwb a b q sc) s = .next s := by
  have hnone : (bitsAt (rdS (cc s) b).toNat 0 40 != 0 && decide (Scope.code sc ≥ 2)) = false := by
    rcases h with h | h
    · rw [bitsAt, Nat.shiftRight_zero, h]
      rfl
    · simp [Nat.not_le.2 h]
  show run 0 _ s = _
  apply run_ok
  rw [M_bind_ok (getC_apply s), if_pos hq]
  dsimp only
  rw [hnone]
  rfl

/-- A `cwb` that writes nothing far leaves the lines that it wrote back, and the count of the context's far writes as it was. -/
theorem exec_cwb {s : State} {a b : SReg} {q : BitVec 3} {sc : Scope} {n : Nat} (hq : rdP (cc s) q = true)
    (hn : (rdS (cc s) b).toNat % 2 ^ 40 = n) (hpos : 0 < n) (hsc : 2 ≤ Scope.code sc) {t : State}
    (ht : cwbPages (drainAll s s.cur) s.cur (asidOf s s.cur) (Scope.code sc) ((rdS (cc s) a).toNat + n) (n / 65536 + 2)
      (rdS (cc s) a).toNat = t) (hfar : (cc t).farOut = (cc s).farOut) : exec (.cwb a b q sc) s = .next (upd t id) := by
  have hbits : bitsAt (rdS (cc s) b).toNat 0 40 = n := by rw [bitsAt, Nat.shiftRight_zero, hn]
  have hsome : (n != 0 && decide (Scope.code sc ≥ 2)) = true := by simp [hsc, Nat.ne_of_gt hpos]
  show run 0 _ s = _
  apply run_ok
  rw [M_bind_ok (getC_apply s), if_pos hq]
  dsimp only
  rw [hbits, hsome, if_pos rfl, modify_apply, ht]
  have hupd : upd t (fun y => if y.farOut = (cc s).farOut then y else
      { y with cwb := if (cc s).farOut = 0 || y.cwb = 0 then Scope.code sc else min y.cwb (Scope.code sc) }) = upd t id :=
    congrArg (setCtx t t.cur) (if_pos hfar)
  rw [hupd]

theorem ctxOf_upd_id (t : State) (k : Nat) : ctxOf (upd t id) k = ctxOf t k := by
  by_cases hk : k = t.cur
  · rw [hk, ctxOf_upd_self]
    rfl
  · exact ctxOf_upd_ne _ _ hk

/-! ### `pref` (R285) -/

theorem meterFor_off {s : State} (h : bsuOn s = false) (core owner cls key tokens : Nat) :
    meterFor s core owner cls key tokens = (true, s) := by
  unfold meterFor
  rw [h]
  rfl

/-- A prefetch of a page that may not be read only looks for it. -/
theorem exec_pref_none {s t : State} {m : MemOp} {clc : Bool}
    (hpeek : peek s (.core (coreOf s.cur)) (asidOf s s.cur) (memAddr (cc s) m).toNat (some .read) = (none, t)) :
    exec (.pref m clc) s = .next t := by
  show execPref _ _ s = _
  unfold execPref
  apply run_ok
  rw [M_bind_ok (getC_apply s), modify_apply]
  dsimp only
  rw [hpeek]

/-- A prefetch of plain HBM that nothing meters brings the line into the L1D. -/
theorem exec_pref {s : State} {m : MemOp} {pa : Nat}
    (hpeek : peek s (.core (coreOf s.cur)) (asidOf s s.cur) (memAddr (cc s) m).toNat (some .read) = (some (s.pkg, pa, 0), s))
    (hpa : pa < 0x00C000000000) (hbsu : bsuOn s = false) :
    exec (.pref m false) s = .next (l1Ensure s (coreOf s.cur) (pa / 128) false).2 := by
  show execPref _ _ s = _
  unfold execPref
  apply run_ok
  rw [M_bind_ok (getC_apply s), modify_apply]
  dsimp only
  rw [hpeek]
  dsimp only
  rw [cacheable_hbm hpa (by decide), meterFor_off hbsu]
  rfl

theorem l1d_clcMark (s : State) (core ln : Nat) : (clcMark s core ln).l1d = s.l1d := by
  unfold clcMark
  repeat' split
  all_goals rfl
theorem ctx_clcMark (s : State) (core ln : Nat) : (clcMark s core ln).ctx = s.ctx := by
  unfold clcMark
  repeat' split
  all_goals rfl
theorem hbm_clcMark (s : State) (core ln : Nat) : (clcMark s core ln).hbm = s.hbm := by
  unfold clcMark
  repeat' split
  all_goals rfl

/-- A line that only the cluster holds enters the L1D clean, where there is room. -/
theorem l1Ensure_clcLine {s : State} {core ln : Nat} {c : Line} (habsent : l1Line s core ln = none)
    (hc : clcLine s (core / 8) ln = some c) (hgens : c.gens = gensClc (clcOf s (core / 8)))
    (hroom : (l1Of s core).lines.length < 512) : ∃ l, l.data = c.data ∧ l.dirty = 0
      ∧ (l1Ensure s core ln false).2 = setL1 (clcMark s core ln) core ln (some l) := by
  have habsent : SMap.get? (l1Of s core).lines ln = none := habsent
  have hroom : (l1Of (clcMark s core ln) core).lines.length < 512 := by
    unfold l1Of
    rw [l1d_clcMark]
    exact hroom
  refine ⟨{ data := c.data, psn := c.psn, gens := gensL1 (l1Of s core) }, rfl, rfl, ?_⟩
  unfold l1Ensure
  rw [habsent]
  dsimp only
  rw [clcEnsure_current hc hgens, Bool.false_and, if_neg Bool.false_ne_true]
  dsimp only
  unfold l1Fill
  dsimp only
  rw [decide_eq_true hroom, Bool.true_or, if_pos rfl]

/-! ### `tlbinv` (R289) -/

section
variable {s : State} {a b : SReg} {q : BitVec 3} (hq : rdP (cc s) q = true)
include hq

theorem exec_tlbinv (hown : (rdS (cc s) b).toNat = asidOf s s.cur) (hasid : asidOf s s.cur < 65536) (all : Bool) :
    exec (.tlbinv a b q all) s =
      .next { upd s (fun x => { x with inval := x.inval + 1 }) with mmu := { s.mmu with inval := s.mmu.inval ++
        [{ asid := asidOf s s.cur, va := if all then none else some (rdS (cc s) a).toNat, by_ := some s.cur }] } } := by
  have hbits : bitsAt (asidOf s s.cur) 0 16 = asidOf s s.cur := by
    exact (congrArg (· % 2 ^ 16) Nat.shiftRight_zero).trans (Nat.mod_eq_of_lt hasid)
  show run 0 _ s = _
  apply run_ok
  rw [M_bind_ok (getC_apply s), if_pos hq]
  dsimp only
  rw [hown, hbits, bne_self_eq_false, M_bind_ok (trapIf_false ..), modify_apply]
  rfl

theorem exec_tlbinv_other (hother : (rdS (cc s) b).toNat ≠ asidOf s s.cur) (hall : allHere (cc s) = true) (all : Bool) :
    exec (.tlbinv a b q all) s = .next (takeTrap s s.cur 12 (if all then 0 else rdS (cc s) a) 0 (some 0)) := by
  show run 0 _ s = _
  refine run_trap ?_ hall
  rw [M_bind_ok (getC_apply s), if_pos hq]
  dsimp only
  rw [bne_iff_ne.2 hother, M_bind_error (trapIf_true ..)]

end

/-! ### The control of caches and translations -/

section
variable {s : State} {k pa n cp : Nat} {l c : Line}

/-- The bytes of one line that a `cwb` at cluster scope covers, which both caches hold, are in the cluster's line, and their sectors
are clean in the core's. -/
theorem cachesLine_cwbPages {va asid j : Nat} (hpeek : peek s (.core (coreOf k)) asid va none = (some (s.pkg, pa, cp), s))
    (hpa : pa < 0x00C000000000) (hpage : va % 65536 + n < 65536) (hcp : cp ≤ 1)
    (h : CachesLine s s (coreOf k) (pa / 128) c l) (hl1 : ∀ ln l', (ln, l') ∈ (l1Of s (coreOf k)).lines → ln = pa / 128)
    (hclc : ∀ ln l', (ln, l') ∈ (clcOf s (coreOf k / 8)).lines → ln = pa / 128) (hno : l.noClc = false)
    (hdirty : l.dirty = BitVec.allOnes 128) (hgens : c.gens = gensClc (clcOf s (coreOf k / 8))) :
    ∃ c' l', c'.data = (Line_put c l.data (sectorMask (pa / 128) pa (pa + n))).data ∧ l'.data = l.data
      ∧ l'.dirty = ~~~sectorMask (pa / 128) pa (pa + n)
      ∧ CachesLine s (cwbPages s k asid 2 (va + n) (j + 1) va) (coreOf k) (pa / 128) c' l' := by
  have hmask : (l.dirty &&& sectorMask (pa / 128) pa (pa + n)) = sectorMask (pa / 128) pa (pa + n) := by
    rw [hdirty, BitVec.allOnes_and]
  have hsome : sectorMask (pa / 128) pa (pa + n) ≠ 0 := fun h0 => by
    have hbit := getLsbD_sectorMask (pa / 128) pa (pa + n) (i := pa % 128) (Nat.mod_lt _ (by omega))
    rw [h0, decide_eq_true (by omega)] at hbit
    exact absurd hbit (by simp)
  have hheld : pa / 128 ∈ linesCovering s k pa (pa + n) :=
    List.mem_filter.2 ⟨List.mem_append_left _ (List.mem_map_of_mem (SMap.mem_of_get? h.l1)), by simp [Nat.div_le_div_right]⟩
  have hnone : ∀ i ∈ linesCovering s k pa (pa + n), i = pa / 128 := fun i hi => by
    obtain ⟨hi, -⟩ := List.mem_filter.1 hi
    rcases List.mem_append.1 hi with hi | hi
    · obtain ⟨⟨ln, l'⟩, hmem, rfl⟩ := List.mem_map.1 hi
      exact hl1 ln l' hmem
    · obtain ⟨⟨ln, l'⟩, hmem, rfl⟩ := List.mem_map.1 hi
      exact hclc ln l' hmem
  obtain ⟨c', l', hc', hl', hclean, hparts⟩ := cachesLine_wbParts (lo := pa) (hi := pa + n) h hgens hno (by rwa [hmask])
    (List.ne_nil_of_mem hheld) hnone
  refine ⟨c', l', by rw [hc', hmask], hl', by rw [hclean, hdirty, BitVec.allOnes_and], ?_⟩
  rw [cwbPages_page hpeek (cacheable_hbm hpa (by omega)) (Nat.le_add_right ..) (by omega), Nat.add_sub_cancel_left]
  exact hparts

end

/-- `cwb`, `pref` and `tlbinv` act on what they name alone (R284, R285, R289). -/
theorem cacheAndTranslationControl : CacheAndTranslationControl := by
  intro s a b q sc m all pa cp l c x core va n pv s0 hq
  have hpv : memAddr (cc s) m = pv := memAddr_eq (cc s) m
  refine ⟨exec_cwb_nothing hq, fun hpos hsc hstq hpeek hpa hline hpage hcp hl1 hl hno hdirty hclc hc hgens => ?_,
    fun clc s2 hpeek => exec_pref_none (hpv ▸ hpeek), fun hpeek hpa hcp hbsu hroom habsent hc hgens => ?_,
    fun hown hasid => exec_tlbinv hq hown hasid all, fun hother hall => exec_tlbinv_other hq hother hall all⟩
  · have hs0 : s0 = emptied s s.cur := drainAll_empty hstq
    have hctx : ∀ k, ctxOf s0 k = ctxOf s k := fun k => by rw [hs0, ctxOf_emptied hstq]
    have hcur0 : s0.cur = s.cur := by rw [hs0]; rfl
    have hhbm0 : s0.hbm = s.hbm := by rw [hs0]; rfl
    subst hsc
    have hin : CachesLine s0 s0 core (pa / 128) c l := by
      rw [hs0]
      exact ⟨hc, hl, fun _ => rfl, rfl, rfl⟩
    obtain ⟨c', l', hdata, hsame, hclean, hthere⟩ := cachesLine_cwbPages (k := s.cur) (va := va.toNat) (asid := asidOf s s.cur)
      (j := n / 65536 + 1) (n := n) (cp := cp) (by rw [hs0] at hpeek ⊢; exact hpeek) hpa hpage hcp hin
      (by rw [hs0]; exact fun ln l' h => (hl1 ln l' h).1) (by rw [hs0]; exact fun ln l' h => (hclc ln l' h).1) hno hdirty
      (by rw [hs0]; exact hgens)
    obtain ⟨hclc', hl1', hctx', hhbm', hcur'⟩ := hthere
    refine ⟨_, c', l', exec_cwb hq rfl hpos (by decide) rfl ?_, fun k => ?_, ?_, hclc', hl1', hsame, fun i hi => ?_⟩
    · have hcur : ctxOf s _ = ctxOf s s.cur := congrArg (ctxOf s) (hcur'.trans hcur0)
      exact congrArg Ctx.farOut ((hctx' _).trans ((hctx _).trans hcur))
    · rw [ctxOf_upd_id]
      exact (hctx' k).trans (hctx k)
    · exact hhbm'.trans hhbm0
    · have hinside : (sectorMask (pa / 128) pa (pa + n)).getLsbD i
          = decide (pa % 128 / 32 ≤ i / 32 ∧ i / 32 ≤ (pa % 128 + n) / 32) := by
        rw [getLsbD_sectorMask _ _ _ hi]
        exact decide_eq_decide.2 (by omega)
      refine ⟨?_, ?_⟩
      · rw [hclean, BitVec.getLsbD_not, hinside, decide_eq_true hi, Bool.true_and]
      · rw [hdata, byte_Line_put _ _ _ hi, hinside]
        split <;> rfl
  · subst hcp
    obtain ⟨l', hdata, hclean, hensure⟩ := l1Ensure_clcLine habsent hc hgens hroom
    refine ⟨_, l', exec_pref (hpv ▸ hpeek) hpa hbsu, ?_⟩
    rw [hensure]
    exact ⟨ctx_clcMark .., hbm_clcMark .., l1Line_setL1_self .., hdata, hclean⟩

/-- Settles O24: a fence waits, releases and acquires as its order says, and `cwb`, `pref` and `tlbinv` act on what they name. -/
theorem fencesAndCacheControl : Obligations.FencesAndCacheControl := ⟨fencesReleaseAndAcquire, cacheAndTranslationControl⟩

end Sys2Proof.Machine
end
